-- ==== Sys2Proof/Word.lean ====
section
/-!
DEFINITION. The word types: bit vectors of the widths the spec gives its fields (R4), and timestamps.
-/

namespace Sys2Proof

/-- One byte of memory, of a payload or of a ring entry. -/
abbrev Byte := BitVec 8

/-- A 16-bit immediate of an engine instruction (R387). -/
abbrev W16 := BitVec 16

/-- The 21-bit displacement of JAL (R387). -/
abbrev W21 := BitVec 21

/-- A register's 32 bits (R502), or an engine instruction word. -/
abbrev W32 := BitVec 32

/-- An engine register's payload, or any 64-bit field. -/
abbrev W64 := BitVec 64

/-- A fine timestamp: 56 bits of coarse ticks above 8 bits of 1/256 tick (R5, R153). -/
abbrev Stamp := BitVec 64

end Sys2Proof
end

