-- ==== Sys2Proof/Syntax.lean ====
section
/-!
DEFINITION. The commands of the block: one constructor of `Instr` per row of spec/opcode_table.json.

The rows are of three sorts.  Rows 0x0001 to 0x0F01 of the opcode index (R98) are host commands and carry the
descriptor and payload the device has read (`Cmd`).  Event rows carry the unit the event happens on and the values
the device measures there (an edge's stamp, a count, an ADC code): the model does not choose those values.  Engine
rows carry the logical engine that executes the word and the operand fields of its encoding (R387).
-/

namespace Sys2Proof

/-- A command as the device holds it once descriptor and payload are read (R77): the issuing port (its die) and
command ring, the descriptor's fields, and the payload (inline 40 bytes, or the extended payload). -/
structure Cmd where
  port : Nat
  ring : Nat
  tag : W32
  flags : Nat
  unit : Nat
  timeout : Nat
  applyAt : Nat
  payload : List Byte
  deriving DecidableEq, Repr

/-- The four kinds of ring (R73); their codes in EV_RING_ERROR are 1 to 4 (R99). -/
inductive RingKind where
  | command
  | completion
  | event
  | stream
  deriving DecidableEq, Repr

/-- A logical Cufix engine: its die and its index 0 to 15 (R36). -/
structure Eng where
  die : Nat
  idx : Nat
  deriving DecidableEq, Repr

/-- A resource that failed BIST at boot (R574): its die, its resource kind and index as REPAIR records name them
(R578), and whether the index names a spare (R577) or the resource itself.  A spare of a link or memory has the port or
memory in `place`. -/
structure BistFail where
  die : Nat
  kind : Nat
  index : Nat
  spare : Bool
  place : Nat
  deriving DecidableEq, Repr

/-- What a drive answers when it attaches (R60, R437, R438): PCI vendor and device, link speed and width, I/O queue pairs granted, MQES,
namespace size in LBAs, LBA size, largest transfer in bytes, serial number, whether the namespace suits Fixer, and the critical warnings
of its SMART / Health log. -/
structure DriveInfo where
  vendor : Nat
  device : Nat
  gt : Nat
  width : Nat
  queues : Nat
  mqes : Nat
  lbas : Nat
  blockBytes : Nat
  maxTransfer : Nat
  serial : List Byte
  suitable : Bool
  warn : Nat
  deriving DecidableEq, Repr

/-- The coefficients an adaptation ends with (R105, R138): CTLE code, main-cursor index, the 24 FFE coefficients, the
DFE coefficient and the gain code. -/
structure EqVals where
  ctle : Nat
  ffe : List Int
  dfe : Int
  gain : Nat
  deriving DecidableEq, Repr

/-- The NVMe commands Fixer issues beside Write (R438, R447). -/
inductive NvmeWhat where
  | read
  | flush
  | deallocate
  | admin
  deriving DecidableEq, Repr

/-- The instructions of an engine (R387 to R390), with the operand fields of their words. -/
inductive EngOp where
  | engAdd (d a b : Nat)
  | engSub (d a b : Nat)
  | engAnd (d a b : Nat)
  | engOr (d a b : Nat)
  | engXor (d a b : Nat)
  | andn (d a b : Nat)
  | shl (d a b : Nat)
  | shr (d a b : Nat)
  | sar (d a b : Nat)
  | ror (d a b : Nat)
  | slt (d a b : Nat)
  | sltu (d a b : Nat)
  | engMin (d a b : Nat)
  | engMax (d a b : Nat)
  | minu (d a b : Nat)
  | maxu (d a b : Nat)
  | engMul (d a b : Nat)
  | mulhu (d a b : Nat)
  | mulh (d a b : Nat)
  | clz (d a : Nat)
  | ctz (d a : Nat)
  | popc (d a : Nat)
  | bswap (d a : Nat)
  | movw (d a : Nat)
  | setside (d a b : Nat)
  | getside (d a : Nat)
  | addi (d a : Nat) (imm : W16)
  | andi (d a : Nat) (imm : W16)
  | ori (d a : Nat) (imm : W16)
  | xori (d a : Nat) (imm : W16)
  | shifti (d a kind amt : Nat)
  | slti (d a : Nat) (imm : W16)
  | sltiu (d a : Nat) (imm : W16)
  | movz (d k : Nat) (imm : W16)
  | movk (d k : Nat) (imm : W16)
  | extr (d a pos len : Nat)
  | insr (d a pos len : Nat)
  | ldb (d a : Nat) (imm : W16)
  | ldh (d a : Nat) (imm : W16)
  | ldd (d a : Nat) (imm : W16)
  | ldq (d a : Nat) (imm : W16)
  | ldw (d a : Nat) (imm : W16)
  | stb (d a : Nat) (imm : W16)
  | sth (d a : Nat) (imm : W16)
  | std (d a : Nat) (imm : W16)
  | stq (d a : Nat) (imm : W16)
  | stw (d a : Nat) (imm : W16)
  | beq (d a : Nat) (imm : W16)
  | bne (d a : Nat) (imm : W16)
  | blt (d a : Nat) (imm : W16)
  | bge (d a : Nat) (imm : W16)
  | bltu (d a : Nat) (imm : W16)
  | bgeu (d a : Nat) (imm : W16)
  | jal (d : Nat) (imm : W21)
  | jalr (d a : Nat) (imm : W16)
  | engCrc (d a b n : Nat)
  | engHash (d a b : Nat) (cls : Option Nat)
  | engMark (d a b : Nat)
  | trig (a b : Nat)
  | sin (d p : Nat)
  | sinfo (d p sel : Nat)
  | savail (d p : Nat)
  | sin2 (d p : Nat)
  | sout (q a b : Nat)
  | sspace (d q : Nat)
  | nop
  | engWait (d a b : Nat)
  | ckpt
  | halt (a : Nat)
  | engTrap (code : Nat)
  | mfs (d sr : Nat)
  | sev (d : Nat)
  | mbxack
  | mbxpost (a : Nat)
  | cache (op : Nat)
  | xkick (a : Nat)
  deriving DecidableEq, Repr

/-- The commands of the block, one constructor per row of the opcode table, in the table's order. -/
inductive Instr where
  /-- UNIT_ENUMERATE (R55). Writes 16-byte entries for units and groups in ascending ID order from START_ID into a host buffer. -/
  | unitEnumerate (c : Cmd)
  /-- UNIT_QUERY (R62). Returns the enumeration entry of one unit or group, with the derived state for a group. -/
  | unitQuery (c : Cmd)
  /-- UNIT_WAKE (R45). Wakes a unit or group, first waking its dependencies, and completes when all of them are AWAKE. -/
  | unitWake (c : Cmd)
  /-- UNIT_SLEEP (R43). Puts a unit or group and its dependents to sleep, refusing the units the receiving host port depends on. -/
  | unitSleep (c : Cmd)
  /-- UNIT_CLEAR_FAULT (R39). Moves a unit from FAULT to ASLEEP when the cause has been removed. -/
  | unitClearFault (c : Cmd)
  /-- GROUP_CREATE (R46). Creates a host group with a chosen number and policy. -/
  | groupCreate (c : Cmd)
  /-- GROUP_ADD (R47). Adds a member to a group at a position, checking form, presence, cycles and free entries. -/
  | groupAdd (c : Cmd)
  /-- GROUP_REMOVE (R619). Removes the first occurrence of a direct member from a group. -/
  | groupRemove (c : Cmd)
  /-- GROUP_DELETE (R52). Deletes a group, first removing it from its parents when FORCE is set. -/
  | groupDelete (c : Cmd)
  /-- GROUP_LIST (R62). Writes the direct members of a group to a host buffer and reports the member count. -/
  | groupList (c : Cmd)
  /-- LANE_CONFIGURE (R135). Sets a lane group's base rate, or a lane's enable, listen, polarity, modulation, divider and squelch. -/
  | laneConfigure (c : Cmd)
  /-- LANE_SET_FRAMER (R136). Sets a lane's framer mode and flags at the effect time, as an exit from the attach state. -/
  | laneSetFramer (c : Cmd)
  /-- LANE_SET_EQUALISER (R137). Sets the CTLE, FFE, DFE and CDR settings and adaptation modes of a lane. -/
  | laneSetEqualiser (c : Cmd)
  /-- LANE_ADAPT (R138). Starts an adaptation of selected equaliser blocks on the live signal for a given duration. -/
  | laneAdapt (c : Cmd)
  /-- LANE_DESKEW (R128). Sets a lane's deskew delay manually, or starts an automatic deskew of masked lanes of a die. -/
  | laneDeskew (c : Cmd)
  /-- MONITOR_SWEEP (R132). Starts or stops a monitor-sampler sweep over phases and thresholds of a locked lane. -/
  | monitorSweep (c : Cmd)
  /-- LANE_READ_STATUS (R141). Returns the lane state, equaliser values, delay, CDR offset and error count. -/
  | laneReadStatus (c : Cmd)
  /-- PLL_CONFIGURE (R173). Sets a sleeping PLL's bandwidth, lock notification and DPLL frequency. -/
  | pllConfigure (c : Cmd)
  /-- PLL_STEP (R149). Starts a frequency step of a running LPLL at 1 ppm per microsecond. -/
  | pllStep (c : Cmd)
  /-- REFOUT_START (R151). Starts REFOUT at the first REFOUT rising edge at or after the effect time. -/
  | refoutStart (c : Cmd)
  /-- REFOUT_STOP (R151). Lets the REFOUT period in progress finish and drives no further rising edge. -/
  | refoutStop (c : Cmd)
  /-- TIME_READ (R173). Returns the die's timestamp at the effect tick with the reference state and mode. -/
  | timeRead (c : Cmd)
  /-- SYNC_ARM (R173). Arms, replaces or disarms a SYNC action and sets SYNC_OUT repetition. -/
  | syncArm (c : Cmd)
  /-- REF_SET_MODE (R162). Selects BUILDOUT or REALIGN handling for the return of REFCLK. -/
  | refSetMode (c : Cmd)
  /-- TDC_ARM (R170). Arms a TDC measurement with start and stop sources and a window, or cancels one. -/
  | tdcArm (c : Cmd)
  /-- TDC_READ (R174). Writes the last completed TDC measurement to a host buffer. -/
  | tdcRead (c : Cmd)
  /-- CAPTURE_CONFIGURE (R224). Configures a capture stream's mode, format, masks and segment parameters and resets its numbering. -/
  | captureConfigure (c : Cmd)
  /-- CAPTURE_ARM (R212). Arms an Exposure stream so that its first segment enters FILLING at the effect time. -/
  | captureArm (c : Cmd)
  /-- CAPTURE_DISARM (R218). Disarms an Exposure stream, letting or cutting a segment in POST, and then enters IDLE. -/
  | captureDisarm (c : Cmd)
  /-- ROLL_START (R200). Starts committing a Roll stream's entries from the effect time t_start. -/
  | rollStart (c : Cmd)
  /-- ROLL_STOP (R201). Stops a Roll stream at t_stop and completes when its last envelope is formed. -/
  | rollStop (c : Cmd)
  /-- SPOOL_ALLOCATE (R222). Allocates, resizes or frees a stream's spool and sets retention and level thresholds. -/
  | spoolAllocate (c : Cmd)
  /-- STREAM_BIND (R208). Connects a capture stream to a stream ring. -/
  | streamBind (c : Cmd)
  /-- STREAM_UNBIND (R621). Unbinds a stream from its ring, closing an END buffer when the ring can take one. -/
  | streamUnbind (c : Cmd)
  /-- BLOCK_RESEND (R209). Re-sends a range of retained envelopes through the stream's ring. -/
  | blockResend (c : Cmd)
  /-- MARK_INSERT (R225). Inserts an MK_USER mark into a stream or group of streams at the effect time. -/
  | markInsert (c : Cmd)
  /-- RATE_LIMIT_SET (R203). Sets or removes a token-bucket word-rate limit on a Roll stream, filling the bucket. -/
  | rateLimitSet (c : Cmd)
  /-- RECORD_READ (R217). Writes a kept Exposure segment to a host buffer and optionally frees it. -/
  | recordRead (c : Cmd)
  /-- MATCHER_LOAD (R239). Replaces all 16 stages of a lane matcher at the effect time. -/
  | matcherLoad (c : Cmd)
  /-- NEGSTORE_LOAD (R246). Applies insert, delete and class records to the Negative store after checking them all. -/
  | negstoreLoad (c : Cmd)
  /-- NEGSTORE_CLEAR (R247). Removes entries of chosen classes, and with ALL resets classes and sets SEED. -/
  | negstoreClear (c : Cmd)
  /-- COMPARATOR_CONFIGURE (R271). Configures a spectral-mask or level/edge comparator of a die. -/
  | comparatorConfigure (c : Cmd)
  /-- SEQUENCER_LOAD (R262). Loads a disarmed sequencer's states, limits, timer durations and holdoff. -/
  | sequencerLoad (c : Cmd)
  /-- SEQUENCER_ARM (R261). Clears counters, stops timers and enters state 0 at t_arm. -/
  | sequencerArm (c : Cmd)
  /-- SEQUENCER_DISARM (R261). Stops a sequencer's evaluation from the effect tick. -/
  | sequencerDisarm (c : Cmd)
  /-- SHUTTER_FIRE (R255). Gives a host candidate on a die, or issues a DIRECT Shutter event at a named time. -/
  | shutterFire (c : Cmd)
  /-- TRIGIN_CONFIGURE (R253). Enables a TRIG_IN input with its edge and filter. -/
  | triginConfigure (c : Cmd)
  /-- TRIGOUT_CONFIGURE (R267). Sets a TRIG_OUT pin's mode, masks, width, offset and polarity for later events. -/
  | trigoutConfigure (c : Cmd)
  /-- SHUTTER_READ_COUNTERS (R272). Returns and optionally clears the miss, sequencer or die Shutter counters. -/
  | shutterReadCounters (c : Cmd)
  /-- CHAIN_CONFIGURE (R309). Changes a spectral chain's filtering, NCO, transform and export settings at the effect time. -/
  | chainConfigure (c : Cmd)
  /-- CHAIN_SELECT_LANE (R283). Connects a chain to a die lane, swapping the saved DC estimates. -/
  | chainSelectLane (c : Cmd)
  /-- CHAIN_START (R317). Starts a configured chain, which then settles. -/
  | chainStart (c : Cmd)
  /-- CHAIN_STOP (R315). Stops a chain at the effect time, discarding incomplete records. -/
  | chainStop (c : Cmd)
  /-- MASK_LOAD (R305). Writes a run of mask-memory entries as one atomic change. -/
  | maskLoad (c : Cmd)
  /-- DCBLOCK_FREEZE (R282). Freezes or releases the DC-block estimate. -/
  | dcblockFreeze (c : Cmd)
  /-- MEASURE_CONFIGURE (R342). Enables and sets per-record measurement of a chain's Exposure segments. -/
  | measureConfigure (c : Cmd)
  /-- SHEET_CONFIGURE (R323). Sets an accumulator's Contact sheet kind and size, allocating or freeing its surface region, and clears it. -/
  | sheetConfigure (c : Cmd)
  /-- SHEET_CLEAR (R332). Zeroes an accumulator's counters at the effect time. -/
  | sheetClear (c : Cmd)
  /-- SHEET_EXPORT (R333). Takes a snapshot of a sheet at the effect time and starts writing its surface. -/
  | sheetExport (c : Cmd)
  /-- CAL_CONFIGURE (R377). Sets a lane's Test strip mode, apply mode and qualification limits. -/
  | calConfigure (c : Cmd)
  /-- CAL_LOAD (R375). Replaces the coefficients of sleeping lanes from checked records. -/
  | calLoad (c : Cmd)
  /-- CAL_SAVE (R374). Writes the coefficients in force as records to a host buffer. -/
  | calSave (c : Cmd)
  /-- CAL_HOLD (R377). Suspends or resumes Test strips on a lane. -/
  | calHold (c : Cmd)
  /-- IMAGE_LOAD (R411). Reads, checks and loads a signed Malram image onto an engine. -/
  | imageLoad (c : Cmd)
  /-- IMAGE_UNLOAD (R415). Frees an engine's heap, releases its ports and deletes its derived streams. -/
  | imageUnload (c : Cmd)
  /-- ENGINE_START (R413). Applies bindings and grants and runs an engine from entry or its stop point. -/
  | engineStart (c : Cmd)
  /-- ENGINE_STOP (R414). Stops an engine now or at its next checkpoint or WAIT point. -/
  | engineStop (c : Cmd)
  /-- ENGINE_READ_STATE (R422). Returns an engine's state and optionally writes its registers to a host buffer. -/
  | engineReadState (c : Cmd)
  /-- SERVICE_START (R427). Verifies a service image and starts it as an instance on a set of engines. -/
  | serviceStart (c : Cmd)
  /-- SERVICE_STOP (R430). Stops a service instance by draining or at a point, and optionally releases it. -/
  | serviceStop (c : Cmd)
  /-- SERVICE_QUERY (R450). Returns a service slot's state, engines, volume state and delivered count. -/
  | serviceQuery (c : Cmd)
  /-- VOLUME_CREATE (R448). Creates a Fixer volume on member drives and writes their superblocks. -/
  | volumeCreate (c : Cmd)
  /-- VOLUME_CLOSE (R450). Writes the remaining envelopes formed before t and closes the volume. -/
  | volumeClose (c : Cmd)
  /-- XFER_LOAD (R481). Writes a transfer program and channel settings and allocates a buffer. -/
  | xferLoad (c : Cmd)
  /-- XFER_START (R482). Runs a channel's program from ENTRY at the effect time. -/
  | xferStart (c : Cmd)
  /-- XFER_PAUSE (R474). Pauses a channel, draining its reads in flight. -/
  | xferPause (c : Cmd)
  /-- XFER_RESUME (R479). Continues a paused or failed channel, optionally skipping the remainder. -/
  | xferResume (c : Cmd)
  /-- XFER_RESET (R482). Pauses a channel, discards its state and enters IDLE. -/
  | xferReset (c : Cmd)
  /-- EEPROM_READ (R532). Reads bytes from a probe head's EEPROM into a host buffer. -/
  | eepromRead (c : Cmd)
  /-- BIAS_CONFIGURE (R520). Sets a bias channel's slew settings and, on a range change, runs the range-change sequence. -/
  | biasConfigure (c : Cmd)
  /-- BIAS_SET (R519). Sets a bias channel's target code in shadow and applied value. -/
  | biasSet (c : Cmd)
  /-- PWM_CONFIGURE (R526). Sets a probe port's PWM at the next period boundary. -/
  | pwmConfigure (c : Cmd)
  /-- HKADC_CONFIGURE (R528). Selects the HK ADC's start source, period and delay. -/
  | hkadcConfigure (c : Cmd)
  /-- HKA_CAL_ZERO (R531). Measures the zero point of a sense channel over 256 conversions. -/
  | hkaCalZero (c : Cmd)
  /-- HKA_CAL_FS (R531). Measures the full-scale point and writes the channel's gain and offset. -/
  | hkaCalFs (c : Cmd)
  /-- PROOF_CONFIGURE (R556). Sets panel and link, raises PANEL_RST_N and sends the init list. -/
  | proofConfigure (c : Cmd)
  /-- LAYER_CONFIGURE (R546). Changes a layer in the staged state. -/
  | layerConfigure (c : Cmd)
  /-- PALETTE_LOAD (R546). Changes palette entries in the staged state. -/
  | paletteLoad (c : Cmd)
  /-- REGION_PUSH (R557). Replaces the staged region list. -/
  | regionPush (c : Cmd)
  /-- PRF_COMMIT (R546). Copies staged layers and palettes to the committed state and adds staged regions to the pending list. -/
  | prfCommit (c : Cmd)
  /-- REPAIR_APPLY (R579). Swaps a resource to a Reserve-tray spare and completes when the swap takes effect. -/
  | repairApply (c : Cmd)
  /-- REPAIR_READ (R578). Writes the repair record in force to a host buffer. -/
  | repairRead (c : Cmd)
  /-- HEALTH_READ (R581). Writes health entries of resources at or above a minimum level. -/
  | healthRead (c : Cmd)
  /-- SAFELIGHT_ENTER (R568). Puts a die or every unfenced die in Safelight mode with cause COMMAND. -/
  | safelightEnter (c : Cmd)
  /-- SAFELIGHT_EXIT (R570). Clears FENCE and COMMAND and leaves Safelight mode when no other cause holds. -/
  | safelightExit (c : Cmd)
  /-- THERMAL_CONFIGURE (R565). Sets WARN and THROTTLE thresholds of a die or every die. -/
  | thermalConfigure (c : Cmd)
  /-- ATTEST (R584). Writes a report of measurements and repair record signed by the identity key. -/
  | attest (c : Cmd)
  /-- CERT_READ (R585). Writes the device certificate chain to a host buffer. -/
  | certRead (c : Cmd)
  /-- MEASUREMENT_READ (R583). Writes entries of the measurement log to a host buffer. -/
  | measurementRead (c : Cmd)
  /-- PORT_ECHO (R97). Returns payload bytes 0 to 15 as its result. -/
  | portEcho (c : Cmd)
  /-- COMMAND_FETCH (R79). The device fetches and checks the next command of the highest-priority ring with work and a free completion slot. -/
  | commandFetch (port : Nat) (descOk extOk : Bool)
  /-- APPLY_AT_REACHED (R81). A scheduled command takes effect at its APPLY_AT tick on the target die. -/
  | applyAtReached
  /-- COMMAND_TIMEOUT (R83). A command's TIMEOUT expires and it completes with TIMED_OUT. -/
  | commandTimeout (id : Nat)
  /-- CMD_DOORBELL (R75). Host writes a command ring's producer index; an inconsistent index puts the ring in ERROR. -/
  | cmdDoorbell (port n v : Nat)
  /-- CQ_DOORBELL (R75). Host writes a completion ring's consumer index. -/
  | cqDoorbell (port n v : Nat)
  /-- EVR_DOORBELL (R90). Host writes the event ring's consumer index, freeing slots for held events. -/
  | evrDoorbell (port v : Nat)
  /-- SR_DOORBELL (R94). Host posts stream ring entries, adding credit. -/
  | srDoorbell (port r v : Nat)
  /-- CMD_RING_ENABLE (R74). Setting HST_CR_CTL.EN enables a command and completion ring pair with indices 0 and phase 1. -/
  | cmdRingEnable (port n : Nat) (v : W32)
  /-- CMD_RING_DISABLE (R74). Clearing HST_CR_CTL.EN moves the ring to DRAINING, or leaves ERROR. -/
  | cmdRingDisable (port n : Nat) (v : W32)
  /-- EVENT_RING_ENABLE (R74). Setting HST_EVR_CTL.EN enables the event ring. -/
  | eventRingEnable (port : Nat) (v : W32)
  /-- EVENT_RING_DISABLE (R74). Clearing HST_EVR_CTL.EN stops the event ring at once. -/
  | eventRingDisable (port : Nat) (v : W32)
  /-- STREAM_RING_ENABLE (R91). Setting HST_SR_CTL.EN checks depth and port and enables a stream ring. -/
  | streamRingEnable (r : Nat) (v : W32)
  /-- STREAM_RING_DISABLE (R91). Clearing HST_SR_CTL.EN drains the open buffer with FLUSHED. -/
  | streamRingDisable (r : Nat) (v : W32)
  /-- RING_DRAIN_DONE (R74). A DRAINING ring finishes its fetched commands or open buffer and becomes DISABLED. -/
  | ringDrainDone (kind : RingKind) (port n : Nat)
  /-- EVENT_RELEASE (R89). Die 0's time reaches an event's release time and the event is written in timestamp order. -/
  | eventRelease
  /-- EVENT_LATE_ARRIVAL (R89). An event reaches die 0 after its release time and is written at once with LATE. -/
  | eventLateArrival (k : Nat)
  /-- IRQ_TIMER_EXPIRY (R95). IRQ_TIME elapses since the first unreported entry and the ring's vector is raised. -/
  | irqTimerExpiry (kind : RingKind) (port n : Nat)
  /-- ENVELOPE_DELIVER (R93). The device writes the next envelope into a posted stream buffer, closing it when full. -/
  | envelopeDeliver (r : Nat) (readOk : Bool)
  /-- SR_FLUSH_TIMEOUT (R93). A stream buffer's flush interval elapses and it is closed with FLUSHED. -/
  | srFlushTimeout (r : Nat)
  /-- REGISTER_WRITE (R485, R503). A write to registers without behaviour of their own, including lock and ring-lock checks:
  the byte enables and value of each dword of the request. -/
  | registerWrite (port bar ofs : Nat) (dws : List (Nat × W32))
  /-- REGISTER_READ_CLEAR (R502, R503). A read of registers with RC fields clears the enabled RC bits: the byte enables of each
  dword of the request. -/
  | registerReadClear (port bar ofs : Nat) (bes : List Nat)
  /-- RESERVED_READ (R505). A read touching a reserved location returns Completer Abort without side effects: the byte
  enables of each dword of the request. -/
  | reservedRead (port bar ofs : Nat) (bes : List Nat)
  /-- RESERVED_WRITE (R506). A write touching a reserved location: its reserved dwords are discarded and reported; the byte
  enables and value of each dword of the request. -/
  | reservedWrite (port bar ofs : Nat) (dws : List (Nat × W32))
  /-- UPD_STROBE (R490). A write of ones to UPD_STROBE issues a strobe of those groups. -/
  | updStrobe (port d be : Nat) (v : W32)
  /-- UPDATE_STROBE_APPLY (R491). A strobe applies shadows of its groups at the first tick at or after t + 112. -/
  | updateStrobeApply
  /-- CFG_LOCK_SET (R498). Writing 1 to a CFG_LOCK_SET bit sets that lock bit until reset. -/
  | cfgLockSet (port d be : Nat) (v : W32)
  /-- CAPTURE_REF (R496). Setting CFG_CTL.CAPTURE_REF loads CFG_CRC_REF from the next pass. -/
  | captureRef (port d be : Nat) (v : W32)
  /-- CFG_CRC_REF_WRITE (R496). A write of CFG_CRC_REF ends the suspension of the configuration check. -/
  | cfgCrcRefWrite (port d be : Nat) (v : W32)
  /-- CFG_CRC_PASS_END (R495). A configuration CRC pass ends and its result is stored and compared. -/
  | cfgCrcPassEnd (d : Nat)
  /-- SEC_OWNER_HASH_WRITE (R582). The first write to SEC_OWNER_HASH sets the owner key hash and locks it. -/
  | secOwnerHashWrite (port n be : Nat) (v : W32)
  /-- GO (R572). Setting SEC_BOOT_CTL.GO starts verification of the base image. -/
  | go (port be : Nat) (v : W32)
  /-- H2E_BELL (R407). A host write to H2E_BELL posts a host message to an engine. -/
  | h2eBell (port d e v : Nat)
  /-- E2H_ACK (R407). A host write to E2H_ACK releases the engine message. -/
  | e2hAck (port d e : Nat)
  /-- XFR_CH_KICK (R468). A host write of 1 to XFR_CH_KICK.KICK adds a kick to a channel. -/
  | xfrChKick (port d c be : Nat) (v : W32)
  /-- PAUSE_SET (R474). Setting XFR_CH_CTL.PAUSE pauses the channel. -/
  | pauseSet (port d c : Nat) (v : W32)
  /-- PAUSE_CLEAR (R474). Clearing XFR_CH_CTL.PAUSE resumes a PAUSED channel. -/
  | pauseClear (port d c : Nat) (v : W32)
  /-- PBD_CTL_EN_CLEAR (R518). Clearing PBD_CTL.EN turns the bias output off through the limiter. -/
  | pbdCtlEnClear (port d p be : Nat) (v : W32)
  /-- RESET_N_ASSERT (R598). RESET_N low for 125 hk-cycles resets the device. -/
  | resetNAssert
  /-- RESET_N_RELEASE (R598). RESET_N is released, straps are sampled and the AON island starts. -/
  | resetNRelease (straps : Nat) (hot : Bool)
  /-- RAIL_CHECK_TIMEOUT (R593). Rails not in window 10 ms after release fence a die or fail the boot. -/
  | railCheckTimeout (d : Nat)
  /-- CRS_END (R66). 100 ms after PERST# release the port shows the boot window. -/
  | crsEnd (port : Nat)
  /-- BOOT_VERIFY_DONE (R572). Base image verification passes or fails. -/
  | bootVerifyDone
  /-- BOOT_COMPLETE (R574). Start of dies, HBM training, BIST and repair complete and the tree opens. -/
  | bootComplete (failed : List Nat) (bist : List BistFail)
  /-- PERST_ASSERT (R67). PERST# asserted after EV_READY resets the port's function and rings. -/
  | perstAssert (port : Nat)
  /-- PERST_RELEASE (R620). PERST# released after EV_READY retrains the port's link. -/
  | perstRelease (port : Nat)
  /-- HOST_LINK_UP (R56). A host port's link is in L0 with Bus Master Enable set and the HOST partner attaches. -/
  | hostLinkUp (port gt width : Nat)
  /-- HOST_LINK_DOWN (R91). A host port's link goes down and its stream rings lose credit. -/
  | hostLinkDown (port : Nat)
  /-- HOST_DETACH_TIMEOUT (R56). A host link out of L0 for 1 ms detaches the HOST partner. -/
  | hostDetachTimeout (port : Nat)
  /-- DRIVE_PERST_RELEASE (R599). 100 ms after the PPLL locks, a drive port releases PERST_N. -/
  | drivePerstRelease (d : Nat)
  /-- DRIVE_IDENTIFY_DONE (R438). A drive's link is up and Identify completes; the DRIVE partner attaches and Fixer checks it. -/
  | driveIdentifyDone (d p : Nat) (info : DriveInfo)
  /-- DRIVE_LINK_DOWN (R441). A drive's link goes down; the partner detaches and a volume member fails. -/
  | driveLinkDown (d p : Nat)
  /-- UNIT_START_COMPLETE (R39). A STARTING unit's clocks lock and it becomes AWAKE. -/
  | unitStartComplete (u : Nat)
  /-- START_LIMIT_EXPIRY (R41). A unit exceeds its start limit and enters FAULT. -/
  | startLimitExpiry (u : Nat)
  /-- UNIT_STOP_COMPLETE (R39). A STOPPING unit finishes draining and becomes ASLEEP. -/
  | unitStopComplete (u : Nat)
  /-- POWER_GATE_TIMEOUT (R561). A unit ASLEEP for 1 ms is power-gated into retention. -/
  | powerGateTimeout (u : Nat)
  /-- DOMAIN_POWER_UP_DONE (R561). A power-gated domain finishes powering up and its unit enters STARTING. -/
  | domainPowerUpDone (u : Nat)
  /-- SQUELCH_CHANGE (R122). A lane's squelch detector asserts or deasserts signal. -/
  | squelchChange (d n : Nat) (on : Bool)
  /-- LANE_ACQUIRE_ENTRY (R123). A starting lane's receiver is powered and LPLL locked, and it enters ACQUIRE. -/
  | laneAcquireEntry (d n : Nat)
  /-- CDR_LOCK (R123). A lane's CDR locks, then ONCE adaptation starts or the lane becomes LOCKED. -/
  | cdrLock (d n : Nat) (freqOfs : W32)
  /-- ONCE_ADAPT_END (R106). ONCE adaptation ends after 2^21 UI and the lane becomes LOCKED. -/
  | onceAdaptEnd (d n : Nat) (eq : EqVals)
  /-- CDR_LOCK_LOSS (R103). A lane declares CDR lock lost and enters ACQUIRE. -/
  | cdrLockLoss (d n : Nat)
  /-- FRAME_ALIGN_FOUND (R110). The framer finds alignment and the lane becomes FRAMED. -/
  | frameAlignFound (d n : Nat) (ui : List Nat) (stamp : Stamp)
  /-- FRAME_ALIGN_LOST (R110). The framer loses alignment and the lane returns to LOCKED. -/
  | frameAlignLost (d n : Nat) (stamp : Stamp)
  /-- CAPTURE_WORD (R117). A lane produces a stamped capture word that enters matcher, Negative store and look-back. -/
  | captureWord (d n : Nat) (ui : List Nat) (stamp stamp2 : Stamp)
  /-- LINK_DETACH_TIMEOUT (R125). A lane's signal stays lost for LANE_DETACH_T and the LINK partner detaches. -/
  | linkDetachTimeout (d n : Nat)
  /-- LANE_ADAPT_END (R138). A LANE_ADAPT reaches its duration, or stops on a lock loss or sleep. -/
  | laneAdaptEnd (d n : Nat) (eq : EqVals)
  /-- MONITOR_POINT_DONE (R131). A monitor-sampler point finishes its dwell and its count is written. -/
  | monitorPointDone (d n count : Nat)
  /-- DESKEW_MARKERS_SEEN (R128). Markers have been seen on every masked lane and delays are set. -/
  | deskewMarkersSeen (d : Nat) (arrivals : List Nat)
  /-- DESKEW_WINDOW_TIMEOUT (R130). The AUTO deskew window closes without a marker on some lane. -/
  | deskewWindowTimeout (d : Nat)
  /-- PLL_LOCK (R147). A PLL finishes band search and phase lock. -/
  | pllLock (d k band : Nat)
  /-- PLL_RELOCK_FAIL (R165). A PLL fails a relock; after three it enters FAULT. -/
  | pllRelockFail (d k : Nat)
  /-- FPLL_LOCK_LOSS (R163). A die's FPLL loses lock and the die switches to its holding clock. -/
  | fpllLockLoss (d : Nat)
  /-- PLL_LOCK_LOSS (R166). An LPLL, HPLL, PPLL or DPLL loses lock. -/
  | pllLockLoss (d k : Nat)
  /-- PLL_STEP_REACHED (R149). An LPLL reaches the frequency of its step. -/
  | pllStepReached (d k : Nat)
  /-- ALIGN_CHECK (R154). Every 2^16 ticks die 0 checks each die's count and a mismatch reloads it. -/
  | alignCheck (d : Nat)
  /-- HKCLK_TRIM (R146). Every 2^16 hk-cycles the AON island trims HKCLK against REFCLK. -/
  | hkclkTrim (d : Nat) (err : Int) (code : Nat)
  /-- REFOUT_FIRST_EDGE (R151). REFOUT drives its first rising edge after REFOUT_START. -/
  | refoutFirstEdge
  /-- REFOUT_PERIOD_END (R151). The REFOUT period in progress at REFOUT_STOP ends. -/
  | refoutPeriodEnd
  /-- REFCLK_LOST (R160). REFCLK is missing for 100 ns or off frequency and the FPLLs hold. -/
  | refclkLost (why : Nat) (lastGood : Stamp)
  /-- REFCLK_RETURNED (R161). REFCLK stays in range for 2^12 periods and RETURNING begins. -/
  | refclkReturned
  /-- REF_RETURN_APPLY (R162). Frequencies agree, J is measured and applied by the chosen mode. -/
  | refReturnApply (j : Int)
  /-- SYNC_IN_EDGE (R156). Die 0 samples a qualifying SYNC_IN edge E. -/
  | syncInEdge (arrival : Nat) (halfTick : Bool)
  /-- SYNC_ALIGN_APPLY (R157). At E + 8 every die loads SYNC_LOAD at a frame boundary. -/
  | syncAlignApply
  /-- SYNC_OUT_REPEAT (R158). SYNC_OUT repeats the edge at E + OUT_DLY. -/
  | syncOutRepeat
  /-- SYNC_PEER_ATTACH (R56). SYNC_IN driven for 1 ms attaches the SYNC_PEER partner. -/
  | syncPeerAttach
  /-- SYNC_PEER_DETACH (R56). SYNC_IN undriven for 1 ms detaches the SYNC_PEER partner. -/
  | syncPeerDetach
  /-- DLL_LOCK (R168). The TDC delay line locks and TDC_INL is measured. -/
  | dllLock (d : Nat) (inl : List Byte)
  /-- DLL_LOCK_LOSS (R168). The TDC delay line loses lock. -/
  | dllLockLoss (d : Nat)
  /-- TDC_START_EDGE (R170). The start channel's source edge is stamped. -/
  | tdcStartEdge (d src arg : Nat) (cap : Nat) (tap : Nat)
  /-- TDC_STOP_EDGE (R170). A stop channel accepts its first edge within the window. -/
  | tdcStopEdge (d n : Nat) (cap : Nat) (tap : Nat)
  /-- TDC_WINDOW_CLOSE (R170). The measurement window closes and the measurement ends. -/
  | tdcWindowClose (d : Nat)
  /-- TRIG_IN_EDGE (R253). An edge arrives on TRIG_IN and is stamped. -/
  | trigInEdge (n : Nat) (rising : Bool) (cap tap : Nat)
  /-- TRIG_IN_FILTER_EXPIRY (R253). The pin holds its level for FILTER ticks and the candidate is given. -/
  | trigInFilterExpiry (n : Nat)
  /-- LEVEL_CROSSING (R252). A level/edge comparator detects a crossing and gives an interpolated candidate. -/
  | levelCrossing (d k : Nat) (xa xb : Int) (ta tb : Stamp) (low high : Int)
  /-- SEQUENCER_EVALUATE (R257). Die 0 evaluates the candidates of a tick in every sequencer and sends events. -/
  | sequencerEvaluate
  /-- SEQUENCER_TIMER_EXPIRY (R258). A sequencer timer expires and the sequencer evaluates. -/
  | sequencerTimerExpiry (q k : Nat)
  /-- SHUTTER_EVENT_ARRIVAL (R21). A Shutter event is released to every die's consumers at t_event + 112. -/
  | shutterEventArrival
  /-- TRIG_OUT_EDGE (R265). A TRIG_OUT edge is driven at t_event + 160 + OFFSET. -/
  | trigOutEdge (n : Nat)
  /-- TRIG_OUT_PULSE_END (R266). A PULSE-mode TRIG_OUT pulse ends after WIDTH ticks. -/
  | trigOutPulseEnd (n : Nat)
  /-- ENTRY_COMMIT (R192). An entry's look-back time expires and it is committed to an envelope or dropped. -/
  | entryCommit (d i : Nat)
  /-- ENV_FLUSH_TIMEOUT (R199). ENV_FLUSH elapses since an envelope's first entry and it closes with FLUSHED. -/
  | envFlushTimeout (d i : Nat)
  /-- REARM_OPEN (R214). T_open is reached with space for a segment and the next segment enters FILLING. -/
  | rearmOpen (d i : Nat)
  /-- SEGMENT_COMPLETE (R348). A closed segment's envelopes, read-back and measurement envelope are finished. -/
  | segmentComplete (d i : Nat)
  /-- DENSITOMETER_READBACK_DONE (R347). The read-back of a segment ends and the measurement envelope is formed. -/
  | densitometerReadbackDone (d c : Nat)
  /-- RAW_TAP_SAMPLES (R275). A chain receives 16 tap samples in a chain cycle. -/
  | rawTapSamples (d c k : Nat) (xs : List Int) (stamps : List Stamp)
  /-- SETTLING_END (R310). A settling chain produces its first output sample. -/
  | settlingEnd (d c : Nat)
  /-- SPECTRUM_DONE (R300). A transform delivers a spectrum to the comparator, Densitometer and export port. -/
  | spectrumDone (d c : Nat)
  /-- CHAIN_INPUT_LOST (R312). The tap stops delivering and the chain enters NO_INPUT. -/
  | chainInputLost (d c : Nat) (firstMissing : Stamp)
  /-- CHAIN_INPUT_RETURN (R312). Input returns and the chain settles again. -/
  | chainInputReturn (d c : Nat)
  /-- SHEET_EXPORT_DONE (R333). A sheet export finishes writing the surface and any host envelopes. -/
  | sheetExportDone (d k : Nat)
  /-- STRIP_START (R360). A Test strip starts on an active lane. -/
  | stripStart (d n : Nat)
  /-- STRIP_WINDOW_END (R363). An ESTIMATE or CONFIRM window of 2^20 samples ends and is qualified. -/
  | stripWindowEnd (d n k : Nat) (xs : List Int) (last : Stamp)
  /-- STRIP_EVALUATE (R364). At t_eval the estimates are compared and a change applied or held. -/
  | stripEvaluate (d n : Nat)
  /-- GAP_IDLE_APPLY (R368). An idle period begins and a PENDING change applies. -/
  | gapIdleApply (d n : Nat)
  /-- GAP_WAIT_EXPIRY (R368). GAP_WAIT_MS elapses and the PENDING change applies or expires. -/
  | gapWaitExpiry (d n : Nat)
  /-- STALE_INTERVAL_END (R369). The stale interval ends 256 ticks after t_a. -/
  | staleIntervalEnd (d n : Nat)
  /-- WAIT_RETURN (R403). An engine WAIT returns on a condition or deadline. -/
  | waitReturn (d e : Nat)
  /-- SIN_RESUME (R397). A stalled SIN or SIN2 receives its entries. -/
  | sinResume (d e : Nat)
  /-- SOUT_RESUME (R398). A stalled SOUT finds room in its output port. -/
  | soutResume (d e : Nat)
  /-- HEAP_LOAD_COMPLETE (R392). A heap load that missed the cache receives its data. -/
  | heapLoadComplete (d e : Nat)
  /-- CACHE_DONE (R385). A CACHE operation finishes and the engine continues. -/
  | cacheDone (d e : Nat)
  /-- WATCHDOG_EXPIRY (R405). The engine watchdog expires and the engine traps WATCHDOG. -/
  | watchdogExpiry (d e : Nat)
  /-- SRAM_SCRUB (R386). The background scrub reads engine SRAM words. -/
  | sramScrub (d e corrected : Nat) (bad : List (Bool × Nat))
  /-- SWAP_BEGIN (R417). A pending swap reaches its swap point and the engine enters SWAPPING. -/
  | swapBegin (d e : Nat)
  /-- SWAP_COMPLETE (R418). The swap copy ends and the spare resumes. -/
  | swapComplete (d e : Nat) (ecc : Option Nat)
  /-- ADD (R389). Engine ALU add. -/
  | engAdd (e : Eng) (d a b : Nat)
  /-- SUB (R389). Engine ALU subtract. -/
  | engSub (e : Eng) (d a b : Nat)
  /-- AND (R389). Engine ALU and. -/
  | engAnd (e : Eng) (d a b : Nat)
  /-- OR (R389). Engine ALU or. -/
  | engOr (e : Eng) (d a b : Nat)
  /-- XOR (R389). Engine ALU exclusive or. -/
  | engXor (e : Eng) (d a b : Nat)
  /-- ANDN (R389). Engine ALU and-not. -/
  | andn (e : Eng) (d a b : Nat)
  /-- SHL (R389). Engine ALU shift left. -/
  | shl (e : Eng) (d a b : Nat)
  /-- SHR (R389). Engine ALU logical shift right. -/
  | shr (e : Eng) (d a b : Nat)
  /-- SAR (R389). Engine ALU arithmetic shift right. -/
  | sar (e : Eng) (d a b : Nat)
  /-- ROR (R389). Engine ALU rotate right. -/
  | ror (e : Eng) (d a b : Nat)
  /-- SLT (R389). Engine ALU signed set-less-than. -/
  | slt (e : Eng) (d a b : Nat)
  /-- SLTU (R389). Engine ALU unsigned set-less-than. -/
  | sltu (e : Eng) (d a b : Nat)
  /-- MIN (R389). Engine ALU signed minimum. -/
  | engMin (e : Eng) (d a b : Nat)
  /-- MAX (R389). Engine ALU signed maximum. -/
  | engMax (e : Eng) (d a b : Nat)
  /-- MINU (R389). Engine ALU unsigned minimum. -/
  | minu (e : Eng) (d a b : Nat)
  /-- MAXU (R389). Engine ALU unsigned maximum. -/
  | maxu (e : Eng) (d a b : Nat)
  /-- MUL (R389). Engine low 64 bits of a product. -/
  | engMul (e : Eng) (d a b : Nat)
  /-- MULHU (R389). Engine high 64 bits of an unsigned product. -/
  | mulhu (e : Eng) (d a b : Nat)
  /-- MULH (R389). Engine high 64 bits of a signed product. -/
  | mulh (e : Eng) (d a b : Nat)
  /-- CLZ (R389). Engine count of leading zeros. -/
  | clz (e : Eng) (d a : Nat)
  /-- CTZ (R389). Engine count of trailing zeros. -/
  | ctz (e : Eng) (d a : Nat)
  /-- POPC (R389). Engine count of set bits. -/
  | popc (e : Eng) (d a : Nat)
  /-- BSWAP (R389). Engine reversal of payload bytes. -/
  | bswap (e : Eng) (d a : Nat)
  /-- MOVW (R389). Engine move of all 72 bits. -/
  | movw (e : Eng) (d a : Nat)
  /-- SETSIDE (R389). Engine payload copy with a new side byte. -/
  | setside (e : Eng) (d a b : Nat)
  /-- GETSIDE (R389). Engine read of a side byte. -/
  | getside (e : Eng) (d a : Nat)
  /-- ADDI (R388). Engine add of a sign-extended immediate. -/
  | addi (e : Eng) (d a : Nat) (imm : W16)
  /-- ANDI (R388). Engine and with an immediate. -/
  | andi (e : Eng) (d a : Nat) (imm : W16)
  /-- ORI (R388). Engine or with an immediate. -/
  | ori (e : Eng) (d a : Nat) (imm : W16)
  /-- XORI (R388). Engine exclusive or with an immediate. -/
  | xori (e : Eng) (d a : Nat) (imm : W16)
  /-- SHIFTI (R388). Engine shift or rotate by an immediate amount. -/
  | shifti (e : Eng) (d a kind amt : Nat)
  /-- SLTI (R388). Engine signed compare with an immediate. -/
  | slti (e : Eng) (d a : Nat) (imm : W16)
  /-- SLTIU (R388). Engine unsigned compare with an immediate. -/
  | sltiu (e : Eng) (d a : Nat) (imm : W16)
  /-- MOVZ (R388). Engine load of a shifted immediate. -/
  | movz (e : Eng) (d k : Nat) (imm : W16)
  /-- MOVK (R388). Engine insertion of an immediate into a 16-bit field. -/
  | movk (e : Eng) (d k : Nat) (imm : W16)
  /-- EXTR (R388). Engine extraction of a bit field over 72 bits. -/
  | extr (e : Eng) (d a pos len : Nat)
  /-- INSR (R388). Engine insertion of a bit field over 72 bits. -/
  | insr (e : Eng) (d a pos len : Nat)
  /-- LDB (R384). Engine byte load. -/
  | ldb (e : Eng) (d a : Nat) (imm : W16)
  /-- LDH (R384). Engine halfword load. -/
  | ldh (e : Eng) (d a : Nat) (imm : W16)
  /-- LDD (R384). Engine doubleword-of-4 load. -/
  | ldd (e : Eng) (d a : Nat) (imm : W16)
  /-- LDQ (R384). Engine 8-byte load. -/
  | ldq (e : Eng) (d a : Nat) (imm : W16)
  /-- LDW (R384). Engine load of a word with its side byte from data SRAM. -/
  | ldw (e : Eng) (d a : Nat) (imm : W16)
  /-- STB (R384). Engine byte store. -/
  | stb (e : Eng) (d a : Nat) (imm : W16)
  /-- STH (R384). Engine halfword store. -/
  | sth (e : Eng) (d a : Nat) (imm : W16)
  /-- STD (R384). Engine 4-byte store. -/
  | std (e : Eng) (d a : Nat) (imm : W16)
  /-- STQ (R384). Engine 8-byte store. -/
  | stq (e : Eng) (d a : Nat) (imm : W16)
  /-- STW (R384). Engine store of a word with its side byte to data SRAM. -/
  | stw (e : Eng) (d a : Nat) (imm : W16)
  /-- BEQ (R388). Engine branch if equal. -/
  | beq (e : Eng) (d a : Nat) (imm : W16)
  /-- BNE (R388). Engine branch if not equal. -/
  | bne (e : Eng) (d a : Nat) (imm : W16)
  /-- BLT (R388). Engine branch if signed less. -/
  | blt (e : Eng) (d a : Nat) (imm : W16)
  /-- BGE (R388). Engine branch if signed greater or equal. -/
  | bge (e : Eng) (d a : Nat) (imm : W16)
  /-- BLTU (R388). Engine branch if unsigned less. -/
  | bltu (e : Eng) (d a : Nat) (imm : W16)
  /-- BGEU (R388). Engine branch if unsigned greater or equal. -/
  | bgeu (e : Eng) (d a : Nat) (imm : W16)
  /-- JAL (R388). Engine jump and link relative. -/
  | jal (e : Eng) (d : Nat) (imm : W21)
  /-- JALR (R388). Engine jump and link to a register address. -/
  | jalr (e : Eng) (d a : Nat) (imm : W16)
  /-- CRC (R402). Engine update of a CRC-32C register with bytes of a word. -/
  | engCrc (e : Eng) (d a b n : Nat)
  /-- HASH (R402). Engine CRC-32C hash of a seed, class and 9-byte key. -/
  | engHash (e : Eng) (d a b : Nat) (cls : Option Nat)
  /-- MARK (R399). Engine writes MK_USER into a capture stream of its die. -/
  | engMark (e : Eng) (d a b : Nat)
  /-- TRIG (R400). Engine gives a Shutter candidate with detail and source time. -/
  | trig (e : Eng) (a b : Nat)
  /-- SIN (R394). Engine takes the next entry of an input port. -/
  | sin (e : Eng) (d p : Nat)
  /-- SINFO (R395). Engine reads information about the last entry taken. -/
  | sinfo (e : Eng) (d p sel : Nat)
  /-- SAVAIL (R390). Engine reads the number of entries waiting in a port. -/
  | savail (e : Eng) (d p : Nat)
  /-- SIN2 (R390). Engine takes the next two entries of an input port. -/
  | sin2 (e : Eng) (d p : Nat)
  /-- SOUT (R398). Engine writes a word with a time to an output port. -/
  | sout (e : Eng) (q a b : Nat)
  /-- SSPACE (R390). Engine reads the free entries of an output port. -/
  | sspace (e : Eng) (d q : Nat)
  /-- NOP (R390). Engine instruction that does nothing. -/
  | nop (e : Eng)
  /-- WAIT (R403). Engine suspends until a condition in a mask holds or a deadline. -/
  | engWait (e : Eng) (d a b : Nat)
  /-- CKPT (R405). Engine checkpoint, where swaps and AT_POINT stops may occur. -/
  | ckpt (e : Eng)
  /-- HALT (R390). Engine stops in HALTED. -/
  | halt (e : Eng) (a : Nat)
  /-- TRAP (R408). Engine traps BREAK with a code. -/
  | engTrap (e : Eng) (code : Nat)
  /-- MFS (R382). Engine reads a special register. -/
  | mfs (e : Eng) (d sr : Nat)
  /-- SEV (R401). Engine pops the Shutter event queue. -/
  | sev (e : Eng) (d : Nat)
  /-- MBXACK (R407). Engine releases the host message. -/
  | mbxack (e : Eng)
  /-- MBXPOST (R407). Engine posts a message to the host. -/
  | mbxpost (e : Eng) (a : Nat)
  /-- CACHE (R385). Engine writes back, or writes back and invalidates, its heap cache. -/
  | cache (e : Eng) (op : Nat)
  /-- XKICK (R390). Engine kicks a granted transfer channel. -/
  | xkick (e : Eng) (a : Nat)
  /-- FIXER_WRITE_ISSUE (R440). Fixer issues an NVMe Write of ready envelopes to an ONLINE member. -/
  | fixerWriteIssue (d slot sid n : Nat)
  /-- NVME_WRITE_COMPLETE (R441). An NVMe Write completes with success or error. -/
  | nvmeWriteComplete (d slot id sct sc : Nat) (dnr : Bool)
  /-- NVME_WRITE_TIMEOUT (R441). A Write has no completion within WRITE_TIMEOUT_MS and the member fails. -/
  | nvmeWriteTimeout (d slot id : Nat)
  /-- FIXER_FLUSH_TIMEOUT (R447). FLUSH_MS elapses and open log and index blocks are rewritten or extents end. -/
  | fixerFlushTimeout (d slot : Nat)
  /-- SUPERBLOCK_INTERVAL (R447). SB_INTERVAL_MS elapses and a superblock is written after a Flush. -/
  | superblockInterval (d slot : Nat)
  /-- SMART_POLL (R438). Every 10 s Fixer reads each drive's SMART / Health log. -/
  | smartPoll (d p warn : Nat)
  /-- XFER_END (R457). Transfer instruction that makes the channel DONE. -/
  | xferEnd (d c : Nat)
  /-- XFER_MOVE (R458). Transfer instruction that starts copying LENGTH bytes. -/
  | xferMove (d c : Nat)
  /-- XFER_MOVE_RETIRE (R465). A MOVE's writes are issued and it retires, applying its advances. -/
  | xferMoveRetire (d c rereads : Nat)
  /-- XFER_BEAT_ERROR (R477). A beat of a MOVE fails and the channel stops in ERROR. -/
  | xferBeatError (d c cause done : Nat) (last : Bool)
  /-- XFER_LOOP (R460). Transfer instruction that repeats a body. -/
  | xferLoop (d c : Nat)
  /-- XFER_WAIT (R461). Transfer instruction that suspends the channel on a kick, event or time. -/
  | xferWait (d c : Nat)
  /-- XFER_WAIT_RETURN (R469). A channel's WAIT condition holds and the channel continues. -/
  | xferWaitReturn (d c : Nat)
  /-- XFER_WAIT_TIMEOUT (R470). A channel's WAIT times out and skips or fails. -/
  | xferWaitTimeout (d c : Nat)
  /-- XFER_SIGNAL (R462). Transfer instruction that performs doorbell, mark, kick, engine, event and IRQ actions. -/
  | xferSignal (d c : Nat)
  /-- XFER_NOP (R457). Transfer instruction that does nothing. -/
  | xferNop (d c : Nat)
  /-- XFER_PAUSED (R474). A pausing channel drains its reads and enters PAUSED. -/
  | xferPaused (d c moved : Nat)
  /-- PROBE_PRES_CHANGE (R512). PB_PRES_N changes level, starting the 1 ms count or ending discovery. -/
  | probePresChange (d p : Nat) (high : Bool)
  /-- PROBE_PRESENCE_TIMEOUT (R512). PB_PRES_N low for 1 ms starts discovery. -/
  | probePresenceTimeout (d p : Nat)
  /-- PROBE_DISCOVERY_DONE (R512). Discovery ends and the PROBE partner attaches. -/
  | probeDiscoveryDone (d p pulses acks : Nat) (one two : Option (List Byte))
  /-- PROBE_REMOVAL_TIMEOUT (R56). PB_PRES_N high for 1 ms detaches the PROBE partner. -/
  | probeRemovalTimeout (d p : Nat)
  /-- EEPROM_READ_DONE (R532). An EEPROM read finishes or fails on the bus. -/
  | eepromReadDone (d p : Nat) (ok : Bool) (bytes : List Byte)
  /-- BIAS_SLEW_STEP (R515). INTERVAL elapses and the limiter steps the code towards the target. -/
  | biasSlewStep (d p : Nat)
  /-- DEGLITCH_HOLD_END (R516). The deglitcher's 2 µs hold ends and the pin tracks again. -/
  | deglitchHoldEnd (d p : Nat)
  /-- BIAS_RANGE_HIGHZ_END (R520). The 10 µs high-impedance gap of a range change ends and the new range drives Z. -/
  | biasRangeHighzEnd (d p : Nat)
  /-- BIAS_LIMIT_CHANGE (R522). A voltage-range output starts or stops current limiting. -/
  | biasLimitChange (d p : Nat) (on : Bool)
  /-- BIAS_LIMIT_TRIP (R522). A limit lasts TRIP_MS and the channel trips to high impedance. -/
  | biasLimitTrip (d p : Nat)
  /-- BIAS_COMPLIANCE_CHANGE (R523). A current-range output reaches or leaves its compliance limit. -/
  | biasComplianceChange (d p : Nat) (on : Bool)
  /-- BIAS_REPORT_HOLDOFF_END (R524). The 2^12 hk-cycle report holdoff ends and the current state is posted. -/
  | biasReportHoldoffEnd (d p : Nat)
  /-- PWM_EDGE (R526). PB_PWM changes level at its period or high-time boundary. -/
  | pwmEdge (d p : Nat)
  /-- HK_TIMER (R528). The HK timer period elapses and triggers a conversion start. -/
  | hkTimer (d : Nat)
  /-- HK_DELAY_END (R528). A trigger's start delay ends and a conversion starts or is held. -/
  | hkDelayEnd (d : Nat)
  /-- HK_CONVERSION_END (R530). An HK ADC conversion ends and its corrected result is written. -/
  | hkConversionEnd (d raw : Nat)
  /-- TE_EDGE (R548). A rising TE edge is recognised and a composition may start. -/
  | teEdge
  /-- TE_TIMER_EXPIRY (R548). The internal TE timer makes an edge every TE_PERIOD. -/
  | teTimerExpiry
  /-- INIT_DELAY_EXPIRY (R539). A DELAY or RESET element of the init list ends and sending continues. -/
  | initDelayExpiry
  /-- PUSH_BEGIN (R549). The composer has written a region's first 8 lines and its push begins. -/
  | pushBegin
  /-- PUSH_LINE_READY (R551). The push is ready for a line; it is sent or the push aborts on underrun. -/
  | pushLineReady
  /-- PUSH_END (R549). The last packet of a composition's push ends. -/
  | pushEnd
  /-- LAYER_READ_DONE (R553). The composer finishes reading a layer's source for a composition. -/
  | layerReadDone (l : Nat)
  /-- TEMP_SAMPLE (R562). The AON island samples the die temperature and acts on thresholds. -/
  | tempSample (d : Nat) (t : Int)
  /-- THROTTLE_TIMER (R563). 1 ms above or 10 ms below the threshold changes the throttle level. -/
  | throttleTimer (d : Nat)
  /-- THERMAL_SHUTDOWN (R564). The 115 °C comparator powers the package down. -/
  | thermalShutdown (d : Nat)
  /-- RAIL_LEAVES_WINDOW (R566). A monitored rail leaves its window. -/
  | railLeavesWindow (d rail mv : Nat) (above deep : Bool)
  /-- SUPPLY_FAULT_DETECT (R566). A rail out of window for 10 µs posts a fault and enters Safelight mode. -/
  | supplyFaultDetect (d rail : Nat)
  /-- SUPPLY_RETURN_TIMEOUT (R566). Every rail back in window for 10 ms clears the SUPPLY cause. -/
  | supplyReturnTimeout (d : Nat)
  /-- SUPPLY_FENCE_TIMEOUT (R566). A supply fault lasting 100 ms, or a deep fall, fences the die. -/
  | supplyFenceTimeout (d rail : Nat)
  /-- VDD_AON_FAULT (R566). A VDD_AON fault resets the die's AON island. -/
  | vddAonFault (d : Nat)
  /-- HBM_SCRUB_PASS (R580). An HBM scrub pass completes every 2^36 ticks. -/
  | hbmScrubPass (d : Nat) (errs : List (Nat × Nat × Bool))
  /-- HEALTH_CHECK (R580). A health monitor sample raises a resource's level. -/
  | healthCheck (d kind target monitor value : Nat) (failed : Bool)
  /-- HBM_COPY_DONE (R576). An HBM pseudo-channel copy ends and the swap takes effect. -/
  | hbmCopyDone (d : Nat) (lost : Bool)
  /-- UFL_LANE_RETRAIN_DONE (R576). An Ulufer port retrains after a lane swap. -/
  | uflLaneRetrainDone (d p : Nat)
  /-- UFL_LANE_FAIL (R579). An Ulufer lane fails outright and is swapped automatically. -/
  | uflLaneFail (d p lane : Nat)
  /-- FLIT_CRC_ERROR (R15). A flit fails its CRC and is replayed from the retry buffer. -/
  | flitCrcError (d p : Nat)
  /-- ILLEGAL_INSTRUCTION (R391). An engine reaches an instruction word whose major opcode or function is not assigned and traps ILLEGAL. -/
  | illegalInstruction (e : Eng)
  /-- XFER_ILLEGAL_OPCODE (R463). A channel fetches an instruction with opcode 6 to 15 and stops in ERROR with cause ILLEGAL. -/
  | xferIllegalOpcode (d c : Nat)
  /-- HBM_RETRAINING_DONE (R166). After an HPLL relock, HBM retraining of up to 2 ms ends and HBM leaves self-refresh and resumes. -/
  | hbmRetrainingDone (d : Nat)
  /-- NVME_COMMAND_COMPLETE (R438). An NVMe Read, Flush, Dataset Management or admin command issued by Fixer completes. -/
  | nvmeCommandComplete (d p : Nat) (what : NvmeWhat) (ok : Bool)
  /-- RAIL_RETURNS_TO_WINDOW (R566). A monitored rail comes back inside its window, clearing its NOW bit and starting the 10 ms return count. -/
  | railReturnsToWindow (d rail mv : Nat)
  /-- SYNC_IN_DRIVE_CHANGE (R56). SYNC_IN changes between driven and undriven, starting the 1 ms SYNC_PEER attach or detach count. -/
  | syncInDriveChange (driven : Bool)
  /-- BUS_MASTER_ENABLE_CLEAR (R476). The host clears Bus Master Enable on a host port whose link stays up, which fails transfer moves through that port. -/
  | busMasterEnableClear (port : Nat)
  /-- INIT_LIST_SENT (R556). The last SHORT or LONG element of a PROOF_CONFIGURE init list finishes on the DSI link and the command completes. -/
  | initListSent
  /-- TAP_TCK_EDGE (R607). A TCK edge advances the IEEE 1149.1 TAP of die 0, which may load BYPASS, SAMPLE/PRELOAD, EXTEST, CLAMP or HIGHZ. -/
  | tapTckEdge (rising tms tdi : Bool)
  /-- VDD_CORE_REQUEST (R594). The device changes its VDD_CORE request in a 5 mV step over AVSBus, updating PWR_STAT.CORE_MV and the VDD_CORE monitor window. -/
  | vddCoreRequest (d : Nat) (up : Bool)
  deriving DecidableEq, Repr

end Sys2Proof
end

