-- ==== Sys2Proof/Config.lean ====
section
/-!
DEFINITION. What an implementation fixes and the spec leaves open: constants without a body, so that no proof can
rest on a value of theirs.
-/

namespace Sys2Proof.Config

/-- The free values of the model: the `n`-th value drawn.  Every meaning that needs a value the spec leaves open draws
one by the counter `State.freeCtr` (log entry 2). -/
opaque freeValue : Nat → W64

/-- Values of the sampled signal that the spec leaves open, as a fixed function of what they depend on: two chains with the same
input and settings take the same values (R285; log entry 127). -/
opaque signalValue : List Int → W64

/-- The MSI-X table size the host has configured on a port, before its range 1 to 2,048 is applied (R95): the host sets it
in configuration space, which no row of the table writes (log entry 138). -/
opaque msixRaw : Nat → Nat

/-- The package serial number, fused (R64, R588). -/
opaque serial : W64

/-- The fused hash of the Plovum key, dword `n` of 8 (R582, R588). -/
opaque plovumHash : Nat → W32

/-- The fused delay of TRIG_IN[n] from ball to TDC, before its bounds are applied (R172). -/
opaque pinDelayRaw : Nat → Nat

/-- The length of 1,000 hk-cycles of a die in ticks, before the bounds of the HKCLK tolerance are applied (R6). -/
opaque hkPeriodRaw : Nat → Nat

/-- How fast the FPLL phase moves onto the reference after a REALIGN, in thousandths of a fine unit per µs, before its
bound is applied (R162). -/
opaque realignSlew : Nat

/-- The signature the identity key makes over a digest (R584). -/
opaque identitySignature : List Byte → List Byte

/-- The device certificate chain (R585). -/
opaque certificateChain : List Byte

/-- Cells of the boundary register; the spec says which pins it covers, not how many cells or in which order (R607). -/
opaque boundaryCells : Nat

/-- The instruction that an 8-bit TAP code other than all ones selects, as a number below 5 after reduction (R607). -/
opaque tapCode : Nat → Nat

end Sys2Proof.Config
end

