-- ==== Sys2Proof/Machine/RegFields.lean ====
section
/-!
DEFINITION. Names for the register offsets and the register fields the meanings use; each repeats a row of a register
table of the spec.
-/

namespace Sys2Proof.Machine

/-- A field of a register: the register's window offset, the field's lowest bit and its width. -/
structure Fld where
  ofs : Nat
  lo : Nat
  w : Nat
  deriving DecidableEq, Repr

/-- Window offset of CFG_ID (chapter 14). -/
def rCfgId : Nat := 0x0
/-- Window offset of CFG_CTL (chapter 14). -/
def rCfgCtl : Nat := 0x4
/-- Window offset of CFG_STAT (chapter 14). -/
def rCfgStat : Nat := 0x8
/-- Window offset of CFG_CRC_REF (chapter 14). -/
def rCfgCrcRef : Nat := 0xc
/-- Window offset of CFG_CRC_LAST (chapter 14). -/
def rCfgCrcLast : Nat := 0x10
/-- Window offset of CFG_CRC_PASSES (chapter 14). -/
def rCfgCrcPasses : Nat := 0x14
/-- Window offset of CFG_LOCK_VIOL_CNT (chapter 14). -/
def rCfgLockViolCnt : Nat := 0x18
/-- Window offset of CFG_LOCK_OFS (chapter 14). -/
def rCfgLockOfs : Nat := 0x1c
/-- Window offset of CFG_BADWR_ADDR (chapter 14). -/
def rCfgBadwrAddr : Nat := 0x20
/-- Window offset of CFG_BADWR_CNT (chapter 14). -/
def rCfgBadwrCnt : Nat := 0x24
/-- Window offset of CFG_LOCK_SET (chapter 14). -/
def rCfgLockSet : Nat := 0x28
/-- Window offset of CFG_LOCK (chapter 14). -/
def rCfgLock : Nat := 0x2c
/-- Window offset of UPD_STROBE (chapter 14). -/
def rUpdStrobe : Nat := 0x1000
/-- Window offset of UPD_ENABLE (chapter 14). -/
def rUpdEnable : Nat := 0x1004
/-- Window offset of UPD_SRC (chapter 14). -/
def rUpdSrc (k : Nat) : Nat := 0x1008 + 0x4 * k
/-- Window offset of UPD_SRC_MASK (chapter 14). -/
def rUpdSrcMask (k : Nat) : Nat := 0x1010 + 0x4 * k
/-- Window offset of UPD_PENDING (chapter 14). -/
def rUpdPending : Nat := 0x1018
/-- Window offset of UPD_STAT (chapter 14). -/
def rUpdStat : Nat := 0x101c
/-- Window offset of UPD_LAST_LO (chapter 14). -/
def rUpdLastLo : Nat := 0x1020
/-- Window offset of UPD_LAST_HI (chapter 14). -/
def rUpdLastHi : Nat := 0x1024
/-- Window offset of UPD_LAST_MASK (chapter 14). -/
def rUpdLastMask : Nat := 0x1028
/-- Window offset of AON_CAUSE (chapter 17). -/
def rAonCause : Nat := 0x2000
/-- Window offset of AON_TEMP (chapter 17). -/
def rAonTemp : Nat := 0x2004
/-- Window offset of PWR_STAT (chapter 17). -/
def rPwrStat : Nat := 0x3000
/-- Window offset of PWR_SAFE_CTL (chapter 17). -/
def rPwrSafeCtl : Nat := 0x3004
/-- Window offset of PWR_THERMAL (chapter 17). -/
def rPwrThermal : Nat := 0x3008
/-- Window offset of PWR_SUPPLY (chapter 17). -/
def rPwrSupply : Nat := 0x300c
/-- Window offset of PWR_RSV_HEALTH (chapter 17). -/
def rPwrRsvHealth : Nat := 0x3010
/-- Window offset of CLK_STAT (chapter 05). -/
def rClkStat : Nat := 0x4000
/-- Window offset of CLK_TIME_LO (chapter 05). -/
def rClkTimeLo : Nat := 0x4008
/-- Window offset of CLK_TIME_HI (chapter 05). -/
def rClkTimeHi : Nat := 0x400c
/-- Window offset of CLK_BUILDOUT (chapter 05). -/
def rClkBuildout : Nat := 0x4010
/-- Window offset of CLK_FAULT_CNT (chapter 05). -/
def rClkFaultCnt : Nat := 0x4014
/-- Window offset of CLK_SYNC_CNT (chapter 05). -/
def rClkSyncCnt : Nat := 0x4018
/-- Window offset of CLK_HK_TRIM (chapter 05). -/
def rClkHkTrim : Nat := 0x401c
/-- Window offset of TDC_STAT (chapter 05). -/
def rTdcStat : Nat := 0x5000
/-- Window offset of TDC_PIN_DLY (chapter 05). -/
def rTdcPinDly (n : Nat) : Nat := 0x5004 + 0x4 * n
/-- Window offset of TDC_INL (chapter 05). -/
def rTdcInl (m : Nat) : Nat := 0x5100 + 0x4 * m
/-- Window offset of SHT_SLOT (chapter 07). -/
def rShtSlot (k : Nat) : Nat := 0x6000 + 0x4 * k
/-- Window offset of SHT_NOTIFY_LO (chapter 07). -/
def rShtNotifyLo : Nat := 0x6010
/-- Window offset of SHT_NOTIFY_HI (chapter 07). -/
def rShtNotifyHi : Nat := 0x6014
/-- Window offset of SHT_NEG_STAT (chapter 07). -/
def rShtNegStat : Nat := 0x6018
/-- Window offset of SHT_CMP_STAT (chapter 07). -/
def rShtCmpStat : Nat := 0x601c
/-- Window offset of SHT_EARLY (chapter 07). -/
def rShtEarly (c : Nat) : Nat := 0x6020 + 0x10 * c
/-- Window offset of SHT_REARM_MISS (chapter 07). -/
def rShtRearmMiss (c : Nat) : Nat := 0x6024 + 0x10 * c
/-- Window offset of SHT_BUSY_MISS (chapter 07). -/
def rShtBusyMiss (c : Nat) : Nat := 0x6028 + 0x10 * c
/-- Window offset of SHT_CAND_LATE (chapter 07). -/
def rShtCandLate : Nat := 0x6040
/-- Window offset of SHT_MERGED (chapter 07). -/
def rShtMerged : Nat := 0x6044
/-- Window offset of SHT_OUT_DROP (chapter 07). -/
def rShtOutDrop : Nat := 0x6048
/-- Window offset of SHT_SEQ_STAT (chapter 07). -/
def rShtSeqStat (q : Nat) : Nat := 0x6080 + 0x4 * q
/-- Window offset of UFL_STAT (chapter 17). -/
def rUflStat (p : Nat) : Nat := 0x7000 + 0x100 * p
/-- Window offset of UFL_CFG (chapter 17). -/
def rUflCfg (p : Nat) : Nat := 0x7004 + 0x100 * p
/-- Window offset of UFL_REPLAY_CNT (chapter 17). -/
def rUflReplayCnt (p : Nat) : Nat := 0x7008 + 0x100 * p
/-- Window offset of UFL_SHT_LOST (chapter 17). -/
def rUflShtLost (p : Nat) : Nat := 0x700c + 0x100 * p
/-- Window offset of SPC_STAT (chapter 08). -/
def rSpcStat (c : Nat) : Nat := 0x8000 + 0x1000 * c
/-- Window offset of SPC_CFG (chapter 08). -/
def rSpcCfg (c : Nat) : Nat := 0x8004 + 0x1000 * c
/-- Window offset of SPC_FREQ_LO (chapter 08). -/
def rSpcFreqLo (c : Nat) : Nat := 0x8008 + 0x1000 * c
/-- Window offset of SPC_FREQ_HI (chapter 08). -/
def rSpcFreqHi (c : Nat) : Nat := 0x800c + 0x1000 * c
/-- Window offset of SPC_RATIO (chapter 08). -/
def rSpcRatio (c : Nat) : Nat := 0x8010 + 0x1000 * c
/-- Window offset of SPC_DC_EST (chapter 08). -/
def rSpcDcEst (c : Nat) : Nat := 0x8014 + 0x1000 * c
/-- Window offset of SPC_SPECTRA_LO (chapter 08). -/
def rSpcSpectraLo (c : Nat) : Nat := 0x8018 + 0x1000 * c
/-- Window offset of SPC_SPECTRA_HI (chapter 08). -/
def rSpcSpectraHi (c : Nat) : Nat := 0x801c + 0x1000 * c
/-- Window offset of SPC_REC_SKIP (chapter 08). -/
def rSpcRecSkip (c : Nat) : Nat := 0x8020 + 0x1000 * c
/-- Window offset of SPC_EXP_DROP (chapter 08). -/
def rSpcExpDrop (c : Nat) : Nat := 0x8024 + 0x1000 * c
/-- Window offset of SPC_OVR_CNT (chapter 08). -/
def rSpcOvrCnt (c : Nat) : Nat := 0x8028 + 0x1000 * c
/-- Window offset of SPC_SETTLE (chapter 08). -/
def rSpcSettle (c : Nat) : Nat := 0x802c + 0x1000 * c
/-- Window offset of DNS_STAT (chapter 09). -/
def rDnsStat : Nat := 0xa000
/-- Window offset of DNS_ACC_INC_LO (chapter 09). -/
def rDnsAccIncLo (k : Nat) : Nat := 0xa010 + 0x20 * k
/-- Window offset of DNS_ACC_INC_HI (chapter 09). -/
def rDnsAccIncHi (k : Nat) : Nat := 0xa014 + 0x20 * k
/-- Window offset of DNS_ACC_OUT (chapter 09). -/
def rDnsAccOut (k : Nat) : Nat := 0xa018 + 0x20 * k
/-- Window offset of DNS_ACC_SKIP (chapter 09). -/
def rDnsAccSkip (k : Nat) : Nat := 0xa01c + 0x20 * k
/-- Window offset of DNS_ACC_EXPORT (chapter 09). -/
def rDnsAccExport (k : Nat) : Nat := 0xa020 + 0x20 * k
/-- Window offset of DNS_MEAS_CNT (chapter 09). -/
def rDnsMeasCnt (c : Nat) : Nat := 0xa060 + 0x4 * c
/-- Window offset of CAL_RETRY_MAX (chapter 10). -/
def rCalRetryMax : Nat := 0xb000
/-- Window offset of CAL_DIE_STAT (chapter 10). -/
def rCalDieStat : Nat := 0xb004
/-- Window offset of CAL_CFG (chapter 10). -/
def rCalCfg (n : Nat) : Nat := 0xb100 + 0x40 * n
/-- Window offset of CAL_STAT (chapter 10). -/
def rCalStat (n : Nat) : Nat := 0xb104 + 0x40 * n
/-- Window offset of CAL_FAIL (chapter 10). -/
def rCalFail (n : Nat) : Nat := 0xb108 + 0x40 * n
/-- Window offset of CAL_QUAL (chapter 10). -/
def rCalQual (n : Nat) : Nat := 0xb10c + 0x40 * n
/-- Window offset of CAL_RAIL (chapter 10). -/
def rCalRail (n : Nat) : Nat := 0xb110 + 0x40 * n
/-- Window offset of CAL_RESID (chapter 10). -/
def rCalResid (n : Nat) : Nat := 0xb114 + 0x40 * n
/-- Window offset of CAL_RESID_SKEW (chapter 10). -/
def rCalResidSkew (n : Nat) : Nat := 0xb118 + 0x40 * n
/-- Window offset of CAL_APPLIED (chapter 10). -/
def rCalApplied (n : Nat) : Nat := 0xb11c + 0x40 * n
/-- Window offset of CAL_LAST_LO (chapter 10). -/
def rCalLastLo (n : Nat) : Nat := 0xb120 + 0x40 * n
/-- Window offset of CAL_LAST_HI (chapter 10). -/
def rCalLastHi (n : Nat) : Nat := 0xb124 + 0x40 * n
/-- Window offset of HKA_CFG (chapter 15). -/
def rHkaCfg : Nat := 0xc000
/-- Window offset of HKA_PERIOD (chapter 15). -/
def rHkaPeriod : Nat := 0xc004
/-- Window offset of HKA_DELAY (chapter 15). -/
def rHkaDelay : Nat := 0xc008
/-- Window offset of HKA_CH (chapter 15). -/
def rHkaCh : Nat := 0xc00c
/-- Window offset of HKA_STAT (chapter 15). -/
def rHkaStat : Nat := 0xc010
/-- Window offset of HKA_OVERRUN (chapter 15). -/
def rHkaOverrun : Nat := 0xc014
/-- Window offset of HKA_LAST_LO (chapter 15). -/
def rHkaLastLo : Nat := 0xc018
/-- Window offset of HKA_LAST_HI (chapter 15). -/
def rHkaLastHi : Nat := 0xc01c
/-- Window offset of HKA_RESULT (chapter 15). -/
def rHkaResult (n : Nat) : Nat := 0xc020 + 0x4 * n
/-- Window offset of HKA_CAL (chapter 15). -/
def rHkaCal (n : Nat) : Nat := 0xc040 + 0x4 * n
/-- Window offset of PBD_CTL (chapter 15). -/
def rPbdCtl (p : Nat) : Nat := 0xd000 + 0x1000 * p
/-- Window offset of PBD_TARGET (chapter 15). -/
def rPbdTarget (p : Nat) : Nat := 0xd004 + 0x1000 * p
/-- Window offset of PBD_CFG (chapter 15). -/
def rPbdCfg (p : Nat) : Nat := 0xd008 + 0x1000 * p
/-- Window offset of PBD_STAT (chapter 15). -/
def rPbdStat (p : Nat) : Nat := 0xd00c + 0x1000 * p
/-- Window offset of PBD_PWM (chapter 15). -/
def rPbdPwm (p : Nat) : Nat := 0xd010 + 0x1000 * p
/-- Window offset of PBD_PWM_CTL (chapter 15). -/
def rPbdPwmCtl (p : Nat) : Nat := 0xd014 + 0x1000 * p
/-- PBD_I2C (R535). -/
def rPbdI2c (p : Nat) : Nat := 0xd018 + 0x1000 * p
/-- Window offset of PBD_PRES (chapter 15). -/
def rPbdPres (p : Nat) : Nat := 0xd01c + 0x1000 * p
/-- Window offset of SEC_STAT (chapter 17). -/
def rSecStat : Nat := 0xf000
/-- Window offset of SEC_MEAS_COUNT (chapter 17). -/
def rSecMeasCount : Nat := 0xf004
/-- Window offset of LANE_STAT (chapter 04). -/
def rLaneStat (n : Nat) : Nat := 0x10000 + 0x1000 * n
/-- Window offset of LANE_MODE (chapter 04). -/
def rLaneMode (n : Nat) : Nat := 0x10004 + 0x1000 * n
/-- Window offset of LANE_RATE (chapter 04). -/
def rLaneRate (n : Nat) : Nat := 0x10008 + 0x1000 * n
/-- Window offset of LANE_DETACH_T (chapter 04). -/
def rLaneDetachT (n : Nat) : Nat := 0x1000c + 0x1000 * n
/-- Window offset of LANE_DESKEW (chapter 04). -/
def rLaneDeskew (n : Nat) : Nat := 0x10010 + 0x1000 * n
/-- Window offset of LANE_CDR (chapter 04). -/
def rLaneCdr (n : Nat) : Nat := 0x10014 + 0x1000 * n
/-- Window offset of LANE_ERR_CNT (chapter 04). -/
def rLaneErrCnt (n : Nat) : Nat := 0x10018 + 0x1000 * n
/-- Window offset of LANE_LOSS_CNT (chapter 04). -/
def rLaneLossCnt (n : Nat) : Nat := 0x1001c + 0x1000 * n
/-- Window offset of LANE_WORDS_LO (chapter 04). -/
def rLaneWordsLo (n : Nat) : Nat := 0x10020 + 0x1000 * n
/-- Window offset of LANE_WORDS_HI (chapter 04). -/
def rLaneWordsHi (n : Nat) : Nat := 0x10024 + 0x1000 * n
/-- Window offset of CAP_POOL (chapter 06). -/
def rCapPool : Nat := 0x20000
/-- Window offset of CAP_CTL (chapter 06). -/
def rCapCtl (i : Nat) : Nat := 0x21000 + 0x40 * i
/-- Window offset of CAP_SIZE (chapter 06). -/
def rCapSize (i : Nat) : Nat := 0x21004 + 0x40 * i
/-- Window offset of CAP_LEVEL (chapter 06). -/
def rCapLevel (i : Nat) : Nat := 0x21008 + 0x40 * i
/-- Window offset of CAP_RETAIN (chapter 06). -/
def rCapRetain (i : Nat) : Nat := 0x2100c + 0x40 * i
/-- Window offset of CAP_SEQ_LO (chapter 06). -/
def rCapSeqLo (i : Nat) : Nat := 0x21010 + 0x40 * i
/-- Window offset of CAP_SEQ_HI (chapter 06). -/
def rCapSeqHi (i : Nat) : Nat := 0x21014 + 0x40 * i
/-- Window offset of CAP_OLDEST_LO (chapter 06). -/
def rCapOldestLo (i : Nat) : Nat := 0x21018 + 0x40 * i
/-- Window offset of CAP_OLDEST_HI (chapter 06). -/
def rCapOldestHi (i : Nat) : Nat := 0x2101c + 0x40 * i
/-- Window offset of CAP_DROP_LO (chapter 06). -/
def rCapDropLo (i : Nat) : Nat := 0x21020 + 0x40 * i
/-- Window offset of CAP_DROP_HI (chapter 06). -/
def rCapDropHi (i : Nat) : Nat := 0x21024 + 0x40 * i
/-- Window offset of CAP_MARK_DROP (chapter 06). -/
def rCapMarkDrop (i : Nat) : Nat := 0x21028 + 0x40 * i
/-- Window offset of CAP_SEGMENTS (chapter 06). -/
def rCapSegments (i : Nat) : Nat := 0x2102c + 0x40 * i
/-- Window offset of HST_PORT_ID (chapter 03). -/
def rHstPortId : Nat := 0x30000
/-- Window offset of HST_PORT_STAT (chapter 03). -/
def rHstPortStat : Nat := 0x30004
/-- Window offset of HST_EV_MASK (chapter 03). -/
def rHstEvMask : Nat := 0x30008
/-- Window offset of HST_EV_LOST_CNT (chapter 03). -/
def rHstEvLostCnt : Nat := 0x3000c
/-- Window offset of HST_EVR_BASE_LO (chapter 03). -/
def rHstEvrBaseLo : Nat := 0x30010
/-- Window offset of HST_EVR_BASE_HI (chapter 03). -/
def rHstEvrBaseHi : Nat := 0x30014
/-- Window offset of HST_EVR_CTL (chapter 03). -/
def rHstEvrCtl : Nat := 0x30018
/-- Window offset of HST_EVR_STAT (chapter 03). -/
def rHstEvrStat : Nat := 0x3001c
/-- Window offset of HST_BOND_MAP (chapter 03). -/
def rHstBondMap : Nat := 0x30020
/-- Window offset of HST_CR_BASE_LO (chapter 03). -/
def rHstCrBaseLo (n : Nat) : Nat := 0x31000 + 0x40 * n
/-- Window offset of HST_CR_BASE_HI (chapter 03). -/
def rHstCrBaseHi (n : Nat) : Nat := 0x31004 + 0x40 * n
/-- Window offset of HST_CR_CTL (chapter 03). -/
def rHstCrCtl (n : Nat) : Nat := 0x31008 + 0x40 * n
/-- Window offset of HST_CR_STAT (chapter 03). -/
def rHstCrStat (n : Nat) : Nat := 0x3100c + 0x40 * n
/-- Window offset of HST_CQ_BASE_LO (chapter 03). -/
def rHstCqBaseLo (n : Nat) : Nat := 0x31010 + 0x40 * n
/-- Window offset of HST_CQ_BASE_HI (chapter 03). -/
def rHstCqBaseHi (n : Nat) : Nat := 0x31014 + 0x40 * n
/-- Window offset of HST_CQ_CTL (chapter 03). -/
def rHstCqCtl (n : Nat) : Nat := 0x31018 + 0x40 * n
/-- Window offset of HST_CR_SHADOW_LO (chapter 03). -/
def rHstCrShadowLo (n : Nat) : Nat := 0x31020 + 0x40 * n
/-- Window offset of HST_CR_SHADOW_HI (chapter 03). -/
def rHstCrShadowHi (n : Nat) : Nat := 0x31024 + 0x40 * n
/-- Window offset of HST_SR_BASE_LO (chapter 03). -/
def rHstSrBaseLo (r : Nat) : Nat := 0x34000 + 0x20 * r
/-- Window offset of HST_SR_BASE_HI (chapter 03). -/
def rHstSrBaseHi (r : Nat) : Nat := 0x34004 + 0x20 * r
/-- Window offset of HST_SR_CTL (chapter 03). -/
def rHstSrCtl (r : Nat) : Nat := 0x34008 + 0x20 * r
/-- Window offset of HST_SR_STAT (chapter 03). -/
def rHstSrStat (r : Nat) : Nat := 0x3400c + 0x20 * r
/-- Window offset of ENG_STAT (chapter 11). -/
def rEngStat (e : Nat) : Nat := 0x40000 + 0x1000 * e
/-- Window offset of ENG_PC (chapter 11). -/
def rEngPc (e : Nat) : Nat := 0x40004 + 0x1000 * e
/-- Window offset of ENG_BADADDR_LO (chapter 11). -/
def rEngBadaddrLo (e : Nat) : Nat := 0x40008 + 0x1000 * e
/-- Window offset of ENG_BADADDR_HI (chapter 11). -/
def rEngBadaddrHi (e : Nat) : Nat := 0x4000c + 0x1000 * e
/-- Window offset of ENG_RETIRED_LO (chapter 11). -/
def rEngRetiredLo (e : Nat) : Nat := 0x40010 + 0x1000 * e
/-- Window offset of ENG_RETIRED_HI (chapter 11). -/
def rEngRetiredHi (e : Nat) : Nat := 0x40014 + 0x1000 * e
/-- Window offset of ENG_WAITED_LO (chapter 11). -/
def rEngWaitedLo (e : Nat) : Nat := 0x40018 + 0x1000 * e
/-- Window offset of ENG_WAITED_HI (chapter 11). -/
def rEngWaitedHi (e : Nat) : Nat := 0x4001c + 0x1000 * e
/-- Window offset of ENG_PORTS (chapter 11). -/
def rEngPorts (e : Nat) : Nat := 0x40020 + 0x1000 * e
/-- Window offset of ENG_OUTS (chapter 11). -/
def rEngOuts (e : Nat) : Nat := 0x40024 + 0x1000 * e
/-- Window offset of ENG_MBX (chapter 11). -/
def rEngMbx (e : Nat) : Nat := 0x40028 + 0x1000 * e
/-- Window offset of ENG_LOST (chapter 11). -/
def rEngLost (e : Nat) : Nat := 0x4002c + 0x1000 * e
/-- Window offset of ENG_CACHE (chapter 11). -/
def rEngCache (e : Nat) : Nat := 0x40030 + 0x1000 * e
/-- Window offset of ENG_ECC (chapter 11). -/
def rEngEcc (e : Nat) : Nat := 0x40034 + 0x1000 * e
/-- Window offset of ENG_HEAP (chapter 11). -/
def rEngHeap (e : Nat) : Nat := 0x40038 + 0x1000 * e
/-- Window offset of ENG_DIE_STAT (chapter 11). -/
def rEngDieStat : Nat := 0x50000
/-- Window offset of ENG_MAP (chapter 11). -/
def rEngMap (k : Nat) : Nat := 0x50010 + 0x4 * k
/-- Window offset of PRF_STAT (chapter 16). -/
def rPrfStat : Nat := 0x58000
/-- Window offset of PRF_PANEL (chapter 16). -/
def rPrfPanel : Nat := 0x58004
/-- Window offset of PRF_LINK (chapter 16). -/
def rPrfLink : Nat := 0x58008
/-- Window offset of PRF_COMP (chapter 16). -/
def rPrfComp : Nat := 0x5800c
/-- Window offset of PRF_COMMIT_SEQ (chapter 16). -/
def rPrfCommitSeq : Nat := 0x58010
/-- Window offset of PRF_TE_SKIP (chapter 16). -/
def rPrfTeSkip : Nat := 0x58014
/-- Window offset of PRF_UNDERRUN_CNT (chapter 16). -/
def rPrfUnderrunCnt : Nat := 0x58018
/-- Window offset of PRF_TE_LAST_LO (chapter 16). -/
def rPrfTeLastLo : Nat := 0x58020
/-- Window offset of PRF_TE_LAST_HI (chapter 16). -/
def rPrfTeLastHi : Nat := 0x58024
/-- Window offset of XFR_CH_CTL (chapter 13). -/
def rXfrChCtl (c : Nat) : Nat := 0x60000 + 0x1000 * c
/-- Window offset of XFR_CH_STAT (chapter 13). -/
def rXfrChStat (c : Nat) : Nat := 0x60004 + 0x1000 * c
/-- Window offset of XFR_CH_SPACE (chapter 13). -/
def rXfrChSpace (c : Nat) : Nat := 0x60008 + 0x1000 * c
/-- Window offset of XFR_CH_SRC_LO (chapter 13). -/
def rXfrChSrcLo (c : Nat) : Nat := 0x60010 + 0x1000 * c
/-- Window offset of XFR_CH_SRC_HI (chapter 13). -/
def rXfrChSrcHi (c : Nat) : Nat := 0x60014 + 0x1000 * c
/-- Window offset of XFR_CH_DST_LO (chapter 13). -/
def rXfrChDstLo (c : Nat) : Nat := 0x60018 + 0x1000 * c
/-- Window offset of XFR_CH_DST_HI (chapter 13). -/
def rXfrChDstHi (c : Nat) : Nat := 0x6001c + 0x1000 * c
/-- Window offset of XFR_CH_FAULT_LO (chapter 13). -/
def rXfrChFaultLo (c : Nat) : Nat := 0x60020 + 0x1000 * c
/-- Window offset of XFR_CH_FAULT_HI (chapter 13). -/
def rXfrChFaultHi (c : Nat) : Nat := 0x60024 + 0x1000 * c
/-- Window offset of XFR_CH_BYTES_LO (chapter 13). -/
def rXfrChBytesLo (c : Nat) : Nat := 0x60050 + 0x1000 * c
/-- Window offset of XFR_CH_BYTES_HI (chapter 13). -/
def rXfrChBytesHi (c : Nat) : Nat := 0x60054 + 0x1000 * c
/-- Window offset of XFR_CH_BASE_LO (chapter 13). -/
def rXfrChBaseLo (c k : Nat) : Nat := 0x60030 + 0x1000 * c + 0x8 * k
/-- Window offset of XFR_CH_BASE_HI (chapter 13). -/
def rXfrChBaseHi (c k : Nat) : Nat := 0x60034 + 0x1000 * c + 0x8 * k
/-- Window offset of XFR_CH_REM (chapter 13). -/
def rXfrChRem (c : Nat) : Nat := 0x60028 + 0x1000 * c
/-- Window offset of XFR_CH_WRAP (chapter 13). -/
def rXfrChWrap (c : Nat) : Nat := 0x6002c + 0x1000 * c
/-- Window offset of XFR_CH_LOOP (chapter 13). -/
def rXfrChLoop (c k : Nat) : Nat := 0x60058 + 0x1000 * c + 0x4 * k
/-- Window offset of XFR_CH_IRQ (chapter 13). -/
def rXfrChIrq (c : Nat) : Nat := 0x60068 + 0x1000 * c
/-- Window offset of XFR_CH_KICK (chapter 13). -/
def rXfrChKick (c : Nat) : Nat := 0x6006c + 0x1000 * c
/-- Window offset of XFR_CH_ERRS (chapter 13). -/
def rXfrChErrs (c : Nat) : Nat := 0x60070 + 0x1000 * c
/-- Window offset of XFR_CH_GRANT (chapter 13). -/
def rXfrChGrant (c : Nat) : Nat := 0x60074 + 0x1000 * c
/-- Window offset of SEC_BOOT_STAT (chapter 17). -/
def rSecBootStat : Nat := 0x4000000
/-- Window offset of SEC_BOOT_LEN (chapter 17). -/
def rSecBootLen : Nat := 0x4000008
/-- Window offset of SEC_REPAIR_OFS (chapter 17). -/
def rSecRepairOfs : Nat := 0x400000c
/-- Window offset of SEC_REPAIR_LEN (chapter 17). -/
def rSecRepairLen : Nat := 0x4000010
/-- Window offset of SEC_OWNER_HASH (chapter 17). -/
def rSecOwnerHash (n : Nat) : Nat := 0x4000020 + 0x4 * n
/-- Window offset of SEC_PLOVUM_HASH (chapter 17). -/
def rSecPlovumHash (n : Nat) : Nat := 0x4000040 + 0x4 * n
/-- Window offset of SEC_SERIAL_LO (chapter 17). -/
def rSecSerialLo : Nat := 0x4000060
/-- Window offset of SEC_SERIAL_HI (chapter 17). -/
def rSecSerialHi : Nat := 0x4000064
/-- CFG_ID.DIE, bits [30:28]. -/
def fCfgIdDie : Fld := ⟨rCfgId, 28, 3⟩
/-- CFG_ID.DIES, bits [27:24]. -/
def fCfgIdDies : Fld := ⟨rCfgId, 24, 4⟩
/-- CFG_ID.STEPPING, bits [23:16]. -/
def fCfgIdStepping : Fld := ⟨rCfgId, 16, 8⟩
/-- CFG_ID.PART, bits [15:0]. -/
def fCfgIdPart : Fld := ⟨rCfgId, 0, 16⟩
/-- CFG_CTL.CRC_EN, bits [2:2]. -/
def fCfgCtlCrcEn : Fld := ⟨rCfgCtl, 2, 1⟩
/-- CFG_CTL.READ_SHADOW, bits [1:1]. -/
def fCfgCtlReadShadow : Fld := ⟨rCfgCtl, 1, 1⟩
/-- CFG_CTL.SAFE_ON_CRC, bits [0:0]. -/
def fCfgCtlSafeOnCrc : Fld := ⟨rCfgCtl, 0, 1⟩
/-- CFG_STAT.PASS_DONE, bits [4:4]. -/
def fCfgStatPassDone : Fld := ⟨rCfgStat, 4, 1⟩
/-- CFG_STAT.CRC_SUSPENDED, bits [3:3]. -/
def fCfgStatCrcSuspended : Fld := ⟨rCfgStat, 3, 1⟩
/-- CFG_STAT.CRC_MISMATCH, bits [2:2]. -/
def fCfgStatCrcMismatch : Fld := ⟨rCfgStat, 2, 1⟩
/-- CFG_STAT.BAD_WRITE, bits [1:1]. -/
def fCfgStatBadWrite : Fld := ⟨rCfgStat, 1, 1⟩
/-- CFG_STAT.LOCK_VIOL, bits [0:0]. -/
def fCfgStatLockViol : Fld := ⟨rCfgStat, 0, 1⟩
/-- CFG_CRC_PASSES.COUNT, bits [31:0]. -/
def fCfgCrcPassesCount : Fld := ⟨rCfgCrcPasses, 0, 32⟩
/-- CFG_LOCK_VIOL_CNT.COUNT, bits [31:0]. -/
def fCfgLockViolCntCount : Fld := ⟨rCfgLockViolCnt, 0, 32⟩
/-- CFG_BADWR_CNT.COUNT, bits [31:0]. -/
def fCfgBadwrCntCount : Fld := ⟨rCfgBadwrCnt, 0, 32⟩
/-- CFG_LOCK.CLASSES, bits [5:0]. -/
def fCfgLockClasses : Fld := ⟨rCfgLock, 0, 6⟩
/-- UPD_SRC.EN, bits [31:31]. -/
def fUpdSrcEn (k : Nat) : Fld := ⟨rUpdSrc k, 31, 1⟩
/-- UPD_SRC.EVENT, bits [5:0]. -/
def fUpdSrcEvent (k : Nat) : Fld := ⟨rUpdSrc k, 0, 6⟩
/-- UPD_STAT.LATE, bits [31:31]. -/
def fUpdStatLate : Fld := ⟨rUpdStat, 31, 1⟩
/-- UPD_STAT.SRC, bits [17:16]. -/
def fUpdStatSrc : Fld := ⟨rUpdStat, 16, 2⟩
/-- UPD_STAT.COUNT, bits [15:0]. -/
def fUpdStatCount : Fld := ⟨rUpdStat, 0, 16⟩
/-- AON_CAUSE.DIE, bits [7:4]. -/
def fAonCauseDie : Fld := ⟨rAonCause, 4, 4⟩
/-- AON_CAUSE.SHUTDOWN, bits [3:3]. -/
def fAonCauseShutdown : Fld := ⟨rAonCause, 3, 1⟩
/-- AON_CAUSE.POWER_ON, bits [0:0]. -/
def fAonCausePowerOn : Fld := ⟨rAonCause, 0, 1⟩
/-- AON_TEMP.MAX, bits [31:16]. -/
def fAonTempMax : Fld := ⟨rAonTemp, 16, 16⟩
/-- AON_TEMP.NOW, bits [15:0]. -/
def fAonTempNow : Fld := ⟨rAonTemp, 0, 16⟩
/-- PWR_STAT.SAFELIGHT, bits [31:31]. -/
def fPwrStatSafelight : Fld := ⟨rPwrStat, 31, 1⟩
/-- PWR_STAT.CAUSES, bits [30:26]. -/
def fPwrStatCauses : Fld := ⟨rPwrStat, 26, 5⟩
/-- PWR_STAT.THROTTLE, bits [25:24]. -/
def fPwrStatThrottle : Fld := ⟨rPwrStat, 24, 2⟩
/-- PWR_STAT.FENCED_DIES, bits [23:16]. -/
def fPwrStatFencedDies : Fld := ⟨rPwrStat, 16, 8⟩
/-- PWR_STAT.CORE_MV, bits [9:0]. -/
def fPwrStatCoreMv : Fld := ⟨rPwrStat, 0, 10⟩
/-- PWR_SAFE_CTL.ON_FENCE, bits [3:3]. -/
def fPwrSafeCtlOnFence : Fld := ⟨rPwrSafeCtl, 3, 1⟩
/-- PWR_THERMAL.THROTTLE_T, bits [31:16]. -/
def fPwrThermalThrottleT : Fld := ⟨rPwrThermal, 16, 16⟩
/-- PWR_THERMAL.WARN_T, bits [15:0]. -/
def fPwrThermalWarnT : Fld := ⟨rPwrThermal, 0, 16⟩
/-- PWR_SUPPLY.SEEN, bits [25:16]. -/
def fPwrSupplySeen : Fld := ⟨rPwrSupply, 16, 10⟩
/-- PWR_SUPPLY.NOW, bits [9:0]. -/
def fPwrSupplyNow : Fld := ⟨rPwrSupply, 0, 10⟩
/-- PWR_RSV_HEALTH.ENG_FREE, bits [31:28]. -/
def fPwrRsvHealthEngFree : Fld := ⟨rPwrRsvHealth, 28, 4⟩
/-- PWR_RSV_HEALTH.HBM_FREE, bits [27:26]. -/
def fPwrRsvHealthHbmFree : Fld := ⟨rPwrRsvHealth, 26, 2⟩
/-- PWR_RSV_HEALTH.UFL_FREE, bits [25:22]. -/
def fPwrRsvHealthUflFree : Fld := ⟨rPwrRsvHealth, 22, 4⟩
/-- PWR_RSV_HEALTH.TDC_FREE, bits [21:18]. -/
def fPwrRsvHealthTdcFree : Fld := ⟨rPwrRsvHealth, 18, 4⟩
/-- PWR_RSV_HEALTH.WORST, bits [17:16]. -/
def fPwrRsvHealthWorst : Fld := ⟨rPwrRsvHealth, 16, 2⟩
/-- PWR_RSV_HEALTH.REPLACE, bits [15:8]. -/
def fPwrRsvHealthReplace : Fld := ⟨rPwrRsvHealth, 8, 8⟩
/-- PWR_RSV_HEALTH.WATCH, bits [7:0]. -/
def fPwrRsvHealthWatch : Fld := ⟨rPwrRsvHealth, 0, 8⟩
/-- CLK_STAT.REF, bits [31:30]. -/
def fClkStatRef : Fld := ⟨rClkStat, 30, 2⟩
/-- CLK_STAT.MODE, bits [29:29]. -/
def fClkStatMode : Fld := ⟨rClkStat, 29, 1⟩
/-- CLK_STAT.HK_TRIMMED, bits [28:28]. -/
def fClkStatHkTrimmed : Fld := ⟨rClkStat, 28, 1⟩
/-- CLK_STAT.ALIGNED, bits [27:27]. -/
def fClkStatAligned : Fld := ⟨rClkStat, 27, 1⟩
/-- CLK_STAT.HOLDING, bits [26:26]. -/
def fClkStatHolding : Fld := ⟨rClkStat, 26, 1⟩
/-- CLK_STAT.SYNC_ARMED, bits [25:25]. -/
def fClkStatSyncArmed : Fld := ⟨rClkStat, 25, 1⟩
/-- CLK_STAT.REFOUT_ON, bits [24:24]. -/
def fClkStatRefoutOn : Fld := ⟨rClkStat, 24, 1⟩
/-- CLK_STAT.LOCK, bits [7:0]. -/
def fClkStatLock : Fld := ⟨rClkStat, 0, 8⟩
/-- CLK_FAULT_CNT.REF_LOSS, bits [31:16]. -/
def fClkFaultCntRefLoss : Fld := ⟨rClkFaultCnt, 16, 16⟩
/-- CLK_FAULT_CNT.FPLL_LOSS, bits [15:0]. -/
def fClkFaultCntFpllLoss : Fld := ⟨rClkFaultCnt, 0, 16⟩
/-- CLK_SYNC_CNT.IGNORED, bits [31:16]. -/
def fClkSyncCntIgnored : Fld := ⟨rClkSyncCnt, 16, 16⟩
/-- CLK_SYNC_CNT.APPLIED, bits [15:0]. -/
def fClkSyncCntApplied : Fld := ⟨rClkSyncCnt, 0, 16⟩
/-- CLK_HK_TRIM.ERROR, bits [31:16]. -/
def fClkHkTrimError : Fld := ⟨rClkHkTrim, 16, 16⟩
/-- CLK_HK_TRIM.CODE, bits [9:0]. -/
def fClkHkTrimCode : Fld := ⟨rClkHkTrim, 0, 10⟩
/-- TDC_STAT.SPARES, bits [11:8]. -/
def fTdcStatSpares : Fld := ⟨rTdcStat, 8, 4⟩
/-- TDC_STAT.DONE, bits [2:2]. -/
def fTdcStatDone : Fld := ⟨rTdcStat, 2, 1⟩
/-- TDC_STAT.ARMED, bits [1:1]. -/
def fTdcStatArmed : Fld := ⟨rTdcStat, 1, 1⟩
/-- TDC_STAT.DLL_LOCK, bits [0:0]. -/
def fTdcStatDllLock : Fld := ⟨rTdcStat, 0, 1⟩
/-- SHT_CMP_STAT.SM1_RANGE, bits [7:7]. -/
def fShtCmpStatSm1Range : Fld := ⟨rShtCmpStat, 7, 1⟩
/-- SHT_CMP_STAT.SM0_RANGE, bits [6:6]. -/
def fShtCmpStatSm0Range : Fld := ⟨rShtCmpStat, 6, 1⟩
/-- SHT_CMP_STAT.LE1_NO_INPUT, bits [5:5]. -/
def fShtCmpStatLe1NoInput : Fld := ⟨rShtCmpStat, 5, 1⟩
/-- SHT_CMP_STAT.LE0_NO_INPUT, bits [4:4]. -/
def fShtCmpStatLe0NoInput : Fld := ⟨rShtCmpStat, 4, 1⟩
/-- SHT_CMP_STAT.LE1_EN, bits [3:3]. -/
def fShtCmpStatLe1En : Fld := ⟨rShtCmpStat, 3, 1⟩
/-- SHT_CMP_STAT.LE0_EN, bits [2:2]. -/
def fShtCmpStatLe0En : Fld := ⟨rShtCmpStat, 2, 1⟩
/-- SHT_CMP_STAT.SM1_EN, bits [1:1]. -/
def fShtCmpStatSm1En : Fld := ⟨rShtCmpStat, 1, 1⟩
/-- SHT_CMP_STAT.SM0_EN, bits [0:0]. -/
def fShtCmpStatSm0En : Fld := ⟨rShtCmpStat, 0, 1⟩
/-- SHT_EARLY.COUNT, bits [31:0]. -/
def fShtEarlyCount (c : Nat) : Fld := ⟨rShtEarly c, 0, 32⟩
/-- SHT_REARM_MISS.COUNT, bits [31:0]. -/
def fShtRearmMissCount (c : Nat) : Fld := ⟨rShtRearmMiss c, 0, 32⟩
/-- SHT_BUSY_MISS.COUNT, bits [31:0]. -/
def fShtBusyMissCount (c : Nat) : Fld := ⟨rShtBusyMiss c, 0, 32⟩
/-- SHT_CAND_LATE.COUNT, bits [31:0]. -/
def fShtCandLateCount : Fld := ⟨rShtCandLate, 0, 32⟩
/-- SHT_MERGED.COUNT, bits [31:0]. -/
def fShtMergedCount : Fld := ⟨rShtMerged, 0, 32⟩
/-- SHT_SEQ_STAT.ARMED, bits [31:31]. -/
def fShtSeqStatArmed (q : Nat) : Fld := ⟨rShtSeqStat q, 31, 1⟩
/-- SHT_SEQ_STAT.DONE, bits [30:30]. -/
def fShtSeqStatDone (q : Nat) : Fld := ⟨rShtSeqStat q, 30, 1⟩
/-- SHT_SEQ_STAT.LOADED, bits [29:29]. -/
def fShtSeqStatLoaded (q : Nat) : Fld := ⟨rShtSeqStat q, 29, 1⟩
/-- SHT_SEQ_STAT.STATE, bits [19:16]. -/
def fShtSeqStatState (q : Nat) : Fld := ⟨rShtSeqStat q, 16, 4⟩
/-- SHT_SEQ_STAT.SUPPRESSED, bits [15:0]. -/
def fShtSeqStatSuppressed (q : Nat) : Fld := ⟨rShtSeqStat q, 0, 16⟩
/-- UFL_STAT.STATE, bits [31:30]. -/
def fUflStatState (p : Nat) : Fld := ⟨rUflStat p, 30, 2⟩
/-- UFL_STAT.SPARES_USED, bits [20:19]. -/
def fUflStatSparesUsed (p : Nat) : Fld := ⟨rUflStat p, 19, 2⟩
/-- UFL_STAT.PARTNER, bits [18:16]. -/
def fUflStatPartner (p : Nat) : Fld := ⟨rUflStat p, 16, 3⟩
/-- UFL_CFG.THRESH, bits [7:0]. -/
def fUflCfgThresh (p : Nat) : Fld := ⟨rUflCfg p, 0, 8⟩
/-- UFL_REPLAY_CNT.COUNT, bits [31:0]. -/
def fUflReplayCntCount (p : Nat) : Fld := ⟨rUflReplayCnt p, 0, 32⟩
/-- UFL_SHT_LOST.COUNT, bits [31:0]. -/
def fUflShtLostCount (p : Nat) : Fld := ⟨rUflShtLost p, 0, 32⟩
/-- SPC_STAT.LANE, bits [11:8]. -/
def fSpcStatLane (c : Nat) : Fld := ⟨rSpcStat c, 8, 4⟩
/-- SPC_STAT.SELECTED, bits [7:7]. -/
def fSpcStatSelected (c : Nat) : Fld := ⟨rSpcStat c, 7, 1⟩
/-- SPC_STAT.CONFIGURED, bits [6:6]. -/
def fSpcStatConfigured (c : Nat) : Fld := ⟨rSpcStat c, 6, 1⟩
/-- SPC_STAT.EXPORT, bits [5:5]. -/
def fSpcStatExport (c : Nat) : Fld := ⟨rSpcStat c, 5, 1⟩
/-- SPC_STAT.SNAP, bits [4:4]. -/
def fSpcStatSnap (c : Nat) : Fld := ⟨rSpcStat c, 4, 1⟩
/-- SPC_STAT.DC_FROZEN, bits [3:3]. -/
def fSpcStatDcFrozen (c : Nat) : Fld := ⟨rSpcStat c, 3, 1⟩
/-- SPC_STAT.STATE, bits [2:0]. -/
def fSpcStatState (c : Nat) : Fld := ⟨rSpcStat c, 0, 3⟩
/-- SPC_CFG.WINDOW, bits [26:24]. -/
def fSpcCfgWindow (c : Nat) : Fld := ⟨rSpcCfg c, 24, 3⟩
/-- SPC_CFG.OVERLAP, bits [23:22]. -/
def fSpcCfgOverlap (c : Nat) : Fld := ⟨rSpcCfg c, 22, 2⟩
/-- SPC_CFG.FFT_LOG2, bits [21:17]. -/
def fSpcCfgFftLog2 (c : Nat) : Fld := ⟨rSpcCfg c, 17, 5⟩
/-- SPC_CFG.ROM, bits [16:12]. -/
def fSpcCfgRom (c : Nat) : Fld := ⟨rSpcCfg c, 12, 5⟩
/-- SPC_CFG.PRESET, bits [11:10]. -/
def fSpcCfgPreset (c : Nat) : Fld := ⟨rSpcCfg c, 10, 2⟩
/-- SPC_CFG.FINAL, bits [9:8]. -/
def fSpcCfgFinal (c : Nat) : Fld := ⟨rSpcCfg c, 8, 2⟩
/-- SPC_CFG.DEC_LOG2, bits [7:4]. -/
def fSpcCfgDecLog2 (c : Nat) : Fld := ⟨rSpcCfg c, 4, 4⟩
/-- SPC_REC_SKIP.COUNT, bits [31:0]. -/
def fSpcRecSkipCount (c : Nat) : Fld := ⟨rSpcRecSkip c, 0, 32⟩
/-- SPC_EXP_DROP.COUNT, bits [31:0]. -/
def fSpcExpDropCount (c : Nat) : Fld := ⟨rSpcExpDrop c, 0, 32⟩
/-- SPC_OVR_CNT.COUNT, bits [31:0]. -/
def fSpcOvrCntCount (c : Nat) : Fld := ⟨rSpcOvrCnt c, 0, 32⟩
/-- DNS_STAT.MEAS_B_BUSY, bits [13:13]. -/
def fDnsStatMeasBBusy : Fld := ⟨rDnsStat, 13, 1⟩
/-- DNS_STAT.MEAS_A_BUSY, bits [12:12]. -/
def fDnsStatMeasABusy : Fld := ⟨rDnsStat, 12, 1⟩
/-- DNS_STAT.MEAS_B_EN, bits [11:11]. -/
def fDnsStatMeasBEn : Fld := ⟨rDnsStat, 11, 1⟩
/-- DNS_STAT.MEAS_A_EN, bits [10:10]. -/
def fDnsStatMeasAEn : Fld := ⟨rDnsStat, 10, 1⟩
/-- DNS_STAT.B_SMALL, bits [9:9]. -/
def fDnsStatBSmall : Fld := ⟨rDnsStat, 9, 1⟩
/-- DNS_STAT.A_SMALL, bits [8:8]. -/
def fDnsStatASmall : Fld := ⟨rDnsStat, 8, 1⟩
/-- DNS_STAT.B_EXPORTING, bits [7:7]. -/
def fDnsStatBExporting : Fld := ⟨rDnsStat, 7, 1⟩
/-- DNS_STAT.B_SATURATED, bits [6:6]. -/
def fDnsStatBSaturated : Fld := ⟨rDnsStat, 6, 1⟩
/-- DNS_STAT.B_KIND, bits [5:4]. -/
def fDnsStatBKind : Fld := ⟨rDnsStat, 4, 2⟩
/-- DNS_STAT.A_EXPORTING, bits [3:3]. -/
def fDnsStatAExporting : Fld := ⟨rDnsStat, 3, 1⟩
/-- DNS_STAT.A_SATURATED, bits [2:2]. -/
def fDnsStatASaturated : Fld := ⟨rDnsStat, 2, 1⟩
/-- DNS_STAT.A_KIND, bits [1:0]. -/
def fDnsStatAKind : Fld := ⟨rDnsStat, 0, 2⟩
/-- DNS_ACC_SKIP.COUNT, bits [31:0]. -/
def fDnsAccSkipCount (k : Nat) : Fld := ⟨rDnsAccSkip k, 0, 32⟩
/-- DNS_MEAS_CNT.COUNT, bits [31:0]. -/
def fDnsMeasCntCount (c : Nat) : Fld := ⟨rDnsMeasCnt c, 0, 32⟩
/-- CAL_RETRY_MAX.COUNT, bits [7:0]. -/
def fCalRetryMaxCount : Fld := ⟨rCalRetryMax, 0, 8⟩
/-- CAL_DIE_STAT.ACTIVE, bits [31:16]. -/
def fCalDieStatActive : Fld := ⟨rCalDieStat, 16, 16⟩
/-- CAL_DIE_STAT.STUCK, bits [15:0]. -/
def fCalDieStatStuck : Fld := ⟨rCalDieStat, 0, 16⟩
/-- CAL_CFG.PERIOD_MS, bits [31:16]. -/
def fCalCfgPeriodMs (n : Nat) : Fld := ⟨rCalCfg n, 16, 16⟩
/-- CAL_CFG.HOLD_ON_EXPIRY, bits [7:7]. -/
def fCalCfgHoldOnExpiry (n : Nat) : Fld := ⟨rCalCfg n, 7, 1⟩
/-- CAL_CFG.FAST_START, bits [6:6]. -/
def fCalCfgFastStart (n : Nat) : Fld := ⟨rCalCfg n, 6, 1⟩
/-- CAL_CFG.GAP, bits [5:5]. -/
def fCalCfgGap (n : Nat) : Fld := ⟨rCalCfg n, 5, 1⟩
/-- CAL_CFG.SUSPENDED, bits [4:4]. -/
def fCalCfgSuspended (n : Nat) : Fld := ⟨rCalCfg n, 4, 1⟩
/-- CAL_CFG.MODE, bits [1:0]. -/
def fCalCfgMode (n : Nat) : Fld := ⟨rCalCfg n, 0, 2⟩
/-- CAL_STAT.SEQ, bits [31:16]. -/
def fCalStatSeq (n : Nat) : Fld := ⟨rCalStat n, 16, 16⟩
/-- CAL_STAT.RESULT, bits [11:8]. -/
def fCalStatResult (n : Nat) : Fld := ⟨rCalStat n, 8, 4⟩
/-- CAL_STAT.STUCK, bits [4:4]. -/
def fCalStatStuck (n : Nat) : Fld := ⟨rCalStat n, 4, 1⟩
/-- CAL_STAT.CONVERGED, bits [3:3]. -/
def fCalStatConverged (n : Nat) : Fld := ⟨rCalStat n, 3, 1⟩
/-- CAL_STAT.PHASE, bits [2:0]. -/
def fCalStatPhase (n : Nat) : Fld := ⟨rCalStat n, 0, 3⟩
/-- CAL_FAIL.CONSECUTIVE, bits [23:16]. -/
def fCalFailConsecutive (n : Nat) : Fld := ⟨rCalFail n, 16, 8⟩
/-- CAL_FAIL.TOTAL, bits [15:0]. -/
def fCalFailTotal (n : Nat) : Fld := ⟨rCalFail n, 0, 16⟩
/-- CAL_QUAL.TRANS, bits [31:12]. -/
def fCalQualTrans (n : Nat) : Fld := ⟨rCalQual n, 12, 20⟩
/-- CAL_QUAL.SIGMA, bits [11:0]. -/
def fCalQualSigma (n : Nat) : Fld := ⟨rCalQual n, 0, 12⟩
/-- CAL_RAIL.RAILS, bits [20:0]. -/
def fCalRailRails (n : Nat) : Fld := ⟨rCalRail n, 0, 21⟩
/-- CAL_RESID.OFFSET, bits [31:16]. -/
def fCalResidOffset (n : Nat) : Fld := ⟨rCalResid n, 16, 16⟩
/-- CAL_RESID.GAIN, bits [15:0]. -/
def fCalResidGain (n : Nat) : Fld := ⟨rCalResid n, 0, 16⟩
/-- CAL_RESID_SKEW.SKEW, bits [15:0]. -/
def fCalResidSkewSkew (n : Nat) : Fld := ⟨rCalResidSkew n, 0, 16⟩
/-- HKA_CFG.SOURCE, bits [31:30]. -/
def fHkaCfgSource : Fld := ⟨rHkaCfg, 30, 2⟩
/-- HKA_CFG.EDGE, bits [29:28]. -/
def fHkaCfgEdge : Fld := ⟨rHkaCfg, 28, 2⟩
/-- HKA_CFG.PORT, bits [27:27]. -/
def fHkaCfgPort : Fld := ⟨rHkaCfg, 27, 1⟩
/-- HKA_PERIOD.PERIOD, bits [16:0]. -/
def fHkaPeriodPeriod : Fld := ⟨rHkaPeriod, 0, 17⟩
/-- HKA_DELAY.DELAY, bits [15:0]. -/
def fHkaDelayDelay : Fld := ⟨rHkaDelay, 0, 16⟩
/-- HKA_CH.SCAN, bits [15:8]. -/
def fHkaChScan : Fld := ⟨rHkaCh, 8, 8⟩
/-- HKA_CH.CH, bits [2:0]. -/
def fHkaChCh : Fld := ⟨rHkaCh, 0, 3⟩
/-- HKA_STAT.CALIBRATING, bits [3:3]. -/
def fHkaStatCalibrating : Fld := ⟨rHkaStat, 3, 1⟩
/-- HKA_STAT.DELAYING, bits [2:2]. -/
def fHkaStatDelaying : Fld := ⟨rHkaStat, 2, 1⟩
/-- HKA_STAT.PENDING, bits [1:1]. -/
def fHkaStatPending : Fld := ⟨rHkaStat, 1, 1⟩
/-- HKA_STAT.CONVERTING, bits [0:0]. -/
def fHkaStatConverting : Fld := ⟨rHkaStat, 0, 1⟩
/-- HKA_OVERRUN.COUNT, bits [31:0]. -/
def fHkaOverrunCount : Fld := ⟨rHkaOverrun, 0, 32⟩
/-- HKA_LAST_LO.TIME, bits [31:0]. -/
def fHkaLastLoTime : Fld := ⟨rHkaLastLo, 0, 32⟩
/-- HKA_LAST_HI.TIME, bits [31:0]. -/
def fHkaLastHiTime : Fld := ⟨rHkaLastHi, 0, 32⟩
/-- HKA_RESULT.NEW, bits [31:31]. -/
def fHkaResultNew (n : Nat) : Fld := ⟨rHkaResult n, 31, 1⟩
/-- HKA_RESULT.SEQ, bits [23:16]. -/
def fHkaResultSeq (n : Nat) : Fld := ⟨rHkaResult n, 16, 8⟩
/-- HKA_RESULT.VALUE, bits [15:0]. -/
def fHkaResultValue (n : Nat) : Fld := ⟨rHkaResult n, 0, 16⟩
/-- HKA_CAL.GAIN, bits [31:16]. -/
def fHkaCalGain (n : Nat) : Fld := ⟨rHkaCal n, 16, 16⟩
/-- HKA_CAL.OFFSET, bits [15:0]. -/
def fHkaCalOffset (n : Nat) : Fld := ⟨rHkaCal n, 0, 16⟩
/-- PBD_CTL.TRIP_MS, bits [15:8]. -/
def fPbdCtlTripMs (p : Nat) : Fld := ⟨rPbdCtl p, 8, 8⟩
/-- PBD_CTL.DETACH_OFF, bits [1:1]. -/
def fPbdCtlDetachOff (p : Nat) : Fld := ⟨rPbdCtl p, 1, 1⟩
/-- PBD_CTL.EN, bits [0:0]. -/
def fPbdCtlEn (p : Nat) : Fld := ⟨rPbdCtl p, 0, 1⟩
/-- PBD_TARGET.CODE, bits [15:0]. -/
def fPbdTargetCode (p : Nat) : Fld := ⟨rPbdTarget p, 0, 16⟩
/-- PBD_CFG.INTERVAL_M1, bits [31:16]. -/
def fPbdCfgIntervalM1 (p : Nat) : Fld := ⟨rPbdCfg p, 16, 16⟩
/-- PBD_CFG.RANGE, bits [15:14]. -/
def fPbdCfgRange (p : Nat) : Fld := ⟨rPbdCfg p, 14, 2⟩
/-- PBD_CFG.STEP_M1, bits [11:0]. -/
def fPbdCfgStepM1 (p : Nat) : Fld := ⟨rPbdCfg p, 0, 12⟩
/-- PBD_STAT.CODE, bits [31:16]. -/
def fPbdStatCode (p : Nat) : Fld := ⟨rPbdStat p, 16, 16⟩
/-- PBD_STAT.TRIPPED, bits [8:8]. -/
def fPbdStatTripped (p : Nat) : Fld := ⟨rPbdStat p, 8, 1⟩
/-- PBD_STAT.LIMIT_SEEN, bits [7:7]. -/
def fPbdStatLimitSeen (p : Nat) : Fld := ⟨rPbdStat p, 7, 1⟩
/-- PBD_STAT.COMPLIANCE_SEEN, bits [6:6]. -/
def fPbdStatComplianceSeen (p : Nat) : Fld := ⟨rPbdStat p, 6, 1⟩
/-- PBD_STAT.LIMIT, bits [5:5]. -/
def fPbdStatLimit (p : Nat) : Fld := ⟨rPbdStat p, 5, 1⟩
/-- PBD_STAT.COMPLIANCE, bits [4:4]. -/
def fPbdStatCompliance (p : Nat) : Fld := ⟨rPbdStat p, 4, 1⟩
/-- PBD_STAT.HOLD, bits [3:3]. -/
def fPbdStatHold (p : Nat) : Fld := ⟨rPbdStat p, 3, 1⟩
/-- PBD_STAT.BUSY, bits [2:2]. -/
def fPbdStatBusy (p : Nat) : Fld := ⟨rPbdStat p, 2, 1⟩
/-- PBD_STAT.PIN, bits [1:0]. -/
def fPbdStatPin (p : Nat) : Fld := ⟨rPbdStat p, 0, 2⟩
/-- PBD_PWM.PERIOD, bits [31:16]. -/
def fPbdPwmPeriod (p : Nat) : Fld := ⟨rPbdPwm p, 16, 16⟩
/-- PBD_PWM.HIGH, bits [15:0]. -/
def fPbdPwmHigh (p : Nat) : Fld := ⟨rPbdPwm p, 0, 16⟩
/-- PBD_PWM_CTL.INVERT, bits [1:1]. -/
def fPbdPwmCtlInvert (p : Nat) : Fld := ⟨rPbdPwmCtl p, 1, 1⟩
/-- PBD_PWM_CTL.EN, bits [0:0]. -/
def fPbdPwmCtlEn (p : Nat) : Fld := ⟨rPbdPwmCtl p, 0, 1⟩
/-- PBD_I2C.ADDR16 (R535). -/
def fPbdI2cAddr16 (p : Nat) : Fld := ⟨rPbdI2c p, 1, 1⟩
/-- PBD_PRES.PRESENT, bits [7:7]. -/
def fPbdPresPresent (p : Nat) : Fld := ⟨rPbdPres p, 7, 1⟩
/-- PBD_PRES.PIN, bits [6:6]. -/
def fPbdPresPin (p : Nat) : Fld := ⟨rPbdPres p, 6, 1⟩
/-- PBD_PRES.EEPROM_OK, bits [5:5]. -/
def fPbdPresEepromOk (p : Nat) : Fld := ⟨rPbdPres p, 5, 1⟩
/-- PBD_PRES.DISCOVERING, bits [4:4]. -/
def fPbdPresDiscovering (p : Nat) : Fld := ⟨rPbdPres p, 4, 1⟩
/-- PBD_PRES.ADDR, bits [2:0]. -/
def fPbdPresAddr (p : Nat) : Fld := ⟨rPbdPres p, 0, 3⟩
/-- SEC_STAT.BOOT_FAILS, bits [31:16]. -/
def fSecStatBootFails : Fld := ⟨rSecStat, 16, 16⟩
/-- SEC_STAT.OWNER_SET, bits [0:0]. -/
def fSecStatOwnerSet : Fld := ⟨rSecStat, 0, 1⟩
/-- LANE_STAT.ADAPT_BUSY, bits [8:8]. -/
def fLaneStatAdaptBusy (n : Nat) : Fld := ⟨rLaneStat n, 8, 1⟩
/-- LANE_STAT.MON_BUSY, bits [7:7]. -/
def fLaneStatMonBusy (n : Nat) : Fld := ⟨rLaneStat n, 7, 1⟩
/-- LANE_STAT.ATTACHED, bits [6:6]. -/
def fLaneStatAttached (n : Nat) : Fld := ⟨rLaneStat n, 6, 1⟩
/-- LANE_STAT.FRAME_LOCK, bits [5:5]. -/
def fLaneStatFrameLock (n : Nat) : Fld := ⟨rLaneStat n, 5, 1⟩
/-- LANE_STAT.CDR_LOCK, bits [4:4]. -/
def fLaneStatCdrLock (n : Nat) : Fld := ⟨rLaneStat n, 4, 1⟩
/-- LANE_STAT.SIGNAL, bits [3:3]. -/
def fLaneStatSignal (n : Nat) : Fld := ⟨rLaneStat n, 3, 1⟩
/-- LANE_STAT.STATE, bits [2:0]. -/
def fLaneStatState (n : Nat) : Fld := ⟨rLaneStat n, 0, 3⟩
/-- LANE_MODE.SQUELCH, bits [19:16]. -/
def fLaneModeSquelch (n : Nat) : Fld := ⟨rLaneMode n, 16, 4⟩
/-- LANE_MODE.GRAY, bits [12:12]. -/
def fLaneModeGray (n : Nat) : Fld := ⟨rLaneMode n, 12, 1⟩
/-- LANE_MODE.DESCRAMBLE, bits [11:11]. -/
def fLaneModeDescramble (n : Nat) : Fld := ⟨rLaneMode n, 11, 1⟩
/-- LANE_MODE.FRAMER, bits [10:8]. -/
def fLaneModeFramer (n : Nat) : Fld := ⟨rLaneMode n, 8, 3⟩
/-- LANE_MODE.DIV_LOG2, bits [5:4]. -/
def fLaneModeDivLog2 (n : Nat) : Fld := ⟨rLaneMode n, 4, 2⟩
/-- LANE_MODE.PAM4, bits [3:3]. -/
def fLaneModePam4 (n : Nat) : Fld := ⟨rLaneMode n, 3, 1⟩
/-- LANE_MODE.INVERT, bits [2:2]. -/
def fLaneModeInvert (n : Nat) : Fld := ⟨rLaneMode n, 2, 1⟩
/-- LANE_MODE.LISTEN, bits [1:1]. -/
def fLaneModeListen (n : Nat) : Fld := ⟨rLaneMode n, 1, 1⟩
/-- LANE_MODE.ENABLE, bits [0:0]. -/
def fLaneModeEnable (n : Nat) : Fld := ⟨rLaneMode n, 0, 1⟩
/-- LANE_DETACH_T.T_US, bits [19:0]. -/
def fLaneDetachTTUs (n : Nat) : Fld := ⟨rLaneDetachT n, 0, 20⟩
/-- LANE_ERR_CNT.COUNT, bits [31:0]. -/
def fLaneErrCntCount (n : Nat) : Fld := ⟨rLaneErrCnt n, 0, 32⟩
/-- LANE_LOSS_CNT.FRAME, bits [31:16]. -/
def fLaneLossCntFrame (n : Nat) : Fld := ⟨rLaneLossCnt n, 16, 16⟩
/-- LANE_LOSS_CNT.CDR, bits [15:0]. -/
def fLaneLossCntCdr (n : Nat) : Fld := ⟨rLaneLossCnt n, 0, 16⟩
/-- CAP_POOL.SIZE_MIB, bits [31:16]. -/
def fCapPoolSizeMib : Fld := ⟨rCapPool, 16, 16⟩
/-- CAP_POOL.FREE_MIB, bits [15:0]. -/
def fCapPoolFreeMib : Fld := ⟨rCapPool, 0, 16⟩
/-- CAP_CTL.STATE, bits [31:28]. -/
def fCapCtlState (i : Nat) : Fld := ⟨rCapCtl i, 28, 4⟩
/-- CAP_CTL.BOUND, bits [27:27]. -/
def fCapCtlBound (i : Nat) : Fld := ⟨rCapCtl i, 27, 1⟩
/-- CAP_CTL.SERVICE, bits [26:26]. -/
def fCapCtlService (i : Nat) : Fld := ⟨rCapCtl i, 26, 1⟩
/-- CAP_CTL.DROPPING, bits [25:25]. -/
def fCapCtlDropping (i : Nat) : Fld := ⟨rCapCtl i, 25, 1⟩
/-- CAP_CTL.RATE_LIMITED, bits [24:24]. -/
def fCapCtlRateLimited (i : Nat) : Fld := ⟨rCapCtl i, 24, 1⟩
/-- CAP_CTL.MODE, bits [15:14]. -/
def fCapCtlMode (i : Nat) : Fld := ⟨rCapCtl i, 14, 2⟩
/-- CAP_CTL.FORMAT, bits [13:11]. -/
def fCapCtlFormat (i : Nat) : Fld := ⟨rCapCtl i, 11, 3⟩
/-- CAP_CTL.KEEP, bits [10:10]. -/
def fCapCtlKeep (i : Nat) : Fld := ⟨rCapCtl i, 10, 1⟩
/-- CAP_CTL.RING, bits [8:0]. -/
def fCapCtlRing (i : Nat) : Fld := ⟨rCapCtl i, 0, 9⟩
/-- HST_PORT_ID.LINK_GT, bits [23:16]. -/
def fHstPortIdLinkGt : Fld := ⟨rHstPortId, 16, 8⟩
/-- HST_PORT_ID.WIDTH, bits [15:8]. -/
def fHstPortIdWidth : Fld := ⟨rHstPortId, 8, 8⟩
/-- HST_PORT_ID.ROLE, bits [1:0]. -/
def fHstPortIdRole : Fld := ⟨rHstPortId, 0, 2⟩
/-- HST_PORT_STAT.READY, bits [31:31]. -/
def fHstPortStatReady : Fld := ⟨rHstPortStat, 31, 1⟩
/-- HST_PORT_STAT.BOOT_WINDOW, bits [30:30]. -/
def fHstPortStatBootWindow : Fld := ⟨rHstPortStat, 30, 1⟩
/-- HST_PORT_STAT.RING_ERR, bits [2:2]. -/
def fHstPortStatRingErr : Fld := ⟨rHstPortStat, 2, 1⟩
/-- HST_PORT_STAT.EV_LOST, bits [1:1]. -/
def fHstPortStatEvLost : Fld := ⟨rHstPortStat, 1, 1⟩
/-- HST_EV_MASK.RANGE, bits [15:0]. -/
def fHstEvMaskRange : Fld := ⟨rHstEvMask, 0, 16⟩
/-- HST_EV_LOST_CNT.COUNT, bits [31:0]. -/
def fHstEvLostCntCount : Fld := ⟨rHstEvLostCnt, 0, 32⟩
/-- HST_EVR_CTL.IRQ_EN, bits [31:31]. -/
def fHstEvrCtlIrqEn : Fld := ⟨rHstEvrCtl, 31, 1⟩
/-- HST_EVR_CTL.VECTOR, bits [30:20]. -/
def fHstEvrCtlVector : Fld := ⟨rHstEvrCtl, 20, 11⟩
/-- HST_EVR_CTL.IRQ_TIME, bits [11:8]. -/
def fHstEvrCtlIrqTime : Fld := ⟨rHstEvrCtl, 8, 4⟩
/-- HST_EVR_CTL.LOG2_DEPTH, bits [4:0]. -/
def fHstEvrCtlLog2Depth : Fld := ⟨rHstEvrCtl, 0, 5⟩
/-- HST_EVR_STAT.STATE, bits [31:30]. -/
def fHstEvrStatState : Fld := ⟨rHstEvrStat, 30, 2⟩
/-- HST_EVR_STAT.ERR, bits [29:24]. -/
def fHstEvrStatErr : Fld := ⟨rHstEvrStat, 24, 6⟩
/-- HST_EVR_STAT.INDEX, bits [15:0]. -/
def fHstEvrStatIndex : Fld := ⟨rHstEvrStat, 0, 16⟩
/-- HST_BOND_MAP.PRIMARY_DIE, bits [10:8]. -/
def fHstBondMapPrimaryDie : Fld := ⟨rHstBondMap, 8, 3⟩
/-- HST_BOND_MAP.HOST_DIES, bits [7:0]. -/
def fHstBondMapHostDies : Fld := ⟨rHstBondMap, 0, 8⟩
/-- HST_CR_CTL.PRIO, bits [17:16]. -/
def fHstCrCtlPrio (n : Nat) : Fld := ⟨rHstCrCtl n, 16, 2⟩
/-- HST_CR_CTL.LOG2_DEPTH, bits [4:0]. -/
def fHstCrCtlLog2Depth (n : Nat) : Fld := ⟨rHstCrCtl n, 0, 5⟩
/-- HST_CR_STAT.STATE, bits [31:30]. -/
def fHstCrStatState (n : Nat) : Fld := ⟨rHstCrStat n, 30, 2⟩
/-- HST_CR_STAT.ERR, bits [29:24]. -/
def fHstCrStatErr (n : Nat) : Fld := ⟨rHstCrStat n, 24, 6⟩
/-- HST_CR_STAT.INDEX, bits [15:0]. -/
def fHstCrStatIndex (n : Nat) : Fld := ⟨rHstCrStat n, 0, 16⟩
/-- HST_CQ_CTL.IRQ_EN, bits [31:31]. -/
def fHstCqCtlIrqEn (n : Nat) : Fld := ⟨rHstCqCtl n, 31, 1⟩
/-- HST_CQ_CTL.VECTOR, bits [30:20]. -/
def fHstCqCtlVector (n : Nat) : Fld := ⟨rHstCqCtl n, 20, 11⟩
/-- HST_CQ_CTL.IRQ_TIME, bits [11:8]. -/
def fHstCqCtlIrqTime (n : Nat) : Fld := ⟨rHstCqCtl n, 8, 4⟩
/-- HST_CQ_CTL.LOG2_DEPTH, bits [4:0]. -/
def fHstCqCtlLog2Depth (n : Nat) : Fld := ⟨rHstCqCtl n, 0, 5⟩
/-- HST_SR_CTL.IRQ_EN, bits [31:31]. -/
def fHstSrCtlIrqEn (r : Nat) : Fld := ⟨rHstSrCtl r, 31, 1⟩
/-- HST_SR_CTL.VECTOR, bits [30:20]. -/
def fHstSrCtlVector (r : Nat) : Fld := ⟨rHstSrCtl r, 20, 11⟩
/-- HST_SR_CTL.FLUSH, bits [19:16]. -/
def fHstSrCtlFlush (r : Nat) : Fld := ⟨rHstSrCtl r, 16, 4⟩
/-- HST_SR_CTL.PORT, bits [12:10]. -/
def fHstSrCtlPort (r : Nat) : Fld := ⟨rHstSrCtl r, 10, 3⟩
/-- HST_SR_CTL.LOG2_DEPTH, bits [4:0]. -/
def fHstSrCtlLog2Depth (r : Nat) : Fld := ⟨rHstSrCtl r, 0, 5⟩
/-- HST_SR_STAT.STATE, bits [31:30]. -/
def fHstSrStatState (r : Nat) : Fld := ⟨rHstSrStat r, 30, 2⟩
/-- HST_SR_STAT.ERR, bits [29:24]. -/
def fHstSrStatErr (r : Nat) : Fld := ⟨rHstSrStat r, 24, 6⟩
/-- HST_SR_STAT.INDEX, bits [15:0]. -/
def fHstSrStatIndex (r : Nat) : Fld := ⟨rHstSrStat r, 0, 16⟩
/-- ENG_STAT.STATE, bits [31:28]. -/
def fEngStatState (e : Nat) : Fld := ⟨rEngStat e, 28, 4⟩
/-- ENG_STAT.WAITING, bits [27:27]. -/
def fEngStatWaiting (e : Nat) : Fld := ⟨rEngStat e, 27, 1⟩
/-- ENG_STAT.STALLED, bits [26:26]. -/
def fEngStatStalled (e : Nat) : Fld := ⟨rEngStat e, 26, 1⟩
/-- ENG_STAT.SWAP_PENDING, bits [25:25]. -/
def fEngStatSwapPending (e : Nat) : Fld := ⟨rEngStat e, 25, 1⟩
/-- ENG_STAT.SPARE, bits [24:24]. -/
def fEngStatSpare (e : Nat) : Fld := ⟨rEngStat e, 24, 1⟩
/-- ENG_STAT.PHYS, bits [23:19]. -/
def fEngStatPhys (e : Nat) : Fld := ⟨rEngStat e, 19, 5⟩
/-- ENG_STAT.CAUSE, bits [15:8]. -/
def fEngStatCause (e : Nat) : Fld := ⟨rEngStat e, 8, 8⟩
/-- ENG_PC.PC, bits [16:0]. -/
def fEngPcPc (e : Nat) : Fld := ⟨rEngPc e, 0, 17⟩
/-- ENG_PORTS.IN3, bits [31:24]. -/
def fEngPortsIn3 (e : Nat) : Fld := ⟨rEngPorts e, 24, 8⟩
/-- ENG_PORTS.IN2, bits [23:16]. -/
def fEngPortsIn2 (e : Nat) : Fld := ⟨rEngPorts e, 16, 8⟩
/-- ENG_PORTS.IN1, bits [15:8]. -/
def fEngPortsIn1 (e : Nat) : Fld := ⟨rEngPorts e, 8, 8⟩
/-- ENG_PORTS.IN0, bits [7:0]. -/
def fEngPortsIn0 (e : Nat) : Fld := ⟨rEngPorts e, 0, 8⟩
/-- ENG_OUTS.OUT1, bits [15:8]. -/
def fEngOutsOut1 (e : Nat) : Fld := ⟨rEngOuts e, 8, 8⟩
/-- ENG_OUTS.OUT0, bits [7:0]. -/
def fEngOutsOut0 (e : Nat) : Fld := ⟨rEngOuts e, 0, 8⟩
/-- ENG_MBX.IRQ_EN, bits [31:31]. -/
def fEngMbxIrqEn (e : Nat) : Fld := ⟨rEngMbx e, 31, 1⟩
/-- ENG_MBX.VECTOR, bits [30:20]. -/
def fEngMbxVector (e : Nat) : Fld := ⟨rEngMbx e, 20, 11⟩
/-- ENG_LOST.EVQ, bits [31:16]. -/
def fEngLostEvq (e : Nat) : Fld := ⟨rEngLost e, 16, 16⟩
/-- ENG_LOST.MARKS, bits [15:0]. -/
def fEngLostMarks (e : Nat) : Fld := ⟨rEngLost e, 0, 16⟩
/-- ENG_CACHE.MISSES, bits [31:16]. -/
def fEngCacheMisses (e : Nat) : Fld := ⟨rEngCache e, 16, 16⟩
/-- ENG_CACHE.WRITEBACKS, bits [15:0]. -/
def fEngCacheWritebacks (e : Nat) : Fld := ⟨rEngCache e, 0, 16⟩
/-- ENG_ECC.CORRECTED, bits [31:16]. -/
def fEngEccCorrected (e : Nat) : Fld := ⟨rEngEcc e, 16, 16⟩
/-- ENG_ECC.UNCORRECTED, bits [15:0]. -/
def fEngEccUncorrected (e : Nat) : Fld := ⟨rEngEcc e, 0, 16⟩
/-- ENG_HEAP.MIB, bits [12:0]. -/
def fEngHeapMib (e : Nat) : Fld := ⟨rEngHeap e, 0, 13⟩
/-- ENG_DIE_STAT.SPARES_FREE, bits [23:20]. -/
def fEngDieStatSparesFree : Fld := ⟨rEngDieStat, 20, 4⟩
/-- ENG_DIE_STAT.FAILED, bits [19:0]. -/
def fEngDieStatFailed : Fld := ⟨rEngDieStat, 0, 20⟩
/-- ENG_MAP.PHYS3, bits [28:24]. -/
def fEngMapPhys3 (k : Nat) : Fld := ⟨rEngMap k, 24, 5⟩
/-- ENG_MAP.PHYS2, bits [20:16]. -/
def fEngMapPhys2 (k : Nat) : Fld := ⟨rEngMap k, 16, 5⟩
/-- ENG_MAP.PHYS1, bits [12:8]. -/
def fEngMapPhys1 (k : Nat) : Fld := ⟨rEngMap k, 8, 5⟩
/-- ENG_MAP.PHYS0, bits [4:0]. -/
def fEngMapPhys0 (k : Nat) : Fld := ⟨rEngMap k, 0, 5⟩
/-- PRF_STAT.CONFIGURED, bits [31:31]. -/
def fPrfStatConfigured : Fld := ⟨rPrfStat, 31, 1⟩
/-- PRF_STAT.COMPOSING, bits [30:30]. -/
def fPrfStatComposing : Fld := ⟨rPrfStat, 30, 1⟩
/-- PRF_STAT.PUSHING, bits [29:29]. -/
def fPrfStatPushing : Fld := ⟨rPrfStat, 29, 1⟩
/-- PRF_STAT.TE, bits [28:28]. -/
def fPrfStatTe : Fld := ⟨rPrfStat, 28, 1⟩
/-- PRF_STAT.BAD_SURFACE, bits [27:27]. -/
def fPrfStatBadSurface : Fld := ⟨rPrfStat, 27, 1⟩
/-- PRF_STAT.UNDERRUN, bits [26:26]. -/
def fPrfStatUnderrun : Fld := ⟨rPrfStat, 26, 1⟩
/-- PRF_STAT.MODE, bits [25:25]. -/
def fPrfStatMode : Fld := ⟨rPrfStat, 25, 1⟩
/-- PRF_STAT.PENDING, bits [20:16]. -/
def fPrfStatPending : Fld := ⟨rPrfStat, 16, 5⟩
/-- PRF_PANEL.HEIGHT, bits [31:16]. -/
def fPrfPanelHeight : Fld := ⟨rPrfPanel, 16, 16⟩
/-- PRF_PANEL.WIDTH, bits [15:0]. -/
def fPrfPanelWidth : Fld := ⟨rPrfPanel, 0, 16⟩
/-- PRF_LINK.CONT_CLK, bits [7:7]. -/
def fPrfLinkContClk : Fld := ⟨rPrfLink, 7, 1⟩
/-- PRF_LINK.TE_TIMER, bits [6:6]. -/
def fPrfLinkTeTimer : Fld := ⟨rPrfLink, 6, 1⟩
/-- PRF_LINK.FORMAT, bits [5:5]. -/
def fPrfLinkFormat : Fld := ⟨rPrfLink, 5, 1⟩
/-- PRF_LINK.LANES, bits [2:0]. -/
def fPrfLinkLanes : Fld := ⟨rPrfLink, 0, 3⟩
/-- PRF_COMP.COUNT, bits [31:0]. -/
def fPrfCompCount : Fld := ⟨rPrfComp, 0, 32⟩
/-- PRF_COMMIT_SEQ.COUNT, bits [31:0]. -/
def fPrfCommitSeqCount : Fld := ⟨rPrfCommitSeq, 0, 32⟩
/-- PRF_TE_SKIP.COUNT, bits [31:0]. -/
def fPrfTeSkipCount : Fld := ⟨rPrfTeSkip, 0, 32⟩
/-- PRF_UNDERRUN_CNT.COUNT, bits [31:0]. -/
def fPrfUnderrunCntCount : Fld := ⟨rPrfUnderrunCnt, 0, 32⟩
/-- PRF_TE_LAST_LO.TIME, bits [31:0]. -/
def fPrfTeLastLoTime : Fld := ⟨rPrfTeLastLo, 0, 32⟩
/-- PRF_TE_LAST_HI.TIME, bits [31:0]. -/
def fPrfTeLastHiTime : Fld := ⟨rPrfTeLastHi, 0, 32⟩
/-- XFR_CH_CTL.PAUSE, bits [31:31]. -/
def fXfrChCtlPause (c : Nat) : Fld := ⟨rXfrChCtl c, 31, 1⟩
/-- XFR_CH_CTL.PORT, bits [26:24]. -/
def fXfrChCtlPort (c : Nat) : Fld := ⟨rXfrChCtl c, 24, 3⟩
/-- XFR_CH_CTL.PORT_VALID, bits [23:23]. -/
def fXfrChCtlPortValid (c : Nat) : Fld := ⟨rXfrChCtl c, 23, 1⟩
/-- XFR_CH_CTL.WEIGHT, bits [19:16]. -/
def fXfrChCtlWeight (c : Nat) : Fld := ⟨rXfrChCtl c, 16, 4⟩
/-- XFR_CH_CTL.ENTRY, bits [11:0]. -/
def fXfrChCtlEntry (c : Nat) : Fld := ⟨rXfrChCtl c, 0, 12⟩
/-- XFR_CH_STAT.STATE, bits [31:28]. -/
def fXfrChStatState (c : Nat) : Fld := ⟨rXfrChStat c, 28, 4⟩
/-- XFR_CH_STAT.LAST_BEAT_ERR, bits [27:27]. -/
def fXfrChStatLastBeatErr (c : Nat) : Fld := ⟨rXfrChStat c, 27, 1⟩
/-- XFR_CH_STAT.DESC, bits [26:26]. -/
def fXfrChStatDesc (c : Nat) : Fld := ⟨rXfrChStat c, 26, 1⟩
/-- XFR_CH_STAT.PAUSED, bits [25:25]. -/
def fXfrChStatPaused (c : Nat) : Fld := ⟨rXfrChStat c, 25, 1⟩
/-- XFR_CH_STAT.TIMED_OUT, bits [24:24]. -/
def fXfrChStatTimedOut (c : Nat) : Fld := ⟨rXfrChStat c, 24, 1⟩
/-- XFR_CH_STAT.CAUSE, bits [23:20]. -/
def fXfrChStatCause (c : Nat) : Fld := ⟨rXfrChStat c, 20, 4⟩
/-- XFR_CH_STAT.PHASE, bits [19:18]. -/
def fXfrChStatPhase (c : Nat) : Fld := ⟨rXfrChStat c, 18, 2⟩
/-- XFR_CH_STAT.LOOP_ACTIVE, bits [15:12]. -/
def fXfrChStatLoopActive (c : Nat) : Fld := ⟨rXfrChStat c, 12, 4⟩
/-- XFR_CH_STAT.PC, bits [11:0]. -/
def fXfrChStatPc (c : Nat) : Fld := ⟨rXfrChStat c, 0, 12⟩
/-- XFR_CH_SPACE.FAULT, bits [10:8]. -/
def fXfrChSpaceFault (c : Nat) : Fld := ⟨rXfrChSpace c, 8, 3⟩
/-- XFR_CH_SPACE.DST, bits [6:4]. -/
def fXfrChSpaceDst (c : Nat) : Fld := ⟨rXfrChSpace c, 4, 3⟩
/-- XFR_CH_SPACE.SRC, bits [2:0]. -/
def fXfrChSpaceSrc (c : Nat) : Fld := ⟨rXfrChSpace c, 0, 3⟩
/-- XFR_CH_REM.BYTES, bits [26:0]. -/
def fXfrChRemBytes (c : Nat) : Fld := ⟨rXfrChRem c, 0, 27⟩
/-- XFR_CH_WRAP.WRAP3, bits [31:24]. -/
def fXfrChWrapWrap3 (c : Nat) : Fld := ⟨rXfrChWrap c, 24, 8⟩
/-- XFR_CH_WRAP.WRAP2, bits [23:16]. -/
def fXfrChWrapWrap2 (c : Nat) : Fld := ⟨rXfrChWrap c, 16, 8⟩
/-- XFR_CH_WRAP.WRAP1, bits [15:8]. -/
def fXfrChWrapWrap1 (c : Nat) : Fld := ⟨rXfrChWrap c, 8, 8⟩
/-- XFR_CH_WRAP.WRAP0, bits [7:0]. -/
def fXfrChWrapWrap0 (c : Nat) : Fld := ⟨rXfrChWrap c, 0, 8⟩
/-- XFR_CH_IRQ.IRQ_EN, bits [31:31]. -/
def fXfrChIrqIrqEn (c : Nat) : Fld := ⟨rXfrChIrq c, 31, 1⟩
/-- XFR_CH_IRQ.VECTOR, bits [30:20]. -/
def fXfrChIrqVector (c : Nat) : Fld := ⟨rXfrChIrq c, 20, 11⟩
/-- XFR_CH_IRQ.ERR_IRQ_EN, bits [19:19]. -/
def fXfrChIrqErrIrqEn (c : Nat) : Fld := ⟨rXfrChIrq c, 19, 1⟩
/-- XFR_CH_IRQ.ERR_VECTOR, bits [18:8]. -/
def fXfrChIrqErrVector (c : Nat) : Fld := ⟨rXfrChIrq c, 8, 11⟩
/-- XFR_CH_KICK.OVERFLOW, bits [16:16]. -/
def fXfrChKickOverflow (c : Nat) : Fld := ⟨rXfrChKick c, 16, 1⟩
/-- XFR_CH_KICK.PENDING, bits [15:8]. -/
def fXfrChKickPending (c : Nat) : Fld := ⟨rXfrChKick c, 8, 8⟩
/-- XFR_CH_ERRS.REREADS, bits [31:16]. -/
def fXfrChErrsRereads (c : Nat) : Fld := ⟨rXfrChErrs c, 16, 16⟩
/-- XFR_CH_ERRS.CRC_FAILS, bits [15:8]. -/
def fXfrChErrsCrcFails (c : Nat) : Fld := ⟨rXfrChErrs c, 8, 8⟩
/-- XFR_CH_ERRS.MARKS_LOST, bits [7:0]. -/
def fXfrChErrsMarksLost (c : Nat) : Fld := ⟨rXfrChErrs c, 0, 8⟩
/-- XFR_CH_GRANT.SERVICE, bits [16:16]. -/
def fXfrChGrantService (c : Nat) : Fld := ⟨rXfrChGrant c, 16, 1⟩
/-- XFR_CH_GRANT.ENGINES, bits [15:0]. -/
def fXfrChGrantEngines (c : Nat) : Fld := ⟨rXfrChGrant c, 0, 16⟩
/-- SEC_BOOT_STAT.STATE, bits [31:28]. -/
def fSecBootStatState : Fld := ⟨rSecBootStat, 28, 4⟩
/-- SEC_BOOT_STAT.ERR, bits [27:24]. -/
def fSecBootStatErr : Fld := ⟨rSecBootStat, 24, 4⟩
/-- SEC_BOOT_STAT.GO_DIE, bits [18:16]. -/
def fSecBootStatGoDie : Fld := ⟨rSecBootStat, 16, 3⟩
/-- SEC_BOOT_STAT.FAILS, bits [4:0]. -/
def fSecBootStatFails : Fld := ⟨rSecBootStat, 0, 5⟩

end Sys2Proof.Machine
end

