-- ==== Sys2Proof/Machine/RegTable.lean ====
section
/-!
DEFINITION. The register map, as data: every register of the die windows (R508) and of the control page (R571), with
its offset, its instances, its reset value and, per access type of R7, the mask of the bits of that type.  A reserved
bit is in no mask.  HST blocks are outside the configuration check (R494), as are the registers whose description
says so.
-/

namespace Sys2Proof.Machine

/-- One register of the map, or an array of them in one or two dimensions of counts and strides. -/
structure RegDef where
  ofs : Nat
  n1 : Nat
  s1 : Nat
  n2 : Nat
  s2 : Nat
  /-- 0: on every die; 1: on die 0, a reserved location elsewhere; 2: on die 0, reading 0 elsewhere; 3: on dies with a
  host-facing port; 4: in the BAR2 control page. -/
  pres : Nat
  reset : Nat
  rw : Nat
  rc : Nat
  rws : Nat
  wo1 : Nat
  w1t : Nat
  /-- The bits the configuration check covers (R494). -/
  cov : Nat
  /-- The update group of an RWS register (R489); 32 where there is none. -/
  grp : Nat
  deriving DecidableEq, Repr

/-- Registers of one block of the map. -/
def regBlock0 : List RegDef := [
  ⟨0x0, 1, 0x0, 1, 0x0, 0, 0x0, 0x0, 0x0, 0x0, 0x0, 0x0, 0x0, 32⟩,  -- CFG_ID
  ⟨0x4, 1, 0x0, 1, 0x0, 0, 0x4, 0x7, 0x0, 0x0, 0x0, 0x8, 0x7, 32⟩,  -- CFG_CTL
  ⟨0x8, 1, 0x0, 1, 0x0, 0, 0x8, 0x0, 0x7, 0x0, 0x0, 0x0, 0x0, 32⟩,  -- CFG_STAT
  ⟨0xc, 1, 0x0, 1, 0x0, 0, 0x0, 0xffffffff, 0x0, 0x0, 0x0, 0x0, 0x0, 32⟩,  -- CFG_CRC_REF
  ⟨0x10, 1, 0x0, 1, 0x0, 0, 0x0, 0x0, 0x0, 0x0, 0x0, 0x0, 0x0, 32⟩,  -- CFG_CRC_LAST
  ⟨0x14, 1, 0x0, 1, 0x0, 0, 0x0, 0x0, 0x0, 0x0, 0x0, 0x0, 0x0, 32⟩,  -- CFG_CRC_PASSES
  ⟨0x18, 1, 0x0, 1, 0x0, 0, 0x0, 0x0, 0xffffffff, 0x0, 0x0, 0x0, 0x0, 32⟩,  -- CFG_LOCK_VIOL_CNT
  ⟨0x1c, 1, 0x0, 1, 0x0, 0, 0x0, 0x0, 0x0, 0x0, 0x0, 0x0, 0x0, 32⟩,  -- CFG_LOCK_OFS
  ⟨0x20, 1, 0x0, 1, 0x0, 0, 0x0, 0x0, 0x0, 0x0, 0x0, 0x0, 0x0, 32⟩,  -- CFG_BADWR_ADDR
  ⟨0x24, 1, 0x0, 1, 0x0, 0, 0x0, 0x0, 0xffffffff, 0x0, 0x0, 0x0, 0x0, 32⟩,  -- CFG_BADWR_CNT
  ⟨0x28, 1, 0x0, 1, 0x0, 0, 0x0, 0x0, 0x0, 0x0, 0x0, 0x3f, 0x0, 32⟩,  -- CFG_LOCK_SET
  ⟨0x2c, 1, 0x0, 1, 0x0, 0, 0x0, 0x0, 0x0, 0x0, 0x0, 0x0, 0x0, 32⟩]  -- CFG_LOCK

/-- Registers of one block of the map. -/
def regBlock1 : List RegDef := [
  ⟨0x1000, 1, 0x0, 1, 0x0, 0, 0x0, 0x0, 0x0, 0x0, 0x0, 0xffffffff, 0x0, 32⟩,  -- UPD_STROBE
  ⟨0x1004, 1, 0x0, 1, 0x0, 0, 0xffffffff, 0xffffffff, 0x0, 0x0, 0x0, 0x0, 0xffffffff, 32⟩,  -- UPD_ENABLE
  ⟨0x1008, 2, 0x4, 1, 0x0, 1, 0x0, 0x8000003f, 0x0, 0x0, 0x0, 0x0, 0x8000003f, 32⟩,  -- UPD_SRC
  ⟨0x1010, 2, 0x4, 1, 0x0, 1, 0x0, 0xffffffff, 0x0, 0x0, 0x0, 0x0, 0xffffffff, 32⟩,  -- UPD_SRC_MASK
  ⟨0x1018, 1, 0x0, 1, 0x0, 0, 0x0, 0x0, 0x0, 0x0, 0x0, 0x0, 0x0, 32⟩,  -- UPD_PENDING
  ⟨0x101c, 1, 0x0, 1, 0x0, 0, 0x0, 0x0, 0x80000000, 0x0, 0x0, 0x0, 0x0, 32⟩,  -- UPD_STAT
  ⟨0x1020, 1, 0x0, 1, 0x0, 0, 0x0, 0x0, 0x0, 0x0, 0x0, 0x0, 0x0, 32⟩,  -- UPD_LAST_LO
  ⟨0x1024, 1, 0x0, 1, 0x0, 0, 0x0, 0x0, 0x0, 0x0, 0x0, 0x0, 0x0, 32⟩,  -- UPD_LAST_HI
  ⟨0x1028, 1, 0x0, 1, 0x0, 0, 0x0, 0x0, 0x0, 0x0, 0x0, 0x0, 0x0, 32⟩]  -- UPD_LAST_MASK

/-- Registers of one block of the map. -/
def regBlock2 : List RegDef := [
  ⟨0x2000, 1, 0x0, 1, 0x0, 1, 0x1, 0x0, 0x0, 0x0, 0x0, 0x0, 0x0, 32⟩,  -- AON_CAUSE
  ⟨0x2004, 1, 0x0, 1, 0x0, 0, 0x0, 0x0, 0x0, 0x0, 0x0, 0x0, 0x0, 32⟩]  -- AON_TEMP

/-- Registers of one block of the map. -/
def regBlock3 : List RegDef := [
  ⟨0x3000, 1, 0x0, 1, 0x0, 0, 0x2ee, 0x0, 0x0, 0x0, 0x0, 0x0, 0x0, 32⟩,  -- PWR_STAT
  ⟨0x3004, 1, 0x0, 1, 0x0, 0, 0x8, 0x8, 0x0, 0x0, 0x0, 0x0, 0x8, 32⟩,  -- PWR_SAFE_CTL
  ⟨0x3008, 1, 0x0, 1, 0x0, 0, 0x3e803b6, 0x0, 0x0, 0x0, 0x0, 0x0, 0x0, 32⟩,  -- PWR_THERMAL
  ⟨0x300c, 1, 0x0, 1, 0x0, 0, 0x0, 0x0, 0x3ff0000, 0x0, 0x0, 0x0, 0x0, 32⟩,  -- PWR_SUPPLY
  ⟨0x3010, 1, 0x0, 1, 0x0, 0, 0x0, 0x0, 0x0, 0x0, 0x0, 0x0, 0x0, 32⟩]  -- PWR_RSV_HEALTH

/-- Registers of one block of the map. -/
def regBlock4 : List RegDef := [
  ⟨0x4000, 1, 0x0, 1, 0x0, 0, 0x0, 0x0, 0x0, 0x0, 0x0, 0x0, 0x0, 32⟩,  -- CLK_STAT
  ⟨0x4008, 1, 0x0, 1, 0x0, 0, 0x0, 0x0, 0x0, 0x0, 0x0, 0x0, 0x0, 32⟩,  -- CLK_TIME_LO
  ⟨0x400c, 1, 0x0, 1, 0x0, 0, 0x0, 0x0, 0x0, 0x0, 0x0, 0x0, 0x0, 32⟩,  -- CLK_TIME_HI
  ⟨0x4010, 1, 0x0, 1, 0x0, 0, 0x0, 0x0, 0x0, 0x0, 0x0, 0x0, 0x0, 32⟩,  -- CLK_BUILDOUT
  ⟨0x4014, 1, 0x0, 1, 0x0, 0, 0x0, 0x0, 0xffffffff, 0x0, 0x0, 0x0, 0x0, 32⟩,  -- CLK_FAULT_CNT
  ⟨0x4018, 1, 0x0, 1, 0x0, 2, 0x0, 0x0, 0xffffffff, 0x0, 0x0, 0x0, 0x0, 32⟩,  -- CLK_SYNC_CNT
  ⟨0x401c, 1, 0x0, 1, 0x0, 0, 0x0, 0x0, 0x0, 0x0, 0x0, 0x0, 0x0, 32⟩]  -- CLK_HK_TRIM

/-- Registers of one block of the map. -/
def regBlock5 : List RegDef := [
  ⟨0x5000, 1, 0x0, 1, 0x0, 0, 0x0, 0x0, 0x0, 0x0, 0x0, 0x0, 0x0, 32⟩,  -- TDC_STAT
  ⟨0x5004, 4, 0x4, 1, 0x0, 1, 0x0, 0x0, 0x0, 0x0, 0x0, 0x0, 0x0, 32⟩,  -- TDC_PIN_DLY
  ⟨0x5100, 64, 0x4, 1, 0x0, 0, 0x0, 0x0, 0x0, 0x0, 0x0, 0x0, 0x0, 32⟩]  -- TDC_INL

/-- Registers of one block of the map. -/
def regBlock6 : List RegDef := [
  ⟨0x6000, 4, 0x4, 1, 0x0, 0, 0xffffffff, 0x0, 0x0, 0xffffffff, 0x0, 0x0, 0xffffffff, 4⟩,  -- SHT_SLOT
  ⟨0x6010, 1, 0x0, 1, 0x0, 2, 0x0, 0xffffffff, 0x0, 0x0, 0x0, 0x0, 0xffffffff, 32⟩,  -- SHT_NOTIFY_LO
  ⟨0x6014, 1, 0x0, 1, 0x0, 2, 0x0, 0xffffffff, 0x0, 0x0, 0x0, 0x0, 0xffffffff, 32⟩,  -- SHT_NOTIFY_HI
  ⟨0x6018, 1, 0x0, 1, 0x0, 0, 0x0, 0x0, 0x0, 0x0, 0x0, 0x0, 0x0, 32⟩,  -- SHT_NEG_STAT
  ⟨0x601c, 1, 0x0, 1, 0x0, 0, 0x0, 0x0, 0x0, 0x0, 0x0, 0x0, 0x0, 32⟩,  -- SHT_CMP_STAT
  ⟨0x6020, 2, 0x10, 1, 0x0, 0, 0x0, 0x0, 0xffffffff, 0x0, 0x0, 0x0, 0x0, 32⟩,  -- SHT_EARLY
  ⟨0x6024, 2, 0x10, 1, 0x0, 0, 0x0, 0x0, 0xffffffff, 0x0, 0x0, 0x0, 0x0, 32⟩,  -- SHT_REARM_MISS
  ⟨0x6028, 2, 0x10, 1, 0x0, 0, 0x0, 0x0, 0xffffffff, 0x0, 0x0, 0x0, 0x0, 32⟩,  -- SHT_BUSY_MISS
  ⟨0x6040, 1, 0x0, 1, 0x0, 2, 0x0, 0x0, 0xffffffff, 0x0, 0x0, 0x0, 0x0, 32⟩,  -- SHT_CAND_LATE
  ⟨0x6044, 1, 0x0, 1, 0x0, 2, 0x0, 0x0, 0xffffffff, 0x0, 0x0, 0x0, 0x0, 32⟩,  -- SHT_MERGED
  ⟨0x6048, 1, 0x0, 1, 0x0, 2, 0x0, 0x0, 0xffffffff, 0x0, 0x0, 0x0, 0x0, 32⟩,  -- SHT_OUT_DROP
  ⟨0x6080, 16, 0x4, 1, 0x0, 2, 0x0, 0x0, 0xffff, 0x0, 0x0, 0x0, 0x0, 32⟩]  -- SHT_SEQ_STAT

/-- Registers of one block of the map. -/
def regBlock7 : List RegDef := [
  ⟨0x7000, 4, 0x100, 1, 0x0, 0, 0x0, 0x0, 0x0, 0x0, 0x0, 0x0, 0x0, 32⟩,  -- UFL_STAT
  ⟨0x7004, 4, 0x100, 1, 0x0, 0, 0x10, 0xff, 0x0, 0x0, 0x0, 0x0, 0xff, 32⟩,  -- UFL_CFG
  ⟨0x7008, 4, 0x100, 1, 0x0, 0, 0x0, 0x0, 0xffffffff, 0x0, 0x0, 0x0, 0x0, 32⟩,  -- UFL_REPLAY_CNT
  ⟨0x700c, 4, 0x100, 1, 0x0, 0, 0x0, 0x0, 0xffffffff, 0x0, 0x0, 0x0, 0x0, 32⟩]  -- UFL_SHT_LOST

/-- Registers of one block of the map. -/
def regBlock8 : List RegDef := [
  ⟨0x8000, 2, 0x1000, 1, 0x0, 0, 0x0, 0x0, 0x0, 0x0, 0x0, 0x0, 0x0, 32⟩,  -- SPC_STAT
  ⟨0x8004, 2, 0x1000, 1, 0x0, 0, 0x0, 0x0, 0x0, 0x0, 0x0, 0x0, 0x0, 32⟩,  -- SPC_CFG
  ⟨0x8008, 2, 0x1000, 1, 0x0, 0, 0x0, 0x0, 0x0, 0x0, 0x0, 0x0, 0x0, 32⟩,  -- SPC_FREQ_LO
  ⟨0x800c, 2, 0x1000, 1, 0x0, 0, 0x0, 0x0, 0x0, 0x0, 0x0, 0x0, 0x0, 32⟩,  -- SPC_FREQ_HI
  ⟨0x8010, 2, 0x1000, 1, 0x0, 0, 0x0, 0x0, 0x0, 0x0, 0x0, 0x0, 0x0, 32⟩,  -- SPC_RATIO
  ⟨0x8014, 2, 0x1000, 1, 0x0, 0, 0x0, 0x0, 0x0, 0x0, 0x0, 0x0, 0x0, 32⟩,  -- SPC_DC_EST
  ⟨0x8018, 2, 0x1000, 1, 0x0, 0, 0x0, 0x0, 0x0, 0x0, 0x0, 0x0, 0x0, 32⟩,  -- SPC_SPECTRA_LO
  ⟨0x801c, 2, 0x1000, 1, 0x0, 0, 0x0, 0x0, 0x0, 0x0, 0x0, 0x0, 0x0, 32⟩,  -- SPC_SPECTRA_HI
  ⟨0x8020, 2, 0x1000, 1, 0x0, 0, 0x0, 0x0, 0xffffffff, 0x0, 0x0, 0x0, 0x0, 32⟩,  -- SPC_REC_SKIP
  ⟨0x8024, 2, 0x1000, 1, 0x0, 0, 0x0, 0x0, 0xffffffff, 0x0, 0x0, 0x0, 0x0, 32⟩,  -- SPC_EXP_DROP
  ⟨0x8028, 2, 0x1000, 1, 0x0, 0, 0x0, 0x0, 0xffffffff, 0x0, 0x0, 0x0, 0x0, 32⟩,  -- SPC_OVR_CNT
  ⟨0x802c, 2, 0x1000, 1, 0x0, 0, 0x0, 0x0, 0x0, 0x0, 0x0, 0x0, 0x0, 32⟩]  -- SPC_SETTLE

/-- Registers of one block of the map. -/
def regBlock9 : List RegDef := [
  ⟨0xa000, 1, 0x0, 1, 0x0, 0, 0x0, 0x0, 0x0, 0x0, 0x0, 0x0, 0x0, 32⟩,  -- DNS_STAT
  ⟨0xa010, 2, 0x20, 1, 0x0, 0, 0x0, 0x0, 0x0, 0x0, 0x0, 0x0, 0x0, 32⟩,  -- DNS_ACC_INC_LO
  ⟨0xa014, 2, 0x20, 1, 0x0, 0, 0x0, 0x0, 0x0, 0x0, 0x0, 0x0, 0x0, 32⟩,  -- DNS_ACC_INC_HI
  ⟨0xa018, 2, 0x20, 1, 0x0, 0, 0x0, 0x0, 0x0, 0x0, 0x0, 0x0, 0x0, 32⟩,  -- DNS_ACC_OUT
  ⟨0xa01c, 2, 0x20, 1, 0x0, 0, 0x0, 0x0, 0xffffffff, 0x0, 0x0, 0x0, 0x0, 32⟩,  -- DNS_ACC_SKIP
  ⟨0xa020, 2, 0x20, 1, 0x0, 0, 0xffffffff, 0x0, 0x0, 0x0, 0x0, 0x0, 0x0, 32⟩,  -- DNS_ACC_EXPORT
  ⟨0xa060, 2, 0x4, 1, 0x0, 0, 0x0, 0x0, 0x0, 0x0, 0x0, 0x0, 0x0, 32⟩]  -- DNS_MEAS_CNT

/-- Registers of one block of the map. -/
def regBlock10 : List RegDef := [
  ⟨0xb000, 1, 0x0, 1, 0x0, 0, 0x10, 0xff, 0x0, 0x0, 0x0, 0x0, 0xff, 32⟩,  -- CAL_RETRY_MAX
  ⟨0xb004, 1, 0x0, 1, 0x0, 0, 0x0, 0x0, 0x0, 0x0, 0x0, 0x0, 0x0, 32⟩,  -- CAL_DIE_STAT
  ⟨0xb100, 16, 0x40, 1, 0x0, 0, 0xa0041, 0x0, 0x0, 0x0, 0x0, 0x0, 0x0, 32⟩,  -- CAL_CFG
  ⟨0xb104, 16, 0x40, 1, 0x0, 0, 0x0, 0x0, 0x0, 0x0, 0x0, 0x0, 0x0, 32⟩,  -- CAL_STAT
  ⟨0xb108, 16, 0x40, 1, 0x0, 0, 0x0, 0x0, 0xffff, 0x0, 0x0, 0x0, 0x0, 32⟩,  -- CAL_FAIL
  ⟨0xb10c, 16, 0x40, 1, 0x0, 0, 0x0, 0x0, 0x0, 0x0, 0x0, 0x0, 0x0, 32⟩,  -- CAL_QUAL
  ⟨0xb110, 16, 0x40, 1, 0x0, 0, 0x0, 0x0, 0x0, 0x0, 0x0, 0x0, 0x0, 32⟩,  -- CAL_RAIL
  ⟨0xb114, 16, 0x40, 1, 0x0, 0, 0x0, 0x0, 0x0, 0x0, 0x0, 0x0, 0x0, 32⟩,  -- CAL_RESID
  ⟨0xb118, 16, 0x40, 1, 0x0, 0, 0x0, 0x0, 0x0, 0x0, 0x0, 0x0, 0x0, 32⟩,  -- CAL_RESID_SKEW
  ⟨0xb11c, 16, 0x40, 1, 0x0, 0, 0x0, 0x0, 0x0, 0x0, 0x0, 0x0, 0x0, 32⟩,  -- CAL_APPLIED
  ⟨0xb120, 16, 0x40, 1, 0x0, 0, 0x0, 0x0, 0x0, 0x0, 0x0, 0x0, 0x0, 32⟩,  -- CAL_LAST_LO
  ⟨0xb124, 16, 0x40, 1, 0x0, 0, 0x0, 0x0, 0x0, 0x0, 0x0, 0x0, 0x0, 32⟩]  -- CAL_LAST_HI

/-- Registers of one block of the map. -/
def regBlock11 : List RegDef := [
  ⟨0xc000, 1, 0x0, 1, 0x0, 0, 0x0, 0x0, 0x0, 0x0, 0x0, 0x0, 0x0, 32⟩,  -- HKA_CFG
  ⟨0xc004, 1, 0x0, 1, 0x0, 0, 0x0, 0x0, 0x0, 0x0, 0x0, 0x0, 0x0, 32⟩,  -- HKA_PERIOD
  ⟨0xc008, 1, 0x0, 1, 0x0, 0, 0x0, 0x0, 0x0, 0x0, 0x0, 0x0, 0x0, 32⟩,  -- HKA_DELAY
  ⟨0xc00c, 1, 0x0, 1, 0x0, 0, 0x0, 0xff07, 0x0, 0x0, 0x0, 0x0, 0x0, 32⟩,  -- HKA_CH
  ⟨0xc010, 1, 0x0, 1, 0x0, 0, 0x0, 0x0, 0x0, 0x0, 0x0, 0x0, 0x0, 32⟩,  -- HKA_STAT
  ⟨0xc014, 1, 0x0, 1, 0x0, 0, 0x0, 0x0, 0xffffffff, 0x0, 0x0, 0x0, 0x0, 32⟩,  -- HKA_OVERRUN
  ⟨0xc018, 1, 0x0, 1, 0x0, 0, 0x0, 0x0, 0x0, 0x0, 0x0, 0x0, 0x0, 32⟩,  -- HKA_LAST_LO
  ⟨0xc01c, 1, 0x0, 1, 0x0, 0, 0x0, 0x0, 0x0, 0x0, 0x0, 0x0, 0x0, 32⟩,  -- HKA_LAST_HI
  ⟨0xc020, 8, 0x4, 1, 0x0, 0, 0x0, 0x0, 0x80000000, 0x0, 0x0, 0x0, 0x0, 32⟩,  -- HKA_RESULT
  ⟨0xc040, 6, 0x4, 1, 0x0, 0, 0x80000000, 0xffffffff, 0x0, 0x0, 0x0, 0x0, 0x0, 32⟩]  -- HKA_CAL

/-- Registers of one block of the map. -/
def regBlock12 : List RegDef := [
  ⟨0xd000, 2, 0x1000, 1, 0x0, 0, 0x2, 0xff03, 0x0, 0x0, 0x0, 0x0, 0xff03, 32⟩,  -- PBD_CTL
  ⟨0xd004, 2, 0x1000, 1, 0x0, 0, 0x0, 0x0, 0x0, 0xffff, 0x0, 0x0, 0x0, 12⟩,  -- PBD_TARGET
  ⟨0xd008, 2, 0x1000, 1, 0x0, 0, 0xfff, 0x0, 0x0, 0x0, 0x0, 0x0, 0x0, 32⟩,  -- PBD_CFG
  ⟨0xd00c, 2, 0x1000, 1, 0x0, 0, 0x0, 0x0, 0xc0, 0x0, 0x0, 0x0, 0x0, 32⟩,  -- PBD_STAT
  ⟨0xd010, 2, 0x1000, 1, 0x0, 0, 0x0, 0x0, 0x0, 0x0, 0x0, 0x0, 0x0, 32⟩,  -- PBD_PWM
  ⟨0xd014, 2, 0x1000, 1, 0x0, 0, 0x0, 0x0, 0x0, 0x0, 0x0, 0x0, 0x0, 32⟩,  -- PBD_PWM_CTL
  ⟨0xd018, 2, 0x1000, 1, 0x0, 0, 0x0, 0x3, 0x0, 0x0, 0x0, 0x0, 0x3, 32⟩,  -- PBD_I2C
  ⟨0xd01c, 2, 0x1000, 1, 0x0, 0, 0x0, 0x0, 0x0, 0x0, 0x0, 0x0, 0x0, 32⟩]  -- PBD_PRES

/-- Registers of one block of the map. -/
def regBlock13 : List RegDef := [
  ⟨0xf000, 1, 0x0, 1, 0x0, 1, 0x0, 0x0, 0x0, 0x0, 0x0, 0x0, 0x0, 32⟩,  -- SEC_STAT
  ⟨0xf004, 1, 0x0, 1, 0x0, 1, 0x0, 0x0, 0x0, 0x0, 0x0, 0x0, 0x0, 32⟩]  -- SEC_MEAS_COUNT

/-- Registers of one block of the map. -/
def regBlock14 : List RegDef := [
  ⟨0x10000, 16, 0x1000, 1, 0x0, 0, 0x0, 0x0, 0x0, 0x0, 0x0, 0x0, 0x0, 32⟩,  -- LANE_STAT
  ⟨0x10004, 16, 0x1000, 1, 0x0, 0, 0x1000, 0x0, 0x0, 0x0, 0x0, 0x0, 0x0, 32⟩,  -- LANE_MODE
  ⟨0x10008, 16, 0x1000, 1, 0x0, 0, 0x0, 0x0, 0x0, 0x0, 0x0, 0x0, 0x0, 32⟩,  -- LANE_RATE
  ⟨0x1000c, 16, 0x1000, 1, 0x0, 0, 0x3e8, 0xfffff, 0x0, 0x0, 0x0, 0x0, 0xfffff, 32⟩,  -- LANE_DETACH_T
  ⟨0x10010, 16, 0x1000, 1, 0x0, 0, 0x0, 0x0, 0x0, 0x0, 0x0, 0x0, 0x0, 32⟩,  -- LANE_DESKEW
  ⟨0x10014, 16, 0x1000, 1, 0x0, 0, 0x0, 0x0, 0x0, 0x0, 0x0, 0x0, 0x0, 32⟩,  -- LANE_CDR
  ⟨0x10018, 16, 0x1000, 1, 0x0, 0, 0x0, 0x0, 0xffffffff, 0x0, 0x0, 0x0, 0x0, 32⟩,  -- LANE_ERR_CNT
  ⟨0x1001c, 16, 0x1000, 1, 0x0, 0, 0x0, 0x0, 0xffffffff, 0x0, 0x0, 0x0, 0x0, 32⟩,  -- LANE_LOSS_CNT
  ⟨0x10020, 16, 0x1000, 1, 0x0, 0, 0x0, 0x0, 0x0, 0x0, 0x0, 0x0, 0x0, 32⟩,  -- LANE_WORDS_LO
  ⟨0x10024, 16, 0x1000, 1, 0x0, 0, 0x0, 0x0, 0x0, 0x0, 0x0, 0x0, 0x0, 32⟩]  -- LANE_WORDS_HI

/-- Registers of one block of the map. -/
def regBlock15 : List RegDef := [
  ⟨0x20000, 1, 0x0, 1, 0x0, 0, 0x0, 0x0, 0x0, 0x0, 0x0, 0x0, 0x0, 32⟩,  -- CAP_POOL
  ⟨0x21000, 96, 0x40, 1, 0x0, 0, 0x0, 0x0, 0x0, 0x0, 0x0, 0x0, 0x0, 32⟩,  -- CAP_CTL
  ⟨0x21004, 96, 0x40, 1, 0x0, 0, 0x0, 0x0, 0x0, 0x0, 0x0, 0x0, 0x0, 32⟩,  -- CAP_SIZE
  ⟨0x21008, 96, 0x40, 1, 0x0, 0, 0x0, 0x0, 0x0, 0x0, 0x0, 0x0, 0x0, 32⟩,  -- CAP_LEVEL
  ⟨0x2100c, 96, 0x40, 1, 0x0, 0, 0x0, 0x0, 0x0, 0x0, 0x0, 0x0, 0x0, 32⟩,  -- CAP_RETAIN
  ⟨0x21010, 96, 0x40, 1, 0x0, 0, 0x0, 0x0, 0x0, 0x0, 0x0, 0x0, 0x0, 32⟩,  -- CAP_SEQ_LO
  ⟨0x21014, 96, 0x40, 1, 0x0, 0, 0x0, 0x0, 0x0, 0x0, 0x0, 0x0, 0x0, 32⟩,  -- CAP_SEQ_HI
  ⟨0x21018, 96, 0x40, 1, 0x0, 0, 0x0, 0x0, 0x0, 0x0, 0x0, 0x0, 0x0, 32⟩,  -- CAP_OLDEST_LO
  ⟨0x2101c, 96, 0x40, 1, 0x0, 0, 0x0, 0x0, 0x0, 0x0, 0x0, 0x0, 0x0, 32⟩,  -- CAP_OLDEST_HI
  ⟨0x21020, 96, 0x40, 1, 0x0, 0, 0x0, 0x0, 0x0, 0x0, 0x0, 0x0, 0x0, 32⟩,  -- CAP_DROP_LO
  ⟨0x21024, 96, 0x40, 1, 0x0, 0, 0x0, 0x0, 0x0, 0x0, 0x0, 0x0, 0x0, 32⟩,  -- CAP_DROP_HI
  ⟨0x21028, 96, 0x40, 1, 0x0, 0, 0x0, 0x0, 0x0, 0x0, 0x0, 0x0, 0x0, 32⟩,  -- CAP_MARK_DROP
  ⟨0x2102c, 96, 0x40, 1, 0x0, 0, 0x0, 0x0, 0x0, 0x0, 0x0, 0x0, 0x0, 32⟩]  -- CAP_SEGMENTS

/-- Registers of one block of the map. -/
def regBlock16 : List RegDef := [
  ⟨0x30000, 1, 0x0, 1, 0x0, 3, 0x0, 0x0, 0x0, 0x0, 0x0, 0x0, 0x0, 32⟩,  -- HST_PORT_ID
  ⟨0x30004, 1, 0x0, 1, 0x0, 3, 0x40000000, 0x0, 0x6, 0x0, 0x0, 0x0, 0x0, 32⟩,  -- HST_PORT_STAT
  ⟨0x30008, 1, 0x0, 1, 0x0, 3, 0x0, 0xffff, 0x0, 0x0, 0x0, 0x0, 0x0, 32⟩,  -- HST_EV_MASK
  ⟨0x3000c, 1, 0x0, 1, 0x0, 3, 0x0, 0x0, 0xffffffff, 0x0, 0x0, 0x0, 0x0, 32⟩,  -- HST_EV_LOST_CNT
  ⟨0x30010, 1, 0x0, 1, 0x0, 3, 0x0, 0xfffff000, 0x0, 0x0, 0x0, 0x0, 0x0, 32⟩,  -- HST_EVR_BASE_LO
  ⟨0x30014, 1, 0x0, 1, 0x0, 3, 0x0, 0xffffffff, 0x0, 0x0, 0x0, 0x0, 0x0, 32⟩,  -- HST_EVR_BASE_HI
  ⟨0x30018, 1, 0x0, 1, 0x0, 3, 0x0, 0xffffff9f, 0x0, 0x0, 0x0, 0x0, 0x0, 32⟩,  -- HST_EVR_CTL
  ⟨0x3001c, 1, 0x0, 1, 0x0, 3, 0x0, 0x0, 0x0, 0x0, 0x0, 0x0, 0x0, 32⟩,  -- HST_EVR_STAT
  ⟨0x30020, 1, 0x0, 1, 0x0, 3, 0x0, 0x0, 0x0, 0x0, 0x0, 0x0, 0x0, 32⟩,  -- HST_BOND_MAP
  ⟨0x31000, 64, 0x40, 1, 0x0, 3, 0x0, 0xfffff000, 0x0, 0x0, 0x0, 0x0, 0x0, 32⟩,  -- HST_CR_BASE_LO
  ⟨0x31004, 64, 0x40, 1, 0x0, 3, 0x0, 0xffffffff, 0x0, 0x0, 0x0, 0x0, 0x0, 32⟩,  -- HST_CR_BASE_HI
  ⟨0x31008, 64, 0x40, 1, 0x0, 3, 0x0, 0x8003001f, 0x0, 0x0, 0x0, 0x0, 0x0, 32⟩,  -- HST_CR_CTL
  ⟨0x3100c, 64, 0x40, 1, 0x0, 3, 0x0, 0x0, 0x0, 0x0, 0x0, 0x0, 0x0, 32⟩,  -- HST_CR_STAT
  ⟨0x31010, 64, 0x40, 1, 0x0, 3, 0x0, 0xfffff000, 0x0, 0x0, 0x0, 0x0, 0x0, 32⟩,  -- HST_CQ_BASE_LO
  ⟨0x31014, 64, 0x40, 1, 0x0, 3, 0x0, 0xffffffff, 0x0, 0x0, 0x0, 0x0, 0x0, 32⟩,  -- HST_CQ_BASE_HI
  ⟨0x31018, 64, 0x40, 1, 0x0, 3, 0x0, 0xffffff1f, 0x0, 0x0, 0x0, 0x0, 0x0, 32⟩,  -- HST_CQ_CTL
  ⟨0x31020, 64, 0x40, 1, 0x0, 3, 0x0, 0xfffffffc, 0x0, 0x0, 0x0, 0x0, 0x0, 32⟩,  -- HST_CR_SHADOW_LO
  ⟨0x31024, 64, 0x40, 1, 0x0, 3, 0x0, 0xffffffff, 0x0, 0x0, 0x0, 0x0, 0x0, 32⟩,  -- HST_CR_SHADOW_HI
  ⟨0x34000, 512, 0x20, 1, 0x0, 1, 0x0, 0xfffff000, 0x0, 0x0, 0x0, 0x0, 0x0, 32⟩,  -- HST_SR_BASE_LO
  ⟨0x34004, 512, 0x20, 1, 0x0, 1, 0x0, 0xffffffff, 0x0, 0x0, 0x0, 0x0, 0x0, 32⟩,  -- HST_SR_BASE_HI
  ⟨0x34008, 512, 0x20, 1, 0x0, 1, 0x0, 0xffff1d1f, 0x0, 0x0, 0x0, 0x0, 0x0, 32⟩,  -- HST_SR_CTL
  ⟨0x3400c, 512, 0x20, 1, 0x0, 1, 0x0, 0x0, 0x0, 0x0, 0x0, 0x0, 0x0, 32⟩]  -- HST_SR_STAT

/-- Registers of one block of the map. -/
def regBlock17 : List RegDef := [
  ⟨0x40000, 16, 0x1000, 1, 0x0, 0, 0x0, 0x0, 0x0, 0x0, 0x0, 0x0, 0x0, 32⟩,  -- ENG_STAT
  ⟨0x40004, 16, 0x1000, 1, 0x0, 0, 0x0, 0x0, 0x0, 0x0, 0x0, 0x0, 0x0, 32⟩,  -- ENG_PC
  ⟨0x40008, 16, 0x1000, 1, 0x0, 0, 0x0, 0x0, 0x0, 0x0, 0x0, 0x0, 0x0, 32⟩,  -- ENG_BADADDR_LO
  ⟨0x4000c, 16, 0x1000, 1, 0x0, 0, 0x0, 0x0, 0x0, 0x0, 0x0, 0x0, 0x0, 32⟩,  -- ENG_BADADDR_HI
  ⟨0x40010, 16, 0x1000, 1, 0x0, 0, 0x0, 0x0, 0x0, 0x0, 0x0, 0x0, 0x0, 32⟩,  -- ENG_RETIRED_LO
  ⟨0x40014, 16, 0x1000, 1, 0x0, 0, 0x0, 0x0, 0x0, 0x0, 0x0, 0x0, 0x0, 32⟩,  -- ENG_RETIRED_HI
  ⟨0x40018, 16, 0x1000, 1, 0x0, 0, 0x0, 0x0, 0x0, 0x0, 0x0, 0x0, 0x0, 32⟩,  -- ENG_WAITED_LO
  ⟨0x4001c, 16, 0x1000, 1, 0x0, 0, 0x0, 0x0, 0x0, 0x0, 0x0, 0x0, 0x0, 32⟩,  -- ENG_WAITED_HI
  ⟨0x40020, 16, 0x1000, 1, 0x0, 0, 0xffffffff, 0x0, 0x0, 0x0, 0x0, 0x0, 0x0, 32⟩,  -- ENG_PORTS
  ⟨0x40024, 16, 0x1000, 1, 0x0, 0, 0xffff, 0x0, 0x0, 0x0, 0x0, 0x0, 0x0, 32⟩,  -- ENG_OUTS
  ⟨0x40028, 16, 0x1000, 1, 0x0, 0, 0x0, 0xfff00000, 0x0, 0x0, 0x0, 0x0, 0xfff00000, 32⟩,  -- ENG_MBX
  ⟨0x4002c, 16, 0x1000, 1, 0x0, 0, 0x0, 0x0, 0xffffffff, 0x0, 0x0, 0x0, 0x0, 32⟩,  -- ENG_LOST
  ⟨0x40030, 16, 0x1000, 1, 0x0, 0, 0x0, 0x0, 0xffffffff, 0x0, 0x0, 0x0, 0x0, 32⟩,  -- ENG_CACHE
  ⟨0x40034, 16, 0x1000, 1, 0x0, 0, 0x0, 0x0, 0xffffffff, 0x0, 0x0, 0x0, 0x0, 32⟩,  -- ENG_ECC
  ⟨0x40038, 16, 0x1000, 1, 0x0, 0, 0x0, 0x0, 0x0, 0x0, 0x0, 0x0, 0x0, 32⟩]  -- ENG_HEAP

/-- Registers of one block of the map. -/
def regBlock18 : List RegDef := [
  ⟨0x50000, 1, 0x0, 1, 0x0, 0, 0x400000, 0x0, 0x0, 0x0, 0x0, 0x0, 0x0, 32⟩,  -- ENG_DIE_STAT
  ⟨0x50010, 4, 0x4, 1, 0x0, 0, 0x3020100, 0x0, 0x0, 0x0, 0x0, 0x0, 0x0, 32⟩,  -- ENG_MAP
  ⟨0x58000, 1, 0x0, 1, 0x0, 1, 0x0, 0x0, 0xc000000, 0x0, 0x0, 0x0, 0x0, 32⟩,  -- PRF_STAT
  ⟨0x58004, 1, 0x0, 1, 0x0, 1, 0x0, 0x0, 0x0, 0x0, 0x0, 0x0, 0x0, 32⟩,  -- PRF_PANEL
  ⟨0x58008, 1, 0x0, 1, 0x0, 1, 0x0, 0x0, 0x0, 0x0, 0x0, 0x0, 0x0, 32⟩,  -- PRF_LINK
  ⟨0x5800c, 1, 0x0, 1, 0x0, 1, 0x0, 0x0, 0x0, 0x0, 0x0, 0x0, 0x0, 32⟩,  -- PRF_COMP
  ⟨0x58010, 1, 0x0, 1, 0x0, 1, 0x0, 0x0, 0x0, 0x0, 0x0, 0x0, 0x0, 32⟩,  -- PRF_COMMIT_SEQ
  ⟨0x58014, 1, 0x0, 1, 0x0, 1, 0x0, 0x0, 0xffffffff, 0x0, 0x0, 0x0, 0x0, 32⟩,  -- PRF_TE_SKIP
  ⟨0x58018, 1, 0x0, 1, 0x0, 1, 0x0, 0x0, 0xffffffff, 0x0, 0x0, 0x0, 0x0, 32⟩,  -- PRF_UNDERRUN_CNT
  ⟨0x58020, 1, 0x0, 1, 0x0, 1, 0x0, 0x0, 0x0, 0x0, 0x0, 0x0, 0x0, 32⟩,  -- PRF_TE_LAST_LO
  ⟨0x58024, 1, 0x0, 1, 0x0, 1, 0x0, 0x0, 0x0, 0x0, 0x0, 0x0, 0x0, 32⟩]  -- PRF_TE_LAST_HI

/-- Registers of one block of the map. -/
def regBlock19 : List RegDef := [
  ⟨0x60000, 32, 0x1000, 1, 0x0, 0, 0x0, 0x80000000, 0x0, 0x0, 0x0, 0x0, 0x0, 32⟩,  -- XFR_CH_CTL
  ⟨0x60004, 32, 0x1000, 1, 0x0, 0, 0x0, 0x0, 0x0, 0x0, 0x0, 0x0, 0x0, 32⟩,  -- XFR_CH_STAT
  ⟨0x60008, 32, 0x1000, 1, 0x0, 0, 0x0, 0x0, 0x0, 0x0, 0x0, 0x0, 0x0, 32⟩,  -- XFR_CH_SPACE
  ⟨0x60010, 32, 0x1000, 1, 0x0, 0, 0x0, 0x0, 0x0, 0x0, 0x0, 0x0, 0x0, 32⟩,  -- XFR_CH_SRC_LO
  ⟨0x60014, 32, 0x1000, 1, 0x0, 0, 0x0, 0x0, 0x0, 0x0, 0x0, 0x0, 0x0, 32⟩,  -- XFR_CH_SRC_HI
  ⟨0x60018, 32, 0x1000, 1, 0x0, 0, 0x0, 0x0, 0x0, 0x0, 0x0, 0x0, 0x0, 32⟩,  -- XFR_CH_DST_LO
  ⟨0x6001c, 32, 0x1000, 1, 0x0, 0, 0x0, 0x0, 0x0, 0x0, 0x0, 0x0, 0x0, 32⟩,  -- XFR_CH_DST_HI
  ⟨0x60020, 32, 0x1000, 1, 0x0, 0, 0x0, 0x0, 0x0, 0x0, 0x0, 0x0, 0x0, 32⟩,  -- XFR_CH_FAULT_LO
  ⟨0x60024, 32, 0x1000, 1, 0x0, 0, 0x0, 0x0, 0x0, 0x0, 0x0, 0x0, 0x0, 32⟩,  -- XFR_CH_FAULT_HI
  ⟨0x60050, 32, 0x1000, 1, 0x0, 0, 0x0, 0x0, 0x0, 0x0, 0x0, 0x0, 0x0, 32⟩,  -- XFR_CH_BYTES_LO
  ⟨0x60054, 32, 0x1000, 1, 0x0, 0, 0x0, 0x0, 0x0, 0x0, 0x0, 0x0, 0x0, 32⟩,  -- XFR_CH_BYTES_HI
  ⟨0x60030, 32, 0x1000, 4, 0x8, 0, 0x0, 0x0, 0x0, 0x0, 0x0, 0x0, 0x0, 32⟩,  -- XFR_CH_BASE_LO
  ⟨0x60034, 32, 0x1000, 4, 0x8, 0, 0x0, 0x0, 0x0, 0x0, 0x0, 0x0, 0x0, 32⟩,  -- XFR_CH_BASE_HI
  ⟨0x60028, 32, 0x1000, 1, 0x0, 0, 0x0, 0x0, 0x0, 0x0, 0x0, 0x0, 0x0, 32⟩,  -- XFR_CH_REM
  ⟨0x6002c, 32, 0x1000, 1, 0x0, 0, 0x0, 0x0, 0x0, 0x0, 0x0, 0x0, 0x0, 32⟩,  -- XFR_CH_WRAP
  ⟨0x60058, 32, 0x1000, 4, 0x4, 0, 0x0, 0x0, 0x0, 0x0, 0x0, 0x0, 0x0, 32⟩,  -- XFR_CH_LOOP
  ⟨0x60068, 32, 0x1000, 1, 0x0, 0, 0x0, 0xffffff00, 0x0, 0x0, 0x0, 0x0, 0xffffff00, 32⟩,  -- XFR_CH_IRQ
  ⟨0x6006c, 32, 0x1000, 1, 0x0, 0, 0x0, 0x0, 0x10000, 0x0, 0x0, 0x1, 0x0, 32⟩,  -- XFR_CH_KICK
  ⟨0x60070, 32, 0x1000, 1, 0x0, 0, 0x0, 0x0, 0xffffffff, 0x0, 0x0, 0x0, 0x0, 32⟩,  -- XFR_CH_ERRS
  ⟨0x60074, 32, 0x1000, 1, 0x0, 0, 0x0, 0x0, 0x0, 0x0, 0x0, 0x0, 0x0, 32⟩]  -- XFR_CH_GRANT

/-- Registers of one block of the map. -/
def regBlock20 : List RegDef := [
  ⟨0x4000000, 1, 0x0, 1, 0x0, 4, 0x0, 0x0, 0x0, 0x0, 0x0, 0x0, 0x0, 32⟩,  -- SEC_BOOT_STAT
  ⟨0x4000004, 1, 0x0, 1, 0x0, 4, 0x0, 0x0, 0x0, 0x0, 0x0, 0x1, 0x0, 32⟩,  -- SEC_BOOT_CTL
  ⟨0x4000008, 1, 0x0, 1, 0x0, 4, 0x0, 0xffffffff, 0x0, 0x0, 0x0, 0x0, 0x0, 32⟩,  -- SEC_BOOT_LEN
  ⟨0x400000c, 1, 0x0, 1, 0x0, 4, 0x0, 0xffffffff, 0x0, 0x0, 0x0, 0x0, 0x0, 32⟩,  -- SEC_REPAIR_OFS
  ⟨0x4000010, 1, 0x0, 1, 0x0, 4, 0x0, 0xffffffff, 0x0, 0x0, 0x0, 0x0, 0x0, 32⟩,  -- SEC_REPAIR_LEN
  ⟨0x4000020, 8, 0x4, 1, 0x0, 4, 0x0, 0x0, 0x0, 0x0, 0xffffffff, 0x0, 0x0, 32⟩,  -- SEC_OWNER_HASH
  ⟨0x4000040, 8, 0x4, 1, 0x0, 4, 0x0, 0x0, 0x0, 0x0, 0x0, 0x0, 0x0, 32⟩,  -- SEC_PLOVUM_HASH
  ⟨0x4000060, 1, 0x0, 1, 0x0, 4, 0x0, 0x0, 0x0, 0x0, 0x0, 0x0, 0x0, 32⟩,  -- SEC_SERIAL_LO
  ⟨0x4000064, 1, 0x0, 1, 0x0, 4, 0x0, 0x0, 0x0, 0x0, 0x0, 0x0, 0x0, 32⟩]  -- SEC_SERIAL_HI

/-- Every register of the device. -/
def regTable : List RegDef :=
  regBlock0 ++ regBlock1 ++ regBlock2 ++ regBlock3 ++ regBlock4 ++ regBlock5 ++ regBlock6 ++ regBlock7 ++ regBlock8 ++ regBlock9 ++ regBlock10 ++ regBlock11 ++ regBlock12 ++ regBlock13 ++ regBlock14 ++ regBlock15 ++ regBlock16 ++ regBlock17 ++ regBlock18 ++ regBlock19 ++ regBlock20

end Sys2Proof.Machine
end

