-- ==== Sys2Proof/Machine/Store.lean ====
section
/-!
DEFINITION. Sparse tables: how the state holds things of one kind by number (registers, units, streams, bytes).

A table is a list of (key, value) pairs with strictly rising keys and no entry equal to what an unlisted key reads
as, so that equal contents are equal lists.
-/

namespace Sys2Proof.Machine

/-- A sparse table of values by number. -/
abbrev Tab (α : Type) := List (Nat × α)

/-- The value at key `k`, or what the key reads as unlisted. -/
def tabGet {α : Type} (dflt : Nat → α) : Tab α → Nat → α
  | [], k => dflt k
  | (k', v) :: r, k => if k' = k then v else tabGet dflt r k

/-- Lists `v` at key `k`, keeping the keys rising. -/
def tabPut {α : Type} (k : Nat) (v : α) : Tab α → Tab α
  | [] => [(k, v)]
  | (k', v') :: r =>
    if k < k' then (k, v) :: (k', v') :: r
    else if k = k' then (k, v) :: r
    else (k', v') :: tabPut k v r

/-- Unlists key `k`, wherever it stands. -/
def tabDel {α : Type} (k : Nat) : Tab α → Tab α
  | [] => []
  | (k', v') :: r => if k' = k then tabDel k r else (k', v') :: tabDel k r

/-- Sets the value at key `k`; a value equal to what the key reads as unlisted is not listed. -/
def tabSet {α : Type} [DecidableEq α] (dflt : Nat → α) (t : Tab α) (k : Nat) (v : α) : Tab α :=
  if v = dflt k then tabDel k t else tabPut k v t

/-- The keys of a table all lie above `lo`, rise strictly, and no entry equals its key's unlisted value. -/
def tabWfFrom {α : Type} [DecidableEq α] (dflt : Nat → α) : Option Nat → Tab α → Bool
  | _, [] => true
  | lo, (k, v) :: r =>
    (match lo with | none => true | some l => decide (l < k)) && decide (v ≠ dflt k) && tabWfFrom dflt (some k) r

/-- The canonical form of a table. -/
def tabWf {α : Type} [DecidableEq α] (dflt : Nat → α) (t : Tab α) : Bool :=
  tabWfFrom dflt none t

/-- The first position of a list whose element satisfies `p`. -/
def firstIdx {α : Type} (p : α → Bool) : List α → Option Nat
  | [] => none
  | x :: r => if p x then some 0 else (firstIdx p r).map (· + 1)

end Sys2Proof.Machine
end

