-- ==== Sys2Proof/Machine/State.lean ====
section
/-!
DEFINITION. The state of the block: everything the spec gives the device, as plain data.

Each chapter's state is one structure.  Things that come in numbers (registers, units, lanes, streams, engines,
bytes) are sparse tables (Machine/Store.lean): an unlisted one is in its reset state.  Registers with fields that
software can write or that clear on read live in the register file `regs`; read-only status that follows from other
state is computed when read (Machine/View.lean), so nothing is stored twice.

Keys: a lane, engine, channel or stream of die `d` with index `i` is at `128 * d + i`; a unit is at its unit ID (R33);
a register is at `0x800000 * d + window offset`, the control page of R571 at `0x4000000 + offset`; a ring of a port at
`64 * port + ring`.
-/

namespace Sys2Proof.Machine

/-! ## Package, time and register file (R1, R152, R485 to R510) -/

/-- The part fitted (R1). -/
inductive Part where
  | kn2032
  | kn4064
  | kn8128
  deriving DecidableEq, Repr

/-- What the last register read answered (R502, R503, R505): the dwords of the request in ascending address order, or
Completer Abort. -/
inductive ReadResult where
  | dwords (l : List W32)
  | completerAbort
  deriving DecidableEq, Repr

/-- A strobe issued and not yet applied on every die (R490): its source, groups, the physical tick at which it applies,
the dies still to apply it, and those of them on which it fell due during a clock fault; `held` while it waits for die
0's realignment, which makes it `late` (R493). -/
structure Strobe where
  src : Nat
  groups : W32
  applyAt : Nat
  dies : List Nat
  deferred : List Nat
  held : Bool
  late : Bool
  deriving DecidableEq, Repr

/-- The bookkeeping of a die's configuration check (R494 to R497) and of its limited reports (R507). -/
structure CfgSt where
  /-- Physical tick at which the running pass started. -/
  passStart : Nat
  /-- A covered field changed during the running pass. -/
  dirty : Bool
  /-- CAPTURE_REF waits for the pass that starts next (`some false`) or runs (`some true`). -/
  capture : Option Bool
  /-- A reference was written during the running pass: comparison resumes with the next. -/
  resume : Bool
  /-- A mismatch has been posted since the last matching pass or new reference. -/
  posted : Bool
  /-- A reference has been written or captured since the last mismatch. -/
  newRef : Bool
  /-- Per kind of report (R507): occurrences not yet reported, the first one's tick and data, and the physical tick of
  the last event. -/
  badSince : Nat
  badFirst : Option (Nat × List Byte)
  badLast : Option Nat
  lockSince : Nat
  lockFirst : Option (Nat × List Byte)
  lockLast : Option Nat
  deriving DecidableEq, Repr

/-! ## Rings, commands and events (R63 to R99) -/

/-- An event on its way to the host (R87): code, unit, time in fine units, 16 data bytes, the order number of simultaneous Shutter
events (R30), and the LATE flag it carries when written. -/
structure Ev where
  code : Nat
  unit : Nat
  time : Nat
  data : List Byte
  sub : Nat
  late : Bool
  deriving DecidableEq, Repr

/-- An event that has not reached die 0's merge: the die it comes from. -/
structure EvTransit where
  die : Nat
  ev : Ev
  deriving DecidableEq, Repr

/-- A command ring's producer index, as last accepted (R70). -/
structure CmdRing where
  prod : Nat
  deriving DecidableEq, Repr

/-- A completion ring: the device's producer index and phase, the host's consumer index, interrupt moderation (R95):
entries since the last interrupt and the physical tick of the first of them; and that its own doorbell put the pair in
ERROR (R75). -/
structure CplRing where
  prod : Nat
  cons : Nat
  phase : Bool
  irqN : Nat
  irqAt : Option Nat
  err : Bool
  deriving DecidableEq, Repr

/-- A port's event ring beside its registers: consumer index, phase, moderation, the events held while the ring is
full or disabled, and what was lost (R90). -/
structure EvRing where
  cons : Nat
  phase : Bool
  irqN : Nat
  irqAt : Option Nat
  held : List Ev
  lost : Nat
  lostFirst : Nat
  lostLast : Nat
  /-- Since PERST# and until the ring is enabled again every event for the port is dropped (R67). -/
  dropAll : Bool
  deriving DecidableEq, Repr

/-- A stream ring beside its registers (R91 to R94): posted index, phase, and the open buffer: its address, length,
tag, bytes filled, first sequence number and stream, and the physical tick its first envelope entered. -/
structure StrRing where
  prod : Nat
  phase : Bool
  openBuf : Bool
  addr : Nat
  len : Nat
  tag : Nat
  filled : Nat
  /-- Envelopes in the buffer that are not re-sends. -/
  live : Nat
  first : Nat
  firstStream : Nat
  openedAt : Nat
  deriving DecidableEq, Repr

/-- A command that has started and not completed: waiting for APPLY_AT (`sched`), or for units' outcomes.  `todo`
holds the units not yet issued (R49), `waits` those whose outcome is awaited, and the rest what R50 reports.  `acted` tells
that it has taken effect on a unit, last at `time` (R85), and `discard` that its completion is discarded (R67, R86). -/
structure Flight where
  id : Nat
  op : Nat
  cmd : Cmd
  group : Bool
  stop : Bool
  sched : Option Nat
  deadline : Option Nat
  units : List Nat
  todo : List Nat
  waits : List Nat
  attempted : Nat
  succeeded : Nat
  worst : Nat
  worstUnit : Nat
  rflags : Nat
  result : List Byte
  late : Bool
  time : Nat
  acted : Bool
  discard : Bool
  deriving DecidableEq, Repr

/-- A host port's link beside its registers: Bus Master Enable, PERST#, whether it still answers Configuration
Request Retry Status (R66), the drive role strap (R25), the physical tick at which the link left L0, the physical tick at
which the PPLL last locked (R599), and that its function has signalled a Completer Abort as an Advisory Non-Fatal Error
under AER (R506). -/
structure PortSt where
  busMaster : Bool
  perst : Bool
  crs : Bool
  drive : Bool
  downAt : Option Nat
  perstAt : Option Nat
  aerAbort : Bool
  deriving DecidableEq, Repr

/-- A command of ring `ring` of port `port` took effect on a unit at a physical tick (R79). -/
structure Effect where
  tick : Nat
  port : Nat
  ring : Nat
  unit : Nat
  deriving DecidableEq, Repr

/-- The host-facing side of the device. -/
structure HostSt where
  crs : Tab CmdRing
  cqs : Tab CplRing
  evrs : Tab EvRing
  srs : Tab StrRing
  ports : Tab PortSt
  /-- Events held by die 0 until their release time (R89). -/
  merge : List Ev
  /-- Events that wait at their source for a faulted die 0, or cross the fabric late (R164). -/
  transit : List EvTransit
  flights : List Flight
  nextId : Nat
  /-- The ring each port fetched from last (R79). -/
  lastRing : Tab Nat
  /-- MSI-X messages sent, newest first: (port, vector). -/
  irqs : List (Nat × Nat)
  /-- The effects of commands at the latest tick that had one, newest first (R79). -/
  effects : List Effect
  deriving DecidableEq, Repr

/-! ## Units and groups (R33 to R62) -/

/-- The five power states of a unit (R38). -/
inductive Pw where
  | asleep
  | starting
  | awake
  | stopping
  | fault
  deriving DecidableEq, Repr

/-- A wake or sleep held behind a transition (R44): its command (none when a dependent's command caused it). -/
structure Held where
  wake : Bool
  fid : Option Nat
  ev : Bool
  deriving DecidableEq, Repr

/-- A wake or sleep that waits for this unit's outcome. -/
structure Waiter where
  fid : Nat
  wake : Bool
  flags : Nat
  deriving DecidableEq, Repr

/-- A unit beside what its subject chapter keeps. -/
structure Unit where
  pw : Pw
  hostWoken : Bool
  /-- The event-enable bit of the running wake or sleep (R39). -/
  ev : Bool
  held : Option Held
  waiters : List Waiter
  /-- ASLEEP, and waits for its dependencies to start (R40). -/
  wantStart : Bool
  /-- AWAKE, and waits for its dependents to reach ASLEEP (R40). -/
  wantStop : Bool
  /-- It was starting when a unit it depends on was told to sleep: that stop waits until this start is complete and this
  unit sleeps again (R44). -/
  firm : Bool
  /-- Physical tick of the entry to STARTING (R41) or to ASLEEP (R561). -/
  since : Nat
  /-- Power-gated into retention, and powering up again (R561). -/
  gated : Bool
  powering : Bool
  /-- Runs on a Reserve-tray spare (R55). -/
  spare : Bool
  /-- Partner kind attached (R56), 0 for none. -/
  partner : Nat
  faultCause : Nat
  deriving DecidableEq, Repr

/-- A host group (R46): policy STOP, and its members in order. -/
structure Group where
  stop : Bool
  members : List Nat
  deriving DecidableEq, Repr

/-- The unit tree's changeable part. -/
structure UnitSt where
  units : Tab Unit
  groups : Tab (Option Group)
  gen : Nat
  deriving DecidableEq, Repr

/-! ## Lanes (R100 to R143) -/

/-- The lane states (R121). -/
inductive LaneSt where
  | off
  | sleep
  | listen
  | acquire
  | locked
  | framed
  deriving DecidableEq, Repr

/-- The framer modes (R108). -/
inductive Framer where
  | raw
  | b8b10
  | b64b66
  | b128b130
  deriving DecidableEq, Repr

/-- A LANE_ADAPT in progress (R138): its command, blocks and end tick. -/
structure AdaptRun where
  fid : Nat
  blocks : Nat
  endAt : Nat
  deriving DecidableEq, Repr

/-- A change of DELAY that waits for a word boundary (R129): the delay, its command, the unit that command waits for, and
the command's result. -/
structure DelayAsk where
  delay : Nat
  fid : Nat
  unit : Nat
  result : List Byte
  deriving DecidableEq, Repr

/-- A monitor sweep in progress (R131 to R133). -/
structure Sweep where
  phStart : Int
  phStop : Int
  phStep : Nat
  vStart : Int
  vStop : Int
  vStep : Nat
  dwell : Nat
  repeats : Bool
  stopReq : Bool
  toSheet : Bool
  sheetB : Bool
  port : Nat
  buffer : Nat
  /-- Points completed in the pass, and in all, and the tick at which the last of them ended (of the sweep's start while
  there is none). -/
  idx : Nat
  total : Nat
  lastAt : Nat
  deriving DecidableEq, Repr

/-- One stage of a lane matcher (R236, R270). -/
structure Stage where
  value : BitVec 72
  mask : BitVec 72
  valid : Bool
  link : Bool
  negate : Bool
  out : Nat
  deriving DecidableEq, Repr

/-- A lane's receiver, framer and matcher. -/
structure Lane where
  state : LaneSt
  enable : Bool
  listen : Bool
  invert : Bool
  pam4 : Bool
  divLog2 : Nat
  squelch : Nat
  framer : Framer
  descramble : Bool
  gray : Bool
  anyComma : Bool
  signal : Bool
  cdrLock : Bool
  frameLock : Bool
  /-- Equaliser modes 0 FIXED, 1 ONCE, 2 CONTINUOUS, and values (R105, R137). -/
  modeCtle : Nat
  modeFfe : Nat
  modeDfe : Nat
  cdrBw : Nat
  ctle : Nat
  cursor : Nat
  dfe : Int
  ffe : List Int
  gain : Nat
  /-- The host's values, from which ONCE and CONTINUOUS start (R106). -/
  hostCtle : Nat
  hostDfe : Int
  hostFfe : List Int
  /-- Physical tick up to which the moves of adapting blocks stand in the values above (R106, R138). -/
  eqAt : Nat
  /-- ONCE adaptation is still due in this wake (R123), or runs until a physical tick. -/
  onceDue : Bool
  onceEnd : Option Nat
  adapt : Option AdaptRun
  delay : Nat
  /-- Changes of DELAY that wait for the word under way to end (R129). -/
  delays : List DelayAsk
  /-- Physical tick at which the lane left its attach state with a partner attached, and LANE_DETACH_T then, in µs. -/
  lossAt : Option Nat
  lossT : Nat
  words : Nat
  /-- The symbols of the word under way, and the stamp it takes if it closes early: that of the last UI of its last whole
  byte or character (R116, R117). -/
  part : List Nat
  partStamp : Stamp
  /-- A PAM4 lane whose words begin with the second bit of a symbol: that bit (R109). -/
  carry : List Bool
  /-- Which of the latest sync headers (at most 64) or 8B10B characters (at most 16) were invalid, newest first (R110). -/
  heads : List Bool
  /-- 8B10B running disparity positive; 64B66B descrambler history, newest bit lowest. -/
  rdPos : Bool
  scram : BitVec 58
  sweep : Option Sweep
  stages : Tab Stage
  /-- Stages loaded for words stamped from a physical tick on (R239). -/
  loads : List (Nat × Tab Stage)
  /-- The lane's latest words for the matcher, newest first (R237). -/
  hist : List (BitVec 72)
  /-- The lane's previous word since it entered its attach state, for SPAN keys (R241). -/
  prevWord : Option (BitVec 72)
  deriving DecidableEq, Repr

/-- An automatic deskew in progress on a die (R128): its command, lanes, marker, end of window, and the lanes that have given
the marker since. -/
structure AutoDeskew where
  fid : Nat
  mask : Nat
  marker : Nat
  blockType : Nat
  endAt : Nat
  seen : Nat
  deriving DecidableEq, Repr

/-! ## Clocks, time base and TDC (R144 to R176) -/

/-- A frequency step in progress (R149): the offset it ends at, in 0.01 ppm, its command and end tick. -/
structure PllStepRun where
  target : Int
  fid : Nat
  endAt : Nat
  deriving DecidableEq, Repr

/-- A PLL (R144 to R149). -/
structure Pll where
  locked : Bool
  band : Nat
  bw : Nat
  notify : Bool
  khz : Nat
  /-- LPLL: base rate of the lane group in kBd (0: none set), and the offset from it in 0.01 ppm. -/
  baseRate : Nat
  offset : Int
  step : Option PllStepRun
  /-- No lock yet since the last wake. -/
  firstDue : Bool
  /-- Searching again after a loss. -/
  relock : Bool
  fails : Nat
  deriving DecidableEq, Repr

/-- A die's time base and clock state. -/
structure DieClk where
  /-- The counter has started (R152), its value `base` at physical tick `at`. -/
  running : Bool
  base : Nat
  atTick : Nat
  holding : Bool
  aligned : Bool
  hkTrimmed : Bool
  hkErr : Int
  hkCode : Nat
  buildout : Int
  /-- HBM held in self-refresh by an HPLL loss, or retraining after the relock (R166). -/
  hbmHeld : Bool
  hbmTrain : Bool
  /-- Words discarded on each stream since the clock fault began stand in the streams; this is the last FCLK tick. -/
  faultTick : Nat
  fenced : Bool
  autoDeskew : Option AutoDeskew
  deriving DecidableEq, Repr

/-- What an armed SYNC action does (R157, R173). -/
structure SyncAct where
  align : Bool
  strobe : Bool
  repeats : Bool
  load : Nat
  mask : W32
  deriving DecidableEq, Repr

/-- A SYNC_IN edge being applied (R156, R157). -/
structure SyncEdge where
  act : SyncAct
  eTick : Nat
  half : Bool
  arrival : Nat
  /-- Physical tick of E + 8. -/
  applyAt : Nat
  deriving DecidableEq, Repr

/-- REFOUT (R151): running, a start waiting for its first edge, a stop waiting for the end of its period; whether it
ran when die 0's FPLL was lost (R164). -/
structure RefOut where
  on : Bool
  startDue : Bool
  stopDue : Bool
  startFids : List Nat
  stopFids : List Nat
  resume : Bool
  deriving DecidableEq, Repr

/-- The reference states of CLK_STAT.REF (R160, R161). -/
inductive RefSt where
  | present
  | lost
  | returning
  deriving DecidableEq, Repr

/-- A raw TDC stamp (R171). -/
structure RawStamp where
  cap : Nat
  tap : Nat
  synthetic : Bool
  deriving DecidableEq, Repr

/-- A measurement's sources and window (R169, R170). -/
structure TdcArm where
  startSrc : Nat
  startArg : Nat
  window : Nat
  stops : List (Nat × Nat)
  start : Option RawStamp
  hits : List (Option RawStamp)
  /-- Stop edges seen while a Shutter event that starts the measurement may still be in flight: channel and stamp. -/
  early : List (Nat × RawStamp)
  /-- Ticks by which the time base has stepped since the start's edge (R155): intervals are counted without them (R162). -/
  shift : Int
  deriving DecidableEq, Repr

/-- A completed measurement (R174). -/
structure TdcRec where
  start : Option RawStamp
  hits : List (Option RawStamp)
  flags : Nat
  deriving DecidableEq, Repr

/-- A die's TDC (R167 to R174). -/
structure Tdc where
  dll : Bool
  inl : List Byte
  spares : Nat
  arm : Option TdcArm
  result : Option TdcRec
  /-- Physical tick of the start's capture tick. -/
  openAt : Nat
  deriving DecidableEq, Repr

/-- The clock state of the package and its dies. -/
structure ClkSt where
  dies : Tab DieClk
  plls : Tab Pll
  tdcs : Tab Tdc
  ref : RefSt
  realign : Bool
  /-- What a REALIGN left to the phase of the FPLLs, in fine units, and the physical tick of its step (R162). -/
  realignRest : Nat
  realignAt : Nat
  refLostAt : Nat
  refOut : RefOut
  sync : Option SyncAct
  outEn : Bool
  outDly : Nat
  edge : Option SyncEdge
  /-- SYNC_OUT repeats still to be driven: physical ticks of their edges E (R158). -/
  outs : List Nat
  /-- SYNC_OUT edges driven. -/
  outCount : Nat
  syncDriven : Bool
  syncSince : Nat
  deriving DecidableEq, Repr

/-! ## Capture (R177 to R227) -/

/-- The stream states (R179). -/
inductive StreamSt where
  | unconfigured
  | idle
  | rolling
  | filling
  | ready
  | post
  | rearm
  deriving DecidableEq, Repr

/-- A capture word in stored form: 8 payload bytes, the side byte, and whether it is a MARK word (R181, R184). -/
structure CWord where
  pay : W64
  side : Byte
  mark : Bool
  deriving DecidableEq, Repr

/-- An entry of a look-back buffer (R192).  `phys` is its place on the physical time line, in fine units: a time step
moves `time` and leaves `phys` (R187); `rank` is its place among entries of equal time (R187; 13 for a word), `sub` the
order among marks of one rank.  `ev` is the event ID plus one of a Shutter event's mark, and `show` tells whether the mark is written (an
event may only trigger). -/
structure Entry where
  time : Stamp
  phys : Nat
  rank : Nat
  sub : Nat
  word : CWord
  /-- 0 for words and marks of the WORDS format; for a sample, its bits are in `word.pay`. -/
  sample : Bool
  stale : Bool
  ev : Nat
  written : Bool
  deriving DecidableEq, Repr

/-- A block envelope (R195) as data; `envBytes` writes it out.  `seq` is assigned when it is formed. -/
structure Env where
  stream : Nat
  seq : Nat
  format : Nat
  first : Stamp
  words : List CWord
  /-- The time of each entry (R186), for SINFO and the mark index. -/
  times : List Stamp
  seg : Nat
  segFirst : Bool
  segLast : Bool
  trigPos : Option Nat
  stale : Bool
  flushed : Bool
  marksLost : Nat
  truncated : Bool
  deriving DecidableEq, Repr

/-- A spool drop in progress (R205): the time of the entry that began it, counts, and held marks. -/
structure Drop where
  begin : Stamp
  cause : Nat
  words : Nat
  marks : Nat
  held : List Entry
  deriving DecidableEq, Repr

/-- A sample of a segment: value, stamp, whether it lies in a stale interval, and whether samples were lost before it
(R219, R343). -/
structure Smp where
  val : Nat
  time : Stamp
  stale : Bool
  gap : Bool
  deriving DecidableEq, Repr

/-- Measurement settings of a chain (R342, R353). -/
structure MeasCfg where
  enable : Bool
  fixed : Bool
  ref2080 : Bool
  mask : Nat
  input : Nat
  hyst : Nat
  window : Bool
  gateStart : Int
  gateLen : Nat
  fixedTop : Int
  fixedBase : Int
  deriving DecidableEq, Repr

/-- A change that an Exposure stream takes in the order of its entries: 0 another source (R219), 1 a disarm, 2 a disarm
with ABANDON (R218), at an effect time given as a physical tick and as a die tick. -/
structure SegChange where
  tick : Nat
  die : Nat
  kind : Nat
  deriving DecidableEq, Repr

/-- An Exposure segment under way and its arm (R212 to R218). -/
structure SegSt where
  /-- Physical tick of the state's entry time. -/
  entry : Nat
  held : Nat
  /-- An accepted trigger waits for its sample; then the samples still to come. -/
  trigDue : Bool
  trigTime : Stamp
  postLeft : Nat
  /-- Samples of the open word, earliest first, and marks that wait for it to fill. -/
  smp : List (Nat × Stamp)
  pend : List (CWord × Stamp)
  /-- Closed envelopes of the segment, oldest first, each with its number of samples. -/
  envs : List (Env × Nat)
  /-- Samples in the open envelope, and the trigger sample's index within it. -/
  openSmp : Nat
  trigIn : Option Nat
  /-- Every sample the segment holds, and the index of the trigger sample among them; samples were lost before the
  next one (R219). -/
  smps : List Smp
  trigIdx : Nat
  gapNext : Bool
  /-- MK_STALE_BEGIN stands in the segment without its MK_STALE_END. -/
  staleOpen : Bool
  /-- The measurement settings in force when the segment entered FILLING (R342). -/
  meas : MeasCfg
  /-- t_close in die time and as a physical tick. -/
  tclose : Nat
  tclosePhys : Nat
  left : Nat
  done : Nat
  early : Nat
  rearm : Nat
  busy : Nat
  disarming : Bool
  /-- Physical tick of the arm's effect time A (R212). -/
  armedAt : Nat
  /-- Changes that wait for the entries before them to commit (R192, R218, R219), oldest first. -/
  changes : List SegChange
  /-- The die tick of a disarm that discarded the segment under way while closed ones still complete (R218). -/
  disarmedAt : Option Nat
  waitFids : List Nat
  deriving DecidableEq, Repr

/-- A completed segment kept for RECORD_READ (R217). -/
structure Kept where
  num : Nat
  firstSeq : Nat
  count : Nat
  trigIdx : Nat
  deriving DecidableEq, Repr

/-- A segment closed and not yet complete (R215, R348): its envelopes and samples, and what its completion reports;
`need` tells that it waits for its read-back or measurement envelope, `meas` that this envelope is formed. -/
structure Closing where
  num : Nat
  envs : List Env
  smps : List Smp
  trigIdx : Nat
  trigTime : Stamp
  tclose : Nat
  tclosePhys : Nat
  trunc : Bool
  last : Bool
  set : MeasCfg
  need : Bool
  readBack : Bool
  measEnv : Option Env
  hold : Nat
  deriving DecidableEq, Repr

/-- A re-send asked for and not yet written (R209). -/
structure Resend where
  env : Env
  fid : Nat
  last : Bool
  deriving DecidableEq, Repr

/-- A capture stream. -/
structure Stream where
  present : Bool
  state : StreamSt
  /-- 0 unconfigured, 1 ROLL, 2 EXPOSURE. -/
  mode : Nat
  format : Nat
  keep : Bool
  envFlush : Nat
  markMask : W64
  trigMask : W64
  pre : Nat
  post : Nat
  segments : Nat
  look : List Entry
  /-- Late engine marks that wait for the next entry to commit (R191), and the last committed entry's place. -/
  lateMarks : List CWord
  lastPhys : Nat
  lbLost : Nat
  lbTime : Stamp
  /-- Physical ticks of t_start and t_stop (R200, R201), and t_stop in die time. -/
  tStart : Nat
  tStop : Option Nat
  tStopTime : Nat
  stopFids : List Nat
  stopReason : Nat
  needTime : Bool
  lastPeriod : Option Nat
  rate : Nat
  burst : Nat
  tokens : Nat
  fillAt : Nat
  rlWords : Nat
  rlFirst : Stamp
  slots : Nat
  mib : Nat
  retain : Nat
  lvlHi : Nat
  lvlLo : Nat
  /-- Envelopes in the spool, oldest first; the first `ndeliv` are delivered. -/
  spool : List Env
  ndeliv : Nat
  /-- Envelopes delivered since reset, for a service's count (R450). -/
  delivered : Nat
  /-- Entries that an engine port has taken from the oldest undelivered envelope (R394). -/
  pos : Nat
  openEnv : Option Env
  openedAt : Nat
  seqNext : Nat
  drop : Option Drop
  dropWords : Nat
  dropMarks : Nat
  /-- Words lost to a clock fault, HBM or the chain, still to be marked: cause, count, time of the first. -/
  gap : Option (Nat × Nat × Stamp)
  ring : Option Nat
  /-- The logical engine (0 to 15), or 16 + service slot of the die in `serviceDie`, that consumes the stream. -/
  service : Option Nat
  serviceDie : Nat
  resends : List Resend
  unbindFids : List Nat
  /-- The stream has stopped, and its ring's buffer is still to be closed with END (R93). -/
  endDue : Bool
  segNext : Nat
  seg : SegSt
  closing : List Closing
  kept : List Kept
  /-- Physical tick at which the spool last gained space for a reservation (R214). -/
  spaceAt : Nat
  deriving DecidableEq, Repr

/-- The capture units. -/
structure CapSt where
  streams : Tab Stream
  /-- Free MiB of each die's HBM pool (R221). -/
  free : Tab Nat
  deriving DecidableEq, Repr

/-! ## Shutter (R228 to R274) -/

/-- A candidate on its way to die 0 (R228, R230): package channel, stamp, source code, detail, source time, whether it
is coarse-only (R260), and its place on the physical time line. -/
structure Cand where
  chan : Nat
  stamp : Stamp
  src : Nat
  detail : Nat
  srcTime : Stamp
  coarseOnly : Bool
  phys : Nat
  deriving DecidableEq, Repr

/-- A Shutter event issued and not yet released to the consumers (R232): its ID, t_event, sequencer (none for a
direct issue), and what EV_SHUTTER reports of it. -/
structure ShEv where
  id : Nat
  stamp : Stamp
  seq : Option Nat
  coarseOnly : Bool
  noCand : Bool
  src : Nat
  chan : Nat
  detail : Nat
  srcTime : Stamp
  phys : Nat
  /-- Die 0 has sent the event and posted EV_SHUTTER if SHT_NOTIFY named it then (R234). -/
  told : Bool
  deriving DecidableEq, Repr

/-- A branch of a sequencer state (R256). -/
structure Branch where
  trig : Nat
  cond : Nat
  action : Nat
  event : Nat
  counters : Nat
  timers : Nat
  deriving DecidableEq, Repr

/-- A sequencer timer (R258): idle, running until a physical tick, or expired. -/
inductive SeqTimer where
  | idle
  | running (expiry : Nat)
  | expired
  deriving DecidableEq, Repr

/-- A Shutter sequencer (R256 to R262). -/
structure Sequencer where
  loaded : Bool
  limits : List Nat
  durations : List Nat
  holdoff : Nat
  branches : List Branch
  armed : Bool
  done : Bool
  st : Nat
  counters : List Nat
  timers : List SeqTimer
  /-- Place of the last issued t_event. -/
  lastIssue : Option Nat
  /-- Tick at which the state just entered is first evaluated. -/
  entryDue : Option Nat
  /-- Physical ticks between which the sequencer evaluates: from its arm to its disarm.  Entry `16 + n` of the table holds the
  run of sequencer `n` that a new LOAD or ARM replaced while ticks before its disarm were still to be evaluated (R231, R261). -/
  since : Nat
  untilTick : Option Nat
  deriving DecidableEq, Repr

/-- An edge of a TRIG_IN input: its direction, its stamp, and whether that is coarse-only (R168). -/
structure TrigEdge where
  rising : Bool
  stamp : Stamp
  coarseOnly : Bool
  deriving DecidableEq, Repr

/-- A TRIG_IN input (R253): its configuration, its level, and an edge that waits for FILTER ticks. -/
structure TrigIn where
  enable : Bool
  edge : Nat
  filter : Nat
  level : Bool
  pendEdge : Option TrigEdge
  pendAt : Nat
  lastTick : Option Nat
  deriving DecidableEq, Repr

/-- The configuration of a TRIG_OUT pin (R266, R271). -/
structure OutCfg where
  mode : Nat
  invert : Bool
  width : Nat
  maskA : W64
  maskB : W64
  offset : Nat
  deriving DecidableEq, Repr

/-- An edge a TRIG_OUT pin owes to an event: its place in fine units, which masks named it, and the configuration that
applies to the event (R267). -/
structure OutEdge where
  at_ : Nat
  a : Bool
  b : Bool
  cfg : OutCfg
  deriving DecidableEq, Repr

/-- A TRIG_OUT pin (R265 to R267). -/
structure TrigOut where
  /-- The configurations given last, newest first, each with the physical tick from which events use it; before the first the
  pin is OFF (R265, R267). -/
  cfgs : List (Nat × OutCfg)
  /-- Physical ticks at which the pin takes a new idle level, earliest first, and that level. -/
  idles : List (Nat × Bool)
  /-- The idle level in force. -/
  idle : Bool
  pend : List OutEdge
  active : Bool
  /-- The pin's level. -/
  level : Bool
  lastEdge : Option Nat
  pulseEnd : Option Nat
  deriving DecidableEq, Repr

/-- An entry of a Negative store way (R243). -/
structure NegEntry where
  cls : Nat
  key : List Byte
  tag : Nat
  out : Nat
  deriving DecidableEq, Repr

/-- A class of a Negative store (R240, R245). -/
structure NegClass where
  enable : Bool
  absent : Bool
  absOut : Nat
  format : Nat
  arg : Nat
  width : Nat
  kinds : Nat
  lanes : Nat
  mask : W64
  deriving DecidableEq, Repr

/-- A die's Negative store: ways by bucket and way, classes, SEED. -/
structure NegStore where
  ways : Tab (Option NegEntry)
  classes : Tab NegClass
  /-- Definitions that class records replaced, newest first: the physical tick, the class and the definition that words stamped
  up to then still use (R246). -/
  past : List (Nat × Nat × NegClass)
  seed : W32
  deriving DecidableEq, Repr

/-- The setting of a comparator (R248, R250, R271). -/
structure CmpCfg where
  enable : Bool
  mode : Nat
  lane : Nat
  lo : Nat
  hi : Nat
  minBins : Nat
  level : Int
  hyst : Nat
  deriving DecidableEq, Repr

/-- Two consecutive samples that straddle LEVEL, with their stamps (R252). -/
structure Crossing where
  xa : Int
  xb : Int
  ta : Stamp
  tb : Stamp
  deriving DecidableEq, Repr

/-- A comparator of a die (R248 to R252): 0 and 1 spectral-mask, 2 and 3 level/edge. -/
structure Comparator where
  cfg : CmpCfg
  /-- Spectral-mask: settings that spectra take from a physical tick on (R249). -/
  next : List (Nat × CmpCfg)
  /-- Spectral-mask: the size of the last spectrum, 0 before the first (R248). -/
  lastN : Nat
  /-- Level/edge: the input has been below LEVEL − HYST, or at or above LEVEL + HYST (R251). -/
  wasBelow : Bool
  wasAbove : Bool
  /-- Level/edge with RAW input: the latest sample, and the crossings that count and whose decision is not yet complete. -/
  prev : Option (Int × Stamp)
  found : List Crossing
  deriving DecidableEq, Repr

/-- The Shutter. -/
structure ShtSt where
  cands : List Cand
  seqs : Tab Sequencer
  events : List ShEv
  trigIn : Tab TrigIn
  trigOut : Tab TrigOut
  neg : Tab NegStore
  cmps : Tab Comparator
  deriving DecidableEq, Repr
/-! ## Spectral chains (R275 to R321) -/

/-- The states of SPC_STAT.STATE. -/
inductive ChainSt where
  | stopped
  | settling
  | running
  | noInput
  deriving DecidableEq, Repr

/-- A CHAIN_CONFIGURE payload in force (R318). -/
structure ChainCfg where
  final : Nat
  decLog2 : Nat
  preset : Nat
  rom : Nat
  ratio : Nat
  freq : BitVec 48
  phase : W16
  fftLog2 : Nat
  overlap : Nat
  window : Nat
  dcBypass : Bool
  dcCorner : Nat
  deriving DecidableEq, Repr

/-- Export settings (R306, R309). -/
structure ExportCfg where
  allowSkip : Bool
  exportOn : Bool
  lo : Nat
  hi : Nat
  deriving DecidableEq, Repr

/-- An output sample of a chain (R293, R294): its index from the grid origin, I and Q, its stamp, the place of the last input
sample of its span, the data of an MK_CAL that precedes it and the strip that makes it stale (R370), and the latest input samples
by then that were overranged or stale. -/
structure OutSmp where
  idx : Nat
  i : Int
  q : Int
  stamp : Stamp
  lastAt : Nat
  cal : Option Nat
  stale : Option Nat
  ovrIn : Option Nat
  staleIn : Option Nat
  deriving DecidableEq, Repr

/-- A record under way (R295): its first output sample, its spectrum sequence number, and the flags its start gives (R301). -/
structure SpecRec where
  first : Nat
  seq : Nat
  firstSpec : Bool
  skipped : Bool
  deriving DecidableEq, Repr

/-- A complete record whose spectrum has not left the transform (R299 to R301): its settings and lane, its samples, oldest first,
the stamp of sample N/2, the place of the last input sample, the number and the flags. -/
structure SpecDone where
  cfg : ChainCfg
  lane : Nat
  smps : List (Int × Int)
  mid : Stamp
  lastAt : Nat
  seq : Nat
  ovf : Bool
  stale : Bool
  firstSpec : Bool
  skipped : Bool
  deriving DecidableEq, Repr

/-- A spectral chain. -/
structure Chain where
  cfg : ChainCfg
  configured : Bool
  lane : Option Nat
  /-- The lane selected before, for samples stamped before the physical tick of the change (R309). -/
  laneWas : Option Nat
  laneAt : Nat
  st : ChainSt
  frozen : Bool
  /-- Earlier settings of the DC block's freeze, each with the physical tick at which it ceased, oldest first (R282, R309). -/
  frozenWas : List (Nat × Bool)
  /-- DC estimate of each die lane, LSB 2^-64 code (R283; log entry 127). -/
  dc : Tab Int
  /-- The settling under way (R310, R311): its t_e as physical and die tick, cause, and whether records were
  abandoned. -/
  setAt : Nat
  setDie : Nat
  setCause : Nat
  setAband : Bool
  settleTicks : Nat
  /-- Input samples since the grid origin, and output samples produced (R293). -/
  nIn : Nat
  nOut : Nat
  /-- Snap mode: the sum of the samples of the period under way (R292). -/
  acc : Int × Int
  /-- The lane of the latest tap samples, and the sub-ADC of the next (R356). -/
  nextSub : Option (Nat × Nat)
  /-- The latest mixer outputs with their stamps, newest first, as many as a filter's span holds (R279). -/
  ins : List ((Int × Int) × Stamp)
  /-- Decimator outputs, newest first, as many as a final filter needs, and how many there were. -/
  taps : List (Int × Int)
  nTap : Nat
  /-- The stamp of the latest input sample, and the stamps of output samples whose centre of symmetry has come, oldest first
  (R293). -/
  lastIn : Option Stamp
  centres : List Stamp
  /-- The latest input samples that were overranged or stale. -/
  lastOvr : Option Nat
  lastStale : Option Nat
  /-- Output samples that have left the filters of a settling chain, whose first ends the settling (R310), oldest first. -/
  held : List OutSmp
  /-- The latest output samples, newest first, at most a record's. -/
  outs : List OutSmp
  /-- Records start at this output sample and every hop from it (R295); with `recWait`, at the first output sample stamped at or
  after that physical tick (R309). -/
  recBase : Nat
  recWait : Option Nat
  /-- Records under way, oldest first; the input samples up to which a pipeline is taken; a record has just been skipped (R303);
  and complete records, oldest first. -/
  recs : List SpecRec
  pipes : List Nat
  skipPend : Bool
  done : List SpecDone
  /-- NO_INPUT: stamp of the first missing sample, and whether the die's clock stopped it (R312, R313). -/
  gapStamp : Stamp
  gapClock : Bool
  /-- The tap has stopped delivering, chain running or not. -/
  lost : Bool
  /-- The Exposure stream misses samples from this stamp on; for CPLX18, the stamp of the latest output sample before. -/
  missing : Option Stamp
  lastOut : Option Stamp
  /-- A coefficient change whose MK_CAL waits for its first sample: t_a and the mark's data; then, for CPLX18, the
  input index of that sample and of stale samples (first and last). -/
  calDue : Option (Nat × Nat)
  calIn : Option (Nat × Nat)
  staleIn : Option (Nat × Nat)
  /-- The strip of an MK_STALE_BEGIN written into the Exposure stream whose MK_STALE_END is not yet (R370). -/
  staleOpen : Option Nat
  /-- Spectrum sequence number of the next record, and flags for the next spectrum (R301). -/
  seqNo : Nat
  dropBefore : Bool
  firstSpec : Bool
  /-- Overranges since the last event, their kinds, the first one's stamp, and the last event's tick (R278). -/
  ovr : Nat
  ovrKinds : Nat
  ovrStamp : Stamp
  ovrAt : Option Nat
  /-- Export settings, and changes and mask loads that apply to spectra stamped from a physical tick on (R305, R309). -/
  exp : ExportCfg
  expNext : List (Nat × ExportCfg)
  mask : Tab (Int × Int)
  maskNext : List (Nat × Nat × List (Int × Int))
  deriving DecidableEq, Repr

/-! ## Densitometer (R322 to R355) -/

/-- A Contact sheet's configuration (R353). -/
structure SheetCfg where
  kind : Nat
  small : Bool
  exclStale : Bool
  binLo : Nat
  binHi : Nat
  levelTop : Int
  levelStep : Nat
  tStart : Int
  tpc : Nat
  input : Nat
  vTop : Int
  vStep : Nat
  deriving DecidableEq, Repr

/-- A sheet export in progress: the snapshot and where it goes (R333). -/
structure SheetExport where
  fid : Nat
  layout : Nat
  clearAfter : Bool
  buffer : Nat
  port : Nat
  cnt : Tab Nat
  inc : Nat
  out : Nat
  sat : Bool
  clear : Nat
  clearPhys : Nat
  snapDie : Nat
  snapPhys : Nat
  num : Nat
  deriving DecidableEq, Repr

/-- A density accumulator: its sheet, counters by row × columns + column, surface region (address, MiB), clear time as
die and physical tick, and exports; `blank` while the region's contents are undefined, before the first export (R323). -/
structure Acc where
  cfg : SheetCfg
  cnt : Tab Nat
  inc : Nat
  out : Nat
  sat : Bool
  clear : Nat
  clearPhys : Nat
  region : Option (Nat × Nat)
  blank : Bool
  nextNum : Nat
  lastNum : Option Nat
  exporting : Option SheetExport
  deriving DecidableEq, Repr

/-- The spectral chains and Densitometers: chains and measurement settings by die and chain, accumulators likewise. -/
structure SpcSt where
  chains : Tab Chain
  meas : Tab MeasCfg
  /-- Settings that a MEASURE_CONFIGURE replaced, with the tick at which it did, oldest first: a segment that enters FILLING is opened
  only 256 ticks later (R214, R342). -/
  measWas : Tab (List (Nat × MeasCfg))
  accs : Tab Acc
  /-- The counts of a sweep's previous threshold, by accumulator (R330). -/
  eyeRows : Tab (List Nat)
  deriving DecidableEq, Repr

/-! ## Test strip calibration (R356 to R379) -/

/-- The phases of a lane's Test strip (CAL_STAT.PHASE; STALE is the stale interval). -/
inductive CalPh where
  | inactive
  | waiting
  | estimate
  | confirm
  /-- Both windows qualify; evaluation comes at a physical tick. -/
  | judging (at_ : Nat)
  | pending
  deriving DecidableEq, Repr

/-- A change of the 32 sub-ADCs' offset, gain and skew. -/
abbrev CalVec := List (Int × Int × Int)

/-- What one Test strip window measures (R361 to R363): the variance of all samples in code² and sigma in 1/64 code, the
transitions, the rail count, and the residuals of offset, gain and skew of the 32 sub-ADCs, in codes, as fractions, and in fs. -/
structure StripStats where
  variance : Rat
  sigma : Nat
  trans : Nat
  rails : Nat
  off : List Rat
  gainSq : List Rat
  skew : List Rat
  deriving DecidableEq, Repr

/-- An applied change whose first sample is still to come (R370, R371): t_a as a physical tick, the data of MK_CAL and of
EV_CAL_APPLIED. -/
structure CalMark where
  ta : Nat
  data : Nat
  ev : List Byte
  deriving DecidableEq, Repr

/-- A lane's calibration. -/
structure Cal where
  mode : Nat
  gap : Bool
  holdExp : Bool
  noFast : Bool
  period : Nat
  gapWait : Nat
  minTrans : Nat
  spreadLo : Nat
  spreadHi : Nat
  railMax : Nat
  suspended : Bool
  /-- The coefficients in force for samples stamped at or after the physical tick `coefAt`, and those before (R367, R369). -/
  coef : CalVec
  coefAt : Nat
  coefOld : CalVec
  /-- Strips started since reset; the current or last one's number is one less. -/
  strips : Nat
  phase : CalPh
  result : Nat
  converged : Bool
  stuck : Bool
  fails : Nat
  /-- Physical tick at which the last strip started. -/
  startAt : Nat
  /-- The place from which the window under way takes its samples (R361). -/
  winFrom : Nat
  /-- The sub-ADC of the next window's first sample, where a window has gone before (R356, R361), and the stamp of the last sample of a
  window. -/
  winSub : Option Nat
  smpLast : Stamp
  est : CalVec
  conf : CalVec
  trans : Nat
  sigma : Nat
  rails : Nat
  /-- Largest mean residuals of the last agreed strip. -/
  resid : Nat × Nat × Nat
  applied : Nat
  markDue : Option CalMark
  lastTime : Stamp
  lastSeq : Nat
  /-- The change that waits, and the physical tick at which its wait ends. -/
  change : CalVec
  waitEnd : Nat
  /-- The physical tick at which the last stale interval began, and whether it still runs. -/
  staleAt : Nat
  staleOn : Bool
  deriving DecidableEq, Repr

/-! ## Cufix engines (R380 to R424) -/

/-- The engine states (R412). -/
inductive EngSt where
  | empty
  | loaded
  | running
  | stopped
  | halted
  | trapped
  | swapping
  deriving DecidableEq, Repr

/-- What SINFO tells of the last entry returned (R395): time and selectors 1 to 3. -/
structure PortInfo where
  time : Stamp
  sel1 : Nat
  sel2 : Nat
  sel3 : Nat
  deriving DecidableEq, Repr

/-- A word of an exported spectrum (R307), its spectrum's timestamp, and whether it is the first. -/
structure SpecWord where
  word : BitVec 72
  time : Stamp
  first : Bool
  deriving DecidableEq, Repr

/-- An input port (R393): its source as in R421, the words waiting of a spectrum source, and the last entry's
information. -/
structure EngIn where
  src : Nat
  fifo : List SpecWord
  last : Option PortInfo
  deriving DecidableEq, Repr

/-- An output port (R398): its derived stream, and the time of its last SOUT. -/
structure EngOut where
  stream : Nat
  lastTime : Option Stamp
  deriving DecidableEq, Repr

/-- A Shutter event in an engine's queue (R401). -/
structure EvqEntry where
  time : Stamp
  id : Nat
  lost : Bool
  deriving DecidableEq, Repr

/-- What a RUNNING engine waits for: a condition in a mask until a deadline, given as the stamp and its physical tick
(R403), a port, heap data (R392), or a cache operation. -/
inductive EngWait where
  | wait (d mask : Nat) (deadline : Option Nat)
  | sin
  | sout
  | load (d addr n : Nat)
  | cache (inval : Bool)
  deriving DecidableEq, Repr

/-- A line of the heap cache (R385): heap line number, dirty, and its 64 bytes. -/
structure CacheLine where
  line : Nat
  dirty : Bool
  data : List Byte
  deriving DecidableEq, Repr

/-- A swap pending (R417) or under way (R418): the spare, its command, the tick it began, its point (3 while none is reached), and the state
the engine takes at resume. -/
structure EngSwap where
  spare : Nat
  fid : Nat
  beganAt : Nat
  beganDie : Nat
  point : Nat
  back : EngSt
  deriving DecidableEq, Repr

/-- A logical engine. -/
structure Engine where
  st : EngSt
  phys : Nat
  regs : Tab (BitVec 72)
  pc : Nat
  cause : Nat
  badAddr : W64
  /-- From the image header: entry, ports used; the heap's HBM address and size. -/
  entry : Nat
  inUse : Nat
  outUse : Nat
  heapAddr : Nat
  heapMib : Nat
  ins : List EngIn
  outs : List EngOut
  /-- Derived streams it owns until IMAGE_UNLOAD (R398). -/
  derived : List Nat
  grants : Nat
  evMask : W64
  arg0 : W64
  arg1 : W64
  wdog : Nat
  /-- The watchdog's count up to a physical tick from which it goes on. -/
  wdogCnt : Nat
  wdogAt : Nat
  retired : Nat
  waited : Nat
  /-- What the engine waits for, and since which physical tick. -/
  waiting : Option EngWait
  waitAt : Nat
  evq : List EvqEntry
  evqLost : Bool
  /-- Lengths of the waiting host message and of the posted engine message; 0 for none. -/
  h2e : Nat
  e2h : Nat
  /-- A granted transfer channel has signalled the engine (R403 bit 9). -/
  chanSig : Bool
  cache : Tab (Option CacheLine)
  /-- ENGINE_STOP AT_POINT waits for the next point: its commands, or a service's stop. -/
  stopPoint : Bool
  /-- ENGINE_STOP NOW waits for a heap load or cache operation in issue to retire. -/
  stopNow : Bool
  stopFids : List Nat
  swap : Option EngSwap
  /-- Addresses of SRAM words with an uncorrectable error that no use has met yet (R386): code, and data. -/
  eccCode : List Nat
  eccData : List Nat
  /-- The service slot it belongs to (R428). -/
  slot : Option Nat
  deriving DecidableEq, Repr

/-- The engines and their spares: physical engines in use or failed are read off the engines and ENG_DIE_STAT. -/
structure EngAll where
  engs : Tab Engine
  /-- Physical engines out of service, by die × 128 + index. -/
  failed : List Nat
  deriving DecidableEq, Repr

/-! ## Transfer engine (R452 to R484) -/

/-- The states of a transfer channel (XFR_CH_STAT.STATE). -/
inductive XferSt where
  | idle
  | loaded
  | running
  | waiting
  | paused
  | done
  | error
  deriving DecidableEq, Repr

/-- A MOVE under way or stopped (R458, R474): spaces, the range still to move, its fields, and its direction. -/
structure XMove where
  sspace : Nat
  dspace : Nat
  src : Nat
  dst : Nat
  rem : Nat
  len : Nat
  check : Bool
  sbase : Nat
  dbase : Nat
  sadv : Bool
  dadv : Bool
  desc : Bool
  deriving DecidableEq, Repr

/-- A WAIT under way (R461, R469, R470): its start, selection, event ID, the physical ticks of TIME and of its
expiry, FAIL, and whether the awaited event has arrived. -/
structure XWait where
  start : Nat
  sel : Nat
  event : Nat
  timeAt : Nat
  expiry : Option Nat
  fail : Bool
  hit : Bool
  deriving DecidableEq, Repr

/-- A transfer channel. -/
structure Xfer where
  st : XferSt
  entry : Nat
  pc : Nat
  port : Option Nat
  weight : Nat
  /-- BASE and WRAP_LOG2 of the four bases, and their loaded values. -/
  bases : List (Nat × Nat)
  loaded : List Nat
  lc : List Nat
  active : List Bool
  kicks : Nat
  /-- The last MOVE's ranges, whether it is still to be finished, and the physical tick from which its remaining bytes are moved. -/
  move : XMove
  moving : Bool
  moveAt : Nat
  wait : XWait
  phase : Nat
  signals : Nat
  bytes : Nat
  timedOut : Bool
  cause : Nat
  lastBeat : Bool
  faultSpace : Nat
  faultAddr : Nat
  /-- HBM buffer: address and MiB. -/
  buf : Option (Nat × Nat)
  /-- Commands that wait for PAUSED, and those that wait for IDLE with FREE_BUF. -/
  pauseFids : List Nat
  resetFids : List (Nat × Bool)
  /-- The service slot it is granted to (R480). -/
  slot : Option Nat
  deriving DecidableEq, Repr

/-! ## Images, measurements and boot (R571 to R585) -/

/-- A failed verification in the boot window: reason, IMAGE_ID, and failures counted (R572). -/
structure BootFail where
  reason : Nat
  image : Nat
  count : Nat
  deriving DecidableEq, Repr

/-- Keys, measurements and the boot (R572, R582, R583): the log's entries, how many were added, and the digest; what
failed; and whether a repair record was rejected and how many entries boot added. -/
structure SecSt where
  log : List (List Byte)
  count : Nat
  digest : List Byte
  loadFails : Nat
  svcFails : Nat
  bootFails : List BootFail
  deriving DecidableEq, Repr

/-! ## Services and Fixer (R425 to R451) -/

/-- The states of an instance (R429). -/
inductive SvcSt where
  | none
  | starting
  | running
  | stopping
  | stopped
  | fault
  deriving DecidableEq, Repr

/-- What the device does with a drive, one NVMe command at a time (R437, R447): deallocate the data region, or flush;
then write superblock copies: both at creation, the older one later, with the LBAs and blocks that the Flush covers as DATA_USED, LOG_USED
and INDEX_USED. -/
inductive DrvOp where
  | dealloc
  | flushSb (used log index : Nat)
  | flushEnd
  deriving DecidableEq, Repr

/-- A drive port: the attached drive, whether it suits Fixer, its critical warnings, the physical tick of the last
SMART read, whether its controller is enabled, and the commands to come. -/
structure Drive where
  info : Option DriveInfo
  suitable : Bool
  warn : Nat
  smartAt : Nat
  enabled : Bool
  ops : List DrvOp
  deriving DecidableEq, Repr

/-- An extent of a member (R440, R445): stream ID, first SEQ, count, first LBA, FIRST_TIME, REWRITTEN, envelopes whose
Write is not complete, whether it has ended, and the physical tick of its last envelope. -/
structure Extent where
  sid : Nat
  seq : Nat
  count : Nat
  lba : Nat
  time : Stamp
  rewritten : Bool
  ended : Bool
  streamEnd : Bool
  open_ : Nat
  lastAt : Nat
  deriving DecidableEq, Repr

/-- A member of a volume (R441 to R447): MSTATE, serial number, region sizes, LBAs assigned and LBAs whose Writes are
complete and flushed, extents not yet in the log, log and index entries, how many of each have been written to the
drive, blocks of each written and flushed, GENERATION, and the envelopes placed on it, each with its stream. -/
structure Member where
  st : Nat
  serial : List Byte
  data : Nat
  log : Nat
  index : Nat
  next : Nat
  used : Nat
  extents : List Extent
  logs : List (List Byte)
  marks : List (List Byte)
  logWritten : Nat
  indexWritten : Nat
  logUsed : Nat
  indexUsed : Nat
  gen : Nat
  placed : List (Nat × Env)
  deriving DecidableEq, Repr

/-- A stream of a volume: its ID, envelopes left in its stripe unit and the unit's member, envelopes written and not yet delivered, the
first and last SEQ written, and, while the volume closes, the envelopes that it still takes. -/
structure FixStream where
  sid : Nat
  unitLeft : Nat
  unitMember : Nat
  done : List Env
  first : Option Nat
  last : Nat
  limit : Option (List Env)
  deriving DecidableEq, Repr

/-- An NVMe Write under way: its number, member, first LBA, stream, envelopes, those of them that had been written before, whether it is a
second attempt or a rewrite, and the physical tick of its issue. -/
structure NvWrite where
  id : Nat
  member : Nat
  lba : Nat
  sid : Nat
  envs : List Env
  old : List Env
  again : Bool
  rewrite : Bool
  at_ : Nat
  deriving DecidableEq, Repr

/-- A volume (R443, R444): STATE (0 while it is created), whether it is closing, its command, its settings and times, members by
drive port, the rotation, streams, Writes under way, envelopes to rewrite, each with whether it had been written before, and envelopes
written. -/
structure Volume where
  st : Nat
  closing : Bool
  fid : Nat
  id : Nat
  stripe : Nat
  flushMs : Nat
  sbMs : Nat
  timeoutMs : Nat
  mask : Nat
  setIndex : Nat
  setCount : Nat
  created : Nat
  closed : Nat
  members : List Member
  rot : Nat
  streams : List FixStream
  writes : List NvWrite
  nextId : Nat
  rewrite : List (Nat × Env × Bool)
  written : Nat
  flushAt : Nat
  sbAt : Nat
  deriving DecidableEq, Repr

/-- A service slot (R425): its instance's service code, engines, channels, and input streams: their keys, and the
envelopes each had delivered at the start; a stop in progress: its commands, each with its RELEASE, and the input streams that still drain, with the SEQ each
drains to (R430); Fixer's volume. -/
structure Svc where
  st : SvcSt
  service : Nat
  mask : Nat
  chans : Nat
  inputs : List (Nat × Nat)
  stopFids : List (Nat × Bool)
  drain : List (Nat × Nat)
  vol : Option Volume
  deriving DecidableEq, Repr

/-- The services: slots by die and slot, drives by die and port. -/
structure SvcAll where
  slots : Tab Svc
  drives : Tab Drive
  deriving DecidableEq, Repr


/-! ## Probe ports, bias outputs and housekeeping ADC (R511 to R535) -/

/-- What a bias output is doing beside following its target (R518, R520): slewing to Z of the old range, the
high-impedance gap, slewing to TARGET in the new range, or turning off. -/
inductive BiasPh where
  | plain
  | toZ
  | gap
  | toTarget
  | off
  deriving DecidableEq, Repr

/-- Reports of one kind of condition (R524): whether it holds, the physical tick of the last event, and whether a
change since then has not been reported. -/
structure BiasCond where
  on : Bool
  last : Option Nat
  owes : Bool
  deriving DecidableEq, Repr

/-- A bias DAC channel (R514 to R524): converter code, whether the pin drives, target, the tick from which the next
step is counted, and a deglitcher hold: its physical start and the code that the pin keeps (R516); a range change with its new range, command and begin; whether it is
to end in a turn-off; BIAS_SET commands that wait for the pin to settle; conditions. -/
structure Bias where
  code : Nat
  driving : Bool
  target : Nat
  stepAt : Nat
  hold : Option (Nat × Nat)
  phase : BiasPh
  newRange : Nat
  began : Nat
  fid : Nat
  gapAt : Nat
  offDue : Bool
  settleFids : List Nat
  tripped : Bool
  limit : BiasCond
  limitAt : Nat
  compl : BiasCond
  deriving DecidableEq, Repr

/-- A PWM (R526): running, the physical tick of its period's start, whether the high time of this period is over, the
configuration that waits for the boundary with its commands, and the pin's level. -/
structure Pwm where
  running : Bool
  start : Nat
  past : Bool
  next : Option (Bool × Bool × Nat × Nat)
  fids : List Nat
  level : Bool
  deriving DecidableEq, Repr

/-- A probe port's pin and bus (R512): the last sample of PB_PRES_N, the physical tick from which it has been low or
high, discovery under way, what it found before EV_READY, and EEPROM_READ: its command, port, buffer and length. -/
structure Probe where
  pin : Bool
  since : Nat
  discovering : Bool
  eepromOk : Bool
  addr : Nat
  hello : List Byte
  read : Option (Nat × Nat × Nat × Nat)
  deriving DecidableEq, Repr

/-- A conversion (R529): coarse tick and physical tick of its start, channel, and whether it belongs to a calibration. -/
structure HkConv where
  time : Nat
  at_ : Nat
  ch : Nat
  cal : Bool
  deriving DecidableEq, Repr

/-- A calibration command under way (R531): full scale or zero, channel, reference code, conversions done and their
sum. -/
structure HkCal where
  fs : Bool
  ch : Nat
  ref : Nat
  n : Nat
  sum : Nat
  fid : Nat
  deriving DecidableEq, Repr

/-- A die's housekeeping ADC (R528 to R531): conversion, pending start, a further start of the conversion's final
hk-cycle (held behind the pending one), end of the start delay, the tick the timer counts from, calibration, and the zero points measured (sum and reference code) by channel; overruns not yet reported,
the first one's tick and source, and the tick of the last report. -/
structure Hka where
  conv : Option HkConv
  pending : Bool
  late : Bool
  delayEnd : Option Nat
  timerAt : Nat
  cal : Option HkCal
  zero : Tab (Option (Nat × Nat))
  overs : Nat
  overFirst : Nat × Nat
  overLast : Option Nat
  deriving DecidableEq, Repr

/-- The probe units of all dies. -/
structure PrbSt where
  probes : Tab Probe
  pwms : Tab Pwm
  biases : Tab Bias
  hkas : Tab Hka
  deriving DecidableEq, Repr

/-! ## Proof port (R536 to R559) -/

/-- A layer's settings (R541, R542, R557). -/
structure LayerCfg where
  en : Bool
  zeroClear : Bool
  log : Bool
  format : Nat
  space : Nat
  palette : Nat
  alpha : Nat
  repX : Nat
  repY : Nat
  addr : Nat
  stride : Nat
  srcW : Nat
  srcH : Nat
  dstX : Int
  dstY : Int
  cmax : Nat
  deriving DecidableEq, Repr

/-- A rectangle of the panel (R547). -/
structure Region2 where
  x : Nat
  y : Nat
  w : Nat
  h : Nat
  deriving DecidableEq, Repr

/-- An element of an init list (R539). -/
inductive InitEl where
  | short (dt : Nat) (params : List Byte)
  | long (dt : Nat) (payload : List Byte)
  | delay (us : Nat)
  | reset (us : Nat)
  deriving DecidableEq, Repr

/-- A packet on the DSI link (R538, R539): the two address commands with first and last column or line, a line's pixels
under write_memory_start or write_memory_continue, or an init element's packet. -/
inductive DsiPacket where
  | column (first last : Nat)
  | page (first last : Nat)
  | line (start : Bool) (pixels : List Byte)
  | panel (dt : Nat) (bytes : List Byte)
  deriving DecidableEq, Repr

/-- A composition and its push (R548 to R553): number, t_TE in die time and as a physical tick, its regions, the region
to push, whether its push runs, lines sent of it, the physical tick its burst began and bytes sent since, regions
pushed, the commit latched, layers latched, layers whose surface header is wrong, and layers not yet released. -/
structure Compo where
  num : Nat
  time : Nat
  at_ : Nat
  regions : List Region2
  cur : Nat
  pushing : Bool
  line : Nat
  burstAt : Nat
  bytes : Nat
  pushed : Nat
  seq : Nat
  layers : List LayerCfg
  bad : List Nat
  left : List Nat
  deriving DecidableEq, Repr

/-- What the commits of one physical tick replaced, for an edge recognised in that tick (R548): the committed layers and palettes,
the pending regions and the commits taken before it, and the regions it added. -/
structure PrfBefore where
  tick : Nat
  layers : List LayerCfg
  pal : Tab W32
  pend : List Region2
  seq : Nat
  added : List Region2
  deriving DecidableEq, Repr

/-- The Proof port beside its registers: staged and committed layers and palettes (entry `i` of palette `p` at
`256 * p + i`), staged and pending regions, what the last tick with a commit replaced; TE period, tick of the last internal
edge, background; the composition; the packets of the last burst, newest first; PANEL_RST_N; PROOF_CONFIGURE commands
that wait or run with their payloads, what is left of the init list, the end of its wait, and whether LP is used; the tick of the
last edge of DSI_TE, and whether the port has sampled the pin since reset. -/
structure PrfSt where
  stageL : List LayerCfg
  commitL : List LayerCfg
  stageP : Tab W32
  commitP : Tab W32
  staged : List Region2
  pend : List Region2
  before : Option PrfBefore
  tePeriod : Nat
  teAt : Nat
  background : Nat
  comp : Option Compo
  burst : List DsiPacket
  rstN : Bool
  configs : List (Nat × List Byte)
  running : Option Nat
  init : List InitEl
  waitAt : Option Nat
  lp : Bool
  teTick : Option Nat
  sampled : Bool
  deriving DecidableEq, Repr

/-! ## Power, Reserve tray and health (R560 to R581) -/

/-- A monitored rail (R566): out of its window and which way, below 85 %, since which physical tick, the last measured
value in mV, and whether the fault of this excursion has been posted. -/
structure Rail where
  out : Bool
  above : Bool
  deep : Bool
  since : Nat
  mv : Nat
  faulted : Bool
  deriving DecidableEq, Repr

/-- A die's thermal and supply monitors: above WARN, sampled since reset, the physical ticks since which every sample
has been at or above THROTTLE, or below it by 3 °C, the last sample, a THERMAL_CONFIGURE that waits for the next
sample with its commands, rails, the tick since which all are in their windows and the rail that returned last, the
cause that began Safelight mode, and the ticks of the last VDD_CORE request and HBM scrub. -/
structure DiePwr where
  warnUp : Bool
  sampled : Bool
  hotAt : Option Nat
  coolAt : Option Nat
  sampleAt : Nat
  thermal : Option (Nat × Nat)
  thermFids : List (Nat × Nat)
  rails : Tab Rail
  backAt : Option Nat
  backRail : Nat
  coreAt : Nat
  scrubAt : Nat
  /-- The cause bit that triggered the last entry to Safelight mode (R587). -/
  entryBit : Nat
  /-- Its rails have not all been in their windows since RESET_N was released (R593). -/
  railsWait : Bool
  deriving DecidableEq, Repr

/-- An entry of the repair record (R577); `place` is the model's own: of a FAILED entry, the link or memory its spare
belongs to. -/
structure RepEnt where
  kind : Nat
  die : Nat
  state : Nat
  reason : Nat
  target : Nat
  spare : Nat
  place : Nat
  deriving DecidableEq, Repr

/-- A Reserve-tray swap under way, other than an engine's (R576, R579): kind, die, target, spare, its command if the
host asked for it, its REASON, and the physical tick it began. -/
structure Swap where
  kind : Nat
  die : Nat
  target : Nat
  spare : Nat
  fid : Option (Nat × Nat)
  reason : Nat
  at_ : Nat
  deriving DecidableEq, Repr

/-- The health of a resource (R580, R581): kind, die, target, level, and the monitor, value and threshold of its last
rise. -/
structure Health where
  kind : Nat
  die : Nat
  target : Nat
  level : Nat
  monitor : Nat
  value : Nat
  threshold : Nat
  deriving DecidableEq, Repr

/-- Power and repair.  `down` after a thermal shutdown, `held` while RESET_N is low; the straps sampled at its release
(R599), and the physical tick of the release. -/
structure PwrSt where
  dies : Tab DiePwr
  down : Bool
  held : Bool
  straps : Nat
  relAt : Nat
  record : List RepEnt
  gen : Nat
  rejected : Bool
  added : Nat
  swaps : List Swap
  health : List Health
  deriving DecidableEq, Repr

/-! ## The boundary-scan port (R607) -/

/-- The states of the IEEE 1149.1 TAP controller. -/
inductive TapSt where
  | testLogicReset
  | runTestIdle
  | selectDr
  | captureDr
  | shiftDr
  | exit1Dr
  | pauseDr
  | exit2Dr
  | updateDr
  | selectIr
  | captureIr
  | shiftIr
  | exit1Ir
  | pauseIr
  | exit2Ir
  | updateIr
  deriving DecidableEq, Repr

/-- The instructions of the TAP. -/
inductive TapOp where
  | bypass
  | samplePreload
  | extest
  | clamp
  | highz
  deriving DecidableEq, Repr

/-- The TAP: controller state, instruction in force, the 8-bit shift register of the instruction, the BYPASS bit, the
boundary register's cells with those its update stage holds, and what TDO drives (none: high impedance). -/
structure TapReg where
  st : TapSt
  op : TapOp
  ir : Nat
  bypass : Bool
  cells : List Bool
  held : List Bool
  tdo : Option Bool
  deriving DecidableEq, Repr

/-! ## Reset values -/

/-- A configuration check at reset (R496). -/
def CfgSt.reset : CfgSt := ⟨0, false, none, false, false, false, 0, none, none, 0, none, none⟩

/-- A command ring at reset. -/
def CmdRing.reset : CmdRing := ⟨0⟩

/-- A completion ring as enabled (R74): index 0 and phase 1. -/
def CplRing.reset : CplRing := ⟨0, 0, true, 0, none, false⟩

/-- An event ring at reset, phase 1 (R74). -/
def EvRing.reset : EvRing := ⟨0, true, 0, none, [], 0, 0, 0, false⟩

/-- A stream ring at reset. -/
def StrRing.reset : StrRing := ⟨0, true, false, 0, 0, 0, 0, 0, 0, 0, 0⟩

/-- A port at reset: no link, answering Configuration Request Retry Status, MSI-X table of 2,048 entries (R64). -/
def PortSt.reset : PortSt := ⟨false, false, true, false, none, none, false⟩

/-- The host side at reset. -/
def HostSt.reset : HostSt := ⟨[], [], [], [], [], [], [], [], 1, [], [], []⟩

/-- A unit at reset: ASLEEP (R53). -/
def Unit.reset : Unit := ⟨.asleep, false, false, none, [], false, false, false, 0, false, false, false, 0, 0⟩

/-- The tree at reset: no groups; the generation becomes 1 at EV_READY (R54). -/
def UnitSt.reset : UnitSt := ⟨[], [], 0⟩

/-- A matcher stage at reset: not valid (R238). -/
def Stage.reset : Stage := ⟨0, 0, false, false, false, 0⟩

/-- A lane at reset (R121, R137): OFF; ONCE for all blocks, CDR code 1, CTLE 12, CURSOR 4, c4 = +1.0 (64/64), gain
code 24; GRAY 1. -/
def Lane.reset : Lane :=
  ⟨.off, false, false, false, false, 0, 0, .raw, false, true, false, false, false, false,
   1, 1, 1, 1, 12, 4, 0, [0, 0, 0, 0, 64, 0, 0, 0, 0, 0, 0, 0, 0, 0, 0, 0, 0, 0, 0, 0, 0, 0, 0, 0], 24,
   12, 0, [0, 0, 0, 0, 64, 0, 0, 0, 0, 0, 0, 0, 0, 0, 0, 0, 0, 0, 0, 0, 0, 0, 0, 0], 0,
   false, none, none, 0, [], none, 0, 0, [], 0, [], [], false, 0, none, [], [], [], none⟩

/-- A PLL at reset (R147, R173): unlocked, last band 16, bandwidth code 1. -/
def Pll.reset : Pll := ⟨false, 16, 1, false, 0, 0, 0, none, true, false, 0⟩

/-- A die's clock state at reset (R152, R176). -/
def DieClk.reset : DieClk := ⟨false, 0, 0, false, false, false, 0, 0, 0, false, false, 0, false, none⟩

/-- A TDC at reset (R168, R172). -/
def Tdc.reset : Tdc := ⟨false, [], 0, none, none, 0⟩

/-- The package's clocks at reset: REF PRESENT, mode BUILDOUT, REFOUT held low (R151), nothing armed. -/
def ClkSt.reset : ClkSt :=
  ⟨[], [], [], .present, false, 0, 0, 0, ⟨false, false, false, [], [], false⟩, none, false, 2, none, [], 0, false, 0⟩

/-- Measurement is disabled at reset (R355). -/
def MeasCfg.reset : MeasCfg := ⟨false, false, false, 0, 0, 0, false, 0, 0, 0, 0⟩

/-- A segment at reset. -/
def SegSt.reset : SegSt :=
  ⟨0, 0, false, 0, 0, [], [], [], 0, none, [], 0, false, false, MeasCfg.reset, 0, 0, 0, 0, 0, 0, 0, false, 0, [], none, []⟩

/-- A stream at reset: UNCONFIGURED (R179). -/
def Stream.reset : Stream where
  present := false
  state := .unconfigured
  mode := 0
  format := 0
  keep := false
  envFlush := 0
  markMask := 0
  trigMask := 0
  pre := 0
  post := 0
  segments := 0
  look := []
  lateMarks := []
  lastPhys := 0
  lbLost := 0
  lbTime := 0
  tStart := 0
  tStop := none
  tStopTime := 0
  stopFids := []
  stopReason := 0
  needTime := true
  lastPeriod := none
  rate := 0
  burst := 0
  tokens := 0
  fillAt := 0
  rlWords := 0
  rlFirst := 0
  slots := 0
  mib := 0
  retain := 0
  lvlHi := 0
  lvlLo := 0
  spool := []
  ndeliv := 0
  delivered := 0
  pos := 0
  openEnv := none
  openedAt := 0
  seqNext := 0
  drop := none
  dropWords := 0
  dropMarks := 0
  gap := none
  ring := none
  service := none
  serviceDie := 0
  resends := []
  unbindFids := []
  endDue := false
  segNext := 0
  seg := SegSt.reset
  closing := []
  kept := []
  spaceAt := 0

/-- The capture units at reset. -/
def CapSt.reset : CapSt := ⟨[], []⟩

/-- A sequencer at reset: not loaded. -/
def Sequencer.reset : Sequencer :=
  ⟨false, [0, 0, 0, 0], [0, 0, 0, 0], 0, [], false, false, 0, [0, 0, 0, 0], [.idle, .idle, .idle, .idle], none, none,
   0, none⟩

/-- TRIG_IN at reset: disabled. -/
def TrigIn.reset : TrigIn := ⟨false, 0, 0, false, none, 0, none⟩

/-- TRIG_OUT's configuration at reset: OFF. -/
def OutCfg.reset : OutCfg := ⟨0, false, 0, 0, 0, 0⟩

/-- TRIG_OUT at reset: low (R265). -/
def TrigOut.reset : TrigOut := ⟨[], [], false, [], false, false, none, none⟩

/-- A Negative store class at reset: disabled (R247). -/
def NegClass.reset : NegClass := ⟨false, false, 0, 0, 0, 0, 0, 0, 0⟩

/-- A Negative store at reset: empty, SEED 0 (R243). -/
def NegStore.reset : NegStore := ⟨[], [], [], 0⟩

/-- A comparator at reset: disabled. -/
def Comparator.reset : Comparator := ⟨⟨false, 0, 0, 0, 0, 1, 0, 0⟩, [], 0, false, false, none, []⟩

/-- The Shutter at reset. -/
def ShtSt.reset : ShtSt := ⟨[], [], [], [], [], [], []⟩

/-- A chain at reset: STOPPED, not configured (R321); every mask entry open (R305). -/
def Chain.reset : Chain where
  cfg := ⟨0, 0, 0, 0, 0, 0, 0, 0, 0, 0, false, 0⟩
  configured := false
  lane := none
  laneWas := none
  laneAt := 0
  st := .stopped
  frozen := false
  frozenWas := []
  dc := []
  setAt := 0
  setDie := 0
  setCause := 0
  setAband := false
  settleTicks := 0
  nIn := 0
  nOut := 0
  acc := (0, 0)
  nextSub := none
  ins := []
  taps := []
  nTap := 0
  lastIn := none
  centres := []
  lastOvr := none
  lastStale := none
  held := []
  outs := []
  recBase := 0
  recWait := none
  recs := []
  pipes := []
  skipPend := false
  done := []
  gapStamp := 0
  gapClock := false
  lost := false
  missing := none
  lastOut := none
  calDue := none
  calIn := none
  staleIn := none
  staleOpen := none
  seqNo := 0
  dropBefore := false
  firstSpec := false
  ovr := 0
  ovrKinds := 0
  ovrStamp := 0
  ovrAt := none
  exp := ⟨false, false, 0, 0⟩
  expNext := []
  mask := []
  maskNext := []

/-- A sheet's configuration at reset: OFF. -/
def SheetCfg.reset : SheetCfg := ⟨0, false, false, 0, 0, 0, 0, 0, 0, 0, 0, 0⟩

/-- An accumulator at reset. -/
def Acc.reset : Acc := ⟨SheetCfg.reset, [], 0, 0, false, 0, 0, none, false, 0, none, none⟩

/-- The chains and Densitometers at reset. -/
def SpcSt.reset : SpcSt := ⟨[], [], [], [], []⟩
/-- A lane's calibration at reset (R357, R360, R377): AUTO, FAST_START, HOLD, the defaults, every coefficient 0. -/
def Cal.reset : Cal where
  mode := 1
  gap := false
  holdExp := false
  noFast := false
  period := 10
  gapWait := 100
  minTrans := 65536
  spreadLo := 4
  spreadHi := 40
  railMax := 1024
  suspended := false
  coef := List.replicate 32 (0, 0, 0)
  coefAt := 0
  coefOld := List.replicate 32 (0, 0, 0)
  strips := 0
  phase := .inactive
  result := 0
  converged := false
  stuck := false
  fails := 0
  startAt := 0
  winFrom := 0
  winSub := none
  smpLast := 0
  est := []
  conf := []
  trans := 0
  sigma := 0
  rails := 0
  resid := (0, 0, 0)
  applied := 0
  markDue := none
  lastTime := 0
  lastSeq := 0
  change := []
  waitEnd := 0
  staleAt := 0
  staleOn := false

/-- An unbound input port. -/
def EngIn.reset : EngIn := ⟨0xFF, [], none⟩

/-- An unbound output port. -/
def EngOut.reset : EngOut := ⟨0xFF, none⟩

/-- An engine at reset (R412, R424): EMPTY. -/
def Engine.reset : Engine where
  st := .empty
  phys := 0
  regs := []
  pc := 0
  cause := 0
  badAddr := 0
  entry := 0
  inUse := 0
  outUse := 0
  heapAddr := 0
  heapMib := 0
  ins := [EngIn.reset, EngIn.reset, EngIn.reset, EngIn.reset]
  outs := [EngOut.reset, EngOut.reset]
  derived := []
  grants := 0
  evMask := 0
  arg0 := 0
  arg1 := 0
  wdog := 0
  wdogCnt := 0
  wdogAt := 0
  retired := 0
  waited := 0
  waiting := none
  waitAt := 0
  evq := []
  evqLost := false
  h2e := 0
  e2h := 0
  chanSig := false
  cache := []
  stopPoint := false
  stopNow := false
  stopFids := []
  swap := none
  eccCode := []
  eccData := []
  slot := none

/-- The engines at reset. -/
def EngAll.reset : EngAll := ⟨[], []⟩


/-- A transfer channel at reset (R484): IDLE. -/
def Xfer.reset : Xfer where
  st := .idle
  entry := 0
  pc := 0
  port := none
  weight := 0
  bases := [(0, 0), (0, 0), (0, 0), (0, 0)]
  loaded := [0, 0, 0, 0]
  lc := [0, 0, 0, 0]
  active := [false, false, false, false]
  kicks := 0
  move := ⟨0, 0, 0, 0, 0, 0, false, 0, 0, false, false, false⟩
  moving := false
  moveAt := 0
  wait := ⟨0, 0, 0, 0, none, false, false⟩
  phase := 0
  signals := 0
  bytes := 0
  timedOut := false
  cause := 0
  lastBeat := false
  faultSpace := 0
  faultAddr := 0
  buf := none
  pauseFids := []
  resetFids := []
  slot := none

/-- No measurement at reset; the digest starts as 32 zero bytes (R583). -/
def SecSt.reset : SecSt := ⟨[], 0, List.replicate 32 0, 0, 0, []⟩

/-- An empty slot. -/
def Svc.reset : Svc := ⟨.none, 0, 0, 0, [], [], [], none⟩

/-- A drive port without a drive. -/
def Drive.reset : Drive := ⟨none, false, 0, 0, false, []⟩

/-- No services at reset. -/
def SvcAll.reset : SvcAll := ⟨[], []⟩

/-- A probe port at reset: nothing fitted, PB_PRES_N pulled high (R511). -/
def Probe.reset : Probe := ⟨true, 0, false, false, 0, [], none⟩

/-- A PWM at reset: disabled, low (R511). -/
def Pwm.reset : Pwm := ⟨false, 0, false, none, [], false⟩

/-- A bias channel at reset: high-impedance (R517). -/
def Bias.reset : Bias :=
  ⟨0, false, 0, 0, none, .plain, 0, 0, 0, 0, false, [], false, ⟨false, none, false⟩, 0, ⟨false, none, false⟩⟩

/-- A housekeeping ADC at reset: OFF. -/
def Hka.reset : Hka := ⟨none, false, false, none, 0, none, [], 0, (0, 0), none⟩

def PrbSt.reset : PrbSt := ⟨[], [], [], []⟩

/-- A layer at reset: disabled (log entry of the reset values). -/
def LayerCfg.reset : LayerCfg := ⟨false, false, false, 0, 0, 0, 0, 1, 1, 0, 0, 0, 0, 0, 0, 0⟩

/-- The Proof port at reset: not configured, PANEL_RST_N low (R537). -/
def PrfSt.reset : PrfSt :=
  ⟨List.replicate 4 LayerCfg.reset, List.replicate 4 LayerCfg.reset, [], [], [], [], none, 0, 0, 0, none, [], false, [], none, [],
   none, false, none, false⟩

/-- A rail in its window. -/
def Rail.reset : Rail := ⟨false, false, false, 0, 0, false⟩

def DiePwr.reset : DiePwr := ⟨false, false, none, none, 0, none, [], [], none, 0, 0, 0, 0, false⟩

/-- Power at reset: roles of host endpoints (R599), an empty repair record (R578). -/
def PwrSt.reset : PwrSt := ⟨[], false, false, 0, 0, [], 0, false, 0, [], []⟩

/-- The TAP after Test-Logic-Reset: BYPASS (R607). -/
def TapReg.reset : TapReg := ⟨.testLogicReset, .bypass, 0, false, [], [], none⟩

/-! ## The machine -/

/-- Why a step stops without a next state. -/
inductive Fault where
  /-- A command or event names a die, lane, engine or other unit that the fitted part does not have (R3): no such
  thing can happen on the device.  Raised by the event rows through `onDie`.  Safe: the model stops. -/
  | absentUnit
  deriving DecidableEq, Repr

/-- Why a command has no meaning. -/
inductive Refusal where
  /-- The command has no meaning yet; raised only by the arms of Machine/Dispatch.lean.  Safe: the model stops. -/
  | notModelled (mnemonic : String)
  deriving DecidableEq, Repr

/-- The block. -/
structure State where
  part : Part
  /-- Physical ticks since power was applied to the model: the clock that every timer counts (R5). -/
  now : Nat
  /-- The model's own: how many free values have been drawn. -/
  freeCtr : Nat
  /-- EV_READY has been posted (R53). -/
  ready : Bool
  /-- Answer of the last register read. -/
  lastRead : Option ReadResult
  /-- Register file: values, shadows of RWS registers (R488), and WO1 registers written (R501). -/
  regs : Tab W32
  shadows : Tab W32
  wo1 : Tab Bool
  cfg : Tab CfgSt
  strobes : List Strobe
  /-- Memories, by region (Machine/Ops.lean): host memory of each port, HBM, engine and on-chip memories. -/
  mem : List Host.Cell
  host : HostSt
  tree : UnitSt
  lanes : Tab Lane
  clk : ClkSt
  cap : CapSt
  sht : ShtSt
  spc : SpcSt
  cal : Tab Cal
  eng : EngAll
  xfer : Tab Xfer
  sec : SecSt
  svc : SvcAll
  prb : PrbSt
  prf : PrfSt
  pwr : PwrSt
  tap : TapReg
  /-- The commands waiting, first in first out. -/
  pending : List Instr
  deriving DecidableEq, Repr

/-- The block right after RESET_N (R9): every table unlisted, so every register at its Reset column and every unit in
its reset state; the boot window is open (R66).  The part fitted is a KN-8128 (DESIGN CHOICE, log entry 1). -/
def State.reset : State where
  part := .kn8128
  now := 0
  freeCtr := 0
  ready := false
  lastRead := none
  regs := []
  shadows := []
  wo1 := []
  cfg := []
  strobes := []
  mem := []
  host := HostSt.reset
  tree := UnitSt.reset
  lanes := []
  clk := ClkSt.reset
  cap := CapSt.reset
  sht := ShtSt.reset
  spc := SpcSt.reset
  cal := []
  eng := EngAll.reset
  xfer := []
  sec := SecSt.reset
  svc := SvcAll.reset
  prb := PrbSt.reset
  prf := PrfSt.reset
  pwr := PwrSt.reset
  tap := TapReg.reset
  pending := []

end Sys2Proof.Machine
end

