-- ==== Sys2Proof/Machine/Ops.lean ====
section
/-!
DEFINITION. The named operations every meaning is built from: bytes and fields, registers, time, memory, unit IDs,
events, completions.
-/

namespace Sys2Proof.Machine

/-- The outcome of a command. -/
abbrev Out := Host.Outcome State Fault Refusal

/-! ## Bytes and numbers (R4) -/

/-- The number a little-endian byte string spells (R4). -/
def leNat : List Byte → Nat
  | [] => 0
  | b :: r => b.toNat + 256 * leNat r

/-- The low `n` bytes of `v`, least significant first (R4). -/
def leBytes : Nat → Nat → List Byte
  | 0, _ => []
  | n + 1, v => BitVec.ofNat 8 v :: leBytes n (v / 256)

/-- The `n`-byte field at offset `k` of a byte string; bytes past the end read 0. -/
def fld (p : List Byte) (k n : Nat) : Nat := leNat ((p.drop k).take n)

/-- Bits `[lo + w - 1 : lo]` of a number. -/
def bits (v lo w : Nat) : Nat := v / 2 ^ lo % 2 ^ w

/-- Bit `i` of a number. -/
def bitAt (v i : Nat) : Bool := bits v i 1 = 1

/-- The signed value of the low `w` bits of a number. -/
def sgn (w v : Nat) : Int := if v % 2 ^ w < 2 ^ (w - 1) then (v % 2 ^ w : Nat) else (v % 2 ^ w : Nat) - 2 ^ w

/-- The two's complement of a signed number in `w` bits. -/
def unsgn (w : Nat) (v : Int) : Nat := (v % (2 ^ w : Nat)).toNat

/-- A signed number clamped to the range of `w` bits. -/
def clampS (w : Nat) (v : Int) : Int := max (-(2 ^ (w - 1) : Nat) : Int) (min v ((2 ^ (w - 1) : Nat) - 1))

/-- 1 for true. -/
def b2n (b : Bool) : Nat := if b then 1 else 0

/-- All bytes of a list are zero. -/
def allZero (p : List Byte) : Bool := p.all (· == 0)

/-- Bytes `k` to the end of a payload are zero (reserved bytes, R77, R225). -/
def zeroFrom (p : List Byte) (k : Nat) : Bool := allZero (p.drop k)

/-- Bytes `k` to the end of a command's payload, where its layout ends, are zero; an extended payload is padded to a multiple
of 8 bytes, and the padding is not checked (R77). -/
def restOk (c : Cmd) (k : Nat) : Bool :=
  zeroFrom c.payload (if bitAt c.flags 0 || c.payload.length ≠ 40 then (k + 7) / 8 * 8 else k)

/-- A byte string padded with zeros to `n` bytes. -/
def padTo (n : Nat) (p : List Byte) : List Byte := p ++ List.replicate (n - p.length) 0

/-! ## Tables with the unlisted values of this machine -/

def tget {α : Type} (z : α) (t : Tab α) (k : Nat) : α := tabGet (fun _ => z) t k

def tset {α : Type} [DecidableEq α] (z : α) (t : Tab α) (k : Nat) (v : α) : Tab α := tabSet (fun _ => z) t k v

/-! ## The part (R1, R3, R11) -/

/-- Dies fitted (R1). -/
def partDies : Part → Nat
  | .kn2032 => 2
  | .kn4064 => 4
  | .kn8128 => 8

/-- The part number as registers and PCIe show it (R64, R509). -/
def partCode : Part → Nat
  | .kn2032 => 0x2032
  | .kn4064 => 0x4064
  | .kn8128 => 0x8128

def nDies (s : State) : Nat := partDies s.part

/-- The key of thing `i` of die `d`. -/
def key (d i : Nat) : Nat := 128 * d + i

/-- The partner die of Ulufer port `p` of die `d` (R14), if fitted. -/
def uflPartner (n d p : Nat) : Option Nat :=
  let col := d % 4
  let q : Option Nat := match p with
    | 0 => if col < 3 then some (d + 1) else none
    | 1 => if 0 < col then some (d - 1) else none
    | 2 => some (if d < 4 then d + 4 else d - 4)
    | 3 => some (if col < 2 then d + 2 else d - 2)
    | _ => none
  match q with
  | some e => if e < n then some e else none
  | none => none

/-! ## Registers (R485 to R509) -/

/-- The key of the register at window offset `o` of die `d`. -/
def regKey (d o : Nat) : Nat := 0x800000 * d + o

/-- The instance of a table row that lies at offset `o`: its two indices. -/
def rowAt (r : RegDef) (o : Nat) : Option (Nat × Nat) :=
  if o < r.ofs then none
  else
    let x := o - r.ofs
    let i := if r.s1 = 0 then 0 else x / r.s1
    let y := if r.s1 = 0 then x else x % r.s1
    let j := if r.s2 = 0 then 0 else y / r.s2
    let z := if r.s2 = 0 then y else y % r.s2
    if i < r.n1 && j < r.n2 && z = 0 then some (i, j) else none

/-- The table row of the register at offset `o`. -/
def findReg (o : Nat) : Option RegDef := regTable.find? fun r => (rowAt r o).isSome

/-- The value a register holds at reset (Reset column; CFG_ID, HST_PORT_ID, ENG_STAT and ENG_MAP by instance). -/
def regReset (k : Nat) : W32 :=
  let d := k / 0x800000
  let o := k % 0x800000
  if k ≥ 0x4000000 then
    match findReg k with | some r => BitVec.ofNat 32 r.reset | none => 0
  else if o = rHstPortId then BitVec.ofNat 32 (d * 2 ^ 24)
  else
    match findReg o with
    | some r =>
      if r.ofs = rEngMap 0 then
        BitVec.ofNat 32 (0x03020100 + 0x04040404 * ((o - r.ofs) / 4))
      else BitVec.ofNat 32 r.reset
    | none => 0

/-- The value the register file holds for a register. -/
def reg (s : State) (d o : Nat) : W32 := tabGet regReset s.regs (regKey d o)

def setReg (s : State) (d o : Nat) (v : W32) : State :=
  { s with regs := tabSet regReset s.regs (regKey d o) v }

/-- The shadow of an RWS register (R488). -/
def shadow (s : State) (d o : Nat) : W32 := tabGet regReset s.shadows (regKey d o)

def setShadow (s : State) (d o : Nat) (v : W32) : State :=
  { s with shadows := tabSet regReset s.shadows (regKey d o) v }

/-- The field of a dword. -/
def getFld (f : Fld) (v : W32) : Nat := bits v.toNat f.lo f.w

/-- A dword with one field replaced. -/
def putFld (f : Fld) (v : W32) (x : Nat) : W32 :=
  let m : W32 := BitVec.ofNat 32 ((2 ^ f.w - 1) * 2 ^ f.lo)
  (v &&& ~~~m) ||| (BitVec.ofNat 32 (x % 2 ^ f.w * 2 ^ f.lo))

/-- A register's field. -/
def getF (s : State) (d : Nat) (f : Fld) : Nat := getFld f (reg s d f.ofs)

def setF (s : State) (d : Nat) (f : Fld) (x : Nat) : State := setReg s d f.ofs (putFld f (reg s d f.ofs) x)

def flagF (s : State) (d : Nat) (f : Fld) : Bool := getF s d f = 1

def setFlag (s : State) (d : Nat) (f : Fld) (b : Bool) : State := setF s d f (b2n b)

/-- Adds to a counter field, saturating at all ones. -/
def addF (s : State) (d : Nat) (f : Fld) (n : Nat) : State := setF s d f (min (2 ^ f.w - 1) (getF s d f + n))

def incF (s : State) (d : Nat) (f : Fld) : State := addF s d f 1

/-- Adds to a counter field that wraps. -/
def wrapF (s : State) (d : Nat) (f : Fld) (n : Nat) : State := setF s d f (getF s d f + n)

/-- The control page's registers (R571) stand at die number 8. -/
def ctlPage : Nat := 8

/-- The offset of a control page register from its field. -/
def cfld (f : Fld) : Fld := ⟨f.ofs - 0x4000000, f.lo, f.w⟩

/-- The bits of the bytes that a write or read enables (R502). -/
def byteMask (be : Nat) : W32 :=
  BitVec.ofNat 32 ((List.range 4).foldl (fun a i => if bitAt be i then a + 0xFF * 2 ^ (8 * i) else a) 0)

/-- A dword with its enabled bits replaced. -/
def mergeBits (m old v : W32) : W32 := (old &&& ~~~m) ||| (v &&& m)

/-! ## Records by key -/

def unitOf (s : State) (u : Nat) : Unit := tget Unit.reset s.tree.units u

def setUnit (s : State) (u : Nat) (x : Unit) : State :=
  { s with tree := { s.tree with units := tset Unit.reset s.tree.units u x } }

def laneOf (s : State) (d n : Nat) : Lane := tget Lane.reset s.lanes (key d n)

def setLane (s : State) (d n : Nat) (l : Lane) : State := { s with lanes := tset Lane.reset s.lanes (key d n) l }

def dieClk (s : State) (d : Nat) : DieClk := tget DieClk.reset s.clk.dies d

def setDieClk (s : State) (d : Nat) (x : DieClk) : State :=
  { s with clk := { s.clk with dies := tset DieClk.reset s.clk.dies d x } }

def pllOf (s : State) (d k : Nat) : Pll := tget Pll.reset s.clk.plls (key d k)

def setPll (s : State) (d k : Nat) (p : Pll) : State :=
  { s with clk := { s.clk with plls := tset Pll.reset s.clk.plls (key d k) p } }

def tdcOf (s : State) (d : Nat) : Tdc := tget Tdc.reset s.clk.tdcs d

def setTdc (s : State) (d : Nat) (t : Tdc) : State :=
  { s with clk := { s.clk with tdcs := tset Tdc.reset s.clk.tdcs d t } }

/-- Streams 0 to 17 always exist (R35). -/
def streamDflt (k : Nat) : Stream := if k % 128 < 18 then { Stream.reset with present := true } else Stream.reset

def streamOf (s : State) (d i : Nat) : Stream := tabGet streamDflt s.cap.streams (key d i)

def setStream (s : State) (d i : Nat) (x : Stream) : State :=
  { s with cap := { s.cap with streams := tabSet streamDflt s.cap.streams (key d i) x } }

def chainOf (s : State) (d c : Nat) : Chain := tget Chain.reset s.spc.chains (key d c)

def setChain (s : State) (d c : Nat) (x : Chain) : State :=
  { s with spc := { s.spc with chains := tset Chain.reset s.spc.chains (key d c) x } }

def measOf (s : State) (d c : Nat) : MeasCfg := tget MeasCfg.reset s.spc.meas (key d c)

/-- The measurement settings in force at a tick (R342). -/
def measAt (s : State) (d c t : Nat) : MeasCfg :=
  match (tget [] s.spc.measWas (key d c)).find? (fun p => t < p.1) with
  | some p => p.2
  | none => measOf s d c

/-- Keeps the settings that a change at the current tick replaces, beside those replaced after a tick `t`. -/
def keepMeas (s : State) (d c t : Nat) : State :=
  let l := (tget [] s.spc.measWas (key d c)).filter fun p => t < p.1
  { s with spc := { s.spc with measWas := tset [] s.spc.measWas (key d c) (l ++ [(s.now, measOf s d c)]) } }

def setMeas (s : State) (d c : Nat) (x : MeasCfg) : State :=
  { s with spc := { s.spc with meas := tset MeasCfg.reset s.spc.meas (key d c) x } }

def accOf (s : State) (d k : Nat) : Acc := tget Acc.reset s.spc.accs (key d k)

def setAcc (s : State) (d k : Nat) (x : Acc) : State :=
  { s with spc := { s.spc with accs := tset Acc.reset s.spc.accs (key d k) x } }

def poolFree (s : State) (d : Nat) : Nat := tget 0 s.cap.free d

def setPoolFree (s : State) (d n : Nat) : State :=
  { s with cap := { s.cap with free := tset 0 s.cap.free d n } }

def portOf (s : State) (p : Nat) : PortSt := tget PortSt.reset s.host.ports p

def setPort (s : State) (p : Nat) (x : PortSt) : State :=
  { s with host := { s.host with ports := tset PortSt.reset s.host.ports p x } }

def cmdRing (s : State) (p n : Nat) : CmdRing := tget CmdRing.reset s.host.crs (64 * p + n)

def setCmdRing (s : State) (p n : Nat) (x : CmdRing) : State :=
  { s with host := { s.host with crs := tset CmdRing.reset s.host.crs (64 * p + n) x } }

def cplRing (s : State) (p n : Nat) : CplRing := tget CplRing.reset s.host.cqs (64 * p + n)

def setCplRing (s : State) (p n : Nat) (x : CplRing) : State :=
  { s with host := { s.host with cqs := tset CplRing.reset s.host.cqs (64 * p + n) x } }

def evRing (s : State) (p : Nat) : EvRing := tget EvRing.reset s.host.evrs p

def setEvRing (s : State) (p : Nat) (x : EvRing) : State :=
  { s with host := { s.host with evrs := tset EvRing.reset s.host.evrs p x } }

def strRing (s : State) (r : Nat) : StrRing := tget StrRing.reset s.host.srs r

def setStrRing (s : State) (r : Nat) (x : StrRing) : State :=
  { s with host := { s.host with srs := tset StrRing.reset s.host.srs r x } }

def cfgOf (s : State) (d : Nat) : CfgSt := tget CfgSt.reset s.cfg d

def setCfg (s : State) (d : Nat) (x : CfgSt) : State := { s with cfg := tset CfgSt.reset s.cfg d x }

/-- Draws a free value (log entry 2). -/
def drawFree (s : State) : W64 × State := (Config.freeValue s.freeCtr, { s with freeCtr := s.freeCtr + 1 })

/-- Draws `n` free values. -/
def drawMany : Nat → State → List W64 × State
  | 0, s => ([], s)
  | n + 1, s =>
    let a := drawFree s
    let b := drawMany n a.2
    (a.1 :: b.1, b.2)

/-- A quotient whose rounding the spec does not state: either neighbour, by a free value (log entry 2). -/
def openDivInt (s : State) (a : Int) (b : Nat) : Int × State :=
  if b = 0 || a % (b : Int) = 0 then (a / (b : Int), s)
  else
    let v := drawFree s
    (a / (b : Int) + b2n (v.1.getLsbD 0), v.2)

/-! ## Time (R5, R152, R153, R163, R617) -/

/-- Ticks per microsecond (R617). -/
def usTicks : Nat := 1750

/-- Ticks of one hk-cycle (R6, R163). -/
def hkTicks : Nat := 140

/-- The tolerance of a die's HKCLK in thousandths: 2 % before trimming, 0.1 % after (R6, R146). -/
def hkTol (s : State) (d : Nat) : Nat := if (dieClk s d).hkTrimmed then 1 else 20

/-- The shortest time `n` hk-cycles of a die can take, in ticks (R6). -/
def hkMin (s : State) (d n : Nat) : Nat := n * hkTicks * (1000 - hkTol s d) / 1000

/-- The longest time `n` hk-cycles of a die can take, in ticks (R6). -/
def hkMax (s : State) (d n : Nat) : Nat := (n * hkTicks * (1000 + hkTol s d) + 999) / 1000

/-- Ticks of 1,000 hk-cycles of a die: a free value within the tolerance (R6, log entry 10). -/
def hkPeriod (s : State) (d : Nat) : Nat := max (hkMin s d 1000) (min (hkMax s d 1000) (Config.hkPeriodRaw d))

/-- A die's coarse time: counts ticks, or 140 ticks per hk-cycle on the holding clock (R163); wraps at 2^56 (R153). -/
def dieTime (s : State) (d : Nat) : Nat :=
  let c := dieClk s d
  if !c.running then 0
  else if c.holding then (c.base + hkTicks * ((s.now - c.atTick) * 1000 / hkPeriod s d)) % 2 ^ 56
  else (c.base + (s.now - c.atTick)) % 2 ^ 56

/-- A coarse tick as a timestamp (R152). -/
def stampOf (t : Nat) : Stamp := BitVec.ofNat 64 (t * 256)

/-- The coarse tick of a stamp. -/
def coarse (t : Stamp) : Nat := t.toNat / 256

/-- The fine part of a stamp. -/
def fine (t : Stamp) : Nat := t.toNat % 256

/-- The signed difference of two stamps modulo 2^64 (R153). -/
def stampDiff (a b : Stamp) : Int := (a - b).toInt

def stampLt (a b : Stamp) : Bool := stampDiff a b < 0

def stampLe (a b : Stamp) : Bool := stampDiff a b ≤ 0

/-- The signed difference of two coarse ticks modulo 2^56. -/
def tickDiff (a b : Nat) : Int := sgn 56 ((a + (2 ^ 56 - b % 2 ^ 56)) % 2 ^ 56)

def nowStamp (s : State) (d : Nat) : Stamp := stampOf (dieTime s d)

/-- The physical tick at which die `d` reads coarse time `t`, for a time near now. -/
def physOf (s : State) (d t : Nat) : Nat := ((s.now : Int) + tickDiff t (dieTime s d)).toNat

/-- The coarse time of die `d` at a physical tick near now. -/
def tickAt (s : State) (d ph : Nat) : Nat := (((dieTime s d : Int) - ((s.now : Int) - ph)) % (2 ^ 56 : Nat)).toNat

/-- The place of a stamp of die `d` on the physical time line, in fine units. -/
def physFine (s : State) (d : Nat) (t : Stamp) : Nat :=
  ((s.now : Int) * 256 + stampDiff t (nowStamp s d)).toNat

/-- The difference a REALIGN still leaves to the phase of the FPLLs, in fine units: the phase moves by at most 2 ps per µs,
0.896 fine units; how fast it moves is left open (R162). -/
def realignLeft (s : State) : Nat :=
  if s.clk.realignRest = 0 then 0
  else s.clk.realignRest - (s.now - s.clk.realignAt) * (1 + Config.realignSlew % 896) / (1000 * usTicks)

/-- A stamp with a fine part, as the device gives it: what a REALIGN still leaves is added (R162). -/
def fineStamp (s : State) (t : Stamp) : Stamp := t + BitVec.ofNat 64 (realignLeft s)

/-- The fused delay of TRIG_IN[n] from ball to TDC: 256 to 1,536 fine units (R172). -/
def pinDelay (n : Nat) : Nat := 256 + Config.pinDelayRaw n % 1281

/-! ## Memory -/

/-- The memories the device reads and writes: host memory through each port, HBM of each die, engine SRAMs, transfer
programs, the Print buffer, each port's image area (R571), and the drives of drive ports. -/
inductive Region where
  | host (port : Nat)
  | hbm (die : Nat)
  | engData (die eng : Nat)
  | engSide (die eng : Nat)
  | engCode (die eng : Nat)
  | prog (die : Nat)
  | print
  | image (port : Nat)
  | drive (die port : Nat)
  deriving DecidableEq, Repr

/-- Regions lie 2^64 addresses apart in the one list of bytes. -/
def regionBase : Region → Nat
  | .host p => p * 2 ^ 64
  | .hbm d => (8 + d) * 2 ^ 64
  | .engData d n => (16 + 32 * d + n) * 2 ^ 64
  | .engSide d n => (272 + 32 * d + n) * 2 ^ 64
  | .engCode d n => (528 + 32 * d + n) * 2 ^ 64
  | .prog d => (784 + d) * 2 ^ 64
  | .print => 792 * 2 ^ 64
  | .image p => (793 + p) * 2 ^ 64
  | .drive d p => (801 + 4 * d + p) * 2 ^ 64

/-- The bytes of the trap word that fills instruction SRAM at reset (R391), least significant first. -/
def codeFill (a : Nat) : Byte :=
  match a % 4 with
  | 0 => 0x04
  | 1 => 0xF8
  | 2 => 0x01
  | _ => 0xE0

/-- What a byte that is not listed reads as: the trap word in instruction SRAM (R391), 0 elsewhere (log entry 3). -/
def memDflt (a : Nat) : Byte := if 528 * 2 ^ 64 ≤ a && a < 784 * 2 ^ 64 then codeFill a else 0

/-- The canonical form of the memory: addresses rise, and no entry equals what its address reads as unlisted. -/
def memWf (m : List Host.Cell) : Bool := tabWf memDflt m

def readByte (s : State) (a : Nat) : Byte := tabGet memDflt s.mem a

def writeByte (m : List Host.Cell) (a : Nat) (b : Byte) : List Host.Cell := tabSet memDflt m a b

/-- Writes bytes from address `a` upward. -/
def writeList (m : List Host.Cell) (a : Nat) : List Byte → List Host.Cell
  | [] => m
  | b :: r => writeList (writeByte m a b) (a + 1) r

/-- Reads `n` bytes from address `a` upward. -/
def readList (s : State) (a : Nat) : Nat → List Byte
  | 0 => []
  | n + 1 => readByte s a :: readList s (a + 1) n

def memWrite (s : State) (r : Region) (a : Nat) (b : List Byte) : State :=
  { s with mem := writeList s.mem (regionBase r + a) b }

def memRead (s : State) (r : Region) (a n : Nat) : List Byte := readList s (regionBase r + a) n

/-- An address of memory lies in a surface region whose contents are undefined: never exported, or being rewritten (R323, R334). -/
def blankAt (s : State) (a : Nat) : Bool :=
  (List.range 8).any fun d => (List.range 2).any fun k =>
    let x := accOf s d k
    match x.region with
    | some (h, m) => (x.blank || x.exporting.isSome) && decide (regionBase (.hbm d) + h ≤ a) &&
        decide (a < regionBase (.hbm d) + h + m * 2 ^ 20)
    | none => false

/-- A byte as a reader of HBM finds it: one of an undefined surface region is an open value of its address and tick (log entry 104). -/
def openByte (s : State) (a : Nat) : Byte :=
  if blankAt s a then BitVec.ofNat 8 (Config.signalValue [a, s.now]).toNat else readByte s a

/-- `n` such bytes from address `a` upward. -/
def openList (s : State) (a : Nat) : Nat → List Byte
  | 0 => []
  | n + 1 => openByte s a :: openList s (a + 1) n

def memNat (s : State) (r : Region) (a n : Nat) : Nat := leNat (memRead s r a n)

/-- A write to host memory through a port. -/
def hostWrite (s : State) (p a : Nat) (b : List Byte) : State := memWrite s (.host p) a b

/-! ## Unit IDs (R33, R35) -/

/-- The ID of a single unit (R33). -/
def uid (d cls i : Nat) : Nat := d * 2 ^ 28 + cls * 2 ^ 22 + i * 2 ^ 12

def isGroup (u : Nat) : Bool := bitAt u 31

def uDie (u : Nat) : Nat := bits u 28 3

def uCls (u : Nat) : Nat := bits u 22 6

def uIdx (u : Nat) : Nat := bits u 12 10

/-- The class codes of R35. -/
def clPackage : Nat := 0x00
def clDie : Nat := 0x01
def clLaneGroup : Nat := 0x02
def clLane : Nat := 0x03
def clChain : Nat := 0x04
def clDens : Nat := 0x05
def clTdc : Nat := 0x06
def clEngine : Nat := 0x07
def clXfer : Nat := 0x08
def clHostPort : Nat := 0x09
def clDrive : Nat := 0x0A
def clProbe : Nat := 0x0B
def clHkAdc : Nat := 0x0C
def clBias : Nat := 0x0D
def clProof : Nat := 0x0E
def clSeq : Nat := 0x0F
def clStream : Nat := 0x10
def clUfl : Nat := 0x11
def clPll : Nat := 0x12
def clNeg : Nat := 0x13

/-- The package unit. -/
def pkgUid : Nat := uid 0 clPackage 0

/-- The group ID of group number `g` (R33). -/
def groupId (g : Nat) : Nat := 2 ^ 31 + g

/-- Well-formed unit ID (R33): the bits the form requires 0 are 0, and a group number is not 0. -/
def idFormOk (u : Nat) : Bool :=
  u < 2 ^ 32 && (if isGroup u then bits u 16 15 = 0 && bits u 0 16 ≠ 0 else bits u 0 12 = 0)

/-- The single units of the tree (R35): which indices of a class die `d` has. -/
def unitExists (s : State) (d cls i : Nat) : Bool :=
  s.ready && d < nDies s &&
  (match cls with
   | 0x00 => d = 0 && i = 0
   | 0x01 => i = 0
   | 0x02 => i < 4
   | 0x03 => i < 16
   | 0x04 => i < 2
   | 0x05 => i = 0
   | 0x06 => i = 0
   | 0x07 => i < 16
   | 0x08 => i < 32
   | 0x09 => i = 0 && !(portOf s d).drive
   | 0x0A => i < 4 && (portOf s d).drive
   | 0x0B => i < 2
   | 0x0C => i = 0
   | 0x0D => i < 2
   | 0x0E => d = 0 && i = 0
   | 0x0F => d = 0 && i < 16
   | 0x10 => i < 18 || (32 ≤ i && i < 96 && (streamOf s d i).present)
   | 0x11 => i < 4 && (uflPartner (nDies s) d i).isSome
   | 0x12 => i < 7 || (i = 7 && d = 0)
   | 0x13 => i = 0
   | _ => false)

def groupOf (s : State) (g : Nat) : Option Group := tget none s.tree.groups g

/-- The unit or group exists (R34). -/
def unitPresent (s : State) (u : Nat) : Bool :=
  if isGroup u then (groupOf s (bits u 0 16)).isSome else unitExists s (uDie u) (uCls u) (uIdx u)

/-- A unit's power state (R38). -/
def pwOf (s : State) (u : Nat) : Pw := (unitOf s u).pw

def awake (s : State) (u : Nat) : Bool := pwOf s u == .awake

/-- The power state codes of R38. -/
def pwCode : Pw → Nat
  | .asleep => 0
  | .starting => 1
  | .awake => 2
  | .stopping => 3
  | .fault => 4

/-- Die `d` is fenced (R567). -/
def fenced (s : State) (d : Nat) : Bool := (dieClk s d).fenced

/-! ## Status codes (R96) -/

def stSuccess : Nat := 0x0000
def stSuperseded : Nat := 0x0001
def stTooLate : Nat := 0x0100
def stApplyTooFar : Nat := 0x0101
def stTimedOut : Nat := 0x0102
def stBusy : Nat := 0x0200
def stNoResource : Nat := 0x0201
def stNotRetained : Nat := 0x0202
def stGroupFull : Nat := 0x0203
def stGroupInUse : Nat := 0x0204
def stBadOpcode : Nat := 0x0300
def stBadPayload : Nat := 0x0301
def stBadUnitId : Nat := 0x0302
def stUnitAbsent : Nat := 0x0303
def stBadClass : Nat := 0x0304
def stGroupCycle : Nat := 0x0305
def stBadState : Nat := 0x0306
def stNotPermitted : Nat := 0x0307
def stRateUnsupported : Nat := 0x0308
def stLocked : Nat := 0x0309
def stGroupExists : Nat := 0x030A
def stSafelight : Nat := 0x0400
def stAborted : Nat := 0x0401
def stHostReadError : Nat := 0x0500
def stAuthFailed : Nat := 0x0600
def stUnitFaulted : Nat := 0x0700
/-- Internal error.  No rule says when a command of a working device gives it, and no meaning here does (log entry 116). -/
def stDeviceError : Nat := 0x07FF

/-! ## Events and interrupts (R87 to R90, R95) -/

/-- Entries of the MSI-X table that the host has configured on a port: 1 to 2,048, the table's size (R64, R95). -/
def msixSize (p : Nat) : Nat := 1 + Config.msixRaw p % 2048

/-- Raises an MSI-X vector of a port; a vector at or above the configured table size raises nothing (R95).  Vector 0 is below
every size. -/
def raiseIrq (s : State) (p v : Nat) : State :=
  if v = 0 || v < msixSize p then { s with host := { s.host with irqs := (p, v) :: s.host.irqs } } else s

/-- Die 0 or the source die runs on its holding clock, so the event waits (R163, R164); a fenced die has no relock to
wait for (R165). -/
def evWaits (s : State) (d : Nat) : Bool :=
  (d ≠ 0) && ((dieClk s 0).holding || ((dieClk s d).holding && !fenced s d))

/-- An event's release time, TIME plus 7,000 ticks, is already behind die 0's time (R89). -/
def pastRelease (s : State) (e : Ev) : Bool := stampLt (BitVec.ofNat 64 e.time + stampOf 7000) (nowStamp s 0)

/-- The event is not merged when it is raised: it waits at its source (R164), or it reaches die 0 after its release time
and arrives LATE (R89). -/
def evTransits (s : State) (d : Nat) (e : Ev) : Bool := evWaits s d || pastRelease s e

/-- Posts an event raised on die `d`: to die 0's merge, or among those that wait at their source or arrive after their
release time (R89, R164). -/
def postStamp (s : State) (d code unit : Nat) (time : Stamp) (sub : Nat) (data : List Byte) : State :=
  let e : Ev := ⟨code, unit, time.toNat, padTo 16 data, sub, false⟩
  if evTransits s d e then { s with host := { s.host with transit := s.host.transit ++ [⟨d, e⟩] } }
  else { s with host := { s.host with merge := s.host.merge ++ [e] } }

/-- Posts an event whose TIME is a coarse tick. -/
def post (s : State) (d code unit time : Nat) (data : List Byte) : State :=
  postStamp s d code unit (stampOf time) 0 data

/-! ## Completions (R80, R85, R86) -/

/-- The depth of a ring from its LOG2_DEPTH. -/
def ringDepth (log2 : Nat) : Nat := 2 ^ log2

/-- The states of a ring's STATE field (R72). -/
def rsDisabled : Nat := 0
def rsRunning : Nat := 1
def rsDraining : Nat := 2
def rsError : Nat := 3

/-- A port's link is in L0 (HST_PORT_ID.LINK_GT is not 0). -/
def linkUp (s : State) (p : Nat) : Bool := getF s p fHstPortIdLinkGt ≠ 0

/-- A ring's base address from its register pair. -/
def pairAddr (s : State) (d lo hi : Nat) : Nat := (reg s d hi).toNat * 2 ^ 32 + (reg s d lo).toNat

/-- The ticks of an IRQ_TIME or FLUSH code: 2^(n-1) µs (R95, R93, R617). -/
def codeTicks (n : Nat) : Nat := 2 ^ (n - 1) * usTicks

/-- Counts one entry of a moderated ring: raises the vector when IRQ_COUNT is reached, else starts the timer (R95). -/
def moderate (s : State) (p : Nat) (ctl : W32) (n : Nat) (t : Option Nat) : (Nat × Option Nat) × State :=
  let en := bitAt ctl.toNat 31
  let cnt := max 1 (bits ctl.toNat 12 8)
  if en && cnt ≤ n + 1 then ((0, none), raiseIrq s p (bits ctl.toNat 20 11))
  else ((n + 1, if t.isSome then t else some s.now), s)

/-- The 32 bytes of a completion entry (R85). -/
def cplBytes (tag : W32) (status : Nat) (phase late : Bool) (result : List Byte) (time : Nat) : List Byte :=
  leBytes 4 tag.toNat ++ leBytes 2 status ++ leBytes 2 (b2n phase + 2 * b2n late) ++ padTo 16 (result.take 16) ++
    leBytes 8 (time % 2 ^ 56 * 256)

/-- A completion of the ring pair is discarded: the pair is DISABLED, or its completion ring put it in ERROR (R75). -/
def cplGone (s : State) (p n : Nat) : Bool := getF s p (fHstCrStatState n) = rsDisabled || (cplRing s p n).err

/-- Writes a command's completion (R85): discarded when its ring pair takes none or its port has no link (R67, R75,
R86), and not written for QUIET and SUCCESS (R77). -/
def writeCpl (s : State) (c : Cmd) (status : Nat) (late : Bool) (result : List Byte) (time : Nat) : State :=
  let p := c.port
  let n := c.ring
  if cplGone s p n || !linkUp s p then s
  else if bitAt c.flags 2 && status = 0 then s
  else
    let q := cplRing s p n
    let ctl := reg s p (rHstCqCtl n)
    let base := pairAddr s p (rHstCqBaseLo n) (rHstCqBaseHi n)
    let s1 := hostWrite s p (base + 32 * q.prod) (cplBytes c.tag status q.phase late result time)
    let last := q.prod + 1 = ringDepth (bits ctl.toNat 0 5)
    let m := if bitAt c.flags 4 then ((q.irqN, q.irqAt), s1) else moderate s1 p ctl q.irqN q.irqAt
    setCplRing m.2 p n ⟨if last then 0 else q.prod + 1, q.cons, if last then !q.phase else q.phase, m.1.1, m.1.2, q.err⟩

/-! ## Guards of event rows -/

/-- The device is held in reset by RESET_N or shut down, and nothing happens on its dies (R564, R598). -/
def off (s : State) : Bool := s.pwr.held || s.pwr.down

/-- A step on die `d`; the fitted part has it (R3). -/
def onDie (d : Nat) (s : State) (f : State → State) : Out :=
  if d < nDies s then .next (if off s then s else f s) else .fault .absentUnit

/-- A step that happens only under its condition; where the condition does not hold the event has not happened and
nothing changes (log entry 4). -/
def whenB (b : Bool) (s : State) (f : State → State) : State := if b then f s else s

end Sys2Proof.Machine
end

