-- ==== Sys2Proof/Machine/Envelope.lean ====
section
/-!
DEFINITION. CRC-32C, marks, and block envelopes written out (R181 to R198).
-/

namespace Sys2Proof.Machine

/-! ## CRC-32C (R196) -/

/-- One bit of the reflected CRC-32C, polynomial 0x1EDC6F41 (reflected 0x82F63B78). -/
def crcBit (c : W32) : W32 := if c.getLsbD 0 then (c >>> 1) ^^^ 0x82F63B78 else c >>> 1

/-- One byte into the CRC register. -/
def crcByte (c : W32) (b : Byte) : W32 :=
  crcBit (crcBit (crcBit (crcBit (crcBit (crcBit (crcBit (crcBit (c ^^^ b.setWidth 32))))))))

/-- Bytes into the CRC register. -/
def crcUpdate : W32 → List Byte → W32
  | c, [] => c
  | c, b :: r => crcUpdate (crcByte c b) r

/-- The CRC-32C of a byte string (R196). -/
def crc32c (p : List Byte) : W32 := crcUpdate 0xFFFFFFFF p ^^^ 0xFFFFFFFF

/-! ## Words and marks (R181 to R187) -/

/-- The nine stored bytes of a word (R181). -/
def wordBytes (w : CWord) : List Byte := leBytes 8 w.pay.toNat ++ [w.side]

/-- The word as 72 bits. -/
def wordBits (w : CWord) : BitVec 72 := w.side ++ w.pay

/-- A DATA or CTRL word: KIND, SYNC, ERR, LAST and payload (R182). -/
def dataWord (kind sync : Nat) (e : Bool) (last : Nat) (pay : W64) : CWord :=
  ⟨pay, BitVec.ofNat 8 (kind % 4 * 64 + sync % 4 * 16 + b2n e * 8 + last % 8), false⟩

/-- A MARK word: code, data, ORIGIN and QUAL (R182, R185). -/
def markWord (code data origin qual : Nat) : CWord :=
  ⟨BitVec.ofNat 64 (code % 256 * 2 ^ 56 + data % 2 ^ 56), BitVec.ofNat 8 (128 + origin % 4 * 16 + qual % 16), true⟩

/-- The rank of a mark code among entries of equal time (R187); words come last. -/
def markRank : Nat → Nat
  | 0x03 => 0
  | 0x02 => 1
  | 0x04 => 2
  | 0x07 => 3
  | 0x06 => 4
  | 0x05 => 5
  | 0x08 => 6
  | 0x0A => 7
  | 0x09 => 8
  | 0x10 => 9
  | 0x20 => 10
  | 0x21 => 11
  | 0x01 => 12
  | _ => 13

/-- MK_TIME for an entry's stamp. -/
def mkTime (t : Stamp) : CWord := markWord 0x01 (coarse t) 0 0

/-- MK_GAP with a cause, marks dropped and words dropped, both saturating. -/
def mkGap (cause words marks : Nat) : CWord :=
  markWord 0x03 (min marks 0xFFFF * 2 ^ 40 + min words (2 ^ 40 - 1)) 0 cause

/-- MK_TIME_STEP: the signed step saturated to ±(2^55 − 1), and SAT when it was (R185). -/
def mkTimeStep (step : Int) (cause : Nat) : CWord :=
  let lim : Int := 2 ^ 55 - 1
  let v := max (-lim) (min step lim)
  markWord 0x02 (unsgn 56 v) 0 (cause * 2 + b2n (v ≠ step))

/-! ## Envelopes (R195) -/

/-- The positions of MARK words among an envelope's entries. -/
def markPositions : Nat → List CWord → List Nat
  | _, [] => []
  | i, w :: r => if w.mark then i :: markPositions (i + 1) r else markPositions (i + 1) r

/-- The FLAGS of an envelope (R195). -/
def envFlags (e : Env) : Nat :=
  e.format % 8 + 8 * b2n e.segFirst + 16 * b2n e.segLast + 32 * b2n e.trigPos.isSome + 64 * b2n e.stale +
    128 * b2n e.flushed

/-- The TFLAGS of an envelope (R195). -/
def envTflags (e : Env) (marks : Nat) : Nat :=
  min e.marksLost 255 + 256 * b2n (e.format = 0 && 12 < marks) + 512 * b2n e.truncated

/-- The mark index: twelve positions, unused entries 0xFFFF. -/
def markIndex (ps : List Nat) : List Byte :=
  (ps.take 12).flatMap (leBytes 2) ++ List.replicate (24 - 2 * min 12 ps.length) 0xFF

/-- Bytes 0 to 4091 of an envelope. -/
def envBody (e : Env) : List Byte :=
  let ps := markPositions 0 e.words
  let u := uid (e.stream / 128) clStream (e.stream % 128)
  leBytes 2 0x4B4E ++ leBytes 2 e.stream ++ leBytes 6 e.seq ++ leBytes 2 e.words.length ++ leBytes 2 ps.length ++
    leBytes 2 (envFlags e) ++ leBytes 8 e.first.toNat ++ leBytes 4 u ++ leBytes 4 e.seg ++
    padTo 4032 (e.words.flatMap wordBytes) ++ markIndex ps ++ leBytes 2 (envTflags e ps.length) ++
    leBytes 2 (e.trigPos.getD 0xFFFF)

/-- The 4,096 bytes of an envelope (R195, R196). -/
def envBytes (e : Env) : List Byte := envBody e ++ leBytes 4 (crc32c (envBody e)).toNat

/-- An empty envelope of a stream. -/
def newEnv (stream format seg : Nat) (first : Stamp) : Env :=
  ⟨stream, 0, format, first, [], [], seg, false, false, none, false, false, 0, false⟩

end Sys2Proof.Machine
end

