-- ==== Sys2Proof/Machine/Flight.lean ====
section
/-!
DEFINITION. How a command runs: the checks before it starts (R78), groups (R48 to R50), scheduling (R79 to R82), and
its completion when every unit has finished.
-/

namespace Sys2Proof.Machine

/-! ## Flights -/

def findFlight (s : State) (id : Nat) : Option Flight := s.host.flights.find? fun f => f.id == id

def setFlight (s : State) (f : Flight) : State :=
  { s with host := { s.host with flights := s.host.flights.map fun g => if g.id = f.id then f else g } }

def dropFlight (s : State) (id : Nat) : State :=
  { s with host := { s.host with flights := s.host.flights.filter fun g => g.id != id } }

/-- The commands whose result always has the layout of R50. -/
def r50Op (op : Nat) : Bool := op ∈ [0x0003, 0x0004, 0x0005, 0x0010, 0x0011, 0x0012, 0x0013]

/-- The commands that define a result of their own. -/
def ownResultOp (op : Nat) : Bool :=
  op ∈ [0x0001, 0x0002, 0x0014, 0x0101, 0x0104, 0x0105, 0x0107, 0x0205, 0x0301, 0x0306, 0x030C, 0x0402, 0x040B,
    0x0501, 0x0602, 0x0604, 0x0801, 0x0802, 0x0805, 0x0902, 0x0903, 0x0905, 0x0A01, 0x0B06, 0x0B07, 0x0C05,
    0x0D01, 0x0D02, 0x0D03, 0x0E01, 0x0E02, 0x0E03, 0x0F01]

/-- The result of R50. -/
def r50Result (succ att worst fl : Nat) : List Byte := leBytes 4 succ ++ leBytes 4 att ++ leBytes 4 worst ++ leBytes 4 fl

/-- The result bytes a finished command reports.  What an opcode with a result of its own reports to a group is not
stated: a free value (log entry 2). -/
def flightResult (s : State) (f : Flight) : List Byte × State :=
  if r50Op f.op || (f.group && !ownResultOp f.op) then
    (r50Result f.succeeded f.attempted (if f.worst = 0 then 0xFFFFFFFF else f.worstUnit) f.rflags, s)
  else if f.group then
    let a := drawFree s
    let b := drawFree a.2
    (leBytes 8 a.1.toNat ++ leBytes 8 b.1.toNat, b.2)
  else (f.result, s)

/-- Completes a flight: the completion is written, unless its port lost its link or was reset meanwhile (R67, R86), and
the flight is gone. -/
def finishFlight (s : State) (f : Flight) (st : Nat) : State :=
  let r := flightResult s f
  if f.discard then dropFlight r.2 f.id else writeCpl (dropFlight r.2 f.id) f.cmd st f.late r.1 f.time

/-- The commands fetched from a port run to their end, and their completions are discarded (R67, R86). -/
def discardPort (s : State) (p : Nat) : State :=
  { s with host := { s.host with flights := s.host.flights.map fun f =>
    if f.cmd.port = p then { f with discard := true } else f } }

/-- A unit of a flight has finished with a status, result flags (R50), result bytes and the tick of its last effect.
When it was the last, or a failure under policy STOP (R49), the command completes. -/
def unitDone (s : State) (fid u st fl : Nat) (res : List Byte) (time : Nat) : State :=
  match findFlight s fid with
  | none => s
  | some f =>
    if !(f.waits.contains u) then s
    else
      let idx := fun x => (firstIdx (· == x) f.units).getD 0
      let worse := f.worst < st || (st = f.worst && st ≠ 0 && idx u < idx f.worstUnit)
      let f1 := { f with
        waits := f.waits.erase u
        todo := if f.stop && 0x100 ≤ st then [] else f.todo
        succeeded := f.succeeded + b2n (st = 0)
        worst := if worse then st else f.worst
        worstUnit := if worse then u else f.worstUnit
        rflags := f.rflags ||| fl
        result := res
        time := time
        acted := f.acted || st = 0 }
      if f1.waits.isEmpty && f1.todo.isEmpty then finishFlight s f1 f1.worst else setFlight s f1

/-- The unit of every flight in a list finishes alike. -/
def unitsDone (s : State) (u st : Nat) (time : Nat) : List Nat → State
  | [] => s
  | fid :: r => unitsDone (unitDone s fid u st 0 [] time) u st time r

/-! ## Groups (R48) -/

/-- The units reached from an ID, depth first, repeats included. -/
def expandAll (s : State) : Nat → Nat → List Nat
  | 0, _ => []
  | n + 1, u =>
    if isGroup u then
      match groupOf s (bits u 0 16) with
      | some g => g.members.flatMap (expandAll s n)
      | none => []
    else [u]

/-- Keeps the first position of each element. -/
def dedup : List Nat → List Nat → List Nat
  | _, [] => []
  | seen, x :: r => if seen.contains x then dedup seen r else x :: dedup (x :: seen) r

/-- The expansion of a unit or group (R48); groups nest at most 1,024 deep (R46, R47). -/
def expansion (s : State) (u : Nat) : List Nat := dedup [] (expandAll s 1026 u)

/-! ## Locks (R498) -/

/-- The lock bit under whose class a command falls (R498). -/
def lockBit (op : Nat) : Option Nat :=
  if op ∈ [0x0401, 0x0402, 0x0403, 0x0404, 0x0405, 0x0409, 0x040A] then some 0
  else if op ∈ [0x0101, 0x0102, 0x0103, 0x0701, 0x0702] then some 1
  else if op ∈ [0x0501, 0x0502, 0x0505, 0x0601, 0x0602] then some 2
  else if op ∈ [0x0801, 0x0802, 0x0901, 0x0A01] then some 3
  else none

/-- The die a command's target lies on; groups and the package are of die 0. -/
def targetDie (u : Nat) : Nat := if isGroup u then 0 else uDie u

/-- Lock bit `b` of die `d` is set. -/
def lockSet (s : State) (d b : Nat) : Bool := bitAt (getF s d fCfgLockClasses) b

/-- The command is locked on the die of unit `u`. -/
def cmdLocked (s : State) (op u : Nat) : Bool :=
  match lockBit op with
  | none => false
  | some b => lockSet s (targetDie u) b

/-! ## Running a command -/

/-- What issuing a command to one unit gave: finished with a status, result bytes and result flags; an outcome awaited,
with its effect begun; or an outcome awaited before any effect (R85). -/
inductive Res where
  | done (st : Nat) (res : List Byte) (fl : Nat)
  | wait
  | pend
  deriving DecidableEq, Repr

/-- Success without a result. -/
def ok : Res := .done 0 [] 0

/-- Failure without a result. -/
def err (st : Nat) : Res := .done st [] 0

/-- What the spec says of one command: its opcode, the classes and indices it is defined for (check 4 of R78; a group
itself counts as class 0x40), whether it acts on a group as such, when its payload is valid (check 5), and its effect
on one unit.  The effect is given the command, its flight's number and the unit. -/
structure CmdDef where
  op : Nat
  cls : Nat → Nat → Bool
  onGroup : Bool
  payOk : State → Cmd → Bool
  eff : Cmd → Nat → Nat → State → State × Res

/-- The class a unit ID counts as for check 4. -/
def classOk (df : CmdDef) (u : Nat) : Bool := if isGroup u then df.cls 0x40 0 else df.cls (uCls u) (uIdx u)

/-- Issues the command to one unit: a derived stream deleted since the expansion gets it all the same (DESIGN CHOICE, log
entry 136); LOCKED (R498), UNIT_FAULTED (R38), or its effect. -/
def issueOne (df : CmdDef) (c : Cmd) (fid u : Nat) (s : State) : State × Res :=
  if cmdLocked s df.op u then (s, err stLocked)
  else if !isGroup u && pwOf s u == .fault && !(df.op = 0x0002 || df.op = 0x0005) then (s, err stUnitFaulted)
  else df.eff c fid u s

/-- The tick of a unit's die (R81, R85); of die 0 where the ID names no fitted die. -/
def unitTime (s : State) (u : Nat) : Nat := dieTime s (if targetDie u < nDies s then targetDie u else 0)

/-- A unit has begun what its command asks: that is the command's last effect so far (R85). -/
def actedOn (s : State) (fid u : Nat) : State :=
  match findFlight s fid with
  | some f => if f.waits.contains u then setFlight s { f with acted := true, time := unitTime s u } else s
  | none => s

/-- A command of a ring takes effect on a unit now; effects of earlier ticks are forgotten (R79). -/
def noteEffect (s : State) (c : Cmd) (u : Nat) : State :=
  { s with host := { s.host with
    effects := ⟨s.now, c.port, c.ring, u⟩ :: s.host.effects.filter fun e => e.tick == s.now } }

/-- Issues the units of a flight in order (R49); under policy STOP it waits for each outcome before the next. -/
def issueUnits (df : CmdDef) (fid : Nat) : List Nat → State → State
  | [], s =>
    match findFlight s fid with
    | some f => if f.waits.isEmpty && f.todo.isEmpty then finishFlight s f f.worst else s
    | none => s
  | u :: r, s =>
    match findFlight s fid with
    | none => s
    | some f =>
      if f.todo.isEmpty || (f.stop && !f.waits.isEmpty) then s
      else
        let s1 := setFlight (noteEffect s f.cmd u) { f with todo := r, waits := f.waits ++ [u], attempted := f.attempted + 1 }
        let x := issueOne df f.cmd fid u s1
        let s2 := match x.2 with
          | .done st res fl => unitDone x.1 fid u st fl res (if f.acted && st ≠ 0 then f.time else unitTime x.1 u)
          | .wait => actedOn x.1 fid u
          | .pend => x.1
        issueUnits df fid r s2

/-- Starts or resumes a flight's units. -/
def runFlight (df : CmdDef) (fid : Nat) (s : State) : State :=
  match findFlight s fid with
  | some f => issueUnits df fid f.todo s
  | none => s

/-- A command that fails before it is issued to any unit: its result is R50's with counts 0 where the opcode or a
group gives that layout, else 0. -/
def failCmd (df : CmdDef) (c : Cmd) (st : Nat) (s : State) : State :=
  let res := if r50Op df.op || (isGroup c.unit && !ownResultOp df.op) then r50Result 0 0 c.unit 0 else []
  writeCpl s c st false res (unitTime s c.unit)

/-- Check 2 of R78: reserved FLAGS bits and APPLY_AT bits [7:0] are 0. -/
def flagsOk (c : Cmd) : Bool := c.flags < 32 && c.applyAt % 256 = 0

/-- The first failed check of R78 numbers 2 to 5. -/
def checkCmd (df : CmdDef) (c : Cmd) (s : State) : Option Nat :=
  if !flagsOk c then some stBadPayload
  else if !idFormOk c.unit then some stBadUnitId
  else if !unitPresent s c.unit then some stUnitAbsent
  else if !(if df.onGroup && isGroup c.unit then classOk df c.unit
      else (expansion s c.unit).all fun u => classOk df u) then some stBadClass
  else if !df.payOk s c then some stBadPayload
  else none

/-- The units a command acts on: the expansion, or the group itself for a command about groups, which R50's counts then
count as one unit (DESIGN CHOICE, log entry 136). -/
def cmdUnits (df : CmdDef) (c : Cmd) (s : State) : List Nat :=
  if df.onGroup && isGroup c.unit then [c.unit] else expansion s c.unit

/-- The group policy that governs a command (R49). -/
def policyStop (s : State) (u : Nat) : Bool :=
  isGroup u && (match groupOf s (bits u 0 16) with | some g => g.stop | none => false)

/-- Physical deadline of TIMEOUT counted from a tick (R83, R617). -/
def deadlineFrom (c : Cmd) (t : Nat) : Option Nat := if c.timeout = 0 then none else some (t + c.timeout * usTicks)

/-- Scheduled commands waiting (R82). -/
def schedCount (s : State) : Nat := (s.host.flights.filter fun f => f.sched.isSome).length

/-- Enters a flight for a command that starts now. -/
def newFlight (df : CmdDef) (c : Cmd) (units : List Nat) (sched : Option Nat) (late : Bool) (s : State) : State :=
  let f : Flight := {
    id := s.host.nextId, op := df.op, cmd := c, group := isGroup c.unit && !df.onGroup, stop := policyStop s c.unit
    sched := sched, deadline := deadlineFrom c (sched.getD s.now), units := units, todo := units, waits := []
    attempted := 0, succeeded := 0, worst := 0, worstUnit := 0xFFFFFFFF, rflags := 0, result := [], late := late
    time := unitTime s (units.headD c.unit), acted := false, discard := false }
  { s with host := { s.host with flights := s.host.flights ++ [f], nextId := s.host.nextId + 1 } }

/-- The command names one unit, and it is locked there (R498). -/
def targetLocked (df : CmdDef) (c : Cmd) (s : State) : Bool := !isGroup c.unit && cmdLocked s df.op c.unit

/-- Starts a command that has passed its checks: at once, at its APPLY_AT (R81), or not at all (R82, R498). -/
def startChecked (df : CmdDef) (c : Cmd) (s : State) : State :=
  let units := cmdUnits df c s
  let fid := s.host.nextId
  if targetLocked df c s then failCmd df c stLocked s
  else if c.applyAt = 0 then runFlight df fid (newFlight df c units none false s)
  else
    let t := c.applyAt / 256
    let ahead := tickDiff t (unitTime s (units.headD c.unit))
    if tickDiff t (dieTime s 0) > 2 ^ 31 then failCmd df c stApplyTooFar s
    else if 0 < ahead then
      if 1024 ≤ schedCount s then failCmd df c stBusy s
      else newFlight df c units (some (s.now + ahead.toNat)) false s
    else if ahead < 0 && bitAt c.flags 3 then failCmd df c stTooLate s
    else runFlight df fid (newFlight df c units none (ahead < 0) s)

/-- A command starts: checks, then effect (R78). -/
def beginCmd (df : CmdDef) (c : Cmd) (s : State) : State :=
  match checkCmd df c s with
  | some st => failCmd df c st s
  | none => startChecked df c s

/-- The completion ring has a free slot for one more command: entries not consumed and commands not completed stay
below the depth (R72, R80).  A pair that takes no completion fills no slot. -/
def cplFree (s : State) (p n : Nat) : Bool :=
  let q := cplRing s p n
  let dep := ringDepth (getF s p (fHstCqCtlLog2Depth n))
  let open_ := (s.host.flights.filter fun f => f.cmd.port = p && f.cmd.ring = n).length
  cplGone s p n || (q.prod + dep - q.cons) % dep + open_ + 1 < dep

/-- No ORDERED command stands in the way (R77): an ORDERED command starts only when no earlier command of its ring is
open, and no other starts while an ORDERED one is open. -/
def orderOk (s : State) (c : Cmd) : Bool :=
  s.host.flights.all fun f => !(f.cmd.port = c.port && f.cmd.ring = c.ring) || !(bitAt c.flags 1 || bitAt f.cmd.flags 1)

/-- A scheduled command takes effect before one that starts now on the same unit (R79): it is due earlier, or at this tick
from an earlier place of the ring, a lower die, or a lower ring of the same die. -/
def schedFirst (s : State) (c : Cmd) : Bool :=
  s.host.flights.any fun f => (match f.sched with
    | some t => (t < s.now || (t = s.now && (f.cmd.port < c.port || (f.cmd.port = c.port && f.cmd.ring ≤ c.ring)))) &&
        (expansion s c.unit).any fun u => f.units.contains u
    | none => false)

/-- A command of a higher die or ring has taken effect at this tick on a unit of the command: those of one tick come in
ascending order of die and ring, so this one does not start in that tick any more (R79). -/
def placePassed (s : State) (c : Cmd) : Bool :=
  s.host.effects.any fun e => e.tick == s.now && (c.port < e.port || (c.port = e.port && c.ring < e.ring)) &&
    (e.unit = c.unit || (expansion s c.unit).contains e.unit)

/-- A command scheduled at or before a tick for a unit of the die has not taken effect yet. -/
def schedDue (s : State) (d t : Nat) : Bool :=
  s.host.flights.any fun f => (match f.sched with | some a => a ≤ t && f.units.any fun u => uDie u = d | none => false)

/-- The order of R79 does not let the command start now. -/
def dueFirst (s : State) (c : Cmd) : Bool := schedFirst s c || placePassed s c

/-- A Shutter event on its way is the source of a strobe that applies by tick `t` (R490). -/
def strobeComing (s : State) (t : Nat) : Bool :=
  s.sht.events.any fun e => (e.phys + 112 * 256 + 255) / 256 ≤ t &&
    (List.range 2).any fun n => flagF s 0 (fUpdSrcEn n) && getF s 0 (fUpdSrcEvent n) = e.id

/-- A strobe of this tick or an earlier one has still to apply, so neither a write is accepted nor a command takes effect:
a strobe takes the shadows as they stand at the start of its tick, and comes before the commands of that tick (R491, R492). -/
def strobeFirst (s : State) : Bool :=
  strobeComing s s.now || s.strobes.any fun x => !x.held && x.applyAt ≤ s.now &&
    x.dies.any fun d => !(dieClk s d).holding || !x.deferred.contains d

/-- A host command's row: the device has read the command and starts it.  Before EV_READY no command is fetched
(R66), nor while the completion ring is full (R80), ORDERED holds the ring (R77), the order of R79 does not let it start, or a
strobe of the tick comes first (R492): nothing happens. -/
def startCmd (df : CmdDef) (c : Cmd) (s : State) : Out :=
  .next (if s.ready && cplFree s c.port c.ring && orderOk s c && !dueFirst s c && !strobeFirst s then beginCmd df c s else s)

/-- The payload suits some unit of the target, or the target is an empty group (R50, R78): where it suits no unit, the
command fails check 5, and where it suits only some, the others fail at its effect. -/
def fitsSome (s : State) (c : Cmd) (f : Nat → Bool) : Bool :=
  (expansion s c.unit).isEmpty || (expansion s c.unit).any f

/-- Payload checks shared by many commands: bytes `k` to the end are 0. -/
def restZero (k : Nat) (_ : State) (c : Cmd) : Bool := restOk c k

/-- The target is of one class, any index. -/
def onClass (cl : Nat) (c _i : Nat) : Bool := c == cl

end Sys2Proof.Machine
end

