-- ==== Sys2Proof/Machine/Stream.lean ====
section
/-!
DEFINITION. Capture streams at work: the look-back buffer, commitment into envelopes, drops, rate limits, stops, and
Exposure segments (R187 to R219).
-/

namespace Sys2Proof.Machine

/-! ## Look-back (R187, R192, R194) -/

/-- Order of entries: place in time, then rank, then the order within the rank (R187). -/
def entryBefore (a b : Entry) : Bool :=
  a.phys < b.phys || (a.phys = b.phys && (a.rank < b.rank || (a.rank = b.rank && a.sub < b.sub)))

/-- Sorts an entry into a look-back buffer, after its equals. -/
def lookInsert (e : Entry) : List Entry → List Entry
  | [] => [e]
  | x :: r => if entryBefore e x then e :: x :: r else x :: lookInsert e r

/-- Samples in one word of a sample format (R184). -/
def perWord (format : Nat) : Nat := if format = 1 then 9 else 2

/-- Marks in a look-back buffer; an event that only triggers is none. -/
def lookMarks (l : List Entry) : Nat := (l.filter fun e => e.word.mark && e.written).length

/-- The mark space of a look-back buffer (R194). -/
def markSpace : Nat := 128

/-- The unit ID of stream `i` of die `d`. -/
def streamUid (d i : Nat) : Nat := uid d clStream i

/-- A stream is an Exposure stream. -/
def isExpo (i : Nat) : Bool := i = 16 || i = 17

/-- The stream has an armed segment. -/
def armed (x : Stream) : Bool := x.state == .filling || x.state == .ready || x.state == .post || x.state == .rearm

/-- The look-back buffer runs: of a configured Roll or derived stream whose unit is AWAKE (R200) or that still stops for
its sleep (R180), or of an armed Exposure stream. -/
def lookRuns (s : State) (d i : Nat) : Bool :=
  let x := streamOf s d i
  if isExpo i then armed x else x.state == .rolling || (x.state != .unconfigured && awake s (streamUid d i))

/-- An entry of a look-back belongs to its stream's capture (R200, R206). -/
def belongs (x : Stream) (e : Entry) : Bool :=
  x.state == .rolling && x.tStart ≤ e.phys / 256 && (match x.tStop with | some t => e.phys / 256 < t | none => true)

/-- The words that lost samples would have filled: MK_GAP counts words (R185; DEDUCED, log entry 125). -/
def lostWords (x : Stream) (n : Nat) : Nat := (n + perWord x.format - 1) / perWord x.format

/-- MK_GAP for what a clock fault or an HPLL loss discarded (R163, R219); it waits while the mark space is full, so that its count
reaches the stream (R206). -/
def gapMark (x : Stream) (i : Nat) : Option (CWord × Stamp) :=
  if markSpace ≤ lookMarks x.look then none
  else x.gap.map fun g => (mkGap g.1 (if isExpo i then lostWords x g.2.1 else g.2.1) 0, g.2.2)

/-- A mark finds the mark space of a look-back full: it is dropped, and counted if it belongs to the stream (R194, R206); of
an Exposure stream the MK_GAP of a stored segment counts it.  A trigger still acts. -/
def lookFull (x : Stream) (i : Nat) (e : Entry) : Stream :=
  if isExpo i || belongs x e then
    { x with
      dropMarks := if isExpo i then x.dropMarks else x.dropMarks + 1
      lbLost := x.lbLost + 1, lbTime := if x.lbLost = 0 then e.time else x.lbTime
      look := if e.ev ≠ 0 && x.trigMask.getLsbD (e.ev - 1) then lookInsert { e with written := false } x.look else x.look }
  else x

/-- Puts an entry into a stream's look-back (R192, R194). -/
def lookAdd (s : State) (d i : Nat) (e : Entry) : State :=
  if !lookRuns s d i then s
  else
    let x := streamOf s d i
    setStream s d i (
      if e.word.mark && e.written && markSpace ≤ lookMarks x.look then lookFull x i e
      else { x with look := lookInsert e x.look })

/-- An entry for a mark word at a time. -/
def markEntry (s : State) (d : Nat) (w : CWord) (code sub : Nat) (t : Stamp) : Entry :=
  ⟨t, physFine s d t, markRank code, sub, w, false, false, 0, true⟩

/-- Writes a mark into a stream. -/
def addMark (s : State) (d i code data origin qual : Nat) (t : Stamp) : State :=
  lookAdd s d i (markEntry s d (markWord code data origin qual) code 0 t)

/-- The pending MK_GAP of a stream enters its look-back. -/
def putGap (s : State) (d i : Nat) : State :=
  let x := streamOf s d i
  match gapMark x i with
  | some (w, t) => lookAdd (setStream s d i { x with gap := none }) d i (markEntry s d w 0x03 0 t)
  | none => s

/-- A capture word reaches a Roll stream's look-back. -/
def addWord (s : State) (d i : Nat) (w : CWord) (t : Stamp) : State :=
  lookAdd s d i ⟨t, physFine s d t, 13, 0, w, false, false, 0, true⟩

/-- A sample reaches an Exposure stream's look-back; in a stale interval, with its strip's number. -/
def addSample (s : State) (d i : Nat) (v : Nat) (stale : Option Nat) (t : Stamp) : State :=
  lookAdd s d i ⟨t, physFine s d t, 13, stale.getD 0, ⟨BitVec.ofNat 64 v, 0, false⟩, true, stale.isSome, 0, true⟩

/-- Every stream of a die takes a step. -/
def eachStream (f : Nat → State → State) : State → State :=
  fun s => (List.range 96).foldl (fun s i => f i s) s

/-- MK_TIME_STEP into every capture stream of a die (R155); a step of 0 makes no mark. -/
def stepMarks (s : State) (d : Nat) (step : Int) (cause : Nat) : State :=
  if step = 0 then s
  else eachStream (fun i s => lookAdd s d i (markEntry s d (mkTimeStep step cause) 0x02 0 (nowStamp s d))) s

/-! ## Spool and envelopes (R197, R199, R204, R207) -/

def undelivered (x : Stream) : Nat := x.spool.length - x.ndeliv

/-- Posts EV_SPOOL_LEVEL when the undelivered envelopes rise to LEVEL_HI or fall to LEVEL_LO percent (R207). -/
def levelEvents (s : State) (d i before after : Nat) : State :=
  let x := streamOf s d i
  let ev := fun (s : State) (w : Nat) => post s d 0x0303 (streamUid d i) (dieTime s d) (leBytes 4 after ++ leBytes 1 w)
  if x.lvlHi ≠ 0 && before * 100 < x.lvlHi * x.slots && x.lvlHi * x.slots ≤ after * 100 then ev s 1
  else if x.lvlLo ≠ 0 && x.lvlLo * x.slots < before * 100 && after * 100 ≤ x.lvlLo * x.slots then ev s 2
  else s

/-- Makes a slot free, overwriting the oldest delivered envelope beyond RETAIN when all slots are in use (R204). -/
def takeSlot (x : Stream) : Option Stream :=
  if x.spool.length < x.slots then some x
  else if x.retain < x.ndeliv && x.slots ≠ 0 then some { x with spool := x.spool.drop 1, ndeliv := x.ndeliv - 1 }
  else none

/-- Slots free for a reservation (R204, R216). -/
def freeSlots (x : Stream) : Nat := x.slots - (x.spool.length - (x.ndeliv - min x.ndeliv x.retain))

/-- Bits of one sample. -/
def sampleBits (format : Nat) : Nat := if format = 1 then 8 else 36

/-- The least number of samples in a full envelope (R216). -/
def nMin (format : Nat) : Nat := if format = 1 then 3924 else 872

def ceilDiv (a b : Nat) : Nat := (a + b - 1) / b

/-- The number of Shutter counter set of an Exposure stream: 0 for stream 16, 1 for 17. -/
def expoIdx (i : Nat) : Nat := i - 16

/-- Envelopes one segment reserves (R216): one more for its measurement. -/
def reservation (x : Stream) (m : MeasCfg) : Nat :=
  ceilDiv x.pre (nMin x.format) + ceilDiv x.post (nMin x.format) + 2 + b2n m.enable

/-- The state holds samples of a segment. -/
def inSegment (x : Stream) : Bool := x.state == .filling || x.state == .ready || x.state == .post

/-- Slots free for a further segment: what the one under way and closed ones still reserve is not free (R214, R348). -/
def roomFor (x : Stream) : Nat :=
  freeSlots x - (x.closing.foldl (fun n k => n + k.hold) 0 + if inSegment x then reservation x x.seg.meas else 0)

/-- The spool of a stream has room for what the stream needs next: of an Exposure stream a segment's reservation. -/
def roomy (s : State) (d i : Nat) (x : Stream) : Bool :=
  !isExpo i || reservation x (measOf s d (expoIdx i)) ≤ roomFor x

/-- Replaces a stream whose spool may have gained room; the tick at which a reservation first fits is kept (R214). -/
def setSpool (s : State) (d i : Nat) (y : Stream) : State :=
  setStream s d i (if !roomy s d i (streamOf s d i) && roomy s d i y then { y with spaceAt := s.now } else y)

/-- `n` envelopes count as delivered (R204). -/
def countDelivered (s : State) (d i n : Nat) : State :=
  let x := streamOf s d i
  let u := undelivered x
  levelEvents (setSpool s d i { x with ndeliv := x.ndeliv + n, delivered := x.delivered + n, pos := 0 }) d i u (u - n)

/-- Forms an envelope: it takes the next sequence number and enters the spool (R197). -/
def formEnv (s : State) (d i : Nat) (e : Env) : State :=
  let x := streamOf s d i
  let n := undelivered x
  let s1 := setStream s d i { x with
    spool := x.spool ++ [{ e with seq := x.seqNext }], seqNext := (x.seqNext + 1) % 2 ^ 48 }
  let s2 := levelEvents s1 d i n (n + 1)
  if n = 0 && e.words.length ≤ x.pos then countDelivered s2 d i 1 else s2

/-- Closes a Roll stream's open envelope, if any. -/
def closeEnv (s : State) (d i : Nat) (flushed : Bool) : State :=
  let x := streamOf s d i
  match x.openEnv with
  | none => s
  | some e => formEnv (setStream s d i { x with openEnv := none }) d i { e with flushed := flushed }

/-- Puts an entry into the open envelope, or into a new one when a slot is free; none when there is neither.  A
thirteenth mark of an envelope in a sample format is dropped and counted (R198, R308). -/
def putRaw (s : State) (d i : Nat) (w : CWord) (t : Stamp) : Option State :=
  let x := streamOf s d i
  let x1 := match x.openEnv with
    | some _ => some x
    | none => (takeSlot x).map fun (y : Stream) => { y with openEnv := some (newEnv (key d i) y.format 0 t), openedAt := s.now }
  match x1 with
  | none => none
  | some y =>
    match y.openEnv with
    | none => none
    | some e =>
      if y.format ≠ 0 && w.mark && 12 ≤ (markPositions 0 e.words).length then
        some (setStream s d i { y with openEnv := some { e with marksLost := e.marksLost + 1 }, dropMarks := y.dropMarks + 1 })
      else
      let e1 := { e with words := e.words ++ [w], times := e.times ++ [t] }
      let s1 := setStream s d i { y with openEnv := some e1 }
      some (if e1.words.length = 448 then closeEnv s1 d i false else s1)

/-! ## Drops (R205) -/

/-- The words and marks that a mark counts, where it is an MK_GAP. -/
def gapOf (w : CWord) : Nat × Nat :=
  let v := w.pay.toNat
  if w.mark && bits v 56 8 = 0x03 then (bits v 0 40, bits v 40 16) else (0, 0)

/-- An entry that finds no slot is dropped or held; the first begins the drop (R205).  The MK_GAP of the drop takes over the counts
of one that is not held (R206). -/
def dropAdd (s : State) (d i : Nat) (e : Entry) : State :=
  let x := streamOf s d i
  let s1 := match x.drop with
    | some _ => s
    | none => postStamp s d 0x0304 (streamUid d i) e.time 0 (leBytes 1 1)
  let dr := x.drop.getD ⟨e.time, 0, 0, 0, []⟩
  let x1 := streamOf s1 d i
  setStream s1 d i
    (if !e.word.mark then { x1 with drop := some { dr with words := dr.words + 1 }, dropWords := x1.dropWords + 1 }
     else if dr.held.length < 64 then { x1 with drop := some { dr with held := dr.held ++ [e] } }
     else
       let g := gapOf e.word
       { x1 with drop := some { dr with words := dr.words + g.1, marks := dr.marks + g.2 + 1 }, dropMarks := x1.dropMarks + 1 })

/-- Puts one entry, or drops it when a drop is in progress or begins. -/
def putOne (s : State) (d i : Nat) (e : Entry) : State :=
  match (streamOf s d i).drop with
  | some _ => dropAdd s d i e
  | none =>
    match putRaw s d i e.word e.time with
    | some s1 => s1
    | none => dropAdd s d i e

/-- Puts a list of entries. -/
def putAll (s : State) (d i : Nat) : List Entry → State
  | [] => s
  | e :: r => putAll (putOne s d i e) d i r

/-- An MK_TIME of the stream's own: not held and not counted when there is no slot (R205). -/
def putTime (s : State) (d i : Nat) (t : Stamp) : State :=
  match (streamOf s d i).drop with
  | some _ => s
  | none => (putRaw s d i (mkTime t) t).getD s

/-- Ends a drop once a slot is free (R205): the next envelope opens with MK_GAP and both counts, then the held marks;
MK_TIME follows before the next word. -/
def resumeDrop (s : State) (d i : Nat) : State :=
  let x := streamOf s d i
  match x.drop with
  | none => s
  | some dr =>
    if (takeSlot x).isNone then s
    else
      let s1 := setStream s d i { x with drop := none, needTime := true }
      let g : Entry := ⟨dr.begin, 0, 0, 0, mkGap 0 dr.words dr.marks, false, false, 0, true⟩
      let s2 := putAll (putOne s1 d i g) d i dr.held
      postStamp s2 d 0x0304 (streamUid d i) dr.begin 0
        (leBytes 1 2 ++ leBytes 1 dr.cause ++ leBytes 6 0 ++ leBytes 8 dr.words)

/-- Envelopes become delivered: their count moves, and a drop ends if a slot is now free (R204, R205). -/
def deliverEnvs (s : State) (d i n : Nat) : State := resumeDrop (countDelivered s d i n) d i

/-- A port has taken every entry of the oldest undelivered envelope: it is delivered (R394). -/
def takeWhole (s : State) (d i : Nat) : State := deliverEnvs s d i 1

/-! ## Roll (R188, R200 to R203) -/

/-- The token bucket after filling up to a tick: tokens are kept in 1/1750 word, so RATE million words per second
adds RATE per tick (R203). -/
def bucketFill (x : Stream) (t : Nat) : Stream :=
  { x with tokens := min (x.burst * usTicks) (x.tokens + x.rate * (t - x.fillAt)), fillAt := max x.fillAt t }

/-- The mark codes that a MK_TIME follows (R188). -/
def wantsTime (w : CWord) : Bool := let c := bits w.pay.toNat 56 8; c = 0x03 || c = 0x02 || c = 0x05

/-- Commits one entry of a capturing Roll or derived stream into its spool.  MK_TIME comes before words of Roll streams as
R188 says, and before a derived stream's first word after a drop or a rate-limit gap (R203, R205). -/
def rollPut (s : State) (d i : Nat) (e : Entry) : State :=
  let s0 := resumeDrop s d i
  let x := streamOf s0 d i
  if e.word.mark then
    let s1 := putOne s0 d i e
    if i < 32 && wantsTime e.word then setStream s1 d i { streamOf s1 d i with needTime := true } else s1
  else
    let kind := bits e.word.side.toNat 6 2
    let limited := x.rate ≠ 0 && kind < 2
    let x1 := if limited then bucketFill x (e.phys / 256 + 256) else x
    if limited && x1.tokens < usTicks then
      setStream s0 d i { x1 with
        rlWords := x1.rlWords + 1, rlFirst := if x1.rlWords = 0 then e.time else x1.rlFirst
        dropWords := x1.dropWords + 1 }
    else
      let x2 := if limited then { x1 with tokens := x1.tokens - usTicks } else x1
      let s1 := setStream s0 d i { x2 with rlWords := 0 }
      let s2 := if x2.rlWords = 0 then s1
        else putOne s1 d i ⟨x2.rlFirst, e.phys, 0, 0, mkGap 1 x2.rlWords 0, false, false, 0, true⟩
      let period := coarse e.time / 2 ^ 16
      let s3 := if x2.needTime || x2.rlWords ≠ 0 || (i < 32 && x2.lastPeriod ≠ some period) then putTime s2 d i e.time else s2
      let s4 := putOne s3 d i e
      let y := streamOf s4 d i
      setStream s4 d i { y with needTime := y.drop.isSome, lastPeriod := some period }

/-- Late engine marks are written before the entry that commits next, with its time (R191). -/
def flushLate (s : State) (d i : Nat) (e : Entry) : State :=
  let x := streamOf s d i
  putAll (setStream s d i { x with lateMarks := [] }) d i
    (x.lateMarks.map fun w => ⟨e.time, e.phys, markRank 0x20, 0, w, false, false, 0, true⟩)

/-- An entry leaves the look-back of a Roll or derived stream: committed when it lies in [t_start, t_stop) of a
ROLLING stream, else gone (R200, R201). -/
def rollCommit (s : State) (d i : Nat) (e : Entry) : State :=
  if belongs (streamOf s d i) e then
    let s1 := rollPut (flushLate s d i e) d i e
    setStream s1 d i { streamOf s1 d i with lastPhys := e.phys }
  else s

/-- The data of EV_STREAM_END (R226). -/
def streamEndData (x : Stream) (reason : Nat) : List Byte :=
  leBytes 6 (if x.seqNext = 0 then 2 ^ 48 - 1 else x.seqNext - 1) ++ leBytes 1 reason

/-- Ends a stopped Roll stream once everything before t_stop is committed, the MK_GAP of discarded words with it (R206), and its
last envelope can be formed (R201):
a pending rate-limit gap is the last entry, the open envelope closes, and the stop completes. -/
def finishStop (s : State) (d i : Nat) : State :=
  let x := streamOf s d i
  match x.tStop with
  | none => s
  | some ts =>
    if (i < 32 && s.now < ts + 256) || x.gap.isSome || x.look.any (fun e => e.phys < ts * 256) then s
    else
      let s1 := resumeDrop s d i
      let x1 := streamOf s1 d i
      let last : Entry := ⟨x1.rlFirst, ts * 256, 0, 0, mkGap 1 x1.rlWords 0, false, false, 0, true⟩
      let s2 := if x1.rlWords = 0 || x1.drop.isSome then s1
        else putOne (flushLate (setStream s1 d i { x1 with rlWords := 0 }) d i last) d i last
      if (streamOf s2 d i).drop.isSome then s2
      else
        let s3 := closeEnv s2 d i false
        let y := streamOf s3 d i
        let s4 := setStream s3 d i { y with state := .idle, tStop := none, stopFids := [], endDue := y.ring.isSome }
        let s5 := post s4 d 0x0305 (streamUid d i) y.tStopTime (streamEndData y y.stopReason)
        unitsDone s5 (streamUid d i) 0 (dieTime s5 d) y.stopFids

/-! ## Exposure (R210 to R219) -/

/-- Packs samples, earliest first, into a word; unused samples are 0 (R184). -/
def packSamples (format : Nat) : List Nat → Nat
  | [] => 0
  | v :: r => v % 2 ^ sampleBits format + 2 ^ sampleBits format * packSamples format r

def sampleWord (format : Nat) (l : List Nat) : CWord :=
  let v := packSamples format l
  ⟨BitVec.ofNat 64 v, BitVec.ofNat 8 (v / 2 ^ 64), false⟩

/-- Appends a word or mark to the open envelope of a segment; a full envelope closes into the segment's list.  A
thirteenth mark is dropped and counted in the envelope (R198). -/
def segPut (x : Stream) (stream : Nat) (w : CWord) (first : Stamp) : Stream :=
  let e := x.openEnv.getD (newEnv stream x.format x.segNext first)
  if w.mark && 12 ≤ (markPositions 0 e.words).length then
    { x with openEnv := some { e with marksLost := e.marksLost + 1 } }
  else
    let e1 := { e with words := e.words ++ [w], times := e.times ++ [first] }
    if e1.words.length = 448 then
      { x with openEnv := none, seg := { x.seg with
          envs := x.seg.envs ++ [({ e1 with trigPos := x.seg.trigIn }, x.seg.openSmp)], openSmp := 0, trigIn := none } }
    else { x with openEnv := some e1 }

/-- Appends marks. -/
def segPutAll (x : Stream) (stream : Nat) : List (CWord × Stamp) → Stream
  | [] => x
  | (w, t) :: r => segPutAll (segPut x stream w t) stream r

/-- Closes the open word, padding it with zero samples, and lets the waiting marks follow it. -/
def flushWord (x : Stream) (stream : Nat) : Stream :=
  match x.seg.smp with
  | [] => x
  | (v, t) :: r =>
    let w := sampleWord x.format (v :: r.map (·.1))
    let y := segPut { x with seg := { x.seg with smp := [] } } stream w t
    segPutAll { y with seg := { y.seg with pend := [] } } stream x.seg.pend

/-- A mark of a segment stands before the first word whose sample 0 it precedes. -/
def segMark (x : Stream) (stream : Nat) (w : CWord) (t : Stamp) : Stream :=
  if x.seg.smp.isEmpty then segPut x stream w t
  else { x with seg := { x.seg with pend := x.seg.pend ++ [(w, t)] } }

/-- A sample enters the segment; MK_STALE_BEGIN precedes the first that lies in a stale interval (R370).  After a gap or time
step MK_TIME precedes the next word that begins, and tells that word's timestamp (R185, R188).  `trig` marks the trigger
sample: its place is that in the envelope which takes it (R195). -/
def segSample (x00 : Stream) (stream : Nat) (v : Nat) (stale : Bool) (strip : Nat) (t : Stamp) (trig : Bool) : Stream :=
  let x0 := if stale && !x00.seg.staleOpen then
      let y := segMark x00 stream (markWord 0x09 (strip * 2 ^ 40) 0 0) t
      { y with seg := { y.seg with staleOpen := true } }
    else x00
  let x := if x0.needTime && x0.seg.smp.isEmpty then { segPut x0 stream (mkTime t) t with needTime := false } else x0
  let g := { x.seg with
    smp := x.seg.smp ++ [(v, t)], openSmp := x.seg.openSmp + 1
    trigIn := if trig then some x.seg.openSmp else x.seg.trigIn
    smps := x.seg.smps ++ [⟨v, t, stale, x.seg.gapNext⟩], gapNext := false }
  let e := x.openEnv.getD (newEnv stream x.format x.segNext (match x.seg.smp with | [] => t | (_, u) :: _ => u))
  let y := { x with seg := g, openEnv := some { e with stale := e.stale || stale } }
  if g.smp.length = perWord x.format then flushWord y stream else y

/-- Samples in a list of closed envelopes. -/
def envSamples : List (Env × Nat) → Nat
  | [] => 0
  | (_, n) :: r => n + envSamples r

/-- Drops the first `n` closed envelopes of a segment with their samples. -/
def dropEnvs (g : SegSt) (n : Nat) : SegSt :=
  { g with envs := g.envs.drop n, smps := g.smps.drop (envSamples (g.envs.take n)) }

/-- How many of `k` leading envelopes can go and leave `pre` samples (R213). -/
def trimCount (pre openSmp : Nat) : Nat → List (Env × Nat) → Nat
  | k + 1, _ :: r => if pre ≤ envSamples r + openSmp then 1 + trimCount pre openSmp k r else 0
  | _, _ => 0

/-- Keeps the pre-trigger part in its circular set of ceil(PRE / n_min) + 1 envelopes (R216); more stand only where
ENV_FLUSH closed some before they were full (R199; DESIGN CHOICE, log entry 93). -/
def trimPre (x : Stream) : Stream :=
  let cap := ceilDiv x.pre (nMin x.format) + 1
  let n := x.seg.envs.length + b2n x.openEnv.isSome
  if cap < n then { x with seg := dropEnvs x.seg (trimCount x.pre x.seg.openSmp (n - cap) x.seg.envs) } else x

/-- ENV_FLUSH closes the open envelope of a segment (R199): the samples of the word under way open the next. -/
def flushSeg (x : Stream) (stream : Nat) : Stream :=
  match x.openEnv with
  | none => x
  | some e =>
    let k := x.seg.smp.length
    let n := x.seg.openSmp - k
    let there : Bool := match x.seg.trigIn with | some j => j < n | none => false
    let smps := x.seg.smps.drop (x.seg.smps.length - x.seg.openSmp)
    let rest := smps.drop n
    { x with
      openEnv := match x.seg.smp with
        | [] => none
        | (_, t) :: _ => some { newEnv stream x.format x.segNext t with stale := rest.any fun p => p.stale }
      seg := { x.seg with
        envs := x.seg.envs ++ [({ e with
          flushed := true, trigPos := if there then x.seg.trigIn else none, stale := (smps.take n).any fun p => p.stale }, n)]
        openSmp := k, trigIn := if there then none else x.seg.trigIn.map fun j => j - n } }

/-- Leading envelopes that hold only samples before the PRE-th before the trigger sample (R216). -/
def preDrops (pre openSmp : Nat) : List (Env × Nat) → Nat
  | [] => 0
  | _ :: r => if pre ≤ envSamples r + openSmp then 1 + preDrops pre openSmp r else 0

/-- A segment's envelopes as they are stored: SEG_FIRST on the first; SEG_LAST and TRUNCATED on the last, unless a
measurement envelope follows (R349). -/
def markEnds (trunc segLast : Bool) : Bool → List Env → List Env
  | _, [] => []
  | first, [e] => [{ e with segFirst := first, segLast := segLast, truncated := segLast && trunc }]
  | first, e :: r => { e with segFirst := first } :: markEnds trunc segLast false r

/-- Stores envelopes in order. -/
def formAll (s : State) (d i : Nat) : List Env → State
  | [] => s
  | e :: r =>
    let x := streamOf s d i
    formAll (formEnv (setStream s d i ((takeSlot x).getD x)) d i e) d i r

/-- Triggers of a look-back that lie in REARM, at or after t_close (R211, R212). -/
def rearmTriggers (x : Stream) : Nat :=
  (x.look.filter fun e => e.ev ≠ 0 && x.trigMask.getLsbD (e.ev - 1) && x.seg.tclosePhys * 256 ≤ e.phys).length

/-- Triggers of a look-back that lie in POST after the last sample, before t_close (R212). -/
def postTriggers (x : Stream) : Nat :=
  (x.look.filter fun e => e.ev ≠ 0 && x.trigMask.getLsbD (e.ev - 1) && e.phys < x.seg.tclosePhys * 256).length

/-- Posts EV_BRACKET_DONE at a die tick for a finished or ended arm, and enters IDLE (R215, R218).  After a last segment
the triggers that have reached the stream since its t_close are re-arm misses, and those between the last sample and t_close
busy misses (R212, R268). -/
def endArm (s : State) (d i tick : Nat) (closed : Bool) : State :=
  let x := streamOf s d i
  let u := streamUid d i
  let g := x.seg
  let n := if closed then rearmTriggers x else 0
  let m := if closed then postTriggers x else 0
  let s1 := addF (addF (setStream s d i { x with
    state := .idle, openEnv := none, look := []
    seg := { g with envs := [], smp := [], smps := [], pend := [], openSmp := 0, trigDue := false, waitFids := [], disarming := false, changes := [] } })
    d (fShtRearmMissCount (expoIdx i)) n) d (fShtBusyMissCount (expoIdx i)) m
  let s2 := post s1 d 0x0302 u tick
    (leBytes 4 g.done ++ leBytes 4 (min g.early (2 ^ 32 - 1)) ++ leBytes 4 (min (g.rearm + n) (2 ^ 32 - 1)) ++
      leBytes 4 (min (g.busy + m) (2 ^ 32 - 1)))
  unitsDone s2 u 0 (dieTime s2 d) g.waitFids

/-- FIRST_TIME of a segment's envelope is the stamp of its first sample (R210), where it holds one. -/
def firstSample (e : Env) : Env :=
  { e with first := (((e.words.zip e.times).find? fun p => !p.1.mark).map (·.2)).getD e.first }

/-- Words and marks that the MK_GAP marks and MARKS_LOST fields of envelopes count (R206). -/
def gapCounts (es : List Env) : Nat × Nat :=
  es.foldl (fun n e =>
    let g := (e.words.filter fun w => w.mark && bits w.pay.toNat 56 8 = 0x03).map fun w => w.pay.toNat
    (n.1 + g.foldl (fun a v => a + bits v 0 40) 0, n.2 + e.marksLost + g.foldl (fun a v => a + bits v 40 16) 0)) (0, 0)

/-- A closed segment is complete (R215, R348, R349): its envelopes, the measurement envelope among them, take
consecutive sequence numbers, and what they lost is counted (R206); EV_RECORD_DONE is posted; KEEP delivery keeps it
(R217); the last of the arm ends it. -/
def segComplete (s : State) (d i : Nat) (k : Closing) : State :=
  let x := streamOf s d i
  let u := streamUid d i
  let envs := markEnds k.trunc k.measEnv.isNone true (k.envs.map firstSample) ++
    (match k.measEnv with | some e => [e] | none => [])
  let lost := gapCounts envs
  let x1 := { x with
    closing := x.closing.filter fun c => c.num != k.num
    dropWords := x.dropWords + lost.1, dropMarks := x.dropMarks + lost.2
    kept := if x.keep then x.kept ++ [⟨k.num, x.seqNext, envs.length, k.trigIdx⟩] else x.kept }
  let s1 := formAll (setStream s d i x1) d i envs
  let y := streamOf s1 d i
  let s2 := if !roomy s d i x && roomy s1 d i y then setStream s1 d i { y with spaceAt := s1.now } else s1
  let s3 := post s2 d 0x0301 u k.tclose (leBytes 4 k.num ++ leBytes 4 k.trigIdx ++ leBytes 8 k.trigTime.toNat)
  if k.last then endArm s3 d i (x.seg.disarmedAt.getD k.tclose) x.seg.disarmedAt.isNone else s3

/-- The Densitometer unit of a die. -/
def densUid (d : Nat) : Nat := uid d clDens 0

/-- The segments of chain `c` feed a TIME sheet (R331). -/
def timeSheet (s : State) (d c : Nat) : Bool :=
  (accOf s d c).cfg.kind = 3 && awake s (densUid d) && !flagF s d fPwrStatSafelight

/-- A measurement that needs the samples again: a time measurement without fixed levels (R347). -/
def levelsLate (m : MeasCfg) : Bool := m.enable && !m.fixed && (List.range 7).any fun i => bitAt m.mask (9 + i)

/-- Closes the segment in POST at a die tick (R212, R215, R218): it is complete at once, or, where it is measured or
feeds a TIME sheet, once DENSITOMETER_READBACK_DONE and SEGMENT_COMPLETE have come (R348). -/
def closeSegment (s : State) (d i tc : Nat) (trunc : Bool) : State :=
  let x := flushWord (streamOf s d i) (key d i)
  let envs := x.seg.envs.map (·.1) ++ (match x.openEnv with
    | some e => [{ e with trigPos := x.seg.trigIn }]
    | none => [])
  let k : Closing := {
    num := x.segNext, envs := envs, smps := x.seg.smps, trigIdx := x.seg.trigIdx, trigTime := x.seg.trigTime
    tclose := tc, tclosePhys := physOf s d tc, trunc := trunc, last := x.seg.left ≤ 1 || x.seg.disarming
    set := x.seg.meas, need := x.seg.meas.enable || timeSheet s d (expoIdx i)
    readBack := levelsLate x.seg.meas || timeSheet s d (expoIdx i), measEnv := none
    hold := reservation x x.seg.meas }
  let g := { x.seg with
    envs := [], smp := [], smps := [], pend := [], openSmp := 0, trigIn := none, held := 0, trigDue := false, tclose := tc
    tclosePhys := physOf s d tc, left := x.seg.left - 1, done := x.seg.done + 1 }
  let s1 := setStream s d i { x with
    openEnv := none, state := .rearm, segNext := x.segNext + 1, closing := x.closing ++ [k], seg := g }
  if k.need || !x.closing.isEmpty then s1 else segComplete s1 d i k

/-- Opens the next segment (R212, R214): FILLING from an entry tick, or READY at once with PRE 0. -/
def openSegment (x : Stream) (m : MeasCfg) (entry : Nat) : Stream :=
  { x with state := if x.pre = 0 then .ready else .filling, openEnv := none, needTime := false, seg := { x.seg with
      entry := entry, held := 0, trigDue := false, envs := [], smp := [], smps := [], pend := [], openSmp := 0
      trigIn := none, gapNext := false, staleOpen := false, meas := m } }

/-- T_open of a stream in REARM with segments left, once the store has room (R214); a disarm that comes first rules it
out (R218). -/
def tOpen (x : Stream) (m : MeasCfg) : Option Nat :=
  let t := max (x.seg.tclosePhys + 64) x.spaceAt
  if x.state == .rearm && 0 < x.seg.left && !x.seg.disarming && reservation x m ≤ roomFor x &&
      !(x.seg.changes.any fun c => c.kind ≠ 0 && c.tick ≤ t) then some t
  else none

/-- A later trigger of an early one's tick, all of which stand in the look-back by now, is accepted (R212): when it commits
the pre-trigger part is full. -/
def acceptsLater (x : Stream) (e : Entry) : Bool :=
  let held := fun (p : Entry) =>
    x.seg.held + (x.look.filter fun q => q.sample && entryBefore q p && x.seg.entry * 256 ≤ q.phys).length
  x.look.any fun p =>
    p.ev ≠ 0 && p.phys / 256 = e.phys / 256 && x.trigMask.getLsbD (p.ev - 1) && x.pre ≤ held p

/-- What a Shutter event's entry does to a segment when it commits (R212): the role of its mark, and the counters.  An
early trigger of the tick in which another is accepted counts as a busy miss. -/
def segTrigger (s : State) (d i : Nat) (x : Stream) (e : Entry) : Nat × Stream × State :=
  let c := expoIdx i
  let g := x.seg
  let busy := (2, { x with seg := { g with busy := g.busy + 1 } }, incF s d (fShtBusyMissCount c))
  match x.state with
  | .filling =>
    if acceptsLater x e then busy
    else (2, { x with seg := { g with early := g.early + 1 } }, incF s d (fShtEarlyCount c))
  | .ready =>
    if g.trigDue then busy else (1, { x with seg := { g with trigDue := true, trigTime := e.time } }, s)
  | .post => busy
  | .rearm =>
    if g.disarmedAt.isSome then (0, x, s)
    else if e.phys < g.tclosePhys * 256 then busy
    else (2, { x with seg := { g with rearm := g.rearm + 1 } }, incF s d (fShtRearmMissCount c))
  | _ => (0, x, s)

/-- The stream after opening a segment whose T_open lies at or before a place in time. -/
def openBy (s : State) (d i ph : Nat) : Stream :=
  let x := streamOf s d i
  let m := measOf s d (expoIdx i)
  match tOpen x m with
  | some t => if t ≤ ph / 256 then openSegment x (measAt s d (expoIdx i) t) t else x
  | none => x

/-- A segment whose trigger sample is the next one: envelopes that no pre-trigger sample needs are dropped (R216). -/
def triggered (x : Stream) : SegSt :=
  let g := dropEnvs x.seg (preDrops x.pre x.seg.openSmp x.seg.envs)
  { g with trigIdx := g.smps.length, trigDue := false }

/-- What an entry that leaves the look-back of an Exposure stream does to its segment (R192, R212 to R216). -/
def expoTake (s : State) (d i : Nat) (e : Entry) : State :=
  let x := streamOf s d i
  let k := key d i
  if e.word.mark && e.phys < x.seg.armedAt * 256 then s
  else if e.ev ≠ 0 then
    let trig := x.trigMask.getLsbD (e.ev - 1)
    let r := if trig then segTrigger s d i x e else (0, x, s)
    let y := r.2.1
    let w : CWord := { e.word with side := e.word.side ||| BitVec.ofNat 8 r.1 }
    setStream r.2.2 d i (if e.written && inSegment y then segMark y k w e.time else y)
  else if e.word.mark then
    let code := bits e.word.pay.toNat 56 8
    setStream s d i (
      if inSegment x then
        let y := segMark x k e.word e.time
        { y with
          needTime := y.needTime || wantsTime e.word
          seg := { y.seg with
            gapNext := y.seg.gapNext || code = 0x03
            staleOpen := code = 0x09 || (y.seg.staleOpen && code ≠ 0x0A) } }
      else x)
  else
    let v := e.word.pay.toNat
    match x.state with
    | .filling =>
      if e.phys < x.seg.entry * 256 then setStream s d i x
      else
        let y := trimPre (segSample x k v e.stale e.sub e.time false)
        let h := y.seg.held + 1
        setStream s d i { y with state := if x.pre ≤ h then .ready else .filling, seg := { y.seg with held := h } }
    | .ready =>
      if e.phys < x.seg.entry * 256 then setStream s d i x
      else if x.seg.trigDue then
        let g := triggered x
        let y := { x with state := .post, seg := { g with postLeft := x.post - 1 } }
        let s1 := setStream s d i (segSample y k v e.stale e.sub e.time true)
        if x.post ≤ 1 then closeSegment s1 d i (coarse e.time + 1) false else s1
      else setStream s d i (trimPre (segSample x k v e.stale e.sub e.time false))
    | .post =>
      let y := segSample { x with seg := { x.seg with postLeft := x.seg.postLeft - 1 } } k v e.stale e.sub e.time false
      let s1 := setStream s d i y
      if x.seg.postLeft ≤ 1 then closeSegment s1 d i (coarse e.time + 1) false else s1
    | _ => setStream s d i x

/-- A trigger is accepted and its segment not closed (R212). -/
def pastTrigger (x : Stream) : Bool := x.state == .post || (x.state == .ready && x.seg.trigDue)

/-- Closes a segment past its trigger with TRUNCATED at a die tick (R218, R219). -/
def truncate (s : State) (d i tick : Nat) : State :=
  let x := streamOf s d i
  closeSegment (setStream s d i (if x.state == .post then x else { x with seg := triggered x })) d i tick true

/-- Another source (R219): a waiting segment fills again from the effect time, one past its trigger closes TRUNCATED. -/
def sourceTake (s : State) (d i : Nat) (c : SegChange) : State :=
  let x := streamOf s d i
  if pastTrigger x then truncate s d i c.die
  else if inSegment x then setStream s d i (openSegment x (measAt s d (expoIdx i) c.tick) c.tick)
  else s

/-- A disarm (R218): a segment past its trigger completes, or closes TRUNCATED with ABANDON; one that waits for its
trigger is discarded; EV_BRACKET_DONE follows in every case. -/
def disarmTake (s : State) (d i : Nat) (c : SegChange) : State :=
  let x := streamOf s d i
  let x1 := { x with seg := { x.seg with disarming := true } }
  let s1 := setStream s d i x1
  if pastTrigger x then (if c.kind = 2 then truncate s1 d i c.die else s1)
  else
    match x.closing.reverse with
    | [] => endArm s1 d i c.die false
    | k :: r => setStream s d i { x1 with
        state := .rearm, openEnv := none, closing := ({ k with last := true } :: r).reverse
        seg := { x1.seg with disarmedAt := some c.die } }

/-- The oldest change is taken, after a segment that opens before it. -/
def takeChange (s : State) (d i : Nat) (c : SegChange) (rest : List SegChange) : State :=
  let x := openBy s d i (c.tick * 256 - 1)
  let s1 := setStream s d i { x with seg := { x.seg with changes := rest } }
  if c.kind = 0 then sourceTake s1 d i c else disarmTake s1 d i c

/-- The changes up to a place in time are taken (R192, R211). -/
def takeChanges (s : State) (d i ph : Nat) : List SegChange → State
  | [] => s
  | c :: r => if armed (streamOf s d i) && c.tick * 256 ≤ ph then takeChanges (takeChange s d i c r) d i ph r else s

/-- A change whose 256 ticks are over is taken once every entry before it has committed (R192). -/
def expoSettle (s : State) (d i : Nat) : State :=
  let x := streamOf s d i
  match x.seg.changes with
  | [] => s
  | c :: r =>
    if c.tick + 256 ≤ s.now && !(x.look.any fun e => e.phys < c.tick * 256) then
      takeChanges s d i (c.tick * 256) (c :: r)
    else s

/-- The open envelope of a segment has taken its first entry between two states of its stream (R199). -/
def firstPut (x y : Stream) : Bool :=
  let n := fun (z : Stream) => match z.openEnv with | some e => e.words.length | none => 0
  0 < n y && (n x = 0 || x.seg.envs.length ≠ y.seg.envs.length || x.segNext ≠ y.segNext)

/-- An entry leaves the look-back of an Exposure stream: changes up to it come first, late engine marks
stand before it where it is stored and wait where it is not (R191), then it is taken. -/
def expoCommit (s : State) (d i : Nat) (e : Entry) : State :=
  let s0 := takeChanges s d i e.phys (streamOf s d i).seg.changes
  let x := openBy s0 d i e.phys
  let stored : Bool := inSegment x && x.seg.entry * 256 ≤ e.phys
  let y := if stored then x.lateMarks.foldl (fun y w => segMark y (key d i) w e.time) { x with lateMarks := [] } else x
  let s1 := expoTake (setStream s0 d i y) d i e
  let z := streamOf s1 d i
  setStream s1 d i { z with lastPhys := e.phys, openedAt := if firstPut x z then s.now else z.openedAt }

/-- A change of an armed stream at the current tick, to be taken in the order of its entries (R192, R211). -/
def askChange (s : State) (d i kind : Nat) (fids : List Nat) : State :=
  let x := streamOf s d i
  setStream s d i { x with seg := { x.seg with
    changes := x.seg.changes ++ [⟨s.now, dieTime s d, kind⟩], waitFids := x.seg.waitFids ++ fids } }

/-- A change of the source at the current tick (R219). -/
def sourceChange (s : State) (d i : Nat) : State := askChange s d i 0 []

/-- Disarms an Exposure stream at the current tick (R218). -/
def disarm (s : State) (d i : Nat) (abandon : Bool) (fids : List Nat) : State :=
  askChange s d i (if abandon then 2 else 1) fids

end Sys2Proof.Machine
end

