-- ==== Sys2Proof/Machine/Shutter.lean ====
section
/-!
DEFINITION. The Shutter: candidates and their slots, lane matchers, the Negative store, sequencers, and the pins
(R228 to R268).  Releasing an event to its consumers stands in Machine/Arrival.lean.
-/

namespace Sys2Proof.Machine

/-! ## Records -/

def seqOf (s : State) (q : Nat) : Sequencer := tget Sequencer.reset s.sht.seqs q

def setSeq (s : State) (q : Nat) (x : Sequencer) : State :=
  { s with sht := { s.sht with seqs := tset Sequencer.reset s.sht.seqs q x } }

def trigInOf (s : State) (n : Nat) : TrigIn := tget TrigIn.reset s.sht.trigIn n

def setTrigIn (s : State) (n : Nat) (x : TrigIn) : State :=
  { s with sht := { s.sht with trigIn := tset TrigIn.reset s.sht.trigIn n x } }

def trigOutOf (s : State) (n : Nat) : TrigOut := tget TrigOut.reset s.sht.trigOut n

def setTrigOut (s : State) (n : Nat) (x : TrigOut) : State :=
  { s with sht := { s.sht with trigOut := tset TrigOut.reset s.sht.trigOut n x } }

def negOf (s : State) (d : Nat) : NegStore := tget NegStore.reset s.sht.neg d

def setNeg (s : State) (d : Nat) (x : NegStore) : State :=
  { s with sht := { s.sht with neg := tset NegStore.reset s.sht.neg d x } }

def cmpOf (s : State) (d k : Nat) : Comparator := tget Comparator.reset s.sht.cmps (key d k)

def setCmp (s : State) (d k : Nat) (x : Comparator) : State :=
  { s with sht := { s.sht with cmps := tset Comparator.reset s.sht.cmps (key d k) x } }

/-- The die is in Safelight mode (R568). -/
def safelight (s : State) (d : Nat) : Bool := flagF s d fPwrStatSafelight

/-! ## Ulufer accounting (R29, R263) -/

/-- The die and port of the last hop to a die from die 0, on the way 0 → 2 → 3 → 7 of R23: a message to a faulted die
stops there. -/
def lastHop (e : Nat) : Nat × Nat := if 4 ≤ e then (e - 4, 2) else if e % 2 = 1 then (e - 1, 0) else (0, 3)

/-- The neighbour of a die on the way 7 → 3 → 1 → 0 of R23 to die 0, and its port that faces the die: a candidate that
cannot leave the die stops there. -/
def firstHop (d : Nat) : Nat × Nat := if 4 ≤ d then (d - 4, 2) else if 2 ≤ d then (d - 2, 3) else (0, 0)

/-- The last die before die 0 on that way, and its port to die 0: a candidate that cannot reach die 0 stops there. -/
def headHop (d : Nat) : Nat × Nat := if d % 2 = 1 then (1, 1) else if d % 4 = 2 then (2, 3) else (4, 2)

/-- Counts a Shutter message lost at a port (R263). -/
def shtLost (s : State) (d p : Nat) : State := incF s d (fUflShtLostCount p)

/-- The die is on its holding clock or fenced. -/
def faulted (s : State) (d : Nat) : Bool := (dieClk s d).holding || fenced s d

/-- A candidate of die `d` is lost, and the die at which it stops counts it (R29, R263); one of die 0 itself needs no
Ulufer port. -/
def candStops (s : State) (d : Nat) : State :=
  if d = 0 then s
  else
    let h := if faulted s d then firstHop d else headHop d
    shtLost s h.1 h.2

/-! ## Candidates (R228 to R231) -/

/-- The source a die's slot selects (R230). -/
def slotSource (s : State) (d k : Nat) : Nat := bits (reg s d (rShtSlot (k / 4))).toNat (8 * (k % 4)) 8

/-- The source codes of R229 that a die has. -/
def sourceExists (d code : Nat) : Bool := code < 0x3C || (code < 0x40 && d = 0)

/-- Which of two candidates of one channel and tick the slot keeps: the earlier stamp; of equal stamps of the Negative
store the lower lane, then the lower class (R230, R242). -/
def candBetter (a b : Cand) : Bool :=
  stampLt a.stamp b.stamp ||
    (a.stamp = b.stamp && 0x20 ≤ a.src && a.src < 0x24 &&
      (bits a.detail 0 4 < bits b.detail 0 4 ||
        (bits a.detail 0 4 = bits b.detail 0 4 && bits a.detail 4 4 < bits b.detail 4 4)))

/-- Enters a candidate on its channel, one per channel and tick. -/
def candInsert (c : Cand) : List Cand → List Cand
  | [] => [c]
  | x :: r =>
    if x.chan = c.chan && x.phys / 256 = c.phys / 256 then (if candBetter c x then c else x) :: r
    else x :: candInsert c r

/-- A source output of a die gives a candidate: it takes every slot that selects the source.  It is lost when die 0 or
the die is on its holding clock (R163, R164, R263), and late, discarded and counted after its evaluation point (R231). -/
def giveCand (s : State) (d code detail : Nat) (stamp : Stamp) (srcTime : Stamp) (coarseOnly : Bool) : State :=
  if !sourceExists d code then s
  else
    let ph := physFine s d stamp
    let chans := (List.range 16).filter fun k => slotSource s d k = code
    if chans.isEmpty then s
    else if faulted s d || (dieClk s 0).holding then candStops s d
    else if ph / 256 + 48 < s.now then incF s 0 fShtCandLateCount
    else
      let cs := chans.map fun k => (⟨16 * d + k, stamp, code, detail, srcTime, coarseOnly, ph⟩ : Cand)
      { s with sht := { s.sht with cands := cs.foldl (fun l c => candInsert c l) s.sht.cands } }

/-! ## Issuing events (R232, R260) -/

/-- Whether issue `a` goes before issue `b` of the same ID and tick: the earlier t_event; of equal ones a sequencer
before a direct issue, and a lower sequencer before a higher (R232). -/
def issueBetter (a b : ShEv) : Bool :=
  stampLt a.stamp b.stamp ||
    (a.stamp = b.stamp && (match a.seq, b.seq with
      | some x, some y => x < y
      | some _, none => true
      | _, _ => false))

/-- Issues an event: merged with one of the same ID in the same tick (R232); one already sent stays as it was sent. -/
def issueEvent (s : State) (e : ShEv) : State :=
  let same := fun (x : ShEv) => x.id = e.id && x.phys / 256 = e.phys / 256
  if s.sht.events.any same then
    incF { s with sht := { s.sht with
      events := s.sht.events.map fun x => if same x && !x.told && issueBetter e x then e else x } } 0 fShtMergedCount
  else { s with sht := { s.sht with events := s.sht.events ++ [e] } }

/-- SHT_NOTIFY names the event (R234). -/
def notified (s : State) (id : Nat) : Bool :=
  if id < 32 then (reg s 0 rShtNotifyLo).getLsbD id else (reg s 0 rShtNotifyHi).getLsbD (id - 32)

/-- EV_SHUTTER (R234, R274). -/
def evShutter (s : State) (e : ShEv) : State :=
  if notified s e.id then
    postStamp s 0 0x0401 (match e.seq with | some q => uid 0 clSeq q | none => pkgUid) e.stamp e.id
      (leBytes 1 e.id ++ leBytes 1 (e.seq.getD 0) ++
        leBytes 1 (b2n e.seq.isNone + 2 * b2n e.coarseOnly + 4 * b2n e.noCand) ++ leBytes 1 e.src ++ leBytes 1 e.chan ++
        leBytes 3 e.detail ++ leBytes 8 e.srcTime.toNat)
  else s

/-- Die 0 has not yet sent the event, whose t_event + 56 ticks have passed (R232, R234). -/
def tellDue (s : State) (e : ShEv) : Bool := !e.told && (e.phys + 56 * 256) / 256 ≤ s.now

/-- Events 56 ticks after their t_event are sent, and EV_SHUTTER is posted for those that SHT_NOTIFY names then (R234). -/
def tellEvents (s : State) : State :=
  let due := s.sht.events.filter (tellDue s)
  due.foldl evShutter { s with sht := { s.sht with
    events := s.sht.events.map fun e => if tellDue s e then { e with told := true } else e } }

/-! ## Sequencers (R256 to R261) -/

/-- An unused branch. -/
def noBranch : Branch := ⟨0xFF, 0, 0, 0, 0, 0⟩

/-- Branch `b` of state `st`. -/
def branchOf (q : Sequencer) (st b : Nat) : Branch := (q.branches[4 * st + b]?).getD noBranch

/-- The candidate of a channel in a tick. -/
def candAt (s : State) (t ch : Nat) : Option Cand :=
  s.sht.cands.find? fun c => c.chan = ch && c.phys / 256 = t

def timerOf (q : Sequencer) (k : Nat) : SeqTimer := (q.timers[k]?).getD .idle

/-- COND of a branch in tick `t` (R256): with `expired`, timers whose expiry tick this is count as EXPIRED (R258). -/
def condTrue (q : Sequencer) (b : Branch) (t : Nat) (expiredNow : Bool) : Bool :=
  let k := bits b.cond 0 2
  let run := match timerOf q k with
    | .running e => !(expiredNow && e ≤ t)
    | _ => false
  let exp := match timerOf q k with
    | .expired => true
    | .running e => expiredNow && e ≤ t
    | .idle => false
  let v := match bits b.cond 4 3 with
    | 0 => true
    | 1 => (q.limits[k]?).getD 0 ≤ (q.counters[k]?).getD 0
    | 2 => exp
    | _ => run
  v != bitAt b.cond 7

/-- The first true branch of the sequencer's state in tick `t`, with its candidate if it names a channel (R257). -/
def pickBranch (s : State) (q : Sequencer) (t : Nat) (expiredNow : Bool) : Option (Branch × Option Cand) :=
  (List.range 4).findSome? fun i =>
    let b := branchOf q q.st i
    if b.trig = 0xFF then none
    else if b.trig = 0xFE then if condTrue q b t expiredNow then some (b, none) else none
    else
      match candAt s t b.trig with
      | some c => if condTrue q b t expiredNow then some (b, some c) else none
      | none => none

/-- Counter actions of a branch (R259). -/
def actCounters (b : Branch) (l : List Nat) : List Nat :=
  l.mapIdx fun k v => match bits b.counters (2 * k) 2 with
    | 1 => min (2 ^ 32 - 1) (v + 1)
    | 2 => 0
    | _ => v

/-- A timer after tick `t`: EXPIRED once its expiry tick has come (R258). -/
def timerAfter (t : Nat) : SeqTimer → SeqTimer
  | .running e => if e ≤ t then .expired else .running e
  | x => x

/-- Timer actions of a branch taken in tick `t` (R258): a timer that the branch neither starts nor stops and whose expiry tick
this is becomes EXPIRED, without a second evaluation of the tick. -/
def actTimers (q : Sequencer) (b : Branch) (t : Nat) : List SeqTimer :=
  q.timers.mapIdx fun k v => match bits b.timers (2 * k) 2 with
    | 1 => .running (t + (q.durations[k]?).getD 0)
    | 2 => .idle
    | _ => timerAfter t v

/-- The data of EV_SEQUENCER_DONE and of SHUTTER_READ_COUNTERS for a sequencer. -/
def counterBytes (q : Sequencer) : List Byte := q.counters.flatMap (leBytes 4)

/-- The die 0 stamp of a physical tick with fine part 0. -/
def stampAt (s : State) (t : Nat) : Stamp := nowStamp s 0 - BitVec.ofNat 64 ((s.now - t) * 256)

/-- An event that a replaced run issues holds off the sequencer's own run too (R260). -/
def noteIssue (s : State) (n : Nat) (ph : Option Nat) : State :=
  match ph with
  | some p => if n < 16 then s else setSeq s (n - 16) { seqOf s (n - 16) with lastIssue := some p }
  | none => s

/-- Takes a branch of sequencer `n` (of the run it replaced, for `n` of 16 and more) in tick `t` (R257, R259 to R261). -/
def takeBranch (s : State) (n : Nat) (q : Sequencer) (b : Branch) (c : Option Cand) (t : Nat) : State :=
  let tev : Stamp := match c with | some x => x.stamp | none => stampAt s t
  let ph := match c with | some x => x.phys | none => t * 256
  let emit := bitAt b.action 5
  let held := match q.lastIssue with | some l => q.holdoff ≠ 0 && ph < l + q.holdoff * 256 | none => false
  let done := bitAt b.action 4
  let q1 := { q with
    st := bits b.action 0 4, counters := actCounters b q.counters, timers := actTimers q b t
    entryDue := if done then none else some (t + 1)
    lastIssue := if emit && !held then some ph else q.lastIssue
    armed := q.armed && !done, done := done || q.done, untilTick := if done then some (t + 1) else q.untilTick }
  let s1 := noteIssue (setSeq s n q1) n (if emit && !held then some ph else none)
  let s2 :=
    if !emit then s1
    else if held then incF s1 0 (fShtSeqStatSuppressed (n % 16))
    else
      issueEvent s1 (match c with
        | some x => ⟨bits b.event 0 6, tev, some (n % 16), x.coarseOnly, false, x.src, x.chan, x.detail, x.srcTime, ph, false⟩
        | none => ⟨bits b.event 0 6, tev, some (n % 16), false, true, 0xFF, 0xFF, 0, tev, ph, false⟩)
  if done then post s2 0 0x0402 (uid 0 clSeq (n % 16)) (coarse (stampAt s t)) (counterBytes q1) else s2

/-- A timer of the sequencer expires in tick `t`. -/
def expiresAt (q : Sequencer) (t : Nat) : Bool :=
  q.timers.any fun x => match x with | .running e => e ≤ t | _ => false

/-- Timers whose expiry tick has come become EXPIRED. -/
def expireTimers (q : Sequencer) (t : Nat) : Sequencer :=
  { q with timers := q.timers.map (timerAfter t) }

/-- Tick `t` lies before the sequencer's disarm (R261). -/
def seqLive (q : Sequencer) (t : Nat) : Bool := match q.untilTick with | some u => t < u | none => q.armed

/-- The sequencer evaluates in tick `t`: it has entered a state, one of its state's channels has a candidate, or a
timer expires (R257). -/
def evalNeeded (s : State) (q : Sequencer) (t : Nat) : Bool :=
  q.since ≤ t && seqLive q t &&
    (q.entryDue == some t || expiresAt q t ||
      (List.range 4).any fun i => (candAt s t (branchOf q q.st i).trig).isSome)

/-- The unit of a sequencer run is AWAKE; asleep it evaluates nothing (log entry 27). -/
def seqAwake (s : State) (n : Nat) : Bool := awake s (uid 0 clSeq (n % 16))

/-- One sequencer evaluates tick `t` (R257, R258). -/
def evalSeq (t n : Nat) (s : State) : State :=
  let q0 := seqOf s n
  if !seqAwake s n || !evalNeeded s q0 t then s
  else
    let q := { q0 with entryDue := if q0.entryDue == some t then none else q0.entryDue }
    match pickBranch s q t false with
    | some (b, c) => takeBranch s n q b c t
    | none =>
      if expiresAt q t then
        let q1 := expireTimers q t
        match pickBranch s q1 t true with
        | some (b, c) => takeBranch s n q1 b c t
        | none => setSeq s n q1
      else setSeq s n q

/-- The runs of the sequencers that may still evaluate ticks: of each sequencer the run it replaced, then its own. -/
def seqRuns : List Nat := (List.range 16).flatMap fun n => [16 + n, n]

/-- Every sequencer evaluates tick `t`, in order, and the tick's candidates are used up. -/
def evalTick (s : State) (t : Nat) : State :=
  let s1 := seqRuns.foldl (fun s n => evalSeq t n s) s
  tellEvents { s1 with sht := { s1.sht with cands := s1.sht.cands.filter fun c => t < c.phys / 256 } }

/-- The least of two optional ticks. -/
def minOpt (a b : Option Nat) : Option Nat :=
  match a, b with
  | some x, some y => some (min x y)
  | some x, none => some x
  | none, y => y

/-- The earliest tick with candidates or an entered state to evaluate. -/
def nextCandTick (s : State) : Option Nat :=
  let a := (s.sht.cands.map fun c => c.phys / 256).foldl (fun o t => minOpt o (some t)) none
  seqRuns.foldl (fun o n =>
    let q := seqOf s n
    match q.entryDue with
    | some e => if seqAwake s n && seqLive q e then minOpt o (some e) else o
    | none => o) a

/-- The earliest timer expiry of an armed sequencer. -/
def nextExpiry (s : State) : Option Nat :=
  seqRuns.foldl (fun o n =>
    let q := seqOf s n
    q.timers.foldl (fun o x => match x with
      | .running e => if seqAwake s n && seqLive q e then minOpt o (some e) else o
      | _ => o) o) none

/-- No timer expiry lies before tick `t`. -/
def noExpiryBefore (s : State) (t : Nat) : Bool :=
  match nextExpiry s with | some e => t ≤ e | none => true

/-- No candidate or entered state lies before tick `t`. -/
def noCandBefore (s : State) (t : Nat) : Bool :=
  match nextCandTick s with | some e => t ≤ e | none => true

/-- SEQUENCER_EVALUATE (R257): 48 ticks after a tick that holds candidates or an entered state, die 0 evaluates it.
While die 0 is on its holding clock nothing is evaluated (R164). -/
def execSequencerEvaluate (s : State) : Out :=
  .next (match nextCandTick s with
    | some t => whenB (!(dieClk s 0).holding && t + 48 ≤ s.now && noExpiryBefore s t) s fun s => evalTick s t
    | none => s)

/-- Tick `e`, in which a timer expires, is the next to evaluate, 48 ticks later (R231, R257). -/
def expiryDue (s : State) (e : Nat) : Bool :=
  !(dieClk s 0).holding && e + 48 ≤ s.now && noCandBefore s e && noExpiryBefore s e

/-- The expiry tick of timer `k` of sequencer `q`, where it is the next to evaluate. -/
def timerDue (s : State) (q k : Nat) : Option Nat :=
  match timerOf (seqOf s q) k with
  | .running e => if seqAwake s q && seqLive (seqOf s q) e && expiryDue s e then some e else none
  | _ => none

/-- SEQUENCER_TIMER_EXPIRY (R258): timer `k` of sequencer `q` reaches its expiry tick, and the sequencer evaluates; what a
disarmed sequencer still evaluates (R261) is kept at `16 + q`. -/
def execSequencerTimerExpiry (q k : Nat) (s : State) : Out :=
  .next (match timerDue s q k, timerDue s (16 + q) k with
    | some e, _ => evalTick s e
    | none, some e => evalTick s e
    | none, none => s)

/-! ## Lane matchers (R235 to R238) -/

/-- A stage matches a word (R235). -/
def stageMatch (g : Stage) (w : BitVec 72) : Bool := (((w ^^^ g.value) &&& g.mask) == 0) != g.negate

def stageOf (l : Lane) (i : Nat) : Stage := tget Stage.reset l.stages i

/-- Stages `i` onward form a pattern whose last stage is `i + n` (R236): every stage valid, all but the last linked.
Answers the last stage's index. -/
def patternEnd (l : Lane) : Nat → Nat → Option Nat
  | 0, _ => none
  | f + 1, i =>
    let g := stageOf l i
    if !g.valid || 16 ≤ i then none else if g.link then patternEnd l f (i + 1) else some i

/-- Stage `i` starts a pattern: it is not itself linked from a valid stage before it. -/
def patternStart (l : Lane) (i : Nat) : Bool :=
  (stageOf l i).valid && !(0 < i && (stageOf l (i - 1)).valid && (stageOf l (i - 1)).link)

/-- The pattern from stage `i` to `j` matches the newest words, `ws` newest first (R236). -/
def patternMatch (l : Lane) (i j : Nat) (ws : List (BitVec 72)) : Bool :=
  (List.range (j - i + 1)).all fun k => match ws[j - i - k]? with
    | some w => stageMatch (stageOf l (i + k)) w
    | none => false

/-- The lowest first stage of a pattern with output `o` that matches at the newest word (R236). -/
def matchOutput (l : Lane) (o : Nat) (ws : List (BitVec 72)) : Option Nat :=
  (List.range 16).find? fun i => patternStart l i && (match patternEnd l 8 i with
    | some j => (stageOf l j).out = o && patternMatch l i j ws
    | none => false)

/-- The stages loaded up to a word's place on the physical time line take effect, and partial matches are cleared (R238,
R239). -/
def takeLoads (l : Lane) (ph : Nat) : List (Nat × Tab Stage) → Lane
  | [] => { l with loads := [] }
  | (t, g) :: r => if t * 256 ≤ ph then takeLoads { l with stages := g, hist := [] } ph r else { l with loads := (t, g) :: r }

/-- The lane matcher judges the newest word (R235 to R237); in Safelight mode it gives nothing (R264). -/
def matcherJudge (s : State) (d n : Nat) (t : Stamp) : State :=
  if safelight s d then s
  else
    let l := laneOf s d n
    (List.range 2).foldl (fun s o => match matchOutput l o l.hist with
      | some i => giveCand s d (2 * n + o) i t t false
      | none => s) s

/-! ## Negative store (R240 to R247) -/

def negClass (g : NegStore) (c : Nat) : NegClass := tget NegClass.reset g.classes c

/-- The definition of a class that a word at a place on the physical time line uses: a class record takes effect with the words
stamped after it is applied (R246). -/
def negClassAt (g : NegStore) (c ph : Nat) : NegClass :=
  g.past.foldl (fun k x => if x.2.1 = c && ph ≤ x.1 * 256 then x.2.2 else k) (negClass g c)

/-- A class record is applied in a tick; of the definitions replaced those are kept that words still to be looked up may use,
whose decisions are complete 20 ticks after their stamps (R242, R246). -/
def setClass (g : NegStore) (now c : Nat) (k : NegClass) : NegStore :=
  { g with
    classes := tset NegClass.reset g.classes c k
    past := (now, c, negClass g c) :: g.past.filter fun x => now ≤ x.1 + 64 }

/-- The two buckets of a key (R243). -/
def negBuckets (g : NegStore) (c : Nat) (k : List Byte) : Nat × Nat :=
  let h := (crc32c (leBytes 4 g.seed.toNat ++ [BitVec.ofNat 8 c] ++ padTo 9 k)).toNat
  let b1 := bits h 0 14
  let b2 := bits h 14 14
  (b1, if b2 = b1 then b1 ^^^ 1 else b2)

def negWay (g : NegStore) (b w : Nat) : Option NegEntry := tget none g.ways (4 * b + w)

def setWay (g : NegStore) (b w : Nat) (e : Option NegEntry) : NegStore := { g with ways := tset none g.ways (4 * b + w) e }

/-- The way of bucket `b` that holds an identity. -/
def negFindIn (g : NegStore) (b c : Nat) (k : List Byte) : Option Nat :=
  (List.range 4).find? fun w => match negWay g b w with | some e => e.cls = c && e.key == k | none => false

/-- Where an identity stands: bucket and way. -/
def negFind (g : NegStore) (c : Nat) (k : List Byte) : Option (Nat × Nat) :=
  let b := negBuckets g c k
  match negFindIn g b.1 c k with
  | some w => some (b.1, w)
  | none => (negFindIn g b.2 c k).map fun w => (b.2, w)

def negFree (g : NegStore) (b : Nat) : Option Nat := (List.range 4).find? fun w => (negWay g b w).isNone

/-- Entries in use. -/
def negUsed (g : NegStore) : Nat := g.ways.length

/-- Moves residents of a full bucket to their other bucket until the entry finds a way, at most `n` moves; which
resident moves is not stated, a free value (log entry 2).  None when no way frees. -/
def negKick : Nat → NegStore → Nat → NegEntry → State → Option NegStore × State
  | 0, _, _, _, s => (none, s)
  | n + 1, g, b, e, s =>
    match negFree g b with
    | some w => (some (setWay g b w (some e)), s)
    | none =>
      let r := drawFree s
      let w := r.1.toNat % 4
      match negWay g b w with
      | none => (some (setWay g b w (some e)), r.2)
      | some v =>
        let bs := negBuckets g v.cls v.key
        negKick n (setWay g b w (some e)) (if bs.1 = b then bs.2 else bs.1) v r.2

/-- Inserts an entry (R244): an identity present takes the new TAG and OUT; else a free way of b1, or of b2, or one
freed by up to 128 moves. -/
def negInsert (g : NegStore) (e : NegEntry) (s : State) : Option NegStore × State :=
  match negFind g e.cls e.key with
  | some (b, w) => (some (setWay g b w (some e)), s)
  | none =>
    let bs := negBuckets g e.cls e.key
    match negFree g bs.1, negFree g bs.2 with
    | some w, _ => (some (setWay g bs.1 w (some e)), s)
    | none, some w => (some (setWay g bs.2 w (some e)), s)
    | none, none => negKick 129 g bs.1 e s

/-- Deletes an identity; absent, nothing changes (R246). -/
def negDelete (g : NegStore) (c : Nat) (k : List Byte) : NegStore :=
  match negFind g c k with
  | some (b, w) => setWay g b w none
  | none => g

/-- Bytewise AND. -/
def andBytes : List Byte → List Byte → List Byte
  | a :: r, b :: t => (a &&& b) :: andBytes r t
  | _, _ => []

/-- The key a class cuts from a word, given the lane's previous word (R241). -/
def cutKey (c : NegClass) (w : BitVec 72) (prev : Option (BitVec 72)) : Option (List Byte) :=
  match c.format with
  | 0 => some (andBytes (leBytes 9 w.toNat) (leBytes 8 c.mask.toNat ++ [BitVec.ofNat 8 c.arg]))
  | 1 => some (leBytes 9 (bits w.toNat c.arg c.width))
  | _ => prev.map fun p =>
    andBytes (((leBytes 8 p.toNat) ++ leBytes 8 w.toNat).drop c.arg |>.take 8) (leBytes 8 c.mask.toNat) ++ [0]

/-- The definition's mask applied to a KEY of an insert or delete record (R245). -/
def maskKey (c : NegClass) (k : List Byte) : List Byte :=
  match c.format with
  | 0 => andBytes k (leBytes 8 c.mask.toNat ++ [BitVec.ofNat 8 c.arg])
  | 1 => leBytes 9 (leNat (k.take 8) % 2 ^ c.width)
  | _ => andBytes (k.take 8) (leBytes 8 c.mask.toNat) ++ [0]

/-- One class looks a word up (R240 to R242).  A candidate of a class that gives one where no entry matches has TAG 0, for which R229
names no entry (DESIGN CHOICE, log entry 141). -/
def negLookup (d n : Nat) (w : CWord) (prev : Option (BitVec 72)) (t : Stamp) (s : State) (c : Nat) : State :=
  let g := negOf s d
  let k := negClassAt g c (physFine s d t)
  let kind := bits w.side.toNat 6 2
  if !(k.enable && bitAt k.lanes n && bitAt k.kinds kind) then s
  else
    match cutKey k (wordBits w) prev with
    | none => s
    | some key9 =>
      match negFind g c key9 with
      | some (b, i) =>
        if k.absent then s
        else
          match negWay g b i with
          | some e => giveCand s d (0x20 + e.out) (e.tag * 256 + c * 16 + n) t t false
          | none => s
      | none => if k.absent then giveCand s d (0x20 + k.absOut) (c * 16 + n) t t false else s

/-- The Negative store looks up the keys cut from a lane's word; asleep or in Safelight mode it gives nothing. -/
def negJudge (s : State) (d n : Nat) (w : CWord) (prev : Option (BitVec 72)) (t : Stamp) : State :=
  if safelight s d || !awake s (uid d clNeg 0) then s
  else (List.range 16).foldl (negLookup d n w prev t) s

/-! ## TRIG_IN (R253) -/

/-- The edge matches the configured one: 0 rising, 1 falling, 2 either. -/
def edgeMatch (e : Nat) (rising : Bool) : Bool := e = 2 || (e = 0 && rising) || (e = 1 && !rising)

/-- The stamp of an edge of TRIG_IN[n] (R168, R171): with the INL applied and the pin's delay subtracted, so that it refers
to the ball; how a fraction of a fine unit rounds is a free bit.  While the DLL is unlocked it is coarse-only. -/
def trigStamp (s : State) (n : Nat) (r : RawStamp) : Stamp × State :=
  let t := tdcOf s 0
  if t.dll then
    let q := openDivInt s (sgn 8 ((t.inl[r.tap]?).getD 0).toNat) 16
    (fineStamp s (stampOf r.cap + BitVec.ofInt 64 (q.1 - r.tap - pinDelay n)), q.2)
  else (stampOf (coarse (stampOf r.cap - BitVec.ofNat 64 (pinDelay n))), s)

/-- An input's candidate. -/
def trigInGive (s : State) (n : Nat) (e : TrigEdge) : State :=
  giveCand s 0 (0x3C + n) (b2n e.rising) e.stamp e.stamp e.coarseOnly

/-- TRIG_IN_EDGE (R253): an edge arrives, and its raw stamp gives the stamp at the ball.  Without a FILTER the candidate is
given at once, else when the level has held for FILTER ticks.  Edges closer than one tick count once. -/
def execTrigInEdge (n : Nat) (rising : Bool) (cap tap : Nat) (s : State) : Out :=
  .next (
    if 4 ≤ n then s
    else
      let x := trigInOf s n
      let q := trigStamp s n ⟨cap, tap % 256, false⟩
      let e : TrigEdge := ⟨rising, q.1, !(tdcOf s 0).dll⟩
      let ph := physFine s 0 e.stamp
      let close := match x.lastTick with | some l => ph < l + 256 | none => false
      let x1 := { x with level := rising, pendEdge := none, lastTick := if close then x.lastTick else some ph }
      let s1 := setTrigIn q.2 n x1
      if !x.enable || !edgeMatch x.edge rising || close then s1
      else if x.filter = 0 then trigInGive s1 n e
      else setTrigIn s1 n { x1 with pendEdge := some e, pendAt := ph / 256 + x.filter })

/-- TRIG_IN_FILTER_EXPIRY (R253): the pin has held its new level for FILTER ticks; an edge in the last of them comes first
(R10). -/
def execTrigInFilterExpiry (n : Nat) (s : State) : Out :=
  .next (
    let x := trigInOf s n
    match x.pendEdge with
    | some e => whenB (x.pendAt < s.now) s fun s => trigInGive (setTrigIn s n { x with pendEdge := none }) n e
    | none => s)

/-! ## TRIG_OUT (R265 to R267) -/

/-- The least time between edges of a pin: 2 ticks, in fine units (R267). -/
def outGap : Nat := 512

/-- The pin takes the active level of a configuration, or its idle level, at a place in time. -/
def driveOut (x : TrigOut) (at_ : Nat) (g : OutCfg) (active : Bool) : TrigOut :=
  let v := if active then !g.invert else x.idle
  { x with active := active, level := v, lastEdge := if v = x.level then x.lastEdge else some at_ }

/-- The configuration an event at a place in time uses (R267). -/
def outCfgAt (x : TrigOut) (ph : Nat) : OutCfg :=
  ((x.cfgs.find? fun g => g.1 * 256 ≤ ph).map (·.2)).getD OutCfg.reset

/-- An edge an event owes to a pin, if its masks name the event (R265). -/
def outOwes (x : TrigOut) (id ph : Nat) : Option OutEdge :=
  let c := outCfgAt x ph
  let a := c.mode ≠ 0 && c.maskA.getLsbD id
  let b := c.mode = 3 && c.maskB.getLsbD id
  if a || b then some ⟨ph + (160 + c.offset) * 256, a, b, c⟩ else none

/-- Sorts an owed edge in; in SET_CLEAR mode edges of the same place join, so that SET wins over CLEAR, while in TOGGLE mode each
event inverts the pin (R266). -/
def outInsert (e : OutEdge) : List OutEdge → List OutEdge
  | [] => [e]
  | x :: r =>
    if x.at_ = e.at_ && e.cfg.mode = 3 && x.cfg = e.cfg then { x with a := x.a || e.a, b := x.b || e.b } :: r
    else if e.at_ < x.at_ then e :: x :: r
    else x :: outInsert e r

/-- An edge too close to the pin's last one (R267). -/
def tooClose (x : TrigOut) (at_ : Nat) : Bool := match x.lastEdge with | some l => at_ < l + outGap | none => false

/-- The first place at or after one at which an edge keeps its distance from the pin's last (R267). -/
def edgePlace (x : TrigOut) (at_ : Nat) : Nat := match x.lastEdge with | some l => max at_ (l + outGap) | none => at_

/-- A pulse that ends at least 2 ticks before a place in time has ended (R266, R267). -/
def endPulse (x : TrigOut) (at_ : Nat) : TrigOut :=
  match x.pulseEnd with
  | some t => if t + outGap ≤ at_ then driveOut { x with pulseEnd := none } t OutCfg.reset false else x
  | none => x

/-- A level edge is driven, unless it comes too close to the last, which SHT_OUT_DROP counts (R267). -/
def edgeOrDrop (s : State) (n : Nat) (x : TrigOut) (e : OutEdge) (active : Bool) : State :=
  if x.active = active then setTrigOut s n x
  else if tooClose x e.at_ then incF (setTrigOut s n x) 0 ⟨rShtOutDrop, 8 * n, 8⟩
  else setTrigOut s n (driveOut x e.at_ e.cfg active)

/-- A pin answers its earliest owed event, by the configuration that applies to the event: a pulse begins or is extended, the
level toggles, is set or cleared (R266, R267). -/
def outAnswer (s : State) (n : Nat) (x : TrigOut) (e : OutEdge) : State :=
  match e.cfg.mode with
  | 1 =>
    let y := { x with pulseEnd := some (e.at_ + e.cfg.width * 256) }
    setTrigOut s n (if x.active then y else driveOut y (edgePlace x e.at_) e.cfg true)
  | 2 => edgeOrDrop s n x e (!x.active)
  | 3 => edgeOrDrop s n x e e.a
  | _ => setTrigOut s n x

/-- A pulse is owed less than 2 ticks after a place in time, so that one under way there is extended (R267). -/
def pulseOwed (x : TrigOut) (at_ : Nat) : Bool :=
  match x.pend with | e :: _ => e.cfg.mode = 1 && e.at_ < at_ + outGap | [] => false

/-- The pin takes its new idle level at a place in time: a pulse under way ends there, unless the next extends it; an edge keeps 2 ticks
from the pin's last (R267; log entry 141). -/
def takeIdle (x : TrigOut) (at_ : Nat) (v : Bool) (r : List (Nat × Bool)) : TrigOut :=
  let y := endPulse x at_
  if y.active && pulseOwed y at_ then { y with idle := v, idles := r }
  else driveOut { y with idle := v, idles := r, pulseEnd := none } (edgePlace y at_) OutCfg.reset false

/-- TRIG_OUT_EDGE (R265 to R267): pin `n` takes its new idle level or answers its earliest owed event, whichever comes first. -/
def execTrigOutEdge (n : Nat) (s : State) : Out :=
  .next (
    let x := trigOutOf s n
    let edge := fun (e : OutEdge) (r : List OutEdge) =>
      whenB (e.at_ ≤ s.now * 256 + 255) s fun s => outAnswer s n (endPulse { x with pend := r } e.at_) e
    match x.idles, x.pend with
    | (t, v) :: q, e :: r =>
      if e.at_ < t * 256 then edge e r else whenB (t ≤ s.now) s fun s => setTrigOut s n (takeIdle x (t * 256) v q)
    | (t, v) :: q, [] => whenB (t ≤ s.now) s fun s => setTrigOut s n (takeIdle x (t * 256) v q)
    | [], e :: r => edge e r
    | [], [] => s)

/-- TRIG_OUT_PULSE_END (R266, R267): the pulse ends, unless an owed event lies less than 2 ticks after its end, which
extends it. -/
def execTrigOutPulseEnd (n : Nat) (s : State) : Out :=
  .next (
    let x := trigOutOf s n
    match x.pulseEnd with
    | none => s
    | some t =>
      whenB (t ≤ s.now * 256 + 255) s fun s =>
        match x.pend with
        | e :: r =>
          if e.cfg.mode = 1 && e.at_ < t + outGap then
            setTrigOut s n { x with pend := r, pulseEnd := some (e.at_ + e.cfg.width * 256) }
          else setTrigOut s n (driveOut { x with pulseEnd := none } t OutCfg.reset false)
        | [] => setTrigOut s n (driveOut { x with pulseEnd := none } t OutCfg.reset false))

end Sys2Proof.Machine
end

