-- ==== Sys2Proof/Machine/Line.lean ====
section
/-!
DEFINITION. Framing: line symbols into bits, and bits into capture words (R108 to R117).
-/

namespace Sys2Proof.Machine

/-! ## Bits -/

/-- The two bits of a PAM4 level, MSB first (R109). -/
def pamBits (gray : Bool) (v : Nat) : List Bool :=
  match v, gray with
  | 0, _ => [false, false]
  | 1, _ => [false, true]
  | 2, true => [true, true]
  | 2, false => [true, false]
  | _, true => [true, false]
  | _, false => [true, true]

/-- Line bits that one symbol gives (R109). -/
def bitsPer (l : Lane) : Nat := if l.pam4 then 2 else 1

/-- The symbol the slicer gives for a symbol at the balls: INVERT swaps the inputs ahead of the CTLE (R104), so the other
level of NRZ, or the level mirrored of PAM4. -/
def invSymbol (l : Lane) (v : Nat) : Nat :=
  if !l.invert then v else if l.pam4 then 3 - min 3 v else 1 - v % 2

/-- The line bits of a lane's UI in time order (R109), from its symbols at the balls. -/
def lineBits (l : Lane) (ui : List Nat) : List Bool :=
  if l.pam4 then ui.flatMap fun v => pamBits l.gray (invSymbol l v) else ui.map fun v => invSymbol l v % 2 = 1

/-- The number whose bit `j` is the `j`-th line bit (R108). -/
def bitsNat : List Bool → Nat
  | [] => 0
  | b :: r => b2n b + 2 * bitsNat r

/-- Line bits of one whole word of a mode other than 8B10B. -/
def wordLen : Framer → Nat
  | .raw => 64
  | .b64b66 => 66
  | .b128b130 => 130
  | .b8b10 => 80

/-! ## 8B10B (R112) -/

/-- The 5b/6b code of IEEE 802.3 clause 36, bits a to i from the most significant, at negative running disparity. -/
def sixNeg : List Nat :=
  [0b100111, 0b011101, 0b101101, 0b110001, 0b110101, 0b101001, 0b011001, 0b111000, 0b111001, 0b100101, 0b010101,
   0b110100, 0b001101, 0b101100, 0b011100, 0b010111, 0b011011, 0b100011, 0b010011, 0b110010, 0b001011, 0b101010,
   0b011010, 0b111010, 0b110011, 0b100110, 0b010110, 0b110110, 0b001110, 0b101110, 0b011110, 0b101011]

/-- The 3b/4b code, bits f to j, at negative running disparity. -/
def fourNeg : List Nat := [0b1011, 0b1001, 0b0101, 0b1100, 0b1101, 0b1010, 0b0110, 0b1110]

/-- Ones among the low `n` bits. -/
def ones : Nat → Nat → Nat
  | 0, _ => 0
  | n + 1, v => v % 2 + ones n (v / 2)

/-- The 6-bit code of a 5-bit value: complemented at positive disparity when unbalanced, and for 7. -/
def six (x : Nat) (pos : Bool) : Nat :=
  let c := (sixNeg[x]?).getD 0
  if pos && (ones 6 c ≠ 3 || x = 7) then 63 - c else c

/-- The 4-bit code of a 3-bit value: complemented at positive disparity when unbalanced, and for 3; 7 takes its
alternate form where the run would be too long. -/
def four (x y : Nat) (pos : Bool) : Nat :=
  if y = 7 && ((!pos && (x = 17 || x = 18 || x = 20)) || (pos && (x = 11 || x = 13 || x = 14))) then
    if pos then 0b1000 else 0b0111
  else
    let c := (fourNeg[y]?).getD 0
    if pos && (ones 4 c ≠ 2 || y = 3) then 15 - c else c

/-- The ten bits of a data character, a first from the most significant. -/
def encData (v : Nat) (pos : Bool) : Nat :=
  let x := v % 32
  let s := six x pos
  let pos2 := if ones 6 s = 3 then pos else !pos
  s * 16 + four x (v / 32) pos2

/-- The twelve control characters with their codes at negative disparity. -/
def ctrlCodes : List (Nat × Nat) :=
  [(0x1C, 0b0011110100), (0x3C, 0b0011111001), (0x5C, 0b0011110101), (0x7C, 0b0011110011), (0x9C, 0b0011110010),
   (0xBC, 0b0011111010), (0xDC, 0b0011110110), (0xFC, 0b0011111000), (0xF7, 0b1110101000), (0xFB, 0b1101101000),
   (0xFD, 0b1011101000), (0xFE, 0b0111101000)]

/-- The data characters a code could be, whatever the disparity. -/
def dataCands (c : Nat) : List Nat :=
  let xs := (List.range 32).filter fun x => six x true = c / 16 || six x false = c / 16
  xs.flatMap fun x => ((List.range 8).filter fun y => four x y true = c % 16 || four x y false = c % 16).map (x + 32 * ·)

/-- Decodes a code as a data character (`false`) or control character (`true`) at a running disparity. -/
def decAt (c : Nat) (pos : Bool) : Option (Nat × Bool) :=
  match ctrlCodes.find? fun k => (if pos then 1023 - k.2 else k.2) = c with
  | some k => some (k.1, true)
  | none => ((dataCands c).find? fun v => encData v pos = c).map fun v => (v, false)

/-- The running disparity after a six-bit sub-block, by the rules of clause 36 (R112). -/
def rdSix (pos : Bool) (b : Nat) : Bool :=
  if b = 0b000111 || 3 < ones 6 b then true else if b = 0b111000 || ones 6 b < 3 then false else pos

/-- The running disparity after a four-bit sub-block. -/
def rdFour (pos : Bool) (b : Nat) : Bool :=
  if b = 0b0011 || 2 < ones 4 b then true else if b = 0b1100 || ones 4 b < 2 then false else pos

/-- One received character: its value, whether it is a control character, and whether it has an error; then the
running disparity after it.  An invalid code is 0xFF with its control bit; a disparity error keeps the value (R112). -/
def decChar (pos : Bool) (c : Nat) : (Nat × Bool × Bool) × Bool :=
  let pos2 := rdFour (rdSix pos (c / 16)) (c % 16)
  match decAt c pos with
  | some (v, k) => ((v, k, false), pos2)
  | none =>
    match decAt c (!pos) with
    | some (v, k) => ((v, k, true), pos2)
    | none => ((0xFF, true, true), pos2)

/-- The ten-bit codes of line bits, the first bit most significant. -/
def tenBits : Nat → List Bool → List Nat
  | 0, _ => []
  | n + 1, l =>
    if l.length < 10 then [] else (l.take 10).foldl (fun a b => 2 * a + b2n b) 0 :: tenBits n (l.drop 10)

/-- Decodes characters in time order from a running disparity. -/
def decChars : Bool → List Nat → List (Nat × Bool × Bool) × Bool
  | pos, [] => ([], pos)
  | pos, c :: r =>
    let a := decChar pos c
    let b := decChars a.2 r
    (a.1 :: b.1, b.2)

/-- The word of a list of characters (R112). -/
def charWord (cs : List (Nat × Bool × Bool)) : CWord :=
  let ctl := cs.any fun c => c.2.1
  let e := cs.any fun c => c.2.2
  let pay := leNat (cs.map fun c => BitVec.ofNat 8 c.1)
  let flags := bitsNat (cs.map fun c => c.2.1)
  if ctl then dataWord 1 0 e (cs.length - 1) (BitVec.ofNat 64 (pay % 2 ^ 56 + flags % 128 * 2 ^ 56))
  else dataWord 0 0 e (cs.length - 1) (BitVec.ofNat 64 pay)

/-- How many of the characters close a word (R112): eight data characters, seven of which any is a control character, or
seven data characters once a control character follows them; none while the word is open. -/
def charsFull (cs : List (Nat × Bool × Bool)) : Option Nat :=
  if cs.length < 7 then none
  else if (cs.take 7).any fun c => c.2.1 then some 7
  else if cs.length < 8 then none
  else if (cs.take 8).all fun c => !c.2.1 then some 8
  else some 7

/-- The character is an invalid code (R110, R112); no valid control character has the value 0xFF. -/
def charBad (c : Nat × Bool × Bool) : Bool := c.1 = 0xFF && c.2.1

/-! ## Blocks (R113 to R115) -/

/-- SYNC, KIND and ERR of a sync header (R113), its first bit in SYNC bit 0. -/
def header (b0 b1 : Bool) : Nat × Nat × Bool :=
  match b0, b1 with
  | false, true => (0b10, 0, false)
  | true, false => (0b01, 1, false)
  | _, _ => (0b11, 0, true)

/-- The self-synchronising descrambler x^58 + x^39 + 1 (R114): output bits and the history after them. -/
def descramble : BitVec 58 → List Bool → List Bool × BitVec 58
  | h, [] => ([], h)
  | h, b :: r =>
    let o := (b != h.getLsbD 38) != h.getLsbD 57
    let t := descramble ((h <<< 1) ||| (if b then 1 else 0)) r
    (o :: t.1, t.2)

/-- The bits of one whole word or block stand at the front of a list, and no whole symbol follows them. -/
def wholeOf (l : Lane) (n : Nat) (bs : List Bool) : Bool := n ≤ bs.length && bs.length < n + bitsPer l

/-- The header at the front of a block is invalid (R113). -/
def headBad (bs : List Bool) : Bool := (header ((bs[0]?).getD false) ((bs[1]?).getD false)).2.2

/-- The words of one block or word's bits, each with whether it takes the second stamp; the lane after it (R111 to R115);
and how many of the bits they use.  None when the bits are not a whole word of the mode. -/
def frameWord (l : Lane) (bs : List Bool) : Option (List (CWord × Bool) × Lane × Nat) :=
  match l.framer with
  | .raw =>
    if wholeOf l 64 bs then some ([(dataWord 0 0 false 7 (BitVec.ofNat 64 (bitsNat (bs.take 64))), false)], l, 64) else none
  | .b8b10 =>
    let cs := tenBits 8 bs
    match charsFull (decChars l.rdPos cs).1 with
    | some k =>
      if bs.length < 10 * cs.length + bitsPer l then
        let r := decChars l.rdPos (cs.take k)
        some ([(charWord r.1, false)],
          { l with rdPos := r.2, heads := ((r.1.map charBad).reverse ++ l.heads).take 16 }, 10 * k)
      else none
    | none => none
  | .b64b66 =>
    if wholeOf l 66 bs then
      let h := header ((bs[0]?).getD false) ((bs[1]?).getD false)
      let p := (bs.take 66).drop 2
      let r := if l.descramble then descramble l.scram p else (p, l.scram)
      some ([(dataWord h.2.1 h.1 h.2.2 7 (BitVec.ofNat 64 (bitsNat r.1)), false)],
        { l with scram := r.2, heads := (h.2.2 :: l.heads).take 64 }, 66)
    else none
  | .b128b130 =>
    if wholeOf l 130 bs then
      let h := header ((bs[0]?).getD false) ((bs[1]?).getD false)
      let a := dataWord h.2.1 h.1 h.2.2 7 (BitVec.ofNat 64 (bitsNat ((bs.drop 2).take 64)))
      let b := dataWord h.2.1 0 h.2.2 7 (BitVec.ofNat 64 (bitsNat ((bs.drop 66).take 64)))
      some ([(a, false), (b, true)], { l with heads := (h.2.2 :: l.heads).take 64 }, 130)
    else none

/-! ## Alignment (R110) -/

/-- The bits of the word under way. -/
def partBits (l : Lane) : List Bool := l.carry ++ lineBits l l.part

/-- The headers or characters received have lost the alignment (R110): 4 invalid codes within 16 characters, those of the
word under way included, 16 invalid headers within 64 blocks of 64B66B, or 8 of 128B130B. -/
def alignLost (l : Lane) : Bool :=
  let bad := fun (h : List Bool) => (h.filter fun b => b).length
  match l.framer with
  | .raw => false
  | .b8b10 => 4 ≤ bad ((((decChars l.rdPos (tenBits 8 (partBits l))).1.map charBad).reverse ++ l.heads).take 16)
  | .b64b66 => 16 ≤ bad (l.heads.take 64)
  | .b128b130 => 8 ≤ bad (l.heads.take 64)

/-- The code is a comma of the set LANE_SET_FRAMER chose (R110): K28.5, or K28.1, K28.5 and K28.7. -/
def isComma (l : Lane) (c : Nat) : Bool :=
  let is := fun k => c = k || c = 1023 - k
  is 0b0011111010 || (l.anyComma && (is 0b0011111001 || is 0b0011111000))

/-- The first code of a list of line bits, its first bit most significant. -/
def firstCode (bs : List Bool) : Nat := (bs.take 10).foldl (fun a b => 2 * a + b2n b) 0

/-- The search for `need` blocks of `n` bits in a row with a valid header (R110), over `len` line bits at position `pos` with
`good` found so far: after an invalid header the framer slips one bit and counts anew.  It examines the header of the
next block at the new alignment (DEDUCED, log entry 139).  Gives the position of the last block and the bits after it. -/
def searchBlocks (n need : Nat) : Nat → Nat → Nat → Nat → List Bool → Option (Nat × Nat)
  | 0, _, _, _, _ => none
  | k + 1, pos, good, len, bs =>
    if len < n then none
    else if headBad bs then searchBlocks n need k (pos + n + 1) 0 (len - n - 1) (bs.drop (n + 1))
    else if good + 1 = need then some (pos, len - n)
    else searchBlocks n need k (pos + n) (good + 1) (len - n) (bs.drop n)

/-- The search for three commas (R110), one character at a time, over `len` line bits at position `pos`: until a comma has
been seen, a character that is none slips one bit; after one, an invalid code slips one bit and counts anew.  `seen` are
the codes since the first comma, newest first, `commas` the commas among them.  Gives the position of the third comma, the
bits after it, and the codes before it. -/
def searchCommas (l : Lane) : Nat → Nat → Nat → List Nat → Nat → List Bool → Option (Nat × Nat × List Nat)
  | 0, _, _, _, _, _ => none
  | k + 1, pos, commas, seen, len, bs =>
    let c := firstCode bs
    if len < 10 then none
    else if isComma l c then
      if commas = 2 then some (pos, len - 10, seen.reverse)
      else searchCommas l k (pos + 10) (commas + 1) (c :: seen) (len - 10) (bs.drop 10)
    else if commas = 0 || charBad (decChar false c).1 then searchCommas l k (pos + 11) 0 [] (len - 11) (bs.drop 11)
    else searchCommas l k (pos + 10) commas (c :: seen) (len - 10) (bs.drop 10)

/-- Where the last character or block of an alignment begins, the bits that follow it, and the lane with the running
disparity and the descrambler's history as they stand before it: it gives the first word of FRAMED (R124). -/
def alignBits (l : Lane) (bs : List Bool) : Option (Nat × Nat × Lane) :=
  match l.framer with
  | .raw => none
  | .b8b10 => (searchCommas l bs.length 0 0 [] bs.length bs).map fun r =>
      (r.1, r.2.1, { l with rdPos := (decChars false r.2.2).2 })
  | .b64b66 => (searchBlocks 66 64 bs.length 0 0 bs.length bs).map fun r =>
      (r.1, r.2, { l with scram := (descramble 0 ((bs.drop (r.1 - 64)).take 64)).2 })
  | .b128b130 => (searchBlocks 130 16 bs.length 0 0 bs.length bs).map fun r => (r.1, r.2, l)

/-- The symbols received since the search began complete the alignment with the last of them (R110): the lane after it.  On a
PAM4 lane the last block may begin with the second bit of a symbol, which is then carried. -/
def alignFound (l : Lane) (ui : List Nat) : Option Lane :=
  let bs := lineBits l ui
  match alignBits l bs with
  | some (pos, rest, x) =>
    if rest < bitsPer l then some { x with carry := if pos % bitsPer l = 0 then [] else (bs.drop pos).take 1 } else none
  | none => none

/-- The word a partly filled word closes as (R116): whole bytes in RAW mode, the characters so far in 8B10B, none for
blocks. -/
def partialWord (l : Lane) : Option CWord :=
  let bs := partBits l
  match l.framer with
  | .raw =>
    let n := bs.length / 8
    if n = 0 then none
    else some (dataWord 0 0 false (min n 8 - 1) (BitVec.ofNat 64 (bitsNat (bs.take (8 * n)))))
  | .b8b10 =>
    let r := decChars l.rdPos (tenBits 8 bs)
    if r.1.isEmpty then none else some (charWord r.1)
  | _ => none

end Sys2Proof.Machine
end

