-- ==== Sys2Proof/Machine/Lane.lean ====
section
/-!
DEFINITION. Lane receivers: rates, lane states, words, deskew and adaptation, and the lane commands (R100 to R143).
MONITOR_SWEEP stands in Machine/Monitor.lean, LANE_ACQUIRE_ENTRY in Machine/Units.lean.
-/

namespace Sys2Proof.Machine

/-! ## Rates (R101, R102) -/

/-- The unit ID of lane `n` of die `d`. -/
def laneUid (d n : Nat) : Nat := uid d clLane n

/-- The base rate of a lane's group in kBd; 0 while none is set (R135). -/
def laneBase (s : State) (d n : Nat) : Nat := (pllOf s d (1 + n / 4)).baseRate

/-- The configured line rate in kb/s (R101). -/
def lineRate (base : Nat) (l : Lane) : Nat := base * (1 + b2n l.pam4) / 2 ^ l.divLog2

/-- The line rate of a lane; 0 while OFF (R143). -/
def laneRate (s : State) (d n : Nat) : Nat :=
  let l := laneOf s d n
  if l.state == .off then 0 else lineRate (laneBase s d n) l

/-- The rate lies in a range of R101: 1.25 to 32.0 Gb/s NRZ, 20.0 to 56.25 Gb/s PAM4. -/
def rateOk (base : Nat) (l : Lane) : Bool :=
  let r := base * (1 + b2n l.pam4)
  if l.pam4 then 20000000 * 2 ^ l.divLog2 ≤ r && r ≤ 56250000 * 2 ^ l.divLog2
  else 1250000 * 2 ^ l.divLog2 ≤ r && r ≤ 32000000 * 2 ^ l.divLog2

/-- The ticks that `n` UI of a lane take, rounded up (R5, R101); 0 without a base rate. -/
def uiTicks (s : State) (d k n : Nat) : Nat :=
  let b := laneBase s d k
  if b = 0 then 0 else ceilDiv (n * 2 ^ (laneOf s d k).divLog2 * 1750000) b

/-- `n` UI of a lane in fine units, rounded to nearest. -/
def uiFine (s : State) (d k n : Nat) : Nat :=
  let b := laneBase s d k
  if b = 0 then 0 else (n * 2 ^ (laneOf s d k).divLog2 * 448000000 * 2 + b) / (2 * b)

/-! ## Lane states and partner (R121 to R125) -/

def laneStCode : LaneSt → Nat
  | .off => 0
  | .sleep => 1
  | .listen => 2
  | .acquire => 3
  | .locked => 4
  | .framed => 5

/-- The lane is LOCKED or FRAMED. -/
def laneLive (l : Lane) : Bool := l.state == .locked || l.state == .framed

/-- The attach state: FRAMED, or LOCKED in RAW mode (R124). -/
def inAttach (l : Lane) : Bool := l.state == .framed || (l.state == .locked && l.framer == .raw)

/-- The squelch detector runs, and reports signal (R121). -/
def signalSeen (l : Lane) : Bool := l.signal && !(l.state == .off || l.state == .sleep)

/-- Posts EV_LANE_STATE (R142). -/
def laneEvent (s : State) (d n : Nat) (prev : LaneSt) (cause tick : Nat) : State :=
  let l := laneOf s d n
  let att := (unitOf s (laneUid d n)).partner ≠ 0
  post s d 0x0101 (laneUid d n) tick
    (leBytes 1 (laneStCode l.state) ++ leBytes 1 (laneStCode prev) ++ leBytes 1 cause ++
      leBytes 1 (b2n (signalSeen l) + 2 * b2n att) ++ leBytes 4 (laneRate s d n))

/-- Moves a lane to a state and reports the change. -/
def setLaneState (s : State) (d n : Nat) (st : LaneSt) (cause tick : Nat) : State :=
  let l := laneOf s d n
  laneEvent (setLane s d n { l with state := st }) d n l.state cause tick

/-- A mark of the lane's own Roll stream (R189). -/
def laneMark (s : State) (d n code data qual tick : Nat) : State := addMark s d n code data 0 qual (stampOf tick)

/-- Posts EV_PARTNER_ATTACH for a unit and enters its kind (R56, R60). -/
def attachPartner (s : State) (d u kind flags tick : Nat) (detail : List Byte) : State :=
  post (setUnit s u { unitOf s u with partner := kind }) d 0x0003 u tick
    (leBytes 1 kind ++ leBytes 1 flags ++ leBytes 2 0 ++ detail)

/-- Posts EV_PARTNER_DETACH for a unit and clears its partner (R56, R60). -/
def detachPartner (s : State) (d u reason tick ticks : Nat) : State :=
  let x := unitOf s u
  post (setUnit s u { x with partner := 0 }) d 0x0004 u tick
    (leBytes 1 x.partner ++ leBytes 1 0 ++ leBytes 1 reason ++ leBytes 1 0 ++ leBytes 4 ticks)

def framerCode : Framer → Nat
  | .raw => 0
  | .b8b10 => 1
  | .b64b66 => 2
  | .b128b130 => 3

/-- The LINK partner attaches (R56, R189). -/
def linkAttach (s : State) (d n tick : Nat) : State :=
  let l := laneOf s d n
  let s1 := attachPartner s d (laneUid d n) 1 0 tick
    (leBytes 1 (framerCode l.framer) ++ leBytes 1 (b2n l.pam4) ++ leBytes 2 0 ++ leBytes 4 (laneRate s d n))
  laneMark s1 d n 0x06 (2 ^ 48) 0 tick

/-- The LINK partner detaches with a reason, some ticks after its loss (R56, R185). -/
def linkDetach (s : State) (d n reason tick ticks : Nat) : State :=
  let s1 := detachPartner s d (laneUid d n) reason tick ticks
  laneMark s1 d n 0x07 (2 ^ 48 + reason * 2 ^ 40 + ticks % 2 ^ 32) 0 tick

/-! ## Words (R116, R117) -/

/-- A word has its ERR bit set (R182). -/
def wordErr (w : CWord) : Bool := w.side.getLsbD 3

/-- A capture word leaves the framer: counters, matcher, Negative store and look-back. -/
def laneWord (s : State) (d n : Nat) (w : CWord) (t : Stamp) : State :=
  let l0 := laneOf s d n
  let l := takeLoads l0 (physFine s d t) l0.loads
  let prev := l.prevWord
  let s1 := setLane s d n { l with
    words := (l.words + 1) % 2 ^ 64, hist := (wordBits w :: l.hist).take 8, prevWord := some (wordBits w) }
  let s2 := if wordErr w then incF s1 d (fLaneErrCntCount n) else s1
  addWord (negJudge (matcherJudge s2 d n t) d n w prev t) d n w t

/-- Sets a lane's DELAY: its Roll stream takes the signed change of stamp (R129). -/
def setDelay (s : State) (d n v : Nat) : State :=
  let l := laneOf s d n
  let step : Int := if l.delay ≤ v then (uiFine s d n (v - l.delay) : Int) else -(uiFine s d n (l.delay - v) : Int)
  let s1 := setLane s d n { l with delay := v }
  if step = 0 then s1 else lookAdd s1 d n (markEntry s1 d (mkTimeStep step 4) 0x02 0 (nowStamp s1 d))

/-- A change of DELAY takes effect (R129); its command completes with the last of its lanes. -/
def takeDelay (s : State) (d n : Nat) (a : DelayAsk) : State :=
  let s1 := setDelay s d n a.delay
  if (List.range 16).any fun i => (laneOf s1 d i).delays.any fun b => b.fid = a.fid then s1
  else unitDone s1 a.fid a.unit 0 0 a.result (dieTime s1 d)

/-- At a word boundary the changes of DELAY that waited take effect in order (R129). -/
def delaysDue (s : State) (d n : Nat) : State :=
  let l := laneOf s d n
  l.delays.foldl (fun s a => takeDelay s d n a) (setLane s d n { l with delays := [] })

/-- Asks for a change of DELAY: it waits while a word is under way (R129). -/
def askDelay (s : State) (d n : Nat) (a : DelayAsk) : State :=
  let l := laneOf s d n
  let s1 := setLane s d n { l with delays := l.delays ++ [a] }
  if inAttach l && !l.part.isEmpty then s1 else delaysDue s1 d n

/-- The lane leaves its attach state (R124, R125): the partly filled word closes (R116), MK_LOCK_LOSS follows, and
the signal counts as lost. -/
def leaveAttach (s : State) (d n cause tick : Nat) : State :=
  let l := laneOf s d n
  if !inAttach l then s
  else
    let s1 := match partialWord l with
      | some w => laneWord s d n w l.partStamp
      | none => s
    let s2 := laneMark (delaysDue s1 d n) d n 0x04 (cause * 2 ^ 48) 0 tick
    let l2 := laneOf s2 d n
    let att := (unitOf s2 (laneUid d n)).partner ≠ 0
    setLane s2 d n { l2 with
      part := [], carry := [], heads := [], hist := [], prevWord := none
      lossAt := if att then some (physOf s2 d tick) else none
      lossT := getF s2 d (fLaneDetachTTUs n) }

/-- The signal of a lane has stayed lost for the detach time in force at the loss, up to a place on the physical time line:
the LINK partner has detached at the tick the timer expired (R56, R59, R125).  A return in that tick comes first (R58). -/
def linkExpire (s : State) (d n ph : Nat) : State :=
  let l := laneOf s d n
  match l.lossAt with
  | some t =>
    let e := t + l.lossT * usTicks
    if e < ph then linkDetach (setLane s d n { l with lossAt := none }) d n 1 (tickAt s d e) (l.lossT * usTicks) else s
  | none => s

/-- The lane enters its attach state (R124, R125): the LINK partner attaches unless it still is, and MK_LOCK_GAIN is
written; MK_TIME precedes the first word. -/
def enterAttach (s0 : State) (d n cause tick : Nat) : State :=
  let s := linkExpire s0 d n (physOf s0 d tick)
  let l := laneOf s d n
  let s1 := setLane s d n { l with lossAt := none, part := [], heads := [], hist := [], prevWord := none }
  let s2 := if (unitOf s1 (laneUid d n)).partner = 0 then linkAttach s1 d n tick else s1
  laneMark s2 d n 0x05 (cause * 2 ^ 48 + laneRate s2 d n * 2 ^ 16) 0 tick

/-- Points of a pass of a sweep (R132). -/
def sweepPoints (w : Sweep) : Nat :=
  ((w.phStop - w.phStart).toNat / w.phStep + 1) * ((w.vStop - w.vStart).toNat / w.vStep + 1)

/-- Ends a sweep in progress: EV_MONITOR_DONE, at the end of its last point, with its points, those of all passes counted
(DESIGN CHOICE, log entry 119), the points of a pass, and why it ended (R133, R142). -/
def endSweep (s : State) (d n flags : Nat) : State :=
  let l := laneOf s d n
  match l.sweep with
  | none => s
  | some w =>
    post (setLane s d n { l with sweep := none }) d 0x0103 (laneUid d n) w.lastAt
      (leBytes 4 w.total ++ leBytes 4 (sweepPoints w) ++ leBytes 1 flags)

/-- The result of LANE_ADAPT and data of EV_LANE_ADAPT_DONE (R138). -/
def eqBytes (l : Lane) : List Byte :=
  leBytes 1 l.ctle ++ leBytes 1 (unsgn 8 l.dfe) ++ leBytes 1 l.cursor ++ leBytes 1 l.gain

/-- The adaptation mode of block 0 CTLE, 1 FFE or 2 DFE (R106). -/
def eqMode (l : Lane) (k : Nat) : Nat := if k = 0 then l.modeCtle else if k = 1 then l.modeFfe else l.modeDfe

/-- A LANE_ADAPT of the blocks in `blocks` adapts a block: one it selects, unless the block is FIXED, whose values are never
changed (R106; DEDUCED, log entry 121). -/
def adaptSel (l : Lane) (blocks k : Nat) : Bool := bitAt blocks k && eqMode l k ≠ 0

/-- A block adapts on the live signal: in CONTINUOUS mode, or in a LANE_ADAPT (R106, R138). -/
def adapts (l : Lane) (k : Nat) : Bool :=
  laneLive l && (eqMode l k = 2 || (match l.adapt with | some a => adaptSel l a.blocks k | none => false))

/-- A value of at most `k` LSB distance from `v` in a range, by a free value. -/
def moveBy (k : Nat) (lo hi v : Int) (f : W64) : Int :=
  let a := max lo (v - k)
  let b := min hi (v + k)
  a + (f.toNat : Int) % (b - a + 1)

/-- Moves the values of the given blocks by at most `k` LSB each, to free values (R106, R138). -/
def moveEq (s : State) (d n k : Nat) (c f e : Bool) : State :=
  let l := laneOf s d n
  let r := drawMany 27 s
  let at_ := fun i => (r.1[i]?).getD 0
  setLane r.2 d n { l with
    ctle := if c then (moveBy k 0 48 l.ctle (at_ 24)).toNat else l.ctle
    gain := if c then (moveBy k 0 63 l.gain (at_ 25)).toNat else l.gain
    dfe := if e then moveBy k (-128) 127 l.dfe (at_ 26) else l.dfe
    ffe := if f then (List.range 24).map fun i => moveBy k (-128) 127 ((l.ffe[i]?).getD 0) (at_ i) else l.ffe }

/-- Whole spans of 2^16 UI since the lane's equaliser values were last brought up to date: the most LSB a coefficient can
have moved by (R106). -/
def eqSteps (s : State) (d n : Nat) : Nat := (s.now - (laneOf s d n).eqAt) / max 1 (uiTicks s d n (2 ^ 16))

/-- The spans counted are used up. -/
def eqStamp (s : State) (d n : Nat) : State :=
  let l := laneOf s d n
  setLane s d n { l with eqAt := l.eqAt + eqSteps s d n * max 1 (uiTicks s d n (2 ^ 16)) }

/-- Brings a lane's equaliser values up to date: adapting blocks have moved on the live signal, by at most one LSB per
2^16 UI (R106, R138).  Where they move is not specified: free values (log entry 2). -/
def driftEq (s : State) (d n : Nat) : State :=
  let l := laneOf s d n
  let k := eqSteps s d n
  if k = 0 || !(adapts l 0 || adapts l 1 || adapts l 2) then s
  else eqStamp (moveEq s d n k (adapts l 0) (adapts l 1) (adapts l 2)) d n

/-- A ONCE adaptation under way is broken off: its blocks keep what they have reached, which is not specified: free values
(R106, R123, log entry 2). -/
def breakOnce (s : State) (d n : Nat) : State :=
  let l := laneOf s d n
  if l.onceEnd.isSome then moveEq s d n 256 (l.modeCtle ≠ 0) (l.modeFfe ≠ 0) (l.modeDfe ≠ 0) else s

/-- What a lane gives up on leaving LOCKED and FRAMED, or ACQUIRE: its sweep and adaptations.  A LANE_ADAPT stops at once,
keeps the coefficients it reached and completes with ABORTED (R133, R138).  EV_MONITOR_DONE has flag [1] lock lost alone, also
where a UNIT_SLEEP ends the sweep or a STOP is pending (DESIGN CHOICE, log entry 139). -/
def leaveLive (s : State) (d n : Nat) : State :=
  let s1 := breakOnce (driftEq (endSweep s d n 2) d n) d n
  let l := laneOf s1 d n
  let s2 := setLane s1 d n { l with cdrLock := false, frameLock := false, onceEnd := none, adapt := none }
  match l.adapt with
  | some a => unitDone s2 a.fid (laneUid d n) stAborted 0 (eqBytes l) (dieTime s2 d)
  | none => s2

/-- CDR lock is lost, the squelch reports no signal, or a PLL loses lock (R123, R125): the lane enters ACQUIRE.  After the
loss of a PLL it enters ACQUIRE anew, and no later entry runs ONCE adaptation. -/
def toAcquire (s : State) (d n cause tick : Nat) : State :=
  let l := laneOf s d n
  let s1 := leaveLive (leaveAttach s d n cause tick) d n
  let s2 := if l.cdrLock && cause ≠ 6 then incF s1 d (fLaneLossCntCdr n) else s1
  let s3 := setLane s2 d n { laneOf s2 d n with onceDue := l.onceDue && cause ≠ 4 && cause ≠ 6 }
  if l.state == .acquire then s3 else setLaneState s3 d n .acquire cause tick

/-- The state an enabled lane sleeps in. -/
def sleepState (l : Lane) : LaneSt := if !l.enable then .off else if l.listen then .listen else .sleep

/-- The lane's unit leaves AWAKE (R57, R121): it leaves its attach state, its partner detaches UNWATCHED, and it takes
LISTEN or SLEEP. -/
def laneStop (s : State) (d n cause tick : Nat) : State :=
  let s1 := leaveLive (leaveAttach (linkExpire s d n (physOf s d tick)) d n cause tick) d n
  let l := laneOf s1 d n
  let ticks := match l.lossAt with | some t => physOf s1 d tick - t | none => 0
  let s2 := if (unitOf s1 (laneUid d n)).partner = 0 then s1 else linkDetach s1 d n 5 tick ticks
  let l2 := laneOf s2 d n
  setLaneState (setLane s2 d n { l2 with lossAt := none, onceDue := false }) d n (sleepState l2) cause tick

/-- The lane's unit enters STARTING: its word count restarts (R143), and ONCE adaptation is due again (R123). -/
def laneStart (s : State) (d n : Nat) : State :=
  setLane s d n { laneOf s d n with words := 0, onceDue := true, cdrLock := false, frameLock := false }

/-- The lane becomes LOCKED (R123): in RAW mode that is its attach state. -/
def toLocked (s : State) (d n cause tick : Nat) : State :=
  let l := laneOf s d n
  let s1 := setLane s d n { l with state := .locked, onceDue := false, onceEnd := none, eqAt := s.now }
  laneEvent (if l.framer == .raw then enterAttach s1 d n cause tick else s1) d n l.state cause tick

/-! ## Lane events -/

/-- SQUELCH_CHANGE (R122, R123): the detector's report changes. -/
def execSquelchChange (d n : Nat) (on : Bool) (s : State) : Out :=
  onDie d s fun s =>
    let l := laneOf s d n
    whenB (n < 16 && l.signal != on) s fun s =>
      let s1 := setLane s d n { l with signal := on }
      match l.state with
      | .listen => laneEvent s1 d n .listen 1 (dieTime s1 d)
      | .acquire | .locked | .framed => if on then s1 else toAcquire s1 d n 1 (dieTime s1 d)
      | _ => s1

/-- Some equaliser block adapts in this wake (R106). -/
def adaptsOnce (l : Lane) : Bool := l.modeCtle ≠ 0 || l.modeFfe ≠ 0 || l.modeDfe ≠ 0

/-- LANE_CDR: the offset of the recovered clock, which follows the input within the CDR's limits: a free value between them;
0 without CDR lock (R103, R143, log entry 120). -/
def cdrOfs (l : Lane) (free : Nat) : Nat := if l.cdrLock then unsgn 32 (-535000 + (free % 570001 : Nat)) else 0

/-- A frequency offset in 0.01 ppm that the CDR tracks (R103): ±350 ppm, and a down-spread of up to 5,000 ppm below that
(DEDUCED, log entry 120). -/
def cdrTracks (v : Int) : Bool := -535000 ≤ v && v ≤ 35000

/-- CDR_LOCK (R103, R123): with signal, an input within the CDR's limits and the LPLL locked, on a die whose clock runs
(R163), the CDR locks; ONCE adaptation
follows from the host's values at the first lock of a wake, else the lane is LOCKED. -/
def execCdrLock (d n : Nat) (freqOfs : W32) (s : State) : Out :=
  onDie d s fun s =>
    let l := laneOf s d n
    whenB (n < 16 && !faulted s d && l.state == .acquire && !l.cdrLock && l.signal && cdrTracks freqOfs.toInt &&
        (pllOf s d (1 + n / 4)).locked) s fun s =>
      let l1 := { l with cdrLock := true }
      if l.onceDue && adaptsOnce l then
        setLane s d n { l1 with
          ctle := if l.modeCtle = 0 then l.ctle else l.hostCtle
          ffe := if l.modeFfe = 0 then l.ffe else l.hostFfe
          dfe := if l.modeDfe = 0 then l.dfe else l.hostDfe
          onceEnd := some (s.now + uiTicks s d n (2 ^ 21)) }
      else toLocked (setLane s d n l1) d n 2 (dieTime s d)

/-- A value an adaptation reached, at most `k` LSB from where it was and in its range. -/
def reach (k : Nat) (lo hi old v : Int) : Int := max (max lo (old - k)) (min (min hi (old + k)) v)

/-- The equaliser values an adaptation reached enter the selected blocks, at most `k` LSB from where they were and within
their ranges (R105, R106). -/
def takeEq (l : Lane) (k : Nat) (ctle ffe dfe : Bool) (e : EqVals) : Lane :=
  { l with
    ctle := if ctle then (reach k 0 48 l.ctle e.ctle).toNat else l.ctle
    gain := if ctle then (reach k 0 63 l.gain e.gain).toNat else l.gain
    ffe := if ffe then (List.range 24).map fun i => reach k (-128) 127 ((l.ffe[i]?).getD 0) ((e.ffe[i]?).getD 0) else l.ffe
    dfe := if dfe then reach k (-128) 127 l.dfe e.dfe else l.dfe }

/-- ONCE_ADAPT_END (R106, R123): 2^21 UI after the CDR lock the adapted values stand and the lane is LOCKED. -/
def execOnceAdaptEnd (d n : Nat) (eq : EqVals) (s : State) : Out :=
  onDie d s fun s =>
    let l := laneOf s d n
    match l.onceEnd with
    | some t =>
      whenB (n < 16 && !faulted s d && t ≤ s.now && l.state == .acquire) s fun s =>
        let l1 := takeEq l 256 (l.modeCtle ≠ 0) (l.modeFfe ≠ 0) (l.modeDfe ≠ 0) eq
        let s1 := post (setLane s d n l1) d 0x0102 (laneUid d n) (dieTime s d) (eqBytes l1)
        toLocked s1 d n 2 (dieTime s d)
    | none => s

/-- CDR_LOCK_LOSS (R103, R123). -/
def execCdrLockLoss (d n : Nat) (s : State) : Out :=
  onDie d s fun s =>
    let l := laneOf s d n
    whenB (n < 16 && l.cdrLock) s fun s => toAcquire s d n 2 (dieTime s d)

/-- FRAME_ALIGN_FOUND (R110, R124): the symbols `ui`, from the first of the search to the last, complete the alignment; at
the coarse tick of the stamp of the last of them the lane is FRAMED. -/
def execFrameAlignFound (d n : Nat) (ui : List Nat) (stamp : Stamp) (s : State) : Out :=
  onDie d s fun s =>
    let l := laneOf s d n
    match alignFound l ui with
    | some l1 =>
      whenB (n < 16 && !faulted s d && l.state == .locked) s fun s =>
        let stamp := fineStamp s stamp
        let s1 := enterAttach (setLane s d n { l1 with state := .framed, frameLock := true }) d n 3 (coarse stamp)
        laneEvent s1 d n .locked 3 (coarse stamp)
    | none => s

/-- FRAME_ALIGN_LOST (R110, R124): the headers or characters received decide the loss, and the lane is LOCKED again from
the tick after the deciding one's coarse tick. -/
def execFrameAlignLost (d n : Nat) (stamp : Stamp) (s : State) : Out :=
  onDie d s fun s =>
    whenB (n < 16 && (laneOf s d n).state == .framed && alignLost (laneOf s d n)) s fun s =>
      let t := coarse (fineStamp s stamp) + 1
      let s1 := incF (leaveAttach s d n 3 t) d (fLaneLossCntFrame n)
      setLaneState (setLane s1 d n { laneOf s1 d n with frameLock := false }) d n .locked 3 t

/-- A word of a lane holds the marker of a deskew (R128): an 8B10B comma of the lane's set, a 64B66B control block with the
given block type byte, or the first half of a 128B130B ordered-set block. -/
def isMarker (l : Lane) (a : AutoDeskew) (w : CWord) : Bool :=
  let ctl := w.side.toNat / 64 = 1
  match l.framer, a.marker with
  | .b8b10, 0 => ctl && (List.range 7).any fun i =>
      let v := (w.pay >>> (8 * i)).toNat % 256
      w.pay.getLsbD (56 + i) && (v = 0xBC || (l.anyComma && (v = 0x3C || v = 0xFC)))
  | .b64b66, 1 => ctl && w.pay.toNat % 256 = a.blockType
  | .b128b130, 2 => ctl && w.side.toNat / 16 % 4 = 0b01
  | _, _ => false

/-- A deskew that waits for the lane's marker has it with this word (R128). -/
def noteMarker (s : State) (d n : Nat) (w : CWord) : State :=
  match (dieClk s d).autoDeskew with
  | some a =>
    if bitAt a.mask n && isMarker (laneOf s d n) a w then
      setDieClk s d { dieClk s d with autoDeskew := some { a with seen := a.seen ||| 2 ^ n } }
    else s
  | none => s

/-- The words of a block enter the lane in order, the later ones with the second stamp. -/
def laneWords (s : State) (d n : Nat) (t t2 : Stamp) : List (CWord × Bool) → State
  | [] => s
  | (w, second) :: r => laneWords (laneWord (noteMarker s d n w) d n w (if second then t2 else t)) d n t t2 r

/-- The lane after words that used the first `k` line bits of `bs`, given by the symbols `ui`: what is left of the symbols
begins the next word. -/
def restPart (l : Lane) (bs : List Bool) (ui : List Nat) (k : Nat) (stamp : Stamp) (l1 : Lane) : Lane :=
  let c := ceilDiv (k - l.carry.length) (bitsPer l)
  { l1 with
    carry := (bs.take (l.carry.length + c * bitsPer l)).drop k
    part := ui.drop c
    partStamp := stamp }

/-- CAPTURE_WORD (R108 to R117): the symbols of the word under way, as the slicer gives them, pass the stamp point.  A whole
word or block gives its words, with the stamp of the last UI of each; where an 8B10B control character closes the seven
data characters before it, it begins the next word, and `stamp2` is its own stamp.  Fewer symbols are the part of a word
under way, and `stamp` is then that of the last UI of its last whole byte or character (R116, R117). -/
def execCaptureWord (d n : Nat) (ui : List Nat) (stamp stamp2 : Stamp) (s : State) : Out :=
  onDie d s fun s =>
    let l := laneOf s d n
    let stamp := fineStamp s stamp
    let stamp2 := fineStamp s stamp2
    whenB (n < 16 && !faulted s d && inAttach l && !alignLost l) s fun s =>
      let bs := l.carry ++ lineBits l ui
      match frameWord l bs with
      | some (ws, l1, k) =>
        let s1 := laneWords (setLane s d n (restPart l bs ui k stamp2 l1)) d n stamp stamp2 ws
        if (laneOf s1 d n).part.isEmpty then delaysDue s1 d n else s1
      | none => setLane s d n { l with part := ui, partStamp := stamp }

/-- LINK_DETACH_TIMEOUT (R56, R125): the signal has stayed lost for the detach time in force at the loss. -/
def execLinkDetachTimeout (d n : Nat) (s : State) : Out :=
  onDie d s fun s => whenB (n < 16) s fun s => linkExpire s d n s.now

/-- LANE_ADAPT_END (R138): the adaptation reaches its duration, and the command completes; the values it reached lie within
the step limit.  A FIXED block keeps its values (R105, R106). -/
def execLaneAdaptEnd (d n : Nat) (eq : EqVals) (s : State) : Out :=
  onDie d s fun s =>
    let l := laneOf s d n
    match l.adapt with
    | some a =>
      whenB (n < 16 && a.endAt ≤ s.now) s fun s =>
        let k := eqSteps s d n
        let s1 := driftEq s d n
        let l0 := laneOf s1 d n
        let l1 := { takeEq { l0 with ctle := l.ctle, gain := l.gain, ffe := l.ffe, dfe := l.dfe } k (adaptSel l a.blocks 0)
            (adaptSel l a.blocks 1) (adaptSel l a.blocks 2) eq with adapt := none }
        let l2 := { l1 with
          ctle := if adaptSel l a.blocks 0 then l1.ctle else l0.ctle
          gain := if adaptSel l a.blocks 0 then l1.gain else l0.gain
          ffe := if adaptSel l a.blocks 1 then l1.ffe else l0.ffe
          dfe := if adaptSel l a.blocks 2 then l1.dfe else l0.dfe }
        let s2 := setLane s1 d n l2
        let u := laneUid d n
        unitDone (post s2 d 0x0102 u (dieTime s2 d) (eqBytes l2)) a.fid u 0 0 (eqBytes l2) (dieTime s2 d)
    | none => s

/-! ## Deskew (R127 to R130) -/

/-- The result bytes of LANE_DESKEW: one per lane, 0xFF outside the mask (R139). -/
def deskewBytes (mask : Nat) (f : Nat → Nat) : List Byte :=
  (List.range 16).map fun i => BitVec.ofNat 8 (if bitAt mask i then f i else 0xFF)

/-- DESKEW_MARKERS_SEEN (R128, R130): each masked lane has given the marker within the window, at its place in UI on one scale;
the lanes are delayed to the latest, unless the skew exceeds 64 UI.  With no lane in the mask nothing is awaited, and the
command completes at once with SUCCESS (DESIGN CHOICE, log entry 139).  A skew above 255 UI, which does not fit its result byte, is
reported as 255 (DESIGN CHOICE, log entry 122). -/
def execDeskewMarkersSeen (d : Nat) (arrivals : List Nat) (s : State) : Out :=
  onDie d s fun s =>
    match (dieClk s d).autoDeskew with
    | none => s
    | some a =>
      whenB (s.now ≤ a.endAt && (a.seen &&& a.mask) = a.mask) s fun s =>
        let lanes := (List.range 16).filter fun i => bitAt a.mask i
        let at_ := fun i => (arrivals[i]?).getD 0
        let last := (lanes.map at_).foldl max 0
        let skew := fun i => last - at_ i
        let s1 := setDieClk s d { dieClk s d with autoDeskew := none }
        let u := uid d clDie 0
        if lanes.any fun i => 64 < skew i then
          unitDone s1 a.fid u stNoResource 0 (deskewBytes a.mask fun i => min 255 (skew i)) (dieTime s1 d)
        else
          if lanes.isEmpty then unitDone s1 a.fid u 0 0 (deskewBytes a.mask skew) (dieTime s1 d)
          else
            let s2 := lanes.foldl (fun s i =>
              setLane s d i { laneOf s d i with
                delays := (laneOf s d i).delays ++ [⟨skew i, a.fid, u, deskewBytes a.mask skew⟩] }) s1
            lanes.foldl (fun s i => if (laneOf s d i).part.isEmpty then delaysDue s d i else s) s2

/-- DESKEW_WINDOW_TIMEOUT (R130): a marker is missing; no DELAY changes. -/
def execDeskewWindowTimeout (d : Nat) (s : State) : Out :=
  onDie d s fun s =>
    match (dieClk s d).autoDeskew with
    | none => s
    | some a =>
      whenB (a.endAt < s.now) s fun s =>
        let s1 := setDieClk s d { dieClk s d with autoDeskew := none }
        unitDone s1 a.fid (uid d clDie 0) stTimedOut 0 [] (dieTime s1 d)

/-! ## Lane commands (R134 to R141) -/

/-- Byte `k` of a payload. -/
def pb (c : Cmd) (k : Nat) : Nat := fld c.payload k 1

/-- The lanes of a lane group. -/
def groupLanes (g : Nat) : List Nat := [4 * g, 4 * g + 1, 4 * g + 2, 4 * g + 3]

/-- The settings a LANE_CONFIGURE payload gives a lane. -/
def laneCfg (l : Lane) (c : Cmd) : Lane :=
  { l with
    enable := bitAt (pb c 0) 0, listen := bitAt (pb c 0) 1, invert := bitAt (pb c 0) 2, pam4 := bitAt (pb c 0) 3
    divLog2 := pb c 1, squelch := pb c 2 }

/-- The payload of LANE_CONFIGURE suits a unit of its class (R135). -/
def laneCfgPayOk (c : Cmd) (u : Nat) : Bool :=
  if uCls u = clLaneGroup then restOk c 4
  else pb c 0 < 16 && pb c 1 < 4 && pb c 2 < 16 && restOk c 3

def laneConfigureDef : CmdDef where
  op := 0x0101
  cls := fun k _ => k == clLane || k == clLaneGroup
  onGroup := false
  payOk := fun s c => fitsSome s c (laneCfgPayOk c)
  eff := fun c _ u s =>
    let d := uDie u
    let i := uIdx u
    if uCls u = clLaneGroup then
      let b := fld c.payload 0 4
      if !restOk c 4 then (s, err stBadPayload)
      else if (groupLanes i).any fun n => pwOf s (laneUid d n) != .asleep then (s, err stBadState)
      else if b < 10000000 || 32000000 < b ||
          ((groupLanes i).any fun n => (laneOf s d n).enable && !rateOk b (laneOf s d n)) then
        (s, err stRateUnsupported)
      else
        let p := pllOf s d (1 + i)
        (setPll s d (1 + i) { p with baseRate := b, offset := 0, step := p.step.map fun r => { r with target := 0 } },
          .done 0 (leBytes 4 b) 0)
    else
      let l := laneCfg (laneOf s d i) c
      if !(pb c 0 < 16 && pb c 1 < 4 && pb c 2 < 16 && restOk c 3) then (s, err stBadPayload)
      else if pwOf s u != .asleep then (s, err stBadState)
      else if l.enable && !rateOk (laneBase s d i) l then (s, err stRateUnsupported)
      else
        let s1 := setLane s d i l
        let s2 := if l.state == sleepState l then s1 else setLaneState s1 d i (sleepState l) 0 (dieTime s1 d)
        (s2, .done 0 (leBytes 4 (laneRate s2 d i)) 0)

/-- LANE_CONFIGURE (R121, R135).  To a lane group it clears the LPLL's offset (R149): a step that still runs then ends at
offset 0 (DEDUCED, log entry 123). -/
def execLaneConfigure (c : Cmd) (s : State) : Out := startCmd laneConfigureDef c s

def framerOf : Nat → Framer
  | 0 => .raw
  | 1 => .b8b10
  | 2 => .b64b66
  | _ => .b128b130

def laneSetFramerDef : CmdDef where
  op := 0x0102
  cls := onClass clLane
  onGroup := false
  payOk := fun _ c =>
    pb c 0 < 4 && pb c 1 < 8 && (!bitAt (pb c 1) 0 || pb c 0 = 2) && restOk c 2
  eff := fun c _ u s =>
    let d := uDie u
    let n := uIdx u
    let l := laneOf s d n
    let f := framerOf (pb c 0)
    let same := l.framer == f && l.descramble == bitAt (pb c 1) 0 && l.gray == bitAt (pb c 1) 1 &&
      l.anyComma == bitAt (pb c 1) 2
    if same then (s, ok)
    else
      let t := dieTime s d
      let s1 := leaveAttach s d n 5 t
      let l1 := { laneOf s1 d n with
        framer := f, descramble := bitAt (pb c 1) 0, gray := bitAt (pb c 1) 1, anyComma := bitAt (pb c 1) 2
        frameLock := false }
      let s2 := setLane s1 d n l1
      if laneLive l then
        let s3 := setLane s2 d n { l1 with state := .locked }
        let s4 := if f == .raw then enterAttach s3 d n 5 t else s3
        (if l.state == .framed then laneEvent s4 d n .framed 5 t else s4, ok)
      else (s2, ok)

/-- LANE_SET_FRAMER (R126, R136). -/
def execLaneSetFramer (c : Cmd) (s : State) : Out := startCmd laneSetFramerDef c s

def laneSetEqualiserDef : CmdDef where
  op := 0x0103
  cls := onClass clLane
  onGroup := false
  payOk := fun _ c =>
    let m := pb c 0
    bits m 0 2 < 3 && bits m 2 2 < 3 && bits m 4 2 < 3 && pb c 1 ≤ 48 && 2 ≤ pb c 2 && pb c 2 ≤ 8 &&
      restOk c 28
  eff := fun c _ u s =>
    let l := laneOf s (uDie u) (uIdx u)
    let m := pb c 0
    if l.adapt.isSome then (s, err stBusy)
    else
      let ffe := (List.range 24).map fun i => sgn 8 (pb c (4 + i))
      (setLane s (uDie u) (uIdx u) { l with
        modeCtle := bits m 0 2, modeFfe := bits m 2 2, modeDfe := bits m 4 2, cdrBw := bits m 6 2
        ctle := pb c 1, cursor := pb c 2, dfe := sgn 8 (pb c 3), ffe := ffe
        hostCtle := pb c 1, hostDfe := sgn 8 (pb c 3), hostFfe := ffe, eqAt := s.now }, ok)

/-- LANE_SET_EQUALISER (R106, R137); the gain is left unchanged (R105).  A ONCE block written in ACQUIRE, before or during its
run in this wake, still runs or ends that run, over the written values (DESIGN CHOICE, log entry 139). -/
def execLaneSetEqualiser (c : Cmd) (s : State) : Out := startCmd laneSetEqualiserDef c s

def laneAdaptDef : CmdDef where
  op := 0x0104
  cls := onClass clLane
  onGroup := false
  payOk := fun _ c => pb c 0 < 8 && 16 ≤ pb c 1 && pb c 1 ≤ 24 && restOk c 2
  eff := fun c fid u s =>
    let d := uDie u
    let n := uIdx u
    let l := laneOf s d n
    if !laneLive l then (s, err stBadState)
    else if l.adapt.isSome then (s, err stBusy)
    else
      let s1 := driftEq s d n
      (setLane s1 d n { laneOf s1 d n with
        adapt := some ⟨fid, pb c 0, s.now + uiTicks s d n (2 ^ pb c 1)⟩, eqAt := s.now }, .wait)

/-- LANE_ADAPT (R138): completes at LANE_ADAPT_END. -/
def execLaneAdapt (c : Cmd) (s : State) : Out := startCmd laneAdaptDef c s

/-- The payload of LANE_DESKEW is valid (R134, R139).  The bytes that belong to the other way must be 0 (DESIGN CHOICE, log
entry 122). -/
def deskewPayOk (c : Cmd) : Bool :=
  let w := fld c.payload 8 4
  if pb c 0 = 0 then pb c 1 ≤ 64 && restOk c 2
  else pb c 0 = 1 && pb c 1 = 0 && pb c 4 < 3 && fld c.payload 6 2 = 0 && 1 ≤ w && w ≤ 1000000 && restOk c 12

def laneDeskewDef : CmdDef where
  op := 0x0105
  cls := fun k _ => k == clLane || k == clDie
  onGroup := false
  payOk := fun s c => deskewPayOk c && fitsSome s c fun u => pb c 0 = 1 || uCls u = clLane
  eff := fun c fid u s =>
    let d := uDie u
    let n := uIdx u
    if pb c 0 = 0 then
      if uCls u ≠ clLane then (s, err stBadPayload)
      else (askDelay s d n ⟨pb c 1, fid, u, deskewBytes (2 ^ n) fun _ => pb c 1⟩, .pend)
    else if uCls u ≠ clDie then (s, err stNotPermitted)
    else
      let mask := fld c.payload 2 2
      if (List.range 16).any fun i => bitAt mask i && (laneOf s d i).state != .framed then (s, err stBadState)
      else if (dieClk s d).autoDeskew.isSome then (s, err stBusy)
      else
        (setDieClk s d { dieClk s d with
          autoDeskew := some ⟨fid, mask, pb c 4, pb c 5, s.now + fld c.payload 8 4 * usTicks, 0⟩ }, .pend)

/-- LANE_DESKEW (R128, R139). -/
def execLaneDeskew (c : Cmd) (s : State) : Out := startCmd laneDeskewDef c s

def laneReadStatusDef : CmdDef where
  op := 0x0107
  cls := onClass clLane
  onGroup := false
  payOk := restZero 0
  eff := fun _ _ u s =>
    let d := uDie u
    let n := uIdx u
    let s1 := driftEq s d n
    let l := laneOf s1 d n
    let a := drawFree (if l.onceEnd.isSome then moveEq s1 d n 256 (l.modeCtle ≠ 0) false (l.modeDfe ≠ 0) else s1)
    let l1 := laneOf a.2 d n
    (a.2, .done 0 (leBytes 1 (laneStCode l1.state) ++ leBytes 1 l1.ctle ++ leBytes 1 (unsgn 8 l1.dfe) ++ leBytes 1 l1.delay ++
      leBytes 4 (cdrOfs l1 a.1.toNat) ++ leBytes 4 (getF s d (fLaneErrCntCount n))) 0)

/-- LANE_READ_STATUS (R141), of the equaliser values as adaptation has moved them. -/
def execLaneReadStatus (c : Cmd) (s : State) : Out := startCmd laneReadStatusDef c s

end Sys2Proof.Machine
end

