-- ==== Sys2Proof/Machine/Rings.lean ====
section
/-!
DEFINITION. Reports of bad writes (R500, R506, R507), and the rings of the host ports: doorbells, enabling and
disabling, events, interrupts and stream buffers (R70 to R95).
-/

namespace Sys2Proof.Machine

/-! ## Reports (R500, R506, R507, R622) -/

/-- The unit ID of a die. -/
def dieUid (d : Nat) : Nat := uid d clDie 0

/-- Posts the report of a die's unreported bad writes when the last one lies 2^16 ticks back (R507). -/
def reportBad (s : State) (d : Nat) : State :=
  let c := cfgOf s d
  let due : Bool := match c.badLast with | some l => l + 2 ^ 16 ≤ s.now | none => true
  match c.badFirst with
  | some (t, data) =>
    if due then
      post (setCfg s d { c with badSince := 0, badFirst := none, badLast := some s.now }) d 0x0F10 (dieUid d) t
        (data ++ leBytes 4 (min c.badSince (2 ^ 32 - 1)))
    else s
  | none => s

/-- As `reportBad`, for lock violations. -/
def reportLock (s : State) (d : Nat) : State :=
  let c := cfgOf s d
  let due : Bool := match c.lockLast with | some l => l + 2 ^ 16 ≤ s.now | none => true
  match c.lockFirst with
  | some (t, data) =>
    if due then
      post (setCfg s d { c with lockSince := 0, lockFirst := none, lockLast := some s.now }) d 0x0F11 (dieUid d) t
        (data ++ leBytes 4 (min c.lockSince (2 ^ 32 - 1)))
    else s
  | none => s

/-- A discarded write to a reserved location (R506): BAR 0 or 2, reason of R510, receiving port, byte enables, offset
in the BAR and dword.  Die `d` records it, and the function of the port signals a Completer Abort. -/
def badWrite (s : State) (d bar reason port be ofs : Nat) (v : W32) : State :=
  let s0 := setPort s port { portOf s port with aerAbort := true }
  let s1 := setFlag (incF s0 d fCfgBadwrCntCount) d fCfgStatBadWrite true
  let s2 := setReg s1 d rCfgBadwrAddr (BitVec.ofNat 32 (2 ^ 31 + b2n (bar = 2) * 2 ^ 28 + ofs % 2 ^ 26))
  let c := cfgOf s2 d
  let data := leBytes 1 bar ++ leBytes 1 reason ++ leBytes 1 port ++ leBytes 1 be ++ leBytes 4 ofs ++ leBytes 4 v.toNat
  reportBad (setCfg s2 d { c with
    badSince := c.badSince + 1, badFirst := if c.badFirst.isSome then c.badFirst else some (dieTime s2 d, data) }) d

/-- A write discarded by a lock (R500, R622): kind 1 locked block, 2 WO1 register, 3 ring lock; the lock bit, window
offset and dword. -/
def lockViol (s : State) (d kind bit ofs : Nat) (v : W32) : State :=
  let s1 := setFlag (incF s d fCfgLockViolCntCount) d fCfgStatLockViol true
  let s2 := setReg s1 d rCfgLockOfs (BitVec.ofNat 32 (2 ^ 31 + ofs / 4 * 4 % 2 ^ 23))
  let c := cfgOf s2 d
  let data := leBytes 1 kind ++ leBytes 1 bit ++ leBytes 2 0 ++ leBytes 4 ofs ++ leBytes 4 v.toNat
  reportLock (setCfg s2 d { c with
    lockSince := c.lockSince + 1, lockFirst := if c.lockFirst.isSome then c.lockFirst else some (dieTime s2 d, data) }) d

/-! ## Suspension of the configuration check (R496) -/

/-- The check of a die is suspended, and a reference being taken is given up (R496). -/
def suspendCheck (s : State) (d : Nat) : State :=
  setCfg (setFlag s d fCfgStatCrcSuspended true) d { cfgOf s d with capture := none, resume := false }

/-! ## Ports and rings -/

/-- Die `p` has a host-facing port (R25).  A fenced die's port is gone, save die 0's, which keeps its boot window (R13). -/
def isPort (s : State) (p : Nat) : Bool := p < nDies s && !(portOf s p).drive && (p = 0 || !fenced s p)

/-- The PCIe capabilities of a port's function (R63). -/
inductive PciCap where
  | msix
  | advancedErrors
  | serialNumber
  | powerManagement
  deriving DecidableEq, Repr

/-- A base address register (R64): its size in bytes, and whether it is 64 bits wide and prefetchable. -/
structure PciBar where
  size : Nat
  wide : Bool
  prefetch : Bool
  deriving DecidableEq, Repr

/-- The physical function a host-facing port presents (R64): Device ID, class code, BAR0 and BAR2, MSI-X table entries, serial
number and capabilities. -/
structure PciFunction where
  device : Nat
  cls : Nat
  bar0 : PciBar
  bar2 : PciBar
  vectors : Nat
  serial : W64
  caps : List PciCap
  deriving DecidableEq, Repr

/-- The function of port `p` (R63, R64): the primary function, or a data-port function with the next Device ID and only
the port's own blocks at BAR0.  In the boot window, while ROLE is 0, the spec gives no identity: every port then shows the
primary function's (DESIGN CHOICE, log entry 137). -/
def pciFunction (s : State) (p : Nat) : PciFunction :=
  let data : Bool := getF s p fHstPortIdRole = 2
  let bar := fun n => PciBar.mk n true false
  ⟨partCode s.part + b2n data, 0x118000, bar (if data then 64 * 2 ^ 10 else 64 * 2 ^ 20), bar (64 * 2 ^ 20), 2048, Config.serial,
    [.msix, .advancedErrors, .serialNumber, .powerManagement]⟩

/-- The host reaches a port's function: PERST# is released, and configuration requests are answered (R66). -/
def portShown (s : State) (p : Nat) : Bool := isPort s p && !(portOf s p).perst && !(portOf s p).crs

/-- An access of the host through the function of port `p`. -/
def onPort (p : Nat) (s : State) (f : State → State) : Out :=
  onDie p s fun s => whenB (portShown s p) s f

/-- The unit of a host port. -/
def portUid (p : Nat) : Nat := uid p clHostPort 0

/-- The primary port (R65): the one whose HST_PORT_ID.ROLE is 1. -/
def primaryPort (s : State) : Nat := ((List.range 8).find? fun p => getF s p fHstPortIdRole = 1).getD 0

/-- Steps from index `a` forward to index `b` in a ring of a depth. -/
def ringDist (dep a b : Nat) : Nat := (b + dep - a % dep) % dep

/-- A depth code is valid (R72). -/
def depthOk (log2 : Nat) : Bool := 4 ≤ log2 && log2 ≤ 16

/-- A ring of a port enters ERROR (R75, R99): the STAT register's fields, RING_ERR, and EV_RING_ERROR. -/
def ringError (s : State) (regDie port kind n : Nat) (st er : Fld) (err : Nat) : State :=
  let s1 := setF (setF s regDie st rsError) regDie er err
  post (setFlag s1 port fHstPortStatRingErr true) port 0x0F02 (portUid port) (dieTime s port)
    (leBytes 1 kind ++ leBytes 1 0 ++ leBytes 2 n ++ leBytes 1 err)

def cmdRingError (s : State) (p kind n err : Nat) : State :=
  ringError s p p kind n (fHstCrStatState n) (fHstCrStatErr n) err

def strRingError (s : State) (port r err : Nat) : State :=
  ringError s 0 port 4 r (fHstSrStatState r) (fHstSrStatErr r) err

/-! ## Event ring (R87, R88, R90) -/

/-- The bytes of an event entry. -/
def evBytes (e : Ev) (phase : Bool) : List Byte :=
  leBytes 2 e.code ++ leBytes 2 (b2n phase + 2 * b2n e.late) ++ leBytes 4 e.unit ++ leBytes 8 e.time ++ padTo 16 e.data

/-- The event ring of a port runs and has a free slot; in the boot window none is written (R13, R66).  While its link is down a ring that runs takes no entry, and its
events are held as for a full ring (DESIGN CHOICE, log entry 117). -/
def evSlot (s : State) (p : Nat) : Bool :=
  let dep := ringDepth (getF s p fHstEvrCtlLog2Depth)
  getF s p fHstEvrStatState = rsRunning && linkUp s p && s.ready &&
    ringDist dep (evRing s p).cons (getF s p fHstEvrStatIndex) + 1 < dep

/-- Writes an event entry at the producer index. -/
def evWrite (s : State) (p : Nat) (e : Ev) : State :=
  let q := evRing s p
  let i := getF s p fHstEvrStatIndex
  let ctl := reg s p rHstEvrCtl
  let s1 := hostWrite s p (pairAddr s p rHstEvrBaseLo rHstEvrBaseHi + 32 * i) (evBytes e q.phase)
  let last := i + 1 = ringDepth (getF s p fHstEvrCtlLog2Depth)
  let m := moderate s1 p ctl q.irqN q.irqAt
  let s2 := setEvRing m.2 p { q with phase := if last then !q.phase else q.phase, irqN := m.1.1, irqAt := m.1.2 }
  setF s2 p fHstEvrStatIndex (if last then 0 else i + 1)

/-- Counts an event lost for a port (R90). -/
def evLose (s : State) (p : Nat) (e : Ev) : State :=
  let q := evRing s p
  let s1 := setFlag (incF s p fHstEvLostCntCount) p fHstPortStatEvLost true
  setEvRing s1 p { q with
    lost := q.lost + 1, lostFirst := if q.lost = 0 then e.time else q.lostFirst, lostLast := e.time }

/-- EV_EVENTS_LOST of a port (R90). -/
def lostEvent (p : Nat) (q : EvRing) : Ev :=
  ⟨0x0F01, portUid p, q.lostFirst, leBytes 4 q.lost ++ leBytes 4 0 ++ leBytes 8 q.lostLast, 0, false⟩

/-- Delivers an event to a port: into its ring, or held, or lost (R67, R90). -/
def evDeliver (s : State) (p : Nat) (e : Ev) : State :=
  let q := evRing s p
  if q.dropAll then evLose s p e
  else if q.held.isEmpty && q.lost = 0 && evSlot s p then evWrite s p e
  else if q.held.length < 256 then setEvRing s p { q with held := q.held ++ [e] }
  else evLose s p e

/-- The event goes to a port: by its mask, or because it concerns the port's own rings (R88). -/
def evWanted (s : State) (p : Nat) (e : Ev) : Bool :=
  isPort s p && (bitAt (getF s p fHstEvMaskRange) (e.code / 256) ||
    ((e.code = 0x0F02 || e.code = 0x0F01) && e.unit = portUid p))

/-- Writes what waits for a slot: EV_EVENTS_LOST first, then held events in order (R90).  EV_EVENTS_LOST also goes to the
other ports whose mask asks for it (R88). -/
def flushHeld (p : Nat) : Nat → State → State
  | 0, s => s
  | n + 1, s =>
    let q := evRing s p
    if !evSlot s p then s
    else if q.lost ≠ 0 then
      let e := lostEvent p q
      flushHeld p n ((List.range 8).foldl (fun s r => if r ≠ p && evWanted s r e then evDeliver s r e else s)
        (evWrite (setEvRing s p { q with lost := 0 }) p e))
    else match q.held with
      | [] => s
      | e :: r => flushHeld p n (evWrite (setEvRing s p { q with held := r }) p e)

/-- Routes an event to every port that wants it. -/
def evRoute (s : State) (e : Ev) : State :=
  (List.range 8).foldl (fun s p => if evWanted s p e then evDeliver s p e else s) s

/-- An event's rank by code among those of one TIME and unit; EV_READY precedes the INITIAL attaches of its tick (R59). -/
def evRank (code : Nat) : Nat := if code = 0x0D01 then 0 else code + 1

/-- The order of events (R30): timestamp, unit ID, then the order of simultaneous Shutter events.  R30 does not order two
events of one TIME and unit with different codes; here the lower code comes first (DESIGN CHOICE, log entry 108). -/
def evBefore (a b : Ev) : Bool :=
  let x := stampDiff (BitVec.ofNat 64 a.time) (BitVec.ofNat 64 b.time)
  x < 0 || (x = 0 && (a.unit < b.unit || (a.unit = b.unit && (evRank a.code < evRank b.code || (a.code = b.code && a.sub < b.sub)))))

/-- The first event of a list in order, with the rest in their places. -/
def evFirst : List Ev → Option (Ev × List Ev)
  | [] => none
  | e :: r =>
    match evFirst r with
    | some (f, t) => if evBefore f e then some (f, e :: t) else some (e, r)
    | none => some (e, [])

/-- An event's release time has passed on die 0 (R89): TIME plus 7,000 ticks. -/
def released (s : State) (e : Ev) : Bool :=
  stampLe (BitVec.ofNat 64 e.time + stampOf 7000) (nowStamp s 0 + 255)

/-- EVENT_RELEASE (R89): the first held event in order is written once its release time has come. -/
def execEventRelease (s : State) : Out :=
  .next (match evFirst s.host.merge with
    | some (e, r) =>
      whenB (!(dieClk s 0).holding && !fenced s 0 && released s e) s fun s => evRoute { s with host := { s.host with merge := r } } e
    | none => s)

/-- EVENT_LATE_ARRIVAL (R89, R164): the `k`-th event in transit reaches die 0; past its release time it is written at
once with LATE. -/
def execEventLateArrival (k : Nat) (s : State) : Out :=
  .next (match s.host.transit[k]? with
    | some x =>
      whenB (!evWaits s x.die && !fenced s 0) s fun s =>
        let s1 := { s with host := { s.host with transit := s.host.transit.eraseIdx k } }
        if pastRelease s1 x.ev then evRoute s1 { x.ev with late := true }
        else { s1 with host := { s1.host with merge := s1.host.merge ++ [x.ev] } }
    | none => s)

/-! ## Doorbells (R70, R71, R75) -/

/-- A doorbell write that counts as a write to a reserved location (R71), with the byte enables and the dword of the write. -/
def badDoorbell (s : State) (p ofs be : Nat) (w : W32) : State := badWrite s p 2 3 p be ofs w

/-- A ring in this state takes doorbells (R71). -/
def takesBell (st : Nat) : Bool := st = rsRunning || st = rsDraining

/-- The host moves a command ring's producer index to `v` (R70, R75), by a write of the dword `w` with byte enables `be`. -/
def cmdBell (port n be : Nat) (w : W32) (v : Nat) (s : State) : State :=
  let dep := ringDepth (getF s port (fHstCrCtlLog2Depth n))
  let q := cmdRing s port n
  let cons := getF s port (fHstCrStatIndex n)
  if !takesBell (getF s port (fHstCrStatState n)) || 2 ^ 16 ≤ v then badDoorbell s port (8 * n) be w
  else if dep ≤ v || dep ≤ ringDist dep cons q.prod + ringDist dep q.prod v then cmdRingError s port 1 n 1
  else setCmdRing s port n { q with prod := v }

/-- CMD_DOORBELL (R70, R75). -/
def execCmdDoorbell (port n v : Nat) (s : State) : Out :=
  onPort port s fun s => whenB (n < 64) s (cmdBell port n 15 (BitVec.ofNat 32 v) v)

/-- The host moves a completion ring's consumer index, never past the device's producer (R70, R75). -/
def cqBell (port n be : Nat) (w : W32) (v : Nat) (s : State) : State :=
  let dep := ringDepth (getF s port (fHstCqCtlLog2Depth n))
  let q := cplRing s port n
  if !takesBell (getF s port (fHstCrStatState n)) || 2 ^ 16 ≤ v then badDoorbell s port (0x1000 + 8 * n) be w
  else if dep ≤ v || ringDist dep q.cons q.prod < ringDist dep q.cons v then
    cmdRingError (setCplRing s port n { q with err := true }) port 2 n 1
  else setCplRing s port n { q with cons := v }

/-- CQ_DOORBELL (R70, R75). -/
def execCqDoorbell (port n v : Nat) (s : State) : Out :=
  onPort port s fun s => whenB (n < 64) s (cqBell port n 15 (BitVec.ofNat 32 v) v)

/-- The host moves the event ring's consumer index, and held events follow into the slots (R75, R90). -/
def evrBell (port be : Nat) (w : W32) (v : Nat) (s : State) : State :=
  let dep := ringDepth (getF s port fHstEvrCtlLog2Depth)
  let q := evRing s port
  let prod := getF s port fHstEvrStatIndex
  if !takesBell (getF s port fHstEvrStatState) || 2 ^ 16 ≤ v then badDoorbell s port 0x1200 be w
  else if dep ≤ v || ringDist dep q.cons prod < ringDist dep q.cons v then
    ringError s port port 3 0 fHstEvrStatState fHstEvrStatErr 1
  else flushHeld port 258 (setEvRing s port { q with cons := v })

/-- EVR_DOORBELL (R75, R90). -/
def execEvrDoorbell (port v : Nat) (s : State) : Out :=
  onPort port s (evrBell port 15 (BitVec.ofNat 32 v) v)

/-- The host posts buffers of a stream ring through the BAR2 of its bound port (R71, R75, R94). -/
def srBell (port r be : Nat) (w : W32) (v : Nat) (s : State) : State :=
  let dep := ringDepth (getF s 0 (fHstSrCtlLog2Depth r))
  let q := strRing s r
  let cons := getF s 0 (fHstSrStatIndex r)
  if getF s 0 (fHstSrCtlPort r) ≠ port || !takesBell (getF s 0 (fHstSrStatState r)) || 2 ^ 16 ≤ v then
    badDoorbell s port (0x2000 + 8 * r) be w
  else if dep ≤ v || dep ≤ ringDist dep cons q.prod + ringDist dep q.prod v then strRingError s port r 1
  else setStrRing s r { q with prod := v }

/-- SR_DOORBELL (R71, R75, R94). -/
def execSrDoorbell (port r v : Nat) (s : State) : Out :=
  onPort port s fun s => whenB (r < 512) s (srBell port r 15 (BitVec.ofNat 32 v) v)

/-! ## Ring control registers (R74, R91, R622) -/

/-- Writes a ring control register whose locked fields (`lockMask`) keep their values while the ring is not DISABLED;
a change of them is a ring-lock violation (R622).  `rw` are the bits software writes, `v` is the register with the enabled
bytes replaced, and `w` the dword written. -/
def ringWrite (s : State) (d ofs rw lockMask : Nat) (locked : Bool) (v w : W32) : State :=
  let m : W32 := BitVec.ofNat 32 (if locked then rw - (rw &&& lockMask) else rw)
  let old := reg s d ofs
  let s1 := setReg s d ofs ((old &&& ~~~m) ||| (v &&& m))
  if locked && ((old ^^^ v) &&& BitVec.ofNat 32 lockMask) ≠ 0 then lockViol s1 d 3 0xFF ofs w else s1

/-- A write to an HST register of a die whose PORT lock is set is discarded (R498, R500). -/
def hstLocked (s : State) (d ofs : Nat) (v : W32) (f : State → State) : State :=
  if lockSet s d 5 then lockViol s d 1 5 ofs v else f s

/-- HST_CR_CTL is written with EN set (R74): the pair starts with indices 0 and phase 1, or in ERROR when a depth is
invalid. -/
def crEnable (port n : Nat) (v w : W32) (s : State) : State :=
  hstLocked s port (rHstCrCtl n) w fun s =>
    let dis := getF s port (fHstCrStatState n) = rsDisabled
    let s1 := ringWrite s port (rHstCrCtl n) 0x8003001F 0x1F (!dis) v w
    if !dis then s1
    else
      let s2 := setCplRing (setCmdRing s1 port n CmdRing.reset) port n CplRing.reset
      let s3 := setReg s2 port (rHstCrStat n) 0
      if !depthOk (getF s3 port (fHstCrCtlLog2Depth n)) then cmdRingError s3 port 1 n 3
      else if !depthOk (getF s3 port (fHstCqCtlLog2Depth n)) then cmdRingError s3 port 2 n 3
      else setF s3 port (fHstCrStatState n) rsRunning

/-- CMD_RING_ENABLE (R74). -/
def execCmdRingEnable (port n : Nat) (v : W32) (s : State) : Out :=
  onPort port s fun s => whenB (n < 64 && v.getLsbD 31) s (crEnable port n v v)

/-- HST_CR_CTL is written with EN clear (R74): a pair that is RUNNING or in ERROR drains. -/
def crDisable (port n : Nat) (v w : W32) (s : State) : State :=
  hstLocked s port (rHstCrCtl n) w fun s =>
    let st := getF s port (fHstCrStatState n)
    let s1 := ringWrite s port (rHstCrCtl n) 0x8003001F 0x1F (st ≠ rsDisabled) v w
    if st = rsRunning || st = rsError then setF s1 port (fHstCrStatState n) rsDraining else s1

/-- CMD_RING_DISABLE (R74). -/
def execCmdRingDisable (port n : Nat) (v : W32) (s : State) : Out :=
  onPort port s fun s => whenB (n < 64 && !v.getLsbD 31) s (crDisable port n v v)

/-- HST_EVR_CTL is written with EN set (R74, R90): events held for the port follow at once. -/
def evrEnable (port : Nat) (v w : W32) (s : State) : State :=
  hstLocked s port rHstEvrCtl w fun s =>
    let dis := getF s port fHstEvrStatState = rsDisabled
    let s1 := ringWrite s port rHstEvrCtl 0xFFFFFF9F 0x1F (!dis) v w
    if !dis then s1
    else
      let q := evRing s1 port
      let s2 := setReg (setEvRing s1 port { q with cons := 0, phase := true, irqN := 0, irqAt := none, dropAll := false })
        port rHstEvrStat 0
      if !depthOk (getF s2 port fHstEvrCtlLog2Depth) then
        ringError s2 port port 3 0 fHstEvrStatState fHstEvrStatErr 3
      else flushHeld port 258 (setF s2 port fHstEvrStatState rsRunning)

/-- HST_EVR_CTL is written with EN clear (R74): the ring stops at once. -/
def evrDisable (port : Nat) (v w : W32) (s : State) : State :=
  hstLocked s port rHstEvrCtl w fun s =>
    let s1 := ringWrite s port rHstEvrCtl 0xFFFFFF9F 0x1F (getF s port fHstEvrStatState ≠ rsDisabled) v w
    setF s1 port fHstEvrStatState rsDisabled

/-- EVENT_RING_ENABLE (R74, R90). -/
def execEventRingEnable (port : Nat) (v : W32) (s : State) : Out :=
  onPort port s fun s => whenB (v.getLsbD 7) s (evrEnable port v v)

/-- EVENT_RING_DISABLE (R74). -/
def execEventRingDisable (port : Nat) (v : W32) (s : State) : Out :=
  onPort port s fun s => whenB (!v.getLsbD 7) s (evrDisable port v v)

/-- A die's port can serve a stream ring (R91): a fitted, unfenced host endpoint with its link up. -/
def portServes (s : State) (p : Nat) : Bool := isPort s p && linkUp s p

/-- HST_SR_CTL is written with EN set (R91): the depth is checked first, then the port. -/
def srEnable (r : Nat) (v w : W32) (s : State) : State :=
  hstLocked s 0 (rHstSrCtl r) w fun s =>
    let dis := getF s 0 (fHstSrStatState r) = rsDisabled
    let s1 := ringWrite s 0 (rHstSrCtl r) 0xFFFF1D1F 0x1C1F (!dis) v w
    if !dis then s1
    else
      let s2 := setReg (setStrRing s1 r StrRing.reset) 0 (rHstSrStat r) 0
      if !depthOk (getF s2 0 (fHstSrCtlLog2Depth r)) then strRingError s2 (primaryPort s2) r 3
      else if !portServes s2 (getF s2 0 (fHstSrCtlPort r)) then strRingError s2 (primaryPort s2) r 5
      else setF s2 0 (fHstSrStatState r) rsRunning

/-- HST_SR_CTL is written with EN clear (R91): a ring that is RUNNING or in ERROR drains its open buffer. -/
def srDisable (r : Nat) (v w : W32) (s : State) : State :=
  hstLocked s 0 (rHstSrCtl r) w fun s =>
    let st := getF s 0 (fHstSrStatState r)
    let s1 := ringWrite s 0 (rHstSrCtl r) 0xFFFF1D1F 0x1C1F (st ≠ rsDisabled) v w
    if st = rsRunning || st = rsError then setF s1 0 (fHstSrStatState r) rsDraining else s1

/-- The host reaches the registers of die 0, through the primary function after EV_READY (R65, R487). -/
def mainShown (s : State) : Bool := !off s && s.ready && portShown s (primaryPort s)

/-- STREAM_RING_ENABLE (R91). -/
def execStreamRingEnable (r : Nat) (v : W32) (s : State) : Out :=
  .next (whenB (mainShown s && r < 512 && v.getLsbD 8) s (srEnable r v v))

/-- STREAM_RING_DISABLE (R91). -/
def execStreamRingDisable (r : Nat) (v : W32) (s : State) : Out :=
  .next (whenB (mainShown s && r < 512 && !v.getLsbD 8) s (srDisable r v v))

/-! ## Stream buffers (R92 to R94, R204) -/

/-- The stream bound to a ring, as a key. -/
def boundStream (s : State) (r : Nat) : Option Nat :=
  (s.cap.streams.find? fun x => x.2.ring == some r).map (·.1)

/-- Closes the open buffer of a ring, or the next posted entry when none is open: the write-back with FLUSHED or END,
the next phase and index, the interrupt, and the delivery of its envelopes (R92, R93, R95). -/
def closeBuf (s : State) (r : Nat) (flushed end_ : Bool) : State :=
  let q := strRing s r
  let p := getF s 0 (fHstSrCtlPort r)
  let i := getF s 0 (fHstSrStatIndex r)
  let base := pairAddr s 0 (rHstSrBaseLo r) (rHstSrBaseHi r)
  let firstW := if q.filled = 0 then 0 else q.firstStream * 2 ^ 48 + q.first
  let s1 := hostWrite s p (base + 32 * i + 16)
    (leBytes 4 q.filled ++ leBytes 2 (b2n q.phase + 2 * b2n flushed + 4 * b2n end_) ++ leBytes 2 0 ++ leBytes 8 firstW)
  let last := i + 1 = ringDepth (getF s 0 (fHstSrCtlLog2Depth r))
  let s2 := setF s1 0 (fHstSrStatIndex r) (if last then 0 else i + 1)
  let s3 := setStrRing s2 r { StrRing.reset with prod := q.prod, phase := if last then !q.phase else q.phase }
  let s4 := if flagF s3 0 (fHstSrCtlIrqEn r) then raiseIrq s3 p (getF s3 0 (fHstSrCtlVector r)) else s3
  match boundStream s4 r with
  | some k => if q.live = 0 then s4 else deliverEnvs s4 (k / 128) (k % 128) q.live
  | none => s4

/-- The ring delivers: RUNNING, with its port's link up, after EV_READY (R66, R91). -/
def ringServes (s : State) (r : Nat) : Bool :=
  s.ready && getF s 0 (fHstSrStatState r) = rsRunning && portServes s (getF s 0 (fHstSrCtlPort r))

/-- A buffer of the ring can close with END: one is open, or an entry is posted (R621). -/
def endBuf (s : State) (r : Nat) : Bool := (strRing s r).openBuf || (strRing s r).prod ≠ getF s 0 (fHstSrStatIndex r)

/-- Closes a stopped stream's buffer, or else the next posted entry, with END once everything is delivered (R93, R621).
A buffer left open without a link waits for it (R91); where the ring takes no END, none is written. -/
def settleEnd (s : State) (d i : Nat) : State :=
  let x := streamOf s d i
  match x.ring with
  | some r =>
    let q := strRing s r
    if x.endDue && undelivered x ≤ q.live && x.resends.isEmpty then
      let s1 := setStream s d i { x with endDue := false }
      if ringServes s r then (if endBuf s r then closeBuf s1 r false true else s1)
      else if q.openBuf then s
      else s1
    else s
  | none => s

/-- A posted stream entry is valid (R92, R93). -/
def entryOk (addr len : Nat) : Bool := addr % 4096 = 0 && len % 4096 = 0 && 4096 ≤ len && len ≤ 2 ^ 30

/-- The next envelope of a bound stream: a re-send first, else the oldest undelivered one not yet in the buffer. -/
def nextEnv (x : Stream) (live : Nat) : Option (Env × Option Resend) :=
  match x.resends with
  | a :: _ => some (a.env, some a)
  | [] => if x.keep then none else (x.spool[x.ndeliv + live]?).map fun e => (e, none)

/-- Writes one envelope into the open buffer (R93); a re-send's last one completes its command (R209). -/
def putEnv (s : State) (d i r : Nat) (e : Env) (rs : Option Resend) : State :=
  let q := strRing s r
  let p := getF s 0 (fHstSrCtlPort r)
  let s1 := hostWrite s p (q.addr + q.filled) (envBytes e)
  let q1 := { q with
    filled := q.filled + 4096, live := q.live + b2n rs.isNone
    first := if q.filled = 0 then e.seq else q.first
    firstStream := if q.filled = 0 then e.stream else q.firstStream
    openedAt := if q.filled = 0 then s.now else q.openedAt }
  let s2 := setStrRing s1 r q1
  let x := streamOf s2 d i
  let s3 := match rs with
    | some a =>
      let s3 := setStream s2 d i { x with resends := x.resends.drop 1 }
      if a.last then unitDone s3 a.fid (streamUid d i) 0 0 [] (dieTime s3 d) else actedOn s3 a.fid (streamUid d i)
    | none => s2
  settleEnd (if q1.len ≤ q1.filled then closeBuf s3 r false false else s3) d i

/-- Opens the next posted buffer of a ring (R92, R93); none when there is no credit, or the entry is bad. -/
def openBuf (s : State) (r : Nat) (readOk : Bool) : State × Bool :=
  let q := strRing s r
  let p := getF s 0 (fHstSrCtlPort r)
  let i := getF s 0 (fHstSrStatIndex r)
  if q.openBuf then (s, true)
  else if q.prod = i then (s, false)
  else if !readOk then (strRingError s p r 2, false)
  else
    let a := pairAddr s 0 (rHstSrBaseLo r) (rHstSrBaseHi r) + 32 * i
    let addr := memNat s (.host p) a 8
    let len := memNat s (.host p) (a + 8) 4
    if !entryOk addr len then (strRingError s p r 4, false)
    else (setStrRing s r { q with openBuf := true, addr := addr, len := len, tag := memNat s (.host p) (a + 12) 4 }, true)

/-- ENVELOPE_DELIVER (R93, R94): the next envelope of the bound stream enters a posted buffer. -/
def execEnvelopeDeliver (r : Nat) (readOk : Bool) (s : State) : Out :=
  .next (match boundStream s r with
    | some k =>
      whenB (r < 512 && ringServes s r) s fun s =>
        match nextEnv (streamOf s (k / 128) (k % 128)) (strRing s r).live with
        | some (e, rs) =>
          let b := openBuf s r readOk
          if b.2 then putEnv b.1 (k / 128) (k % 128) r e rs else b.1
        | none => s
    | none => s)

/-- SR_FLUSH_TIMEOUT (R93): the flush interval has passed since the first envelope entered the buffer; what happens in its last
tick comes first (R10). -/
def execSrFlushTimeout (r : Nat) (s : State) : Out :=
  .next (
    let q := strRing s r
    let n := getF s 0 (fHstSrCtlFlush r)
    whenB (r < 512 && ringServes s r && q.openBuf && q.filled ≠ 0 && n ≠ 0 && q.openedAt + codeTicks n < s.now) s
      fun s => closeBuf s r true false)

/-- RING_DRAIN_DONE (R74): a DRAINING pair whose commands have completed, or a stream ring whose open buffer is closed
with FLUSHED, is DISABLED. -/
def execRingDrainDone (kind : RingKind) (port n : Nat) (s : State) : Out :=
  .next (match kind with
    | .command | .completion =>
      whenB (isPort s port && n < 64 && getF s port (fHstCrStatState n) = rsDraining &&
          !(s.host.flights.any fun f => f.cmd.port = port && f.cmd.ring = n)) s
        fun s => setF s port (fHstCrStatState n) rsDisabled
    | .stream =>
      whenB (n < 512 && getF s 0 (fHstSrStatState n) = rsDraining) s fun s =>
        let s1 := if (strRing s n).openBuf && portServes s (getF s 0 (fHstSrCtlPort n)) then closeBuf s n true false else s
        setF (setStrRing s1 n { strRing s1 n with openBuf := false, filled := 0, live := 0 }) 0 (fHstSrStatState n) rsDisabled
    | .event => s)

/-! ## Interrupt timers (R95) -/

/-- IRQ_TIMER_EXPIRY (R95): IRQ_TIME has passed since the first entry after the last interrupt; what happens in its last tick
comes first (R10). -/
def execIrqTimerExpiry (kind : RingKind) (port n : Nat) (s : State) : Out :=
  .next (match kind with
    | .completion =>
      let q := cplRing s port n
      let code := getF s port (fHstCqCtlIrqTime n)
      match q.irqAt with
      | some t =>
        whenB (isPort s port && n < 64 && code ≠ 0 && flagF s port (fHstCqCtlIrqEn n) && t + codeTicks code < s.now) s
          fun s => setCplRing (raiseIrq s port (getF s port (fHstCqCtlVector n))) port n { q with irqN := 0, irqAt := none }
      | none => s
    | .event =>
      let q := evRing s port
      let code := getF s port fHstEvrCtlIrqTime
      match q.irqAt with
      | some t =>
        whenB (isPort s port && code ≠ 0 && flagF s port fHstEvrCtlIrqEn && t + codeTicks code < s.now) s
          fun s => setEvRing (raiseIrq s port (getF s port fHstEvrCtlVector)) port { q with irqN := 0, irqAt := none }
      | none => s
    | _ => s)

end Sys2Proof.Machine
end

