-- ==== Sys2Proof/Machine/Capture.lean ====
section
/-!
DEFINITION. Capture commands and the events of capture streams (R188 to R226, R621).
-/

namespace Sys2Proof.Machine

/-! ## Events of a stream -/

/-- MK_GAP with cause LOOKBACK enters once there is mark space (R194), and a pending one for discarded words. -/
def lookGap (s0 : State) (d i : Nat) : State :=
  let s := putGap s0 d i
  let x := streamOf s d i
  if x.lbLost = 0 || markSpace ≤ lookMarks x.look then s
  else lookAdd (setStream s d i { x with lbLost := 0 }) d i (markEntry s d (mkGap 4 0 x.lbLost) 0x03 0 x.lbTime)

/-- The head of a look-back buffer has been held 256 ticks (R192); a derived stream holds nothing (R398). -/
def headDue (s : State) (i : Nat) (e : Entry) : Bool := 32 ≤ i || e.phys / 256 + 256 ≤ s.now

/-- While HBM is held in self-refresh, a word whose time has come cannot enter the spool: it is dropped and counted for
MK_GAP with cause MEMORY; marks wait in the look-back (R166, R219). -/
def memDrop (s : State) (d i : Nat) : State :=
  let x := streamOf s d i
  match firstIdx (fun (e : Entry) => !e.word.mark) x.look with
  | none => s
  | some k =>
    match x.look[k]? with
    | none => s
    | some e =>
      if !headDue s i e then s
      else
        let x1 := { x with look := x.look.eraseIdx k }
        setStream s d i (if isExpo i || belongs x e then
          { x1 with
            dropWords := if isExpo i then x1.dropWords else x1.dropWords + 1
            gap := match x.gap with
              | some (c, n, t) => some (c, n + 1, t)
              | none => some (3, 1, e.time) }
        else x1)

/-- ENTRY_COMMIT (R192, R193), on a die whose clock runs (R163): the first entry leaves the look-back when its 256 ticks are over; a stop whose entries
are all committed completes (R201). -/
def execEntryCommit (d i : Nat) (s : State) : Out :=
  onDie d s fun s =>
    whenB (i < 96) s fun s =>
      let x := streamOf s d i
      if (dieClk s d).holding then s
      else if (dieClk s d).hbmHeld then (if 32 ≤ i then s else memDrop s d i)
      else
      let s1 := match x.look with
        | e :: r =>
          if headDue s i e then
            let s1 := setStream s d i { x with look := r }
            lookGap (if isExpo i then expoCommit s1 d i e else rollCommit s1 d i e) d i
          else s
        | [] => lookGap s d i
      settleEnd (finishStop (if isExpo i then expoSettle s1 d i else s1) d i) d i

/-- ENV_FLUSH_TIMEOUT (R199): ENV_FLUSH has passed since the open envelope's first entry was committed; entries that commit
in the tick come first (R10). -/
def execEnvFlushTimeout (d i : Nat) (s : State) : Out :=
  onDie d s fun s =>
    let x := streamOf s d i
    let filled := match x.openEnv with | some e => !e.words.isEmpty | none => false
    whenB (i < 96 && x.envFlush ≠ 0 && filled && x.openedAt + codeTicks x.envFlush ≤ s.now && !(x.look.any (headDue s i))) s
      fun s => if isExpo i then setStream s d i (flushSeg x (key d i)) else closeEnv s d i true

/-- REARM_OPEN (R214): T_open has come, every entry before it is committed, and the store has room. -/
def execRearmOpen (d i : Nat) (s : State) : Out :=
  onDie d s fun s =>
    let x := streamOf s d i
    let m := measOf s d (expoIdx i)
    match tOpen x m with
    | some t =>
      whenB (isExpo i && t + 256 ≤ s.now && !(x.look.any fun e => e.phys / 256 < t)) s
        fun s => setStream s d i (openSegment x (measAt s d (expoIdx i) t) t)
    | none => s

/-- SEGMENT_COMPLETE (R215, R348): the oldest closed segment is measured and read back, and completes. -/
def execSegmentComplete (d i : Nat) (s : State) : Out :=
  onDie d s fun s =>
    match (streamOf s d i).closing with
    | k :: _ => whenB (isExpo i && !k.need) s fun s => segComplete s d i k
    | [] => s

/-! ## Discards (R222, R224) -/

/-- Undelivered envelopes, and the entries they hold. -/
def pendingEnvs (x : Stream) : Nat × Nat :=
  let l := x.spool.drop x.ndeliv
  (l.length, l.foldl (fun n e => n + e.words.length) 0)

/-- The open buffer of a stream's ring no longer delivers from the stream. -/
def leaveRing (s : State) (d i : Nat) : State :=
  match (streamOf s d i).ring with
  | some r => setStrRing s r { strRing s r with live := 0 }
  | none => s

/-- A stream's spool emptied, with the fall of its level (R207). -/
def emptySpool (s : State) (d i : Nat) : State :=
  let x := streamOf s d i
  let n := undelivered x
  levelEvents (setStream (leaveRing s d i) d i { x with spool := [], ndeliv := 0, pos := 0, kept := [], spaceAt := s.now })
    d i n 0

/-! ## Commands (R223 to R225) -/

/-- The payload of CAPTURE_CONFIGURE is valid in itself (R224). -/
def capCfgOk (c : Cmd) : Bool :=
  let p := c.payload
  let roll := pb c 0 = 0 && (pb c 1 = 0 || pb c 1 = 3) && !bitAt (pb c 2) 0 && zeroFrom (p.take 36) 16
  let expo := pb c 0 = 1 && (pb c 1 = 1 || pb c 1 = 2) && fld p 24 4 ≤ 2 ^ 30 && 1 ≤ fld p 28 4 &&
    fld p 28 4 ≤ 2 ^ 31 && 1 ≤ fld p 32 4 && fld p 32 4 ≤ 2 ^ 20
  (roll || expo) && pb c 2 < 4 && pb c 3 ≤ 21 && fld p 4 4 = 0 && fld p 36 4 = 0 && restOk c 40

/-- The mode, format and MARK_MASK suit the stream's index (R224, R308, R398). -/
def capModeOk (c : Cmd) (i : Nat) : Bool :=
  if isExpo i then pb c 0 = 1
  else pb c 0 = 0 && (if 32 ≤ i then fld c.payload 8 8 = 0 else pb c 1 = 0)

/-- FORMAT CPLX18 needs a decimation of at least 4 (R210). -/
def cplxOk (s : State) (d i format : Nat) : Bool := format ≠ 2 || 2 ≤ (chainOf s d (expoIdx i)).cfg.decLog2

def captureConfigureDef : CmdDef where
  op := 0x0301
  cls := onClass clStream
  onGroup := false
  payOk := fun s c => capCfgOk c && fitsSome s c fun u => capModeOk c (uIdx u)
  eff := fun c _ u s =>
    let d := uDie u
    let i := uIdx u
    let x := streamOf s d i
    let n := pendingEnvs x
    let discard := bitAt (pb c 2) 1
    if !capModeOk c i then (s, err stBadPayload)
    else if !(x.state == .unconfigured || (x.state == .idle && (n.1 = 0 || discard))) then (s, err stBadState)
    else if !cplxOk s d i (pb c 1) then (s, err stRateUnsupported)
    else
      let s1 := emptySpool s d i
      let y := streamOf s1 d i
      (setStream s1 d i { y with
        state := .idle, mode := pb c 0 + 1, format := pb c 1, keep := bitAt (pb c 2) 0, envFlush := pb c 3
        markMask := BitVec.ofNat 64 (fld c.payload 8 8), trigMask := BitVec.ofNat 64 (fld c.payload 16 8)
        pre := fld c.payload 24 4, post := fld c.payload 28 4, segments := fld c.payload 32 4
        seqNext := 0, segNext := 0, dropWords := 0, dropMarks := 0, drop := none, rlWords := 0, needTime := true
        lastPeriod := none, endDue := false },
       .done 0 (leBytes 4 n.1 ++ leBytes 4 0 ++ leBytes 8 n.2) 0)

/-- CAPTURE_CONFIGURE (R224). -/
def execCaptureConfigure (c : Cmd) (s : State) : Out := startCmd captureConfigureDef c s

def captureArmDef : CmdDef where
  op := 0x0302
  cls := onClass clStream
  onGroup := false
  payOk := restZero 0
  eff := fun _ _ u s =>
    let d := uDie u
    let i := uIdx u
    let x := streamOf s d i
    let m := measOf s d (expoIdx i)
    if safelight s d then (s, err stSafelight)
    else if !(isExpo i && x.state == .idle && awake s u) then (s, err stBadState)
    else if m.enable && !awake s (densUid d) then (s, err stBadState)
    else if !cplxOk s d i x.format then (s, err stRateUnsupported)
    else if x.slots < reservation x m then (s, err stNoResource)
    else
      let g := { x.seg with
        left := x.segments, done := 0, early := 0, rearm := 0, busy := 0, disarming := false
        armedAt := s.now, changes := [], disarmedAt := none, waitFids := [] }
      let y := { x with seg := g, look := [] }
      let c := expoIdx i
      let s1 := setChain s d c { chainOf s d c with staleOpen := none, missing := none }
      if reservation y m ≤ roomFor y then (setStream s1 d i (openSegment y m s.now), ok)
      else (setStream s1 d i { y with state := .rearm, spaceAt := s.now, seg := { g with tclosePhys := s.now - 64 } }, ok)

/-- CAPTURE_ARM (R212, R216, R342): the first segment enters FILLING at the effect time; a store too full for it yet
holds it in REARM as R214 holds a later one. -/
def execCaptureArm (c : Cmd) (s : State) : Out := startCmd captureArmDef c s

def captureDisarmDef : CmdDef where
  op := 0x0303
  cls := onClass clStream
  onGroup := false
  payOk := fun _ c => pb c 0 < 2 && restOk c 1
  eff := fun c fid u s =>
    let d := uDie u
    let i := uIdx u
    if !armed (streamOf s d i) then (s, err stBadState)
    else (disarm s d i (bitAt (pb c 0) 0) [fid], .wait)

/-- CAPTURE_DISARM (R218): completes when the stream is IDLE. -/
def execCaptureDisarm (c : Cmd) (s : State) : Out := startCmd captureDisarmDef c s

def rollStartDef : CmdDef where
  op := 0x0304
  cls := onClass clStream
  onGroup := false
  payOk := restZero 0
  eff := fun _ _ u s =>
    let d := uDie u
    let i := uIdx u
    let x := streamOf s d i
    if !(x.state == .idle && awake s u && x.mode = 1) then (s, err stBadState)
    else if x.slots = 0 then (s, err stNoResource)
    else
      (setStream s d i { x with
        state := .rolling, tStart := s.now, tStop := none, needTime := i < 32, lastPeriod := none }, ok)

/-- ROLL_START (R200). -/
def execRollStart (c : Cmd) (s : State) : Out := startCmd rollStartDef c s

/-- Begins to stop a ROLLING stream at the current tick for a reason of R226; a stop under way only gains a command
that waits for it (R201). -/
def rollStop (s : State) (d i reason : Nat) (fids : List Nat) : State :=
  let x := streamOf s d i
  match x.tStop with
  | some _ => setStream s d i { x with stopFids := x.stopFids ++ fids }
  | none =>
    setStream s d i { x with tStop := some s.now, tStopTime := dieTime s d, stopFids := fids, stopReason := reason }

def rollStopDef : CmdDef where
  op := 0x0305
  cls := onClass clStream
  onGroup := false
  payOk := restZero 0
  eff := fun _ fid u s =>
    let d := uDie u
    let i := uIdx u
    if (streamOf s d i).state != .rolling then (s, err stBadState) else (rollStop s d i 1 [fid], .wait)

/-- ROLL_STOP (R201): completes when the last envelope is formed. -/
def execRollStop (c : Cmd) (s : State) : Out := startCmd rollStopDef c s

def spoolAllocateDef : CmdDef where
  op := 0x0306
  cls := onClass clStream
  onGroup := false
  payOk := fun _ c =>
    let n := fld c.payload 0 4
    fld c.payload 4 4 * 2 ≤ n * 256 && pb c 8 ≤ 100 && pb c 9 ≤ 100 && pb c 10 < 2 && restOk c 11
  eff := fun c _ u s =>
    let d := uDie u
    let i := uIdx u
    let x := streamOf s d i
    let n := pendingEnvs x
    let size := fld c.payload 0 4
    if !(x.state == .idle && (n.1 = 0 || bitAt (pb c 10) 0)) then (s, err stBadState)
    else if poolFree s d + x.mib < size then (s, err stNoResource)
    else
      let s1 := emptySpool (setPoolFree s d (poolFree s d + x.mib - size)) d i
      let y := streamOf s1 d i
      (setStream s1 d i { y with
        mib := size, slots := size * 256, retain := fld c.payload 4 4, lvlHi := pb c 8, lvlLo := pb c 9 },
       .done 0 (leBytes 4 (size * 256) ++ leBytes 4 n.1 ++ leBytes 8 n.2) 0)

/-- SPOOL_ALLOCATE (R221, R222). -/
def execSpoolAllocate (c : Cmd) (s : State) : Out := startCmd spoolAllocateDef c s

def streamBindDef : CmdDef where
  op := 0x0307
  cls := onClass clStream
  onGroup := false
  payOk := fun _ c => fld c.payload 0 2 < 512 && restOk c 2
  eff := fun c _ u s =>
    let d := uDie u
    let i := uIdx u
    let x := streamOf s d i
    let r := fld c.payload 0 2
    if x.ring.isSome || x.service.isSome || (boundStream s r).isSome then (s, err stBusy)
    else (setStream s d i { x with ring := some r }, ok)

/-- STREAM_BIND (R208). -/
def execStreamBind (c : Cmd) (s : State) : Out := startCmd streamBindDef c s

def streamUnbindDef : CmdDef where
  op := 0x0308
  cls := onClass clStream
  onGroup := false
  payOk := restZero 0
  eff := fun _ _ u s =>
    let d := uDie u
    let i := uIdx u
    match (streamOf s d i).ring with
    | none => (s, err stBadState)
    | some r =>
      let s1 := if ringServes s r && endBuf s r then closeBuf s r false true else leaveRing s d i
      (setStream s1 d i { streamOf s1 d i with ring := none, endDue := false }, ok)

/-- STREAM_UNBIND (R621). -/
def execStreamUnbind (c : Cmd) (s : State) : Out := startCmd streamUnbindDef c s

/-- The delivered envelope with a sequence number. -/
def retained (x : Stream) (seq : Nat) : Option Env := (x.spool.take x.ndeliv).find? fun e => e.seq = seq

/-- The re-sends of a range in order; none when an envelope is not retained. -/
def resendList (x : Stream) (fid seq : Nat) : Nat → Option (List Resend)
  | 0 => some []
  | n + 1 =>
    match retained x seq, resendList x fid ((seq + 1) % 2 ^ 48) n with
    | some e, some r => some (⟨e, fid, r.isEmpty⟩ :: r)
    | _, _ => none

def blockResendDef : CmdDef where
  op := 0x0309
  cls := onClass clStream
  onGroup := false
  payOk := fun _ c =>
    let n := fld c.payload 6 2
    1 ≤ n && n ≤ 256 && restOk c 8
  eff := fun c fid u s =>
    let d := uDie u
    let i := uIdx u
    let x := streamOf s d i
    if x.ring.isNone then (s, err stNotPermitted)
    else if 256 ≤ x.resends.length then (s, err stBusy)
    else
      match resendList x fid (fld c.payload 0 6) (fld c.payload 6 2) with
      | none => (s, err stNotRetained)
      | some l =>
        let s1 := setStream s d i { x with resends := x.resends ++ l }
        (l.foldl (fun s r => addMark s d i 0x21 r.env.seq 0 0 (nowStamp s d)) s1, .wait)

/-- BLOCK_RESEND (R209): completes when the last envelope is written. -/
def execBlockResend (c : Cmd) (s : State) : Out := startCmd blockResendDef c s

def markInsertDef : CmdDef where
  op := 0x030A
  cls := onClass clStream
  onGroup := false
  payOk := restZero 7
  eff := fun c _ u s =>
    let d := uDie u
    let i := uIdx u
    if (streamOf s d i).state == .unconfigured then (s, err stBadState)
    else (addMark s d i 0x20 (fld c.payload 0 7) 2 0 (nowStamp s d), ok)

/-- MARK_INSERT (R225): MK_USER with ORIGIN host at the effect time. -/
def execMarkInsert (c : Cmd) (s : State) : Out := startCmd markInsertDef c s

def rateLimitSetDef : CmdDef where
  op := 0x030B
  cls := fun k i => k == clStream && !isExpo i
  onGroup := false
  payOk := fun _ c =>
    let rate := fld c.payload 0 4
    let burst := fld c.payload 4 4
    rate ≤ 879 && (rate = 0 || (448 ≤ burst && burst ≤ 1048576)) && restOk c 8
  eff := fun c _ u s =>
    let x := streamOf s (uDie u) (uIdx u)
    let burst := fld c.payload 4 4
    (setStream s (uDie u) (uIdx u) { x with
      rate := fld c.payload 0 4, burst := burst, tokens := burst * usTicks, fillAt := s.now }, ok)

/-- RATE_LIMIT_SET (R203): the bucket is full when it takes effect. -/
def execRateLimitSet (c : Cmd) (s : State) : Out := startCmd rateLimitSetDef c s

/-- Writes envelopes at successive 4,096-byte offsets of host memory. -/
def writeEnvs (s : State) (p a : Nat) : List Env → State
  | [] => s
  | e :: r => writeEnvs (hostWrite s p a (envBytes e)) p (a + 4096) r

def recordReadDef : CmdDef where
  op := 0x030C
  cls := onClass clStream
  onGroup := false
  payOk := fun _ c =>
    fld c.payload 4 4 < 2 && fld c.payload 8 8 % 4096 = 0 && fld c.payload 16 4 % 4096 = 0 && restOk c 20
  eff := fun c _ u s =>
    let d := uDie u
    let i := uIdx u
    let x := streamOf s d i
    if !x.keep then (s, err stBadState)
    else
      match x.kept.find? fun k => k.num = fld c.payload 0 4 with
      | none => (s, err stNotRetained)
      | some k =>
        let mine := fun (e : Env) => (e.seq + 2 ^ 48 - k.firstSeq) % 2 ^ 48 < k.count
        if fld c.payload 16 4 < 4096 * k.count then (s, err stBadPayload)
        else
          let s1 := writeEnvs s c.port (fld c.payload 8 8) (x.spool.filter mine)
          let y := streamOf s1 d i
          let s2 := if fld c.payload 4 4 = 1 then
              levelEvents (setSpool s1 d i { y with
                spool := y.spool.filter fun e => !mine e
                kept := y.kept.filter fun a => a.num ≠ k.num }) d i (undelivered y)
                  (undelivered y - k.count)
            else s1
          (s2, .done 0 (leBytes 4 k.count ++ leBytes 4 k.trigIdx ++ leBytes 6 k.firstSeq) 0)

/-- RECORD_READ (R217, R225). -/
def execRecordRead (c : Cmd) (s : State) : Out := startCmd recordReadDef c s

end Sys2Proof.Machine
end

