-- ==== Sys2Proof/Machine/EngPort.lean ====
section
/-!
DEFINITION. Engine and transfer channel records, and what other units hand to Cufix engines: exported spectra (R306, R396), Shutter events (R401), and the
signals of transfer channels (R403).
-/

namespace Sys2Proof.Machine

/-- An engine at reset: physical engine e (R36). -/
def engDflt (k : Nat) : Engine := { Engine.reset with phys := k % 128 }

def engOf (s : State) (d e : Nat) : Engine := tabGet engDflt s.eng.engs (key d e)

def setEng (s : State) (d e : Nat) (x : Engine) : State :=
  { s with eng := { s.eng with engs := tabSet engDflt s.eng.engs (key d e) x } }

def engUid (d e : Nat) : Nat := uid d clEngine e

def xferOf (s : State) (d c : Nat) : Xfer := tget Xfer.reset s.xfer (key d c)

def setXfer (s : State) (d c : Nat) (x : Xfer) : State := { s with xfer := tset Xfer.reset s.xfer (key d c) x }

/-- A die counts again after `n` ticks on its holding clock: these are not waited by its engines and transfer channels
(R404, R471). -/
def resumeWork (s : State) (d n : Nat) : State :=
  let s1 := (List.range 16).foldl (fun s e =>
    let x := engOf s d e
    if x.st == .running || x.st == .swapping then
      setEng s d e { x with
        wdogAt := x.wdogAt + n
        waitAt := x.waitAt + n
        waiting := match x.waiting with
          | some (.wait r m (some t)) => some (.wait r m (some (t + n)))
          | w => w }
    else s) s
  (List.range 32).foldl (fun s c =>
    let x := xferOf s d c
    if x.st == .running then setXfer s d c { x with moveAt := x.moveAt + n }
    else if x.st == .waiting then
      setXfer s d c { x with wait := { x.wait with timeAt := x.wait.timeAt + n, expiry := x.wait.expiry.map (· + n) } }
    else s) s1

/-- The port of an engine, counted from 0, that is bound to a source. -/
def portOfSrc (x : Engine) (src : Nat) : Option Nat := firstIdx (fun p => p.src = src) x.ins

/-- The engine and port of a die bound to a source. -/
def boundPort (s : State) (d src : Nat) : Option (Nat × Nat) :=
  (List.range 16).findSome? fun e => (portOfSrc (engOf s d e) src).map fun p => (e, p)

def inPort (x : Engine) (p : Nat) : EngIn := (x.ins[p]?).getD EngIn.reset

def setIn (x : Engine) (p : Nat) (v : EngIn) : Engine := { x with ins := x.ins.set p v }

/-- The words an input port's FIFO holds for a spectrum source (R396). -/
def specFifo : Nat := 16386

/-- What offering an exported spectrum to its port gave: no engine bound, taken, or dropped (R306). -/
inductive Offer where
  | unbound
  | taken
  | dropped
  deriving DecidableEq, Repr

/-- Offers a spectrum's words to the port bound to chain `c`'s spectrum port (R306, R396). -/
def offerSpectrum (s : State) (d c : Nat) (ws : List SpecWord) : Offer × State :=
  match boundPort s d (0xF0 + c) with
  | none => (.unbound, s)
  | some (e, p) =>
    let x := engOf s d e
    let q := inPort x p
    if specFifo < q.fifo.length + ws.length then (.dropped, s)
    else (.taken, setEng s d e (setIn x p { q with fifo := q.fifo ++ ws }))

/-- Sorts an event into an engine's queue: by t_event, then event ID (R401). -/
def evqInsert (v : EvqEntry) : List EvqEntry → List EvqEntry
  | [] => [v]
  | x :: r =>
    if stampLt v.time x.time || (v.time = x.time && v.id < x.id) then v :: x :: r else x :: evqInsert v r

/-- A Shutter event reaches an engine's queue of 16 (R401); an engine that is not AWAKE ignores it (R233). -/
def evqPush (s : State) (d e id : Nat) (t : Stamp) : State :=
  let x := engOf s d e
  if !x.evMask.getLsbD id || !awake s (uid d clEngine e) then s
  else if 16 ≤ x.evq.length then incF (setEng s d e { x with evqLost := true }) d (fEngLostEvq e)
  else setEng s d e { x with evq := evqInsert ⟨t, id, x.evqLost⟩ x.evq, evqLost := false }

/-- A Shutter event reaches every engine of a die. -/
def evqPushAll (s : State) (d id : Nat) (t : Stamp) : State :=
  (List.range 16).foldl (fun s e => evqPush s d e id t) s

/-- A transfer channel signals the engines it is granted to (R403 bit 9). -/
def chanSignal (s : State) (d c : Nat) : State :=
  (List.range 16).foldl (fun s e =>
    let x := engOf s d e
    if bitAt x.grants c then setEng s d e { x with chanSig := true } else s) s

end Sys2Proof.Machine
end

