-- ==== Sys2Proof/Machine/Clock.lean ====
section
/-!
DEFINITION. Clocks, the time base, SYNC, the reference, and the TDC (R144 to R175).  The loss of a PLL other than an
FPLL, and a PLL that fails its relocks, stand in Machine/Links.lean and Machine/Power.lean.
-/

namespace Sys2Proof.Machine

/-! ## Records -/

def pllUid (d k : Nat) : Nat := uid d clPll k

/-- The signed number of ticks or fine units as 8 bytes. -/
def int8 (v : Int) : List Byte := leBytes 8 (unsgn 64 v)

/-- The fitted dies. -/
def dies (s : State) : List Nat := List.range (nDies s)

/-- Loads a die's coarse count at the current tick. -/
def loadTime (s : State) (d t : Nat) : State :=
  setDieClk s d { dieClk s d with running := true, base := t % 2 ^ 56, atTick := s.now }

/-- The die counts on FCLK and is not fenced, so a package step reaches it (R155). -/
def counts (s : State) (d : Nat) : Bool := (dieClk s d).running && !(dieClk s d).holding && !fenced s d

/-- A die's TDC keeps counting ticks through a step of the time base (R155, R162): a measurement under way counts without
the step, and stop edges that wait for its start take it. -/
def stepTdc (s : State) (d : Nat) (ticks : Int) : State :=
  let t := tdcOf s d
  match t.arm with
  | none => s
  | some a =>
    let moved := fun (c : Nat) => (((c : Int) + ticks) % (2 ^ 56 : Nat)).toNat
    setTdc s d { t with arm := some (
      if a.start.isSome then { a with shift := a.shift + ticks }
      else { a with early := a.early.map fun e => (e.1, { e.2 with cap := moved e.2.cap }) }) }

/-- A die's count steps by a number of ticks, and its streams receive MK_TIME_STEP with the step in fine units (R155). -/
def stepDie (s : State) (d : Nat) (ticks fineStep : Int) (cause : Nat) : State :=
  stepMarks (stepTdc (loadTime s d (((dieTime s d : Int) + ticks) % (2 ^ 56 : Nat)).toNat) d ticks) d fineStep cause

/-- The candidates of the dies in a list take the steps of their dies (R155). -/
def stepCands (s : State) (ds : List Nat) (step : Nat → Int) : State :=
  let add := fun (c : Cand) => BitVec.ofInt 64 (if ds.contains (c.chan / 16) then step (c.chan / 16) else 0)
  { s with sht := { s.sht with cands := s.sht.cands.map fun c => { c with stamp := c.stamp + add c, srcTime := c.srcTime + add c } } }

/-- A step of the package's time base at one instant (R155): each die steps by its number of ticks and the same part of a
tick; candidates, events and TRIG_IN edges in flight take the step, and so keep their place. -/
def stepAll (s : State) (ticks : Nat → Int) (rest : Int) (cause : Nat) : State :=
  let step := fun d => ticks d * 256 + rest
  let ds := (dies s).filter (counts s)
  let s1 := stepCands (ds.foldl (fun s d => stepDie s d (ticks d) (step d) cause) s) ds step
  let add : Stamp := BitVec.ofInt 64 (step 0)
  { s1 with sht := { s1.sht with
    events := s1.sht.events.map fun e => { e with stamp := e.stamp + add, srcTime := e.srcTime + add }
    trigIn := s1.sht.trigIn.map fun x => (x.1, { x.2 with pendEdge := x.2.pendEdge.map fun e => { e with stamp := e.stamp + add } }) } }

/-! ## TDC (R167 to R172) -/

def tdcUid (d : Nat) : Nat := uid d clTdc 0

/-- Bit `n` for every valid hit. -/
def hitMask : Nat → List (Option RawStamp) → Nat
  | _, [] => 0
  | n, h :: r => b2n h.isSome * 2 ^ n + hitMask (n + 1) r

/-- A measurement ends at a tick: its record is held, and EV_TDC_DONE is posted (R170, R175).  With `flags` it has no
valid results. -/
def tdcEnd (s : State) (d flags time : Nat) : State :=
  let t := tdcOf s d
  match t.arm with
  | none => s
  | some a =>
    let hits := if flags = 0 then a.hits else a.hits.map fun _ => none
    post (setTdc s d { t with arm := none, result := some ⟨a.start, hits, flags⟩ }) d 0x0206 (tdcUid d) time
      (leBytes 1 (hitMask 0 hits) ++ leBytes 1 flags)

/-- Every enabled stop channel has its edge. -/
def allHit : List (Nat × Nat) → List (Option RawStamp) → Bool
  | (src, _) :: r, h :: t => (src = 0 || h.isSome) && allHit r t
  | _, _ => true

/-- The time from one edge to another in fine units (R153, R171), without the INL terms. -/
def rawDiff (a b : RawStamp) : Int := tickDiff a.cap b.cap * 256 - a.tap + b.tap

/-- The tick, in the die's time, that lies a number of ticks after the capture tick of a measurement's start. -/
def afterStart (a : TdcArm) (st : RawStamp) (n : Int) : Nat := (((st.cap : Int) + a.shift + n) % (2 ^ 56 : Nat)).toNat

/-- The capture tick of the last stop edge, counted from the start's. -/
def lastStop (st : RawStamp) (hits : List (Option RawStamp)) : Int :=
  (hits.filterMap fun h => h.map fun r => tickDiff r.cap st.cap).foldl max 0

/-- A synthetic raw stamp of an exact time (R171). -/
def synthetic (t : Stamp) : RawStamp :=
  if fine t = 0 then ⟨coarse t, 0, true⟩ else ⟨coarse t + 1, 256 - fine t, true⟩

/-- Stop channel `n` takes an edge (R170): the first whose stamp is at or after the start's, and whose capture tick is
less than WINDOW after the start's.  It is kept in the time base of the start. -/
def tdcHit (s : State) (d n : Nat) (r0 : RawStamp) : State :=
  let t := tdcOf s d
  match t.arm with
  | none => s
  | some a =>
    match a.start with
    | none =>
      if a.startSrc = 7 then setTdc s d { t with arm := some { a with early := a.early ++ [(n, r0)] } } else s
    | some st =>
      let r := { r0 with cap := (((r0.cap : Int) - a.shift) % (2 ^ 56 : Nat)).toNat }
      if (a.hits[n]?).getD none |>.isSome then s
      else if rawDiff r st < 0 || !(tickDiff r.cap st.cap < a.window) then s
      else
        let a1 := { a with hits := a.hits.set n (some r) }
        let s1 := setTdc s d { t with arm := some a1 }
        if allHit a1.stops a1.hits then tdcEnd s1 d 0 (afterStart a st (lastStop st a1.hits)) else s1

/-- The start channel takes its edge; stop edges seen before a Shutter start arrived are judged now. -/
def tdcStart (s : State) (d : Nat) (r : RawStamp) : State :=
  let t := tdcOf s d
  match t.arm with
  | some a =>
    if a.start.isSome then s
    else
      let s1 := setTdc s d { t with arm := some { a with start := some r, early := [] }, openAt := physOf s d r.cap }
      a.early.foldl (fun s e => tdcHit s d e.1 e.2) s1
  | none => s

/-- The stop channels of a source, with the argument they ask for. -/
def stopsOf (a : TdcArm) (src arg : Nat) : List Nat :=
  (List.range 8).filter fun n => (a.stops[n]?).getD (0, 0) == (src, arg)

/-- A Shutter event reaches a die's TDC as source 7 (R169): it may start the measurement and stop channels. -/
def tdcShutter (s : State) (d id : Nat) (t : Stamp) : State :=
  match (tdcOf s d).arm with
  | none => s
  | some a =>
    let r := synthetic t
    let s1 := if a.startSrc = 7 && a.startArg = id then tdcStart s d r else s
    (stopsOf a 7 id).foldl (fun s n => tdcHit s d n r) s1

/-- The edge argument a channel asks for suits an edge: 2 is either. -/
def argOk (want got : Nat) : Bool := want = got || want = 2

/-- TDC_START_EDGE (R170): an edge of the start source is stamped. -/
def execTdcStartEdge (d src arg cap tap : Nat) (s : State) : Out :=
  onDie d s fun s =>
    match (tdcOf s d).arm with
    | some a => whenB (a.startSrc = src && src < 7 && argOk a.startArg arg) s fun s => tdcStart s d ⟨cap, tap % 256, false⟩
    | none => s

/-- TDC_STOP_EDGE (R170): an edge of a stop channel's source, other than a Shutter event, is stamped. -/
def execTdcStopEdge (d n cap tap : Nat) (s : State) : Out :=
  onDie d s fun s =>
    match (tdcOf s d).arm with
    | some a =>
      let src := ((a.stops[n]?).getD (0, 0)).1
      whenB (n < 8 && 1 ≤ src && src < 7) s fun s => tdcHit s d n ⟨cap, tap % 256, false⟩
    | none => s

/-- TDC_WINDOW_CLOSE (R170): the window is over, and any Shutter event in it has arrived. -/
def execTdcWindowClose (d : Nat) (s : State) : Out :=
  onDie d s fun s =>
    let t := tdcOf s d
    match t.arm with
    | some a =>
      let wait := if a.stops.any (fun x => x.1 = 7) then 112 else 0
      match a.start with
      | some st => whenB (t.openAt + a.window + wait ≤ s.now) s fun s => tdcEnd s d 0 (afterStart a st a.window)
      | none => s
    | none => s

/-- The DLL loses lock: the armed measurement ends with DLL_LOST (R168). -/
def dllLoss (s : State) (d : Nat) : State :=
  tdcEnd (setTdc s d { tdcOf s d with dll := false }) d 1 (dieTime s d)

/-- DLL_LOCK (R168, R172): TDC_INL holds 256 measured values, each within ±48.  While the DLL is locked the row is a new
measurement of them, for the device keeps them up to date. -/
def execDllLock (d : Nat) (inl : List Byte) (s : State) : Out :=
  onDie d s fun s =>
    whenB (pllOf s d 0).locked s fun s =>
      setTdc s d { tdcOf s d with
        dll := true
        inl := (List.range 256).map fun i =>
          BitVec.ofNat 8 (unsgn 8 (max (-48) (min 48 (sgn 8 ((inl[i]?).getD 0).toNat)))) }

/-- DLL_LOCK_LOSS (R168). -/
def execDllLockLoss (d : Nat) (s : State) : Out :=
  onDie d s fun s => whenB (tdcOf s d).dll s fun s => dllLoss s d

/-! ## Strobes (R490, R493) -/

/-- Issues a strobe of update groups with its reference at place `ph` of the physical time line: it applies at the
first tick boundary at or after that place plus 112 ticks (R490).  While die 0 is on its holding clock a strobe of a
Shutter event is lost, and any other waits for die 0's realignment (R493). -/
def issueStrobe (s : State) (src : Nat) (groups : W32) (ph : Nat) : State :=
  let hold := (dieClk s 0).holding
  if groups = 0 || (hold && src = 1) then s
  else { s with strobes := s.strobes ++ [⟨src, groups, (ph + 112 * 256 + 255) / 256, dies s, [], hold, false⟩] }

/-- Strobes that waited for die 0 are issued at its first tick after realignment (R493). -/
def releaseStrobes (s : State) : State :=
  { s with strobes := s.strobes.map fun x =>
    if x.held then { x with held := false, late := true, applyAt := s.now + 112 } else x }

/-! ## FPLL loss and recovery (R163, R164) -/

/-- Words or samples in flight in a stream's look-back are discarded and remembered for MK_GAP with cause CLOCK (R163). -/
def dropFlight' (s : State) (d i : Nat) : State :=
  let x := streamOf s d i
  let ws := x.look.filter fun e => !e.word.mark
  let mine := if isExpo i then ws else ws.filter (belongs x)
  let x1 := { x with look := x.look.filter fun e => e.word.mark }
  match mine with
  | [] => setStream s d i x1
  | e :: _ => setStream s d i { x1 with
      dropWords := if isExpo i then x1.dropWords else x1.dropWords + mine.length
      gap := match x.gap with
        | some (c, n, t) => some (c, n + mine.length, t)
        | none => some (2, mine.length, e.time) }

/-- A record is under way, or complete while its spectrum has not left the transform. -/
def hasRecs (x : Chain) : Bool := !x.recs.isEmpty || !x.done.isEmpty

/-- Every record is abandoned and takes no number (R249, R277, R310, R312, R328): those under way, and those complete whose spectra have
not left the transform.  The first spectrum after settling is then still to come where it was one of them (R301). -/
def abandonRecs (x : Chain) : Chain :=
  let n := x.recs.length + x.done.length
  { x with
    recs := [], pipes := [], outs := [], done := [], seqNo := (x.seqNo + 2 ^ 64 - n) % 2 ^ 64
    firstSpec := x.firstSpec || x.recs.any (·.firstSpec) || x.done.any (·.firstSpec) }

/-- A chain of the die loses its input (R312, R313): its records are abandoned, which EV_CHAIN_SETTLED will tell (R320), and spectra
exist only while it is RUNNING (R277). -/
def chainLost (s : State) (d c : Nat) (missing : Stamp) (clock : Bool) : State :=
  let x := chainOf s d c
  if x.st == .running || x.st == .settling then
    setChain s d c { abandonRecs x with
      st := .noInput, held := [], gapStamp := missing, gapClock := clock, nextSub := none
      setAband := hasRecs x || (x.st != .running && x.setAband) }
  else s

/-- Candidates in flight that a die's clock fault catches are lost, and each is counted where it stops (R29, R163, R164,
R263): of die 0 all, of another die those that have not left it, 24 ticks after their stamp (R23). -/
def loseCands (s : State) (d : Nat) : State :=
  let gone := fun (c : Cand) => d = 0 || (c.chan / 16 = d && s.now < c.phys / 256 + 24)
  let s1 := (s.sht.cands.filter gone).foldl (fun s c => candStops s (c.chan / 16)) s
  { s1 with sht := { s1.sht with cands := s.sht.cands.filter fun c => !gone c } }

/-- The FPLL of a running die loses lock (R163, R164): the die goes to its holding clock; words and candidates in flight
are discarded, its lanes and chains stop, its DLL is lost.  On die 0 REFOUT stops at the end of its period. -/
def fpllLoss (s : State) (d : Nat) : State :=
  let p := pllOf s d 0
  let t := dieTime s d
  let s1 := (List.range 16).foldl (fun s n =>
    if awake s (laneUid d n) then toAcquire s d n 6 t else s) s
  let s2 := eachStream (fun i s => dropFlight' s d i) s1
  let s3 := chainLost (chainLost s2 d 0 (stampOf t) true) d 1 (stampOf t) true
  let s4 := dllLoss (incF (setPll s3 d 0 { p with locked := false, relock := true }) d fClkFaultCntFpllLoss) d
  let s5 := setDieClk s4 d { dieClk s4 d with
    base := t, atTick := s.now, holding := true, aligned := false, faultTick := t }
  let s6 := loseCands s5 d
  if d ≠ 0 then s6
  else
    let r := s6.clk.refOut
    { s6 with
      clk := { s6.clk with refOut := { r with stopDue := r.stopDue || r.on, resume := r.on && !r.stopDue } } }

/-- The die whose count realigns die `d` after a clock fault: die 0 for the others, die 1 for die 0 (R163, R164). -/
def alignSource (s : State) (d : Nat) : Option Nat :=
  if d ≠ 0 then some 0 else if counts s 1 then some 1 else none

/-- A sequencer that did not evaluate up to a tick goes on there: its timers and the state just entered wait for that tick, unless the
count `lost` them as many ticks from `since` on, which then runs on from where it stood. -/
def catchUp (now since lost : Nat) (q : Sequencer) : Sequencer :=
  let f := fun (e : Nat) => max (if since ≤ e then e + lost else e) now
  { q with
    timers := q.timers.map fun t => match t with | .running e => .running (f e) | _ => t
    entryDue := q.entryDue.map f }

/-- Sequencer timers resume with the count that die 0 takes after relock: what fell in the gap is evaluated at the first tick after; a
die 0 that realigns from its held count lost the gap (R164, R263). -/
def heldTimers (s : State) (unaligned : Bool) (at_ : Nat) : State :=
  { s with sht := { s.sht with seqs := s.sht.seqs.map fun x =>
    (x.1, catchUp s.now at_ (if unaligned then s.now - at_ else 0) x.2) } }

/-- A sequencer whose unit wakes evaluates at its first tick what fell while it slept (log entry 27). -/
def wakeSeq (s : State) (n : Nat) : State :=
  { s with sht := { s.sht with seqs := s.sht.seqs.map fun x =>
    if x.1 % 16 = n then (x.1, catchUp s.now 0 0 x.2) else x } }

/-- EV_CLOCK_FAULT of a lost FPLL, with the last tick before the fault and the step applied at recovery (R163, R175). -/
def lossEvent (s : State) (d : Nat) (unaligned : Bool) (step : Int) : State :=
  post s d 0x0202 (pllUid d 0) (dieClk s d).faultTick
    (leBytes 1 1 ++ leBytes 1 (b2n unaligned) ++ leBytes 6 0 ++ int8 step)

/-- The FPLL of a holding die is locked again (R163, R164): the die takes its time base, its streams receive MK_GAP and
MK_TIME_STEP, and EV_CLOCK_FAULT reports the last tick before the fault with the step. -/
def recoverDie (s : State) (d : Nat) : State :=
  let old := dieTime s d
  let t := match alignSource s d with | some e => dieTime s e | none => old
  let step : Int := tickDiff t old * 256
  let s1 := resumeWork (eachStream (fun i s => putGap s d i) s) d (s.now - (dieClk s d).atTick)
  let s2 := setDieClk (loadTime s1 d t) d { dieClk (loadTime s1 d t) d with holding := false, aligned := true }
  let s3 := stepMarks s2 d step 2
  let s4 := lossEvent s3 d (alignSource s d).isNone step
  if d ≠ 0 then s4
  else
    let r := s4.clk.refOut
    let s5 := { s4 with clk := { s4.clk with refOut := { r with startDue := r.startDue || r.resume, resume := false } } }
    releaseStrobes (heldTimers s5 (alignSource s d).isNone (dieClk s d).atTick)

/-- The first lock of an FPLL after its wake starts the die's count: from 0 on die 0 after reset, else from die 0
(R152, R154). -/
def startTime (s : State) (d : Nat) : State :=
  let c := dieClk s d
  if c.running && d = 0 then s
  else
    let s1 := loadTime s d (if d = 0 then 0 else dieTime s 0)
    setDieClk s1 d { dieClk s1 d with aligned := true }

/-- PLL_LOCK (R147, R152, R166, R173): the PLL is locked in a band; a relock ends the fault it came from. -/
def execPllLock (d k band : Nat) (s : State) : Out :=
  onDie d s fun s =>
    let p := pllOf s d k
    let st := pwOf s (pllUid d k)
    whenB (k < 8 && (k ≠ 7 || d = 0) && band < 32 && !p.locked && (st == .starting || (st == .awake && p.relock))) s fun s =>
      let s1 := setPll s d k { p with locked := true, band := band, relock := false, firstDue := false, fails := 0 }
      let s2 :=
        if k = 0 then (if (dieClk s1 d).holding then recoverDie s1 d else startTime s1 d)
        else if k = 5 && p.relock then setDieClk s1 d { dieClk s1 d with hbmTrain := true }
        else if k = 6 then setPort s1 d { portOf s1 d with perstAt := some s1.now }
        else s1
      if p.relock || (p.notify && p.firstDue) then
        post s2 d 0x0201 (pllUid d k) (dieTime s2 d) (leBytes 1 band ++ leBytes 1 (if p.relock then 2 else 1))
      else s2

/-- HBM_RETRAINING_DONE (R166): HBM leaves self-refresh; streams that lost words to it record the gap. -/
def execHbmRetrainingDone (d : Nat) (s : State) : Out :=
  onDie d s fun s =>
    let c := dieClk s d
    whenB c.hbmTrain s fun s =>
      eachStream (fun i s => putGap s d i) (setDieClk s d { c with hbmTrain := false, hbmHeld := false })

/-- PLL_STEP_REACHED (R149): the LPLL runs at the frequency of its step. -/
def execPllStepReached (d k : Nat) (s : State) : Out :=
  onDie d s fun s =>
    let p := pllOf s d k
    match p.step with
    | some r =>
      whenB (k < 8 && r.endAt ≤ s.now) s fun s =>
        unitDone (setPll s d k { p with step := none, offset := r.target }) r.fid (pllUid d k) 0 0 [] (dieTime s d)
    | none => s

/-- ALIGN_CHECK (R154): die 0 checks a die's count, and a mismatch reloads it. -/
def execAlignCheck (d : Nat) (s : State) : Out :=
  onDie d s fun s =>
    let old := dieTime s d
    let t := dieTime s 0
    whenB (d ≠ 0 && counts s 0 && counts s d && old ≠ t) s fun s =>
      let step : Int := tickDiff t old * 256
      let s1 := stepCands (stepDie s d (tickDiff t old) step 3) [d] fun _ => step
      post s1 d 0x0202 (pllUid d 0) old (leBytes 1 2 ++ leBytes 7 0 ++ int8 step)

/-- HKCLK_TRIM (R146): with die 0's FPLL locked to REFCLK the AON island trims HKCLK; in holdover the trim is frozen. -/
def execHkclkTrim (d : Nat) (err : Int) (code : Nat) (s : State) : Out :=
  onDie d s fun s =>
    whenB ((pllOf s 0 0).locked && s.clk.ref == .present) s fun s =>
      setDieClk s d { dieClk s d with
        hkTrimmed := true, hkErr := clampS 16 err, hkCode := code % 1024
        base := if (dieClk s d).holding then dieTime s d else (dieClk s d).base
        atTick := if (dieClk s d).holding then s.now else (dieClk s d).atTick }

/-! ## REFOUT (R151) -/

def setRefOut (s : State) (r : RefOut) : State := { s with clk := { s.clk with refOut := r } }

/-- REFOUT_FIRST_EDGE (R151): the first rising edge after a REFOUT_START. -/
def execRefoutFirstEdge (s : State) : Out :=
  .next (
    let r := s.clk.refOut
    whenB (r.startDue && !r.on && !(dieClk s 0).holding) s fun s =>
      unitsDone (setRefOut s { r with on := true, startDue := false, startFids := [] }) pkgUid 0 (dieTime s 0) r.startFids)

/-- REFOUT_PERIOD_END (R151): the period in progress at the stop is over. -/
def execRefoutPeriodEnd (s : State) : Out :=
  .next (
    let r := s.clk.refOut
    whenB (r.on && r.stopDue) s fun s =>
      unitsDone (setRefOut s { r with on := false, stopDue := false, stopFids := [] }) pkgUid 0 (dieTime s 0) r.stopFids)

def refoutStartDef : CmdDef where
  op := 0x0203
  cls := onClass clPackage
  onGroup := false
  payOk := restZero 0
  eff := fun _ fid _ s =>
    let r := s.clk.refOut
    if (dieClk s 0).holding then (s, err stBadState)
    else if r.on then (s, ok)
    else (setRefOut s { r with startDue := true, startFids := r.startFids ++ [fid] }, .pend)

/-- REFOUT_START (R151). -/
def execRefoutStart (c : Cmd) (s : State) : Out := startCmd refoutStartDef c s

def refoutStopDef : CmdDef where
  op := 0x0204
  cls := onClass clPackage
  onGroup := false
  payOk := restZero 0
  eff := fun _ fid _ s =>
    let r := s.clk.refOut
    if !r.on && !r.startDue then (s, ok)
    else (setRefOut s { r with stopDue := true, resume := false, stopFids := r.stopFids ++ [fid] }, .pend)

/-- REFOUT_STOP (R151). -/
def execRefoutStop (c : Cmd) (s : State) : Out := startCmd refoutStopDef c s

/-! ## The reference (R160 to R162) -/

def refCode : RefSt → Nat
  | .present => 0
  | .lost => 1
  | .returning => 2

/-- REFCLK_LOST (R160, R161): the FPLLs hold; a loss during RETURNING ends the return without a second event. -/
def execRefclkLost (why : Nat) (lastGood : Stamp) (s : State) : Out :=
  .next (whenB (s.clk.ref != .lost && (dieClk s 0).running) s fun s =>
    let s1 := (dies s).foldl (fun s d => incF s d fClkFaultCntRefLoss) s
    if s.clk.ref == .returning then { s1 with clk := { s1.clk with ref := .lost } }
    else
      post { s1 with clk := { s1.clk with ref := .lost, refLostAt := physOf s 0 (coarse lastGood) } } 0 0x0203 pkgUid
        (coarse lastGood) (leBytes 1 why))

/-- REFCLK_RETURNED (R161). -/
def execRefclkReturned (s : State) : Out :=
  .next (whenB (s.clk.ref == .lost) s fun s => { s with clk := { s.clk with ref := .returning } })

/-- REF_RETURN_APPLY (R161, R162): J is measured and built out, or the time base of every die steps by −J: the counts by
its whole ticks, and what is left stands in every fine stamp until the FPLL phase has moved by it. -/
def execRefReturnApply (j : Int) (s : State) : Out :=
  .next (whenB (s.clk.ref == .returning && -4480 ≤ j && j ≤ 4479) s fun s =>
    let s1 :=
      if s.clk.realign then
        let r := (-j) % 256
        let s1 := stepAll s (fun _ => (-j) / 256) r 1
        { s1 with clk := { s1.clk with realignRest := r.toNat, realignAt := s.now } }
      else (dies s).foldl (fun s d => setDieClk s d { dieClk s d with buildout := (dieClk s d).buildout + j }) s
    post { s1 with clk := { s1.clk with ref := .present } } 0 0x0204 pkgUid (dieTime s1 0)
      (leBytes 4 (unsgn 32 j) ++ leBytes 1 (b2n s.clk.realign) ++ leBytes 3 0 ++ leBytes 8 (s.now - s.clk.refLostAt)))

def refSetModeDef : CmdDef where
  op := 0x0207
  cls := onClass clPackage
  onGroup := false
  payOk := fun _ c => pb c 0 < 2 && restOk c 1
  eff := fun c _ _ s => ({ s with clk := { s.clk with realign := pb c 0 = 1 } }, ok)

/-- REF_SET_MODE (R162). -/
def execRefSetMode (c : Cmd) (s : State) : Out := startCmd refSetModeDef c s

/-! ## SYNC (R156 to R159) -/

/-- SYNC_IN_EDGE (R156 to R159): die 0 samples edge E; SYNC_OUT will repeat it; it is ignored and counted, or starts
the armed action, whose strobe applies at E + 112.  While REFCLK is declared lost, also for its frequency, no edge counts as
sampled, and none is repeated (DESIGN CHOICE, log entry 139). -/
def execSyncInEdge (arrival : Nat) (halfTick : Bool) (s : State) : Out :=
  .next (whenB ((dieClk s 0).running) s fun s =>
    let hold := (dieClk s 0).holding
    let s1 := if s.clk.outEn && !hold && s.clk.ref != .lost then
        { s with clk := { s.clk with outs := s.clk.outs ++ [s.now + (35 * s.clk.outDly + 1) / 2] } }
      else s
    match s.clk.sync with
    | some a =>
      if s.clk.edge.isSome || s.clk.ref == .lost || hold then incF s1 0 fClkSyncCntIgnored
      else
        let s2 := { s1 with clk := { s1.clk with edge := some ⟨a, dieTime s 0, halfTick, arrival % 256, s.now + 140⟩ } }
        if a.strobe then issueStrobe s2 2 a.mask (s.now * 256) else s2
    | none => incF s1 0 fClkSyncCntIgnored)

/-- SYNC_ALIGN_APPLY (R157): at E + 8 every die loads SYNC_LOAD, and the action is disarmed unless it repeats. -/
def execSyncAlignApply (s : State) : Out :=
  .next (match s.clk.edge with
    | none => s
    | some e =>
      whenB (e.applyAt ≤ s.now) s fun s =>
        let ticks := fun d => tickDiff e.act.load (dieTime s d)
        let half : Int := -128 * (b2n e.half : Int)
        let step : Int := ticks 0 * 256 + half
        let s1 := if e.act.align then
            let s1 := stepAll s ticks half 0
            (dies s1).foldl (fun s d => setDieClk s d { dieClk s d with buildout := 0 }) s1
          else s
        let s2 := incF s1 0 fClkSyncCntApplied
        let s3 := { s2 with clk := { s2.clk with
          edge := none, sync := if !e.act.repeats && s2.clk.sync == some e.act then none else s2.clk.sync } }
        post s3 0 0x0205 pkgUid (dieTime s3 0)
          (leBytes 1 (b2n e.act.align + 2 * b2n e.act.strobe) ++ leBytes 1 e.arrival ++ leBytes 6 0 ++
            int8 (if e.act.align then step else 0)))

/-- SYNC_OUT_REPEAT (R158): SYNC_OUT drives the edge at E + OUT_DLY. -/
def execSyncOutRepeat (s : State) : Out :=
  .next (match s.clk.outs with
    | t :: r => whenB (t ≤ s.now) s fun s => { s with clk := { s.clk with outs := r, outCount := s.clk.outCount + 1 } }
    | [] => s)

def syncArmDef : CmdDef where
  op := 0x0206
  cls := onClass clPackage
  onGroup := false
  payOk := fun _ c =>
    let f := pb c 0
    f < 32 && (!bitAt f 3 || (2 ≤ pb c 1 && pb c 1 ≤ 7)) && fld c.payload 2 2 = 0 && restOk c 15
  eff := fun c _ _ s =>
    let f := pb c 0
    let k := s.clk
    let act : SyncAct := ⟨bitAt f 0, bitAt f 1, bitAt f 2, fld c.payload 8 7, BitVec.ofNat 32 (fld c.payload 4 4)⟩
    let sync := if bitAt f 4 then none else if bitAt f 0 || bitAt f 1 then some act else k.sync
    ({ s with clk := { k with sync := sync, outEn := bitAt f 3, outDly := if bitAt f 3 then pb c 1 else k.outDly } }, ok)

/-- SYNC_ARM (R173). -/
def execSyncArm (c : Cmd) (s : State) : Out := startCmd syncArmDef c s

/-- 1 ms in ticks: 12,500 hk-cycles (R56). -/
def msTicks : Nat := 1750000

/-- SYNC_IN has been driven for 1 ms: the partner attaches, at the tick at which that was so (R56, R59). -/
def syncAttach (s : State) : State :=
  let e := s.clk.syncSince + msTicks
  if s.ready && s.clk.syncDriven && e ≤ s.now && (unitOf s pkgUid).partner = 0 then
    attachPartner s 0 pkgUid 4 0 (tickAt s 0 e) []
  else s

/-- SYNC_IN has been undriven for 1 ms, and is not driven again in its last tick (R58): the partner detaches, at the tick
at which the timer expired. -/
def syncDetach (s : State) : State :=
  let e := s.clk.syncSince + msTicks
  if s.ready && !s.clk.syncDriven && e < s.now && (unitOf s pkgUid).partner = 4 then
    detachPartner s 0 pkgUid 1 (tickAt s 0 e) 0
  else s

/-- SYNC_IN_DRIVE_CHANGE (R56): the fail-safe detector's report changes; what the time until now brought comes first. -/
def execSyncInDriveChange (driven : Bool) (s : State) : Out :=
  .next (whenB (s.clk.syncDriven != driven) s fun s =>
    let s1 := syncDetach (syncAttach s)
    { s1 with clk := { s1.clk with syncDriven := driven, syncSince := s1.now } })

/-- SYNC_PEER_ATTACH (R56): SYNC_IN has been driven for 1 ms. -/
def execSyncPeerAttach (s : State) : Out := .next (syncAttach s)

/-- SYNC_PEER_DETACH (R56): SYNC_IN has been undriven for 1 ms. -/
def execSyncPeerDetach (s : State) : Out := .next (syncDetach s)

/-! ## Commands (R173) -/

def pllConfigureDef : CmdDef where
  op := 0x0201
  cls := onClass clPll
  onGroup := false
  payOk := fun s c =>
    pb c 0 < 4 && pb c 1 < 2 && fld c.payload 2 2 = 0 && restOk c 8 &&
      fitsSome s c fun u => fld c.payload 4 4 = 0 || uIdx u = 7
  eff := fun c _ u s =>
    let d := uDie u
    let k := uIdx u
    let f := fld c.payload 4 4
    if k ≠ 7 && f ≠ 0 then (s, err stBadPayload)
    else if pwOf s u != .asleep then (s, err stBadState)
    else if k = 7 && !(80000 ≤ f && f ≤ 1250000) then (s, err stRateUnsupported)
    else (setPll s d k { pllOf s d k with bw := pb c 0, notify := pb c 1 = 1, khz := f }, ok)

/-- PLL_CONFIGURE (R173). -/
def execPllConfigure (c : Cmd) (s : State) : Out := startCmd pllConfigureDef c s

def pllStepDef : CmdDef where
  op := 0x0202
  cls := onClass clPll
  onGroup := false
  payOk := restZero 4
  eff := fun c fid u s =>
    let d := uDie u
    let k := uIdx u
    let p := pllOf s d k
    let v := sgn 32 (fld c.payload 0 4)
    let t := p.offset + v
    if !(1 ≤ k && k ≤ 4) then (s, err stNotPermitted)
    else if v.natAbs > 20000 || t.natAbs > 100000 then (s, err stRateUnsupported)
    else if p.step.isSome then (s, err stBusy)
    else if !awake s u then (s, err stBadState)
    else (setPll s d k { p with step := some ⟨t, fid, s.now + ceilDiv (v.natAbs * usTicks) 100⟩ }, .wait)

/-- PLL_STEP (R149): 1 ppm per µs. -/
def execPllStep (c : Cmd) (s : State) : Out := startCmd pllStepDef c s

def timeReadDef : CmdDef where
  op := 0x0205
  cls := fun k _ => k == clDie || k == clPackage
  onGroup := false
  payOk := restZero 0
  eff := fun _ _ u s =>
    (s, .done 0 (leBytes 8 (dieTime s (uDie u) * 256) ++ leBytes 1 (refCode s.clk.ref) ++ leBytes 1 (b2n s.clk.realign)) 0)

/-- TIME_READ (R173). -/
def execTimeRead (c : Cmd) (s : State) : Out := startCmd timeReadDef c s

/-- The stop channels of a TDC_ARM payload. -/
def tdcStops (c : Cmd) : List (Nat × Nat) := (List.range 8).map fun n => (pb c (8 + 2 * n), pb c (9 + 2 * n))

/-- A source's argument is in range: an edge for TRIG_IN, an event ID for Shutter events, else 0 (R169). -/
def tdcArgOk (x : Nat × Nat) : Bool :=
  if 1 ≤ x.1 && x.1 ≤ 4 then x.2 ≤ 2 else if x.1 = 7 then x.2 < 64 else x.2 = 0

/-- A source exists on a die (R169). -/
def tdcSrcOn (d : Nat) (x : Nat × Nat) : Bool := d = 0 || x.1 = 0 || x.1 = 7 || x.1 = 8

def tdcArmDef : CmdDef where
  op := 0x0208
  cls := onClass clTdc
  onGroup := false
  payOk := fun _ c =>
    let w := fld c.payload 4 4
    let st := (pb c 0, pb c 1)
    pb c 2 < 2 && pb c 3 = 0 && restOk c 24 &&
      (bitAt (pb c 2) 0 || (1 ≤ pb c 0 && pb c 0 ≤ 8 && tdcArgOk st && 1 ≤ w && w ≤ 2 ^ 24 &&
        (tdcStops c).all fun x => x.1 ≤ 7 && tdcArgOk x))
  eff := fun c _ u s =>
    let d := uDie u
    let t := tdcOf s d
    if !(awake s u && t.dll) then (s, err stBadState)
    else if bitAt (pb c 2) 0 then (tdcEnd s d 2 (dieTime s d), ok)
    else if !tdcSrcOn d (pb c 0, pb c 1) || !((tdcStops c).all (tdcSrcOn d)) then (s, err stNotPermitted)
    else if t.arm.isSome then (s, err stBusy)
    else
      let a : TdcArm := ⟨pb c 0, pb c 1, fld c.payload 4 4, tdcStops c, none, List.replicate 8 none, [], 0⟩
      let s1 := setTdc s d { t with arm := some a, result := none }
      (if pb c 0 = 8 then tdcStart s1 d ⟨dieTime s d, 0, true⟩ else s1, ok)

/-- TDC_ARM (R170, R173).  With CANCEL it only ends the measurement: it arms none, and the rest of its payload is not checked
(DESIGN CHOICE, log entry 139). -/
def execTdcArm (c : Cmd) (s : State) : Out := startCmd tdcArmDef c s

/-- The 8 bytes of a stop channel in a TDC_READ result (R174). -/
def stopBytes (cap : Nat) (h : Option RawStamp) : List Byte :=
  match h with
  | some r => leBytes 3 (tickDiff r.cap cap).toNat ++ leBytes 1 r.tap ++ leBytes 1 (1 + 2 * b2n r.synthetic) ++ leBytes 3 0
  | none => leBytes 8 0

/-- The 80 bytes TDC_READ writes (R174). -/
def tdcBytes (r : TdcRec) : List Byte :=
  let st := r.start.getD ⟨0, 0, false⟩
  leBytes 8 (st.cap * 256) ++ leBytes 1 st.tap ++ leBytes 1 r.flags ++ leBytes 6 0 ++ r.hits.flatMap (stopBytes st.cap)

def tdcReadDef : CmdDef where
  op := 0x0209
  cls := onClass clTdc
  onGroup := false
  payOk := fun _ c => fld c.payload 0 8 % 8 = 0 && restOk c 8
  eff := fun c _ u s =>
    match (tdcOf s (uDie u)).result with
    | some r => (hostWrite s c.port (fld c.payload 0 8) (tdcBytes r), ok)
    | none => (s, err stBadState)

/-- TDC_READ (R174). -/
def execTdcRead (c : Cmd) (s : State) : Out := startCmd tdcReadDef c s

end Sys2Proof.Machine
end

