-- ==== Sys2Proof/Machine/Dsp.lean ====
section
/-!
DEFINITION. The arithmetic of the sampled signal: rounding, circular and other functions in fixed point, the window ROM,
and the value of a bin (R284, R292, R296 to R298).
-/

namespace Sys2Proof.Machine

/-! ## Rounding -/

/-- The quotient `a / b` rounded where the spec states no rounding: either neighbour, as a fixed but unknown function of the
numbers and a key (log entry 127). -/
def openQuot (key : List Int) (a : Int) (b : Nat) : Int :=
  if b = 0 || a % (b : Int) = 0 then a / (b : Int)
  else a / (b : Int) + b2n ((Config.signalValue (a :: b :: key)).getLsbD 0)

/-- The quotient `a / b` rounded to nearest; which way a half goes is not stated, an unknown function of the numbers. -/
def nearQuot (key : List Int) (a : Int) (b : Nat) : Int :=
  if b ≠ 0 && (2 * a) % (2 * b : Int) = (b : Int) then openQuot key a b else (2 * a + b) / (2 * b : Int)

/-- Adds the bits of a square root from bit `k - 1` down. -/
def isqrtAux : Nat → Nat → Nat → Nat
  | 0, _, r => r
  | k + 1, n, r => let b := r + 2 ^ k; isqrtAux k n (if b * b ≤ n then b else r)

/-- The integer square root of a number below 2^256. -/
def isqrt (n : Nat) : Nat := isqrtAux 128 n 0

/-! ## Functions in fixed point with 60 fractional bits -/

/-- One in fixed point. -/
def fixOne : Int := 2 ^ 60

def fixMul (a b : Int) : Int := a * b / fixOne

/-- 2π times 10^30. -/
def twoPi : Int := 6283185307179586476925286766559

/-- The terms of a circular series after term `t`, whose power is `k`, for the square `q` of the angle. -/
def circSeries (q : Int) : Nat → Nat → Int → Int
  | 0, _, _ => 0
  | f + 1, k, t => t + circSeries q f (k + 2) (-(fixMul t q) / ((k + 1) * (k + 2) : Nat))

/-- Cosine and sine of an angle of at most an eighth turn in radians. -/
def circSmall (a : Int) : Int × Int :=
  let q := fixMul a a
  (circSeries q 12 0 fixOne, circSeries q 12 1 a)

/-- Cosine and sine of `p / 2^48` of a turn. -/
def circ (p : Nat) : Int × Int :=
  let m : Nat := p % 2 ^ 48
  let quarter : Nat := (m + 2 ^ 45) / 2 ^ 46
  let a : Int := ((m : Int) - (quarter * 2 ^ 46 : Nat)) * twoPi * 2 ^ 12 / 10 ^ 30
  let r := circSmall a
  match quarter % 4 with
  | 0 => r
  | 1 => (-r.2, r.1)
  | 2 => (-r.1, -r.2)
  | _ => (r.2, -r.1)

/-- The cosine of `n / m` of a turn. -/
def cosFrac (n m : Nat) : Int := (circ (n * 2 ^ 48 / m)).1

/-- The terms of e^x after term `t` of power `k`. -/
def expSeries (x : Int) : Nat → Nat → Int → Int
  | 0, _, _ => 0
  | f + 1, k, t => t + expSeries x f (k + 1) (fixMul t x / (k + 1 : Nat))

/-- The terms of I0 after term `t` of index `k`, for the square `h` of half the argument. -/
def besselSeries (h : Int) : Nat → Nat → Int → Int
  | 0, _, _ => 0
  | f + 1, k, t => t + besselSeries h f (k + 1) (fixMul t h / ((k + 1) ^ 2 : Nat))

/-- I0 of an argument, given the square of its half. -/
def besselI0 (h : Int) : Int := besselSeries h 80 0 fixOne

/-! ## The window ROM (R296) -/

/-- A sum of cosines: coefficient `i`, in 10^-9, times cos of `i * n / N` of a turn. -/
def cosSum (n m : Nat) : Nat → List Int → Int
  | _, [] => 0
  | i, a :: r => a * cosFrac (i * n) m + cosSum n m (i + 1) r

/-- A Kaiser window of parameter `b`: the argument of I0 is b·√(1 − (2x − 1)²), and 1 − (2x − 1)² is 4x(1 − x). -/
def kaiser (b n m : Nat) : Int :=
  let full := besselI0 (fixOne * (b * b : Nat) / 4)
  besselI0 (fixOne * (b * b * n * (m - n) : Nat) / (m * m : Nat)) * fixOne / full

/-- w(x) of a window at x = n / N (R296). -/
def windowFn (code n m : Nat) : Int :=
  let cosines := fun l => cosSum n m 0 l / 10 ^ 9
  match code with
  | 0 => fixOne
  | 1 => cosines [500000000, -500000000]
  | 2 => cosines [540000000, -460000000]
  | 3 => cosines [358750000, -488290000, 141280000, -11680000]
  | 4 => cosines [215578950, -416631580, 277263158, -83578947, 6947368]
  | 5 => kaiser 6 n m
  | 6 => kaiser 13 n m
  | _ => expSeries (-(fixOne * 25 * (2 * (n : Int) - m) ^ 2 / (8 * m * m : Nat))) 60 0 fixOne

/-- A coefficient of the window ROM: 18 bits with an LSB of 2^-17 (R296).  How the ROM's content rounds is not stated (log
entry 127). -/
def windowCoef (code n m : Nat) : Int := openQuot [code, n, m] (windowFn code n m) (2 ^ 43)

/-- CG, the coherent gain of a window, in 1/100 (R296). -/
def windowCg (code : Nat) : Nat := ([100, 50, 54, 36, 22, 49, 34, 51][code]?).getD 100

/-- ENBW, the equivalent noise bandwidth of a window in bins, in 1/100 (R296). -/
def windowEnbw (code : Nat) : Nat := ([100, 150, 136, 200, 377, 150, 204, 139][code]?).getD 100

/-- A record multiplied by its window: the coefficient and the sample each point has (R296). -/
def windowed (code : Nat) (smps : List (Int × Int)) : List (Int × Int × Int) :=
  smps.mapIdx fun n z => (windowCoef code n smps.length, z.1, z.2)

/-! ## The value of a bin (R297, R298) -/

/-- `v` in 1/64 dB is at most the power ratio `p / q`: 10^(v/640) ≤ p / q. -/
def dbLe (v : Int) (p q : Nat) : Bool :=
  if 0 ≤ v then 10 ^ v.toNat * q ^ 640 ≤ p ^ 640 else q ^ 640 ≤ 10 ^ (-v).toNat * p ^ 640

/-- The largest value from `v` to `v + 2^k - 1` in 1/64 dB that is at most the ratio, if `v` is. -/
def dbSearch : Nat → Int → Nat → Nat → Int
  | 0, v, _, _ => v
  | k + 1, v, p, q => dbSearch k (if dbLe (v + 2 ^ k) p q then v + 2 ^ k else v) p q

/-- A power ratio as 16 bits in 1/64 dB (R298): −32,768 for 0, saturating at −32,768 and +32,767.  The rounding is not stated
(log entry 127). -/
def dbValue (p q : Nat) : Int :=
  let v := dbSearch 16 (-32768) p q
  if !dbLe (-32768) p q || v = 32767 then v
  else if dbLe v p q && 10 ^ v.toNat * q ^ 640 = 10 ^ (-v).toNat * p ^ 640 then v
  else v + b2n ((Config.signalValue [p, q]).getLsbD 0)

/-- The sum over a windowed record of w · z · e^(−j2π·k·n/N), with 60 fractional bits. -/
def dftSum (m k : Nat) : Nat → List (Int × Int × Int) → Int × Int
  | _, [] => (0, 0)
  | n, (w, i, q) :: r =>
    let c := circ ((k * n % m) * 2 ^ 48 / m)
    let t := dftSum m k (n + 1) r
    (t.1 + w * (i * c.1 + q * c.2), t.2 + w * (q * c.1 - i * c.2))

/-- The largest noise of the transform's own arithmetic in a bin, in 2^-16 LSB of R285, along one axis: 20 dB below the
quantisation noise of the 7-bit ADC, 1/12 code² over the input band, of which the bin takes ENBW · f_out / (N · f_s), with
f_out / f_s = `ratio` / (2^32 · D) (R291, R298; log entry 127). -/
def noiseLimit (code m dec ratio : Nat) : Nat :=
  isqrt (windowEnbw code * 2 ^ 20 * ratio / (100 * 2 * 1200 * (m * dec)))

/-- A noise of at most a limit either way. -/
def noiseWithin (limit : Nat) (v : W64) : Int := (v.toNat % (2 * limit + 1) : Nat) - (limit : Int)

/-- The value of bin `k` of a record (R297, R298): bin N/2 is the centre, and the coherent gain, which is the window's mean, is
divided out.  The noise of the transform's arithmetic is not stated within its bound: a value under the record's key. -/
def binValue (key : List Int) (code dec ratio : Nat) (smps : List (Int × Int)) (k : Nat) : Int :=
  let m := smps.length
  let x := windowed code smps
  let gain := (x.map (·.1)).foldl (· + ·) 0
  let sum := dftSum m (k + m / 2) 0 x
  let limit := noiseLimit code m dec ratio
  let unit := gain * fixOne
  let re := sum.1 * 2 ^ 16 + noiseWithin limit (Config.signalValue (k :: 0 :: key)) * unit
  let im := sum.2 * 2 ^ 16 + noiseWithin limit (Config.signalValue (k :: 1 :: key)) * unit
  dbValue (re * re + im * im).toNat ((unit * 2 ^ 16 * 32768) ^ 2).toNat

/-- The spectrum of a record: its bins in ascending order (R297, R300). -/
def spectrumOf (key : List Int) (code dec ratio : Nat) (smps : List (Int × Int)) : List Int :=
  (List.range smps.length).map (binValue key code dec ratio smps)

end Sys2Proof.Machine
end

