-- ==== Sys2Proof/Machine/Filter.lean ====
section
/-!
DEFINITION. The filters of a spectral chain: every one is a linear-phase FIR with unity gain at 0 Hz, of the length the spec gives; its
coefficients are those the spec's formula gives, else free ones within the limits the spec states (R285, R288 to R291).
-/

namespace Sys2Proof.Machine

/-! ## A filter at work (R278, R285) -/

/-- An I or Q value as 18 bits, and whether it saturates (R278, R285). -/
def sat18 (v : Int) : Int × Bool := (clampS 18 v, clampS 18 v != v)

/-- The sum of coefficients times values. -/
def dot : List Int → List Int → Int
  | a :: l, b :: r => a * b + dot l r
  | _, _ => 0

/-- I and Q that a filter with coefficients `h` makes of the samples of its span, and whether either saturates: the gain at 0 Hz is
divided out (R285). -/
def firOut (h : List Int) (xs : List (Int × Int)) : (Int × Int) × Bool :=
  let i := sat18 (openQuot [] (dot h (xs.map (·.1))) h.sum.toNat)
  let q := sat18 (openQuot [] (dot h (xs.map (·.2))) h.sum.toNat)
  ((i.1, q.1), i.2 || q.2)

/-! ## Limits in frequency (R286, R288, R289, R291) -/

/-- What the spec states of a low-pass filter: its taps; its pass-band and stop-band edges over a common denominator, as fractions of
its sampling rate; its ripple in 1/1000 dB and its rejection in 1/1000 dB. -/
structure FirForm where
  taps : Nat
  pass : Nat
  stop : Nat
  den : Nat
  ripple : Nat
  reject : Nat
  deriving DecidableEq, Repr

/-- The amplitude ratio of `m` in 1/1000 dB, in fixed point: e^(m · ln 10 / 20,000). -/
def dbAmp (m : Int) : Int := expSeries (fixOne * m * 2302585092994045684 / (20000 * 10 ^ 18)) 60 0 fixOne

/-- The response of symmetric coefficients at `n / m` of the sampling rate, about their centre, in fixed point. -/
def firAmp (h : List Int) (n m : Nat) : Int :=
  (h.mapIdx fun i c => c * cosFrac (n * (2 * Int.ofNat i + 1 - Int.ofNat h.length).natAbs) (2 * m)).sum

/-- Symmetric coefficients keep the stated ripple and rejection, at 8 frequencies for each tap, relative to their gain at 0 Hz. -/
def firMeets (f : FirForm) (h : List Int) : Bool :=
  let g := h.sum
  let m := 16 * f.taps
  0 < g && (List.range (8 * f.taps + 1)).all fun n =>
    let a := firAmp h n m
    (f.pass * m < n * f.den || (g * dbAmp (-f.ripple) ≤ a && a ≤ g * dbAmp f.ripple)) &&
      (n * f.den < f.stop * m || (a.natAbs : Int) ≤ g * dbAmp (-f.reject))

/-! ## Coefficients that the spec does not state -/

/-- Free symmetric coefficients of a filter (log entry 127). -/
def freeFir (key : List Int) (taps : Nat) : List Int :=
  (List.range taps).map fun i => sgn 32 (Config.signalValue ((min i (taps - 1 - i) : Nat) :: taps :: key)).toNat

/-- A Kaiser window of parameter `b / 1000` at point `i` of `taps`, in fixed point: the square of half the argument of I0 is
b² · x · (1 − x) with x = i / (taps − 1). -/
def kaiserAt (b i taps : Nat) : Int :=
  besselI0 (fixOne * (b * b * (i * (taps - 1 - i)) : Nat) / (10 ^ 6 * (taps - 1) ^ 2 : Nat)) * fixOne /
    besselI0 (fixOne * (b * b : Nat) / (4 * 10 ^ 6 : Nat))

/-- 2 · fc · sinc(2 · fc · x) in fixed point, for fc = num / den and x = a / 2. -/
def sincAt (num den a : Nat) : Int :=
  if a = 0 then fixOne * (2 * num : Nat) / (den : Nat)
  else (circ (num * a * 2 ^ 48 / (2 * den))).2 * 4 * 10 ^ 30 / (twoPi * a)

/-- A windowed-sinc design: `margin` dB beyond the stated rejection, its cut-off moved by `move` fortieths of the transition. -/
def firDesign (f : FirForm) (margin move : Int) : List Int :=
  let b := (1102 * (f.reject + 1000 * margin - 8700) / 10000).toNat
  let num := (20 * (f.pass + f.stop : Nat) + move * ((f.stop : Int) - f.pass)).toNat
  (List.range f.taps).map fun i =>
    fixMul (sincAt num (40 * f.den) (2 * Int.ofNat i + 1 - Int.ofNat f.taps).natAbs) (kaiserAt b i f.taps)

/-- The designs that are tried where free coefficients do not keep the limits. -/
def firDesigns (f : FirForm) : List (List Int) :=
  [2, 4, 3, 1, 0, -1, -2, -3, -4, -5, -6].flatMap fun m => [-1, -2, -3, 0].map fun k => firDesign f m k

/-- The coefficients of a filter whose limits alone are stated: free ones if they keep the limits, else the first design that does
(DESIGN CHOICE, log entry 127). -/
def firCoefs (key : List Int) (f : FirForm) : List Int :=
  ((freeFir key f.taps :: firDesigns f).find? (firMeets f)).getD (firDesign f 2 (-1))

/-! ## The filters of the spec -/

/-- The span of a Grain preset (R288). -/
def grainSpan (preset decLog2 : Nat) : Nat :=
  match preset, decLog2 with
  | 0, 0 => 161
  | 0, 1 => 289
  | 0, 2 => 545
  | 0, _ => 1057
  | 1, 0 => 97
  | 1, 1 => 193
  | 1, 2 => 353
  | 1, _ => 673
  | _, 0 => 65
  | _, 1 => 129
  | _, 2 => 225
  | _, _ => 417

/-- A Grain preset's decimator and final filter as one FIR at f_s (R286, R288). -/
def grainCoefs (preset decLog2 : Nat) : List Int :=
  let t := grainSpan preset decLog2
  let ripple := ([5, 20, 100][preset]?).getD 100
  let reject := ([100000, 80000, 60000][preset]?).getD 60000
  firCoefs [0, preset, decLog2]
    (if decLog2 = 0 then ⟨t, 200, 300, 1000, ripple, reject⟩ else ⟨t, 400, 600, 1000 * 2 ^ decLog2, ripple, reject⟩)

/-- The span of the decimator used with ROM or RESAMPLE (R290). -/
def decSpan (decLog2 : Nat) : Nat :=
  match decLog2 with
  | 0 => 1
  | 1 => 65
  | 2 => 161
  | 3 => 353
  | n => 14 * 2 ^ n + 1

/-- The decimator used with ROM or RESAMPLE as one FIR at f_s (R280, R290).  No FIR of R290's span reaches the 90 dB of R280, so
only its span, its linear phase and its gain are held (log entry 140). -/
def decCoefs (decLog2 : Nat) : List Int :=
  let t := decSpan decLog2
  let h := freeFir [1, decLog2] t
  if decLog2 = 0 then [1] else if 0 < h.sum then h else firDesign ⟨t, 450, 550, 1000 * 2 ^ decLog2, 10, 90000⟩ 0 0

/-- The taps of a FIR ROM response (R289). -/
def romTaps (i : Nat) : Nat :=
  ([1, 49, 67, 87, 91, 127, 161, 101, 201, 65, 33, 17, 13, 9, 7, 129, 65, 33, 65, 33, 17, 129, 65, 33, 65, 33, 17,
    2, 4, 8, 16, 51][i]?).getD 1

/-- The limits of the flat and half-band responses of the FIR ROM (R289). -/
def romForm (i : Nat) : FirForm :=
  match i with
  | 1 => ⟨49, 400, 475, 1000, 50, 60000⟩
  | 2 => ⟨67, 400, 475, 1000, 10, 80000⟩
  | 3 => ⟨87, 400, 475, 1000, 5, 100000⟩
  | 4 => ⟨91, 450, 490, 1000, 50, 60000⟩
  | 5 => ⟨127, 450, 490, 1000, 10, 80000⟩
  | 6 => ⟨161, 450, 490, 1000, 5, 100000⟩
  | 7 => ⟨101, 250, 300, 1000, 10, 80000⟩
  | 8 => ⟨201, 125, 150, 1000, 10, 80000⟩
  | _ => ⟨51, 200, 300, 1000, 10, 80000⟩

/-- The places of the taps of a response about its centre. -/
def aboutCentre (taps : Nat) : List Nat := (List.range taps).map fun (i : Nat) => (Int.ofNat i - Int.ofNat (taps / 2)).natAbs

/-- The Gaussian response with H(f) = exp(−ln 2 · (f / B)²), B in 1/1000 (R289): its impulse response at `t` is that of
exp(−(π·B·t)² / ln 2). -/
def gaussAt (b t : Nat) : Int :=
  expSeries (-(fixOne * twoPi ^ 2 * (b * b * (t * t) : Nat) * 10 ^ 18 / (4 * 10 ^ 66 * 693147180559945309))) 60 0 fixOne

/-- sin(π·u) / (π·u) at u = t / ts, not 0. -/
def sincSym (t ts : Nat) : Int := (circ (t * 2 ^ 48 / (2 * ts))).2 * (2 * ts : Nat) * 10 ^ 30 / (twoPi * t)

/-- The raised-cosine response with `ts` samples a symbol and α = a / 100 (R289), at sample `t`; it is 0 where its denominator is. -/
def rcAt (a ts t : Nat) : Int :=
  let den : Int := ((50 * ts) ^ 2 : Nat) - ((a * t) ^ 2 : Nat)
  if t = 0 then fixOne
  else if den = 0 then 0
  else fixMul (sincSym t ts) (cosFrac (a * t) (200 * ts)) * ((50 * ts) ^ 2 : Nat) / den

/-- The root-raised-cosine response with `ts` samples a symbol and α = a / 100 (R289), at sample `t`. -/
def rrcAt (a ts t : Nat) : Int :=
  let den : Int := ((25 * ts) ^ 2 : Nat) - ((a * t) ^ 2 : Nat)
  if t = 0 then fixOne * (100 - (a : Int)) / 100 + fixOne * (8 * a : Nat) * 10 ^ 30 / (100 * twoPi)
  else if den = 0 then
    let c := circ (100 * 2 ^ 48 / (8 * a))
    let twoOverPi := fixOne * 4 * 10 ^ 30 / twoPi
    fixMul (fixMul (circ (2 ^ 45)).1 (fixMul (fixOne + twoOverPi) c.2 + fixMul (fixOne - twoOverPi) c.1)) (fixOne * (a : Nat) / 100)
  else
    let num := (circ (t * (100 - a) * 2 ^ 48 / (200 * ts))).2 + cosFrac (t * (100 + a)) (200 * ts) * (a * t : Nat) / (25 * ts : Nat)
    num * ((25 * ts) ^ 2 : Nat) / den * (2 * ts : Nat) * 10 ^ 30 / (twoPi * t)

/-- The coefficients of a FIR ROM response (R289). -/
def romCoefs (rom : Nat) : List Int :=
  let at_ := aboutCentre (romTaps rom)
  let alpha := ([10, 25, 50][rom % 3]?).getD 10
  if rom = 0 || (27 ≤ rom && rom ≤ 30) then List.replicate (romTaps rom) 1
  else if 9 ≤ rom && rom ≤ 14 then at_.map (gaussAt (([25, 50, 100, 150, 200, 300][rom - 9]?).getD 25))
  else if 15 ≤ rom && rom ≤ 20 then at_.map (rcAt alpha (if rom ≤ 17 then 4 else 2))
  else if 21 ≤ rom && rom ≤ 26 then at_.map (rrcAt alpha (if rom ≤ 23 then 4 else 2))
  else firCoefs [2, rom] (romForm rom)

/-- The prototype of the resampler's 1,024 phases for a RATIO, at 1,024 times f_dec (R291): 8 + 89 · r dB of rejection, and no
coefficient at its ends. -/
def resampProto (ratio : Nat) : List Int :=
  firCoefs [3, ratio] ⟨32767, 400 * ratio, 600 * ratio, 1000 * 1024 * 2 ^ 32, 50, 8000 + 89000 * ratio / 2 ^ 32⟩

/-- The 32 coefficients of the resampler for an output at position `p`, in 1/1024 of f_dec's samples: tap `i` is the first at or after
the position plus `i` (R291). -/
def resampCoefs (ratio p : Nat) : List Int :=
  let h := resampProto ratio
  (List.range 32).map fun i =>
    let m := 1024 * ((p + 1023) / 1024 + i) - p
    if m = 0 then 0 else (h[m - 1]?).getD 0

end Sys2Proof.Machine
end

