-- ==== Sys2Proof/Machine/Chain.lean ====
section
/-!
DEFINITION. Spectral chains: filter spans, settling, samples, and the chain commands (R275 to R321).
-/

namespace Sys2Proof.Machine

/-! ## Configurations (R280, R286 to R292, R302) -/

def chainUid (d c : Nat) : Nat := uid d clChain c

/-- The decimation D. -/
def decOf (g : ChainCfg) : Nat := 2 ^ g.decLog2

/-- The transform size N. -/
def fftN (g : ChainCfg) : Nat := 2 ^ g.fftLog2

/-- The resampling ratio in 2^-32 (R291): exactly 1 without the resampler and for RATIO 0. -/
def ratioOf (g : ChainCfg) : Nat := if g.final = 2 && g.ratio ≠ 0 then g.ratio else 2 ^ 32

/-- FINAL is allowed for its D (R280). -/
def finalOk (g : ChainCfg) : Bool :=
  match g.final with
  | 0 => g.decLog2 ≤ 3
  | 1 => g.decLog2 ≤ 12
  | 2 => 4 ≤ g.decLog2 && g.decLog2 ≤ 12
  | _ => 6 ≤ g.decLog2 && g.decLog2 ≤ 12

/-- The least DEC_LOG2 at which a transform is gapless (R302). -/
def gaplessDec (g : ChainCfg) : Nat := (if 15 ≤ g.fftLog2 then 1 else 0) + (if g.overlap = 2 then 1 else 0)

/-- The transform is allowed (R302, R303). -/
def fftOk (g : ChainCfg) (allowSkip : Bool) : Bool :=
  gaplessDec g ≤ g.decLog2 || (allowSkip && !(15 ≤ g.fftLog2 && g.decLog2 = 0))

/-- The pass-band edge of a FIR ROM response in 1/1000 of f_dec, where R289 gives one. -/
def romEdge (i : Nat) : Option Nat :=
  if 1 ≤ i && i ≤ 3 then some 400
  else if 4 ≤ i && i ≤ 6 then some 450
  else match i with
    | 7 => some 250
    | 8 => some 125
    | 9 => some 25
    | 10 => some 50
    | 11 => some 100
    | 12 => some 150
    | 13 => some 200
    | 14 => some 300
    | 31 => some 200
    | _ => none

/-- The filter span: the input samples one output depends on, and the settling time (R288 to R292, R310). -/
def filterSpan (g : ChainCfg) : Nat :=
  match g.final with
  | 0 => grainSpan g.preset g.decLog2
  | 1 => decSpan g.decLog2 + (romTaps g.rom - 1) * decOf g + 1
  | 2 => decSpan g.decLog2 + 32 * decOf g
  | _ => decOf g

/-- Twice the pass-band edge in 1/(1000 · 2^32) of f_dec, where the response has one (R286): with the resampler the narrower of
0.45 f_dec and 0.4 f_out (R291). -/
def spanOf (g : ChainCfg) : Option Nat :=
  match g.final with
  | 0 => some ((if g.decLog2 = 0 then 400 else 800) * 2 ^ 32)
  | 1 => if g.decLog2 = 0 then (romEdge g.rom).map (2 * · * 2 ^ 32) else some (2 * min 450 ((romEdge g.rom).getD 450) * 2 ^ 32)
  | 2 => some (if g.ratio = 0 then 900 * 2 ^ 32 else 2 * min (450 * 2 ^ 32) (400 * g.ratio))
  | _ => none

/-! ## Input (R275, R276) -/

/-- The baud rate of a lane in kBd, as a fraction: base and divider. -/
def baudOver (s : State) (d n : Nat) : Bool := 28125000 * 2 ^ (laneOf s d n).divLog2 < laneBase s d n

/-- The tap of a lane delivers samples (R276): the lane is AWAKE and its LPLL locked, and the die counts on FCLK. -/
def tapOk (s : State) (d n : Nat) : Bool :=
  awake s (laneUid d n) && (pllOf s d (1 + n / 4)).locked && counts s d

/-- The lane a chain has selected delivers samples at a rate the chain takes. -/
def inputOk (s : State) (d c : Nat) : Bool :=
  match (chainOf s d c).lane with
  | some n => tapOk s d n && !baudOver s d n
  | none => false

/-! ## Settling, starting and stopping (R309 to R315) -/

/-- The sample grid starts anew (R293): no input, no output and no record yet. -/
def freshGrid (x : Chain) : Chain :=
  { x with
    nIn := 0, nOut := 0, acc := (0, 0), ins := [], taps := [], nTap := 0, lastIn := none, centres := [], lastOvr := none
    lastStale := none, held := [], outs := [], recBase := 0, recWait := none, pipes := [], skipPend := false
    firstSpec := true, calIn := none, staleIn := none }

/-- A started chain begins to settle at the current tick (R310, R311); without input it waits in NO_INPUT.  Every record that
holds a sample stamped before is abandoned, and the flag of EV_CHAIN_SETTLED tells whether one was, since the last settling. -/
def settle (s : State) (d c cause : Nat) : State :=
  let x := chainOf s d c
  let aband := hasRecs x || (x.st != .running && x.setAband)
  let x1 := { freshGrid (abandonRecs x) with
    setAt := s.now, setDie := dieTime s d, setCause := cause, setAband := aband }
  if x.st == .stopped then s
  else if inputOk s d c then setChain s d c { x1 with st := .settling }
  else setChain s d c { x1 with st := .noInput, gapStamp := if x.st == .noInput then x.gapStamp else nowStamp s d }

/-- The Exposure stream of a chain. -/
def expoOf (c : Nat) : Nat := 16 + c

/-- A change of a chain's source at the current tick reaches its armed Exposure stream (R219, R309): of every format,
or of CPLX18 only. -/
def chainSource (s : State) (d c : Nat) (raw : Bool) : State :=
  let x := streamOf s d (expoOf c)
  if armed x && (raw || x.format = 2) then
    sourceChange (setChain s d c { chainOf s d c with missing := none, lastOut := none }) d (expoOf c)
  else s

/-- The data of EV_CHAIN_GAP (R320). -/
def gapData (x : Chain) (cause flags : Nat) : List Byte :=
  leBytes 1 cause ++ leBytes 1 (x.lane.getD 0) ++ leBytes 1 flags ++ leBytes 5 0 ++ leBytes 8 x.gapStamp.toNat

/-- Why a chain in NO_INPUT lost its input: 1 input lost, 2 CLOCK (R320). -/
def gapCause (x : Chain) : Nat := if x.gapClock then 2 else 1

/-- A started chain stops at the current tick (R312, R315): it gives no more spectra (R249, R277), and an armed Exposure stream is
disarmed with ABANDON. -/
def chainStop (s : State) (d c : Nat) : State :=
  let x := chainOf s d c
  if x.st == .stopped then s
  else
    let s1 := if x.st == .noInput then post s d 0x0503 (chainUid d c) (dieTime s d) (gapData x (gapCause x) 1) else s
    let s2 := setChain s1 d c { abandonRecs (chainOf s1 d c) with st := .stopped, held := [], setAband := false }
    if armed (streamOf s2 d (expoOf c)) then disarm s2 d (expoOf c) true [] else s2

/-- Settings that wait for spectra apply at once to a stopped chain. -/
def applyAll (x : Chain) : Chain :=
  if x.st == .stopped then { x with exp := ((x.expNext.getLast?).map (·.2)).getD x.exp, expNext := [] } else x

/-! ## Stale intervals and coefficient changes (R369, R370) -/

def calOf (s : State) (d n : Nat) : Cal := tget Cal.reset s.cal (key d n)

def setCal (s : State) (d n : Nat) (x : Cal) : State := { s with cal := tset Cal.reset s.cal (key d n) x }

/-- The number of a lane's current or last strip. -/
def stripSeq (x : Cal) : Nat := (x.strips - 1) % 2 ^ 16

/-- A place in time lies in the lane's stale interval: its strip's number. -/
def staleStrip (s : State) (d n ph : Nat) : Option Nat :=
  let x := calOf s d n
  if x.staleAt ≠ 0 && x.staleAt * 256 ≤ ph && ph < (x.staleAt + 256) * 256 then some x.lastSeq else none

/-! ## The tap (R275, R278, R356, R357) -/

/-- The largest magnitude codes of the tap (R278). -/
def overrange (x : Int) : Bool := x ≤ -128 || 127 ≤ x

/-- The coefficients that apply to a sample at a place in time (R367, R369). -/
def coefFor (x : Cal) (ph : Nat) : CalVec := if x.coefAt * 256 ≤ ph then x.coef else x.coefOld

/-- An ADC sample of sub-ADC `k` corrected, (1 + g) · (x − o), in 2^-28 code (R356, R357). -/
def corrected (v : CalVec) (k : Nat) (x : Int) : Int :=
  let e := (v[k % 32]?).getD (0, 0, 0)
  (2 ^ 20 + e.2.1) * (256 * x - e.1)

/-- The code the ADC gives for the code of the signal at the balls: INVERT swaps the inputs ahead of it (R104), which mirrors the
codes −64 to 63 (DESIGN CHOICE, log entry 8). -/
def invCode (l : Lane) (x : Int) : Int := if l.invert then -1 - x else x

/-- The RAW8 value of an ADC sample (R184, R357): corrected, rounded to half a code and saturated. -/
def tapValue (v : CalVec) (k : Nat) (x : Int) : Int := clampS 8 (nearQuot [k] (corrected v k x) (2 ^ 27))

/-- The RAW8 samples of ADC samples `xs`, the first from sub-ADC `k` (R356): each with its stamp. -/
def tapValues (s : State) (d n : Nat) : Nat → List Int → List Stamp → List (Int × Stamp)
  | k, x :: xs, t :: ts => (tapValue (coefFor (calOf s d n) (physFine s d t)) k (invCode (laneOf s d n) x), t) :: tapValues s d n (k + 1) xs ts
  | _, _, _ => []

/-! ## Level/edge comparators on RAW input (R250 to R252) -/

/-- Whether two samples straddle LEVEL, rising or falling (R252). -/
def risesAt (g : CmpCfg) (a b : Int) : Bool := a < g.level && g.level ≤ b

def fallsAt (g : CmpCfg) (a b : Int) : Bool := b < g.level && g.level ≤ a

/-- The input has passed a bound (R251). -/
def passBounds (m : Comparator) (low high : Int) : Comparator :=
  { m with
    wasBelow := m.wasBelow || low < m.cfg.level - m.cfg.hyst
    wasAbove := m.wasAbove || m.cfg.level + m.cfg.hyst ≤ high }

/-- A crossing uses up the bound that armed it (R251). -/
def useBound (m : Comparator) (rising falling : Bool) : Comparator :=
  { m with wasBelow := m.wasBelow && !rising, wasAbove := m.wasAbove && !falling }

/-- A sample reaches a comparator: a crossing that counts is found, then the sample may pass a bound. -/
def cmpTake (m : Comparator) (v : Int) (t : Stamp) : Comparator :=
  match m.prev with
  | none => { passBounds m v v with prev := some (v, t) }
  | some (a, ta) =>
    if !stampLt ta t then m
    else
      let up := risesAt m.cfg a v && m.wasBelow
      let down := fallsAt m.cfg a v && m.wasAbove
      let m1 := if up || down then { useBound m up down with found := m.found ++ [⟨a, v, ta, t⟩] } else m
      { passBounds m1 v v with prev := some (v, t) }

/-- A RAW8 sample reaches the level/edge comparators that take its lane, scaled as v · 512 (R250). -/
def cmpSample (s : State) (d n : Nat) (x : Int) (t : Stamp) : State :=
  [2, 3].foldl (fun s k =>
    let m := cmpOf s d k
    if !(m.cfg.enable && m.cfg.mode = 0 && m.cfg.lane = n) then s else setCmp s d k (cmpTake m (x * 512) t)) s

/-- The samples of a lane have a gap: the next one straddles nothing with those before it. -/
def cmpForget (s : State) (d n : Nat) : State :=
  [2, 3].foldl (fun s k =>
    let m := cmpOf s d k
    if m.cfg.mode = 0 && m.cfg.lane = n then setCmp s d k { m with prev := none } else s) s

/-! ## The activity of a lane's calibration, and the changes it applies (R356, R359, R367 to R372) -/

/-- The sampling rate of a lane in Hz as a fraction, its LPLL's offset included (R149, R275). -/
def sampleRate (s : State) (d n : Nat) : Nat × Nat :=
  (laneBase s d n * 1000 * (10 ^ 8 + (pllOf s d (1 + n / 4)).offset).toNat, 10 ^ 8 * 2 ^ (laneOf s d n).divLog2)

/-- The input period of a lane in fine units as a fraction. -/
def inputPeriod (s : State) (d n : Nat) : Nat × Nat :=
  let f := sampleRate s d n
  (448000000000 * f.2, f.1)

/-- A chain of the die has the lane selected. -/
def chainTakes (s : State) (d n : Nat) : Bool := [0, 1].any fun c => (chainOf s d c).lane = some n

/-- The lane is active (R359). -/
def calActive (s : State) (d n : Nat) : Bool :=
  let x := calOf s d n
  tapOk s d n && !x.suspended && !safelight s d && (x.mode = 2 || (x.mode = 1 && chainTakes s d n))

/-- A strip ends without a failure: the failure count and STUCK clear. -/
def calPass (x : Cal) (result : Nat) : Cal := { x with result := result, fails := 0, stuck := false, phase := .waiting }

/-- A strip, or a PENDING change, is abandoned (R372). -/
def calAbort (x : Cal) : Cal :=
  match x.phase with
  | .estimate | .confirm | .judging _ | .pending => { x with phase := .inactive, result := 7, change := [] }
  | _ => x

/-- The coefficients after a change, within their ranges (R356). -/
def addCoef (a b : Int × Int × Int) : Int × Int × Int :=
  (max (-2048) (min 2048 (a.1 + b.1)), clampS 16 (a.2.1 + b.2.1), max (-2000) (min 2000 (a.2.2 + b.2.2)))

/-- The skew in fs that the clock path of a sub-ADC applies for a coefficient: the nearest 5 fs (R356).  It moves the instant at which
the ADC takes its samples, never a stamp (R357). -/
def appliedSkew (skew : Int) : Int := 5 * nearQuot [] skew 5

/-- The largest magnitudes in a vector. -/
def largest (v : CalVec) : Nat × Nat × Nat :=
  v.foldl (fun m e => (max m.1 e.1.natAbs, max m.2.1 e.2.1.natAbs, max m.2.2 e.2.2.natAbs)) (0, 0, 0)

/-- Which kinds of coefficient a change moves: bit 0 offset, 1 gain, 2 skew. -/
def changedBits (v : CalVec) : Nat :=
  let m := largest v
  b2n (m.1 ≠ 0) + 2 * b2n (m.2.1 ≠ 0) + 4 * b2n (m.2.2 ≠ 0)

/-- The stamp of a lane's first sample at or after a tick t_a, counted in sampling periods from the last of its window (R371). -/
def firstSampleAt (s : State) (d n ta : Nat) : Stamp :=
  let p := inputPeriod s d n
  let diff := ta * 256 - physFine s d (calOf s d n).smpLast
  let m := ceilDiv (diff * p.2) p.1
  stampOf (tickAt s d ta) + BitVec.ofInt 64 (nearQuot [] (m * p.1 : Nat) p.2 - diff)

/-- A change's first sample has a stamp: MK_CAL in the Roll stream, and EV_CAL_APPLIED (R370, R371). -/
def calGive (s : State) (d n : Nat) (m : CalMark) (t : Stamp) : State :=
  let s1 := addMark (setCal s d n { calOf s d n with markDue := none, lastTime := t }) d n 0x08 m.data 0 0 t
  postStamp s1 d 0x0701 (laneUid d n) t 0 m.ev

/-- A tap sample of a lane may be the first under new coefficients. -/
def calFirst (s : State) (d n ph : Nat) (t : Stamp) : State :=
  match (calOf s d n).markDue with
  | some m => if m.ta * 256 ≤ ph then calGive s d n m t else s
  | none => s

/-- No chain takes the lane's samples: the first under new coefficients is the one its sampling period gives. -/
def calFlush (s : State) (d n : Nat) : State :=
  match (calOf s d n).markDue with
  | some m => if chainTakes s d n && tapOk s d n then s else calGive s d n m (firstSampleAt s d n m.ta)
  | none => s

/-- A change is applied at a tick t_a (R367 to R371): the coefficients, MK_CAL, EV_CAL_APPLIED, and the stale interval of a skew
change.  Where a chain takes the lane's samples, the first of them at or after t_a gives the stamp. -/
def calApply (s : State) (d n : Nat) (v : CalVec) (how ta : Nat) : State :=
  let x := calOf s d n
  let ch := changedBits v
  let m := largest v
  let seq := stripSeq x
  let data := seq * 2 ^ 40 + bits ch 0 1 * 2 ^ 39 + bits ch 1 1 * 2 ^ 38 + bits ch 2 1 * 2 ^ 37
  let skew := bitAt ch 2
  let ev := leBytes 2 seq ++ leBytes 1 ch ++ leBytes 1 how ++ leBytes 2 m.1 ++ leBytes 2 m.2.1 ++ leBytes 2 m.2.2
  let x1 := { calPass x 1 with
    coef := x.coef.zipWith addCoef v, coefAt := ta, coefOld := x.coef, applied := (x.applied + 1) % 2 ^ 32
    markDue := some ⟨ta, data, ev⟩, lastSeq := seq
    staleAt := if skew then ta else x.staleAt, staleOn := skew || x.staleOn, change := [] }
  let s1 := setCal s d n x1
  let s2 := [0, 1].foldl (fun s c =>
    let y := chainOf s d c
    if y.lane = some n then setChain s d c { y with calDue := some (ta, data) } else s) s1
  calFlush s2 d n

/-- A lane whose activity has ended is INACTIVE (R360, R372): its strip is aborted; in AUTO mode a PENDING change
applies when only the last consumer is gone. -/
def calSync (s : State) (d n : Nat) : State :=
  let s0 := calFlush s d n
  let x := calOf s0 d n
  if calActive s0 d n || (x.phase == .inactive && !x.converged) then s0
  else
    let s1 :=
      if x.phase == .pending && x.mode = 1 && tapOk s0 d n && !x.suspended && !safelight s0 d then
        calApply s0 d n x.change 2 s0.now
      else s0
    let y := calOf s1 d n
    setCal s1 d n { calAbort y with phase := .inactive, converged := false }

/-! ## Marks before samples (R370) -/

/-- The marks of a coefficient change and of a stale interval before a sample of an Exposure stream (R370). -/
def sampleMarks (s : State) (d c : Nat) (cal : Option Nat) (strip : Option Nat) (t : Stamp) : State :=
  let i := expoOf c
  let s1 := match cal with
    | some data => addMark s d i 0x08 data 0 0 t
    | none => s
  let x := chainOf s1 d c
  if strip = x.staleOpen then s1
  else
    let s2 := match x.staleOpen with
      | some q => addMark s1 d i 0x0A (q * 2 ^ 40) 0 0 t
      | none => s1
    let s3 := match strip with
      | some q => addMark s2 d i 0x09 (q * 2 ^ 40) 0 0 t
      | none => s2
    setChain s3 d c { chainOf s3 d c with staleOpen := strip }

/-! ## The sample grid (R293) -/

/-- The position of output sample `j` from the grid origin, in 1/1024 input samples (R293, R291). -/
def outPos (g : ChainCfg) (j : Nat) : Nat :=
  let r := ratioOf g
  (j * 1024 * 2 ^ 32 * 2 + r) / (2 * r) * decOf g

/-- The first input sample of output sample `j`'s filter span. -/
def outFirst (g : ChainCfg) (j : Nat) : Nat := ceilDiv (outPos g j) 1024

/-- The last input sample of output sample `j`'s filter span. -/
def outLast (g : ChainCfg) (j : Nat) : Nat := outFirst g j + filterSpan g - 1

/-- The last input sample, from the first of its span, that a filter weighs: R289's span is one longer than the taps of a ROM response
reach (log entry 140). -/
def filterReach (g : ChainCfg) : Nat := if g.final = 1 then filterSpan g - 2 else filterSpan g - 1

/-- The centre of symmetry of output sample `j`'s filter, in 1/2048 input samples from the grid origin (R293). -/
def outCentre (g : ChainCfg) (j : Nat) : Nat := 2 * outPos g j + 1024 * filterReach g

/-- The stamp of a centre between two input samples, `c` of 2048 parts from the first, rounded to the nearest fine unit (R293). -/
def centreStamp (a b : Stamp) (c : Nat) : Stamp := a + BitVec.ofInt 64 (nearQuot [] (c * stampDiff b a) 2048)

/-- The stamps of the output sample whose centre lies between the latest input sample and the one before it. -/
def takeCentre (x : Chain) (t : Stamp) : Chain :=
  let c := outCentre x.cfg (x.nOut + x.centres.length)
  if 2048 * x.nIn < c then x
  else match x.lastIn with
    | some a => { x with centres := x.centres ++ [centreStamp a t (c + 2048 - 2048 * x.nIn)] }
    | none => { x with centres := x.centres ++ [t] }

/-! ## The stages (R279 to R292) -/

/-- The DC block (R281, R282): its output y = x − e in 2^-64 code of a RAW8 sample, and the next estimate e + α · (x − e) with
α = 2π · DC_CORNER / f_s, unless frozen or bypassed. -/
def dcBlock (g : ChainCfg) (frozen : Bool) (fs : Nat × Nat) (e x : Int) : Int × Int :=
  let v := x * 2 ^ 63
  if g.dcBypass then (v, e)
  else (v - e, if frozen then e else e + openQuot [] ((v - e) * twoPi * g.dcCorner * fs.2) (10 ^ 30 * fs.1))

/-- The phase of the NCO for input sample `n` of the grid, in 2^-48 turn (R284). -/
def ncoPhase (g : ChainCfg) (n : Nat) : Nat := (g.phase.toNat * 2 ^ 32 + g.freq.toNat * n) % 2 ^ 48

/-- The mixer (R284, R285): y · e^(−j2πφ) with unity gain in 1/1024 code, and whether I or Q saturates. -/
def mixer (g : ChainCfg) (n : Nat) (y : Int) : (Int × Int) × Bool :=
  let c := circ (ncoPhase g n)
  let i := sat18 (openQuot [] (y * c.1) (2 ^ 114))
  let q := sat18 (openQuot [] (-(y * c.2)) (2 ^ 114))
  ((i.1, q.1), i.2 || q.2)

/-- How many mixer outputs a chain's first filter takes: its span, none in Snap mode. -/
def insLen (g : ChainCfg) : Nat :=
  match g.final with
  | 0 => grainSpan g.preset g.decLog2
  | 3 => 0
  | _ => decSpan g.decLog2

/-- The decimator output that the latest input sample completes, with ROM and RESAMPLE (R280, R290), and the stamp of one that
saturates: that of the sample at its centre (R293). -/
def takeTap (x : Chain) : Chain × Option Stamp :=
  let n := decSpan x.cfg.decLog2
  if x.nIn + 1 < x.nTap * decOf x.cfg + n then (x, none)
  else
    let v := firOut (decCoefs x.cfg.decLog2) ((x.ins.take n).map (·.1))
    ({ x with taps := (v.1 :: x.taps).take 201, nTap := x.nTap + 1 }, if v.2 then (x.ins[(n - 1) / 2]?).map (·.2) else none)

/-- Decimator outputs from `k` on, `n` of them. -/
def tapsFrom (x : Chain) (k n : Nat) : List (Int × Int) :=
  (List.range n).map fun i => (x.taps[x.nTap - 1 - (k + i)]?).getD (0, 0)

/-- I and Q of output sample `j`, complete with the latest input sample, and whether a filter saturated (R288 to R292). -/
def outValue (x : Chain) (j : Nat) : (Int × Int) × Bool :=
  let g := x.cfg
  match g.final with
  | 0 => firOut (grainCoefs g.preset g.decLog2) ((x.ins.take (grainSpan g.preset g.decLog2)).map (·.1))
  | 1 => firOut (romCoefs g.rom) (tapsFrom x j (romTaps g.rom))
  | 2 =>
    let p := outPos g j / decOf g
    if g.ratio = 0 then ((tapsFrom x (j + 16) 1).headD (0, 0), false)
    else firOut (resampCoefs g.ratio p) (tapsFrom x (ceilDiv p 1024) 32)
  | _ => ((openQuot [] x.acc.1 (decOf g), openQuot [] x.acc.2 (decOf g)), false)

/-- Snap mode adds the input samples of a period, D of them (R292). -/
def addAcc (x : Chain) (mix : Int × Int) : Chain :=
  let a := if x.nIn % decOf x.cfg = 0 then (0, 0) else x.acc
  { x with acc := (a.1 + mix.1, a.2 + mix.2) }

/-- The output sample that the latest input sample completes, if it does (R293), with its MK_CAL and stale strip (R370); and its
stamp where a filter saturates at it. -/
def takeOut (x : Chain) (ph : Nat) (strip : Nat) : Chain × Option OutSmp × Option Stamp :=
  let j := x.nOut
  if x.nIn < outLast x.cfg j then (x, none, none)
  else
    let v := outValue x j
    let cal := match x.calIn with | some (a, data) => if a ≤ x.nIn then some data else none | none => none
    let stale := match x.staleIn with
      | some (a, b) => if a ≤ x.nIn && outFirst x.cfg j ≤ b then some strip else none
      | none => none
    let t := x.centres.headD 0
    ({ x with nOut := j + 1, centres := x.centres.drop 1, calIn := if cal.isSome then none else x.calIn },
      some ⟨j, v.1.1, v.1.2, t, ph, cal, stale, x.lastOvr, x.lastStale⟩, if v.2 then some t else none)

/-- The DC block is frozen for a sample at a place in time (R282, R309), and the settings still needed for later ones. -/
def frozenAt (x : Chain) (ph : Nat) : Bool × List (Nat × Bool) :=
  let l := x.frozenWas.filter fun p => ph < p.1 * 256
  (((l.head?).map (·.2)).getD x.frozen, l)

/-- An input sample of the grid passes the stages (R279): the output sample it completes, and the stamps at which values
saturate. -/
def gridSample (n : Nat) (fs : Nat × Nat) (ph strip : Nat) (v : Int) (t : Stamp) (x : Chain) :
    Chain × Option OutSmp × List Stamp :=
  let fr := frozenAt x ph
  let dc := dcBlock x.cfg fr.1 fs (tget 0 x.dc n) v
  let mix := mixer x.cfg x.nIn dc.1
  let x1 := addAcc { takeCentre x t with
    dc := tset 0 x.dc n dc.2, frozenWas := fr.2, ins := ((mix.1, t) :: x.ins).take (insLen x.cfg) } mix.1
  let tap := if x.cfg.final = 1 || x.cfg.final = 2 then takeTap x1 else (x1, none)
  let out := takeOut tap.1 ph strip
  ({ out.1 with nIn := x.nIn + 1, lastIn := some t }, out.2.1,
    (if mix.2 then [t] else []) ++ tap.2.toList ++ out.2.2.toList)

/-! ## Records (R295, R299 to R303) -/

/-- The hop between records in output samples (R295). -/
def hopOf (g : ChainCfg) : Nat := fftN g / 2 ^ g.overlap

/-- Transforms that run at once: two pipelines, joined from 32,768 points on (R295, R302). -/
def pipeCount (g : ChainCfg) : Nat := if 32768 ≤ fftN g then 1 else 2

/-- Output sample `j` starts a record, or the record is skipped because no pipeline is free: a record takes its pipeline for the
time of N input samples (R302, R303; log entry 128).  The flag tells a skip. -/
def startRecord (x : Chain) (j : Nat) : Chain × Bool :=
  let at_ := outFirst x.cfg j
  let busy := x.pipes.filter (at_ < ·)
  let seq := (x.seqNo + 1) % 2 ^ 64
  if busy.length < pipeCount x.cfg then
    ({ x with
        seqNo := seq, pipes := busy ++ [at_ + fftN x.cfg], skipPend := false, firstSpec := false
        recs := x.recs ++ [⟨j, x.seqNo, x.firstSpec, x.skipPend⟩] }, false)
  else ({ x with seqNo := seq, pipes := busy, skipPend := true }, true)

/-- Whether an input sample that is at or after the first of a record was the latest of its kind. -/
def within (g : ChainCfg) (first : Nat) : Option Nat → Bool
  | some k => outFirst g first ≤ k
  | none => false

/-- The front record is complete with the latest output sample (R295, R299, R301). -/
def endRecord (x : Chain) (o : OutSmp) : Chain :=
  match x.recs with
  | r :: rest =>
    if o.idx + 1 < r.first + fftN x.cfg then x
    else
      let smps := (x.outs.take (fftN x.cfg)).reverse
      { x with
        recs := rest
        done := x.done ++ [⟨x.cfg, x.lane.getD 0, smps.map fun o => (o.i, o.q), ((smps[fftN x.cfg / 2]?).map (·.stamp)).getD o.stamp,
          o.lastAt, r.seq, within x.cfg r.first o.ovrIn, within x.cfg r.first o.staleIn, r.firstSpec, r.skipped⟩] }
  | [] => x

/-- Records wait for the first output sample stamped at or after the effect time of a change (R309). -/
def resolveWait (x : Chain) (j ph : Nat) : Chain :=
  match x.recWait with
  | some t => if t * 256 ≤ ph then { x with recWait := none, recBase := j } else x
  | none => x

/-- An output sample of a running chain enters the window stage (R295). -/
def recordSample (s : State) (d c : Nat) (o : OutSmp) : State :=
  let x := resolveWait (chainOf s d c) o.idx (physFine s d o.stamp)
  if x.recWait.isSome then setChain s d c x
  else
    let r := if (o.idx - x.recBase) % hopOf x.cfg = 0 then startRecord x o.idx else (x, false)
    let y := endRecord { r.1 with outs := (o :: r.1.outs).take (fftN x.cfg) } o
    addF (setChain s d c y) d (fSpcRecSkipCount c) (b2n r.2)

/-- How many periods of `p` fine units, a fraction, a time difference holds, rounded to nearest. -/
def periodsIn (diff : Int) (p : Nat × Nat) : Nat := if p.1 = 0 then 0 else ((2 * diff * p.2 + p.1) / (2 * p.1 : Int)).toNat

/-- The output period of a chain on a lane in fine units as a fraction (R291, R294). -/
def outputPeriod (s : State) (d n : Nat) (g : ChainCfg) : Nat × Nat :=
  let p := inputPeriod s d n
  (p.1 * decOf g * 2 ^ 32, p.2 * ratioOf g)

/-- The samples that an armed Exposure stream of a format missed up to a new sample are marked with cause CLOCK (R219, R312). -/
def closeGap (s : State) (d c format n : Nat) (t : Stamp) : State :=
  let x := chainOf s d c
  let y := streamOf s d (expoOf c)
  match x.missing with
  | none => s
  | some a =>
    let s1 := setChain s d c { x with missing := none }
    if !(armed y && y.format = format) then s1
    else
      let k := if format = 1 then periodsIn (stampDiff t a) (inputPeriod s d n)
        else match x.lastOut with
          | some b => periodsIn (stampDiff t b) (outputPeriod s d n x.cfg) - 1
          | none => periodsIn (stampDiff t a) (outputPeriod s d n x.cfg)
      if k = 0 then s1
      else addMark s1 d (expoOf c) 0x03 (min (lostWords y k) (2 ^ 40 - 1)) 0 2 a

/-- An output sample of a running chain reaches an armed CPLX18 stream and the records (R277, R294). -/
def emitOut (d c : Nat) (s0 : State) (o : OutSmp) : State :=
  let y := streamOf s0 d (expoOf c)
  let s := if y.format = 2 then closeGap s0 d c 2 ((chainOf s0 d c).lane.getD 0) o.stamp else s0
  let s1 := if armed y && y.format = 2 then
      addSample (sampleMarks s d c o.cal o.stale o.stamp) d (expoOf c) (unsgn 18 o.i + 2 ^ 18 * unsgn 18 o.q) o.stale o.stamp
    else s
  recordSample (setChain s1 d c { chainOf s1 d c with lastOut := some o.stamp }) d c o

/-! ## Overranges (R278) -/

/-- Counts `n` overranges of a kind (1 input, 2 internal) at a sample. -/
def noteOvr (s : State) (d c kind n : Nat) (t : Stamp) : State :=
  if n = 0 then s
  else
    let x := chainOf s d c
    setChain (addF s d (fSpcOvrCntCount c) n) d c { x with
      ovr := x.ovr + n, ovrStamp := if x.ovr = 0 || stampLt t x.ovrStamp then t else x.ovrStamp, ovrKinds := x.ovrKinds ||| kind }

/-- EV_CHAIN_OVERRANGE reports overranges at most once per 2^20 ticks (R278, R320). -/
def postOvr (s : State) (d c : Nat) : State :=
  let x := chainOf s d c
  let due : Bool := match x.ovrAt with | some t => t + 2 ^ 20 ≤ s.now | none => true
  if x.ovr ≠ 0 && due then
    postStamp (setChain s d c { x with ovr := 0, ovrKinds := 0, ovrAt := some s.now }) d 0x0502 (chainUid d c)
      x.ovrStamp 0 (leBytes 1 x.ovrKinds ++ leBytes 3 0 ++ leBytes 4 (min x.ovr (2 ^ 32 - 1)))
  else s

/-! ## The rows -/

/-- What a chain remembers of an input sample: the last with MK_CAL, overranged or stale, and the latest run of stale ones. -/
def noteInput (x : Chain) (v : Int) (strip cal : Option Nat) : Chain :=
  let k := x.nIn
  { x with
    calIn := match cal with | some data => some (k, data) | none => x.calIn
    lastOvr := if overrange v then some k else x.lastOvr
    lastStale := if strip.isSome then some k else x.lastStale
    staleIn := if strip.isSome then
        some ((match x.staleIn with | some (a, b) => if k ≤ b + 1 then a else k | none => k), k)
      else x.staleIn }

/-- An output sample a settling chain completes is held until the first ends the settling. -/
def giveOut (d c : Nat) (s : State) : Option OutSmp → State
  | none => s
  | some o =>
    let y := chainOf s d c
    if y.st == .running then emitOut d c s o else setChain s d c { y with held := y.held ++ [o] }

/-- A tap sample enters the grid of a started chain (R277, R279, R310). -/
def enterGrid (d c n : Nat) (v : Int) (t : Stamp) (strip : Option Nat) (cal : Option Nat) (s : State) : State :=
  let ph := physFine s d t
  let r := gridSample n (sampleRate s d n) ph (calOf s d n).lastSeq v t (noteInput (chainOf s d c) v strip cal)
  let s1 := noteOvr (setChain s d c r.1) d c 1 (b2n (overrange v)) t
  giveOut d c (r.2.2.foldl (fun s u => noteOvr s d c 2 1 u) s1) r.2.1

/-- One tap sample of a chain's lane: RAW8 Exposure, comparators, and, in a started chain, the sample grid (R277, R281). -/
def tapSample (d c n : Nat) (s : State) (v : Int × Stamp) : State :=
  let ph := physFine s d v.2
  let strip := staleStrip s d n ph
  let x := chainOf s d c
  let cal := match x.calDue with | some (a, data) => if a * 256 ≤ ph then some data else none | none => none
  let y := streamOf s d (expoOf c)
  let s0 := cmpSample (calFirst s d n ph v.2) d n v.1 v.2
  let s1 := if y.format ≠ 2 then closeGap s0 d c 1 n v.2 else s0
  let s2 := if armed y && y.format = 1 then
      addSample (sampleMarks s1 d c cal strip v.2) d (expoOf c) (unsgn 8 v.1) strip v.2
    else s1
  let x2 := chainOf s2 d c
  let s3 := setChain s2 d c { x2 with calDue := if cal.isSome then none else x2.calDue }
  if (x2.st == .settling || x2.st == .running) && x2.setAt * 256 ≤ ph then enterGrid d c n v.1 v.2 strip cal s3 else s3

/-- The lane whose samples a chain takes at a place in time (R309). -/
def laneAtPlace (x : Chain) (ph : Nat) : Option Nat := if ph < x.laneAt * 256 then x.laneWas else x.lane

/-- The lane of a row of tap samples: that of its first. -/
def rowLane (s : State) (d c : Nat) (stamps : List Stamp) : Option Nat :=
  stamps.head?.bind fun t => laneAtPlace (chainOf s d c) (physFine s d t)

/-- Lane `n` delivers a row of samples, the first from sub-ADC `k`: the one after the row before (R356).  Samples from t_eval on wait
for the evaluation, which may change the coefficients (R367). -/
def tapRowOk (s : State) (d c n k : Nat) (stamps : List Stamp) : Bool :=
  c < 2 && tapOk s d n && !baudOver s d n &&
    (match (chainOf s d c).nextSub with | some (m, j) => m ≠ n || k % 32 = j | none => true) &&
    (match (calOf s d n).phase with | .judging t => !stamps.any fun u => t * 256 ≤ physFine s d u | _ => true)

/-- A row of tap samples of lane `n`: each is corrected, and those the chain takes from that lane reach it. -/
def tapRow (d c n k : Nat) (xs : List Int) (stamps : List Stamp) (s : State) : State :=
  let l := (tapValues s d n k xs stamps).filter fun p => laneAtPlace (chainOf s d c) (physFine s d p.2) = some n
  let s1 := l.foldl (tapSample d c n) s
  postOvr (setChain s1 d c { chainOf s1 d c with nextSub := some (n, (k + xs.length) % 32) }) d c

/-- RAW_TAP_SAMPLES (R275 to R279): the ADC samples of a chain cycle arrive, the first from sub-ADC `k`, and each is corrected and
stamped. -/
def execRawTapSamples (d c k : Nat) (xs : List Int) (stamps : List Stamp) (s : State) : Out :=
  onDie d s fun s =>
    let ts := stamps.map (fineStamp s)
    match rowLane s d c ts with
    | none => s
    | some n => whenB (tapRowOk s d c n k ts) s (tapRow d c n k xs ts)

/-- SETTLING_END (R310): the first output sample ends the settling, and the samples held follow it. -/
def execSettlingEnd (d c : Nat) (s : State) : Out :=
  onDie d s fun s =>
    let x := chainOf s d c
    match x.held with
    | [] => s
    | o :: _ =>
      whenB (c < 2 && x.st == .settling) s fun s =>
        let ticks := min (2 ^ 32 - 1) ((physFine s d o.stamp - x.setAt * 256) / 256)
        let s1 := setChain s d c { x with st := .running, settleTicks := ticks, held := [], setAband := false }
        let s2 := postStamp s1 d 0x0501 (chainUid d c) o.stamp 0
          (leBytes 1 x.setCause ++ leBytes 1 (x.lane.getD 0) ++ leBytes 1 (b2n (x.cfg.final = 3) + 2 * b2n x.setAband) ++
            leBytes 1 0 ++ leBytes 4 ticks ++ leBytes 8 (x.setDie * 256))
        x.held.foldl (emitOut d c) s2

/-- CHAIN_INPUT_LOST (R312): the tap stops delivering. -/
def execChainInputLost (d c : Nat) (firstMissing : Stamp) (s : State) : Out :=
  onDie d s fun s =>
    let x := chainOf s d c
    whenB (c < 2 && x.lane.isSome && !x.lost && !inputOk s d c) s fun s =>
      let s1 := chainLost s d c firstMissing (!counts s d)
      let y := chainOf s1 d c
      setChain (cmpForget s1 d (x.lane.getD 0)) d c { y with
        lost := true, nextSub := none, gapStamp := if y.st == .noInput && x.st == .noInput then y.gapStamp else firstMissing
        missing := some (y.missing.getD firstMissing) }

/-- CHAIN_INPUT_RETURN (R312, R313): input returns, and a chain in NO_INPUT settles again and reports the gap; at more
than 28.125 GBd it stays in NO_INPUT. -/
def execChainInputReturn (d c : Nat) (s : State) : Out :=
  onDie d s fun s =>
    let x := chainOf s d c
    match x.lane with
    | none => s
    | some n =>
      whenB (c < 2 && tapOk s d n && (x.lost || x.st == .noInput)) s fun s =>
        if baudOver s d n then
          if x.st == .noInput then post s d 0x0503 (chainUid d c) (dieTime s d) (gapData x 3 0) else s
        else
          let s2 := setChain s d c { x with lost := false, gapClock := false }
          if x.st != .noInput then s2
          else
            settle (post s2 d 0x0503 (chainUid d c) (dieTime s2 d) (gapData x (gapCause x) 0)) d c
              (if x.gapClock then 5 else 4)

/-! ## Commands (R317 to R319) -/

def onChain (k _ : Nat) : Bool := k == clChain

/-- The settings of a CHAIN_CONFIGURE payload (R318). -/
def chainPay (c : Cmd) : ChainCfg × ExportCfg :=
  let p := c.payload
  (⟨pb c 0, pb c 1, pb c 2, pb c 3, fld p 4 4, BitVec.ofNat 48 (fld p 8 6), BitVec.ofNat 16 (fld p 14 2), pb c 16, pb c 17,
    pb c 18, bitAt (pb c 19) 1, fld p 20 4⟩,
   ⟨bitAt (pb c 19) 0, bitAt (pb c 19) 2, fld p 24 2, fld p 26 2⟩)

def chainPayOk (c : Cmd) : Bool :=
  let g := (chainPay c).1
  let e := (chainPay c).2
  g.final < 4 && g.decLog2 ≤ 12 && g.preset < 3 && g.rom < 32 && (g.ratio = 0 || 2 ^ 31 ≤ g.ratio) &&
    8 ≤ g.fftLog2 && g.fftLog2 ≤ 16 && g.overlap < 3 && g.window < 8 && pb c 19 < 8 && 1 ≤ g.dcCorner &&
    g.dcCorner ≤ 10000000 && e.lo ≤ e.hi && e.hi < fftN g && restOk c 28

/-- A quotient whose rounding the spec leaves open: either neighbour, by a free value (log entry 2). -/
def openDiv (s : State) (a b : Nat) : Nat × State :=
  if b = 0 then (0, s)
  else if a % b = 0 then (a / b, s)
  else
    let v := drawFree s
    (a / b + b2n (v.1.getLsbD 0), v.2)

/-- The span in kHz of a response whose input has the sample rate `b` divided by `div`; one the response does not define is a
free value (log entry 2). -/
def spanResult (s : State) (b div : Nat) : Option Nat → Nat × State
  | some k => openDiv s (b * k) (div * 1000 * 2 ^ 32)
  | none => let v := drawFree s; (v.1.toNat % 2 ^ 32, v.2)

/-- The result of CHAIN_CONFIGURE (R318): f_out in kS/s, span in kHz, bin width in Hz, settling in input samples; empty, and
so 0, while no lane is selected. -/
def chainResult (s : State) (d c : Nat) : List Byte × State :=
  let g := (chainOf s d c).cfg
  match (chainOf s d c).lane with
  | none => ([], s)
  | some n =>
    let b := laneBase s d n
    let div := 2 ^ (laneOf s d n).divLog2 * decOf g
    let f := openDiv s (b * ratioOf g) (div * 2 ^ 32)
    let w := spanResult f.2 b div (spanOf g)
    let den := div * 2 ^ 32 * fftN g
    let bin := if den = 0 then 0 else (2 * b * 1000 * ratioOf g + den) / (2 * den)
    (leBytes 4 f.1 ++ leBytes 4 w.1 ++ leBytes 4 bin ++ leBytes 4 (filterSpan g), w.2)

/-- The change settles the chain (R309). -/
def settles (a b : ChainCfg) : Bool :=
  !(decide ({ a with fftLog2 := b.fftLog2, overlap := b.overlap, window := b.window } = b))

def chainConfigureDef : CmdDef where
  op := 0x0501
  cls := onChain
  onGroup := false
  payOk := fun _ c => chainPayOk c
  eff := fun cm _ u s =>
    let d := uDie u
    let c := uIdx u
    let x := chainOf s d c
    let g := (chainPay cm).1
    let e := (chainPay cm).2
    let y := streamOf s d (expoOf c)
    if !finalOk g || !fftOk g e.allowSkip then (s, err stRateUnsupported)
    else if g.decLog2 < 2 && armed y && y.format = 2 then (s, err stBadState)
    else
      let s1 := setChain s d c (applyAll { x with cfg := g, configured := true, expNext := x.expNext ++ [(s.now, e)] })
      let s2 :=
        if x.cfg = g then s1
        else if settles x.cfg g then chainSource (settle s1 d c 3) d c false
        else setChain s1 d c { abandonRecs (chainOf s1 d c) with recWait := some s.now }
      let r := chainResult s2 d c
      (r.2, .done 0 r.1 0)

/-- CHAIN_CONFIGURE (R309, R318). -/
def execChainConfigure (c : Cmd) (s : State) : Out := startCmd chainConfigureDef c s

def chainSelectLaneDef : CmdDef where
  op := 0x0502
  cls := onChain
  onGroup := false
  payOk := fun _ c => pb c 0 < 16 && pb c 1 < 2 && restOk c 2
  eff := fun cm _ u s =>
    let d := uDie u
    let c := uIdx u
    let n := pb cm 0
    let x := chainOf s d c
    if baudOver s d n then (s, err stRateUnsupported)
    else
      let s0 := if chainTakes s d n then s else cmpForget s d n
      let s1 := chainSource (settle (setChain s0 d c { x with
        lane := some n, laneWas := x.lane, laneAt := s.now, lost := false, missing := none, lastOut := none, calDue := none
        dc := if bitAt (pb cm 1) 0 then tset 0 x.dc n 0 else x.dc }) d c 2) d c true
      let s2 := match x.lane with | some m => calSync s1 d m | none => s1
      (s2, ok)

/-- CHAIN_SELECT_LANE (R275, R283, R309). -/
def execChainSelectLane (c : Cmd) (s : State) : Out := startCmd chainSelectLaneDef c s

def chainStartDef : CmdDef where
  op := 0x0503
  cls := onChain
  onGroup := false
  payOk := restZero 0
  eff := fun _ _ u s =>
    let d := uDie u
    let c := uIdx u
    let x := chainOf s d c
    if safelight s d then (s, err stSafelight)
    else if !(awake s u && x.st == .stopped && x.configured && x.lane.isSome) then (s, err stBadState)
    else
      let x1 := { applyAll x with st := .settling, seqNo := 0, recs := [], done := [], setAband := false, dropBefore := false, ovr := 0, ovrKinds := 0, ovrAt := none, gapClock := false }
      (settle (setChain s d c x1) d c 1, ok)

/-- CHAIN_START (R307, R310). -/
def execChainStart (c : Cmd) (s : State) : Out := startCmd chainStartDef c s

def chainStopDef : CmdDef where
  op := 0x0504
  cls := onChain
  onGroup := false
  payOk := restZero 0
  eff := fun _ _ u s =>
    if (chainOf s (uDie u) (uIdx u)).st == .stopped then (s, err stBadState)
    else (chainStop s (uDie u) (uIdx u), ok)

/-- CHAIN_STOP (R315). -/
def execChainStop (c : Cmd) (s : State) : Out := startCmd chainStopDef c s

/-- The limits of a MASK_LOAD payload from byte `k` on. -/
def maskEntries (p : List Byte) (k : Nat) : Nat → List (Int × Int)
  | 0 => []
  | n + 1 => (sgn 16 (fld p k 2), sgn 16 (fld p (k + 2) 2)) :: maskEntries p (k + 4) n

def maskLoadDef : CmdDef where
  op := 0x0505
  cls := onChain
  onGroup := false
  payOk := fun _ c =>
    let first := fld c.payload 0 4
    let n := fld c.payload 4 4
    first < 65536 && 1 ≤ n && n ≤ 16382 && first + n ≤ 65536 && c.payload.length = (8 + 4 * n + 7) / 8 * 8 &&
      ((maskEntries c.payload 8 n).all fun e => e.1 ≤ e.2)
  eff := fun cm _ u s =>
    let d := uDie u
    let c := uIdx u
    let x := chainOf s d c
    let es := maskEntries cm.payload 8 (fld cm.payload 4 4)
    (setChain s d c { x with maskNext := x.maskNext ++ [(s.now, fld cm.payload 0 4, es)] }, ok)

/-- MASK_LOAD (R305). -/
def execMaskLoad (c : Cmd) (s : State) : Out := startCmd maskLoadDef c s

def dcblockFreezeDef : CmdDef where
  op := 0x0506
  cls := onChain
  onGroup := false
  payOk := fun _ c => pb c 0 < 2 && restOk c 1
  eff := fun cm _ u s =>
    let x := chainOf s (uDie u) (uIdx u)
    (setChain s (uDie u) (uIdx u) { x with
      frozen := pb cm 0 = 1
      frozenWas := if x.st == .stopped then [] else x.frozenWas ++ [(s.now, x.frozen)] }, ok)

/-- DCBLOCK_FREEZE (R282). -/
def execDcblockFreeze (c : Cmd) (s : State) : Out := startCmd dcblockFreezeDef c s

end Sys2Proof.Machine
end

