-- ==== Sys2Proof/Machine/Sheet.lean ====
section
/-!
DEFINITION. Density accumulators: increments, clears, surfaces and exports (R322 to R341, R351 to R355).
-/

namespace Sys2Proof.Machine

/-! ## Increments (R322 to R326) -/

def colsOf (g : SheetCfg) : Nat := if g.small then 512 else 1024

def rowsOf (g : SheetCfg) : Nat := if g.small then 256 else 512

/-- The Densitometer takes increments: AWAKE, and not in Safelight mode (R326, R351). -/
def takesInc (s : State) (d : Nat) : Bool := awake s (densUid d) && !safelight s d

/-- The largest counter value. -/
def maxCount : Nat := 2 ^ 32 - 1

/-- Adds `n` to cell `i` of a sheet's counters; a saturated one stays (R324, R330). -/
def addCell (t : Tab Nat) (i n : Nat) : Tab Nat := tset 0 t i (min maxCount (tget 0 t i + n))

/-- EV_SHEET_SATURATED for a cell, with the last clear of the counts it belongs to (R325, R354). -/
def postSat (s : State) (d k col row clear : Nat) (t : Stamp) : State :=
  postStamp s d 0x0602 (densUid d) t 0
    (leBytes 1 k ++ leBytes 1 (accOf s d k).cfg.kind ++ leBytes 2 col ++ leBytes 2 row ++ leBytes 2 0 ++ leBytes 8 (clear * 256))

/-- The first increment that a saturated counter of a snapshot meets, of counts that the live sheet no longer holds (R325, R333). -/
def snapSat (x : SheetExport) (i n ph : Nat) : Bool :=
  x.clearAfter && !x.sat && x.clearPhys * 256 ≤ ph && ph < x.snapPhys * 256 && maxCount < tget 0 x.cnt i + n

/-- An addition of `n` in one cell of accumulator `k` with a source time, given as a place in time and as a stamp
(R324, R325, R332, R333): one before the last clear is discarded; one before a running export's snapshot enters the
snapshot, and the live sheet unless that was cleared. -/
def sheetAdd (s : State) (d k : Nat) (col row : Int) (n ph : Nat) (t : Stamp) : State :=
  let a := accOf s d k
  let inside := 0 ≤ col && col < colsOf a.cfg && 0 ≤ row && row < rowsOf a.cfg
  let i := row.toNat * colsOf a.cfg + col.toNat
  let a1 := match a.exporting with
    | some x =>
      if !(x.clearPhys * 256 ≤ ph && ph < x.snapPhys * 256) then a
      else if inside then { a with exporting := some { x with
        cnt := addCell x.cnt i n, inc := x.inc + n, sat := x.sat || maxCount < tget 0 x.cnt i + n } }
      else { a with exporting := some { x with out := min maxCount (x.out + 1) } }
    | none => a
  if ph < a.clearPhys * 256 then
    let s1 := setAcc s d k a1
    match a.exporting with
    | some x => if inside && snapSat x i n ph then postSat s1 d k col.toNat row.toNat x.clear t else s1
    | none => s1
  else if !inside then setAcc s d k { a1 with out := min maxCount (a1.out + 1) }
  else
    let sat := maxCount < tget 0 a1.cnt i + n
    let s1 := setAcc s d k { a1 with cnt := addCell a1.cnt i n, inc := (a1.inc + n) % 2 ^ 64, sat := a1.sat || sat }
    if sat && !a1.sat then postSat s1 d k col.toNat row.toNat a.clear t else s1

/-! ## SPECTRAL sheets (R327, R328) -/

/-- The maximum of bins `lo` to `hi`. -/
def binMax (bins : List Int) (lo n : Nat) : Int := ((bins.drop lo).take n).foldl max (-32768)

/-- A spectrum enters a SPECTRAL sheet. -/
def sheetSpectrum (s : State) (d c : Nat) (bins : List Int) (stale : Bool) (t : Stamp) : State :=
  let a := accOf s d c
  let g := a.cfg
  if g.kind ≠ 1 || !takesInc s d then s
  else if bins.length ≤ g.binHi || (stale && g.exclStale) then incF s d (fDnsAccSkipCount c)
  else
    let b := g.binHi - g.binLo + 1
    let x := min b (colsOf g)
    let ph := physFine s d t
    (List.range x).foldl (fun s col =>
      let lo := g.binLo + col * b / x
      let hi := g.binLo + (col + 1) * b / x
      sheetAdd s d c col ((g.levelTop - binMax bins lo (hi - lo)) / (g.levelStep : Int)) 1 ph t) s

/-! ## TIME sheets (R331) -/

/-- √(a / b) rounded to nearest, half up. -/
def sqrtRound (a b : Nat) : Nat :=
  if b = 0 then 0
  else
    let r := isqrt (a / b)
    if b * (2 * r + 1) ^ 2 ≤ 4 * a then r + 1 else r

/-- The value a measurement or sheet takes of a sample (R331, R343): RAW8 scaled, or magnitude, I or Q. -/
def sampleVal (format input v : Nat) : Int :=
  if format = 1 then sgn 8 v * 512
  else
    let i := sgn 18 v
    let q := sgn 18 (v / 2 ^ 18)
    match input with
    | 1 => i
    | 2 => q
    | _ => sqrtRound (i * i + q * q).toNat 1

/-- The column of a sample index (R331). -/
def timeCol (g : SheetCfg) (j : Int) : Int := (j - g.tStart) / (2 ^ g.tpc : Nat)

/-- A completed segment enters a TIME sheet; its samples, the trigger sample's index among them, and t_close. -/
def sheetSegment (s : State) (d c format : Nat) (smps : List Smp) (trig tc tcPhys : Nat) : State :=
  let g := (accOf s d c).cfg
  if g.kind ≠ 3 || !takesInc s d then s
  else
    let idx := smps.mapIdx fun i x => (((i : Int) - trig), x)
    let mine := idx.filter fun p => 0 ≤ timeCol g p.1 && timeCol g p.1 < colsOf g
    if g.exclStale && mine.any (fun p => p.2.stale) then incF s d (fDnsAccSkipCount c)
    else mine.foldl (fun s p =>
      sheetAdd s d c (timeCol g p.1) ((g.vTop - sampleVal format g.input p.2.val) / (g.vStep : Int)) 1 (tcPhys * 256)
        (stampOf tc)) s

/-! ## Surfaces (R335 to R339) -/

/-- The counters of tile `t` of a sheet in raster order (R336). -/
def tileCells (cnt : Tab Nat) (cols t : Nat) : List Nat :=
  let tx := t % (cols / 64)
  let ty := t / (cols / 64)
  (List.range 4096).map fun i => tget 0 cnt ((64 * ty + i / 64) * cols + 64 * tx + i % 64)

/-- The bits of a number, least significant first. -/
def natBits : Nat → Nat → List Bool
  | 0, _ => []
  | n + 1, v => (v % 2 = 1) :: natBits n (v / 2)

/-- Bits packed into bytes, least significant first. -/
def packBits : List Bool → Nat → List Byte
  | _, 0 => []
  | l, n + 1 => BitVec.ofNat 8 ((l.take 8).foldr (fun b v => b2n b + 2 * v) 0) :: packBits (l.drop 8) n

/-- The tokens of a tile (R338, R339): the counters left, the run of zeros so far, and the predictor. -/
def codeTile : List Nat → Nat → Int → List Bool
  | [], z, _ => if z = 0 then [] else natBits 2 0 ++ natBits 12 (z - 1)
  | v :: r, z, p =>
    if v = 0 then codeTile r (z + 1) 0
    else
      let run := if z = 0 then [] else natBits 2 0 ++ natBits 12 (z - 1)
      let q : Int := if z = 0 then p else 0
      let e : Int := v - q
      run ++ (if -8 ≤ e && e ≤ 7 then natBits 2 1 ++ natBits 4 (unsgn 4 e)
        else if -2048 ≤ e && e ≤ 2047 then natBits 2 2 ++ natBits 12 (unsgn 12 e)
        else natBits 2 3 ++ natBits 32 v) ++ codeTile r 0 v

/-- A tile as SHEETZ writes it (R337, R339). -/
def sheetzTile (cells : List Nat) : List Byte :=
  let mx := cells.foldl max 0
  let hd := fun (n mode : Nat) => leBytes 2 n ++ leBytes 1 mode ++ leBytes 1 0 ++ leBytes 4 mx
  if mx = 0 then hd 0 0
  else if cells.all (· == mx) then hd 4 3 ++ leBytes 4 mx
  else
    let bs := codeTile cells 0 0
    let n := ceilDiv bs.length 32 * 4
    if 16384 < n then hd 16384 2 ++ cells.flatMap (leBytes 4) else hd n 1 ++ packBits bs n

/-- The layout data of a surface. -/
def surfaceData (g : SheetCfg) (layout : Nat) (cnt : Tab Nat) : List Byte :=
  let cols := colsOf g
  let rows := rowsOf g
  let tiles := (List.range (cols / 64 * (rows / 64))).map (tileCells cnt cols)
  match layout with
  | 0 => (List.range (cols * rows)).flatMap fun i => leBytes 4 (tget 0 cnt i)
  | 1 => tiles.flatMap fun t => t.flatMap (leBytes 4)
  | _ => tiles.flatMap sheetzTile

/-- A surface with its header (R335). -/
def surface (d k : Nat) (g : SheetCfg) (x : SheetExport) : List Byte :=
  let data := surfaceData g x.layout x.cnt
  let hd := leBytes 2 0x5348 ++ leBytes 1 g.kind ++ leBytes 1 x.layout ++ leBytes 2 (colsOf g) ++ leBytes 2 (rowsOf g) ++
    leBytes 8 (x.snapDie * 256) ++ leBytes 8 x.inc ++ leBytes 8 x.out ++ leBytes 4 x.num ++ leBytes 4 data.length ++
    leBytes 4 (densUid d) ++ leBytes 1 k ++ leBytes 1 (b2n x.sat + 2 * b2n x.clearAfter) ++ leBytes 2 0 ++
    leBytes 8 (x.clear * 256) ++ leBytes 4 0
  hd ++ leBytes 4 (crc32c hd).toNat ++ data

/-- An export envelope (R341): piece `i` of a surface. -/
def exportEnv (d k : Nat) (x : SheetExport) (i n : Nat) (piece : List Byte) : List Byte :=
  let flags := (5 + x.layout) + 8 * b2n (i = 0) + 16 * b2n (i + 1 = n)
  let body := leBytes 2 0x4B4E ++ leBytes 2 (d * 128 + 120 + k) ++ leBytes 6 i ++ leBytes 2 (ceilDiv piece.length 9) ++
    leBytes 2 0 ++ leBytes 2 flags ++ leBytes 8 (x.snapDie * 256) ++ leBytes 4 (densUid d) ++ leBytes 4 x.num ++
    padTo 4032 piece ++ List.replicate 24 0xFF ++ leBytes 2 0 ++ leBytes 2 0xFFFF
  body ++ leBytes 4 (crc32c body).toNat

/-- Writes a surface to a host buffer as envelopes. -/
def writeExport (d k : Nat) (x : SheetExport) (n : Nat) : Nat → List Byte → State → State
  | 0, _, s => s
  | m + 1, l, s =>
    let i := n - (m + 1)
    writeExport d k x n m (l.drop 4032) (hostWrite s x.port (x.buffer + 4096 * i) (exportEnv d k x i n (l.take 4032)))

/-- A chain may still give output samples stamped before a tick: its latest, or the first that its settling holds, is. -/
def outputsBefore (s : State) (d c t : Nat) : Bool :=
  let x := chainOf s d c
  match x.st with
  | .running => (match x.lastOut with | some a => decide (physFine s d a < t * 256) | none => true)
  | .settling => x.setAt < t && (match x.held with | o :: _ => decide (physFine s d o.stamp < t * 256) | [] => true)
  | _ => false

/-- Sample N/2 of a record under way is stamped before a tick. -/
def midBefore (s : State) (d t : Nat) (x : Chain) (r : SpecRec) : Bool :=
  match x.outs.find? fun o => o.idx = r.first + fftN x.cfg / 2 with
  | some o => physFine s d o.stamp < t * 256
  | none => false

/-- An increment whose source time lies before a tick may still have to be applied (R333): a spectrum of the chain (R327), or a segment
of its Exposure stream (R331).  A point of a sweep is applied at its source time. -/
def incComing (s : State) (d k t : Nat) : Bool :=
  takesInc s d && match (accOf s d k).cfg.kind with
  | 1 =>
    let x := chainOf s d k
    x.done.any (fun r => physFine s d r.mid < t * 256) || x.recs.any (midBefore s d t x) || outputsBefore s d k t
  | 3 =>
    let y := streamOf s d (expoOf k)
    y.closing.any (fun a => a.need && a.tclosePhys < t) ||
      (armed y && (s.now < t + 256 || y.look.any (fun e => e.phys < t * 256) || y.seg.changes.any fun a => a.tick < t))
  | _ => false

/-- SHEET_EXPORT_DONE (R333, R334): every increment of the snapshot is applied, the surface is in its region and in the host buffer, and the command completes. -/
def execSheetExportDone (d k : Nat) (s : State) : Out :=
  onDie d s fun s =>
    let a := accOf s d k
    match a.exporting with
    | none => s
    | some x =>
      whenB (k < 2 && !incComing s d k x.snapPhys) s fun s =>
        let l := surface d k a.cfg x
        let n := if x.buffer = 0 then 0 else ceilDiv l.length 4032
        let s1 := match a.region with | some (h, _) => memWrite s (.hbm d) h l | none => s
        let s2 := writeExport d k x n n l s1
        let s3 := setAcc s2 d k { accOf s2 d k with exporting := none, blank := false, lastNum := some x.num }
        let s4 := post s3 d 0x0601 (densUid d) x.snapDie
          (leBytes 1 k ++ leBytes 1 x.layout ++ leBytes 1 (b2n x.clearAfter + 2 * b2n x.sat) ++ leBytes 1 0 ++
            leBytes 4 x.num ++ leBytes 4 l.length ++ leBytes 4 n)
        unitDone s4 x.fid (densUid d) 0 0 (leBytes 4 x.num ++ leBytes 4 l.length ++ leBytes 4 n) (dieTime s4 d)

/-! ## Commands (R352, R353) -/

/-- Clears an accumulator at the current tick (R332). -/
def accClear (s : State) (d : Nat) (a : Acc) : Acc :=
  { a with cnt := [], inc := 0, out := 0, sat := false, clear := dieTime s d, clearPhys := s.now }

/-- A running sweep of the die feeds accumulator `k` (R329, R334). -/
def sweepFeeds (s : State) (d k : Nat) (except : Option Nat) : Bool :=
  (List.range 16).any fun n => except ≠ some n && (match (laneOf s d n).sweep with
    | some w => w.toSheet && w.sheetB = decide (k = 1)
    | none => false)

/-- MiB of a sheet's surface region (R322). -/
def regionMib (g : SheetCfg) : Nat := if g.kind = 0 then 0 else if g.small then 1 else 3

/-- The HBM address of an allocation: which MiB of the 44 GiB pool it gets is not stated, a free value (log entry 2). -/
def allocAddr (s : State) : Nat × State :=
  let v := drawFree s
  (v.1.toNat % 45056 * 2 ^ 20, v.2)

def sheetPay (c : Cmd) : SheetCfg :=
  let p := c.payload
  ⟨pb c 1, pb c 2 = 1, bitAt (pb c 3) 0, fld p 4 2, fld p 6 2, sgn 16 (fld p 8 2), fld p 10 2, sgn 32 (fld p 12 4), pb c 16,
    pb c 17, sgn 32 (fld p 20 4), fld p 24 4⟩

def sheetPayOk (c : Cmd) : Bool :=
  let g := sheetPay c
  let p := c.payload
  pb c 0 < 2 && g.kind < 4 && pb c 2 < 2 && pb c 3 < 2 && fld p 18 2 = 0 && restOk c 28 &&
    (if g.kind = 1 then g.binLo ≤ g.binHi && 1 ≤ g.levelStep && g.levelStep ≤ 4096 else fld p 4 8 = 0) &&
    (if g.kind = 3 then g.tpc ≤ 16 && g.input < 3 && 1 ≤ g.vStep && g.vStep ≤ 131072 else zeroFrom (p.take 28) 12)

def sheetConfigureDef : CmdDef where
  op := 0x0602
  cls := onClass clDens
  onGroup := false
  payOk := fun _ c => sheetPayOk c
  eff := fun c _ u s =>
    let d := uDie u
    let k := pb c 0
    let a := accOf s d k
    let g := sheetPay c
    let need := regionMib g
    let have_ := match a.region with | some (_, m) => m | none => 0
    if a.exporting.isSome || sweepFeeds s d k none then (s, err stBusy)
    else if poolFree s d + have_ < need then (s, err stNoResource)
    else
      let s1 := setPoolFree s d (poolFree s d + have_ - need)
      let r := if need = 0 then (none, s1)
        else if need = have_ then (a.region, s1)
        else let x := allocAddr s1; (some (x.1, need), x.2)
      let a1 := { accClear s d a with
        cfg := g, region := r.1, blank := if need = have_ then a.blank else 0 < need, nextNum := 0, lastNum := none }
      (setAcc r.2 d k a1, .done 0 (match r.1 with | some (h, m) => leBytes 8 h ++ leBytes 4 m | none => []) 0)

/-- SHEET_CONFIGURE (R323, R332, R353). -/
def execSheetConfigure (c : Cmd) (s : State) : Out := startCmd sheetConfigureDef c s

def sheetClearDef : CmdDef where
  op := 0x0603
  cls := onClass clDens
  onGroup := false
  payOk := fun _ c => pb c 0 < 2 && restOk c 1
  eff := fun c _ u s =>
    let d := uDie u
    let a := accOf s d (pb c 0)
    if safelight s d then (s, err stSafelight)
    else if a.cfg.kind = 0 then (s, err stBadState)
    else if a.exporting.isSome then (s, err stBusy)
    else (setAcc s d (pb c 0) (accClear s d a), ok)

/-- SHEET_CLEAR (R332). -/
def execSheetClear (c : Cmd) (s : State) : Out := startCmd sheetClearDef c s

/-- The most envelopes an export of a layout takes (R339, R341). -/
def worstEnvs (g : SheetCfg) (layout : Nat) : Nat :=
  let tiles := colsOf g / 64 * (rowsOf g / 64)
  ceilDiv (64 + (if layout = 2 then tiles * 16392 else colsOf g * rowsOf g * 4)) 4032

def sheetExportDef : CmdDef where
  op := 0x0604
  cls := onClass clDens
  onGroup := false
  payOk := fun _ c =>
    pb c 0 < 2 && pb c 1 < 3 && pb c 2 < 2 && zeroFrom (c.payload.take 8) 3 && fld c.payload 8 8 % 4096 = 0 &&
      fld c.payload 16 4 % 4096 = 0 && restOk c 20
  eff := fun c fid u s =>
    let d := uDie u
    let k := pb c 0
    let a := accOf s d k
    let buf := fld c.payload 8 8
    if safelight s d then (s, err stSafelight)
    else if a.cfg.kind = 0 then (s, err stBadState)
    else if a.exporting.isSome then (s, err stBusy)
    else if buf ≠ 0 && fld c.payload 16 4 < 4096 * worstEnvs a.cfg (pb c 1) then (s, err stBadPayload)
    else
      let clr := pb c 2 = 1
      let x : SheetExport := {
        fid := fid, layout := pb c 1, clearAfter := clr, buffer := buf, port := c.port, cnt := a.cnt, inc := a.inc
        out := a.out, sat := a.sat, clear := a.clear, clearPhys := a.clearPhys, snapDie := dieTime s d, snapPhys := s.now
        num := a.nextNum }
      let a1 := { a with exporting := some x, nextNum := a.nextNum + 1 }
      (setAcc s d k (if clr then accClear s d a1 else a1), .wait)

/-- SHEET_EXPORT (R333, R334). -/
def execSheetExport (c : Cmd) (s : State) : Out := startCmd sheetExportDef c s

end Sys2Proof.Machine
end

