-- ==== Sys2Proof/Machine/Spectrum.lean ====
section
/-!
DEFINITION. Spectra and their consumers (R297 to R308), and the comparators (R248 to R252).
-/

namespace Sys2Proof.Machine

/-! ## Settings in force for a spectrum (R249, R305, R309) -/

/-- The latest setting of a list of changes that applies to a place in time, and the changes still to come. -/
def pickSetting {α : Type} (cur : α) (ph : Nat) : List (Nat × α) → α × List (Nat × α)
  | [] => (cur, [])
  | (t, v) :: r => if t * 256 ≤ ph then pickSetting v ph r else (cur, (t, v) :: r)

/-- Writes a run of mask entries (R305). -/
def maskWrite (t : Tab (Int × Int)) (k : Nat) : List (Int × Int) → Tab (Int × Int)
  | [] => t
  | e :: r => maskWrite (tset (-32768, 32767) t k e) (k + 1) r

/-- The mask loads that apply to a place in time. -/
def applyMasks (m : Tab (Int × Int)) (ph : Nat) :
    List (Nat × Nat × List (Int × Int)) → Tab (Int × Int) × List (Nat × Nat × List (Int × Int))
  | [] => (m, [])
  | (t, k, es) :: r => if t * 256 ≤ ph then applyMasks (maskWrite m k es) ph r else (m, (t, k, es) :: r)

/-! ## Spectral-mask comparators (R248, R249) -/

/-- A bin violates the mask in a mode: 0 ABOVE, 1 BELOW, 2 OUTSIDE, 3 as OUTSIDE. -/
def violates (mode : Nat) (e : Int × Int) (v : Int) : Bool :=
  (mode ≠ 1 && e.2 < v) || (mode ≠ 0 && v < e.1)

/-- The setting of a spectral-mask comparator for a spectrum, and the changes still to come (R249). -/
def cmpSetting (s : State) (d c : Nat) (t : Stamp) : CmpCfg × List (Nat × CmpCfg) :=
  pickSetting (cmpOf s d c).cfg (physFine s d t) (cmpOf s d c).next

/-- The comparator of a chain judges a spectrum with timestamp `t`; a candidate is stamped with the tick, on the physical time line,
at which the last bin in range is compared. -/
def maskJudge (s : State) (d c : Nat) (bins : List Int) (mask : Tab (Int × Int)) (t : Stamp) (tick : Nat) : State :=
  let st := cmpSetting s d c t
  let g := st.1
  let s1 := setCmp s d c { cmpOf s d c with cfg := g, next := st.2, lastN := bins.length }
  if !g.enable || safelight s d || bins.length ≤ g.lo then s1
  else
    let hi := min g.hi (bins.length - 1)
    let bad := (List.range (hi + 1 - g.lo)).filter fun i =>
      violates g.mode (tget (-32768, 32767) mask (g.lo + i)) ((bins[g.lo + i]?).getD 0)
    let fire := if g.mode = 3 then bad.length < g.minBins else g.minBins ≤ bad.length
    if !fire then s1
    else
      let first : Nat × State := match bad with
        | i :: _ => (g.lo + i, s1)
        | [] => let v := drawFree s1; (v.1.toNat % 2 ^ 16, v.2)
      giveCand first.2 d (0x24 + c) (first.1 * 256 + min 255 bad.length) (stampOf (tickAt s d tick)) t true

/-! ## Spectra (R299 to R308) -/

/-- The place at which bin `k` of a record leaves the transform (R294, R300): its last output sample leaves the filters 16 chain
cycles of 16 samples after the last input sample, and the bin 64 + ceil((k + 1) / 16) cycles later. -/
def binPlace (s : State) (d : Nat) (r : SpecDone) (k : Nat) : Nat :=
  let p := inputPeriod s d r.lane
  r.lastAt + if p.2 = 0 then 0 else 16 * (80 + ceilDiv (k + 1) 16) * p.1 / p.2

/-- The last bin of a spectrum that its comparator compares; the last of all where it compares none. -/
def lastCompared (g : CmpCfg) (n : Nat) : Nat := if g.enable && g.lo < n then min g.hi (n - 1) else n - 1

/-- The bins of a complete record (R296 to R298). -/
def recordBins (d c : Nat) (r : SpecDone) : List Int :=
  spectrumOf [d, c, r.seq, r.lastAt] r.cfg.window (decOf r.cfg) (ratioOf r.cfg) r.smps

/-- Four bins in a word; bins beyond the last hold 0x8000 (R307). -/
def binsWords : Nat → List Int → List Nat
  | 0, _ => []
  | n + 1, l =>
    ((List.range 4).foldl (fun v i => v + (unsgn 16 ((l[i]?).getD (-32768))) * 2 ^ (16 * i)) 0) :: binsWords n (l.drop 4)

/-- The words of an exported spectrum (R307). -/
def exportWords (g : ChainCfg) (e : ExportCfg) (seq flags : Nat) (bins : List Int) (t : Stamp) : List SpecWord :=
  let l := (bins.drop e.lo).take (e.hi - e.lo + 1)
  let hb := e.lo + 2 ^ 16 * (e.hi - e.lo) + 2 ^ 32 * (g.fftLog2 - 8) + 2 ^ 36 * g.overlap + 2 ^ 38 * g.window +
    2 ^ 41 * (seq % 2 ^ 23)
  let a : BitVec 72 := BitVec.ofNat 72 (t.toNat + (0x40 + flags) * 2 ^ 64)
  let b : BitVec 72 := BitVec.ofNat 72 (hb + 0xC0 * 2 ^ 64)
  ⟨a, t, true⟩ :: ⟨b, t, false⟩ ::
    (binsWords (ceilDiv (e.hi - e.lo + 1) 4) l).map fun v => ⟨BitVec.ofNat 72 v, t, false⟩

/-- Exports a spectrum to the chain's port (R306). -/
def exportSpectrum (s : State) (d c : Nat) (g : ChainCfg) (seq flags : Nat) (bins : List Int) (t : Stamp) : State :=
  let x := chainOf s d c
  let e := x.exp
  if !e.exportOn then s
  else
    let r := offerSpectrum s d c (exportWords g e seq (flags + 16 * b2n x.dropBefore) bins t)
    match r.1 with
    | .unbound => s
    | .taken => setChain r.2 d c { x with dropBefore := false }
    | .dropped => incF (setChain s d c { x with dropBefore := true }) d (fSpcExpDropCount c)

/-- SPECTRUM_DONE (R299 to R308): the oldest complete record gives its spectrum to the comparator, the Densitometer and the export
port, once the last bin that the comparator takes has left the transform (log entry 96). -/
def execSpectrumDone (d c : Nat) (s : State) : Out :=
  onDie d s fun s =>
    let x0 := chainOf s d c
    match x0.done with
    | [] => s
    | r :: rest =>
      let tick := binPlace s d r (lastCompared (cmpSetting s d c r.mid).1 r.smps.length) / 256
      whenB (c < 2 && tick ≤ s.now) s fun s =>
        let ph := physFine s d r.mid
        let e := pickSetting x0.exp ph x0.expNext
        let m := applyMasks x0.mask ph x0.maskNext
        let s1 := setChain s d c { x0 with exp := e.1, expNext := e.2, mask := m.1, maskNext := m.2, done := rest }
        let bins := recordBins d c r
        let flags := b2n r.ovf + 2 * b2n r.stale + 4 * b2n r.skipped + 8 * b2n r.firstSpec
        exportSpectrum (sheetSpectrum (maskJudge s1 d c bins m.1 r.mid tick) d c bins r.stale r.mid) d c r.cfg r.seq flags bins r.mid

/-! ## Level/edge comparators (R250 to R252) -/

/-- A level/edge comparator has its input (R250). -/
def cmpInput (s : State) (d : Nat) (g : CmpCfg) : Bool :=
  if g.mode = 0 then ([0, 1].any fun c => (chainOf s d c).lane = some g.lane) else laneLive (laneOf s d g.lane)

/-- The time at which the line between two samples crosses LEVEL, rounded half up to fine units (R252). -/
def levelTime (level : Int) (x : Crossing) : Stamp :=
  let num := (level - x.xa) * stampDiff x.tb x.ta
  let den := x.xb - x.xa
  x.ta + BitVec.ofInt 64 (if den < 0 then (2 * -num + -den) / (2 * -den) else (2 * num + den) / (2 * den))

/-- A crossing that counts gives its candidate if SLOPE selects it (R250 to R252). -/
def crossGive (s : State) (d k : Nat) (g : CmpCfg) (x : Crossing) : State :=
  let rising := risesAt g x.xa x.xb
  if safelight s d || (rising && g.lo = 1) || (!rising && g.lo = 0) then s
  else
    let t := levelTime g.level x
    let stale := (staleStrip s d g.lane (physFine s d t)).isSome
    giveCand s d (0x26 + k) (b2n stale * 2 ^ 23 + b2n rising * 2 ^ 22 + g.lane) t t false

/-- LEVEL_CROSSING (R250 to R252): two consecutive samples straddle LEVEL.  On RAW input the row takes the oldest crossing found among
the tap's samples, which its operands repeat.  On EQ input the operands give the two samples of the FFE's output, and `low` and `high`
its least and greatest since the configuration or the previous row, up to the first of the two: a crossing counts if the bound on the
other side has been passed. -/
def execLevelCrossing (d k : Nat) (xa xb : Int) (ta tb : Stamp) (low high : Int) (s : State) : Out :=
  onDie d s fun s =>
    let m := cmpOf s d (2 + k)
    let g := m.cfg
    let x : Crossing := ⟨xa, xb, ta, tb⟩
    whenB (k < 2 && g.enable) s fun s =>
      if g.mode = 0 then
        match m.found with
        | y :: rest => if x = y then crossGive (setCmp s d (2 + k) { m with found := rest }) d k g x else s
        | [] => s
      else
        let m1 := passBounds m low high
        let up := risesAt g xa xb && m1.wasBelow
        let down := fallsAt g xa xb && m1.wasAbove
        let s1 := setCmp s d (2 + k) (useBound m1 up down)
        if cmpInput s d g && (up || down) then crossGive s1 d k g ⟨xa, xb, fineStamp s ta, fineStamp s tb⟩ else s1

end Sys2Proof.Machine
end

