-- ==== Sys2Proof/Machine/Monitor.lean ====
section
/-!
DEFINITION. Monitor-sampler sweeps (R131 to R133, R140, R329, R330).
-/

namespace Sys2Proof.Machine

/-- Phases and thresholds of a pass. -/
def sweepDims (w : Sweep) : Nat × Nat :=
  ((w.phStop - w.phStart).toNat / w.phStep + 1, (w.vStop - w.vStart).toNat / w.vStep + 1)

/-- The sweep of a MONITOR_SWEEP payload (R140). -/
def sweepPay (c : Cmd) (t : Nat) : Sweep :=
  let f := pb c 3
  ⟨sgn 8 (pb c 0), sgn 8 (pb c 1), pb c 2, sgn 8 (pb c 4), sgn 8 (pb c 5), pb c 6, pb c 7, bitAt f 0, false, bitAt f 2,
    bitAt f 3, c.port, fld c.payload 8 8, 0, 0, t⟩

def sweepPayOk (c : Cmd) : Bool :=
  let w := sweepPay c 0
  pb c 3 < 16 && restOk c 16 && w.buffer % 4 = 0 &&
    -32 ≤ w.phStart && w.phStart ≤ w.phStop && w.phStop ≤ 32 && 1 ≤ w.phStep && w.phStep ≤ 64 &&
    w.vStart ≤ w.vStop && 1 ≤ w.vStep && 10 ≤ w.dwell && w.dwell ≤ 30

def monitorSweepDef : CmdDef where
  op := 0x0106
  cls := onClass clLane
  onGroup := false
  payOk := fun _ c => sweepPayOk c
  eff := fun c _ u s =>
    let d := uDie u
    let n := uIdx u
    let l := laneOf s d n
    let w := sweepPay c (dieTime s d)
    let k := b2n w.sheetB
    let a := accOf s d k
    if bitAt (pb c 3) 1 then
      (match l.sweep with
        | some x => (setLane s d n { l with sweep := some { x with stopReq := true } }, ok)
        | none => if laneLive l then (s, ok) else (s, err stBadState))
    else if !laneLive l then (s, err stBadState)
    else if l.sweep.isSome then (s, err stBusy)
    else if w.toSheet && a.cfg.kind ≠ 2 then (s, err stBadState)
    else if w.toSheet && sweepFeeds s d k (some n) then (s, err stBusy)
    else if w.toSheet && (colsOf a.cfg < (sweepDims w).1 || rowsOf a.cfg < (sweepDims w).2) then (s, err stBadPayload)
    else
      let s1 := if w.toSheet then { s with spc := { s.spc with eyeRows := tset [] s.spc.eyeRows (key d k) [] } } else s
      (setLane s1 d n { l with sweep := some w }, ok)

/-- MONITOR_SWEEP (R132, R133, R140). -/
def execMonitorSweep (c : Cmd) (s : State) : Out := startCmd monitorSweepDef c s

/-- A point of a pass adds the cells it completes to an EYE sheet (R330): the cell below it in its column, and its own
at the highest threshold. -/
def eyePoint (s : State) (d k : Nat) (w : Sweep) (count : Nat) : State :=
  let np := (sweepDims w).1
  let nv := (sweepDims w).2
  let p := w.idx % np
  let i := w.idx / np
  let prev := tget [] s.spc.eyeRows (key d k)
  let t := nowStamp s d
  let add := fun (s : State) (v row : Nat) =>
    if v = 0 || !takesInc s d then s else sheetAdd s d k p (row : Int) v (s.now * 256) t
  let s1 := if 0 < i then add s ((prev[p]?).getD 0 - count) (nv - i) else s
  let s2 := if i + 1 = nv then add s1 count 0 else s1
  let row := if i = 0 then (if p = 0 then [count] else prev ++ [count]) else prev.set p count
  { s2 with spc := { s2.spc with eyeRows := tset [] s2.spc.eyeRows (key d k) row } }

/-- MONITOR_POINT_DONE (R131 to R133): the point's dwell ends, its count is written, and the sweep goes on, repeats or
ends. -/
def execMonitorPointDone (d n count : Nat) (s : State) : Out :=
  onDie d s fun s =>
    let l := laneOf s d n
    match l.sweep with
    | none => s
    | some w =>
      whenB (n < 16 && laneLive l) s fun s =>
        let v := min count (2 ^ w.dwell)
        let s1 := if w.buffer = 0 then s else hostWrite s w.port (w.buffer + 4 * w.idx) (leBytes 4 v)
        let s2 := if w.toSheet then eyePoint s1 d (b2n w.sheetB) w v else s1
        let last := w.idx + 1 = sweepPoints w
        let w1 := { w with idx := if last then 0 else w.idx + 1, total := w.total + 1, lastAt := dieTime s2 d }
        let s3 := setLane s2 d n { laneOf s2 d n with sweep := some w1 }
        if w.stopReq || (last && !w.repeats) then endSweep s3 d n (b2n last + 4 * b2n w.stopReq) else s3

end Sys2Proof.Machine
end

