-- ==== Sys2Proof/Machine/Crypto.lean ====
section
/-!
DEFINITION. SHA-256, and RSASSA-PSS with SHA-256, MGF1 with SHA-256 and a 32-byte salt over RSA-3072 (R410).
-/

namespace Sys2Proof.Machine

/-! ## SHA-256 -/

/-- The primes below 312: the first 64. -/
def shaPrimes : List Nat :=
  (List.range 312).filter fun n => 2 ≤ n && (List.range 18).all fun d => d < 2 || n ≤ d || n % d ≠ 0

/-- The largest `r` with `r ^ k ≤ v`, of which `b` bits below `r` are still to find. -/
def rootBits (k v : Nat) : Nat → Nat → Nat
  | 0, r => r
  | b + 1, r => rootBits k v b (if (r + 2 ^ b) ^ k ≤ v then r + 2 ^ b else r)

/-- The first 32 bits of the fraction of the `k`-th root of `p`. -/
def rootFrac (k p : Nat) : Nat := rootBits k (p * 2 ^ (32 * k)) 37 0 % 2 ^ 32

/-- The round constants of SHA-256: fractions of the cube roots of the primes. -/
def shaK : List Nat := shaPrimes.map (rootFrac 3)

/-- The initial hash value of SHA-256: fractions of the square roots of the first eight primes. -/
def shaInit : List W32 := (shaPrimes.take 8).map fun p => BitVec.ofNat 32 (rootFrac 2 p)

/-- The number a big-endian byte string spells. -/
def beNat (p : List Byte) : Nat := leNat p.reverse

/-- The low `n` bytes of a number, most significant first. -/
def beBytes (n v : Nat) : List Byte := (leBytes n v).reverse

/-- A word of the message schedule from the sixteen before it, newest first. -/
def shaNext (w : List W32) : W32 :=
  let at_ := fun (k : Nat) => (w[k]?).getD 0
  let x := at_ 14
  let y := at_ 1
  (y.rotateRight 17 ^^^ y.rotateRight 19 ^^^ (y >>> 10)) + at_ 6 +
    (x.rotateRight 7 ^^^ x.rotateRight 18 ^^^ (x >>> 3)) + at_ 15

/-- The message schedule, newest first. -/
def shaSchedule : Nat → List W32 → List W32
  | 0, w => w
  | n + 1, w => shaSchedule n (shaNext w :: w)

/-- One round over the eight working variables. -/
def shaRound (v : List W32) (kw : W32) : List W32 :=
  match v with
  | [a, b, c, d, e, f, g, h] =>
    let t1 := h + (e.rotateRight 6 ^^^ e.rotateRight 11 ^^^ e.rotateRight 25) + ((e &&& f) ^^^ (~~~e &&& g)) + kw
    let t2 := (a.rotateRight 2 ^^^ a.rotateRight 13 ^^^ a.rotateRight 22) + ((a &&& b) ^^^ (a &&& c) ^^^ (b &&& c))
    [t1 + t2, a, b, c, d + t1, e, f, g]
  | _ => v

/-- One block of 64 bytes into the hash value. -/
def shaBlock (h : List W32) (b : List Byte) : List W32 :=
  let w0 := (List.range 16).map fun i => BitVec.ofNat 32 (beNat ((b.drop (4 * i)).take 4))
  let w := (shaSchedule 48 w0.reverse).reverse
  let v := (w.zipWith (fun a k => a + BitVec.ofNat 32 k) shaK).foldl shaRound h
  h.zipWith (· + ·) v

/-- The blocks of a padded message. -/
def shaBlocks : Nat → List W32 → List Byte → List W32
  | 0, h, _ => h
  | n + 1, h, p => shaBlocks n (shaBlock h (p.take 64)) (p.drop 64)

/-- The SHA-256 digest of a byte string. -/
def sha256 (m : List Byte) : List Byte :=
  let zeros := (119 - m.length % 64) % 64
  let p := m ++ [0x80] ++ List.replicate zeros 0 ++ beBytes 8 (8 * m.length)
  (shaBlocks (p.length / 64) shaInit p).flatMap fun w => beBytes 4 w.toNat

/-! ## RSASSA-PSS -/

/-- `b ^ e mod n` over the low `k` bits of `e`, most significant first. -/
def powMod (b e n : Nat) : Nat → Nat → Nat
  | 0, acc => acc
  | k + 1, acc => powMod b e n k (let q := acc * acc % n; if bitAt e k then q * b % n else q)

/-- MGF1: `n` hashes of a seed with counters from `c` up. -/
def mgf1 (seed : List Byte) : Nat → Nat → List Byte
  | _, 0 => []
  | c, n + 1 => sha256 (seed ++ beBytes 4 c) ++ mgf1 seed (c + 1) n

/-- The encoded message of 384 bytes is a PSS encoding of a message digest. -/
def pssOk (digest em : List Byte) : Bool :=
  let masked := em.take 351
  let h := (em.drop 351).take 32
  let db0 := masked.zipWith (· ^^^ ·) (mgf1 h 0 11)
  let db := match db0 with | b :: r => (b &&& 0x7F) :: r | [] => []
  em.length = 384 && em.getLast? == some 0xBC && !((masked.head?.getD 0).getLsbD 7) && allZero (db.take 318) &&
    (db.drop 318).head? == some 1 && sha256 (List.replicate 8 0 ++ digest ++ db.drop 319) = h

/-- A signature of 384 bytes is valid for a message under an RSA-3072 key. -/
def rsaOk (msg : List Byte) (e n : Nat) (sig : List Byte) : Bool :=
  let s := beNat sig
  2 ^ 3071 ≤ n && s < n && pssOk (sha256 msg) (beBytes 384 (powMod s e n 32 1))

end Sys2Proof.Machine
end

