-- ==== Sys2Proof/Machine/Tree.lean ====
section
/-!
DEFINITION. Changes of the unit tree: its generation, and derived streams created and deleted (R37, R52, R54).
-/

namespace Sys2Proof.Machine

/-- The tree changes: the generation increments, and EV_TREE_CHANGED carries it with the unit or group affected (R54). -/
def treeChange (s : State) (affected : Nat) : State :=
  let g := (s.tree.gen + 1) % 2 ^ 32
  post { s with tree := { s.tree with gen := g } } 0 0x0005 pkgUid (dieTime s 0) (leBytes 4 g ++ leBytes 4 affected)

/-- A derived stream is created in state UNCONFIGURED (R398). -/
def createStream (s : State) (d i : Nat) : State :=
  treeChange (setStream s d i { Stream.reset with present := true }) (streamUid d i)

def setGroup (s : State) (g : Nat) (x : Option Group) : State :=
  { s with tree := { s.tree with groups := tset none s.tree.groups g x } }

/-- A unit is removed from every group that holds it; each membership given back changes the tree (R52). -/
def leaveGroups (s : State) (u : Nat) : State :=
  s.tree.groups.foldl (fun s g =>
    match g.2 with
    | some x =>
      let n := (x.members.filter (· = u)).length
      let s1 := if n = 0 then s else setGroup s g.1 (some { x with members := x.members.filter (· ≠ u) })
      (List.range n).foldl (fun s _ => treeChange s (groupId g.1)) s1
    | none => s) s

/-- Ends what waits on a stream that goes: its re-sends are no longer retained, and a command on its unit is aborted. -/
def dropWaits (s : State) (d i : Nat) : State :=
  let x := streamOf s d i
  let u := streamUid d i
  let s1 := unitsDone s u stNotRetained (dieTime s d) ((x.resends.filter (·.last)).map (·.fid))
  let s2 := unitsDone s1 u stAborted (dieTime s1 d) ((unitOf s1 u).waiters.map (·.fid))
  match (unitOf s2 u).held with
  | some h => (match h.fid with | some f => unitDone s2 f u stAborted 0 [] (dieTime s2 d) | none => s2)
  | none => s2

/-- A derived stream is deleted: its spool goes back to the pool, its ring's open buffer is closed, and it leaves every
group (R52, R415). -/
def deleteStream (s : State) (d i : Nat) : State :=
  let x := streamOf s d i
  let s1 := match x.ring with
    | some r => if ringServes s r && (strRing s r).openBuf then closeBuf s r false true else leaveRing s d i
    | none => s
  let s2 := dropWaits (setPoolFree s1 d (poolFree s1 d + x.mib)) d i
  let s3 := setUnit (setStream s2 d i (streamDflt (key d i))) (streamUid d i) Unit.reset
  treeChange (leaveGroups s3 (streamUid d i)) (streamUid d i)

end Sys2Proof.Machine
end

