-- ==== Sys2Proof/Machine/Xfer.lean ====
section
/-!
DEFINITION. The transfer engine: address spaces, the six instructions, kicks and waits, pausing, errors, and the
commands of its channels (R452 to R484).
-/

namespace Sys2Proof.Machine

def xferUid (d c : Nat) : Nat := uid d clXfer c

/-! ## Address spaces (R454 to R456) -/

/-- An address of a space as die `d` resolves it: space, die, address; PEER names another die's HBM or SRAM, or its
own (R455). -/
def xResolve (d sp a : Nat) : Nat × Nat × Nat :=
  if sp = 3 then (if bitAt a 59 then 2 else 1, bits a 60 3, bits a 0 40) else (sp, d, a)

/-- Bytes of SRAM a die's channels reach (R454): 16 engines of 512 KiB, and on die 0 the Print buffer. -/
def sramSize (d : Nat) : Nat := if d = 0 then 0x1000000 else 0x800000

/-- The place of a resolved address in memory: HOST goes through the port given. -/
def xPlace (port : Nat) (r : Nat × Nat × Nat) : Nat :=
  let a := r.2.2
  match r.1 with
  | 0 => regionBase (.host port) + a
  | 1 => regionBase (.hbm r.2.1) + a
  | 2 => if a < 0x800000 then regionBase (.engData r.2.1 (a / 0x80000)) + a % 0x80000 else regionBase .print + (a - 0x800000)
  | _ => regionBase (.prog r.2.1) + a

/-- A range lies wholly within its space (R454, R455, R459). -/
def rangeOk (s : State) (d : Nat) (port : Option Nat) (sp a len : Nat) : Bool :=
  let r := xResolve d sp a
  let peerOk := sp ≠ 3 || (!bitAt a 63 && bits a 40 19 = 0 && r.2.1 < nDies s && !fenced s r.2.1)
  peerOk && (match r.1 with
    | 0 => (match port with | some p => s.ready && isPort s p && linkUp s p && a + len ≤ 2 ^ 64 | none => false)
    | 1 => r.2.2 + len ≤ 0xB00000000
    | 2 => r.2.2 + len ≤ sramSize r.2.1
    | 4 => r.2.2 + len ≤ 0x10000
    | _ => false)

/-- The range lies in the SRAM of an engine that is SWAPPING: the access waits (R455). -/
def swapTouch (s : State) (d sp a len : Nat) : Bool :=
  let r := xResolve d sp a
  r.1 = 2 && (List.range 16).any fun e =>
    (engOf s r.2.1 e).st == .swapping && r.2.2 < (e + 1) * 0x80000 && e * 0x80000 < r.2.2 + len

/-- BASE[n] + offset modulo 2^64 (R456). -/
def baseAddr (x : Xfer) (n ofs : Nat) : Nat := (((x.bases[n]?).getD (0, 0)).1 + ofs) % 2 ^ 64

/-- A base advanced by L bytes, wrapping inside its aligned window (R456). -/
def advance (b : Nat × Nat) (l : Nat) : Nat × Nat :=
  if b.2 = 0 then ((b.1 + l) % 2 ^ 64, 0)
  else
    let m := 2 ^ b.2
    (b.1 / m * m + (b.1 + l) % m, b.2)

def advBase (x : Xfer) (n l : Nat) : Xfer :=
  { x with bases := x.bases.set n (advance ((x.bases[n]?).getD (0, 0)) l) }

/-! ## Instructions -/

/-- The 128-bit instruction at an index of a die's program memory (R457). -/
def xInstr (s : State) (d pc : Nat) : Nat := memNat s (.prog d) (16 * pc) 16

/-- The channel is clocked and its die counts: it can make progress (R471). -/
def xClocked (s : State) (d c : Nat) : Bool :=
  c < 32 && !(dieClk s d).holding && (awake s (xferUid d c) || pwOf s (xferUid d c) == .stopping)

/-- A pause or reset is asked for, so no new instruction begins (R474, R482). -/
def pausing (s : State) (d c : Nat) : Bool := flagF s d (fXfrChCtlPause c) || !(xferOf s d c).resetFids.isEmpty

/-- The channel is ready to run the instruction at its PC, whose opcode is given. -/
def xReady (s : State) (d c op : Nat) : Bool :=
  let x := xferOf s d c
  xClocked s d c && awake s (xferUid d c) && x.st == .running && !x.moving && !pausing s d c && xInstr s d x.pc % 16 = op

/-- The next index; what follows index 4,095 is not stated (log entry 2). -/
def nextPc (s : State) (pc : Nat) : Nat × State :=
  if pc + 1 < 4096 then (pc + 1, s)
  else
    let v := drawFree s
    (v.1.toNat % 4096, v.2)

/-- The channel goes on at the next index. -/
def xNext (s : State) (d c : Nat) (x : Xfer) : State :=
  let n := nextPc s x.pc
  setXfer n.2 d c { x with st := .running, pc := n.1 }

/-- The port of a channel's interrupts, a host-facing one (R472). -/
def xRaise (s : State) (x : Xfer) (v : Nat) : State :=
  match x.port with
  | some p => if isPort s p then raiseIrq s p v else s
  | none => s

/-- A reset channel: IDLE, its port, weight, bases and state discarded; its buffer kept, or freed (R482). -/
def xClear (s : State) (d c : Nat) (free : Bool) : State :=
  let x := xferOf s d c
  let y := { Xfer.reset with slot := x.slot, buf := if free then none else x.buf }
  let s1 := match x.buf with
    | some b => if free then setPoolFree s d (poolFree s d + b.2) else s
    | none => s
  setXfer s1 d c y

/-- Finishes the commands that wait on a channel: pauses with a status, then resets. -/
def xSettle (s : State) (d c st : Nat) : State :=
  let x := xferOf s d c
  let u := xferUid d c
  let s1 := unitsDone (setXfer s d c { x with pauseFids := [], resetFids := [] }) u st (dieTime s d) x.pauseFids
  match x.resetFids with
  | [] => s1
  | l => unitsDone (xClear s1 d c (l.any (·.2))) u 0 (dieTime s1 d) (l.map (·.1))

/-- A channel fails (R476): cause, space and address of the fault. -/
def xFail (s : State) (d c : Nat) (x : Xfer) (cause space addr : Nat) : State :=
  let y := { x with st := .error, cause := cause, faultSpace := space, faultAddr := addr }
  let s1 := post (setXfer s d c y) d 0x0A01 (xferUid d c) (dieTime s d)
    (leBytes 1 cause ++ leBytes 1 (b2n y.lastBeat + 2 * b2n (y.moving && y.move.desc)) ++ leBytes 1 space ++ leBytes 1 0 ++
      leBytes 2 y.pc ++ leBytes 2 0 ++ leBytes 8 addr)
  let s2 := if flagF s1 d (fXfrChIrqErrIrqEn c) then xRaise s1 y (getF s1 d (fXfrChIrqErrVector c)) else s1
  xSettle s2 d c stAborted

/-- A failure that has no space and address of its own: both are free values (log entry 2). -/
def xFailOpen (s : State) (d c : Nat) (x : Xfer) (cause : Nat) : State :=
  let a := drawFree s
  let b := drawFree a.2
  xFail b.2 d c { x with moving := false, lastBeat := false } cause (a.1.toNat % 8) b.1.toNat

/-- ILLEGAL (R463, R467). -/
def xIllegal (s : State) (d c : Nat) : State := xFailOpen s d c (xferOf s d c) 1

/-- Runs the instruction at PC when it has the opcode; a word that the fields' rules reject fails with ILLEGAL. -/
def runXfer (d c op : Nat) (legal : Nat → Bool) (f : Nat → State → State) (s : State) : Out :=
  onDie d s fun s =>
    whenB (xReady s d c op) s fun s =>
      let w := xInstr s d (xferOf s d c).pc
      if legal w then f w s else xIllegal s d c

/-- Data of EV_XFER_DONE (R483). -/
def xDone (s : State) (d c kind : Nat) (x : Xfer) (pc : Nat) : State :=
  post s d 0x0A02 (xferUid d c) (dieTime s d)
    (leBytes 1 kind ++ leBytes 1 x.phase ++ leBytes 2 pc ++ leBytes 4 x.signals ++ leBytes 8 x.bytes)

/-- Bits [127:4] are 0 (R457). -/
def restClear (w : Nat) : Bool := w / 16 = 0

/-- XFER_END (R457, R483): DONE, with EV_XFER_DONE. -/
def execXferEnd (d c : Nat) (s : State) : Out :=
  runXfer d c 0 restClear (fun _ s =>
    let x := { xferOf s d c with st := .done }
    xDone (setXfer s d c x) d c 2 x x.pc) s

/-- XFER_NOP (R457). -/
def execXferNop (d c : Nat) (s : State) : Out := runXfer d c 5 restClear (fun _ s => xNext s d c (xferOf s d c)) s

/-! ## MOVE (R458, R459, R465 to R467) -/

/-- Two resolved ranges overlap (R466). -/
def overlaps (a b : Nat × Nat × Nat) (len : Nat) : Bool :=
  a.1 = b.1 && (a.1 = 0 || a.2.1 = b.2.1) && a.2.2 < b.2.2 + len && b.2.2 < a.2.2 + len

/-- The MOVE a word spells, with its addresses (R458). -/
def moveOf (x : Xfer) (d w : Nat) : XMove :=
  let l := bits w 102 26
  let len := if l = 0 then 2 ^ 26 else l
  let src := baseAddr x (bits w 15 2) (bits w 17 40)
  let dst := baseAddr x (bits w 60 2) (bits w 62 40)
  let a := xResolve d (bits w 12 3) src
  let b := xResolve d (bits w 57 3) dst
  { sspace := bits w 12 3, dspace := bits w 57 3, src := src, dst := dst, rem := len, len := len, check := bitAt w 6
    sbase := bits w 15 2, dbase := bits w 60 2, sadv := bitAt w 4, dadv := bitAt w 5
    desc := overlaps a b len && a.2.2 < b.2.2 }

/-- A MOVE's fields are allowed (R458, R463, R467). -/
def moveLegal (x : Xfer) (d w : Nat) : Bool :=
  let m := moveOf x d w
  bits w 8 4 = 0 && m.sspace < 5 && m.dspace < 5 &&
    (!m.check || (m.len % 4096 = 0 && !overlaps (xResolve d m.sspace m.src) (xResolve d m.dspace m.dst) m.len))

/-- XFER_MOVE (R458, R459): both ranges are checked, and the MOVE begins. -/
def execXferMove (d c : Nat) (s : State) : Out :=
  onDie d s fun s =>
    whenB (xReady s d c 1) s fun s =>
      let x := xferOf s d c
      let w := xInstr s d x.pc
      let m := moveOf x d w
      if !moveLegal x d w then xIllegal s d c
      else if !rangeOk s d x.port m.sspace m.src m.len then xFail s d c { x with lastBeat := false } 2 m.sspace m.src
      else if !rangeOk s d x.port m.dspace m.dst m.len then xFail s d c { x with lastBeat := false } 2 m.dspace m.dst
      else setXfer s d c { x with move := m, moving := true, moveAt := s.now, lastBeat := false }

/-- The place of a byte of a MOVE's source or destination. -/
def srcPlace (d : Nat) (x : Xfer) (i : Nat) : Nat := xPlace (x.port.getD 0) (xResolve d x.move.sspace (x.move.src + i))

def dstPlace (d : Nat) (x : Xfer) (i : Nat) : Nat := xPlace (x.port.getD 0) (xResolve d x.move.dspace (x.move.dst + i))

/-- Writes bytes, each at its own place. -/
def writePlaces (m : List Host.Cell) : List (Nat × Byte) → List Host.Cell
  | [] => m
  | (a, b) :: r => writePlaces (writeByte m a b) r

/-- Copies `n` bytes of the remaining range: its first ones, or its last ones in a descending copy (R466). -/
def copyPart (s : State) (d c n : Nat) : State :=
  let x := xferOf s d c
  let m := x.move
  let o := if m.desc then m.rem - n else 0
  let data := (List.range n).map fun i => (dstPlace d x (o + i), openByte s (srcPlace d x (o + i)))
  setXfer { s with mem := writePlaces s.mem data } d c { x with
    bytes := (x.bytes + n) % 2 ^ 64
    move := if m.desc then { m with rem := m.rem - n } else { m with src := m.src + n, dst := m.dst + n, rem := m.rem - n } }

/-- The bytes of the block of a CHECK MOVE that lie before the remaining range: none, but after a Write beat that failed within it (R467,
R477). -/
def blockSkip (m : XMove) : Nat := (m.len - m.rem) % 4096

/-- The leading 4,096-byte blocks of a MOVE's source that pass their check, from the block it stands in on (R467). -/
def goodBlocks (s : State) (d : Nat) (x : Xfer) : Nat → Nat → Nat
  | 0, k => k
  | n + 1, k =>
    let a := x.move.src - blockSkip x.move + 4096 * k
    let b := (List.range 4096).map fun i => openByte s (xPlace (x.port.getD 0) (xResolve d x.move.sspace (a + i)))
    if crc32c (b.take 4092) = BitVec.ofNat 32 (leNat (b.drop 4092)) then goodBlocks s d x n (k + 1) else k

/-- The beat that follows the first `k` bytes moved of the remaining range: its offset and length (R452, R466). -/
def nextBeat (m : XMove) (k : Nat) : Nat × Nat :=
  if m.desc then
    let e := m.dst + m.rem - k
    let b := max m.dst ((e - 1) / 64 * 64)
    (b - m.dst, e - b)
  else (k, min (m.rem - k) (64 - (m.dst + k) % 64))

/-- The bytes moved when a CHECK MOVE stops at a source beat after `k` bytes: those of whole blocks (R467). -/
def wholeBlocks (m : XMove) (k : Nat) : Nat := if m.check then k - (m.len - m.rem + k) % 4096 else k

/-- The offset of the beat that writes the byte at offset `o` of the remaining range, as bytes moved before it (R452, R466). -/
def beatOf (m : XMove) (o : Nat) : Nat :=
  let b := max m.dst ((m.dst + o) / 64 * 64)
  if m.desc then m.dst + m.rem - min ((m.dst + o) / 64 * 64 + 64) (m.dst + m.rem) else b - m.dst

/-- The bytes moved before the first beat that reads a doubleword of engine SRAM with an uncorrectable error (R386, R476). -/
def eccAt (s : State) (d : Nat) (x : Xfer) : Option Nat :=
  let m := x.move
  let r := xResolve d m.sspace m.src
  let hits := if r.1 ≠ 2 then [] else
    (List.range 16).flatMap fun e => (engOf s r.2.1 e).eccData.filterMap fun w =>
      let a := e * 0x80000 + w
      if r.2.2 < a + 8 && a < r.2.2 + m.rem then
        some (beatOf m (if m.desc then min (a + 7 - r.2.2) (m.rem - 1) else a - r.2.2))
      else none
  hits.foldl (fun o k => some (match o with | some j => min j k | none => k)) none

/-- The bytes of a MOVE that can be moved: all, those of good blocks under CHECK (R467), or those before an uncorrectable error (R476). -/
def movable (s : State) (d : Nat) (x : Xfer) : Nat :=
  let m := x.move
  let n := if m.check then min m.rem (4096 * goodBlocks s d x ((m.rem + blockSkip m) / 4096) 0 - blockSkip m) else m.rem
  match eccAt s d x with
  | some k => min n (wholeBlocks m k)
  | none => n

/-- The next `n` bytes of a MOVE touch no SRAM of an engine that is SWAPPING, for which the access would wait (R455). -/
def swapClear (s : State) (d : Nat) (x : Xfer) (n : Nat) : Bool :=
  let m := x.move
  let o := if m.desc then m.rem - n else 0
  n = 0 || !(swapTouch s d m.sspace (m.src + o) n || swapTouch s d m.dspace (m.dst + o) n)

/-- The most bytes a channel can have moved of a MOVE by now: two beats of 64 bytes a tick (R452). -/
def movePace (s : State) (x : Xfer) : Nat := 128 * (s.now + 1 - x.moveAt)

/-- The side a MOVE uses is up: a HOST side needs its port's link and Bus Master Enable, a PEER side its die (R476). -/
def sideUp (s : State) (d : Nat) (x : Xfer) (sp a : Nat) : Bool :=
  rangeOk s d x.port sp a x.move.rem && (sp ≠ 0 || (portOf s (x.port.getD 0)).busMaster) && !swapTouch s d sp a x.move.rem

/-- The MOVE in progress can make progress. -/
def moveUp (s : State) (d c : Nat) : Bool :=
  let x := xferOf s d c
  xClocked s d c && x.st == .running && x.moving && sideUp s d x x.move.sspace x.move.src &&
    sideUp s d x x.move.dspace x.move.dst

/-- A MOVE is over: advances apply, once where both name one base (R459), and the channel goes on. -/
def moveDone (s : State) (d c : Nat) : State :=
  let x := xferOf s d c
  let m := x.move
  let x1 := if m.sadv then advBase x m.sbase m.len else x
  let x2 := if m.dadv && !(m.sadv && m.sbase = m.dbase) then advBase x1 m.dbase m.len else x1
  xNext s d c { x2 with moving := false }

/-- The MOVE fails with CRC at the block it stands at (R467). -/
def crcFail (s : State) (d c : Nat) : State :=
  let x := xferOf s d c
  xFail (incF (addF s d (fXfrChErrsRereads c) 2) d (fXfrChErrsCrcFails c)) d c x 6 x.move.sspace (x.move.src - blockSkip x.move)

/-- Bytes that become undefined are free values (log entry 2). -/
def freeFill (d : Nat) (x : Xfer) (o : Nat) : Nat → State → State
  | 0, s => s
  | n + 1, s =>
    let v := drawFree s
    freeFill d x o n { v.2 with mem := writeByte v.2.mem (dstPlace d x (o + n)) (BitVec.ofNat 8 v.1.toNat) }

/-- Which side a beat error of a cause can lie on (R476): source, destination. -/
def errSides (d : Nat) (m : XMove) (cause : Nat) : Bool × Bool :=
  match cause with
  | 3 => (m.sspace = 0, m.dspace = 0)
  | 4 => (m.sspace = 3 && bits m.src 60 3 ≠ d, m.dspace = 3 && bits m.dst 60 3 ≠ d)
  | 5 => (m.sspace ≠ 0, false)
  | _ => (false, false)

/-- A beat fails after `done` bytes of the remaining range (R476 to R478), on one of the sides given.  Destination bytes of it and of later
beats already issued, at most two a tick, are free values (R452, R477); with `last` the count had reached zero.  Under CHECK no byte of a
block is written before all of it is read, so a source beat stops the MOVE at the start of its block (R467; DEDUCED, log entry 144). -/
def beatFail (s : State) (d c cause : Nat) (sides : Bool × Bool) (done : Nat) (last : Bool) : State :=
  let x := xferOf s d c
  let m := x.move
  let b := nextBeat m done
  let v := drawFree s
  let pick := if sides.1 && sides.2 && done ≤ movable s d x then (v.1.getLsbD 0, v.2) else (sides.1, s)
  let whole := pick.1 && m.check
  whenB (!last || (done + b.2 = m.rem && !whole)) s fun _ =>
    let s1 := copyPart pick.2 d c (if pick.1 then wholeBlocks m done else done)
    let x1 := xferOf s1 d c
    let w := drawFree s1
    let n := b.2 + w.1.toNat % (min (m.rem - done) (movePace s x - done) - b.2 + 1)
    let s2 := if whole then s1 else if last then freeFill d x1 0 x1.move.rem s1
      else freeFill d x1 (if m.desc then x1.move.rem - n else 0) n w.2
    let x2 := xferOf s2 d c
    let space := if pick.1 then m.sspace else m.dspace
    let addr := (if pick.1 then m.src else m.dst) + b.1
    if last then
      let s3 := moveDone (setXfer s2 d c { x2 with
        bytes := (x2.bytes + b.2) % 2 ^ 64, lastBeat := true, move := { x2.move with rem := 0 } }) d c
      xFail s3 d c (xferOf s3 d c) cause space addr
    else xFail s2 d c x2 cause space addr

/-- XFER_MOVE_RETIRE (R452, R459, R465, R467, R476): the remaining bytes are moved and the MOVE retires; under CHECK, blocks that passed
were read `rereads` times again, each at most twice, and a block that never passes fails the MOVE, as does a source word with an
uncorrectable error. -/
def execXferMoveRetire (d c rereads : Nat) (s : State) : Out :=
  onDie d s fun s =>
    let x := xferOf s d c
    let m := x.move
    let n := movable s d x
    whenB (moveUp s d c && n ≤ movePace s x && (!m.check || rereads ≤ 2 * ceilDiv n 4096)) s fun s =>
      let s0 := if m.check then addF s d (fXfrChErrsRereads c) rereads else s
      let ecc := (eccAt s d x).filter fun k => wholeBlocks m k = n
      match ecc with
      | some k => beatFail s0 d c 5 (true, false) k (!m.check && k + (nextBeat m k).2 = m.rem)
      | none =>
        let s1 := copyPart s0 d c n
        if n = m.rem then moveDone s1 d c else crcFail s1 d c

/-- XFER_BEAT_ERROR (R476 to R478). -/
def execXferBeatError (d c cause done : Nat) (last : Bool) (s : State) : Out :=
  onDie d s fun s =>
    let x := xferOf s d c
    let sides := errSides d x.move cause
    whenB (xClocked s d c && x.st == .running && x.moving && done < x.move.rem &&
        (if sides.1 then wholeBlocks x.move done else done) ≤ movable s d x && done ≤ movePace s x &&
        swapClear s d x (done + (nextBeat x.move done).2) && (sides.1 || sides.2)) s fun s => beatFail s d c cause sides done last

/-- A channel whose MOVE in progress uses a side that is lost fails; how far it had come is free (R476). -/
def loseSide (cause : Nat) (sides : Xfer → Bool × Bool) (d : Nat) (s : State) (c : Nat) : State :=
  let x := xferOf s d c
  let l := sides x
  if x.st == .running && x.moving && x.move.rem ≠ 0 && (l.1 || l.2) then
    let v := drawFree s
    let k := v.1.toNat % min x.move.rem (min (movable s d x) (movePace s x) + 1)
    beatFail v.2 d c cause l (if swapClear s d x k then k else 0) false
  else s

/-- A port loses its link or Bus Master Enable: moves through it fail with HOST (R476). -/
def movesLosePort (s : State) (p : Nat) : State :=
  (List.range (nDies s)).foldl (fun s d => (List.range 32).foldl
    (loseSide 3 (fun x => (x.port = some p && x.move.sspace = 0, x.port = some p && x.move.dspace = 0)) d) s) s

/-- A die is fenced: moves of other dies to or from its memory fail with PEER (R476). -/
def movesLoseDie (s : State) (e : Nat) : State :=
  ((List.range (nDies s)).filter (· ≠ e)).foldl (fun s d => (List.range 32).foldl
    (loseSide 4 (fun x => (x.move.sspace = 3 && bits x.move.src 60 3 = e, x.move.dspace = 3 && bits x.move.dst 60 3 = e)) d) s) s

/-! ## LOOP (R460) -/

def loopLegal (w : Nat) : Bool := bits w 64 64 = 0 && bits w 6 10 = 0 && bits w 16 16 < 4096

/-- XFER_LOOP (R460). -/
def execXferLoop (d c : Nat) (s : State) : Out :=
  runXfer d c 2 loopLegal (fun w s =>
    let x := xferOf s d c
    let k := bits w 4 2
    let count := bits w 32 32
    let fresh := !((x.active[k]?).getD false)
    let lc := if fresh then (count + 2 ^ 32 - 1) % 2 ^ 32 else (x.lc[k]?).getD 0
    if count ≠ 0 && lc = 0 then xNext s d c { x with active := x.active.set k false, lc := x.lc.set k lc }
    else
      setXfer s d c { x with
        active := x.active.set k true, lc := x.lc.set k (if count = 0 then lc else lc - 1), pc := bits w 16 16 }) s

/-! ## WAIT and kicks (R461, R468 to R470) -/

def waitLegal (w : Nat) : Bool := bits w 14 18 = 0 && bits w 5 3 < 3 && (bits w 5 3 = 2 || bits w 64 64 = 0)

/-- Ticks from now until the die's time reaches a stamp (R153). -/
def ticksUntil (s : State) (d : Nat) (t : Stamp) : Nat := ((stampDiff t (nowStamp s d) + 255) / 256).toNat

/-- The tick a channel's timeouts have come to: the last before the holding clock while it runs (R471). -/
def xTick (s : State) (d : Nat) : Nat := if (dieClk s d).holding then (dieClk s d).faultTick else s.now

/-- A tick lies within a WAIT's timeout, its expiry tick included (R470). -/
def inWait (x : Xfer) (t : Nat) : Bool := match x.wait.expiry with | some e => t ≤ e | none => true

/-- The condition of a WAIT holds, in time: a kick or the event has come, or the time is reached no later than the expiry (R470). -/
def waitHolds (s : State) (x : Xfer) : Bool :=
  match x.wait.sel with
  | 0 => x.wait.hit
  | 1 => x.wait.hit
  | _ => x.wait.timeAt ≤ s.now && inWait x x.wait.timeAt

/-- A WAIT returns; SEL KICK consumes one kick (R468). -/
def waitReturns (s : State) (d c : Nat) : State :=
  let x := xferOf s d c
  xNext s d c { x with kicks := if x.wait.sel = 0 then x.kicks - 1 else x.kicks, timedOut := false }

/-- XFER_WAIT (R461, R469): a condition that holds returns at once; else the channel is WAITING. -/
def execXferWait (d c : Nat) (s : State) : Out :=
  runXfer d c 3 waitLegal (fun w s =>
    let tmo := bits w 32 32
    let y := xferOf s d c
    let x := { y with wait := {
      start := s.now, sel := bits w 5 3, event := bits w 8 6
      timeAt := s.now + ticksUntil s d (BitVec.ofNat 64 (bits w 64 64))
      expiry := if tmo = 0 then none else some (s.now + tmo), fail := bitAt w 4, hit := bits w 5 3 = 0 && y.kicks ≠ 0 } }
    if waitHolds s x then waitReturns (setXfer s d c x) d c else setXfer s d c { x with st := .waiting }) s

/-- XFER_WAIT_RETURN (R468, R469): the awaited kick, event or time has come. -/
def execXferWaitReturn (d c : Nat) (s : State) : Out :=
  onDie d s fun s =>
    let x := xferOf s d c
    whenB (xClocked s d c && x.st == .waiting && !pausing s d c && waitHolds s x) s fun s => waitReturns s d c

/-- XFER_WAIT_TIMEOUT (R470): the expiry tick, for SHUTTER that 112 ticks later, is over (R10); the channel skips the next
instruction, or fails with WAIT_TIMEOUT. -/
def execXferWaitTimeout (d c : Nat) (s : State) : Out :=
  onDie d s fun s =>
    let x := xferOf s d c
    match x.wait.expiry with
    | some t =>
      whenB (xClocked s d c && x.st == .waiting && !pausing s d c && !waitHolds s x &&
          t + (if x.wait.sel = 1 then 112 else 0) < s.now) s fun s =>
        let y := { x with timedOut := true }
        if x.wait.fail then xFailOpen s d c y 7
        else
          let n := nextPc s x.pc
          xNext n.2 d c { y with pc := n.1 }
    | none => s

/-- A Shutter event arrives at the waiting channels of a die (R469): the first with the ID whose t_event lies at or
after the WAIT's start, and not after its expiry.  A channel that is not AWAKE ignores it (R233). -/
def xferShutter (s : State) (d id ph : Nat) : State :=
  (List.range 32).foldl (fun s c =>
    let x := xferOf s d c
    if awake s (uid d clXfer c) && x.st == .waiting && x.wait.sel = 1 && x.wait.event = id && x.wait.start * 256 ≤ ph && inWait x (ph / 256) then
      setXfer s d c { x with wait := { x.wait with hit := true } }
    else s) s

/-- A kick adds one to the pending kicks, or is lost at 255 (R468); a WAIT for it that has not expired holds (R470). -/
def xferKick (s : State) (d c : Nat) : State :=
  let x := xferOf s d c
  let waits := x.st == .waiting && x.wait.sel = 0 && inWait x (xTick s d)
  if 255 ≤ x.kicks then setFlag s d (fXfrChKickOverflow c) true
  else setXfer s d c { x with kicks := x.kicks + 1, wait := { x.wait with hit := x.wait.hit || waits } }

/-- A channel granted to a service takes no control from the host's registers (R480). -/
def xferOwned (s : State) (d c : Nat) : Bool := (xferOf s d c).slot.isSome

/-- The primary function's access reaches the registers of an unfenced die (R65, R487). -/
def dieShown (s : State) (port d : Nat) : Bool := s.ready && port = primaryPort s && d < nDies s && !fenced s d

/-- XFR_CH_KICK (R468): a write of 1 to KICK. -/
def execXfrChKick (port d c be : Nat) (v : W32) (s : State) : Out :=
  onPort port s fun s =>
    whenB (dieShown s port d && c < 32 && bitAt be 0 && v.getLsbD 0 && !xferOwned s d c) s fun s => xferKick s d c

/-! ## SIGNAL (R462, R472, R473) -/

/-- A SIGNAL's fields are allowed (R462, R463). -/
def signalLegal (x : Xfer) (w : Nat) : Bool :=
  bits w 69 3 = 0 && bits w 10 2 = 0 && bits w 12 2 < 3 && (!bitAt w 6 || bits w 59 5 < 18) &&
    (!bitAt w 7 || (bits w 14 3 < 5 && baseAddr x (bits w 17 2) (bits w 19 40) % 4 = 0))

/-- A stream takes marks: ROLLING, or armed (R399, R462). -/
def takesMarks (s : State) (d i : Nat) : Bool :=
  let x := streamOf s d i
  x.state == .rolling || armed x

/-- The actions of a SIGNAL after DOORBELL, in order: MARK, CHANNEL, ENGINE, EVENT, IRQ (R462). -/
def signalActs (s : State) (d c w : Nat) : State :=
  let i := bits w 59 5
  let s1 :=
    if !bitAt w 6 then s
    else if takesMarks s d i then addMark s d i 0x20 (bits w 72 56) 0 0 (nowStamp s d)
    else incF s d (fXfrChErrsMarksLost c)
  let s2 := if bitAt w 9 then xferKick s1 d (bits w 64 5) else s1
  let s3 := if bitAt w 8 then chanSignal s2 d c else s2
  let x := xferOf s3 d c
  let ph := bits w 12 2
  let y := { x with signals := (x.signals + 1) % 2 ^ 32, phase := if ph = 0 then x.phase else ph }
  let s4 := setXfer s3 d c y
  let s5 := if bitAt w 4 then xDone s4 d c 1 y y.pc else s4
  let s6 := if bitAt w 5 && flagF s5 d (fXfrChIrqIrqEn c) then xRaise s5 y (getF s5 d (fXfrChIrqVector c)) else s5
  xNext s6 d c (xferOf s6 d c)

/-- XFER_SIGNAL (R462); a DOORBELL to the SRAM of an engine that is SWAPPING waits (R455). -/
def execXferSignal (d c : Nat) (s : State) : Out :=
  onDie d s fun s =>
    let x := xferOf s d c
    let w := xInstr s d x.pc
    let sp := bits w 14 3
    let a := baseAddr x (bits w 17 2) (bits w 19 40)
    whenB (xReady s d c 4 && !(bitAt w 7 && swapTouch s d sp a 4)) s fun s =>
      if !signalLegal x w then xIllegal s d c
      else if bitAt w 7 && !rangeOk s d x.port sp a 4 then xFail s d c { x with lastBeat := false } 2 sp a
      else
        let data := (leBytes 4 (bits w 72 32)).zipIdx.map fun p => (xPlace (x.port.getD 0) (xResolve d sp (a + p.2)), p.1)
        signalActs (if bitAt w 7 then { s with mem := writePlaces s.mem data } else s) d c w

/-- XFER_ILLEGAL_OPCODE (R457, R463). -/
def execXferIllegalOpcode (d c : Nat) (s : State) : Out :=
  onDie d s fun s =>
    let op := xInstr s d (xferOf s d c).pc % 16
    whenB (6 ≤ op && xReady s d c op) s fun s => xIllegal s d c

/-! ## Pause and resume (R474, R475) -/

/-- A channel is asked to pause (R474, R475): a running or waiting one has PAUSE set. -/
def xferPause (s : State) (d c : Nat) : State :=
  let x := xferOf s d c
  if x.st == .running || x.st == .waiting then setFlag s d (fXfrChCtlPause c) true else s

/-- XFER_PAUSED (R474): the reads in flight, `moved` bytes, are drained, and the channel is PAUSED; a reset that
waited for this follows (R482).  A channel started while its unit is ASLEEP has none in flight. -/
def execXferPaused (d c moved : Nat) (s : State) : Out :=
  onDie d s fun s =>
    let x := xferOf s d c
    let n := if x.moving then moved else 0
    whenB (c < 32 && !(dieClk s d).holding && (n = 0 || xClocked s d c) && pausing s d c && (x.st == .running || x.st == .waiting) &&
        (!x.moving || (n < x.move.rem && n ≤ movable s d x && n ≤ movePace s x && (n = 0 || wholeBlocks x.move n = n) &&
          swapClear s d x n))) s fun s =>
      let s1 := if n = 0 then s else copyPart s d c n
      xSettle (setXfer s1 d c { xferOf s1 d c with st := .paused }) d c 0

/-- A paused channel, or one in ERROR, goes on (R474, R479). -/
def xferContinue (s : State) (d c : Nat) (skip : Bool) : State :=
  let x := xferOf s d c
  let y := { x with st := .running, cause := 0, moveAt := s.now }
  let s1 := setFlag s d (fXfrChCtlPause c) false
  if skip && !x.lastBeat then xNext s1 d c { y with moving := false }
  else setXfer s1 d c { y with lastBeat := false }

/-- A write of 0 to PAUSE (R474, R475): a PAUSED channel resumes, outside Safelight mode. -/
def pauseClear (d c : Nat) (s : State) : State :=
  let x := xferOf s d c
  let s1 := setFlag s d (fXfrChCtlPause c) false
  if x.st == .paused && !safelight s d then xferContinue s1 d c false
  else if x.resetFids.isEmpty then xSettle s1 d c stAborted
  else s1

/-- PAUSE_SET (R474): the host sets XFR_CH_CTL.PAUSE. -/
def execPauseSet (port d c : Nat) (v : W32) (s : State) : Out :=
  onPort port s fun s =>
    whenB (dieShown s port d && c < 32 && v.getLsbD 31 && !xferOwned s d c) s fun s => setFlag s d (fXfrChCtlPause c) true

/-- PAUSE_CLEAR (R474, R475): the host clears XFR_CH_CTL.PAUSE. -/
def execPauseClear (port d c : Nat) (v : W32) (s : State) : Out :=
  onPort port s fun s =>
    whenB (dieShown s port d && c < 32 && !v.getLsbD 31 && !xferOwned s d c) s (pauseClear d c)

/-! ## Commands (R480 to R482) -/

/-- XFER_LOAD without PROG_ONLY: every setting is in range. -/
def xferSetOk (p : List Byte) : Bool :=
  let port := fld p 6 1
  (port < 8 || port = 0xFF) && 1 ≤ fld p 7 1 && fld p 7 1 ≤ 15 && fld p 8 4 ≤ 4096 && fld p 4 2 < 4096 &&
    (List.range 4).all fun n => (fld p (24 + 16 * n) 1 = 0 || (12 ≤ fld p (24 + 16 * n) 1 && fld p (24 + 16 * n) 1 ≤ 40))

def xferPayOk (p : List Byte) : Bool :=
  let n := fld p 2 2
  n ≤ 4091 && fld p 0 2 < 4096 && fld p 0 2 + n ≤ 4096 && fld p 12 1 < 64 && fld p 13 3 = 0 &&
    ((List.range 4).all fun k => fld p (25 + 16 * k) 7 = 0) && 80 + 16 * n ≤ p.length && zeroFrom p (80 + 16 * n) &&
    (bitAt (fld p 12 1) 0 || xferSetOk p)

/-- The bases of an XFER_LOAD; those FLAGS names are set to the buffer's address. -/
def xferBases (p : List Byte) (buf : Nat) : List (Nat × Nat) :=
  (List.range 4).map fun n =>
    (if bitAt (fld p 12 1) (2 + n) then buf else fld p (16 + 16 * n) 8, fld p (24 + 16 * n) 1)

/-- The buffer after FREE_BUF and BUF_MIB: address and size, and the pool's free MiB; none when it does not fit. -/
def xferBuf (s : State) (d : Nat) (old : Option (Nat × Nat)) (mib : Nat) (free : Bool) :
    Option (Option (Nat × Nat) × State) :=
  let back := poolFree s d + (old.map (·.2)).getD 0
  if mib ≠ 0 then
    if back < mib then none
    else
      let a := allocAddr (setPoolFree s d (back - mib))
      some (some (a.1, mib), a.2)
  else if free then some (none, setPoolFree s d back)
  else some (old, s)

/-- The result of XFER_LOAD (R481). -/
def xferResult (b : Option (Nat × Nat)) : List Byte := leBytes 8 ((b.map (·.1)).getD 0) ++ leBytes 4 ((b.map (·.2)).getD 0)

/-- The channel is one of the states that a load or start takes. -/
def stopped (st : XferSt) : Bool := st == .loaded || st == .done || st == .error

def xferLoadDef : CmdDef where
  op := 0x0A01
  cls := onClass clXfer
  onGroup := false
  payOk := fun _ c => xferPayOk c.payload
  eff := fun c _ u s =>
    let d := uDie u
    let n := uIdx u
    let x := xferOf s d n
    let p := c.payload
    let only := bitAt (fld p 12 1) 0
    let s1 := memWrite s (.prog d) (16 * fld p 0 2) ((p.drop 80).take (16 * fld p 2 2))
    if xferOwned s d n then (s, err stNotPermitted)
    else if only then (s1, .done 0 (xferResult x.buf) 0)
    else if !(stopped x.st || x.st == .idle) then (s, err stBadState)
    else
      match xferBuf s1 d x.buf (fld p 8 4) (bitAt (fld p 12 1) 1) with
      | none => (s, err stNoResource)
      | some (b, s2) =>
        let bases := xferBases p ((b.map (·.1)).getD 0)
        let port := fld p 6 1
        (setXfer s2 d n { x with
          st := .loaded, entry := fld p 4 2, pc := fld p 4 2, port := if port = 0xFF then none else some port
          weight := fld p 7 1, bases := bases, loaded := bases.map (·.1), active := Xfer.reset.active
          kicks := 0, cause := 0, moving := false, lastBeat := false, buf := b },
         .done 0 (xferResult b) 0)

/-- XFER_LOAD (R481). -/
def execXferLoad (c : Cmd) (s : State) : Out := startCmd xferLoadDef c s

def xferStartDef : CmdDef where
  op := 0x0A02
  cls := onClass clXfer
  onGroup := false
  payOk := fun _ c => pb c 0 < 2 && restOk c 1
  eff := fun c _ u s =>
    let d := uDie u
    let n := uIdx u
    let x := xferOf s d n
    if xferOwned s d n then (s, err stNotPermitted)
    else if safelight s d then (s, err stSafelight)
    else if !stopped x.st then (s, err stBadState)
    else
      (setXfer s d n { x with
        st := .running, pc := x.entry, lc := Xfer.reset.lc, active := Xfer.reset.active, bytes := 0, signals := 0
        cause := 0, moving := false, lastBeat := false, timedOut := false
        bases := if pb c 0 = 1 then x.bases.zipWith (fun b v => (v, b.2)) x.loaded else x.bases }, ok)

/-- XFER_START (R482). -/
def execXferStart (c : Cmd) (s : State) : Out := startCmd xferStartDef c s

def xferPauseDef : CmdDef where
  op := 0x0A03
  cls := onClass clXfer
  onGroup := false
  payOk := restZero 0
  eff := fun _ fid u s =>
    let d := uDie u
    let n := uIdx u
    let x := xferOf s d n
    if xferOwned s d n then (s, err stNotPermitted)
    else if x.st == .paused then (s, ok)
    else if !(x.st == .running || x.st == .waiting) then (s, err stBadState)
    else (xferPause (setXfer s d n { x with pauseFids := x.pauseFids ++ [fid] }) d n, .wait)

/-- XFER_PAUSE (R474): completes when PAUSED. -/
def execXferPause (c : Cmd) (s : State) : Out := startCmd xferPauseDef c s

def xferResumeDef : CmdDef where
  op := 0x0A04
  cls := onClass clXfer
  onGroup := false
  payOk := fun _ c => pb c 0 < 2 && restOk c 1
  eff := fun c _ u s =>
    let d := uDie u
    let n := uIdx u
    let x := xferOf s d n
    if xferOwned s d n then (s, err stNotPermitted)
    else if safelight s d then (s, err stSafelight)
    else if !(x.st == .paused || x.st == .error) then (s, err stBadState)
    else if x.st == .paused && pb c 0 = 1 then (s, err stBadPayload)
    else (xferContinue s d n (pb c 0 = 1), ok)

/-- XFER_RESUME (R474, R479). -/
def execXferResume (c : Cmd) (s : State) : Out := startCmd xferResumeDef c s

def xferResetDef : CmdDef where
  op := 0x0A05
  cls := onClass clXfer
  onGroup := false
  payOk := fun _ c => pb c 0 < 2 && restOk c 1
  eff := fun c fid u s =>
    let d := uDie u
    let n := uIdx u
    let x := xferOf s d n
    if xferOwned s d n then (s, err stNotPermitted)
    else if x.st == .running || x.st == .waiting then
      (setXfer s d n { x with resetFids := x.resetFids ++ [(fid, decide (pb c 0 = 1))] }, .pend)
    else (xClear s d n (pb c 0 = 1), ok)

/-- XFER_RESET (R482): completes when IDLE. -/
def execXferReset (c : Cmd) (s : State) : Out := startCmd xferResetDef c s

end Sys2Proof.Machine
end

