-- ==== Sys2Proof/Machine/Image.lean ====
section
/-!
DEFINITION. Malram images: header, signatures, measurement, and their placement on an engine (R409 to R411, R583).
-/

namespace Sys2Proof.Machine

/-! ## Header (R409) -/

def imgKind (p : List Byte) : Nat := fld p 6 1
def imgFlags (p : List Byte) : Nat := fld p 7 1
def imgSigOfs (p : List Byte) : Nat := fld p 12 4
def imgCode (p : List Byte) : Nat := fld p 16 4
def imgData (p : List Byte) : Nat := fld p 20 4
def imgBss (p : List Byte) : Nat := fld p 24 4
def imgManifest (p : List Byte) : Nat := fld p 28 4
def imgEntry (p : List Byte) : Nat := fld p 32 4
def imgHeap (p : List Byte) : Nat := fld p 36 4
def imgId (p : List Byte) : Nat := fld p 40 8
def imgVersion (p : List Byte) : Nat := fld p 48 4

/-- Signatures an image carries. -/
def imgSigs (p : List Byte) : Nat := b2n (bitAt (imgFlags p) 0) + b2n (bitAt (imgFlags p) 1)

/-- The header can be read. -/
def imgReadable (p : List Byte) : Bool := 64 ≤ p.length && fld p 0 4 = 0x4D524C4D

/-- The lengths of a header agree with each other and with the bytes given. -/
def imgLengths (p : List Byte) : Bool :=
  imgReadable p && fld p 4 2 = 1 && imgFlags p < 4 && fld p 8 4 = imgSigOfs p + 776 * imgSigs p && fld p 8 4 = p.length &&
    imgSigOfs p = 64 + imgCode p + imgData p + imgManifest p && imgCode p % 4 = 0 && 4 ≤ imgCode p && imgData p % 8 = 0 &&
    fld p 55 8 = 0 && fld p 63 1 = 0

/-- The header of an engine, service or decoder image has the form of R409. -/
def imgForm (p : List Byte) : Bool :=
  imgLengths p && imgCode p ≤ 131072 && imgBss p % 8 = 0 && imgData p + imgBss p ≤ 524288 && imgManifest p % 8 = 0 &&
    (imgKind p ≠ 2 || imgManifest p = 0) && imgEntry p % 4 = 0 && imgEntry p < imgCode p && imgHeap p ≤ 4096 &&
    fld p 52 1 = 1 && fld p 53 1 < 16 && fld p 54 1 < 4

/-- The header of a base image has the form of R409 with the limits of R573. -/
def baseForm (p : List Byte) : Bool :=
  imgLengths p && imgCode p ≤ 2 ^ 24 && imgData p ≤ 2 ^ 24 && imgBss p = 0 && imgManifest p = 0 && imgEntry p = 0 &&
    imgHeap p = 0 && fld p 52 1 = 0 && fld p 53 1 < 16 && fld p 54 1 < 4

/-- The IMAGE_ID that a rejection reports: 0 when the header is unreadable (R423). -/
def imgReportId (p : List Byte) : Nat := if imgReadable p then imgId p else 0

/-! ## Signatures (R410) -/

/-- SEC_OWNER_HASH has been written (R582). -/
def ownerSet (s : State) : Bool := flagF s 0 fSecStatOwnerSet

/-- The owner key hash: eight dwords, unwritten ones 0 (R582). -/
def ownerHash (s : State) : List Byte :=
  (List.range 8).flatMap fun n => leBytes 4 (reg s ctlPage (rSecOwnerHash n - 0x4000000)).toNat

/-- The fused Plovum key hash. -/
def plovumHash : List Byte := (List.range 8).flatMap fun n => leBytes 4 (Config.plovumHash n).toNat

/-- The `k`-th entry of the signature block. -/
def sigEntry (p : List Byte) (k : Nat) : List Byte := (p.drop (imgSigOfs p + 776 * k)).take 776

/-- What is wrong with one signature (R410): its tag, its key, or the signature itself. -/
def sigFault (p : List Byte) (k tag : Nat) (hash : List Byte) : Option Nat :=
  let e := sigEntry p k
  if fld e 0 4 ≠ tag then some 1
  else if sha256 ((e.drop 4).take 388) ≠ hash then some 4
  else if !rsaOk (p.take (imgSigOfs p)) (beNat ((e.drop 4).take 4)) (beNat ((e.drop 8).take 384)) (e.drop 392) then some 5
  else none

/-- The reason of R423 for which an image's signatures are rejected, given which signatures are required; every
signature present is verified. -/
def sigsFault (s : State) (p : List Byte) (needP needO : Bool) : Option Nat :=
  let hasP := bitAt (imgFlags p) 0
  let hasO := bitAt (imgFlags p) 1
  if (needP && !hasP) || (needO && !hasO) then some 3
  else
    match if hasP then sigFault p 0 1 plovumHash else none with
    | some r => some r
    | none => if hasO then sigFault p (b2n hasP) 2 (ownerHash s) else none

/-- The reason for which an image of one of the kinds given is rejected: header, KIND, signatures (R410, R411). -/
def imgFault (s : State) (kinds : List Nat) (p : List Byte) : Option Nat :=
  if !imgForm p then some 1
  else if !(kinds.contains (imgKind p)) then some 2
  else sigsFault s p (!ownerSet s) (ownerSet s)

/-- The reason for which a base image is rejected (R572). -/
def baseFault (s : State) (p : List Byte) : Option Nat :=
  if !baseForm p then some 1
  else if imgKind p ≠ 1 then some 2
  else sigsFault s p true (ownerSet s)

/-! ## Measurements (R583) -/

/-- The measurement of an image (R410). -/
def imgMeasure (p : List Byte) : List Byte := sha256 (p.take (imgSigOfs p))

/-- One entry joins the measurement log: beyond 4,096 it is counted and folded into the digest only. -/
def addMeasure (s : State) (die eng : Nat) (p : List Byte) (time : Nat) : State :=
  let e := leBytes 1 (imgKind p) ++ leBytes 1 die ++ leBytes 1 eng ++ leBytes 1 (imgFlags p % 4) ++ leBytes 4 (imgVersion p) ++
    leBytes 8 (imgId p) ++ leBytes 8 (time * 256) ++ leBytes 8 0 ++ imgMeasure p
  let x := s.sec
  { s with sec := { x with
    log := if x.log.length < 4096 then x.log ++ [e] else x.log
    count := (x.count + 1) % 2 ^ 32, digest := sha256 (x.digest ++ e) } }

/-! ## Placement on an engine (R411) -/

/-- Unlists every byte of a range: it reads as at reset. -/
def memClear (s : State) (r : Region) (a n : Nat) : State :=
  let lo := regionBase r + a
  { s with mem := s.mem.filter fun c => !(lo ≤ c.1 && c.1 < lo + n) }

/-- The heap fits the pool once the engine's previous heap is back (R411). -/
def heapFits (s : State) (d e mib : Nat) : Bool := mib ≤ poolFree s d + (engOf s d e).heapMib

/-- What is placed on an engine: code, data, and the header's settings. -/
structure Place where
  code : List Byte
  data : List Byte
  heap : Nat
  entry : Nat
  inUse : Nat
  outUse : Nat

/-- The placement of one image. -/
def placeOf (p : List Byte) : Place :=
  ⟨(p.drop 64).take (imgCode p), (p.drop (64 + imgCode p)).take (imgData p), imgHeap p, imgEntry p, fld p 53 1, fld p 54 1⟩

/-- An engine's heap goes back to the pool (R221). -/
def freeHeap (s : State) (d e : Nat) : State :=
  let x := engOf s d e
  setEng (setPoolFree s d (poolFree s d + x.heapMib)) d e { x with heapMib := 0 }

/-- Places code and data on an engine, with the rest of its memories at their fill, the mailbox cleared and a zeroed
heap; the engine is LOADED (R411). -/
def placeImage (s : State) (d e : Nat) (g : Place) : State :=
  let x := engOf s d e
  let s1 := memWrite (memClear s (.engCode d e) 0 0x20000) (.engCode d e) 0 g.code
  let s2 := memClear (memClear s1 (.engData d e) 0 0x102000) (.engSide d e) 0 0x10000
  let s3 := memWrite s2 (.engData d e) 0 g.data
  let s4 := freeHeap s3 d e
  let s5 := setPoolFree s4 d (poolFree s4 d - g.heap)
  let a := if g.heap = 0 then (0, s5) else allocAddr s5
  let s6 := memClear a.2 (.hbm d) a.1 (g.heap * 2 ^ 20)
  setEng s6 d e { x with
    st := .loaded, entry := g.entry, inUse := g.inUse, outUse := g.outUse, heapAddr := a.1, heapMib := g.heap
    h2e := 0, e2h := 0, cache := [], eccCode := [], eccData := [], waiting := none, stopPoint := false, stopNow := false }

end Sys2Proof.Machine
end

