-- ==== Sys2Proof/Machine/EngStop.lean ====
section
/-!
DEFINITION. How Cufix engines stop, are unloaded, and what that does to the service instance they belong to
(R408, R412 to R416, R428 to R431).
-/

namespace Sys2Proof.Machine

/-! ## Service slots -/

def svcOf (s : State) (d k : Nat) : Svc := tget Svc.reset s.svc.slots (key d k)

def setSvc (s : State) (d k : Nat) (x : Svc) : State :=
  { s with svc := { s.svc with slots := tset Svc.reset s.svc.slots (key d k) x } }

def svcCode : SvcSt → Nat
  | .none => 0
  | .starting => 1
  | .running => 2
  | .stopping => 3
  | .stopped => 4
  | .fault => 5

/-- An instance changes state at a die time: EV_SERVICE_STATE with its cause, engine and trap cause (R451). -/
def svcStateAt (s : State) (d k : Nat) (st : SvcSt) (cause eng trap t : Nat) : State :=
  let x := svcOf s d k
  if x.st = st then s
  else
    post (setSvc s d k { x with st := st }) d 0x0901 (dieUid d) t
      (leBytes 1 k ++ leBytes 1 (svcCode st) ++ leBytes 1 (svcCode x.st) ++ leBytes 1 cause ++ leBytes 1 eng ++ leBytes 1 trap)

/-- An instance changes state now. -/
def svcState (s : State) (d k : Nat) (st : SvcSt) (cause eng trap : Nat) : State := svcStateAt s d k st cause eng trap (dieTime s d)

/-- The engines of a mask. -/
def maskEngines (m : Nat) : List Nat := (List.range 16).filter fun e => bitAt m e

/-! ## Unloading (R415) -/

/-- A port's source is released: the stream may be bound elsewhere (R393). -/
def releaseSource (s : State) (d src : Nat) : State :=
  if src < 96 then setStream s d src { streamOf s d src with service := none } else s

/-- An engine is unloaded: heap freed, sources released, derived streams deleted, EMPTY.  With it, the undelivered
envelopes discarded and the entries they held. -/
def unloadEngine (s : State) (d e : Nat) : State × (Nat × Nat) :=
  let x := engOf s d e
  let lost := x.derived.foldl (fun n i => let p := pendingEnvs (streamOf s d i); (n.1 + p.1, n.2 + p.2)) (0, 0)
  let s1 := x.ins.foldl (fun s p => releaseSource s d p.src) s
  let s2 := x.derived.foldl (fun s i => deleteStream s d i) s1
  let s3 := setPoolFree s2 d (poolFree s2 d + x.heapMib)
  (setEng s3 d e { x with
    st := .empty, ins := Engine.reset.ins, outs := Engine.reset.outs, derived := [], heapAddr := 0, heapMib := 0
    grants := 0, cache := [], slot := none }, lost)

/-! ## Instances that stop (R429 to R431) -/

/-- Every engine of an instance has left RUNNING and SWAPPING. -/
def svcQuiet (s : State) (d k : Nat) : Bool :=
  (maskEngines (svcOf s d k).mask).all fun e =>
    let x := engOf s d e
    x.st != .running && x.st != .swapping

/-- A derived stream of the instance is ROLLING (R430). -/
def svcRolls (s : State) (d k : Nat) : Bool :=
  (maskEngines (svcOf s d k).mask).any fun e => (engOf s d e).derived.any fun i => (streamOf s d i).state == .rolling

/-- RELEASE (R430): engines unloaded, input streams free, derived streams deleted, channels and slot freed; a volume command in progress is
aborted. -/
def svcRelease (s : State) (d k : Nat) : State × (Nat × Nat) :=
  let x := svcOf s d k
  let r := (maskEngines x.mask).foldl (fun (a : State × (Nat × Nat)) e =>
    let u := unloadEngine a.1 d e
    (u.1, (a.2.1 + u.2.1, a.2.2 + u.2.2))) (s, (0, 0))
  let s1 := x.inputs.foldl (fun s i => releaseSource s (i.1 / 128) (i.1 % 128)) r.1
  let s2 := (List.range 32).foldl (fun s c =>
    if bitAt x.chans c then setXfer s d c { xferOf s d c with slot := none } else s) s1
  let s3 := match x.vol with
    | some v => if v.st = 0 || v.closing then unitDone s2 v.fid (dieUid d) stAborted 0 [] (dieTime s2 d) else s2
    | none => s2
  let s4 := svcState s3 d k .none 0 0xFF 0
  (setSvc s4 d k Svc.reset, r.2)

/-- A stop that waits for the engines completes once they are quiet: STOPPED, then NONE with RELEASE (R430).  While a derived stream
ROLLS the release alone fails with BAD_STATE (log entry 143). -/
def svcCheck (s : State) (d k : Nat) : State :=
  let x := svcOf s d k
  if !(svcQuiet s d k && (x.st == .stopping || ((x.st == .fault || x.st == .stopped) && !x.stopFids.isEmpty))) then s
  else
    let s1 := if x.st == .stopping then svcState s d k .stopped 0 0xFF 0 else s
    let s2 := setSvc s1 d k { svcOf s1 d k with stopFids := [], drain := [] }
    let rolls := svcRolls s2 d k
    let r := if x.stopFids.any (·.2) && !rolls then svcRelease s2 d k else (s2, (0, 0))
    let res := leBytes 4 r.2.1 ++ leBytes 4 0 ++ leBytes 8 r.2.2
    x.stopFids.foldl (fun s f =>
      unitDone s f.1 (dieUid d) (if f.2 && rolls then stBadState else 0) 0 (if f.2 && !rolls then res else []) (dieTime s d)) r.1

/-! ## Engines that stop (R412 to R414) -/

/-- A RUNNING engine takes another state: what it waits for is abandoned, a pending swap has its point (R417), and the
commands that wait for its stop complete. -/
def leaveState (s : State) (d e : Nat) (st : EngSt) : State :=
  let x := engOf s d e
  let y := { x with
    st := st, waiting := none, stopPoint := false, stopNow := false, stopFids := []
    waited := x.waited + (if x.waiting.isSome then s.now - x.waitAt else 0)
    swap := x.swap.map fun w => if w.point = 3 then { w with point := 0 } else w }
  unitsDone (setEng s d e y) (engUid d e) 0 (dieTime s d) x.stopFids

/-- A RUNNING engine stops, which may complete the stop of its instance. -/
def leaveRunning (s : State) (d e : Nat) (st : EngSt) : State :=
  let s1 := leaveState s d e st
  match (engOf s d e).slot with
  | some k => svcCheck s1 d k
  | none => s1

/-- ENGINE_STOP NOW (R414): a heap load or cache operation in issue retires first; an engine that swaps stops on its
new physical engine. -/
def engStopNow (s : State) (d e : Nat) (fids : List Nat) : State :=
  let x := engOf s d e
  let y := { x with stopFids := x.stopFids ++ fids }
  match x.st, x.waiting with
  | .running, some (.load _ _ _) => setEng s d e { y with stopNow := true }
  | .running, some (.cache _) => setEng s d e { y with stopNow := true }
  | .running, _ => leaveRunning (setEng s d e y) d e .stopped
  | .swapping, _ => setEng s d e { y with swap := x.swap.map fun w => if w.back == .running then { w with back := .stopped } else w }
  | _, _ => unitsDone s (engUid d e) 0 (dieTime s d) fids

/-- ENGINE_STOP AT_POINT (R414): at once for an engine that waits in WAIT, else at its next CKPT or WAIT. -/
def engStopPoint (s : State) (d e : Nat) (fids : List Nat) : State :=
  let x := engOf s d e
  let y := { x with stopFids := x.stopFids ++ fids }
  match x.st, x.waiting with
  | .running, some (.wait _ _ _) => leaveRunning (setEng s d e y) d e .stopped
  | .running, _ => setEng s d e { y with stopPoint := true }
  | .swapping, _ => setEng s d e { y with swap := x.swap.map fun w => if w.back == .running then { w with back := .stopped } else w }
  | _, _ => unitsDone s (engUid d e) 0 (dieTime s d) fids

/-- An engine of an instance trapped (cause 1), halted (2) or went to sleep (3) at a die time: the instance enters FAULT, and its
other engines stop at their next point (R429).  A SERVICE_STOP in progress without RELEASE is aborted. -/
def svcFault (s : State) (d k cause e trap t : Nat) : State :=
  let x := svcOf s d k
  if x.st == .none || x.st == .fault then s
  else
    let s1 := svcStateAt s d k .fault cause e trap t
    let gone := (x.stopFids.filter fun f => !f.2).map (·.1)
    let s2 := unitsDone (setSvc s1 d k { svcOf s1 d k with stopFids := x.stopFids.filter (·.2), drain := [] }) (dieUid d) stAborted
      (dieTime s1 d) gone
    let s3 := ((maskEngines x.mask).filter (· ≠ e)).foldl (fun s e => engStopPoint s d e []) s2
    svcCheck s3 d k

/-- The instance an engine belongs to learns of its stop at a die time. -/
def svcLearns (s : State) (d e cause trap t : Nat) : State :=
  match (engOf s d e).slot with
  | some k => svcFault s d k cause e trap t
  | none => s

/-- An engine traps at a die time (R408): PC stays at the instruction, EV_ENGINE_TRAP is posted, and its instance faults (R429). -/
def engTrapAt (s : State) (d e cause : Nat) (bad : W64) (t : Nat) : State :=
  let x := engOf s d e
  let s1 := leaveState (setEng s d e { x with cause := cause, badAddr := bad }) d e .trapped
  let s2 := post s1 d 0x0801 (engUid d e) t
    (leBytes 1 cause ++ leBytes 3 0 ++ leBytes 4 x.pc ++ leBytes 8 bad.toNat)
  svcLearns s2 d e 1 cause t

/-- An engine traps now. -/
def engTrap (s : State) (d e cause : Nat) (bad : W64) : State := engTrapAt s d e cause bad (dieTime s d)

/-- UNIT_SLEEP on a RUNNING engine acts as ENGINE_STOP NOW (R414), and its instance faults (R429). -/
def engSleep (s : State) (d e : Nat) : State :=
  let s1 := svcLearns s d e 3 0 (dieTime s d)
  if (engOf s1 d e).st == .running || (engOf s1 d e).st == .swapping then engStopNow s1 d e [] else s1

/-- Entry to Safelight mode (R416, R431): every RUNNING engine of the die stops, and every instance enters STOPPED; a SERVICE_STOP in
progress completes once its engines are quiet. -/
def engSafelight (s : State) (d : Nat) : State :=
  let s1 := (List.range 8).foldl (fun s k =>
    let x := svcOf s d k
    if x.st == .none then s else svcState (setSvc s d k { x with drain := [] }) d k .stopped 4 0xFF 0) s
  let s2 := (List.range 16).foldl (fun s e =>
    if (engOf s d e).st == .running || (engOf s d e).st == .swapping then engStopNow s d e [] else s) s1
  (List.range 8).foldl (fun s k => svcCheck s d k) s2

end Sys2Proof.Machine
end

