-- ==== Sys2Proof/Machine/EngWord.lean ====
section
/-!
DEFINITION. The words of engine instructions (R387 to R391): the encoding of every engine row, and the decoder that
tells which words are instructions.
-/

namespace Sys2Proof.Machine

/-! ## Forms (R387) -/

/-- A REG or SYS form word; none when a field is out of range. -/
def encReg (op d a b f : Nat) : Option Nat :=
  if d < 32 && a < 32 && b < 32 && f < 2048 then some (op * 2 ^ 26 + d * 2 ^ 21 + a * 2 ^ 16 + b * 2 ^ 11 + f) else none

/-- An IMM form word. -/
def encImm (op d a imm : Nat) : Option Nat :=
  if d < 32 && a < 32 && imm < 2 ^ 16 then some (op * 2 ^ 26 + d * 2 ^ 21 + a * 2 ^ 16 + imm) else none

/-- A JMP form word. -/
def encJmp (op d : Nat) (imm : W21) : Option Nat :=
  if d < 32 then some (op * 2 ^ 26 + d * 2 ^ 21 + imm.toNat) else none

/-- The word of EXTR or INSR (R388): POS in [15:9], LEN - 1 in [8:3]. -/
def encField (op d a pos len : Nat) : Option Nat :=
  if pos < 128 && 1 ≤ len && len ≤ 64 then encImm op d a (pos * 512 + (len - 1) * 8) else none

/-- The word of an engine instruction (R387 to R390); none for an operand its field cannot hold. -/
def engEncode : EngOp → Option Nat
  | .engAdd d a b => encReg 0x00 d a b 0x000
  | .engSub d a b => encReg 0x00 d a b 0x001
  | .engAnd d a b => encReg 0x00 d a b 0x002
  | .engOr d a b => encReg 0x00 d a b 0x003
  | .engXor d a b => encReg 0x00 d a b 0x004
  | .andn d a b => encReg 0x00 d a b 0x005
  | .shl d a b => encReg 0x00 d a b 0x006
  | .shr d a b => encReg 0x00 d a b 0x007
  | .sar d a b => encReg 0x00 d a b 0x008
  | .ror d a b => encReg 0x00 d a b 0x009
  | .slt d a b => encReg 0x00 d a b 0x00A
  | .sltu d a b => encReg 0x00 d a b 0x00B
  | .engMin d a b => encReg 0x00 d a b 0x00C
  | .engMax d a b => encReg 0x00 d a b 0x00D
  | .minu d a b => encReg 0x00 d a b 0x00E
  | .maxu d a b => encReg 0x00 d a b 0x00F
  | .engMul d a b => encReg 0x00 d a b 0x010
  | .mulhu d a b => encReg 0x00 d a b 0x011
  | .mulh d a b => encReg 0x00 d a b 0x012
  | .clz d a => encReg 0x00 d a 0 0x013
  | .ctz d a => encReg 0x00 d a 0 0x014
  | .popc d a => encReg 0x00 d a 0 0x015
  | .bswap d a => encReg 0x00 d a 0 0x016
  | .movw d a => encReg 0x00 d a 0 0x017
  | .setside d a b => encReg 0x00 d a b 0x018
  | .getside d a => encReg 0x00 d a 0 0x019
  | .addi d a imm => encImm 0x01 d a imm.toNat
  | .andi d a imm => encImm 0x02 d a imm.toNat
  | .ori d a imm => encImm 0x03 d a imm.toNat
  | .xori d a imm => encImm 0x04 d a imm.toNat
  | .shifti d a kind amt => if kind < 4 && amt < 64 then encImm 0x05 d a (kind * 64 + amt) else none
  | .slti d a imm => encImm 0x06 d a imm.toNat
  | .sltiu d a imm => encImm 0x07 d a imm.toNat
  | .movz d k imm => if k < 4 then encImm 0x08 d k imm.toNat else none
  | .movk d k imm => if k < 4 then encImm 0x09 d k imm.toNat else none
  | .extr d a pos len => encField 0x0A d a pos len
  | .insr d a pos len => encField 0x0B d a pos len
  | .ldb d a imm => encImm 0x10 d a imm.toNat
  | .ldh d a imm => encImm 0x11 d a imm.toNat
  | .ldd d a imm => encImm 0x12 d a imm.toNat
  | .ldq d a imm => encImm 0x13 d a imm.toNat
  | .ldw d a imm => encImm 0x14 d a imm.toNat
  | .stb d a imm => encImm 0x18 d a imm.toNat
  | .sth d a imm => encImm 0x19 d a imm.toNat
  | .std d a imm => encImm 0x1A d a imm.toNat
  | .stq d a imm => encImm 0x1B d a imm.toNat
  | .stw d a imm => encImm 0x1C d a imm.toNat
  | .beq d a imm => encImm 0x20 d a imm.toNat
  | .bne d a imm => encImm 0x21 d a imm.toNat
  | .blt d a imm => encImm 0x22 d a imm.toNat
  | .bge d a imm => encImm 0x23 d a imm.toNat
  | .bltu d a imm => encImm 0x24 d a imm.toNat
  | .bgeu d a imm => encImm 0x25 d a imm.toNat
  | .jal d imm => encJmp 0x26 d imm
  | .jalr d a imm => encImm 0x27 d a imm.toNat
  | .sin d p => if p < 4 then encReg 0x30 d 0 p 0 else none
  | .sinfo d p sel => if p < 4 && sel < 4 then encReg 0x30 d sel p 1 else none
  | .savail d p => if p < 4 then encReg 0x30 d 0 p 2 else none
  | .sin2 d p => if p < 4 then encReg 0x30 d 0 p 3 else none
  | .sout q a b => if q < 2 then encReg 0x30 q a b 4 else none
  | .sspace d q => if q < 2 then encReg 0x30 d 0 q 5 else none
  | .engCrc d a b n => if n < 16 then encReg 0x32 d a b n else none
  | .engHash d a b none => encReg 0x33 d a b 0
  | .engHash d a b (some c) => if c < 16 then encReg 0x33 d a b (0x100 + c) else none
  | .engMark d a b => encReg 0x34 d a b 0
  | .trig a b => encReg 0x35 0 a b 0
  | .nop => encReg 0x38 0 0 0 0
  | .engWait d a b => encReg 0x38 d a b 1
  | .ckpt => encReg 0x38 0 0 0 2
  | .halt a => encReg 0x38 0 a 0 3
  | .engTrap code => if code < 1024 then encReg 0x38 0 (code / 32) (code % 32) 4 else none
  | .mfs d sr => encReg 0x38 d sr 0 5
  | .sev d => encReg 0x38 d 0 0 6
  | .mbxack => encReg 0x38 0 0 0 7
  | .mbxpost a => encReg 0x38 0 a 0 8
  | .cache op => if op < 2 then encReg 0x38 0 0 op 9 else none
  | .xkick a => encReg 0x38 0 a 0 0x00B

/-- The engine and instruction of an engine row. -/
def engOpOf : Instr → Option (Eng × EngOp)
  | .engAdd e d a b => some (e, .engAdd d a b)
  | .engSub e d a b => some (e, .engSub d a b)
  | .engAnd e d a b => some (e, .engAnd d a b)
  | .engOr e d a b => some (e, .engOr d a b)
  | .engXor e d a b => some (e, .engXor d a b)
  | .andn e d a b => some (e, .andn d a b)
  | .shl e d a b => some (e, .shl d a b)
  | .shr e d a b => some (e, .shr d a b)
  | .sar e d a b => some (e, .sar d a b)
  | .ror e d a b => some (e, .ror d a b)
  | .slt e d a b => some (e, .slt d a b)
  | .sltu e d a b => some (e, .sltu d a b)
  | .engMin e d a b => some (e, .engMin d a b)
  | .engMax e d a b => some (e, .engMax d a b)
  | .minu e d a b => some (e, .minu d a b)
  | .maxu e d a b => some (e, .maxu d a b)
  | .engMul e d a b => some (e, .engMul d a b)
  | .mulhu e d a b => some (e, .mulhu d a b)
  | .mulh e d a b => some (e, .mulh d a b)
  | .clz e d a => some (e, .clz d a)
  | .ctz e d a => some (e, .ctz d a)
  | .popc e d a => some (e, .popc d a)
  | .bswap e d a => some (e, .bswap d a)
  | .movw e d a => some (e, .movw d a)
  | .setside e d a b => some (e, .setside d a b)
  | .getside e d a => some (e, .getside d a)
  | .addi e d a imm => some (e, .addi d a imm)
  | .andi e d a imm => some (e, .andi d a imm)
  | .ori e d a imm => some (e, .ori d a imm)
  | .xori e d a imm => some (e, .xori d a imm)
  | .shifti e d a kind amt => some (e, .shifti d a kind amt)
  | .slti e d a imm => some (e, .slti d a imm)
  | .sltiu e d a imm => some (e, .sltiu d a imm)
  | .movz e d k imm => some (e, .movz d k imm)
  | .movk e d k imm => some (e, .movk d k imm)
  | .extr e d a pos len => some (e, .extr d a pos len)
  | .insr e d a pos len => some (e, .insr d a pos len)
  | .ldb e d a imm => some (e, .ldb d a imm)
  | .ldh e d a imm => some (e, .ldh d a imm)
  | .ldd e d a imm => some (e, .ldd d a imm)
  | .ldq e d a imm => some (e, .ldq d a imm)
  | .ldw e d a imm => some (e, .ldw d a imm)
  | .stb e d a imm => some (e, .stb d a imm)
  | .sth e d a imm => some (e, .sth d a imm)
  | .std e d a imm => some (e, .std d a imm)
  | .stq e d a imm => some (e, .stq d a imm)
  | .stw e d a imm => some (e, .stw d a imm)
  | .beq e d a imm => some (e, .beq d a imm)
  | .bne e d a imm => some (e, .bne d a imm)
  | .blt e d a imm => some (e, .blt d a imm)
  | .bge e d a imm => some (e, .bge d a imm)
  | .bltu e d a imm => some (e, .bltu d a imm)
  | .bgeu e d a imm => some (e, .bgeu d a imm)
  | .jal e d imm => some (e, .jal d imm)
  | .jalr e d a imm => some (e, .jalr d a imm)
  | .engCrc e d a b n => some (e, .engCrc d a b n)
  | .engHash e d a b cls => some (e, .engHash d a b cls)
  | .engMark e d a b => some (e, .engMark d a b)
  | .trig e a b => some (e, .trig a b)
  | .sin e d p => some (e, .sin d p)
  | .sinfo e d p sel => some (e, .sinfo d p sel)
  | .savail e d p => some (e, .savail d p)
  | .sin2 e d p => some (e, .sin2 d p)
  | .sout e q a b => some (e, .sout q a b)
  | .sspace e d q => some (e, .sspace d q)
  | .nop e => some (e, .nop)
  | .engWait e d a b => some (e, .engWait d a b)
  | .ckpt e => some (e, .ckpt)
  | .halt e a => some (e, .halt a)
  | .engTrap e code => some (e, .engTrap code)
  | .mfs e d sr => some (e, .mfs d sr)
  | .sev e d => some (e, .sev d)
  | .mbxack e => some (e, .mbxack)
  | .mbxpost e a => some (e, .mbxpost a)
  | .cache e op => some (e, .cache op)
  | .xkick e a => some (e, .xkick a)
  | _ => none

/-! ## Decoding (R387 to R391) -/

/-- The ALU functions (R389); a function without b wants that field 0. -/
def aluDecode (d a b : Nat) : Nat → Option EngOp
  | 0x000 => some (.engAdd d a b)
  | 0x001 => some (.engSub d a b)
  | 0x002 => some (.engAnd d a b)
  | 0x003 => some (.engOr d a b)
  | 0x004 => some (.engXor d a b)
  | 0x005 => some (.andn d a b)
  | 0x006 => some (.shl d a b)
  | 0x007 => some (.shr d a b)
  | 0x008 => some (.sar d a b)
  | 0x009 => some (.ror d a b)
  | 0x00A => some (.slt d a b)
  | 0x00B => some (.sltu d a b)
  | 0x00C => some (.engMin d a b)
  | 0x00D => some (.engMax d a b)
  | 0x00E => some (.minu d a b)
  | 0x00F => some (.maxu d a b)
  | 0x010 => some (.engMul d a b)
  | 0x011 => some (.mulhu d a b)
  | 0x012 => some (.mulh d a b)
  | 0x013 => if b = 0 then some (.clz d a) else none
  | 0x014 => if b = 0 then some (.ctz d a) else none
  | 0x015 => if b = 0 then some (.popc d a) else none
  | 0x016 => if b = 0 then some (.bswap d a) else none
  | 0x017 => if b = 0 then some (.movw d a) else none
  | 0x018 => some (.setside d a b)
  | 0x019 => if b = 0 then some (.getside d a) else none
  | _ => none

/-- The stream instructions (R390). -/
def streamDecode (d a b : Nat) : Nat → Option EngOp
  | 0 => if a = 0 && b < 4 then some (.sin d b) else none
  | 1 => if a < 4 && b < 4 then some (.sinfo d b a) else none
  | 2 => if a = 0 && b < 4 then some (.savail d b) else none
  | 3 => if a = 0 && b < 4 then some (.sin2 d b) else none
  | 4 => if d < 2 then some (.sout d a b) else none
  | 5 => if a = 0 && b < 2 then some (.sspace d b) else none
  | _ => none

/-- The system instructions (R390). -/
def sysDecode (d a b : Nat) : Nat → Option EngOp
  | 0 => if d = 0 && a = 0 && b = 0 then some .nop else none
  | 1 => some (.engWait d a b)
  | 2 => if d = 0 && a = 0 && b = 0 then some .ckpt else none
  | 3 => if d = 0 && b = 0 then some (.halt a) else none
  | 4 => if d = 0 then some (.engTrap (a * 32 + b)) else none
  | 5 => if b = 0 then some (.mfs d a) else none
  | 6 => if a = 0 && b = 0 then some (.sev d) else none
  | 7 => if d = 0 && a = 0 && b = 0 then some .mbxack else none
  | 8 => if d = 0 && b = 0 then some (.mbxpost a) else none
  | 9 => if d = 0 && a = 0 && b < 2 then some (.cache b) else none
  | 0x00B => if d = 0 && b = 0 then some (.xkick a) else none
  | _ => none

/-- The instruction a word is, by its fields: op [31:26], d [25:21], a [20:16], b [15:11], F [10:0] (R387). -/
def engDecode (w : Nat) : Option EngOp :=
  let d := bits w 21 5
  let a := bits w 16 5
  let b := bits w 11 5
  let f := bits w 0 11
  let imm : W16 := BitVec.ofNat 16 w
  match bits w 26 6 with
  | 0x00 => aluDecode d a b f
  | 0x01 => some (.addi d a imm)
  | 0x02 => some (.andi d a imm)
  | 0x03 => some (.ori d a imm)
  | 0x04 => some (.xori d a imm)
  | 0x05 => if bits w 8 8 = 0 then some (.shifti d a (bits w 6 2) (bits w 0 6)) else none
  | 0x06 => some (.slti d a imm)
  | 0x07 => some (.sltiu d a imm)
  | 0x08 => if a < 4 then some (.movz d a imm) else none
  | 0x09 => if a < 4 then some (.movk d a imm) else none
  | 0x0A => if bits w 0 3 = 0 then some (.extr d a (bits w 9 7) (bits w 3 6 + 1)) else none
  | 0x0B => if bits w 0 3 = 0 then some (.insr d a (bits w 9 7) (bits w 3 6 + 1)) else none
  | 0x10 => some (.ldb d a imm)
  | 0x11 => some (.ldh d a imm)
  | 0x12 => some (.ldd d a imm)
  | 0x13 => some (.ldq d a imm)
  | 0x14 => some (.ldw d a imm)
  | 0x18 => some (.stb d a imm)
  | 0x19 => some (.sth d a imm)
  | 0x1A => some (.std d a imm)
  | 0x1B => some (.stq d a imm)
  | 0x1C => some (.stw d a imm)
  | 0x20 => some (.beq d a imm)
  | 0x21 => some (.bne d a imm)
  | 0x22 => some (.blt d a imm)
  | 0x23 => some (.bge d a imm)
  | 0x24 => some (.bltu d a imm)
  | 0x25 => some (.bgeu d a imm)
  | 0x26 => some (.jal d (BitVec.ofNat 21 w))
  | 0x27 => some (.jalr d a imm)
  | 0x30 => streamDecode d a b f
  | 0x32 => if f < 16 then some (.engCrc d a b f) else none
  | 0x33 =>
    if f = 0 then some (.engHash d a b none)
    else if 0x100 ≤ f && f < 0x110 then some (.engHash d a b (some (f - 0x100))) else none
  | 0x34 => if f = 0 then some (.engMark d a b) else none
  | 0x35 => if d = 0 && f = 0 then some (.trig a b) else none
  | 0x38 => sysDecode d a b f
  | _ => none

/-- The operand values in the word are valid (R388, R390, R391, R399, R402). -/
def operandsOk : EngOp → Bool
  | .extr _ _ pos len => pos + len ≤ 72
  | .insr _ _ pos len => pos + len ≤ 72
  | .sin2 d _ => d % 2 = 0 && d < 31
  | .engCrc _ _ _ n => 1 ≤ n && n ≤ 9
  | .engMark d _ _ => d ≤ 17
  | .mfs _ sr => sr ≤ 9
  | _ => true

/-- The word is a defined instruction whose unused fields are 0 and whose operand values are valid (R391). -/
def engLegal (w : Nat) : Bool :=
  match engDecode w with
  | some i => operandsOk i
  | none => false

end Sys2Proof.Machine
end

