-- ==== Sys2Proof/Machine/Engine.lean ====
section
/-!
DEFINITION. Cufix engines: what each instruction does, and how a stalled or
waiting engine goes on (R380 to R408).  An engine row names the instruction its engine executes; it happens when the
engine runs and the word at its PC is that instruction's encoding.
-/

namespace Sys2Proof.Machine

/-! ## Registers and words (R381, R387) -/

/-- A general register: g0 reads as 0. -/
def regOf (x : Engine) (n : Nat) : BitVec 72 := if n = 0 then 0 else tget 0 x.regs n

/-- Writes a general register: writes to g0 are discarded. -/
def putReg (x : Engine) (n : Nat) (v : BitVec 72) : Engine := if n = 0 then x else { x with regs := tset 0 x.regs n v }

/-- The payload of a register. -/
def payOf (x : Engine) (n : Nat) : W64 := (regOf x n).setWidth 64

/-- A result in bits [63:0] with side byte 0. -/
def plain (v : W64) : BitVec 72 := v.setWidth 72

/-- A sign-extended immediate. -/
def sext (imm : W16) : W64 := imm.signExtend 64

/-! ## Executing (R392, R408) -/

/-- What an instruction does to its engine: retires; retires with a new PC; traps; stalls; or retires into HALTED. -/
inductive EngAct where
  | done (s : State)
  | jump (s : State) (pc : Nat)
  | trap (s : State) (cause : Nat) (bad : W64)
  | hold (s : State) (w : EngWait)
  | halt (s : State) (v : W64)

/-- The engine executes: RUNNING, not waiting, its unit AWAKE, its die not on the holding clock, no swap point reached. -/
def engReady (s : State) (d e : Nat) : Bool :=
  let x := engOf s d e
  e < 16 && x.st == .running && x.waiting.isNone && !x.stopNow && awake s (engUid d e) && !(dieClk s d).holding &&
    (match x.swap with | some w => w.point = 3 | none => true)

/-- The word at an engine's PC. -/
def engWord (s : State) (d e : Nat) : Nat := memNat s (.engCode d e) (engOf s d e).pc 4

/-- The instruction retires and PC takes a value; beyond instruction SRAM the PC is not stated (log entry 2). -/
def retireTo (s : State) (d e pc : Nat) : State :=
  let p := if pc < 0x20000 then (pc, s) else (let v := drawFree s; (v.1.toNat % 32768 * 4, v.2))
  let x := engOf p.2 d e
  setEng p.2 d e { x with pc := p.1, retired := (x.retired + 1) % 2 ^ 64 }

/-- The instruction at PC retires and the engine goes on at the next. -/
def retire (s : State) (d e : Nat) : State := retireTo s d e ((engOf s d e).pc + 4)

/-- HALT (R390, R423): the engine stops in HALTED with EV_ENGINE_HALT, and resumes after the HALT (R413). -/
def engHalt (s : State) (d e : Nat) (v : W64) : State :=
  let pc := (engOf s d e).pc
  let s1 := leaveState (retire s d e) d e .halted
  svcLearns (post s1 d 0x0802 (engUid d e) (dieTime s1 d) (leBytes 8 v.toNat ++ leBytes 4 pc)) d e 2 0 (dieTime s1 d)

/-- Carries out an instruction. -/
def engAct (d e : Nat) : EngAct → State
  | .done s => retire s d e
  | .jump s pc => retireTo s d e pc
  | .trap s cause bad => engTrap s d e cause bad
  | .hold s w => setEng s d e { engOf s d e with waiting := some w, waitAt := s.now }
  | .halt s v => engHalt s d e v

/-- Runs the instruction of an engine row: the engine executes and the word at its PC is the one given; a word with an
uncorrectable error traps ECC (R386). -/
def runEng (e : Eng) (word : Option Nat) (f : State → Engine → EngAct) (s : State) : Out :=
  onDie e.die s fun s =>
    whenB (engReady s e.die e.idx && word == some (engWord s e.die e.idx)) s fun s =>
      let x := engOf s e.die e.idx
      if x.eccCode.contains x.pc then engTrap s e.die e.idx 8 (BitVec.ofNat 64 x.pc)
      else engAct e.die e.idx (f s x)

/-- An instruction that only writes a register. -/
def regOp (e : Eng) (word : Option Nat) (d : Nat) (f : State → Engine → BitVec 72) (s : State) : Out :=
  runEng e word (fun s x => .done (setEng s e.die e.idx (putReg x d (f s x)))) s

/-- ILLEGAL with the instruction word (R391). -/
def illegal (s : State) (e : Eng) : EngAct := .trap s 1 (BitVec.ofNat 64 (engWord s e.die e.idx))

/-! ## ALU (R389) -/

/-- An ALU instruction of two payloads. -/
def alu2 (w : Option Nat) (op : W64 → W64 → W64) (e : Eng) (d a b : Nat) (s : State) : Out :=
  regOp e w d (fun _ x => plain (op (payOf x a) (payOf x b))) s

/-- An ALU instruction of one payload: b is 0. -/
def alu1 (w : Option Nat) (op : W64 → W64) (e : Eng) (d a : Nat) (s : State) : Out :=
  regOp e w d (fun _ x => plain (op (payOf x a))) s

/-- A shift amount: bits [5:0]. -/
def shAmt (b : W64) : Nat := b.toNat % 64

def ofB (b : Bool) : W64 := if b then 1 else 0

/-- ADD (R389). -/
def execEngAdd (e : Eng) (d a b : Nat) (s : State) : Out := alu2 (engEncode (.engAdd d a b)) (· + ·) e d a b s
/-- SUB (R389). -/
def execEngSub (e : Eng) (d a b : Nat) (s : State) : Out := alu2 (engEncode (.engSub d a b)) (· - ·) e d a b s
/-- AND (R389). -/
def execEngAnd (e : Eng) (d a b : Nat) (s : State) : Out := alu2 (engEncode (.engAnd d a b)) (· &&& ·) e d a b s
/-- OR (R389). -/
def execEngOr (e : Eng) (d a b : Nat) (s : State) : Out := alu2 (engEncode (.engOr d a b)) (· ||| ·) e d a b s
/-- XOR (R389). -/
def execEngXor (e : Eng) (d a b : Nat) (s : State) : Out := alu2 (engEncode (.engXor d a b)) (· ^^^ ·) e d a b s
/-- ANDN (R389). -/
def execAndn (e : Eng) (d a b : Nat) (s : State) : Out := alu2 (engEncode (.andn d a b)) (fun x y => x &&& ~~~y) e d a b s
/-- SHL (R389). -/
def execShl (e : Eng) (d a b : Nat) (s : State) : Out := alu2 (engEncode (.shl d a b)) (fun x y => x <<< shAmt y) e d a b s
/-- SHR (R389). -/
def execShr (e : Eng) (d a b : Nat) (s : State) : Out := alu2 (engEncode (.shr d a b)) (fun x y => x >>> shAmt y) e d a b s
/-- SAR (R389). -/
def execSar (e : Eng) (d a b : Nat) (s : State) : Out := alu2 (engEncode (.sar d a b)) (fun x y => x.sshiftRight (shAmt y)) e d a b s
/-- ROR (R389). -/
def execRor (e : Eng) (d a b : Nat) (s : State) : Out := alu2 (engEncode (.ror d a b)) (fun x y => x.rotateRight (shAmt y)) e d a b s
/-- SLT (R389). -/
def execSlt (e : Eng) (d a b : Nat) (s : State) : Out := alu2 (engEncode (.slt d a b)) (fun x y => ofB (x.slt y)) e d a b s
/-- SLTU (R389). -/
def execSltu (e : Eng) (d a b : Nat) (s : State) : Out := alu2 (engEncode (.sltu d a b)) (fun x y => ofB (x.ult y)) e d a b s
/-- MIN (R389). -/
def execEngMin (e : Eng) (d a b : Nat) (s : State) : Out := alu2 (engEncode (.engMin d a b)) (fun x y => if x.slt y then x else y) e d a b s
/-- MAX (R389). -/
def execEngMax (e : Eng) (d a b : Nat) (s : State) : Out := alu2 (engEncode (.engMax d a b)) (fun x y => if x.slt y then y else x) e d a b s
/-- MINU (R389). -/
def execMinu (e : Eng) (d a b : Nat) (s : State) : Out := alu2 (engEncode (.minu d a b)) (fun x y => if x.ult y then x else y) e d a b s
/-- MAXU (R389). -/
def execMaxu (e : Eng) (d a b : Nat) (s : State) : Out := alu2 (engEncode (.maxu d a b)) (fun x y => if x.ult y then y else x) e d a b s
/-- MUL (R389). -/
def execEngMul (e : Eng) (d a b : Nat) (s : State) : Out := alu2 (engEncode (.engMul d a b)) (· * ·) e d a b s
/-- MULHU (R389). -/
def execMulhu (e : Eng) (d a b : Nat) (s : State) : Out :=
  alu2 (engEncode (.mulhu d a b)) (fun x y => BitVec.ofNat 64 (x.toNat * y.toNat / 2 ^ 64)) e d a b s
/-- MULH (R389). -/
def execMulh (e : Eng) (d a b : Nat) (s : State) : Out :=
  alu2 (engEncode (.mulh d a b)) (fun x y => BitVec.ofInt 64 (x.toInt * y.toInt / 2 ^ 64)) e d a b s

/-- Leading zeros of the low `n` bits. -/
def leadZeros (v : Nat) : Nat → Nat
  | 0 => 0
  | n + 1 => if bitAt v n then 0 else 1 + leadZeros v n

/-- Trailing zeros among `n` bits from bit `k` up. -/
def trailZeros (v k : Nat) : Nat → Nat
  | 0 => 0
  | n + 1 => if bitAt v k then 0 else 1 + trailZeros v (k + 1) n

/-- Set bits among the low `n`. -/
def popCount (v : Nat) : Nat → Nat
  | 0 => 0
  | n + 1 => b2n (bitAt v n) + popCount v n

/-- CLZ (R389). -/
def execClz (e : Eng) (d a : Nat) (s : State) : Out := alu1 (engEncode (.clz d a)) (fun x => BitVec.ofNat 64 (leadZeros x.toNat 64)) e d a s
/-- CTZ (R389). -/
def execCtz (e : Eng) (d a : Nat) (s : State) : Out := alu1 (engEncode (.ctz d a)) (fun x => BitVec.ofNat 64 (trailZeros x.toNat 0 64)) e d a s
/-- POPC (R389). -/
def execPopc (e : Eng) (d a : Nat) (s : State) : Out := alu1 (engEncode (.popc d a)) (fun x => BitVec.ofNat 64 (popCount x.toNat 64)) e d a s
/-- BSWAP (R389). -/
def execBswap (e : Eng) (d a : Nat) (s : State) : Out :=
  alu1 (engEncode (.bswap d a)) (fun x => BitVec.ofNat 64 (leNat (leBytes 8 x.toNat).reverse)) e d a s
/-- MOVW (R389): all 72 bits. -/
def execMovw (e : Eng) (d a : Nat) (s : State) : Out := regOp e (engEncode (.movw d a)) d (fun _ x => regOf x a) s
/-- SETSIDE (R389). -/
def execSetside (e : Eng) (d a b : Nat) (s : State) : Out :=
  regOp e (engEncode (.setside d a b)) d (fun _ x => (payOf x b).setWidth 8 ++ payOf x a) s
/-- GETSIDE (R389). -/
def execGetside (e : Eng) (d a : Nat) (s : State) : Out :=
  regOp e (engEncode (.getside d a)) d (fun _ x => plain (((regOf x a) >>> 64).setWidth 64)) s

/-! ## Immediates (R388) -/

/-- An instruction of a payload and an immediate. -/
def immOp (w : Option Nat) (f : W64 → W16 → W64) (e : Eng) (d a : Nat) (imm : W16) (s : State) : Out :=
  regOp e w d (fun _ x => plain (f (payOf x a) imm)) s

/-- ADDI (R388). -/
def execAddi (e : Eng) (d a : Nat) (imm : W16) (s : State) : Out := immOp (engEncode (.addi d a imm)) (fun x i => x + sext i) e d a imm s
/-- ANDI (R388). -/
def execAndi (e : Eng) (d a : Nat) (imm : W16) (s : State) : Out := immOp (engEncode (.andi d a imm)) (fun x i => x &&& i.setWidth 64) e d a imm s
/-- ORI (R388). -/
def execOri (e : Eng) (d a : Nat) (imm : W16) (s : State) : Out := immOp (engEncode (.ori d a imm)) (fun x i => x ||| i.setWidth 64) e d a imm s
/-- XORI (R388). -/
def execXori (e : Eng) (d a : Nat) (imm : W16) (s : State) : Out := immOp (engEncode (.xori d a imm)) (fun x i => x ^^^ i.setWidth 64) e d a imm s
/-- SLTI (R388). -/
def execSlti (e : Eng) (d a : Nat) (imm : W16) (s : State) : Out := immOp (engEncode (.slti d a imm)) (fun x i => ofB (x.slt (sext i))) e d a imm s
/-- SLTIU (R388). -/
def execSltiu (e : Eng) (d a : Nat) (imm : W16) (s : State) : Out := immOp (engEncode (.sltiu d a imm)) (fun x i => ofB (x.ult (sext i))) e d a imm s

/-- SHIFTI (R388): kind 0 SHL, 1 SHR, 2 SAR, 3 ROR. -/
def execShifti (e : Eng) (d a kind amt : Nat) (s : State) : Out :=
  regOp e (engEncode (.shifti d a kind amt)) d (fun _ x =>
    let v := payOf x a
    plain (match kind with
      | 0 => v <<< amt
      | 1 => v >>> amt
      | 2 => v.sshiftRight amt
      | _ => v.rotateRight amt)) s

/-- MOVZ (R388). -/
def execMovz (e : Eng) (d k : Nat) (imm : W16) (s : State) : Out :=
  regOp e (engEncode (.movz d k imm)) d (fun _ _ => plain (imm.setWidth 64 <<< (16 * k))) s

/-- MOVK (R388): all other bits of d are kept. -/
def execMovk (e : Eng) (d k : Nat) (imm : W16) (s : State) : Out :=
  regOp e (engEncode (.movk d k imm)) d (fun _ x =>
    let m : BitVec 72 := (0xFFFF : BitVec 72) <<< (16 * k)
    (regOf x d &&& ~~~m) ||| (imm.setWidth 72 <<< (16 * k))) s

/-- The low `n` bits set. -/
def lowMask (n : Nat) : BitVec 72 := BitVec.ofNat 72 (2 ^ n - 1)

/-- EXTR (R388): a field of all 72 bits; POS + LEN > 72 traps ILLEGAL. -/
def execExtr (e : Eng) (d a pos len : Nat) (s : State) : Out :=
  runEng e (engEncode (.extr d a pos len)) (fun s x =>
    if 72 < pos + len then illegal s e
    else .done (setEng s e.die e.idx (putReg x d ((regOf x a >>> pos) &&& lowMask len)))) s

/-- INSR (R388): all other bits of d are kept. -/
def execInsr (e : Eng) (d a pos len : Nat) (s : State) : Out :=
  runEng e (engEncode (.insr d a pos len)) (fun s x =>
    if 72 < pos + len then illegal s e
    else
      let m := lowMask len <<< pos
      .done (setEng s e.die e.idx (putReg x d ((regOf x d &&& ~~~m) ||| ((regOf x a <<< pos) &&& m))))) s

/-! ## Data memory (R383 to R385) -/

/-- Where a data address lies. -/
inductive Area where
  | sram (a : Nat)
  | h2e (a : Nat)
  | e2h (a : Nat)
  | heap (a : Nat)

/-- The range of R383 that holds an address; a heap address is given as its HBM address. -/
def areaOf (x : Engine) (a : Nat) : Option Area :=
  if a < 0x80000 then some (.sram a)
  else if 0x100000 ≤ a && a < 0x101000 then some (.h2e a)
  else if 0x101000 ≤ a && a < 0x102000 then some (.e2h a)
  else if 2 ^ 32 ≤ a && a < 2 ^ 32 + x.heapMib * 2 ^ 20 then some (.heap (x.heapAddr + (a - 2 ^ 32)))
  else none

/-- The range allows the access (R383): a store or load, of a whole word with its side byte or not. -/
def allows (g : Option Area) (store word : Bool) : Bool :=
  match g with
  | some (.sram _) => true
  | some (.h2e _) => !store && !word
  | some _ => !word
  | none => false

/-- The trap cause of an access: MISALIGNED 2, ACCESS 3; which comes when both hold is not stated (log entry 2). -/
def accessCause (s : State) (g : Option Area) (a n : Nat) (store word : Bool) : Option Nat × State :=
  let mis := a % n ≠ 0
  let acc := !allows g store word
  if mis && acc then (let v := drawFree s; (some (if v.1.getLsbD 0 then 2 else 3), v.2))
  else (if mis then some 2 else if acc then some 3 else none, s)

/-- The key of a line's place in the cache: set and way (R385). -/
def wayKey (line w : Nat) : Nat := line % 256 * 4 + w

def wayOf (x : Engine) (line w : Nat) : Option CacheLine := tget none x.cache (wayKey line w)

/-- The way that holds a line. -/
def cacheWay (x : Engine) (line : Nat) : Option Nat :=
  (List.range 4).find? fun w => match wayOf x line w with | some l => l.line = line | none => false

/-- Writes a dirty line back to HBM, counted. -/
def writeBack (s : State) (d e : Nat) (l : CacheLine) : State :=
  if l.dirty then incF (memWrite s (.hbm d) (64 * l.line) l.data) d (fEngCacheWritebacks e) else s

/-- Fetches a line into the cache: into an empty way, or one whose line is not stated (log entry 2), written back when dirty. -/
def cacheFill (s : State) (d e line : Nat) : Nat × State :=
  let x := engOf s d e
  let pick := match (List.range 4).find? fun w => (wayOf x line w).isNone with
    | some w => (w, s)
    | none => (let v := drawFree s; (v.1.toNat % 4, v.2))
  let s1 := match wayOf x line pick.1 with
    | some l => writeBack pick.2 d e l
    | none => pick.2
  let l : CacheLine := ⟨line, false, openList s1 (regionBase (.hbm d) + 64 * line) 64⟩
  let y := engOf s1 d e
  (pick.1, setEng s1 d e { y with cache := tset none y.cache (wayKey line pick.1) (some l) })

/-- The bytes of a heap access that hits. -/
def cacheRead (x : Engine) (a n : Nat) : Option Nat :=
  match cacheWay x (a / 64) with
  | some w => (wayOf x (a / 64) w).map fun l => fld l.data (a % 64) n
  | none => none

/-- A miss is counted. -/
def countMiss (s : State) (d e : Nat) : State := incF s d (fEngCacheMisses e)

/-- A heap store: the line is fetched if it is not cached, and becomes dirty (R385). -/
def cacheWrite (s : State) (d e a n v : Nat) : State :=
  let line := a / 64
  let r := match cacheWay (engOf s d e) line with
    | some w => (w, s)
    | none => cacheFill (countMiss s d e) d e line
  let x := engOf r.2 d e
  match wayOf x line r.1 with
  | some l =>
    let o := a % 64
    let data := l.data.take o ++ leBytes n v ++ l.data.drop (o + n)
    setEng r.2 d e { x with cache := tset none x.cache (wayKey line r.1) (some ⟨line, true, data⟩) }
  | none => r.2

/-- Every dirty line goes to HBM; the lines stay clean, or are invalidated (R385). -/
def cacheFlush (s : State) (d e : Nat) (inval : Bool) : State :=
  let s1 := (engOf s d e).cache.foldl (fun s c => match c.2 with | some l => writeBack s d e l | none => s) s
  let x := engOf s1 d e
  setEng s1 d e { x with
    cache := if inval then [] else x.cache.map fun c => (c.1, c.2.map fun l => { l with dirty := false }) }

/-- The address of a load or store: a + sext(IMM16). -/
def memAddr (x : Engine) (a : Nat) (imm : W16) : W64 := payOf x a + sext imm

/-- A load of `n` bytes, or of a word with its side byte (R384). -/
def loadOp (w : Option Nat) (n : Nat) (word : Bool) (e : Eng) (d a : Nat) (imm : W16) (s : State) : Out :=
  runEng e w (fun s x =>
    let die := e.die
    let k := e.idx
    let va := memAddr x a imm
    let g := if va.toNat < 2 ^ 40 then areaOf x va.toNat else none
    let c := accessCause s g va.toNat n false word
    let fin := fun (s : State) (v : BitVec 72) => EngAct.done (setEng s die k (putReg (engOf s die k) d v))
    match c.1 with
    | some cause => .trap c.2 cause va
    | none =>
      match g with
      | some (.sram p) =>
        if x.eccData.contains (p / 8 * 8) then .trap s 8 va
        else
          let side := if word then memNat s (.engSide die k) (p / 8) 1 else 0
          fin s (BitVec.ofNat 72 (side * 2 ^ 64 + memNat s (.engData die k) p n))
      | some (.h2e p) | some (.e2h p) => fin s (BitVec.ofNat 72 (memNat s (.engData die k) p n))
      | some (.heap p) =>
        (match cacheRead x p n with
         | some v => fin s (BitVec.ofNat 72 v)
         | none => .hold (countMiss s die k) (.load d p n))
      | none => .trap s 3 va) s

/-- A store of the low `n` bytes of d, or of d with its side byte (R384). -/
def storeOp (w : Option Nat) (n : Nat) (word : Bool) (e : Eng) (d a : Nat) (imm : W16) (s : State) : Out :=
  runEng e w (fun s x =>
    let die := e.die
    let k := e.idx
    let va := memAddr x a imm
    let g := if va.toNat < 2 ^ 40 then areaOf x va.toNat else none
    let c := accessCause s g va.toNat n true word
    let v := payOf x d
    match c.1 with
    | some cause => .trap c.2 cause va
    | none =>
      match g with
      | some (.sram p) =>
        let s1 := memWrite s (.engData die k) p (leBytes n v.toNat)
        if word then
          let s2 := memWrite s1 (.engSide die k) (p / 8) (leBytes 1 (bits (regOf x d).toNat 64 8))
          .done (setEng s2 die k { engOf s2 die k with eccData := x.eccData.filter (· ≠ p) })
        else .done s1
      | some (.h2e p) | some (.e2h p) => .done (memWrite s (.engData die k) p (leBytes n v.toNat))
      | some (.heap p) => .done (cacheWrite s die k p n v.toNat)
      | none => .trap s 3 va) s

/-- LDB (R384). -/
def execLdb (e : Eng) (d a : Nat) (imm : W16) (s : State) : Out := loadOp (engEncode (.ldb d a imm)) 1 false e d a imm s
/-- LDH (R384). -/
def execLdh (e : Eng) (d a : Nat) (imm : W16) (s : State) : Out := loadOp (engEncode (.ldh d a imm)) 2 false e d a imm s
/-- LDD (R384). -/
def execLdd (e : Eng) (d a : Nat) (imm : W16) (s : State) : Out := loadOp (engEncode (.ldd d a imm)) 4 false e d a imm s
/-- LDQ (R384). -/
def execLdq (e : Eng) (d a : Nat) (imm : W16) (s : State) : Out := loadOp (engEncode (.ldq d a imm)) 8 false e d a imm s
/-- LDW (R384). -/
def execLdw (e : Eng) (d a : Nat) (imm : W16) (s : State) : Out := loadOp (engEncode (.ldw d a imm)) 8 true e d a imm s
/-- STB (R384). -/
def execStb (e : Eng) (d a : Nat) (imm : W16) (s : State) : Out := storeOp (engEncode (.stb d a imm)) 1 false e d a imm s
/-- STH (R384). -/
def execSth (e : Eng) (d a : Nat) (imm : W16) (s : State) : Out := storeOp (engEncode (.sth d a imm)) 2 false e d a imm s
/-- STD (R384). -/
def execStd (e : Eng) (d a : Nat) (imm : W16) (s : State) : Out := storeOp (engEncode (.std d a imm)) 4 false e d a imm s
/-- STQ (R384). -/
def execStq (e : Eng) (d a : Nat) (imm : W16) (s : State) : Out := storeOp (engEncode (.stq d a imm)) 8 false e d a imm s
/-- STW (R384). -/
def execStw (e : Eng) (d a : Nat) (imm : W16) (s : State) : Out := storeOp (engEncode (.stw d a imm)) 8 true e d a imm s

/-! ## Branches (R388) -/

/-- Goes to a target: not 4-byte aligned traps MISALIGNED, at or above 0x2_0000 ACCESS; which comes when both hold is
not stated (log entry 2). -/
def goTo (s : State) (t : W64) : EngAct :=
  let mis := t.toNat % 4 ≠ 0
  let acc := 0x20000 ≤ t.toNat
  if mis && acc then (let v := drawFree s; .trap v.2 (if v.1.getLsbD 0 then 2 else 3) t)
  else if mis then .trap s 2 t
  else if acc then .trap s 3 t
  else .jump s t.toNat

/-- A conditional branch: PC + 4 × sext(IMM16) when taken. -/
def branchOp (w : Option Nat) (p : W64 → W64 → Bool) (e : Eng) (d a : Nat) (imm : W16) (s : State) : Out :=
  runEng e w (fun s x =>
    if p (payOf x d) (payOf x a) then goTo s (BitVec.ofNat 64 x.pc + 4 * sext imm) else .done s) s

/-- BEQ (R388). -/
def execBeq (e : Eng) (d a : Nat) (imm : W16) (s : State) : Out := branchOp (engEncode (.beq d a imm)) (· == ·) e d a imm s
/-- BNE (R388). -/
def execBne (e : Eng) (d a : Nat) (imm : W16) (s : State) : Out := branchOp (engEncode (.bne d a imm)) (· != ·) e d a imm s
/-- BLT (R388). -/
def execBlt (e : Eng) (d a : Nat) (imm : W16) (s : State) : Out := branchOp (engEncode (.blt d a imm)) (fun x y => x.slt y) e d a imm s
/-- BGE (R388). -/
def execBge (e : Eng) (d a : Nat) (imm : W16) (s : State) : Out := branchOp (engEncode (.bge d a imm)) (fun x y => !x.slt y) e d a imm s
/-- BLTU (R388). -/
def execBltu (e : Eng) (d a : Nat) (imm : W16) (s : State) : Out := branchOp (engEncode (.bltu d a imm)) (fun x y => x.ult y) e d a imm s
/-- BGEU (R388). -/
def execBgeu (e : Eng) (d a : Nat) (imm : W16) (s : State) : Out := branchOp (engEncode (.bgeu d a imm)) (fun x y => !x.ult y) e d a imm s

/-- A jump that links: d := PC + 4 once the target is allowed (a trap has no effect, R408). -/
def linkTo (s : State) (e : Eng) (x : Engine) (d : Nat) (t : W64) : EngAct :=
  match goTo s t with
  | .jump s pc => .jump (setEng s e.die e.idx (putReg x d (plain (BitVec.ofNat 64 (x.pc + 4))))) pc
  | r => r

/-- JAL (R388). -/
def execJal (e : Eng) (d : Nat) (imm : W21) (s : State) : Out :=
  runEng e (engEncode (.jal d imm)) (fun s x => linkTo s e x d (BitVec.ofNat 64 x.pc + 4 * imm.signExtend 64)) s

/-- JALR (R388). -/
def execJalr (e : Eng) (d a : Nat) (imm : W16) (s : State) : Out :=
  runEng e (engEncode (.jalr d a imm)) (fun s x => linkTo s e x d (payOf x a + sext imm)) s

/-! ## CRC and hash (R402) -/

/-- A register's byte string: payload bytes, then the side byte. -/
def regString (v : BitVec 72) : List Byte := leBytes 9 v.toNat

/-- CRC (R402). -/
def execEngCrc (e : Eng) (d a b n : Nat) (s : State) : Out :=
  runEng e (engEncode (.engCrc d a b n)) (fun s x =>
    if 1 ≤ n && n ≤ 9 then
      let c := crcUpdate ((payOf x a).setWidth 32) ((regString (regOf x b)).take n)
      .done (setEng s e.die e.idx (putReg x d (c.setWidth 72)))
    else illegal s e) s

/-- HASH (R402). -/
def execEngHash (e : Eng) (d a b : Nat) (cls : Option Nat) (s : State) : Out :=
  runEng e (engEncode (.engHash d a b cls)) (fun s x =>
    let mid := match cls with | some c => leBytes 1 c | none => []
    let h := crc32c (leBytes 4 (bits (payOf x a).toNat 0 32) ++ mid ++ regString (regOf x b))
    .done (setEng s e.die e.idx (putReg x d (h.setWidth 72)))) s

/-! ## Marks and candidates (R399, R400) -/

/-- MARK (R399, R191): MK_USER of ORIGIN 3, late when its time lies before the last committed entry. -/
def execEngMark (e : Eng) (d a b : Nat) (s : State) : Out :=
  runEng e (engEncode (.engMark d a b)) (fun s x =>
    let die := e.die
    if 17 < d then illegal s e
    else if !takesMarks s die d then .done (incF s die (fEngLostMarks e.idx))
    else
      let t : Stamp := if payOf x b = 0 then nowStamp s die else payOf x b
      let data := bits (payOf x a).toNat 0 56
      let y := streamOf s die d
      if physFine s die t < y.lastPhys then
        .done (setStream s die d { y with lateMarks := y.lateMarks ++ [markWord 0x20 data 3 1] })
      else .done (addMark s die d 0x20 data 3 0 t)) s

/-- TRIG (R400, R260): a coarse-only candidate at the tick of the TRIG. -/
def execTrig (e : Eng) (a b : Nat) (s : State) : Out :=
  runEng e (engEncode (.trig a b)) (fun s x =>
    .done (giveCand s e.die (0x28 + e.idx) (bits (payOf x a).toNat 0 24) (nowStamp s e.die) (payOf x b) true)) s

/-! ## Input ports (R393 to R397) -/

/-- Entries a bound stream has for a port: of undelivered envelopes, and of the open one of a Roll or derived stream. -/
def streamAvail (x : Stream) (i : Nat) : Nat :=
  let full := (x.spool.drop x.ndeliv).foldl (fun n e => n + e.words.length) 0
  let part := if isExpo i then 0 else (x.openEnv.map (·.words.length)).getD 0
  full + part - x.pos

/-- Entries an input port has. -/
def portAvail (s : State) (d : Nat) (p : EngIn) : Nat :=
  if p.src < 96 then streamAvail (streamOf s d p.src) p.src else p.fifo.length

/-- An input port is bound. -/
def portBound (p : EngIn) : Bool := p.src ≠ 0xFF

/-- The next entry of a bound stream: word and information (R395); an envelope whose last entry is taken is delivered
(R394). -/
def streamTake (s : State) (d i : Nat) : Option ((BitVec 72 × PortInfo) × State) :=
  let x := streamOf s d i
  let closed := x.spool[x.ndeliv]?
  let env := match closed with
    | some e => some e
    | none => if isExpo i then none else x.openEnv.map fun (e : Env) => { e with seq := x.seqNext }
  match env with
  | none => none
  | some e =>
    match e.words[x.pos]? with
    | none => none
    | some w =>
      let info : PortInfo := {
        time := (e.times[x.pos]?).getD 0
        sel1 := e.stream * 2 ^ 48 + e.seq
        sel2 := e.seg
        sel3 := b2n w.mark + 2 * b2n (x.pos = 0) + 4 * b2n e.segFirst + 8 * b2n e.segLast + 16 * b2n e.stale + 256 * e.format }
      let s1 := setStream s d i { x with pos := x.pos + 1 }
      some ((wordBits w, info), if closed.isSome && x.pos + 1 = e.words.length then takeWhole s1 d i else s1)

/-- The next entry of an input port of an engine. -/
def portTake (s : State) (d e p : Nat) : Option (BitVec 72 × State) :=
  let x := engOf s d e
  let q := inPort x p
  if q.src < 96 then
    (streamTake s d q.src).map fun r =>
      let y := engOf r.2 d e
      (r.1.1, setEng r.2 d e (setIn y p { inPort y p with last := some r.1.2 }))
  else
    match q.fifo with
    | [] => none
    | w :: l => some (w.word, setEng s d e (setIn x p { q with fifo := l, last := some ⟨w.time, 0, 0, 2 * b2n w.first⟩ }))

/-- A stop in mode DRAIN has drained a stream to a SEQ: nothing formed before it is undelivered (R430). -/
def drained (s : State) (p : Nat × Nat) : Bool :=
  let x := streamOf s (p.1 / 128) (p.1 % 128)
  match x.spool[x.ndeliv]? with
  | none => true
  | some e => (p.2 + 2 ^ 48 - e.seq) % 2 ^ 48 = 0 || 2 ^ 47 ≤ (p.2 + 2 ^ 48 - e.seq) % 2 ^ 48

/-- Drained input streams leave a DRAIN stop; with the last of them the engines stop at their next point (R430). -/
def svcDrain (s : State) (d k : Nat) : State :=
  let x := svcOf s d k
  if x.st != .stopping || x.drain.isEmpty then s
  else
    let left := x.drain.filter fun p => !drained s p
    let s1 := setSvc s d k { x with drain := left }
    if left.isEmpty then svcCheck ((maskEngines x.mask).foldl (fun s e => engStopPoint s d e []) s1) d k else s1

/-- The service of an engine sees what its ports took. -/
def engDrains (s : State) (d e : Nat) : State :=
  match (engOf s d e).slot with
  | some k => svcDrain s d k
  | none => s

/-- Takes one entry into a register; none when the port is empty. -/
def takeOne (s : State) (e : Eng) (d p : Nat) : Option State :=
  (portTake s e.die e.idx p).map fun r => setEng r.2 e.die e.idx (putReg (engOf r.2 e.die e.idx) d r.1)

/-- Takes two entries. -/
def takeTwo (s : State) (e : Eng) (d p : Nat) : Option State :=
  if portAvail s e.die (inPort (engOf s e.die e.idx) p) < 2 then none
  else (takeOne s e d p).bind fun s => takeOne s e (d + 1) p

/-- PORT with the port number (R408). -/
def portTrap (s : State) (p : Nat) : EngAct := .trap s 5 (BitVec.ofNat 64 p)

/-- SIN (R394, R397): the next entry, or a stall. -/
def execSin (e : Eng) (d p : Nat) (s : State) : Out :=
  runEng e (engEncode (.sin d p)) (fun s x =>
    if !portBound (inPort x p) then portTrap s p
    else match takeOne s e d p with
      | some s1 => .done (engDrains s1 e.die e.idx)
      | none => .hold s .sin) s

/-- SIN2 (R390, R397). -/
def execSin2 (e : Eng) (d p : Nat) (s : State) : Out :=
  runEng e (engEncode (.sin2 d p)) (fun s x =>
    if d % 2 ≠ 0 || 31 ≤ d then illegal s e
    else if !portBound (inPort x p) then portTrap s p
    else match takeTwo s e d p with
      | some s1 => .done (engDrains s1 e.die e.idx)
      | none => .hold s .sin) s

/-- SINFO (R395): about the last entry taken; before any it is not stated (log entry 2). -/
def execSinfo (e : Eng) (d p sel : Nat) (s : State) : Out :=
  runEng e (engEncode (.sinfo d p sel)) (fun s x =>
    let q := inPort x p
    if !portBound q then portTrap s p
    else
      let v := match q.last with
        | some i => ((match sel with
            | 0 => i.time
            | 1 => BitVec.ofNat 64 i.sel1
            | 2 => BitVec.ofNat 64 i.sel2
            | _ => BitVec.ofNat 64 i.sel3 : W64), s)
        | none => drawFree s
      .done (setEng v.2 e.die e.idx (putReg (engOf v.2 e.die e.idx) d (plain v.1)))) s

/-- SAVAIL (R390, R394): entries in the port's FIFO, at most 1,024 of a stream's. -/
def execSavail (e : Eng) (d p : Nat) (s : State) : Out :=
  runEng e (engEncode (.savail d p)) (fun s x =>
    let q := inPort x p
    if !portBound q then portTrap s p
    else
      let n := portAvail s e.die q
      .done (setEng s e.die e.idx (putReg x d (BitVec.ofNat 72 (if q.src < 96 then min 1024 n else n))))) s

/-! ## Output ports (R398) -/

def outPort (x : Engine) (q : Nat) : EngOut := (x.outs[q]?).getD EngOut.reset

/-- Free entries of an output port: 0 while its stream cannot take entries. -/
def outSpace (s : State) (d : Nat) (o : EngOut) : Nat :=
  let y := streamOf s d o.stream
  if o.stream < 96 && y.state == .rolling && y.tStop.isNone && awake s (streamUid d o.stream) then 256 - y.look.length else 0

/-- The mark codes of R185. -/
def markCodes : List Nat := [0x01, 0x02, 0x03, 0x04, 0x05, 0x06, 0x07, 0x08, 0x09, 0x0A, 0x10, 0x20, 0x21]

/-- The capture word a register spells; a MARK's ORIGIN becomes 3 (R398). -/
def outWord (v : BitVec 72) : CWord :=
  let side : Byte := (v >>> 64).setWidth 8
  let mark := bits side.toNat 6 2 = 2
  ⟨v.setWidth 64, if mark then side ||| 0x30 else side, mark⟩

/-- Writes an entry to an output port that has space: committed in the order of SOUT, or, while HBM is held, kept in
the port's FIFO. -/
def outPut (s : State) (e : Eng) (q : Nat) (w : CWord) (t : Stamp) : State :=
  let d := e.die
  let x := engOf s d e.idx
  let o := outPort x q
  let i := o.stream
  let s1 := setEng s d e.idx { x with outs := x.outs.set q { o with lastTime := some t } }
  let y := streamOf s1 d i
  let en : Entry := ⟨t, s.now * 256, 13, 0, w, false, false, 0, true⟩
  if (dieClk s d).hbmHeld || !y.look.isEmpty then setStream s1 d i { y with look := y.look ++ [en] }
  else rollCommit s1 d i en

/-- SOUT's traps and its effect: PORT, STREAM_ORDER, MARK_CODE; else the entry is written, or the engine stalls. -/
def soutAct (s : State) (e : Eng) (q a b : Nat) : EngAct :=
  let x := engOf s e.die e.idx
  let o := outPort x q
  let t := payOf x b
  let w := outWord (regOf x a)
  let code := bits w.pay.toNat 56 8
  let early := match o.lastTime with | some l => stampLt t l | none => false
  if o.stream = 0xFF then portTrap s q
  else if early then .trap s 4 t
  else if w.mark && !markCodes.contains code then .trap s 10 (BitVec.ofNat 64 code)
  else if outSpace s e.die o = 0 then .hold s .sout
  else .done (outPut s e q w t)

/-- SOUT (R398). -/
def execSout (e : Eng) (q a b : Nat) (s : State) : Out :=
  runEng e (engEncode (.sout q a b)) (fun s _ => soutAct s e q a b) s

/-- SSPACE (R390, R398). -/
def execSspace (e : Eng) (d q : Nat) (s : State) : Out :=
  runEng e (engEncode (.sspace d q)) (fun s x =>
    let o := outPort x q
    if o.stream = 0xFF then portTrap s q
    else .done (setEng s e.die e.idx (putReg x d (BitVec.ofNat 72 (outSpace s e.die o))))) s

/-! ## System instructions (R382, R390, R401, R403 to R407) -/

/-- NOP (R390). -/
def execNop (e : Eng) (s : State) : Out := runEng e (engEncode .nop) (fun s _ => .done s) s

/-- The mask bits of a WAIT whose conditions hold (R403). -/
def waitBits (s : State) (d : Nat) (x : Engine) (mask : Nat) : Nat :=
  let hold := fun (n : Nat) =>
    if n < 4 then 0 < portAvail s d (inPort x n)
    else if n < 6 then 0 < outSpace s d (outPort x (n - 4))
    else if n = 6 then x.h2e ≠ 0
    else if n = 7 then x.e2h = 0
    else if n = 8 then !x.evq.isEmpty
    else x.chanSig
  ((List.range 10).filter fun n => bitAt mask n && hold n).foldl (fun a n => a + 2 ^ n) 0

/-- A WAIT returns a value in d: reporting bit 9 clears it (R403). -/
def waitDone (x : Engine) (d v : Nat) : Engine :=
  putReg { x with chanSig := x.chanSig && !bitAt v 9 } d (BitVec.ofNat 72 v)

/-- WAIT (R403, R405, R417): the watchdog's count restarts; a pending swap, or an AT_POINT stop, takes place before the
conditions are tested; a condition that holds, or a deadline that has passed, returns at once. -/
def execEngWait (e : Eng) (d a b : Nat) (s : State) : Out :=
  onDie e.die s fun s =>
    let x := engOf s e.die e.idx
    if engReady s e.die e.idx && engEncode (.engWait d a b) == some (engWord s e.die e.idx) && !x.eccCode.contains x.pc &&
        bits (payOf x a).toNat 10 54 = 0 && (x.swap.isSome || x.stopPoint) then
      match x.swap with
      | some w => setEng s e.die e.idx { x with swap := some { w with point := 2 } }
      | none => leaveRunning s e.die e.idx .stopped
    else
      whenB (engReady s e.die e.idx && engEncode (.engWait d a b) == some (engWord s e.die e.idx)) s fun s =>
        if x.eccCode.contains x.pc then engTrap s e.die e.idx 8 (BitVec.ofNat 64 x.pc)
        else
          let mask := (payOf x a).toNat
          let dl := payOf x b
          let y := { x with wdogCnt := 0, wdogAt := s.now }
          let v := waitBits s e.die x mask
          engAct e.die e.idx (
            if bits mask 10 54 ≠ 0 then illegal s e
            else if v ≠ 0 then .done (setEng s e.die e.idx (waitDone y d v))
            else if dl ≠ 0 && stampLt dl (nowStamp s e.die) then .done (setEng s e.die e.idx (waitDone y d 0x8000))
            else .hold (setEng s e.die e.idx y)
              (.wait d mask (if dl = 0 then none else some (s.now + ticksUntil s e.die dl))))

/-- CKPT (R405, R414, R417): the watchdog's count restarts; a pending swap, or an AT_POINT stop, takes place after it. -/
def execCkpt (e : Eng) (s : State) : Out :=
  onDie e.die s fun s =>
    whenB (engReady s e.die e.idx && engEncode .ckpt == some (engWord s e.die e.idx)) s fun s =>
      let x := engOf s e.die e.idx
      if x.eccCode.contains x.pc then engTrap s e.die e.idx 8 (BitVec.ofNat 64 x.pc)
      else
        let s1 := retire (setEng s e.die e.idx { x with wdogCnt := 0, wdogAt := s.now }) e.die e.idx
        let y := engOf s1 e.die e.idx
        match y.swap with
        | some w => setEng s1 e.die e.idx { y with swap := some { w with point := 1 } }
        | none => if y.stopPoint then leaveRunning s1 e.die e.idx .stopped else s1

/-- HALT (R390). -/
def execHalt (e : Eng) (a : Nat) (s : State) : Out :=
  runEng e (engEncode (.halt a)) (fun s x => .halt s (payOf x a)) s

/-- TRAP (R390, R408): BREAK with the code. -/
def execEngTrap (e : Eng) (code : Nat) (s : State) : Out :=
  runEng e (engEncode (.engTrap code))
    (fun s _ => .trap s 6 (BitVec.ofNat 64 code)) s

/-- The special registers of R382. -/
def special (s : State) (d e : Nat) (x : Engine) : Nat → Option W64
  | 0 => some (BitVec.ofNat 64 (engUid d e))
  | 1 => some (nowStamp s d)
  | 2 => some x.arg0
  | 3 => some x.arg1
  | 4 => some (BitVec.ofNat 64 x.heapMib)
  | 5 => some (BitVec.ofNat 64 x.phys)
  | 6 => some (BitVec.ofNat 64 x.evq.length)
  | 7 => some (BitVec.ofNat 64 x.h2e)
  | 8 => some (ofB (x.e2h ≠ 0))
  | 9 => some (BitVec.ofNat 64 x.retired)
  | _ => none

/-- MFS (R382). -/
def execMfs (e : Eng) (d sr : Nat) (s : State) : Out :=
  runEng e (engEncode (.mfs d sr)) (fun s x =>
    match special s e.die e.idx x sr with
    | some v => .done (setEng s e.die e.idx (putReg x d (plain v)))
    | none => illegal s e) s

/-- SEV (R401): pops the oldest Shutter event, or gives 0. -/
def execSev (e : Eng) (d : Nat) (s : State) : Out :=
  runEng e (engEncode (.sev d)) (fun s x =>
    match x.evq with
    | [] => .done (setEng s e.die e.idx (putReg x d 0))
    | v :: r =>
      let side := BitVec.ofNat 8 (v.id % 64 + 64 * b2n v.lost + 128)
      .done (setEng s e.die e.idx (putReg { x with evq := r } d (side ++ v.time)))) s

/-- MBXACK (R407). -/
def execMbxack (e : Eng) (s : State) : Out :=
  runEng e (engEncode .mbxack) (fun s x => .done (setEng s e.die e.idx { x with h2e := 0 })) s

/-- MBXPOST (R407): posts the engine's message, with the interrupt of ENG_MBX on the primary port. -/
def execMbxpost (e : Eng) (a : Nat) (s : State) : Out :=
  runEng e (engEncode (.mbxpost a)) (fun s x =>
    let n := bits (payOf x a).toNat 0 13
    if x.e2h ≠ 0 || n = 0 || 4096 < n then .trap s 9 (BitVec.ofNat 64 n)
    else
      let s1 := setEng s e.die e.idx { x with e2h := n }
      .done (if flagF s1 e.die (fEngMbxIrqEn e.idx) then raiseIrq s1 (primaryPort s1) (getF s1 e.die (fEngMbxVector e.idx))
        else s1)) s

/-- CACHE (R385): the engine stalls until the operation is complete. -/
def execCache (e : Eng) (op : Nat) (s : State) : Out :=
  runEng e (engEncode (.cache op)) (fun s _ => .hold s (.cache (op = 1))) s

/-- XKICK (R390): kicks a granted channel; another traps ACCESS. -/
def execXkick (e : Eng) (a : Nat) (s : State) : Out :=
  runEng e (engEncode (.xkick a)) (fun s x =>
    let c := bits (payOf x a).toNat 0 5
    if bitAt x.grants c then .done (xferKick s e.die c) else .trap s 3 (BitVec.ofNat 64 c)) s

/-! ## Undefined words (R391) -/

/-- ILLEGAL_INSTRUCTION (R391): the word at PC is not a valid instruction; the engine traps ILLEGAL. -/
def execIllegalInstruction (e : Eng) (s : State) : Out :=
  onDie e.die s fun s =>
    let x := engOf s e.die e.idx
    let w := engWord s e.die e.idx
    whenB (engReady s e.die e.idx && !engLegal w) s fun s =>
      if x.eccCode.contains x.pc then engTrap s e.die e.idx 8 (BitVec.ofNat 64 x.pc)
      else engTrap s e.die e.idx 1 (BitVec.ofNat 64 w)

/-! ## Waits and stalls that end (R385, R392, R397, R398, R403) -/

/-- The engine's clock runs, so that a wait or stall can end. -/
def engClocked (s : State) (d e : Nat) : Bool :=
  let x := engOf s d e
  e < 16 && x.st == .running && !(dieClk s d).holding && (match x.swap with | some w => w.point = 3 | none => true)

/-- A stall or wait ends at a tick; its ticks are counted (ENG_WAITED). -/
def unstallAt (s : State) (d e t : Nat) : State :=
  let x := engOf s d e
  setEng s d e { x with waiting := none, waited := x.waited + (t - x.waitAt) }

/-- A stall or wait ends now. -/
def unstall (s : State) (d e : Nat) : State := unstallAt s d e s.now

/-- After a heap load or cache operation retires, a stop that waited for it takes place (R414). -/
def thenStop (s : State) (d e : Nat) : State :=
  if (engOf s d e).stopNow then leaveRunning s d e .stopped else s

/-- WAIT_RETURN (R403, R405): a condition holds, or the tick of the deadline has passed without one, so that a condition that comes
true in that tick wins (R10). -/
def execWaitReturn (d e : Nat) (s : State) : Out :=
  onDie d s fun s =>
    let x := engOf s d e
    match x.waiting with
    | some (.wait r mask dl) =>
      let v := waitBits s d x mask
      let due := match dl with | some t => decide (t < s.now) | none => false
      let t := if v ≠ 0 then s.now else dl.getD s.now
      whenB (engClocked s d e && (v ≠ 0 || due)) s fun s =>
        let s1 := unstallAt s d e t
        let y := { engOf s1 d e with wdogCnt := 0, wdogAt := t }
        retire (setEng s1 d e (waitDone y r (if v ≠ 0 then v else 0x8000))) d e
    | _ => s

/-- SIN_RESUME (R397): the stalled SIN or SIN2 at PC has its entries. -/
def execSinResume (d e : Nat) (s : State) : Out :=
  onDie d s fun s =>
    let x := engOf s d e
    let w := engWord s d e
    let r := if bits w 0 11 = 3 then takeTwo s ⟨d, e⟩ (bits w 21 5) (bits w 11 2) else takeOne s ⟨d, e⟩ (bits w 21 5) (bits w 11 2)
    match r with
    | some s1 => whenB (engClocked s d e && x.waiting == some .sin) s fun _ => engDrains (retire (unstall s1 d e) d e) d e
    | none => s

/-- SOUT_RESUME (R398): the stalled SOUT at PC has room. -/
def execSoutResume (d e : Nat) (s : State) : Out :=
  onDie d s fun s =>
    let x := engOf s d e
    let w := engWord s d e
    whenB (engClocked s d e && x.waiting == some .sout) s fun s =>
      match soutAct (unstall s d e) ⟨d, e⟩ (bits w 21 1) (bits w 16 5) (bits w 11 5) with
      | .hold _ _ => s
      | r => engAct d e r

/-- HEAP_LOAD_COMPLETE (R392, R385): the line has come into the cache, and the load retires. -/
def execHeapLoadComplete (d e : Nat) (s : State) : Out :=
  onDie d s fun s =>
    match (engOf s d e).waiting with
    | some (.load r a n) =>
      whenB (engClocked s d e) s fun s =>
        let s1 := (cacheFill (unstall s d e) d e (a / 64)).2
        let y := engOf s1 d e
        thenStop (retire (setEng s1 d e (putReg y r (BitVec.ofNat 72 ((cacheRead y a n).getD 0)))) d e) d e
    | _ => s

/-- CACHE_DONE (R385). -/
def execCacheDone (d e : Nat) (s : State) : Out :=
  onDie d s fun s =>
    match (engOf s d e).waiting with
    | some (.cache inval) =>
      whenB (engClocked s d e) s fun s => thenStop (retire (cacheFlush (unstall s d e) d e inval) d e) d e
    | _ => s

/-- Ticks per issue at a throttle level (R563). -/
def throttleDiv (level : Nat) : Nat := if level ≤ 1 then 1 else if level = 2 then 2 else 4

/-- The watchdog's count: ticks of RUNNING time outside WAIT in which the engine may issue (R405, R563). -/
def wdogCount (s : State) (d : Nat) (x : Engine) : Nat :=
  match x.waiting with
  | some (.wait _ _ _) => 0
  | _ => x.wdogCnt + (s.now - x.wdogAt) / throttleDiv (getF s d fPwrStatThrottle)

/-- The physical tick in which the watchdog's count reaches its limit, unless a CKPT or WAIT comes first. -/
def wdogTick (s : State) (d : Nat) (x : Engine) : Nat :=
  x.wdogAt + (2 ^ x.wdog - x.wdogCnt) * throttleDiv (getF s d fPwrStatThrottle)

/-- WATCHDOG_EXPIRY (R405): the count has reached 2^WDOG_LOG2, and the tick in which it did has passed, for a CKPT of that tick
counts first; a stalled instruction is given up. -/
def execWatchdogExpiry (d e : Nat) (s : State) : Out :=
  onDie d s fun s =>
    let x := engOf s d e
    let waits : Bool := match x.waiting with | some (.wait _ _ _) => true | _ => false
    whenB (engClocked s d e && x.wdog ≠ 0 && !waits && wdogTick s d x < s.now) s fun s =>
      engTrapAt s d e 7 0 (tickAt s d (wdogTick s d x))

end Sys2Proof.Machine
end

