-- ==== Sys2Proof/Machine/EngCmd.lean ====
section
/-!
DEFINITION. Engine commands, the mailbox doorbells, and the beginning of a swap (R393, R398, R407, R411 to R422).
-/

namespace Sys2Proof.Machine

def engStCode : EngSt → Nat
  | .empty => 0
  | .loaded => 1
  | .running => 2
  | .stopped => 3
  | .halted => 4
  | .trapped => 5
  | .swapping => 6

/-! ## IMAGE_LOAD and IMAGE_UNLOAD -/

/-- The device can read host memory through a port: link up and Bus Master Enable set. -/
def hostReadable (s : State) (p : Nat) : Bool := linkUp s p && (portOf s p).busMaster

/-- An image of `n` bytes read from host memory (R411). -/
def readImage (s : State) (p a n : Nat) : List Byte := memRead s (.host p) a n

/-- The status a rejection completes with (R423). -/
def rejectStatus (reason : Nat) : Nat := if 3 ≤ reason then stAuthFailed else stBadPayload

/-- An image is rejected (R423, R587): EV_IMAGE_REJECTED of an engine (for a service the first that the request names; log entry 142), and for a failed authentication EV_AUTH_FAIL with the
failures counted from IMAGE_LOAD (2) or SERVICE_START (3). -/
def rejectImage (s : State) (d u eng via reason : Nat) (p : List Byte) : State :=
  let id := leBytes 8 (imgReportId p)
  let s1 := post s d 0x0803 eng (dieTime s d) (leBytes 1 reason ++ leBytes 7 0 ++ id)
  if reason < 3 then s1
  else
    let x := s1.sec
    let n := (if via = 2 then x.loadFails else x.svcFails) + 1
    let y := if via = 2 then { x with loadFails := n } else { x with svcFails := n }
    post { s1 with sec := y } d 0x0E01 u (dieTime s d) (leBytes 1 via ++ leBytes 1 reason ++ leBytes 1 (min 255 n) ++ leBytes 5 0 ++ id)

def imageLoadDef : CmdDef where
  op := 0x0801
  cls := onClass clEngine
  onGroup := false
  payOk := fun _ c => fld c.payload 0 8 % 8 = 0 && fld c.payload 8 4 ≤ 2 ^ 20 && restOk c 12
  eff := fun c _ u s =>
    let d := uDie u
    let e := uIdx u
    let x := engOf s d e
    if x.slot.isSome then (s, err stNotPermitted)
    else if x.st == .running || x.st == .swapping || !awake s u then (s, err stBadState)
    else if !hostReadable s c.port then (s, err stHostReadError)
    else
      let p := readImage s c.port (fld c.payload 0 8) (fld c.payload 8 4)
      match imgFault s [2, 3, 4] p with
      | some r => (rejectImage s d u u 2 r p, err (rejectStatus r))
      | none =>
        if !heapFits s d e (imgHeap p) then (s, err stNoResource)
        else
          let s1 := addMeasure (placeImage s d e (placeOf p)) d e p (dieTime s d)
          let y := engOf s1 d e
          (s1, .done 0 (leBytes 8 y.heapAddr ++ leBytes 4 y.heapMib) 0)

/-- IMAGE_LOAD (R411). -/
def execImageLoad (c : Cmd) (s : State) : Out := startCmd imageLoadDef c s

def imageUnloadDef : CmdDef where
  op := 0x0802
  cls := onClass clEngine
  onGroup := false
  payOk := restZero 0
  eff := fun _ _ u s =>
    let d := uDie u
    let x := engOf s d (uIdx u)
    if x.slot.isSome then (s, err stNotPermitted)
    else if x.st == .running || x.st == .swapping || x.derived.any (fun i => (streamOf s d i).state == .rolling) then
      (s, err stBadState)
    else
      let r := unloadEngine s d (uIdx u)
      (r.1, .done 0 (leBytes 4 r.2.1 ++ leBytes 4 0 ++ leBytes 8 r.2.2) 0)

/-- IMAGE_UNLOAD (R415). -/
def execImageUnload (c : Cmd) (s : State) : Out := startCmd imageUnloadDef c s

/-! ## ENGINE_START (R393, R398, R413) -/

/-- What ENGINE_START gives an engine: input sources, output streams, grants, EV_MASK, arguments, WDOG_LOG2. -/
structure EngSet where
  ins : List Nat
  outs : List Nat
  grants : Nat
  evMask : W64
  arg0 : W64
  arg1 : W64
  wdog : Nat

def srcOk (v : Nat) : Bool := v < 18 || (32 ≤ v && v < 96) || v = 0xF0 || v = 0xF1 || v = 0xFF

def dstOk (v : Nat) : Bool := (32 ≤ v && v < 96) || v = 0xFF

/-- The first failure of a list of bindings (R393): a stream that does not exist, one taken elsewhere or twice, or an
Exposure stream in KEEP delivery. -/
def insFail (s : State) (d e : Nat) : List Nat → List Nat → Option Nat
  | _, [] => none
  | seen, v :: r =>
    let y := streamOf s d v
    if v = 0xFF then insFail s d e seen r
    else if v < 96 && !y.present then some stBadPayload
    else if seen.contains v then some stBusy
    else if v < 96 && (y.ring.isSome || !(y.service = none || (y.service = some e && y.serviceDie = d))) then some stBusy
    else if 96 ≤ v && (match boundPort s d v with | some (k, _) => k ≠ e | none => false) then some stBusy
    else if isExpo v && y.keep then some stNotPermitted
    else insFail s d e (v :: seen) r

/-- An output stream another engine owns (R398). -/
def outBusy (s : State) (d e v : Nat) : Bool :=
  v ≠ 0xFF && (List.range 16).any fun k => k ≠ e && (engOf s d k).derived.contains v

/-- A port the image uses that the settings leave unbound (R413). -/
def unboundUse (inUse outUse : Nat) (g : EngSet) : Bool :=
  ((List.range 4).any fun p => bitAt inUse p && (g.ins[p]?).getD 0xFF = 0xFF) ||
    ((List.range 2).any fun q => bitAt outUse q && (g.outs[q]?).getD 0xFF = 0xFF)

/-- A granted channel belongs to a service. -/
def grantTaken (s : State) (d grants : Nat) (slot : Option Nat) : Bool :=
  (List.range 32).any fun c => bitAt grants c && (xferOf s d c).slot ≠ none && (xferOf s d c).slot ≠ slot

/-- Why an engine's settings cannot apply, if they cannot; the image's ports are given. -/
def setFail (s : State) (d e inUse outUse : Nat) (g : EngSet) : Option Nat :=
  if unboundUse inUse outUse g then some stBadPayload
  else if g.outs.any (outBusy s d e) then some stBusy
  else if grantTaken s d g.grants (engOf s d e).slot then some stNotPermitted
  else insFail s d e [] g.ins

/-- Binds the input sources: those given up are released, those taken are consumed (R393). -/
def bindIns (s : State) (d e : Nat) (ins : List Nat) : State :=
  let x := engOf s d e
  let s1 := x.ins.foldl (fun s p => if ins.contains p.src then s else releaseSource s d p.src) s
  let s2 := ins.foldl (fun s v =>
    if v < 96 then setStream s d v { streamOf s d v with service := some e, serviceDie := d } else s) s1
  setEng s2 d e { x with ins := ins.map fun v =>
    match (x.ins.find? fun p => p.src = v && v ≠ 0xFF : Option EngIn) with
    | some p => p
    | none => ⟨v, [], none⟩ }

/-- Takes the output streams, creating those that do not exist (R398). -/
def bindOuts (s : State) (d e : Nat) (outs : List Nat) : State :=
  let s1 := outs.foldl (fun s v =>
    if v = 0xFF then s
    else
      let s1 := if (streamOf s d v).present then s else createStream s d v
      let x := engOf s1 d e
      if x.derived.contains v then s1 else setEng s1 d e { x with derived := x.derived ++ [v] }) s
  setEng s1 d e { engOf s1 d e with outs := outs.map fun v => ⟨v, none⟩ }

/-- Applies settings that the two kinds of start share. -/
def applySet (x : Engine) (g : EngSet) (now : Nat) : Engine :=
  { x with
    grants := g.grants, evMask := g.evMask, arg0 := g.arg0, arg1 := g.arg1, wdog := g.wdog, wdogCnt := 0, wdogAt := now
    waiting := none, stopPoint := false, stopNow := false, st := .running }

/-- An engine starts without RESUME (R413). -/
def engStart (s : State) (d e : Nat) (g : EngSet) : State :=
  let s1 := bindOuts (bindIns s d e g.ins) d e g.outs
  let x := engOf s1 d e
  setEng s1 d e { applySet x g s.now with regs := [], pc := x.entry, retired := 0, waited := 0 }

/-- An engine resumes at its stop point: after a BREAK (R413). -/
def engResume (s : State) (d e : Nat) (g : EngSet) : State :=
  let x := engOf s d e
  let brk := x.st == .trapped && x.cause = 6
  let s1 := setEng s d e (applySet x g s.now)
  if brk then
    let p := if x.pc + 4 < 0x20000 then (x.pc + 4, s1) else (let v := drawFree s1; (v.1.toNat % 32768 * 4, v.2))
    setEng p.2 d e { engOf p.2 d e with pc := p.1 }
  else s1

/-- The settings of an ENGINE_START payload (R421). -/
def engPay (c : Cmd) : EngSet where
  ins := (List.range 4).map fun k => pb c (4 + k)
  outs := (List.range 2).map fun k => pb c (8 + k)
  grants := fld c.payload 12 4
  evMask := BitVec.ofNat 64 (fld c.payload 16 8)
  arg0 := BitVec.ofNat 64 (fld c.payload 24 8)
  arg1 := BitVec.ofNat 64 (fld c.payload 32 8)
  wdog := pb c 2

/-- The engine's state takes a start, and with RESUME a resumption (R413). -/
def startable (x : Engine) (resume : Bool) : Bool :=
  match x.st with
  | .loaded => !resume
  | .stopped | .halted => true
  | .trapped => !resume || x.cause = 6 || x.cause = 7
  | _ => false

def engineStartDef : CmdDef where
  op := 0x0803
  cls := onClass clEngine
  onGroup := false
  payOk := fun _ c =>
    let w := pb c 2
    pb c 0 < 2 && pb c 1 = 0 && (w = 0 || (10 ≤ w && w ≤ 30)) && pb c 3 = 0 && (engPay c).ins.all srcOk &&
      (engPay c).outs.all dstOk && fld c.payload 10 2 = 0 && restOk c 40
  eff := fun c _ u s =>
    let d := uDie u
    let e := uIdx u
    let x := engOf s d e
    let g := engPay c
    let resume := pb c 0 = 1
    if x.slot.isSome then (s, err stNotPermitted)
    else if safelight s d then (s, err stSafelight)
    else if !(awake s u && startable x resume) then (s, err stBadState)
    else if resume && !(g.ins = x.ins.map (·.src) && g.outs = x.outs.map (·.stream)) then (s, err stBadPayload)
    else
      match setFail s d e x.inUse x.outUse g with
      | some st => (s, err st)
      | none => (if resume then engResume s d e g else engStart s d e g, ok)

/-- ENGINE_START (R413). -/
def execEngineStart (c : Cmd) (s : State) : Out := startCmd engineStartDef c s

/-! ## ENGINE_STOP and ENGINE_READ_STATE (R414, R422) -/

def engineStopDef : CmdDef where
  op := 0x0804
  cls := onClass clEngine
  onGroup := false
  payOk := fun _ c => pb c 0 < 2 && restOk c 1
  eff := fun c fid u s =>
    let d := uDie u
    let e := uIdx u
    let x := engOf s d e
    if x.slot.isSome then (s, err stNotPermitted)
    else if !(x.st == .running || x.st == .swapping) then (s, ok)
    else (if pb c 0 = 0 then engStopNow s d e [fid] else engStopPoint s d e [fid], .pend)

/-- ENGINE_STOP (R414): completes when STOPPED. -/
def execEngineStop (c : Cmd) (s : State) : Out := startCmd engineStopDef c s

/-- The 576 bytes of ENGINE_READ_STATE's buffer (R422). -/
def engDump (x : Engine) : List Byte :=
  ((List.range 32).flatMap fun n => regString (regOf x n) ++ leBytes 7 0) ++ leBytes 4 x.pc ++ leBytes 1 (engStCode x.st) ++
    leBytes 1 x.cause ++ leBytes 2 0 ++ leBytes 8 x.badAddr.toNat ++ leBytes 8 x.retired ++ leBytes 40 0

def engineReadStateDef : CmdDef where
  op := 0x0805
  cls := onClass clEngine
  onGroup := false
  payOk := fun _ c => fld c.payload 0 8 % 16 = 0 && restOk c 8
  eff := fun c _ u s =>
    let x := engOf s (uDie u) (uIdx u)
    let b := fld c.payload 0 8
    if b ≠ 0 && (x.st == .running || x.st == .swapping || !awake s u) then (s, err stBadState)
    else
      (if b = 0 then s else hostWrite s c.port b (engDump x),
       .done 0 (leBytes 1 (engStCode x.st) ++ leBytes 1 x.cause ++ leBytes 1 (b2n (x.swap.isSome && x.st != .swapping)) ++ leBytes 1 0 ++
         leBytes 4 x.pc ++ leBytes 8 x.retired) 0)

/-- ENGINE_READ_STATE (R422). -/
def execEngineReadState (c : Cmd) (s : State) : Out := startCmd engineReadStateDef c s

/-! ## Mailbox (R406, R407) -/

/-- The offset of an engine's mailbox window in BAR2. -/
def mbxOfs (d e : Nat) : Nat := 0x1000000 + (16 * d + e) * 0x20000

/-- The mailbox windows lie in the primary function; that of an absent engine is reserved (R406). -/
def mbxHere (s : State) (port d e : Nat) : Bool := s.ready && port = primaryPort s && d < nDies s && !fenced s d && e < 16

/-- H2E_BELL (R407): posts a message of 1 to 4,096 bytes; while one is posted, or with another length, the write
counts as one to a reserved location. -/
def h2eBell (port d e be : Nat) (w : W32) (s : State) : State :=
  let x := engOf s d e
  let n := (w &&& byteMask be).toNat % 2 ^ 13
  if x.h2e ≠ 0 || n = 0 || 4096 < n then badWrite s port 2 4 port be (mbxOfs d e + 0x2000) w
  else setEng s d e { x with h2e := n }

/-- H2E_BELL (R407): where the function has no such mailbox, the location is reserved (R406). -/
def execH2eBell (port d e v : Nat) (s : State) : Out :=
  onPort port s fun s =>
    if mbxHere s port d e then h2eBell port d e 15 (BitVec.ofNat 32 v) s
    else badWrite s port 2 1 port 15 (mbxOfs d e + 0x2000) (BitVec.ofNat 32 v)

/-- E2H_ACK (R406): releases the engine's message. -/
def e2hAck (d e : Nat) (s : State) : State := setEng s d e { engOf s d e with e2h := 0 }

/-- E2H_ACK (R406): a write of any value, here 0; where the function has no such mailbox, the location is reserved. -/
def execE2hAck (port d e : Nat) (s : State) : Out :=
  onPort port s fun s =>
    if mbxHere s port d e then e2hAck d e s else badWrite s port 2 1 port 15 (mbxOfs d e + 0x2010) 0

/-! ## Swaps (R417, R418) -/

/-- SWAP_BEGIN (R417, R418): at its point the engine enters SWAPPING, its cache written back; an AT_POINT stop that
meets the point takes place after the swap. -/
def execSwapBegin (d e : Nat) (s : State) : Out :=
  onDie d s fun s =>
    let x := engOf s d e
    match x.swap with
    | some w =>
      whenB (e < 16 && w.point ≠ 3 && x.st != .swapping) s fun s =>
        let s1 := cacheFlush s d e true
        let y := engOf s1 d e
        let back := if y.st == .running && y.stopPoint then .stopped else y.st
        setEng s1 d e { y with
          st := .swapping, stopPoint := false
          swap := some { w with beganAt := s.now, beganDie := dieTime s d, back := back } }
    | none => s

end Sys2Proof.Machine
end

