-- ==== Sys2Proof/Machine/Service.lean ====
section
/-!
DEFINITION. Service instances: SERVICE_START, SERVICE_STOP and SERVICE_QUERY (R425 to R432, R448 to R450).
-/

namespace Sys2Proof.Machine

/-! ## Manifest (R426) -/

/-- The manifest of a service or decoder image. -/
def manifestOf (p : List Byte) : List Byte := (p.drop (64 + imgCode p + imgData p)).take (imgManifest p)

/-- The manifest of an image of a KIND has the form of R426: PROTOCOL is 0 but in decoder images. -/
def manifestForm (kind : Nat) (m : List Byte) : Bool :=
  let lo := fld m 6 1
  let hi := fld m 7 1
  let v := fld m 4 1
  m.length = 32 && fld m 0 4 = 0x5356434D && ((1 ≤ v && v ≤ 3) || 0x80 ≤ v) && fld m 5 1 < 8 && 1 ≤ lo && lo ≤ hi && hi ≤ 16 &&
    fld m 8 1 ≤ 32 && fld m 9 3 = 0 && 1 ≤ fld m 16 4 && fld m 16 4 ≤ 2 ^ 30 &&
    (kind = 4 || fld m 20 2 = 0) && zeroFrom m 22

/-- The reason for which an image of a service or decoder is rejected: as R410, and a manifest that is not one. -/
def svcFaultReason (s : State) (kind : Nat) (p : List Byte) : Option Nat :=
  match imgFault s [kind] p with
  | some r => some r
  | none => if manifestForm kind (manifestOf p) then none else some 1

/-- Smallest n with v ≤ 2^n. -/
def ceilLog2 (v : Nat) : Nat := ((List.range 64).find? fun n => v ≤ 2 ^ n).getD 64

/-! ## SERVICE_START (R427) -/

/-- What SERVICE_START asks for, and the images it names. -/
structure SvcReq where
  slot : Nat
  mask : Nat
  chans : Nat
  binds : List (List Byte)
  param : List Byte
  img : List Byte
  dec : Option (List Byte)

/-- The binding entries of a payload (R449). -/
def bindEntries (p : List Byte) : List (List Byte) :=
  (List.range (fld p 32 2)).map fun j => (p.drop (40 + 8 * j)).take 8

def svcReq (s : State) (c : Cmd) : SvcReq :=
  let p := c.payload
  { slot := pb c 0, mask := fld p 2 2, chans := fld p 4 4, binds := bindEntries p
    param := (p.drop (40 + 8 * fld p 32 2)).take (fld p 34 2)
    img := readImage s c.port (fld p 8 8) (fld p 16 4)
    dec := if fld p 20 4 = 0 then none else some (readImage s c.port (fld p 24 8) (fld p 20 4)) }

/-- The settings an instance's `j`-th engine starts with: its binding entry's ports, the instance's channels, and the
arguments and watchdog of R427.  ARG0 is set once the heap is allocated. -/
def svcEngSet (r : SvcReq) (fixer : Bool) (n j : Nat) : EngSet where
  ins := if fixer then [0xFF, 0xFF, 0xFF, 0xFF] else (List.range 4).map fun k => fld ((r.binds[j]?).getD []) k 1
  outs := if fixer then [0xFF, 0xFF] else (List.range 2).map fun k => fld ((r.binds[j]?).getD []) (4 + k) 1
  grants := r.chans
  evMask := 0
  arg0 := 0
  arg1 := BitVec.ofNat 64 (j + 256 * n + 65536 * r.slot)
  wdog := max 10 (min 30 (ceilLog2 (fld (manifestOf r.img) 16 4) + 1))

/-- The image and decoder placed on each engine (R427). -/
def svcPlace (r : SvcReq) : Place :=
  let g := placeOf r.img
  match r.dec with
  | none => g
  | some q =>
    let h := placeOf q
    { g with code := g.code ++ h.code, data := g.data ++ List.replicate (imgBss r.img) 0 ++ h.data }

/-- The combined sizes fit R409. -/
def svcFits (r : SvcReq) : Bool :=
  let dd := match r.dec with | some q => (imgCode q, imgData q + imgBss q) | none => (0, 0)
  imgCode r.img + dd.1 ≤ 131072 && imgData r.img + imgBss r.img + dd.2 ≤ 524288

/-- Binding entries are in form: ports of R421, or stream IDs of streams for Fixer. -/
def bindsForm (r : SvcReq) (fixer : Bool) (n : Nat) : Bool :=
  if fixer then r.binds.length ≤ 64 && r.binds.all fun b => zeroFrom b 2
  else r.binds.length = n && r.binds.all fun b =>
    ((List.range 4).all fun k => srcOk (fld b k 1)) && ((List.range 2).all fun k => dstOk (fld b (4 + k) 1)) && zeroFrom b 6

/-- No value other than 0xFF stands twice. -/
def distinctUse (l : List Nat) : Bool :=
  let m := l.filter (· ≠ 0xFF)
  dedup [] m = m

/-- Why a stream cannot be an input of a Fixer instance (R437). -/
def fixerInFail (s : State) (sid : Nat) : Option Nat :=
  let d := sid / 128
  let i := sid % 128
  let y := streamOf s d i
  if !(d < nDies s && !fenced s d && y.present) then some stBadPayload
  else if y.ring.isSome || y.service.isSome then some stBusy
  else if isExpo i && y.keep then some stNotPermitted
  else none

/-- The first failure of a list. -/
def firstFail {α : Type} (f : α → Option Nat) : List α → Option Nat
  | [] => none
  | x :: r => match f x with | some st => some st | none => firstFail f r

/-- The first of R427's conditions that fails once the images are verified: BAD_STATE for those that its list states, but BUSY for a
binding or channel in use (R448). -/
def svcStartFail (s : State) (d : Nat) (r : SvcReq) : Option Nat :=
  let m := manifestOf r.img
  let es := maskEngines r.mask
  let n := es.length
  let fixer := fld m 4 1 = 1
  let sets := es.zipIdx.map fun p => (p.1, svcEngSet r fixer n p.2)
  let heap := imgHeap r.img
  let decOk := match r.dec with | some q => bitAt (fld m 5 1) 0 && fld (manifestOf q) 4 1 = 2 | none => !bitAt (fld m 5 1) 0
  let back := es.foldl (fun a e => a + (engOf s d e).heapMib) (poolFree s d)
  if !(es.all fun e => let x := engOf s d e; awake s (engUid d e) && (x.st == .empty || x.st == .loaded) && x.slot.isNone) then
    some stBadState
  else if (fixer || bitAt (fld m 5 1) 1) && !(portOf s d).drive then some stBadState
  else if n < fld m 6 1 || fld m 7 1 < n || !decOk || fld m 12 4 < r.param.length then some stBadState
  else if !svcFits r || !bindsForm r fixer n || popCount r.chans 32 < fld m 8 1 || heap * 2 ^ 20 < r.param.length ||
      (!fixer && !(distinctUse (sets.flatMap fun p => p.2.ins) && distinctUse (sets.flatMap fun p => p.2.outs))) then
    some stBadPayload
  else if (List.range 32).any (fun c => bitAt r.chans c && ((xferOf s d c).slot.isSome ||
      (List.range 16).any fun e => bitAt (engOf s d e).grants c && !es.contains e)) then some stBusy
  else if back < heap * n then some stNoResource
  else if fixer then
    (if dedup [] (r.binds.map fun b => fld b 0 2) = r.binds.map (fun b => fld b 0 2) then
      firstFail (fun b => fixerInFail s (fld b 0 2)) r.binds else some stBusy)
  else firstFail (fun p => setFail s d p.1 (fld r.img 53 1) (fld r.img 54 1) p.2) sets

/-- One engine of an instance: loaded, measured, its parameters copied to its heap, started (R427). -/
def svcEngine (s : State) (d : Nat) (r : SvcReq) (e : Nat) (g : EngSet) : State :=
  let s1 := placeImage s d e (svcPlace r)
  let s2 := addMeasure s1 d e r.img (dieTime s1 d)
  let s3 := match r.dec with | some q => addMeasure s2 d e q (dieTime s2 d) | none => s2
  let x := engOf s3 d e
  let s4 := memWrite s3 (.hbm d) x.heapAddr r.param
  let s5 := setEng s4 d e { x with slot := some r.slot }
  engStart s5 d e { g with arg0 := BitVec.ofNat 64 x.heapAddr }

/-- Starts an instance (R427). -/
def svcStart (s : State) (d : Nat) (r : SvcReq) : State :=
  let m := manifestOf r.img
  let es := maskEngines r.mask
  let fixer := fld m 4 1 = 1
  let k := r.slot
  let keys := if fixer then r.binds.map (fun b => fld b 0 2)
    else ((r.binds.flatMap fun b => (List.range 4).map fun j => fld b j 1).filter (· < 96)).map fun v => key d v
  let inputs := keys.map fun i => (i, (streamOf s (i / 128) (i % 128)).delivered)
  let s1 := setSvc s d k { svcOf s d k with service := fld m 4 1, mask := r.mask, chans := r.chans, inputs := inputs }
  let s2 := es.foldl (fun s e => freeHeap s d e) (svcState s1 d k .starting 0 0xFF 0)
  let s3 := es.zipIdx.foldl (fun s p => svcEngine s d r p.1 (svcEngSet r fixer es.length p.2)) s2
  let s4 := if fixer then
      keys.foldl (fun s i => setStream s (i / 128) (i % 128) { streamOf s (i / 128) (i % 128) with
        service := some (16 + k), serviceDie := d }) s3
    else s3
  let s5 := (List.range 32).foldl (fun s c =>
    if bitAt r.chans c then setXfer s d c { xferOf s d c with slot := some k } else s) s4
  svcState s5 d k .running 0 0xFF 0

def serviceStartDef : CmdDef where
  op := 0x0901
  cls := onClass clDie
  onGroup := false
  payOk := fun _ c =>
    let p := c.payload
    let n := 40 + 8 * fld p 32 2 + fld p 34 2
    pb c 0 < 8 && pb c 1 = 0 && fld p 8 8 % 8 = 0 && fld p 34 2 % 8 = 0 && fld p 36 4 = 0 && fld p 2 2 ≠ 0 &&
      n ≤ p.length && restOk c n
  eff := fun c _ u s =>
    let d := uDie u
    let k := pb c 0
    if safelight s d then (s, err stSafelight)
    else if (svcOf s d k).st != .none then (s, err stBadState)
    else if !hostReadable s c.port then (s, err stHostReadError)
    else
      let r := svcReq s c
      let eng := engUid d ((maskEngines r.mask).headD 0)
      match svcFaultReason s 3 r.img with
      | some f => (rejectImage s d u eng 3 f r.img, err (rejectStatus f))
      | none =>
        match r.dec.bind (fun q => (svcFaultReason s 4 q).map fun f => (q, f)) with
        | some (q, f) => (rejectImage s d u eng 3 f q, err (rejectStatus f))
        | none =>
          match svcStartFail s d r with
          | some st => (s, err st)
          | none => (svcStart s d r, ok)

/-- SERVICE_START (R427): completes when every engine is RUNNING. -/
def execServiceStart (c : Cmd) (s : State) : Out := startCmd serviceStartDef c s

/-! ## SERVICE_STOP and SERVICE_QUERY (R430, R450) -/

/-- Every engine of an instance stops at its next point. -/
def svcStopPoint (s : State) (d k : Nat) : State :=
  svcCheck ((maskEngines (svcOf s d k).mask).foldl (fun s e => engStopPoint s d e []) s) d k

/-- Begins a stop (R430): DRAIN first waits for the input streams; AT_POINT stops the engines, also of an instance that drains. -/
def svcStop (s : State) (d k fid : Nat) (drain release : Bool) : State :=
  let x := svcOf s d k
  let fresh := x.st == .running || (x.st == .stopping && x.stopFids.isEmpty)
  let targets := if fresh then
      x.inputs.map fun i => (i.1, (streamOf s (i.1 / 128) (i.1 % 128)).seqNext) else []
  let left := if drain then x.drain ++ targets else []
  let s1 := svcState (setSvc s d k { x with stopFids := x.stopFids ++ [(fid, release)], drain := left }) d k .stopping 0 0xFF 0
  if left.isEmpty then svcStopPoint s1 d k else svcDrain s1 d k

def serviceStopDef : CmdDef where
  op := 0x0902
  cls := onClass clDie
  onGroup := false
  payOk := fun _ c => pb c 0 < 8 && pb c 1 < 2 && pb c 2 < 2 && restOk c 3
  eff := fun c fid u s =>
    let d := uDie u
    let k := pb c 0
    let x := svcOf s d k
    let rel := pb c 2 = 1
    if x.st == .none || (rel && svcRolls s d k) then (s, err stBadState)
    else if x.st == .stopped then
      (if !rel then (s, ok)
      else if svcQuiet s d k then
        let r := svcRelease s d k
        (r.1, .done 0 (leBytes 4 r.2.1 ++ leBytes 4 0 ++ leBytes 8 r.2.2) 0)
      else (setSvc s d k { x with stopFids := x.stopFids ++ [(fid, true)] }, .wait))
    else (svcStop s d k fid (pb c 1 = 0) rel, .wait)

/-- SERVICE_STOP (R430): completes when the instance is STOPPED, or NONE with RELEASE. -/
def execServiceStop (c : Cmd) (s : State) : Out := startCmd serviceStopDef c s

/-- The ONLINE members of a volume as a mask. -/
def onlineMask (v : Volume) : Nat :=
  (v.members.zipIdx.filter fun m => m.1.st = 1).foldl (fun a m => a + 2 ^ m.2) 0

def serviceQueryDef : CmdDef where
  op := 0x0903
  cls := onClass clDie
  onGroup := false
  payOk := fun _ c => pb c 0 < 8 && restOk c 1
  eff := fun c _ u s =>
    let d := uDie u
    let x := svcOf s d (pb c 0)
    let n := x.inputs.foldl (fun a i => a + ((streamOf s (i.1 / 128) (i.1 % 128)).delivered - i.2)) 0
    let v := match x.vol with | some v => (v.st, onlineMask v) | none => (0, 0)
    (s, .done 0 (leBytes 1 (svcCode x.st) ++ leBytes 1 x.service ++ leBytes 2 x.mask ++ leBytes 1 v.1 ++ leBytes 1 v.2 ++
      leBytes 2 0 ++ leBytes 8 n) 0)

/-- SERVICE_QUERY (R450). -/
def execServiceQuery (c : Cmd) (s : State) : Out := startCmd serviceQueryDef c s

end Sys2Proof.Machine
end

