-- ==== Sys2Proof/Machine/Fixer.lean ====
section
/-!
DEFINITION. Fixer: drives, volumes, and what is written to them (R437 to R451).
-/

namespace Sys2Proof.Machine

/-! ## Drives -/

def driveOf (s : State) (d p : Nat) : Drive := tget Drive.reset s.svc.drives (key d p)

def setDrive (s : State) (d p : Nat) (x : Drive) : State :=
  { s with svc := { s.svc with drives := tset Drive.reset s.svc.drives (key d p) x } }

def driveUid (d p : Nat) : Nat := uid d clDrive p

/-- EV_DRIVE_ERROR (R451). -/
def driveError (s : State) (d p kind sct sc warn count lba t : Nat) : State :=
  post s d 0x0902 (driveUid d p) t
    (leBytes 1 kind ++ leBytes 1 sct ++ leBytes 1 sc ++ leBytes 1 warn ++ leBytes 4 count ++ leBytes 8 lba)

/-- The capacity of a drive in LBAs (R443). -/
def driveBlocks (x : Drive) : Nat := (x.info.map (·.lbas)).getD 0

/-- The entries of a drive's I/O queues: pairs as granted, at most 16, of min(1,024, MQES + 1) entries (R437). -/
def queueEntries (x : Drive) : Nat :=
  match x.info with | some i => min 16 i.queues * min 1024 (i.mqes + 1) | none => 0

/-- A block of a drive. -/
def driveBlock (s : State) (d p lba : Nat) : List Byte := memRead s (.drive d p) (4096 * lba) 4096

def writeBlock (s : State) (d p lba : Nat) (b : List Byte) : State := memWrite s (.drive d p) (4096 * lba) b

/-- A block's 4,092 bytes with their CRC. -/
def sealed (b : List Byte) : List Byte := let p := padTo 4092 b; p ++ leBytes 4 (crc32c p).toNat

/-- A superblock copy is valid: magic, format and CRC are right (R444). -/
def sbValid (b : List Byte) : Bool :=
  fld b 0 4 = 0x46585642 && fld b 4 2 = 1 && fld b 4092 4 = (crc32c (b.take 4092)).toNat

/-! ## Volumes -/

/-- A member that the volume does not have. -/
def noMember : Member := ⟨0, [], 0, 0, 0, 0, 0, [], [], [], 0, 0, 0, 0, 0, []⟩

def memberOf (v : Volume) (m : Nat) : Member := (v.members[m]?).getD noMember

def setMember (v : Volume) (m : Nat) (x : Member) : Volume := { v with members := v.members.set m x }

def setVol (s : State) (d k : Nat) (v : Volume) : State := setSvc s d k { svcOf s d k with vol := some v }

def logLba : Nat := 2

def indexLba (x : Member) : Nat := 2 + x.log

def dataLba (x : Member) : Nat := 2 + x.log + x.index

/-- The drive ports of the ONLINE members, ascending. -/
def onlines (v : Volume) : List Nat := (List.range 4).filter fun m => (memberOf v m).st = 1

/-- What a member lacks room in: 1 data, 2 log, 3 index; none while it has room (R442). -/
def lacks (x : Member) : Option Nat :=
  if x.data ≤ x.next then some 1
  else if 127 * x.log ≤ x.logs.length + x.extents.length then some 2
  else if 127 * x.index ≤ x.marks.length then some 3
  else none

/-- The stream of a stream ID has stopped (SFLAGS and STREAM_END, R444, R445). -/
def streamOver (s : State) (sid : Nat) : Bool :=
  let x := streamOf s (sid / 128) (sid % 128)
  x.state == .unconfigured || x.state == .idle

/-- Member `m`'s superblock (R444). -/
def superblock (s : State) (d m : Nat) (v : Volume) : List Byte :=
  let x := memberOf v m
  sealed (padTo 128 (leBytes 4 0x46585642 ++ leBytes 2 1 ++ leBytes 1 m ++ leBytes 1 v.st ++ leBytes 8 v.id ++
      leBytes 8 x.gen ++ leBytes 8 (stampOf v.created).toNat ++
      leBytes 8 (if v.st = 2 then (stampOf v.closed).toNat else 0) ++ leBytes 4 v.stripe ++ leBytes 2 v.mask ++
      leBytes 1 v.setIndex ++ leBytes 1 v.setCount ++ leBytes 8 logLba ++ leBytes 4 x.log ++ leBytes 4 x.logUsed ++
      leBytes 8 (indexLba x) ++ leBytes 4 x.index ++ leBytes 4 x.indexUsed ++ leBytes 8 (dataLba x) ++ leBytes 8 x.data ++
      leBytes 8 x.used ++ leBytes 1 d) ++
    (List.range 4).flatMap (fun n => let y := memberOf v n
      padTo 32 (padTo 20 (y.serial.take 20) ++ leBytes 1 y.st ++ leBytes 3 0 ++ leBytes 8 y.data)) ++
    (List.range 64).flatMap (fun n =>
      match (v.streams[n]?) with
      | some f => match f.first with
        | some q => leBytes 2 f.sid ++ leBytes 2 (b2n (streamOver s f.sid)) ++ leBytes 6 q ++ leBytes 6 f.last
        | none => leBytes 2 f.sid ++ leBytes 2 (b2n (streamOver s f.sid)) ++ leBytes 12 0
      | none => leBytes 2 0xFFFF ++ leBytes 14 0))

/-- Block `n` of an extent log or mark index (R445). -/
def metaBlock (magic : Nat) (v : Volume) (es : List (List Byte)) (n : Nat) : List Byte :=
  let l := (es.drop (127 * n)).take 127
  sealed (leBytes 2 magic ++ leBytes 2 l.length ++ leBytes 4 n ++ leBytes 8 v.id ++ l.flatten)

/-- Writes the blocks of a region that hold entries `from_` to `upto`. -/
def writeRegion (s : State) (d m lba magic : Nat) (v : Volume) (es : List (List Byte)) (from_ upto : Nat) : State :=
  let b0 := from_ / 127
  (List.range (ceilDiv upto 127 - b0)).foldl (fun s n =>
    writeBlock s d m (lba + b0 + n) (metaBlock magic v (es.take upto) (b0 + n))) s

/-- Writes a member's log and index blocks: those that are full, or every one that holds a new entry (R447). -/
def writeMeta (s : State) (d m : Nat) (v : Volume) (whole : Bool) : State × Volume :=
  let x := memberOf v m
  let upto := fun (l : List (List Byte)) => if whole then l.length else l.length / 127 * 127
  let lo := max x.logWritten (upto x.logs)
  let ix := max x.indexWritten (upto x.marks)
  let s1 := if x.logWritten < lo then writeRegion s d m logLba 0x4C47 v x.logs x.logWritten lo else s
  let s2 := if x.indexWritten < ix then writeRegion s1 d m (indexLba x) 0x4958 v x.marks x.indexWritten ix else s1
  (s2, setMember v m { x with logWritten := lo, indexWritten := ix })

/-- The LBAs of a member's data region whose Writes are complete, from its start. -/
def writtenLbas (v : Volume) (m : Nat) : Nat :=
  let x := memberOf v m
  (v.writes.filter fun w => w.member = m).foldl (fun n w => min n (w.lba - dataLba x)) x.next

/-- A Flush before a superblock is issued to a member: what is written by now will be flushed (R447).  One that waits for its turn
serves, with what is written by now; one under way does not. -/
def askFlush (s : State) (d m : Nat) (v : Volume) : State :=
  let g := driveOf s d m
  let x := memberOf v m
  let op := DrvOp.flushSb (writtenLbas v m) (ceilDiv x.logWritten 127) (ceilDiv x.indexWritten 127)
  let waits : DrvOp → Bool := fun o => match o with | .flushSb _ _ _ => true | _ => false
  let later := g.ops.drop 1
  setDrive s d m { g with
    ops := if later.any waits then g.ops.take 1 ++ later.map (fun (o : DrvOp) => if waits o then op else o) else g.ops ++ [op] }

def askFlushAll (s : State) (d : Nat) (v : Volume) : State := (onlines v).foldl (fun s m => askFlush s d m v) s

/-! ## Extents and marks (R440, R445, R446) -/

/-- The log entry of an extent. -/
def extentEntry (s : State) (e : Extent) : List Byte :=
  let ended := streamOver s e.sid && e.seq + e.count = (streamOf s (e.sid / 128) (e.sid % 128)).seqNext
  leBytes 2 e.sid ++ leBytes 2 e.count ++ leBytes 6 e.seq ++
    leBytes 2 (b2n e.rewritten + 2 * b2n (e.streamEnd || ended)) ++ leBytes 4 0 ++ leBytes 8 e.lba ++ leBytes 8 e.time.toNat

/-- Extents that have ended and whose Writes are complete enter the log. -/
def logExtents (s : State) (x : Member) : Member :=
  let r := x.extents.partition fun e => e.ended && e.open_ = 0
  { x with extents := r.2, logs := x.logs ++ r.1.map (extentEntry s) }

/-- The INDEX_MASK bit of a mark code (R446). -/
def indexBit (code : Nat) : Option Nat :=
  if 1 ≤ code && code ≤ 10 then some code
  else if code = 0x10 then some 11
  else if code = 0x20 then some 12
  else if code = 0x21 then some 13
  else none

/-- The mark index entries of an envelope: through its MARK_INDEX, or by a scan with INDEX_FULL. -/
def indexEntries (mask : Nat) (e : Env) : List (List Byte) :=
  let ps := markPositions 0 e.words
  let found := if e.format = 0 && 12 < ps.length then ps else ps.take 12
  found.filterMap fun i =>
    match e.words[i]? with
    | none => none
    | some w =>
      let code := bits w.pay.toNat 56 8
      match indexBit code with
      | some n =>
        if bitAt mask n then
          some (leBytes 8 ((e.times[i]?).getD 0).toNat ++ leBytes 6 e.seq ++ leBytes 2 e.stream ++ leBytes 2 i ++
            leBytes 1 code ++ leBytes 1 (bits w.side.toNat 0 6) ++ leBytes 7 (bits w.pay.toNat 0 56) ++ leBytes 5 0)
        else none
      | none => none

/-- Every open extent of a member that has lain still since a physical tick ends. -/
def endExtents (x : Member) (upto : Nat) : Member :=
  { x with extents := x.extents.map fun e => if e.lastAt ≤ upto then { e with ended := true } else e }

/-- Places `n` envelopes of a stream on a member: its last extent goes on unless it has lain still for `flush` ticks, or a new one
begins. -/
def placeExtent (s : State) (x : Member) (flush sid : Nat) (e0 : Env) (n : Nat) (rewritten last : Bool) : Member :=
  let lba := dataLba x + x.next
  let grow := fun (e : Extent) =>
    !e.ended && e.sid = sid && e.seq + e.count = e0.seq && e.lba + e.count = lba && e.rewritten = rewritten &&
      s.now ≤ e.lastAt + flush
  let es := if x.extents.any grow then
      x.extents.map fun e => if grow e then
        { e with count := e.count + n, open_ := e.open_ + n, lastAt := s.now, ended := last } else e
    else (x.extents.map fun e => if e.sid = sid then { e with ended := true } else e) ++
      [⟨sid, e0.seq, n, lba, e0.first, rewritten, last, false, n, s.now⟩]
  { x with extents := es, next := x.next + n }

/-! ## Full volumes and failed members (R441, R442) -/

/-- The volume becomes FULL at a die time when no ONLINE member has room, or none is ONLINE (R442). -/
def fullCheckAt (s : State) (d k t : Nat) : State :=
  match (svcOf s d k).vol with
  | none => s
  | some v =>
    let on := onlines v
    if v.st ≠ 1 || !(on.all fun m => (lacks (memberOf v m)).isSome) then s
    else
      let cause := if on.isEmpty then 4
        else on.foldl (fun a m => min a ((lacks (memberOf v m)).getD 3)) 3
      let sum := v.members.foldl (fun n x => n + x.used) 0
      post (setVol s d k { v with st := 3 }) d 0x0903 (dieUid d) t
        (leBytes 1 k ++ leBytes 1 cause ++ leBytes 6 0 ++ leBytes 8 sum)

/-- The volume becomes FULL now when no ONLINE member has room (R442). -/
def fullCheck (s : State) (d k : Nat) : State := fullCheckAt s d k (dieTime s d)

/-- The envelopes of a stream that no consumer has taken. -/
def fixSpool (s : State) (sid : Nat) : List Env :=
  let x := streamOf s (sid / 128) (sid % 128)
  x.spool.drop x.ndeliv

/-- The envelopes of a stream's spool, the delivered ones that it retains among them (R204). -/
def keptEnvs (s : State) (sid : Nat) : List Env := (streamOf s (sid / 128) (sid % 128)).spool

/-- An envelope of a stream has been given to a Write, and needs no other. -/
def issued (v : Volume) (f : FixStream) (e : Env) : Bool :=
  f.done.contains e || (v.writes.any fun w => w.sid = f.sid && w.envs.contains e) ||
    v.rewrite.any fun p => p.1 = f.sid && p.2.1 == e

/-- The envelopes of a stream still to be written: undelivered, not yet issued, and, while the volume closes, formed before it did. -/
def toWrite (s : State) (v : Volume) (f : FixStream) : List Env :=
  (fixSpool s f.sid).filter fun e => !issued v f e && (match f.limit with | some l => l.contains e | none => true)

/-- The volume has nothing left to write of what it closes with (R450). -/
def closeReady (s : State) (v : Volume) : Bool :=
  v.writes.isEmpty && (v.rewrite.isEmpty || v.st = 3 || (onlines v).isEmpty) &&
    v.streams.all fun f => v.st = 3 || (toWrite s v f).isEmpty

/-- A volume command whose members have nothing left to do completes: VOLUME_CREATE opens the volume, VOLUME_CLOSE
ends it (R448, R450). -/
def volSettle (s : State) (d k : Nat) : State :=
  match (svcOf s d k).vol with
  | none => s
  | some v =>
    if !((onlines v).all fun m => (driveOf s d m).ops.isEmpty) then s
    else if v.st = 0 then
      fullCheck (unitDone (setVol s d k { v with st := 1, flushAt := s.now, sbAt := s.now }) v.fid (dieUid d) 0 0 []
        (dieTime s d)) d k
    else if v.st = 2 then
      unitDone (setSvc s d k { svcOf s d k with vol := none }) v.fid (dieUid d) 0 0 (leBytes 8 v.written) (dieTime s d)
    else s

/-- Every envelope a closing volume takes is written: its extents end, the last blocks and CLOSED superblocks go out
(R450). -/
def closeCheck (s : State) (d k : Nat) : State :=
  match (svcOf s d k).vol with
  | none => s
  | some v =>
    if !(v.closing && v.st ≠ 2 && closeReady s v) then s
    else
      let v1 := (onlines v).foldl (fun v m => setMember v m (logExtents s (endExtents (memberOf v m) s.now))) { v with st := 2 }
      let a := (onlines v1).foldl (fun a m => writeMeta a.1 d m a.2 true) (s, v1)
      let s2 := (onlines v1).foldl (fun s m =>
        let s1 := askFlush s d m a.2
        let g := driveOf s1 d m
        setDrive s1 d m { g with ops := g.ops ++ [.flushEnd] }) a.1
      volSettle (setVol s2 d k a.2) d k

/-- A member fails (R441): its controller is disabled, and the envelopes of its incomplete Writes and those still
retained are written again to the others. -/
def failMember (s : State) (d k m kind sct sc lba t : Nat) : State :=
  match (svcOf s d k).vol with
  | none => s
  | some v =>
    let x := memberOf v m
    let lost := (v.writes.filter fun w => w.member = m).flatMap fun w => w.envs.map fun e => (w.sid, e, w.old.contains e)
    let kept := (x.placed.filter fun p => (keptEnvs s p.1).contains p.2).map fun p => (p.1, p.2, true)
    let v1 := setMember { v with
      writes := v.writes.filter fun w => w.member ≠ m
      rewrite := v.rewrite ++ lost ++ kept
      streams := v.streams.map fun f => if f.unitMember = m then { f with unitLeft := 0 } else f } m
      { x with st := 3, extents := [], placed := [] }
    let s1 := setDrive s d m { driveOf s d m with enabled := false, ops := [] }
    let count := if (onlines v1).isEmpty then 0 else lost.length + kept.length
    let s2 := askFlushAll (driveError s1 d m kind sct sc 0 count lba t) d v1
    volSettle (closeCheck (fullCheckAt (setVol s2 d k v1) d k t) d k) d k

/-- The slot whose volume has drive port `p` as an ONLINE member. -/
def volOfDrive (s : State) (d p : Nat) : Option Nat :=
  (List.range 8).find? fun k => match (svcOf s d k).vol with
    | some v => (memberOf v p).st = 1
    | none => false

/-! ## Drive rows -/

/-- A drive port of the tree. -/
def isDrive (s : State) (d p : Nat) : Bool := unitExists s d clDrive p

/-- A drive attaches (R56, R60, R438), its SMART / Health log read: EV_PARTNER_ATTACH with its size in whole GiB, and EV_DRIVE_ERROR when it does not suit Fixer. -/
def execDriveIdentifyDone (d p : Nat) (info : DriveInfo) (s : State) : Out :=
  onDie d s fun s => whenB (isDrive s d p && awake s (driveUid d p) && !(portOf s d).perst && (driveOf s d p).info.isNone) s fun s =>
    let suits := info.suitable && info.blockBytes = 4096
    let s1 := attachPartner (setDrive s d p ⟨some info, suits, info.warn % 256, s.now, true, []⟩) d (driveUid d p) 3 0 (dieTime s d)
      (leBytes 2 info.vendor ++ leBytes 2 info.device ++ leBytes 1 info.gt ++ leBytes 1 info.width ++
        leBytes 2 info.queues ++ leBytes 4 (info.lbas * info.blockBytes / 2 ^ 30))
    if suits then s1 else driveError s1 d p 3 0 0 0 0 0 (dieTime s d)

/-- A drive leaves, for a reason of R60; a member it is fails (R441). -/
def driveGone (s : State) (d p reason : Nat) : State :=
  if (driveOf s d p).info.isNone then s
  else
    let s1 := detachPartner (setDrive s d p Drive.reset) d (driveUid d p) reason (dieTime s d) 0
    match volOfDrive s1 d p with
    | some k => failMember s1 d k p 5 0 0 0 (dieTime s d)
    | none => s1

/-- A drive's link goes down (R56, R441). -/
def execDriveLinkDown (d p : Nat) (s : State) : Out :=
  onDie d s fun s => whenB (isDrive s d p) s fun s => driveGone s d p 3

/-- Ticks between two reads of the SMART / Health log: 10 s (R438). -/
def smartTicks : Nat := 10000 * msTicks

/-- The SMART / Health log is read again; a newly set critical-warning bit is reported (R438). -/
def execSmartPoll (d p warn : Nat) (s : State) : Out :=
  onDie d s fun s =>
    let g := driveOf s d p
    whenB (g.info.isSome && g.smartAt + smartTicks ≤ s.now) s fun s =>
      let s1 := setDrive s d p { g with warn := warn % 256, smartAt := s.now }
      if warn % 256 &&& (255 - g.warn) = 0 then s1 else driveError s1 d p 4 0 0 (warn % 256) 0 0 (dieTime s d)

/-- An operation completes on a drive: both superblocks are written at creation, later the older copy, with what its Flush covered
(R447). -/
def driveOpDone (s : State) (d p k : Nat) (op : DrvOp) : State :=
  match (svcOf s d k).vol, op with
  | some v, .flushSb used log index =>
    let x := { memberOf v p with used := used, logUsed := log, indexUsed := index }
    let v1 := if v.st = 0 then { v with st := 1 } else v
    let put := fun (s : State) (g : Nat) =>
      writeBlock s d p ((g - 1) % 2) (superblock s d p (setMember v1 p { x with gen := g }))
    if v.st = 0 then setVol (put (put s 1) 2) d k (setMember v p { x with gen := 2 })
    else setVol (put s (x.gen + 1)) d k (setMember v p { x with gen := x.gen + 1 })
  | _, _ => s

/-- The NVMe command that an operation is. -/
def opWhat : DrvOp → NvmeWhat
  | .dealloc => .deallocate
  | .flushSb _ _ _ => .flush
  | .flushEnd => .flush

/-- A Flush, Dataset Management, Read or admin command completes (R437, R447); one that fails is issued again. -/
def execNvmeCommandComplete (d p : Nat) (what : NvmeWhat) (ok : Bool) (s : State) : Out :=
  onDie d s fun s =>
    let g := driveOf s d p
    match g.ops, volOfDrive s d p with
    | op :: r, some k =>
      (whenB (ok && opWhat op == what) s fun s =>
        volSettle (driveOpDone (setDrive s d p { g with ops := r }) d p k op) d k)
    | _, _ => s

/-! ## Volumes: rows -/

/-- The device runs Fixer in a slot (R431: not in Safelight mode). -/
def fixerRuns (s : State) (d k : Nat) : Bool :=
  let x := svcOf s d k
  x.service = 1 && (x.st == .running || x.st == .stopping) && !safelight s d

/-- A member can take `n` more envelopes. -/
def hasRoom (v : Volume) (m n : Nat) : Bool :=
  let x := memberOf v m
  x.st = 1 && (lacks x).isNone && x.next + n ≤ x.data

/-- The next member in rotation with room (R440). -/
def nextMember (v : Volume) (n : Nat) : Option Nat :=
  ((List.range 4).map fun i => (v.rot + i) % 4).find? fun m => hasRoom v m n

/-- The drive takes a Write of `n` envelopes in one transfer. -/
def fitsTransfer (s : State) (d m n : Nat) : Bool :=
  match (driveOf s d m).info with
  | some i => (driveOf s d m).enabled && (i.maxTransfer = 0 || 4096 * n ≤ i.maxTransfer)
  | none => false

/-- Envelopes of consecutive SEQ at the front of a list. -/
def runOf : List Env → List Env
  | [] => []
  | [e] => [e]
  | e :: f :: r => if f.seq = e.seq + 1 then e :: runOf (f :: r) else [e]

/-- What Fixer writes next of a stream: envelopes to rewrite, else undelivered ones not yet given to a Write. -/
def nextEnvs (s : State) (v : Volume) (f : FixStream) : Bool × List Env :=
  let rw := (v.rewrite.filter fun p => p.1 = f.sid).map (·.2.1)
  if !rw.isEmpty then (true, runOf rw) else (false, runOf (toWrite s v f))

/-- A drive's queues have an entry free for one more command (R437). -/
def queueRoom (s : State) (d m : Nat) (v : Volume) : Bool :=
  let g := driveOf s d m
  (v.writes.filter fun w => w.member = m).length + g.ops.length < queueEntries g

/-- The heap of an instance, that of its first engine: address and size in bytes. -/
def svcHeap (s : State) (d k : Nat) : Nat × Nat :=
  let x := engOf s d ((maskEngines (svcOf s d k).mask).headD 0)
  (x.heapAddr, x.heapMib * 2 ^ 20)

/-- Envelopes of a stream can reach a drive of die `d`: its own from the spool slots, those of another die through the instance's heap,
by its transfer channels (R439). -/
def envsReach (s : State) (d k sid n : Nat) : Bool :=
  sid / 128 = d || ((svcOf s d k).chans ≠ 0 && 4096 * n ≤ (svcHeap s d k).2)

/-- Envelopes of another die are moved into the instance's heap first (R439); where in it is not stated, a free value (log entry 2). -/
def stageEnvs (s : State) (d k sid : Nat) (es : List Env) : State :=
  if sid / 128 = d then s
  else
    let h := svcHeap s d k
    let v := drawFree s
    memWrite v.2 (.hbm d) (h.1 + v.1.toNat % (h.2 - 4096 * es.length + 1)) (es.flatMap envBytes)

/-- Issues a Write of the envelopes `es` to member `m`, in a unit with `unit` envelopes left; a rewrite takes a unit of its own, so that
the units of the stream keep consecutive SEQs (R440, R441). -/
def issueWrite (s : State) (d k m unit : Nat) (v : Volume) (f : FixStream) (rw fresh : Bool) (es : List Env) : State :=
  match es with
  | [] => s
  | e0 :: _ =>
    let n := es.length
    let x := memberOf v m
    let old := (v.rewrite.filter fun p => p.1 = f.sid && p.2.2 && es.contains p.2.1).map (·.2.1)
    let w : NvWrite := ⟨v.nextId, m, dataLba x + x.next, f.sid, es, if rw then old else [], false, rw, s.now⟩
    let f1 := if rw then f else { f with unitLeft := unit - n, unitMember := m }
    let v1 := setMember { v with
      rot := if fresh then (m + 1) % 4 else v.rot
      streams := v.streams.map fun g => if g.sid = f.sid then f1 else g
      writes := v.writes ++ [w], nextId := v.nextId + 1
      rewrite := if rw then v.rewrite.filter fun p => !(p.1 = f.sid && es.contains p.2.1) else v.rewrite } m
      (placeExtent s x (v.flushMs * msTicks) f.sid e0 n rw (rw || unit = n))
    setVol (stageEnvs s d k f.sid es) d k v1

/-- Fixer issues a Write of `n` ready envelopes of a stream (R440): within the stream's stripe unit, else in a new unit
on the next ONLINE member in rotation. -/
def execFixerWriteIssue (d slot sid n : Nat) (s : State) : Out :=
  onDie d s fun s =>
    match (svcOf s d slot).vol with
    | none => s
    | some v =>
      match v.streams.find? fun f => f.sid = sid with
      | none => s
      | some f =>
        let nx := nextEnvs s v f
        let goes := !nx.1 && f.unitLeft ≠ 0 && hasRoom v f.unitMember 1
        let m := if goes then some f.unitMember else nextMember v n
        (match m with
          | none => s
          | some m =>
            let unit := if goes then f.unitLeft else v.stripe
            whenB (fixerRuns s d slot && v.st = 1 && 0 < n && n ≤ nx.2.length && n ≤ unit && hasRoom v m n &&
                fitsTransfer s d m n && queueRoom s d m v && envsReach s d slot sid n) s fun s =>
              fullCheck (issueWrite s d slot m unit v f nx.1 (!goes) (nx.2.take n)) d slot)

/-- Delivers a stream's envelopes whose Writes are complete, in order (R204). -/
def deliverDone (s : State) (f : FixStream) : State × FixStream :=
  let ready := (fixSpool s f.sid).takeWhile f.done.contains
  let s1 := if ready.isEmpty then s else deliverEnvs s (f.sid / 128) (f.sid % 128) ready.length
  (s1, { f with done := f.done.filter fun e => !ready.contains e })

/-- A stream's first and last SEQ written, with those of a Write that has succeeded (R444). -/
def noteSeqs (f : FixStream) (es : List Env) : FixStream :=
  es.foldl (fun f e => { f with
    first := some (match f.first with | some q => min q e.seq | none => e.seq)
    last := if f.first.isSome then max f.last e.seq else e.seq }) f

/-- A Write's data is on the drive: its extent, marks and envelopes advance (R441, R444, R446, R447), and the envelopes not written before
count as written (R450). -/
def writeLanded (s : State) (d k : Nat) (v : Volume) (w : NvWrite) : State :=
  let s1 := memWrite s (.drive d w.member) (4096 * w.lba) (w.envs.flatMap envBytes)
  let x := memberOf v w.member
  let n := w.envs.length
  let new := w.envs.filter fun e => !w.old.contains e
  let es := x.extents.map fun e =>
    if e.lba ≤ w.lba && w.lba < e.lba + e.count then { e with open_ := e.open_ - n } else e
  let room := 127 * x.index - x.marks.length
  let x1 := { x with
    extents := es, marks := x.marks ++ (w.envs.flatMap (indexEntries v.mask)).take room
    placed := x.placed ++ w.envs.map fun e => (w.sid, e) }
  let v1 := setMember { v with writes := v.writes.filter fun y => y.id ≠ w.id, written := v.written + new.length } w.member
    (logExtents s1 x1)
  let r := match v1.streams.find? fun f => f.sid = w.sid with
    | some f => let q := deliverDone s1 { noteSeqs f w.envs with done := f.done ++ new }
      (q.1, { v1 with streams := v1.streams.map fun (g : FixStream) => if g.sid = w.sid then q.2 else g })
    | none => (s1, v1)
  let a := writeMeta r.1 d w.member r.2 false
  closeCheck (fullCheck (svcDrain (setVol a.1 d k a.2) d k) d k) d k

def writeOf (v : Volume) (id : Nat) : Option NvWrite := v.writes.find? fun w => w.id = id

/-- A Write completes (R441): with success, or with an error that is retried once unless Do Not Retry is set. -/
def execNvmeWriteComplete (d slot id sct sc : Nat) (dnr : Bool) (s : State) : Out :=
  onDie d s fun s =>
    match (svcOf s d slot).vol with
    | none => s
    | some v =>
      match writeOf v id with
      | none => s
      | some w =>
        (if sct = 0 && sc = 0 then writeLanded s d slot v w
          else if w.again || dnr then failMember s d slot w.member 1 sct sc w.lba (dieTime s d)
          else setVol s d slot { v with
            writes := v.writes.map fun y => if y.id = id then { y with again := true, at_ := s.now } else y })

/-- A Write has had no completion within WRITE_TIMEOUT_MS (R441); one that comes in the last tick counts first (R10). -/
def execNvmeWriteTimeout (d slot id : Nat) (s : State) : Out :=
  onDie d s fun s =>
    match (svcOf s d slot).vol with
    | none => s
    | some v =>
      match writeOf v id with
      | none => s
      | some w =>
        (whenB (w.at_ + v.timeoutMs * msTicks < s.now) s fun s =>
          failMember s d slot w.member 2 0 0 w.lba (tickAt s d (w.at_ + v.timeoutMs * msTicks)))

/-- FLUSH_MS elapses: extents without a new envelope since then end, and the open blocks are rewritten (R440, R447); an envelope
of the last tick comes first (R10). -/
def execFixerFlushTimeout (d slot : Nat) (s : State) : Out :=
  onDie d s fun s =>
    match (svcOf s d slot).vol with
    | none => s
    | some v =>
      let dt := v.flushMs * msTicks
      (whenB (fixerRuns s d slot && (v.st = 1 || v.st = 3) && v.flushAt + dt < s.now) s fun s =>
        let v1 := (onlines v).foldl (fun v m =>
          setMember v m (logExtents s (endExtents (memberOf v m) (s.now - 1 - dt)))) { v with flushAt := s.now }
        let a := (onlines v1).foldl (fun a m => writeMeta a.1 d m a.2 true) (s, v1)
        fullCheck (setVol a.1 d slot a.2) d slot)

/-- SB_INTERVAL_MS elapses: a Flush and a superblock for every ONLINE member (R447). -/
def execSuperblockInterval (d slot : Nat) (s : State) : Out :=
  onDie d s fun s =>
    match (svcOf s d slot).vol with
    | none => s
    | some v =>
      (whenB (fixerRuns s d slot && (v.st = 1 || v.st = 3) && v.sbAt + v.sbMs * msTicks ≤ s.now) s fun s =>
        setVol (askFlushAll s d v) d slot { v with sbAt := s.now })

/-! ## Volume commands (R448, R450) -/

def isPow2 (n : Nat) : Bool := (List.range 32).any fun k => n = 2 ^ k

/-- The drive ports of a VOLUME_CREATE. -/
def createPorts (c : Cmd) : List Nat := (List.range 4).filter fun m => bitAt (pb c 1) m

/-- LOG_BLOCKS and INDEX_BLOCKS for a drive of `cap` LBAs. -/
def regionSizes (c : Cmd) (cap : Nat) : Nat × Nat :=
  let log := if fld c.payload 20 4 = 0 then ceilDiv cap (64 * fld c.payload 16 2) else fld c.payload 20 4
  (log, if fld c.payload 24 4 = 0 then log else fld c.payload 24 4)

/-- A new volume's members. -/
def newMembers (c : Cmd) (s : State) (d : Nat) : List Member :=
  (List.range 4).map fun m =>
    if bitAt (pb c 1) m then
      let g := driveOf s d m
      let r := regionSizes c (driveBlocks g)
      { noMember with
        st := 1, serial := (g.info.map (·.serial)).getD [], log := r.1, index := r.2
        data := driveBlocks g - (2 + r.1 + r.2) }
    else noMember

/-- An input stream of a new volume: it goes on from the first envelope not delivered. -/
def newFixStream (sid : Nat) : FixStream := ⟨sid, 0, 0, [], none, 0, none⟩

def volumeCreateDef : CmdDef where
  op := 0x0904
  cls := onClass clDie
  onGroup := false
  payOk := fun _ c =>
    let p := c.payload
    let st := fld p 16 2
    pb c 0 < 8 && 0 < pb c 1 && pb c 1 < 16 && pb c 2 < 4 && pb c 5 = 0 && !bitAt (fld p 6 2) 0 &&
      !bitAt (fld p 6 2) 14 && !bitAt (fld p 6 2) 15 && isPow2 st && 16 ≤ st && st ≤ 4096 &&
      1 ≤ fld p 18 2 && fld p 18 2 ≤ 10000 && 10 ≤ fld p 28 2 && fld p 28 2 ≤ 60000 && 10 ≤ fld p 30 2 &&
      fld p 30 2 ≤ 60000 && restOk c 32
  eff := fun c fid u s =>
    let d := uDie u
    let k := pb c 0
    let x := svcOf s d k
    let ms := createPorts c
    let p := c.payload
    let force := bitAt (pb c 2) 0
    if !(x.service = 1 && x.st == .running && x.vol.isNone) then (s, err stBadState)
    else if !(ms.all fun m => (driveOf s d m).suitable && (volOfDrive s d m).isNone) then (s, err stNotPermitted)
    else if !force && (ms.any fun m => sbValid (driveBlock s d m 0) || sbValid (driveBlock s d m 1)) then
      (s, err stNotPermitted)
    else if !(ms.all fun m => let b := driveBlocks (driveOf s d m); let r := regionSizes c b; 2 + r.1 + r.2 < b) then
      (s, err stBadPayload)
    else
      let v : Volume := {
        st := 0, closing := false, fid := fid, id := fld p 8 8, stripe := fld p 16 2, flushMs := fld p 18 2
        sbMs := fld p 28 2, timeoutMs := fld p 30 2, mask := fld p 6 2, setIndex := pb c 3, setCount := pb c 4
        created := dieTime s d, closed := 0, members := newMembers c s d, rot := 0
        streams := x.inputs.map fun i => newFixStream i.1
        writes := [], nextId := 0, rewrite := [], written := 0, flushAt := s.now, sbAt := s.now }
      let ops : List DrvOp := (if bitAt (pb c 2) 1 then [.dealloc] else []) ++ [.flushSb 0 0 0, .flushEnd]
      let s1 := ms.foldl (fun s m => setDrive s d m { driveOf s d m with enabled := true, ops := ops }) s
      (setVol s1 d k v, .wait)

/-- VOLUME_CREATE (R448, R450). -/
def execVolumeCreate (c : Cmd) (s : State) : Out := startCmd volumeCreateDef c s

def volumeCloseDef : CmdDef where
  op := 0x0905
  cls := onClass clDie
  onGroup := false
  payOk := fun _ c => pb c 0 < 8 && restOk c 1
  eff := fun c fid u s =>
    let d := uDie u
    let k := pb c 0
    match (svcOf s d k).vol with
    | none => (s, err stBadState)
    | some v =>
      if !(v.st = 1 || v.st = 3) || v.closing then (s, err stBadState)
      else
        let v1 := { v with
          closing := true, fid := fid, closed := dieTime s d
          streams := v.streams.map fun f =>
            { f with limit := some (fixSpool s f.sid) } }
        (closeCheck (setVol s d k v1) d k, .wait)

/-- What a timed-out VOLUME_CREATE or VOLUME_CLOSE has not done yet does not happen (R83, log entry 143): a volume not yet created goes, and
one not yet closed stays open. -/
def volumeCut (s : State) (d id : Nat) : State :=
  (List.range 8).foldl (fun s k =>
    match (svcOf s d k).vol with
    | none => s
    | some v =>
      let quiet := fun (s : State) => (onlines v).foldl (fun s m => setDrive s d m { driveOf s d m with ops := (driveOf s d m).ops.take 1 }) s
      if v.fid ≠ id then s
      else if v.st = 0 then setSvc (quiet s) d k { svcOf s d k with vol := none }
      else if v.closing then
        let v1 : Volume := { v with closing := false, closed := 0, streams := v.streams.map fun (f : FixStream) => { f with limit := none } }
        let full := (onlines v).all fun m => (lacks (memberOf v m)).isSome
        if v.st = 2 then
          setVol (quiet s) d k { v1 with st := if full then 3 else 1 }
        else setVol s d k v1
      else s) s

/-- VOLUME_CLOSE at effect time t writes every envelope formed before t, then closes (R450). -/
def execVolumeClose (c : Cmd) (s : State) : Out := startCmd volumeCloseDef c s

end Sys2Proof.Machine
end

