-- ==== Sys2Proof/Machine/Measure.lean ====
section
/-!
DEFINITION. The Densitometer's measurements of Exposure segments (R342 to R350), and its MEASURE_CONFIGURE.
-/

namespace Sys2Proof.Machine

/-! ## Samples of the gate (R343) -/

/-- A gated sample: its value, its time in fine units from the trigger, and whether a gap lies before it. -/
structure MSmp where
  x : Int
  t : Int
  gap : Bool
  deriving DecidableEq, Repr

/-- The indices of the gate of a stream's segment: −PRE to POST − 1, limited further to those of the window (R343). -/
def inGate (x : Stream) (m : MeasCfg) (i : Int) : Bool :=
  -(x.pre : Int) ≤ i && i < x.post && (!m.window || (m.gateStart ≤ i && i < m.gateStart + m.gateLen))

/-- A quotient of integers rounded half up. -/
def divHalfUp (a : Int) (b : Nat) : Int := (2 * a + b) / (2 * (b : Int))

/-- A division that rounds toward zero (R345). -/
def divZero (a : Int) (b : Nat) : Int := a.tdiv b

/-! ## Amplitudes (R344) -/

def sumX (l : List MSmp) : Int := l.foldl (fun a p => a + p.x) 0

def sumX2 (l : List MSmp) : Nat := l.foldl (fun a p => a + p.x.natAbs ^ 2) 0

def minX (l : List MSmp) : Int := l.foldl (fun a p => min a p.x) ((l.head?.map (·.x)).getD 0)

def maxX (l : List MSmp) : Int := l.foldl (fun a p => max a p.x) ((l.head?.map (·.x)).getD 0)

/-- The histogram bin of a value: one ADC code each, −128 to +127 (R344). -/
def histBin (x : Int) : Int := max (-128) (min 127 (x / 1024))

/-- The most populated bin of a list of samples; ties go to the higher bin, or the lower. -/
def modeBin (l : List MSmp) (higher : Bool) : Int :=
  ((List.range 256).map fun (i : Nat) => Int.ofNat i - 128).foldl (fun best b =>
    let n := (l.filter fun p => histBin p.x = b).length
    let m := (l.filter fun p => histBin p.x = best).length
    if m < n || (m = n && higher) then b else best) (-128)

/-- Samples of a list in its most populated bin. -/
def modeSamples (l : List MSmp) (higher : Bool) : List MSmp :=
  let b := modeBin l higher
  l.filter fun p => histBin p.x = b

/-! ## Crossings (R344, R345) -/

/-- The time at which the line between two samples reaches a level, rounded half up (R252). -/
def crossTime (a b : MSmp) (level : Int) : Int :=
  let num := (level - a.x) * (b.t - a.t)
  let den := b.x - a.x
  a.t + (if den < 0 then divHalfUp (-num) (-den).toNat else divHalfUp num den.toNat)

/-- The mid crossings with hysteresis: rising or falling, and time. -/
def midCross (mid h : Int) : Option MSmp → Bool → Bool → List MSmp → List (Bool × Int)
  | _, _, _, [] => []
  | prev, low, high, b :: r =>
    let low0 := low && !b.gap
    let high0 := high && !b.gap
    let rise := low0 && mid ≤ b.x
    let fall := high0 && b.x < mid
    let low1 := (low0 && !rise) || b.x < mid - h
    let high1 := (high0 && !fall) || mid + h ≤ b.x
    let rest := midCross mid h (some b) low1 high1 r
    match prev with
    | some a => if rise then (true, crossTime a b mid) :: rest else if fall then (false, crossTime a b mid) :: rest else rest
    | none => rest

/-- The crossings of a level without hysteresis, upward or downward. -/
def plainCross (level : Int) (up : Bool) : List MSmp → List Int
  | a :: b :: r =>
    let hit := !b.gap && (if up then a.x < level && level ≤ b.x else level ≤ a.x && b.x < level)
    if hit then crossTime a b level :: plainCross level up (b :: r) else plainCross level up (b :: r)
  | _ => []

/-- The time between two reference levels around a mid crossing at `m`: the last crossing of the first level at or
before it, and the first of the second at or after it. -/
def edgeTime (m : Int) (first second : List Int) : Option Int :=
  match (first.filter (· ≤ m)).getLast?, second.find? (m ≤ ·) with
  | some a, some b => some (b - a)
  | _, _ => none

/-- The widths of the pulses: every rising crossing with the falling one that follows it. -/
def pulses : List (Bool × Int) → List Int
  | (true, a) :: (false, b) :: r => (b - a) :: pulses ((false, b) :: r)
  | _ :: r => pulses r
  | [] => []

/-! ## Results (R344 to R346) -/

/-- A measurement's 64 bits: value, VALID and SAT; the value saturates (R344, R346, R349). -/
def measWord (signed enabled : Bool) (v : Option Int) : Nat :=
  match v with
  | some x =>
    if !enabled then 0
    else
      let lim : Int := if signed then 2 ^ 31 - 1 else 2 ^ 32 - 1
      let y := min lim (max (if signed then -lim else 0) x)
      unsgn 32 y + 2 ^ 32 + b2n (y ≠ x) * 2 ^ 33
  | none => 0

/-- The measurements that are signed (R344). -/
def measSigned (i : Nat) : Bool := i = 0 || i = 1 || i = 3 || i = 6 || i = 7 || i = 8 || i = 15

/-- The 16 measurements of a gate (R344, R345), none where undefined. -/
def measure (m : MeasCfg) (l : List MSmp) (s : State) : List (Option Int) × State :=
  if l.isEmpty then (List.replicate 16 none, s)
  else
    let n := l.length
    let mn := minX l
    let mx := maxX l
    let sx := sumX l
    let mid := (mn + mx) / 2
    let hi := modeSamples (l.filter fun p => mid ≤ p.x) true
    let lows := l.filter fun p => p.x < mid
    let lo := modeSamples lows false
    let top := openDivInt s (sumX hi) hi.length
    let base := if lows.isEmpty then (mn, top.2) else openDivInt top.2 (sumX lo) lo.length
    let t := if m.fixed then m.fixedTop else top.1
    let b := if m.fixed then m.fixedBase else base.1
    let amp := t - b
    let lev := fun (p : Int) => b + divZero (amp * p) 100
    let lMid := b + divZero amp 2
    let lLo := lev (if m.ref2080 then 20 else 10)
    let lHi := lev (if m.ref2080 then 80 else 90)
    let mc := midCross lMid (divZero (amp * m.hyst) 64) none false false l
    let rises := (mc.filter (·.1)).map (·.2)
    let firstOf := fun (up : Bool) => (mc.find? fun x => x.1 = up && 0 ≤ x.2).map (·.2)
    let rise := (firstOf true).bind fun x => edgeTime x (plainCross lLo true l) (plainCross lHi true l)
    let fall := (firstOf false).bind fun x => edgeTime x (plainCross lHi false l) (plainCross lLo false l)
    let period := match rises.head?, rises.getLast? with
      | some a, some z => if 2 ≤ rises.length then some (divHalfUp (z - a) (rises.length - 1)) else none
      | _, _ => none
    let ps := pulses mc
    let width := if ps.isEmpty then (none, base.2)
      else let w := openDivInt base.2 (ps.foldl (· + ·) 0) ps.length; (some w.1, w.2)
    let duty := match width.1, period with
      | some w, some p => if p ≤ 0 then (none, width.2) else
          let q := openDivInt width.2 (w * 65536) p.toNat
          let v := drawFree q.2
          if 65536 < q.1 then (some (Int.ofNat (v.1.toNat % 65537)), v.2) else (some q.1, q.2)
      | _, _ => (none, width.2)
    let timed := fun (v : Option Int) => if amp < 1024 then none else v
    let mean2 := n * sumX2 l - sx.natAbs ^ 2
    ([some mn, some mx, some (mx - mn), some (divHalfUp sx n), some (sqrtRound (sumX2 l) n : Int),
      some (sqrtRound mean2 (n * n) : Int), some top.1, some base.1, some (top.1 - base.1),
      timed rise, timed fall, timed period, timed width.1, timed duty.1, timed (some (mc.length : Int)),
      timed ((mc.find? fun x => 0 ≤ x.2).map (·.2))], duty.2)

/-- The measurement envelope of a closed segment (R349): NOT_MEASURED when the Densitometer sleeps (R350) or the die is in Safelight
mode (R351). -/
def measureEnv (s : State) (d i : Nat) (k : Closing) (asleep : Bool) : Env × State :=
  let m := k.set
  let y := streamOf s d i
  let gate := (k.smps.mapIdx fun j x => ((j : Int) - k.trigIdx, x)).filter fun p => inGate y m p.1
  let l := gate.map fun p => (⟨sampleVal y.format m.input p.2.val, stampDiff p.2.time k.trigTime, p.2.gap⟩ : MSmp)
  let r := if asleep then (List.replicate 16 none, s) else measure m l s
  let stale := gate.any fun p => p.2.stale
  let gap := (gate.drop 1).any fun p => p.2.gap
  let first : Stamp × State := match gate with
    | p :: _ => (p.2.time, r.2)
    | [] => drawFree r.2
  let info := gate.length % 2 ^ 32 + 2 ^ 32 * (b2n k.trunc + 2 * b2n stale + 4 * b2n gap + 8 * b2n asleep + 16 * b2n m.fixed) +
    2 ^ 48 * m.input
  let results := r.1.mapIdx fun j v =>
    (⟨BitVec.ofNat 64 (measWord (measSigned j) (bitAt m.mask j) v), BitVec.ofNat 8 j, false⟩ : CWord)
  let words : List CWord := [⟨k.trigTime, 0x40, false⟩, ⟨BitVec.ofNat 64 info, 0xC0, false⟩] ++ results
  ({ newEnv (key d i) 4 k.num first.1 with
      words := words, times := words.map fun _ => first.1, segLast := true, stale := stale, truncated := k.trunc }, first.2)

/-- A cycle of an accumulator's clock in fine units, as a fraction: 16 input periods, or FCLK without input (R19, R324). -/
def accCycle (s : State) (d c : Nat) : Nat × Nat :=
  match (chainOf s d c).lane with
  | some n => if inputOk s d c then (16 * (inputPeriod s d n).1, (inputPeriod s d n).2) else (256, 1)
  | none => (256, 1)

/-- The samples read back: those of the gate or of the TIME sheet's columns (R347). -/
def readBackLen (s : State) (d c : Nat) (k : Closing) : Nat :=
  let g := (accOf s d c).cfg
  ((List.range k.smps.length).filter fun (j : Nat) =>
    let i : Int := (j : Int) - k.trigIdx
    (k.set.enable && inGate (streamOf s d (expoOf c)) k.set i) || (timeSheet s d c && 0 ≤ timeCol g i && timeCol g i < colsOf g)).length

/-- The cycles from the segment's last sample to the end of its measurement: 32 samples a cycle, and 64 for the envelope (R347). -/
def measureCycles (s : State) (d c : Nat) (k : Closing) : Nat :=
  (if k.readBack then ceilDiv (readBackLen s d c k) 32 else 0) + if k.set.enable then 64 else 0

/-- The read-back and the envelope of a segment can be over at the current tick; a Densitometer that sleeps
or whose die is in Safelight mode does neither (R350, R351). -/
def measureDue (s : State) (d c : Nat) (k : Closing) : Bool :=
  let p := accCycle s d c
  !takesInc s d || decide (measureCycles s d c k * p.1 ≤ (s.now - k.tclosePhys) * 256 * p.2)

/-- DENSITOMETER_READBACK_DONE (R347, R348): the oldest closed segment that waits is read back into its TIME sheet and
measured, and may then complete. -/
def execDensitometerReadbackDone (d c : Nat) (s : State) : Out :=
  onDie d s fun s =>
    let i := expoOf c
    let x := streamOf s d i
    match x.closing.find? (·.need) with
    | none => s
    | some k =>
      whenB (c < 2 && measureDue s d c k) s fun s =>
        let up := takesInc s d
        let s1 := if up then sheetSegment s d c x.format k.smps k.trigIdx k.tclose k.tclosePhys else s
        let r : Option Env × State := if k.set.enable then
            let e := measureEnv s1 d i k (!up)
            (some e.1, wrapF e.2 d (fDnsMeasCntCount c) 1)
          else (none, s1)
        let y := streamOf r.2 d i
        setStream r.2 d i { y with
          closing := y.closing.map fun a => if a.num = k.num then { a with need := false, measEnv := r.1 } else a }

/-! ## MEASURE_CONFIGURE (R342, R353) -/

def measPay (c : Cmd) : MeasCfg :=
  let p := c.payload
  ⟨bitAt (pb c 1) 0, bitAt (pb c 1) 1, bitAt (pb c 1) 2, fld p 2 2, pb c 4, pb c 5, pb c 6 = 1, sgn 32 (fld p 8 4), fld p 12 4,
    sgn 32 (fld p 16 4), sgn 32 (fld p 20 4)⟩

def measureConfigureDef : CmdDef where
  op := 0x0601
  cls := onClass clDens
  onGroup := false
  payOk := fun _ c =>
    let m := measPay c
    pb c 0 < 2 && pb c 1 < 8 && m.input < 3 && m.hyst < 16 && pb c 6 < 2 && pb c 7 = 0 && 1 ≤ m.gateLen &&
      m.gateLen ≤ 2 ^ 31 && m.fixedBase < m.fixedTop && restOk c 24
  eff := fun c _ u s =>
    let d := uDie u
    let k := pb c 0
    if safelight s d then (s, err stSafelight)
    else if (measPay c).enable != (measOf s d k).enable && armed (streamOf s d (expoOf k)) then (s, err stBadState)
    else
      let x := streamOf s d (expoOf k)
      (setMeas (keepMeas s d k (if armed x then x.seg.entry else s.now)) d k (measPay c), ok)

/-- MEASURE_CONFIGURE (R342). -/
def execMeasureConfigure (c : Cmd) (s : State) : Out := startCmd measureConfigureDef c s

end Sys2Proof.Machine
end

