-- ==== Sys2Proof/Machine/Probe.lean ====
section
/-!
DEFINITION. Probe ports, bias outputs, PWM and housekeeping ADC (R511 to R535).
-/

namespace Sys2Proof.Machine

def probeOf (s : State) (d p : Nat) : Probe := tget Probe.reset s.prb.probes (key d p)

def setProbe (s : State) (d p : Nat) (x : Probe) : State :=
  { s with prb := { s.prb with probes := tset Probe.reset s.prb.probes (key d p) x } }

def pwmOf (s : State) (d p : Nat) : Pwm := tget Pwm.reset s.prb.pwms (key d p)

def setPwm (s : State) (d p : Nat) (x : Pwm) : State :=
  { s with prb := { s.prb with pwms := tset Pwm.reset s.prb.pwms (key d p) x } }

def biasOf (s : State) (d p : Nat) : Bias := tget Bias.reset s.prb.biases (key d p)

def setBias (s : State) (d p : Nat) (x : Bias) : State :=
  { s with prb := { s.prb with biases := tset Bias.reset s.prb.biases (key d p) x } }

def hkaOf (s : State) (d : Nat) : Hka := tget Hka.reset s.prb.hkas d

def setHka (s : State) (d : Nat) (x : Hka) : State := { s with prb := { s.prb with hkas := tset Hka.reset s.prb.hkas d x } }

def probeUid (d p : Nat) : Nat := uid d clProbe p

def biasUid (d p : Nat) : Nat := uid d clBias p

def hkaUid (d : Nat) : Nat := uid d clHkAdc 0

/-- A row about port `p` of die `d`: each die has two probe ports. -/
def onProbe (d p : Nat) (s : State) (f : State → State) : Out := onDie d s fun s => whenB (p < 2) s f

/-- The physical ticks since `t` in whole hk-cycles of die `d`, as its own HKCLK counts them (R6). -/
def hkCount (s : State) (d t : Nat) : Nat := (s.now - t) * 1000 / hkPeriod s d

/-! ## Bias outputs (R514 to R525) -/

/-- LOW and HIGH of a range, in tenths of a volt or of a milliampere (R514). -/
def rangeEnds (range : Nat) : Int × Int :=
  match range with
  | 0 => (-10, 33)
  | 1 => (0, 12)
  | 2 => (0, 240)
  | _ => (0, 24)

/-- The output value of a code in a range: LOW + code × (HIGH − LOW) / 65,536, in tenths of a volt or of a milliampere (R514). -/
def outputValue (range code : Nat) : Rat :=
  ((rangeEnds range).1 : Rat) + (code : Rat) * (((rangeEnds range).2 - (rangeEnds range).1 : Int) : Rat) / 65536

/-- The zero code of a range: the code nearest 0 V or 0 mA (R514). -/
def zeroCode (range : Nat) : Nat := if range = 0 then 15241 else 0

def biasRange (s : State) (d p : Nat) : Nat := getF s d (fPbdCfgRange p)

/-- The code the limiter moves towards. -/
def biasGoal (s : State) (d p : Nat) : Nat :=
  let b := biasOf s d p
  match b.phase with
  | .plain => b.target
  | .toTarget => b.target
  | .toZ => zeroCode (biasRange s d p)
  | .gap => b.code
  | .off => zeroCode (biasRange s d p)

/-- The pin holds the code the limiter moves towards. -/
def biasSettled (s : State) (d p : Nat) : Bool :=
  let b := biasOf s d p
  b.driving && b.hold.isNone && b.code = biasGoal s d p

/-- The code whose value the pin holds: the converter's, or the one from before the step while the deglitcher holds (R516). -/
def pinCode (b : Bias) : Nat := match b.hold with | some h => h.2 | none => b.code

/-- What PB_BIAS drives, in tenths of a volt or of a milliampere; nothing while it is high-impedance (R514, R516, R517). -/
def pinOutput (s : State) (d p : Nat) : Option Rat :=
  let b := biasOf s d p
  if b.driving then some (outputValue (biasRange s d p) (pinCode b)) else none

/-- BIAS_SET commands that waited for an earlier value complete (R532). -/
def biasReplace (s : State) (d p : Nat) : State :=
  let b := biasOf s d p
  unitsDone (setBias s d p { b with settleFids := [] }) (biasUid d p) 0 (dieTime s d) b.settleFids

/-- A range change ends: EV_BIAS_RANGE_DONE, and its command completes (R520, R521). -/
def rangeDone (s : State) (d p cause : Nat) : State :=
  let b := biasOf s d p
  let s1 := post s d 0x0B01 (biasUid d p) (dieTime s d)
    (leBytes 1 b.newRange ++ leBytes 1 cause ++ leBytes 2 b.code ++ leBytes 4 (hkCount s d b.began))
  unitDone s1 b.fid (biasUid d p) 0 0 [] (dieTime s1 d)

/-- The least time between reports of one kind: 2^12 hk-cycles (R524, R529). -/
def reportGap (s : State) (d : Nat) : Nat := hkMin s d 4096

/-- EV_BIAS_COMPLIANCE (R524, R534). -/
def biasReport (s : State) (d p kind : Nat) (on : Bool) : State :=
  let b := biasOf s d p
  post s d 0x0B02 (biasUid d p) (dieTime s d)
    (leBytes 1 kind ++ leBytes 1 (if on then 1 else 2) ++ leBytes 2 b.target ++ leBytes 2 b.code)

/-- A condition starts or ends: reported at once, or at the end of the holdoff (R524). -/
def condChange (s : State) (d : Nat) (c : BiasCond) (on : Bool) : BiasCond × Bool :=
  let free : Bool := match c.last with | some t => t + reportGap s d ≤ s.now | none => true
  if free then (⟨on, some s.now, false⟩, true) else (⟨on, c.last, true⟩, false)

/-- The pin goes high-impedance, which ends a limit or compliance condition (R522 to R524). -/
def condsEnd (s : State) (d p : Nat) : State :=
  let b := biasOf s d p
  let l := if b.limit.on then condChange s d b.limit false else (b.limit, false)
  let k := if b.compl.on then condChange s d b.compl false else (b.compl, false)
  let s1 := setBias s d p { b with driving := false, hold := none, limit := l.1, compl := k.1 }
  let s2 := if k.2 then biasReport s1 d p 1 false else s1
  if l.2 then biasReport s2 d p 2 false else s2

/-- The pin goes high-impedance; a range change under way ends DISABLED, with the new range set (R521). -/
def biasHighZ (s : State) (d p : Nat) : State :=
  let b := biasOf s d p
  let chg := b.phase == .toZ || b.phase == .gap || b.phase == .toTarget || (b.phase == .off && b.offDue)
  let s1 := if chg then setF s d (fPbdCfgRange p) b.newRange else s
  let s2 := condsEnd (setBias s1 d p { b with phase := .plain, offDue := false }) d p
  if chg then rangeDone s2 d p 2 else s2

/-- What follows once the converter stands at its goal with no hold active: the gap of a range change, its end, the end
of a turn-off, or settled BIAS_SET commands (R518, R520, R532). -/
def biasArrive (s : State) (d p : Nat) : State :=
  let b := biasOf s d p
  if !biasSettled s d p then s
  else
    match b.phase with
    | .toZ =>
      if b.offDue then biasHighZ s d p
      else condsEnd (setBias s d p { b with phase := .gap, gapAt := s.now }) d p
    | .off => biasHighZ s d p
    | .toTarget => biasReplace (rangeDone (setBias s d p { b with phase := .plain }) d p 1) d p
    | .plain => biasReplace s d p
    | .gap => s

/-- Gives the limiter a new goal: where it stood still, the first step comes INTERVAL after now (R515). -/
def biasRetarget (s : State) (d p : Nat) (b : Bias) : State :=
  let still := (biasOf s d p).code = biasGoal s d p
  biasArrive (setBias s d p (if still then { b with stepAt := s.now } else b)) d p

/-- The channel may drive its pin: AWAKE and enabled (R517). -/
def biasEnabled (s : State) (d p : Nat) : Bool := awake s (biasUid d p) && flagF s d (fPbdCtlEn p)

/-- An update of the target: a BIAS_SET, or a strobe that applies PBD_TARGET (R517, R519, R521, R522). -/
def biasUpdate (s0 : State) (d p code : Nat) : State :=
  let s := biasReplace s0 d p
  let b := biasOf s d p
  match b.phase with
  | .plain =>
    if b.driving then biasRetarget s d p { b with target := code }
    else if biasEnabled s d p then
      biasArrive (setBias s d p { b with
        target := code, driving := true, tripped := false, code := zeroCode (biasRange s d p), stepAt := s.now }) d p
    else setBias s d p { b with target := code }
  | .toTarget => biasRetarget s d p { b with target := code }
  | _ => setBias s d p { b with target := code }

/-- The output is turned off (R518, R521): it slews to Z and then goes high-impedance. -/
def biasOff (s : State) (d p : Nat) : State :=
  let b := biasOf s d p
  match b.phase with
  | .plain => if b.driving then biasRetarget s d p { b with phase := .off, newRange := biasRange s d p } else s
  | .toZ => setBias s d p { b with offDue := true }
  | .gap => biasHighZ s d p
  | .toTarget => biasRetarget s d p { b with phase := .off, offDue := true }
  | .off => s

/-- The limiter steps (R515, R516). -/
def execBiasSlewStep (d p : Nat) (s : State) : Out :=
  onProbe d p s fun s =>
    let b := biasOf s d p
    let goal := biasGoal s d p
    let due := b.stepAt + hkMin s d (getF s d (fPbdCfgIntervalM1 p) + 1)
    whenB (b.driving && b.code ≠ goal && b.hold.isNone && due ≤ s.now) s fun s =>
      let step := getF s d (fPbdCfgStepM1 p) + 1
      let code := if b.code < goal then b.code + min step (goal - b.code) else b.code - min step (b.code - goal)
      biasArrive (setBias s d p { b with
        code := code, stepAt := s.now, hold := if code / 4096 = b.code / 4096 then none else some (s.now, b.code) }) d p

/-- The deglitcher's hold of 25 hk-cycles ends (R516). -/
def execDeglitchHoldEnd (d p : Nat) (s : State) : Out :=
  onProbe d p s fun s =>
    let b := biasOf s d p
    match b.hold with
    | some h => whenB (h.1 + hkMin s d 25 ≤ s.now) s fun s => biasArrive (setBias s d p { b with hold := none }) d p
    | none => s

/-- The gap of a range change ends after 125 hk-cycles: the new range is set and its Z driven (R520). -/
def execBiasRangeHighzEnd (d p : Nat) (s : State) : Out :=
  onProbe d p s fun s =>
    let b := biasOf s d p
    whenB (b.phase == .gap && b.gapAt + hkMin s d 125 ≤ s.now) s fun s =>
      biasArrive (setBias (setF s d (fPbdCfgRange p) b.newRange) d p { b with
        phase := .toTarget, driving := true, code := zeroCode b.newRange, stepAt := s.now }) d p

/-- A voltage-range output starts or stops limiting its current (R522). -/
def execBiasLimitChange (d p : Nat) (on : Bool) (s : State) : Out :=
  onProbe d p s fun s =>
    let b := biasOf s d p
    whenB (b.driving && biasRange s d p < 2 && b.limit.on != on) s fun s =>
      let r := condChange s d b.limit on
      let s1 := setBias s d p { b with limit := r.1, limitAt := if on then s.now else b.limitAt }
      let s2 := if on then setFlag s1 d (fPbdStatLimitSeen p) true else s1
      if r.2 then biasReport s2 d p 2 on else s2

/-- A current-range output reaches or leaves its compliance limit (R523). -/
def execBiasComplianceChange (d p : Nat) (on : Bool) (s : State) : Out :=
  onProbe d p s fun s =>
    let b := biasOf s d p
    whenB (b.driving && 2 ≤ biasRange s d p && b.compl.on != on) s fun s =>
      let r := condChange s d b.compl on
      let s1 := setBias s d p { b with compl := r.1 }
      let s2 := if on then setFlag s1 d (fPbdStatComplianceSeen p) true else s1
      if r.2 then biasReport s2 d p 1 on else s2

/-- The report holdoff of one kind ends: the state then is posted when changes were held back (R524). -/
def condHoldoff (s : State) (d : Nat) (c : BiasCond) : BiasCond × Bool :=
  match c.last with
  | some t => if c.owes && t + reportGap s d ≤ s.now then (⟨c.on, some s.now, false⟩, true) else (c, false)
  | none => (c, false)

/-- The report holdoff ends (R524). -/
def execBiasReportHoldoffEnd (d p : Nat) (s : State) : Out :=
  onProbe d p s fun s =>
    let b := biasOf s d p
    let k := condHoldoff s d b.compl
    let l := condHoldoff s d b.limit
    let s1 := setBias s d p { b with compl := k.1, limit := l.1 }
    let s2 := if k.2 then biasReport s1 d p 1 b.compl.on else s1
    if l.2 then biasReport s2 d p 2 b.limit.on else s2

/-- A limit that lasts TRIP_MS trips the channel (R522); a break in the last tick comes first (R10). -/
def execBiasLimitTrip (d p : Nat) (s : State) : Out :=
  onProbe d p s fun s =>
    let b := biasOf s d p
    let ms := getF s d (fPbdCtlTripMs p)
    whenB (b.driving && b.limit.on && ms ≠ 0 && b.limitAt + hkMin s d (ms * 12500) < s.now) s fun s =>
      let s1 := biasReport s d p 3 true
      let s2 := biasHighZ s1 d p
      setBias s2 d p { biasOf s2 d p with tripped := true }

/-- Clearing PBD_CTL.EN turns the output off (R518). -/
def biasCtlWrite (s : State) (d p : Nat) (old : Bool) : State :=
  if old && !flagF s d (fPbdCtlEn p) then biasOff s d p else s

def biasConfigureDef : CmdDef where
  op := 0x0B02
  cls := onClass clBias
  onGroup := false
  payOk := fun _ c =>
    let p := c.payload
    pb c 0 < 4 && pb c 1 = 0 && 1 ≤ fld p 2 2 && fld p 2 2 ≤ 4096 && 1 ≤ fld p 4 4 && fld p 4 4 ≤ 65536 && restOk c 10
  eff := fun c fid u s =>
    let d := uDie u
    let p := uIdx u
    let b := biasOf s d p
    let busy := b.phase == .toZ || b.phase == .gap || b.phase == .toTarget || b.offDue
    if !awake s u then (s, err stBadState)
    else if busy then (s, err stBusy)
    else
      let s1 := setF (setF s d (fPbdCfgStepM1 p) (fld c.payload 2 2 - 1)) d (fPbdCfgIntervalM1 p) (fld c.payload 4 4 - 1)
      let range := pb c 0
      if range = biasRange s d p then (s1, ok)
      else
        let s2 := biasReplace s1 d p
        let b2 := { biasOf s2 d p with newRange := range, began := s.now, fid := fid }
        if b.driving then
          (biasRetarget s2 d p { b2 with phase := .toZ, target := fld c.payload 8 2, offDue := b.phase == .off }, .wait)
        else
          (rangeDone (setBias (setF s2 d (fPbdCfgRange p) range) d p { b2 with target := fld c.payload 8 2 }) d p 1, .wait)

/-- A BIAS_CONFIGURE has run out of time (R83): the steps of R520 it has not begun are not taken, so a slew to Z ends
there in the old range, and a pin that has gone high-impedance stays so. -/
def biasCut (s : State) (d p id : Nat) : State :=
  let b := biasOf s d p
  if b.fid ≠ id then s
  else
    match b.phase with
    | .toZ => setBias s d p (if b.offDue then { b with phase := .off, offDue := false, newRange := biasRange s d p }
        else { b with phase := .plain, target := zeroCode (biasRange s d p) })
    | .gap => setBias s d p { b with phase := .plain }
    | _ => s

/-- BIAS_CONFIGURE (R520, R532). -/
def execBiasConfigure (c : Cmd) (s : State) : Out := startCmd biasConfigureDef c s

def biasSetDef : CmdDef where
  op := 0x0B03
  cls := onClass clBias
  onGroup := false
  payOk := fun _ c => pb c 2 < 2 && restOk c 3
  eff := fun c fid u s =>
    let d := uDie u
    let p := uIdx u
    let code := fld c.payload 0 2
    if !awake s u then (s, err stBadState)
    else
      let v := putFld (fPbdTargetCode p) 0 code
      let s1 := biasUpdate (setShadow (setReg s d (rPbdTarget p) v) d (rPbdTarget p) v) d p code
      if pb c 2 = 0 || (biasSettled s1 d p && (biasOf s1 d p).phase == .plain) then (s1, ok)
      else (setBias s1 d p { biasOf s1 d p with settleFids := [fid] }, .wait)

/-- BIAS_SET (R519, R532). -/
def execBiasSet (c : Cmd) (s : State) : Out := startCmd biasSetDef c s

/-! ## Housekeeping ADC (R527 to R531) -/

/-- EV_HKADC_OVERRUN for overruns not yet reported, at most once per 2^12 hk-cycles (R529). -/
def hkReport (s : State) (d : Nat) : State :=
  let h := hkaOf s d
  let free := match h.overLast with | some t => t + reportGap s d ≤ s.now | none => true
  if h.overs = 0 || !free then s
  else
    post (setHka s d { h with overs := 0, overLast := some s.now }) d 0x0B03 (hkaUid d) h.overFirst.1
      (leBytes 4 h.overs ++ leBytes 1 h.overFirst.2)

/-- A start or trigger is lost (R529). -/
def hkOverrun (s : State) (d src : Nat) : State :=
  let h := hkaOf s d
  hkReport (setHka (incF s d fHkaOverrunCount) d { h with
    overs := h.overs + 1, overFirst := if h.overs = 0 then (dieTime s d, src) else h.overFirst }) d

/-- The channel after `ch` that SCAN visits, wrapping from 7 to 0 (R528). -/
def nextScan (scan ch : Nat) : Nat :=
  (((List.range 8).map fun i => (ch + 1 + i) % 8).find? fun n => bitAt scan n).getD ch

/-- A conversion begins on HKA_CH.CH, or on a calibration's channel (R528, R531). -/
def hkBegin (s : State) (d : Nat) : State :=
  let h := hkaOf s d
  match h.cal with
  | some k => setHka s d { h with conv := some ⟨dieTime s d, s.now, k.ch, true⟩ }
  | none =>
    let ch := getF s d fHkaChCh
    let scan := getF s d fHkaChScan
    let s1 := if scan = 0 then s else setF s d fHkaChCh (nextScan scan ch)
    setHka s1 d { h with conv := some ⟨dieTime s d, s.now, ch, false⟩ }

/-- The conversion is in its final hk-cycle, whose end comes before a start of that cycle (R527, R529). -/
def hkEnding (s : State) (d : Nat) : Bool := (hkaOf s d).conv.any fun v => v.at_ + hkMin s d 12 ≤ s.now

/-- A start: a conversion begins, or is held pending while one runs, or is lost; in the conversion's final hk-cycle it is
held behind the pending one, which the end lets begin first (R529). -/
def hkStart (s : State) (d : Nat) : State :=
  let h := hkaOf s d
  if h.conv.isNone then hkBegin s d
  else if !h.pending then setHka s d { h with pending := true }
  else if !h.late && hkEnding s d then setHka s d { h with late := true }
  else hkOverrun s d (getF s d fHkaCfgSource)

/-- A trigger starts the delay; one that arrives while the delay runs is lost (R528, R529). -/
def hkTrigger (s : State) (d : Nat) : State :=
  let h := hkaOf s d
  let delay := getF s d fHkaDelayDelay
  if h.delayEnd.isSome then hkOverrun s d 3
  else if delay = 0 then hkStart s d
  else setHka s d { h with delayEnd := some (s.now + hkMin s d delay) }

/-- The HK timer period elapses (R528). -/
def execHkTimer (d : Nat) (s : State) : Out :=
  onDie d s fun s =>
    let h := hkaOf s d
    let t := h.timerAt + hkMin s d (getF s d fHkaPeriodPeriod)
    whenB (awake s (hkaUid d) && getF s d fHkaCfgSource = 1 && t ≤ s.now) s fun s =>
      hkTrigger (setHka s d { h with timerAt := s.now }) d

/-- A start delay ends (R528). -/
def execHkDelayEnd (d : Nat) (s : State) : Out :=
  onDie d s fun s =>
    let h := hkaOf s d
    match h.delayEnd with
    | some t => whenB (t ≤ s.now) s fun s => hkStart (setHka s d { h with delayEnd := none }) d
    | none => s

/-- A raw result under the channel's calibration (R531). -/
def hkCorrect (s : State) (d ch raw : Nat) : Nat :=
  if 6 ≤ ch then raw
  else
    let gain := getF s d (fHkaCalGain ch)
    let ofs := sgn 16 (getF s d (fHkaCalOffset ch))
    (max 0 (min 65535 (divHalfUp ((gain : Int) * ((raw : Int) - ofs)) 32768))).toNat

/-- The start time of a conversion enters HKA_LAST (R530). -/
def hkLast (s : State) (d t : Nat) : State :=
  setF (setF s d fHkaLastLoTime (t * 256 % 2 ^ 32)) d fHkaLastHiTime (t * 256 / 2 ^ 32)

/-- A conversion's result is written (R530). -/
def hkResult (s : State) (d : Nat) (v : HkConv) (raw : Nat) : State :=
  let s1 := setF s d (fHkaResultValue v.ch) (hkCorrect s d v.ch raw)
  setFlag (wrapF s1 d (fHkaResultSeq v.ch) 1) d (fHkaResultNew v.ch) true

/-- The gain (LSB 2^-15) and offset of a full-scale calibration, from the sums of 256 codes and the reference codes;
none when the gain lies outside its limits.  How the stored gain is rounded is not stated: a free value. -/
def calFit (s : State) (sz zr sf fr : Nat) : Option ((Nat × Int) × State) :=
  let dm : Int := (sf : Int) - sz
  let dr : Int := ((fr : Int) - zr) * 256
  let num := if dm < 0 then -dr else dr
  let den := dm.natAbs
  if den = 0 || num * 8 < 7 * den || 9 * (den : Int) < num * 8 then none
  else
    let g := openDiv s (num.toNat * 32768) den
    let a : Int := (sz : Int) * num - 256 * (zr : Int) * den
    some ((max 28672 (min 36864 g.1), divHalfUp a (256 * num.toNat)), g.2)

/-- A calibration's 256 conversions are done (R531, R533). -/
def calEnd (s : State) (d : Nat) (k : HkCal) : State :=
  let h := hkaOf s d
  let m := openDiv (setHka s d { h with cal := none }) k.sum 16
  let u := hkaUid d
  let s1 := m.2
  let h1 := hkaOf s1 d
  if !k.fs then
    unitDone (setHka s1 d { h1 with zero := tset none h1.zero k.ch (some (k.sum, k.ref)) }) k.fid u 0 0 (leBytes 4 m.1) (dieTime s1 d)
  else
    match tget none h1.zero k.ch with
    | none => unitDone s1 k.fid u stBadState 0 [] (dieTime s1 d)
    | some z =>
      match calFit s1 z.1 z.2 k.sum k.ref with
      | none => unitDone s1 k.fid u stRateUnsupported 0 [] (dieTime s1 d)
      | some f =>
        let s2 := setF (setF f.2 d (fHkaCalGain k.ch) f.1.1) d (fHkaCalOffset k.ch) (unsgn 16 f.1.2)
        let s3 := setHka s2 d { hkaOf s2 d with zero := tset none h1.zero k.ch none }
        unitDone s3 k.fid u 0 0 (leBytes 4 m.1 ++ leBytes 4 (reg s3 d (rHkaCal k.ch)).toNat) (dieTime s3 d)

/-- The conversion that comes next: a calibration's own, or the pending start (R529, R531). -/
def hkNext (s : State) (d : Nat) : State :=
  let h := hkaOf s d
  if h.cal.isSome then hkBegin s d
  else if h.pending then hkBegin (setHka s d { h with pending := h.late, late := false }) d
  else s

/-- A conversion ends, 1 µs after its start (R527, R530). -/
def execHkConversionEnd (d raw : Nat) (s : State) : Out :=
  onDie d s fun s =>
    let h := hkaOf s d
    match h.conv with
    | none => s
    | some v =>
      whenB (v.at_ + usTicks * (1000 - hkTol s d) / 1000 ≤ s.now) s fun s =>
        let r := raw % 65536
        let s1 := hkLast (setHka s d { h with conv := none }) d v.time
        match v.cal, h.cal with
        | true, some k =>
          let k1 := { k with n := k.n + 1, sum := k.sum + r }
          let s2 := setHka s1 d { hkaOf s1 d with cal := some k1 }
          hkNext (if k1.n = 256 then calEnd s2 d k1 else s2) d
        | true, none => hkNext s1 d
        | false, _ => hkNext (hkResult s1 d v r) d

def hkadcConfigureDef : CmdDef where
  op := 0x0B05
  cls := onClass clHkAdc
  onGroup := false
  payOk := fun _ c =>
    let p := c.payload
    pb c 0 < 3 && pb c 1 < 2 && pb c 2 < 3 && pb c 3 = 0 && 13 ≤ fld p 4 4 && fld p 4 4 ≤ 65536 && restOk c 10
  eff := fun c _ u s =>
    let d := uDie u
    if !awake s u then (s, err stBadState)
    else
      let s1 := setF (setF (setF s d fHkaCfgSource (pb c 0)) d fHkaCfgEdge (pb c 2)) d fHkaCfgPort (pb c 1)
      let s2 := setF (setF s1 d fHkaPeriodPeriod (fld c.payload 4 4)) d fHkaDelayDelay (fld c.payload 8 2)
      (setHka s2 d { hkaOf s2 d with timerAt := s.now }, ok)

/-- HKADC_CONFIGURE (R528). -/
def execHkadcConfigure (c : Cmd) (s : State) : Out := startCmd hkadcConfigureDef c s

/-- Starts a calibration's conversions, after the one that runs. -/
def calBegin (s : State) (d : Nat) (k : HkCal) : State :=
  let s1 := setHka s d { hkaOf s d with cal := some k }
  if (hkaOf s1 d).conv.isNone then hkBegin s1 d else s1

/-- HKA_CAL_ZERO and HKA_CAL_FS (R531). -/
def calDef (fs : Bool) : CmdDef where
  op := if fs then 0x0B07 else 0x0B06
  cls := onClass clHkAdc
  onGroup := false
  payOk := fun _ c => pb c 0 < 6 && pb c 1 = 0 && restOk c 4
  eff := fun c fid u s =>
    let d := uDie u
    let h := hkaOf s d
    if !awake s u then (s, err stBadState)
    else if h.cal.isSome then (s, err stBusy)
    else if fs && (tget none h.zero (pb c 0)).isNone then (s, err stBadState)
    else (calBegin s d ⟨fs, pb c 0, fld c.payload 2 2, 0, 0, fid⟩, .wait)

/-- A calibration command has run out of time (R83): it takes no more conversions and writes nothing. -/
def hkCalCut (s : State) (d id : Nat) : State :=
  match (hkaOf s d).cal with
  | some k => if k.fid = id then setHka s d { hkaOf s d with cal := none } else s
  | none => s

/-- HKA_CAL_ZERO (R531). -/
def execHkaCalZero (c : Cmd) (s : State) : Out := startCmd (calDef false) c s

/-- HKA_CAL_FS (R531). -/
def execHkaCalFs (c : Cmd) (s : State) : Out := startCmd (calDef true) c s

/-- The HK ADC leaves AWAKE: conversions, delays and a calibration end. -/
def hkaStop (s : State) (d : Nat) : State :=
  let h := hkaOf s d
  let s1 := setHka s d { h with conv := none, pending := false, late := false, delayEnd := none, cal := none }
  match h.cal with
  | some k => unitDone s1 k.fid (hkaUid d) stAborted 0 [] (dieTime s1 d)
  | none => s1

/-! ## PWM (R526) -/

/-- The PWM pin takes a level; an edge may start an HK ADC conversion (R526, R528). -/
def pwmLevel (s : State) (d p : Nat) (level : Bool) : State :=
  let w := pwmOf s d p
  if w.level = level then s
  else
    let s1 := setPwm s d p { w with level := level }
    let e := getF s d fHkaCfgEdge
    if getF s d fHkaCfgSource = 2 && getF s d fHkaCfgPort = p && awake s (hkaUid d) && edgeMatch e level then hkTrigger s1 d
    else s1

/-- The configuration in force: EN, INVERT, PERIOD, HIGH. -/
def pwmCfg (s : State) (d p : Nat) : Bool × Bool × Nat × Nat :=
  (flagF s d (fPbdPwmCtlEn p), flagF s d (fPbdPwmCtlInvert p), getF s d (fPbdPwmPeriod p), getF s d (fPbdPwmHigh p))

/-- A period boundary: a waiting configuration takes effect, its commands complete, and the period begins (R526). -/
def pwmBoundary (s : State) (d p : Nat) : State :=
  let w := pwmOf s d p
  let s1 := match w.next with
    | some c => setF (setF (setFlag (setFlag s d (fPbdPwmCtlEn p) c.1) d (fPbdPwmCtlInvert p) c.2.1) d (fPbdPwmPeriod p)
        c.2.2.1) d (fPbdPwmHigh p) c.2.2.2
    | none => s
  let g := pwmCfg s1 d p
  let s2 := setPwm s1 d p { w with running := g.1, start := s.now, past := g.2.2.2 = 0, next := none, fids := [] }
  let s3 := pwmLevel s2 d p ((g.1 && g.2.2.2 ≠ 0) != g.2.1)
  unitsDone s3 (probeUid d p) 0 (dieTime s3 d) w.fids

/-- The high time or the period ends (R526). -/
def execPwmEdge (d p : Nat) (s : State) : Out :=
  onProbe d p s fun s =>
    let w := pwmOf s d p
    let g := pwmCfg s d p
    if !w.running then s
    else if !w.past && g.2.2.2 < g.2.2.1 then
      whenB (w.start + hkMin s d g.2.2.2 ≤ s.now) s fun s => pwmLevel (setPwm s d p { w with past := true }) d p g.2.1
    else whenB (w.start + hkMin s d g.2.2.1 ≤ s.now) s fun s => pwmBoundary s d p

def pwmConfigureDef : CmdDef where
  op := 0x0B04
  cls := onClass clProbe
  onGroup := false
  payOk := fun _ c =>
    let p := c.payload
    pb c 0 < 4 && fld p 1 3 = 0 && 2 ≤ fld p 4 4 && fld p 4 4 ≤ 65535 && fld p 8 2 ≤ fld p 4 4 && restOk c 10
  eff := fun c fid u s =>
    let d := uDie u
    let p := uIdx u
    let w := pwmOf s d p
    if !awake s u then (s, err stBadState)
    else
      let s1 := setPwm s d p { w with
        next := some (bitAt (pb c 0) 0, bitAt (pb c 0) 1, fld c.payload 4 4, fld c.payload 8 2), fids := w.fids ++ [fid] }
      (if w.running then s1 else pwmBoundary s1 d p, if w.running then .pend else .wait)

/-- PWM_CONFIGURE (R526): completes at the period boundary at which it takes effect. -/
def execPwmConfigure (c : Cmd) (s : State) : Out := startCmd pwmConfigureDef c s

/-- The probe port becomes AWAKE: an enabled PWM runs (R526). -/
def pwmStart (s : State) (d p : Nat) : State := if flagF s d (fPbdPwmCtlEn p) then pwmBoundary s d p else s

/-- The probe port leaves AWAKE: the PWM drives its idle level, and configurations that wait are aborted. -/
def pwmStop (s : State) (d p : Nat) : State :=
  let w := pwmOf s d p
  let s1 := setPwm s d p { w with running := false, next := none, fids := [] }
  unitsDone (pwmLevel s1 d p (flagF s d (fPbdPwmCtlInvert p))) (probeUid d p) stAborted (dieTime s d) w.fids

/-! ## Presence and EEPROM (R512, R513) -/

/-- The least ticks of 1 ms of samples: 12,500 hk-cycles (R512). -/
def presTicks (s : State) (d : Nat) : Nat := hkMin s d 12500

/-- The physical tick at which the 1 ms of samples from `t` ended, a tick that is over: the last one, but no later than the HKCLK's
tolerance allows. -/
def presEnd (s : State) (d t : Nat) : Nat := min (s.now - 1) (t + hkMax s d 12500)

/-- The PROBE partner is attached. -/
def probeHere (s : State) (d p : Nat) : Bool := (unitOf s (probeUid d p)).partner = 2

/-- The EEPROM_READ in progress ends with a status. -/
def readEnd (s : State) (d p st : Nat) : State :=
  let x := probeOf s d p
  match x.read with
  | some r => unitDone (setProbe s d p { x with read := none }) r.1 (probeUid d p) st 0 [] (dieTime s d)
  | none => s

/-- The PROBE partner detaches, high for 1 ms (R56); DETACH_OFF turns the output off (R518). -/
def probeRemove (s : State) (d p : Nat) : State :=
  let x := probeOf s d p
  let s1 := readEnd s d p stAborted
  let s2 := setProbe s1 d p { probeOf s1 d p with eepromOk := false, addr := 0 }
  let s3 := if s2.ready then detachPartner s2 d (probeUid d p) 2 (tickAt s2 d (presEnd s d x.since))
      (presEnd s d x.since - x.since)
    else setUnit s2 (probeUid d p) { unitOf s2 (probeUid d p) with partner := 0 }
  if flagF s3 d (fPbdCtlDetachOff p) then biasOff s3 d p else s3

/-- PB_PRES_N changes level: a count starts, and a high level ends discovery (R512); a detach whose tick is over comes first (R58). -/
def execProbePresChange (d p : Nat) (high : Bool) (s : State) : Out :=
  onProbe d p s fun s =>
    let x := probeOf s d p
    whenB (x.pin != high) s fun s =>
      let s1 := if x.pin && probeHere s d p && x.since + hkMax s d 12500 < s.now then probeRemove s d p else s
      setProbe s1 d p { probeOf s1 d p with pin := high, since := s.now, discovering := x.discovering && !high }

/-- Low for 1 ms: discovery starts (R512). -/
def execProbePresenceTimeout (d p : Nat) (s : State) : Out :=
  onProbe d p s fun s =>
    let x := probeOf s d p
    whenB (!x.pin && !x.discovering && !probeHere s d p && x.since + presTicks s d ≤ s.now) s fun s =>
      setProbe s d p { x with discovering := true }

/-- The 7-bit addresses of a probe head's EEPROM, as discovery tries them (R512). -/
def eepromAddrs : List Nat := [0x50, 0x51, 0x52, 0x53, 0x54, 0x55, 0x56, 0x57]

/-- The address of the EEPROM: SDA is high after at most 9 clock pulses, and the first address in ascending order that acknowledges
(R512); bit k of `acks` says that 0x50 + k does. -/
def eepromAddr (pulses acks : Nat) : Option Nat := if 9 < pulses then none else eepromAddrs.find? fun a => bitAt acks (a - 0x50)

/-- Discovery ends (R512): the bus is freed by `pulses` clock pulses, the addresses of `acks` acknowledge, and the random read of bytes 0
to 7 gives `one` under a one-byte word address and `two` under a two-byte one, none where the bus fails.  The PROBE partner attaches, with
EEPROM_FAIL where no EEPROM answered or the bus failed (R60); before EV_READY the report waits for it (R59). -/
def execProbeDiscoveryDone (d p pulses acks : Nat) (one two : Option (List Byte)) (s : State) : Out :=
  onProbe d p s fun s =>
    let x := probeOf s d p
    let found := eepromAddr pulses acks
    let read := if found.isSome then (if flagF s d (fPbdI2cAddr16 p) then two else one) else none
    whenB x.discovering s fun s =>
      let a := if read.isSome then found.getD 0 else 0
      let s1 := setProbe s d p { x with discovering := false, eepromOk := read.isSome, addr := a - 0x50 }
      let detail := leBytes 1 a ++ leBytes 3 0 ++ (match read with | some b => padTo 8 (b.take 8) | none => [])
      if s.ready then attachPartner s1 d (probeUid d p) 2 (if read.isSome then 0 else 2) (dieTime s d) detail
      else
        let s2 := setProbe s1 d p { probeOf s1 d p with hello := detail }
        setUnit s2 (probeUid d p) { unitOf s2 (probeUid d p) with partner := 2 }

/-- High for 1 ms, its last tick over: the PROBE partner detaches (R56, R58). -/
def execProbeRemovalTimeout (d p : Nat) (s : State) : Out :=
  onProbe d p s fun s =>
    let x := probeOf s d p
    whenB (x.pin && probeHere s d p && x.since + presTicks s d < s.now) s fun s => probeRemove s d p

/-- An EEPROM read finishes or fails on the bus (R532). -/
def execEepromReadDone (d p : Nat) (ok : Bool) (bytes : List Byte) (s : State) : Out :=
  onProbe d p s fun s =>
    match (probeOf s d p).read with
    | none => s
    | some r =>
      if ok then readEnd (hostWrite s r.2.1 r.2.2.1 (padTo r.2.2.2 (bytes.take r.2.2.2))) d p 0
      else readEnd s d p stAborted

def eepromReadDef : CmdDef where
  op := 0x0B01
  cls := onClass clProbe
  onGroup := false
  payOk := fun _ c => 1 ≤ fld c.payload 10 2 && fld c.payload 10 2 ≤ 4096 && restOk c 12
  eff := fun c fid u s =>
    let d := uDie u
    let p := uIdx u
    let x := probeOf s d p
    if x.discovering || x.read.isSome then (s, err stBusy)
    else if !(probeHere s d p && x.eepromOk) then (s, err stBadState)
    else (setProbe s d p { x with read := some (fid, c.port, fld c.payload 0 8, fld c.payload 10 2) }, .pend)

/-- EEPROM_READ (R532). -/
def execEepromRead (c : Cmd) (s : State) : Out := startCmd eepromReadDef c s

/-- PBD_STAT.PIN (R535): 0 high-impedance, 1 slewing, 2 at target. -/
def biasPin (s : State) (d p : Nat) : Nat := if !(biasOf s d p).driving then 0 else if biasSettled s d p then 2 else 1

/-- PBD_STAT.BUSY (R518, R520). -/
def biasBusy (s : State) (d p : Nat) : Bool := (biasOf s d p).phase != .plain

end Sys2Proof.Machine
end

