-- ==== Sys2Proof/Machine/Proof.lean ====
section
/-!
DEFINITION. The Proof port: staging and commits, compositions, pushes over DSI, releases (R536 to R559).
-/

namespace Sys2Proof.Machine

def prfUid : Nat := uid 0 clProof 0

def setPrf (s : State) (x : PrfSt) : State := { s with prf := x }

/-- The DPLL is PLL 7 of die 0. -/
def dpllKhz (s : State) : Nat := (pllOf s 0 7).khz

/-! ## Regions (R547) -/

/-- A rectangle clipped to the panel; none when it lies wholly outside. -/
def clipTo (w h x y rw rh : Nat) : Option Region2 :=
  if w ≤ x || h ≤ y || rw = 0 || rh = 0 then none else some ⟨x, y, min rw (w - x), min rh (h - y)⟩

/-- The bounding box of two regions. -/
def bound2 (a b : Region2) : Region2 :=
  let x := min a.x b.x
  let y := min a.y b.y
  ⟨x, y, max (a.x + a.w) (b.x + b.w) - x, max (a.y + a.h) (b.y + b.h) - y⟩

/-- A pending list of at most 16 regions; a longer one becomes its bounding box (R547). -/
def mergeRegions (l : List Region2) : List Region2 :=
  match l with
  | [] => []
  | a :: r => if 16 < l.length then [r.foldl bound2 a] else l

/-- Regions of the plane that overlap a layer's destination rectangle. -/
def rectMeets (x y w h : Int) (r : Region2) : Bool :=
  x < r.x + r.w && (r.x : Int) < x + w && y < r.y + r.h && (r.y : Int) < y + h

/-! ## Pixels (R540 to R545) -/

/-- A colour with alpha. -/
structure Pixel where
  a : Nat
  r : Nat
  g : Nat
  b : Nat
  deriving DecidableEq, Repr

/-- An ARGB8888 value (R542). -/
def argb (v : Nat) : Pixel := ⟨bits v 24 8, bits v 16 8, bits v 8 8, bits v 0 8⟩

/-- Bytes per pixel of a source format. -/
def srcBpp : Nat → Nat
  | 0 => 2
  | 1 => 3
  | 2 => 4
  | 3 => 1
  | _ => 4

/-- `n` bytes of a layer's source space (R542, R454). -/
def srcNat (s : State) (l : LayerCfg) (ofs n : Nat) : Nat :=
  leNat (openList s (xPlace (primaryPort s) (xResolve 0 l.space (l.addr + ofs))) n)

/-- floor(256 log2 x) (R544). -/
def lg256 (x : Nat) : Nat := Nat.log2 (x ^ 256)

/-- The palette entry a counter selects (R544); none where the pixel is skipped. -/
def densityIdx (l : LayerCfg) (c : Nat) : Option Nat :=
  if c = 0 && l.zeroClear then none
  else if !l.log then some (min 255 (c * 255 / l.cmax))
  else if c = 0 then some 0
  else some (min 255 (1 + 254 * lg256 c / lg256 l.cmax))

def paletteAt (pal : Tab W32) (p i : Nat) : Pixel := argb (tget (0 : W32) pal (256 * p + i)).toNat

/-- A surface header (R335): its size and layout when it is right (R543). -/
def surfaceHead (s : State) (l : LayerCfg) : Option (Nat × Nat × Nat) :=
  let h := openList s (xPlace (primaryPort s) (xResolve 0 l.space l.addr)) 64
  if fld h 0 2 = 0x5348 && fld h 3 1 < 2 && fld h 60 4 = (crc32c (h.take 60)).toNat then
    some (fld h 4 2, fld h 6 2, fld h 3 1)
  else none

/-- Source size of a layer: from its settings, or from the surface header. -/
def srcSize (s : State) (l : LayerCfg) : Nat × Nat :=
  if l.format = 4 then match surfaceHead s l with | some h => (h.1, h.2.1) | none => (0, 0) else (l.srcW, l.srcH)

/-- The pixel of a layer's source at column `x` and line `y`. -/
def srcPixel (s : State) (l : LayerCfg) (pal : Tab W32) (x y : Nat) : Option Pixel :=
  match l.format with
  | 0 =>
    let v := srcNat s l (y * l.stride + 2 * x) 2
    let wide5 := fun (n : Nat) => n * 8 + n / 4
    some ⟨255, wide5 (bits v 11 5), bits v 5 6 * 4 + bits v 5 6 / 16, wide5 (bits v 0 5)⟩
  | 1 =>
    let v := srcNat s l (y * l.stride + 3 * x) 3
    some ⟨255, bits v 0 8, bits v 8 8, bits v 16 8⟩
  | 2 => some (argb (srcNat s l (y * l.stride + 4 * x) 4))
  | 3 => some (paletteAt pal l.palette (srcNat s l (y * l.stride + x) 1))
  | _ =>
    match surfaceHead s l with
    | none => none
    | some (cols, _, layout) =>
      let i := if layout = 0 then y * cols + x
        else (y / 64 * (cols / 64) + x / 64) * 4096 + y % 64 * 64 + x % 64
      (densityIdx l (srcNat s l (64 + 4 * i) 4)).map (paletteAt pal l.palette)

/-- A layer's pixel at a panel position, when it has one there (R541). -/
def layerPixel (s : State) (l : LayerCfg) (pal : Tab W32) (px py : Nat) : Option Pixel :=
  let x := (px : Int) - l.dstX
  let y := (py : Int) - l.dstY
  if !l.en || x < 0 || y < 0 then none
  else
    let cx := x.toNat / l.repX
    let cy := y.toNat / l.repY
    let z := srcSize s l
    if cx < z.1 && cy < z.2 then srcPixel s l pal cx cy else none

/-- One channel blended (R545). -/
def blend (a s d : Nat) : Nat := (a * s + (255 - a) * d + 127) / 255

/-- A pixel over the pixel beneath (R545). -/
def blendPixel (alpha : Nat) (p d : Pixel) : Pixel :=
  let a := (p.a * alpha + 127) / 255
  ⟨255, blend a p.r d.r, blend a p.g d.g, blend a p.b d.b⟩

/-- The composed pixel at a panel position: the layers bottom first over the background. -/
def composePixel (s : State) (ls : List LayerCfg) (pal : Tab W32) (bg px py : Nat) : Pixel :=
  ls.foldl (fun d l => match layerPixel s l pal px py with | some p => blendPixel l.alpha p d | none => d)
    { argb bg with a := 255 }

/-- A pixel in the link format (R540, R545). -/
def linkBytes (rgb565 : Bool) (p : Pixel) : List Byte :=
  if rgb565 then leBytes 2 ((p.r * 31 + 127) / 255 * 2048 + (p.g * 63 + 127) / 255 * 32 + (p.b * 31 + 127) / 255)
  else leBytes 1 p.r ++ leBytes 1 p.g ++ leBytes 1 p.b

def linkBpp (s : State) : Nat := if flagF s 0 fPrfLinkFormat then 2 else 3

/-- The place in the Print buffer of a pixel (R540). -/
def printOfs (s : State) (x y : Nat) : Nat := (y * getF s 0 fPrfPanelWidth + x) * linkBpp s

/-- Composes a region into the Print buffer. -/
def composeRegion (src : State) (ls : List LayerCfg) (pal : Tab W32) (s : State) (r : Region2) : State :=
  (List.range r.h).foldl (fun s i =>
    memWrite s .print (printOfs s r.x (r.y + i)) ((List.range r.w).flatMap fun j =>
      linkBytes (flagF src 0 fPrfLinkFormat) (composePixel src ls pal src.prf.background (r.x + j) (r.y + i)))) s

/-! ## Configuration and the init list (R539, R556) -/

/-- The elements of an init list; none where its form is wrong. -/
def initElements : Nat → List Byte → Option (List InitEl)
  | 0, p => if p.isEmpty then some [] else none
  | n + 1, p =>
    if p.isEmpty then some []
    else
      let kind := fld p 0 1
      let dt := fld p 1 1
      let len := fld p 2 2
      let size := 4 + (len + 3) / 4 * 4
      let data := (p.drop 4).take len
      let v := leNat data
      let el : Option InitEl := match kind with
        | 1 => if dt ∈ [0x05, 0x15, 0x03, 0x13, 0x23] && len ≤ 2 then some (.short dt data) else none
        | 2 => if (dt = 0x39 || dt = 0x29) && 1 ≤ len && len ≤ 1024 then some (.long dt data) else none
        | 3 => if dt = 0 && len = 4 && 1 ≤ v && v ≤ 1000000 then some (.delay v) else none
        | 4 => if dt = 0 && len = 4 && 1 ≤ v && v ≤ 100000 then some (.reset v) else none
        | _ => none
      if size ≤ p.length && allZero ((p.drop (4 + len)).take (size - 4 - len)) then
        match el, initElements n (p.drop size) with
        | some e, some r => some (e :: r)
        | _, _ => none
      else none

/-- The payload of PROOF_CONFIGURE is valid (R536, R556). -/
def proofPayOk (p : List Byte) : Bool :=
  let w := fld p 0 2
  let h := fld p 2 2
  let n := fld p 16 2
  24 ≤ p.length && 1 ≤ w && w ≤ 1920 && 1 ≤ h && h ≤ 1920 && w * h ≤ 2304000 && fld p 4 1 < 2 &&
    fld p 5 1 ∈ [1, 2, 4] && fld p 6 1 < 2 && fld p 7 1 < 8 &&
    (!bitAt (fld p 7 1) 2 || (1000 ≤ fld p 8 4 && fld p 8 4 ≤ 1000000)) && fld p 15 1 = 0 && n % 4 = 0 && n ≤ 16384 &&
    fld p 18 6 = 0 && 24 + n ≤ p.length && zeroFrom p ((31 + n) / 8 * 8) && (initElements 4097 ((p.drop 24).take n)).isSome

/-- Sends SHORT and LONG elements up to the next DELAY or RESET, whose wait begins (R539).  With it, whether the list
ended with a packet still on the link, or with nothing to wait for. -/
def runInit : List InitEl → PrfSt → Nat → PrfSt
  | [], x, _ => { x with init := [], waitAt := none }
  | .short dt ps :: r, x, now => runInit r { x with burst := .panel dt ps :: x.burst } now
  | .long dt ps :: r, x, now => runInit r { x with burst := .panel dt ps :: x.burst } now
  | .delay us :: r, x, now => { x with init := .delay us :: r, waitAt := some (now + us * usTicks) }
  | .reset us :: r, x, now => { x with init := .reset us :: r, waitAt := some (now + us * usTicks), rstN := false }

/-- The running PROOF_CONFIGURE completes at a physical tick. -/
def initDone (s : State) (t : Nat) : State :=
  match s.prf.running with
  | some fid => unitDone (setPrf s { s.prf with running := none }) fid prfUid 0 0 [] (tickAt s 0 t)
  | none => s

/-- Sends what can be sent from a physical tick on; with nothing left and no packet to wait for, the command completes. -/
def sendInit (s : State) (l : List InitEl) (t : Nat) : State :=
  let x := runInit l { s.prf with burst := [] } t
  let s1 := setPrf s x
  if x.init.isEmpty && x.burst.isEmpty then initDone s1 t else s1

/-- The next waiting PROOF_CONFIGURE takes effect, once no composition runs and no other is being sent (R556). -/
def proofApply (s : State) : State :=
  let x := s.prf
  match x.configs with
  | [] => s
  | (fid, p) :: r =>
    if x.comp.isSome || x.running.isSome || x.waitAt.isSome then s
    else
      let fl := fld p 7 1
      let s1 := setF (setF s 0 fPrfPanelWidth (fld p 0 2)) 0 fPrfPanelHeight (fld p 2 2)
      let s2 := setF (setF s1 0 fPrfLinkFormat (fld p 4 1)) 0 fPrfLinkLanes (fld p 5 1)
      let s3 := setFlag (setFlag s2 0 fPrfLinkContClk (bitAt fl 1)) 0 fPrfLinkTeTimer (bitAt fl 2)
      let s4 := setFlag (setF s3 0 fPrfStatMode (fld p 6 1)) 0 fPrfStatConfigured true
      let s5 := setPrf s4 { x with
        configs := r, running := some fid, staged := [], pend := [], tePeriod := fld p 8 4, teAt := s.now
        background := fld p 12 3, rstN := true, lp := bitAt fl 0 }
      sendInit (actedOn s5 fid prfUid) ((initElements 4097 ((p.drop 24).take (fld p 16 2))).getD []) s.now

def proofConfigureDef : CmdDef where
  op := 0x0C01
  cls := onClass clProof
  onGroup := false
  payOk := fun _ c => proofPayOk c.payload
  eff := fun c fid u s =>
    let rate := 2 * dpllKhz s
    if safelight s 0 then (s, err stSafelight)
    else if !awake s u then (s, err stBadState)
    else if !(160000 ≤ rate && rate ≤ 2500000) then (s, err stRateUnsupported)
    else (proofApply (setPrf s { s.prf with configs := s.prf.configs ++ [(fid, c.payload)] }), .pend)

/-- PROOF_CONFIGURE (R556): completes when the init list has been sent. -/
def execProofConfigure (c : Cmd) (s : State) : Out := startCmd proofConfigureDef c s

/-- A DELAY or RESET element ends: PANEL_RST_N goes high again, and sending continues (R539). -/
def execInitDelayExpiry (s : State) : Out :=
  let x := s.prf
  match x.waitAt, x.init with
  | some t, _ :: r => .next (whenB (t ≤ s.now) s fun s => proofApply (sendInit (setPrf s { x with rstN := true }) r t))
  | _, _ => .next s

/-- The last packet of the init list has been sent: PROOF_CONFIGURE completes (R556). -/
def execInitListSent (s : State) : Out :=
  .next (whenB (s.prf.running.isSome && s.prf.waitAt.isNone) s fun s => proofApply (initDone s s.now))

/-! ## Staging and commits (R546, R547, R557) -/

def layerPay (p : List Byte) : LayerCfg :=
  let fl := fld p 1 1
  ⟨bitAt fl 0, bitAt fl 1, bitAt fl 2, fld p 2 1, fld p 3 1, fld p 4 1, fld p 5 1, fld p 6 1, fld p 7 1, fld p 8 8, fld p 16 4,
   fld p 20 2, fld p 22 2, sgn 16 (fld p 24 2), sgn 16 (fld p 26 2), fld p 28 4⟩

def layerConfigureDef : CmdDef where
  op := 0x0C02
  cls := onClass clProof
  onGroup := false
  payOk := fun _ c =>
    let p := c.payload
    let l := layerPay p
    fld p 0 1 < 4 && fld p 1 1 < 8 && l.format < 5 && l.space ∈ [0, 1, 3] && l.palette < 4 && 1 ≤ l.repX && l.repX ≤ 8 &&
      1 ≤ l.repY && l.repY ≤ 8 &&
      (if l.format < 4 then
        1 ≤ l.srcW && l.srcW ≤ 1920 && 1 ≤ l.srcH && l.srcH ≤ 1920 && l.srcW * srcBpp l.format ≤ l.stride
      else (if l.log then 2 else 1) ≤ l.cmax) && restOk c 32
  eff := fun c _ _ s => (setPrf s { s.prf with stageL := s.prf.stageL.set (fld c.payload 0 1) (layerPay c.payload) }, ok)

/-- LAYER_CONFIGURE changes a layer of the staged state (R546). -/
def execLayerConfigure (c : Cmd) (s : State) : Out := startCmd layerConfigureDef c s

def paletteLoadDef : CmdDef where
  op := 0x0C03
  cls := onClass clProof
  onGroup := false
  payOk := fun _ c =>
    let p := c.payload
    let n := fld p 2 2
    fld p 0 1 < 4 && 1 ≤ n && fld p 1 1 + n ≤ 256 && fld p 4 4 = 0 && 8 + 4 * n ≤ p.length && restOk c (8 + 4 * n)
  eff := fun c _ _ s =>
    let p := c.payload
    let t := (List.range (fld p 2 2)).foldl (fun t i =>
      tset (0 : W32) t (256 * fld p 0 1 + fld p 1 1 + i) (BitVec.ofNat 32 (fld p (8 + 4 * i) 4))) s.prf.stageP
    (setPrf s { s.prf with stageP := t }, ok)

/-- PALETTE_LOAD changes palette entries of the staged state (R546). -/
def execPaletteLoad (c : Cmd) (s : State) : Out := startCmd paletteLoadDef c s

/-- The regions of a REGION_PUSH, clipped; COUNT 0 is the whole panel. -/
def pushRegions (s : State) (p : List Byte) : List (Option Region2) :=
  let w := getF s 0 fPrfPanelWidth
  let h := getF s 0 fPrfPanelHeight
  if fld p 0 1 = 0 then [some ⟨0, 0, w, h⟩]
  else (List.range (fld p 0 1)).map fun i =>
    clipTo w h (fld p (8 + 8 * i) 2) (fld p (10 + 8 * i) 2) (fld p (12 + 8 * i) 2) (fld p (14 + 8 * i) 2)

def regionPushDef : CmdDef where
  op := 0x0C04
  cls := onClass clProof
  onGroup := false
  payOk := fun _ c =>
    let p := c.payload
    let n := fld p 0 1
    n ≤ 16 && fld p 1 7 = 0 && 8 + 8 * n ≤ p.length && restOk c (8 + 8 * n) &&
      (List.range n).all fun i => 1 ≤ fld p (12 + 8 * i) 2 && 1 ≤ fld p (14 + 8 * i) 2
  eff := fun c _ _ s =>
    let l := pushRegions s c.payload
    if !flagF s 0 fPrfStatConfigured then (s, err stBadState)
    else if l.any (·.isNone) then (s, err stBadPayload)
    else (setPrf s { s.prf with staged := l.filterMap id }, ok)

/-- REGION_PUSH replaces the staged region list (R557). -/
def execRegionPush (c : Cmd) (s : State) : Out := startCmd regionPushDef c s

/-! ## Compositions (R548, R553) -/

/-- EV_PRF_RELEASE at a physical tick (R558): the surface named by the layer as latched. -/
def prfRelease (k : Compo) (t : Nat) (s : State) (l fl : Nat) : State :=
  match k.layers[l]? with
  | none => s
  | some y => post s 0 0x0C01 prfUid (tickAt s 0 t)
      (leBytes 1 l ++ leBytes 1 (fl + 4 * b2n (k.bad.contains l)) ++ leBytes 2 y.space ++ leBytes 4 k.num ++ leBytes 8 y.addr)

/-- The layer meets a region of the composition. -/
def layerMeets (s : State) (rs : List Region2) (l : LayerCfg) : Bool :=
  let z := srcSize s l
  (l.format = 4 && (surfaceHead s l).isNone) || rs.any (rectMeets l.dstX l.dstY (z.1 * l.repX) (z.2 * l.repY))

/-- What an edge at a physical tick finds committed: what the commits of that tick and later replaced does not count (R548). -/
def prfSees (s : State) (t : Nat) : PrfBefore :=
  let x := s.prf
  let now : PrfBefore := ⟨s.now, x.commitL, x.commitP, x.pend, getF s 0 fPrfCommitSeqCount, []⟩
  match x.before with
  | some b => if t ≤ b.tick then b else now
  | none => now

/-- A composition starts at a physical tick: it takes the pending list, latches the committed state, and reads the surface headers. -/
def prfStart (s : State) (t : Nat) : State :=
  let x := s.prf
  let b := prfSees s t
  let lay := fun l => (b.layers[l]?).getD LayerCfg.reset
  let en := (List.range 4).filter fun l => (lay l).en
  let bad := en.filter fun l => (lay l).format = 4 && (surfaceHead s (lay l)).isNone
  let meets := en.filter fun l => layerMeets s b.pend (lay l)
  let k : Compo := {
    num := getF s 0 fPrfCompCount, time := tickAt s 0 t, at_ := t, regions := b.pend, cur := 0, pushing := false
    line := 0, burstAt := 0, bytes := 0, pushed := 0
    seq := (b.seq + (2 ^ 32 - 1)) % 2 ^ 32, layers := b.layers, bad := bad, left := meets }
  let s1 := setPrf (wrapF s 0 fPrfCompCount 1) { x with
    pend := mergeRegions b.added, before := x.before.map fun y => { y with pend := [] }, comp := some k }
  let s2 := if bad.isEmpty then s1 else setFlag s1 0 fPrfStatBadSurface true
  let s3 := (en.filter fun l => !meets.contains l).foldl (fun s l => prfRelease k t s l 1) s2
  b.pend.foldl (composeRegion s b.layers b.pal) s3

/-- An edge recognised at a physical tick t_TE (R548). -/
def prfEdge (s : State) (t : Nat) : State :=
  let te := tickAt s 0 t * 256
  let s1 := setF (setF s 0 fPrfTeLastLoTime (te % 2 ^ 32)) 0 fPrfTeLastHiTime (te / 2 ^ 32)
  if s.prf.comp.isSome then incF s1 0 fPrfTeSkipCount
  else if flagF s 0 fPrfStatConfigured && awake s prfUid && !safelight s 0 && !(prfSees s t).pend.isEmpty && (pllOf s 0 7).locked &&
      !(dieClk s 0).holding then
    prfStart s1 t
  else s1

/-- The tick of the next edge of the internal timer (R548). -/
def nextTimerEdge (s : State) : Nat := s.prf.teAt + s.prf.tePeriod * usTicks

/-- The internal timer makes its next edge. -/
def timerEdge (s : State) : State :=
  let t := nextTimerEdge s
  prfEdge (setPrf s { s.prf with teAt := t }) t

/-- Every edge of the internal timer that is due is made. -/
def timerEdges (s : State) : State :=
  if !flagF s 0 fPrfLinkTeTimer || s.prf.tePeriod = 0 then s
  else (List.range ((s.now - s.prf.teAt) / (s.prf.tePeriod * usTicks))).foldl (fun s _ => timerEdge s) s

/-- A rising edge of DSI_TE is recognised (R548); a commit of the same tick applies to the next composition. -/
def execTeEdge (s : State) : Out :=
  .next (whenB (!flagF s 0 fPrfLinkTeTimer) s fun s => prfEdge (setPrf s { s.prf with teTick := some s.now }) s.now)

/-- The internal TE timer's period elapses (R548). -/
def execTeTimerExpiry (s : State) : Out :=
  .next (whenB (flagF s 0 fPrfLinkTeTimer && nextTimerEdge s ≤ s.now) s timerEdge)

/-- What the commits of the current tick replace and add (R548). -/
def prfBefore (s : State) : PrfBefore :=
  let x := s.prf
  match x.before with
  | some b => if b.tick = s.now then { b with added := b.added ++ x.staged } else
      ⟨s.now, x.commitL, x.commitP, x.pend, getF s 0 fPrfCommitSeqCount, x.staged⟩
  | none => ⟨s.now, x.commitL, x.commitP, x.pend, getF s 0 fPrfCommitSeqCount, x.staged⟩

def prfCommitDef : CmdDef where
  op := 0x0C05
  cls := onClass clProof
  onGroup := false
  payOk := fun _ c => restOk c 0
  eff := fun _ _ _ s0 =>
    if !flagF s0 0 fPrfStatConfigured then (s0, err stBadState)
    else
      let s := timerEdges s0
      let x := s.prf
      let seq := getF s 0 fPrfCommitSeqCount
      let comps := getF s 0 fPrfCompCount
      let ended := match x.comp with | some k => k.left.isEmpty | none => comps ≠ 0
      let s1 := setPrf (wrapF s 0 fPrfCommitSeqCount 1) { x with
        commitL := x.stageL, commitP := x.stageP, pend := mergeRegions (x.pend ++ x.staged), staged := []
        before := some (prfBefore s) }
      (s1, .done 0 (leBytes 4 seq ++ leBytes 4 (comps + (2 ^ 32 - 1)) ++ leBytes 1 (b2n ended)) 0)

/-- PRF_COMMIT (R546, R557). -/
def execPrfCommit (c : Cmd) (s : State) : Out := startCmd prfCommitDef c s

/-- The composer finishes reading a layer's source (R553). -/
def execLayerReadDone (l : Nat) (s : State) : Out :=
  .next (match s.prf.comp with
    | some k => whenB (k.left.contains l) s fun s =>
        prfRelease k s.now (setPrf s { s.prf with comp := some { k with left := k.left.filter (· ≠ l) } }) l 0
    | none => s)

/-! ## Pushing (R549 to R552) -/

/-- The tick at which everything sent so far in the burst has left the link: 400 ns for HS entry, then the bytes at
lanes × lane rate (R538). -/
def burstEnd (s : State) (k : Compo) : Nat :=
  k.burstAt + 700 + ceilDiv (k.bytes * 7000000) (getF s 0 fPrfLinkLanes * dpllKhz s)

/-- The push of the current region has sent every line. -/
def regionSent (s : State) (k : Compo) : Bool :=
  k.pushing && (match k.regions[k.cur]? with | some r => k.line = r.h | none => true) && burstEnd s k ≤ s.now

/-- A composition ends at a physical tick: EV_PRF_PUSH_DONE with a result and the regions pushed (R558). -/
def prfDone (s : State) (k : Compo) (result pushed t : Nat) : State :=
  let s1 := post s 0 0x0C03 prfUid (tickAt s 0 t)
    (leBytes 1 result ++ leBytes 1 pushed ++ leBytes 2 0 ++ leBytes 4 k.num ++ leBytes 4 k.seq ++
      leBytes 4 (min (t - k.at_) (2 ^ 32 - 1)))
  proofApply (setPrf s1 { s1.prf with comp := none })

/-- A composition aborts at a physical tick (R551, R552): 1 UNDERRUN, 2 CLOCK, 3 SAFELIGHT.  The region under way and those
after it return to the front of the pending list. -/
def prfAbortAt (s : State) (result t : Nat) : State :=
  match s.prf.comp with
  | none => s
  | some k =>
    let cur := if regionSent s k then k.cur + 1 else k.cur
    let back := k.regions.drop cur
    let s1 := setPrf s { s.prf with pend := mergeRegions (back ++ s.prf.pend) }
    let s2 := if result = 1 then
        post (incF (setFlag s1 0 fPrfStatUnderrun true) 0 fPrfUnderrunCntCount) 0 0x0C02 prfUid (tickAt s 0 t)
          (leBytes 1 cur ++ leBytes 1 back.length ++ leBytes 2 k.line ++ leBytes 4 k.num)
      else s1
    prfDone (k.left.foldl (fun s l => prfRelease k t s l 2) s2) k result cur t

/-- A composition aborts now. -/
def prfAbort (s : State) (result : Nat) : State := prfAbortAt s result s.now

/-- The pixels of the regions before the one given and of its first `n` lines: the composer writes at most 8 a tick (R549). -/
def composedPixels (k : Compo) (i n : Nat) : Nat :=
  (k.regions.take i).foldl (fun a r => a + r.w * r.h) (match k.regions[i]? with | some r => r.w * min n r.h | none => 0)

/-- The composer can have written the first `n` lines of region `i` by now. -/
def composeTime (s : State) (k : Compo) (i n : Nat) : Bool := composedPixels k i n ≤ 8 * (s.now - k.at_)

/-- A region's push begins: HS entry and the two address packets (R538, R549, R550). -/
def execPushBegin (s : State) : Out :=
  .next (match s.prf.comp with
    | none => s
    | some k =>
      let nx := if k.pushing then k.cur + 1 else k.cur
      match k.regions[nx]? with
      | none => s
      | some r =>
        let safe := flagF s 0 fPrfStatMode
        whenB ((!k.pushing || regionSent s k) && (if safe then k.left.isEmpty && composeTime s k k.regions.length 0
          else composeTime s k nx 8)) s fun s =>
          setPrf s { s.prf with
            burst := [.page r.y (r.y + r.h - 1), .column r.x (r.x + r.w - 1)]
            comp := some { k with cur := nx, pushing := true, line := 0, burstAt := s.now, bytes := 22, pushed := nx } })

/-- The composer has written the next line of the current region: the first 8 lines before the push begins, no line before its
pixels can have been written, all of them once every source is read, the last line of all not before; else a free value (log entry 2). -/
def lineWritten (s : State) (k : Compo) (r : Region2) : Bool × State :=
  if k.line < 8 then (true, s)
  else if !composeTime s k k.cur (k.line + 1) then (false, s)
  else if k.left.isEmpty then (true, s)
  else if k.cur + 1 = k.regions.length && k.line + 1 = r.h then (false, s)
  else
    let v := drawFree s
    (v.1.getLsbD 0, v.2)

/-- The push is ready for its next line: the line is sent, or the push aborts (R549, R551). -/
def execPushLineReady (s : State) : Out :=
  .next (match s.prf.comp with
    | none => s
    | some k =>
      match k.regions[k.cur]? with
      | none => s
      | some r =>
        whenB (k.pushing && k.line < r.h && burstEnd s k ≤ s.now) s fun s =>
          let w := lineWritten s k r
          if w.1 then
            let pix := memRead w.2 .print (printOfs w.2 r.x (r.y + k.line)) (r.w * linkBpp w.2)
            setPrf w.2 { w.2.prf with
              burst := .line (k.line = 0) pix :: w.2.prf.burst
              comp := some { k with line := k.line + 1, bytes := k.bytes + 7 + r.w * linkBpp w.2 } }
          else prfAbortAt w.2 1 (burstEnd s k))

/-- The last packet of the composition ends (R549): EV_PRF_PUSH_DONE, complete. -/
def execPushEnd (s : State) : Out :=
  .next (match s.prf.comp with
    | none => s
    | some k => whenB (regionSent s k && k.cur + 1 = k.regions.length && k.left.isEmpty) s fun s =>
        prfDone s k 0 k.regions.length (burstEnd s k))

end Sys2Proof.Machine
end

