-- ==== Sys2Proof/Machine/Units.lean ====
section
/-!
DEFINITION. Power states: dependencies, waking and sleeping, faults of units, and the unit commands (R33 to R45, R53
to R55, R61, R62, R618).
-/

namespace Sys2Proof.Machine

/-! ## The tree and its dependencies (R35, R40) -/

/-- Indices a class can have (R35). -/
def classIndices (cls : Nat) : Nat := ([1, 1, 4, 16, 2, 1, 1, 16, 32, 1, 4, 2, 1, 2, 1, 16, 96, 4, 8, 1][cls]?).getD 0

/-- The units of die `d`, in ascending ID order. -/
def dieUnits (s : State) (d : Nat) : List Nat :=
  (List.range 0x14).flatMap fun cls =>
    ((List.range (classIndices cls)).filter (unitExists s d cls)).map (uid d cls)

/-- The single units of the tree, in ascending ID order. -/
def allUnits (s : State) : List Nat := (dies s).flatMap (dieUnits s)

def fpllUid (d : Nat) : Nat := pllUid d 0

/-- The units a unit depends on directly, outermost first (R40). -/
def deps (s : State) (u : Nat) : List Nat :=
  let d := uDie u
  let i := uIdx u
  match uCls u with
  | 0x01 => fpllUid d :: (if d = 0 then [] else [dieUid 0])
  | 0x02 => [dieUid d, pllUid d (1 + i)]
  | 0x03 => [uid d clLaneGroup (i / 4)]
  | 0x09 => [dieUid d, pllUid d 6]
  | 0x0A => [dieUid d, pllUid d 6]
  | 0x0D => [probeUid d i]
  | 0x0E => [dieUid 0, pllUid 0 7]
  | 0x11 => match uflPartner (nDies s) d i with | some e => [dieUid d, dieUid e] | none => [dieUid d]
  | 0x12 => if i = 0 || i = 6 then [] else [fpllUid d]
  | _ => [dieUid d]

/-- The units that depend directly on a unit, in descending ID order. -/
def dependents (s : State) (u : Nat) : List Nat := ((allUnits s).filter fun r => (deps s r).contains u).reverse

/-- The units a unit depends on, directly or through others (R43); chains are at most 6 long. -/
def closure (s : State) : Nat → Nat → List Nat
  | 0, _ => []
  | n + 1, u => (deps s u).flatMap fun x => x :: closure s n x

def depth : Nat := 8

/-- Implicit units (R41). -/
def implicit (u : Nat) : Bool := uCls u ∈ [clDie, clLaneGroup, clPll, clUfl]

/-- Units that are power-gated in ASLEEP (R561). -/
def gates (u : Nat) : Bool := uCls u ∈ [clLane, clChain, clDens, clEngine]

/-- The unit is starting or waits to start.  A unit that waits for its dependencies or for power-up counts as STARTING
for R44 (DESIGN CHOICE, log entry 67). -/
def starting (x : Unit) : Bool := x.pw == .starting || x.wantStart || x.powering

/-- The unit is stopping or waits to stop; one that waits for its dependents counts as STOPPING for R44 (DESIGN CHOICE,
log entry 67). -/
def stopping (x : Unit) : Bool := x.pw == .stopping || x.wantStop

/-- The unit keeps what it depends on awake. -/
def busyUnit (x : Unit) : Bool := !(x.pw == .asleep || x.pw == .fault) || x.wantStart || x.powering

/-- The unit keeps a stop of what it depends on waiting (R40): a unit that only waits to start does so when that stop
found it starting, for its start is completed first (R44). -/
def blocksStop (x : Unit) : Bool := !(x.pw == .asleep || x.pw == .fault) || ((x.wantStart || x.powering) && x.firm)

/-- EV_UNIT_STATE (R39, R61). -/
def unitStateEv (s : State) (u : Nat) (now prev : Pw) : State :=
  post s (uDie u) 0x0001 u (dieTime s (uDie u)) (leBytes 1 (pwCode now) ++ leBytes 1 (pwCode prev))

/-! ## What a unit's own chapter does at a transition -/

/-- A port's link leaves L0: no rate, moves through it fail (R476), and the count to the HOST partner's detach starts
(R56). -/
def portDown (s : State) (p : Nat) : State :=
  if !linkUp s p then s
  else
    let s0 := discardPort (movesLosePort s p) p
    let s1 := setF (setF s0 p fHstPortIdLinkGt 0) p fHstPortIdWidth 0
    setPort s1 p { portOf s1 p with downAt := some s.now, busMaster := false }

/-- The drives of a port leave, for a reason of R60. -/
def drivesGone (s : State) (d reason : Nat) : State := (List.range 4).foldl (fun s p => driveGone s d p reason) s

/-- A unit's clocks start (R39): a lane's receiver powers up, a PLL begins its band search. -/
def onStarting (s : State) (u : Nat) : State :=
  let d := uDie u
  let i := uIdx u
  match uCls u with
  | 0x03 => laneStart s d i
  | 0x12 => setPll s d i { pllOf s d i with locked := false, firstDue := true, relock := false, fails := 0 }
  | _ => s

/-- A unit runs. -/
def onAwake (s : State) (u : Nat) : State :=
  let d := uDie u
  let i := uIdx u
  match uCls u with
  | 0x0B => pwmStart s d i
  | 0x0C => setHka s d { hkaOf s d with timerAt := s.now }
  | 0x0E => { s with prf := { s.prf with sampled := true } }
  | 0x0F => wakeSeq s i
  | _ => s

/-- A stream's unit goes to sleep: as ROLL_STOP or CAPTURE_DISARM (R179). -/
def streamSleep (s : State) (d i reason : Nat) : State :=
  let x := streamOf s d i
  if x.state == .rolling then rollStop s d i reason []
  else if armed x then disarm s d i false []
  else s

/-- A unit enters STOPPING, or leaves AWAKE for FAULT.  A lane's EV_LANE_STATE carries cause COMMAND, also where its die is
fenced: no listed cause names that (DESIGN CHOICE, log entry 71). -/
def onStopping (s : State) (u : Nat) : State :=
  let d := uDie u
  let i := uIdx u
  match uCls u with
  | 0x03 => laneStop s d i 0 (dieTime s d)
  | 0x04 => chainStop s d i
  | 0x07 => engSleep s d i
  | 0x08 => xferPause s d i
  | 0x09 => portDown s d
  | 0x0A => driveGone s d i 5
  | 0x0B => pwmStop s d i
  | 0x0C => hkaStop s d
  | 0x0D => biasOff s d i
  | 0x10 => streamSleep s d i 2
  | _ => s

/-- The in-flight work of a STOPPING unit is drained (R39). -/
def drainedUnit (s : State) (u : Nat) : Bool :=
  let d := uDie u
  let i := uIdx u
  match uCls u with
  | 0x07 => (engOf s d i).st != .running && (engOf s d i).st != .swapping
  | 0x08 => (xferOf s d i).st != .running && (xferOf s d i).st != .waiting
  | 0x0D => !(biasOf s d i).driving
  | 0x0E => s.prf.comp.isNone && s.prf.running.isNone
  | 0x12 => (pllOf s d i).step.isNone
  | 0x10 => (streamOf s d i).state != .rolling && !armed (streamOf s d i) && (streamOf s d i).state != .rearm
  | _ => true

/-- A unit's clocks are gated; without the FPLL the die's delay line has no lock (R168). -/
def onAsleep (s : State) (u : Nat) : State :=
  if uCls u = clPll then
    let s1 := setPll s (uDie u) (uIdx u) { pllOf s (uDie u) (uIdx u) with locked := false, relock := false }
    if uIdx u = 0 then dllLoss s1 (uDie u) else s1
  else s

/-! ## Transitions (R39, R40, R44) -/

/-- Ends the wait of one command on a unit. -/
def waitDone1 (s : State) (u fid st fl : Nat) : State := unitDone s fid u st fl [] (unitTime s u)

/-- Every command that waits for the given outcome of a unit completes. -/
def waitersDone (s : State) (u : Nat) (wake : Bool) (st : Nat) : State :=
  let x := unitOf s u
  let r := x.waiters.partition fun w => w.wake == wake
  r.1.foldl (fun s w => waitDone1 s u w.fid st (if st = 0 then w.flags else 0)) (setUnit s u { x with waiters := r.2 })

/-- Adds a command that waits for a unit, and the event-enable bit of its cause. -/
def addWait (s : State) (u : Nat) (wake : Bool) (fid : Option Nat) (flags : Nat) (ev : Bool) : State :=
  let x := unitOf s u
  setUnit s u { x with
    ev := x.ev || ev
    waiters := match fid with | some f => x.waiters ++ [⟨f, wake, flags⟩] | none => x.waiters }

/-- The commands whose wake or sleep takes a step on a unit note the tick (R85); those that joined one under way (flags 4)
took no step. -/
def stepTaken (s : State) (u : Nat) (wake : Bool) : State :=
  (unitOf s u).waiters.foldl (fun s w => if w.wake = wake && w.flags ≠ 4 then actedOn s w.fid u else s) s

/-- A unit that waits for its dependents enters STOPPING once they sleep (R40). -/
def tryStop (s : State) (u : Nat) : State :=
  let x := unitOf s u
  if x.wantStop && !((dependents s u).any fun r => blocksStop (unitOf s r)) then
    stepTaken (onStopping (setUnit s u { x with pw := .stopping, wantStop := false, hostWoken := false }) u) u false
  else s

/-- A unit the stop of a dependency waits for: the unit is AWAKE and not yet told to stop. -/
def stopAwaited (s : State) (u : Nat) : Bool :=
  (unitOf s u).pw == .awake && !(unitOf s u).wantStop && (deps s u).any fun r => (unitOf s r).wantStop

/-- A unit that waits for its dependencies and power enters STARTING once they are AWAKE (R40, R41).  A start that comes
after a dependency was told to sleep waits for that unit to wake again; one that came before it goes on (R44). -/
def tryStart (s : State) (u : Nat) : State :=
  let x := unitOf s u
  if x.wantStart && !x.powering && ((deps s u).all fun r => awake s r && (x.firm || !(unitOf s r).wantStop)) then
    stepTaken (onStarting (setUnit s u { x with pw := .starting, wantStart := false, since := s.now }) u) u true
  else s

/-- A wake by a command marks the unit as woken by the host (R41, R55). -/
def wokenBy (s : State) (u : Nat) (fid : Option Nat) : State :=
  if fid.isSome then setUnit s u { unitOf s u with hostWoken := true } else s

/-- A wake (true) or sleep reaches a unit, from a command or because of another unit (R40, R44).  `fid` names the
command that waits for it. -/
def request : Nat → Bool → Nat → Option Nat → Bool → State → State
  | 0, _, _, _, _, s => s
  | n + 1, wake, u, fid, ev, s =>
    let x := unitOf s u
    let fin := fun (s : State) (st fl : Nat) => match fid with | some f => waitDone1 s u f st fl | none => s
    if x.pw == .fault then fin s stUnitFaulted 0
    else
      match x.held with
      | some h =>
        let s1 := setUnit s u { x with held := some ⟨wake, fid, ev⟩, firm := x.firm || (starting x && !wake && fid.isNone) }
        tryStart (match h.fid with | some f => waitDone1 s1 u f stSuperseded 0 | none => s1) u
      | none =>
        if wake then
          if stopping x then setUnit s u { x with held := some ⟨true, fid, ev⟩ }
          else if x.pw == .awake then fin (wokenBy s u fid) 0 4
          else if starting x then addWait (wokenBy s u fid) u true fid 4 ev
          else if (closure s depth u).any fun r => pwOf s r == .fault then fin s stUnitFaulted 0
          else
            let s1 := addWait (wokenBy s u fid) u true fid 0 ev
            let e := (unitOf s1 u).ev
            let s2 := setUnit s1 u { unitOf s1 u with wantStart := true, powering := x.gated }
            tryStart ((deps s u).foldl (fun s r => request n true r none e s) s2) u
        else
          if starting x then tryStart (setUnit s u { x with held := some ⟨false, fid, ev⟩, firm := x.firm || fid.isNone }) u
          else if x.pw == .asleep then fin (setUnit s u { x with hostWoken := false }) 0 4
          else if stopping x then addWait s u false fid 4 ev
          else
            let s1 := addWait s u false fid 0 ev
            let e := (unitOf s1 u).ev
            let s2 := setUnit s1 u { unitOf s1 u with wantStop := true }
            let rs := (dependents s u).filter fun r => busyUnit (unitOf s r)
            tryStop (rs.foldl (fun s r => request n false r none e s) s2) u

/-- A unit sleeps for a dependency that waits to stop. -/
def sleepForDep (s : State) (u : Nat) : State :=
  request depth false u none ((deps s u).any fun r => (unitOf s r).wantStop && (unitOf s r).ev) s

/-- A held wake or sleep begins once the unit has reached a state (R44).  An AWAKE unit for whose sleep a dependency
waits sleeps first, and a held wake then follows. -/
def runHeld (s0 : State) (u : Nat) : State :=
  let s := setUnit s0 u { unitOf s0 u with firm := false }
  let x := unitOf s u
  match x.held with
  | none => if stopAwaited s u then sleepForDep s u else s
  | some h =>
    if h.wake && stopAwaited s u then
      let s1 := sleepForDep (setUnit s u { x with held := none }) u
      setUnit s1 u { unitOf s1 u with held := some h }
    else
    let there : Bool := h.wake = (x.pw == .awake)
    let woken := if there then h.wake && (x.hostWoken || h.fid.isSome) else x.hostWoken
    let s1 := setUnit s u { x with held := none, hostWoken := woken }
    let fin := fun (fl : Nat) => match h.fid with | some f => waitDone1 s1 u f 0 fl | none => s1
    if there then fin 4
    else
      let s2 := request depth h.wake u h.fid h.ev s1
      let y := unitOf s2 u
      stepTaken (setUnit s2 u { y with
        waiters := y.waiters.map fun w => if some w.fid = h.fid then { w with flags := if h.wake then 1 else 2 } else w }) u h.wake

/-- A unit no longer needs what it depends on: those that wait for it may stop, and an implicit unit without dependents
that the host did not wake goes to sleep (R41). -/
def settleDeps (s : State) (u : Nat) (ev : Bool) : State :=
  (deps s u).foldl (fun s r =>
    let s1 := tryStop s r
    let x := unitOf s1 r
    if implicit r && x.pw == .awake && !x.wantStop && !x.hostWoken && x.held.isNone &&
        !((dependents s1 r).any fun y => busyUnit (unitOf s1 y)) then
      request depth false r none ev s1
    else s1) s

/-- What UNIT_SLEEP of the package leaves running: host ports, their PPLLs, dies and FPLLs, and die 0 with its FPLL
(R43, R53). -/
def standbyUnits (s : State) : List Nat :=
  dieUid 0 :: fpllUid 0 :: ((dies s).filter (isPort s)).flatMap fun d => [portUid d, pllUid d 6, dieUid d, fpllUid d]

/-- The package has reached standby: its UNIT_SLEEP completes (R43). -/
def standbyCheck (s : State) : State :=
  let x := unitOf s pkgUid
  if (x.waiters.any fun w => !w.wake) && !((allUnits s).any fun u => !(standbyUnits s).contains u && busyUnit (unitOf s u)) then
    waitersDone s pkgUid false 0
  else s

/-- A unit becomes AWAKE (R39). -/
def reachAwake (s : State) (u : Nat) : State :=
  let x := unitOf s u
  let s1 := setUnit s u { x with pw := .awake, ev := false }
  let s2 := if x.ev then unitStateEv s1 u .awake .starting else s1
  let s3 := waitersDone (onAwake s2 u) u true 0
  let s4 := (dependents s u).foldl tryStart s3
  runHeld s4 u

/-- A unit ASLEEP that a unit waiting to start depends on wakes for it (R40). -/
def wakeForDeps (s : State) (u : Nat) : State :=
  let x := unitOf s u
  if x.pw == .asleep && !x.wantStart then
    match (dependents s u).find? fun r => (unitOf s r).wantStart with
    | some r => request depth true u none (unitOf s r).ev s
    | none => s
  else s

/-- A unit becomes ASLEEP (R39). -/
def reachAsleep (s : State) (u : Nat) : State :=
  let x := unitOf s u
  let s1 := setUnit s u { x with pw := .asleep, ev := false, since := s.now }
  let s2 := if x.ev then unitStateEv s1 u .asleep .stopping else s1
  let s3 := onAsleep s2 u
  let s4 := if u = pkgUid then s3 else waitersDone s3 u false 0
  standbyCheck (wakeForDeps (runHeld (settleDeps s4 u x.ev) u) u)

/-- A start is given up because a dependency faulted (R618): the unit is ASLEEP again, its wake completes with
UNIT_FAULTED, and so do those that wait for it.  Of the implicit units woken for it those that are AWAKE sleep again, and
those that still start become AWAKE and stay so (DESIGN CHOICE, log entry 136). -/
def abortStart : Nat → Nat → State → State
  | 0, _, s => s
  | n + 1, u, s =>
    let x := unitOf s u
    if !starting x then s
    else
      let was := x.pw == .starting
      let s1 := setUnit s u { x with
        pw := .asleep, wantStart := false, powering := false, firm := false, ev := false, since := s.now
        hostWoken := false }
      let s2 := if x.ev && was then unitStateEv s1 u .asleep .starting else s1
      let s3 := waitersDone (onAsleep s2 u) u true stUnitFaulted
      let s4 := (dependents s u).foldl (fun s r => abortStart n r s) s3
      runHeld (settleDeps s4 u x.ev) u

/-- The units that depend on a unit, directly or through others, in descending ID order. -/
def allDependents (s : State) (u : Nat) : List Nat := ((allUnits s).filter fun r => (closure s depth r).contains u).reverse

/-- A unit enters FAULT with a cause of R61 (R39): EV_UNIT_FAULT, its commands complete with UNIT_FAULTED, and starts
that need it are given up (R618).  For the implicit units it depends on it then counts as a dependent that sleeps (R41;
DESIGN CHOICE, log entry 115).  The event carries the die time `t`. -/
def faultUnitAt (s : State) (u cause t : Nat) : State :=
  let x := unitOf s u
  if x.pw == .fault then s
  else
    let s1 := setUnit s u { x with
      pw := .fault, faultCause := cause, wantStart := false, wantStop := false, firm := false, powering := false
      held := none, ev := false
      hostWoken := false }
    let s2 := post s1 (uDie u) 0x0002 u t (leBytes 1 cause)
    let s3 := waitersDone (waitersDone s2 u true stUnitFaulted) u false stUnitFaulted
    let s4 := match x.held with
      | some h => (match h.fid with | some f => waitDone1 s3 u f stUnitFaulted 0 | none => s3)
      | none => s3
    let s5 := if x.pw == .awake then onStopping s4 u else s4
    let s6 := (allDependents s u).foldl (fun s r => abortStart depth r s) s5
    standbyCheck (settleDeps s6 u false)

/-- A unit enters FAULT now. -/
def faultUnit (s : State) (u cause : Nat) : State := faultUnitAt s u cause (dieTime s (uDie u))

/-! ## Rows -/

/-- The start limit of a class in ticks (R41). -/
def startLimit (u : Nat) : Nat :=
  match uCls u with
  | 0x12 => 100 * usTicks
  | 0x01 => 200 * usTicks
  | 0x03 => 10 * usTicks
  | 0x09 => 20 * msTicks
  | 0x0A => 20 * msTicks
  | 0x11 => 20 * msTicks
  | _ => 50 * usTicks

/-- A row about one single unit of the tree. -/
def onUnit (u : Nat) (s : State) (b : Bool) (f : State → State) : Out :=
  .next (whenB (!isGroup u && unitPresent s u && b) s f)

/-- The PLL that feeds a unit's clocks (R144): a PLL itself, the LPLL of a lane group, the PPLL of a port, the DPLL of the
Proof port, and the FPLL of every other unit's die. -/
def feedingPll (u : Nat) : Nat :=
  match uCls u with
  | 0x02 => 1 + uIdx u
  | 0x03 => 1 + uIdx u / 4
  | 0x09 => 6
  | 0x0A => 6
  | 0x0E => 7
  | 0x12 => uIdx u
  | _ => 0

/-- The PLL that feeds a unit is locked, so the AON island may open its gate (R28, R150). -/
def clockReady (s : State) (u : Nat) : Bool := (pllOf s (uDie u) (feedingPll u)).locked

/-- A STARTING unit's clocks have locked and it is ready (R39, R150); a lane becomes AWAKE by entering ACQUIRE. -/
def execUnitStartComplete (u : Nat) (s : State) : Out :=
  onUnit u s (pwOf s u == .starting && uCls u ≠ clLane && clockReady s u) fun s => reachAwake s u

/-- A starting lane enters ACQUIRE and is AWAKE (R38, R123). -/
def execLaneAcquireEntry (d n : Nat) (s : State) : Out :=
  onDie d s fun s =>
    whenB (n < 16 && !faulted s d && pwOf s (laneUid d n) == .starting && (pllOf s d (1 + n / 4)).locked) s fun s =>
      reachAwake (setLaneState s d n .acquire 0 (dieTime s d)) (laneUid d n)

/-- A unit exceeds its start limit (R39, R41): a start that is complete in the limit's last tick comes first (R10). -/
def execStartLimitExpiry (u : Nat) (s : State) : Out :=
  onUnit u s (pwOf s u == .starting && (unitOf s u).since + startLimit u < s.now) fun s =>
    faultUnitAt s u 2 (tickAt s (uDie u) ((unitOf s u).since + startLimit u))

/-- A STOPPING unit has drained (R39). -/
def execUnitStopComplete (u : Nat) (s : State) : Out :=
  onUnit u s (pwOf s u == .stopping && drainedUnit s u) fun s => reachAsleep s u

/-- A unit ASLEEP for 1 ms is power-gated into retention (R561). -/
def execPowerGateTimeout (u : Nat) (s : State) : Out :=
  let x := unitOf s u
  onUnit u s (gates u && x.pw == .asleep && !x.wantStart && !x.gated && x.since + msTicks < s.now) fun s =>
    setUnit s u { x with gated := true }

/-- A power-gated domain has powered up; its unit may enter STARTING (R561). -/
def execDomainPowerUpDone (u : Nat) (s : State) : Out :=
  onUnit u s (unitOf s u).powering fun s => tryStart (setUnit s u { unitOf s u with powering := false, gated := false }) u

/-! ## Commands (R43 to R45, R61) -/

def anyClass (_ _ : Nat) : Bool := true

/-- A wake or sleep has been asked of a unit: its effect has begun where some unit has changed its state or powers up (R85). -/
def powerAsked (s0 s : State) : State × Res :=
  (s, if (allUnits s0).any fun r => pwOf s0 r != pwOf s r || (unitOf s0 r).powering != (unitOf s r).powering then .wait else .pend)

def unitWakeDef : CmdDef where
  op := 0x0003
  cls := anyClass
  onGroup := false
  payOk := fun _ c => pb c 0 < 2 && restOk c 1
  eff := fun c fid u s =>
    if uCls u = clLane && (laneOf s (uDie u) (uIdx u)).state == .off then (s, err stBadState)
    else powerAsked s (request depth true u (some fid) (pb c 0 = 1) s)

/-- UNIT_WAKE (R44, R45). -/
def execUnitWake (c : Cmd) (s : State) : Out := startCmd unitWakeDef c s

/-- Puts every unit outside standby to sleep (R43); the package's own state decides the flags (R44). -/
def packageSleep (s : State) (fid : Nat) (ev : Bool) : State :=
  let keep := standbyUnits s
  let us := ((allUnits s).filter fun u => !keep.contains u && pwOf s u != .fault).reverse
  let s1 := us.foldl (fun s u => if busyUnit (unitOf s u) then request depth false u none ev s else s) s
  let x := unitOf s1 pkgUid
  let y := unitOf s pkgUid
  let fl := if starting y then 2 else if y.pw == .asleep || stopping y then 4 else 0
  standbyCheck (setUnit s1 pkgUid { x with waiters := x.waiters ++ [⟨fid, false, fl⟩] })

/-- The host port through which a command arrives, or a unit on which that port depends (R43). -/
def holdsPort (s : State) (p u : Nat) : Bool := u = portUid p || (closure s depth (portUid p)).contains u

def unitSleepDef : CmdDef where
  op := 0x0004
  cls := anyClass
  onGroup := false
  payOk := fun _ c => pb c 0 < 2 && restOk c 1
  eff := fun c fid u s =>
    if u = pkgUid then (packageSleep s fid (pb c 0 = 1), .wait)
    else if holdsPort s c.port u then (s, err stNotPermitted)
    else powerAsked s (request depth false u (some fid) (pb c 0 = 1) s)

/-- UNIT_SLEEP (R43 to R45). -/
def execUnitSleep (c : Cmd) (s : State) : Out := startCmd unitSleepDef c s

/-- The cause of a unit's FAULT has been removed: not a fenced die (R45).  The spec does not say when a cause counts as
removed; here a clock or start-limit cause always does, and a BIST failure never (DESIGN CHOICE, log entry 115). -/
def faultCleared (s : State) (u : Nat) : Bool := !fenced s (uDie u) && (unitOf s u).faultCause ≠ 3

def unitClearFaultDef : CmdDef where
  op := 0x0005
  cls := anyClass
  onGroup := false
  payOk := restZero 0
  eff := fun _ _ u s =>
    if pwOf s u != .fault then (s, ok)
    else if !faultCleared s u then (s, err stUnitFaulted)
    else (unitStateEv (onAsleep (setUnit s u { unitOf s u with pw := .asleep, faultCause := 0, since := s.now }) u) u .asleep .fault, ok)

/-- UNIT_CLEAR_FAULT (R39, R45). -/
def execUnitClearFault (c : Cmd) (s : State) : Out := startCmd unitClearFaultDef c s

/-! ## Enumeration (R51, R55, R62) -/

/-- A unit's place in the fixed tree (R55). -/
def parentOf (u : Nat) : Nat :=
  let d := uDie u
  if isGroup u then 0xFFFFFFFF
  else match uCls u with
    | 0x00 => 0xFFFFFFFF
    | 0x01 => pkgUid
    | 0x03 => uid d clLaneGroup (uIdx u / 4)
    | 0x0D => probeUid d (uIdx u)
    | _ => dieUid d

/-- A group's power state, derived from its expansion (R51). -/
def groupPw (s : State) (u : Nat) : Pw :=
  let l := (expansion s u).map (pwOf s)
  if l.contains .fault then .fault
  else if l.contains .stopping then .stopping
  else if l.contains .starting then .starting
  else if l.contains .awake then .awake
  else .asleep

/-- The direct members of a group. -/
def membersOf (s : State) (u : Nat) : List Nat :=
  if isGroup u then match groupOf s (bits u 0 16) with | some g => g.members | none => [] else []

/-- The enumeration entry of a unit or group (R55). -/
def enumEntry (s : State) (u : Nat) : List Byte :=
  let x := unitOf s u
  let inGroup := s.tree.groups.any fun g => match g.2 with | some y => y.members.contains u | none => false
  let st := if isGroup u then groupPw s u else x.pw
  let fl := if isGroup u then 4 * b2n inGroup else b2n x.hostWoken + 2 * b2n x.spare + 4 * b2n inGroup
  leBytes 4 u ++ leBytes 1 (pwCode st) ++ leBytes 1 (if isGroup u then 0 else x.partner) ++ leBytes 2 fl ++
    leBytes 4 (parentOf u) ++ leBytes 4 (membersOf s u).length

/-- Every ID of the tree in ascending order: single units, then groups. -/
def allIds (s : State) : List Nat :=
  allUnits s ++ s.tree.groups.filterMap fun g => if g.2.isSome then some (groupId g.1) else none

def unitEnumerateDef : CmdDef where
  op := 0x0001
  cls := onClass clPackage
  onGroup := false
  payOk := fun _ c =>
    1 ≤ fld c.payload 4 4 && fld c.payload 4 4 ≤ 65536 && fld c.payload 8 8 % 16 = 0 && restOk c 16
  eff := fun c _ _ s =>
    let ids := (allIds s).filter fun u => fld c.payload 0 4 ≤ u
    let n := fld c.payload 4 4
    let es := ids.take n
    let next := ((ids.drop n).head?).getD 0xFFFFFFFF
    (hostWrite s c.port (fld c.payload 8 8) (es.flatMap (enumEntry s)),
      .done 0 (leBytes 4 es.length ++ leBytes 4 next ++ leBytes 4 s.tree.gen) 0)

/-- UNIT_ENUMERATE (R55). -/
def execUnitEnumerate (c : Cmd) (s : State) : Out := startCmd unitEnumerateDef c s

def unitQueryDef : CmdDef where
  op := 0x0002
  cls := anyClass
  onGroup := true
  payOk := restZero 0
  eff := fun _ _ u s => (s, .done 0 (enumEntry s u) 0)

/-- UNIT_QUERY (R62). -/
def execUnitQuery (c : Cmd) (s : State) : Out := startCmd unitQueryDef c s

/-! ## Groups (R46, R47, R52, R62, R619) -/

def onlyGroup (c _ : Nat) : Bool := c == 0x40

def groupCreateDef : CmdDef where
  op := 0x0010
  cls := onClass clPackage
  onGroup := false
  payOk := fun _ c => fld c.payload 0 2 ≠ 0 && pb c 2 < 2 && restOk c 3
  eff := fun c _ _ s =>
    let g := fld c.payload 0 2
    if (groupOf s g).isSome then (s, err stGroupExists)
    else if 1024 ≤ s.tree.groups.length then (s, err stGroupFull)
    else (treeChange (setGroup s g (some ⟨pb c 2 = 1, []⟩)) (groupId g), ok)

/-- GROUP_CREATE (R46). -/
def execGroupCreate (c : Cmd) (s : State) : Out := startCmd groupCreateDef c s

/-- Group `u` can be reached from an ID by descending into members; groups nest at most 1,024 deep. -/
def reaches (s : State) (u : Nat) : Nat → Nat → Bool
  | 0, _ => false
  | n + 1, v => v = u || (membersOf s v).any (reaches s u n)

/-- Membership entries in use (R47). -/
def entriesUsed (s : State) : Nat :=
  s.tree.groups.foldl (fun n g => match g.2 with | some x => n + x.members.length | none => n) 0

def groupAddDef : CmdDef where
  op := 0x0011
  cls := onlyGroup
  onGroup := true
  payOk := restZero 6
  eff := fun c _ u s =>
    let m := fld c.payload 0 4
    match groupOf s (bits u 0 16) with
    | none => (s, err stUnitAbsent)
    | some g =>
      if !idFormOk m then (s, err stBadUnitId)
      else if !unitPresent s m then (s, err stUnitAbsent)
      else if reaches s u 1026 m then (s, err stGroupCycle)
      else if 4096 ≤ entriesUsed s then (s, err stGroupFull)
      else
        let k := min (fld c.payload 4 2) g.members.length
        (treeChange (setGroup s (bits u 0 16) (some { g with members := g.members.take k ++ m :: g.members.drop k })) u, ok)

/-- GROUP_ADD (R47, R619).  EV_TREE_CHANGED names the group, not the member (R54; DESIGN CHOICE, log entry 136). -/
def execGroupAdd (c : Cmd) (s : State) : Out := startCmd groupAddDef c s

def groupRemoveDef : CmdDef where
  op := 0x0012
  cls := onlyGroup
  onGroup := true
  payOk := restZero 4
  eff := fun c _ u s =>
    let m := fld c.payload 0 4
    match groupOf s (bits u 0 16) with
    | none => (s, err stUnitAbsent)
    | some g =>
      if !g.members.contains m then (s, err stBadPayload)
      else (treeChange (setGroup s (bits u 0 16) (some { g with members := g.members.erase m })) u, ok)

/-- GROUP_REMOVE (R619). -/
def execGroupRemove (c : Cmd) (s : State) : Out := startCmd groupRemoveDef c s

def groupDeleteDef : CmdDef where
  op := 0x0013
  cls := onlyGroup
  onGroup := true
  payOk := fun _ c => pb c 0 < 2 && restOk c 1
  eff := fun c _ u s =>
    let used := s.tree.groups.any fun g => match g.2 with | some x => x.members.contains u | none => false
    if used && pb c 0 = 0 then (s, err stGroupInUse)
    else (treeChange (setGroup (leaveGroups s u) (bits u 0 16) none) u, ok)

/-- GROUP_DELETE (R52). -/
def execGroupDelete (c : Cmd) (s : State) : Out := startCmd groupDeleteDef c s

def groupListDef : CmdDef where
  op := 0x0014
  cls := onlyGroup
  onGroup := true
  payOk := restZero 12
  eff := fun c _ u s =>
    let l := membersOf s u
    let w := l.take (fld c.payload 8 4)
    (hostWrite s c.port (fld c.payload 0 8) (w.flatMap (leBytes 4)), .done 0 (leBytes 4 w.length ++ leBytes 4 l.length) 0)

/-- GROUP_LIST (R62). -/
def execGroupList (c : Cmd) (s : State) : Out := startCmd groupListDef c s

end Sys2Proof.Machine
end

