-- ==== Sys2Proof/Machine/Power.lean ====
section
/-!
DEFINITION. Safelight mode, fencing, temperature and supplies (R562 to R570).
-/

namespace Sys2Proof.Machine

def diePwr (s : State) (d : Nat) : DiePwr := tget DiePwr.reset s.pwr.dies d

def setDiePwr (s : State) (d : Nat) (x : DiePwr) : State :=
  { s with pwr := { s.pwr with dies := tset DiePwr.reset s.pwr.dies d x } }

def railOf (s : State) (d r : Nat) : Rail := tget Rail.reset (diePwr s d).rails r

def setRail (s : State) (d r : Nat) (x : Rail) : State :=
  setDiePwr s d { diePwr s d with rails := tset Rail.reset (diePwr s d).rails r x }

/-! ## Safelight mode (R568 to R570) -/

def causes (s : State) (d : Nat) : Nat := getF s d fPwrStatCauses

/-- EV_SAFELIGHT at physical tick `ph`, with the cause bit that triggered the entry (R587). -/
def safeEvent (s : State) (d kind ph : Nat) : State :=
  post s d 0x0D03 (dieUid d) (tickAt s d ph)
    (leBytes 1 kind ++ leBytes 1 (causes s d) ++ leBytes 1 (diePwr s d).entryBit)

/-- What entry to Safelight mode stops (R569): Exposures, chains, engines and services, transfer channels, and a
composition of the Proof port.  The Test strip and the Densitometer follow the mode bit. -/
def safeStops (s : State) (d : Nat) : State :=
  let s1 := [0, 1].foldl (fun s c => chainStop s d c) s
  let s2 := [16, 17].foldl (fun s i => if armed (streamOf s d i) then disarm s d i true [] else s) s1
  let s3 := engSafelight s2 d
  let s4 := (List.range 32).foldl (fun s c => xferPause s d c) s3
  if d = 0 then prfAbort s4 3 else s4

/-- A cause arises at physical tick `ph`: the die enters Safelight mode, or the cause is added to the set (R568). -/
def enterSafeAt (s : State) (d bit ph : Nat) : State :=
  let c := causes s d
  let c1 := if bitAt c bit then c else c + 2 ^ bit
  let s1 := setF s d fPwrStatCauses c1
  let s2 := setFlag s1 d fPwrStatSafelight true
  if safelight s d then s1 else safeStops (safeEvent (setDiePwr s2 d { diePwr s2 d with entryBit := bit }) d 1 ph) d

/-- A cause arises now. -/
def enterSafe (s : State) (d bit : Nat) : State := enterSafeAt s d bit s.now

/-- A cause clears at physical tick `ph`; the last of THERMAL, SUPPLY and CFG_CRC to clear is reported (R568). -/
def clearCauseAt (s : State) (d bit ph : Nat) : State :=
  let c := causes s d
  if !bitAt c bit then s
  else
    let s1 := setF s d fPwrStatCauses (c - 2 ^ bit)
    if causes s1 d % 8 = 0 then safeEvent s1 d 3 ph else s1

/-- A cause clears now. -/
def clearCause (s : State) (d bit : Nat) : State := clearCauseAt s d bit s.now

/-- The die leaves Safelight mode (R570). -/
def exitSafe (s : State) (d : Nat) : State :=
  if !safelight s d then s
  else safeEvent (setFlag (setF s d fPwrStatCauses 0) d fPwrStatSafelight false) d 2 s.now

def dieOrPackage (c _ : Nat) : Bool := c == clDie || c == clPackage

/-- The dies a command names: its die, or every unfenced die for the package (R586). -/
def namedDies (s : State) (u : Nat) : List Nat :=
  if uCls u = clPackage then (dies s).filter fun d => !fenced s d else [uDie u]

def safelightEnterDef : CmdDef where
  op := 0x0D04
  cls := dieOrPackage
  onGroup := false
  payOk := restZero 0
  eff := fun _ _ u s => ((namedDies s u).foldl (fun s d => enterSafe s d 4) s, ok)

/-- SAFELIGHT_ENTER (R568). -/
def execSafelightEnter (c : Cmd) (s : State) : Out := startCmd safelightEnterDef c s

def safelightExitDef : CmdDef where
  op := 0x0D05
  cls := dieOrPackage
  onGroup := false
  payOk := restZero 0
  eff := fun _ _ u s =>
    let ds := namedDies s u
    if ds.any fun d => causes s d % 8 ≠ 0 then (s, err stBadState) else (ds.foldl exitSafe s, ok)

/-- SAFELIGHT_EXIT (R570). -/
def execSafelightExit (c : Cmd) (s : State) : Out := startCmd safelightExitDef c s

/-! ## Fencing (R567) -/

/-- A stream of a fenced die: it ends with reason 4, and what HBM held of it is lost. -/
def fenceStream (d : Nat) (s : State) (i : Nat) : State :=
  let x := streamOf s d i
  if !x.present || x.state == .unconfigured then s
  else
    let s1 := if x.state == .rolling then post s d 0x0305 (streamUid d i) (dieTime s d) (streamEndData x 4) else s
    setStream s1 d i { x with
      state := .idle, look := [], lateMarks := [], tStop := none, stopFids := [], spool := [], ndeliv := 0, pos := 0, openEnv := none
      drop := none, gap := none, resends := [], unbindFids := [], service := none, endDue := x.ring.isSome
      seg := SegSt.reset, closing := [], kept := [] }

/-- Ends with ABORTED what commands still wait for on a die's units (R96). -/
def abortDie (s : State) (d : Nat) : State :=
  s.host.flights.foldl (fun s f =>
    (f.waits.filter fun u => !isGroup u && uDie u = d).foldl (fun s u => unitDone s f.id u stAborted 0 [] (dieTime s d)) s) s

/-- The memory of a die's HBM stack is lost. -/
def dropHbm (m : List Host.Cell) (d : Nat) : List Host.Cell :=
  m.filter fun c => !(regionBase (.hbm d) ≤ c.1 && c.1 < regionBase (.hbm (d + 1)))

/-- The host partner of a fenced die's port, or the drives, detach with reason 4. -/
def fencePort (s : State) (d : Nat) : State :=
  let s1 := drivesGone s d 4
  let s2 := if (unitOf s1 (portUid d)).partner = 5 then detachPartner s1 d (portUid d) 4 (dieTime s1 d) 0 else s1
  portDown s2 d

def setBootState (s : State) (st err : Nat) : State :=
  setF (setF s ctlPage (cfld fSecBootStatState) st) ctlPage (cfld fSecBootStatErr) err

/-- The start fails on die 0: STATE FAILED with ERR START, and the package is in FAULT (R574, R593). -/
def startFailed (s : State) : State :=
  setUnit (setBootState s 4 7) pkgUid { unitOf s pkgUid with pw := .fault, faultCause := 4 }

/-- A host port shows its boot window again, with ROLE 0, and moves through it fail (R13, R66). -/
def toBootWindow (s : State) (p : Nat) : State :=
  if isPort s p then
    setF (setFlag (setFlag (movesLosePort s p) p fHstPortStatReady false) p fHstPortStatBootWindow true) p fHstPortIdRole 0
  else s

/-- Die 0 has failed (R13): the package is in FAULT, every host port keeps only its boot window, and what was under way
for the host ends with it (log entry 71). -/
def packageFailed (s : State) : State :=
  let s1 := (dies s).foldl toBootWindow (startFailed s)
  { s1 with ready := false, host := { s1.host with flights := [] } }

/-- No THERMAL_CONFIGURE waits for the die any more: those that wait for no other die complete (R565). -/
def thermalTaken (s : State) (d : Nat) : State :=
  let x := diePwr s d
  let last := fun (s : State) (f : Nat × Nat) => !((dies s).any fun e => (diePwr s e).thermFids.contains f)
  x.thermFids.foldl (fun s f => if last s f then unitDone s f.1 f.2 0 0 [] (dieTime s d) else s)
    (setDiePwr s d { x with thermal := none, thermFids := [] })

/-- A die is fenced (R567); its swaps end (R579).  A LINK partner of its lanes has detached UNWATCHED, and a PROBE partner
stays (DESIGN CHOICE, log entry 71). -/
def fence (s : State) (d : Nat) : State :=
  if fenced s d then s
  else
    let s0 := if (dieClk s d).holding then lossEvent s d false 0 else s
    let s1 := fencePort ((List.range 96).foldl (fenceStream d) (movesLoseDie s0 d)) d
    let s2 := (List.range 16).foldl (fun s e => setEng s d e { engDflt (key d e) with phys := (engOf s d e).phys }) s1
    let s3 := (List.range 8).foldl (fun s k => setSvc s d k Svc.reset) s2
    let s4 := (List.range 32).foldl (fun s c => setXfer s d c Xfer.reset) s3
    let s5 := { setTdc s4 d { tdcOf s4 d with arm := none } with
      mem := dropHbm s4.mem d, pwr := { s4.pwr with swaps := s4.pwr.swaps.filter fun w => w.die ≠ d } }
    let us := dieUnits s5 d
    let s6 := loseCands (setDieClk s5 d { dieClk s5 d with fenced := true }) d
    let s7 := us.foldl (fun s u => faultUnit s u 4) s6
    let s8 := thermalTaken (abortDie s7 d) d
    if d = 0 then packageFailed s8
    else ((dies s).filter fun e => e ≠ d && !fenced s8 e && flagF s8 e fPwrSafeCtlOnFence).foldl (fun s e => enterSafe s e 3) s8

/-! ## Temperature (R562, R563, R565) -/

def throttle (s : State) (d : Nat) : Nat := getF s d fPwrStatThrottle

/-- EV_THERMAL at physical tick `ph` (R587). -/
def thermalEvent (s : State) (d kind ph : Nat) : State :=
  post s d 0x0D02 (dieUid d) (tickAt s d ph)
    (leBytes 1 kind ++ leBytes 1 (throttle s d) ++ leBytes 2 (getF s d fAonTempNow) ++ leBytes 2 (getF s d fAonTempMax))

/-- The throttle level changes, by the sample or the timer of physical tick `ph`: each engine's watchdog goes on counting
at the new rate (R405, R563). -/
def setThrottle (s : State) (d level ph : Nat) : State :=
  let s1 := (List.range 16).foldl (fun s e =>
    let x := engOf s d e
    setEng s d e { x with wdogCnt := wdogCount s d x, wdogAt := s.now }) s
  thermalEvent (setF s1 d fPwrStatThrottle level) d 3 ph

/-- THERMAL_CONFIGURE settings that wait take effect with this sample (R565). -/
def thermalApply (s : State) (d : Nat) : State :=
  match (diePwr s d).thermal with
  | none => s
  | some (w, t) => thermalTaken (setF (setF s d fPwrThermalWarnT w) d fPwrThermalThrottleT t) d

/-- The sample enters AON_TEMP. -/
def tempStore (s : State) (d : Nat) (t : Int) : State :=
  let x := diePwr s d
  let v := unsgn 16 t
  let s1 := setF s d fAonTempNow v
  let s2 := if !x.sampled || sgn 16 (getF s d fAonTempMax) < t then setF s1 d fAonTempMax v else s1
  setDiePwr s2 d { diePwr s2 d with sampled := true, sampleAt := s.now }

/-- WARN is crossed, with 3.0 °C of hysteresis on the way down. -/
def tempWarn (s : State) (d : Nat) (t : Int) : State :=
  let x := diePwr s d
  let w : Int := getF s d fPwrThermalWarnT
  if !x.warnUp && w ≤ t then thermalEvent (setDiePwr s d { x with warnUp := true }) d 1 s.now
  else if x.warnUp && t < w - 30 then thermalEvent (setDiePwr s d { x with warnUp := false }) d 2 s.now
  else s

/-- The throttle sees a sample: the first one at or above THROTTLE sets level 1 (R563). -/
def tempThrottle (s : State) (d : Nat) (t : Int) : State :=
  let x := diePwr s d
  let th : Int := getF s d fPwrThermalThrottleT
  let hot : Bool := th ≤ t
  let cool : Bool := t < th - 30
  let first : Bool := hot && throttle s d = 0
  let s1 := setDiePwr s d { x with
    hotAt := if !hot then none else if first then some s.now else some (x.hotAt.getD s.now)
    coolAt := if cool then some (x.coolAt.getD s.now) else none }
  if first then setThrottle s1 d 1 s.now else s1

/-- The SAFELIGHT threshold of 108.0 °C, cleared below 103.0 °C (R562, R568). -/
def tempSafe (s : State) (d : Nat) (t : Int) : State :=
  if 1080 ≤ t && !bitAt (causes s d) 0 then enterSafe (thermalEvent s d 4 s.now) d 0
  else if t < 1030 then clearCause s d 0
  else s

/-- TEMP_SAMPLE, every 1,250 hk-cycles (R562). -/
def execTempSample (d : Nat) (t : Int) (s : State) : Out :=
  onDie d s fun s =>
    let x := diePwr s d
    whenB (!fenced s d && !s.pwr.down && !s.pwr.held && (!x.sampled || x.sampleAt + hkMin s d 1250 ≤ s.now) && -32768 ≤ t && t ≤ 32767)
      s fun s => tempSafe (tempThrottle (tempWarn (tempStore (thermalApply s d) d t) d t) d t) d t

/-- THROTTLE_TIMER: 1 ms at or above the threshold raises the level, 10 ms below it by 3 °C lowers it (R563).  A sample
in the timer's last tick comes first (R10). -/
def execThrottleTimer (d : Nat) (s : State) : Out :=
  onDie d s fun s =>
    let x := diePwr s d
    let l := throttle s d
    match x.hotAt, x.coolAt with
    | some h, _ =>
      whenB (l < 3 && 0 < l && h + msTicks < s.now) s fun s =>
        setThrottle (setDiePwr s d { x with hotAt := some (h + msTicks) }) d (l + 1) (h + msTicks)
    | none, some c =>
      whenB (0 < l && c + 10 * msTicks < s.now) s fun s =>
        setThrottle (setDiePwr s d { x with coolAt := some (c + 10 * msTicks) }) d (l - 1) (c + 10 * msTicks)
    | none, none => s

def thermalConfigureDef : CmdDef where
  op := 0x0D06
  cls := dieOrPackage
  onGroup := false
  payOk := fun _ c =>
    let w := fld c.payload 0 2
    let t := fld c.payload 2 2
    600 ≤ w && w ≤ 1050 && 850 ≤ t && t ≤ 1000 && restOk c 4
  eff := fun c fid u s =>
    let ds := if uCls u = clPackage then (dies s).filter fun d => !fenced s d else [uDie u]
    (ds.foldl (fun s d => setDiePwr s d { diePwr s d with
      thermal := some (fld c.payload 0 2, fld c.payload 2 2), thermFids := (diePwr s d).thermFids ++ [(fid, u)] }) s, .pend)

/-- THERMAL_CONFIGURE (R565): completes at the next sample. -/
def execThermalConfigure (c : Cmd) (s : State) : Out := startCmd thermalConfigureDef c s

/-! ## Supplies (R566) -/

/-- The rails of R587: 1 to 10. -/
def railOk (r : Nat) : Bool := 1 ≤ r && r ≤ 10

/-- EV_SUPPLY_FAULT, detected at physical tick `ph` (R587). -/
def supplyEvent (s : State) (d r kind ph : Nat) (fencing : Bool) : State :=
  post s d 0x0D04 (dieUid d) (tickAt s d ph)
    (leBytes 1 r ++ leBytes 1 kind ++ leBytes 2 (railOf s d r).mv ++ leBytes 1 (b2n fencing))

/-- Every rail of the die is in its window. -/
def railsIn (s : State) (d : Nat) : Bool := getF s d fPwrSupplyNow = 0

/-- What a measured level says of a rail: outside its window, above it, below 85 %.  Of VDD_CORE it is taken from the
requested level (R566); the nominal levels of the other rails stand nowhere in the spec, and the row names the answer. -/
def railReads (s : State) (d rail mv : Nat) (above deep : Bool) : Bool × Bool × Bool :=
  let c := getF s d fPwrStatCoreMv
  if rail = 1 then (100 * mv < 95 * c || 105 * c < 100 * mv, 105 * c < 100 * mv, 100 * mv < 85 * c) else (true, above, deep && !above)

/-- A monitored rail leaves its window (R566). -/
def execRailLeavesWindow (d rail mv : Nat) (above deep : Bool) (s : State) : Out :=
  onDie d s fun s =>
    let r := railReads s d rail mv above deep
    whenB (railOk rail && r.1) s fun s =>
      let x := railOf s d rail
      let s1 := setRail s d rail { x with
        out := true, above := r.2.1, deep := r.2.2, mv := mv, since := if x.out then x.since else s.now }
      let s2 := setF s1 d fPwrSupplyNow (getF s d fPwrSupplyNow ||| 2 ^ (rail - 1))
      setDiePwr s2 d { diePwr s2 d with backAt := none }

/-- A monitored rail comes back inside its window (R566). -/
def execRailReturnsToWindow (d rail mv : Nat) (s : State) : Out :=
  onDie d s fun s => whenB (railOk rail && (railOf s d rail).out && (rail ≠ 1 || !(railReads s d 1 mv false false).1)) s fun s =>
    let now := getF s d fPwrSupplyNow
    let s1 := setRail s d rail { railOf s d rail with out := false, deep := false, mv := mv, faulted := false }
    let s2 := setF s1 d fPwrSupplyNow (if bitAt now (rail - 1) then now - 2 ^ (rail - 1) else now)
    let x := diePwr s2 d
    setDiePwr s2 d { x with
      backAt := if railsIn s2 d then some s.now else none, backRail := rail, railsWait := x.railsWait && !railsIn s2 d }

/-- A rail has been out of its window for 10 µs (R525, R566); a return in the last tick comes first (R10). -/
def execSupplyFaultDetect (d rail : Nat) (s : State) : Out :=
  onDie d s fun s =>
    let x := railOf s d rail
    whenB (railOk rail && !fenced s d && x.out && !x.faulted && x.since + 10 * usTicks < s.now) s fun s =>
      let ph := x.since + 10 * usTicks
      let s1 := setRail s d rail { x with faulted := true }
      let s2 := setF s1 d fPwrSupplySeen (getF s1 d fPwrSupplySeen ||| 2 ^ (rail - 1))
      let s3 := supplyEvent s2 d rail (if x.above then 2 else 1) ph false
      let s4 := if rail = 10 || rail = 4 then biasHighZ (biasHighZ s3 d 0) d 1 else s3
      enterSafeAt s4 d 1 ph

/-- Every rail has been back in its window for 10 ms (R566). -/
def execSupplyReturnTimeout (d : Nat) (s : State) : Out :=
  onDie d s fun s =>
    let x := diePwr s d
    match x.backAt with
    | none => s
    | some t =>
      whenB (!fenced s d && railsIn s d && bitAt (causes s d) 1 && t + 10 * msTicks < s.now) s fun s =>
        clearCauseAt (supplyEvent (setDiePwr s d { x with backAt := none }) d x.backRail 3 (t + 10 * msTicks) false)
          d 1 (t + 10 * msTicks)

/-- A supply fault has lasted 100 ms, or the rail has fallen below 85 %: the die is fenced (R525, R566, R567). -/
def execSupplyFenceTimeout (d rail : Nat) (s : State) : Out :=
  onDie d s fun s =>
    let x := railOf s d rail
    whenB (railOk rail && !fenced s d && x.out && (x.deep || (x.faulted && x.since + 100 * msTicks < s.now))) s fun s =>
      let s1 := if rail = 10 || rail = 4 then biasHighZ (biasHighZ s d 0) d 1 else s
      fence (supplyEvent s1 d rail (if x.above then 2 else 1) (if x.deep then s.now else x.since + 100 * msTicks) true) d

/-- The device changes its VDD_CORE request by 5 mV, at most once per 100 µs (R561, R594). -/
def execVddCoreRequest (d : Nat) (up : Bool) (s : State) : Out :=
  onDie d s fun s =>
    let x := diePwr s d
    let mv := getF s d fPwrStatCoreMv
    let v := if up then mv + 5 else mv - 5
    whenB (!fenced s d && 650 ≤ v && v ≤ 850 && x.coreAt + 100 * usTicks ≤ s.now) s fun s =>
      setF (setDiePwr s d { x with coreAt := s.now }) d fPwrStatCoreMv v

end Sys2Proof.Machine
end

