-- ==== Sys2Proof/Machine/Repair.lean ====
section
/-!
DEFINITION. The Reserve tray, the repair record, and health (R576 to R581, R417 to R419).
-/

namespace Sys2Proof.Machine

/-! ## Resources and their spares (R576) -/

/-- The far end of an Ulufer port: die and port (R14). -/
def uflFar (s : State) (d p : Nat) : Option (Nat × Nat) :=
  (uflPartner (nDies s) d p).map fun e => (e, if p = 0 then 1 else if p = 1 then 0 else p)

/-- A target number of a kind exists (R576). -/
def targetOk (s : State) (d kind target : Nat) : Bool :=
  match kind with
  | 1 => target < 16
  | 2 => target < 30
  | 3 => target / 256 < 4 && target % 256 < 32 && (uflPartner (nDies s) d (target / 256)).isSome
  | 4 => target < 2 ^ 32
  | 5 => target < 256
  | _ => false

/-- The spares of a kind: first number and count. -/
def spareRange (kind : Nat) : Nat × Nat :=
  match kind with
  | 1 => (16, 4)
  | 2 => (30, 2)
  | 3 => (32, 2)
  | _ => (0, 8)

/-- The highest SPARE of a kind plus 1. -/
def spareLimit (kind : Nat) : Nat :=
  match kind with
  | 1 => 20
  | 2 => 32
  | 3 => 34
  | _ => 8

/-- What a target's spares belong to within its die: the port of a link, or the memory of a row. -/
def placeOf_ (kind target : Nat) : Nat :=
  match kind with
  | 3 => target / 256
  | 4 => target / 2 ^ 16
  | _ => 0

/-- The places a link's spares are counted under: both of its ports (R576). -/
def samePlace (s : State) (kind d place d' place' : Nat) : Bool :=
  (d = d' && (place = place' || place' = 0xFFFFFFFF)) || (kind = 3 && uflFar s d place = some (d', place'))

/-- The place an entry of the record belongs to. -/
def entPlace (e : RepEnt) : Nat := if e.target = 0xFFFFFFFF then e.place else placeOf_ e.kind e.target

/-- The number of a spare is used, failed, or taken by a swap under way. -/
def spareTaken (s : State) (d kind place n : Nat) : Bool :=
  (s.pwr.record.any fun e => e.kind = kind && e.spare = n && samePlace s kind d place e.die (entPlace e)) ||
    (s.pwr.swaps.any fun w => w.kind = kind && w.spare = n && samePlace s kind d place w.die (placeOf_ w.kind w.target)) ||
    (kind = 1 && (List.range 16).any fun e =>
      (engOf s d e).phys = n || (match (engOf s d e).swap with | some w => w.spare = n | none => false)) ||
    (kind = 1 && s.eng.failed.contains (key d n))

/-- The free spares a target may take, lowest first. -/
def freeSpares (s : State) (d kind place : Nat) : List Nat :=
  ((List.range (spareRange kind).2).map ((spareRange kind).1 + ·)).filter fun n => !spareTaken s d kind place n

/-- The spare a SPARE field selects: the lowest free one, or the one named if it is free (R579). -/
def pickSpare (s : State) (d kind place n : Nat) : Option Nat :=
  let l := freeSpares s d kind place
  if n = 0xFFFF then l.head? else if l.contains n then some n else none

/-- Two targets are one resource: the same number on the same die, or one link's lane named at its two ports, which
change together (R576; DEDUCED, log entry 145). -/
def sameTarget (s : State) (kind d target d' target' : Nat) : Bool :=
  (d = d' && target = target') ||
    (kind = 3 && uflFar s d (target / 256) = some (d', target' / 256) && target % 256 = target' % 256)

/-- The record entry in force for a target. -/
def entryOf (s : State) (d kind target : Nat) : Option RepEnt :=
  s.pwr.record.find? fun e => e.kind = kind && sameTarget s kind d target e.die e.target

/-- The physical resource a target has now. -/
def physOf_ (s : State) (d kind target : Nat) : Nat :=
  if kind = 1 then (engOf s d target).phys
  else
    match entryOf s d kind target with
    | some e => e.spare
    | none => if kind = 3 then target % 256 else target % 2 ^ 16

/-! ## The repair record (R577) -/

/-- The order of the entries. -/
def entBefore (a b : RepEnt) : Bool :=
  if a.die ≠ b.die then a.die < b.die
  else if a.kind ≠ b.kind then a.kind < b.kind
  else if a.target ≠ b.target then a.target < b.target
  else a.spare < b.spare

/-- An entry takes its place in the order. -/
def insertEnt (e : RepEnt) : List RepEnt → List RepEnt
  | [] => [e]
  | x :: r => if entBefore e x then e :: x :: r else x :: insertEnt e r

/-- The 16 bytes of an entry. -/
def entBytes (e : RepEnt) : List Byte :=
  leBytes 1 e.kind ++ leBytes 1 e.die ++ leBytes 1 e.state ++ leBytes 1 e.reason ++ leBytes 4 e.target ++ leBytes 2 e.spare ++
    leBytes 6 0

/-- The repair record in force. -/
def recordBytes (s : State) : List Byte :=
  let hd := leBytes 2 0x5250 ++ leBytes 1 1 ++ leBytes 1 0 ++ leBytes 2 s.pwr.record.length ++ leBytes 2 0 ++
    leBytes 8 Config.serial.toNat ++ leBytes 4 s.pwr.gen ++ leBytes 8 0
  let es := s.pwr.record.flatMap entBytes
  hd ++ leBytes 4 (crc32c (hd ++ es)).toNat ++ es

/-- A target's new spare enters the record: an entry that gave it another spare is replaced, and that spare is listed
as failed (R576, R577). -/
def recordAdd (s : State) (l : List RepEnt) (e : RepEnt) : List RepEnt :=
  let same : RepEnt → Bool := fun x => x.kind = e.kind && sameTarget s e.kind e.die e.target x.die x.target
  let old := l.filter same
  let keep := l.filter fun x => !same x
  let failed := old.map fun x => { x with state := 3, reason := e.reason, target := 0xFFFFFFFF, place := placeOf_ x.kind x.target }
  (e :: failed).foldl (fun l x => insertEnt x l) keep

/-- The device changes the record: GENERATION counts it. -/
def retireTo_ (s : State) (e : RepEnt) : State :=
  { s with pwr := { s.pwr with record := recordAdd s s.pwr.record e, gen := (s.pwr.gen + 1) % 2 ^ 32 } }

/-! ## Swaps (R576, R579) -/

/-- The level of a resource's health (R580). -/
def healthOf (s : State) (d kind target : Nat) : Option Health :=
  s.pwr.health.find? fun h => h.die = d && h.kind = kind && h.target = target

def healthLevel (s : State) (d kind target : Nat) : Nat := match healthOf s d kind target with | some h => h.level | none => 0

/-- The REASON of a swap the host asks for: health once the resource is above GOOD, else host. -/
def hostReason (s : State) (d kind target : Nat) : Nat := if 0 < healthLevel s d kind target then 2 else 3

/-- A swap has taken effect: the record, EV_REPAIR_DONE, and its command's completion (R579, R587). -/
def repairDone (s : State) (w : Swap) (old : Nat) (lost pending : Bool) : State :=
  let e : RepEnt := ⟨w.kind, w.die, if pending then 2 else 1, w.reason, w.target, w.spare, 0⟩
  let s1 := retireTo_ { s with pwr := { s.pwr with swaps := s.pwr.swaps.erase w } } e
  let t := dieTime s1 w.die
  let s2 := post s1 w.die 0x0D06 (dieUid w.die) t
    (leBytes 1 w.kind ++ leBytes 1 w.reason ++ leBytes 1 (b2n lost + 2 * b2n pending) ++ leBytes 1 0 ++ leBytes 4 w.target ++
      leBytes 2 w.spare ++ leBytes 2 old ++ leBytes 4 ((s.now - w.at_) / usTicks))
  match w.fid with
  | some f => unitDone s2 f.1 f.2 0 0 (entBytes e) t
  | none => s2

/-- A swap of a resource begins; one that takes effect at once ends there. -/
def swapBegin (s : State) (w : Swap) : State :=
  let s1 := { s with pwr := { s.pwr with swaps := s.pwr.swaps ++ [w] } }
  if w.kind = 4 then repairDone s1 w (physOf_ s w.die w.kind w.target) false true else s1

/-- A waiting tap takes effect when no TDC measurement of its die is armed; its DLL relocks (R576, R168). -/
def tapDue (s : State) (w : Swap) : State :=
  if w.kind = 5 && (tdcOf s w.die).arm.isNone then
    let t := tdcOf s w.die
    repairDone (setTdc s w.die { t with dll := false, spares := t.spares + 1 }) w (physOf_ s w.die 5 w.target) false false
  else s

def tapsDue (s : State) : State := s.pwr.swaps.foldl tapDue s

/-- An engine's swap is pending: its point is reached at once when it does not run or waits in WAIT (R417). -/
def engSwapBegin (s : State) (d e spare fid : Nat) : State :=
  let x := engOf s d e
  let point := match x.st, x.waiting with
    | .running, some (.wait _ _ _) => 2
    | .running, _ => if awake s (engUid d e) then 3 else 0
    | _, _ => 0
  setEng s d e { x with swap := some ⟨spare, fid, 0, 0, point, x.st⟩ }

/-- A resource of this kind is being swapped already (R579). -/
def swapBusy (s : State) (d kind target : Nat) : Bool :=
  (kind = 1 && (engOf s d target).swap.isSome) ||
    (s.pwr.swaps.any fun w => w.kind = kind && (sameTarget s kind d target w.die w.target || (kind = 2 && w.die = d)))

def repairApplyDef : CmdDef where
  op := 0x0D01
  cls := fun c _ => c == clDie || c == clEngine
  onGroup := false
  payOk := fun s c =>
    let k := pb c 0
    let n := fld c.payload 8 2
    1 ≤ k && k ≤ 5 && fld c.payload 1 3 = 0 && restOk c 10 && (n = 0xFFFF || n < spareLimit k) &&
      (fitsSome s c fun u =>
        targetOk s (uDie u) k (fld c.payload 4 4) && (uCls u = clDie || (k = 1 && fld c.payload 4 4 = uIdx u)))
  eff := fun c fid u s =>
    let d := uDie u
    let k := pb c 0
    let t := fld c.payload 4 4
    if !(targetOk s d k t && (uCls u = clDie || (k = 1 && t = uIdx u))) then (s, err stBadPayload)
    else if swapBusy s d k t then (s, err stBusy)
    else
      match pickSpare s d k (placeOf_ k t) (fld c.payload 8 2) with
      | none => (s, err stNoResource)
      | some n =>
        if 1022 ≤ s.pwr.record.length then (s, err stNoResource)
        else if k = 1 then (engSwapBegin s d t n fid, .pend)
        else (tapsDue (swapBegin s ⟨k, d, t, n, some (fid, u), hostReason s d k t, s.now⟩), .wait)

/-- REPAIR_APPLY (R579). -/
def execRepairApply (c : Cmd) (s : State) : Out := startCmd repairApplyDef c s

/-- The lowest of a list of addresses. -/
def lowest (l : List Nat) : Option Nat := l.foldl (fun o a => some (match o with | some b => min a b | none => a)) none

/-- The first address at which the copy of an engine's SRAM meets an uncorrectable error (R418, R419): instruction SRAM is copied first,
then data SRAM, where the row may name one that the copy itself meets. -/
def copyError (x : Engine) (ecc : Option Nat) : Option Nat :=
  match lowest x.eccCode with | some a => some a | none => lowest (x.eccData ++ ecc.toList)

/-- SWAP_COMPLETE (R418, R419): the engine resumes on its spare; a copy that met an uncorrectable error leaves it
TRAPPED. -/
def execSwapComplete (d e : Nat) (ecc : Option Nat) (s : State) : Out :=
  onDie d s fun s =>
    let x := engOf s d e
    match x.swap with
    | none => s
    | some w =>
      whenB (e < 16 && x.st == .swapping) s fun s =>
        let t := dieTime s d
        let bad := copyError x ecc
        let s1 := setEng s d e { x with
          phys := w.spare, st := w.back, swap := none, wdogCnt := 0, wdogAt := s.now, eccCode := [], eccData := []
          waiting := if w.back == .running then x.waiting else none
          waited := x.waited + (if w.back != .running && x.waiting.isSome then s.now - x.waitAt else 0) }
        let s2 := { s1 with eng := { s1.eng with failed := s1.eng.failed ++ [key d x.phys] } }
        let s3 := setUnit s2 (engUid d e) { unitOf s2 (engUid d e) with spare := true }
        let s4 := post s3 d 0x0804 (engUid d e) t
          (leBytes 1 x.phys ++ leBytes 1 w.spare ++ leBytes 1 w.point ++ leBytes 1 (b2n bad.isSome) ++ leBytes 4 (s.now - w.beganAt) ++
            leBytes 8 (w.beganDie * 256))
        let r : Swap := ⟨1, d, e, w.spare, none, hostReason s d 1 e, w.beganAt⟩
        let ent : RepEnt := ⟨1, d, 1, r.reason, e, w.spare, 0⟩
        let s5 := repairDone s4 r x.phys bad.isSome false
        let s6 := unitDone (unitDone s5 w.fid (dieUid d) 0 0 (entBytes ent) t) w.fid (engUid d e) 0 0 (entBytes ent) t
        let y := engOf s6 d e
        let s7 := if w.back == .running then s6
          else unitsDone (setEng s6 d e { y with stopFids := [] }) (engUid d e) 0 t y.stopFids
        let s8 := match x.slot with | some k => svcCheck s7 d k | none => s7
        match bad with
        | some a => engTrap s8 d e 8 (BitVec.ofNat 64 a)
        | none => s8

/-- HBM_COPY_DONE (R576): the new channel is in service. -/
def execHbmCopyDone (d : Nat) (lost : Bool) (s : State) : Out :=
  onDie d s fun s =>
    match s.pwr.swaps.find? fun w => w.kind = 2 && w.die = d with
    | some w => repairDone s w (physOf_ s d 2 w.target) lost false
    | none => s

/-- UFL_LANE_RETRAIN_DONE (R576): the port runs on its new lane. -/
def execUflLaneRetrainDone (d p : Nat) (s : State) : Out :=
  onDie d s fun s =>
    match s.pwr.swaps.find? fun w => w.kind = 3 && w.die = d && w.target / 256 = p with
    | some w => repairDone s w (physOf_ s d 3 w.target) false false
    | none => s

/-! ## Health (R580, R581) -/

/-- A HEALTH_READ entry; `prev` fills [7:4] of byte 3 (R581, R587). -/
def healthBytes (h : Health) (prev : Nat) : List Byte :=
  leBytes 1 h.kind ++ leBytes 1 h.die ++ leBytes 1 h.level ++ leBytes 1 (16 * prev + h.monitor) ++ leBytes 4 h.target ++
    leBytes 4 h.value ++ leBytes 4 h.threshold

/-- Levels only rise; each rise posts EV_HEALTH (R580). -/
def raiseHealth (s : State) (h : Health) : State :=
  let prev := healthLevel s h.die h.kind h.target
  if h.level ≤ prev then s
  else
    let l := (s.pwr.health.filter fun x => !(x.die = h.die && x.kind = h.kind && x.target = h.target)) ++ [h]
    post { s with pwr := { s.pwr with health := l } } h.die 0x0D05 (dieUid h.die) (dieTime s h.die) (healthBytes h prev)

/-- A monitor watches resources of a kind; engine SRAM stands under the engine. -/
def monitors (monitor kind : Nat) : Bool :=
  match monitor with
  | 1 => kind ∈ [1, 6, 7]
  | 2 => kind = 2
  | 3 => kind = 3
  | 4 => kind ∈ [1, 4]
  | 5 => kind = 5
  | _ => false

/-- A resource of a HEALTH_READ kind exists. -/
def resourceOk (s : State) (d kind target : Nat) : Bool :=
  match kind with
  | 6 => target < 4
  | 7 => target = 0
  | _ => targetOk s d kind target

/-- The WATCH and REPLACE thresholds of a monitor: percent, errors, replays, errors, tenths of a tap (R580). -/
def thresholds (s : State) (d kind target monitor : Nat) : Nat × Nat :=
  match monitor with
  | 1 => (2, 4)
  | 2 => (16, 256)
  | 3 => let t := getF s d (fUflCfgThresh (if kind = 3 then target / 256 else 0)); (t, 16 * t)
  | 4 => (1, 2)
  | _ => (3, 5)

/-- A resource is lost without a spare left: the die is fenced, or the engine's or TDC's unit enters FAULT (R567), and ENG_DIE_STAT
shows the physical engine taken out of service (R424). -/
def outOfService (s : State) (d kind target : Nat) : State :=
  match kind with
  | 1 =>
    let s1 := { s with eng := { s.eng with failed := s.eng.failed ++ [key d (engOf s d target).phys] } }
    faultUnit s1 (engUid d target) 3
  | 5 => faultUnit s (tdcUid d) 3
  | _ => fence s d

/-- An Ulufer lane fails outright: the device swaps it at once, or the die is fenced (R579, R567). -/
def uflLost (s : State) (d target : Nat) : State :=
  if swapBusy s d 3 target then s
  else
    match (freeSpares s d 3 (target / 256)).head? with
    | some n => swapBegin s ⟨3, d, target, n, none, 4, s.now⟩
    | none => fence s d

/-- A resource has FAILED (R580): one whose kind has a spare left waits for the host. -/
def failed_ (s : State) (d kind target : Nat) : State :=
  if kind = 3 then uflLost s d target
  else if (freeSpares s d kind (placeOf_ kind target)).isEmpty then outOfService s d kind target
  else s

/-- A monitor's sample of a resource (R580). -/
def healthSample (s : State) (d kind target monitor value : Nat) (failed : Bool) : State :=
  let th := thresholds s d kind target monitor
  let fails := failed && monitor ≠ 1
  let level := if fails then 3 else if th.2 ≤ value then 2 else if th.1 ≤ value then 1 else 0
  let s1 := raiseHealth s ⟨kind, d, target, level, monitor, value, if fails then 0 else if level = 2 then th.2 else th.1⟩
  if fails && healthLevel s d kind target < 3 then failed_ s1 d kind target else s1

/-- HEALTH_CHECK (R580). -/
def execHealthCheck (d kind target monitor value : Nat) (failed : Bool) (s : State) : Out :=
  onDie d s fun s =>
    whenB (s.ready && !fenced s d && monitors monitor kind && resourceOk s d kind target && value < 2 ^ 32) s fun s =>
      healthSample s d kind target monitor value failed

/-- HBM_SCRUB_PASS (R580): every 2^36 ticks, the corrected errors of each pseudo-channel and any uncorrectable one. -/
def execHbmScrubPass (d : Nat) (errs : List (Nat × Nat × Bool)) (s : State) : Out :=
  onDie d s fun s =>
    whenB (s.ready && !fenced s d && (diePwr s d).scrubAt + 2 ^ 36 ≤ s.now) s fun s =>
      (errs.filter fun e => e.1 < 30).foldl (fun s e => healthSample s d 2 e.1 2 e.2.1 e.2.2)
        (setDiePwr s d { diePwr s d with scrubAt := s.now })

/-- UFL_LANE_FAIL (R579, R580). -/
def execUflLaneFail (d p lane : Nat) (s : State) : Out :=
  onDie d s fun s =>
    whenB (s.ready && !fenced s d && targetOk s d 3 (256 * p + lane) && lane < 32) s fun s =>
      let t := 256 * p + lane
      uflLost (raiseHealth s ⟨3, d, t, 3, 3, 0, 0⟩) d t

/-- FLIT_CRC_ERROR (R15): the port counts the flit it replays. -/
def execFlitCrcError (d p : Nat) (s : State) : Out :=
  onDie d s fun s =>
    whenB (!fenced s d && p < 4 && (uflPartner (nDies s) d p).isSome) s fun s => incF s d (fUflReplayCntCount p)

/-- SRAM_SCRUB (R386, R580): corrected errors are counted and watched; uncorrectable ones are counted and wait until
the word is used. -/
def execSramScrub (d e corrected : Nat) (bad : List (Bool × Nat)) (s : State) : Out :=
  onDie d s fun s =>
    whenB (e < 16 && !fenced s d) s fun s =>
      let s1 := addF (addF s d (fEngEccCorrected e) corrected) d (fEngEccUncorrected e) bad.length
      let x := engOf s1 d e
      let s2 := setEng s1 d e { x with
        eccCode := x.eccCode ++ ((bad.filter (·.1)).map fun b => b.2 / 4 * 4)
        eccData := x.eccData ++ ((bad.filter (!·.1)).map fun b => b.2 / 8 * 8) }
      healthSample s2 d 1 e 4 (min corrected 1) (!bad.isEmpty)

/-! ## Reading the record and the health (R578, R581, R586) -/

/-- A read command writes `data` to the buffer of its payload, or fails when its length is too small; it returns the
bytes needed and the entries written (R586). -/
def readOut (c : Cmd) (data : List Byte) (entries : Nat) (s : State) : State × Res :=
  if fld c.payload 8 4 < data.length then (s, .done stBadPayload (leBytes 4 data.length) 0)
  else (hostWrite s c.port (fld c.payload 0 8) data, .done 0 (leBytes 4 data.length ++ leBytes 4 entries) 0)

def repairReadDef : CmdDef where
  op := 0x0D02
  cls := onClass clPackage
  onGroup := false
  payOk := restZero 12
  eff := fun c _ _ s => readOut c (recordBytes s) s.pwr.record.length s

/-- REPAIR_READ (R578, R586). -/
def execRepairRead (c : Cmd) (s : State) : Out := startCmd repairReadDef c s

/-- The resources of a die that HEALTH_READ knows: kind and target.  Rows of SRAM appear once they have risen. -/
def resources (s : State) (d : Nat) : List (Nat × Nat) :=
  ((List.range 16).map (1, ·)) ++ ((List.range 30).map (2, ·)) ++
    ((List.range 4).flatMap fun p => if (uflPartner (nDies s) d p).isSome then (List.range 32).map fun l => (3, 256 * p + l) else []) ++
    ((s.pwr.health.filter fun h => h.die = d && h.kind = 4).map fun h => (4, h.target)) ++
    ((List.range 256).map (5, ·)) ++ ((List.range 4).map (6, ·)) ++ [(7, 0)]

/-- The monitor that a GOOD resource's entry names. -/
def kindMonitor (kind : Nat) : Nat :=
  match kind with
  | 2 => 2
  | 3 => 3
  | 4 => 4
  | 5 => 5
  | _ => 1

/-- The entries of the resources at or above a level; the value of a resource that has not risen is free. -/
def healthList (s : State) (least : Nat) : List (Nat × Nat × Nat) → List Byte × State
  | [] => ([], s)
  | (d, k, t) :: r =>
    match healthOf s d k t with
    | some h => let x := healthList s least r; (if least ≤ h.level then healthBytes h 0 ++ x.1 else x.1, x.2)
    | none =>
      if least = 0 then
        let v := drawFree s
        let m := kindMonitor k
        let x := healthList v.2 least r
        (healthBytes ⟨k, d, t, 0, m, v.1.toNat % 2 ^ 32, (thresholds s d k t m).1⟩ 0 ++ x.1, x.2)
      else healthList s least r

def healthReadDef : CmdDef where
  op := 0x0D03
  cls := dieOrPackage
  onGroup := false
  payOk := fun _ c => pb c 12 < 4 && restOk c 13
  eff := fun c _ u s =>
    let rs := (namedDies s u).flatMap fun d => (resources s d).map fun r => (d, r.1, r.2)
    let x := healthList s (pb c 12) rs
    readOut c x.1 (x.1.length / 16) x.2

/-- HEALTH_READ (R581). -/
def execHealthRead (c : Cmd) (s : State) : Out := startCmd healthReadDef c s

end Sys2Proof.Machine
end

