-- ==== Sys2Proof/Machine/Boot.lean ====
section
/-!
DEFINITION. Reset, boot and shutdown of the device, and the keys and measurements (R9, R53, R59, R564 to R574, R577,
R578, R582 to R585, R593, R598, R599).
-/

namespace Sys2Proof.Machine

/-! ## Reset (R9, R588, R598) -/

/-- The bytes that lie outside the device: host memory and drives. -/
def outerMem (m : List Host.Cell) : List Host.Cell :=
  m.filter fun c => c.1 < regionBase (.hbm 0) || regionBase (.drive 0 0) ≤ c.1

/-- After a release the AON island of each die waits for all of its rails (R593). -/
def railsCheck (s : State) : State :=
  (dies s).foldl (fun s d => setDiePwr s d { diePwr s d with railsWait := !railsIn s d }) s

/-- A die's rails as a reset finds them: in or out of their windows as before, with every time counted anew. -/
def keepRails (s t : State) (d : Nat) : State :=
  let rs := (List.range 11).foldl (fun l r =>
    tset Rail.reset l r { railOf s d r with faulted := false, since := if (railOf s d r).out then s.now else 0 }) []
  setF (setDiePwr t d { diePwr t d with rails := rs }) d fPwrSupplyNow (getF s d fPwrSupplyNow)

/-- Every resource of the device returns to its reset state.  The part, the clock, host memory and drives, the levels
on input pins and supplies, the commands waiting and AON_CAUSE stay. -/
def wipe (s : State) : State :=
  let s1 := { State.reset with
    part := s.part, now := s.now, freeCtr := s.freeCtr, mem := outerMem s.mem, pending := s.pending, tap := s.tap
    clk := { ClkSt.reset with syncDriven := s.clk.syncDriven, syncSince := s.clk.syncSince } }
  let s2 := setReg s1 0 rAonCause (reg s 0 rAonCause)
  let s3 := (List.range (nDies s)).foldl (fun t d => (List.range 16).foldl (fun t n =>
    setLane t d n { Lane.reset with signal := (laneOf s d n).signal }) t) s2
  let s4 := (List.range (nDies s)).foldl (fun t d => [0, 1].foldl (fun t p =>
    setProbe t d p { Probe.reset with pin := (probeOf s d p).pin, since := (probeOf s d p).since }) t) s3
  (List.range (nDies s)).foldl (keepRails s) s4

/-- RESET_N_ASSERT (R598): RESET_N has been low for 125 hk-cycles. -/
def execResetNAssert (s : State) : Out :=
  let s1 := wipe s
  .next { s1 with pwr := { s1.pwr with held := true } }

/-- RESET_N_RELEASE (R564, R598, R599): the straps are sampled and the AON island starts, unless a die is still at
100 °C or more. -/
def execResetNRelease (straps : Nat) (hot : Bool) (s : State) : Out :=
  .next (whenB (s.pwr.held && !hot) s fun s =>
    let s1 := { s with pwr := { s.pwr with held := false, straps := straps % 256, relAt := s.now } }
    (List.range (nDies s)).foldl (fun s p =>
      setPort s p { PortSt.reset with drive := bitAt straps p, crs := !bitAt straps p }) (railsCheck s1))

/-- THERMAL_SHUTDOWN (R564): at 115 °C every domain but AON is powered down until RESET_N is asserted. -/
def execThermalShutdown (d : Nat) (s : State) : Out :=
  onDie d s fun s => whenB (!s.pwr.down) s fun s =>
    let s1 := wipe s
    let s2 := setFlag (setFlag (setF s1 0 fAonCauseDie d) 0 fAonCauseShutdown true) 0 fAonCausePowerOn false
    { s2 with pwr := { s2.pwr with down := true } }

/-- The AON registers of a die at their reset values. -/
def aonReset (s : State) (d : Nat) : State :=
  let s1 := [rAonTemp, rPwrStat, rPwrSafeCtl, rPwrThermal, rPwrSupply].foldl
    (fun s o => setReg s d o (regReset (regKey d o))) s
  let s2 := setCfg s1 d { cfgOf s1 d with dirty := true }
  keepRails s (setDieClk (setDiePwr s2 d DiePwr.reset) d { dieClk s2 d with hkTrimmed := false, hkErr := 0, hkCode := 0 }) d

/-- VDD_AON_FAULT (R566): the die's AON island is reset; on die 0 that is the boot ROM controller, and the whole device
starts again. -/
def execVddAonFault (d : Nat) (s : State) : Out :=
  onDie d s fun s =>
    if d = 0 then
      let s1 := railsCheck (wipe s)
      { s1 with
        tap := TapReg.reset
        pwr := { s1.pwr with straps := s.pwr.straps, relAt := s.now }
        host := { s1.host with ports := (List.range (nDies s)).foldl (fun t p =>
          tset PortSt.reset t p { PortSt.reset with drive := bitAt s.pwr.straps p, crs := !bitAt s.pwr.straps p }) [] } }
    else aonReset s d

/-! ## The boot window (R66, R571, R572, R593) -/

def bootState (s : State) : Nat := getF s ctlPage (cfld fSecBootStatState)

/-- RAIL_CHECK_TIMEOUT (R593): 10 ms after the release, a die's rails have not all been in their windows. -/
def execRailCheckTimeout (d : Nat) (s : State) : Out :=
  onDie d s fun s =>
    whenB (!s.ready && !fenced s d && getF s ctlPage (cfld fSecBootStatErr) ≠ 7 && (diePwr s d).railsWait &&
        s.pwr.relAt + 10 * msTicks < s.now) s fun s =>
      if d = 0 then startFailed s else setDieClk s d { dieClk s d with fenced := true }

/-- CRS_END (R66): 100 ms after PERST# is released the port shows the boot window. -/
def execCrsEnd (port : Nat) (s : State) : Out :=
  onDie port s fun s => whenB (isPort s port && (portOf s port).crs && !(portOf s port).perst) s fun s => setPort s port { portOf s port with crs := false }

/-- SEC_BOOT_CTL.GO takes effect (R572): in state WAIT or FAILED, but not after a failed start, which needs a power
cycle (R13). -/
def bootGo (s : State) (port : Nat) : State :=
  whenB (bootState s = 0 || (bootState s = 4 && getF s ctlPage (cfld fSecBootStatErr) ≠ 7)) s fun s =>
    setF (setBootState s 1 0) ctlPage (cfld fSecBootStatGoDie) port

/-- A write to SEC_BOOT_CTL: W1T in the boot window, a reserved location after it (R571). -/
def goWrite (port be : Nat) (v : W32) (s : State) : State :=
  if be % 16 = 0 then s
  else if s.ready then badWrite s port 2 1 port be (0x2000000 + 4) v
  else if bitAt be 0 && v.getLsbD 0 then bootGo s port
  else s

/-- GO (R572). -/
def execGo (port be : Nat) (v : W32) (s : State) : Out := onPort port s (goWrite port be v)

/-- Bytes of the image area (R571). -/
def imageArea : Nat := 33550336

/-- A control page register. -/
def ctl (s : State) (o : Nat) : Nat := (reg s ctlPage (o - 0x4000000)).toNat

/-- The image that GO named. -/
def bootImage (s : State) : List Byte :=
  memRead s (.image (getF s ctlPage (cfld fSecBootStatGoDie))) 0 (min (ctl s rSecBootLen) imageArea)

/-- The ERR of a verification (R572, R573): the header's form, LENGTH, KIND and the signatures. -/
def bootFault (s : State) : Option Nat :=
  let p := bootImage s
  let len := ctl s rSecBootLen
  if !imgReadable p then some 1
  else if fld p 8 4 ≠ len || imageArea < len || (ctl s rSecRepairLen ≠ 0 && imageArea < ctl s rSecRepairOfs + ctl s rSecRepairLen) then
    some 6
  else baseFault s p

/-- A verification fails: FAILED, or LOCKED_OUT at the 16th (R572). -/
def bootFailed (s : State) (err : Nat) : State :=
  let n := getF s ctlPage (cfld fSecBootStatFails) + 1
  let p := bootImage s
  let s1 := setF (setBootState s (if n < 16 then 4 else 5) err) ctlPage (cfld fSecBootStatFails) n
  { s1 with sec := { s1.sec with bootFails := s1.sec.bootFails ++ [⟨if err = 6 then 1 else err, imgReportId p, n⟩] } }

/-- The primary port (R65): that of the lowest-numbered die whose endpoint link is up. -/
def choosePrimary (s : State) : Nat :=
  (((dies s).filter fun p => isPort s p && linkUp s p).head?).getD (getF s ctlPage (cfld fSecBootStatGoDie))

/-- Verification passes: roles and the primary port are fixed, and every die's FPLL starts (R574). -/
def bootPassed (s : State) : State :=
  let s1 := addMeasure (setBootState s 2 0) 0 0xFF (bootImage s) (dieTime s 0)
  let s2 := setF s1 0 fSecStatBootFails (getF s ctlPage (cfld fSecBootStatFails))
  let prim := choosePrimary s
  (dies s).foldl (fun s d =>
    let s1 := if (portOf s d).drive then setPort s d { portOf s d with perst := true }
      else setF s d fHstBondMapPrimaryDie prim
    let u := unitOf s1 (fpllUid d)
    setPll (setUnit s1 (fpllUid d) { u with pw := .starting, since := s.now }) d 0 { pllOf s1 d 0 with firstDue := true }) s2

/-- BOOT_VERIFY_DONE (R572). -/
def execBootVerifyDone (s : State) : Out :=
  .next (whenB (!off s && !s.ready && bootState s = 1) s fun s =>
    match bootFault s with
    | some e => bootFailed s e
    | none => bootPassed s)

/-- SEC_OWNER_HASHn of the control page (R582): WO1; a second write is a violation (R500, R501).  The control page lies in
no die's window; a first write suspends the check of die 0, which records the write (R496; DEDUCED, log entry 41). -/
def ownerHashWrite (s : State) (port n be : Nat) (v : W32) : State :=
  let o := rSecOwnerHash n
  let k := regKey ctlPage (o - 0x4000000)
  if be % 16 = 0 then s
  else if tget false s.wo1 k then lockViol s port 2 0xFF (o - 0x4000000) v
  else
    let old := reg s ctlPage (o - 0x4000000)
    let s1 := suspendCheck (setReg s ctlPage (o - 0x4000000) (mergeBits (byteMask be) old v)) 0
    setFlag { s1 with wo1 := tset false s1.wo1 k true } 0 fSecStatOwnerSet true

/-- SEC_OWNER_HASH_WRITE (R582). -/
def execSecOwnerHashWrite (port n be : Nat) (v : W32) (s : State) : Out :=
  onPort port s fun s => whenB (n < 8) s fun s => ownerHashWrite s port n be v

/-! ## The repair record at boot (R577, R578) -/

/-- An entry of a record given by the host. -/
def entOf (b : List Byte) : RepEnt :=
  let k := fld b 0 1
  let f : Bool := fld b 2 1 = 3
  ⟨k, fld b 1 1, fld b 2 1, fld b 3 1, fld b 4 4, fld b 8 2, if f && (k = 3 || k = 4) then 0xFFFFFFFF else 0⟩

/-- An entry's fields lie in their ranges. -/
def entOk (s : State) (b : List Byte) : Bool :=
  let e := entOf b
  1 ≤ e.kind && e.kind ≤ 5 && e.die < nDies s && 1 ≤ e.state && e.state ≤ 3 && 1 ≤ e.reason && e.reason ≤ 4 &&
    (if e.state = 3 then e.target = 0xFFFFFFFF else targetOk s e.die e.kind e.target) &&
    (spareRange e.kind).1 ≤ e.spare && e.spare < spareLimit e.kind && zeroFrom b 10

/-- Entries rise, and no target or spare appears twice. -/
def entsRise (s : State) : List RepEnt → Bool
  | [] => true
  | e :: r =>
    (match r with | f :: _ => entBefore e f | [] => true) &&
      !(r.any fun f => e.kind = f.kind && e.spare = f.spare && samePlace s e.kind e.die (entPlace e) f.die (entPlace f)) &&
      !(r.any fun f => e.kind = f.kind && sameTarget s e.kind e.die e.target f.die f.target && e.state ≠ 3) && entsRise s r

/-- The entries of a record, `none` where it is rejected. -/
def recordOf (s : State) (p : List Byte) : Option (List RepEnt) :=
  let n := fld p 4 2
  let bs := (List.range n).map fun i => (p.drop (32 + 16 * i)).take 16
  if p.length = 32 + 16 * n && n ≤ 1024 && fld p 0 2 = 0x5250 && fld p 2 1 = 1 && fld p 3 1 = 0 && fld p 6 2 = 0 &&
      fld p 8 8 = Config.serial.toNat && fld p 20 8 = 0 && fld p 28 4 = (crc32c (p.take 28 ++ p.drop 32)).toNat &&
      bs.all (entOk s) && entsRise s (bs.map entOf) then
    some (bs.map entOf)
  else none

/-- The record the host gave is taken into force: ACTIVE and PENDING_BOOT entries as ACTIVE; one that fails its checks
leaves an empty record. -/
def takeRecord (s : State) : State :=
  let ofs := ctl s rSecRepairOfs
  let len := ctl s rSecRepairLen
  let p := memRead s (.image (getF s ctlPage (cfld fSecBootStatGoDie))) ofs len
  if len = 0 then s
  else
    match if ofs % 4096 = 0 then recordOf s p else none with
    | some l => { s with pwr := { s.pwr with
        record := l.map fun e => if e.state = 2 then { e with state := 1 } else e, gen := fld p 16 4 } }
    | none => { s with pwr := { s.pwr with rejected := true } }

/-- The device adds an entry to the record at boot. -/
def bootEntry (s : State) (e : RepEnt) : State :=
  { s with pwr := { s.pwr with
    record := insertEnt e s.pwr.record, gen := (s.pwr.gen + 1) % 2 ^ 32, added := s.pwr.added + 1 } }

/-- A spare fails BIST: it is listed as failed, and the target it served needs another. -/
def badSpare (a : State × List (Nat × Nat × Nat)) (b : BistFail) : State × List (Nat × Nat × Nat) :=
  let s := a.1
  let uses : RepEnt → Bool := fun e => e.kind = b.kind && e.spare = b.index && samePlace s b.kind b.die b.place e.die (entPlace e)
  if !(b.spare && b.die < nDies s) || (s.pwr.record.any fun e => e.state = 3 && uses e) then a
  else
    let hit := s.pwr.record.filter uses
    let s1 := { s with pwr := { s.pwr with record := s.pwr.record.filter fun e => !uses e } }
    (bootEntry s1 ⟨b.kind, b.die, 3, 1, 0xFFFFFFFF, b.index, b.place⟩, a.2 ++ hit.map fun e => (e.die, e.kind, e.target))

/-- A target without a working resource is given a free spare, or joins those beyond repair. -/
def bootRepair (a : State × List (Nat × Nat × Nat)) (r : Nat × Nat × Nat) : State × List (Nat × Nat × Nat) :=
  let s := a.1
  match entryOf s r.1 r.2.1 r.2.2 with
  | some _ => a
  | none =>
    match (freeSpares s r.1 r.2.1 (placeOf_ r.2.1 r.2.2)).head? with
    | some n => (bootEntry s ⟨r.2.1, r.1, 1, 1, r.2.2, n, 0⟩, a.2)
    | none => (s, a.2 ++ [r])

/-- The record is put to work: engines on their spares, taps replaced. -/
def applyEntry (s : State) (e : RepEnt) : State :=
  if e.kind = 1 then
    if e.state = 3 then { s with eng := { s.eng with failed := s.eng.failed ++ [key e.die e.spare] } }
    else
      let s1 := setEng s e.die e.target { engOf s e.die e.target with phys := e.spare }
      let s2 := { s1 with eng := { s1.eng with failed := s1.eng.failed ++ [key e.die e.target] } }
      setUnit s2 (engUid e.die e.target) { unitOf s2 (engUid e.die e.target) with spare := true }
  else if e.kind = 5 && e.state ≠ 3 then setTdc s e.die { tdcOf s e.die with spares := (tdcOf s e.die).spares + 1 }
  else s

/-- Step 4 of R574: the record is checked against the package and BIST (R578).  With it, the resources beyond repair. -/
def repairAtBoot (s : State) (bist : List BistFail) : State × List (Nat × Nat × Nat) :=
  let a := bist.foldl badSpare (takeRecord s, [])
  let need := a.2 ++ (bist.filter fun b => !b.spare && targetOk s b.die b.kind b.index && b.die < nDies s).map fun b =>
    (b.die, b.kind, b.index)
  let r := need.foldl bootRepair (a.1, [])
  (r.1.pwr.record.foldl applyEntry r.1, r.2)

/-! ## The tree opens (R53, R59, R574) -/

/-- A unit is AWAKE when the tree opens. -/
def openAwake (s : State) (u : Nat) : State := setUnit s u { unitOf s u with pw := .awake }

/-- A die's units as the tree opens (R53): a host-facing die with its clocks and port AWAKE, die 0 with its FPLL; other
FPLLs sleep. -/
def openDie (s : State) (d : Nat) : State :=
  let s0 := setPoolFree (setF s d fCapPoolSizeMib 45056) d 45056
  let s1 := if d = 0 || isPort s d then openAwake (openAwake s0 (dieUid d)) (fpllUid d)
    else dllLoss (setPll (setUnit s0 (fpllUid d) { unitOf s0 (fpllUid d) with pw := .asleep, since := s.now }) d 0
      { pllOf s0 d 0 with locked := false }) d
  if isPort s d then
    let v := drawFree s1
    let s2 := openAwake (openAwake v.2 (portUid d)) (pllUid d 6)
    setPll s2 d 6 { pllOf s2 d 6 with locked := true, band := v.1.toNat % 32, firstDue := false }
  else s1

/-- A host port's registers when EV_READY is posted (R66, R88). -/
def openPort (prim : Nat) (s : State) (p : Nat) : State :=
  if !isPort s p then s
  else
    let s1 := setFlag (setFlag s p fHstPortStatReady true) p fHstPortStatBootWindow false
    setF (setF s1 p fHstPortIdRole (if p = prim then 1 else 2)) p fHstEvMaskRange (if p = prim then 0xFFFF else 0)

/-- EV_PARTNER_ATTACH of a HOST partner (R60). -/
def hostAttach (s : State) (p flags : Nat) : State :=
  attachPartner s p (portUid p) 5 flags (dieTime s 0)
    (leBytes 1 (getF s p fHstPortIdLinkGt) ++ leBytes 1 (getF s p fHstPortIdWidth) ++
      leBytes 1 (if getF s p fHstPortIdRole = 1 then 1 else 2))

/-- The partners present when the tree opens, with INITIAL and the TIME of EV_READY (R59). -/
def initialPartners (s : State) : State :=
  let t := dieTime s 0
  let s1 := if s.clk.syncDriven && s.clk.syncSince + msTicks ≤ s.now then attachPartner s 0 pkgUid 4 1 t [] else s
  let s2 := (dies s).foldl (fun s p =>
    if isPort s p && linkUp s p && (portOf s p).busMaster && (unitOf s (portUid p)).partner = 0 then hostAttach s p 1 else s) s1
  (dies s).foldl (fun s d => [0, 1].foldl (fun s p =>
    let x := probeOf s d p
    if (unitOf s (probeUid d p)).partner = 2 && !fenced s d then
      attachPartner s d (probeUid d p) 2 (if x.eepromOk then 1 else 3) t x.hello
    else s) s) s2

/-- A set of dies as bits. -/
def dieMask (l : List Nat) : Nat := l.foldl (fun a d => a + 2 ^ d) 0

/-- The data of EV_READY (R587). -/
def readyData (s : State) : List Byte :=
  leBytes 1 (dieMask (dies s)) ++ leBytes 1 (dieMask ((dies s).filter (fenced s))) ++ leBytes 1 (primaryPort s) ++
    leBytes 1 (dieMask ((dies s).filter fun p => isPort s p && linkUp s p)) ++ leBytes 2 s.pwr.record.length ++
    leBytes 2 s.pwr.added ++ leBytes 1 (getF s ctlPage (cfld fSecBootStatFails)) ++
    leBytes 1 (b2n s.pwr.rejected + 2 * b2n (ownerSet s))

/-- The unit tree is built and EV_READY posted, followed by what boot has to report (R53, R54, R574). -/
def openTree (s : State) (lost : List Nat) (dead : List (Nat × Nat × Nat)) : State :=
  let prim := getF s (choosePrimary s) fHstBondMapPrimaryDie
  let s1 := { s with ready := true, tree := { s.tree with gen := 1 } }
  let s2 := (dies s).foldl openDie s1
  let s3 := (dies s).foldl (openPort prim) (setBootState s2 3 0)
  let s4 := lost.foldl (fun s d => fence (setDieClk s d { dieClk s d with fenced := false }) d) s3
  let s5 := dead.foldl (fun s r => outOfService s r.1 r.2.1 r.2.2) s4
  let s6 := initialPartners (post s5 0 0x0D01 pkgUid (dieTime s5 0) (readyData s5))
  s6.sec.bootFails.foldl (fun s f =>
    post s 0 0x0E01 pkgUid (dieTime s 0) (leBytes 1 1 ++ leBytes 1 f.reason ++ leBytes 1 f.count ++ leBytes 5 0 ++ leBytes 8 f.image)) s6

/-- The dies that cannot start: those that failed, those fenced already, and those whose FPLL has not locked. -/
def lostDies (s : State) (failed : List Nat) : List Nat :=
  (dies s).filter fun d => failed.contains d || fenced s d || !(dieClk s d).running

/-- BOOT_COMPLETE (R574): start, HBM training, BIST and repair are over. -/
def execBootComplete (failed : List Nat) (bist : List BistFail) (s : State) : Out :=
  .next (whenB (!off s && !s.ready && bootState s = 2 && ((dieClk s 0).running || failed.contains 0)) s fun s =>
    let lost := lostDies s failed
    if lost.contains 0 then startFailed s
    else
      let s1 := lost.foldl (fun s d => if (dieClk s d).running then s else loadTime s d (dieTime s 0)) s
      let r := repairAtBoot s1 bist
      let out := r.2.filter fun x => !lost.contains x.1
      if out.any fun x => x.1 = 0 && x.2.1 ≠ 1 && x.2.1 ≠ 5 then startFailed s else openTree r.1 lost out)

/-! ## Attestation (R583 to R586) -/

/-- The dies whose configuration check is suspended, as bits (R584). -/
def suspendedDies (s : State) : Nat := dieMask ((dies s).filter fun d => flagF s d fCfgStatCrcSuspended)

/-- The report of ATTEST before its signature (R584). -/
def reportBody (s : State) (nonce : List Byte) : List Byte :=
  let r := recordBytes s
  leBytes 4 0x41545354 ++ leBytes 2 1 ++ leBytes 2 (partCode s.part) ++ leBytes 8 Config.serial.toNat ++
    leBytes 8 (dieTime s 0 * 256) ++ padTo 32 nonce ++ plovumHash ++ (if ownerSet s then ownerHash s else leBytes 32 0) ++
    leBytes 1 (b2n (ownerSet s) + 2 * b2n ((dies s).any (safelight s)) + 4 * b2n ((dies s).any (fenced s))) ++ leBytes 1 0x10 ++
    leBytes 2 0 ++ leBytes 4 r.length ++
    ((List.range 8).flatMap fun d =>
      leBytes 4 (if d < nDies s && !fenced s d then (reg s d rCfgCrcRef).toNat else 0)) ++
    leBytes 4 (suspendedDies s) ++ leBytes 4 s.sec.count ++ s.sec.digest ++ leBytes 4 s.sec.log.length ++ leBytes 4 0 ++
    s.sec.log.flatten ++ r

/-- The report of ATTEST (R584). -/
def report (s : State) (nonce : List Byte) : List Byte :=
  let b := reportBody s nonce
  b ++ padTo 384 ((Config.identitySignature b).take 384)

def attestDef : CmdDef where
  op := 0x0E01
  cls := onClass clPackage
  onGroup := false
  payOk := fun _ c => fld c.payload 12 4 = 0 && restOk c 48 && bitAt c.flags 0
  eff := fun c _ _ s => readOut c (report s ((c.payload.drop 16).take 32)) s.sec.log.length s

/-- ATTEST (R584): extended payload. -/
def execAttest (c : Cmd) (s : State) : Out := startCmd attestDef c s

def certReadDef : CmdDef where
  op := 0x0E02
  cls := onClass clPackage
  onGroup := false
  payOk := restZero 12
  eff := fun c _ _ s => readOut c Config.certificateChain (fld Config.certificateChain 0 4) s

/-- CERT_READ (R585). -/
def execCertRead (c : Cmd) (s : State) : Out := startCmd certReadDef c s

def measurementReadDef : CmdDef where
  op := 0x0E03
  cls := onClass clPackage
  onGroup := false
  payOk := restZero 16
  eff := fun c _ _ s =>
    let l := s.sec.log.drop (fld c.payload 12 4)
    readOut c l.flatten l.length s

/-- MEASUREMENT_READ (R583). -/
def execMeasurementRead (c : Cmd) (s : State) : Out := startCmd measurementReadDef c s

end Sys2Proof.Machine
end

