-- ==== Sys2Proof/Machine/Links.lean ====
section
/-!
DEFINITION. Lock losses of PLLs, and the links of host and drive ports (R56, R66, R67, R97, R163 to R166, R599, R620).
-/

namespace Sys2Proof.Machine

/-! ## Host links (R56, R67, R91, R620) -/

/-- The HOST partner of a port whose link has been out of L0 for longer than 1 ms detaches, at the tick its timer expired
(R56, R58, R59). -/
def hostExpire (s : State) (port : Nat) : State :=
  match (portOf s port).downAt with
  | some t =>
    if (unitOf s (portUid port)).partner = 5 && t + msTicks < s.now then
      detachPartner s port (portUid port) 3 (tickAt s port (t + msTicks)) 0
    else s
  | none => s

/-- HOST_LINK_UP (R56): the link is in L0 with Bus Master Enable set; the HOST partner attaches once the tree is open,
and held events go out. -/
def execHostLinkUp (port gt width : Nat) (s : State) : Out :=
  onDie port s fun s =>
    let up : Bool := !s.ready || pwOf s (portUid port) == .awake || pwOf s (portUid port) == .starting
    whenB (isPort s port && !(portOf s port).perst && up && (!s.ready || (pllOf s port 6).locked) && (gt ∈ [8, 16, 32, 64]) && (width ∈ [1, 2, 4, 8, 16]) &&
        (!linkUp s port || !(portOf s port).busMaster)) s fun s =>
      let s1 := setF (setF (hostExpire s port) port fHstPortIdLinkGt gt) port fHstPortIdWidth width
      let s2 := setPort s1 port { portOf s1 port with busMaster := true, downAt := none }
      let s3 := if s2.ready && (unitOf s2 (portUid port)).partner = 0 then hostAttach s2 port 0 else s2
      flushHeld port 258 s3

/-- HOST_LINK_DOWN (R56, R91). -/
def execHostLinkDown (port : Nat) (s : State) : Out := onDie port s fun s => whenB (isPort s port) s fun s => portDown s port

/-- HOST_DETACH_TIMEOUT (R56): the link has been out of L0 for 1 ms. -/
def execHostDetachTimeout (port : Nat) (s : State) : Out :=
  onDie port s fun s => whenB (isPort s port) s fun s => hostExpire s port

/-- BUS_MASTER_ENABLE_CLEAR (R476). -/
def execBusMasterEnableClear (port : Nat) (s : State) : Out :=
  onDie port s fun s =>
    whenB (isPort s port && linkUp s port && (portOf s port).busMaster) s fun s =>
      movesLosePort (setPort s port { portOf s port with busMaster := false }) port

/-- The offsets of the HST_PORT and HST_RING registers that PERST# resets (R67); identity and status stay. -/
def hstRegs : List Nat :=
  [rHstEvMask, rHstEvLostCnt, rHstEvrBaseLo, rHstEvrBaseHi, rHstEvrCtl, rHstEvrStat] ++
    (List.range 64).flatMap fun n =>
      [rHstCrBaseLo n, rHstCrBaseHi n, rHstCrCtl n, rHstCrStat n, rHstCqBaseLo n, rHstCqBaseHi n, rHstCqCtl n,
        rHstCrShadowLo n, rHstCrShadowHi n]

/-- A port's registers and rings at reset (R67): its event ring drops the events held for it and every later one until
it is enabled, all counted as lost. -/
def portReset (s : State) (p : Nat) : State :=
  let q := evRing s p
  let s1 := hstRegs.foldl (fun s o => setReg s p o (regReset (regKey p o))) s
  let s2 := setFlag (setFlag s1 p fHstPortStatRingErr false) p fHstPortStatEvLost false
  let s3 := (List.range 64).foldl (fun s n => setCplRing (setCmdRing s p n CmdRing.reset) p n CplRing.reset) s2
  let s4 := setEvRing s3 p { EvRing.reset with dropAll := true }
  let s5 := q.held.foldl (fun s e => evLose s p e) s4
  discardPort (setF s5 p fCfgLockClasses (bits (getF s5 p fCfgLockClasses) 0 5)) p

/-- PERST_ASSERT (R66, R67): PERST# resets the port's function; its partner detaches with reason PERST#.  Before EV_READY the
spec names only the answer to configuration requests; here the port's registers return to reset as they do after it (DESIGN
CHOICE, log entry 137). -/
def execPerstAssert (port : Nat) (s : State) : Out :=
  onDie port s fun s =>
    whenB (isPort s port && !(portOf s port).perst) s fun s =>
      let s1 := portReset (portDown (hostExpire s port) port) port
      let s2 := setPort s1 port { portOf s1 port with perst := true, downAt := none, aerAbort := false }
      if (unitOf s2 (portUid port)).partner = 5 then detachPartner s2 port (portUid port) 6 (dieTime s2 port) 0 else s2

/-- PERST_RELEASE (R66, R620): the port trains its link; HOST_LINK_UP follows.  Before EV_READY the port first answers with
Configuration Request Retry Status for 100 ms; CRS_END follows. -/
def execPerstRelease (port : Nat) (s : State) : Out :=
  onDie port s fun s =>
    whenB (isPort s port && (portOf s port).perst) s fun s =>
      setPort s port { portOf s port with perst := false, crs := !s.ready }

/-- DRIVE_PERST_RELEASE (R599): 100 ms after the PPLL locks, a drive port releases PERST_N. -/
def execDrivePerstRelease (d : Nat) (s : State) : Out :=
  onDie d s fun s =>
    let p := portOf s d
    match p.perstAt with
    | some t =>
      whenB (p.drive && p.perst && (pllOf s d 6).locked && !fenced s d && t + 100 * msTicks ≤ s.now) s fun s =>
        setPort s d { p with perst := false }
    | none => s

def portEchoDef : CmdDef where
  op := 0x0F01
  cls := onClass clHostPort
  onGroup := false
  payOk := restZero 16
  eff := fun c _ _ s => (s, .done 0 (padTo 16 (c.payload.take 16)) 0)

/-- PORT_ECHO (R97).  The spec does not say what payload bytes 16 to 39 hold; here they must be 0 (DESIGN CHOICE, log entry
118). -/
def execPortEcho (c : Cmd) (s : State) : Out := startCmd portEchoDef c s

/-! ## PLLs (R163 to R166) -/

/-- EV_CLOCK_FAULT of a PLL (R175). -/
def clockFault (s : State) (d k cause : Nat) : State := post s d 0x0202 (pllUid d k) (dieTime s d) (leBytes 1 cause)

/-- The FPLL of a die loses lock (R163, R164); on die 0 the Proof port's clock goes with it. -/
def execFpllLockLoss (d : Nat) (s : State) : Out :=
  onDie d s fun s =>
    whenB ((pllOf s d 0).locked && (dieClk s d).running && !fenced s d) s fun s =>
      if d = 0 then prfAbort (fpllLoss s d) 2 else fpllLoss s d

/-- What the loss of an LPLL, HPLL, PPLL or DPLL stops (R166). -/
def pllStops (s : State) (d k : Nat) : State :=
  match k with
  | 5 => setDieClk s d { dieClk s d with hbmHeld := true, hbmTrain := false }
  | 6 =>
    if (portOf s d).drive then drivesGone s d 3
    else portReset (portDown s d) d
  | 7 => prfAbort s 2
  | _ => (groupLanes (k - 1)).foldl (fun s n => if awake s (laneUid d n) then toAcquire s d n 4 (dieTime s d) else s) s

/-- PLL_LOCK_LOSS (R166) of an AWAKE PLL other than an FPLL. -/
def execPllLockLoss (d k : Nat) (s : State) : Out :=
  onDie d s fun s =>
    let p := pllOf s d k
    whenB (1 ≤ k && k < 8 && (k ≠ 7 || d = 0) && p.locked && awake s (pllUid d k)) s fun s =>
      clockFault (pllStops (setPll s d k { p with locked := false, relock := true }) d k) d k 1

/-- A step of a PLL that enters FAULT ends with it (R149, R96). -/
def stepFails (s : State) (d k : Nat) : State :=
  let p := pllOf s d k
  match p.step with
  | some r => unitDone (setPll s d k { p with step := none }) r.fid (pllUid d k) stUnitFaulted 0 [] (dieTime s d)
  | none => s

/-- PLL_RELOCK_FAIL (R165): EV_CLOCK_FAULT; after three in a row the PLL is in FAULT, and a die whose FPLL fails is
fenced. -/
def execPllRelockFail (d k : Nat) (s : State) : Out :=
  onDie d s fun s =>
    let p := pllOf s d k
    whenB (k < 8 && (k ≠ 7 || d = 0) && p.relock && !p.locked && awake s (pllUid d k)) s fun s =>
      let n := p.fails + 1
      let s1 := clockFault (setPll s d k { p with fails := n, relock := n < 3 }) d k 3
      if n < 3 then s1
      else
        let s2 := stepFails (faultUnit s1 (pllUid d k) 1) d k
        if k = 0 then fence s2 d else s2

end Sys2Proof.Machine
end

