-- ==== Sys2Proof/Machine/Arrival.lean ====
section
/-!
DEFINITION. The release of a Shutter event to its consumers on every die (R21, R190, R211, R232 to R234, R263).
-/

namespace Sys2Proof.Machine

/-! ## The consumers -/

/-- QUAL of an event's MK_SHUTTER: DIRECT and COARSE (R185). -/
def shutterQual (e : ShEv) : Nat := 8 * b2n e.seq.isNone + 4 * b2n e.coarseOnly

/-- The MK_SHUTTER of an event: event ID, sequencer (0 for a direct issue), and t_event (R185). -/
def mkShutter (e : ShEv) : CWord :=
  markWord 0x10 (e.id * 2 ^ 50 + e.seq.getD 0 * 2 ^ 46 + fine e.stamp * 2 ^ 38 + coarse e.stamp % 2 ^ 38) 1 (shutterQual e)

/-- The entry of an event in a look-back buffer: marks of equal time stand in order of event ID (R187). -/
def shutterEntry (e : ShEv) (expo : Bool) : Entry :=
  ⟨e.stamp, e.phys, markRank 0x10, e.id, mkShutter e, false, false, if expo then e.id + 1 else 0, true⟩

/-- An event reaches a stream: a Roll or derived stream through MARK_MASK, an Exposure stream through MARK_MASK or
TRIG_MASK (R190, R211, R215). -/
def streamShutter (s : State) (d : Nat) (e : ShEv) (i : Nat) : State :=
  let x := streamOf s d i
  let want := x.markMask.getLsbD e.id || (isExpo i && x.trigMask.getLsbD e.id)
  if want then lookAdd s d i (shutterEntry e (isExpo i)) else s

/-- An event reaches a die's consumers; it is lost where it cannot reach a faulted or fenced die (R233, R263). -/
def dieShutter (e : ShEv) (s : State) (d : Nat) : State :=
  if faulted s d then
    (if d = 0 then s else shtLost s (lastHop d).1 (lastHop d).2)
  else
    let s1 := eachStream (fun i s => streamShutter s d e i) s
    let s2 := if awake s1 (tdcUid d) then tdcShutter s1 d e.id e.stamp else s1
    let s3 := evqPushAll s2 d e.id e.stamp
    xferShutter s3 d e.id e.phys

/-- An event reaches a TRIG_OUT pin (R265). -/
def outShutter (e : ShEv) (s : State) (n : Nat) : State :=
  let x := trigOutOf s n
  match outOwes x e.id e.phys with
  | some o => setTrigOut s n { x with pend := outInsert o x.pend }
  | none => s

/-- An event reaches update source `n`: UPD_SRCn with EN set and EVENT its ID strobes UPD_SRCn_MASK (R490). -/
def updShutter (e : ShEv) (s : State) (n : Nat) : State :=
  if flagF s 0 (fUpdSrcEn n) && getF s 0 (fUpdSrcEvent n) = e.id then
    issueStrobe s 1 (reg s 0 (rUpdSrcMask n)) e.phys
  else s

/-- An event is released to every consumer (R233). -/
def releaseEvent (s : State) (e : ShEv) : State :=
  let s2 := (dies s).foldl (dieShutter e) s
  let s3 := (List.range 4).foldl (outShutter e) s2
  (List.range 2).foldl (updShutter e) s3

/-! ## The release -/

/-- Event `a` is released before event `b`: the earlier tick, then the lower ID (R30). -/
def releaseBefore (a b : ShEv) : Bool := a.phys / 256 < b.phys / 256 || (a.phys / 256 = b.phys / 256 && a.id < b.id)

/-- The event to release first. -/
def firstEvent : List ShEv → Option ShEv
  | [] => none
  | e :: r =>
    match firstEvent r with
    | some x => if releaseBefore x e then some x else some e
    | none => some e

/-- SHUTTER_EVENT_ARRIVAL (R21): 112 ticks after its t_event, the earliest event in flight is released to the
consumers of every die. -/
def execShutterEventArrival (s : State) : Out :=
  .next (match firstEvent s.sht.events with
    | some e =>
      whenB (!off s && e.phys / 256 + 112 ≤ s.now) s fun s =>
        let s1 := tellEvents s
        let e1 := { e with told := true }
        releaseEvent { s1 with sht := { s1.sht with events := s1.sht.events.erase e1 } } e1
    | none => s)

end Sys2Proof.Machine
end

