-- ==== Sys2Proof/Machine/Cal.lean ====
section
/-!
DEFINITION. Test strip calibration (R356 to R379).
-/

namespace Sys2Proof.Machine

/-! ## Activity (R359, R368) -/

/-- The lane is idle (R368): no signal, or no consumer takes its samples. -/
def calIdle (s : State) (d n : Nat) : Bool :=
  let chains := [0, 1].filter fun c => (chainOf s d c).lane = some n
  !signalSeen (laneOf s d n) ||
    !((chains.any fun c => inSegment (streamOf s d (expoOf c)) || (chainOf s d c).st == .running) ||
      (!chains.isEmpty && [2, 3].any fun k =>
        let g := (cmpOf s d k).cfg
        g.enable && g.mode = 0 && g.lane = n))

/-! ## Ends of a strip (R365, R366) -/

/-- A failure is counted, and EV_CAL_STUCK is posted when the count reaches CAL_RETRY_MAX (R366), with the time at which the strip
ended (R363, R378). -/
def calFail (s : State) (d n result : Nat) (t : Stamp) : State :=
  let x := calOf s d n
  let f := min 255 (x.fails + 1)
  let stuck := decide (getF s d fCalRetryMaxCount ≤ f)
  let s1 := incF (setCal s d n { x with result := result, fails := f, stuck := stuck || x.stuck, phase := .waiting }) d
    (fCalFailTotal n)
  if stuck && !x.stuck then
    postStamp s1 d 0x0702 (laneUid d n) t 0
      (leBytes 2 (stripSeq x) ++ leBytes 1 result ++ leBytes 1 f ++ leBytes 4 x.trans ++ leBytes 2 x.sigma ++ leBytes 4 x.rails)
  else s1

/-! ## Activity of all lanes -/

/-- A lane's calibration as its activity leaves it now (R360, R372). -/
def calNow (s : State) (d n : Nat) : Cal := calOf (calSync s d n) d n

/-- Every lane's calibration follows its activity. -/
def calSyncAll (s : State) : State :=
  (s.cal.map (·.1)).foldl (fun s k => calSync s (k / 128) (k % 128)) s

/-! ## Strips (R360 to R364) -/

/-- The next strip of an active lane may start (R360). -/
def stripDue (s : State) (x : Cal) : Bool :=
  match x.phase with
  | .inactive => true
  | .waiting => (!x.noFast && !x.converged) || x.startAt + x.period * msTicks ≤ s.now
  | _ => false

/-- STRIP_START (R360). -/
def execStripStart (d n : Nat) (s : State) : Out :=
  onDie d s fun s0 =>
    let s := calSync s0 d n
    let x := calOf s d n
    whenB (n < 16 && calActive s d n && stripDue s x) s fun s =>
      setCal s d n { x with
        strips := x.strips + 1, phase := .estimate, startAt := s.now, winFrom := s.now * 256, winSub := none }

/-! ## The statistics of a window (R362) -/

/-- The mean of a list of numbers. -/
def meanRat (l : List Rat) : Rat := l.sum / (l.length : Nat)

/-- The variance of a list of numbers about their mean. -/
def varRat (l : List Rat) : Rat := meanRat (l.map fun x => (x - meanRat l) * (x - meanRat l))

/-- The corrected samples of a window in codes, each with its sub-ADC, the first from sub-ADC `k` (R356, R357). -/
def stripSamples (v : CalVec) (k : Nat) (xs : List Int) : List (Nat × Rat) :=
  xs.mapIdx fun i x => ((k + i) % 32, (corrected v (k + i) x : Rat) / (2 ^ 28 : Nat))

/-- The numbers that belong to sub-ADC `k`. -/
def subSet (l : List (Nat × Rat)) (k : Nat) : List Rat := (l.filter fun p => p.1 = k).map (·.2)

/-- x[n] · (x[n+1] − x[n−1]) of every sample whose neighbours lie in the window, with its sub-ADC (R362; log entry 129). -/
def slopes : List (Nat × Rat) → List (Nat × Rat)
  | a :: b :: c :: r => (b.1, b.2 * (c.2 - a.2)) :: slopes (b :: c :: r)
  | _ => []

/-- (x[n+1] − x[n−1])² of every sample whose neighbours lie in the window (R362). -/
def chords : List (Nat × Rat) → List Rat
  | a :: b :: c :: r => (c.2 - a.2) * (c.2 - a.2) :: chords (b :: c :: r)
  | _ => []

/-- Neighbouring samples on opposite sides of a level (R362). -/
def transitions (m : Rat) : List (Nat × Rat) → Nat
  | a :: b :: r => b2n (decide (a.2 < m) != decide (b.2 < m)) + transitions m (b :: r)
  | _ => 0

/-- The statistics and residuals of a window (R362): its ADC samples, the first from sub-ADC `k`, under the coefficients in force;
`tui` is t_ui in fs.  r_gain stands as v / v_k, the square of 1 + r_gain. -/
def stripStats (coef : CalVec) (k : Nat) (xs : List Int) (tui : Rat) : StripStats :=
  let l := stripSamples coef k xs
  let all := l.map (·.2)
  let ks := List.range 32
  let mk := ks.map fun k => meanRat (subSet l k)
  let m := meanRat mk
  let vk := ks.map fun k => varRat (subSet l k)
  let v := meanRat vk
  let ak := ks.map fun k => meanRat (subSet (slopes l) k)
  let a := meanRat ak
  let b := meanRat (chords l)
  ⟨varRat all, (openQuot [] (isqrt (varRat all * 2 ^ 52).floor.toNat) (2 ^ 20)).toNat, transitions m l,
    (xs.filter fun x => x = -64 || x = 63).length, mk.map (· - m), vk.map (v / ·), ak.map fun e => -2 * tui * (e - a) / b⟩

/-- The first test of R363 that a window fails: the result it names.  |r_gain| ≤ 1 % where v / v_k lies between 0.99² and 1.01². -/
def windowFails (x : Cal) (w : StripStats) : Option Nat :=
  let lo : Rat := (x.spreadLo : Nat)
  let hi : Rat := (x.spreadHi : Nat)
  if w.trans < x.minTrans then some 3
  else if w.variance < lo * lo || hi * hi < w.variance then some 3
  else if x.railMax < w.rails then some 3
  else if w.off.any (fun e => decide (1 < e) || decide (e < -1)) ||
      w.gainSq.any (fun e => decide (e < 9801 / 10000) || decide (10201 / 10000 < e)) ||
      w.skew.any (fun e => decide (500 < e) || decide (e < -500)) then some 5
  else none

/-- A number in units of 1/n, its rounding not stated (log entry 127). -/
def openRat (q : Rat) (n : Nat) : Int := openQuot [] (q * (n : Nat)).num (q * (n : Nat)).den

/-- The estimates of a window in the formats of R356: offsets in 1/256 code, gains in 2^-20, skews in fs. -/
def estimatesOf (w : StripStats) : CalVec :=
  (List.range 32).map fun k =>
    (openRat ((w.off[k]?).getD 0) 256,
      openQuot [] (isqrt (((w.gainSq[k]?).getD 1) * 2 ^ 80).floor.toNat) (2 ^ 20) - 2 ^ 20,
      openRat ((w.skew[k]?).getD 0) 1)

/-- t_ui of a lane in fs. -/
def tuiOf (s : State) (d n : Nat) : Rat :=
  let f := sampleRate s d n
  (10 ^ 15 * f.2 : Nat) / (f.1 : Nat)

/-- The samples of the window under way are complete with one at a place in time: the first 2^20 from the window's start on, at the
lane's sampling period but for the 1 % by which its rate may move meanwhile (R149, R361).  The first sample of CONFIRM, from sub-ADC `k`,
follows the last of ESTIMATE (R356). -/
def windowFull (s : State) (d n k ph : Nat) : Bool :=
  let p := inputPeriod s d n
  let x := calOf s d n
  99 * (2 ^ 20 - 1) * p.1 ≤ 100 * (ph - x.winFrom) * p.2 && 100 * (ph - x.winFrom - 1) * p.2 ≤ 101 * 2 ^ 20 * p.1 &&
    ph ≤ s.now * 256 + 255 && (match x.winSub with | some j => k % 32 = j | none => true)

/-- STRIP_WINDOW_END (R361 to R363): the ADC samples of a window are complete, the first from sub-ADC `k`, the last with a stamp; its
statistics are judged, and the strip ends there if they fail. -/
def execStripWindowEnd (d n k : Nat) (xs : List Int) (last : Stamp) (s : State) : Out :=
  onDie d s fun s0 =>
    let s := calSync s0 d n
    let x := calOf s d n
    let ph := physFine s d (fineStamp s last)
    whenB (n < 16 && (x.phase == .estimate || x.phase == .confirm) && windowFull s d n k ph) s fun s =>
      let w := stripStats x.coef k (xs.map (invCode (laneOf s d n))) (tuiOf s d n)
      let x1 := { x with
        trans := w.trans, sigma := w.sigma, rails := w.rails, winSub := some ((k + xs.length) % 32), smpLast := fineStamp s last }
      match windowFails x w with
      | some r => calFail (setCal s d n x1) d n r (fineStamp s last)
      | none =>
        if x.phase == .estimate then setCal s d n { x1 with phase := .confirm, est := estimatesOf w, winFrom := ph }
        else setCal s d n { x1 with phase := .judging ((ph + 255) / 256 + 4096), conf := estimatesOf w }

/-- The two estimates of a sub-ADC agree (R356, R364). -/
def agrees (a b : Int × Int × Int) : Bool :=
  (a.1 - b.1).natAbs ≤ 64 && (a.2.1 - b.2.1).natAbs ≤ 524 && (a.2.2 - b.2.2).natAbs ≤ 50

/-- The change of one coefficient: the mean of two estimates, 0 within the dead band, clipped to the step limit. -/
def stepOf (dead limit : Nat) (mean2 mean : Int) : Int :=
  if mean2.natAbs ≤ 2 * dead then 0 else max (-(limit : Int)) (min limit mean)

/-- The means of two estimates of a sub-ADC; a half is rounded either way, a free value (log entry 2). -/
def meanOf (s : State) (a b : Int × Int × Int) : (Int × Int × Int) × State :=
  let x := openDivInt s (a.1 + b.1) 2
  let y := openDivInt x.2 (a.2.1 + b.2.1) 2
  let z := openDivInt y.2 (a.2.2 + b.2.2) 2
  ((x.1, y.1, z.1), z.2)

/-- The changes and means of every sub-ADC (R364). -/
def calMeans : State → CalVec → CalVec → (CalVec × CalVec) × State
  | s, a :: r, b :: t =>
    let m := meanOf s a b
    let rest := calMeans m.2 r t
    let v := (stepOf 8 16 (a.1 + b.1) m.1.1, stepOf 52 524 (a.2.1 + b.2.1) m.1.2.1, stepOf 5 20 (a.2.2 + b.2.2) m.1.2.2)
    ((v :: rest.1.1, m.1 :: rest.1.2), rest.2)
  | s, _, _ => (([], []), s)

/-- STRIP_EVALUATE (R364, R367, R368): the estimates are compared at t_eval; a command with that effect time comes first (R372). -/
def execStripEvaluate (d n : Nat) (s : State) : Out :=
  onDie d s fun s0 =>
    let s := calSync s0 d n
    let x := calOf s d n
    match x.phase with
    | .judging t =>
      whenB (n < 16 && t ≤ s.now && !schedDue s d t) s fun s =>
        if !((x.est.zip x.conf).all fun p => agrees p.1 p.2) then calFail s d n 4 (stampOf (tickAt s d t))
        else
          let r := calMeans s x.est x.conf
          let m := largest r.1.2
          let x1 := { x with resid := (min 65535 m.1, min 65535 m.2.1, min 65535 m.2.2) }
          let v := r.1.1
          if changedBits v = 0 then setCal r.2 d n { calPass x1 2 with converged := true }
          else if !bitAt (changedBits v) 2 then calApply (setCal r.2 d n x1) d n v 0 t
          else if !x.gap then calApply (setCal r.2 d n x1) d n v 1 t
          else setCal r.2 d n { x1 with phase := .pending, change := v, waitEnd := t + x.gapWait * msTicks }
    | _ => s

/-- GAP_IDLE_APPLY (R368): an idle period begins, and the PENDING change applies. -/
def execGapIdleApply (d n : Nat) (s : State) : Out :=
  onDie d s fun s0 =>
    let s := calSync s0 d n
    let x := calOf s d n
    whenB (n < 16 && x.phase == .pending && calIdle s d n && s.now ≤ x.waitEnd) s fun s => calApply s d n x.change 2 s.now

/-- GAP_WAIT_EXPIRY (R368): no idle period came in GAP_WAIT_MS. -/
def execGapWaitExpiry (d n : Nat) (s : State) : Out :=
  onDie d s fun s0 =>
    let s := calSync s0 d n
    let x := calOf s d n
    whenB (n < 16 && x.phase == .pending && x.waitEnd ≤ s.now &&
        (x.waitEnd < s.now || !calIdle s d n)) s fun s =>
      if x.holdExp then calApply s d n x.change 3 x.waitEnd
      else calFail (setCal s d n { x with change := [] }) d n 6 (stampOf (tickAt s d x.waitEnd))

/-- STALE_INTERVAL_END (R369). -/
def execStaleIntervalEnd (d n : Nat) (s : State) : Out :=
  onDie d s fun s =>
    let x := calOf s d n
    whenB (n < 16 && x.staleOn && x.staleAt + 256 ≤ s.now) s fun s => setCal s d n { x with staleOn := false }

/-! ## Commands (R376, R377) -/

/-- A value, or its default where the field is 0. -/
def orDefault (v dflt : Nat) : Nat := if v = 0 then dflt else v

def calConfigureDef : CmdDef where
  op := 0x0701
  cls := onClass clLane
  onGroup := false
  payOk := fun _ c =>
    let p := c.payload
    let lo := orDefault (pb c 16) 4
    let hi := orDefault (pb c 17) 40
    let tr := fld p 12 4
    (pb c 0 < 3 || pb c 0 = 255) && pb c 1 < 8 && fld p 2 2 = 0 && fld p 4 4 ≤ 60000 && fld p 8 4 ≤ 60000 &&
      (tr = 0 || (4096 ≤ tr && tr ≤ 524288)) && lo ≤ 32 && 8 ≤ hi && hi ≤ 64 && lo < hi && restOk c 20
  eff := fun c _ u s0 =>
    let d := uDie u
    let n := uIdx u
    let s := calSync s0 d n
    let x := calAbort (calOf s d n)
    let p := c.payload
    (calSync (setCal s d n { x with
      mode := if pb c 0 = 255 then x.mode else pb c 0
      gap := bitAt (pb c 1) 0, holdExp := bitAt (pb c 1) 1, noFast := bitAt (pb c 1) 2
      period := orDefault (fld p 4 4) 10, gapWait := orDefault (fld p 8 4) 100, minTrans := orDefault (fld p 12 4) 65536
      spreadLo := orDefault (pb c 16) 4, spreadHi := orDefault (pb c 17) 40, railMax := orDefault (fld p 18 2) 1024 }) d n, ok)

/-- CAL_CONFIGURE (R372, R377). -/
def execCalConfigure (c : Cmd) (s : State) : Out := startCmd calConfigureDef c s

/-- The 16 or 1 lanes a calibration command's target covers. -/
def calLanes (u : Nat) : List Nat := if uCls u = clDie then List.range 16 else [uIdx u]

/-- A coefficient record is valid for a package lane (R373, R375). -/
def recordOk (lane : Nat) (p : List Byte) : Bool :=
  let c := (List.range 32).map fun k => (sgn 16 (fld p (32 + 6 * k) 2), sgn 16 (fld p (36 + 6 * k) 2))
  p.length = 256 && fld p 0 2 = 0x4354 && fld p 2 1 = 1 && fld p 3 1 = lane && fld p 252 4 = (crc32c (p.take 252)).toNat &&
    c.all fun e => e.1.natAbs ≤ 2048 && e.2.natAbs ≤ 2000

/-- The coefficients of a record. -/
def recordCoef (p : List Byte) : CalVec :=
  (List.range 32).map fun k =>
    (sgn 16 (fld p (32 + 6 * k) 2), sgn 16 (fld p (34 + 6 * k) 2), sgn 16 (fld p (36 + 6 * k) 2))

/-- The part of a CAL_LOAD payload for the `j`-th lane of its target. -/
def recordPart (c : Cmd) (j : Nat) : List Byte := (c.payload.drop (256 * j)).take 256

/-- The payload of CAL_LOAD holds a valid record for each lane of a unit (R373, R375). -/
def calLoadOk (c : Cmd) (u : Nat) : Bool :=
  c.payload.length = 256 * (calLanes u).length &&
    (List.range (calLanes u).length).all fun j => recordOk (16 * uDie u + ((calLanes u)[j]?).getD 0) (recordPart c j)

def calLoadDef : CmdDef where
  op := 0x0702
  cls := fun k _ => k == clLane || k == clDie
  onGroup := false
  payOk := fun s c => (c.payload.length = 256 || c.payload.length = 4096) && fitsSome s c (calLoadOk c)
  eff := fun c _ u s =>
    let d := uDie u
    let ls := calLanes u
    if !calLoadOk c u then (s, err stBadPayload)
    else if ls.any fun n => pwOf s (laneUid d n) != .asleep then (s, err stBadState)
    else
      ((List.range ls.length).foldl (fun s j =>
        let n := (ls[j]?).getD 0
        setCal s d n { calOf s d n with
          coef := recordCoef (recordPart c j), coefOld := recordCoef (recordPart c j), result := 8, converged := false, fails := 0, stuck := false }) s, ok)

/-- CAL_LOAD (R375). -/
def execCalLoad (c : Cmd) (s : State) : Out := startCmd calLoadDef c s

/-- The coefficient record of a lane (R373). -/
def calRecord (s : State) (d n : Nat) : List Byte :=
  let x := calNow s d n
  let body := leBytes 2 0x4354 ++ leBytes 1 1 ++ leBytes 1 (16 * d + n) ++ leBytes 2 x.lastSeq ++
    leBytes 1 (b2n x.converged + 2 * b2n (laneOf s d n).pam4) ++ leBytes 1 0 ++ leBytes 4 (laneRate s d n) ++
    leBytes 8 x.lastTime.toNat ++ leBytes 2 (getF s d fAonTempNow) ++ leBytes 10 0 ++
    x.coef.flatMap (fun e => leBytes 2 (unsgn 16 e.1) ++ leBytes 2 (unsgn 16 e.2.1) ++ leBytes 2 (unsgn 16 e.2.2)) ++
    leBytes 28 0
  body ++ leBytes 4 (crc32c body).toNat

def calSaveDef : CmdDef where
  op := 0x0703
  cls := fun k _ => k == clLane || k == clDie
  onGroup := false
  payOk := fun s c =>
    fld c.payload 0 8 % 256 = 0 && (fld c.payload 8 4 = 256 || fld c.payload 8 4 = 4096) && restOk c 12 &&
      fitsSome s c fun u => 256 * (calLanes u).length ≤ fld c.payload 8 4
  eff := fun c _ u s =>
    let ls := calLanes u
    if fld c.payload 8 4 < 256 * ls.length then (s, err stBadPayload)
    else (hostWrite s c.port (fld c.payload 0 8) (ls.flatMap (calRecord s (uDie u))), ok)

/-- CAL_SAVE (R374). -/
def execCalSave (c : Cmd) (s : State) : Out := startCmd calSaveDef c s

def calHoldDef : CmdDef where
  op := 0x0704
  cls := onClass clLane
  onGroup := false
  payOk := fun _ c => pb c 0 < 2 && restOk c 1
  eff := fun c _ u s0 =>
    let d := uDie u
    let n := uIdx u
    let s := calSync s0 d n
    let x := calOf s d n
    let hold := pb c 0 = 1
    if x.suspended = decide hold then (s, ok)
    else if hold then (setCal s d n { calAbort x with phase := .inactive, suspended := true, converged := false }, ok)
    else (setCal s d n { x with suspended := false }, ok)

/-- CAL_HOLD (R372, R377). -/
def execCalHold (c : Cmd) (s : State) : Out := startCmd calHoldDef c s

end Sys2Proof.Machine
end

