-- ==== Sys2Proof/Machine/View.lean ====
section
/-!
DEFINITION. What a register reads as (R488, R502).  Registers that follow from other state are computed here; every
other register reads from the register file.
-/

namespace Sys2Proof.Machine

/-- A dword made of fields; the other bits are 0 (R8). -/
def packFlds (l : List (Fld × Nat)) : W32 := l.foldl (fun v x => putFld x.1 v x.2) 0

/-- Half `h` of a 64-bit value: 0 low, 1 high. -/
def half (v h : Nat) : W32 := BitVec.ofNat 32 (v / 2 ^ (32 * h))

/-- A mask of the indices below `n` that satisfy `p`. -/
def maskOf (n : Nat) (p : Nat → Bool) : Nat :=
  (List.range n).foldl (fun m i => m + (if p i then 2 ^ i else 0)) 0

/-! ## CFG, PWR, CLK and TDC -/

/-- CFG_ID (R509): the parts described are stepping A0. -/
def viewCfgId (s : State) (d : Nat) : W32 :=
  packFlds [(fCfgIdDie, d), (fCfgIdDies, nDies s), (fCfgIdStepping, 0x10), (fCfgIdPart, partCode s.part)]

/-- PWR_RSV_HEALTH: valid from EV_READY. -/
def viewRsvHealth (s : State) (d : Nat) : W32 :=
  let lv := (s.pwr.health.filter fun h => h.die = d).map (·.level)
  let ufl := (List.range 4).foldl (fun n p =>
    n + (if (uflPartner (nDies s) d p).isSome then (freeSpares s d 3 p).length else 0)) 0
  if !s.ready then 0
  else packFlds [(fPwrRsvHealthEngFree, (freeSpares s d 1 0).length), (fPwrRsvHealthHbmFree, (freeSpares s d 2 0).length),
    (fPwrRsvHealthUflFree, ufl), (fPwrRsvHealthTdcFree, (freeSpares s d 5 0).length),
    (fPwrRsvHealthWorst, lv.foldl max 0), (fPwrRsvHealthReplace, min 255 (lv.filter (2 ≤ ·)).length),
    (fPwrRsvHealthWatch, min 255 (lv.filter (· = 1)).length)]

/-- CLK_STAT: REF is copied to every die; REFOUT_ON stands on die 0. -/
def viewClkStat (s : State) (d : Nat) : W32 :=
  let c := dieClk s d
  packFlds [(fClkStatRef, refCode s.clk.ref), (fClkStatMode, b2n s.clk.realign), (fClkStatHkTrimmed, b2n c.hkTrimmed),
    (fClkStatAligned, b2n c.aligned), (fClkStatHolding, b2n c.holding), (fClkStatSyncArmed, b2n s.clk.sync.isSome),
    (fClkStatRefoutOn, b2n (d = 0 && s.clk.refOut.on)), (fClkStatLock, maskOf 8 fun k => (pllOf s d k).locked)]

/-- TDC_STAT. -/
def viewTdcStat (s : State) (d : Nat) : W32 :=
  let t := tdcOf s d
  packFlds [(fTdcStatSpares, t.spares), (fTdcStatDone, b2n t.result.isSome), (fTdcStatArmed, b2n t.arm.isSome),
    (fTdcStatDllLock, b2n t.dll)]

/-- TDC_PIN_DLY: fused, from 256 to 1,536 fine units (R172). -/
def viewPinDly (n : Nat) : W32 := BitVec.ofNat 32 (pinDelay n)

/-- TDC_INL: four corrections (R172). -/
def viewInl (s : State) (d m : Nat) : W32 := BitVec.ofNat 32 (fld (tdcOf s d).inl (4 * m) 4)

/-! ## SHT and UFL -/

/-- A level/edge comparator is enabled without its input (R250). -/
def cmpNoInput (s : State) (d k : Nat) : Bool :=
  let g := (cmpOf s d k).cfg
  g.enable && !(if g.mode = 0 then chainTakes s d g.lane else laneLive (laneOf s d g.lane))

/-- The setting of a comparator that COMPARATOR_CONFIGURE gave it last. -/
def cmpLast (x : Comparator) : CmpCfg := ((x.next.getLast?).map (·.2)).getD x.cfg

/-- A spectral-mask comparator's range does not fit the last spectrum (R248). -/
def cmpRange (x : Comparator) : Bool := x.lastN ≠ 0 && (x.lastN ≤ (cmpLast x).hi || x.lastN ≤ (cmpLast x).lo)

/-- SHT_CMP_STAT. -/
def viewCmpStat (s : State) (d : Nat) : W32 :=
  packFlds [(fShtCmpStatSm1Range, b2n (cmpRange (cmpOf s d 1))), (fShtCmpStatSm0Range, b2n (cmpRange (cmpOf s d 0))),
    (fShtCmpStatLe1NoInput, b2n (cmpNoInput s d 3)), (fShtCmpStatLe0NoInput, b2n (cmpNoInput s d 2)),
    (fShtCmpStatLe1En, b2n (cmpOf s d 3).cfg.enable), (fShtCmpStatLe0En, b2n (cmpOf s d 2).cfg.enable),
    (fShtCmpStatSm1En, b2n (cmpLast (cmpOf s d 1)).enable), (fShtCmpStatSm0En, b2n (cmpLast (cmpOf s d 0)).enable)]

/-- SHT_SEQ_STAT: SUPPRESSED stands in the register file. -/
def viewSeqStat (s : State) (n : Nat) : W32 :=
  let q := seqOf s n
  packFlds [(fShtSeqStatArmed n, b2n q.armed), (fShtSeqStatDone n, b2n q.done), (fShtSeqStatLoaded n, b2n q.loaded),
    (fShtSeqStatState n, q.st), (fShtSeqStatSuppressed n, getF s 0 (fShtSeqStatSuppressed n))]

/-- UFL_STAT (R14): a port without a partner is absent and shows 0. -/
def viewUflStat (s : State) (d p : Nat) : W32 :=
  match uflPartner (nDies s) d p with
  | none => 0
  | some e =>
    let swap := s.pwr.swaps.any fun w => w.kind = 3 && samePlace s 3 d p w.die (placeOf_ 3 w.target)
    let st := match pwOf s (uid d clUfl p) with
      | .awake => if swap then 1 else 2
      | .starting => 1
      | .fault => 3
      | _ => 0
    let used := (s.pwr.record.filter fun r =>
      r.kind = 3 && r.state ≠ 3 && samePlace s 3 d p r.die (entPlace r)).length
    packFlds [(fUflStatState p, st), (fUflStatSparesUsed p, min 2 used), (fUflStatPartner p, e)]

/-! ## SPC, DNS and CAL -/

def chainStCode : ChainSt → Nat
  | .stopped => 0
  | .settling => 1
  | .running => 2
  | .noInput => 3

/-- SPC_STAT. -/
def viewSpcStat (s : State) (d c : Nat) : W32 :=
  let x := chainOf s d c
  packFlds [(fSpcStatLane c, x.lane.getD 0), (fSpcStatSelected c, b2n x.lane.isSome), (fSpcStatConfigured c, b2n x.configured),
    (fSpcStatExport c, b2n (((x.expNext.getLast?).map (·.2)).getD x.exp).exportOn), (fSpcStatSnap c, b2n (x.configured && x.cfg.final = 3)),
    (fSpcStatDcFrozen c, b2n x.frozen), (fSpcStatState c, chainStCode x.st)]

/-- SPC_CFG. -/
def viewSpcCfg (s : State) (d c : Nat) : W32 :=
  let g := (chainOf s d c).cfg
  packFlds [(fSpcCfgWindow c, g.window), (fSpcCfgOverlap c, g.overlap), (fSpcCfgFftLog2 c, g.fftLog2), (fSpcCfgRom c, g.rom),
    (fSpcCfgPreset c, g.preset), (fSpcCfgFinal c, g.final), (fSpcCfgDecLog2 c, g.decLog2)]

/-- SPC_DC_EST: the estimate of the selected lane. -/
def viewDcEst (s : State) (d c : Nat) : W32 :=
  let x := chainOf s d c
  BitVec.ofInt 32 (match x.lane with | some n => openQuot [] (tget 0 x.dc n) (2 ^ 48) | none => 0)

/-- DNS_STAT: a segment that waits and needs read-back is being read back (R347). -/
def viewDnsStat (s : State) (d : Nat) : W32 :=
  let a := accOf s d 0
  let b := accOf s d 1
  let busy := fun c => takesInc s d && (streamOf s d (expoOf c)).closing.any fun k => k.need && k.readBack
  packFlds [(fDnsStatMeasBBusy, b2n (busy 1)), (fDnsStatMeasABusy, b2n (busy 0)),
    (fDnsStatMeasBEn, b2n (measOf s d 1).enable), (fDnsStatMeasAEn, b2n (measOf s d 0).enable),
    (fDnsStatBSmall, b2n b.cfg.small), (fDnsStatASmall, b2n a.cfg.small),
    (fDnsStatBExporting, b2n b.exporting.isSome), (fDnsStatBSaturated, b2n b.sat), (fDnsStatBKind, b.cfg.kind),
    (fDnsStatAExporting, b2n a.exporting.isSome), (fDnsStatASaturated, b2n a.sat), (fDnsStatAKind, a.cfg.kind)]

/-- DNS_ACC_EXPORT: all ones while no export has completed since SHEET_CONFIGURE. -/
def viewAccExport (s : State) (d k : Nat) : W32 :=
  match (accOf s d k).lastNum with | some n => BitVec.ofNat 32 n | none => 0xFFFFFFFF

/-- CAL_DIE_STAT. -/
def viewCalDie (s : State) (d : Nat) : W32 :=
  packFlds [(fCalDieStatActive, maskOf 16 fun n => calActive s d n), (fCalDieStatStuck, maskOf 16 fun n => (calNow s d n).stuck)]

/-- CAL_CFG. -/
def viewCalCfg (s : State) (d n : Nat) : W32 :=
  let x := calNow s d n
  packFlds [(fCalCfgPeriodMs n, x.period), (fCalCfgHoldOnExpiry n, b2n x.holdExp), (fCalCfgFastStart n, b2n (!x.noFast)),
    (fCalCfgGap n, b2n x.gap), (fCalCfgSuspended n, b2n x.suspended), (fCalCfgMode n, x.mode)]

/-- CAL_STAT.PHASE. -/
def calPhCode (x : Cal) : Nat :=
  if x.staleOn then 5
  else match x.phase with
    | .inactive => 0
    | .waiting => 1
    | .estimate => 2
    | .confirm => 3
    | .judging _ => 3
    | .pending => 4

/-- CAL_STAT. -/
def viewCalStat (s : State) (d n : Nat) : W32 :=
  let x := calNow s d n
  packFlds [(fCalStatSeq n, stripSeq x), (fCalStatResult n, x.result), (fCalStatStuck n, b2n x.stuck),
    (fCalStatConverged n, b2n x.converged), (fCalStatPhase n, calPhCode x)]

/-! ## HKA and PBD -/

/-- HKA_STAT. -/
def viewHkaStat (s : State) (d : Nat) : W32 :=
  let h := hkaOf s d
  packFlds [(fHkaStatCalibrating, b2n h.cal.isSome), (fHkaStatDelaying, b2n h.delayEnd.isSome), (fHkaStatPending, b2n h.pending),
    (fHkaStatConverting, b2n h.conv.isSome)]

/-- PBD_STAT: the two SEEN bits stand in the register file. -/
def viewPbdStat (s : State) (d p : Nat) : W32 :=
  let b := biasOf s d p
  packFlds [(fPbdStatCode p, b.code), (fPbdStatTripped p, b2n b.tripped), (fPbdStatLimitSeen p, getF s d (fPbdStatLimitSeen p)),
    (fPbdStatComplianceSeen p, getF s d (fPbdStatComplianceSeen p)), (fPbdStatLimit p, b2n b.limit.on),
    (fPbdStatCompliance p, b2n b.compl.on), (fPbdStatHold p, b2n b.hold.isSome), (fPbdStatBusy p, b2n (biasBusy s d p)),
    (fPbdStatPin p, biasPin s d p)]

/-- PBD_PRES: the pin is first sampled one hk-cycle after reset. -/
def viewPbdPres (s : State) (d p : Nat) : W32 :=
  let x := probeOf s d p
  packFlds [(fPbdPresPresent p, b2n (probeHere s d p)), (fPbdPresPin p, b2n (x.pin && s.pwr.relAt + hkTicks ≤ s.now)),
    (fPbdPresEepromOk p, b2n x.eepromOk), (fPbdPresDiscovering p, b2n (x.discovering || x.read.isSome)), (fPbdPresAddr p, x.addr)]

/-! ## LANE and CAP -/

/-- LANE_STAT. -/
def viewLaneStat (s : State) (d n : Nat) : W32 :=
  let l := laneOf s d n
  packFlds [(fLaneStatAdaptBusy n, b2n (l.adapt.isSome || l.onceEnd.isSome || adapts l 0 || adapts l 1 || adapts l 2)), (fLaneStatMonBusy n, b2n l.sweep.isSome),
    (fLaneStatAttached n, b2n ((unitOf s (laneUid d n)).partner ≠ 0)), (fLaneStatFrameLock n, b2n l.frameLock),
    (fLaneStatCdrLock n, b2n l.cdrLock), (fLaneStatSignal n, b2n (signalSeen l)), (fLaneStatState n, laneStCode l.state)]

/-- LANE_MODE. -/
def viewLaneMode (s : State) (d n : Nat) : W32 :=
  let l := laneOf s d n
  packFlds [(fLaneModeSquelch n, l.squelch), (fLaneModeGray n, b2n l.gray), (fLaneModeDescramble n, b2n l.descramble),
    (fLaneModeFramer n, framerCode l.framer), (fLaneModeDivLog2 n, l.divLog2), (fLaneModePam4 n, b2n l.pam4),
    (fLaneModeInvert n, b2n l.invert), (fLaneModeListen n, b2n l.listen), (fLaneModeEnable n, b2n l.enable)]

def streamStCode : StreamSt → Nat
  | .unconfigured => 0
  | .idle => 1
  | .rolling => 2
  | .filling => 3
  | .ready => 4
  | .post => 5
  | .rearm => 6

/-- CAP_CTL. -/
def viewCapCtl (s : State) (d i : Nat) : W32 :=
  let x := streamOf s d i
  packFlds [(fCapCtlState i, streamStCode x.state), (fCapCtlBound i, b2n x.ring.isSome), (fCapCtlService i, b2n x.service.isSome),
    (fCapCtlDropping i, b2n x.drop.isSome), (fCapCtlRateLimited i, b2n (x.rate ≠ 0)), (fCapCtlMode i, x.mode),
    (fCapCtlFormat i, x.format), (fCapCtlKeep i, b2n x.keep), (fCapCtlRing i, x.ring.getD 0)]

/-- The sequence number of the oldest envelope a spool holds; of an empty spool that has held some, a free value. -/
def oldestSeq (x : Stream) (free : Nat) : Nat :=
  match x.spool with
  | e :: _ => e.seq
  | [] => if x.seqNext = 0 then 0 else free % 2 ^ 48

/-- Segments completed: those closed, less those not yet complete. -/
def segsDone (x : Stream) : Nat := x.segNext - x.closing.length

/-! ## ENG and XFR -/

/-- ENG_STAT. -/
def viewEngStat (s : State) (d e : Nat) : W32 :=
  let x := engOf s d e
  let wt := match x.waiting with | some (.wait ..) => true | _ => false
  let stall := match x.waiting with | some .sin => true | some .sout => true | _ => false
  packFlds [(fEngStatState e, engStCode x.st), (fEngStatWaiting e, b2n (x.st == .running && wt)),
    (fEngStatStalled e, b2n (x.st == .running && stall)), (fEngStatSwapPending e, b2n (x.swap.isSome && x.st != .swapping)),
    (fEngStatSpare e, b2n (16 ≤ x.phys)), (fEngStatPhys e, x.phys), (fEngStatCause e, x.cause)]

/-- Ticks spent waiting or stalled, the wait under way included, also while the engine is SWAPPING; the time on the holding clock is not
waited (R404). -/
def waitedNow (s : State) (d : Nat) (x : Engine) : Nat :=
  let t := if (dieClk s d).holding then (dieClk s d).atTick else s.now
  x.waited + (if (x.st == .running || x.st == .swapping) && x.waiting.isSome then t - x.waitAt else 0)

/-- ENG_PORTS. -/
def viewEngPorts (s : State) (d e : Nat) : W32 :=
  let src := fun k => (((engOf s d e).ins[k]?).getD EngIn.reset).src
  packFlds [(fEngPortsIn3 e, src 3), (fEngPortsIn2 e, src 2), (fEngPortsIn1 e, src 1), (fEngPortsIn0 e, src 0)]

/-- ENG_OUTS. -/
def viewEngOuts (s : State) (d e : Nat) : W32 :=
  let out := fun k => (((engOf s d e).outs[k]?).getD EngOut.reset).stream
  packFlds [(fEngOutsOut1 e, out 1), (fEngOutsOut0 e, out 0)]

/-- ENG_DIE_STAT. -/
def viewEngDie (s : State) (d : Nat) : W32 :=
  packFlds [(fEngDieStatSparesFree, (freeSpares s d 1 0).length), (fEngDieStatFailed, maskOf 20 fun n => s.eng.failed.contains (key d n))]

/-- ENG_MAP. -/
def viewEngMap (s : State) (d k : Nat) : W32 :=
  packFlds [(fEngMapPhys3 k, (engOf s d (4 * k + 3)).phys), (fEngMapPhys2 k, (engOf s d (4 * k + 2)).phys),
    (fEngMapPhys1 k, (engOf s d (4 * k + 1)).phys), (fEngMapPhys0 k, (engOf s d (4 * k)).phys)]

def xferStCode : XferSt → Nat
  | .idle => 0
  | .loaded => 1
  | .running => 2
  | .waiting => 3
  | .paused => 4
  | .done => 5
  | .error => 6

/-- XFR_CH_CTL: PAUSE stands in the register file. -/
def viewXfrCtl (s : State) (d c : Nat) : W32 :=
  let x := xferOf s d c
  packFlds [(fXfrChCtlPause c, getF s d (fXfrChCtlPause c)), (fXfrChCtlPort c, x.port.getD 0), (fXfrChCtlPortValid c, b2n x.port.isSome),
    (fXfrChCtlWeight c, x.weight), (fXfrChCtlEntry c, x.entry)]

/-- XFR_CH_STAT. -/
def viewXfrStat (s : State) (d c : Nat) : W32 :=
  let x := xferOf s d c
  packFlds [(fXfrChStatState c, xferStCode x.st), (fXfrChStatLastBeatErr c, b2n x.lastBeat), (fXfrChStatDesc c, b2n (x.moving && x.move.desc)),
    (fXfrChStatPaused c, b2n (x.st == .paused)), (fXfrChStatTimedOut c, b2n x.timedOut), (fXfrChStatCause c, x.cause),
    (fXfrChStatPhase c, x.phase), (fXfrChStatLoopActive c, maskOf 4 fun k => (x.active[k]?).getD false), (fXfrChStatPc c, x.pc)]

/-- XFR_CH_WRAP. -/
def viewXfrWrap (s : State) (d c : Nat) : W32 :=
  let w := fun k => (((xferOf s d c).bases[k]?).getD (0, 0)).2
  packFlds [(fXfrChWrapWrap3 c, w 3), (fXfrChWrapWrap2 c, w 2), (fXfrChWrapWrap1 c, w 1), (fXfrChWrapWrap0 c, w 0)]

/-- Base `k` of a channel. -/
def xferBase (s : State) (d c k : Nat) : Nat := (((xferOf s d c).bases[k]?).getD (0, 0)).1

/-- XFR_CH_GRANT. -/
def viewXfrGrant (s : State) (d c : Nat) : W32 :=
  packFlds [(fXfrChGrantService c, b2n (xferOf s d c).slot.isSome), (fXfrChGrantEngines c, maskOf 16 fun e => bitAt (engOf s d e).grants c)]

/-- PRF_STAT.TE, the last sample of DSI_TE: 0 until the port has sampled the pin since reset, 1 in the tick that recognises an
edge, else the pin's level, a free value (log entry 38). -/
def teSample (s : State) (free : Nat) : Nat :=
  if !s.prf.sampled then 0 else if s.prf.teTick = some s.now then 1 else free % 2

/-- PRF_STAT: CONFIGURED, MODE and the RC bits stand in the register file. -/
def viewPrfStat (s : State) (free : Nat) : W32 :=
  let x := s.prf
  let push := match x.comp with | some k => k.pushing | none => false
  let comp := match x.comp with | some k => !k.left.isEmpty || !k.pushing | none => false
  let v := putFld fPrfStatComposing (putFld fPrfStatPushing (reg s 0 rPrfStat) (b2n push)) (b2n comp)
  putFld fPrfStatTe (putFld fPrfStatPending v x.pend.length) (teSample s free)

/-! ## The views by block -/

/-- Registers computed below offset 0x8000: row offset and instance, if the row is one of them. -/
def viewLow (s : State) (d row i : Nat) : Option W32 :=
  if row = rCfgId then some (viewCfgId s d)
  else if row = rPwrStat then some (putFld fPwrStatFencedDies (reg s d rPwrStat) (maskOf 8 fun e => fenced s e))
  else if row = rPwrRsvHealth then some (viewRsvHealth s d)
  else if row = rClkStat then some (viewClkStat s d)
  else if row = rClkTimeLo then some (half (dieTime s d * 256) 0)
  else if row = rClkTimeHi then some (half (dieTime s d * 256) 1)
  else if row = rClkBuildout then some (BitVec.ofInt 32 (dieClk s d).buildout)
  else if row = rClkHkTrim then
    some (packFlds [(fClkHkTrimError, unsgn 16 (dieClk s d).hkErr), (fClkHkTrimCode, (dieClk s d).hkCode)])
  else if row = rTdcStat then some (viewTdcStat s d)
  else if row = rTdcPinDly 0 then some (viewPinDly i)
  else if row = rTdcInl 0 then some (viewInl s d i)
  else if row = rShtNegStat then some (BitVec.ofNat 32 (negOf s d).ways.length)
  else if row = rShtCmpStat then some (viewCmpStat s d)
  else if row = rShtSeqStat 0 then some (viewSeqStat s i)
  else if row = rUflStat 0 then some (viewUflStat s d i)
  else none

/-- Registers computed at offsets 0x8000 to 0xFFFF. -/
def viewMid (s : State) (d row i : Nat) : Option W32 :=
  if row = rSpcStat 0 then some (viewSpcStat s d i)
  else if row = rSpcCfg 0 then some (viewSpcCfg s d i)
  else if row = rSpcFreqLo 0 then some (half (chainOf s d i).cfg.freq.toNat 0)
  else if row = rSpcFreqHi 0 then some (half (chainOf s d i).cfg.freq.toNat 1)
  else if row = rSpcRatio 0 then some (BitVec.ofNat 32 (chainOf s d i).cfg.ratio)
  else if row = rSpcDcEst 0 then some (viewDcEst s d i)
  else if row = rSpcSpectraLo 0 then some (half (chainOf s d i).seqNo 0)
  else if row = rSpcSpectraHi 0 then some (half (chainOf s d i).seqNo 1)
  else if row = rSpcSettle 0 then some (BitVec.ofNat 32 (min (2 ^ 32 - 1) (chainOf s d i).settleTicks))
  else if row = rDnsStat then some (viewDnsStat s d)
  else if row = rDnsAccIncLo 0 then some (half (accOf s d i).inc 0)
  else if row = rDnsAccIncHi 0 then some (half (accOf s d i).inc 1)
  else if row = rDnsAccOut 0 then some (BitVec.ofNat 32 (min (2 ^ 32 - 1) (accOf s d i).out))
  else if row = rDnsAccExport 0 then some (viewAccExport s d i)
  else if row = rCalDieStat then some (viewCalDie s d)
  else if row = rCalCfg 0 then some (viewCalCfg s d i)
  else if row = rCalStat 0 then some (viewCalStat s d i)
  else if row = rCalFail 0 then some (putFld (fCalFailConsecutive i) (reg s d (rCalFail i)) (calNow s d i).fails)
  else if row = rCalQual 0 then
    some (packFlds [(fCalQualTrans i, min 0xFFFFF (calNow s d i).trans), (fCalQualSigma i, min 0xFFF (calNow s d i).sigma)])
  else if row = rCalRail 0 then some (packFlds [(fCalRailRails i, min (2 ^ 21 - 1) (calNow s d i).rails)])
  else if row = rCalResid 0 then
    some (packFlds [(fCalResidOffset i, (calNow s d i).resid.1), (fCalResidGain i, (calNow s d i).resid.2.1)])
  else if row = rCalResidSkew 0 then some (packFlds [(fCalResidSkewSkew i, (calNow s d i).resid.2.2)])
  else if row = rCalApplied 0 then some (BitVec.ofNat 32 (calNow s d i).applied)
  else if row = rCalLastLo 0 then some (half (calNow s d i).lastTime.toNat 0)
  else if row = rCalLastHi 0 then some (half (calNow s d i).lastTime.toNat 1)
  else if row = rHkaStat then some (viewHkaStat s d)
  else if row = rPbdStat 0 then some (viewPbdStat s d i)
  else if row = rPbdPres 0 then some (viewPbdPres s d i)
  else if row = rSecMeasCount then some (BitVec.ofNat 32 s.sec.count)
  else none

/-- LANE and CAP registers computed. -/
def viewCap (s : State) (free d row i : Nat) : Option W32 :=
  if row = rLaneStat 0 then some (viewLaneStat s d i)
  else if row = rLaneMode 0 then some (viewLaneMode s d i)
  else if row = rLaneRate 0 then some (BitVec.ofNat 32 (laneRate s d i))
  else if row = rLaneDeskew 0 then some (BitVec.ofNat 32 (laneOf s d i).delay)
  else if row = rLaneCdr 0 then some (BitVec.ofNat 32 (cdrOfs (laneOf s d i) free))
  else if row = rLaneWordsLo 0 then some (half (laneOf s d i).words 0)
  else if row = rLaneWordsHi 0 then some (half (laneOf s d i).words 1)
  else if row = rCapPool then some (putFld fCapPoolFreeMib (reg s d rCapPool) (poolFree s d))
  else if row = rCapCtl 0 then some (viewCapCtl s d i)
  else if row = rCapSize 0 then some (BitVec.ofNat 32 (streamOf s d i).slots)
  else if row = rCapLevel 0 then some (BitVec.ofNat 32 (undelivered (streamOf s d i)))
  else if row = rCapRetain 0 then some (BitVec.ofNat 32 (streamOf s d i).retain)
  else if row = rCapSeqLo 0 then some (half (streamOf s d i).seqNext 0)
  else if row = rCapSeqHi 0 then some (half (streamOf s d i).seqNext 1)
  else if row = rCapOldestLo 0 then some (half (oldestSeq (streamOf s d i) free) 0)
  else if row = rCapOldestHi 0 then some (half (oldestSeq (streamOf s d i) free) 1)
  else if row = rCapDropLo 0 then some (half (streamOf s d i).dropWords 0)
  else if row = rCapDropHi 0 then some (half (streamOf s d i).dropWords 1)
  else if row = rCapMarkDrop 0 then some (BitVec.ofNat 32 (min (2 ^ 32 - 1) (streamOf s d i).dropMarks))
  else if row = rCapSegments 0 then some (BitVec.ofNat 32 (segsDone (streamOf s d i)))
  else none

/-- ENG registers computed. -/
def viewEng (s : State) (d row i : Nat) : Option W32 :=
  if row = rEngStat 0 then some (viewEngStat s d i)
  else if row = rEngPc 0 then some (packFlds [(fEngPcPc i, (engOf s d i).pc)])
  else if row = rEngBadaddrLo 0 then some (half (engOf s d i).badAddr.toNat 0)
  else if row = rEngBadaddrHi 0 then some (half (engOf s d i).badAddr.toNat 1)
  else if row = rEngRetiredLo 0 then some (half (engOf s d i).retired 0)
  else if row = rEngRetiredHi 0 then some (half (engOf s d i).retired 1)
  else if row = rEngWaitedLo 0 then some (half (waitedNow s d (engOf s d i)) 0)
  else if row = rEngWaitedHi 0 then some (half (waitedNow s d (engOf s d i)) 1)
  else if row = rEngPorts 0 then some (viewEngPorts s d i)
  else if row = rEngOuts 0 then some (viewEngOuts s d i)
  else if row = rEngHeap 0 then some (packFlds [(fEngHeapMib i, (engOf s d i).heapMib)])
  else if row = rEngDieStat then some (viewEngDie s d)
  else if row = rEngMap 0 then some (viewEngMap s d i)
  else none

/-- XFR registers computed: row, channel and instance within it. -/
def viewXfr (s : State) (d row c k : Nat) : Option W32 :=
  let x := xferOf s d c
  if row = rXfrChCtl 0 then some (viewXfrCtl s d c)
  else if row = rXfrChStat 0 then some (viewXfrStat s d c)
  else if row = rXfrChSpace 0 then
    some (packFlds [(fXfrChSpaceFault c, x.faultSpace), (fXfrChSpaceDst c, x.move.dspace), (fXfrChSpaceSrc c, x.move.sspace)])
  else if row = rXfrChSrcLo 0 then some (half x.move.src 0)
  else if row = rXfrChSrcHi 0 then some (half x.move.src 1)
  else if row = rXfrChDstLo 0 then some (half x.move.dst 0)
  else if row = rXfrChDstHi 0 then some (half x.move.dst 1)
  else if row = rXfrChFaultLo 0 then some (half x.faultAddr 0)
  else if row = rXfrChFaultHi 0 then some (half x.faultAddr 1)
  else if row = rXfrChBytesLo 0 then some (half x.bytes 0)
  else if row = rXfrChBytesHi 0 then some (half x.bytes 1)
  else if row = rXfrChBaseLo 0 0 then some (half (xferBase s d c k) 0)
  else if row = rXfrChBaseHi 0 0 then some (half (xferBase s d c k) 1)
  else if row = rXfrChRem 0 then some (packFlds [(fXfrChRemBytes c, if x.moving then x.move.rem else 0)])
  else if row = rXfrChWrap 0 then some (viewXfrWrap s d c)
  else if row = rXfrChLoop 0 0 then some (BitVec.ofNat 32 ((x.lc[k]?).getD 0))
  else if row = rXfrChKick 0 then some (putFld (fXfrChKickPending c) (reg s d (rXfrChKick c)) x.kicks)
  else if row = rXfrChGrant 0 then some (viewXfrGrant s d c)
  else none

/-- HST_BOND_MAP.HOST_DIES: host-facing ports whose links are up. -/
def viewBond (s : State) (d : Nat) : W32 :=
  putFld fHstBondMapHostDies (reg s d rHstBondMap) (maskOf 8 fun p => portServes s p)

/-- What the register of a table row reads as on a die: row, and its instance in two dimensions.  `free` is a free
value for what the spec leaves open. -/
def viewRow (s : State) (free d : Nat) (r : RegDef) (i j o : Nat) : W32 :=
  let v :=
    if r.ofs < 0x8000 then viewLow s d r.ofs i
    else if r.ofs < 0x10000 then viewMid s d r.ofs i
    else if r.ofs < 0x30000 then viewCap s free d r.ofs i
    else if r.ofs = rHstBondMap then some (viewBond s d)
    else if r.ofs < 0x40000 then none
    else if r.ofs < 0x58000 then viewEng s d r.ofs i
    else if r.ofs = rPrfStat then some (viewPrfStat s free)
    else viewXfr s d r.ofs i j
  match v with
  | some x => x
  | none =>
    if r.grp < 32 && flagF s d fCfgCtlReadShadow then
      (reg s d o &&& ~~~(BitVec.ofNat 32 r.rws)) ||| (shadow s d o &&& BitVec.ofNat 32 r.rws)
    else reg s d o

end Sys2Proof.Machine
end

