-- ==== Sys2Proof/Machine/Registers.lean ====
section
/-!
DEFINITION. Accesses of the host to BAR0 and BAR2, update strobes, the configuration check, and locks (R485 to R507).
-/

namespace Sys2Proof.Machine

/-! ## Where an access lands (R65 to R71, R406, R487, R508, R571) -/

/-- What lies at an offset of a function's BAR. -/
inductive Spot where
  /-- The BAR does not reach so far, or the function does not answer: there is no such access. -/
  | nowhere
  /-- A register of a die, by its table row, instances and window offset. -/
  | register (d : Nat) (r : RegDef) (i j o : Nat)
  /-- A die 0 register as another die shows it (R274): reads 0, writes discarded. -/
  | zero
  /-- The doorbell slot of a ring. -/
  | bell (kind : RingKind) (n : Nat)
  /-- A dword of an engine's H2E or E2H message. -/
  | h2e (d e a : Nat)
  | e2h (d e a : Nat)
  | h2eBell (d e : Nat)
  | e2hStat (d e : Nat)
  | e2hAck (d e : Nat)
  /-- A register of the control page, by its offset in the page. -/
  | control (r : RegDef) (i o : Nat)
  /-- The image area of the port. -/
  | image (a : Nat)
  /-- A reserved location: the die that records a write, and the reason of R510. -/
  | reserved (d reason : Nat)
  deriving DecidableEq, Repr

/-- A register of a die's window, if the die has it (R508). -/
def windowSpot (s : State) (d o : Nat) : Spot :=
  match findReg o with
  | none => .reserved d 1
  | some r =>
    match rowAt r o with
    | none => .reserved d 1
    | some (i, j) =>
      if d ≠ 0 && r.pres = 2 then .zero
      else if r.pres = 0 || r.pres = 2 || (r.pres = 1 && d = 0) || (r.pres = 3 && !(portOf s d).drive) then .register d r i j o
      else .reserved d 1

/-- What lies at an offset of BAR0: every die's window in the primary function, its own HST blocks in a data-port
function and in the boot window (R65, R66, R68, R487). -/
def bar0Spot (s : State) (port ofs : Nat) : Spot :=
  if s.ready && port = primaryPort s then
    if 0x4000000 ≤ ofs then .nowhere
    else if nDies s ≤ ofs / 0x800000 || fenced s (ofs / 0x800000) then .reserved port 2
    else windowSpot s (ofs / 0x800000) (ofs % 0x800000)
  else if (if s.ready then 0x10000 else 0x4000000) ≤ ofs then .nowhere
  else if ofs < 0x2000 then windowSpot s port (0x30000 + ofs)
  else .reserved port 1

/-- What lies in an engine's mailbox window (R406). -/
def mailboxSpot (s : State) (port x : Nat) : Spot :=
  let d := x / 0x20000 / 16
  let e := x / 0x20000 % 16
  let a := x % 0x20000
  if !mbxHere s port d e then .reserved port 1
  else if a < 0x1000 then .h2e d e a
  else if a < 0x2000 then .e2h d e (a - 0x1000)
  else if a = 0x2000 then .h2eBell d e
  else if a = 0x2008 then .e2hStat d e
  else if a = 0x2010 then .e2hAck d e
  else .reserved port 1

/-- What lies at an offset of BAR2 (R69). -/
def bar2Spot (s : State) (port ofs : Nat) : Spot :=
  if ofs % 8 = 4 && (ofs < 0x200 || (0x1000 ≤ ofs && ofs ≤ 0x1204) || (0x2000 ≤ ofs && ofs < 0x3000)) then .zero
  else if ofs < 0x200 then .bell .command (ofs / 8)
  else if 0x1000 ≤ ofs && ofs < 0x1200 then .bell .completion ((ofs - 0x1000) / 8)
  else if ofs = 0x1200 then .bell .event 0
  else if 0x2000 ≤ ofs && ofs < 0x3000 then .bell .stream ((ofs - 0x2000) / 8)
  else if 0x1000000 ≤ ofs && ofs < 0x2000000 then mailboxSpot s port (ofs - 0x1000000)
  else if 0x2000000 ≤ ofs && ofs < 0x2001000 then
    let o := ofs - 0x2000000
    match findReg (0x4000000 + o) with
    | some r =>
      match rowAt r (0x4000000 + o) with
      | some (i, _) => .control r i o
      | none => .reserved port 1
    | none => .reserved port 1
  else if 0x2001000 ≤ ofs && ofs < 0x4000000 then (if s.ready then .reserved port 1 else .image (ofs - 0x2001000))
  else if ofs < 0x4000000 then .reserved port 1
  else .nowhere

/-- What a dword access to a BAR (0 or 2) of a function lands on. -/
def spotOf (s : State) (port bar ofs : Nat) : Spot :=
  if !portShown s port || ofs % 4 ≠ 0 then .nowhere
  else if bar = 0 then bar0Spot s port ofs
  else if bar = 2 then bar2Spot s port ofs
  else .nowhere

/-! ## The configuration check (R494 to R497) -/

/-- Sets a register; a change of covered bits is noted for the pass that runs (R495). -/
def setCovered (s : State) (d o cov : Nat) (v : W32) : State :=
  let changed := ((reg s d o ^^^ v) &&& BitVec.ofNat 32 cov) ≠ 0
  let s1 := setReg s d o v
  if changed then setCfg s1 d { cfgOf s1 d with dirty := true } else s1

/-- A new reference is written (R496, R497): comparison resumes with the first pass that starts after. -/
def refWritten (s : State) (d : Nat) : State :=
  setCfg (setFlag s d fCfgStatCrcSuspended false) d
    { cfgOf s d with capture := none, resume := true, posted := false, newRef := true }

/-- CAPTURE_REF is set (R496): the result of the first pass that starts after becomes the reference. -/
def captureRef (s : State) (d : Nat) : State :=
  setCfg (setFlag s d fCfgStatCrcSuspended false) d { cfgOf s d with capture := some false, resume := false }

/-- Sorts a covered register in by its offset. -/
def covInsert (x : Nat × Nat) : List (Nat × Nat) → List (Nat × Nat)
  | [] => [x]
  | y :: r => if x.1 < y.1 then x :: y :: r else y :: covInsert x r

/-- The instances of a table row: their offsets. -/
def rowOffsets (r : RegDef) : List Nat :=
  (List.range r.n1).flatMap fun i => (List.range r.n2).map fun j => r.ofs + i * r.s1 + j * r.s2

/-- The covered registers of a die with their cover masks, in ascending offset (R494). -/
def covered (d : Nat) : List (Nat × Nat) :=
  let rows := regTable.filter fun r => r.cov ≠ 0 && (r.pres = 0 || (d = 0 && (r.pres = 1 || r.pres = 2)))
  (rows.flatMap fun r => (rowOffsets r).map fun o => (o, r.cov)).foldl (fun l x => covInsert x l) []

/-- The bytes a pass computes its CRC over (R494). -/
def coveredBytes (s : State) (d : Nat) : List Byte :=
  (covered d).flatMap fun x => leBytes 4 (reg s d x.1 &&& BitVec.ofNat 32 x.2).toNat

/-- A pass mismatches the reference (R497, R510). -/
def cfgMismatch (s : State) (d : Nat) (result : W32) : State :=
  let c := cfgOf s d
  let s1 := setFlag s d fCfgStatCrcMismatch true
  let s2 := setCfg s1 d { c with posted := true, newRef := false }
  let s3 := if c.posted then s2
    else post s2 d 0x0F12 (dieUid d) (dieTime s d)
      (leBytes 4 (reg s d rCfgCrcRef).toNat ++ leBytes 4 result.toNat ++
        leBytes 8 (nowStamp s d - BitVec.ofNat 64 ((s.now - c.passStart) * 256)).toNat)
  if flagF s3 d fCfgCtlSafeOnCrc then enterSafe s3 d 2 else s3

/-- A pass matches the reference: the cause CFG_CRC clears where a new reference has been given (R568). -/
def cfgMatch (s : State) (d : Nat) : State :=
  let c := cfgOf s d
  let s1 := setCfg s d { c with posted := false }
  if c.newRef then clearCause s1 d 2 else s1

/-- What a finished pass does with its result: it becomes the reference, is compared, or neither (R495, R496). -/
def cfgJudge (s : State) (d : Nat) (result : W32) : State :=
  let c := cfgOf s d
  if c.dirty then s
  else if c.capture = some true then
    setCfg (setReg s d rCfgCrcRef result) d { c with capture := none, posted := false, newRef := true }
  else if flagF s d fCfgCtlCrcEn && !flagF s d fCfgStatCrcSuspended && c.capture.isNone && !c.resume then
    (if reg s d rCfgCrcRef = result then cfgMatch s d else cfgMismatch s d result)
  else s

/-- The next pass starts. -/
def cfgNext (s : State) (d : Nat) : State :=
  let c := cfgOf s d
  setCfg s d { c with passStart := s.now, dirty := false, resume := false, capture := c.capture.map fun _ => true }

/-- The result of a pass: the CRC of the covered configuration, or, where a covered field changed during the pass, a free value
(R494, R495; log entry 2). -/
def passResult (s : State) (d : Nat) : W32 × State :=
  if (cfgOf s d).dirty then
    let v := drawFree s
    (v.1.setWidth 32, v.2)
  else (crc32c (coveredBytes s d), s)

/-- CFG_CRC_PASS_END (R495): a pass of at most 2^20 ticks ends, and the next starts. -/
def execCfgCrcPassEnd (d : Nat) (s : State) : Out :=
  onDie d s fun s =>
    whenB (counts s d && (cfgOf s d).passStart < s.now) s fun s =>
      let p := passResult s d
      let result := p.1
      let s := p.2
      let s1 := setFlag (wrapF (setReg s d rCfgCrcLast result) d fCfgCrcPassesCount 1) d fCfgStatPassDone true
      cfgNext (cfgJudge s1 d result) d

/-! ## Writes (R488, R489, R498 to R502) -/

/-- The lock bit of the block at a window offset (R498). -/
def blockLock (o : Nat) : Option Nat :=
  if 0x6000 ≤ o && o < 0x7000 then some 0
  else if (0x10000 ≤ o && o < 0x20000) || (0xB000 ≤ o && o < 0xC000) then some 1
  else if 0x8000 ≤ o && o < 0xB000 then some 2
  else if (0x40000 ≤ o && o < 0x58000) || (0x60000 ≤ o && o < 0x80000) then some 3
  else if o = rCfgCtl || o = rUpdEnable || (rUpdSrc 0 ≤ o && o < rUpdPending) then some 4
  else if 0x30000 ≤ o && o < 0x38000 then some 5
  else none

/-- The lock that discards a write of enabled bits `m` to a register: XFR_CH_CTL.PAUSE and W1T fields stay writable. -/
def lockedBy (s : State) (d : Nat) (r : RegDef) (o m : Nat) : Option Nat :=
  let kept := if r.ofs = rXfrChCtl 0 then 0 else (r.rw ||| r.rws ||| r.wo1) &&& m
  match blockLock o with
  | some b => if kept ≠ 0 && lockSet s d b then some b else none
  | none => none

/-- A field that stores another value than the one written: LANE_DETACH_T, CAL_RETRY_MAX and UFL_CFG.THRESH (R143, R366,
R580), and a gain of HKA_CAL outside its limits, which stores the nearest limit (registers of chapter 15). -/
def clampWrite (r : RegDef) (i : Nat) (v : W32) : W32 :=
  if r.ofs = rLaneDetachT 0 then
    putFld (fLaneDetachTTUs i) v (max 1 (min 1000000 (getFld (fLaneDetachTTUs i) v)))
  else if r.ofs = rCalRetryMax then putFld fCalRetryMaxCount v (max 1 (getFld fCalRetryMaxCount v))
  else if r.ofs = rUflCfg 0 then putFld (fUflCfgThresh i) v (max 1 (getFld (fUflCfgThresh i) v))
  else if r.ofs = rHkaCal 0 then putFld (fHkaCalGain i) v (max 28672 (min 36864 (getFld (fHkaCalGain i) v)))
  else v

/-- A write to an RWS register goes to its shadow, and its group waits for a strobe (R488, R489). -/
def shadowWrite (s : State) (d : Nat) (r : RegDef) (i o : Nat) (m v : W32) : State :=
  let g := if r.ofs = rPbdTarget 0 then r.grp + i else r.grp
  let s1 := setShadow s d o (mergeBits (m &&& BitVec.ofNat 32 r.rws) (shadow s d o) v)
  setReg s1 d rUpdPending (reg s1 d rUpdPending ||| BitVec.ofNat 32 (2 ^ g))

/-- The state field of the ring whose fields the HST register at row `r`, instance `i` of die `d` holds, and the mask
of its fields that the state locks (Registers of chapter 03); none for a register without such fields. -/
def ringFields (s : State) (d : Nat) (r : RegDef) (i : Nat) : Option (Nat × Nat) :=
  if r.ofs = rHstEvrBaseLo || r.ofs = rHstEvrBaseHi then some (r.rw, getF s d fHstEvrStatState)
  else if r.ofs = rHstCqCtl 0 then some (0x1F, getF s d (fHstCrStatState i))
  else if r.ofs = rHstCrBaseLo 0 || r.ofs = rHstCrBaseHi 0 || r.ofs = rHstCqBaseLo 0 || r.ofs = rHstCqBaseHi 0 ||
      r.ofs = rHstCrShadowLo 0 || r.ofs = rHstCrShadowHi 0 then some (r.rw, getF s d (fHstCrStatState i))
  else if r.ofs = rHstSrBaseLo 0 || r.ofs = rHstSrBaseHi 0 then some (r.rw, getF s d (fHstSrStatState i))
  else none

/-- A write to an HST register (R74, R91, R622): the register with the enabled bytes replaced, and the dword written. -/
def hstWrite (s : State) (d : Nat) (r : RegDef) (i o : Nat) (v w : W32) : State :=
  if r.ofs = rHstCrCtl 0 then (if v.getLsbD 31 then crEnable d i v w s else crDisable d i v w s)
  else if r.ofs = rHstEvrCtl then (if v.getLsbD 7 then evrEnable d v w s else evrDisable d v w s)
  else if r.ofs = rHstSrCtl 0 then (if v.getLsbD 8 then srEnable i v w s else srDisable i v w s)
  else
    match ringFields s d r i with
    | some (mask, st) => ringWrite s d o r.rw mask (st ≠ rsDisabled) v w
    | none => setReg s d o v

/-- A write to a transfer channel's registers; a channel granted to a service discards it (R468, R474, R480). -/
def xfrWrite (s : State) (d : Nat) (r : RegDef) (c o : Nat) (m v : W32) : State :=
  if xferOwned s d c then s
  else if r.ofs = rXfrChCtl 0 then
    (if !m.getLsbD 31 then s else if v.getLsbD 31 then setFlag s d (fXfrChCtlPause c) true else pauseClear d c s)
  else if r.ofs = rXfrChKick 0 then (if (m &&& v).getLsbD 0 then xferKick s d c else s)
  else setCovered s d o r.cov (mergeBits (m &&& BitVec.ofNat 32 r.rw) (reg s d o) v)

/-- A write accepted by a register without a ring or channel behind it: the RW bits, CFG_CRC_REF, CAPTURE_REF, the lock
bits, UPD_STROBE, and PBD_CTL.EN (R490, R496, R498, R518). -/
def plainWrite (s : State) (d : Nat) (r : RegDef) (i o : Nat) (m v : W32) : State :=
  let rw : W32 := m &&& BitVec.ofNat 32 r.rw
  let s1 :=
    if rw = 0 then s
    else
      setCovered s d o r.cov (clampWrite r i (mergeBits rw (reg s d o) v))
  if o = rCfgCrcRef then refWritten s1 d
  else if o = rCfgCtl then (if (m &&& v).getLsbD 3 then captureRef s1 d else s1)
  else if o = rCfgLockSet then setReg s1 d rCfgLock (reg s1 d rCfgLock ||| (m &&& v &&& 0x3F))
  else if o = rUpdStrobe then issueStrobe s1 0 (m &&& v) (s.now * 256)
  else if r.ofs = rPbdCtl 0 then biasCtlWrite s1 d i (flagF s d (fPbdCtlEn i))
  else s1

/-- A dword write to a register of a die (R488, R496, R500, R502, R505).  The W1T field CAPTURE_REF acts also where a lock
discards the covered fields of its dword (R498; DEDUCED, log entry 41). -/
def dieWrite (s : State) (d : Nat) (r : RegDef) (i o be : Nat) (v : W32) : State :=
  let m := byteMask be
  match lockedBy s d r o m.toNat with
  | some b =>
    let s1 := lockViol s d 1 b o v
    if o = rCfgCtl && (m &&& v).getLsbD 3 then captureRef s1 d else s1
  | none =>
    if m &&& BitVec.ofNat 32 (r.rw ||| r.rws ||| r.wo1 ||| r.w1t) = 0 then s
    else
      let s1 := if m &&& BitVec.ofNat 32 r.cov = 0 then s else suspendCheck s d
      if r.rws ≠ 0 then shadowWrite s1 d r i o m v
      else if 0x30000 ≤ o && o < 0x38000 then hstWrite s1 d r i o (mergeBits (m &&& BitVec.ofNat 32 r.rw) (reg s1 d o) v) v
      else if 0x60000 ≤ o then xfrWrite s1 d r i o m v
      else plainWrite s1 d r i o m v

/-- The last index a doorbell slot has accepted (R70). -/
def bellIndex (s : State) (port : Nat) (kind : RingKind) (n : Nat) : Nat :=
  match kind with
  | .command => (cmdRing s port n).prod
  | .completion => (cplRing s port n).cons
  | .event => (evRing s port).cons
  | .stream => (strRing s n).prod

/-- A write to a doorbell slot (R70, R71): its index with the enabled bytes replaced. -/
def bellWrite (s : State) (port : Nat) (kind : RingKind) (n be : Nat) (w : W32) : State :=
  let v := (mergeBits (byteMask be) (BitVec.ofNat 32 (bellIndex s port kind n)) w).toNat
  match kind with
  | .command => cmdBell port n be w v s
  | .completion => cqBell port n be w v s
  | .event => evrBell port be w v s
  | .stream => srBell port n be w v s

/-- Writes the enabled bytes of a dword to memory. -/
def memDword (s : State) (g : Region) (a be : Nat) (v : W32) : State :=
  memWrite s g a (leBytes 4 (mergeBits (byteMask be) (BitVec.ofNat 32 (memNat s g a 4)) v).toNat)

/-- A write to the control page (R571, R572, R582). -/
def controlWrite (s : State) (port : Nat) (r : RegDef) (i o be : Nat) (v : W32) : State :=
  if r.wo1 ≠ 0 then ownerHashWrite s port i be v
  else if r.w1t ≠ 0 then goWrite port be v s
  else if s.ready then badWrite s port 2 1 port be (0x2000000 + o) v
  else setReg s ctlPage o (mergeBits (byteMask be &&& BitVec.ofNat 32 r.rw) (reg s ctlPage o) v)

/-- A dword write of the host with the byte enables `be` (R485, R502, R505, R506). -/
def hostDword (s : State) (port bar ofs be : Nat) (v : W32) : State :=
  if be % 16 = 0 then s
  else
    match spotOf s port bar ofs with
    | .nowhere => s
    | .zero => s
    | .register d r i _ o => dieWrite s d r i o be v
    | .bell k n => bellWrite s port k n be v
    | .h2e d e a =>
      if (engOf s d e).h2e ≠ 0 then badWrite s port bar 4 port be ofs v
      else memDword s (.engData d e) (0x100000 + a) be v
    | .h2eBell d e => h2eBell port d e be v s
    | .e2hAck d e => e2hAck d e s
    | .e2h _ _ _ => s
    | .e2hStat _ _ => s
    | .control r i o => controlWrite s port r i o be v
    | .image a => memDword s (.image port) a be v
    | .reserved d reason => badWrite s d bar reason port be ofs v

/-- What the dwords of a request of `n` dwords at an offset land on (R503). -/
def spotsOf (s : State) (port bar ofs n : Nat) : List Spot := (List.range n).map fun k => spotOf s port bar (ofs + 4 * k)

/-- A reserved location. -/
def isReserved (x : Spot) : Bool := match x with | .reserved _ _ => true | _ => false

/-- The dword accesses of one write request, in ascending address order within one tick (R503). -/
def hostDwords (port bar : Nat) : Nat → List (Nat × W32) → State → State
  | _, [], s => s
  | ofs, x :: r, s => hostDwords port bar (ofs + 4) r (hostDword s port bar ofs x.1 x.2)

/-- A write request that the device accepts now: a strobe due in this tick applies first (R491). -/
def writeRequest (touches : Bool) (port bar ofs : Nat) (dws : List (Nat × W32)) (s : State) : State :=
  let l := spotsOf s port bar ofs dws.length
  whenB (!l.contains .nowhere && l.any isReserved == touches && !strobeFirst s) s (hostDwords port bar ofs dws)

/-- REGISTER_WRITE (R485, R502, R503): a write request of one or more dwords, each with its byte enables, to locations that are
not reserved. -/
def execRegisterWrite (port bar ofs : Nat) (dws : List (Nat × W32)) (s : State) : Out :=
  onDie port s (writeRequest false port bar ofs dws)

/-- RESERVED_WRITE (R505, R506): a write request that touches a reserved location: each reserved dword is discarded and
reported, the others proceed; a dword with no byte enabled has no effect. -/
def execReservedWrite (port bar ofs : Nat) (dws : List (Nat × W32)) (s : State) : Out :=
  onDie port s (writeRequest true port bar ofs dws)

/-- A dword write through the primary function to a register of die `d`. -/
def windowWrite (port d o be : Nat) (v : W32) (s : State) : State :=
  if s.ready && port = primaryPort s && !strobeFirst s then hostDword s port 0 (0x800000 * d + o) be v else s

/-- UPD_STROBE (R490). -/
def execUpdStrobe (port d be : Nat) (v : W32) (s : State) : Out := onPort port s (windowWrite port d rUpdStrobe be v)

/-- CFG_LOCK_SET (R498). -/
def execCfgLockSet (port d be : Nat) (v : W32) (s : State) : Out := onPort port s (windowWrite port d rCfgLockSet be v)

/-- CAPTURE_REF (R496): a write of CFG_CTL that sets it. -/
def execCaptureRef (port d be : Nat) (v : W32) (s : State) : Out :=
  onPort port s fun s => whenB (bitAt be 0 && v.getLsbD 3) s (windowWrite port d rCfgCtl be v)

/-- CFG_CRC_REF_WRITE (R496). -/
def execCfgCrcRefWrite (port d be : Nat) (v : W32) (s : State) : Out := onPort port s (windowWrite port d rCfgCrcRef be v)

/-- PBD_CTL_EN_CLEAR (R518): a write of PBD_CTL that clears EN. -/
def execPbdCtlEnClear (port d p be : Nat) (v : W32) (s : State) : Out :=
  onPort port s fun s => whenB (p < 2 && bitAt be 0 && !v.getLsbD 0) s (windowWrite port d (rPbdCtl p) be v)

/-! ## Reads (R488, R502, R505) -/

/-- A register whose value may be free: PRF_STAT.TE, CAP_OLDEST, LANE_CDR. -/
def readsFree (r : RegDef) : Bool :=
  r.ofs = rPrfStat || r.ofs = rCapOldestLo 0 || r.ofs = rCapOldestHi 0 || r.ofs = rLaneCdr 0

/-- A read of a die's register: its value; the RC bits of the enabled bytes clear (R502). -/
def dieRead (s : State) (d : Nat) (r : RegDef) (i j o be : Nat) : W32 × State :=
  let f := if readsFree r then drawFree s else (0, s)
  let v := viewRow f.2 f.1.toNat d r i j o
  let clear := byteMask be &&& BitVec.ofNat 32 r.rc
  (v, if clear = 0 then f.2 else setReg f.2 d o (reg f.2 d o &&& ~~~clear))

/-- A read of the control page. -/
def controlRead (s : State) (r : RegDef) (i o : Nat) : W32 :=
  if r.ofs = rSecPlovumHash 0 then Config.plovumHash i
  else if r.ofs = rSecSerialLo then half Config.serial.toNat 0
  else if r.ofs = rSecSerialHi then half Config.serial.toNat 1
  else reg s ctlPage o

/-- The dword that a read of the host gives at a location that is not reserved (R70, R406, R502, R571); reading E2H_ACK gives
a free value. -/
def hostRead (s : State) (port bar ofs be : Nat) : W32 × State :=
  match spotOf s port bar ofs with
  | .nowhere => (0, s)
  | .zero => (0, s)
  | .register d r i j o => dieRead s d r i j o be
  | .bell k n => (BitVec.ofNat 32 (bellIndex s port k n), s)
  | .h2e d e a => (BitVec.ofNat 32 (memNat s (.engData d e) (0x100000 + a) 4), s)
  | .e2h d e a => (BitVec.ofNat 32 (memNat s (.engData d e) (0x101000 + a) 4), s)
  | .h2eBell d e => (BitVec.ofNat 32 (engOf s d e).h2e, s)
  | .e2hStat d e =>
    let n := (engOf s d e).e2h
    (BitVec.ofNat 32 (b2n (n ≠ 0) * 2 ^ 31 + n), s)
  | .e2hAck _ _ => let f := drawFree s; (f.1.setWidth 32, f.2)
  | .control r i o => (controlRead s r i o, s)
  | .image a => (BitVec.ofNat 32 (memNat s (.image port) a 4), s)
  | .reserved _ _ => (0, s)

/-- The dword accesses of one read request, in ascending address order within one tick (R503): the dwords read. -/
def hostReads (port bar : Nat) : Nat → List Nat → State → List W32 × State
  | _, [], s => ([], s)
  | ofs, be :: r, s =>
    let a := hostRead s port bar ofs be
    let b := hostReads port bar (ofs + 4) r a.2
    (a.1 :: b.1, b.2)

/-- REGISTER_READ_CLEAR (R502, R503): a read request of one or more dwords, each with its byte enables, that touches no reserved
location. -/
def execRegisterReadClear (port bar ofs : Nat) (bes : List Nat) (s : State) : Out :=
  onDie port s fun s =>
    let l := spotsOf s port bar ofs bes.length
    whenB (!l.contains .nowhere && !l.any isReserved && !bes.isEmpty) s fun s =>
      let a := hostReads port bar ofs bes s
      { a.2 with lastRead := some (.dwords a.1) }

/-- RESERVED_READ (R505): a read request that touches a reserved location is answered with Completer Abort as a whole. -/
def execReservedRead (port bar ofs : Nat) (bes : List Nat) (s : State) : Out :=
  onDie port s fun s =>
    let l := spotsOf s port bar ofs bes.length
    whenB (!l.contains .nowhere && l.any isReserved) s fun s => { s with lastRead := some .completerAbort }

/-! ## Strobes that apply (R491 to R493) -/

/-- Copies a shadow to the applied value (R488). -/
def applyShadow (s : State) (d o cov : Nat) : State := setCovered s d o cov (shadow s d o)

/-- Applies the shadows of the groups in `m` on a die: group 4 holds SHT_SLOT, groups 12 and 13 PBD_TARGET (R274,
R519). -/
def applyGroups (s : State) (d : Nat) (m : W32) : State :=
  let s1 := if m.getLsbD 4 then (List.range 4).foldl (fun s k => applyShadow s d (rShtSlot k) 0xFFFFFFFF) s else s
  (List.range 2).foldl (fun s p =>
    if m.getLsbD (12 + p) then
      biasUpdate (applyShadow s d (rPbdTarget p) 0) d p (shadow s d (rPbdTarget p)).toNat
    else s) s1

/-- A strobe that may apply on a die by physical tick `t`. -/
def strobeDue (d t : Nat) (x : Strobe) : Bool := x.dies.contains d && !x.held && (x.applyAt ≤ t || x.deferred.contains d)

/-- The strobes due on a die apply as one (R491 to R493). -/
def dieStrobe (t : Nat) (s : State) (d : Nat) : State :=
  let due := s.strobes.filter (strobeDue d t)
  if due.isEmpty then s
  else if (dieClk s d).holding && !fenced s d then
    { s with strobes := s.strobes.map fun x => if strobeDue d t x then { x with deferred := d :: x.deferred } else x }
  else
    let s0 := { s with strobes := s.strobes.map fun x =>
                  if strobeDue d t x then { x with dies := x.dies.erase d, deferred := x.deferred.filter (· ≠ d) }
                  else x }
    let m := due.foldl (fun (m : W32) x => m ||| x.groups) 0 &&& reg s d rUpdEnable
    if fenced s d || m = 0 then s0
    else
      let late := due.any fun x => x.late || x.deferred.contains d
      let src := due.foldl (fun n x => min n x.src) 2
      let at_ : Stamp := nowStamp s d - BitVec.ofNat 64 ((if late then 0 else s.now - t) * 256)
      let s1 := if reg s d rUpdPending &&& m = 0 then s0 else suspendCheck s0 d
      let s2 := applyGroups s1 d m
      let s3 := setReg s2 d rUpdPending (reg s2 d rUpdPending &&& ~~~m)
      let s4 := setF (wrapF s3 d fUpdStatCount 1) d fUpdStatSrc src
      let s5 := if late then setFlag s4 d fUpdStatLate true else s4
      let s6 := setReg (setReg s5 d rUpdLastLo (half at_.toNat 0)) d rUpdLastHi (half at_.toNat 1)
      setReg s6 d rUpdLastMask m

/-- The earliest tick at which a strobe may still apply on a die that is not on its holding clock; none while a strobe of
that tick is still to come, so that the strobes of one tick merge (R492). -/
def strobeTick (s : State) : Option Nat :=
  match (s.strobes.filter fun x => !x.held && x.dies.any fun d => !(dieClk s d).holding || !x.deferred.contains d).foldl
      (fun o x => minOpt o (some x.applyAt)) none with
  | some t => if strobeComing s t then none else some t
  | none => none

/-- UPDATE_STROBE_APPLY (R490 to R493): at the first tick boundary at or after t + 112, every die applies the strobes
of that tick. -/
def execUpdateStrobeApply (s : State) : Out :=
  .next (match strobeTick s with
    | some t =>
      whenB (!off s && t ≤ s.now) s fun s =>
        let s1 := (dies s).foldl (dieStrobe t) s
        { s1 with strobes := s1.strobes.filter fun x => !x.dies.isEmpty }
    | none => s)

end Sys2Proof.Machine
end

