-- ==== Sys2Proof/Machine/ShutterCmd.lean ====
section
/-!
DEFINITION. The Shutter commands (R239, R246, R247, R253 to R273).
-/

namespace Sys2Proof.Machine

/-! ## Lane matchers (R239, R270) -/

/-- Stage `i` of a MATCHER_LOAD payload. -/
def stagePay (p : List Byte) (i : Nat) : Stage :=
  let q := p.drop (20 * i)
  let f := fld q 18 1
  ⟨BitVec.ofNat 72 (fld q 0 9), BitVec.ofNat 72 (fld q 9 9), bitAt f 0, bitAt f 1, bitAt f 2, bits f 3 1⟩

/-- A run of more than 8 stages begins at stage `i` (R270). -/
def longRun (p : List Byte) (i : Nat) : Bool :=
  ((List.range 8).all fun k => (stagePay p (i + k)).valid && (stagePay p (i + k)).link) && (stagePay p (i + 8)).valid

def matcherLoadDef : CmdDef where
  op := 0x0401
  cls := onClass clLane
  onGroup := false
  payOk := fun _ c =>
    ((List.range 16).all fun i => pb c (20 * i + 18) < 16 && pb c (20 * i + 19) = 0) &&
      !(stagePay c.payload 15).link && !((List.range 8).any (longRun c.payload)) && c.payload.length = 320
  eff := fun c _ u s =>
    let l := laneOf s (uDie u) (uIdx u)
    let st := (List.range 16).foldl (fun t i => tset Stage.reset t i (stagePay c.payload i)) []
    (setLane s (uDie u) (uIdx u) { l with loads := l.loads ++ [(s.now, st)] }, ok)

/-- MATCHER_LOAD (R238, R239). -/
def execMatcherLoad (c : Cmd) (s : State) : Out := startCmd matcherLoadDef c s

/-! ## Negative store (R245 to R247) -/

def negUid (d : Nat) : Nat := uid d clNeg 0

/-- The class a class record defines. -/
def recClass (r : List Byte) : NegClass :=
  let b := fld r 1 1
  ⟨bitAt b 4, bitAt b 5, bits b 6 2, fld r 2 1, fld r 3 1, fld r 4 1, fld r 5 1, fld r 6 2, BitVec.ofNat 64 (fld r 8 8)⟩

/-- The fields of a record are in range (R245). -/
def recOk (r : List Byte) : Bool :=
  match fld r 0 1 with
  | 0 | 1 | 2 => fld r 1 1 < 16 && fld r 3 1 < 4 && fld r 13 3 = 0
  | 3 =>
    let k := recClass r
    k.kinds < 4 && (match k.format with
      | 0 => k.width = 0
      | 1 => 1 ≤ k.width && k.width ≤ 64 && k.arg + k.width ≤ 72 && k.mask = 0
      | 2 => 1 ≤ k.arg && k.arg ≤ 7 && k.width = 0
      | _ => false)
  | _ => false

/-- The records of a NEGSTORE_LOAD payload. -/
def records (p : List Byte) : List (List Byte) := (List.range (p.length / 16)).map fun i => (p.drop (16 * i)).take 16

/-- A class keeps its way of cutting keys. -/
def sameCut (a b : NegClass) : Bool := a.format = b.format && a.arg = b.arg && a.width = b.width && a.mask = b.mask

/-- Every lane feeds at most 4 enabled classes (R242). -/
def lanesOk (g : NegStore) : Bool :=
  (List.range 16).all fun n =>
    ((List.range 16).filter fun c => (negClass g c).enable && bitAt (negClass g c).lanes n).length ≤ 4

/-- Checks records in order against the class definitions they leave, `used` telling the classes that hold entries
(R246). -/
def checkRecs : NegStore → (Nat → Bool) → List (List Byte) → Bool
  | _, _, [] => true
  | g, used, r :: rest =>
    let c := fld r 1 1 % 16
    if !recOk r then false
    else match fld r 0 1 with
      | 1 => checkRecs g (fun k => k = c || used k) rest
      | 3 =>
        let k := recClass r
        let g1 := { g with classes := tset NegClass.reset g.classes c k }
        if used c && !sameCut (negClass g c) k then false
        else if !lanesOk g1 then false
        else checkRecs g1 used rest
      | _ => checkRecs g used rest

/-- Applies records in order until an insert fails (R246): the store, the number applied, and whether all were. -/
def applyRecs : Nat → NegStore → List (List Byte) → State → (NegStore × Nat × Bool) × State
  | n, g, [], s => ((g, n, true), s)
  | n, g, r :: rest, s =>
    let c := fld r 1 1 % 16
    let k := maskKey (negClass g c) (padTo 9 ((r.drop 4).take 9))
    match fld r 0 1 with
    | 1 =>
      match negInsert g ⟨c, k, fld r 2 1, fld r 3 1 % 4⟩ s with
      | (some g1, s1) => applyRecs (n + 1) g1 rest s1
      | (none, s1) => ((g, n, false), s1)
    | 2 => applyRecs (n + 1) (negDelete g c k) rest s
    | 3 => applyRecs (n + 1) (setClass g s.now c (recClass r)) rest s
    | _ => applyRecs (n + 1) g rest s

/-- Posts EV_NEGSTORE_LOADED (R273). -/
def negLoaded (s : State) (d applied left : Nat) : State :=
  post s d 0x0403 (negUid d) (dieTime s d) (leBytes 4 (negUsed (negOf s d)) ++ leBytes 4 applied ++ leBytes 4 left)

def negstoreLoadDef : CmdDef where
  op := 0x0402
  cls := onClass clNeg
  onGroup := false
  payOk := fun _ c =>
    c.payload.length % 16 = 0 && 1 ≤ c.payload.length / 16 && c.payload.length / 16 ≤ 4096 &&
      (records c.payload).all recOk
  eff := fun c _ u s =>
    let d := uDie u
    let g := negOf s d
    let rs := records c.payload
    if !awake s u then (s, err stBadState)
    else if !checkRecs g (fun k => g.ways.any fun w => match w.2 with | some e => e.cls = k | none => false) rs then
      (s, err stBadPayload)
    else
      let r := applyRecs 0 g rs s
      let s1 := negLoaded (setNeg r.2 d r.1.1) d r.1.2.1 (rs.length - r.1.2.1)
      (s1, .done (if r.1.2.2 then 0 else stNoResource)
        (leBytes 4 r.1.2.1 ++ leBytes 4 (if r.1.2.2 then 0xFFFFFFFF else r.1.2.1) ++ leBytes 4 (negUsed r.1.1)) 0)

/-- NEGSTORE_LOAD (R244 to R246). -/
def execNegstoreLoad (c : Cmd) (s : State) : Out := startCmd negstoreLoadDef c s

def negstoreClearDef : CmdDef where
  op := 0x0403
  cls := onClass clNeg
  onGroup := false
  payOk := fun _ c => pb c 2 < 2 && pb c 3 = 0 && restOk c 8
  eff := fun c _ u s =>
    let d := uDie u
    let g := negOf s d
    let m := fld c.payload 0 2
    let g1 := { g with ways := g.ways.filter fun w => match w.2 with | some e => !bitAt m e.cls | none => false }
    let g2 := if pb c 2 = 1 then { g1 with classes := [], past := [], seed := BitVec.ofNat 32 (fld c.payload 4 4) } else g1
    (negLoaded (setNeg s d g2) d 0 0, ok)

/-- NEGSTORE_CLEAR (R247). -/
def execNegstoreClear (c : Cmd) (s : State) : Out := startCmd negstoreClearDef c s

/-! ## Comparators (R248 to R251, R271) -/

/-- The setting of a COMPARATOR_CONFIGURE payload; for a level/edge comparator MODE is the input and LO the slope. -/
def cmpPay (c : Cmd) : CmpCfg :=
  let p := c.payload
  ⟨pb c 1 = 1, pb c 2, pb c 3, fld p 4 2, fld p 6 2, fld p 8 4, sgn 32 (fld p 8 4), fld p 12 2⟩

def comparatorConfigureDef : CmdDef where
  op := 0x0404
  cls := onClass clDie
  onGroup := false
  payOk := fun _ c =>
    let k := cmpPay c
    pb c 0 < 4 && pb c 1 < 2 && restOk c 14 &&
      (if pb c 0 < 2 then k.mode < 4 && k.lane = 0 && 1 ≤ k.minBins && k.minBins ≤ 65536 && k.hyst = 0
       else k.mode < 2 && k.lane < 16 && k.lo ≤ 2 && k.hi = 0 && -131072 ≤ k.level && k.level ≤ 131071)
  eff := fun c _ u s =>
    let d := uDie u
    let x := cmpOf s d (pb c 0)
    (setCmp s d (pb c 0)
      (if pb c 0 < 2 then { x with next := x.next ++ [(s.now, cmpPay c)] }
       else { x with cfg := cmpPay c, wasBelow := false, wasAbove := false, prev := none, found := [] }), ok)

/-- COMPARATOR_CONFIGURE (R249, R251). -/
def execComparatorConfigure (c : Cmd) (s : State) : Out := startCmd comparatorConfigureDef c s

/-! ## Sequencers (R256, R261, R262) -/

/-- The branch at offset `o` of a payload. -/
def branchPay (p : List Byte) (o : Nat) : Branch :=
  ⟨fld p o 1, fld p (o + 1) 1, fld p (o + 2) 1, fld p (o + 3) 1, fld p (o + 4) 1, fld p (o + 5) 1⟩

/-- No two-bit action of a byte is the reserved 3. -/
def actsOk (v : Nat) : Bool := (List.range 4).all fun k => bits v (2 * k) 2 ≠ 3

/-- A branch's fields are in range (R256). -/
def branchOk (p : List Byte) (o : Nat) : Bool :=
  let b := branchPay p o
  (b.trig < 128 || 0xFE ≤ b.trig) && bits b.cond 2 2 = 0 && bits b.cond 4 3 < 4 && b.action < 64 && b.event < 64 &&
    actsOk b.counters && actsOk b.timers && fld p (o + 6) 2 = 0

/-- The run that a LOAD or ARM replaces is kept while ticks before its disarm are still to be evaluated, up to 48 ticks after
them (R231, R261). -/
def keepRun (s : State) (n : Nat) : State :=
  match (seqOf s n).untilTick with
  | some u => if s.now < u + 48 then setSeq s (16 + n) (seqOf s n) else s
  | none => s

def sequencerLoadDef : CmdDef where
  op := 0x0405
  cls := onClass clSeq
  onGroup := false
  payOk := fun _ c =>
    let p := c.payload
    p.length = 576 && ((List.range 4).all fun k => fld p (16 + 4 * k) 4 ≠ 0) && allZero ((p.drop 36).take 28) &&
      ((List.range 64).all fun b => branchOk p (64 + 8 * b))
  eff := fun c _ u s =>
    let q := seqOf s (uIdx u)
    let p := c.payload
    if q.armed then (s, err stBadState)
    else
      (setSeq (keepRun s (uIdx u)) (uIdx u) { q with
        entryDue := none, untilTick := none, loaded := true, limits := (List.range 4).map fun k => fld p (4 * k) 4
        durations := (List.range 4).map fun k => fld p (16 + 4 * k) 4, holdoff := fld p 32 4
        branches := (List.range 64).map fun b => branchPay p (64 + 8 * b) }, ok)

/-- SEQUENCER_LOAD (R262). -/
def execSequencerLoad (c : Cmd) (s : State) : Out := startCmd sequencerLoadDef c s

def sequencerArmDef : CmdDef where
  op := 0x0406
  cls := onClass clSeq
  onGroup := false
  payOk := restZero 0
  eff := fun _ _ u s =>
    let q := seqOf s (uIdx u)
    if q.armed || !q.loaded then (s, err stBadState)
    else
      (setSeq (keepRun s (uIdx u)) (uIdx u) { q with
        armed := true, st := 0, counters := [0, 0, 0, 0], timers := [.idle, .idle, .idle, .idle]
        entryDue := some s.now, since := s.now, untilTick := none }, ok)

/-- SEQUENCER_ARM (R261). -/
def execSequencerArm (c : Cmd) (s : State) : Out := startCmd sequencerArmDef c s

def sequencerDisarmDef : CmdDef where
  op := 0x0407
  cls := onClass clSeq
  onGroup := false
  payOk := restZero 0
  eff := fun _ _ u s =>
    let q := seqOf s (uIdx u)
    if !q.armed then (s, err stBadState)
    else (setSeq s (uIdx u) { q with armed := false, done := false, untilTick := some s.now }, ok)

/-- SEQUENCER_DISARM (R261). -/
def execSequencerDisarm (c : Cmd) (s : State) : Out := startCmd sequencerDisarmDef c s

/-! ## Firing, pins and counters (R253, R255, R267, R272) -/

def shutterFireDef : CmdDef where
  op := 0x0408
  cls := fun k _ => k == clPackage || k == clDie
  onGroup := false
  payOk := fun s c =>
    fld c.payload 2 2 = 0 && restOk c 7 &&
      fitsSome s c fun u => if uCls u = clDie then pb c 0 < 4 else pb c 0 < 64 && fld c.payload 4 3 = 0
  eff := fun c _ u s =>
    let d := uDie u
    let t := nowStamp s d + BitVec.ofNat 64 (pb c 1)
    if uCls u = clDie then
      if 4 ≤ pb c 0 then (s, err stBadPayload)
      else (giveCand s d (0x38 + pb c 0) (fld c.payload 4 3) t t false, ok)
    else if fld c.payload 4 3 ≠ 0 then (s, err stBadPayload)
    else (issueEvent s ⟨pb c 0, t, none, false, false, 0xFF, 0xFF, 0, t, s.now * 256 + pb c 1, false⟩, ok)

/-- SHUTTER_FIRE (R255). -/
def execShutterFire (c : Cmd) (s : State) : Out := startCmd shutterFireDef c s

def triginConfigureDef : CmdDef where
  op := 0x0409
  cls := onClass clPackage
  onGroup := false
  payOk := fun _ c => pb c 0 < 4 && pb c 1 < 2 && pb c 2 ≤ 2 && pb c 3 < 16 && restOk c 4
  eff := fun c _ _ s =>
    (setTrigIn s (pb c 0) { trigInOf s (pb c 0) with
      enable := pb c 1 = 1, edge := pb c 2, filter := pb c 3, pendEdge := none }, ok)

/-- TRIGIN_CONFIGURE (R253). -/
def execTriginConfigure (c : Cmd) (s : State) : Out := startCmd triginConfigureDef c s

/-- Of a pin's configurations those that events still on their way may use: an event reaches the pin 112 ticks after its t_event
(R21), so none before the newest of at least 256 ticks ago. -/
def keepCfgs (now : Nat) : List (Nat × OutCfg) → List (Nat × OutCfg)
  | [] => []
  | g :: r => if g.1 + 256 ≤ now then [g] else g :: keepCfgs now r

def trigoutConfigureDef : CmdDef where
  op := 0x040A
  cls := onClass clPackage
  onGroup := false
  payOk := fun _ c =>
    let w := fld c.payload 4 4
    pb c 0 < 4 && pb c 1 < 4 && pb c 2 < 2 && pb c 3 = 0 && (pb c 1 ≠ 1 || (2 ≤ w && w ≤ 65535)) &&
      fld c.payload 24 4 ≤ 1048575 && restOk c 28
  eff := fun c _ _ s =>
    let p := c.payload
    let x := trigOutOf s (pb c 0)
    let g : OutCfg := ⟨pb c 1, pb c 2 = 1, fld p 4 4, BitVec.ofNat 64 (fld p 8 8), BitVec.ofNat 64 (fld p 16 8), fld p 24 4⟩
    (setTrigOut s (pb c 0) { x with
      cfgs := (s.now, g) :: keepCfgs s.now x.cfgs, idles := x.idles ++ [(s.now + 160, g.invert)] }, ok)

/-- TRIGOUT_CONFIGURE (R267). -/
def execTrigoutConfigure (c : Cmd) (s : State) : Out := startCmd trigoutConfigureDef c s

/-- A die's SHT register in the result of SHUTTER_READ_COUNTERS; those of die 0 read 0 elsewhere (R272). -/
def dieZeroReg (s : State) (d o : Nat) : List Byte := leBytes 4 (if d = 0 then (reg s 0 o).toNat else 0)

def shutterReadCountersDef : CmdDef where
  op := 0x040B
  cls := fun k i => k == clDie || k == clSeq || (k == clStream && isExpo i)
  onGroup := false
  payOk := fun _ c => pb c 0 < 2 && restOk c 1
  eff := fun c _ u s =>
    let d := uDie u
    let clear := fun (l : List Nat) => if pb c 0 = 1 then l.foldl (fun s o => setReg s d o 0) s else s
    if uCls u = clStream then
      let k := expoIdx (uIdx u)
      (clear [rShtEarly k, rShtRearmMiss k, rShtBusyMiss k],
       .done 0 (leBytes 4 (reg s d (rShtEarly k)).toNat ++ leBytes 4 (reg s d (rShtRearmMiss k)).toNat ++
         leBytes 4 (reg s d (rShtBusyMiss k)).toNat) 0)
    else if uCls u = clSeq then (s, .done 0 (counterBytes (seqOf s (uIdx u))) 0)
    else
      (if d = 0 then clear [rShtCandLate, rShtMerged, rShtOutDrop] else s,
       .done 0 (dieZeroReg s d rShtCandLate ++ dieZeroReg s d rShtMerged ++ dieZeroReg s d rShtOutDrop ++
         leBytes 4 (negUsed (negOf s d))) 0)

/-- SHUTTER_READ_COUNTERS (R272). -/
def execShutterReadCounters (c : Cmd) (s : State) : Out := startCmd shutterReadCountersDef c s

end Sys2Proof.Machine
end

