-- ==== Sys2Proof/Machine/Fetch.lean ====
section
/-!
DEFINITION. Fetching commands from the rings (R79, R80, R84), scheduled commands (R81) and TIMEOUT (R83).
-/

namespace Sys2Proof.Machine

/-! ## The opcodes (R78, R98) -/

/-- The commands of the unit tree and the lanes. -/
def cmdTableA : List CmdDef :=
  [unitEnumerateDef, unitQueryDef, unitWakeDef, unitSleepDef, unitClearFaultDef, groupCreateDef, groupAddDef, groupRemoveDef,
   groupDeleteDef, groupListDef, laneConfigureDef, laneSetFramerDef, laneSetEqualiserDef, laneAdaptDef, laneDeskewDef,
   monitorSweepDef, laneReadStatusDef]

/-- The commands of the clocks and of capture. -/
def cmdTableB : List CmdDef :=
  [pllConfigureDef, pllStepDef, refoutStartDef, refoutStopDef, timeReadDef, syncArmDef, refSetModeDef, tdcArmDef, tdcReadDef,
   captureConfigureDef, captureArmDef, captureDisarmDef, rollStartDef, rollStopDef, spoolAllocateDef, streamBindDef,
   streamUnbindDef, blockResendDef, markInsertDef, rateLimitSetDef, recordReadDef]

/-- The commands of the Shutter, the chains, the Densitometer and calibration. -/
def cmdTableC : List CmdDef :=
  [matcherLoadDef, negstoreLoadDef, negstoreClearDef, comparatorConfigureDef, sequencerLoadDef, sequencerArmDef,
   sequencerDisarmDef, shutterFireDef, triginConfigureDef, trigoutConfigureDef, shutterReadCountersDef, chainConfigureDef,
   chainSelectLaneDef, chainStartDef, chainStopDef, maskLoadDef, dcblockFreezeDef, measureConfigureDef, sheetConfigureDef,
   sheetClearDef, sheetExportDef, calConfigureDef, calLoadDef, calSaveDef, calHoldDef]

/-- The commands of the engines, services and the transfer engine. -/
def cmdTableD : List CmdDef :=
  [imageLoadDef, imageUnloadDef, engineStartDef, engineStopDef, engineReadStateDef, serviceStartDef, serviceStopDef,
   serviceQueryDef, volumeCreateDef, volumeCloseDef, xferLoadDef, xferStartDef, xferPauseDef, xferResumeDef, xferResetDef]

/-- The commands of the probe and Proof ports, power, repair and security, and PORT_ECHO. -/
def cmdTableE : List CmdDef :=
  [eepromReadDef, biasConfigureDef, biasSetDef, pwmConfigureDef, hkadcConfigureDef, calDef false, calDef true, proofConfigureDef,
   layerConfigureDef, paletteLoadDef, regionPushDef, prfCommitDef, repairApplyDef, repairReadDef, healthReadDef,
   safelightEnterDef, safelightExitDef, thermalConfigureDef, attestDef, certReadDef, measurementReadDef, portEchoDef]

/-- The index of R98. -/
def cmdTable : List CmdDef := cmdTableA ++ cmdTableB ++ cmdTableC ++ cmdTableD ++ cmdTableE

def opDef (op : Nat) : Option CmdDef := cmdTable.find? fun df => df.op == op

/-! ## Fetching (R77, R79, R80, R84) -/

/-- The descriptor that stands at index `i` of command ring `n` of port `p`, without its extended payload (R77). -/
def descBytes (s : State) (p n i : Nat) : List Byte :=
  memRead s (.host p) (pairAddr s p (rHstCrBaseLo n) (rHstCrBaseHi n) + 64 * i) 64

def descCmd (b : List Byte) (p n : Nat) : Cmd :=
  ⟨p, n, BitVec.ofNat 32 (fld b 4 4), fld b 2 2, fld b 8 4, fld b 12 4, fld b 16 8, (b.drop 24).take 40⟩

/-- The ring has a command that may be fetched: it runs, holds an unread entry, its completion ring has a free slot
(R80), and neither an ORDERED command (R77) nor a scheduled one that is due first (R79) stands in the way. -/
def ringWork (s : State) (p n : Nat) : Bool :=
  let i := getF s p (fHstCrStatIndex n)
  let c := descCmd (descBytes s p n i) p n
  getF s p (fHstCrStatState n) = rsRunning && i ≠ (cmdRing s p n).prod && cplFree s p n && orderOk s c && !dueFirst s c &&
    !strobeFirst s

/-- The ring the port fetches from: the highest PRIO with work, and the next after the last one among equals (R79). -/
def pickRing (s : State) (p : Nat) : Option Nat :=
  let last := tget 63 s.host.lastRing p
  let ring := fun k => (last + 1 + k) % 64
  (List.range 64).foldl (fun best k =>
    let n := ring k
    if !ringWork s p n then best
    else match best with
      | none => some n
      | some b => if getF s p (fHstCrCtlPrio b) < getF s p (fHstCrCtlPrio n) then some n else best) none

/-- The extended payload pointer is well formed (R77). -/
def extOkForm (c : Cmd) : Bool :=
  let len := fld c.payload 8 4
  fld c.payload 0 8 % 8 = 0 && 8 ≤ len && len ≤ 65536 && len % 8 = 0 && zeroFrom c.payload 12

/-- The command with its extended payload read from host memory (R77, R84). -/
def withExt (s : State) (c : Cmd) : Cmd :=
  { c with payload := memRead s (.host c.port) (fld c.payload 0 8) (fld c.payload 8 4) }

/-- Checks 2 to 4 of R78, which precede the reading of an extended payload. -/
def checkHead (df : CmdDef) (c : Cmd) (s : State) : Option Nat :=
  checkCmd { df with payOk := fun _ _ => true } c s

/-- A fetched command runs: BAD_OPCODE (R78), else its checks, with the extended payload read in full before the start
(R84). -/
def runFetched (op : Nat) (c : Cmd) (extOk : Bool) (s : State) : State :=
  match opDef op with
  | none => writeCpl s c stBadOpcode false [] (unitTime s c.unit)
  | some df =>
    if !bitAt c.flags 0 then beginCmd df c s
    else match checkHead df c s with
      | some st => failCmd df c st s
      | none =>
        if !extOkForm c then failCmd df c stBadPayload s
        else if !extOk then failCmd df c stHostReadError s
        else beginCmd df (withExt s c) s

/-- Fetches one command of a ring: the index moves, and its copy in host memory follows (R80). -/
def fetchFrom (s : State) (p n : Nat) (extOk : Bool) : State :=
  let i := getF s p (fHstCrStatIndex n)
  let b := descBytes s p n i
  let j := if i + 1 = ringDepth (getF s p (fHstCrCtlLog2Depth n)) then 0 else i + 1
  let s1 := setF { s with host := { s.host with lastRing := tset 63 s.host.lastRing p n } } p (fHstCrStatIndex n) j
  let a := pairAddr s p (rHstCrShadowLo n) (rHstCrShadowHi n)
  let s2 := if a = 0 then s1 else hostWrite s1 p a (leBytes 4 j)
  runFetched (fld b 0 2) (descCmd b p n) extOk s2

/-- COMMAND_FETCH (R79, R80, R84): the port reads its next command; `descOk` and `extOk` tell whether the reads of the
descriptor and of its extended payload succeed. -/
def execCommandFetch (port : Nat) (descOk extOk : Bool) (s : State) : Out :=
  onDie port s fun s =>
    whenB (s.ready && isPort s port && hostReadable s port && awake s (portUid port)) s fun s =>
      match pickRing s port with
      | none => s
      | some n => if descOk then fetchFrom s port n extOk else cmdRingError s port 1 n 2

/-! ## Scheduled commands (R79, R81) -/

/-- One waiting command takes effect before another: by effect time, ring order, die of the port, ring (R79). -/
def schedBefore (f g : Flight) : Bool :=
  let a := f.sched.getD 0
  let b := g.sched.getD 0
  if a ≠ b then a < b
  else if f.cmd.port ≠ g.cmd.port then f.cmd.port < g.cmd.port
  else if f.cmd.ring ≠ g.cmd.ring then f.cmd.ring < g.cmd.ring
  else f.id < g.id

/-- The scheduled command that takes effect next. -/
def nextSched (s : State) : Option Flight :=
  (s.host.flights.filter fun f => f.sched.isSome).foldl
    (fun o f => match o with | none => some f | some g => if schedBefore f g then some f else o) none

/-- APPLY_AT_REACHED (R79, R81): the earliest scheduled command takes effect on its units. -/
def execApplyAtReached (s : State) : Out :=
  .next (match nextSched s with
    | none => s
    | some f =>
      whenB (f.sched.getD 0 ≤ s.now && !strobeFirst s) s fun s =>
        match opDef f.op with
        | some df => runFlight df f.id (setFlight s { f with sched := none })
        | none => dropFlight s f.id)

/-- Group commands under policy STOP go on to their next unit once the last one's outcome is known (R49).  Whether they are late
is judged at APPLY_AT and not again (DESIGN CHOICE, log entry 136). -/
def continueGroups (s : State) : State :=
  s.host.flights.foldl (fun s g =>
    match findFlight s g.id with
    | some f =>
      if f.sched.isNone && f.waits.isEmpty && !f.todo.isEmpty then
        (match opDef f.op with | some df => runFlight df f.id s | none => s)
      else s
    | none => s) s

/-! ## TIMEOUT (R83) -/

/-- A command or another unit still wants the unit to start. -/
def startWanted (s : State) (u : Nat) : Bool :=
  ((unitOf s u).waiters.any fun w => w.wake) ||
    (dependents s u).any fun r => starting (unitOf s r) || ((unitOf s r).held.any fun h => h.wake)

/-- A command or another unit still wants the unit to stop. -/
def stopWanted (s : State) (u : Nat) : Bool :=
  ((unitOf s u).waiters.any fun w => !w.wake) || (deps s u).any fun r => stopping (unitOf s r)

/-- A held wake or sleep that no command waits for goes when no other unit wants it any more. -/
def dropHeld (wake : Bool) (s : State) (u : Nat) : State :=
  let x := unitOf s u
  match x.held with
  | some h =>
    if h.wake = wake && h.fid.isNone && !(if wake then startWanted s u else stopWanted s u) then
      setUnit s u { x with held := none }
    else s
  | none => s

/-- A start that has not begun, that no command and no dependent waits for, is not taken; nor are those it asked for.
A sleep held behind it finds the unit ASLEEP, and what waited for the unit to sleep goes on. -/
def dropStart : Nat → Nat → State → State
  | 0, _, s => s
  | n + 1, u, s =>
    let x := unitOf s u
    if x.pw == .asleep && x.wantStart && !startWanted s u then
      let s1 := setUnit s u { x with wantStart := false, powering := false, firm := false, ev := false, hostWoken := false }
      let s2 := (deps s u).foldl (fun s r => dropStart n r (dropHeld true s r)) s1
      (deps s u).foldl tryStop (runHeld s2 u)
    else s

/-- As `dropStart`, for a stop; starts that waited behind it go on. -/
def dropStop : Nat → Nat → State → State
  | 0, _, s => s
  | n + 1, u, s =>
    let x := unitOf s u
    if x.pw == .awake && x.wantStop && !stopWanted s u then
      let s1 := setUnit s u { x with wantStop := false, ev := false }
      (dependents s u).foldl tryStart (runHeld ((dependents s u).foldl (fun s r => dropStop n r (dropHeld false s r)) s1) u)
    else s

/-- A wake or sleep of a unit is given up by its command (R83, R44); of the package, every stop it asked for. -/
def dropPower (s : State) (id u : Nat) : State :=
  let x := unitOf s u
  let h : Option Held := match x.held with
    | some h =>
      if h.fid ≠ some id then some h
      else if x.firm && (deps s u).any fun r => (unitOf s r).wantStop then some ⟨false, none, h.ev⟩
      else none
    | none => none
  let s1 := setUnit s u { x with held := h, waiters := x.waiters.filter fun w => w.fid ≠ id }
  let us := if u = pkgUid && !((unitOf s1 u).waiters.any fun w => !w.wake) then (allUnits s).reverse else [u]
  us.foldl (fun s r => dropStop depth r (dropStart depth r (if u = pkgUid then dropHeld false s r else s))) s1

/-- A command on one unit has timed out: the steps it has not begun are not taken (R83). -/
def dropSteps (s : State) (op id u : Nat) : State :=
  let d := uDie u
  let i := uIdx u
  match op with
  | 0x0003 => dropPower s id u
  | 0x0004 => dropPower s id u
  | 0x0105 =>
    let s1 := (List.range 16).foldl (fun s n =>
      setLane s d n { laneOf s d n with delays := (laneOf s d n).delays.filter fun a => a.fid ≠ id }) s
    if ((dieClk s1 d).autoDeskew.any fun a => a.fid = id) then setDieClk s1 d { dieClk s1 d with autoDeskew := none } else s1
  | 0x0203 =>
    let r := s.clk.refOut
    let l := r.startFids.filter (· ≠ id)
    setRefOut s { r with startFids := l, startDue := r.startDue && !l.isEmpty }
  | 0x0204 =>
    let r := s.clk.refOut
    let l := r.stopFids.filter (· ≠ id)
    setRefOut s { r with stopFids := l, stopDue := r.stopDue && !l.isEmpty }
  | 0x0309 => setStream s d i { streamOf s d i with resends := (streamOf s d i).resends.filter fun a => a.fid ≠ id }
  | 0x0604 =>
    [0, 1].foldl (fun s k =>
      match (accOf s d k).exporting with
      | some x => if x.fid = id then setAcc s d k { accOf s d k with exporting := none, blank := true } else s
      | none => s) s
  | 0x0804 =>
    let x := engOf s d i
    let l := x.stopFids.filter (· ≠ id)
    setEng s d i { x with stopFids := l, stopPoint := x.stopPoint && (!l.isEmpty || x.slot.isSome) }
  | 0x0902 =>
    (List.range 8).foldl (fun s k =>
      let x := svcOf s d k
      let l := x.stopFids.filter fun f => f.1 ≠ id
      if l.length = x.stopFids.length then s
      else setSvc s d k { x with stopFids := l, drain := if l.isEmpty then [] else x.drain }) s
  | 0x0904 => volumeCut s d id
  | 0x0905 => volumeCut s d id
  | 0x0A03 => setXfer s d i { xferOf s d i with pauseFids := (xferOf s d i).pauseFids.filter (· ≠ id) }
  | 0x0A05 => setXfer s d i { xferOf s d i with resetFids := (xferOf s d i).resetFids.filter (·.1 ≠ id) }
  | 0x0B01 => setProbe s d i { probeOf s d i with read := none }
  | 0x0B02 => biasCut s d i id
  | 0x0B06 => hkCalCut s d id
  | 0x0B07 => hkCalCut s d id
  | 0x0B04 =>
    let w := pwmOf s d i
    let l := w.fids.filter (· ≠ id)
    setPwm s d i { w with fids := l, next := if l.isEmpty then none else w.next }
  | 0x0C01 =>
    let x := s.prf
    let s1 := setPrf s { x with configs := x.configs.filter fun q => q.1 ≠ id }
    if x.running = some id then proofApply (setPrf s1 { s1.prf with
      running := none, init := if x.waitAt.isSome then x.init.take 1 else [] })
    else s1
  | 0x0D01 =>
    let s1 := (List.range 16).foldl (fun s e =>
      match (engOf s d e).swap with
      | some w => if w.fid = id && !((engOf s d e).st == .swapping) then setEng s d e { engOf s d e with swap := none } else s
      | none => s) s
    { s1 with pwr := { s1.pwr with swaps := s1.pwr.swaps.filter fun w => !(w.kind = 5 && w.fid.map (·.1) = some id) } }
  | 0x0D06 =>
    (dies s).foldl (fun s d =>
      let x := diePwr s d
      let l := x.thermFids.filter fun f => f.1 ≠ id
      if l.length = x.thermFids.length then s
      else setDiePwr s d { x with thermFids := l, thermal := if l.isEmpty then none else x.thermal }) s
  | _ => s

/-- COMMAND_TIMEOUT (R83): the TIMEOUT of an open command has run out, and its last tick has passed, for an outcome in
that tick comes first.  The completion's TIME is that of the command's last effect (R85, log entry 48). -/
def execCommandTimeout (id : Nat) (s : State) : Out :=
  .next (match findFlight s id with
    | none => s
    | some f =>
      match f.deadline with
      | none => s
      | some t =>
        whenB (f.sched.isNone && t < s.now) s fun s =>
          let s1 := f.waits.foldl (fun s u => dropSteps s f.op id u) s
          let u := f.waits.headD f.cmd.unit
          let at_ := tickAt s1 (if targetDie u < nDies s1 then targetDie u else 0) t
          finishFlight s1 { f with
            worst := stTimedOut, worstUnit := u, result := [], time := if f.acted then f.time else at_ } stTimedOut)

end Sys2Proof.Machine
end

