-- ==== Sys2Proof/Machine/Tap.lean ====
section
/-!
DEFINITION. The IEEE 1149.1 TAP of die 0 (R607) and what one tick brings when no command waits.
-/

namespace Sys2Proof.Machine

/-! ## The TAP (R607) -/

/-- The state after a rising edge of TCK, by TMS (IEEE 1149.1). -/
def tapNext : TapSt → Bool → TapSt
  | .testLogicReset, tms => if tms then .testLogicReset else .runTestIdle
  | .runTestIdle, tms => if tms then .selectDr else .runTestIdle
  | .selectDr, tms => if tms then .selectIr else .captureDr
  | .captureDr, tms => if tms then .exit1Dr else .shiftDr
  | .shiftDr, tms => if tms then .exit1Dr else .shiftDr
  | .exit1Dr, tms => if tms then .updateDr else .pauseDr
  | .pauseDr, tms => if tms then .exit2Dr else .pauseDr
  | .exit2Dr, tms => if tms then .updateDr else .shiftDr
  | .updateDr, tms => if tms then .selectDr else .runTestIdle
  | .selectIr, tms => if tms then .testLogicReset else .captureIr
  | .captureIr, tms => if tms then .exit1Ir else .shiftIr
  | .shiftIr, tms => if tms then .exit1Ir else .shiftIr
  | .exit1Ir, tms => if tms then .updateIr else .pauseIr
  | .pauseIr, tms => if tms then .exit2Ir else .pauseIr
  | .exit2Ir, tms => if tms then .updateIr else .shiftIr
  | .updateIr, tms => if tms then .selectDr else .runTestIdle

/-- The instruction a code selects: all ones is BYPASS (PRESUMED, IEEE 1149.1); the spec gives no other code. -/
def tapOpOf (code : Nat) : TapOp :=
  if code = 0xFF then .bypass
  else match Config.tapCode code % 5 with
    | 0 => .samplePreload
    | 1 => .extest
    | 2 => .clamp
    | 3 => .highz
    | _ => .bypass

/-- The boundary register stands between TDI and TDO. -/
def onBoundary (x : TapReg) : Bool := x.op == .samplePreload || x.op == .extest

/-- The covered outputs are controlled by the TAP (R607). -/
def tapControls (s : State) : Bool := s.tap.op == .extest || s.tap.op == .clamp || s.tap.op == .highz

/-- Draws `n` free bits. -/
def freeBits : Nat → State → List Bool × State
  | 0, s => ([], s)
  | n + 1, s =>
    let a := drawFree s
    let b := freeBits n a.2
    (a.1.getLsbD 0 :: b.1, b.2)

/-- A shift register of the TAP takes TDI at its far end. -/
def shiftIn (tdi : Bool) (l : List Bool) : List Bool := if l.isEmpty then [] else l.drop 1 ++ [tdi]

/-- A rising edge of TCK: what the state captures or shifts, then the next state. -/
def tapRise (tms tdi : Bool) (s : State) : State :=
  let x := s.tap
  let a : TapReg × State := match x.st with
    | .captureIr =>
      let v := drawFree s
      ({ x with ir := 4 * (v.1.toNat % 64) + 1 }, v.2)
    | .shiftIr => ({ x with ir := x.ir / 2 + 128 * b2n tdi }, s)
    | .captureDr =>
      if onBoundary x then
        let v := freeBits Config.boundaryCells s
        ({ x with cells := v.1 }, v.2)
      else ({ x with bypass := false }, s)
    | .shiftDr => (if onBoundary x then { x with cells := shiftIn tdi x.cells } else { x with bypass := tdi }, s)
    | _ => (x, s)
  { a.2 with tap := { a.1 with st := tapNext x.st tms } }

/-- A falling edge of TCK: updates take effect, and TDO moves. -/
def tapFall (s : State) : State :=
  let x := s.tap
  let y : TapReg := match x.st with
    | .testLogicReset => { x with op := .bypass }
    | .updateIr => { x with op := tapOpOf x.ir }
    | .updateDr => if onBoundary x then { x with held := x.cells } else x
    | _ => x
  let out : Option Bool := match x.st with
    | .shiftIr => some (bitAt x.ir 0)
    | .shiftDr => some (if onBoundary x then x.cells.headD tdiThrough else x.bypass)
    | _ => none
  { s with tap := { y with tdo := out } }
where
  /-- What an empty boundary register would show. -/
  tdiThrough : Bool := false

/-- TAP_TCK_EDGE (R607): needs VDDIO on die 0; RESET_N does not matter. -/
def execTapTckEdge (rising tms tdi : Bool) (s : State) : Out :=
  .next (whenB (!(railOf s 0 10).out) s fun s => if rising then tapRise tms tdi s else tapFall s)

/-! ## A tick without a command -/

/-- Reports and effects that wait for time to pass and have no row of their own. -/
def settleTick (s : State) : State :=
  let s1 := (dies s).foldl (fun s d => hkReport (reportLock (reportBad s d) d) d) s
  let s2 := (dies s).foldl (fun s d => (List.range 8).foldl (fun s k => svcDrain s d k) s) (calSyncAll s1)
  continueGroups (tapsDue (tellEvents s2))

/-- One tick passes (log entry 5). -/
def idleTick (s : State) : State :=
  let s1 := { s with now := s.now + 1 }
  if off s then s1 else settleTick s1

end Sys2Proof.Machine
end

