-- ==== Sys2Proof/Machine/Dispatch.lean ====
section
/-!
DEFINITION. The dispatch: one arm per command, each a direct call of that command's meaning.
-/

namespace Sys2Proof.Machine

/-- A command's effect on everything but the queue. -/
def exec (i : Instr) (s : State) : Host.Outcome State Fault Refusal :=
  match i with
  | .unitEnumerate c => Sys2Proof.Machine.execUnitEnumerate c s
  | .unitQuery c => Sys2Proof.Machine.execUnitQuery c s
  | .unitWake c => Sys2Proof.Machine.execUnitWake c s
  | .unitSleep c => Sys2Proof.Machine.execUnitSleep c s
  | .unitClearFault c => Sys2Proof.Machine.execUnitClearFault c s
  | .groupCreate c => Sys2Proof.Machine.execGroupCreate c s
  | .groupAdd c => Sys2Proof.Machine.execGroupAdd c s
  | .groupRemove c => Sys2Proof.Machine.execGroupRemove c s
  | .groupDelete c => Sys2Proof.Machine.execGroupDelete c s
  | .groupList c => Sys2Proof.Machine.execGroupList c s
  | .laneConfigure c => Sys2Proof.Machine.execLaneConfigure c s
  | .laneSetFramer c => Sys2Proof.Machine.execLaneSetFramer c s
  | .laneSetEqualiser c => Sys2Proof.Machine.execLaneSetEqualiser c s
  | .laneAdapt c => Sys2Proof.Machine.execLaneAdapt c s
  | .laneDeskew c => Sys2Proof.Machine.execLaneDeskew c s
  | .monitorSweep c => Sys2Proof.Machine.execMonitorSweep c s
  | .laneReadStatus c => Sys2Proof.Machine.execLaneReadStatus c s
  | .pllConfigure c => Sys2Proof.Machine.execPllConfigure c s
  | .pllStep c => Sys2Proof.Machine.execPllStep c s
  | .refoutStart c => Sys2Proof.Machine.execRefoutStart c s
  | .refoutStop c => Sys2Proof.Machine.execRefoutStop c s
  | .timeRead c => Sys2Proof.Machine.execTimeRead c s
  | .syncArm c => Sys2Proof.Machine.execSyncArm c s
  | .refSetMode c => Sys2Proof.Machine.execRefSetMode c s
  | .tdcArm c => Sys2Proof.Machine.execTdcArm c s
  | .tdcRead c => Sys2Proof.Machine.execTdcRead c s
  | .captureConfigure c => Sys2Proof.Machine.execCaptureConfigure c s
  | .captureArm c => Sys2Proof.Machine.execCaptureArm c s
  | .captureDisarm c => Sys2Proof.Machine.execCaptureDisarm c s
  | .rollStart c => Sys2Proof.Machine.execRollStart c s
  | .rollStop c => Sys2Proof.Machine.execRollStop c s
  | .spoolAllocate c => Sys2Proof.Machine.execSpoolAllocate c s
  | .streamBind c => Sys2Proof.Machine.execStreamBind c s
  | .streamUnbind c => Sys2Proof.Machine.execStreamUnbind c s
  | .blockResend c => Sys2Proof.Machine.execBlockResend c s
  | .markInsert c => Sys2Proof.Machine.execMarkInsert c s
  | .rateLimitSet c => Sys2Proof.Machine.execRateLimitSet c s
  | .recordRead c => Sys2Proof.Machine.execRecordRead c s
  | .matcherLoad c => Sys2Proof.Machine.execMatcherLoad c s
  | .negstoreLoad c => Sys2Proof.Machine.execNegstoreLoad c s
  | .negstoreClear c => Sys2Proof.Machine.execNegstoreClear c s
  | .comparatorConfigure c => Sys2Proof.Machine.execComparatorConfigure c s
  | .sequencerLoad c => Sys2Proof.Machine.execSequencerLoad c s
  | .sequencerArm c => Sys2Proof.Machine.execSequencerArm c s
  | .sequencerDisarm c => Sys2Proof.Machine.execSequencerDisarm c s
  | .shutterFire c => Sys2Proof.Machine.execShutterFire c s
  | .triginConfigure c => Sys2Proof.Machine.execTriginConfigure c s
  | .trigoutConfigure c => Sys2Proof.Machine.execTrigoutConfigure c s
  | .shutterReadCounters c => Sys2Proof.Machine.execShutterReadCounters c s
  | .chainConfigure c => Sys2Proof.Machine.execChainConfigure c s
  | .chainSelectLane c => Sys2Proof.Machine.execChainSelectLane c s
  | .chainStart c => Sys2Proof.Machine.execChainStart c s
  | .chainStop c => Sys2Proof.Machine.execChainStop c s
  | .maskLoad c => Sys2Proof.Machine.execMaskLoad c s
  | .dcblockFreeze c => Sys2Proof.Machine.execDcblockFreeze c s
  | .measureConfigure c => Sys2Proof.Machine.execMeasureConfigure c s
  | .sheetConfigure c => Sys2Proof.Machine.execSheetConfigure c s
  | .sheetClear c => Sys2Proof.Machine.execSheetClear c s
  | .sheetExport c => Sys2Proof.Machine.execSheetExport c s
  | .calConfigure c => Sys2Proof.Machine.execCalConfigure c s
  | .calLoad c => Sys2Proof.Machine.execCalLoad c s
  | .calSave c => Sys2Proof.Machine.execCalSave c s
  | .calHold c => Sys2Proof.Machine.execCalHold c s
  | .imageLoad c => Sys2Proof.Machine.execImageLoad c s
  | .imageUnload c => Sys2Proof.Machine.execImageUnload c s
  | .engineStart c => Sys2Proof.Machine.execEngineStart c s
  | .engineStop c => Sys2Proof.Machine.execEngineStop c s
  | .engineReadState c => Sys2Proof.Machine.execEngineReadState c s
  | .serviceStart c => Sys2Proof.Machine.execServiceStart c s
  | .serviceStop c => Sys2Proof.Machine.execServiceStop c s
  | .serviceQuery c => Sys2Proof.Machine.execServiceQuery c s
  | .volumeCreate c => Sys2Proof.Machine.execVolumeCreate c s
  | .volumeClose c => Sys2Proof.Machine.execVolumeClose c s
  | .xferLoad c => Sys2Proof.Machine.execXferLoad c s
  | .xferStart c => Sys2Proof.Machine.execXferStart c s
  | .xferPause c => Sys2Proof.Machine.execXferPause c s
  | .xferResume c => Sys2Proof.Machine.execXferResume c s
  | .xferReset c => Sys2Proof.Machine.execXferReset c s
  | .eepromRead c => Sys2Proof.Machine.execEepromRead c s
  | .biasConfigure c => Sys2Proof.Machine.execBiasConfigure c s
  | .biasSet c => Sys2Proof.Machine.execBiasSet c s
  | .pwmConfigure c => Sys2Proof.Machine.execPwmConfigure c s
  | .hkadcConfigure c => Sys2Proof.Machine.execHkadcConfigure c s
  | .hkaCalZero c => Sys2Proof.Machine.execHkaCalZero c s
  | .hkaCalFs c => Sys2Proof.Machine.execHkaCalFs c s
  | .proofConfigure c => Sys2Proof.Machine.execProofConfigure c s
  | .layerConfigure c => Sys2Proof.Machine.execLayerConfigure c s
  | .paletteLoad c => Sys2Proof.Machine.execPaletteLoad c s
  | .regionPush c => Sys2Proof.Machine.execRegionPush c s
  | .prfCommit c => Sys2Proof.Machine.execPrfCommit c s
  | .repairApply c => Sys2Proof.Machine.execRepairApply c s
  | .repairRead c => Sys2Proof.Machine.execRepairRead c s
  | .healthRead c => Sys2Proof.Machine.execHealthRead c s
  | .safelightEnter c => Sys2Proof.Machine.execSafelightEnter c s
  | .safelightExit c => Sys2Proof.Machine.execSafelightExit c s
  | .thermalConfigure c => Sys2Proof.Machine.execThermalConfigure c s
  | .attest c => Sys2Proof.Machine.execAttest c s
  | .certRead c => Sys2Proof.Machine.execCertRead c s
  | .measurementRead c => Sys2Proof.Machine.execMeasurementRead c s
  | .portEcho c => Sys2Proof.Machine.execPortEcho c s
  | .commandFetch port descOk extOk => Sys2Proof.Machine.execCommandFetch port descOk extOk s
  | .applyAtReached => Sys2Proof.Machine.execApplyAtReached s
  | .commandTimeout id => Sys2Proof.Machine.execCommandTimeout id s
  | .cmdDoorbell port n v => Sys2Proof.Machine.execCmdDoorbell port n v s
  | .cqDoorbell port n v => Sys2Proof.Machine.execCqDoorbell port n v s
  | .evrDoorbell port v => Sys2Proof.Machine.execEvrDoorbell port v s
  | .srDoorbell port r v => Sys2Proof.Machine.execSrDoorbell port r v s
  | .cmdRingEnable port n v => Sys2Proof.Machine.execCmdRingEnable port n v s
  | .cmdRingDisable port n v => Sys2Proof.Machine.execCmdRingDisable port n v s
  | .eventRingEnable port v => Sys2Proof.Machine.execEventRingEnable port v s
  | .eventRingDisable port v => Sys2Proof.Machine.execEventRingDisable port v s
  | .streamRingEnable r v => Sys2Proof.Machine.execStreamRingEnable r v s
  | .streamRingDisable r v => Sys2Proof.Machine.execStreamRingDisable r v s
  | .ringDrainDone kind port n => Sys2Proof.Machine.execRingDrainDone kind port n s
  | .eventRelease => Sys2Proof.Machine.execEventRelease s
  | .eventLateArrival k => Sys2Proof.Machine.execEventLateArrival k s
  | .irqTimerExpiry kind port n => Sys2Proof.Machine.execIrqTimerExpiry kind port n s
  | .envelopeDeliver r readOk => Sys2Proof.Machine.execEnvelopeDeliver r readOk s
  | .srFlushTimeout r => Sys2Proof.Machine.execSrFlushTimeout r s
  | .registerWrite port bar ofs dws => Sys2Proof.Machine.execRegisterWrite port bar ofs dws s
  | .registerReadClear port bar ofs bes => Sys2Proof.Machine.execRegisterReadClear port bar ofs bes s
  | .reservedRead port bar ofs bes => Sys2Proof.Machine.execReservedRead port bar ofs bes s
  | .reservedWrite port bar ofs dws => Sys2Proof.Machine.execReservedWrite port bar ofs dws s
  | .updStrobe port d be v => Sys2Proof.Machine.execUpdStrobe port d be v s
  | .updateStrobeApply => Sys2Proof.Machine.execUpdateStrobeApply s
  | .cfgLockSet port d be v => Sys2Proof.Machine.execCfgLockSet port d be v s
  | .captureRef port d be v => Sys2Proof.Machine.execCaptureRef port d be v s
  | .cfgCrcRefWrite port d be v => Sys2Proof.Machine.execCfgCrcRefWrite port d be v s
  | .cfgCrcPassEnd d => Sys2Proof.Machine.execCfgCrcPassEnd d s
  | .secOwnerHashWrite port n be v => Sys2Proof.Machine.execSecOwnerHashWrite port n be v s
  | .go port be v => Sys2Proof.Machine.execGo port be v s
  | .h2eBell port d e v => Sys2Proof.Machine.execH2eBell port d e v s
  | .e2hAck port d e => Sys2Proof.Machine.execE2hAck port d e s
  | .xfrChKick port d c be v => Sys2Proof.Machine.execXfrChKick port d c be v s
  | .pauseSet port d c v => Sys2Proof.Machine.execPauseSet port d c v s
  | .pauseClear port d c v => Sys2Proof.Machine.execPauseClear port d c v s
  | .pbdCtlEnClear port d p be v => Sys2Proof.Machine.execPbdCtlEnClear port d p be v s
  | .resetNAssert => Sys2Proof.Machine.execResetNAssert s
  | .resetNRelease straps hot => Sys2Proof.Machine.execResetNRelease straps hot s
  | .railCheckTimeout d => Sys2Proof.Machine.execRailCheckTimeout d s
  | .crsEnd port => Sys2Proof.Machine.execCrsEnd port s
  | .bootVerifyDone => Sys2Proof.Machine.execBootVerifyDone s
  | .bootComplete failed bist => Sys2Proof.Machine.execBootComplete failed bist s
  | .perstAssert port => Sys2Proof.Machine.execPerstAssert port s
  | .perstRelease port => Sys2Proof.Machine.execPerstRelease port s
  | .hostLinkUp port gt width => Sys2Proof.Machine.execHostLinkUp port gt width s
  | .hostLinkDown port => Sys2Proof.Machine.execHostLinkDown port s
  | .hostDetachTimeout port => Sys2Proof.Machine.execHostDetachTimeout port s
  | .drivePerstRelease d => Sys2Proof.Machine.execDrivePerstRelease d s
  | .driveIdentifyDone d p info => Sys2Proof.Machine.execDriveIdentifyDone d p info s
  | .driveLinkDown d p => Sys2Proof.Machine.execDriveLinkDown d p s
  | .unitStartComplete u => Sys2Proof.Machine.execUnitStartComplete u s
  | .startLimitExpiry u => Sys2Proof.Machine.execStartLimitExpiry u s
  | .unitStopComplete u => Sys2Proof.Machine.execUnitStopComplete u s
  | .powerGateTimeout u => Sys2Proof.Machine.execPowerGateTimeout u s
  | .domainPowerUpDone u => Sys2Proof.Machine.execDomainPowerUpDone u s
  | .squelchChange d n on => Sys2Proof.Machine.execSquelchChange d n on s
  | .laneAcquireEntry d n => Sys2Proof.Machine.execLaneAcquireEntry d n s
  | .cdrLock d n freqOfs => Sys2Proof.Machine.execCdrLock d n freqOfs s
  | .onceAdaptEnd d n eq => Sys2Proof.Machine.execOnceAdaptEnd d n eq s
  | .cdrLockLoss d n => Sys2Proof.Machine.execCdrLockLoss d n s
  | .frameAlignFound d n ui stamp => Sys2Proof.Machine.execFrameAlignFound d n ui stamp s
  | .frameAlignLost d n stamp => Sys2Proof.Machine.execFrameAlignLost d n stamp s
  | .captureWord d n ui stamp stamp2 => Sys2Proof.Machine.execCaptureWord d n ui stamp stamp2 s
  | .linkDetachTimeout d n => Sys2Proof.Machine.execLinkDetachTimeout d n s
  | .laneAdaptEnd d n eq => Sys2Proof.Machine.execLaneAdaptEnd d n eq s
  | .monitorPointDone d n count => Sys2Proof.Machine.execMonitorPointDone d n count s
  | .deskewMarkersSeen d arrivals => Sys2Proof.Machine.execDeskewMarkersSeen d arrivals s
  | .deskewWindowTimeout d => Sys2Proof.Machine.execDeskewWindowTimeout d s
  | .pllLock d k band => Sys2Proof.Machine.execPllLock d k band s
  | .pllRelockFail d k => Sys2Proof.Machine.execPllRelockFail d k s
  | .fpllLockLoss d => Sys2Proof.Machine.execFpllLockLoss d s
  | .pllLockLoss d k => Sys2Proof.Machine.execPllLockLoss d k s
  | .pllStepReached d k => Sys2Proof.Machine.execPllStepReached d k s
  | .alignCheck d => Sys2Proof.Machine.execAlignCheck d s
  | .hkclkTrim d err code => Sys2Proof.Machine.execHkclkTrim d err code s
  | .refoutFirstEdge => Sys2Proof.Machine.execRefoutFirstEdge s
  | .refoutPeriodEnd => Sys2Proof.Machine.execRefoutPeriodEnd s
  | .refclkLost why lastGood => Sys2Proof.Machine.execRefclkLost why lastGood s
  | .refclkReturned => Sys2Proof.Machine.execRefclkReturned s
  | .refReturnApply j => Sys2Proof.Machine.execRefReturnApply j s
  | .syncInEdge arrival halfTick => Sys2Proof.Machine.execSyncInEdge arrival halfTick s
  | .syncAlignApply => Sys2Proof.Machine.execSyncAlignApply s
  | .syncOutRepeat => Sys2Proof.Machine.execSyncOutRepeat s
  | .syncPeerAttach => Sys2Proof.Machine.execSyncPeerAttach s
  | .syncPeerDetach => Sys2Proof.Machine.execSyncPeerDetach s
  | .dllLock d inl => Sys2Proof.Machine.execDllLock d inl s
  | .dllLockLoss d => Sys2Proof.Machine.execDllLockLoss d s
  | .tdcStartEdge d src arg cap tap => Sys2Proof.Machine.execTdcStartEdge d src arg cap tap s
  | .tdcStopEdge d n cap tap => Sys2Proof.Machine.execTdcStopEdge d n cap tap s
  | .tdcWindowClose d => Sys2Proof.Machine.execTdcWindowClose d s
  | .trigInEdge n rising cap tap => Sys2Proof.Machine.execTrigInEdge n rising cap tap s
  | .trigInFilterExpiry n => Sys2Proof.Machine.execTrigInFilterExpiry n s
  | .levelCrossing d k xa xb ta tb low high => Sys2Proof.Machine.execLevelCrossing d k xa xb ta tb low high s
  | .sequencerEvaluate => Sys2Proof.Machine.execSequencerEvaluate s
  | .sequencerTimerExpiry q k => Sys2Proof.Machine.execSequencerTimerExpiry q k s
  | .shutterEventArrival => Sys2Proof.Machine.execShutterEventArrival s
  | .trigOutEdge n => Sys2Proof.Machine.execTrigOutEdge n s
  | .trigOutPulseEnd n => Sys2Proof.Machine.execTrigOutPulseEnd n s
  | .entryCommit d n => Sys2Proof.Machine.execEntryCommit d n s
  | .envFlushTimeout d n => Sys2Proof.Machine.execEnvFlushTimeout d n s
  | .rearmOpen d n => Sys2Proof.Machine.execRearmOpen d n s
  | .segmentComplete d n => Sys2Proof.Machine.execSegmentComplete d n s
  | .densitometerReadbackDone d c => Sys2Proof.Machine.execDensitometerReadbackDone d c s
  | .rawTapSamples d c k xs stamps => Sys2Proof.Machine.execRawTapSamples d c k xs stamps s
  | .settlingEnd d c => Sys2Proof.Machine.execSettlingEnd d c s
  | .spectrumDone d c => Sys2Proof.Machine.execSpectrumDone d c s
  | .chainInputLost d c firstMissing => Sys2Proof.Machine.execChainInputLost d c firstMissing s
  | .chainInputReturn d c => Sys2Proof.Machine.execChainInputReturn d c s
  | .sheetExportDone d k => Sys2Proof.Machine.execSheetExportDone d k s
  | .stripStart d n => Sys2Proof.Machine.execStripStart d n s
  | .stripWindowEnd d n k xs last => Sys2Proof.Machine.execStripWindowEnd d n k xs last s
  | .stripEvaluate d n => Sys2Proof.Machine.execStripEvaluate d n s
  | .gapIdleApply d n => Sys2Proof.Machine.execGapIdleApply d n s
  | .gapWaitExpiry d n => Sys2Proof.Machine.execGapWaitExpiry d n s
  | .staleIntervalEnd d n => Sys2Proof.Machine.execStaleIntervalEnd d n s
  | .waitReturn d e => Sys2Proof.Machine.execWaitReturn d e s
  | .sinResume d e => Sys2Proof.Machine.execSinResume d e s
  | .soutResume d e => Sys2Proof.Machine.execSoutResume d e s
  | .heapLoadComplete d e => Sys2Proof.Machine.execHeapLoadComplete d e s
  | .cacheDone d e => Sys2Proof.Machine.execCacheDone d e s
  | .watchdogExpiry d e => Sys2Proof.Machine.execWatchdogExpiry d e s
  | .sramScrub d e corrected bad => Sys2Proof.Machine.execSramScrub d e corrected bad s
  | .swapBegin d e => Sys2Proof.Machine.execSwapBegin d e s
  | .swapComplete d e ecc => Sys2Proof.Machine.execSwapComplete d e ecc s
  | .engAdd e d a b => Sys2Proof.Machine.execEngAdd e d a b s
  | .engSub e d a b => Sys2Proof.Machine.execEngSub e d a b s
  | .engAnd e d a b => Sys2Proof.Machine.execEngAnd e d a b s
  | .engOr e d a b => Sys2Proof.Machine.execEngOr e d a b s
  | .engXor e d a b => Sys2Proof.Machine.execEngXor e d a b s
  | .andn e d a b => Sys2Proof.Machine.execAndn e d a b s
  | .shl e d a b => Sys2Proof.Machine.execShl e d a b s
  | .shr e d a b => Sys2Proof.Machine.execShr e d a b s
  | .sar e d a b => Sys2Proof.Machine.execSar e d a b s
  | .ror e d a b => Sys2Proof.Machine.execRor e d a b s
  | .slt e d a b => Sys2Proof.Machine.execSlt e d a b s
  | .sltu e d a b => Sys2Proof.Machine.execSltu e d a b s
  | .engMin e d a b => Sys2Proof.Machine.execEngMin e d a b s
  | .engMax e d a b => Sys2Proof.Machine.execEngMax e d a b s
  | .minu e d a b => Sys2Proof.Machine.execMinu e d a b s
  | .maxu e d a b => Sys2Proof.Machine.execMaxu e d a b s
  | .engMul e d a b => Sys2Proof.Machine.execEngMul e d a b s
  | .mulhu e d a b => Sys2Proof.Machine.execMulhu e d a b s
  | .mulh e d a b => Sys2Proof.Machine.execMulh e d a b s
  | .clz e d a => Sys2Proof.Machine.execClz e d a s
  | .ctz e d a => Sys2Proof.Machine.execCtz e d a s
  | .popc e d a => Sys2Proof.Machine.execPopc e d a s
  | .bswap e d a => Sys2Proof.Machine.execBswap e d a s
  | .movw e d a => Sys2Proof.Machine.execMovw e d a s
  | .setside e d a b => Sys2Proof.Machine.execSetside e d a b s
  | .getside e d a => Sys2Proof.Machine.execGetside e d a s
  | .addi e d a imm => Sys2Proof.Machine.execAddi e d a imm s
  | .andi e d a imm => Sys2Proof.Machine.execAndi e d a imm s
  | .ori e d a imm => Sys2Proof.Machine.execOri e d a imm s
  | .xori e d a imm => Sys2Proof.Machine.execXori e d a imm s
  | .shifti e d a kind amt => Sys2Proof.Machine.execShifti e d a kind amt s
  | .slti e d a imm => Sys2Proof.Machine.execSlti e d a imm s
  | .sltiu e d a imm => Sys2Proof.Machine.execSltiu e d a imm s
  | .movz e d k imm => Sys2Proof.Machine.execMovz e d k imm s
  | .movk e d k imm => Sys2Proof.Machine.execMovk e d k imm s
  | .extr e d a pos len => Sys2Proof.Machine.execExtr e d a pos len s
  | .insr e d a pos len => Sys2Proof.Machine.execInsr e d a pos len s
  | .ldb e d a imm => Sys2Proof.Machine.execLdb e d a imm s
  | .ldh e d a imm => Sys2Proof.Machine.execLdh e d a imm s
  | .ldd e d a imm => Sys2Proof.Machine.execLdd e d a imm s
  | .ldq e d a imm => Sys2Proof.Machine.execLdq e d a imm s
  | .ldw e d a imm => Sys2Proof.Machine.execLdw e d a imm s
  | .stb e d a imm => Sys2Proof.Machine.execStb e d a imm s
  | .sth e d a imm => Sys2Proof.Machine.execSth e d a imm s
  | .std e d a imm => Sys2Proof.Machine.execStd e d a imm s
  | .stq e d a imm => Sys2Proof.Machine.execStq e d a imm s
  | .stw e d a imm => Sys2Proof.Machine.execStw e d a imm s
  | .beq e d a imm => Sys2Proof.Machine.execBeq e d a imm s
  | .bne e d a imm => Sys2Proof.Machine.execBne e d a imm s
  | .blt e d a imm => Sys2Proof.Machine.execBlt e d a imm s
  | .bge e d a imm => Sys2Proof.Machine.execBge e d a imm s
  | .bltu e d a imm => Sys2Proof.Machine.execBltu e d a imm s
  | .bgeu e d a imm => Sys2Proof.Machine.execBgeu e d a imm s
  | .jal e d imm => Sys2Proof.Machine.execJal e d imm s
  | .jalr e d a imm => Sys2Proof.Machine.execJalr e d a imm s
  | .engCrc e d a b n => Sys2Proof.Machine.execEngCrc e d a b n s
  | .engHash e d a b cls => Sys2Proof.Machine.execEngHash e d a b cls s
  | .engMark e d a b => Sys2Proof.Machine.execEngMark e d a b s
  | .trig e a b => Sys2Proof.Machine.execTrig e a b s
  | .sin e d p => Sys2Proof.Machine.execSin e d p s
  | .sinfo e d p sel => Sys2Proof.Machine.execSinfo e d p sel s
  | .savail e d p => Sys2Proof.Machine.execSavail e d p s
  | .sin2 e d p => Sys2Proof.Machine.execSin2 e d p s
  | .sout e q a b => Sys2Proof.Machine.execSout e q a b s
  | .sspace e d q => Sys2Proof.Machine.execSspace e d q s
  | .nop e => Sys2Proof.Machine.execNop e s
  | .engWait e d a b => Sys2Proof.Machine.execEngWait e d a b s
  | .ckpt e => Sys2Proof.Machine.execCkpt e s
  | .halt e a => Sys2Proof.Machine.execHalt e a s
  | .engTrap e code => Sys2Proof.Machine.execEngTrap e code s
  | .mfs e d sr => Sys2Proof.Machine.execMfs e d sr s
  | .sev e d => Sys2Proof.Machine.execSev e d s
  | .mbxack e => Sys2Proof.Machine.execMbxack e s
  | .mbxpost e a => Sys2Proof.Machine.execMbxpost e a s
  | .cache e op => Sys2Proof.Machine.execCache e op s
  | .xkick e a => Sys2Proof.Machine.execXkick e a s
  | .fixerWriteIssue d slot sid n => Sys2Proof.Machine.execFixerWriteIssue d slot sid n s
  | .nvmeWriteComplete d slot id sct sc dnr => Sys2Proof.Machine.execNvmeWriteComplete d slot id sct sc dnr s
  | .nvmeWriteTimeout d slot id => Sys2Proof.Machine.execNvmeWriteTimeout d slot id s
  | .fixerFlushTimeout d slot => Sys2Proof.Machine.execFixerFlushTimeout d slot s
  | .superblockInterval d slot => Sys2Proof.Machine.execSuperblockInterval d slot s
  | .smartPoll d p warn => Sys2Proof.Machine.execSmartPoll d p warn s
  | .xferEnd d c => Sys2Proof.Machine.execXferEnd d c s
  | .xferMove d c => Sys2Proof.Machine.execXferMove d c s
  | .xferMoveRetire d c rereads => Sys2Proof.Machine.execXferMoveRetire d c rereads s
  | .xferBeatError d c cause done last => Sys2Proof.Machine.execXferBeatError d c cause done last s
  | .xferLoop d c => Sys2Proof.Machine.execXferLoop d c s
  | .xferWait d c => Sys2Proof.Machine.execXferWait d c s
  | .xferWaitReturn d c => Sys2Proof.Machine.execXferWaitReturn d c s
  | .xferWaitTimeout d c => Sys2Proof.Machine.execXferWaitTimeout d c s
  | .xferSignal d c => Sys2Proof.Machine.execXferSignal d c s
  | .xferNop d c => Sys2Proof.Machine.execXferNop d c s
  | .xferPaused d c moved => Sys2Proof.Machine.execXferPaused d c moved s
  | .probePresChange d p high => Sys2Proof.Machine.execProbePresChange d p high s
  | .probePresenceTimeout d p => Sys2Proof.Machine.execProbePresenceTimeout d p s
  | .probeDiscoveryDone d p pulses acks one two => Sys2Proof.Machine.execProbeDiscoveryDone d p pulses acks one two s
  | .probeRemovalTimeout d p => Sys2Proof.Machine.execProbeRemovalTimeout d p s
  | .eepromReadDone d p ok bytes => Sys2Proof.Machine.execEepromReadDone d p ok bytes s
  | .biasSlewStep d p => Sys2Proof.Machine.execBiasSlewStep d p s
  | .deglitchHoldEnd d p => Sys2Proof.Machine.execDeglitchHoldEnd d p s
  | .biasRangeHighzEnd d p => Sys2Proof.Machine.execBiasRangeHighzEnd d p s
  | .biasLimitChange d p on => Sys2Proof.Machine.execBiasLimitChange d p on s
  | .biasLimitTrip d p => Sys2Proof.Machine.execBiasLimitTrip d p s
  | .biasComplianceChange d p on => Sys2Proof.Machine.execBiasComplianceChange d p on s
  | .biasReportHoldoffEnd d p => Sys2Proof.Machine.execBiasReportHoldoffEnd d p s
  | .pwmEdge d p => Sys2Proof.Machine.execPwmEdge d p s
  | .hkTimer d => Sys2Proof.Machine.execHkTimer d s
  | .hkDelayEnd d => Sys2Proof.Machine.execHkDelayEnd d s
  | .hkConversionEnd d raw => Sys2Proof.Machine.execHkConversionEnd d raw s
  | .teEdge => Sys2Proof.Machine.execTeEdge s
  | .teTimerExpiry => Sys2Proof.Machine.execTeTimerExpiry s
  | .initDelayExpiry => Sys2Proof.Machine.execInitDelayExpiry s
  | .pushBegin => Sys2Proof.Machine.execPushBegin s
  | .pushLineReady => Sys2Proof.Machine.execPushLineReady s
  | .pushEnd => Sys2Proof.Machine.execPushEnd s
  | .layerReadDone l => Sys2Proof.Machine.execLayerReadDone l s
  | .tempSample d t => Sys2Proof.Machine.execTempSample d t s
  | .throttleTimer d => Sys2Proof.Machine.execThrottleTimer d s
  | .thermalShutdown d => Sys2Proof.Machine.execThermalShutdown d s
  | .railLeavesWindow d rail mv above deep => Sys2Proof.Machine.execRailLeavesWindow d rail mv above deep s
  | .supplyFaultDetect d rail => Sys2Proof.Machine.execSupplyFaultDetect d rail s
  | .supplyReturnTimeout d => Sys2Proof.Machine.execSupplyReturnTimeout d s
  | .supplyFenceTimeout d rail => Sys2Proof.Machine.execSupplyFenceTimeout d rail s
  | .vddAonFault d => Sys2Proof.Machine.execVddAonFault d s
  | .hbmScrubPass d errs => Sys2Proof.Machine.execHbmScrubPass d errs s
  | .healthCheck d kind target monitor value failed => Sys2Proof.Machine.execHealthCheck d kind target monitor value failed s
  | .hbmCopyDone d lost => Sys2Proof.Machine.execHbmCopyDone d lost s
  | .uflLaneRetrainDone d p => Sys2Proof.Machine.execUflLaneRetrainDone d p s
  | .uflLaneFail d p lane => Sys2Proof.Machine.execUflLaneFail d p lane s
  | .flitCrcError d p => Sys2Proof.Machine.execFlitCrcError d p s
  | .illegalInstruction e => Sys2Proof.Machine.execIllegalInstruction e s
  | .xferIllegalOpcode d c => Sys2Proof.Machine.execXferIllegalOpcode d c s
  | .hbmRetrainingDone d => Sys2Proof.Machine.execHbmRetrainingDone d s
  | .nvmeCommandComplete d p what ok => Sys2Proof.Machine.execNvmeCommandComplete d p what ok s
  | .railReturnsToWindow d rail mv => Sys2Proof.Machine.execRailReturnsToWindow d rail mv s
  | .syncInDriveChange driven => Sys2Proof.Machine.execSyncInDriveChange driven s
  | .busMasterEnableClear port => Sys2Proof.Machine.execBusMasterEnableClear port s
  | .initListSent => Sys2Proof.Machine.execInitListSent s
  | .tapTckEdge rising tms tdi => Sys2Proof.Machine.execTapTckEdge rising tms tdi s
  | .vddCoreRequest d up => Sys2Proof.Machine.execVddCoreRequest d up s

end Sys2Proof.Machine
end

