-- ==== Sys2Proof/WellFormed.lean ====
section
/-!
DEFINITION. Well-formed commands: every operand fits the field or the list that carries it on the device.
-/

namespace Sys2Proof

open Machine

/-- A host command as a descriptor and its payload can carry it (R77): an inline payload of 40 bytes, or, with EXT, 8 to
65,536 bytes in steps of 8. -/
def cmdOk (c : Cmd) : Bool :=
  c.port < 8 && c.ring < 64 && c.flags < 2 ^ 16 && c.unit < 2 ^ 32 && c.timeout < 2 ^ 32 && c.applyAt < 2 ^ 64 &&
    (if bitAt c.flags 0 then 8 ≤ c.payload.length && c.payload.length ≤ 65536 && c.payload.length % 8 = 0
     else c.payload.length = 40)

/-- An engine of the largest part (R1, R36). -/
def engOk (e : Eng) : Bool := e.die < 8 && e.idx < 16

/-- Every operand of a command fits: dies and ports of the largest part (R1), byte enables of a dword (R502), fields of an
engine word (R387), and lists of the length the device has. -/
def Instr.wf : Instr → Bool
  | .unitEnumerate c => cmdOk c
  | .unitQuery c => cmdOk c
  | .unitWake c => cmdOk c
  | .unitSleep c => cmdOk c
  | .unitClearFault c => cmdOk c
  | .groupCreate c => cmdOk c
  | .groupAdd c => cmdOk c
  | .groupRemove c => cmdOk c
  | .groupDelete c => cmdOk c
  | .groupList c => cmdOk c
  | .laneConfigure c => cmdOk c
  | .laneSetFramer c => cmdOk c
  | .laneSetEqualiser c => cmdOk c
  | .laneAdapt c => cmdOk c
  | .laneDeskew c => cmdOk c
  | .monitorSweep c => cmdOk c
  | .laneReadStatus c => cmdOk c
  | .pllConfigure c => cmdOk c
  | .pllStep c => cmdOk c
  | .refoutStart c => cmdOk c
  | .refoutStop c => cmdOk c
  | .timeRead c => cmdOk c
  | .syncArm c => cmdOk c
  | .refSetMode c => cmdOk c
  | .tdcArm c => cmdOk c
  | .tdcRead c => cmdOk c
  | .captureConfigure c => cmdOk c
  | .captureArm c => cmdOk c
  | .captureDisarm c => cmdOk c
  | .rollStart c => cmdOk c
  | .rollStop c => cmdOk c
  | .spoolAllocate c => cmdOk c
  | .streamBind c => cmdOk c
  | .streamUnbind c => cmdOk c
  | .blockResend c => cmdOk c
  | .markInsert c => cmdOk c
  | .rateLimitSet c => cmdOk c
  | .recordRead c => cmdOk c
  | .matcherLoad c => cmdOk c
  | .negstoreLoad c => cmdOk c
  | .negstoreClear c => cmdOk c
  | .comparatorConfigure c => cmdOk c
  | .sequencerLoad c => cmdOk c
  | .sequencerArm c => cmdOk c
  | .sequencerDisarm c => cmdOk c
  | .shutterFire c => cmdOk c
  | .triginConfigure c => cmdOk c
  | .trigoutConfigure c => cmdOk c
  | .shutterReadCounters c => cmdOk c
  | .chainConfigure c => cmdOk c
  | .chainSelectLane c => cmdOk c
  | .chainStart c => cmdOk c
  | .chainStop c => cmdOk c
  | .maskLoad c => cmdOk c
  | .dcblockFreeze c => cmdOk c
  | .measureConfigure c => cmdOk c
  | .sheetConfigure c => cmdOk c
  | .sheetClear c => cmdOk c
  | .sheetExport c => cmdOk c
  | .calConfigure c => cmdOk c
  | .calLoad c => cmdOk c
  | .calSave c => cmdOk c
  | .calHold c => cmdOk c
  | .imageLoad c => cmdOk c
  | .imageUnload c => cmdOk c
  | .engineStart c => cmdOk c
  | .engineStop c => cmdOk c
  | .engineReadState c => cmdOk c
  | .serviceStart c => cmdOk c
  | .serviceStop c => cmdOk c
  | .serviceQuery c => cmdOk c
  | .volumeCreate c => cmdOk c
  | .volumeClose c => cmdOk c
  | .xferLoad c => cmdOk c
  | .xferStart c => cmdOk c
  | .xferPause c => cmdOk c
  | .xferResume c => cmdOk c
  | .xferReset c => cmdOk c
  | .eepromRead c => cmdOk c
  | .biasConfigure c => cmdOk c
  | .biasSet c => cmdOk c
  | .pwmConfigure c => cmdOk c
  | .hkadcConfigure c => cmdOk c
  | .hkaCalZero c => cmdOk c
  | .hkaCalFs c => cmdOk c
  | .proofConfigure c => cmdOk c
  | .layerConfigure c => cmdOk c
  | .paletteLoad c => cmdOk c
  | .regionPush c => cmdOk c
  | .prfCommit c => cmdOk c
  | .repairApply c => cmdOk c
  | .repairRead c => cmdOk c
  | .healthRead c => cmdOk c
  | .safelightEnter c => cmdOk c
  | .safelightExit c => cmdOk c
  | .thermalConfigure c => cmdOk c
  | .attest c => cmdOk c
  | .certRead c => cmdOk c
  | .measurementRead c => cmdOk c
  | .portEcho c => cmdOk c
  | .commandFetch port _ _ => port < 8
  | .applyAtReached => true
  | .commandTimeout _ => true
  | .cmdDoorbell port _ _ => port < 8
  | .cqDoorbell port _ _ => port < 8
  | .evrDoorbell port _ => port < 8
  | .srDoorbell port _ _ => port < 8
  | .cmdRingEnable port _ _ => port < 8
  | .cmdRingDisable port _ _ => port < 8
  | .eventRingEnable port _ => port < 8
  | .eventRingDisable port _ => port < 8
  | .streamRingEnable _ _ => true
  | .streamRingDisable _ _ => true
  | .ringDrainDone _ port _ => port < 8
  | .eventRelease => true
  | .eventLateArrival _ => true
  | .irqTimerExpiry _ port _ => port < 8
  | .envelopeDeliver _ _ => true
  | .srFlushTimeout _ => true
  | .registerWrite port _ _ dws => port < 8 && dws.all fun x => x.1 < 16
  | .registerReadClear port _ _ bes => port < 8 && bes.all fun b => b < 16
  | .reservedRead port _ _ bes => port < 8 && bes.all fun b => b < 16
  | .reservedWrite port _ _ dws => port < 8 && dws.all fun x => x.1 < 16
  | .updStrobe port d be _ => port < 8 && d < 8 && be < 16
  | .updateStrobeApply => true
  | .cfgLockSet port d be _ => port < 8 && d < 8 && be < 16
  | .captureRef port d be _ => port < 8 && d < 8 && be < 16
  | .cfgCrcRefWrite port d be _ => port < 8 && d < 8 && be < 16
  | .cfgCrcPassEnd d => d < 8
  | .secOwnerHashWrite port _ be _ => port < 8 && be < 16
  | .go port be _ => port < 8 && be < 16
  | .h2eBell port d _ _ => port < 8 && d < 8
  | .e2hAck port d _ => port < 8 && d < 8
  | .xfrChKick port d _ be _ => port < 8 && d < 8 && be < 16
  | .pauseSet port d _ _ => port < 8 && d < 8
  | .pauseClear port d _ _ => port < 8 && d < 8
  | .pbdCtlEnClear port d _ be _ => port < 8 && d < 8 && be < 16
  | .resetNAssert => true
  | .resetNRelease _ _ => true
  | .railCheckTimeout d => d < 8
  | .crsEnd port => port < 8
  | .bootVerifyDone => true
  | .bootComplete _ _ => true
  | .perstAssert port => port < 8
  | .perstRelease port => port < 8
  | .hostLinkUp port _ _ => port < 8
  | .hostLinkDown port => port < 8
  | .hostDetachTimeout port => port < 8
  | .drivePerstRelease d => d < 8
  | .driveIdentifyDone d _ info => d < 8 && info.serial.length = 20
  | .driveLinkDown d _ => d < 8
  | .unitStartComplete _ => true
  | .startLimitExpiry _ => true
  | .unitStopComplete _ => true
  | .powerGateTimeout _ => true
  | .domainPowerUpDone _ => true
  | .squelchChange d _ _ => d < 8
  | .laneAcquireEntry d _ => d < 8
  | .cdrLock d _ _ => d < 8
  | .onceAdaptEnd d _ eq => d < 8 && eq.ffe.length = 24
  | .cdrLockLoss d _ => d < 8
  | .frameAlignFound d _ _ _ => d < 8
  | .frameAlignLost d _ _ => d < 8
  | .captureWord d _ _ _ _ => d < 8
  | .linkDetachTimeout d _ => d < 8
  | .laneAdaptEnd d _ eq => d < 8 && eq.ffe.length = 24
  | .monitorPointDone d _ _ => d < 8
  | .deskewMarkersSeen d _ => d < 8
  | .deskewWindowTimeout d => d < 8
  | .pllLock d _ _ => d < 8
  | .pllRelockFail d _ => d < 8
  | .fpllLockLoss d => d < 8
  | .pllLockLoss d _ => d < 8
  | .pllStepReached d _ => d < 8
  | .alignCheck d => d < 8
  | .hkclkTrim d _ _ => d < 8
  | .refoutFirstEdge => true
  | .refoutPeriodEnd => true
  | .refclkLost _ _ => true
  | .refclkReturned => true
  | .refReturnApply _ => true
  | .syncInEdge _ _ => true
  | .syncAlignApply => true
  | .syncOutRepeat => true
  | .syncPeerAttach => true
  | .syncPeerDetach => true
  | .dllLock d _ => d < 8
  | .dllLockLoss d => d < 8
  | .tdcStartEdge d _ _ _ _ => d < 8
  | .tdcStopEdge d _ _ _ => d < 8
  | .tdcWindowClose d => d < 8
  | .trigInEdge n _ _ tap => n < 4 && tap < 256
  | .trigInFilterExpiry _ => true
  | .levelCrossing d _ xa xb _ _ low high => d < 8 && [xa, xb, low, high].all fun x => -131072 ≤ x && x ≤ 131071
  | .sequencerEvaluate => true
  | .sequencerTimerExpiry _ _ => true
  | .shutterEventArrival => true
  | .trigOutEdge _ => true
  | .trigOutPulseEnd _ => true
  | .entryCommit d _ => d < 8
  | .envFlushTimeout d _ => d < 8
  | .rearmOpen d _ => d < 8
  | .segmentComplete d _ => d < 8
  | .densitometerReadbackDone d _ => d < 8
  | .rawTapSamples d _ k xs stamps =>
    d < 8 && k < 32 && xs.length = 16 && stamps.length = 16 && xs.all fun x => -64 ≤ x && x ≤ 63
  | .settlingEnd d _ => d < 8
  | .spectrumDone d _ => d < 8
  | .chainInputLost d _ _ => d < 8
  | .chainInputReturn d _ => d < 8
  | .sheetExportDone d _ => d < 8
  | .stripStart d _ => d < 8
  | .stripWindowEnd d _ k xs _ =>
    d < 8 && k < 32 && xs.length = 2 ^ 20 && xs.all fun x => -64 ≤ x && x ≤ 63
  | .stripEvaluate d _ => d < 8
  | .gapIdleApply d _ => d < 8
  | .gapWaitExpiry d _ => d < 8
  | .staleIntervalEnd d _ => d < 8
  | .waitReturn d _ => d < 8
  | .sinResume d _ => d < 8
  | .soutResume d _ => d < 8
  | .heapLoadComplete d _ => d < 8
  | .cacheDone d _ => d < 8
  | .watchdogExpiry d _ => d < 8
  | .sramScrub d _ _ _ => d < 8
  | .swapBegin d _ => d < 8
  | .swapComplete d _ _ => d < 8
  | .engAdd e d a b => engOk e && (engEncode (.engAdd d a b)).isSome
  | .engSub e d a b => engOk e && (engEncode (.engSub d a b)).isSome
  | .engAnd e d a b => engOk e && (engEncode (.engAnd d a b)).isSome
  | .engOr e d a b => engOk e && (engEncode (.engOr d a b)).isSome
  | .engXor e d a b => engOk e && (engEncode (.engXor d a b)).isSome
  | .andn e d a b => engOk e && (engEncode (.andn d a b)).isSome
  | .shl e d a b => engOk e && (engEncode (.shl d a b)).isSome
  | .shr e d a b => engOk e && (engEncode (.shr d a b)).isSome
  | .sar e d a b => engOk e && (engEncode (.sar d a b)).isSome
  | .ror e d a b => engOk e && (engEncode (.ror d a b)).isSome
  | .slt e d a b => engOk e && (engEncode (.slt d a b)).isSome
  | .sltu e d a b => engOk e && (engEncode (.sltu d a b)).isSome
  | .engMin e d a b => engOk e && (engEncode (.engMin d a b)).isSome
  | .engMax e d a b => engOk e && (engEncode (.engMax d a b)).isSome
  | .minu e d a b => engOk e && (engEncode (.minu d a b)).isSome
  | .maxu e d a b => engOk e && (engEncode (.maxu d a b)).isSome
  | .engMul e d a b => engOk e && (engEncode (.engMul d a b)).isSome
  | .mulhu e d a b => engOk e && (engEncode (.mulhu d a b)).isSome
  | .mulh e d a b => engOk e && (engEncode (.mulh d a b)).isSome
  | .clz e d a => engOk e && (engEncode (.clz d a)).isSome
  | .ctz e d a => engOk e && (engEncode (.ctz d a)).isSome
  | .popc e d a => engOk e && (engEncode (.popc d a)).isSome
  | .bswap e d a => engOk e && (engEncode (.bswap d a)).isSome
  | .movw e d a => engOk e && (engEncode (.movw d a)).isSome
  | .setside e d a b => engOk e && (engEncode (.setside d a b)).isSome
  | .getside e d a => engOk e && (engEncode (.getside d a)).isSome
  | .addi e d a imm => engOk e && (engEncode (.addi d a imm)).isSome
  | .andi e d a imm => engOk e && (engEncode (.andi d a imm)).isSome
  | .ori e d a imm => engOk e && (engEncode (.ori d a imm)).isSome
  | .xori e d a imm => engOk e && (engEncode (.xori d a imm)).isSome
  | .shifti e d a kind amt => engOk e && (engEncode (.shifti d a kind amt)).isSome
  | .slti e d a imm => engOk e && (engEncode (.slti d a imm)).isSome
  | .sltiu e d a imm => engOk e && (engEncode (.sltiu d a imm)).isSome
  | .movz e d k imm => engOk e && (engEncode (.movz d k imm)).isSome
  | .movk e d k imm => engOk e && (engEncode (.movk d k imm)).isSome
  | .extr e d a pos len => engOk e && (engEncode (.extr d a pos len)).isSome
  | .insr e d a pos len => engOk e && (engEncode (.insr d a pos len)).isSome
  | .ldb e d a imm => engOk e && (engEncode (.ldb d a imm)).isSome
  | .ldh e d a imm => engOk e && (engEncode (.ldh d a imm)).isSome
  | .ldd e d a imm => engOk e && (engEncode (.ldd d a imm)).isSome
  | .ldq e d a imm => engOk e && (engEncode (.ldq d a imm)).isSome
  | .ldw e d a imm => engOk e && (engEncode (.ldw d a imm)).isSome
  | .stb e d a imm => engOk e && (engEncode (.stb d a imm)).isSome
  | .sth e d a imm => engOk e && (engEncode (.sth d a imm)).isSome
  | .std e d a imm => engOk e && (engEncode (.std d a imm)).isSome
  | .stq e d a imm => engOk e && (engEncode (.stq d a imm)).isSome
  | .stw e d a imm => engOk e && (engEncode (.stw d a imm)).isSome
  | .beq e d a imm => engOk e && (engEncode (.beq d a imm)).isSome
  | .bne e d a imm => engOk e && (engEncode (.bne d a imm)).isSome
  | .blt e d a imm => engOk e && (engEncode (.blt d a imm)).isSome
  | .bge e d a imm => engOk e && (engEncode (.bge d a imm)).isSome
  | .bltu e d a imm => engOk e && (engEncode (.bltu d a imm)).isSome
  | .bgeu e d a imm => engOk e && (engEncode (.bgeu d a imm)).isSome
  | .jal e d imm => engOk e && (engEncode (.jal d imm)).isSome
  | .jalr e d a imm => engOk e && (engEncode (.jalr d a imm)).isSome
  | .engCrc e d a b n => engOk e && (engEncode (.engCrc d a b n)).isSome
  | .engHash e d a b cls => engOk e && (engEncode (.engHash d a b cls)).isSome
  | .engMark e d a b => engOk e && (engEncode (.engMark d a b)).isSome
  | .trig e a b => engOk e && (engEncode (.trig a b)).isSome
  | .sin e d p => engOk e && (engEncode (.sin d p)).isSome
  | .sinfo e d p sel => engOk e && (engEncode (.sinfo d p sel)).isSome
  | .savail e d p => engOk e && (engEncode (.savail d p)).isSome
  | .sin2 e d p => engOk e && (engEncode (.sin2 d p)).isSome
  | .sout e q a b => engOk e && (engEncode (.sout q a b)).isSome
  | .sspace e d q => engOk e && (engEncode (.sspace d q)).isSome
  | .nop e => engOk e && (engEncode .nop).isSome
  | .engWait e d a b => engOk e && (engEncode (.engWait d a b)).isSome
  | .ckpt e => engOk e && (engEncode .ckpt).isSome
  | .halt e a => engOk e && (engEncode (.halt a)).isSome
  | .engTrap e code => engOk e && (engEncode (.engTrap code)).isSome
  | .mfs e d sr => engOk e && (engEncode (.mfs d sr)).isSome
  | .sev e d => engOk e && (engEncode (.sev d)).isSome
  | .mbxack e => engOk e && (engEncode .mbxack).isSome
  | .mbxpost e a => engOk e && (engEncode (.mbxpost a)).isSome
  | .cache e op => engOk e && (engEncode (.cache op)).isSome
  | .xkick e a => engOk e && (engEncode (.xkick a)).isSome
  | .fixerWriteIssue d _ _ _ => d < 8
  | .nvmeWriteComplete d _ _ _ _ _ => d < 8
  | .nvmeWriteTimeout d _ _ => d < 8
  | .fixerFlushTimeout d _ => d < 8
  | .superblockInterval d _ => d < 8
  | .smartPoll d _ _ => d < 8
  | .xferEnd d _ => d < 8
  | .xferMove d _ => d < 8
  | .xferMoveRetire d _ _ => d < 8
  | .xferBeatError d _ _ _ _ => d < 8
  | .xferLoop d _ => d < 8
  | .xferWait d _ => d < 8
  | .xferWaitReturn d _ => d < 8
  | .xferWaitTimeout d _ => d < 8
  | .xferSignal d _ => d < 8
  | .xferNop d _ => d < 8
  | .xferPaused d _ _ => d < 8
  | .probePresChange d _ _ => d < 8
  | .probePresenceTimeout d _ => d < 8
  | .probeDiscoveryDone d _ _ _ _ _ => d < 8
  | .probeRemovalTimeout d _ => d < 8
  | .eepromReadDone d _ _ _ => d < 8
  | .biasSlewStep d _ => d < 8
  | .deglitchHoldEnd d _ => d < 8
  | .biasRangeHighzEnd d _ => d < 8
  | .biasLimitChange d _ _ => d < 8
  | .biasLimitTrip d _ => d < 8
  | .biasComplianceChange d _ _ => d < 8
  | .biasReportHoldoffEnd d _ => d < 8
  | .pwmEdge d _ => d < 8
  | .hkTimer d => d < 8
  | .hkDelayEnd d => d < 8
  | .hkConversionEnd d _ => d < 8
  | .teEdge => true
  | .teTimerExpiry => true
  | .initDelayExpiry => true
  | .pushBegin => true
  | .pushLineReady => true
  | .pushEnd => true
  | .layerReadDone _ => true
  | .tempSample d _ => d < 8
  | .throttleTimer d => d < 8
  | .thermalShutdown d => d < 8
  | .railLeavesWindow d _ _ _ _ => d < 8
  | .supplyFaultDetect d _ => d < 8
  | .supplyReturnTimeout d => d < 8
  | .supplyFenceTimeout d _ => d < 8
  | .vddAonFault d => d < 8
  | .hbmScrubPass d _ => d < 8
  | .healthCheck d _ _ _ _ _ => d < 8
  | .hbmCopyDone d _ => d < 8
  | .uflLaneRetrainDone d _ => d < 8
  | .uflLaneFail d _ _ => d < 8
  | .flitCrcError d _ => d < 8
  | .illegalInstruction e => engOk e
  | .xferIllegalOpcode d _ => d < 8
  | .hbmRetrainingDone d => d < 8
  | .nvmeCommandComplete d _ _ _ => d < 8
  | .railReturnsToWindow d _ _ => d < 8
  | .syncInDriveChange _ => true
  | .busMasterEnableClear port => port < 8
  | .initListSent => true
  | .tapTckEdge _ _ _ => true
  | .vddCoreRequest d _ => d < 8

end Sys2Proof
end

