-- ==== Sys2Proof/Safety.lean ====
section
/-!
DEFINITION. The terms in which claims about the block are made: what holds in every state that a run reaches, and what
a safe step is.
-/

namespace Sys2Proof.Machine

/-- A step that does not stop. -/
def safeStep (s : State) : Prop := ∃ t, step s = .next t

/-- The command names nothing the fitted part lacks, so that it cannot stop (R3). -/
def fits (s : State) (i : Instr) : Prop := ∃ t, exec i s = .next t

/-- Every byte of memory outside a set of addresses reads in `t` as it did in `s`. -/
def memSame (s t : State) (out : Nat → Prop) : Prop := ∀ a, ¬ out a → readByte t a = readByte s a

/-- Every register of every die but one reads in `t` as it did in `s`. -/
def regsSameBut (s t : State) (d o : Nat) : Prop := ∀ e p, regKey e p ≠ regKey d o → reg t e p = reg s e p

/-- What every command leaves alone: the part fitted, the physical time, and the commands that wait; and the memory keeps
its canonical form. -/
structure Keeps (s t : State) : Prop where
  part : t.part = s.part
  now : t.now = s.now
  pending : t.pending = s.pending
  mem : memWf s.mem = true → memWf t.mem = true

/-- A command's outcome, where it is a next state, keeps those things. -/
def OutKeeps (s : State) (o : Host.Outcome State Fault Refusal) : Prop := ∀ t, o = .next t → Keeps s t

/-! ## When a row has its effect -/

/-- Die `d` is fitted (R3) and the device is neither held in reset nor shut down (R564, R598). -/
def live (s : State) (d : Nat) : Bool := d < nDies s && !off s

/-- The host reaches die `d` through the primary function at `port`, and no strobe of the tick comes first (R65, R66, R487, R492). -/
def primaryAt (s : State) (port d : Nat) : Bool :=
  live s port && portShown s port && s.ready && port = primaryPort s && d < nDies s && !fenced s d && !strobeFirst s

/-- The device takes up a host command for one unit `u`, at once: it is ready (R66), a completion slot is free (R80), no
ORDERED command (R77), no scheduled one that is due (R79) and no strobe of the tick (R492) stands in the way, the checks of R78 pass, the command names no
later time (R81), no lock (R498) or fault (R38) stops it at the unit, and the number it gets is not yet another command's. -/
def takenUp (df : CmdDef) (c : Cmd) (s : State) (u : Nat) : Bool :=
  s.ready && cplFree s c.port c.ring && orderOk s c && !dueFirst s c && !strobeFirst s && (checkCmd df c s).isNone && c.applyAt = 0 && cmdUnits df c s == [u] &&
    !cmdLocked s df.op u && (isGroup u || pwOf s u != .fault || df.op = 0x0002 || df.op = 0x0005) &&
    (findFlight s s.host.nextId).isNone

/-- The machine in which the unit gives the command its effect: the command is open and waits for that unit, and the unit has had an
effect of its ring in this tick (R79). -/
def taken (df : CmdDef) (c : Cmd) (s : State) (u : Nat) : State :=
  let t := noteEffect (newFlight df c [u] none false s) c u
  match findFlight t s.host.nextId with
  | some f => setFlight t { f with todo := [], waits := [u], attempted := 1 }
  | none => t

/-- The command goes on from state `t`, in which its effect at the unit is done or under way: it completes once nothing
is awaited any more. -/
def goesOn (df : CmdDef) (s t : State) : State := issueUnits df s.host.nextId [] t

/-- The command's effect at the unit has begun in state `t` and goes on: that is its last effect so far (R85). -/
def waitsIn (df : CmdDef) (s : State) (u : Nat) (t : State) : State := goesOn df s (actedOn t s.host.nextId u)

/-- The command waits in state `t` for something before any effect at the unit (R85). -/
def pendsIn (df : CmdDef) (s t : State) : State := goesOn df s t

/-- The command's unit has finished with success in state `t`, with result bytes `res` and result flags `fl` (R50): the
completion follows (R85). -/
def doneIn (df : CmdDef) (s : State) (u : Nat) (t : State) (res : List Byte) (fl : Nat) : State :=
  goesOn df s (unitDone t s.host.nextId u 0 fl res (unitTime t u))

/-- The command's unit has finished with status `st` in state `t`, with result bytes `res`: the completion follows (R85). -/
def endIn (df : CmdDef) (s : State) (u : Nat) (t : State) (st : Nat) (res : List Byte) : State :=
  goesOn df s (unitDone t s.host.nextId u st 0 res (unitTime t u))

/-- The engine executes the word `w`: its die is live, it runs, and the word at its PC is `w`, free of uncorrectable
errors (R386, R392). -/
def executes (s : State) (e : Eng) (w : Option Nat) : Bool :=
  live s e.die && engReady s e.die e.idx && w == some (engWord s e.die e.idx) &&
    !(engOf s e.die e.idx).eccCode.contains (engOf s e.die e.idx).pc

/-- An engine's record takes a new value and the instruction retires: PC moves to the next one. -/
def became (s : State) (e : Eng) (x : Engine) : State := retire (setEng s e.die e.idx x) e.die e.idx

/-- An instruction whose whole effect is to write `v` to register `d`. -/
def wrote (s : State) (e : Eng) (d : Nat) (v : BitVec 72) : State := became s e (putReg (engOf s e.die e.idx) d v)

/-! ## Where commands write -/

/-- The address of the completion entry a ring pair writes next (R85). -/
def cplSlot (s : State) (p n : Nat) : Nat :=
  regionBase (.host p) + pairAddr s p (rHstCqBaseLo n) (rHstCqBaseHi n) + 32 * (cplRing s p n).prod

/-- The one general register that an instruction of an engine can write when it retires without taking anything from a
port or storing anything; g0 for one that writes none. -/
def regDest : EngOp → Option Nat
  | .engAdd d _ _ | .engSub d _ _ | .engAnd d _ _ | .engOr d _ _ | .engXor d _ _ | .andn d _ _ | .shl d _ _ | .shr d _ _
  | .sar d _ _ | .ror d _ _ | .slt d _ _ | .sltu d _ _ | .engMin d _ _ | .engMax d _ _ | .minu d _ _ | .maxu d _ _
  | .engMul d _ _ | .mulhu d _ _ | .mulh d _ _ | .clz d _ | .ctz d _ | .popc d _ | .bswap d _ | .movw d _
  | .setside d _ _ | .getside d _ | .addi d _ _ | .andi d _ _ | .ori d _ _ | .xori d _ _ | .shifti d _ _ _ | .slti d _ _
  | .sltiu d _ _ | .movz d _ _ | .movk d _ _ | .extr d _ _ _ | .insr d _ _ _ | .ldb d _ _ | .ldh d _ _ | .ldd d _ _
  | .ldq d _ _ | .ldw d _ _ | .jal d _ | .jalr d _ _ | .engCrc d _ _ _ | .engHash d _ _ _ | .sinfo d _ _ | .savail d _
  | .sspace d _ | .mfs d _ => some d
  | .beq _ _ _ | .bne _ _ _ | .blt _ _ _ | .bge _ _ _ | .bltu _ _ _ | .bgeu _ _ _ | .nop => some 0
  | _ => none

/-- A store's bytes, whether it stores the side byte too, its data and address registers and its offset (R384). -/
def storeOf : EngOp → Option (Nat × Bool × Nat × Nat × W16)
  | .stb d a imm => some (1, false, d, a, imm)
  | .sth d a imm => some (2, false, d, a, imm)
  | .std d a imm => some (4, false, d, a, imm)
  | .stq d a imm => some (8, false, d, a, imm)
  | .stw d a imm => some (8, true, d, a, imm)
  | _ => none

/-- A load's bytes, whether it loads the side byte too, its address register and its offset (R384). -/
def loadOf : EngOp → Option (Nat × Bool × Nat × W16)
  | .ldb _ a imm => some (1, false, a, imm)
  | .ldh _ a imm => some (2, false, a, imm)
  | .ldd _ a imm => some (4, false, a, imm)
  | .ldq _ a imm => some (8, false, a, imm)
  | .ldw _ a imm => some (8, true, a, imm)
  | _ => none

end Sys2Proof.Machine
end

