-- ==== Sys2Proof/Certificates/Slice0/Obligations.lean ====
section
/-!
DEFINITION. The statements for the provers.  First what each command does when nothing stands in its way: every row of
the table completes there.  Then the rules that hold of the whole block.
-/

open Sys2Proof Sys2Proof.Machine

/-- The commands of the unit tree complete with the result their rules give. -/
def Obligations.UnitCommandsComplete : Prop :=
  -- UNIT_ENUMERATE (R55)
  (∀ (c : Cmd) (u : Nat) (s₀ s : State), takenUp unitEnumerateDef c s₀ u → s = taken unitEnumerateDef c s₀ u →
    let ids := (allIds s).filter fun u => fld c.payload 0 4 ≤ u
    let n := fld c.payload 4 4
    let es := ids.take n
    let next := ((ids.drop n).head?).getD 0xFFFFFFFF
    exec (.unitEnumerate c) s₀ = .next (
      doneIn unitEnumerateDef s₀ u (hostWrite s c.port (fld c.payload 8 8) (es.flatMap (enumEntry s))) (leBytes 4
        es.length ++ leBytes 4 next ++ leBytes 4 s.tree.gen) 0)) ∧
  -- UNIT_QUERY (R62)
  (∀ (c : Cmd) (u : Nat) (s₀ s : State), takenUp unitQueryDef c s₀ u → s = taken unitQueryDef c s₀ u →
    exec (.unitQuery c) s₀ = .next (doneIn unitQueryDef s₀ u s (enumEntry s u) 0)) ∧
  -- UNIT_WAKE (R45)
  (∀ (c : Cmd) (u : Nat) (s₀ s : State), takenUp unitWakeDef c s₀ u → s = taken unitWakeDef c s₀ u →
    ¬(uCls u = clLane && (laneOf s (uDie u) (uIdx u)).state == .off) →
    let t := request depth true u (some s₀.host.nextId) (pb c 0 = 1) s
    exec (.unitWake c) s₀ = .next (
      if (allUnits s).any fun r => pwOf s r != pwOf t r || (unitOf s r).powering != (unitOf t r).powering then
        waitsIn unitWakeDef s₀ u t
      else pendsIn unitWakeDef s₀ t)) ∧
  -- UNIT_SLEEP (R43)
  (∀ (c : Cmd) (u : Nat) (s₀ s : State), takenUp unitSleepDef c s₀ u → s = taken unitSleepDef c s₀ u → u = pkgUid →
    exec (.unitSleep c) s₀ = .next (waitsIn unitSleepDef s₀ u (packageSleep s s₀.host.nextId (pb c 0 = 1)))) ∧
  -- UNIT_SLEEP (R43)
  (∀ (c : Cmd) (u : Nat) (s₀ s : State),
    takenUp unitSleepDef c s₀ u → s = taken unitSleepDef c s₀ u → u ≠ pkgUid → !(holdsPort s c.port u) →
    let t := request depth false u (some s₀.host.nextId) (pb c 0 = 1) s
    exec (.unitSleep c) s₀ = .next (
      if (allUnits s).any fun r => pwOf s r != pwOf t r || (unitOf s r).powering != (unitOf t r).powering then
        waitsIn unitSleepDef s₀ u t
      else pendsIn unitSleepDef s₀ t)) ∧
  -- UNIT_CLEAR_FAULT (R39)
  (∀ (c : Cmd) (u : Nat) (s₀ s : State),
    takenUp unitClearFaultDef c s₀ u → s = taken unitClearFaultDef c s₀ u → pwOf s u != .fault →
    exec (.unitClearFault c) s₀ = .next (doneIn unitClearFaultDef s₀ u s [] 0)) ∧
  -- UNIT_CLEAR_FAULT (R39)
  (∀ (c : Cmd) (u : Nat) (s₀ s : State),
    takenUp unitClearFaultDef c s₀ u → s = taken unitClearFaultDef c s₀ u → pwOf s u == .fault → faultCleared s u →
    exec (.unitClearFault c) s₀ = .next (
      doneIn unitClearFaultDef s₀ u (unitStateEv (onAsleep (setUnit s u { unitOf s u with
        pw := .asleep, faultCause := 0, since := s.now }) u) u .asleep .fault) [] 0)) ∧
  -- GROUP_CREATE (R46)
  (∀ (c : Cmd) (u : Nat) (s₀ s : State), takenUp groupCreateDef c s₀ u → s = taken groupCreateDef c s₀ u →
    let g := fld c.payload 0 2
    !((groupOf s g).isSome) → s.tree.groups.length < 1024 →
    exec (.groupCreate c) s₀ = .next (
      doneIn groupCreateDef s₀ u (treeChange (setGroup s g (some ⟨pb c 2 = 1, []⟩)) (groupId g)) [] 0)) ∧
  -- GROUP_ADD (R47)
  (∀ (c : Cmd) (u : Nat) (s₀ s : State), takenUp groupAddDef c s₀ u → s = taken groupAddDef c s₀ u →
    let m := fld c.payload 0 4
    ∀ g, groupOf s (bits u 0 16) = some g → idFormOk m → unitPresent s m → !(reaches s u 1026 m) →
    entriesUsed s < 4096 →
    let k := min (fld c.payload 4 2) g.members.length
    exec (.groupAdd c) s₀ = .next (
      doneIn groupAddDef s₀ u (treeChange (setGroup s (bits u 0 16) (some { g with
        members := g.members.take k ++ m :: g.members.drop k })) u) [] 0)) ∧
  -- GROUP_REMOVE (R619)
  (∀ (c : Cmd) (u : Nat) (s₀ s : State), takenUp groupRemoveDef c s₀ u → s = taken groupRemoveDef c s₀ u →
    let m := fld c.payload 0 4
    ∀ g, groupOf s (bits u 0 16) = some g → g.members.contains m →
    exec (.groupRemove c) s₀ = .next (
      doneIn groupRemoveDef s₀ u (treeChange (setGroup s (bits u 0 16) (some { g with
        members := g.members.erase m })) u) [] 0)) ∧
  -- GROUP_DELETE (R52)
  (∀ (c : Cmd) (u : Nat) (s₀ s : State), takenUp groupDeleteDef c s₀ u → s = taken groupDeleteDef c s₀ u →
    let used := s.tree.groups.any fun g => match g.2 with | some x => x.members.contains u | none => false
    ¬(used && pb c 0 = 0) →
    exec (.groupDelete c) s₀ = .next (
      doneIn groupDeleteDef s₀ u (treeChange (setGroup (leaveGroups s u) (bits u 0 16) none) u) [] 0)) ∧
  -- GROUP_LIST (R62)
  (∀ (c : Cmd) (u : Nat) (s₀ s : State), takenUp groupListDef c s₀ u → s = taken groupListDef c s₀ u →
    let l := membersOf s u
    let w := l.take (fld c.payload 8 4)
    exec (.groupList c) s₀ = .next (
      doneIn groupListDef s₀ u (hostWrite s c.port (fld c.payload 0 8) (w.flatMap (leBytes 4))) (leBytes 4 w.length ++
        leBytes 4 l.length) 0))

/-- The commands of lanes complete with the result their rules give. -/
def Obligations.LaneCommandsComplete : Prop :=
  -- LANE_CONFIGURE (R135)
  (∀ (c : Cmd) (u : Nat) (s₀ s : State), takenUp laneConfigureDef c s₀ u → s = taken laneConfigureDef c s₀ u →
    let d := uDie u
    let i := uIdx u
    uCls u = clLaneGroup →
    let b := fld c.payload 0 4
    restOk c 4 → ¬((groupLanes i).any fun n => pwOf s (laneUid d n) != .asleep) → 10000000 ≤ b → b ≤ 32000000 →
    ¬(((groupLanes i).any fun n => (laneOf s d n).enable && !rateOk b (laneOf s d n))) →
    let p := pllOf s d (1 + i)
    exec (.laneConfigure c) s₀ = .next (
      doneIn laneConfigureDef s₀ u (setPll s d (1 + i) { p with
        baseRate := b, offset := 0, step := p.step.map fun r => { r with target := 0 } }) (leBytes 4 b) 0)) ∧
  -- LANE_CONFIGURE (R135)
  (∀ (c : Cmd) (u : Nat) (s₀ s : State), takenUp laneConfigureDef c s₀ u → s = taken laneConfigureDef c s₀ u →
    let d := uDie u
    let i := uIdx u
    uCls u ≠ clLaneGroup →
    let l := laneCfg (laneOf s d i) c
    pb c 0 < 16 → pb c 1 < 4 → pb c 2 < 16 → restOk c 3 → pwOf s u == .asleep →
    ¬(l.enable && !rateOk (laneBase s d i) l) →
    let s1 := setLane s d i l
    let s2 := if l.state == sleepState l then s1 else setLaneState s1 d i (sleepState l) 0 (dieTime s1 d)
    exec (.laneConfigure c) s₀ = .next (doneIn laneConfigureDef s₀ u s2 (leBytes 4 (laneRate s2 d i)) 0)) ∧
  -- LANE_SET_FRAMER (R136)
  (∀ (c : Cmd) (u : Nat) (s₀ s : State), takenUp laneSetFramerDef c s₀ u → s = taken laneSetFramerDef c s₀ u →
    let d := uDie u
    let n := uIdx u
    let l := laneOf s d n
    let f := framerOf (pb c 0)
    let same := l.framer == f && l.descramble == bitAt (pb c 1) 0 && l.gray == bitAt (pb c 1) 1 &&
      l.anyComma == bitAt (pb c 1) 2
    same →
    exec (.laneSetFramer c) s₀ = .next (doneIn laneSetFramerDef s₀ u s [] 0)) ∧
  -- LANE_SET_FRAMER (R136)
  (∀ (c : Cmd) (u : Nat) (s₀ s : State), takenUp laneSetFramerDef c s₀ u → s = taken laneSetFramerDef c s₀ u →
    let d := uDie u
    let n := uIdx u
    let l := laneOf s d n
    let f := framerOf (pb c 0)
    let same := l.framer == f && l.descramble == bitAt (pb c 1) 0 && l.gray == bitAt (pb c 1) 1 &&
      l.anyComma == bitAt (pb c 1) 2
    !same →
    let t := dieTime s d
    let s1 := leaveAttach s d n 5 t
    let l1 := { laneOf s1 d n with
      framer := f, descramble := bitAt (pb c 1) 0, gray := bitAt (pb c 1) 1, anyComma := bitAt (pb c 1) 2
      frameLock := false }
    let s2 := setLane s1 d n l1
    laneLive l →
    let s3 := setLane s2 d n { l1 with state := .locked }
    let s4 := if f == .raw then enterAttach s3 d n 5 t else s3
    exec (.laneSetFramer c) s₀ = .next (
      doneIn laneSetFramerDef s₀ u (if l.state == .framed then laneEvent s4 d n .framed 5 t else s4) [] 0)) ∧
  -- LANE_SET_FRAMER (R136)
  (∀ (c : Cmd) (u : Nat) (s₀ s : State), takenUp laneSetFramerDef c s₀ u → s = taken laneSetFramerDef c s₀ u →
    let d := uDie u
    let n := uIdx u
    let l := laneOf s d n
    let f := framerOf (pb c 0)
    let same := l.framer == f && l.descramble == bitAt (pb c 1) 0 && l.gray == bitAt (pb c 1) 1 &&
      l.anyComma == bitAt (pb c 1) 2
    !same →
    let t := dieTime s d
    let s1 := leaveAttach s d n 5 t
    let l1 := { laneOf s1 d n with
      framer := f, descramble := bitAt (pb c 1) 0, gray := bitAt (pb c 1) 1, anyComma := bitAt (pb c 1) 2
      frameLock := false }
    let s2 := setLane s1 d n l1
    !(laneLive l) →
    exec (.laneSetFramer c) s₀ = .next (doneIn laneSetFramerDef s₀ u s2 [] 0)) ∧
  -- LANE_SET_EQUALISER (R137)
  (∀ (c : Cmd) (u : Nat) (s₀ s : State), takenUp laneSetEqualiserDef c s₀ u → s = taken laneSetEqualiserDef c s₀ u →
    let l := laneOf s (uDie u) (uIdx u)
    let m := pb c 0
    !l.adapt.isSome →
    let ffe := (List.range 24).map fun i => sgn 8 (pb c (4 + i))
    exec (.laneSetEqualiser c) s₀ = .next (
      doneIn laneSetEqualiserDef s₀ u (setLane s (uDie u) (uIdx u) { l with
        modeCtle := bits m 0 2, modeFfe := bits m 2 2, modeDfe := bits m 4 2, cdrBw := bits m 6 2
        ctle := pb c 1, cursor := pb c 2, dfe := sgn 8 (pb c 3), ffe := ffe
        hostCtle := pb c 1, hostDfe := sgn 8 (pb c 3), hostFfe := ffe, eqAt := s.now }) [] 0)) ∧
  -- LANE_ADAPT (R138)
  (∀ (c : Cmd) (u : Nat) (s₀ s : State), takenUp laneAdaptDef c s₀ u → s = taken laneAdaptDef c s₀ u →
    let d := uDie u
    let n := uIdx u
    let l := laneOf s d n
    laneLive l → !l.adapt.isSome →
    let s1 := driftEq s d n
    exec (.laneAdapt c) s₀ = .next (
      waitsIn laneAdaptDef s₀ u (setLane s1 d n { laneOf s1 d n with
        adapt := some ⟨s₀.host.nextId, pb c 0, s.now + uiTicks s d n (2 ^ pb c 1)⟩, eqAt := s.now }))) ∧
  -- LANE_DESKEW (R128)
  (∀ (c : Cmd) (u : Nat) (s₀ s : State), takenUp laneDeskewDef c s₀ u → s = taken laneDeskewDef c s₀ u →
    let d := uDie u
    let n := uIdx u
    pb c 0 = 0 → uCls u = clLane →
    exec (.laneDeskew c) s₀ = .next (
      pendsIn laneDeskewDef s₀ (askDelay s d n ⟨pb c 1, s₀.host.nextId, u, deskewBytes (2 ^ n) fun _ => pb c 1⟩))) ∧
  -- LANE_DESKEW (R128)
  (∀ (c : Cmd) (u : Nat) (s₀ s : State), takenUp laneDeskewDef c s₀ u → s = taken laneDeskewDef c s₀ u →
    let d := uDie u
    pb c 0 ≠ 0 → uCls u = clDie →
    let mask := fld c.payload 2 2
    ¬((List.range 16).any fun i => bitAt mask i && (laneOf s d i).state != .framed) →
    !((dieClk s d).autoDeskew.isSome) →
    exec (.laneDeskew c) s₀ = .next (
      pendsIn laneDeskewDef s₀ (setDieClk s d { dieClk s d with
        autoDeskew := some ⟨s₀.host.nextId, mask, pb c 4, pb c 5, s.now + fld c.payload 8 4 * usTicks, 0⟩ }))) ∧
  -- LANE_READ_STATUS (R141)
  (∀ (c : Cmd) (u : Nat) (s₀ s : State), takenUp laneReadStatusDef c s₀ u → s = taken laneReadStatusDef c s₀ u →
    let d := uDie u
    let n := uIdx u
    let s1 := driftEq s d n
    let l := laneOf s1 d n
    let a := drawFree (if l.onceEnd.isSome then moveEq s1 d n 256 (l.modeCtle ≠ 0) false (l.modeDfe ≠ 0) else s1)
    let l1 := laneOf a.2 d n
    exec (.laneReadStatus c) s₀ = .next (
      doneIn laneReadStatusDef s₀ u a.2 (leBytes 1 (laneStCode l1.state) ++ leBytes 1 l1.ctle ++
        leBytes 1 (unsgn 8 l1.dfe) ++ leBytes 1 l1.delay ++ leBytes 4 (cdrOfs l1 a.1.toNat) ++
        leBytes 4 (getF s d (fLaneErrCntCount n))) 0)) ∧
  -- MONITOR_SWEEP (R132)
  (∀ (c : Cmd) (u : Nat) (s₀ s : State), takenUp monitorSweepDef c s₀ u → s = taken monitorSweepDef c s₀ u →
    let d := uDie u
    let n := uIdx u
    let l := laneOf s d n
    bitAt (pb c 3) 1 → ∀ x, l.sweep = some x →
    exec (.monitorSweep c) s₀ = .next (
      doneIn monitorSweepDef s₀ u (setLane s d n { l with sweep := some { x with stopReq := true } }) [] 0)) ∧
  -- MONITOR_SWEEP (R132)
  (∀ (c : Cmd) (u : Nat) (s₀ s : State), takenUp monitorSweepDef c s₀ u → s = taken monitorSweepDef c s₀ u →
    let d := uDie u
    let n := uIdx u
    let l := laneOf s d n
    bitAt (pb c 3) 1 → l.sweep = none → laneLive l →
    exec (.monitorSweep c) s₀ = .next (doneIn monitorSweepDef s₀ u s [] 0)) ∧
  -- MONITOR_SWEEP (R132)
  (∀ (c : Cmd) (u : Nat) (s₀ s : State), takenUp monitorSweepDef c s₀ u → s = taken monitorSweepDef c s₀ u →
    let d := uDie u
    let n := uIdx u
    let l := laneOf s d n
    let w := sweepPay c (dieTime s d)
    let k := b2n w.sheetB
    let a := accOf s d k
    !(bitAt (pb c 3) 1) → laneLive l → !l.sweep.isSome → ¬(w.toSheet && a.cfg.kind ≠ 2) →
    ¬(w.toSheet && sweepFeeds s d k (some n)) →
    ¬(w.toSheet && (colsOf a.cfg < (sweepDims w).1 || rowsOf a.cfg < (sweepDims w).2)) →
    let s1 := if w.toSheet then { s with spc := { s.spc with eyeRows := tset [] s.spc.eyeRows (key d k) [] } } else s
    exec (.monitorSweep c) s₀ = .next (doneIn monitorSweepDef s₀ u (setLane s1 d n { l with sweep := some w }) [] 0))

/-- The commands of clocks, SYNC and TDC complete with the result their rules give. -/
def Obligations.ClockCommandsComplete : Prop :=
  -- PLL_CONFIGURE (R173)
  (∀ (c : Cmd) (u : Nat) (s₀ s : State), takenUp pllConfigureDef c s₀ u → s = taken pllConfigureDef c s₀ u →
    let d := uDie u
    let k := uIdx u
    let f := fld c.payload 4 4
    ¬(k ≠ 7 && f ≠ 0) → pwOf s u == .asleep → ¬(k = 7 && !(80000 ≤ f && f ≤ 1250000)) →
    exec (.pllConfigure c) s₀ = .next (
      doneIn pllConfigureDef s₀ u (setPll s d k { pllOf s d k with
        bw := pb c 0, notify := pb c 1 = 1, khz := f }) [] 0)) ∧
  -- PLL_STEP (R149)
  (∀ (c : Cmd) (u : Nat) (s₀ s : State), takenUp pllStepDef c s₀ u → s = taken pllStepDef c s₀ u →
    let d := uDie u
    let k := uIdx u
    let p := pllOf s d k
    let v := sgn 32 (fld c.payload 0 4)
    let t := p.offset + v
    1 ≤ k → k ≤ 4 → ¬(v.natAbs > 20000) → ¬(t.natAbs > 100000) → !p.step.isSome → awake s u →
    exec (.pllStep c) s₀ = .next (
      waitsIn pllStepDef s₀ u (setPll s d k { p with
        step := some ⟨t, s₀.host.nextId, s.now + ceilDiv (v.natAbs * usTicks) 100⟩ }))) ∧
  -- REFOUT_START (R151)
  (∀ (c : Cmd) (u : Nat) (s₀ s : State), takenUp refoutStartDef c s₀ u → s = taken refoutStartDef c s₀ u →
    let r := s.clk.refOut
    !((dieClk s 0).holding) → r.on →
    exec (.refoutStart c) s₀ = .next (doneIn refoutStartDef s₀ u s [] 0)) ∧
  -- REFOUT_START (R151)
  (∀ (c : Cmd) (u : Nat) (s₀ s : State), takenUp refoutStartDef c s₀ u → s = taken refoutStartDef c s₀ u →
    let r := s.clk.refOut
    !((dieClk s 0).holding) → !r.on →
    exec (.refoutStart c) s₀ = .next (
      pendsIn refoutStartDef s₀ (setRefOut s { r with
        startDue := true, startFids := r.startFids ++ [s₀.host.nextId] }))) ∧
  -- REFOUT_STOP (R151)
  (∀ (c : Cmd) (u : Nat) (s₀ s : State), takenUp refoutStopDef c s₀ u → s = taken refoutStopDef c s₀ u →
    let r := s.clk.refOut
    !r.on → !r.startDue →
    exec (.refoutStop c) s₀ = .next (doneIn refoutStopDef s₀ u s [] 0)) ∧
  -- REFOUT_STOP (R151)
  (∀ (c : Cmd) (u : Nat) (s₀ s : State), takenUp refoutStopDef c s₀ u → s = taken refoutStopDef c s₀ u →
    let r := s.clk.refOut
    ¬(!r.on && !r.startDue) →
    exec (.refoutStop c) s₀ = .next (
      pendsIn refoutStopDef s₀ (setRefOut s { r with
        stopDue := true, resume := false, stopFids := r.stopFids ++ [s₀.host.nextId] }))) ∧
  -- TIME_READ (R173)
  (∀ (c : Cmd) (u : Nat) (s₀ s : State), takenUp timeReadDef c s₀ u → s = taken timeReadDef c s₀ u →
    exec (.timeRead c) s₀ = .next (
      doneIn timeReadDef s₀ u s (leBytes 8 (dieTime s (uDie u) * 256) ++ leBytes 1 (refCode s.clk.ref) ++
        leBytes 1 (b2n s.clk.realign)) 0)) ∧
  -- SYNC_ARM (R173)
  (∀ (c : Cmd) (u : Nat) (s₀ s : State), takenUp syncArmDef c s₀ u → s = taken syncArmDef c s₀ u →
    let f := pb c 0
    let k := s.clk
    let act : SyncAct := ⟨bitAt f 0, bitAt f 1, bitAt f 2, fld c.payload 8 7, BitVec.ofNat 32 (fld c.payload 4 4)⟩
    let sync := if bitAt f 4 then none else if bitAt f 0 || bitAt f 1 then some act else k.sync
    exec (.syncArm c) s₀ = .next (
      doneIn syncArmDef s₀ u { s with
        clk := { k with sync := sync, outEn := bitAt f 3, outDly := if bitAt f 3 then pb c 1 else k.outDly } } [] 0)) ∧
  -- REF_SET_MODE (R162)
  (∀ (c : Cmd) (u : Nat) (s₀ s : State), takenUp refSetModeDef c s₀ u → s = taken refSetModeDef c s₀ u →
    exec (.refSetMode c) s₀ = .next (doneIn refSetModeDef s₀ u { s with
      clk := { s.clk with realign := pb c 0 = 1 } } [] 0)) ∧
  -- TDC_ARM (R170)
  (∀ (c : Cmd) (u : Nat) (s₀ s : State), takenUp tdcArmDef c s₀ u → s = taken tdcArmDef c s₀ u →
    let d := uDie u
    let t := tdcOf s d
    awake s u → t.dll → bitAt (pb c 2) 0 →
    exec (.tdcArm c) s₀ = .next (doneIn tdcArmDef s₀ u (tdcEnd s d 2 (dieTime s d)) [] 0)) ∧
  -- TDC_ARM (R170)
  (∀ (c : Cmd) (u : Nat) (s₀ s : State), takenUp tdcArmDef c s₀ u → s = taken tdcArmDef c s₀ u →
    let d := uDie u
    let t := tdcOf s d
    awake s u → t.dll → !(bitAt (pb c 2) 0) → tdcSrcOn d (pb c 0, pb c 1) → (tdcStops c).all (tdcSrcOn d) →
    !t.arm.isSome →
    let a : TdcArm := ⟨pb c 0, pb c 1, fld c.payload 4 4, tdcStops c, none, List.replicate 8 none, [], 0⟩
    let s1 := setTdc s d { t with arm := some a, result := none }
    exec (.tdcArm c) s₀ = .next (
      doneIn tdcArmDef s₀ u (if pb c 0 = 8 then tdcStart s1 d ⟨dieTime s d, 0, true⟩ else s1) [] 0)) ∧
  -- TDC_READ (R174)
  (∀ (c : Cmd) (u : Nat) (s₀ s : State),
    takenUp tdcReadDef c s₀ u → s = taken tdcReadDef c s₀ u → ∀ r, (tdcOf s (uDie u)).result = some r →
    exec (.tdcRead c) s₀ = .next (doneIn tdcReadDef s₀ u (hostWrite s c.port (fld c.payload 0 8) (tdcBytes r)) [] 0))

/-- The commands of capture streams complete with the result their rules give. -/
def Obligations.StreamCommandsComplete : Prop :=
  -- CAPTURE_CONFIGURE (R224)
  (∀ (c : Cmd) (u : Nat) (s₀ s : State), takenUp captureConfigureDef c s₀ u → s = taken captureConfigureDef c s₀ u →
    let d := uDie u
    let i := uIdx u
    let x := streamOf s d i
    let n := pendingEnvs x
    let discard := bitAt (pb c 2) 1
    capModeOk c i → (x.state == .unconfigured || (x.state == .idle && (n.1 = 0 || discard))) → cplxOk s d i (pb c 1) →
    let s1 := emptySpool s d i
    let y := streamOf s1 d i
    exec (.captureConfigure c) s₀ = .next (
      doneIn captureConfigureDef s₀ u (setStream s1 d i { y with
        state := .idle, mode := pb c 0 + 1, format := pb c 1, keep := bitAt (pb c 2) 0, envFlush := pb c 3
        markMask := BitVec.ofNat 64 (fld c.payload 8 8), trigMask := BitVec.ofNat 64 (fld c.payload 16 8)
        pre := fld c.payload 24 4, post := fld c.payload 28 4, segments := fld c.payload 32 4
        seqNext := 0, segNext := 0, dropWords := 0, dropMarks := 0, drop := none, rlWords := 0, needTime := true
        lastPeriod := none, endDue := false }) (leBytes 4 n.1 ++ leBytes 4 0 ++ leBytes 8 n.2) 0)) ∧
  -- CAPTURE_ARM (R212)
  (∀ (cm : Cmd) (u : Nat) (s₀ s : State), takenUp captureArmDef cm s₀ u → s = taken captureArmDef cm s₀ u →
    let d := uDie u
    let i := uIdx u
    let x := streamOf s d i
    let m := measOf s d (expoIdx i)
    !(safelight s d) → isExpo i → x.state == .idle → awake s u → ¬(m.enable && !awake s (densUid d)) →
    cplxOk s d i x.format → reservation x m ≤ x.slots →
    let g := { x.seg with
      left := x.segments, done := 0, early := 0, rearm := 0, busy := 0, disarming := false
      armedAt := s.now, changes := [], disarmedAt := none, waitFids := [] }
    let y := { x with seg := g, look := [] }
    let c := expoIdx i
    let s1 := setChain s d c { chainOf s d c with staleOpen := none, missing := none }
    reservation y m ≤ roomFor y →
    exec (.captureArm cm) s₀ = .next (doneIn captureArmDef s₀ u (setStream s1 d i (openSegment y m s.now)) [] 0)) ∧
  -- CAPTURE_ARM (R212)
  (∀ (cm : Cmd) (u : Nat) (s₀ s : State), takenUp captureArmDef cm s₀ u → s = taken captureArmDef cm s₀ u →
    let d := uDie u
    let i := uIdx u
    let x := streamOf s d i
    let m := measOf s d (expoIdx i)
    !(safelight s d) → isExpo i → x.state == .idle → awake s u → ¬(m.enable && !awake s (densUid d)) →
    cplxOk s d i x.format → reservation x m ≤ x.slots →
    let g := { x.seg with
      left := x.segments, done := 0, early := 0, rearm := 0, busy := 0, disarming := false
      armedAt := s.now, changes := [], disarmedAt := none, waitFids := [] }
    let y := { x with seg := g, look := [] }
    let c := expoIdx i
    let s1 := setChain s d c { chainOf s d c with staleOpen := none, missing := none }
    roomFor y < reservation y m →
    exec (.captureArm cm) s₀ = .next (
      doneIn captureArmDef s₀ u (setStream s1 d i { y with
        state := .rearm, spaceAt := s.now, seg := { g with tclosePhys := s.now - 64 } }) [] 0)) ∧
  -- CAPTURE_DISARM (R218)
  (∀ (c : Cmd) (u : Nat) (s₀ s : State), takenUp captureDisarmDef c s₀ u → s = taken captureDisarmDef c s₀ u →
    let d := uDie u
    let i := uIdx u
    armed (streamOf s d i) →
    exec (.captureDisarm c) s₀ = .next (
      waitsIn captureDisarmDef s₀ u (disarm s d i (bitAt (pb c 0) 0) [s₀.host.nextId]))) ∧
  -- ROLL_START (R200)
  (∀ (c : Cmd) (u : Nat) (s₀ s : State), takenUp rollStartDef c s₀ u → s = taken rollStartDef c s₀ u →
    let d := uDie u
    let i := uIdx u
    let x := streamOf s d i
    x.state == .idle → awake s u → x.mode = 1 → x.slots ≠ 0 →
    exec (.rollStart c) s₀ = .next (
      doneIn rollStartDef s₀ u (setStream s d i { x with
        state := .rolling, tStart := s.now, tStop := none, needTime := i < 32, lastPeriod := none }) [] 0)) ∧
  -- ROLL_STOP (R201)
  (∀ (c : Cmd) (u : Nat) (s₀ s : State), takenUp rollStopDef c s₀ u → s = taken rollStopDef c s₀ u →
    let d := uDie u
    let i := uIdx u
    ¬((streamOf s d i).state != .rolling) →
    exec (.rollStop c) s₀ = .next (waitsIn rollStopDef s₀ u (rollStop s d i 1 [s₀.host.nextId]))) ∧
  -- SPOOL_ALLOCATE (R222)
  (∀ (c : Cmd) (u : Nat) (s₀ s : State), takenUp spoolAllocateDef c s₀ u → s = taken spoolAllocateDef c s₀ u →
    let d := uDie u
    let i := uIdx u
    let x := streamOf s d i
    let n := pendingEnvs x
    let size := fld c.payload 0 4
    x.state == .idle → (n.1 = 0 || bitAt (pb c 10) 0) → size ≤ poolFree s d + x.mib →
    let s1 := emptySpool (setPoolFree s d (poolFree s d + x.mib - size)) d i
    let y := streamOf s1 d i
    exec (.spoolAllocate c) s₀ = .next (
      doneIn spoolAllocateDef s₀ u (setStream s1 d i { y with
        mib := size, slots := size * 256, retain := fld c.payload 4 4, lvlHi := pb c 8,
          lvlLo := pb c 9 }) (leBytes 4 (size * 256) ++ leBytes 4 n.1 ++ leBytes 8 n.2) 0)) ∧
  -- STREAM_BIND (R208)
  (∀ (c : Cmd) (u : Nat) (s₀ s : State), takenUp streamBindDef c s₀ u → s = taken streamBindDef c s₀ u →
    let d := uDie u
    let i := uIdx u
    let x := streamOf s d i
    let r := fld c.payload 0 2
    !x.ring.isSome → !x.service.isSome → !((boundStream s r).isSome) →
    exec (.streamBind c) s₀ = .next (doneIn streamBindDef s₀ u (setStream s d i { x with ring := some r }) [] 0)) ∧
  -- STREAM_UNBIND (R621)
  (∀ (c : Cmd) (u : Nat) (s₀ s : State), takenUp streamUnbindDef c s₀ u → s = taken streamUnbindDef c s₀ u →
    let d := uDie u
    let i := uIdx u
    ∀ r, (streamOf s d i).ring = some r →
    let s1 := if ringServes s r && endBuf s r then closeBuf s r false true else leaveRing s d i
    exec (.streamUnbind c) s₀ = .next (
      doneIn streamUnbindDef s₀ u (setStream s1 d i { streamOf s1 d i with ring := none, endDue := false }) [] 0)) ∧
  -- BLOCK_RESEND (R209)
  (∀ (c : Cmd) (u : Nat) (s₀ s : State), takenUp blockResendDef c s₀ u → s = taken blockResendDef c s₀ u →
    let d := uDie u
    let i := uIdx u
    let x := streamOf s d i
    !x.ring.isNone → x.resends.length < 256 →
    ∀ l, resendList x s₀.host.nextId (fld c.payload 0 6) (fld c.payload 6 2) = some l →
    let s1 := setStream s d i { x with resends := x.resends ++ l }
    exec (.blockResend c) s₀ = .next (
      waitsIn blockResendDef s₀ u (l.foldl (fun s r => addMark s d i 0x21 r.env.seq 0 0 (nowStamp s d)) s1))) ∧
  -- MARK_INSERT (R225)
  (∀ (c : Cmd) (u : Nat) (s₀ s : State), takenUp markInsertDef c s₀ u → s = taken markInsertDef c s₀ u →
    let d := uDie u
    let i := uIdx u
    ¬((streamOf s d i).state == .unconfigured) →
    exec (.markInsert c) s₀ = .next (
      doneIn markInsertDef s₀ u (addMark s d i 0x20 (fld c.payload 0 7) 2 0 (nowStamp s d)) [] 0)) ∧
  -- RATE_LIMIT_SET (R203)
  (∀ (c : Cmd) (u : Nat) (s₀ s : State), takenUp rateLimitSetDef c s₀ u → s = taken rateLimitSetDef c s₀ u →
    let x := streamOf s (uDie u) (uIdx u)
    let burst := fld c.payload 4 4
    exec (.rateLimitSet c) s₀ = .next (
      doneIn rateLimitSetDef s₀ u (setStream s (uDie u) (uIdx u) { x with
        rate := fld c.payload 0 4, burst := burst, tokens := burst * usTicks, fillAt := s.now }) [] 0)) ∧
  -- RECORD_READ (R217)
  (∀ (c : Cmd) (u : Nat) (s₀ s : State), takenUp recordReadDef c s₀ u → s = taken recordReadDef c s₀ u →
    let d := uDie u
    let i := uIdx u
    let x := streamOf s d i
    x.keep → ∀ k, (x.kept.find? fun k => k.num = fld c.payload 0 4) = some k →
    let mine := fun (e : Env) => (e.seq + 2 ^ 48 - k.firstSeq) % 2 ^ 48 < k.count
    4096 * k.count ≤ fld c.payload 16 4 →
    let s1 := writeEnvs s c.port (fld c.payload 8 8) (x.spool.filter mine)
    let y := streamOf s1 d i
    let s2 := if fld c.payload 4 4 = 1 then
        levelEvents (setSpool s1 d i { y with
          spool := y.spool.filter fun e => !mine e
          kept := y.kept.filter fun a => a.num ≠ k.num }) d i (undelivered y)
            (undelivered y - k.count)
      else s1
    exec (.recordRead c) s₀ = .next (
      doneIn recordReadDef s₀ u s2 (leBytes 4 k.count ++ leBytes 4 k.trigIdx ++ leBytes 6 k.firstSeq) 0))

/-- The commands of Shutter complete with the result their rules give. -/
def Obligations.ShutterCommandsComplete : Prop :=
  -- MATCHER_LOAD (R239)
  (∀ (c : Cmd) (u : Nat) (s₀ s : State), takenUp matcherLoadDef c s₀ u → s = taken matcherLoadDef c s₀ u →
    let l := laneOf s (uDie u) (uIdx u)
    let st := (List.range 16).foldl (fun t i => tset Stage.reset t i (stagePay c.payload i)) []
    exec (.matcherLoad c) s₀ = .next (
      doneIn matcherLoadDef s₀ u (setLane s (uDie u) (uIdx u) { l with loads := l.loads ++ [(s.now, st)] }) [] 0)) ∧
  -- NEGSTORE_LOAD (R246)
  (∀ (c : Cmd) (u : Nat) (s₀ s : State), takenUp negstoreLoadDef c s₀ u → s = taken negstoreLoadDef c s₀ u →
    let d := uDie u
    let g := negOf s d
    let rs := records c.payload
    awake s u → checkRecs g (fun k => g.ways.any fun w => match w.2 with | some e => e.cls = k | none => false) rs →
    let r := applyRecs 0 g rs s
    let s1 := negLoaded (setNeg r.2 d r.1.1) d r.1.2.1 (rs.length - r.1.2.1)
    exec (.negstoreLoad c) s₀ = .next (
      endIn negstoreLoadDef s₀ u s1 (if r.1.2.2 then 0 else stNoResource)
        (leBytes 4 r.1.2.1 ++ leBytes 4 (if r.1.2.2 then 0xFFFFFFFF else r.1.2.1) ++ leBytes 4 (negUsed r.1.1)))) ∧
  -- NEGSTORE_CLEAR (R247)
  (∀ (c : Cmd) (u : Nat) (s₀ s : State), takenUp negstoreClearDef c s₀ u → s = taken negstoreClearDef c s₀ u →
    let d := uDie u
    let g := negOf s d
    let m := fld c.payload 0 2
    let g1 := { g with ways := g.ways.filter fun w => match w.2 with | some e => !bitAt m e.cls | none => false }
    let g2 := if pb c 2 = 1 then { g1 with
      classes := [], past := [], seed := BitVec.ofNat 32 (fld c.payload 4 4) } else g1
    exec (.negstoreClear c) s₀ = .next (doneIn negstoreClearDef s₀ u (negLoaded (setNeg s d g2) d 0 0) [] 0)) ∧
  -- COMPARATOR_CONFIGURE (R271)
  (∀ (c : Cmd) (u : Nat) (s₀ s : State),
    takenUp comparatorConfigureDef c s₀ u → s = taken comparatorConfigureDef c s₀ u →
    let d := uDie u
    let x := cmpOf s d (pb c 0)
    exec (.comparatorConfigure c) s₀ = .next (
      doneIn comparatorConfigureDef s₀ u (setCmp s d (pb c 0)
        (if pb c 0 < 2 then { x with next := x.next ++ [(s.now, cmpPay c)] }
         else { x with cfg := cmpPay c, wasBelow := false, wasAbove := false, prev := none, found := [] })) [] 0)) ∧
  -- SEQUENCER_LOAD (R262)
  (∀ (c : Cmd) (u : Nat) (s₀ s : State), takenUp sequencerLoadDef c s₀ u → s = taken sequencerLoadDef c s₀ u →
    let q := seqOf s (uIdx u)
    let p := c.payload
    !q.armed →
    exec (.sequencerLoad c) s₀ = .next (
      doneIn sequencerLoadDef s₀ u (setSeq (keepRun s (uIdx u)) (uIdx u) { q with
        entryDue := none, untilTick := none, loaded := true, limits := (List.range 4).map fun k => fld p (4 * k) 4
        durations := (List.range 4).map fun k => fld p (16 + 4 * k) 4, holdoff := fld p 32 4
        branches := (List.range 64).map fun b => branchPay p (64 + 8 * b) }) [] 0)) ∧
  -- SEQUENCER_ARM (R261)
  (∀ (c : Cmd) (u : Nat) (s₀ s : State), takenUp sequencerArmDef c s₀ u → s = taken sequencerArmDef c s₀ u →
    let q := seqOf s (uIdx u)
    !q.armed → q.loaded →
    exec (.sequencerArm c) s₀ = .next (
      doneIn sequencerArmDef s₀ u (setSeq (keepRun s (uIdx u)) (uIdx u) { q with
        armed := true, st := 0, counters := [0, 0, 0, 0], timers := [.idle, .idle, .idle, .idle]
        entryDue := some s.now, since := s.now, untilTick := none }) [] 0)) ∧
  -- SEQUENCER_DISARM (R261)
  (∀ (c : Cmd) (u : Nat) (s₀ s : State), takenUp sequencerDisarmDef c s₀ u → s = taken sequencerDisarmDef c s₀ u →
    let q := seqOf s (uIdx u)
    q.armed →
    exec (.sequencerDisarm c) s₀ = .next (
      doneIn sequencerDisarmDef s₀ u (setSeq s (uIdx u) { q with
        armed := false, done := false, untilTick := some s.now }) [] 0)) ∧
  -- SHUTTER_FIRE (R255)
  (∀ (c : Cmd) (u : Nat) (s₀ s : State), takenUp shutterFireDef c s₀ u → s = taken shutterFireDef c s₀ u →
    let d := uDie u
    let t := nowStamp s d + BitVec.ofNat 64 (pb c 1)
    uCls u = clDie → pb c 0 < 4 →
    exec (.shutterFire c) s₀ = .next (
      doneIn shutterFireDef s₀ u (giveCand s d (0x38 + pb c 0) (fld c.payload 4 3) t t false) [] 0)) ∧
  -- SHUTTER_FIRE (R255)
  (∀ (c : Cmd) (u : Nat) (s₀ s : State), takenUp shutterFireDef c s₀ u → s = taken shutterFireDef c s₀ u →
    let d := uDie u
    let t := nowStamp s d + BitVec.ofNat 64 (pb c 1)
    uCls u ≠ clDie → fld c.payload 4 3 = 0 →
    exec (.shutterFire c) s₀ = .next (
      doneIn shutterFireDef s₀ u (issueEvent s ⟨pb c 0, t, none, false, false, 0xFF, 0xFF, 0, t,
        s.now * 256 + pb c 1, false⟩) [] 0)) ∧
  -- TRIGIN_CONFIGURE (R253)
  (∀ (c : Cmd) (u : Nat) (s₀ s : State), takenUp triginConfigureDef c s₀ u → s = taken triginConfigureDef c s₀ u →
    exec (.triginConfigure c) s₀ = .next (
      doneIn triginConfigureDef s₀ u (setTrigIn s (pb c 0) { trigInOf s (pb c 0) with
        enable := pb c 1 = 1, edge := pb c 2, filter := pb c 3, pendEdge := none }) [] 0)) ∧
  -- TRIGOUT_CONFIGURE (R267)
  (∀ (c : Cmd) (u : Nat) (s₀ s : State), takenUp trigoutConfigureDef c s₀ u → s = taken trigoutConfigureDef c s₀ u →
    let p := c.payload
    let x := trigOutOf s (pb c 0)
    let g : OutCfg := ⟨pb c 1, pb c 2 = 1, fld p 4 4, BitVec.ofNat 64 (fld p 8 8), BitVec.ofNat 64 (fld p 16 8),
      fld p 24 4⟩
    exec (.trigoutConfigure c) s₀ = .next (
      doneIn trigoutConfigureDef s₀ u (setTrigOut s (pb c 0) { x with
        cfgs := (s.now, g) :: keepCfgs s.now x.cfgs, idles := x.idles ++ [(s.now + 160, g.invert)] }) [] 0)) ∧
  -- SHUTTER_READ_COUNTERS (R272)
  (∀ (c : Cmd) (u : Nat) (s₀ s : State),
    takenUp shutterReadCountersDef c s₀ u → s = taken shutterReadCountersDef c s₀ u →
    let d := uDie u
    let clear := fun (l : List Nat) => if pb c 0 = 1 then l.foldl (fun s o => setReg s d o 0) s else s
    uCls u = clStream →
    let k := expoIdx (uIdx u)
    exec (.shutterReadCounters c) s₀ = .next (
      doneIn shutterReadCountersDef s₀ u (clear [rShtEarly k, rShtRearmMiss k,
        rShtBusyMiss k]) (leBytes 4 (reg s d (rShtEarly k)).toNat ++ leBytes 4 (reg s d (rShtRearmMiss k)).toNat ++
        leBytes 4 (reg s d (rShtBusyMiss k)).toNat) 0)) ∧
  -- SHUTTER_READ_COUNTERS (R272)
  (∀ (c : Cmd) (u : Nat) (s₀ s : State),
    takenUp shutterReadCountersDef c s₀ u → s = taken shutterReadCountersDef c s₀ u →
    uCls u ≠ clStream → uCls u = clSeq →
    exec (.shutterReadCounters c) s₀ = .next (
      doneIn shutterReadCountersDef s₀ u s (counterBytes (seqOf s (uIdx u))) 0)) ∧
  -- SHUTTER_READ_COUNTERS (R272)
  (∀ (c : Cmd) (u : Nat) (s₀ s : State),
    takenUp shutterReadCountersDef c s₀ u → s = taken shutterReadCountersDef c s₀ u →
    let d := uDie u
    let clear := fun (l : List Nat) => if pb c 0 = 1 then l.foldl (fun s o => setReg s d o 0) s else s
    uCls u ≠ clStream → uCls u ≠ clSeq →
    exec (.shutterReadCounters c) s₀ = .next (
      doneIn shutterReadCountersDef s₀ u (if d = 0 then clear [rShtCandLate, rShtMerged,
        rShtOutDrop] else s) (dieZeroReg s d rShtCandLate ++ dieZeroReg s d rShtMerged ++ dieZeroReg s d rShtOutDrop ++
        leBytes 4 (negUsed (negOf s d))) 0))

/-- The commands of chains, measurement, the densitometer and calibration complete with the result their rules give. -/
def Obligations.ChainCommandsComplete : Prop :=
  -- CHAIN_CONFIGURE (R309)
  (∀ (cm : Cmd) (u : Nat) (s₀ s : State), takenUp chainConfigureDef cm s₀ u → s = taken chainConfigureDef cm s₀ u →
    let d := uDie u
    let c := uIdx u
    let x := chainOf s d c
    let g := (chainPay cm).1
    let e := (chainPay cm).2
    let y := streamOf s d (expoOf c)
    finalOk g → fftOk g e.allowSkip → ¬(g.decLog2 < 2 && armed y && y.format = 2) →
    let s1 := setChain s d c (applyAll { x with cfg := g, configured := true, expNext := x.expNext ++ [(s.now, e)] })
    let s2 :=
      if x.cfg = g then s1
      else if settles x.cfg g then chainSource (settle s1 d c 3) d c false
      else setChain s1 d c { abandonRecs (chainOf s1 d c) with recWait := some s.now }
    let r := chainResult s2 d c
    exec (.chainConfigure cm) s₀ = .next (doneIn chainConfigureDef s₀ u r.2 r.1 0)) ∧
  -- CHAIN_SELECT_LANE (R283)
  (∀ (cm : Cmd) (u : Nat) (s₀ s : State), takenUp chainSelectLaneDef cm s₀ u → s = taken chainSelectLaneDef cm s₀ u →
    let d := uDie u
    let c := uIdx u
    let n := pb cm 0
    let x := chainOf s d c
    !(baudOver s d n) →
    let s0 := if chainTakes s d n then s else cmpForget s d n
    let s1 := chainSource (settle (setChain s0 d c { x with
      lane := some n, laneWas := x.lane, laneAt := s.now, lost := false, missing := none, lastOut := none,
        calDue := none
      dc := if bitAt (pb cm 1) 0 then tset 0 x.dc n 0 else x.dc }) d c 2) d c true
    let s2 := match x.lane with | some m => calSync s1 d m | none => s1
    exec (.chainSelectLane cm) s₀ = .next (doneIn chainSelectLaneDef s₀ u s2 [] 0)) ∧
  -- CHAIN_START (R317)
  (∀ (cm : Cmd) (u : Nat) (s₀ s : State), takenUp chainStartDef cm s₀ u → s = taken chainStartDef cm s₀ u →
    let d := uDie u
    let c := uIdx u
    let x := chainOf s d c
    !(safelight s d) → awake s u → x.st == .stopped → x.configured → x.lane.isSome →
    let x1 := { applyAll x with
      st := .settling, seqNo := 0, recs := [], done := [], setAband := false, dropBefore := false, ovr := 0,
      ovrKinds := 0, ovrAt := none, gapClock := false }
    exec (.chainStart cm) s₀ = .next (doneIn chainStartDef s₀ u (settle (setChain s d c x1) d c 1) [] 0)) ∧
  -- CHAIN_STOP (R315)
  (∀ (c : Cmd) (u : Nat) (s₀ s : State),
    takenUp chainStopDef c s₀ u → s = taken chainStopDef c s₀ u → ¬((chainOf s (uDie u) (uIdx u)).st == .stopped) →
    exec (.chainStop c) s₀ = .next (doneIn chainStopDef s₀ u (chainStop s (uDie u) (uIdx u)) [] 0)) ∧
  -- MASK_LOAD (R305)
  (∀ (cm : Cmd) (u : Nat) (s₀ s : State), takenUp maskLoadDef cm s₀ u → s = taken maskLoadDef cm s₀ u →
    let d := uDie u
    let c := uIdx u
    let x := chainOf s d c
    let es := maskEntries cm.payload 8 (fld cm.payload 4 4)
    exec (.maskLoad cm) s₀ = .next (
      doneIn maskLoadDef s₀ u (setChain s d c { x with
        maskNext := x.maskNext ++ [(s.now, fld cm.payload 0 4, es)] }) [] 0)) ∧
  -- DCBLOCK_FREEZE (R282)
  (∀ (cm : Cmd) (u : Nat) (s₀ s : State), takenUp dcblockFreezeDef cm s₀ u → s = taken dcblockFreezeDef cm s₀ u →
    let x := chainOf s (uDie u) (uIdx u)
    exec (.dcblockFreeze cm) s₀ = .next (
      doneIn dcblockFreezeDef s₀ u (setChain s (uDie u) (uIdx u) { x with
        frozen := pb cm 0 = 1
        frozenWas := if x.st == .stopped then [] else x.frozenWas ++ [(s.now, x.frozen)] }) [] 0)) ∧
  -- MEASURE_CONFIGURE (R342)
  (∀ (c : Cmd) (u : Nat) (s₀ s : State), takenUp measureConfigureDef c s₀ u → s = taken measureConfigureDef c s₀ u →
    let d := uDie u
    let k := pb c 0
    !(safelight s d) → ¬((measPay c).enable != (measOf s d k).enable && armed (streamOf s d (expoOf k))) →
    let x := streamOf s d (expoOf k)
    exec (.measureConfigure c) s₀ = .next (
      doneIn measureConfigureDef s₀ u (setMeas (keepMeas s d k (if armed x then x.seg.entry else s.now)) d k
        (measPay c)) [] 0)) ∧
  -- SHEET_CONFIGURE (R323)
  (∀ (c : Cmd) (u : Nat) (s₀ s : State), takenUp sheetConfigureDef c s₀ u → s = taken sheetConfigureDef c s₀ u →
    let d := uDie u
    let k := pb c 0
    let a := accOf s d k
    let g := sheetPay c
    let need := regionMib g
    let have_ := match a.region with | some (_, m) => m | none => 0
    !a.exporting.isSome → !(sweepFeeds s d k none) → need ≤ poolFree s d + have_ →
    let s1 := setPoolFree s d (poolFree s d + have_ - need)
    let r := if need = 0 then (none, s1)
      else if need = have_ then (a.region, s1)
      else let x := allocAddr s1; (some (x.1, need), x.2)
    let a1 := { accClear s d a with
      cfg := g, region := r.1, blank := if need = have_ then a.blank else 0 < need, nextNum := 0, lastNum := none }
    let res := match r.1 with | some (h, m) => leBytes 8 h ++ leBytes 4 m | none => []
    exec (.sheetConfigure c) s₀ = .next (
      doneIn sheetConfigureDef s₀ u (setAcc r.2 d k a1) res 0)) ∧
  -- SHEET_CLEAR (R332)
  (∀ (c : Cmd) (u : Nat) (s₀ s : State), takenUp sheetClearDef c s₀ u → s = taken sheetClearDef c s₀ u →
    let d := uDie u
    let a := accOf s d (pb c 0)
    !(safelight s d) → a.cfg.kind ≠ 0 → !a.exporting.isSome →
    exec (.sheetClear c) s₀ = .next (doneIn sheetClearDef s₀ u (setAcc s d (pb c 0) (accClear s d a)) [] 0)) ∧
  -- SHEET_EXPORT (R333)
  (∀ (c : Cmd) (u : Nat) (s₀ s : State), takenUp sheetExportDef c s₀ u → s = taken sheetExportDef c s₀ u →
    let d := uDie u
    let k := pb c 0
    let a := accOf s d k
    let buf := fld c.payload 8 8
    !(safelight s d) → a.cfg.kind ≠ 0 → !a.exporting.isSome →
    ¬(buf ≠ 0 && fld c.payload 16 4 < 4096 * worstEnvs a.cfg (pb c 1)) →
    let clr := pb c 2 = 1
    let x : SheetExport := {
      fid := s₀.host.nextId, layout := pb c 1, clearAfter := clr, buffer := buf, port := c.port, cnt := a.cnt,
        inc := a.inc
      out := a.out, sat := a.sat, clear := a.clear, clearPhys := a.clearPhys, snapDie := dieTime s d,
        snapPhys := s.now
      num := a.nextNum }
    let a1 := { a with exporting := some x, nextNum := a.nextNum + 1 }
    exec (.sheetExport c) s₀ = .next (
      waitsIn sheetExportDef s₀ u (setAcc s d k (if clr then accClear s d a1 else a1)))) ∧
  -- CAL_CONFIGURE (R377)
  (∀ (c : Cmd) (u : Nat) (s₀ s0 : State), takenUp calConfigureDef c s₀ u → s0 = taken calConfigureDef c s₀ u →
    let d := uDie u
    let n := uIdx u
    let s := calSync s0 d n
    let x := calAbort (calOf s d n)
    let p := c.payload
    exec (.calConfigure c) s₀ = .next (
      doneIn calConfigureDef s₀ u (calSync (setCal s d n { x with
        mode := if pb c 0 = 255 then x.mode else pb c 0
        gap := bitAt (pb c 1) 0, holdExp := bitAt (pb c 1) 1, noFast := bitAt (pb c 1) 2
        period := orDefault (fld p 4 4) 10, gapWait := orDefault (fld p 8 4) 100,
          minTrans := orDefault (fld p 12 4) 65536
        spreadLo := orDefault (pb c 16) 4, spreadHi := orDefault (pb c 17) 40,
          railMax := orDefault (fld p 18 2) 1024 }) d n) [] 0)) ∧
  -- CAL_LOAD (R375)
  (∀ (c : Cmd) (u : Nat) (s₀ s : State), takenUp calLoadDef c s₀ u → s = taken calLoadDef c s₀ u →
    let d := uDie u
    let ls := calLanes u
    calLoadOk c u → ¬(ls.any fun n => pwOf s (laneUid d n) != .asleep) →
    exec (.calLoad c) s₀ = .next (
      doneIn calLoadDef s₀ u ((List.range ls.length).foldl (fun s j =>
        let n := (ls[j]?).getD 0
        setCal s d n { calOf s d n with
          coef := recordCoef (recordPart c j), coefOld := recordCoef (recordPart c j), result := 8,
            converged := false, fails := 0, stuck := false }) s) [] 0)) ∧
  -- CAL_SAVE (R374)
  (∀ (c : Cmd) (u : Nat) (s₀ s : State), takenUp calSaveDef c s₀ u → s = taken calSaveDef c s₀ u →
    let ls := calLanes u
    256 * ls.length ≤ fld c.payload 8 4 →
    exec (.calSave c) s₀ = .next (
      doneIn calSaveDef s₀ u (hostWrite s c.port (fld c.payload 0 8) (ls.flatMap (calRecord s (uDie u)))) [] 0)) ∧
  -- CAL_HOLD (R377)
  (∀ (c : Cmd) (u : Nat) (s₀ s0 : State), takenUp calHoldDef c s₀ u → s0 = taken calHoldDef c s₀ u →
    let d := uDie u
    let n := uIdx u
    let s := calSync s0 d n
    let x := calOf s d n
    let hold := pb c 0 = 1
    x.suspended = decide hold →
    exec (.calHold c) s₀ = .next (doneIn calHoldDef s₀ u s [] 0)) ∧
  -- CAL_HOLD (R377)
  (∀ (c : Cmd) (u : Nat) (s₀ s0 : State), takenUp calHoldDef c s₀ u → s0 = taken calHoldDef c s₀ u →
    let d := uDie u
    let n := uIdx u
    let s := calSync s0 d n
    let x := calOf s d n
    let hold := pb c 0 = 1
    x.suspended ≠ decide hold → hold →
    exec (.calHold c) s₀ = .next (
      doneIn calHoldDef s₀ u (setCal s d n { calAbort x with
        phase := .inactive, suspended := true, converged := false }) [] 0)) ∧
  -- CAL_HOLD (R377)
  (∀ (c : Cmd) (u : Nat) (s₀ s0 : State), takenUp calHoldDef c s₀ u → s0 = taken calHoldDef c s₀ u →
    let d := uDie u
    let n := uIdx u
    let s := calSync s0 d n
    let x := calOf s d n
    let hold := pb c 0 = 1
    x.suspended ≠ decide hold → !hold →
    exec (.calHold c) s₀ = .next (doneIn calHoldDef s₀ u (setCal s d n { x with suspended := false }) [] 0))

/-- The commands of engines, services, volumes and transfer channels complete with the result their rules give. -/
def Obligations.EngineCommandsComplete : Prop :=
  -- IMAGE_LOAD (R411)
  (∀ (c : Cmd) (u : Nat) (s₀ s : State), takenUp imageLoadDef c s₀ u → s = taken imageLoadDef c s₀ u →
    let d := uDie u
    let e := uIdx u
    let x := engOf s d e
    !x.slot.isSome → x.st != .running → x.st != .swapping → awake s u → hostReadable s c.port →
    let p := readImage s c.port (fld c.payload 0 8) (fld c.payload 8 4)
    imgFault s [2, 3, 4] p = none → heapFits s d e (imgHeap p) →
    let s1 := addMeasure (placeImage s d e (placeOf p)) d e p (dieTime s d)
    let y := engOf s1 d e
    exec (.imageLoad c) s₀ = .next (doneIn imageLoadDef s₀ u s1 (leBytes 8 y.heapAddr ++ leBytes 4 y.heapMib) 0)) ∧
  -- IMAGE_UNLOAD (R415)
  (∀ (c : Cmd) (u : Nat) (s₀ s : State), takenUp imageUnloadDef c s₀ u → s = taken imageUnloadDef c s₀ u →
    let d := uDie u
    let x := engOf s d (uIdx u)
    !x.slot.isSome → x.st != .running → x.st != .swapping →
    ¬(x.derived.any (fun i => (streamOf s d i).state == .rolling)) →
    let r := unloadEngine s d (uIdx u)
    exec (.imageUnload c) s₀ = .next (doneIn imageUnloadDef s₀ u r.1 (leBytes 4 r.2.1 ++ leBytes 4 0 ++
      leBytes 8 r.2.2) 0)) ∧
  -- ENGINE_START (R413)
  (∀ (c : Cmd) (u : Nat) (s₀ s : State), takenUp engineStartDef c s₀ u → s = taken engineStartDef c s₀ u →
    let d := uDie u
    let e := uIdx u
    let x := engOf s d e
    let g := engPay c
    let resume := pb c 0 = 1
    !x.slot.isSome → !(safelight s d) → awake s u → startable x resume →
    ¬(resume && !(g.ins = x.ins.map (·.src) && g.outs = x.outs.map (·.stream))) →
    setFail s d e x.inUse x.outUse g = none →
    exec (.engineStart c) s₀ = .next (
      doneIn engineStartDef s₀ u (if resume then engResume s d e g else engStart s d e g) [] 0)) ∧
  -- ENGINE_STOP (R414)
  (∀ (c : Cmd) (u : Nat) (s₀ s : State), takenUp engineStopDef c s₀ u → s = taken engineStopDef c s₀ u →
    let d := uDie u
    let e := uIdx u
    let x := engOf s d e
    !x.slot.isSome → !(x.st == .running || x.st == .swapping) →
    exec (.engineStop c) s₀ = .next (doneIn engineStopDef s₀ u s [] 0)) ∧
  -- ENGINE_STOP (R414)
  (∀ (c : Cmd) (u : Nat) (s₀ s : State), takenUp engineStopDef c s₀ u → s = taken engineStopDef c s₀ u →
    let d := uDie u
    let e := uIdx u
    let x := engOf s d e
    !x.slot.isSome → (x.st == .running || x.st == .swapping) →
    exec (.engineStop c) s₀ = .next (
      pendsIn engineStopDef s₀ (if pb c 0 = 0 then engStopNow s d e [s₀.host.nextId] else engStopPoint s d e
        [s₀.host.nextId]))) ∧
  -- ENGINE_READ_STATE (R422)
  (∀ (c : Cmd) (u : Nat) (s₀ s : State), takenUp engineReadStateDef c s₀ u → s = taken engineReadStateDef c s₀ u →
    let x := engOf s (uDie u) (uIdx u)
    let b := fld c.payload 0 8
    ¬(b ≠ 0 && (x.st == .running || x.st == .swapping || !awake s u)) →
    exec (.engineReadState c) s₀ = .next (
      doneIn engineReadStateDef s₀ u (if b = 0 then s else hostWrite s c.port b (engDump x)) (leBytes 1 (engStCode
        x.st) ++ leBytes 1 x.cause ++ leBytes 1 (b2n (x.swap.isSome && x.st != .swapping)) ++ leBytes 1 0 ++
        leBytes 4 x.pc ++ leBytes 8 x.retired) 0)) ∧
  -- SERVICE_START (R427)
  (∀ (c : Cmd) (u : Nat) (s₀ s : State), takenUp serviceStartDef c s₀ u → s = taken serviceStartDef c s₀ u →
    let d := uDie u
    let k := pb c 0
    !(safelight s d) → ¬((svcOf s d k).st != .none) → hostReadable s c.port →
    let r := svcReq s c
    svcFaultReason s 3 r.img = none → r.dec.bind (fun q => (svcFaultReason s 4 q).map fun f => (q, f)) = none →
    svcStartFail s d r = none →
    exec (.serviceStart c) s₀ = .next (doneIn serviceStartDef s₀ u (svcStart s d r) [] 0)) ∧
  -- SERVICE_STOP (R430)
  (∀ (c : Cmd) (u : Nat) (s₀ s : State), takenUp serviceStopDef c s₀ u → s = taken serviceStopDef c s₀ u →
    let d := uDie u
    let k := pb c 0
    let x := svcOf s d k
    let rel := pb c 2 = 1
    x.st != .none → ¬((rel && svcRolls s d k)) → x.st == .stopped → !rel →
    exec (.serviceStop c) s₀ = .next (doneIn serviceStopDef s₀ u s [] 0)) ∧
  -- SERVICE_STOP (R430)
  (∀ (c : Cmd) (u : Nat) (s₀ s : State), takenUp serviceStopDef c s₀ u → s = taken serviceStopDef c s₀ u →
    let d := uDie u
    let k := pb c 0
    let x := svcOf s d k
    let rel := pb c 2 = 1
    x.st != .none → ¬((rel && svcRolls s d k)) → x.st == .stopped → rel → svcQuiet s d k →
    let r := svcRelease s d k
    exec (.serviceStop c) s₀ = .next (doneIn serviceStopDef s₀ u r.1 (leBytes 4 r.2.1 ++ leBytes 4 0 ++
      leBytes 8 r.2.2) 0)) ∧
  -- SERVICE_STOP (R430)
  (∀ (c : Cmd) (u : Nat) (s₀ s : State), takenUp serviceStopDef c s₀ u → s = taken serviceStopDef c s₀ u →
    let d := uDie u
    let k := pb c 0
    let x := svcOf s d k
    let rel := pb c 2 = 1
    x.st != .none → ¬((rel && svcRolls s d k)) → x.st == .stopped → rel → !(svcQuiet s d k) →
    exec (.serviceStop c) s₀ = .next (
      waitsIn serviceStopDef s₀ u (setSvc s d k { x with stopFids := x.stopFids ++ [(s₀.host.nextId, true)] }))) ∧
  -- SERVICE_STOP (R430)
  (∀ (c : Cmd) (u : Nat) (s₀ s : State), takenUp serviceStopDef c s₀ u → s = taken serviceStopDef c s₀ u →
    let d := uDie u
    let k := pb c 0
    let x := svcOf s d k
    let rel := pb c 2 = 1
    x.st != .none → ¬((rel && svcRolls s d k)) → x.st != .stopped →
    exec (.serviceStop c) s₀ = .next (waitsIn serviceStopDef s₀ u (svcStop s d k s₀.host.nextId (pb c 1 = 0) rel))) ∧
  -- SERVICE_QUERY (R450)
  (∀ (c : Cmd) (u : Nat) (s₀ s : State), takenUp serviceQueryDef c s₀ u → s = taken serviceQueryDef c s₀ u →
    let d := uDie u
    let x := svcOf s d (pb c 0)
    let n := x.inputs.foldl (fun a i => a + ((streamOf s (i.1 / 128) (i.1 % 128)).delivered - i.2)) 0
    let v := match x.vol with | some v => (v.st, onlineMask v) | none => (0, 0)
    exec (.serviceQuery c) s₀ = .next (
      doneIn serviceQueryDef s₀ u s (leBytes 1 (svcCode x.st) ++ leBytes 1 x.service ++ leBytes 2 x.mask ++
        leBytes 1 v.1 ++ leBytes 1 v.2 ++ leBytes 2 0 ++ leBytes 8 n) 0)) ∧
  -- VOLUME_CREATE (R448)
  (∀ (c : Cmd) (u : Nat) (s₀ s : State), takenUp volumeCreateDef c s₀ u → s = taken volumeCreateDef c s₀ u →
    let d := uDie u
    let k := pb c 0
    let x := svcOf s d k
    let ms := createPorts c
    let p := c.payload
    x.service = 1 → x.st == .running → x.vol = none →
    (ms.all fun m => (driveOf s d m).suitable && (volOfDrive s d m).isNone) →
    (bitAt (pb c 2) 0 || !(ms.any fun m => sbValid (driveBlock s d m 0) || sbValid (driveBlock s d m 1))) →
    (ms.all fun m => let b := driveBlocks (driveOf s d m); let r := regionSizes c b; 2 + r.1 + r.2 < b) →
    let v : Volume := {
      st := 0, closing := false, fid := s₀.host.nextId, id := fld p 8 8, stripe := fld p 16 2, flushMs := fld p 18 2
      sbMs := fld p 28 2, timeoutMs := fld p 30 2, mask := fld p 6 2, setIndex := pb c 3, setCount := pb c 4
      created := dieTime s d, closed := 0, members := newMembers c s d, rot := 0
      streams := x.inputs.map fun i => newFixStream i.1
      writes := [], nextId := 0, rewrite := [], written := 0, flushAt := s.now, sbAt := s.now }
    let ops : List DrvOp := (if bitAt (pb c 2) 1 then [.dealloc] else []) ++ [.flushSb 0 0 0, .flushEnd]
    let s1 := ms.foldl (fun s m => setDrive s d m { driveOf s d m with enabled := true, ops := ops }) s
    exec (.volumeCreate c) s₀ = .next (waitsIn volumeCreateDef s₀ u (setVol s1 d k v))) ∧
  -- VOLUME_CLOSE (R450)
  (∀ (c : Cmd) (u : Nat) (s₀ s : State), takenUp volumeCloseDef c s₀ u → s = taken volumeCloseDef c s₀ u →
    let d := uDie u
    let k := pb c 0
    ∀ v, (svcOf s d k).vol = some v → (v.st = 1 || v.st = 3) → !v.closing →
    let v1 := { v with
      closing := true, fid := s₀.host.nextId, closed := dieTime s d
      streams := v.streams.map fun f =>
        { f with limit := some (fixSpool s f.sid) } }
    exec (.volumeClose c) s₀ = .next (waitsIn volumeCloseDef s₀ u (closeCheck (setVol s d k v1) d k))) ∧
  -- XFER_LOAD (R481)
  (∀ (c : Cmd) (u : Nat) (s₀ s : State), takenUp xferLoadDef c s₀ u → s = taken xferLoadDef c s₀ u →
    let d := uDie u
    let n := uIdx u
    let x := xferOf s d n
    let p := c.payload
    let only := bitAt (fld p 12 1) 0
    let s1 := memWrite s (.prog d) (16 * fld p 0 2) ((p.drop 80).take (16 * fld p 2 2))
    !(xferOwned s d n) → only →
    exec (.xferLoad c) s₀ = .next (doneIn xferLoadDef s₀ u s1 (xferResult x.buf) 0)) ∧
  -- XFER_LOAD (R481)
  (∀ (c : Cmd) (u : Nat) (s₀ s : State), takenUp xferLoadDef c s₀ u → s = taken xferLoadDef c s₀ u →
    let d := uDie u
    let n := uIdx u
    let x := xferOf s d n
    let p := c.payload
    let only := bitAt (fld p 12 1) 0
    let s1 := memWrite s (.prog d) (16 * fld p 0 2) ((p.drop 80).take (16 * fld p 2 2))
    !(xferOwned s d n) → !only → (stopped x.st || x.st == .idle) →
    ∀ b s2, xferBuf s1 d x.buf (fld p 8 4) (bitAt (fld p 12 1) 1) = some (b, s2) →
    let bases := xferBases p ((b.map (·.1)).getD 0)
    let port := fld p 6 1
    exec (.xferLoad c) s₀ = .next (
      doneIn xferLoadDef s₀ u (setXfer s2 d n { x with
        st := .loaded, entry := fld p 4 2, pc := fld p 4 2, port := if port = 0xFF then none else some port
        weight := fld p 7 1, bases := bases, loaded := bases.map (·.1), active := Xfer.reset.active
        kicks := 0, cause := 0, moving := false, lastBeat := false, buf := b }) (xferResult b) 0)) ∧
  -- XFER_START (R482)
  (∀ (c : Cmd) (u : Nat) (s₀ s : State), takenUp xferStartDef c s₀ u → s = taken xferStartDef c s₀ u →
    let d := uDie u
    let n := uIdx u
    let x := xferOf s d n
    !(xferOwned s d n) → !(safelight s d) → stopped x.st →
    exec (.xferStart c) s₀ = .next (
      doneIn xferStartDef s₀ u (setXfer s d n { x with
        st := .running, pc := x.entry, lc := Xfer.reset.lc, active := Xfer.reset.active, bytes := 0, signals := 0
        cause := 0, moving := false, lastBeat := false, timedOut := false
        bases := if pb c 0 = 1 then x.bases.zipWith (fun b v => (v, b.2)) x.loaded else x.bases }) [] 0)) ∧
  -- XFER_PAUSE (R474)
  (∀ (c : Cmd) (u : Nat) (s₀ s : State), takenUp xferPauseDef c s₀ u → s = taken xferPauseDef c s₀ u →
    let d := uDie u
    let n := uIdx u
    let x := xferOf s d n
    !(xferOwned s d n) → x.st == .paused →
    exec (.xferPause c) s₀ = .next (doneIn xferPauseDef s₀ u s [] 0)) ∧
  -- XFER_PAUSE (R474)
  (∀ (c : Cmd) (u : Nat) (s₀ s : State), takenUp xferPauseDef c s₀ u → s = taken xferPauseDef c s₀ u →
    let d := uDie u
    let n := uIdx u
    let x := xferOf s d n
    !(xferOwned s d n) → x.st != .paused → (x.st == .running || x.st == .waiting) →
    exec (.xferPause c) s₀ = .next (
      waitsIn xferPauseDef s₀ u (xferPause (setXfer s d n { x with
        pauseFids := x.pauseFids ++ [s₀.host.nextId] }) d n))) ∧
  -- XFER_RESUME (R479)
  (∀ (c : Cmd) (u : Nat) (s₀ s : State), takenUp xferResumeDef c s₀ u → s = taken xferResumeDef c s₀ u →
    let d := uDie u
    let n := uIdx u
    let x := xferOf s d n
    !(xferOwned s d n) → !(safelight s d) → (x.st == .paused || x.st == .error) → ¬(x.st == .paused && pb c 0 = 1) →
    exec (.xferResume c) s₀ = .next (doneIn xferResumeDef s₀ u (xferContinue s d n (pb c 0 = 1)) [] 0)) ∧
  -- XFER_RESET (R482)
  (∀ (c : Cmd) (u : Nat) (s₀ s : State), takenUp xferResetDef c s₀ u → s = taken xferResetDef c s₀ u →
    let d := uDie u
    let n := uIdx u
    let x := xferOf s d n
    !(xferOwned s d n) → (x.st == .running || x.st == .waiting) →
    exec (.xferReset c) s₀ = .next (
      pendsIn xferResetDef s₀ (setXfer s d n { x with
        resetFids := x.resetFids ++ [(s₀.host.nextId, decide (pb c 0 = 1))] }))) ∧
  -- XFER_RESET (R482)
  (∀ (c : Cmd) (u : Nat) (s₀ s : State), takenUp xferResetDef c s₀ u → s = taken xferResetDef c s₀ u →
    let d := uDie u
    let n := uIdx u
    let x := xferOf s d n
    !(xferOwned s d n) → x.st != .running → x.st != .waiting →
    exec (.xferReset c) s₀ = .next (doneIn xferResetDef s₀ u (xClear s d n (pb c 0 = 1)) [] 0))

/-- The commands of probes, bias, housekeeping and Proof complete with the result their rules give. -/
def Obligations.ProbeAndProofCommandsComplete : Prop :=
  -- EEPROM_READ (R532)
  (∀ (c : Cmd) (u : Nat) (s₀ s : State), takenUp eepromReadDef c s₀ u → s = taken eepromReadDef c s₀ u →
    let d := uDie u
    let p := uIdx u
    let x := probeOf s d p
    !x.discovering → !x.read.isSome → probeHere s d p → x.eepromOk →
    exec (.eepromRead c) s₀ = .next (
      pendsIn eepromReadDef s₀ (setProbe s d p { x with
        read := some (s₀.host.nextId, c.port, fld c.payload 0 8, fld c.payload 10 2) }))) ∧
  -- BIAS_CONFIGURE (R520)
  (∀ (c : Cmd) (u : Nat) (s₀ s : State), takenUp biasConfigureDef c s₀ u → s = taken biasConfigureDef c s₀ u →
    let d := uDie u
    let p := uIdx u
    let b := biasOf s d p
    let busy := b.phase == .toZ || b.phase == .gap || b.phase == .toTarget || b.offDue
    awake s u → !busy →
    let s1 := setF (setF s d (fPbdCfgStepM1 p) (fld c.payload 2 2 - 1)) d (fPbdCfgIntervalM1 p) (fld c.payload 4 4 -
      1)
    let range := pb c 0
    range = biasRange s d p →
    exec (.biasConfigure c) s₀ = .next (doneIn biasConfigureDef s₀ u s1 [] 0)) ∧
  -- BIAS_CONFIGURE (R520)
  (∀ (c : Cmd) (u : Nat) (s₀ s : State), takenUp biasConfigureDef c s₀ u → s = taken biasConfigureDef c s₀ u →
    let d := uDie u
    let p := uIdx u
    let b := biasOf s d p
    let busy := b.phase == .toZ || b.phase == .gap || b.phase == .toTarget || b.offDue
    awake s u → !busy →
    let s1 := setF (setF s d (fPbdCfgStepM1 p) (fld c.payload 2 2 - 1)) d (fPbdCfgIntervalM1 p) (fld c.payload 4 4 -
      1)
    let range := pb c 0
    range ≠ biasRange s d p →
    let s2 := biasReplace s1 d p
    let b2 := { biasOf s2 d p with newRange := range, began := s.now, fid := s₀.host.nextId }
    b.driving →
    exec (.biasConfigure c) s₀ = .next (
      waitsIn biasConfigureDef s₀ u (biasRetarget s2 d p { b2 with
        phase := .toZ, target := fld c.payload 8 2, offDue := b.phase == .off }))) ∧
  -- BIAS_CONFIGURE (R520)
  (∀ (c : Cmd) (u : Nat) (s₀ s : State), takenUp biasConfigureDef c s₀ u → s = taken biasConfigureDef c s₀ u →
    let d := uDie u
    let p := uIdx u
    let b := biasOf s d p
    let busy := b.phase == .toZ || b.phase == .gap || b.phase == .toTarget || b.offDue
    awake s u → !busy →
    let s1 := setF (setF s d (fPbdCfgStepM1 p) (fld c.payload 2 2 - 1)) d (fPbdCfgIntervalM1 p) (fld c.payload 4 4 -
      1)
    let range := pb c 0
    range ≠ biasRange s d p →
    let s2 := biasReplace s1 d p
    let b2 := { biasOf s2 d p with newRange := range, began := s.now, fid := s₀.host.nextId }
    !b.driving →
    exec (.biasConfigure c) s₀ = .next (
      waitsIn biasConfigureDef s₀ u (rangeDone (setBias (setF s2 d (fPbdCfgRange p) range) d p { b2 with
        target := fld c.payload 8 2 }) d p 1))) ∧
  -- BIAS_SET (R519)
  (∀ (c : Cmd) (u : Nat) (s₀ s : State), takenUp biasSetDef c s₀ u → s = taken biasSetDef c s₀ u →
    let d := uDie u
    let p := uIdx u
    let code := fld c.payload 0 2
    awake s u →
    let v := putFld (fPbdTargetCode p) 0 code
    let s1 := biasUpdate (setShadow (setReg s d (rPbdTarget p) v) d (rPbdTarget p) v) d p code
    (pb c 2 = 0 || (biasSettled s1 d p && (biasOf s1 d p).phase == .plain)) →
    exec (.biasSet c) s₀ = .next (doneIn biasSetDef s₀ u s1 [] 0)) ∧
  -- BIAS_SET (R519)
  (∀ (c : Cmd) (u : Nat) (s₀ s : State), takenUp biasSetDef c s₀ u → s = taken biasSetDef c s₀ u →
    let d := uDie u
    let p := uIdx u
    let code := fld c.payload 0 2
    awake s u →
    let v := putFld (fPbdTargetCode p) 0 code
    let s1 := biasUpdate (setShadow (setReg s d (rPbdTarget p) v) d (rPbdTarget p) v) d p code
    pb c 2 ≠ 0 → ¬((biasSettled s1 d p && (biasOf s1 d p).phase == .plain)) →
    exec (.biasSet c) s₀ = .next (
      waitsIn biasSetDef s₀ u (setBias s1 d p { biasOf s1 d p with settleFids := [s₀.host.nextId] }))) ∧
  -- PWM_CONFIGURE (R526)
  (∀ (c : Cmd) (u : Nat) (s₀ s : State), takenUp pwmConfigureDef c s₀ u → s = taken pwmConfigureDef c s₀ u →
    let d := uDie u
    let p := uIdx u
    let w := pwmOf s d p
    awake s u →
    let s1 := setPwm s d p { w with
      next := some (bitAt (pb c 0) 0, bitAt (pb c 0) 1, fld c.payload 4 4, fld c.payload 8 2), fids := w.fids ++
        [s₀.host.nextId] }
    exec (.pwmConfigure c) s₀ = .next (
      if w.running then pendsIn pwmConfigureDef s₀ (if w.running then s1 else pwmBoundary s1 d p) else waitsIn
        pwmConfigureDef s₀ u (if w.running then s1 else pwmBoundary s1 d p))) ∧
  -- HKADC_CONFIGURE (R528)
  (∀ (c : Cmd) (u : Nat) (s₀ s : State), takenUp hkadcConfigureDef c s₀ u → s = taken hkadcConfigureDef c s₀ u →
    let d := uDie u
    awake s u →
    let s1 := setF (setF (setF s d fHkaCfgSource (pb c 0)) d fHkaCfgEdge (pb c 2)) d fHkaCfgPort (pb c 1)
    let s2 := setF (setF s1 d fHkaPeriodPeriod (fld c.payload 4 4)) d fHkaDelayDelay (fld c.payload 8 2)
    exec (.hkadcConfigure c) s₀ = .next (doneIn hkadcConfigureDef s₀ u (setHka s2 d { hkaOf s2 d with
      timerAt := s.now }) [] 0)) ∧
  -- HKA_CAL_ZERO (R531)
  (∀ (c : Cmd) (u : Nat) (s₀ s : State), takenUp (calDef false) c s₀ u → s = taken (calDef false) c s₀ u →
    let d := uDie u
    let h := hkaOf s d
    awake s u → h.cal = none → 
    exec (.hkaCalZero c) s₀ = .next (
      waitsIn (calDef false) s₀ u (calBegin s d ⟨false, pb c 0, fld c.payload 2 2, 0, 0, s₀.host.nextId⟩))) ∧
  -- HKA_CAL_FS (R531)
  (∀ (c : Cmd) (u : Nat) (s₀ s : State), takenUp (calDef true) c s₀ u → s = taken (calDef true) c s₀ u →
    let d := uDie u
    let h := hkaOf s d
    awake s u → h.cal = none → (tget none h.zero (pb c 0)).isSome → 
    exec (.hkaCalFs c) s₀ = .next (
      waitsIn (calDef true) s₀ u (calBegin s d ⟨true, pb c 0, fld c.payload 2 2, 0, 0, s₀.host.nextId⟩))) ∧
  -- PROOF_CONFIGURE (R556)
  (∀ (c : Cmd) (u : Nat) (s₀ s : State), takenUp proofConfigureDef c s₀ u → s = taken proofConfigureDef c s₀ u →
    let rate := 2 * dpllKhz s
    !(safelight s 0) → awake s u → 160000 ≤ rate → rate ≤ 2500000 →
    exec (.proofConfigure c) s₀ = .next (
      pendsIn proofConfigureDef s₀ (proofApply (setPrf s { s.prf with
        configs := s.prf.configs ++ [(s₀.host.nextId, c.payload)] })))) ∧
  -- LAYER_CONFIGURE (R546)
  (∀ (c : Cmd) (u : Nat) (s₀ s : State), takenUp layerConfigureDef c s₀ u → s = taken layerConfigureDef c s₀ u →
    exec (.layerConfigure c) s₀ = .next (
      doneIn layerConfigureDef s₀ u (setPrf s { s.prf with
        stageL := s.prf.stageL.set (fld c.payload 0 1) (layerPay c.payload) }) [] 0)) ∧
  -- PALETTE_LOAD (R546)
  (∀ (c : Cmd) (u : Nat) (s₀ s : State), takenUp paletteLoadDef c s₀ u → s = taken paletteLoadDef c s₀ u →
    let p := c.payload
    let t := (List.range (fld p 2 2)).foldl (fun t i =>
      tset (0 : W32) t (256 * fld p 0 1 + fld p 1 1 + i) (BitVec.ofNat 32 (fld p (8 + 4 * i) 4))) s.prf.stageP
    exec (.paletteLoad c) s₀ = .next (doneIn paletteLoadDef s₀ u (setPrf s { s.prf with stageP := t }) [] 0)) ∧
  -- REGION_PUSH (R557)
  (∀ (c : Cmd) (u : Nat) (s₀ s : State), takenUp regionPushDef c s₀ u → s = taken regionPushDef c s₀ u →
    let l := pushRegions s c.payload
    flagF s 0 fPrfStatConfigured → ¬(l.any (·.isNone)) →
    exec (.regionPush c) s₀ = .next (doneIn regionPushDef s₀ u (setPrf s { s.prf with
      staged := l.filterMap id }) [] 0)) ∧
  -- PRF_COMMIT (R546)
  (∀ (c : Cmd) (u : Nat) (s₀ s0 : State),
    takenUp prfCommitDef c s₀ u → s0 = taken prfCommitDef c s₀ u → flagF s0 0 fPrfStatConfigured →
    let s := timerEdges s0
    let x := s.prf
    let seq := getF s 0 fPrfCommitSeqCount
    let comps := getF s 0 fPrfCompCount
    let ended := match x.comp with | some k => k.left.isEmpty | none => comps ≠ 0
    let s1 := setPrf (wrapF s 0 fPrfCommitSeqCount 1) { x with
      commitL := x.stageL, commitP := x.stageP, pend := mergeRegions (x.pend ++ x.staged), staged := []
      before := some (prfBefore s) }
    exec (.prfCommit c) s₀ = .next (
      doneIn prfCommitDef s₀ u s1 (leBytes 4 seq ++ leBytes 4 (comps + (2 ^ 32 - 1)) ++ leBytes 1 (b2n ended)) 0))

/-- The commands of repair, power, attestation and ports complete with the result their rules give. -/
def Obligations.PackageCommandsComplete : Prop :=
  -- REPAIR_APPLY (R579)
  (∀ (c : Cmd) (u : Nat) (s₀ s : State), takenUp repairApplyDef c s₀ u → s = taken repairApplyDef c s₀ u →
    let d := uDie u
    let k := pb c 0
    let t := fld c.payload 4 4
    targetOk s d k t → (uCls u = clDie || (k = 1 && t = uIdx u)) → !(swapBusy s d k t) →
    ∀ n, pickSpare s d k (placeOf_ k t) (fld c.payload 8 2) = some n → s.pwr.record.length < 1022 → k = 1 →
    exec (.repairApply c) s₀ = .next (pendsIn repairApplyDef s₀ (engSwapBegin s d t n s₀.host.nextId))) ∧
  -- REPAIR_APPLY (R579)
  (∀ (c : Cmd) (u : Nat) (s₀ s : State), takenUp repairApplyDef c s₀ u → s = taken repairApplyDef c s₀ u →
    let d := uDie u
    let k := pb c 0
    let t := fld c.payload 4 4
    targetOk s d k t → (uCls u = clDie || (k = 1 && t = uIdx u)) → !(swapBusy s d k t) →
    ∀ n, pickSpare s d k (placeOf_ k t) (fld c.payload 8 2) = some n → s.pwr.record.length < 1022 → k ≠ 1 →
    exec (.repairApply c) s₀ = .next (
      waitsIn repairApplyDef s₀ u (tapsDue (swapBegin s ⟨k, d, t, n, some (s₀.host.nextId, u), hostReason s d k t,
        s.now⟩)))) ∧
  -- REPAIR_READ (R578)
  (∀ (c : Cmd) (u : Nat) (s₀ s : State),
    takenUp repairReadDef c s₀ u → s = taken repairReadDef c s₀ u → (recordBytes s).length ≤ fld c.payload 8 4 →
    exec (.repairRead c) s₀ = .next (
      doneIn repairReadDef s₀ u (hostWrite s c.port (fld c.payload 0 8) (recordBytes s)) (leBytes 4 (recordBytes
        s).length ++ leBytes 4 s.pwr.record.length) 0)) ∧
  -- HEALTH_READ (R581)
  (∀ (c : Cmd) (u : Nat) (s₀ s : State), takenUp healthReadDef c s₀ u → s = taken healthReadDef c s₀ u →
    let rs := (namedDies s u).flatMap fun d => (resources s d).map fun r => (d, r.1, r.2)
    let x := healthList s (pb c 12) rs
    x.1.length ≤ fld c.payload 8 4 →
    exec (.healthRead c) s₀ = .next (
      doneIn healthReadDef s₀ u (hostWrite x.2 c.port (fld c.payload 0 8) x.1) (leBytes 4 x.1.length ++
        leBytes 4 (x.1.length / 16)) 0)) ∧
  -- SAFELIGHT_ENTER (R568)
  (∀ (c : Cmd) (u : Nat) (s₀ s : State), takenUp safelightEnterDef c s₀ u → s = taken safelightEnterDef c s₀ u →
    exec (.safelightEnter c) s₀ = .next (
      doneIn safelightEnterDef s₀ u ((namedDies s u).foldl (fun s d => enterSafe s d 4) s) [] 0)) ∧
  -- SAFELIGHT_EXIT (R570)
  (∀ (c : Cmd) (u : Nat) (s₀ s : State), takenUp safelightExitDef c s₀ u → s = taken safelightExitDef c s₀ u →
    let ds := namedDies s u
    ¬(ds.any fun d => causes s d % 8 ≠ 0) →
    exec (.safelightExit c) s₀ = .next (doneIn safelightExitDef s₀ u (ds.foldl exitSafe s) [] 0)) ∧
  -- THERMAL_CONFIGURE (R565)
  (∀ (c : Cmd) (u : Nat) (s₀ s : State), takenUp thermalConfigureDef c s₀ u → s = taken thermalConfigureDef c s₀ u →
    let ds := if uCls u = clPackage then (dies s).filter fun d => !fenced s d else [uDie u]
    exec (.thermalConfigure c) s₀ = .next (
      pendsIn thermalConfigureDef s₀ (ds.foldl (fun s d => setDiePwr s d { diePwr s d with
        thermal := some (fld c.payload 0 2, fld c.payload 2 2), thermFids := (diePwr s d).thermFids ++
          [(s₀.host.nextId, u)] }) s))) ∧
  -- ATTEST (R584)
  (∀ (c : Cmd) (u : Nat) (s₀ s : State), takenUp attestDef c s₀ u → s = taken attestDef c s₀ u →
    let r := report s ((c.payload.drop 16).take 32)
    exec (.attest c) s₀ = .next (
      if r.length ≤ fld c.payload 8 4 then
        doneIn attestDef s₀ u (hostWrite s c.port (fld c.payload 0 8) r)
          (leBytes 4 r.length ++ leBytes 4 s.sec.log.length) 0
      else endIn attestDef s₀ u s stBadPayload (leBytes 4 r.length))) ∧
  -- CERT_READ (R585)
  (∀ (c : Cmd) (u : Nat) (s₀ s : State), takenUp certReadDef c s₀ u → s = taken certReadDef c s₀ u →
    let r := Config.certificateChain
    exec (.certRead c) s₀ = .next (
      if r.length ≤ fld c.payload 8 4 then
        doneIn certReadDef s₀ u (hostWrite s c.port (fld c.payload 0 8) r) (leBytes 4 r.length ++
          leBytes 4 (fld r 0 4)) 0
      else endIn certReadDef s₀ u s stBadPayload (leBytes 4 r.length))) ∧
  -- MEASUREMENT_READ (R583)
  (∀ (c : Cmd) (u : Nat) (s₀ s : State), takenUp measurementReadDef c s₀ u → s = taken measurementReadDef c s₀ u →
    let l := s.sec.log.drop (fld c.payload 12 4)
    l.flatten.length ≤ fld c.payload 8 4 →
    exec (.measurementRead c) s₀ = .next (
      doneIn measurementReadDef s₀ u (hostWrite s c.port (fld c.payload 0 8) l.flatten) (leBytes 4 l.flatten.length ++
        leBytes 4 l.length) 0)) ∧
  -- PORT_ECHO (R97)
  (∀ (c : Cmd) (u : Nat) (s₀ s : State), takenUp portEchoDef c s₀ u → s = taken portEchoDef c s₀ u →
    exec (.portEcho c) s₀ = .next (doneIn portEchoDef s₀ u s (padTo 16 (c.payload.take 16)) 0))

/-- Doorbells and ring enables act as their rules say. -/
def Obligations.RingAccessesTakeEffect : Prop :=
  -- CMD_DOORBELL (R75)
  (∀ (port n v : Nat) (s : State), live s port → portShown s port → n < 64 →
    exec (.cmdDoorbell port n v) s = .next ((cmdBell port n 15 (BitVec.ofNat 32 v) v) s)) ∧
  -- CQ_DOORBELL (R75)
  (∀ (port n v : Nat) (s : State), live s port → portShown s port → n < 64 →
    exec (.cqDoorbell port n v) s = .next ((cqBell port n 15 (BitVec.ofNat 32 v) v) s)) ∧
  -- EVR_DOORBELL (R90)
  (∀ (port v : Nat) (s : State), live s port → portShown s port →
    exec (.evrDoorbell port v) s = .next (evrBell port 15 (BitVec.ofNat 32 v) v s)) ∧
  -- SR_DOORBELL (R94)
  (∀ (port r v : Nat) (s : State), live s port → portShown s port → r < 512 →
    exec (.srDoorbell port r v) s = .next ((srBell port r 15 (BitVec.ofNat 32 v) v) s)) ∧
  -- CMD_RING_ENABLE (R74)
  (∀ (port n : Nat) (v : W32) (s : State), live s port → portShown s port → n < 64 → v.getLsbD 31 →
    exec (.cmdRingEnable port n v) s = .next ((crEnable port n v v) s)) ∧
  -- CMD_RING_DISABLE (R74)
  (∀ (port n : Nat) (v : W32) (s : State), live s port → portShown s port → n < 64 → !v.getLsbD 31 →
    exec (.cmdRingDisable port n v) s = .next ((crDisable port n v v) s)) ∧
  -- EVENT_RING_ENABLE (R74)
  (∀ (port : Nat) (v : W32) (s : State), live s port → portShown s port → v.getLsbD 7 →
    exec (.eventRingEnable port v) s = .next ((evrEnable port v v) s)) ∧
  -- EVENT_RING_DISABLE (R74)
  (∀ (port : Nat) (v : W32) (s : State), live s port → portShown s port → !v.getLsbD 7 →
    exec (.eventRingDisable port v) s = .next ((evrDisable port v v) s)) ∧
  -- STREAM_RING_ENABLE (R91)
  (∀ (r : Nat) (v : W32) (s : State), mainShown s → r < 512 → v.getLsbD 8 →
    exec (.streamRingEnable r v) s = .next ((srEnable r v v) s)) ∧
  -- STREAM_RING_DISABLE (R91)
  (∀ (r : Nat) (v : W32) (s : State), mainShown s → r < 512 → !v.getLsbD 8 →
    exec (.streamRingDisable r v) s = .next ((srDisable r v v) s))

/-- Fetches, deliveries, releases, flushes and timeouts of rings act as their rules say. -/
def Obligations.RingEventsTakeEffect : Prop :=
  -- COMMAND_FETCH (R79)
  (∀ (port : Nat) (descOk extOk : Bool) (s : State),
    live s port → s.ready → isPort s port → hostReadable s port → awake s (portUid port) →
    ∀ n, pickRing s port = some n →
    exec (.commandFetch port descOk extOk) s = .next (
      if descOk then fetchFrom s port n extOk else cmdRingError s port 1 n 2)) ∧
  -- APPLY_AT_REACHED (R81)
  (∀ (s : State), ∀ f, nextSched s = some f → f.sched.getD 0 ≤ s.now → !strobeFirst s →
    exec (.applyAtReached) s = .next (
      match opDef f.op with
      | some df => runFlight df f.id (setFlight s { f with sched := none })
      | none => dropFlight s f.id)) ∧
  -- COMMAND_TIMEOUT (R83)
  (∀ (id : Nat) (s : State), ∀ f, findFlight s id = some f → ∀ t, f.deadline = some t → f.sched.isNone → t < s.now →
    let s1 := f.waits.foldl (fun s u => dropSteps s f.op id u) s
    let u := f.waits.headD f.cmd.unit
    let at_ := tickAt s1 (if targetDie u < nDies s1 then targetDie u else 0) t
    exec (.commandTimeout id) s = .next (
      finishFlight s1 { f with
        worst := stTimedOut, worstUnit := u, result := [], time := if f.acted then f.time else at_ } stTimedOut)) ∧
  -- RING_DRAIN_DONE (R74)
  (∀ (kind : RingKind) (port n : Nat) (s : State),
    kind = .command → isPort s port → n < 64 → getF s port (fHstCrStatState n) = rsDraining →
    !(s.host.flights.any fun f => f.cmd.port = port && f.cmd.ring = n) →
    exec (.ringDrainDone kind port n) s = .next (setF s port (fHstCrStatState n) rsDisabled)) ∧
  -- RING_DRAIN_DONE (R74)
  (∀ (kind : RingKind) (port n : Nat) (s : State),
    kind = .completion → isPort s port → n < 64 → getF s port (fHstCrStatState n) = rsDraining →
    !(s.host.flights.any fun f => f.cmd.port = port && f.cmd.ring = n) →
    exec (.ringDrainDone kind port n) s = .next (setF s port (fHstCrStatState n) rsDisabled)) ∧
  -- RING_DRAIN_DONE (R74)
  (∀ (kind : RingKind) (port n : Nat) (s : State),
    kind = .stream → n < 512 → getF s 0 (fHstSrStatState n) = rsDraining →
    let s1 := if (strRing s n).openBuf && portServes s (getF s 0 (fHstSrCtlPort n)) then closeBuf s n true false
      else s
    exec (.ringDrainDone kind port n) s = .next (
      setF (setStrRing s1 n { strRing s1 n with
        openBuf := false, filled := 0, live := 0 }) 0 (fHstSrStatState n) rsDisabled)) ∧
  -- EVENT_RELEASE (R89)
  (∀ (s : State), ∀ e r, evFirst s.host.merge = some (e, r) → !(dieClk s 0).holding → !fenced s 0 → released s e →
    exec (.eventRelease) s = .next (evRoute { s with host := { s.host with merge := r } } e)) ∧
  -- EVENT_LATE_ARRIVAL (R89)
  (∀ (k : Nat) (s : State), ∀ x, s.host.transit[k]? = some x → !evWaits s x.die → !fenced s 0 →
    let s1 := { s with host := { s.host with transit := s.host.transit.eraseIdx k } }
    exec (.eventLateArrival k) s = .next (
      if pastRelease s1 x.ev then evRoute s1 { x.ev with late := true }
      else { s1 with host := { s1.host with merge := s1.host.merge ++ [x.ev] } })) ∧
  -- IRQ_TIMER_EXPIRY (R95)
  (∀ (kind : RingKind) (port n : Nat) (s : State), kind = .completion →
    let q := cplRing s port n
    let code := getF s port (fHstCqCtlIrqTime n)
    ∀ t, q.irqAt = some t → isPort s port → n < 64 → code ≠ 0 → flagF s port (fHstCqCtlIrqEn n) →
    t + codeTicks code < s.now →
    exec (.irqTimerExpiry kind port n) s = .next (
      setCplRing (raiseIrq s port (getF s port (fHstCqCtlVector n))) port n { q with irqN := 0, irqAt := none })) ∧
  -- IRQ_TIMER_EXPIRY (R95)
  (∀ (kind : RingKind) (port n : Nat) (s : State), kind = .event →
    let q := evRing s port
    let code := getF s port fHstEvrCtlIrqTime
    ∀ t, q.irqAt = some t → isPort s port → code ≠ 0 → flagF s port fHstEvrCtlIrqEn → t + codeTicks code < s.now →
    exec (.irqTimerExpiry kind port n) s = .next (
      setEvRing (raiseIrq s port (getF s port fHstEvrCtlVector)) port { q with irqN := 0, irqAt := none })) ∧
  -- ENVELOPE_DELIVER (R93)
  (∀ (r : Nat) (readOk : Bool) (s : State), ∀ k, boundStream s r = some k → r < 512 → ringServes s r →
    ∀ e rs, nextEnv (streamOf s (k / 128) (k % 128)) (strRing s r).live = some (e, rs) →
    let b := openBuf s r readOk
    exec (.envelopeDeliver r readOk) s = .next (if b.2 then putEnv b.1 (k / 128) (k % 128) r e rs else b.1)) ∧
  -- SR_FLUSH_TIMEOUT (R93)
  (∀ (r : Nat) (s : State), let q := strRing s r
    let n := getF s 0 (fHstSrCtlFlush r)
    r < 512 → ringServes s r → q.openBuf → q.filled ≠ 0 → n ≠ 0 → q.openedAt + codeTicks n < s.now →
    exec (.srFlushTimeout r) s = .next (closeBuf s r true false))

/-- Register accesses, strobes and configuration passes act as their rules say. -/
def Obligations.RegisterAccessesTakeEffect : Prop :=
  -- REGISTER_WRITE (R485): a request of any dwords that touches no reserved location
  (∀ (port bar ofs : Nat) (dws : List (Nat × W32)) (s : State), live s port → !strobeFirst s →
    let l := spotsOf s port bar ofs dws.length
    !l.contains .nowhere → !l.any isReserved →
    exec (.registerWrite port bar ofs dws) s = .next (hostDwords port bar ofs dws s)) ∧
  -- REGISTER_WRITE (R485, R496): the RW fields of a register of a die take the enabled bytes
  (∀ (port d o be i j : Nat) (r : RegDef) (v : W32) (s : State), primaryAt s port d → o < 0x800000 → o % 4 = 0 →
    be % 16 ≠ 0 →
    windowSpot s d o = .register d r i j o → lockedBy s d r o (byteMask be).toNat = none → r.rws = 0 →
    (o < 0x30000 ∨ 0x38000 ≤ o) → o < 0x60000 → o ∉ [rCfgCtl, rCfgCrcRef, rCfgLockSet, rUpdStrobe] →
      r.ofs ≠ rPbdCtl 0 →
    byteMask be &&& BitVec.ofNat 32 r.rw ≠ 0 →
    let s0 := if byteMask be &&& BitVec.ofNat 32 r.cov = 0 then s else suspendCheck s d
    exec (.registerWrite port 0 (0x800000 * d + o) [(be, v)]) s = .next (
      setCovered s0 d o r.cov (clampWrite r i (mergeBits (byteMask be &&& BitVec.ofNat 32 r.rw) (reg s0 d o) v)))) ∧
  -- REGISTER_WRITE (R488, R489): an RWS register takes them in its shadow, and its group waits for a strobe
  (∀ (port d o be i j : Nat) (r : RegDef) (v : W32) (s : State), primaryAt s port d → o < 0x800000 → o % 4 = 0 →
    be % 16 ≠ 0 →
    windowSpot s d o = .register d r i j o → lockedBy s d r o (byteMask be).toNat = none → r.rws ≠ 0 →
    byteMask be &&& BitVec.ofNat 32 (r.rw ||| r.rws ||| r.wo1 ||| r.w1t) ≠ 0 →
    let s0 := if byteMask be &&& BitVec.ofNat 32 r.cov = 0 then s else suspendCheck s d
    let s1 := setShadow s0 d o (mergeBits (byteMask be &&& BitVec.ofNat 32 r.rws) (shadow s0 d o) v)
    let g := if r.ofs = rPbdTarget 0 then r.grp + i else r.grp
    exec (.registerWrite port 0 (0x800000 * d + o) [(be, v)]) s = .next (
      setReg s1 d rUpdPending (reg s1 d rUpdPending ||| BitVec.ofNat 32 (2 ^ g)))) ∧
  -- REGISTER_WRITE (R498): a locked register discards the write, which is reported
  (∀ (port d o be i j b : Nat) (r : RegDef) (v : W32) (s : State), primaryAt s port d → o < 0x800000 → o % 4 = 0 →
    be % 16 ≠ 0 → windowSpot s d o = .register d r i j o → lockedBy s d r o (byteMask be).toNat = some b →
      o ≠ rCfgCtl →
    exec (.registerWrite port 0 (0x800000 * d + o) [(be, v)]) s = .next (lockViol s d 1 b o v)) ∧
  -- REGISTER_READ_CLEAR (R502, R503): a request of any dwords that touches no reserved location
  (∀ (port bar ofs : Nat) (bes : List Nat) (s : State), live s port →
    let l := spotsOf s port bar ofs bes.length
    !l.contains .nowhere → !l.any isReserved → !bes.isEmpty →
    let a := hostReads port bar ofs bes s
    exec (.registerReadClear port bar ofs bes) s = .next { a.2 with lastRead := some (.dwords a.1) }) ∧
  -- REGISTER_READ_CLEAR (R502): a register of a die shows its value, and its RC bits of the enabled bytes clear
  (∀ (port d o be i j : Nat) (r : RegDef) (s : State), primaryAt s port d → o < 0x800000 → o % 4 = 0 →
    windowSpot s d o = .register d r i j o → !readsFree r →
    let m := byteMask be &&& BitVec.ofNat 32 r.rc
    let t := if m = 0 then s else setReg s d o (reg s d o &&& ~~~m)
    exec (.registerReadClear port 0 (0x800000 * d + o) [be]) s = .next
      { t with lastRead := some (.dwords [viewRow s 0 d r i j o]) }) ∧
  -- RESERVED_READ (R505): a request that touches a reserved location
  (∀ (port bar ofs : Nat) (bes : List Nat) (s : State), live s port →
    let l := spotsOf s port bar ofs bes.length
    !l.contains .nowhere → l.any isReserved →
    exec (.reservedRead port bar ofs bes) s = .next { s with lastRead := some .completerAbort }) ∧
  -- RESERVED_WRITE (R505): a request that touches a reserved location; its other dwords are written
  (∀ (port bar ofs : Nat) (dws : List (Nat × W32)) (s : State), live s port → !strobeFirst s →
    let l := spotsOf s port bar ofs dws.length
    !l.contains .nowhere → l.any isReserved →
    exec (.reservedWrite port bar ofs dws) s = .next (hostDwords port bar ofs dws s)) ∧
  -- RESERVED_WRITE (R506): a reserved dword is discarded and reported
  (∀ (port bar ofs d reason be : Nat) (v : W32) (s : State), live s port → !strobeFirst s →
    spotOf s port bar ofs = .reserved d reason → be % 16 ≠ 0 →
    exec (.reservedWrite port bar ofs [(be, v)]) s = .next (badWrite s d bar reason port be ofs v)) ∧
  -- UPD_STROBE (R490): a strobe of the groups written is issued, to apply 112 ticks later
  (∀ (port d be : Nat) (v : W32) (s : State), primaryAt s port d → byteMask be &&& v ≠ 0 →
    exec (.updStrobe port d be v) s = .next { s with strobes := s.strobes ++
      [⟨0, byteMask be &&& v, s.now + 112, dies s, [], (dieClk s 0).holding, false⟩] }) ∧
  -- UPDATE_STROBE_APPLY (R491)
  (∀ (s : State), ∀ t, strobeTick s = some t → !off s → t ≤ s.now →
    let s1 := (dies s).foldl (dieStrobe t) s
    exec (.updateStrobeApply) s = .next ({ s1 with strobes := s1.strobes.filter fun x => !x.dies.isEmpty })) ∧
  -- CFG_LOCK_SET (R498): the lock bits written are set
  (∀ (port d be : Nat) (v : W32) (s : State), primaryAt s port d → bitAt be 0 →
    exec (.cfgLockSet port d be v) s = .next (
      setReg s d rCfgLock (reg s d rCfgLock ||| (byteMask be &&& v &&& 0x3F)))) ∧
  -- CAPTURE_REF (R496): the check is not suspended, and the next pass that starts gives the reference
  (∀ (port d be : Nat) (v : W32) (s : State), primaryAt s port d → bitAt be 0 → v.getLsbD 3 →
    ∃ t, exec (.captureRef port d be v) s = .next t ∧ (cfgOf t d).capture = some false ∧ (cfgOf t d).resume = false ∧
      flagF t d fCfgStatCrcSuspended = false) ∧
  -- CFG_CRC_REF_WRITE (R496): the reference takes the enabled bytes, and comparison resumes
  (∀ (port d be : Nat) (v : W32) (s : State), primaryAt s port d → be % 16 ≠ 0 →
    exec (.cfgCrcRefWrite port d be v) s = .next (
      refWritten (setReg s d rCfgCrcRef (mergeBits (byteMask be) (reg s d rCfgCrcRef) v)) d)) ∧
  -- CFG_CRC_PASS_END (R495)
  (∀ (d : Nat) (s : State), live s d → counts s d → (cfgOf s d).passStart < s.now →
    let p := passResult s d
    let s1 := setFlag (wrapF (setReg p.2 d rCfgCrcLast p.1) d fCfgCrcPassesCount 1) d fCfgStatPassDone true
    exec (.cfgCrcPassEnd d) s = .next (cfgNext (cfgJudge s1 d p.1) d)) ∧
  -- PBD_CTL_EN_CLEAR (R518): the output is turned off if EN was set
  (∀ (port d p be : Nat) (v : W32) (s : State), primaryAt s port d → p < 2 → bitAt be 0 → !v.getLsbD 0 →
    let m := byteMask be &&& 0xFF03
    let s0 := suspendCheck s d
    let s1 := setCovered s0 d (rPbdCtl p) 0xFF03 (mergeBits m (reg s0 d (rPbdCtl p)) v)
    exec (.pbdCtlEnClear port d p be v) s = .next (if flagF s0 d (fPbdCtlEn p) then biasOff s1 d p else s1))

/-- Reset, boot and shutdown act as their rules say. -/
def Obligations.BootEventsTakeEffect : Prop :=
  -- SEC_OWNER_HASH_WRITE (R582)
  (∀ (port n be : Nat) (v : W32) (s : State), live s port → portShown s port → n < 8 →
    exec (.secOwnerHashWrite port n be v) s = .next (ownerHashWrite s port n be v)) ∧
  -- GO (R572)
  (∀ (port be : Nat) (v : W32) (s : State), live s port → portShown s port →
    exec (.go port be v) s = .next (goWrite port be v s)) ∧
  -- RESET_N_ASSERT (R598)
  (∀ (s : State), let s1 := wipe s
    exec .resetNAssert s = .next { s1 with pwr := { s1.pwr with held := true } }) ∧
  -- RESET_N_RELEASE (R598)
  (∀ (straps : Nat) (hot : Bool) (s : State), s.pwr.held → !hot →
    let s1 := { s with pwr := { s.pwr with held := false, straps := straps % 256, relAt := s.now } }
    exec (.resetNRelease straps hot) s = .next (
      (List.range (nDies s)).foldl (fun s p =>
        setPort s p { PortSt.reset with drive := bitAt straps p, crs := !bitAt straps p }) (railsCheck s1))) ∧
  -- RAIL_CHECK_TIMEOUT (R593)
  (∀ (d : Nat) (s : State),
    live s d → !s.ready → !fenced s d → getF s ctlPage (cfld fSecBootStatErr) ≠ 7 → (diePwr s d).railsWait →
    s.pwr.relAt + 10 * msTicks < s.now →
    exec (.railCheckTimeout d) s = .next (if d = 0 then startFailed s else setDieClk s d { dieClk s d with
      fenced := true })) ∧
  -- CRS_END (R66)
  (∀ (port : Nat) (s : State), live s port → isPort s port → (portOf s port).crs → !(portOf s port).perst →
    exec (.crsEnd port) s = .next (setPort s port { portOf s port with crs := false })) ∧
  -- BOOT_VERIFY_DONE (R572)
  (∀ (s : State), !off s → !s.ready → bootState s = 1 →
    exec (.bootVerifyDone) s = .next (
      match bootFault s with
      | some e => bootFailed s e
      | none => bootPassed s)) ∧
  -- BOOT_COMPLETE (R574)
  (∀ (failed : List Nat) (bist : List BistFail) (s : State),
    !off s → !s.ready → bootState s = 2 → ((dieClk s 0).running || failed.contains 0) →
    let lost := lostDies s failed
    exec (.bootComplete failed bist) s = .next (
      if lost.contains 0 then startFailed s
      else
        let s1 := lost.foldl (fun s d => if (dieClk s d).running then s else loadTime s d (dieTime s 0)) s
        let r := repairAtBoot s1 bist
        let out := r.2.filter fun x => !lost.contains x.1
        if out.any fun x => x.1 = 0 && x.2.1 ≠ 1 && x.2.1 ≠ 5 then startFailed s else openTree r.1 lost out)) ∧
  -- THERMAL_SHUTDOWN (R564)
  (∀ (d : Nat) (s : State), live s d → !s.pwr.down →
    let s1 := wipe s
    let s2 := setFlag (setFlag (setF s1 0 fAonCauseDie d) 0 fAonCauseShutdown true) 0 fAonCausePowerOn false
    exec (.thermalShutdown d) s = .next ({ s2 with pwr := { s2.pwr with down := true } })) ∧
  -- VDD_AON_FAULT (R566)
  (∀ (d : Nat) (s : State), live s d →
    exec (.vddAonFault d) s = .next (
      if d = 0 then
        let s1 := railsCheck (wipe s)
        { s1 with
          tap := TapReg.reset
          pwr := { s1.pwr with straps := s.pwr.straps, relAt := s.now }
          host := { s1.host with ports := (List.range (nDies s)).foldl (fun t p =>
            tset PortSt.reset t p { PortSt.reset with
              drive := bitAt s.pwr.straps p, crs := !bitAt s.pwr.straps p }) [] } }
      else aonReset s d)) ∧
  -- TAP_TCK_EDGE (R607)
  (∀ (rising tms tdi : Bool) (s : State), !(railOf s 0 10).out →
    exec (.tapTckEdge rising tms tdi) s = .next (if rising then tapRise tms tdi s else tapFall s))

/-- The ends of waits and stalls, mailbox accesses, swaps and the watchdog act as their rules say. -/
def Obligations.EngineEventsTakeEffect : Prop :=
  -- H2E_BELL (R407)
  (∀ (port d e v : Nat) (s : State), live s port → portShown s port →
    exec (.h2eBell port d e v) s = .next (
      if mbxHere s port d e then h2eBell port d e 15 (BitVec.ofNat 32 v) s
      else badWrite s port 2 1 port 15 (mbxOfs d e + 0x2000) (BitVec.ofNat 32 v))) ∧
  -- E2H_ACK (R407)
  (∀ (port d e : Nat) (s : State), live s port → portShown s port →
    exec (.e2hAck port d e) s = .next (
      if mbxHere s port d e then e2hAck d e s else badWrite s port 2 1 port 15 (mbxOfs d e + 0x2010) 0)) ∧
  -- SWAP_BEGIN (R417)
  (∀ (d e : Nat) (s : State), live s d →
    let x := engOf s d e
    ∀ w, x.swap = some w → e < 16 → w.point ≠ 3 → x.st != .swapping →
    let s1 := cacheFlush s d e true
    let y := engOf s1 d e
    let back := if y.st == .running && y.stopPoint then .stopped else y.st
    exec (.swapBegin d e) s = .next (
      setEng s1 d e { y with
        st := .swapping, stopPoint := false
        swap := some { w with beganAt := s.now, beganDie := dieTime s d, back := back } })) ∧
  -- WAIT_RETURN (R403)
  (∀ (d e : Nat) (s : State), live s d →
    let x := engOf s d e
    ∀ r mask dl, x.waiting = some (.wait r mask dl) →
    let v := waitBits s d x mask
    let due := match dl with | some t => decide (t < s.now) | none => false
    let t := if v ≠ 0 then s.now else dl.getD s.now
    engClocked s d e → (v ≠ 0 || due) →
    let s1 := unstallAt s d e t
    let y := { engOf s1 d e with wdogCnt := 0, wdogAt := t }
    exec (.waitReturn d e) s = .next (retire (setEng s1 d e (waitDone y r (if v ≠ 0 then v else 0x8000))) d e)) ∧
  -- SIN_RESUME (R397)
  (∀ (d e : Nat) (s s1 : State), live s d → engClocked s d e → (engOf s d e).waiting = some .sin →
    let w := engWord s d e
    let r := if bits w 0 11 = 3 then takeTwo s ⟨d, e⟩ (bits w 21 5) (bits w 11 2)
      else takeOne s ⟨d, e⟩ (bits w 21 5) (bits w 11 2)
    r = some s1 →
    exec (.sinResume d e) s = .next (engDrains (retire (unstall s1 d e) d e) d e)) ∧
  -- SOUT_RESUME (R398)
  (∀ (d e : Nat) (s : State), live s d → engClocked s d e → (engOf s d e).waiting = some .sout →
    let w := engWord s d e
    let r := soutAct (unstall s d e) ⟨d, e⟩ (bits w 21 1) (bits w 16 5) (bits w 11 5)
    (∀ t y, r ≠ .hold t y) →
    exec (.soutResume d e) s = .next (engAct d e r)) ∧
  -- HEAP_LOAD_COMPLETE (R392)
  (∀ (d e : Nat) (s : State), live s d → ∀ r a n, (engOf s d e).waiting = some (.load r a n) → engClocked s d e →
    let s1 := (cacheFill (unstall s d e) d e (a / 64)).2
    let y := engOf s1 d e
    exec (.heapLoadComplete d e) s = .next (
      thenStop (retire (setEng s1 d e (putReg y r (BitVec.ofNat 72 ((cacheRead y a n).getD 0)))) d e) d e)) ∧
  -- CACHE_DONE (R385)
  (∀ (d e : Nat) (s : State), live s d → ∀ inval, (engOf s d e).waiting = some (.cache inval) → engClocked s d e →
    exec (.cacheDone d e) s = .next (thenStop (retire (cacheFlush (unstall s d e) d e inval) d e) d e)) ∧
  -- WATCHDOG_EXPIRY (R405)
  (∀ (d e : Nat) (s : State), live s d →
    let x := engOf s d e
    let waits : Bool := match x.waiting with | some (.wait _ _ _) => true | _ => false
    engClocked s d e → x.wdog ≠ 0 → !waits → wdogTick s d x < s.now →
    exec (.watchdogExpiry d e) s = .next (engTrapAt s d e 7 0 (tickAt s d (wdogTick s d x)))) ∧
  -- ILLEGAL_INSTRUCTION (R391)
  (∀ (e : Eng) (s : State), live s e.die →
    let x := engOf s e.die e.idx
    let w := engWord s e.die e.idx
    engReady s e.die e.idx → !engLegal w →
    exec (.illegalInstruction e) s = .next (
      if x.eccCode.contains x.pc then engTrap s e.die e.idx 8 (BitVec.ofNat 64 x.pc)
      else engTrap s e.die e.idx 1 (BitVec.ofNat 64 w)))

/-- Transfer instructions, kicks, pauses, retired moves, errors and waits of channels act as their rules say. -/
def Obligations.TransferRowsTakeEffect : Prop :=
  -- XFER_END (R457)
  (∀ (d c : Nat) (s : State), live s d → xReady s d c 0 →
    let w := xInstr s d (xferOf s d c).pc
    restClear w →
    let x := { xferOf s d c with st := .done }
    exec (.xferEnd d c) s = .next (xDone (setXfer s d c x) d c 2 x x.pc)) ∧
  -- XFER_MOVE (R458)
  (∀ (d c : Nat) (s : State), live s d → xReady s d c 1 →
    let x := xferOf s d c
    let w := xInstr s d x.pc
    let m := moveOf x d w
    moveLegal x d w → rangeOk s d x.port m.sspace m.src m.len → rangeOk s d x.port m.dspace m.dst m.len →
    exec (.xferMove d c) s = .next (setXfer s d c { x with
      move := m, moving := true, moveAt := s.now, lastBeat := false })) ∧
  -- XFER_LOOP (R460)
  (∀ (d c : Nat) (s : State), live s d → xReady s d c 2 →
    let w := xInstr s d (xferOf s d c).pc
    loopLegal w →
    let x := xferOf s d c
    let k := bits w 4 2
    let count := bits w 32 32
    let fresh := !((x.active[k]?).getD false)
    let lc := if fresh then (count + 2 ^ 32 - 1) % 2 ^ 32 else (x.lc[k]?).getD 0
    exec (.xferLoop d c) s = .next (
      if count ≠ 0 && lc = 0 then xNext s d c { x with active := x.active.set k false, lc := x.lc.set k lc }
      else
        setXfer s d c { x with
          active := x.active.set k true, lc := x.lc.set k (if count = 0 then lc else lc - 1), pc := bits w 16 16 })) ∧
  -- XFER_WAIT (R461)
  (∀ (d c : Nat) (s : State), live s d → xReady s d c 3 →
    let w := xInstr s d (xferOf s d c).pc
    waitLegal w →
    let tmo := bits w 32 32
    let y := xferOf s d c
    let x := { y with wait := {
      start := s.now, sel := bits w 5 3, event := bits w 8 6
      timeAt := s.now + ticksUntil s d (BitVec.ofNat 64 (bits w 64 64))
      expiry := if tmo = 0 then none else some (s.now + tmo), fail := bitAt w 4,
        hit := bits w 5 3 = 0 && y.kicks ≠ 0 } }
    exec (.xferWait d c) s = .next (
      if waitHolds s x then waitReturns (setXfer s d c x) d c else setXfer s d c { x with st := .waiting })) ∧
  -- XFER_SIGNAL (R462)
  (∀ (d c : Nat) (s : State), live s d → xReady s d c 4 →
    let x := xferOf s d c
    let w := xInstr s d x.pc
    let sp := bits w 14 3
    let a := baseAddr x (bits w 17 2) (bits w 19 40)
    !(bitAt w 7 && swapTouch s d sp a 4) → signalLegal x w → (bitAt w 7 → rangeOk s d x.port sp a 4) →
    let data := (leBytes 4 (bits w 72 32)).zipIdx.map fun p => (xPlace (x.port.getD 0) (xResolve d sp (a + p.2)), p.1)
    exec (.xferSignal d c) s = .next (
      signalActs (if bitAt w 7 then { s with mem := writePlaces s.mem data } else s) d c w)) ∧
  -- XFER_NOP (R457)
  (∀ (d c : Nat) (s : State), live s d → xReady s d c 5 →
    let w := xInstr s d (xferOf s d c).pc
    restClear w →
    exec (.xferNop d c) s = .next (xNext s d c (xferOf s d c))) ∧
  -- XFER_ILLEGAL_OPCODE (R463)
  (∀ (d c : Nat) (s : State), live s d →
    let op := xInstr s d (xferOf s d c).pc % 16
    6 ≤ op → xReady s d c op →
    exec (.xferIllegalOpcode d c) s = .next (xIllegal s d c)) ∧
  -- XFR_CH_KICK (R468)
  (∀ (port d c be : Nat) (v : W32) (s : State),
    live s port → portShown s port → dieShown s port d → c < 32 → bitAt be 0 → v.getLsbD 0 → !xferOwned s d c →
    exec (.xfrChKick port d c be v) s = .next (xferKick s d c)) ∧
  -- PAUSE_SET (R474)
  (∀ (port d c : Nat) (v : W32) (s : State),
    live s port → portShown s port → dieShown s port d → c < 32 → v.getLsbD 31 → !xferOwned s d c →
    exec (.pauseSet port d c v) s = .next (setFlag s d (fXfrChCtlPause c) true)) ∧
  -- PAUSE_CLEAR (R474)
  (∀ (port d c : Nat) (v : W32) (s : State),
    live s port → portShown s port → dieShown s port d → c < 32 → !v.getLsbD 31 → !xferOwned s d c →
    exec (.pauseClear port d c v) s = .next ((pauseClear d c) s)) ∧
  -- XFER_MOVE_RETIRE (R465)
  (∀ (d c rereads : Nat) (s : State), live s d →
    let x := xferOf s d c
    let m := x.move
    let n := movable s d x
    moveUp s d c → n ≤ movePace s x → (!m.check || rereads ≤ 2 * ceilDiv n 4096) →
    let s0 := if m.check then addF s d (fXfrChErrsRereads c) rereads else s
    let ecc := (eccAt s d x).filter fun k => wholeBlocks m k = n
    exec (.xferMoveRetire d c rereads) s = .next (
      match ecc with
      | some k => beatFail s0 d c 5 (true, false) k (!m.check && k + (nextBeat m k).2 = m.rem)
      | none =>
        let s1 := copyPart s0 d c n
        if n = m.rem then moveDone s1 d c else crcFail s1 d c)) ∧
  -- XFER_BEAT_ERROR (R477)
  (∀ (d c cause done : Nat) (last : Bool) (s : State), live s d →
    let x := xferOf s d c
    let sides := errSides d x.move cause
    xClocked s d c → x.st == .running → x.moving → done < x.move.rem →
    (if sides.1 then wholeBlocks x.move done else done) ≤ movable s d x → done ≤ movePace s x →
    swapClear s d x (done + (nextBeat x.move done).2) → (sides.1 || sides.2) →
    exec (.xferBeatError d c cause done last) s = .next (beatFail s d c cause sides done last)) ∧
  -- XFER_WAIT_RETURN (R469)
  (∀ (d c : Nat) (s : State), live s d →
    let x := xferOf s d c
    xClocked s d c → x.st == .waiting → !pausing s d c → waitHolds s x →
    exec (.xferWaitReturn d c) s = .next (waitReturns s d c)) ∧
  -- XFER_WAIT_TIMEOUT (R470)
  (∀ (d c : Nat) (s : State), live s d →
    let x := xferOf s d c
    ∀ t, x.wait.expiry = some t → xClocked s d c → x.st == .waiting → !pausing s d c → !waitHolds s x →
    t + (if x.wait.sel = 1 then 112 else 0) < s.now →
    let y := { x with timedOut := true }
    exec (.xferWaitTimeout d c) s = .next (
      if x.wait.fail then xFailOpen s d c y 7
      else
        let n := nextPc s x.pc
        xNext n.2 d c { y with pc := n.1 })) ∧
  -- XFER_PAUSED (R474)
  (∀ (d c moved : Nat) (s : State), live s d →
    let x := xferOf s d c
    let n := if x.moving then moved else 0
    c < 32 → !(dieClk s d).holding → (n = 0 || xClocked s d c) → pausing s d c →
    (x.st == .running || x.st == .waiting) →
    (!x.moving || (n < x.move.rem && n ≤ movable s d x && n ≤ movePace s x && (n = 0 || wholeBlocks x.move n = n) &&
      swapClear s d x n)) →
    let s1 := if n = 0 then s else copyPart s d c n
    exec (.xferPaused d c moved) s = .next (xSettle (setXfer s1 d c { xferOf s1 d c with st := .paused }) d c 0))

/-- Host and drive links, PERST# and PLL losses act as their rules say. -/
def Obligations.LinkEventsTakeEffect : Prop :=
  -- PERST_ASSERT (R67)
  (∀ (port : Nat) (s : State), live s port → isPort s port → !(portOf s port).perst →
    let s1 := portReset (portDown (hostExpire s port) port) port
    let s2 := setPort s1 port { portOf s1 port with perst := true, downAt := none, aerAbort := false }
    exec (.perstAssert port) s = .next (
      if (unitOf s2 (portUid port)).partner = 5 then detachPartner s2 port (portUid port) 6 (dieTime s2 port) 0 else
        s2)) ∧
  -- PERST_RELEASE (R620)
  (∀ (port : Nat) (s : State), live s port → isPort s port → (portOf s port).perst →
    exec (.perstRelease port) s = .next (setPort s port { portOf s port with perst := false, crs := !s.ready })) ∧
  -- HOST_LINK_UP (R56)
  (∀ (port gt width : Nat) (s : State), live s port →
    let up : Bool := !s.ready || pwOf s (portUid port) == .awake || pwOf s (portUid port) == .starting
    isPort s port → !(portOf s port).perst → up → (!s.ready || (pllOf s port 6).locked) → (gt ∈ [8, 16, 32, 64]) →
    (width ∈ [1, 2, 4, 8, 16]) → (!linkUp s port || !(portOf s port).busMaster) →
    let s1 := setF (setF (hostExpire s port) port fHstPortIdLinkGt gt) port fHstPortIdWidth width
    let s2 := setPort s1 port { portOf s1 port with busMaster := true, downAt := none }
    let s3 := if s2.ready && (unitOf s2 (portUid port)).partner = 0 then hostAttach s2 port 0 else s2
    exec (.hostLinkUp port gt width) s = .next (flushHeld port 258 s3)) ∧
  -- HOST_LINK_DOWN (R91)
  (∀ (port : Nat) (s : State), live s port → isPort s port →
    exec (.hostLinkDown port) s = .next (portDown s port)) ∧
  -- HOST_DETACH_TIMEOUT (R56)
  (∀ (port : Nat) (s : State), live s port → isPort s port →
    exec (.hostDetachTimeout port) s = .next (hostExpire s port)) ∧
  -- DRIVE_PERST_RELEASE (R599)
  (∀ (d : Nat) (s : State), live s d →
    let p := portOf s d
    ∀ t, p.perstAt = some t → p.drive → p.perst → (pllOf s d 6).locked → !fenced s d → t + 100 * msTicks ≤ s.now →
    exec (.drivePerstRelease d) s = .next (setPort s d { p with perst := false })) ∧
  -- PLL_RELOCK_FAIL (R165)
  (∀ (d k : Nat) (s : State), live s d →
    let p := pllOf s d k
    k < 8 → (k ≠ 7 || d = 0) → p.relock → !p.locked → awake s (pllUid d k) →
    let n := p.fails + 1
    let s1 := clockFault (setPll s d k { p with fails := n, relock := n < 3 }) d k 3
    exec (.pllRelockFail d k) s = .next (
      if n < 3 then s1
      else
        let s2 := stepFails (faultUnit s1 (pllUid d k) 1) d k
        if k = 0 then fence s2 d else s2)) ∧
  -- FPLL_LOCK_LOSS (R163)
  (∀ (d : Nat) (s : State), live s d → (pllOf s d 0).locked → (dieClk s d).running → !fenced s d →
    exec (.fpllLockLoss d) s = .next (if d = 0 then prfAbort (fpllLoss s d) 2 else fpllLoss s d)) ∧
  -- PLL_LOCK_LOSS (R166)
  (∀ (d k : Nat) (s : State), live s d →
    let p := pllOf s d k
    1 ≤ k → k < 8 → (k ≠ 7 || d = 0) → p.locked → awake s (pllUid d k) →
    exec (.pllLockLoss d k) s = .next (clockFault (pllStops (setPll s d k { p with
      locked := false, relock := true }) d k) d k 1)) ∧
  -- BUS_MASTER_ENABLE_CLEAR (R476)
  (∀ (port : Nat) (s : State), live s port → isPort s port → linkUp s port → (portOf s port).busMaster →
    exec (.busMasterEnableClear port) s = .next (movesLosePort (setPort s port { portOf s port with
      busMaster := false }) port))

/-- Drives and volumes act as their rules say. -/
def Obligations.DriveEventsTakeEffect : Prop :=
  -- DRIVE_IDENTIFY_DONE (R438)
  (∀ (d p : Nat) (info : DriveInfo) (s : State),
    live s d → isDrive s d p → awake s (driveUid d p) → !(portOf s d).perst → (driveOf s d p).info.isNone →
    let suits := info.suitable && info.blockBytes = 4096
    let s1 := attachPartner (setDrive s d p ⟨some info, suits, info.warn % 256, s.now, true,
      []⟩) d (driveUid d p) 3 0 (dieTime s d)
      (leBytes 2 info.vendor ++ leBytes 2 info.device ++ leBytes 1 info.gt ++ leBytes 1 info.width ++
        leBytes 2 info.queues ++ leBytes 4 (info.lbas * info.blockBytes / 2 ^ 30))
    exec (.driveIdentifyDone d p info) s = .next (if suits then s1 else driveError s1 d p 3 0 0 0 0 0 (dieTime s d))) ∧
  -- DRIVE_LINK_DOWN (R441)
  (∀ (d p : Nat) (s : State), live s d → isDrive s d p →
    exec (.driveLinkDown d p) s = .next (driveGone s d p 3)) ∧
  -- FIXER_WRITE_ISSUE (R440)
  (∀ (d slot sid n m : Nat) (v : Volume) (f : FixStream) (s : State), live s d → (svcOf s d slot).vol = some v →
    (v.streams.find? fun f => f.sid = sid) = some f →
    let nx := nextEnvs s v f
    let goes := !nx.1 && f.unitLeft ≠ 0 && hasRoom v f.unitMember 1
    (if goes then some f.unitMember else nextMember v n) = some m →
    let unit := if goes then f.unitLeft else v.stripe
    fixerRuns s d slot → v.st = 1 → 0 < n → n ≤ nx.2.length → n ≤ unit → hasRoom v m n → fitsTransfer s d m n →
    queueRoom s d m v → envsReach s d slot sid n →
    exec (.fixerWriteIssue d slot sid n) s = .next (
      fullCheck (issueWrite s d slot m unit v f nx.1 (!goes) (nx.2.take n)) d slot)) ∧
  -- NVME_WRITE_COMPLETE (R441)
  (∀ (d slot id sct sc : Nat) (dnr : Bool) (s : State),
    live s d → ∀ v, (svcOf s d slot).vol = some v → ∀ w, writeOf v id = some w →
    exec (.nvmeWriteComplete d slot id sct sc dnr) s = .next (
      if sct = 0 && sc = 0 then writeLanded s d slot v w
      else if w.again || dnr then failMember s d slot w.member 1 sct sc w.lba (dieTime s d)
      else setVol s d slot { v with
        writes := v.writes.map fun y => if y.id = id then { y with again := true, at_ := s.now } else y })) ∧
  -- NVME_WRITE_TIMEOUT (R441)
  (∀ (d slot id : Nat) (s : State),
    live s d → ∀ v, (svcOf s d slot).vol = some v → ∀ w, writeOf v id = some w →
      w.at_ + v.timeoutMs * msTicks < s.now →
    exec (.nvmeWriteTimeout d slot id) s = .next (
      failMember s d slot w.member 2 0 0 w.lba (tickAt s d (w.at_ + v.timeoutMs * msTicks)))) ∧
  -- FIXER_FLUSH_TIMEOUT (R447)
  (∀ (d slot : Nat) (s : State), live s d → ∀ v, (svcOf s d slot).vol = some v →
    let dt := v.flushMs * msTicks
    fixerRuns s d slot → (v.st = 1 || v.st = 3) → v.flushAt + dt < s.now →
    let v1 := (onlines v).foldl (fun v m =>
      setMember v m (logExtents s (endExtents (memberOf v m) (s.now - 1 - dt)))) { v with flushAt := s.now }
    let a := (onlines v1).foldl (fun a m => writeMeta a.1 d m a.2 true) (s, v1)
    exec (.fixerFlushTimeout d slot) s = .next (fullCheck (setVol a.1 d slot a.2) d slot)) ∧
  -- SUPERBLOCK_INTERVAL (R447)
  (∀ (d slot : Nat) (s : State),
    live s d → ∀ v, (svcOf s d slot).vol = some v → fixerRuns s d slot → (v.st = 1 || v.st = 3) →
    v.sbAt + v.sbMs * msTicks ≤ s.now →
    exec (.superblockInterval d slot) s = .next (setVol (askFlushAll s d v) d slot { v with sbAt := s.now })) ∧
  -- SMART_POLL (R438)
  (∀ (d p warn : Nat) (s : State), live s d →
    let g := driveOf s d p
    g.info.isSome → g.smartAt + smartTicks ≤ s.now →
    let s1 := setDrive s d p { g with warn := warn % 256, smartAt := s.now }
    exec (.smartPoll d p warn) s = .next (
      if warn % 256 &&& (255 - g.warn) = 0 then s1 else driveError s1 d p 4 0 0 (warn % 256) 0 0 (dieTime s d))) ∧
  -- NVME_COMMAND_COMPLETE (R438)
  (∀ (d p : Nat) (what : NvmeWhat) (ok : Bool) (s : State), live s d →
    let g := driveOf s d p
    ∀ op r k, g.ops = op :: r → volOfDrive s d p = some k → ok → opWhat op == what →
    exec (.nvmeCommandComplete d p what ok) s = .next (volSettle (driveOpDone (setDrive s d p { g with
      ops := r }) d p k op) d k))

/-- Starts, stops and power gating of units act as their rules say. -/
def Obligations.UnitEventsTakeEffect : Prop :=
  -- UNIT_START_COMPLETE (R39)
  (∀ (u : Nat) (s : State), !isGroup u → unitPresent s u → pwOf s u == .starting → uCls u ≠ clLane → clockReady s u →
    exec (.unitStartComplete u) s = .next (reachAwake s u)) ∧
  -- START_LIMIT_EXPIRY (R41)
  (∀ (u : Nat) (s : State),
    !isGroup u → unitPresent s u → pwOf s u == .starting → (unitOf s u).since + startLimit u < s.now →
    exec (.startLimitExpiry u) s = .next (faultUnitAt s u 2 (tickAt s (uDie u) ((unitOf s u).since + startLimit u)))) ∧
  -- UNIT_STOP_COMPLETE (R39)
  (∀ (u : Nat) (s : State), !isGroup u → unitPresent s u → pwOf s u == .stopping → drainedUnit s u →
    exec (.unitStopComplete u) s = .next (reachAsleep s u)) ∧
  -- POWER_GATE_TIMEOUT (R561)
  (∀ (u : Nat) (s : State), let x := unitOf s u
    !isGroup u → unitPresent s u → gates u → x.pw == .asleep → !x.wantStart → !x.gated → x.since + msTicks < s.now →
    exec (.powerGateTimeout u) s = .next (setUnit s u { x with gated := true })) ∧
  -- DOMAIN_POWER_UP_DONE (R561)
  (∀ (u : Nat) (s : State), !isGroup u → unitPresent s u → (unitOf s u).powering →
    exec (.domainPowerUpDone u) s = .next (tryStart (setUnit s u { unitOf s u with
      powering := false, gated := false }) u)) ∧
  -- LANE_ACQUIRE_ENTRY (R123)
  (∀ (d n : Nat) (s : State),
    live s d → n < 16 → !faulted s d → pwOf s (laneUid d n) == .starting → (pllOf s d (1 + n / 4)).locked →
    exec (.laneAcquireEntry d n) s = .next (reachAwake (setLaneState s d n .acquire 0 (dieTime s d)) (laneUid d n)))

/-- Lane states, captured words, adaptation, deskew and the monitor act as their rules say. -/
def Obligations.LaneEventsTakeEffect : Prop :=
  -- SQUELCH_CHANGE (R122)
  (∀ (d n : Nat) (on : Bool) (s : State), live s d →
    let l := laneOf s d n
    n < 16 → l.signal != on →
    let s1 := setLane s d n { l with signal := on }
    exec (.squelchChange d n on) s = .next (
      match l.state with
      | .listen => laneEvent s1 d n .listen 1 (dieTime s1 d)
      | .acquire | .locked | .framed => if on then s1 else toAcquire s1 d n 1 (dieTime s1 d)
      | _ => s1)) ∧
  -- CDR_LOCK (R123)
  (∀ (d n : Nat) (freqOfs : W32) (s : State), live s d →
    let l := laneOf s d n
    n < 16 → !faulted s d → l.state == .acquire → !l.cdrLock → l.signal → cdrTracks freqOfs.toInt →
    (pllOf s d (1 + n / 4)).locked →
    let l1 := { l with cdrLock := true }
    exec (.cdrLock d n freqOfs) s = .next (
      if l.onceDue && adaptsOnce l then
        setLane s d n { l1 with
          ctle := if l.modeCtle = 0 then l.ctle else l.hostCtle
          ffe := if l.modeFfe = 0 then l.ffe else l.hostFfe
          dfe := if l.modeDfe = 0 then l.dfe else l.hostDfe
          onceEnd := some (s.now + uiTicks s d n (2 ^ 21)) }
      else toLocked (setLane s d n l1) d n 2 (dieTime s d))) ∧
  -- ONCE_ADAPT_END (R106)
  (∀ (d n : Nat) (eq : EqVals) (s : State), live s d →
    let l := laneOf s d n
    ∀ t, l.onceEnd = some t → n < 16 → !faulted s d → t ≤ s.now → l.state == .acquire →
    let l1 := takeEq l 256 (l.modeCtle ≠ 0) (l.modeFfe ≠ 0) (l.modeDfe ≠ 0) eq
    let s1 := post (setLane s d n l1) d 0x0102 (laneUid d n) (dieTime s d) (eqBytes l1)
    exec (.onceAdaptEnd d n eq) s = .next (toLocked s1 d n 2 (dieTime s d))) ∧
  -- CDR_LOCK_LOSS (R103)
  (∀ (d n : Nat) (s : State), live s d →
    let l := laneOf s d n
    n < 16 → l.cdrLock →
    exec (.cdrLockLoss d n) s = .next (toAcquire s d n 2 (dieTime s d))) ∧
  -- FRAME_ALIGN_FOUND (R110)
  (∀ (d n : Nat) (ui : List Nat) (stamp : Stamp) (s : State), live s d →
    let l := laneOf s d n
    ∀ l1, alignFound l ui = some l1 → n < 16 → !faulted s d → l.state == .locked →
    let t := coarse (fineStamp s stamp)
    let s1 := enterAttach (setLane s d n { l1 with state := .framed, frameLock := true }) d n 3 t
    exec (.frameAlignFound d n ui stamp) s = .next (laneEvent s1 d n .locked 3 t)) ∧
  -- FRAME_ALIGN_LOST (R110)
  (∀ (d n : Nat) (stamp : Stamp) (s : State),
    live s d → n < 16 → (laneOf s d n).state == .framed → alignLost (laneOf s d n) →
    let t := coarse (fineStamp s stamp) + 1
    let s1 := incF (leaveAttach s d n 3 t) d (fLaneLossCntFrame n)
    exec (.frameAlignLost d n stamp) s = .next (setLaneState (setLane s1 d n { laneOf s1 d n with
      frameLock := false }) d n .locked 3 t)) ∧
  -- CAPTURE_WORD (R117)
  (∀ (d n : Nat) (ui : List Nat) (stamp stamp2 : Stamp) (s : State), live s d →
    let l := laneOf s d n
    n < 16 → !faulted s d → inAttach l → !alignLost l →
    let bs := l.carry ++ lineBits l ui
    exec (.captureWord d n ui stamp stamp2) s = .next (
      match frameWord l bs with
      | some (ws, l1, k) =>
        let s1 := laneWords (setLane s d n (restPart l bs ui k (fineStamp s stamp2) l1)) d n (fineStamp s stamp)
          (fineStamp s stamp2) ws
        if (laneOf s1 d n).part.isEmpty then delaysDue s1 d n else s1
      | none => setLane s d n { l with part := ui, partStamp := fineStamp s stamp })) ∧
  -- LINK_DETACH_TIMEOUT (R125)
  (∀ (d n : Nat) (s : State), live s d → n < 16 →
    exec (.linkDetachTimeout d n) s = .next (linkExpire s d n s.now)) ∧
  -- LANE_ADAPT_END (R138)
  (∀ (d n : Nat) (eq : EqVals) (s : State), live s d →
    let l := laneOf s d n
    ∀ a, l.adapt = some a → n < 16 → a.endAt ≤ s.now →
    let k := eqSteps s d n
    let s1 := driftEq s d n
    let l0 := laneOf s1 d n
    let l1 := { takeEq { l0 with ctle := l.ctle, gain := l.gain, ffe := l.ffe, dfe := l.dfe } k (adaptSel l a.blocks 0)
        (adaptSel l a.blocks 1) (adaptSel l a.blocks 2) eq with adapt := none }
    let l2 := { l1 with
      ctle := if adaptSel l a.blocks 0 then l1.ctle else l0.ctle
      gain := if adaptSel l a.blocks 0 then l1.gain else l0.gain
      ffe := if adaptSel l a.blocks 1 then l1.ffe else l0.ffe
      dfe := if adaptSel l a.blocks 2 then l1.dfe else l0.dfe }
    let s2 := setLane s1 d n l2
    let u := laneUid d n
    exec (.laneAdaptEnd d n eq) s = .next (
      unitDone (post s2 d 0x0102 u (dieTime s2 d) (eqBytes l2)) a.fid u 0 0 (eqBytes l2) (dieTime s2 d))) ∧
  -- DESKEW_MARKERS_SEEN (R128)
  (∀ (d : Nat) (arrivals : List Nat) (s : State),
    live s d → ∀ a, (dieClk s d).autoDeskew = some a → s.now ≤ a.endAt → (a.seen &&& a.mask) = a.mask →
    let lanes := (List.range 16).filter fun i => bitAt a.mask i
    let at_ := fun i => (arrivals[i]?).getD 0
    let last := (lanes.map at_).foldl max 0
    let skew := fun i => last - at_ i
    let s1 := setDieClk s d { dieClk s d with autoDeskew := none }
    let u := uid d clDie 0
    exec (.deskewMarkersSeen d arrivals) s = .next (
      if lanes.any fun i => 64 < skew i then
        unitDone s1 a.fid u stNoResource 0 (deskewBytes a.mask fun i => min 255 (skew i)) (dieTime s1 d)
      else
        if lanes.isEmpty then unitDone s1 a.fid u 0 0 (deskewBytes a.mask skew) (dieTime s1 d)
        else
          let s2 := lanes.foldl (fun s i =>
            setLane s d i { laneOf s d i with
              delays := (laneOf s d i).delays ++ [⟨skew i, a.fid, u, deskewBytes a.mask skew⟩] }) s1
          lanes.foldl (fun s i => if (laneOf s d i).part.isEmpty then delaysDue s d i else s) s2)) ∧
  -- DESKEW_WINDOW_TIMEOUT (R130)
  (∀ (d : Nat) (s : State), live s d → ∀ a, (dieClk s d).autoDeskew = some a → a.endAt < s.now →
    let s1 := setDieClk s d { dieClk s d with autoDeskew := none }
    exec (.deskewWindowTimeout d) s = .next (unitDone s1 a.fid (uid d clDie 0) stTimedOut 0 [] (dieTime s1 d))) ∧
  -- MONITOR_POINT_DONE (R131)
  (∀ (d n count : Nat) (s : State), live s d →
    let l := laneOf s d n
    ∀ w, l.sweep = some w → n < 16 → laneLive l →
    let v := min count (2 ^ w.dwell)
    let s1 := if w.buffer = 0 then s else hostWrite s w.port (w.buffer + 4 * w.idx) (leBytes 4 v)
    let s2 := if w.toSheet then eyePoint s1 d (b2n w.sheetB) w v else s1
    let last := w.idx + 1 = sweepPoints w
    let w1 := { w with idx := if last then 0 else w.idx + 1, total := w.total + 1, lastAt := dieTime s2 d }
    let s3 := setLane s2 d n { laneOf s2 d n with sweep := some w1 }
    exec (.monitorPointDone d n count) s = .next (
      if w.stopReq || (last && !w.repeats) then endSweep s3 d n (b2n last + 4 * b2n w.stopReq) else s3))

/-- PLLs, the reference, REFOUT, SYNC, the TDC and HBM retraining act as their rules say. -/
def Obligations.ClockEventsTakeEffect : Prop :=
  -- PLL_LOCK (R147)
  (∀ (d k band : Nat) (s : State), live s d →
    let p := pllOf s d k
    let st := pwOf s (pllUid d k)
    k < 8 → (k ≠ 7 || d = 0) → band < 32 → !p.locked → (st == .starting || (st == .awake && p.relock)) →
    let s1 := setPll s d k { p with locked := true, band := band, relock := false, firstDue := false, fails := 0 }
    let s2 :=
      if k = 0 then (if (dieClk s1 d).holding then recoverDie s1 d else startTime s1 d)
      else if k = 5 && p.relock then setDieClk s1 d { dieClk s1 d with hbmTrain := true }
      else if k = 6 then setPort s1 d { portOf s1 d with perstAt := some s1.now }
      else s1
    exec (.pllLock d k band) s = .next (
      if p.relock || (p.notify && p.firstDue) then
        post s2 d 0x0201 (pllUid d k) (dieTime s2 d) (leBytes 1 band ++ leBytes 1 (if p.relock then 2 else 1))
      else s2)) ∧
  -- PLL_STEP_REACHED (R149)
  (∀ (d k : Nat) (s : State), live s d →
    let p := pllOf s d k
    ∀ r, p.step = some r → k < 8 → r.endAt ≤ s.now →
    exec (.pllStepReached d k) s = .next (
      unitDone (setPll s d k { p with step := none, offset := r.target }) r.fid (pllUid d k) 0 0 [] (dieTime s d))) ∧
  -- ALIGN_CHECK (R154)
  (∀ (d : Nat) (s : State), live s d →
    let old := dieTime s d
    let t := dieTime s 0
    d ≠ 0 → counts s 0 → counts s d → old ≠ t →
    let step : Int := tickDiff t old * 256
    let s1 := stepCands (stepDie s d (tickDiff t old) step 3) [d] fun _ => step
    exec (.alignCheck d) s = .next (post s1 d 0x0202 (pllUid d 0) old (leBytes 1 2 ++ leBytes 7 0 ++ int8 step))) ∧
  -- HKCLK_TRIM (R146)
  (∀ (d : Nat) (err : Int) (code : Nat) (s : State), live s d → (pllOf s 0 0).locked → s.clk.ref == .present →
    exec (.hkclkTrim d err code) s = .next (
      setDieClk s d { dieClk s d with
        hkTrimmed := true, hkErr := clampS 16 err, hkCode := code % 1024
        base := if (dieClk s d).holding then dieTime s d else (dieClk s d).base
        atTick := if (dieClk s d).holding then s.now else (dieClk s d).atTick })) ∧
  -- REFOUT_FIRST_EDGE (R151)
  (∀ (s : State), let r := s.clk.refOut
    r.startDue → !r.on → !(dieClk s 0).holding →
    exec (.refoutFirstEdge) s = .next (
      unitsDone (setRefOut s { r with
        on := true, startDue := false, startFids := [] }) pkgUid 0 (dieTime s 0) r.startFids)) ∧
  -- REFOUT_PERIOD_END (R151)
  (∀ (s : State), let r := s.clk.refOut
    r.on → r.stopDue →
    exec (.refoutPeriodEnd) s = .next (
      unitsDone (setRefOut s { r with
        on := false, stopDue := false, stopFids := [] }) pkgUid 0 (dieTime s 0) r.stopFids)) ∧
  -- REFCLK_LOST (R160)
  (∀ (why : Nat) (lastGood : Stamp) (s : State), s.clk.ref != .lost → (dieClk s 0).running →
    let s1 := (dies s).foldl (fun s d => incF s d fClkFaultCntRefLoss) s
    exec (.refclkLost why lastGood) s = .next (
      if s.clk.ref == .returning then { s1 with clk := { s1.clk with ref := .lost } }
      else
        post { s1 with clk := { s1.clk with ref := .lost, refLostAt := physOf s 0 (coarse lastGood) } } 0 0x0203
          pkgUid
          (coarse lastGood) (leBytes 1 why))) ∧
  -- REFCLK_RETURNED (R161)
  (∀ (s : State), s.clk.ref == .lost →
    exec (.refclkReturned) s = .next ({ s with clk := { s.clk with ref := .returning } })) ∧
  -- REF_RETURN_APPLY (R162)
  (∀ (j : Int) (s : State), s.clk.ref == .returning → -4480 ≤ j → j ≤ 4479 →
    let s1 :=
      if s.clk.realign then
        let r := (-j) % 256
        let s1 := stepAll s (fun _ => (-j) / 256) r 1
        { s1 with clk := { s1.clk with realignRest := r.toNat, realignAt := s.now } }
      else (dies s).foldl (fun s d => setDieClk s d { dieClk s d with buildout := (dieClk s d).buildout + j }) s
    exec (.refReturnApply j) s = .next (
      post { s1 with clk := { s1.clk with ref := .present } } 0 0x0204 pkgUid (dieTime s1 0)
        (leBytes 4 (unsgn 32 j) ++ leBytes 1 (b2n s.clk.realign) ++ leBytes 3 0 ++
          leBytes 8 (s.now - s.clk.refLostAt)))) ∧
  -- SYNC_IN_EDGE (R156)
  (∀ (arrival : Nat) (halfTick : Bool) (s : State), (dieClk s 0).running →
    let hold := (dieClk s 0).holding
    let s1 := if s.clk.outEn && !hold && s.clk.ref != .lost then
        { s with clk := { s.clk with outs := s.clk.outs ++ [s.now + (35 * s.clk.outDly + 1) / 2] } }
      else s
    exec (.syncInEdge arrival halfTick) s = .next (
      match s.clk.sync with
      | some a =>
        if s.clk.edge.isSome || s.clk.ref == .lost || hold then incF s1 0 fClkSyncCntIgnored
        else
          let s2 := { s1 with clk := { s1.clk with edge := some ⟨a, dieTime s 0, halfTick, arrival % 256, s.now + 140⟩ } }
          if a.strobe then issueStrobe s2 2 a.mask (s.now * 256) else s2
      | none => incF s1 0 fClkSyncCntIgnored)) ∧
  -- SYNC_ALIGN_APPLY (R157)
  (∀ (s : State), ∀ e, s.clk.edge = some e → e.applyAt ≤ s.now →
    let ticks := fun d => tickDiff e.act.load (dieTime s d)
    let half : Int := -128 * (b2n e.half : Int)
    let step : Int := ticks 0 * 256 + half
    let s1 := if e.act.align then
        let s1 := stepAll s ticks half 0
        (dies s1).foldl (fun s d => setDieClk s d { dieClk s d with buildout := 0 }) s1
      else s
    let s2 := incF s1 0 fClkSyncCntApplied
    let s3 := { s2 with clk := { s2.clk with
      edge := none, sync := if !e.act.repeats && s2.clk.sync == some e.act then none else s2.clk.sync } }
    exec (.syncAlignApply) s = .next (
      post s3 0 0x0205 pkgUid (dieTime s3 0)
        (leBytes 1 (b2n e.act.align + 2 * b2n e.act.strobe) ++ leBytes 1 e.arrival ++ leBytes 6 0 ++
          int8 (if e.act.align then step else 0)))) ∧
  -- SYNC_OUT_REPEAT (R158)
  (∀ (s : State), ∀ t r, s.clk.outs = t :: r → t ≤ s.now →
    exec (.syncOutRepeat) s = .next ({ s with clk := { s.clk with outs := r, outCount := s.clk.outCount + 1 } })) ∧
  -- SYNC_PEER_ATTACH (R56)
  (∀ (s : State), exec (.syncPeerAttach) s = .next (syncAttach s))
 ∧
  -- SYNC_PEER_DETACH (R56)
  (∀ (s : State), exec (.syncPeerDetach) s = .next (syncDetach s))
 ∧
  -- SYNC_IN_DRIVE_CHANGE (R56)
  (∀ (driven : Bool) (s : State), s.clk.syncDriven != driven →
    let s1 := syncDetach (syncAttach s)
    exec (.syncInDriveChange driven) s = .next ({ s1 with
      clk := { s1.clk with syncDriven := driven, syncSince := s1.now } })) ∧
  -- DLL_LOCK (R168)
  (∀ (d : Nat) (inl : List Byte) (s : State), live s d → (pllOf s d 0).locked →
    exec (.dllLock d inl) s = .next (
      setTdc s d { tdcOf s d with
        dll := true
        inl := (List.range 256).map fun i =>
          BitVec.ofNat 8 (unsgn 8 (max (-48) (min 48 (sgn 8 ((inl[i]?).getD 0).toNat)))) })) ∧
  -- DLL_LOCK_LOSS (R168)
  (∀ (d : Nat) (s : State), live s d → (tdcOf s d).dll →
    exec (.dllLockLoss d) s = .next (dllLoss s d)) ∧
  -- TDC_START_EDGE (R170)
  (∀ (d src arg : Nat) (cap : Nat) (tap : Nat) (s : State),
    live s d → ∀ a, (tdcOf s d).arm = some a → a.startSrc = src → src < 7 → argOk a.startArg arg →
    exec (.tdcStartEdge d src arg cap tap) s = .next (tdcStart s d ⟨cap, tap % 256, false⟩)) ∧
  -- TDC_STOP_EDGE (R170)
  (∀ (d n : Nat) (cap : Nat) (tap : Nat) (s : State), live s d → ∀ a, (tdcOf s d).arm = some a →
    let src := ((a.stops[n]?).getD (0, 0)).1
    n < 8 → 1 ≤ src → src < 7 →
    exec (.tdcStopEdge d n cap tap) s = .next (tdcHit s d n ⟨cap, tap % 256, false⟩)) ∧
  -- TDC_WINDOW_CLOSE (R170)
  (∀ (d : Nat) (s : State), live s d →
    let t := tdcOf s d
    ∀ a, t.arm = some a →
    let wait := if a.stops.any (fun x => x.1 = 7) then 112 else 0
    ∀ st, a.start = some st → t.openAt + a.window + wait ≤ s.now →
    exec (.tdcWindowClose d) s = .next (tdcEnd s d 0 (afterStart a st a.window))) ∧
  -- HBM_RETRAINING_DONE (R166)
  (∀ (d : Nat) (s : State), live s d →
    let c := dieClk s d
    c.hbmTrain →
    exec (.hbmRetrainingDone d) s = .next (
      eachStream (fun i s => putGap s d i) (setDieClk s d { c with hbmTrain := false, hbmHeld := false })))

/-- Trigger inputs, sequencers, outputs and candidates act as their rules say. -/
def Obligations.ShutterEventsTakeEffect : Prop :=
  -- TRIG_IN_EDGE (R253)
  (∀ (n : Nat) (rising : Bool) (cap tap : Nat) (s : State), n < 4 →
    let x := trigInOf s n
    let q := trigStamp s n ⟨cap, tap % 256, false⟩
    let e : TrigEdge := ⟨rising, q.1, !(tdcOf s 0).dll⟩
    let ph := physFine s 0 e.stamp
    let close := match x.lastTick with | some l => ph < l + 256 | none => false
    let x1 := { x with level := rising, pendEdge := none, lastTick := if close then x.lastTick else some ph }
    let s1 := setTrigIn q.2 n x1
    exec (.trigInEdge n rising cap tap) s = .next (
      if !x.enable || !edgeMatch x.edge rising || close then s1
      else if x.filter = 0 then trigInGive s1 n e
      else setTrigIn s1 n { x1 with pendEdge := some e, pendAt := ph / 256 + x.filter })) ∧
  -- TRIG_IN_FILTER_EXPIRY (R253)
  (∀ (n : Nat) (s : State), let x := trigInOf s n
    ∀ e, x.pendEdge = some e → x.pendAt < s.now →
    exec (.trigInFilterExpiry n) s = .next (trigInGive (setTrigIn s n { x with pendEdge := none }) n e)) ∧
  -- SEQUENCER_EVALUATE (R257)
  (∀ (s : State), ∀ t, nextCandTick s = some t → !(dieClk s 0).holding → t + 48 ≤ s.now → noExpiryBefore s t →
    exec (.sequencerEvaluate) s = .next (evalTick s t)) ∧
  -- SEQUENCER_TIMER_EXPIRY (R258)
  (∀ (q k e : Nat) (s : State), (timerDue s q k = some e ∨ (timerDue s q k = none ∧ timerDue s (16 + q) k = some e)) →
    exec (.sequencerTimerExpiry q k) s = .next (evalTick s e)) ∧
  -- TRIG_OUT_EDGE (R265)
  (∀ (n : Nat) (s : State), let x := trigOutOf s n
    ∀ e r, x.pend = e :: r → (x.idles.head?.all fun p => e.at_ < p.1 * 256) → e.at_ ≤ s.now * 256 + 255 →
    exec (.trigOutEdge n) s = .next (outAnswer s n (endPulse { x with pend := r } e.at_) e)) ∧
  -- TRIG_OUT_EDGE (R267)
  (∀ (n : Nat) (s : State), let x := trigOutOf s n
    ∀ t v q, x.idles = (t, v) :: q → (x.pend.head?.all fun e => t * 256 ≤ e.at_) → t ≤ s.now →
    exec (.trigOutEdge n) s = .next (setTrigOut s n (takeIdle x (t * 256) v q))) ∧
  -- TRIG_OUT_PULSE_END (R266)
  (∀ (n : Nat) (s : State), let x := trigOutOf s n
    ∀ t, x.pulseEnd = some t → t ≤ s.now * 256 + 255 →
    exec (.trigOutPulseEnd n) s = .next (
      match x.pend with
      | e :: r =>
        if e.cfg.mode = 1 && e.at_ < t + outGap then
          setTrigOut s n { x with pend := r, pulseEnd := some (e.at_ + e.cfg.width * 256) }
        else setTrigOut s n (driveOut { x with pulseEnd := none } t OutCfg.reset false)
      | [] => setTrigOut s n (driveOut { x with pulseEnd := none } t OutCfg.reset false))) ∧
  -- SHUTTER_EVENT_ARRIVAL (R21)
  (∀ (s : State), ∀ e, firstEvent s.sht.events = some e → !off s → e.phys / 256 + 112 ≤ s.now →
    let s1 := tellEvents s
    let e1 := { e with told := true }
    exec (.shutterEventArrival) s = .next (releaseEvent { s1 with
      sht := { s1.sht with events := s1.sht.events.erase e1 } } e1)) ∧
  -- LEVEL_CROSSING (R251)
  (∀ (d k : Nat) (xa xb : Int) (ta tb : Stamp) (low high : Int) (s : State), live s d →
    let m := cmpOf s d (2 + k)
    let g := m.cfg
    let x : Crossing := ⟨xa, xb, ta, tb⟩
    ∀ y rest, k < 2 → g.enable → g.mode = 0 → m.found = y :: rest → x = y →
    exec (.levelCrossing d k xa xb ta tb low high) s = .next (
      crossGive (setCmp s d (2 + k) { m with found := rest }) d k g x)) ∧
  -- LEVEL_CROSSING (R252)
  (∀ (d k : Nat) (xa xb : Int) (ta tb : Stamp) (low high : Int) (s : State), live s d →
    let m := cmpOf s d (2 + k)
    let g := m.cfg
    let m1 := passBounds m low high
    let up := risesAt g xa xb && m1.wasBelow
    let down := fallsAt g xa xb && m1.wasAbove
    k < 2 → g.enable → g.mode ≠ 0 → cmpInput s d g → (up || down) →
    exec (.levelCrossing d k xa xb ta tb low high) s = .next (
      crossGive (setCmp s d (2 + k) (useBound m1 up down)) d k g ⟨xa, xb, fineStamp s ta, fineStamp s tb⟩))

/-- Commits, envelopes, segments, chains, spectra, exports and calibration strips act as their rules say. -/
def Obligations.CaptureEventsTakeEffect : Prop :=
  -- ENTRY_COMMIT (R192)
  (∀ (d i : Nat) (s : State), live s d → i < 96 →
    let x := streamOf s d i
    !((dieClk s d).holding) →
    exec (.entryCommit d i) s = .next (
      if (dieClk s d).hbmHeld then (if 32 ≤ i then s else memDrop s d i)
      else
      let s1 := match x.look with
        | e :: r =>
          if headDue s i e then
            let s1 := setStream s d i { x with look := r }
            lookGap (if isExpo i then expoCommit s1 d i e else rollCommit s1 d i e) d i
          else s
        | [] => lookGap s d i
      settleEnd (finishStop (if isExpo i then expoSettle s1 d i else s1) d i) d i)) ∧
  -- ENV_FLUSH_TIMEOUT (R199)
  (∀ (d i : Nat) (s : State), live s d →
    let x := streamOf s d i
    ∀ o, x.openEnv = some o → i < 96 → x.envFlush ≠ 0 → !o.words.isEmpty → x.openedAt + codeTicks x.envFlush ≤ s.now →
    !(x.look.any (headDue s i)) →
    exec (.envFlushTimeout d i) s = .next (
      if isExpo i then setStream s d i (flushSeg x (key d i)) else closeEnv s d i true)) ∧
  -- REARM_OPEN (R214)
  (∀ (d i : Nat) (s : State), live s d →
    let x := streamOf s d i
    let m := measOf s d (expoIdx i)
    ∀ t, tOpen x m = some t → isExpo i → t + 256 ≤ s.now → !(x.look.any fun e => e.phys / 256 < t) →
    exec (.rearmOpen d i) s = .next (setStream s d i (openSegment x (measAt s d (expoIdx i) t) t))) ∧
  -- SEGMENT_COMPLETE (R348)
  (∀ (d i : Nat) (k : Closing) (r : List Closing) (s : State), live s d → (streamOf s d i).closing = k :: r →
    isExpo i → k.need = false →
    exec (.segmentComplete d i) s = .next (segComplete s d i k)) ∧
  -- DENSITOMETER_READBACK_DONE (R347)
  (∀ (d c : Nat) (s : State), live s d →
    let i := expoOf c
    let x := streamOf s d i
    ∀ k, x.closing.find? (·.need) = some k → c < 2 → measureDue s d c k →
    let up := takesInc s d
    let s1 := if up then sheetSegment s d c x.format k.smps k.trigIdx k.tclose k.tclosePhys else s
    let r : Option Env × State := if k.set.enable then
        let e := measureEnv s1 d i k (!up)
        (some e.1, wrapF e.2 d (fDnsMeasCntCount c) 1)
      else (none, s1)
    let y := streamOf r.2 d i
    exec (.densitometerReadbackDone d c) s = .next (
      setStream r.2 d i { y with
        closing := y.closing.map fun a => if a.num = k.num then { a with need := false, measEnv := r.1 } else a })) ∧
  -- RAW_TAP_SAMPLES (R275)
  (∀ (d c k : Nat) (xs : List Int) (stamps : List Stamp) (s : State), live s d →
    let ts := stamps.map (fineStamp s)
    ∀ n, rowLane s d c ts = some n → tapRowOk s d c n k ts →
    exec (.rawTapSamples d c k xs stamps) s = .next ((tapRow d c n k xs ts) s)) ∧
  -- SETTLING_END (R310)
  (∀ (d c : Nat) (s : State), live s d →
    let x := chainOf s d c
    ∀ o r, x.held = o :: r → c < 2 → x.st == .settling →
    let ticks := min (2 ^ 32 - 1) ((physFine s d o.stamp - x.setAt * 256) / 256)
    let s1 := setChain s d c { x with st := .running, settleTicks := ticks, held := [], setAband := false }
    let s2 := postStamp s1 d 0x0501 (chainUid d c) o.stamp 0
      (leBytes 1 x.setCause ++ leBytes 1 (x.lane.getD 0) ++ leBytes 1 (b2n (x.cfg.final = 3) + 2 * b2n x.setAband) ++
        leBytes 1 0 ++ leBytes 4 ticks ++ leBytes 8 (x.setDie * 256))
    exec (.settlingEnd d c) s = .next (x.held.foldl (emitOut d c) s2)) ∧
  -- CHAIN_INPUT_LOST (R312)
  (∀ (d c : Nat) (firstMissing : Stamp) (s : State), live s d →
    let x := chainOf s d c
    c < 2 → x.lane.isSome → !x.lost → !inputOk s d c →
    let s1 := chainLost s d c firstMissing (!counts s d)
    let y := chainOf s1 d c
    exec (.chainInputLost d c firstMissing) s = .next (
      setChain (cmpForget s1 d (x.lane.getD 0)) d c { y with
        lost := true, nextSub := none,
          gapStamp := if y.st == .noInput && x.st == .noInput then y.gapStamp else firstMissing
        missing := some (y.missing.getD firstMissing) })) ∧
  -- CHAIN_INPUT_RETURN (R312)
  (∀ (d c : Nat) (s : State), live s d →
    let x := chainOf s d c
    ∀ n, x.lane = some n → c < 2 → tapOk s d n → (x.lost || x.st == .noInput) →
    exec (.chainInputReturn d c) s = .next (
      if baudOver s d n then
        if x.st == .noInput then post s d 0x0503 (chainUid d c) (dieTime s d) (gapData x 3 0) else s
      else
        let s2 := setChain s d c { x with lost := false, gapClock := false }
        if x.st != .noInput then s2
        else
          settle (post s2 d 0x0503 (chainUid d c) (dieTime s2 d) (gapData x (gapCause x) 0)) d c
            (if x.gapClock then 5 else 4))) ∧
  -- SPECTRUM_DONE (R300)
  (∀ (d c : Nat) (s : State), live s d →
    let x0 := chainOf s d c
    ∀ r rest, x0.done = r :: rest →
    let tick := binPlace s d r (lastCompared (cmpSetting s d c r.mid).1 r.smps.length) / 256
    c < 2 → tick ≤ s.now →
    let ph := physFine s d r.mid
    let e := pickSetting x0.exp ph x0.expNext
    let m := applyMasks x0.mask ph x0.maskNext
    let s1 := setChain s d c { x0 with exp := e.1, expNext := e.2, mask := m.1, maskNext := m.2, done := rest }
    let bins := recordBins d c r
    let flags := b2n r.ovf + 2 * b2n r.stale + 4 * b2n r.skipped + 8 * b2n r.firstSpec
    exec (.spectrumDone d c) s = .next (
      exportSpectrum (sheetSpectrum (maskJudge s1 d c bins m.1 r.mid tick) d c bins r.stale r.mid) d c r.cfg r.seq
        flags bins r.mid)) ∧
  -- SHEET_EXPORT_DONE (R333)
  (∀ (d k : Nat) (s : State), live s d →
    let a := accOf s d k
    ∀ x, a.exporting = some x → k < 2 → !incComing s d k x.snapPhys →
    let l := surface d k a.cfg x
    let n := if x.buffer = 0 then 0 else ceilDiv l.length 4032
    let s1 := match a.region with | some (h, _) => memWrite s (.hbm d) h l | none => s
    let s2 := writeExport d k x n n l s1
    let s3 := setAcc s2 d k { accOf s2 d k with exporting := none, blank := false, lastNum := some x.num }
    let s4 := post s3 d 0x0601 (densUid d) x.snapDie
      (leBytes 1 k ++ leBytes 1 x.layout ++ leBytes 1 (b2n x.clearAfter + 2 * b2n x.sat) ++ leBytes 1 0 ++
        leBytes 4 x.num ++ leBytes 4 l.length ++ leBytes 4 n)
    exec (.sheetExportDone d k) s = .next (
      unitDone s4 x.fid (densUid d) 0 0 (leBytes 4 x.num ++ leBytes 4 l.length ++ leBytes 4 n) (dieTime s4 d))) ∧
  -- STRIP_START (R360)
  (∀ (d n : Nat) (s0 : State), live s0 d →
    let s := calSync s0 d n
    let x := calOf s d n
    n < 16 → calActive s d n → stripDue s x →
    exec (.stripStart d n) s0 = .next (
      setCal s d n { x with
        strips := x.strips + 1, phase := .estimate, startAt := s.now, winFrom := s.now * 256, winSub := none })) ∧
  -- STRIP_WINDOW_END (R363)
  (∀ (d n k : Nat) (xs : List Int) (last : Stamp) (s0 : State), live s0 d →
    let s := calSync s0 d n
    let x := calOf s d n
    let ph := physFine s d (fineStamp s last)
    n < 16 → (x.phase == .estimate || x.phase == .confirm) → windowFull s d n k ph →
    let w := stripStats x.coef k (xs.map (invCode (laneOf s d n))) (tuiOf s d n)
    let x1 := { x with
      trans := w.trans, sigma := w.sigma, rails := w.rails, winSub := some ((k + xs.length) % 32),
        smpLast := fineStamp s last }
    exec (.stripWindowEnd d n k xs last) s0 = .next (
      match windowFails x w with
      | some r => calFail (setCal s d n x1) d n r (fineStamp s last)
      | none =>
        if x.phase == .estimate then setCal s d n { x1 with phase := .confirm, est := estimatesOf w, winFrom := ph }
        else setCal s d n { x1 with phase := .judging ((ph + 255) / 256 + 4096), conf := estimatesOf w })) ∧
  -- STRIP_EVALUATE (R364)
  (∀ (d n : Nat) (s0 : State), live s0 d →
    let s := calSync s0 d n
    let x := calOf s d n
    ∀ t, x.phase = .judging t → n < 16 → t ≤ s.now → !schedDue s d t →
    exec (.stripEvaluate d n) s0 = .next (
      if !((x.est.zip x.conf).all fun p => agrees p.1 p.2) then calFail s d n 4 (stampOf (tickAt s d t))
      else
        let r := calMeans s x.est x.conf
        let m := largest r.1.2
        let x1 := { x with resid := (min 65535 m.1, min 65535 m.2.1, min 65535 m.2.2) }
        let v := r.1.1
        if changedBits v = 0 then setCal r.2 d n { calPass x1 2 with converged := true }
        else if !bitAt (changedBits v) 2 then calApply (setCal r.2 d n x1) d n v 0 t
        else if !x.gap then calApply (setCal r.2 d n x1) d n v 1 t
        else setCal r.2 d n { x1 with phase := .pending, change := v, waitEnd := t + x.gapWait * msTicks })) ∧
  -- GAP_IDLE_APPLY (R368)
  (∀ (d n : Nat) (s0 : State), live s0 d →
    let s := calSync s0 d n
    let x := calOf s d n
    n < 16 → x.phase == .pending → calIdle s d n → s.now ≤ x.waitEnd →
    exec (.gapIdleApply d n) s0 = .next (calApply s d n x.change 2 s.now)) ∧
  -- GAP_WAIT_EXPIRY (R368)
  (∀ (d n : Nat) (s0 : State), live s0 d →
    let s := calSync s0 d n
    let x := calOf s d n
    n < 16 → x.phase == .pending → x.waitEnd ≤ s.now → (x.waitEnd < s.now || !calIdle s d n) →
    exec (.gapWaitExpiry d n) s0 = .next (
      if x.holdExp then calApply s d n x.change 3 x.waitEnd
      else calFail (setCal s d n { x with change := [] }) d n 6 (stampOf (tickAt s d x.waitEnd)))) ∧
  -- STALE_INTERVAL_END (R369)
  (∀ (d n : Nat) (s : State), live s d →
    let x := calOf s d n
    n < 16 → x.staleOn → x.staleAt + 256 ≤ s.now →
    exec (.staleIntervalEnd d n) s = .next (setCal s d n { x with staleOn := false }))

/-- Scrubs, health checks, swaps and lane repairs act as their rules say. -/
def Obligations.RepairEventsTakeEffect : Prop :=
  -- SRAM_SCRUB (R386)
  (∀ (d e corrected : Nat) (bad : List (Bool × Nat)) (s : State), live s d → e < 16 → !fenced s d →
    let s1 := addF (addF s d (fEngEccCorrected e) corrected) d (fEngEccUncorrected e) bad.length
    let x := engOf s1 d e
    let s2 := setEng s1 d e { x with
      eccCode := x.eccCode ++ ((bad.filter (·.1)).map fun b => b.2 / 4 * 4)
      eccData := x.eccData ++ ((bad.filter (!·.1)).map fun b => b.2 / 8 * 8) }
    exec (.sramScrub d e corrected bad) s = .next (healthSample s2 d 1 e 4 (min corrected 1) (!bad.isEmpty))) ∧
  -- SWAP_COMPLETE (R418)
  (∀ (d e : Nat) (ecc : Option Nat) (s : State), live s d →
    let x := engOf s d e
    ∀ w, x.swap = some w → e < 16 → x.st == .swapping →
    let t := dieTime s d
    let bad := copyError x ecc
    let s1 := setEng s d e { x with
      phys := w.spare, st := w.back, swap := none, wdogCnt := 0, wdogAt := s.now, eccCode := [], eccData := []
      waiting := if w.back == .running then x.waiting else none
      waited := x.waited + (if w.back != .running && x.waiting.isSome then s.now - x.waitAt else 0) }
    let s2 := { s1 with eng := { s1.eng with failed := s1.eng.failed ++ [key d x.phys] } }
    let s3 := setUnit s2 (engUid d e) { unitOf s2 (engUid d e) with spare := true }
    let s4 := post s3 d 0x0804 (engUid d e) t
      (leBytes 1 x.phys ++ leBytes 1 w.spare ++ leBytes 1 w.point ++ leBytes 1 (b2n bad.isSome) ++
        leBytes 4 (s.now - w.beganAt) ++
        leBytes 8 (w.beganDie * 256))
    let r : Swap := ⟨1, d, e, w.spare, none, hostReason s d 1 e, w.beganAt⟩
    let ent : RepEnt := ⟨1, d, 1, r.reason, e, w.spare, 0⟩
    let s5 := repairDone s4 r x.phys bad.isSome false
    let s6 := unitDone (unitDone s5 w.fid (dieUid d) 0 0 (entBytes ent) t) w.fid (engUid d e) 0 0 (entBytes ent) t
    let y := engOf s6 d e
    let s7 := if w.back == .running then s6
      else unitsDone (setEng s6 d e { y with stopFids := [] }) (engUid d e) 0 t y.stopFids
    let s8 := match x.slot with | some k => svcCheck s7 d k | none => s7
    exec (.swapComplete d e ecc) s = .next (
      match bad with
      | some a => engTrap s8 d e 8 (BitVec.ofNat 64 a)
      | none => s8)) ∧
  -- HBM_SCRUB_PASS (R580)
  (∀ (d : Nat) (errs : List (Nat × Nat × Bool)) (s : State),
    live s d → s.ready → !fenced s d → (diePwr s d).scrubAt + 2 ^ 36 ≤ s.now →
    exec (.hbmScrubPass d errs) s = .next (
      (errs.filter fun e => e.1 < 30).foldl (fun s e => healthSample s d 2 e.1 2 e.2.1 e.2.2)
        (setDiePwr s d { diePwr s d with scrubAt := s.now }))) ∧
  -- HEALTH_CHECK (R580)
  (∀ (d kind target monitor value : Nat) (failed : Bool) (s : State),
    live s d → s.ready → !fenced s d → monitors monitor kind → resourceOk s d kind target → value < 2 ^ 32 →
    exec (.healthCheck d kind target monitor value failed) s = .next (
      healthSample s d kind target monitor value failed)) ∧
  -- HBM_COPY_DONE (R576)
  (∀ (d : Nat) (lost : Bool) (s : State),
    live s d → ∀ w, (s.pwr.swaps.find? fun w => w.kind = 2 && w.die = d) = some w →
    exec (.hbmCopyDone d lost) s = .next (repairDone s w (physOf_ s d 2 w.target) lost false)) ∧
  -- UFL_LANE_RETRAIN_DONE (R576)
  (∀ (d p : Nat) (s : State),
    live s d → ∀ w, (s.pwr.swaps.find? fun w => w.kind = 3 && w.die = d && w.target / 256 = p) = some w →
    exec (.uflLaneRetrainDone d p) s = .next (repairDone s w (physOf_ s d 3 w.target) false false)) ∧
  -- UFL_LANE_FAIL (R579)
  (∀ (d p lane : Nat) (s : State), live s d → s.ready → !fenced s d → targetOk s d 3 (256 * p + lane) → lane < 32 →
    let t := 256 * p + lane
    exec (.uflLaneFail d p lane) s = .next (uflLost (raiseHealth s ⟨3, d, t, 3, 3, 0, 0⟩) d t)) ∧
  -- FLIT_CRC_ERROR (R15)
  (∀ (d p : Nat) (s : State), live s d → !fenced s d → p < 4 → (uflPartner (nDies s) d p).isSome →
    exec (.flitCrcError d p) s = .next (incF s d (fUflReplayCntCount p)))

/-- Probe presence, bias, PWM, housekeeping conversions, the composer and the Proof link act as their rules say. -/
def Obligations.ProbeAndProofEventsTakeEffect : Prop :=
  -- PROBE_PRES_CHANGE (R512)
  (∀ (d p : Nat) (high : Bool) (s : State), live s d → p < 2 →
    let x := probeOf s d p
    x.pin != high →
    let s1 := if x.pin && probeHere s d p && x.since + hkMax s d 12500 < s.now then probeRemove s d p else s
    exec (.probePresChange d p high) s = .next (
      setProbe s1 d p { probeOf s1 d p with pin := high, since := s.now, discovering := x.discovering && !high })) ∧
  -- PROBE_PRESENCE_TIMEOUT (R512)
  (∀ (d p : Nat) (s : State), live s d → p < 2 →
    let x := probeOf s d p
    !x.pin → !x.discovering → !probeHere s d p → x.since + presTicks s d ≤ s.now →
    exec (.probePresenceTimeout d p) s = .next (setProbe s d p { x with discovering := true })) ∧
  -- PROBE_DISCOVERY_DONE (R512)
  (∀ (d p pulses acks : Nat) (one two : Option (List Byte)) (s : State), live s d → p < 2 →
    let x := probeOf s d p
    let found := eepromAddr pulses acks
    let read := if found.isSome then (if flagF s d (fPbdI2cAddr16 p) then two else one) else none
    x.discovering →
    let a := if read.isSome then found.getD 0 else 0
    let s1 := setProbe s d p { x with discovering := false, eepromOk := read.isSome, addr := a - 0x50 }
    let detail := leBytes 1 a ++ leBytes 3 0 ++ (match read with | some b => padTo 8 (b.take 8) | none => [])
    exec (.probeDiscoveryDone d p pulses acks one two) s = .next (
      if s.ready then attachPartner s1 d (probeUid d p) 2 (if read.isSome then 0 else 2) (dieTime s d) detail
      else
        let s2 := setProbe s1 d p { probeOf s1 d p with hello := detail }
        setUnit s2 (probeUid d p) { unitOf s2 (probeUid d p) with partner := 2 })) ∧
  -- PROBE_REMOVAL_TIMEOUT (R56)
  (∀ (d p : Nat) (s : State), live s d → p < 2 →
    let x := probeOf s d p
    x.pin → probeHere s d p → x.since + presTicks s d < s.now →
    exec (.probeRemovalTimeout d p) s = .next (probeRemove s d p)) ∧
  -- EEPROM_READ_DONE (R532)
  (∀ (d p : Nat) (ok : Bool) (bytes : List Byte) (s : State), live s d → p < 2 → ∀ r, (probeOf s d p).read = some r →
    exec (.eepromReadDone d p ok bytes) s = .next (
      if ok then readEnd (hostWrite s r.2.1 r.2.2.1 (padTo r.2.2.2 (bytes.take r.2.2.2))) d p 0
      else readEnd s d p stAborted)) ∧
  -- BIAS_SLEW_STEP (R515)
  (∀ (d p : Nat) (s : State), live s d → p < 2 →
    let b := biasOf s d p
    let goal := biasGoal s d p
    let due := b.stepAt + hkMin s d (getF s d (fPbdCfgIntervalM1 p) + 1)
    b.driving → b.code ≠ goal → b.hold.isNone → due ≤ s.now →
    let step := getF s d (fPbdCfgStepM1 p) + 1
    let code := if b.code < goal then b.code + min step (goal - b.code) else b.code - min step (b.code - goal)
    exec (.biasSlewStep d p) s = .next (
      biasArrive (setBias s d p { b with
        code := code, stepAt := s.now, hold := if code / 4096 = b.code / 4096 then none else some (s.now,
          b.code) }) d p)) ∧
  -- DEGLITCH_HOLD_END (R516)
  (∀ (d p : Nat) (s : State), live s d → p < 2 →
    let b := biasOf s d p
    ∀ h, b.hold = some h → h.1 + hkMin s d 25 ≤ s.now →
    exec (.deglitchHoldEnd d p) s = .next (biasArrive (setBias s d p { b with hold := none }) d p)) ∧
  -- BIAS_RANGE_HIGHZ_END (R520)
  (∀ (d p : Nat) (s : State), live s d → p < 2 →
    let b := biasOf s d p
    b.phase == .gap → b.gapAt + hkMin s d 125 ≤ s.now →
    exec (.biasRangeHighzEnd d p) s = .next (
      biasArrive (setBias (setF s d (fPbdCfgRange p) b.newRange) d p { b with
        phase := .toTarget, driving := true, code := zeroCode b.newRange, stepAt := s.now }) d p)) ∧
  -- BIAS_LIMIT_CHANGE (R522)
  (∀ (d p : Nat) (on : Bool) (s : State), live s d → p < 2 →
    let b := biasOf s d p
    b.driving → biasRange s d p < 2 → b.limit.on != on →
    let r := condChange s d b.limit on
    let s1 := setBias s d p { b with limit := r.1, limitAt := if on then s.now else b.limitAt }
    let s2 := if on then setFlag s1 d (fPbdStatLimitSeen p) true else s1
    exec (.biasLimitChange d p on) s = .next (if r.2 then biasReport s2 d p 2 on else s2)) ∧
  -- BIAS_LIMIT_TRIP (R522)
  (∀ (d p : Nat) (s : State), live s d → p < 2 →
    let b := biasOf s d p
    let ms := getF s d (fPbdCtlTripMs p)
    b.driving → b.limit.on → ms ≠ 0 → b.limitAt + hkMin s d (ms * 12500) < s.now →
    let s1 := biasReport s d p 3 true
    let s2 := biasHighZ s1 d p
    exec (.biasLimitTrip d p) s = .next (setBias s2 d p { biasOf s2 d p with tripped := true })) ∧
  -- BIAS_COMPLIANCE_CHANGE (R523)
  (∀ (d p : Nat) (on : Bool) (s : State), live s d → p < 2 →
    let b := biasOf s d p
    b.driving → 2 ≤ biasRange s d p → b.compl.on != on →
    let r := condChange s d b.compl on
    let s1 := setBias s d p { b with compl := r.1 }
    let s2 := if on then setFlag s1 d (fPbdStatComplianceSeen p) true else s1
    exec (.biasComplianceChange d p on) s = .next (if r.2 then biasReport s2 d p 1 on else s2)) ∧
  -- BIAS_REPORT_HOLDOFF_END (R524)
  (∀ (d p : Nat) (s : State), live s d → p < 2 →
    let b := biasOf s d p
    let k := condHoldoff s d b.compl
    let l := condHoldoff s d b.limit
    let s1 := setBias s d p { b with compl := k.1, limit := l.1 }
    let s2 := if k.2 then biasReport s1 d p 1 b.compl.on else s1
    exec (.biasReportHoldoffEnd d p) s = .next (if l.2 then biasReport s2 d p 2 b.limit.on else s2)) ∧
  -- PWM_EDGE (R526)
  (∀ (d p : Nat) (s : State), live s d → p < 2 →
    let w := pwmOf s d p
    let g := pwmCfg s d p
    w.running → w.past = false → g.2.2.2 < g.2.2.1 → w.start + hkMin s d g.2.2.2 ≤ s.now →
    exec (.pwmEdge d p) s = .next (pwmLevel (setPwm s d p { w with past := true }) d p g.2.1)) ∧
  (∀ (d p : Nat) (s : State), live s d → p < 2 →
    let w := pwmOf s d p
    let g := pwmCfg s d p
    w.running → (w.past = true ∨ g.2.2.1 ≤ g.2.2.2) → w.start + hkMin s d g.2.2.1 ≤ s.now →
    exec (.pwmEdge d p) s = .next (pwmBoundary s d p)) ∧
  -- HK_TIMER (R528)
  (∀ (d : Nat) (s : State), live s d →
    let h := hkaOf s d
    let t := h.timerAt + hkMin s d (getF s d fHkaPeriodPeriod)
    awake s (hkaUid d) → getF s d fHkaCfgSource = 1 → t ≤ s.now →
    exec (.hkTimer d) s = .next (hkTrigger (setHka s d { h with timerAt := s.now }) d)) ∧
  -- HK_DELAY_END (R528)
  (∀ (d : Nat) (s : State), live s d →
    let h := hkaOf s d
    ∀ t, h.delayEnd = some t → t ≤ s.now →
    exec (.hkDelayEnd d) s = .next (hkStart (setHka s d { h with delayEnd := none }) d)) ∧
  -- HK_CONVERSION_END (R530)
  (∀ (d raw : Nat) (s : State), live s d →
    let h := hkaOf s d
    ∀ v, h.conv = some v → v.at_ + usTicks * (1000 - hkTol s d) / 1000 ≤ s.now →
    let r := raw % 65536
    let s1 := hkLast (setHka s d { h with conv := none }) d v.time
    exec (.hkConversionEnd d raw) s = .next (
      match v.cal, h.cal with
      | true, some k =>
        let k1 := { k with n := k.n + 1, sum := k.sum + r }
        let s2 := setHka s1 d { hkaOf s1 d with cal := some k1 }
        hkNext (if k1.n = 256 then calEnd s2 d k1 else s2) d
      | true, none => hkNext s1 d
      | false, _ => hkNext (hkResult s1 d v r) d)) ∧
  -- TE_EDGE (R548)
  (∀ (s : State), flagF s 0 fPrfLinkTeTimer = false →
    exec .teEdge s = .next (prfEdge (setPrf s { s.prf with teTick := some s.now }) s.now)) ∧
  -- TE_TIMER_EXPIRY (R548)
  (∀ (s : State), flagF s 0 fPrfLinkTeTimer → nextTimerEdge s ≤ s.now → exec .teTimerExpiry s = .next (timerEdge s)) ∧
  -- INIT_DELAY_EXPIRY (R539)
  (∀ (s : State) (t : Nat) k r, s.prf.waitAt = some t → s.prf.init = k :: r → t ≤ s.now →
    exec .initDelayExpiry s = .next (proofApply (sendInit (setPrf s { s.prf with rstN := true }) r t))) ∧
  -- PUSH_BEGIN (R549)
  (∀ (s : State), ∀ k, s.prf.comp = some k →
    let nx := if k.pushing then k.cur + 1 else k.cur
    ∀ r, k.regions[nx]? = some r →
    let safe := flagF s 0 fPrfStatMode
    (!k.pushing || regionSent s k) →
    (if safe then k.left.isEmpty && composeTime s k k.regions.length 0 else composeTime s k nx 8) →
    exec (.pushBegin) s = .next (
      setPrf s { s.prf with
        burst := [.page r.y (r.y + r.h - 1), .column r.x (r.x + r.w - 1)]
        comp := some { k with cur := nx, pushing := true, line := 0, burstAt := s.now, bytes := 22, pushed := nx } })) ∧
  -- PUSH_LINE_READY (R551)
  (∀ (s : State),
    ∀ k, s.prf.comp = some k → ∀ r, k.regions[k.cur]? = some r → k.pushing → k.line < r.h → burstEnd s k ≤ s.now →
    let w := lineWritten s k r
    exec (.pushLineReady) s = .next (
      if w.1 then
        let pix := memRead w.2 .print (printOfs w.2 r.x (r.y + k.line)) (r.w * linkBpp w.2)
        setPrf w.2 { w.2.prf with
          burst := .line (k.line = 0) pix :: w.2.prf.burst
          comp := some { k with line := k.line + 1, bytes := k.bytes + 7 + r.w * linkBpp w.2 } }
      else prfAbortAt w.2 1 (burstEnd s k))) ∧
  -- PUSH_END (R549)
  (∀ (s : State), ∀ k, s.prf.comp = some k → regionSent s k → k.cur + 1 = k.regions.length → k.left.isEmpty →
    exec (.pushEnd) s = .next (prfDone s k 0 k.regions.length (burstEnd s k))) ∧
  -- LAYER_READ_DONE (R553)
  (∀ (l : Nat) (s : State), ∀ k, s.prf.comp = some k → k.left.contains l →
    exec (.layerReadDone l) s = .next (
      prfRelease k s.now (setPrf s { s.prf with comp := some { k with left := k.left.filter (· ≠ l) } }) l 0)) ∧
  -- INIT_LIST_SENT (R556)
  (∀ (s : State), s.prf.running.isSome → s.prf.waitAt.isNone →
    exec (.initListSent) s = .next (proofApply (initDone s s.now)))

/-- Temperature samples, throttling and supply rails act as their rules say. -/
def Obligations.PowerEventsTakeEffect : Prop :=
  -- TEMP_SAMPLE (R562)
  (∀ (d : Nat) (t : Int) (s : State), live s d →
    let x := diePwr s d
    !fenced s d → !s.pwr.down → !s.pwr.held → (!x.sampled || x.sampleAt + hkMin s d 1250 ≤ s.now) → -32768 ≤ t →
    t ≤ 32767 →
    exec (.tempSample d t) s = .next (
      tempSafe (tempThrottle (tempWarn (tempStore (thermalApply s d) d t) d t) d t) d t)) ∧
  -- THROTTLE_TIMER (R563)
  (∀ (d : Nat) (s : State), live s d →
    let x := diePwr s d
    let l := throttle s d
    ∀ h, x.hotAt = some h → l < 3 → 0 < l → h + msTicks < s.now →
    exec (.throttleTimer d) s = .next (
      setThrottle (setDiePwr s d { x with hotAt := some (h + msTicks) }) d (l + 1) (h + msTicks))) ∧
  -- THROTTLE_TIMER (R563)
  (∀ (d : Nat) (s : State), live s d →
    let x := diePwr s d
    let l := throttle s d
    ∀ c, x.hotAt = none → x.coolAt = some c → 0 < l → c + 10 * msTicks < s.now →
    exec (.throttleTimer d) s = .next (
      setThrottle (setDiePwr s d { x with coolAt := some (c + 10 * msTicks) }) d (l - 1) (c + 10 * msTicks))) ∧
  -- RAIL_LEAVES_WINDOW (R566)
  (∀ (d rail mv : Nat) (above deep : Bool) (s : State), live s d →
    let r := railReads s d rail mv above deep
    railOk rail → r.1 →
    let x := railOf s d rail
    let s1 := setRail s d rail { x with
      out := true, above := r.2.1, deep := r.2.2, mv := mv, since := if x.out then x.since else s.now }
    let s2 := setF s1 d fPwrSupplyNow (getF s d fPwrSupplyNow ||| 2 ^ (rail - 1))
    exec (.railLeavesWindow d rail mv above deep) s = .next (setDiePwr s2 d { diePwr s2 d with backAt := none })) ∧
  -- SUPPLY_FAULT_DETECT (R566)
  (∀ (d rail : Nat) (s : State), live s d →
    let x := railOf s d rail
    railOk rail → !fenced s d → x.out → !x.faulted → x.since + 10 * usTicks < s.now →
    let ph := x.since + 10 * usTicks
    let s1 := setRail s d rail { x with faulted := true }
    let s2 := setF s1 d fPwrSupplySeen (getF s1 d fPwrSupplySeen ||| 2 ^ (rail - 1))
    let s3 := supplyEvent s2 d rail (if x.above then 2 else 1) ph false
    let s4 := if rail = 10 || rail = 4 then biasHighZ (biasHighZ s3 d 0) d 1 else s3
    exec (.supplyFaultDetect d rail) s = .next (enterSafeAt s4 d 1 ph)) ∧
  -- SUPPLY_RETURN_TIMEOUT (R566)
  (∀ (d : Nat) (s : State), live s d →
    let x := diePwr s d
    ∀ t, x.backAt = some t → !fenced s d → railsIn s d → bitAt (causes s d) 1 → t + 10 * msTicks < s.now →
    exec (.supplyReturnTimeout d) s = .next (
      clearCauseAt (supplyEvent (setDiePwr s d { x with backAt := none }) d x.backRail 3 (t + 10 * msTicks) false)
        d 1 (t + 10 * msTicks))) ∧
  -- SUPPLY_FENCE_TIMEOUT (R566)
  (∀ (d rail : Nat) (s : State), live s d →
    let x := railOf s d rail
    railOk rail → !fenced s d → x.out → (x.deep || (x.faulted && x.since + 100 * msTicks < s.now)) →
    let s1 := if rail = 10 || rail = 4 then biasHighZ (biasHighZ s d 0) d 1 else s
    exec (.supplyFenceTimeout d rail) s = .next (
      fence (supplyEvent s1 d rail (if x.above then 2 else 1) (if x.deep then s.now else x.since + 100 * msTicks)
        true) d)) ∧
  -- RAIL_RETURNS_TO_WINDOW (R566)
  (∀ (d rail mv : Nat) (s : State),
    live s d → railOk rail → (railOf s d rail).out → (rail ≠ 1 || !(railReads s d 1 mv false false).1) →
    let now := getF s d fPwrSupplyNow
    let s1 := setRail s d rail { railOf s d rail with out := false, deep := false, mv := mv, faulted := false }
    let s2 := setF s1 d fPwrSupplyNow (if bitAt now (rail - 1) then now - 2 ^ (rail - 1) else now)
    let x := diePwr s2 d
    exec (.railReturnsToWindow d rail mv) s = .next (
      setDiePwr s2 d { x with
        backAt := if railsIn s2 d then some s.now else none, backRail := rail,
          railsWait := x.railsWait && !railsIn s2 d })) ∧
  -- VDD_CORE_REQUEST (R594)
  (∀ (d : Nat) (up : Bool) (s : State), live s d →
    let x := diePwr s d
    let mv := getF s d fPwrStatCoreMv
    let v := if up then mv + 5 else mv - 5
    !fenced s d → 650 ≤ v → v ≤ 850 → x.coreAt + 100 * usTicks ≤ s.now →
    exec (.vddCoreRequest d up) s = .next (setF (setDiePwr s d { x with coreAt := s.now }) d fPwrStatCoreMv v))

/-- Each ALU instruction of an engine writes its result and retires. -/
def Obligations.EngineAluWritesResult : Prop :=
  -- ADD (R389)
  (∀ (e : Eng) (d a b : Nat) (s : State), executes s e (engEncode (.engAdd d a b)) →
    let x := engOf s e.die e.idx
    exec (.engAdd e d a b) s = .next (wrote s e d (plain (payOf x a + payOf x b)))) ∧
  -- SUB (R389)
  (∀ (e : Eng) (d a b : Nat) (s : State), executes s e (engEncode (.engSub d a b)) →
    let x := engOf s e.die e.idx
    exec (.engSub e d a b) s = .next (wrote s e d (plain (payOf x a - payOf x b)))) ∧
  -- AND (R389)
  (∀ (e : Eng) (d a b : Nat) (s : State), executes s e (engEncode (.engAnd d a b)) →
    let x := engOf s e.die e.idx
    exec (.engAnd e d a b) s = .next (wrote s e d (plain (payOf x a &&& payOf x b)))) ∧
  -- OR (R389)
  (∀ (e : Eng) (d a b : Nat) (s : State), executes s e (engEncode (.engOr d a b)) →
    let x := engOf s e.die e.idx
    exec (.engOr e d a b) s = .next (wrote s e d (plain (payOf x a ||| payOf x b)))) ∧
  -- XOR (R389)
  (∀ (e : Eng) (d a b : Nat) (s : State), executes s e (engEncode (.engXor d a b)) →
    let x := engOf s e.die e.idx
    exec (.engXor e d a b) s = .next (wrote s e d (plain (payOf x a ^^^ payOf x b)))) ∧
  -- ANDN (R389)
  (∀ (e : Eng) (d a b : Nat) (s : State), executes s e (engEncode (.andn d a b)) →
    let x := engOf s e.die e.idx
    exec (.andn e d a b) s = .next (wrote s e d (plain (payOf x a &&& ~~~payOf x b)))) ∧
  -- SHL (R389)
  (∀ (e : Eng) (d a b : Nat) (s : State), executes s e (engEncode (.shl d a b)) →
    let x := engOf s e.die e.idx
    exec (.shl e d a b) s = .next (wrote s e d (plain (payOf x a <<< ((payOf x b).toNat % 64))))) ∧
  -- SHR (R389)
  (∀ (e : Eng) (d a b : Nat) (s : State), executes s e (engEncode (.shr d a b)) →
    let x := engOf s e.die e.idx
    exec (.shr e d a b) s = .next (wrote s e d (plain (payOf x a >>> ((payOf x b).toNat % 64))))) ∧
  -- SAR (R389)
  (∀ (e : Eng) (d a b : Nat) (s : State), executes s e (engEncode (.sar d a b)) →
    let x := engOf s e.die e.idx
    exec (.sar e d a b) s = .next (wrote s e d (plain ((payOf x a).sshiftRight ((payOf x b).toNat % 64))))) ∧
  -- ROR (R389)
  (∀ (e : Eng) (d a b : Nat) (s : State), executes s e (engEncode (.ror d a b)) →
    let x := engOf s e.die e.idx
    exec (.ror e d a b) s = .next (wrote s e d (plain ((payOf x a).rotateRight ((payOf x b).toNat % 64))))) ∧
  -- SLT (R389)
  (∀ (e : Eng) (d a b : Nat) (s : State), executes s e (engEncode (.slt d a b)) →
    let x := engOf s e.die e.idx
    exec (.slt e d a b) s = .next (wrote s e d (plain (if (payOf x a).toInt < (payOf x b).toInt then 1 else 0)))) ∧
  -- SLTU (R389)
  (∀ (e : Eng) (d a b : Nat) (s : State), executes s e (engEncode (.sltu d a b)) →
    let x := engOf s e.die e.idx
    exec (.sltu e d a b) s = .next (wrote s e d (plain (if (payOf x a).toNat < (payOf x b).toNat then 1 else 0)))) ∧
  -- MIN (R389)
  (∀ (e : Eng) (d a b : Nat) (s : State), executes s e (engEncode (.engMin d a b)) →
    let x := engOf s e.die e.idx
    exec (.engMin e d a b) s = .next (
      wrote s e d (plain (if (payOf x a).toInt < (payOf x b).toInt then payOf x a else payOf x b)))) ∧
  -- MAX (R389)
  (∀ (e : Eng) (d a b : Nat) (s : State), executes s e (engEncode (.engMax d a b)) →
    let x := engOf s e.die e.idx
    exec (.engMax e d a b) s = .next (
      wrote s e d (plain (if (payOf x a).toInt < (payOf x b).toInt then payOf x b else payOf x a)))) ∧
  -- MINU (R389)
  (∀ (e : Eng) (d a b : Nat) (s : State), executes s e (engEncode (.minu d a b)) →
    let x := engOf s e.die e.idx
    exec (.minu e d a b) s = .next (
      wrote s e d (plain (if (payOf x a).toNat < (payOf x b).toNat then payOf x a else payOf x b)))) ∧
  -- MAXU (R389)
  (∀ (e : Eng) (d a b : Nat) (s : State), executes s e (engEncode (.maxu d a b)) →
    let x := engOf s e.die e.idx
    exec (.maxu e d a b) s = .next (
      wrote s e d (plain (if (payOf x a).toNat < (payOf x b).toNat then payOf x b else payOf x a)))) ∧
  -- MUL (R389)
  (∀ (e : Eng) (d a b : Nat) (s : State), executes s e (engEncode (.engMul d a b)) →
    let x := engOf s e.die e.idx
    exec (.engMul e d a b) s = .next (wrote s e d (plain (payOf x a * payOf x b)))) ∧
  -- MULHU (R389)
  (∀ (e : Eng) (d a b : Nat) (s : State), executes s e (engEncode (.mulhu d a b)) →
    let x := engOf s e.die e.idx
    exec (.mulhu e d a b) s = .next (
      wrote s e d (plain (BitVec.ofNat 64 ((payOf x a).toNat * (payOf x b).toNat / 2 ^ 64))))) ∧
  -- MULH (R389)
  (∀ (e : Eng) (d a b : Nat) (s : State), executes s e (engEncode (.mulh d a b)) →
    let x := engOf s e.die e.idx
    exec (.mulh e d a b) s = .next (
      wrote s e d (plain (BitVec.ofInt 64 ((payOf x a).toInt * (payOf x b).toInt / 2 ^ 64))))) ∧
  -- CLZ (R389)
  (∀ (e : Eng) (d a : Nat) (s : State), executes s e (engEncode (.clz d a)) →
    let x := engOf s e.die e.idx
    exec (.clz e d a) s = .next (wrote s e d (plain (BitVec.ofNat 64 (leadZeros (payOf x a).toNat 64))))) ∧
  -- CTZ (R389)
  (∀ (e : Eng) (d a : Nat) (s : State), executes s e (engEncode (.ctz d a)) →
    let x := engOf s e.die e.idx
    exec (.ctz e d a) s = .next (wrote s e d (plain (BitVec.ofNat 64 (trailZeros (payOf x a).toNat 0 64))))) ∧
  -- POPC (R389)
  (∀ (e : Eng) (d a : Nat) (s : State), executes s e (engEncode (.popc d a)) →
    let x := engOf s e.die e.idx
    exec (.popc e d a) s = .next (wrote s e d (plain (BitVec.ofNat 64 (popCount (payOf x a).toNat 64))))) ∧
  -- BSWAP (R389)
  (∀ (e : Eng) (d a : Nat) (s : State), executes s e (engEncode (.bswap d a)) →
    let x := engOf s e.die e.idx
    exec (.bswap e d a) s = .next (
      wrote s e d (plain (BitVec.ofNat 64 (leNat (leBytes 8 (payOf x a).toNat).reverse))))) ∧
  -- MOVW (R389)
  (∀ (e : Eng) (d a : Nat) (s : State), executes s e (engEncode (.movw d a)) →
    let x := engOf s e.die e.idx
    exec (.movw e d a) s = .next (wrote s e d (regOf x a))) ∧
  -- SETSIDE (R389)
  (∀ (e : Eng) (d a b : Nat) (s : State), executes s e (engEncode (.setside d a b)) →
    let x := engOf s e.die e.idx
    exec (.setside e d a b) s = .next (wrote s e d ((payOf x b).setWidth 8 ++ payOf x a))) ∧
  -- GETSIDE (R389)
  (∀ (e : Eng) (d a : Nat) (s : State), executes s e (engEncode (.getside d a)) →
    let x := engOf s e.die e.idx
    exec (.getside e d a) s = .next (wrote s e d (plain (((regOf x a) >>> 64).setWidth 64))))

/-- Each immediate instruction of an engine writes its result and retires. -/
def Obligations.EngineImmediateWritesResult : Prop :=
  -- ADDI (R388)
  (∀ (e : Eng) (d a : Nat) (imm : W16) (s : State), executes s e (engEncode (.addi d a imm)) →
    let x := engOf s e.die e.idx
    exec (.addi e d a imm) s = .next (wrote s e d (plain (payOf x a + imm.signExtend 64)))) ∧
  -- ANDI (R388)
  (∀ (e : Eng) (d a : Nat) (imm : W16) (s : State), executes s e (engEncode (.andi d a imm)) →
    let x := engOf s e.die e.idx
    exec (.andi e d a imm) s = .next (wrote s e d (plain (payOf x a &&& imm.setWidth 64)))) ∧
  -- ORI (R388)
  (∀ (e : Eng) (d a : Nat) (imm : W16) (s : State), executes s e (engEncode (.ori d a imm)) →
    let x := engOf s e.die e.idx
    exec (.ori e d a imm) s = .next (wrote s e d (plain (payOf x a ||| imm.setWidth 64)))) ∧
  -- XORI (R388)
  (∀ (e : Eng) (d a : Nat) (imm : W16) (s : State), executes s e (engEncode (.xori d a imm)) →
    let x := engOf s e.die e.idx
    exec (.xori e d a imm) s = .next (wrote s e d (plain (payOf x a ^^^ imm.setWidth 64)))) ∧
  -- SLTI (R388)
  (∀ (e : Eng) (d a : Nat) (imm : W16) (s : State), executes s e (engEncode (.slti d a imm)) →
    let x := engOf s e.die e.idx
    exec (.slti e d a imm) s = .next (
      wrote s e d (plain (if (payOf x a).toInt < (imm.signExtend 64).toInt then 1 else 0)))) ∧
  -- SLTIU (R388)
  (∀ (e : Eng) (d a : Nat) (imm : W16) (s : State), executes s e (engEncode (.sltiu d a imm)) →
    let x := engOf s e.die e.idx
    exec (.sltiu e d a imm) s = .next (
      wrote s e d (plain (if (payOf x a).toNat < (imm.signExtend 64).toNat then 1 else 0)))) ∧
  -- SHIFTI (R388)
  (∀ (e : Eng) (d a kind amt : Nat) (s : State), executes s e (engEncode (.shifti d a kind amt)) →
    let x := engOf s e.die e.idx
    exec (.shifti e d a kind amt) s = .next (
      wrote s e d (plain (if kind = 0 then payOf x a <<< amt else if kind = 1 then payOf x a >>> amt else if kind =
      2 then (payOf x a).sshiftRight amt else (payOf x a).rotateRight amt)))) ∧
  -- MOVZ (R388)
  (∀ (e : Eng) (d k : Nat) (imm : W16) (s : State), executes s e (engEncode (.movz d k imm)) →
    exec (.movz e d k imm) s = .next (wrote s e d (plain (imm.setWidth 64 <<< (16 * k))))) ∧
  -- MOVK (R388)
  (∀ (e : Eng) (d k : Nat) (imm : W16) (s : State), executes s e (engEncode (.movk d k imm)) →
    let x := engOf s e.die e.idx
    exec (.movk e d k imm) s = .next (
      wrote s e d ((regOf x d &&& ~~~((0xFFFF : BitVec 72) <<< (16 * k))) ||| (imm.setWidth 72 <<< (16 * k))))) ∧
  -- EXTR (R388)
  (∀ (e : Eng) (d a pos len : Nat) (s : State), executes s e (engEncode (.extr d a pos len)) →
    let x := engOf s e.die e.idx
    pos + len ≤ 72 →
    exec (.extr e d a pos len) s = .next (wrote s e d ((regOf x a >>> pos) &&& lowMask len))) ∧
  -- INSR (R388)
  (∀ (e : Eng) (d a pos len : Nat) (s : State), executes s e (engEncode (.insr d a pos len)) →
    let x := engOf s e.die e.idx
    pos + len ≤ 72 →
    exec (.insr e d a pos len) s = .next (
      wrote s e d ((regOf x d &&& ~~~(lowMask len <<< pos)) ||| ((regOf x a <<< pos) &&& (lowMask len <<< pos)))))

/-- Loads and stores of an engine read and write the bytes their address names. -/
def Obligations.EngineMemoryAccess : Prop :=
  -- LDB (R384)
  (∀ (e : Eng) (d a : Nat) (imm : W16) (s : State), executes s e (engEncode (.ldb d a imm)) →
    let x := engOf s e.die e.idx
    let va := (memAddr x a imm).toNat
    va % 1 = 0 → va < 2 ^ 40 →
    (∀ p, areaOf x va = some (.sram p) → x.eccData.contains (p / 8 * 8) = false →
      exec (.ldb e d a imm) s = .next (wrote s e d (BitVec.ofNat 72 (memNat s (.engData e.die e.idx) p 1)))) ∧
    (∀ p, areaOf x va = some (.h2e p) ∨ areaOf x va = some (.e2h p) →
      exec (.ldb e d a imm) s = .next (wrote s e d (BitVec.ofNat 72 (memNat s (.engData e.die e.idx) p 1)))) ∧
    (∀ p v, areaOf x va = some (.heap p) → cacheRead x p 1 = some v → exec (.ldb e d a imm) s = .next (
      wrote s e d (BitVec.ofNat 72 v))) ∧
    (∀ p, areaOf x va = some (.heap p) → cacheRead x p 1 = none →
      exec (.ldb e d a imm) s = .next (engAct e.die e.idx (.hold (countMiss s e.die e.idx) (.load d p 1))))) ∧
  -- LDH (R384)
  (∀ (e : Eng) (d a : Nat) (imm : W16) (s : State), executes s e (engEncode (.ldh d a imm)) →
    let x := engOf s e.die e.idx
    let va := (memAddr x a imm).toNat
    va % 2 = 0 → va < 2 ^ 40 →
    (∀ p, areaOf x va = some (.sram p) → x.eccData.contains (p / 8 * 8) = false →
      exec (.ldh e d a imm) s = .next (wrote s e d (BitVec.ofNat 72 (memNat s (.engData e.die e.idx) p 2)))) ∧
    (∀ p, areaOf x va = some (.h2e p) ∨ areaOf x va = some (.e2h p) →
      exec (.ldh e d a imm) s = .next (wrote s e d (BitVec.ofNat 72 (memNat s (.engData e.die e.idx) p 2)))) ∧
    (∀ p v, areaOf x va = some (.heap p) → cacheRead x p 2 = some v → exec (.ldh e d a imm) s = .next (
      wrote s e d (BitVec.ofNat 72 v))) ∧
    (∀ p, areaOf x va = some (.heap p) → cacheRead x p 2 = none →
      exec (.ldh e d a imm) s = .next (engAct e.die e.idx (.hold (countMiss s e.die e.idx) (.load d p 2))))) ∧
  -- LDD (R384)
  (∀ (e : Eng) (d a : Nat) (imm : W16) (s : State), executes s e (engEncode (.ldd d a imm)) →
    let x := engOf s e.die e.idx
    let va := (memAddr x a imm).toNat
    va % 4 = 0 → va < 2 ^ 40 →
    (∀ p, areaOf x va = some (.sram p) → x.eccData.contains (p / 8 * 8) = false →
      exec (.ldd e d a imm) s = .next (wrote s e d (BitVec.ofNat 72 (memNat s (.engData e.die e.idx) p 4)))) ∧
    (∀ p, areaOf x va = some (.h2e p) ∨ areaOf x va = some (.e2h p) →
      exec (.ldd e d a imm) s = .next (wrote s e d (BitVec.ofNat 72 (memNat s (.engData e.die e.idx) p 4)))) ∧
    (∀ p v, areaOf x va = some (.heap p) → cacheRead x p 4 = some v → exec (.ldd e d a imm) s = .next (
      wrote s e d (BitVec.ofNat 72 v))) ∧
    (∀ p, areaOf x va = some (.heap p) → cacheRead x p 4 = none →
      exec (.ldd e d a imm) s = .next (engAct e.die e.idx (.hold (countMiss s e.die e.idx) (.load d p 4))))) ∧
  -- LDQ (R384)
  (∀ (e : Eng) (d a : Nat) (imm : W16) (s : State), executes s e (engEncode (.ldq d a imm)) →
    let x := engOf s e.die e.idx
    let va := (memAddr x a imm).toNat
    va % 8 = 0 → va < 2 ^ 40 →
    (∀ p, areaOf x va = some (.sram p) → x.eccData.contains (p / 8 * 8) = false →
      exec (.ldq e d a imm) s = .next (wrote s e d (BitVec.ofNat 72 (memNat s (.engData e.die e.idx) p 8)))) ∧
    (∀ p, areaOf x va = some (.h2e p) ∨ areaOf x va = some (.e2h p) →
      exec (.ldq e d a imm) s = .next (wrote s e d (BitVec.ofNat 72 (memNat s (.engData e.die e.idx) p 8)))) ∧
    (∀ p v, areaOf x va = some (.heap p) → cacheRead x p 8 = some v → exec (.ldq e d a imm) s = .next (
      wrote s e d (BitVec.ofNat 72 v))) ∧
    (∀ p, areaOf x va = some (.heap p) → cacheRead x p 8 = none →
      exec (.ldq e d a imm) s = .next (engAct e.die e.idx (.hold (countMiss s e.die e.idx) (.load d p 8))))) ∧
  -- LDW (R384)
  (∀ (e : Eng) (d a : Nat) (imm : W16) (s : State), executes s e (engEncode (.ldw d a imm)) →
    let x := engOf s e.die e.idx
    let va := (memAddr x a imm).toNat
    ∀ p, va % 8 = 0 → va < 2 ^ 40 → areaOf x va = some (.sram p) → x.eccData.contains (p / 8 * 8) = false →
    exec (.ldw e d a imm) s = .next (wrote s e d
      (BitVec.ofNat 72 (memNat s (.engSide e.die e.idx) (p / 8) 1 * 2 ^ 64 + memNat s (.engData e.die e.idx) p 8)))) ∧
  -- STB (R384)
  (∀ (e : Eng) (d a : Nat) (imm : W16) (s : State), executes s e (engEncode (.stb d a imm)) →
    let x := engOf s e.die e.idx
    let va := (memAddr x a imm).toNat
    va % 1 = 0 → va < 2 ^ 40 →
    (∀ p, areaOf x va = some (.sram p) ∨ areaOf x va = some (.e2h p) →
      exec (.stb e d a imm) s = .next (
        retire (memWrite s (.engData e.die e.idx) p (leBytes 1 (payOf x d).toNat)) e.die e.idx)) ∧
    (∀ p, areaOf x va = some (.heap p) →
      exec (.stb e d a imm) s = .next (retire (cacheWrite s e.die e.idx p 1 (payOf x d).toNat) e.die e.idx))) ∧
  -- STH (R384)
  (∀ (e : Eng) (d a : Nat) (imm : W16) (s : State), executes s e (engEncode (.sth d a imm)) →
    let x := engOf s e.die e.idx
    let va := (memAddr x a imm).toNat
    va % 2 = 0 → va < 2 ^ 40 →
    (∀ p, areaOf x va = some (.sram p) ∨ areaOf x va = some (.e2h p) →
      exec (.sth e d a imm) s = .next (
        retire (memWrite s (.engData e.die e.idx) p (leBytes 2 (payOf x d).toNat)) e.die e.idx)) ∧
    (∀ p, areaOf x va = some (.heap p) →
      exec (.sth e d a imm) s = .next (retire (cacheWrite s e.die e.idx p 2 (payOf x d).toNat) e.die e.idx))) ∧
  -- STD (R384)
  (∀ (e : Eng) (d a : Nat) (imm : W16) (s : State), executes s e (engEncode (.std d a imm)) →
    let x := engOf s e.die e.idx
    let va := (memAddr x a imm).toNat
    va % 4 = 0 → va < 2 ^ 40 →
    (∀ p, areaOf x va = some (.sram p) ∨ areaOf x va = some (.e2h p) →
      exec (.std e d a imm) s = .next (
        retire (memWrite s (.engData e.die e.idx) p (leBytes 4 (payOf x d).toNat)) e.die e.idx)) ∧
    (∀ p, areaOf x va = some (.heap p) →
      exec (.std e d a imm) s = .next (retire (cacheWrite s e.die e.idx p 4 (payOf x d).toNat) e.die e.idx))) ∧
  -- STQ (R384)
  (∀ (e : Eng) (d a : Nat) (imm : W16) (s : State), executes s e (engEncode (.stq d a imm)) →
    let x := engOf s e.die e.idx
    let va := (memAddr x a imm).toNat
    va % 8 = 0 → va < 2 ^ 40 →
    (∀ p, areaOf x va = some (.sram p) ∨ areaOf x va = some (.e2h p) →
      exec (.stq e d a imm) s = .next (
        retire (memWrite s (.engData e.die e.idx) p (leBytes 8 (payOf x d).toNat)) e.die e.idx)) ∧
    (∀ p, areaOf x va = some (.heap p) →
      exec (.stq e d a imm) s = .next (retire (cacheWrite s e.die e.idx p 8 (payOf x d).toNat) e.die e.idx))) ∧
  -- STW (R384)
  (∀ (e : Eng) (d a : Nat) (imm : W16) (s : State), executes s e (engEncode (.stw d a imm)) →
    let x := engOf s e.die e.idx
    let va := (memAddr x a imm).toNat
    ∀ p, va % 8 = 0 → va < 2 ^ 40 → areaOf x va = some (.sram p) →
    let s1 := memWrite s (.engData e.die e.idx) p (leBytes 8 (payOf x d).toNat)
    let s2 := memWrite s1 (.engSide e.die e.idx) (p / 8) (leBytes 1 (bits (regOf x d).toNat 64 8))
    exec (.stw e d a imm) s = .next (
      became s2 e { engOf s2 e.die e.idx with eccData := x.eccData.filter (· ≠ p) }))

/-- Branches and jumps of an engine go to the target their rules give. -/
def Obligations.EngineBranchTargets : Prop :=
  -- BEQ (R388)
  (∀ (e : Eng) (d a : Nat) (imm : W16) (s : State), executes s e (engEncode (.beq d a imm)) →
    let x := engOf s e.die e.idx
    let t := BitVec.ofNat 64 x.pc + 4 * imm.signExtend 64
    (¬(payOf x d = payOf x a) → exec (.beq e d a imm) s = .next (retire s e.die e.idx)) ∧
    (payOf x d = payOf x a → t.toNat % 4 = 0 → t.toNat < 0x20000 → exec (.beq e d a imm) s = .next (
      retireTo s e.die e.idx t.toNat))) ∧
  -- BNE (R388)
  (∀ (e : Eng) (d a : Nat) (imm : W16) (s : State), executes s e (engEncode (.bne d a imm)) →
    let x := engOf s e.die e.idx
    let t := BitVec.ofNat 64 x.pc + 4 * imm.signExtend 64
    (¬(payOf x d ≠ payOf x a) → exec (.bne e d a imm) s = .next (retire s e.die e.idx)) ∧
    (payOf x d ≠ payOf x a → t.toNat % 4 = 0 → t.toNat < 0x20000 → exec (.bne e d a imm) s = .next (
      retireTo s e.die e.idx t.toNat))) ∧
  -- BLT (R388)
  (∀ (e : Eng) (d a : Nat) (imm : W16) (s : State), executes s e (engEncode (.blt d a imm)) →
    let x := engOf s e.die e.idx
    let t := BitVec.ofNat 64 x.pc + 4 * imm.signExtend 64
    (¬((payOf x d).toInt < (payOf x a).toInt) → exec (.blt e d a imm) s = .next (retire s e.die e.idx)) ∧
    ((payOf x d).toInt < (payOf x a).toInt → t.toNat % 4 = 0 → t.toNat < 0x20000 → exec (.blt e d a imm) s = .next (
      retireTo s e.die e.idx t.toNat))) ∧
  -- BGE (R388)
  (∀ (e : Eng) (d a : Nat) (imm : W16) (s : State), executes s e (engEncode (.bge d a imm)) →
    let x := engOf s e.die e.idx
    let t := BitVec.ofNat 64 x.pc + 4 * imm.signExtend 64
    (¬((payOf x a).toInt ≤ (payOf x d).toInt) → exec (.bge e d a imm) s = .next (retire s e.die e.idx)) ∧
    ((payOf x a).toInt ≤ (payOf x d).toInt → t.toNat % 4 = 0 → t.toNat < 0x20000 → exec (.bge e d a imm) s = .next (
      retireTo s e.die e.idx t.toNat))) ∧
  -- BLTU (R388)
  (∀ (e : Eng) (d a : Nat) (imm : W16) (s : State), executes s e (engEncode (.bltu d a imm)) →
    let x := engOf s e.die e.idx
    let t := BitVec.ofNat 64 x.pc + 4 * imm.signExtend 64
    (¬((payOf x d).toNat < (payOf x a).toNat) → exec (.bltu e d a imm) s = .next (retire s e.die e.idx)) ∧
    ((payOf x d).toNat < (payOf x a).toNat → t.toNat % 4 = 0 → t.toNat < 0x20000 → exec (.bltu e d a imm) s = .next (
      retireTo s e.die e.idx t.toNat))) ∧
  -- BGEU (R388)
  (∀ (e : Eng) (d a : Nat) (imm : W16) (s : State), executes s e (engEncode (.bgeu d a imm)) →
    let x := engOf s e.die e.idx
    let t := BitVec.ofNat 64 x.pc + 4 * imm.signExtend 64
    (¬((payOf x a).toNat ≤ (payOf x d).toNat) → exec (.bgeu e d a imm) s = .next (retire s e.die e.idx)) ∧
    ((payOf x a).toNat ≤ (payOf x d).toNat → t.toNat % 4 = 0 → t.toNat < 0x20000 → exec (.bgeu e d a imm) s = .next (
      retireTo s e.die e.idx t.toNat))) ∧
  -- JAL (R388)
  (∀ (e : Eng) (d : Nat) (imm : W21) (s : State), executes s e (engEncode (.jal d imm)) →
    let x := engOf s e.die e.idx
    let t := BitVec.ofNat 64 x.pc + 4 * imm.signExtend 64
    t.toNat % 4 = 0 → t.toNat < 0x20000 →
    exec (.jal e d imm) s = .next (
      retireTo (setEng s e.die e.idx (putReg x d (plain (BitVec.ofNat 64 (x.pc + 4))))) e.die e.idx t.toNat)) ∧
  -- JALR (R388)
  (∀ (e : Eng) (d a : Nat) (imm : W16) (s : State), executes s e (engEncode (.jalr d a imm)) →
    let x := engOf s e.die e.idx
    let t := payOf x a + imm.signExtend 64
    t.toNat % 4 = 0 → t.toNat < 0x20000 →
    exec (.jalr e d a imm) s = .next (
      retireTo (setEng s e.die e.idx (putReg x d (plain (BitVec.ofNat 64 (x.pc + 4))))) e.die e.idx t.toNat))

/-- CRC, HASH, MARK, TRIG and the port instructions of an engine have the effect their rules give. -/
def Obligations.EnginePortsAndHashes : Prop :=
  -- CRC (R402)
  (∀ (e : Eng) (d a b n : Nat) (s : State), executes s e (engEncode (.engCrc d a b n)) →
    let x := engOf s e.die e.idx
    1 ≤ n → n ≤ 9 →
    exec (.engCrc e d a b n) s = .next (
      wrote s e d ((crcUpdate ((payOf x a).setWidth 32) ((regString (regOf x b)).take n)).setWidth 72))) ∧
  -- HASH (R402)
  (∀ (e : Eng) (d a b : Nat) (cls : Option Nat) (s : State), executes s e (engEncode (.engHash d a b cls)) →
    let x := engOf s e.die e.idx
    let mid := match cls with | some c => leBytes 1 c | none => []
    let h := crc32c (leBytes 4 (bits (payOf x a).toNat 0 32) ++ mid ++ regString (regOf x b))
    exec (.engHash e d a b cls) s = .next (wrote s e d (h.setWidth 72))) ∧
  -- MARK (R399)
  (∀ (e : Eng) (d a b : Nat) (s : State), executes s e (engEncode (.engMark d a b)) →
    let x := engOf s e.die e.idx
    let t : Stamp := if payOf x b = 0 then nowStamp s e.die else payOf x b
    let data := bits (payOf x a).toNat 0 56
    let y := streamOf s e.die d
    d ≤ 17 → takesMarks s e.die d →
    exec (.engMark e d a b) s = .next (retire (
      if physFine s e.die t < y.lastPhys then
        setStream s e.die d { y with lateMarks := y.lateMarks ++ [markWord 0x20 data 3 1] }
      else addMark s e.die d 0x20 data 3 0 t) e.die e.idx)) ∧
  -- TRIG (R400)
  (∀ (e : Eng) (a b : Nat) (s : State), executes s e (engEncode (.trig a b)) →
    let x := engOf s e.die e.idx
    exec (.trig e a b) s = .next (retire (giveCand s e.die (0x28 + e.idx) (bits (payOf x a).toNat 0 24) (nowStamp s
      e.die) (payOf x b) true) e.die e.idx)) ∧
  -- SIN (R394)
  (∀ (e : Eng) (d p : Nat) (s s1 : State), executes s e (engEncode (.sin d p)) →
    portBound (inPort (engOf s e.die e.idx) p) → takeOne s e d p = some s1 →
    exec (.sin e d p) s = .next (retire (engDrains s1 e.die e.idx) e.die e.idx)) ∧
  -- SIN2 (R390)
  (∀ (e : Eng) (d p : Nat) (s s1 : State), executes s e (engEncode (.sin2 d p)) → d % 2 = 0 → d < 31 →
    portBound (inPort (engOf s e.die e.idx) p) → takeTwo s e d p = some s1 →
    exec (.sin2 e d p) s = .next (retire (engDrains s1 e.die e.idx) e.die e.idx)) ∧
  -- SINFO (R395)
  (∀ (e : Eng) (d p sel : Nat) (i : PortInfo) (s : State), executes s e (engEncode (.sinfo d p sel)) →
    let q := inPort (engOf s e.die e.idx) p
    portBound q → q.last = some i →
    exec (.sinfo e d p sel) s = .next (wrote s e d (plain (
      if sel = 0 then i.time else if sel = 1 then BitVec.ofNat 64 i.sel1 else if sel = 2 then BitVec.ofNat 64 i.sel2
      else BitVec.ofNat 64 i.sel3)))) ∧
  -- SAVAIL (R390)
  (∀ (e : Eng) (d p : Nat) (s : State), executes s e (engEncode (.savail d p)) →
    let x := engOf s e.die e.idx
    let q := inPort x p
    let n := portAvail s e.die q
    portBound q →
    exec (.savail e d p) s = .next (wrote s e d (BitVec.ofNat 72 (if q.src < 96 then min 1024 n else n)))) ∧
  -- SOUT (R398)
  (∀ (e : Eng) (q a b : Nat) (s : State), executes s e (engEncode (.sout q a b)) →
    let x := engOf s e.die e.idx
    let o := outPort x q
    let t := payOf x b
    let w := outWord (regOf x a)
    o.stream ≠ 0xFF → (match o.lastTime with | some l => stampLt t l | none => false) = false →
    (w.mark → markCodes.contains (bits w.pay.toNat 56 8)) → outSpace s e.die o ≠ 0 →
    exec (.sout e q a b) s = .next (retire (outPut s e q w t) e.die e.idx)) ∧
  -- SSPACE (R390)
  (∀ (e : Eng) (d q : Nat) (s : State), executes s e (engEncode (.sspace d q)) →
    let x := engOf s e.die e.idx
    (outPort x q).stream ≠ 0xFF →
    exec (.sspace e d q) s = .next (wrote s e d (BitVec.ofNat 72 (outSpace s e.die (outPort x q)))))

/-- The system instructions of an engine have the effect their rules give. -/
def Obligations.EngineSystemInstructions : Prop :=
  -- NOP (R390)
  (∀ (e : Eng) (s : State), executes s e (engEncode .nop) →
    exec (.nop e) s = .next (retire s e.die e.idx)) ∧
  -- WAIT (R403)
  (∀ (e : Eng) (d a b : Nat) (s : State), executes s e (engEncode (.engWait d a b)) →
    let x := engOf s e.die e.idx
    let mask := (payOf x a).toNat
    let dl := payOf x b
    let y := { x with wdogCnt := 0, wdogAt := s.now }
    let v := waitBits s e.die x mask
    mask < 1024 → x.swap = none → x.stopPoint = false →
    exec (.engWait e d a b) s = .next (
      if v ≠ 0 then became s e (waitDone y d v)
      else if dl ≠ 0 && stampLt dl (nowStamp s e.die) then became s e (waitDone y d 0x8000)
      else engAct e.die e.idx (.hold (setEng s e.die e.idx y)
        (.wait d mask (if dl = 0 then none else some (s.now + ticksUntil s e.die dl)))))) ∧
  -- CKPT (R405)
  (∀ (e : Eng) (s : State), executes s e (engEncode .ckpt) →
    let x := engOf s e.die e.idx
    let s1 := became s e { x with wdogCnt := 0, wdogAt := s.now }
    let y := engOf s1 e.die e.idx
    exec (.ckpt e) s = .next (
      match y.swap with
      | some w => setEng s1 e.die e.idx { y with swap := some { w with point := 1 } }
      | none => if y.stopPoint then leaveRunning s1 e.die e.idx .stopped else s1)) ∧
  -- HALT (R390)
  (∀ (e : Eng) (a : Nat) (s : State), executes s e (engEncode (.halt a)) →
    let x := engOf s e.die e.idx
    exec (.halt e a) s = .next (engHalt s e.die e.idx (payOf x a))) ∧
  -- TRAP (R408)
  (∀ (e : Eng) (code : Nat) (s : State), executes s e (engEncode (.engTrap code)) →
    exec (.engTrap e code) s = .next (engTrap s e.die e.idx 6 (BitVec.ofNat 64 code))) ∧
  -- MFS (R382)
  (∀ (e : Eng) (d sr : Nat) (v : W64) (s : State), executes s e (engEncode (.mfs d sr)) →
    special s e.die e.idx (engOf s e.die e.idx) sr = some v →
    exec (.mfs e d sr) s = .next (wrote s e d (plain v))) ∧
  -- SEV (R401)
  (∀ (e : Eng) (d : Nat) (s : State), executes s e (engEncode (.sev d)) →
    let x := engOf s e.die e.idx
    (x.evq = [] → exec (.sev e d) s = .next (wrote s e d 0)) ∧
    (∀ v r, x.evq = v :: r →
      exec (.sev e d) s = .next (
        became s e (putReg { x with evq := r } d (BitVec.ofNat 8 (v.id % 64 + 64 * b2n v.lost + 128) ++ v.time))))) ∧
  -- MBXACK (R407)
  (∀ (e : Eng) (s : State), executes s e (engEncode .mbxack) →
    let x := engOf s e.die e.idx
    exec (.mbxack e) s = .next (became s e { x with h2e := 0 })) ∧
  -- MBXPOST (R407)
  (∀ (e : Eng) (a : Nat) (s : State), executes s e (engEncode (.mbxpost a)) →
    let x := engOf s e.die e.idx
    let n := bits (payOf x a).toNat 0 13
    x.e2h = 0 → n ≠ 0 → n ≤ 4096 →
    let s1 := setEng s e.die e.idx { x with e2h := n }
    exec (.mbxpost e a) s = .next (retire (
      if flagF s1 e.die (fEngMbxIrqEn e.idx) then raiseIrq s1 (primaryPort s1) (getF s1 e.die (fEngMbxVector e.idx))
      else s1) e.die e.idx)) ∧
  -- CACHE (R385)
  (∀ (e : Eng) (op : Nat) (s : State), executes s e (engEncode (.cache op)) →
    exec (.cache e op) s = .next (engAct e.die e.idx (.hold s (.cache (op = 1))))) ∧
  -- XKICK (R390)
  (∀ (e : Eng) (a : Nat) (s : State), executes s e (engEncode (.xkick a)) →
    let x := engOf s e.die e.idx
    let c := bits (payOf x a).toNat 0 5
    bitAt x.grants c →
    exec (.xkick e a) s = .next (retire (xferKick s e.die c) e.die e.idx))
/-! ## The queue, the tick and the stops -/

/-- A step takes the command at the front of the queue and runs it on the state with the rest of the queue. -/
def Obligations.StepRunsFrontCommand : Prop :=
  ∀ (c : Instr) (rest : List Instr) (s : State), s.pending = c :: rest → step s = exec c { s with pending := rest }

/-- With no command waiting, one tick passes: the model's choice (log entry 5).  The part and the empty queue stay, and
the memory keeps its canonical form. -/
def Obligations.EmptyQueuePassesOneTick : Prop :=
  ∀ s : State, s.pending = [] →
    ∃ t, step s = .next t ∧ t.now = s.now + 1 ∧ t.part = s.part ∧ t.pending = [] ∧ (memWf s.mem = true → memWf t.mem = true)

/-- Every step keeps the form of the machine: the canonical form of its memory, the part fitted, and the order of the
queue, of which it takes the front; time moves by at most one tick. -/
def Obligations.StepKeepsMachineForm : Prop :=
  ∀ s t : State, step s = .next t →
    (memWf s.mem = true → memWf t.mem = true) ∧ t.part = s.part ∧ t.pending = s.pending.tail ∧ s.now ≤ t.now ∧
      t.now ≤ s.now + 1

/-- No command is refused: each answers a next state, or it names a die that the part lacks (R3).  On the part with every
die fitted (R1) no well-formed command stops. -/
def Obligations.OnlyAbsentDieStops : Prop :=
  (∀ (i : Instr) (s : State), (∃ t, exec i s = .next t) ∨ exec i s = .fault .absentUnit) ∧
    ∀ (i : Instr) (s : State), i.wf = true → s.part = .kn8128 → ∃ t, exec i s = .next t

/-- What reset leaves: every register of the table at its Reset column, which the register file holds with nothing
listed (R9), no host command accepted yet (R66), no command waiting, and memory in its canonical form. -/
def Obligations.ResetValues : Prop :=
  (∀ d o, reg State.reset d o = regReset (regKey d o)) ∧ (∀ d o, shadow State.reset d o = regReset (regKey d o)) ∧
    (∀ a, readByte State.reset a = memDflt a) ∧ State.reset.ready = false ∧ State.reset.pending = [] ∧
    memWf State.reset.mem = true ∧ (∀ u, pwOf State.reset u = .asleep) ∧ (∀ r, regOf (engOf State.reset 0 0) r = 0) ∧
    (laneOf State.reset 0 0).state = .off ∧ (laneOf State.reset 0 0).gray = true

/-! ## Host commands -/

/-- Each host command's row runs the command of its opcode; before EV_READY none of them does anything (R66). -/
def Obligations.HostRowsRunTheirCommand : Prop :=
  (∀ (df : CmdDef) (c : Cmd) (s : State), s.ready = false → startCmd df c s = .next s) ∧
  ∀ (c : Cmd) (s : State),
    exec (.unitEnumerate c) s = startCmd unitEnumerateDef c s ∧
    exec (.unitQuery c) s = startCmd unitQueryDef c s ∧
    exec (.unitWake c) s = startCmd unitWakeDef c s ∧
    exec (.unitSleep c) s = startCmd unitSleepDef c s ∧
    exec (.unitClearFault c) s = startCmd unitClearFaultDef c s ∧
    exec (.groupCreate c) s = startCmd groupCreateDef c s ∧
    exec (.groupAdd c) s = startCmd groupAddDef c s ∧
    exec (.groupRemove c) s = startCmd groupRemoveDef c s ∧
    exec (.groupDelete c) s = startCmd groupDeleteDef c s ∧
    exec (.groupList c) s = startCmd groupListDef c s ∧
    exec (.laneConfigure c) s = startCmd laneConfigureDef c s ∧
    exec (.laneSetFramer c) s = startCmd laneSetFramerDef c s ∧
    exec (.laneSetEqualiser c) s = startCmd laneSetEqualiserDef c s ∧
    exec (.laneAdapt c) s = startCmd laneAdaptDef c s ∧
    exec (.laneDeskew c) s = startCmd laneDeskewDef c s ∧
    exec (.monitorSweep c) s = startCmd monitorSweepDef c s ∧
    exec (.laneReadStatus c) s = startCmd laneReadStatusDef c s ∧
    exec (.pllConfigure c) s = startCmd pllConfigureDef c s ∧
    exec (.pllStep c) s = startCmd pllStepDef c s ∧
    exec (.refoutStart c) s = startCmd refoutStartDef c s ∧
    exec (.refoutStop c) s = startCmd refoutStopDef c s ∧
    exec (.timeRead c) s = startCmd timeReadDef c s ∧
    exec (.syncArm c) s = startCmd syncArmDef c s ∧
    exec (.refSetMode c) s = startCmd refSetModeDef c s ∧
    exec (.tdcArm c) s = startCmd tdcArmDef c s ∧
    exec (.tdcRead c) s = startCmd tdcReadDef c s ∧
    exec (.captureConfigure c) s = startCmd captureConfigureDef c s ∧
    exec (.captureArm c) s = startCmd captureArmDef c s ∧
    exec (.captureDisarm c) s = startCmd captureDisarmDef c s ∧
    exec (.rollStart c) s = startCmd rollStartDef c s ∧
    exec (.rollStop c) s = startCmd rollStopDef c s ∧
    exec (.spoolAllocate c) s = startCmd spoolAllocateDef c s ∧
    exec (.streamBind c) s = startCmd streamBindDef c s ∧
    exec (.streamUnbind c) s = startCmd streamUnbindDef c s ∧
    exec (.blockResend c) s = startCmd blockResendDef c s ∧
    exec (.markInsert c) s = startCmd markInsertDef c s ∧
    exec (.rateLimitSet c) s = startCmd rateLimitSetDef c s ∧
    exec (.recordRead c) s = startCmd recordReadDef c s ∧
    exec (.matcherLoad c) s = startCmd matcherLoadDef c s ∧
    exec (.negstoreLoad c) s = startCmd negstoreLoadDef c s ∧
    exec (.negstoreClear c) s = startCmd negstoreClearDef c s ∧
    exec (.comparatorConfigure c) s = startCmd comparatorConfigureDef c s ∧
    exec (.sequencerLoad c) s = startCmd sequencerLoadDef c s ∧
    exec (.sequencerArm c) s = startCmd sequencerArmDef c s ∧
    exec (.sequencerDisarm c) s = startCmd sequencerDisarmDef c s ∧
    exec (.shutterFire c) s = startCmd shutterFireDef c s ∧
    exec (.triginConfigure c) s = startCmd triginConfigureDef c s ∧
    exec (.trigoutConfigure c) s = startCmd trigoutConfigureDef c s ∧
    exec (.shutterReadCounters c) s = startCmd shutterReadCountersDef c s ∧
    exec (.chainConfigure c) s = startCmd chainConfigureDef c s ∧
    exec (.chainSelectLane c) s = startCmd chainSelectLaneDef c s ∧
    exec (.chainStart c) s = startCmd chainStartDef c s ∧
    exec (.chainStop c) s = startCmd chainStopDef c s ∧
    exec (.maskLoad c) s = startCmd maskLoadDef c s ∧
    exec (.dcblockFreeze c) s = startCmd dcblockFreezeDef c s ∧
    exec (.measureConfigure c) s = startCmd measureConfigureDef c s ∧
    exec (.sheetConfigure c) s = startCmd sheetConfigureDef c s ∧
    exec (.sheetClear c) s = startCmd sheetClearDef c s ∧
    exec (.sheetExport c) s = startCmd sheetExportDef c s ∧
    exec (.calConfigure c) s = startCmd calConfigureDef c s ∧
    exec (.calLoad c) s = startCmd calLoadDef c s ∧
    exec (.calSave c) s = startCmd calSaveDef c s ∧
    exec (.calHold c) s = startCmd calHoldDef c s ∧
    exec (.imageLoad c) s = startCmd imageLoadDef c s ∧
    exec (.imageUnload c) s = startCmd imageUnloadDef c s ∧
    exec (.engineStart c) s = startCmd engineStartDef c s ∧
    exec (.engineStop c) s = startCmd engineStopDef c s ∧
    exec (.engineReadState c) s = startCmd engineReadStateDef c s ∧
    exec (.serviceStart c) s = startCmd serviceStartDef c s ∧
    exec (.serviceStop c) s = startCmd serviceStopDef c s ∧
    exec (.serviceQuery c) s = startCmd serviceQueryDef c s ∧
    exec (.volumeCreate c) s = startCmd volumeCreateDef c s ∧
    exec (.volumeClose c) s = startCmd volumeCloseDef c s ∧
    exec (.xferLoad c) s = startCmd xferLoadDef c s ∧
    exec (.xferStart c) s = startCmd xferStartDef c s ∧
    exec (.xferPause c) s = startCmd xferPauseDef c s ∧
    exec (.xferResume c) s = startCmd xferResumeDef c s ∧
    exec (.xferReset c) s = startCmd xferResetDef c s ∧
    exec (.eepromRead c) s = startCmd eepromReadDef c s ∧
    exec (.biasConfigure c) s = startCmd biasConfigureDef c s ∧
    exec (.biasSet c) s = startCmd biasSetDef c s ∧
    exec (.pwmConfigure c) s = startCmd pwmConfigureDef c s ∧
    exec (.hkadcConfigure c) s = startCmd hkadcConfigureDef c s ∧
    exec (.hkaCalZero c) s = startCmd (calDef false) c s ∧
    exec (.hkaCalFs c) s = startCmd (calDef true) c s ∧
    exec (.proofConfigure c) s = startCmd proofConfigureDef c s ∧
    exec (.layerConfigure c) s = startCmd layerConfigureDef c s ∧
    exec (.paletteLoad c) s = startCmd paletteLoadDef c s ∧
    exec (.regionPush c) s = startCmd regionPushDef c s ∧
    exec (.prfCommit c) s = startCmd prfCommitDef c s ∧
    exec (.repairApply c) s = startCmd repairApplyDef c s ∧
    exec (.repairRead c) s = startCmd repairReadDef c s ∧
    exec (.healthRead c) s = startCmd healthReadDef c s ∧
    exec (.safelightEnter c) s = startCmd safelightEnterDef c s ∧
    exec (.safelightExit c) s = startCmd safelightExitDef c s ∧
    exec (.thermalConfigure c) s = startCmd thermalConfigureDef c s ∧
    exec (.attest c) s = startCmd attestDef c s ∧
    exec (.certRead c) s = startCmd certReadDef c s ∧
    exec (.measurementRead c) s = startCmd measurementReadDef c s ∧
    exec (.portEcho c) s = startCmd portEchoDef c s

/-- The checks come before anything else, in the order of R78, and the first that fails gives the status. -/
def Obligations.FirstFailedCheckEnds : Prop :=
  ∀ (df : CmdDef) (c : Cmd) (s : State), s.ready = true → cplFree s c.port c.ring = true →
    orderOk s c = true → dueFirst s c = false → strobeFirst s = false →
    let flags := c.flags < 32 ∧ c.applyAt % 256 = 0
    let form := idFormOk c.unit = true
    let here := unitPresent s c.unit = true
    let cls := if df.onGroup = true ∧ isGroup c.unit = true then df.cls 0x40 0 = true
      else ∀ u ∈ expansion s c.unit, classOk df u = true
    (¬flags → startCmd df c s = .next (failCmd df c stBadPayload s)) ∧
    (flags → ¬form → startCmd df c s = .next (failCmd df c stBadUnitId s)) ∧
    (flags → form → ¬here → startCmd df c s = .next (failCmd df c stUnitAbsent s)) ∧
    (flags → form → here → ¬cls → startCmd df c s = .next (failCmd df c stBadClass s)) ∧
    (flags → form → here → cls → df.payOk s c = false → startCmd df c s = .next (failCmd df c stBadPayload s)) ∧
    (flags → form → here → cls → df.payOk s c = true → startCmd df c s = .next (startChecked df c s))

/-- A command that fails a check has no effect (R78): nothing of the machine changes but its completion ring, the
interrupts, and the 32 bytes of its completion entry. -/
def Obligations.FailedCommandHasNoEffect : Prop :=
  ∀ (df : CmdDef) (c : Cmd) (s : State) (st : Nat), s.ready = true → cplFree s c.port c.ring = true →
    orderOk s c = true → dueFirst s c = false → strobeFirst s = false → checkCmd df c s = some st →
    ∃ t, startCmd df c s = .next t ∧ { t with host := s.host, mem := s.mem } = s ∧
      { t.host with cqs := s.host.cqs, irqs := s.host.irqs } = s.host ∧
      (∀ p n, 64 * p + n ≠ 64 * c.port + c.ring → cplRing t p n = cplRing s p n) ∧
      (∀ a, (a < cplSlot s c.port c.ring ∨ cplSlot s c.port c.ring + 32 ≤ a) → readByte t a = readByte s a) ∧
      (cplGone s c.port c.ring = false → linkUp s c.port = true →
        memNat t (.host c.port) (cplSlot s c.port c.ring - regionBase (.host c.port) + 4) 2 = st)

/-- A command that has passed its checks starts at once, at its APPLY_AT, or not at all (R81, R82): more than 2^31 ticks
ahead it fails with APPLY_TOO_FAR, with 1,024 commands scheduled with BUSY, and past its tick with TOO_LATE under STRICT;
without STRICT it takes effect at once and is marked late. -/
def Obligations.ApplyAtDecidesTheStart : Prop :=
  ∀ (df : CmdDef) (c : Cmd) (s : State), s.ready = true → cplFree s c.port c.ring = true →
    orderOk s c = true → dueFirst s c = false → strobeFirst s = false →
    checkCmd df c s = none → targetLocked df c s = false →
    let us := cmdUnits df c s
    let t := c.applyAt / 256
    let ahead := tickDiff t (unitTime s (us.headD c.unit))
    let far := 2 ^ 31 < tickDiff t (dieTime s 0)
    (c.applyAt = 0 → startCmd df c s = .next (runFlight df s.host.nextId (newFlight df c us none false s))) ∧
    (c.applyAt ≠ 0 → far → startCmd df c s = .next (failCmd df c stApplyTooFar s)) ∧
    (c.applyAt ≠ 0 → ¬far → 0 < ahead → 1024 ≤ schedCount s → startCmd df c s = .next (failCmd df c stBusy s)) ∧
    (c.applyAt ≠ 0 → ¬far → 0 < ahead → schedCount s < 1024 →
      startCmd df c s = .next (newFlight df c us (some (s.now + ahead.toNat)) false s)) ∧
    (c.applyAt ≠ 0 → ¬far → ahead < 0 → bitAt c.flags 3 = true → startCmd df c s = .next (failCmd df c stTooLate s)) ∧
    (c.applyAt ≠ 0 → ¬far → ahead < 0 → bitAt c.flags 3 = false →
      startCmd df c s = .next (runFlight df s.host.nextId (newFlight df c us none true s))) ∧
    (c.applyAt ≠ 0 → ¬far → ahead = 0 →
      startCmd df c s = .next (runFlight df s.host.nextId (newFlight df c us none false s)))

/-- A command whose one unit is locked fails with LOCKED right after the checks of R78, whatever its APPLY_AT, and a
group's locked unit ends with LOCKED when the command is issued to it (R498); a unit in FAULT ends the command with
UNIT_FAULTED unless it is UNIT_QUERY or UNIT_CLEAR_FAULT (R38).  The unit is not touched. -/
def Obligations.LockedOrFaultedUnitEndsCommand : Prop :=
  ∀ (df : CmdDef) (c : Cmd) (u : Nat) (s : State), s.ready = true → cplFree s c.port c.ring = true →
    orderOk s c = true → dueFirst s c = false → strobeFirst s = false → checkCmd df c s = none →
    (targetLocked df c s = true → startCmd df c s = .next (failCmd df c stLocked s)) ∧
    (c.applyAt = 0 → cmdUnits df c s = [u] → findFlight s s.host.nextId = none →
      (isGroup c.unit = true → cmdLocked s df.op u = true →
        startCmd df c s = .next (endIn df s u (taken df c s u) stLocked [])) ∧
      (cmdLocked s df.op u = false → isGroup u = false → pwOf s u = .fault → df.op ≠ 0x0002 → df.op ≠ 0x0005 →
        startCmd df c s = .next (endIn df s u (taken df c s u) stUnitFaulted [])))

/-- In Safelight mode the commands that would start capture, chains, measurement, Proof, engines, services and transfer
channels end with SAFELIGHT and touch nothing. -/
def Obligations.SafelightRefusesStarts : Prop :=
  (∀ (c : Cmd) (u : Nat) (s₀ s : State), takenUp captureArmDef c s₀ u → s = taken captureArmDef c s₀ u → safelight s (uDie u) = true →
    exec (.captureArm c) s₀ = .next (endIn captureArmDef s₀ u s stSafelight [])) ∧
  (∀ (c : Cmd) (u : Nat) (s₀ s : State), takenUp chainStartDef c s₀ u → s = taken chainStartDef c s₀ u → safelight s (uDie u) = true →
    exec (.chainStart c) s₀ = .next (endIn chainStartDef s₀ u s stSafelight [])) ∧
  (∀ (c : Cmd) (u : Nat) (s₀ s : State), takenUp measureConfigureDef c s₀ u → s = taken measureConfigureDef c s₀ u → safelight s (uDie u) = true →
    exec (.measureConfigure c) s₀ = .next (endIn measureConfigureDef s₀ u s stSafelight [])) ∧
  (∀ (c : Cmd) (u : Nat) (s₀ s : State), takenUp proofConfigureDef c s₀ u → s = taken proofConfigureDef c s₀ u → safelight s 0 = true →
    exec (.proofConfigure c) s₀ = .next (endIn proofConfigureDef s₀ u s stSafelight [])) ∧
  (∀ (c : Cmd) (u : Nat) (s₀ s : State), takenUp serviceStartDef c s₀ u → s = taken serviceStartDef c s₀ u → safelight s (uDie u) = true →
    exec (.serviceStart c) s₀ = .next (endIn serviceStartDef s₀ u s stSafelight [])) ∧
  (∀ (c : Cmd) (u : Nat) (s₀ s : State), takenUp sheetClearDef c s₀ u → s = taken sheetClearDef c s₀ u → safelight s (uDie u) = true →
    exec (.sheetClear c) s₀ = .next (endIn sheetClearDef s₀ u s stSafelight [])) ∧
  (∀ (c : Cmd) (u : Nat) (s₀ s : State), takenUp sheetExportDef c s₀ u → s = taken sheetExportDef c s₀ u → safelight s (uDie u) = true →
    exec (.sheetExport c) s₀ = .next (endIn sheetExportDef s₀ u s stSafelight [])) ∧
  (∀ (c : Cmd) (u : Nat) (s₀ s : State), takenUp engineStartDef c s₀ u → s = taken engineStartDef c s₀ u → safelight s (uDie u) = true →
    (engOf s (uDie u) (uIdx u)).slot = none → exec (.engineStart c) s₀ = .next (endIn engineStartDef s₀ u s stSafelight [])) ∧
  (∀ (c : Cmd) (u : Nat) (s₀ s : State), takenUp xferStartDef c s₀ u → s = taken xferStartDef c s₀ u → safelight s (uDie u) = true →
    xferOwned s (uDie u) (uIdx u) = false → exec (.xferStart c) s₀ = .next (endIn xferStartDef s₀ u s stSafelight [])) ∧
  (∀ (c : Cmd) (u : Nat) (s₀ s : State), takenUp xferResumeDef c s₀ u → s = taken xferResumeDef c s₀ u → safelight s (uDie u) = true →
    xferOwned s (uDie u) (uIdx u) = false → exec (.xferResume c) s₀ = .next (endIn xferResumeDef s₀ u s stSafelight []))

/-- The commands that only read leave every part of the machine alone but the command queue's own bookkeeping and the 32
bytes of their completion entry (R62, R97, R173, R450). -/
def Obligations.QueryCommandsChangeNothing : Prop :=
  ∀ (df : CmdDef) (c : Cmd) (u : Nat) (s : State),
    (df = unitQueryDef ∨ df = timeReadDef ∨ df = serviceQueryDef ∨ df = portEchoDef) → takenUp df c s u →
    ∃ t, startCmd df c s = .next t ∧ { t with host := s.host, mem := s.mem, freeCtr := s.freeCtr } = s ∧
      { t.host with cqs := s.host.cqs, irqs := s.host.irqs, nextId := s.host.nextId, effects := s.host.effects } = s.host ∧
      t.host.nextId = s.host.nextId + 1 ∧
      ∀ a, (a < cplSlot s c.port c.ring ∨ cplSlot s c.port c.ring + 32 ≤ a) → readByte t a = readByte s a

/-- A completion entry lies at the producer index of its ring and holds the tag, the status, the phase and late flags, the
result and the time as R85 lays them out; the producer moves to the next entry and at the ring's end turns the phase (R72).
Nothing else in memory changes. -/
def Obligations.CompletionEntryHasItsLayout : Prop :=
  ∀ (s : State) (c : Cmd) (st : Nat) (late : Bool) (res : List Byte) (time : Nat),
    cplGone s c.port c.ring = false → linkUp s c.port = true →
    ¬(bitAt c.flags 2 = true ∧ st = 0) → st < 2 ^ 16 → res.length ≤ 16 →
    let t := writeCpl s c st late res time
    let q := cplRing s c.port c.ring
    let a := cplSlot s c.port c.ring - regionBase (.host c.port)
    let last := q.prod + 1 = ringDepth (getF s c.port (fHstCqCtlLog2Depth c.ring))
    memNat t (.host c.port) a 4 = c.tag.toNat ∧ memNat t (.host c.port) (a + 4) 2 = st ∧
      memNat t (.host c.port) (a + 6) 2 = b2n q.phase + 2 * b2n late ∧
      memRead t (.host c.port) (a + 8) 16 = res ++ List.replicate (16 - res.length) 0 ∧
      memNat t (.host c.port) (a + 24) 8 = time % 2 ^ 56 * 256 ∧
      (cplRing t c.port c.ring).prod = (if last then 0 else q.prod + 1) ∧
      (cplRing t c.port c.ring).phase = (if last then !q.phase else q.phase) ∧
      ∀ x, (x < cplSlot s c.port c.ring ∨ cplSlot s c.port c.ring + 32 ≤ x) → readByte t x = readByte s x

/-- When the last awaited unit of a command finishes, the command completes with the most severe status of its units, and
counts that unit as succeeded exactly when its status is 0 (R50). -/
def Obligations.GroupCompletesWithWorstStatus : Prop :=
  ∀ (s : State) (fid u st fl : Nat) (res : List Byte) (time : Nat) (f : Flight), findFlight s fid = some f →
    f.waits = [u] → f.todo = [] →
    ∃ g : Flight, unitDone s fid u st fl res time = finishFlight s g g.worst ∧ g.worst = max f.worst st ∧
      g.succeeded = f.succeeded + (if st = 0 then 1 else 0) ∧ g.attempted = f.attempted ∧ g.cmd = f.cmd ∧
      (f.worst < st → g.worstUnit = u) ∧ (st < f.worst → g.worstUnit = f.worstUnit) ∧
      (r50Op f.op = true → (flightResult s g).1 =
        r50Result g.succeeded g.attempted (if g.worst = 0 then 0xFFFFFFFF else g.worstUnit) g.rflags)

/-! ## Units and groups -/

/-- A group's expansion is the list of single units that visiting its members depth first reaches, each at its first
position only (R48). -/
def Obligations.GroupExpansionIsDepthFirst : Prop :=
  ∀ (s : State) (u : Nat), (expansion s u).Nodup ∧ (expansion s u).Sublist (expandAll s 1026 u) ∧
    (∀ v, v ∈ expansion s u ↔ v ∈ expandAll s 1026 u) ∧ (∀ v ∈ expansion s u, isGroup v = false) ∧
    (isGroup u = false → expansion s u = [u]) ∧
    (∀ g n, isGroup u = true → groupOf s (bits u 0 16) = some g →
      expandAll s (n + 1) u = g.members.flatMap (expandAll s n)) ∧
    ∀ v w, v ∈ expansion s u → w ∈ expansion s u →
      ((expansion s u).idxOf v < (expansion s u).idxOf w ↔
        (expandAll s 1026 u).idxOf v < (expandAll s 1026 u).idxOf w)

/-- A group's power state is that of the first row of R51 that applies to the states of its expansion. -/
def Obligations.GroupPowerStateRows : Prop :=
  ∀ (s : State) (u : Nat),
    let any := fun p => ∃ v ∈ expansion s u, pwOf s v = p
    (any .fault → groupPw s u = .fault) ∧
    (¬any .fault → any .stopping → groupPw s u = .stopping) ∧
    (¬any .fault → ¬any .stopping → any .starting → groupPw s u = .starting) ∧
    (¬any .fault → ¬any .stopping → ¬any .starting → any .awake → groupPw s u = .awake) ∧
    (¬any .fault → ¬any .stopping → ¬any .starting → ¬any .awake → groupPw s u = .asleep) ∧
    (expansion s u = [] → groupPw s u = .asleep)

/-! ## Lanes and time -/

/-- A RAW word has KIND DATA, SYNC 0b00, ERR 0 and LAST 7, and its payload bit `j` is the `j`-th line bit (R111). -/
def Obligations.RawWordCarriesLineBits : Prop :=
  ∀ (l : Lane) (bs : List Bool), l.framer = .raw → bs.length = 64 →
    ∃ w, frameWord l bs = some ([(w, false)], l, 64) ∧ w.mark = false ∧ bits w.side.toNat 6 2 = 0 ∧
      bits w.side.toNat 4 2 = 0 ∧ bits w.side.toNat 3 1 = 0 ∧ bits w.side.toNat 0 3 = 7 ∧
      ∀ j b, bs[j]? = some b → w.pay.getLsbD j = b

/-- A PAM4 symbol gives two bits, MSB first: levels 0 to 3 are 00, 01, 11, 10 with GRAY set, which it is at reset, and 00,
01, 10, 11 with GRAY clear; every framer takes the bits of all symbols in time order, as those of an NRZ lane (R109).
A lane with INVERT set decodes the mirrored levels (R104). -/
def Obligations.Pam4BitsInTimeOrder : Prop :=
  Lane.reset.gray = true ∧
  (∀ l : Lane, l.pam4 = true → l.invert = false → l.gray = true →
    lineBits l [0, 1, 2, 3] = [false, false, false, true, true, true, true, false]) ∧
  (∀ l : Lane, l.pam4 = true → l.invert = false → l.gray = false →
    lineBits l [0, 1, 2, 3] = [false, false, false, true, true, false, true, true]) ∧
  (∀ (l : Lane) (ui : List Nat), l.pam4 = true → l.invert = true → (∀ v ∈ ui, v ≤ 3) →
    lineBits l ui = lineBits { l with invert := false } (ui.map fun v => 3 - v)) ∧
  ∀ (l : Lane) (ui : List Nat), l.pam4 = true →
    lineBits l ui = lineBits { l with pam4 := false, invert := false } (ui.flatMap fun v => (lineBits l [v]).map b2n)

/-- The coarse count of a die lies below 2^56 and wraps to 0 after it; two timestamps compare by their signed difference
modulo 2^64, which is right when they lie within 2^55 ticks of each other (R153). -/
def Obligations.TimeWrapsAndComparesSigned : Prop :=
  (∀ s d, dieTime s d < 2 ^ 56) ∧
  (∀ (s : State) d, (dieClk s d).running = true → (dieClk s d).holding = false → (dieClk s d).atTick ≤ s.now →
    dieTime { s with now := s.now + 1 } d = if dieTime s d = 2 ^ 56 - 1 then 0 else dieTime s d + 1) ∧
  (∀ (a : Stamp) (n : Nat), 0 < n → n < 2 ^ 63 →
    stampLt a (a + BitVec.ofNat 64 n) = true ∧ stampLt (a + BitVec.ofNat 64 n) a = false) ∧
  ∀ a : Stamp, stampLt a a = false

/-! ## Memory and rings -/

/-- Memory gives back what was written, and every other byte as before; a number is stored least significant byte first
(R4). -/
def Obligations.MemoryReadsBackLittleEndian : Prop :=
  (∀ (s : State) (r : Region) (a : Nat) (bs : List Byte), memRead (memWrite s r a bs) r a bs.length = bs ∧
    ∀ x, (x < regionBase r + a ∨ regionBase r + a + bs.length ≤ x) → readByte (memWrite s r a bs) x = readByte s x) ∧
  (∀ n v i, i < n → (leBytes n v)[i]? = some (BitVec.ofNat 8 (v / 256 ^ i))) ∧
  (∀ (s : State) (r : Region) (a n v : Nat), memNat (memWrite s r a (leBytes n v)) r a n = v % 256 ^ n) ∧
  ∀ (s : State) (r : Region) (a : Nat) (bs : List Byte), memWf s.mem = true → memWf (memWrite s r a bs).mem = true

/-- A doorbell whose index is not reached by moving forward within the ring puts the ring in ERROR with code 1 and is
ignored (R75); the other indices of the ring stay. -/
def Obligations.InconsistentDoorbellStopsRing : Prop :=
  (∀ (s : State) (p n v : Nat), live s p = true → portShown s p = true → n < 64 → v < 2 ^ 16 →
    takesBell (getF s p (fHstCrStatState n)) = true →
    let dep := ringDepth (getF s p (fHstCrCtlLog2Depth n))
    let q := cmdRing s p n
    (dep ≤ v ∨ dep ≤ ringDist dep (getF s p (fHstCrStatIndex n)) q.prod + ringDist dep q.prod v) →
    ∃ t, exec (.cmdDoorbell p n v) s = .next t ∧ getF t p (fHstCrStatState n) = 3 ∧ getF t p (fHstCrStatErr n) = 1 ∧
      getF t p (fHstCrStatIndex n) = getF s p (fHstCrStatIndex n) ∧ cmdRing t p n = q ∧
      flagF t p fHstPortStatRingErr = true ∧ (∀ a, readByte t a = readByte s a) ∧
      t.host.merge.length + t.host.transit.length = s.host.merge.length + s.host.transit.length + 1) ∧
  (∀ (s : State) (p n v : Nat), live s p = true → portShown s p = true → n < 64 → v < 2 ^ 16 →
    takesBell (getF s p (fHstCrStatState n)) = true →
    let dep := ringDepth (getF s p (fHstCqCtlLog2Depth n))
    let q := cplRing s p n
    (dep ≤ v ∨ ringDist dep q.cons q.prod < ringDist dep q.cons v) →
    ∃ t, exec (.cqDoorbell p n v) s = .next t ∧ getF t p (fHstCrStatState n) = 3 ∧ getF t p (fHstCrStatErr n) = 1 ∧
      cplRing t p n = { q with err := true } ∧ flagF t p fHstPortStatRingErr = true ∧ (∀ a, readByte t a = readByte s a) ∧
      t.host.merge.length + t.host.transit.length = s.host.merge.length + s.host.transit.length + 1)

/-- What the host does to a ring takes place (R70, R71, R74, R75, R91): a doorbell whose index lies ahead within the ring
moves that index and nothing else; setting EN of a DISABLED ring with a valid depth starts it, with its indices 0 and
phase 1; clearing EN makes a ring drain, or stops an event ring at once.  Every other register keeps its value. -/
def Obligations.RingAccessesComplete : Prop :=
  -- CMD_DOORBELL (R75)
  (∀ (s : State) (p n v : Nat), live s p = true → portShown s p = true → n < 64 → v < 2 ^ 16 →
    takesBell (getF s p (fHstCrStatState n)) = true →
    let dep := ringDepth (getF s p (fHstCrCtlLog2Depth n))
    let q := cmdRing s p n
    v < dep → ringDist dep (getF s p (fHstCrStatIndex n)) q.prod + ringDist dep q.prod v < dep →
    exec (.cmdDoorbell p n v) s = .next (setCmdRing s p n { q with prod := v })) ∧
  -- CQ_DOORBELL (R75)
  (∀ (s : State) (p n v : Nat), live s p = true → portShown s p = true → n < 64 → v < 2 ^ 16 →
    takesBell (getF s p (fHstCrStatState n)) = true →
    let dep := ringDepth (getF s p (fHstCqCtlLog2Depth n))
    let q := cplRing s p n
    v < dep → ringDist dep q.cons v ≤ ringDist dep q.cons q.prod →
    exec (.cqDoorbell p n v) s = .next (setCplRing s p n { q with cons := v })) ∧
  -- EVR_DOORBELL (R75): the events held follow into the slots it frees (R90)
  (∀ (s : State) (p v : Nat), live s p = true → portShown s p = true → v < 2 ^ 16 →
    takesBell (getF s p fHstEvrStatState) = true →
    let dep := ringDepth (getF s p fHstEvrCtlLog2Depth)
    let q := evRing s p
    v < dep → ringDist dep q.cons v ≤ ringDist dep q.cons (getF s p fHstEvrStatIndex) →
    exec (.evrDoorbell p v) s = .next (flushHeld p 258 (setEvRing s p { q with cons := v })) ∧
      (q.held = [] → q.lost = 0 → exec (.evrDoorbell p v) s = .next (setEvRing s p { q with cons := v }))) ∧
  -- SR_DOORBELL (R71)
  (∀ (s : State) (r v : Nat), live s (getF s 0 (fHstSrCtlPort r)) = true →
    portShown s (getF s 0 (fHstSrCtlPort r)) = true → r < 512 → v < 2 ^ 16 → takesBell (getF s 0 (fHstSrStatState r)) = true →
    let dep := ringDepth (getF s 0 (fHstSrCtlLog2Depth r))
    let q := strRing s r
    v < dep → ringDist dep (getF s 0 (fHstSrStatIndex r)) q.prod + ringDist dep q.prod v < dep →
    exec (.srDoorbell (getF s 0 (fHstSrCtlPort r)) r v) s = .next (setStrRing s r { q with prod := v })) ∧
  -- CMD_RING_ENABLE (R74)
  (∀ (s : State) (p n : Nat) (v : W32), live s p = true → portShown s p = true → n < 64 → v.getLsbD 31 = true →
    lockSet s p 5 = false → getF s p (fHstCrStatState n) = 0 → depthOk (getFld (fHstCrCtlLog2Depth n) v) = true →
    depthOk (getF s p (fHstCqCtlLog2Depth n)) = true →
    ∃ t, exec (.cmdRingEnable p n v) s = .next t ∧
      t = { setCplRing (setCmdRing s p n ⟨0⟩) p n ⟨0, 0, true, 0, none, false⟩ with regs := t.regs } ∧
      getF t p (fHstCrCtlLog2Depth n) = getFld (fHstCrCtlLog2Depth n) v ∧ (reg t p (rHstCrCtl n)).getLsbD 31 = true ∧
      getF t p (fHstCrStatState n) = 1 ∧ getF t p (fHstCrStatErr n) = 0 ∧ getF t p (fHstCrStatIndex n) = 0 ∧
      ∀ d o, regKey d o ≠ regKey p (rHstCrCtl n) → regKey d o ≠ regKey p (rHstCrStat n) → reg t d o = reg s d o) ∧
  -- CMD_RING_DISABLE (R74)
  (∀ (s : State) (p n : Nat) (v : W32), live s p = true → portShown s p = true → n < 64 → v.getLsbD 31 = false →
    lockSet s p 5 = false → (getF s p (fHstCrStatState n) = 1 ∨ getF s p (fHstCrStatState n) = 3) →
    getFld (fHstCrCtlLog2Depth n) v = getF s p (fHstCrCtlLog2Depth n) →
    ∃ t, exec (.cmdRingDisable p n v) s = .next t ∧ t = { s with regs := t.regs } ∧
      (reg t p (rHstCrCtl n)).getLsbD 31 = false ∧ getF t p (fHstCrCtlLog2Depth n) = getF s p (fHstCrCtlLog2Depth n) ∧
      reg t p (rHstCrStat n) = putFld (fHstCrStatState n) (reg s p (rHstCrStat n)) 2 ∧
      ∀ d o, regKey d o ≠ regKey p (rHstCrCtl n) → regKey d o ≠ regKey p (rHstCrStat n) → reg t d o = reg s d o) ∧
  -- EVENT_RING_ENABLE (R74): the events held for the port follow (R90)
  (∀ (s : State) (p : Nat) (v : W32), live s p = true → portShown s p = true → v.getLsbD 7 = true →
    lockSet s p 5 = false → getF s p fHstEvrStatState = 0 → depthOk (getFld fHstEvrCtlLog2Depth v) = true →
    ∃ t, exec (.eventRingEnable p v) s = .next (flushHeld p 258 t) ∧
      t = { setEvRing s p { evRing s p with cons := 0, phase := true, irqN := 0, irqAt := none, dropAll := false } with
        regs := t.regs } ∧
      getF t p fHstEvrCtlLog2Depth = getFld fHstEvrCtlLog2Depth v ∧ (reg t p rHstEvrCtl).getLsbD 7 = true ∧
      getF t p fHstEvrStatState = 1 ∧ getF t p fHstEvrStatErr = 0 ∧ getF t p fHstEvrStatIndex = 0 ∧
      ∀ d o, regKey d o ≠ regKey p rHstEvrCtl → regKey d o ≠ regKey p rHstEvrStat → reg t d o = reg s d o) ∧
  -- EVENT_RING_DISABLE (R74)
  (∀ (s : State) (p : Nat) (v : W32), live s p = true → portShown s p = true → v.getLsbD 7 = false →
    lockSet s p 5 = false → getFld fHstEvrCtlLog2Depth v = getF s p fHstEvrCtlLog2Depth →
    ∃ t, exec (.eventRingDisable p v) s = .next t ∧ t = { s with regs := t.regs } ∧
      (reg t p rHstEvrCtl).getLsbD 7 = false ∧ getF t p fHstEvrCtlLog2Depth = getF s p fHstEvrCtlLog2Depth ∧
      reg t p rHstEvrStat = putFld fHstEvrStatState (reg s p rHstEvrStat) 0 ∧
      ∀ d o, regKey d o ≠ regKey p rHstEvrCtl → regKey d o ≠ regKey p rHstEvrStat → reg t d o = reg s d o) ∧
  -- STREAM_RING_ENABLE (R91)
  (∀ (s : State) (r : Nat) (v : W32), mainShown s = true → r < 512 → v.getLsbD 8 = true → lockSet s 0 5 = false →
    getF s 0 (fHstSrStatState r) = 0 → depthOk (getFld (fHstSrCtlLog2Depth r) v) = true →
    portServes s (getFld (fHstSrCtlPort r) v) = true →
    ∃ t, exec (.streamRingEnable r v) s = .next t ∧
      t = { setStrRing s r ⟨0, true, false, 0, 0, 0, 0, 0, 0, 0, 0⟩ with regs := t.regs } ∧
      getF t 0 (fHstSrCtlLog2Depth r) = getFld (fHstSrCtlLog2Depth r) v ∧
      getF t 0 (fHstSrCtlPort r) = getFld (fHstSrCtlPort r) v ∧ (reg t 0 (rHstSrCtl r)).getLsbD 8 = true ∧
      getF t 0 (fHstSrStatState r) = 1 ∧ getF t 0 (fHstSrStatErr r) = 0 ∧ getF t 0 (fHstSrStatIndex r) = 0 ∧
      ∀ d o, regKey d o ≠ regKey 0 (rHstSrCtl r) → regKey d o ≠ regKey 0 (rHstSrStat r) → reg t d o = reg s d o) ∧
  -- STREAM_RING_DISABLE (R91)
  (∀ (s : State) (r : Nat) (v : W32), mainShown s = true → r < 512 → v.getLsbD 8 = false → lockSet s 0 5 = false →
    (getF s 0 (fHstSrStatState r) = 1 ∨ getF s 0 (fHstSrStatState r) = 3) →
    getFld (fHstSrCtlLog2Depth r) v = getF s 0 (fHstSrCtlLog2Depth r) →
    getFld (fHstSrCtlPort r) v = getF s 0 (fHstSrCtlPort r) →
    ∃ t, exec (.streamRingDisable r v) s = .next t ∧ t = { s with regs := t.regs } ∧
      (reg t 0 (rHstSrCtl r)).getLsbD 8 = false ∧ getF t 0 (fHstSrCtlLog2Depth r) = getF s 0 (fHstSrCtlLog2Depth r) ∧
      reg t 0 (rHstSrStat r) = putFld (fHstSrStatState r) (reg s 0 (rHstSrStat r)) 2 ∧
      ∀ d o, regKey d o ≠ regKey 0 (rHstSrCtl r) → regKey d o ≠ regKey 0 (rHstSrStat r) → reg t d o = reg s d o)

/-! ## Engines -/

/-- The words of a few engine instructions, written out from R387 to R391, decode to what they stand for. -/
def Obligations.EngineWordsDecodeAsWritten : Prop :=
  engDecode 0x00611000 = some (.engAdd 3 1 2) ∧ engDecode 0x0420FFFF = some (.addi 1 0 (-1)) ∧
    engDecode 0x8022FFFE = some (.beq 1 2 (-2)) ∧ engDecode 0x4CA60008 = some (.ldq 5 6 8) ∧
    engDecode 0xE01FF804 = some (.engTrap 0x3FF) ∧ engDecode 0xFC000000 = none

/-- Encoding and decoding agree both ways: an instruction's word is a 32-bit word that decodes to the instruction, with
every operand, and a word that decodes to an instruction is that instruction's encoding, with every unused field 0 (R387 to
R391). -/
def Obligations.EngineWordRoundTrip : Prop :=
  (∀ (o : EngOp) (w : Nat), engEncode o = some w → w < 2 ^ 32 ∧ engDecode w = some o) ∧
    ∀ (w : Nat) (o : EngOp), w < 2 ^ 32 → engDecode w = some o → engEncode o = some w

/-- An engine row happens only where its engine is ready and the word at its PC is the row's instruction; a word with an
uncorrectable error traps ECC (R386), and an instruction whose operand values are invalid traps ILLEGAL with the word
(R391). -/
def Obligations.EngineRowFollowsTheWordAtPc : Prop :=
  ∀ (i : Instr) (e : Eng) (o : EngOp) (s : State), engOpOf i = some (e, o) → live s e.die = true →
    ((engReady s e.die e.idx = false ∨ engEncode o ≠ some (engWord s e.die e.idx)) → exec i s = .next s) ∧
    (engReady s e.die e.idx = true → engEncode o = some (engWord s e.die e.idx) →
      (engOf s e.die e.idx).pc ∈ (engOf s e.die e.idx).eccCode →
      exec i s = .next (engTrap s e.die e.idx 8 (BitVec.ofNat 64 (engOf s e.die e.idx).pc))) ∧
    (executes s e (engEncode o) = true → operandsOk o = false →
      exec i s = .next (engTrap s e.die e.idx 1 (BitVec.ofNat 64 (engWord s e.die e.idx))))

/-- A trap is precise (R408): PC stays at the instruction, every register, binding and output of the engine is kept, and so
is everything else of the machine; the engine is TRAPPED with its cause and detail, and EV_ENGINE_TRAP carries them.  (An
engine of no service, for whose stop no command waits.) -/
def Obligations.TrapIsPrecise : Prop :=
  ∀ (s : State) (d e cause : Nat) (bad : W64), (engOf s d e).slot = none → (engOf s d e).stopFids = [] →
    let x := engOf s d e
    let t := engTrap s d e cause bad
    let y := engOf t d e
    let ev : Ev := ⟨0x0801, engUid d e, (stampOf (dieTime s d)).toNat,
      leBytes 1 cause ++ leBytes 3 0 ++ leBytes 4 x.pc ++ leBytes 8 bad.toNat, 0, false⟩
    y.st = .trapped ∧ y.cause = cause ∧ y.badAddr = bad ∧ y.waiting = none ∧
      { y with st := x.st, cause := x.cause, badAddr := x.badAddr, waiting := x.waiting, stopPoint := x.stopPoint, stopNow := x.stopNow, waited := x.waited, swap := x.swap } = x ∧
      (∀ d' e', key d' e' ≠ key d e → engOf t d' e' = engOf s d' e') ∧ { t with eng := s.eng, host := s.host } = s ∧
      (evTransits s d ev = true → t.host = { s.host with transit := s.host.transit ++ [⟨d, ev⟩] }) ∧
      (evTransits s d ev = false → t.host = { s.host with merge := s.host.merge ++ [ev] })

/-- The frame of the instructions that write at most one general register: where the engine goes on, every other register
of it, every other engine, every byte of memory and everything else of the machine is unchanged (R388 to R390). -/
def Obligations.EngineRegisterFrame : Prop :=
  ∀ (i : Instr) (e : Eng) (o : EngOp) (d : Nat) (s t : State), engOpOf i = some (e, o) → regDest o = some d →
    executes s e (engEncode o) = true → exec i s = .next t → (engOf t e.die e.idx).st = .running →
    (engOf t e.die e.idx).waiting = none →
    let x := engOf s e.die e.idx
    let y := engOf t e.die e.idx
    (∀ r, r ≠ d → regOf y r = regOf x r) ∧ { y with regs := x.regs, pc := x.pc, retired := x.retired } = x ∧
      y.retired = (x.retired + 1) % 2 ^ 64 ∧ (∀ d' e', key d' e' ≠ key e.die e.idx → engOf t d' e' = engOf s d' e') ∧
      { t with eng := s.eng, freeCtr := s.freeCtr } = s ∧ t.eng.failed = s.eng.failed ∧
      ∀ a, readByte t a = readByte s a

/-- A store to SRAM or to the engine's message changes only the bytes at its address, least significant first, and for STW
the side byte of its word; a heap store changes only lines that were dirty in the set it goes to (R384, R385).  No register
changes. -/
def Obligations.EngineStoreFrame : Prop :=
  ∀ (i : Instr) (e : Eng) (o : EngOp) (n : Nat) (word : Bool) (d a : Nat) (imm : W16) (s : State),
    engOpOf i = some (e, o) → storeOf o = some (n, word, d, a, imm) → executes s e (engEncode o) = true →
    let x := engOf s e.die e.idx
    let va := (memAddr x a imm).toNat
    va % n = 0 → va < 2 ^ 40 →
    (∀ p, areaOf x va = some (.sram p) ∨ (word = false ∧ areaOf x va = some (.e2h p)) →
      let at_ := regionBase (.engData e.die e.idx) + p
      let side := regionBase (.engSide e.die e.idx) + p / 8
      ∃ t, exec i s = .next t ∧ memRead t (.engData e.die e.idx) p n = leBytes n (payOf x d).toNat ∧
        (∀ b, (b < at_ ∨ at_ + n ≤ b) → (word = false ∨ b ≠ side) → readByte t b = readByte s b) ∧
        (word = true → readByte t side = ((regOf x d) >>> 64).setWidth 8) ∧
        (engOf t e.die e.idx).regs = x.regs ∧ { t with eng := s.eng, mem := s.mem, freeCtr := s.freeCtr } = s) ∧
    ∀ p, word = false → areaOf x va = some (.heap p) →
      ∃ t, exec i s = .next t ∧ (engOf t e.die e.idx).regs = x.regs ∧
        ∀ b, (∀ w l, w < 4 → wayOf x (p / 64) w = some l → l.dirty = true →
            b < regionBase (.hbm e.die) + 64 * l.line ∨ regionBase (.hbm e.die) + 64 * l.line + l.data.length ≤ b) →
          readByte t b = readByte s b

/-- Loads and stores trap MISALIGNED where the address is no multiple of the size, ACCESS where its range does not allow
them, one of the two where both hold (log entry 2), and a load of an SRAM word with an uncorrectable error traps ECC (R383,
R386); a jump to a target that is not a multiple of 4 traps MISALIGNED, beyond instruction SRAM ACCESS (R388). -/
def Obligations.EngineAccessTraps : Prop :=
  (∀ (i : Instr) (e : Eng) (o : EngOp) (n a : Nat) (word store : Bool) (imm : W16) (s : State),
    engOpOf i = some (e, o) →
    ((store = false ∧ loadOf o = some (n, word, a, imm)) ∨ (store = true ∧ ∃ d, storeOf o = some (n, word, d, a, imm))) →
    executes s e (engEncode o) = true →
    let x := engOf s e.die e.idx
    let va := memAddr x a imm
    let g := if va.toNat < 2 ^ 40 then areaOf x va.toNat else none
    (va.toNat % n ≠ 0 → allows g store word = true → exec i s = .next (engTrap s e.die e.idx 2 va)) ∧
    (va.toNat % n = 0 → allows g store word = false → exec i s = .next (engTrap s e.die e.idx 3 va)) ∧
    (va.toNat % n ≠ 0 → allows g store word = false →
      ∃ c, (c = 2 ∨ c = 3) ∧ exec i s = .next (engTrap { s with freeCtr := s.freeCtr + 1 } e.die e.idx c va)) ∧
    ∀ p, store = false → va.toNat % n = 0 → g = some (.sram p) → x.eccData.contains (p / 8 * 8) = true →
      exec i s = .next (engTrap s e.die e.idx 8 va)) ∧
  ∀ (e : Eng) (d a : Nat) (imm : W16) (s : State), executes s e (engEncode (.jalr d a imm)) = true →
    let t := payOf (engOf s e.die e.idx) a + imm.signExtend 64
    (t.toNat % 4 ≠ 0 → t.toNat < 0x20000 → exec (.jalr e d a imm) s = .next (engTrap s e.die e.idx 2 t)) ∧
    (t.toNat % 4 = 0 → 0x20000 ≤ t.toNat → exec (.jalr e d a imm) s = .next (engTrap s e.die e.idx 3 t))
end

