-- ==== Sys2Proof/Laws/Commands.lean ====
section
/-!
SUPPORT. What each shared way of running a row does when the row has its effect: a claim about one row cites one of
these and looks only at that row's own effect.
-/

namespace Sys2Proof.Machine

/-! ## Guards -/

theorem live_fitted {s : State} {d : Nat} (h : live s d = true) : d < nDies s ∧ off s = false := by
  simpa [live] using h

/-- On a live die a row's effect takes place. -/
theorem onDie_live {s : State} {d : Nat} {f : State → State} (h : live s d = true) : onDie d s f = .next (f s) := by
  simp [onDie, live_fitted h]

/-- A die that is not fitted stops the row (R3). -/
theorem onDie_unfitted {s : State} {d : Nat} {f : State → State} (h : nDies s ≤ d) : onDie d s f = .fault .absentUnit := by
  simp [onDie, Nat.not_lt.mpr h]

theorem whenB_holds {b : Bool} {s : State} {f : State → State} (h : b = true) : whenB b s f = f s := by simp [whenB, h]

theorem whenB_fails {b : Bool} {s : State} {f : State → State} (h : b = false) : whenB b s f = s := by simp [whenB, h]

theorem onPort_shown {s : State} {p : Nat} {f : State → State} (h : live s p = true) (hp : portShown s p = true) :
    onPort p s f = .next (f s) := by
  simp [onPort, onDie_live h, whenB, hp]

/-! ## Host commands (R78 to R85) -/

/-- A command's number is not in use: its new flight is the one found under it. -/
theorem findFlight_newFlight {df : CmdDef} {c : Cmd} {us : List Nat} {sc : Option Nat} {l : Bool} {s : State}
    (h : findFlight s s.host.nextId = none) :
    ∃ f, findFlight (newFlight df c us sc l s) s.host.nextId = some f ∧ f.cmd = c ∧ f.id = s.host.nextId ∧ f.todo = us ∧
      f.waits = [] ∧ f.attempted = 0 ∧ f.acted = false := by
  have hn : s.host.flights.find? (fun f => f.id == s.host.nextId) = none := h
  simp only [findFlight, newFlight, List.find?_append, hn, Option.none_or, List.find?_cons, beq_self_eq_true,
    Option.some.injEq, exists_eq_left', and_self]

/-- A unit's locks and power state do not depend on which commands are open. -/
theorem locked_hostOnly (s t : State) (op u : Nat) (h : t.regs = s.regs) : cmdLocked t op u = cmdLocked s op u := by
  simp only [cmdLocked, lockSet, getF, reg, h]

theorem pwOf_hostOnly (s t : State) (u : Nat) (h : t.tree = s.tree) : pwOf t u = pwOf s u := by
  simp only [pwOf, unitOf, h]

/-- A unit that is no group is its own expansion. -/
theorem expandAll_unit {s : State} {n u : Nat} (h : isGroup u = false) : expandAll s (n + 1) u = [u] := by
  simp only [expandAll, h, Bool.false_eq_true, if_false]

/-- A command that acts on the one unit `u`, not locked there, does not stop at its target's lock. -/
theorem targetLocked_of_unit {df : CmdDef} {c : Cmd} {s : State} {u : Nat} (hu : cmdUnits df c s = [u])
    (hl : cmdLocked s df.op u = false) : targetLocked df c s = false := by
  unfold targetLocked
  rcases hg : isGroup c.unit with _ | _
  · have h : expansion s c.unit = [c.unit] := by
      unfold expansion
      rw [expandAll_unit (n := 1025) hg]
      rfl
    simp only [cmdUnits, hg, Bool.and_false, Bool.false_eq_true, if_false, h, List.cons.injEq, and_true] at hu
    rw [hu, hl]; rfl
  · rfl

/-- What a command taken up for one unit does: its effect in the state in which it waits for the unit, and then what the
effect's outcome says. -/
theorem startCmd_taken {df : CmdDef} {c : Cmd} {s : State} {u : Nat} (h : takenUp df c s u = true) :
    startCmd df c s = .next (
      match df.eff c s.host.nextId u (taken df c s u) with
      | (t, .done st res fl) => goesOn df s (unitDone t s.host.nextId u st fl res (unitTime t u))
      | (t, .wait) => waitsIn df s u t
      | (t, .pend) => pendsIn df s t) := by
  simp only [takenUp, Bool.and_eq_true, decide_eq_true_eq, beq_iff_eq, Option.isNone_iff_eq_none, Bool.not_eq_true',
    Bool.or_eq_true, bne_iff_ne, ne_eq] at h
  obtain ⟨⟨⟨⟨⟨⟨⟨⟨⟨⟨hr, hc⟩, ho⟩, hd⟩, hst⟩, hk⟩, ha⟩, hu⟩, hl⟩, hf⟩, hn⟩ := h
  obtain ⟨f, h1, h2, h3, h4, h5, h6, h7⟩ := findFlight_newFlight (df := df) (c := c) (us := [u]) (sc := none) (l := false) hn
  have hf' : (!isGroup u && pwOf s u == .fault && !(decide (df.op = 2) || decide (df.op = 5))) = false := by
    rcases hf with ((hf | hf) | hf) | hf <;> simp [hf]
  have h1' : findFlight (noteEffect (newFlight df c [u] none false s) c u) s.host.nextId = some f := h1
  have hlk := locked_hostOnly s (taken df c s u) df.op u (by simp only [taken, h1']; rfl)
  have hpw := pwOf_hostOnly s (taken df c s u) u (by simp only [taken, h1']; rfl)
  have hs1 : setFlight (noteEffect (newFlight df c [u] none false s) c u)
      { f with cmd := c, todo := [], waits := [] ++ [u], attempted := 0 + 1 } = taken df c s u := by
    simp only [taken, h1', ← h2]; subst h2; simp only [h1']; rfl
  simp only [startCmd, hr, hc, ho, hd, hst, Bool.not_false, Bool.and_self, if_true, beginCmd, hk, startChecked, targetLocked_of_unit hu hl, ha, hu, runFlight, h1, h4,
    issueUnits, h5, h6, h2, List.isEmpty_cons, List.isEmpty_nil, Bool.not_true, Bool.and_false, Bool.or_self,
    Bool.false_eq_true, if_false, hs1, issueOne, hlk, hl, hpw, hf', waitsIn, goesOn]
  rcases df.eff c s.host.nextId u (taken df c s u) with ⟨t, r⟩
  cases r with
  | done st res fl => simp only [h7, Bool.false_and, Bool.false_eq_true, if_false]
  | wait => rfl
  | pend => rfl

/-- A command that finishes with success at its unit. -/
theorem startCmd_done {df : CmdDef} {c : Cmd} {s t : State} {u fl : Nat} {res : List Byte} (h : takenUp df c s u = true)
    (he : df.eff c s.host.nextId u (taken df c s u) = (t, .done 0 res fl)) :
    startCmd df c s = .next (doneIn df s u t res fl) := by
  rw [startCmd_taken h, he, doneIn]

/-- A command that ends with a status at its unit. -/
theorem startCmd_end {df : CmdDef} {c : Cmd} {s t : State} {u st : Nat} {res : List Byte} (h : takenUp df c s u = true)
    (he : df.eff c s.host.nextId u (taken df c s u) = (t, .done st res 0)) :
    startCmd df c s = .next (endIn df s u t st res) := by
  rw [startCmd_taken h, he, endIn]

/-- A command whose effect goes on after its row. -/
theorem startCmd_waits {df : CmdDef} {c : Cmd} {s t : State} {u : Nat} (h : takenUp df c s u = true)
    (he : df.eff c s.host.nextId u (taken df c s u) = (t, .wait)) :
    startCmd df c s = .next (waitsIn df s u t) := by
  rw [startCmd_taken h, he]

/-- A command that waits before its effect. -/
theorem startCmd_pends {df : CmdDef} {c : Cmd} {s t : State} {u : Nat} (h : takenUp df c s u = true)
    (he : df.eff c s.host.nextId u (taken df c s u) = (t, .pend)) :
    startCmd df c s = .next (pendsIn df s t) := by
  rw [startCmd_taken h, he]

/-! ## Engine rows (R386, R392) -/

/-- An engine that executes the word carries out its action. -/
theorem runEng_executes {e : Eng} {w : Option Nat} {f : State → Engine → EngAct} {s : State}
    (h : executes s e w = true) : runEng e w f s = .next (engAct e.die e.idx (f s (engOf s e.die e.idx))) := by
  simp only [executes, Bool.and_eq_true, Bool.not_eq_true'] at h
  obtain ⟨⟨⟨hl, hr⟩, hw⟩, he⟩ := h
  simp only [runEng, onDie_live hl, whenB, hr, hw, he, Bool.and_self, if_true, Bool.false_eq_true, if_false]

/-- An instruction that only writes a register. -/
theorem regOp_executes {e : Eng} {w : Option Nat} {d : Nat} {f : State → Engine → BitVec 72} {s : State}
    (h : executes s e w = true) : regOp e w d f s = .next (wrote s e d (f s (engOf s e.die e.idx))) := by
  rw [regOp, runEng_executes h]; rfl

end Sys2Proof.Machine
end

