-- ==== Sys2Proof/Laws/Keeps.lean ====
section
/-!
SUPPORT. What keeps the part, the time, the queue and the canonical form of memory (`Keeps`): the tables, and the ways
in which meanings are put together.
-/

namespace Sys2Proof.Machine

/-! ## Tables -/

theorem tabWfFrom_none {α : Type} [DecidableEq α] {dflt : Nat → α} {lo : Option Nat} {t : Tab α}
    (h : tabWfFrom dflt lo t = true) : tabWfFrom dflt none t = true := by
  cases t with
  | nil => rfl
  | cons x r =>
    obtain ⟨k, v⟩ := x
    simp only [tabWfFrom, Bool.and_eq_true, decide_eq_true_eq] at h ⊢
    exact ⟨⟨trivial, h.1.2⟩, h.2⟩

/-- A table above a key is also above any key below it. -/
theorem tabWfFrom_below {α : Type} [DecidableEq α] {dflt : Nat → α} {a b : Nat} {t : Tab α} (hab : a ≤ b)
    (h : tabWfFrom dflt (some b) t = true) : tabWfFrom dflt (some a) t = true := by
  cases t with
  | nil => rfl
  | cons x r =>
    obtain ⟨k, v⟩ := x
    simp only [tabWfFrom, Bool.and_eq_true, decide_eq_true_eq] at h ⊢
    exact ⟨⟨by omega, h.1.2⟩, h.2⟩

/-- Whether a key lies above a bound that may be absent. -/
def aboveKey (lo : Option Nat) (k : Nat) : Bool := match lo with | none => true | some l => decide (l < k)

theorem tabWfFrom_cons {α : Type} [DecidableEq α] {dflt : Nat → α} {lo : Option Nat} {k : Nat} {v : α} {r : Tab α} :
    tabWfFrom dflt lo ((k, v) :: r) = true ↔ aboveKey lo k = true ∧ v ≠ dflt k ∧ tabWfFrom dflt (some k) r = true := by
  cases lo <;> simp [tabWfFrom, aboveKey, and_assoc]

theorem aboveKey_trans {lo : Option Nat} {a b : Nat} (h : aboveKey lo a = true) (hab : a < b) : aboveKey lo b = true := by
  cases lo with
  | none => rfl
  | some l =>
    simp only [aboveKey, decide_eq_true_eq] at h ⊢
    omega

/-- Listing a value that differs from the unlisted one keeps the form. -/
theorem tabPut_wf {α : Type} [DecidableEq α] {dflt : Nat → α} {k : Nat} {v : α} (hv : v ≠ dflt k) {t : Tab α} :
    ∀ {lo : Option Nat}, aboveKey lo k = true → tabWfFrom dflt lo t = true → tabWfFrom dflt lo (tabPut k v t) = true := by
  induction t with
  | nil =>
    intro lo hk _
    simp only [tabPut]
    exact tabWfFrom_cons.2 ⟨hk, hv, rfl⟩
  | cons x r ih =>
    intro lo hk h
    obtain ⟨k', v'⟩ := x
    have h' := tabWfFrom_cons.1 h
    simp only [tabPut]
    split
    · rename_i hlt
      exact tabWfFrom_cons.2 ⟨hk, hv, tabWfFrom_cons.2 ⟨by simpa [aboveKey] using hlt, h'.2.1, h'.2.2⟩⟩
    · split
      · rename_i he
        subst he
        exact tabWfFrom_cons.2 ⟨h'.1, hv, h'.2.2⟩
      · exact tabWfFrom_cons.2 ⟨h'.1, h'.2.1, ih (by simp only [aboveKey, decide_eq_true_eq]; omega) h'.2.2⟩

theorem tabWfFrom_raise {α : Type} [DecidableEq α] {dflt : Nat → α} {lo : Option Nat} {k : Nat} {t : Tab α}
    (hk : aboveKey lo k = true) (h : tabWfFrom dflt (some k) t = true) : tabWfFrom dflt lo t = true := by
  cases lo with
  | none => exact tabWfFrom_none h
  | some l => exact tabWfFrom_below (by simp only [aboveKey, decide_eq_true_eq] at hk; omega) h

/-- Unlisting a key keeps the form. -/
theorem tabDel_wf {α : Type} [DecidableEq α] {dflt : Nat → α} {k : Nat} {t : Tab α} :
    ∀ {lo : Option Nat}, tabWfFrom dflt lo t = true → tabWfFrom dflt lo (tabDel k t) = true := by
  induction t with
  | nil => intro lo h; exact h
  | cons x r ih =>
    intro lo h
    obtain ⟨k', v'⟩ := x
    have h' := tabWfFrom_cons.1 h
    simp only [tabDel]
    split
    · exact tabWfFrom_raise h'.1 (ih h'.2.2)
    · exact tabWfFrom_cons.2 ⟨h'.1, h'.2.1, ih h'.2.2⟩

/-- Setting a value keeps the canonical form of a table. -/
theorem tabSet_wf {α : Type} [DecidableEq α] {dflt : Nat → α} {t : Tab α} (k : Nat) (v : α) (h : tabWf dflt t = true) :
    tabWf dflt (tabSet dflt t k v) = true := by
  simp only [tabSet, tabWf] at *
  split
  · exact tabDel_wf h
  · exact tabPut_wf (by assumption) rfl h

/-! ## Memory -/

theorem writeByte_wf {m : List Host.Cell} (a : Nat) (b : Byte) (h : memWf m = true) : memWf (writeByte m a b) = true :=
  tabSet_wf a b h

/-- Every write of bytes keeps the canonical form of the memory. -/
theorem writeList_wf (b : List Byte) : ∀ {m : List Host.Cell} (a : Nat), memWf m = true → memWf (writeList m a b) = true := by
  induction b with
  | nil => intro m a h; exact h
  | cons x r ih => intro m a h; exact ih (a + 1) (writeByte_wf a x h)

/-- So does unlisting addresses. -/
theorem filter_wf {α : Type} [DecidableEq α] {dflt : Nat → α} (p : Nat × α → Bool) {t : Tab α} :
    ∀ {lo : Option Nat}, tabWfFrom dflt lo t = true → tabWfFrom dflt lo (t.filter p) = true := by
  induction t with
  | nil => intro lo h; exact h
  | cons x r ih =>
    intro lo h
    obtain ⟨k, v⟩ := x
    have h' := tabWfFrom_cons.1 h
    simp only [List.filter_cons]
    split
    · exact tabWfFrom_cons.2 ⟨h'.1, h'.2.1, ih h'.2.2⟩
    · exact ih (tabWfFrom_raise h'.1 h'.2.2)

/-! ## Putting meanings together -/

variable {st0 s t : State}

theorem keeps_refl (s : State) : Keeps s s := ⟨rfl, rfl, rfl, id⟩

theorem keeps_trans (h : Keeps st0 s) (g : Keeps s t) : Keeps st0 t :=
  ⟨g.part.trans h.part, g.now.trans h.now, g.pending.trans h.pending, fun w => g.mem (h.mem w)⟩

/-- A step that changes other fields only. -/
theorem keeps_upd (h : Keeps st0 s) (fc rdy lr rg sh wo cf st ho tr la cl ca sht sp cal en xf se sv pb pf pw tp) :
    Keeps st0 ⟨s.part, s.now, fc, rdy, lr, rg, sh, wo, cf, st, s.mem, ho, tr, la, cl, ca, sht, sp, cal, en, xf, se, sv, pb, pf,
      pw, tp, s.pending⟩ :=
  ⟨h.part, h.now, h.pending, h.mem⟩

/-- A step that changes the memory, in its form, and other fields. -/
theorem keeps_updMem (h : Keeps st0 s) {m : List Host.Cell} (hm : memWf s.mem = true → memWf m = true)
    (fc rdy lr rg sh wo cf st ho tr la cl ca sht sp cal en xf se sv pb pf pw tp) :
    Keeps st0 ⟨s.part, s.now, fc, rdy, lr, rg, sh, wo, cf, st, m, ho, tr, la, cl, ca, sht, sp, cal, en, xf, se, sv, pb, pf,
      pw, tp, s.pending⟩ :=
  ⟨h.part, h.now, h.pending, fun w => hm (h.mem w)⟩

/-- A step that changes the memory only, and keeps its form. -/
theorem keeps_mem (h : Keeps st0 s) {m : List Host.Cell} (hm : memWf s.mem = true → memWf m = true) :
    Keeps st0 { s with mem := m } :=
  ⟨h.part, h.now, h.pending, fun w => hm (h.mem w)⟩

theorem keeps_ite {c : Prop} [Decidable c] {a b : State} (ha : c → Keeps st0 a) (hb : ¬c → Keeps st0 b) :
    Keeps st0 (if c then a else b) := by
  split
  · exact ha (by assumption)
  · exact hb (by assumption)

theorem keeps_foldl {α : Type} {f : State → α → State} {l : List α} (hf : ∀ s x, Keeps st0 s → Keeps st0 (f s x)) (h : Keeps st0 s) :
    Keeps st0 (l.foldl f s) := by
  induction l generalizing s with
  | nil => exact h
  | cons x r ih => exact ih (hf s x h)

theorem keeps_whenB {b : Bool} {f : State → State} (h : Keeps st0 s) (hf : ∀ s, Keeps st0 s → Keeps st0 (f s)) :
    Keeps st0 (whenB b s f) := by
  unfold whenB
  split
  · exact hf s h
  · exact h

theorem outKeeps_ite {c : Prop} [Decidable c] {a b : Host.Outcome State Fault Refusal} (ha : c → OutKeeps st0 a)
    (hb : ¬c → OutKeeps st0 b) : OutKeeps st0 (if c then a else b) := by
  split
  · exact ha (by assumption)
  · exact hb (by assumption)

theorem outKeeps_stop {o : Host.Outcome State Fault Refusal} (h : ∀ t, o ≠ .next t) : OutKeeps st0 o :=
  fun t e => absurd e (h t)

theorem keeps_ite1 {α : Type} {c : Prop} [Decidable c] {a b : State × α} (ha : c → Keeps st0 a.1)
    (hb : ¬c → Keeps st0 b.1) : Keeps st0 (if c then a else b).1 := by
  split
  · exact ha (by assumption)
  · exact hb (by assumption)

theorem keeps_ite2 {α : Type} {c : Prop} [Decidable c] {a b : α × State} (ha : c → Keeps st0 a.2)
    (hb : ¬c → Keeps st0 b.2) : Keeps st0 (if c then a else b).2 := by
  split
  · exact ha (by assumption)
  · exact hb (by assumption)

theorem keeps_ite22 {α β : Type} {c : Prop} [Decidable c] {a b : α × β × State} (ha : c → Keeps st0 a.2.2)
    (hb : ¬c → Keeps st0 b.2.2) : Keeps st0 (if c then a else b).2.2 := by
  split
  · exact ha (by assumption)
  · exact hb (by assumption)

theorem keeps_mk1 {α : Type} {b : α} (h : Keeps st0 s) : Keeps st0 (s, b).1 := h

theorem keeps_mk2 {α : Type} {a : α} (h : Keeps st0 s) : Keeps st0 (a, s).2 := h

theorem keeps_mk22 {α β : Type} {a : α} {p : β × State} (h : Keeps st0 p.2) : Keeps st0 (a, p).2.2 := h

theorem keeps_getD {o : Option State} {d : State} (ho : ∀ u, o = some u → Keeps st0 u) (hd : Keeps st0 d) :
    Keeps st0 (o.getD d) := by
  cases o with
  | none => exact hd
  | some u => exact ho u rfl

theorem keeps_foldl1 {α β : Type} {f : State × β → α → State × β} {l : List α} {p : State × β}
    (hf : ∀ p x, Keeps st0 p.1 → Keeps st0 (f p x).1) (h : Keeps st0 p.1) : Keeps st0 (l.foldl f p).1 := by
  induction l generalizing p with
  | nil => exact h
  | cons x r ih => exact ih (hf p x h)

theorem keeps_foldl2 {α β : Type} {f : β × State → α → β × State} {l : List α} {p : β × State}
    (hf : ∀ p x, Keeps st0 p.2 → Keeps st0 (f p x).2) (h : Keeps st0 p.2) : Keeps st0 (l.foldl f p).2 := by
  induction l generalizing p with
  | nil => exact h
  | cons x r ih => exact ih (hf p x h)

theorem outKeeps_next (h : Keeps st0 t) : OutKeeps st0 (.next t) := by
  intro u e
  cases e
  exact h

theorem keeps_onDie {d : Nat} {f : State → State} (h : Keeps st0 s) (hf : ∀ s, Keeps st0 s → Keeps st0 (f s)) :
    OutKeeps st0 (onDie d s f) := by
  unfold onDie
  split
  · refine outKeeps_next ?_
    split
    · exact h
    · exact hf s h
  · intro u e
    cases e

theorem keeps_fst {α : Type} {p : State × α} {a : State} {b : α} (e : p = (a, b)) (h : Keeps st0 p.1) : Keeps st0 a := by
  subst e
  exact h

theorem keeps_snd {α : Type} {p : α × State} {a : α} {b : State} (e : p = (a, b)) (h : Keeps st0 p.2) : Keeps st0 b := by
  subst e
  exact h

theorem keeps_snd2 {α β : Type} {p : α × β × State} {a : α} {b : β} {c : State} (e : p = (a, b, c)) (h : Keeps st0 p.2.2) :
    Keeps st0 c := by
  subst e
  exact h

theorem keeps_some {o : Option State} (e : o = some t) (h : ∀ u, o = some u → Keeps st0 u) : Keeps st0 t := h t e

end Sys2Proof.Machine
end

