-- ==== Sys2Proof/Laws/KeepsAct.lean ====
section
/-!
SUPPORT. What an engine's instruction keeps (`Keeps`), for each way in which it ends.
-/

namespace Sys2Proof.Machine

/-- The state in which an instruction's own work leaves the machine. -/
def actState : EngAct → State
  | .done s => s
  | .jump s _ => s
  | .trap s _ _ => s
  | .hold s _ => s
  | .halt s _ => s

/-- An instruction's own work keeps what `Keeps` names. -/
def ActKeeps (st0 : State) (a : EngAct) : Prop := Keeps st0 (actState a)

variable {st0 s : State}

theorem actKeeps_done (h : Keeps st0 s) : ActKeeps st0 (.done s) := h

theorem actKeeps_jump {pc : Nat} (h : Keeps st0 s) : ActKeeps st0 (.jump s pc) := h

theorem actKeeps_trap {c : Nat} {v : W64} (h : Keeps st0 s) : ActKeeps st0 (.trap s c v) := h

theorem actKeeps_hold {w : EngWait} (h : Keeps st0 s) : ActKeeps st0 (.hold s w) := h

theorem actKeeps_halt {v : W64} (h : Keeps st0 s) : ActKeeps st0 (.halt s v) := h

theorem actKeeps_ite {c : Prop} [Decidable c] {a b : EngAct} (ha : c → ActKeeps st0 a) (hb : ¬c → ActKeeps st0 b) :
    ActKeeps st0 (if c then a else b) := by
  split
  · exact ha (by assumption)
  · exact hb (by assumption)

end Sys2Proof.Machine
end

