-- ==== Sys2Proof/Laws/KeepsOps.lean ====
section
/-!
SUPPORT. What keeps the part, the time, the queue and the canonical form of memory (`Keeps`): Machine/Ops.
-/

namespace Sys2Proof.Machine

variable {st0 : State}

theorem keeps_setReg {s : State} (d o : Nat) (v : W32) (hk : Keeps st0 s) :
    Keeps st0 (setReg s d o v) := by
  unfold setReg
  refine keeps_upd ?_ ..
  exact hk

theorem keeps_setShadow {s : State} (d o : Nat) (v : W32) (hk : Keeps st0 s) :
    Keeps st0 (setShadow s d o v) := by
  unfold setShadow
  refine keeps_upd ?_ ..
  exact hk

theorem keeps_setF {s : State} (d : Nat) (f : Fld) (x : Nat) (hk : Keeps st0 s) :
    Keeps st0 (setF s d f x) := by
  unfold setF
  with_reducible apply keeps_setReg
  exact hk

theorem keeps_setFlag {s : State} (d : Nat) (f : Fld) (b : Bool) (hk : Keeps st0 s) :
    Keeps st0 (setFlag s d f b) := by
  unfold setFlag
  with_reducible apply keeps_setF
  exact hk

theorem keeps_addF {s : State} (d : Nat) (f : Fld) (n : Nat) (hk : Keeps st0 s) :
    Keeps st0 (addF s d f n) := by
  unfold addF
  with_reducible apply keeps_setF
  exact hk

theorem keeps_incF {s : State} (d : Nat) (f : Fld) (hk : Keeps st0 s) :
    Keeps st0 (incF s d f) := by
  unfold incF
  with_reducible apply keeps_addF
  exact hk

theorem keeps_wrapF {s : State} (d : Nat) (f : Fld) (n : Nat) (hk : Keeps st0 s) :
    Keeps st0 (wrapF s d f n) := by
  unfold wrapF
  with_reducible apply keeps_setF
  exact hk

theorem keeps_setUnit {s : State} (u : Nat) (x : Unit) (hk : Keeps st0 s) :
    Keeps st0 (setUnit s u x) := by
  unfold setUnit
  refine keeps_upd ?_ ..
  exact hk

theorem keeps_setLane {s : State} (d n : Nat) (l : Lane) (hk : Keeps st0 s) :
    Keeps st0 (setLane s d n l) := by
  unfold setLane
  refine keeps_upd ?_ ..
  exact hk

theorem keeps_setDieClk {s : State} (d : Nat) (x : DieClk) (hk : Keeps st0 s) :
    Keeps st0 (setDieClk s d x) := by
  unfold setDieClk
  refine keeps_upd ?_ ..
  exact hk

theorem keeps_setPll {s : State} (d k : Nat) (p : Pll) (hk : Keeps st0 s) :
    Keeps st0 (setPll s d k p) := by
  unfold setPll
  refine keeps_upd ?_ ..
  exact hk

theorem keeps_setTdc {s : State} (d : Nat) (t : Tdc) (hk : Keeps st0 s) :
    Keeps st0 (setTdc s d t) := by
  unfold setTdc
  refine keeps_upd ?_ ..
  exact hk

theorem keeps_setStream {s : State} (d i : Nat) (x : Stream) (hk : Keeps st0 s) :
    Keeps st0 (setStream s d i x) := by
  unfold setStream
  refine keeps_upd ?_ ..
  exact hk

theorem keeps_setChain {s : State} (d c : Nat) (x : Chain) (hk : Keeps st0 s) :
    Keeps st0 (setChain s d c x) := by
  unfold setChain
  refine keeps_upd ?_ ..
  exact hk

theorem keeps_keepMeas {s : State} (d c t : Nat) (hk : Keeps st0 s) :
    Keeps st0 (keepMeas s d c t) := by
  unfold keepMeas
  extract_lets +onlyGivenNames l
  clear_value l
  refine keeps_upd ?_ ..
  exact hk

theorem keeps_setMeas {s : State} (d c : Nat) (x : MeasCfg) (hk : Keeps st0 s) :
    Keeps st0 (setMeas s d c x) := by
  unfold setMeas
  refine keeps_upd ?_ ..
  exact hk

theorem keeps_setAcc {s : State} (d k : Nat) (x : Acc) (hk : Keeps st0 s) :
    Keeps st0 (setAcc s d k x) := by
  unfold setAcc
  refine keeps_upd ?_ ..
  exact hk

theorem keeps_setPoolFree {s : State} (d n : Nat) (hk : Keeps st0 s) :
    Keeps st0 (setPoolFree s d n) := by
  unfold setPoolFree
  refine keeps_upd ?_ ..
  exact hk

theorem keeps_setPort {s : State} (p : Nat) (x : PortSt) (hk : Keeps st0 s) :
    Keeps st0 (setPort s p x) := by
  unfold setPort
  refine keeps_upd ?_ ..
  exact hk

theorem keeps_setCmdRing {s : State} (p n : Nat) (x : CmdRing) (hk : Keeps st0 s) :
    Keeps st0 (setCmdRing s p n x) := by
  unfold setCmdRing
  refine keeps_upd ?_ ..
  exact hk

theorem keeps_setCplRing {s : State} (p n : Nat) (x : CplRing) (hk : Keeps st0 s) :
    Keeps st0 (setCplRing s p n x) := by
  unfold setCplRing
  refine keeps_upd ?_ ..
  exact hk

theorem keeps_setEvRing {s : State} (p : Nat) (x : EvRing) (hk : Keeps st0 s) :
    Keeps st0 (setEvRing s p x) := by
  unfold setEvRing
  refine keeps_upd ?_ ..
  exact hk

theorem keeps_setStrRing {s : State} (r : Nat) (x : StrRing) (hk : Keeps st0 s) :
    Keeps st0 (setStrRing s r x) := by
  unfold setStrRing
  refine keeps_upd ?_ ..
  exact hk

theorem keeps_setCfg {s : State} (d : Nat) (x : CfgSt) (hk : Keeps st0 s) :
    Keeps st0 (setCfg s d x) := by
  unfold setCfg
  refine keeps_upd ?_ ..
  exact hk

theorem keeps_drawFree {s : State}  (hk : Keeps st0 s) :
    Keeps st0 (drawFree s).2 := by
  unfold drawFree
  refine keeps_mk2 ?_
  refine keeps_upd ?_ ..
  exact hk

theorem keeps_drawMany (n : Nat) {s : State} (hk : Keeps st0 s) : Keeps st0 (drawMany n s).2 := by
  induction n generalizing s with
  | zero => exact hk
  | succ n ih => exact ih (keeps_drawFree hk)

theorem keeps_openDivInt {s : State} (a : Int) (b : Nat) (hk : Keeps st0 s) :
    Keeps st0 (openDivInt s a b).2 := by
  unfold openDivInt
  refine keeps_ite2 (fun _ => ?_) (fun _ => ?_)
  · exact hk
  · extract_lets +onlyGivenNames v
    have h_v : Keeps st0 v.2 := by
      unfold v
      with_reducible apply keeps_drawFree
      exact hk
    clear_value v
    exact h_v

theorem keeps_memWrite {s : State} (r : Region) (a : Nat) (b : List Byte) (hk : Keeps st0 s) :
    Keeps st0 (memWrite s r a b) :=
  ⟨hk.part, hk.now, hk.pending, fun h => writeList_wf b _ (hk.mem h)⟩

theorem keeps_hostWrite {s : State} (p a : Nat) (b : List Byte) (hk : Keeps st0 s) :
    Keeps st0 (hostWrite s p a b) := by
  unfold hostWrite
  with_reducible apply keeps_memWrite
  exact hk

theorem keeps_raiseIrq {s : State} (p v : Nat) (hk : Keeps st0 s) :
    Keeps st0 (raiseIrq s p v) := by
  unfold raiseIrq
  refine keeps_ite (fun _ => ?_) (fun _ => ?_)
  · refine keeps_upd ?_ ..
    exact hk
  · exact hk

theorem keeps_postStamp {s : State} (d code unit : Nat) (time : Stamp) (sub : Nat) (data : List Byte) (hk : Keeps st0 s) :
    Keeps st0 (postStamp s d code unit time sub data) := by
  unfold postStamp
  extract_lets +onlyGivenNames e
  clear_value e
  refine keeps_ite (fun _ => ?_) (fun _ => ?_)
  · refine keeps_upd ?_ ..
    exact hk
  · refine keeps_upd ?_ ..
    exact hk

theorem keeps_post {s : State} (d code unit time : Nat) (data : List Byte) (hk : Keeps st0 s) :
    Keeps st0 (post s d code unit time data) := by
  unfold post
  with_reducible apply keeps_postStamp
  exact hk

theorem keeps_moderate {s : State} (p : Nat) (ctl : W32) (n : Nat) (t : Option Nat) (hk : Keeps st0 s) :
    Keeps st0 (moderate s p ctl n t).2 := by
  unfold moderate
  extract_lets +onlyGivenNames en
  clear_value en
  extract_lets +onlyGivenNames cnt
  clear_value cnt
  refine keeps_ite2 (fun _ => ?_) (fun _ => ?_)
  · refine keeps_mk2 ?_
    with_reducible apply keeps_raiseIrq
    exact hk
  · exact hk

theorem keeps_writeCpl {s : State} (c : Cmd) (status : Nat) (late : Bool) (result : List Byte) (time : Nat) (hk : Keeps st0 s) :
    Keeps st0 (writeCpl s c status late result time) := by
  unfold writeCpl
  dsimp only
  refine keeps_ite (fun _ => hk) (fun _ => keeps_ite (fun _ => hk) (fun _ => ?_))
  refine keeps_setCplRing _ _ _ ?_
  split
  · exact keeps_hostWrite _ _ _ hk
  · exact keeps_moderate _ _ _ _ (keeps_hostWrite _ _ _ hk)

end Sys2Proof.Machine
end

