-- ==== Sys2Proof/Laws/KeepsFlight.lean ====
section
/-!
SUPPORT. What keeps the part, the time, the queue and the canonical form of memory (`Keeps`): Machine/Flight.
-/

namespace Sys2Proof.Machine

variable {st0 : State}

theorem keeps_setFlight {s : State} (f : Flight) (hk : Keeps st0 s) :
    Keeps st0 (setFlight s f) := by
  unfold setFlight
  refine keeps_upd ?_ ..
  exact hk

theorem keeps_dropFlight {s : State} (id : Nat) (hk : Keeps st0 s) :
    Keeps st0 (dropFlight s id) := by
  unfold dropFlight
  refine keeps_upd ?_ ..
  exact hk

theorem keeps_flightResult {s : State} (f : Flight) (hk : Keeps st0 s) :
    Keeps st0 (flightResult s f).2 := by
  unfold flightResult
  refine keeps_ite2 (fun _ => ?_) (fun _ => ?_)
  · exact hk
  · refine keeps_ite2 (fun _ => ?_) (fun _ => ?_)
    · extract_lets +onlyGivenNames a
      have h_a : Keeps st0 a.2 := by
        unfold a
        with_reducible apply keeps_drawFree
        exact hk
      clear_value a
      extract_lets +onlyGivenNames b
      have h_b : Keeps st0 b.2 := by
        unfold b
        with_reducible apply keeps_drawFree
        exact h_a
      clear_value b
      refine keeps_mk2 ?_
      exact h_b
    · exact hk

theorem keeps_finishFlight {s : State} (f : Flight) (st : Nat) (hk : Keeps st0 s) :
    Keeps st0 (finishFlight s f st) := by
  unfold finishFlight
  extract_lets +onlyGivenNames r
  have h_r : Keeps st0 r.2 := by
    unfold r
    with_reducible apply keeps_flightResult
    exact hk
  clear_value r
  refine keeps_ite (fun _ => ?_) (fun _ => ?_)
  · with_reducible apply keeps_dropFlight
    exact h_r
  · with_reducible apply keeps_writeCpl
    with_reducible apply keeps_dropFlight
    exact h_r

theorem keeps_discardPort {s : State} (p : Nat) (hk : Keeps st0 s) :
    Keeps st0 (discardPort s p) := by
  unfold discardPort
  refine keeps_upd ?_ ..
  exact hk

theorem keeps_unitDone {s : State} (fid u st fl : Nat) (res : List Byte) (time : Nat) (hk : Keeps st0 s) :
    Keeps st0 (unitDone s fid u st fl res time) := by
  unfold unitDone
  split
  · exact hk
  · split
    · exact hk
    · extract_lets a b c
      clear_value c
      split
      · exact keeps_finishFlight _ _ hk
      · exact keeps_setFlight _ hk

theorem keeps_unitsDone (u st time : Nat) (l : List Nat) {s : State} (hk : Keeps st0 s) :
    Keeps st0 (unitsDone s u st time l) := by
  induction l generalizing s with
  | nil => exact hk
  | cons x r ih => exact ih (keeps_unitDone _ _ _ _ _ _ hk)

theorem keeps_issueOne {s : State} {df : CmdDef} {c : Cmd} {fid u : Nat}
    (he : ∀ c fid u s, Keeps st0 s → Keeps st0 (df.eff c fid u s).1) (hk : Keeps st0 s) :
    Keeps st0 (issueOne df c fid u s).1 := by
  unfold issueOne
  split
  · exact hk
  · split
    · exact hk
    · exact he _ _ _ _ hk

theorem keeps_actedOn {s : State} (fid u : Nat) (hk : Keeps st0 s) :
    Keeps st0 (actedOn s fid u) := by
  unfold actedOn
  split
  · rename_i x f e
    refine keeps_ite (fun _ => ?_) (fun _ => ?_)
    · with_reducible apply keeps_setFlight
      exact hk
    · exact hk
  · rename_i x e
    exact hk

theorem keeps_noteEffect {s : State} (c : Cmd) (u : Nat) (hk : Keeps st0 s) :
    Keeps st0 (noteEffect s c u) := by
  unfold noteEffect
  refine keeps_upd ?_ ..
  exact hk

theorem keeps_issueUnits {df : CmdDef} {fid : Nat} (he : ∀ c fid u s, Keeps st0 s → Keeps st0 (df.eff c fid u s).1)
    (l : List Nat) {s : State} (hk : Keeps st0 s) : Keeps st0 (issueUnits df fid l s) := by
  induction l generalizing s with
  | nil =>
    unfold issueUnits
    split
    · split
      · exact keeps_finishFlight _ _ hk
      · exact hk
    · exact hk
  | cons u r ih =>
    unfold issueUnits
    split
    · exact hk
    · split
      · exact hk
      · rename_i f hf hn
        have h1 := keeps_setFlight { f with todo := r, waits := f.waits ++ [u], attempted := f.attempted + 1 }
          (keeps_noteEffect f.cmd u hk)
        have h2 := keeps_issueOne (c := f.cmd) (fid := fid) (u := u) he h1
        refine ih ?_
        skip
        split
        · exact keeps_unitDone _ _ _ _ _ _ h2
        · exact keeps_actedOn _ _ h2
        · exact h2

theorem keeps_runFlight {df : CmdDef} {fid : Nat} {s : State} (he : ∀ c fid u s, Keeps st0 s → Keeps st0 (df.eff c fid u s).1)
    (hk : Keeps st0 s) : Keeps st0 (runFlight df fid s) := by
  unfold runFlight
  split
  · exact keeps_issueUnits he _ hk
  · exact hk

theorem keeps_failCmd {s : State} (df : CmdDef) (c : Cmd) (st : Nat) (hk : Keeps st0 s) :
    Keeps st0 (failCmd df c st s) := by
  unfold failCmd
  extract_lets +onlyGivenNames res
  clear_value res
  with_reducible apply keeps_writeCpl
  exact hk

theorem keeps_newFlight {s : State} (df : CmdDef) (c : Cmd) (units : List Nat) (sched : Option Nat) (late : Bool) (hk : Keeps st0 s) :
    Keeps st0 (newFlight df c units sched late s) := by
  unfold newFlight
  extract_lets +onlyGivenNames f
  clear_value f
  refine keeps_upd ?_ ..
  exact hk

theorem keeps_startChecked {df : CmdDef} {c : Cmd} {s : State} (he : ∀ c fid u s, Keeps st0 s → Keeps st0 (df.eff c fid u s).1)
    (hk : Keeps st0 s) : Keeps st0 (startChecked df c s) := by
  unfold startChecked
  extract_lets
  repeat' first
    | assumption
    | exact he
    | with_reducible apply keeps_runFlight
    | with_reducible apply keeps_newFlight
    | with_reducible apply keeps_failCmd
    | split

theorem keeps_beginCmd {df : CmdDef} {c : Cmd} {s : State} (he : ∀ c fid u s, Keeps st0 s → Keeps st0 (df.eff c fid u s).1)
    (hk : Keeps st0 s) : Keeps st0 (beginCmd df c s) := by
  unfold beginCmd
  split
  · exact keeps_failCmd _ _ _ hk
  · exact keeps_startChecked he hk

theorem keeps_startCmd {df : CmdDef} {c : Cmd} {s : State} (he : ∀ c fid u s, Keeps st0 s → Keeps st0 (df.eff c fid u s).1)
    (hk : Keeps st0 s) : OutKeeps st0 (startCmd df c s) := by
  unfold startCmd
  refine outKeeps_next ?_
  split
  · exact keeps_beginCmd he hk
  · exact hk

end Sys2Proof.Machine
end

