-- ==== Sys2Proof/Laws/KeepsStream.lean ====
section
/-!
SUPPORT. What keeps the part, the time, the queue and the canonical form of memory (`Keeps`): Machine/Stream.
-/

namespace Sys2Proof.Machine

variable {st0 : State}

theorem keeps_lookAdd {s : State} (d i : Nat) (e : Entry) (hk : Keeps st0 s) :
    Keeps st0 (lookAdd s d i e) := by
  unfold lookAdd
  refine keeps_ite (fun _ => ?_) (fun _ => ?_)
  · exact hk
  · extract_lets +onlyGivenNames x_1
    clear_value x_1
    with_reducible apply keeps_setStream
    exact hk

theorem keeps_addMark {s : State} (d i code data origin qual : Nat) (t : Stamp) (hk : Keeps st0 s) :
    Keeps st0 (addMark s d i code data origin qual t) := by
  unfold addMark
  with_reducible apply keeps_lookAdd
  exact hk

theorem keeps_putGap {s : State} (d i : Nat) (hk : Keeps st0 s) :
    Keeps st0 (putGap s d i) := by
  unfold putGap
  extract_lets +onlyGivenNames x
  clear_value x
  split
  · rename_i x_1 w t e
    with_reducible apply keeps_lookAdd
    with_reducible apply keeps_setStream
    exact hk
  · rename_i x_1 e
    exact hk

theorem keeps_addWord {s : State} (d i : Nat) (w : CWord) (t : Stamp) (hk : Keeps st0 s) :
    Keeps st0 (addWord s d i w t) := by
  unfold addWord
  with_reducible apply keeps_lookAdd
  exact hk

theorem keeps_addSample {s : State} (d i : Nat) (v : Nat) (stale : Option Nat) (t : Stamp) (hk : Keeps st0 s) :
    Keeps st0 (addSample s d i v stale t) := by
  unfold addSample
  with_reducible apply keeps_lookAdd
  exact hk

theorem keeps_eachStream {f : Nat → State → State} {s : State} (hf : ∀ i s, Keeps st0 s → Keeps st0 (f i s)) (hk : Keeps st0 s) :
    Keeps st0 (eachStream f s) := by
  unfold eachStream
  exact keeps_foldl (fun _ _ h => hf _ _ h) hk

theorem keeps_stepMarks {s : State} (d : Nat) (step : Int) (cause : Nat) (hk : Keeps st0 s) :
    Keeps st0 (stepMarks s d step cause) := by
  unfold stepMarks
  refine keeps_ite (fun _ => ?_) (fun _ => ?_)
  · exact hk
  · with_reducible apply keeps_eachStream
    · intro i
      intro s_1
      intro h
      with_reducible apply keeps_lookAdd
      exact h
    · exact hk

theorem keeps_levelEvents {s : State} (d i before after : Nat) (hk : Keeps st0 s) :
    Keeps st0 (levelEvents s d i before after) := by
  unfold levelEvents
  extract_lets +onlyGivenNames x
  clear_value x
  extract_lets +onlyGivenNames ev
  have h_ev : ∀ v0 v1, Keeps st0 v0 → Keeps st0 (ev v0 v1) := by
    unfold ev
    intro v0
    intro v1
    intro h
    with_reducible apply keeps_post
    exact h
  clear_value ev
  refine keeps_ite (fun _ => ?_) (fun _ => ?_)
  · refine h_ev _ _ ?_
    exact hk
  · refine keeps_ite (fun _ => ?_) (fun _ => ?_)
    · refine h_ev _ _ ?_
      exact hk
    · exact hk

theorem keeps_setSpool {s : State} (d i : Nat) (y : Stream) (hk : Keeps st0 s) :
    Keeps st0 (setSpool s d i y) := by
  unfold setSpool
  with_reducible apply keeps_setStream
  exact hk

theorem keeps_countDelivered {s : State} (d i n : Nat) (hk : Keeps st0 s) :
    Keeps st0 (countDelivered s d i n) := by
  unfold countDelivered
  extract_lets +onlyGivenNames x
  clear_value x
  extract_lets +onlyGivenNames u
  clear_value u
  with_reducible apply keeps_levelEvents
  with_reducible apply keeps_setSpool
  exact hk

theorem keeps_formEnv {s : State} (d i : Nat) (e : Env) (hk : Keeps st0 s) :
    Keeps st0 (formEnv s d i e) := by
  unfold formEnv
  extract_lets +onlyGivenNames x
  clear_value x
  extract_lets +onlyGivenNames n
  clear_value n
  extract_lets +onlyGivenNames s1
  have h_s1 : Keeps st0 s1 := by
    unfold s1
    with_reducible apply keeps_setStream
    exact hk
  clear_value s1
  extract_lets +onlyGivenNames s2
  have h_s2 : Keeps st0 s2 := by
    unfold s2
    with_reducible apply keeps_levelEvents
    exact h_s1
  clear_value s2
  refine keeps_ite (fun _ => ?_) (fun _ => ?_)
  · with_reducible apply keeps_countDelivered
    exact h_s2
  · exact h_s2

theorem keeps_closeEnv {s : State} (d i : Nat) (flushed : Bool) (hk : Keeps st0 s) :
    Keeps st0 (closeEnv s d i flushed) := by
  unfold closeEnv
  extract_lets +onlyGivenNames x
  clear_value x
  split
  · rename_i x_1 e
    exact hk
  · rename_i x_1 e e_1
    with_reducible apply keeps_formEnv
    with_reducible apply keeps_setStream
    exact hk

theorem keeps_putRaw {s t : State} {d i : Nat} {w : CWord} {tm : Stamp} (hk : Keeps st0 s) (e : putRaw s d i w tm = some t) :
    Keeps st0 t := by
  unfold putRaw at e
  extract_lets x x1 at e
  clear_value x1
  split at e
  · exact absurd e (by simp)
  · split at e
    · exact absurd e (by simp)
    · split at e
      · cases e
        exact keeps_setStream _ _ _ hk
      · cases e
        refine keeps_ite (fun _ => ?_) (fun _ => ?_)
        · exact keeps_closeEnv _ _ _ (keeps_setStream _ _ _ hk)
        · exact keeps_setStream _ _ _ hk

theorem keeps_dropAdd {s : State} (d i : Nat) (e : Entry) (hk : Keeps st0 s) :
    Keeps st0 (dropAdd s d i e) := by
  unfold dropAdd
  extract_lets +onlyGivenNames x
  clear_value x
  extract_lets +onlyGivenNames s1
  have h_s1 : Keeps st0 s1 := by
    unfold s1
    split
    · rename_i x_1 val e_1
      exact hk
    · rename_i x_1 e_1
      with_reducible apply keeps_postStamp
      exact hk
  clear_value s1
  extract_lets +onlyGivenNames dr
  clear_value dr
  extract_lets +onlyGivenNames x1
  clear_value x1
  with_reducible apply keeps_setStream
  exact h_s1

theorem keeps_putOne {s : State} (d i : Nat) (e : Entry) (hk : Keeps st0 s) :
    Keeps st0 (putOne s d i e) := by
  unfold putOne
  split
  · rename_i x val e_1
    with_reducible apply keeps_dropAdd
    exact hk
  · rename_i x e_1
    split
    · rename_i x_1 s1 e_2
      refine keeps_putRaw ?_ e_2
      exact hk
    · rename_i x_1 e_2
      with_reducible apply keeps_dropAdd
      exact hk

theorem keeps_putAll (d i : Nat) (l : List Entry) {s : State} (hk : Keeps st0 s) : Keeps st0 (putAll s d i l) := by
  induction l generalizing s with
  | nil => exact hk
  | cons x r ih => exact ih (keeps_putOne _ _ _ hk)

theorem keeps_putTime {s : State} (d i : Nat) (t : Stamp) (hk : Keeps st0 s) : Keeps st0 (putTime s d i t) := by
  unfold putTime
  split
  · exact hk
  · cases e : putRaw s d i (mkTime t) t with
    | none => exact hk
    | some u => exact keeps_putRaw hk e

theorem keeps_resumeDrop {s : State} (d i : Nat) (hk : Keeps st0 s) :
    Keeps st0 (resumeDrop s d i) := by
  unfold resumeDrop
  extract_lets +onlyGivenNames x
  clear_value x
  split
  · rename_i x_1 e
    exact hk
  · rename_i x_1 dr e
    refine keeps_ite (fun _ => ?_) (fun _ => ?_)
    · exact hk
    · extract_lets +onlyGivenNames s1
      have h_s1 : Keeps st0 s1 := by
        unfold s1
        with_reducible apply keeps_setStream
        exact hk
      clear_value s1
      extract_lets +onlyGivenNames g
      clear_value g
      extract_lets +onlyGivenNames s2
      have h_s2 : Keeps st0 s2 := by
        unfold s2
        with_reducible apply keeps_putAll
        with_reducible apply keeps_putOne
        exact h_s1
      clear_value s2
      with_reducible apply keeps_postStamp
      exact h_s2

theorem keeps_deliverEnvs {s : State} (d i n : Nat) (hk : Keeps st0 s) :
    Keeps st0 (deliverEnvs s d i n) := by
  unfold deliverEnvs
  with_reducible apply keeps_resumeDrop
  with_reducible apply keeps_countDelivered
  exact hk

theorem keeps_takeWhole {s : State} (d i : Nat) (hk : Keeps st0 s) :
    Keeps st0 (takeWhole s d i) := by
  unfold takeWhole
  with_reducible apply keeps_deliverEnvs
  exact hk

theorem keeps_rollPut {s : State} (d i : Nat) (e : Entry) (hk : Keeps st0 s) :
    Keeps st0 (rollPut s d i e) := by
  unfold rollPut
  extract_lets +onlyGivenNames s0
  have h_s0 : Keeps st0 s0 := by
    unfold s0
    with_reducible apply keeps_resumeDrop
    exact hk
  clear_value s0
  extract_lets +onlyGivenNames x
  clear_value x
  refine keeps_ite (fun _ => ?_) (fun _ => ?_)
  · extract_lets +onlyGivenNames s1
    have h_s1 : Keeps st0 s1 := by
      unfold s1
      with_reducible apply keeps_putOne
      exact h_s0
    clear_value s1
    refine keeps_ite (fun _ => ?_) (fun _ => ?_)
    · with_reducible apply keeps_setStream
      exact h_s1
    · exact h_s1
  · extract_lets +onlyGivenNames kind
    clear_value kind
    extract_lets +onlyGivenNames limited
    clear_value limited
    extract_lets +onlyGivenNames x1
    clear_value x1
    refine keeps_ite (fun _ => ?_) (fun _ => ?_)
    · with_reducible apply keeps_setStream
      exact h_s0
    · extract_lets +onlyGivenNames x2
      clear_value x2
      extract_lets +onlyGivenNames s1
      have h_s1 : Keeps st0 s1 := by
        unfold s1
        with_reducible apply keeps_setStream
        exact h_s0
      clear_value s1
      extract_lets +onlyGivenNames s2
      have h_s2 : Keeps st0 s2 := by
        unfold s2
        refine keeps_ite (fun _ => ?_) (fun _ => ?_)
        · exact h_s1
        · with_reducible apply keeps_putOne
          exact h_s1
      clear_value s2
      extract_lets +onlyGivenNames period
      clear_value period
      extract_lets +onlyGivenNames s3
      have h_s3 : Keeps st0 s3 := by
        unfold s3
        refine keeps_ite (fun _ => ?_) (fun _ => ?_)
        · with_reducible apply keeps_putTime
          exact h_s2
        · exact h_s2
      clear_value s3
      extract_lets +onlyGivenNames s4
      have h_s4 : Keeps st0 s4 := by
        unfold s4
        with_reducible apply keeps_putOne
        exact h_s3
      clear_value s4
      extract_lets +onlyGivenNames y
      clear_value y
      with_reducible apply keeps_setStream
      exact h_s4

theorem keeps_flushLate {s : State} (d i : Nat) (e : Entry) (hk : Keeps st0 s) :
    Keeps st0 (flushLate s d i e) := by
  unfold flushLate
  extract_lets +onlyGivenNames x
  clear_value x
  with_reducible apply keeps_putAll
  with_reducible apply keeps_setStream
  exact hk

theorem keeps_rollCommit {s : State} (d i : Nat) (e : Entry) (hk : Keeps st0 s) :
    Keeps st0 (rollCommit s d i e) := by
  unfold rollCommit
  refine keeps_ite (fun _ => ?_) (fun _ => ?_)
  · extract_lets +onlyGivenNames s1
    have h_s1 : Keeps st0 s1 := by
      unfold s1
      with_reducible apply keeps_rollPut
      with_reducible apply keeps_flushLate
      exact hk
    clear_value s1
    with_reducible apply keeps_setStream
    exact h_s1
  · exact hk

theorem keeps_finishStop {s : State} (d i : Nat) (hk : Keeps st0 s) :
    Keeps st0 (finishStop s d i) := by
  unfold finishStop
  extract_lets +onlyGivenNames x
  clear_value x
  split
  · rename_i x_1 e
    exact hk
  · rename_i x_1 ts e
    refine keeps_ite (fun _ => ?_) (fun _ => ?_)
    · exact hk
    · extract_lets +onlyGivenNames s1
      have h_s1 : Keeps st0 s1 := by
        unfold s1
        with_reducible apply keeps_resumeDrop
        exact hk
      clear_value s1
      extract_lets +onlyGivenNames x1
      clear_value x1
      extract_lets +onlyGivenNames last
      clear_value last
      extract_lets +onlyGivenNames s2
      have h_s2 : Keeps st0 s2 := by
        unfold s2
        refine keeps_ite (fun _ => ?_) (fun _ => ?_)
        · exact h_s1
        · with_reducible apply keeps_putOne
          with_reducible apply keeps_flushLate
          with_reducible apply keeps_setStream
          exact h_s1
      clear_value s2
      refine keeps_ite (fun _ => ?_) (fun _ => ?_)
      · exact h_s2
      · extract_lets +onlyGivenNames s3
        have h_s3 : Keeps st0 s3 := by
          unfold s3
          with_reducible apply keeps_closeEnv
          exact h_s2
        clear_value s3
        extract_lets +onlyGivenNames y
        clear_value y
        extract_lets +onlyGivenNames s4
        have h_s4 : Keeps st0 s4 := by
          unfold s4
          with_reducible apply keeps_setStream
          exact h_s3
        clear_value s4
        extract_lets +onlyGivenNames s5
        have h_s5 : Keeps st0 s5 := by
          unfold s5
          with_reducible apply keeps_post
          exact h_s4
        clear_value s5
        with_reducible apply keeps_unitsDone
        exact h_s5

theorem keeps_formAll (d i : Nat) (l : List Env) {s : State} (hk : Keeps st0 s) : Keeps st0 (formAll s d i l) := by
  induction l generalizing s with
  | nil => exact hk
  | cons x r ih => exact ih (keeps_formEnv _ _ _ (keeps_setStream _ _ _ hk))

theorem keeps_endArm {s : State} (d i tick : Nat) (closed : Bool) (hk : Keeps st0 s) :
    Keeps st0 (endArm s d i tick closed) := by
  unfold endArm
  extract_lets +onlyGivenNames x
  clear_value x
  extract_lets +onlyGivenNames u
  clear_value u
  extract_lets +onlyGivenNames g
  clear_value g
  extract_lets +onlyGivenNames n
  clear_value n
  extract_lets +onlyGivenNames m
  clear_value m
  extract_lets +onlyGivenNames s1
  have h_s1 : Keeps st0 s1 := by
    unfold s1
    with_reducible apply keeps_addF
    with_reducible apply keeps_addF
    with_reducible apply keeps_setStream
    exact hk
  clear_value s1
  extract_lets +onlyGivenNames s2
  have h_s2 : Keeps st0 s2 := by
    unfold s2
    with_reducible apply keeps_post
    exact h_s1
  clear_value s2
  with_reducible apply keeps_unitsDone
  exact h_s2

theorem keeps_segComplete {s : State} (d i : Nat) (k : Closing) (hk : Keeps st0 s) :
    Keeps st0 (segComplete s d i k) := by
  unfold segComplete
  extract_lets +onlyGivenNames x
  clear_value x
  extract_lets +onlyGivenNames u
  clear_value u
  extract_lets +onlyGivenNames envs
  clear_value envs
  extract_lets +onlyGivenNames lost
  clear_value lost
  extract_lets +onlyGivenNames x1
  clear_value x1
  extract_lets +onlyGivenNames s1
  have h_s1 : Keeps st0 s1 := by
    unfold s1
    with_reducible apply keeps_formAll
    with_reducible apply keeps_setStream
    exact hk
  clear_value s1
  extract_lets +onlyGivenNames y
  clear_value y
  extract_lets +onlyGivenNames s2
  have h_s2 : Keeps st0 s2 := by
    unfold s2
    refine keeps_ite (fun _ => ?_) (fun _ => ?_)
    · with_reducible apply keeps_setStream
      exact h_s1
    · exact h_s1
  clear_value s2
  extract_lets +onlyGivenNames s3
  have h_s3 : Keeps st0 s3 := by
    unfold s3
    with_reducible apply keeps_post
    exact h_s2
  clear_value s3
  refine keeps_ite (fun _ => ?_) (fun _ => ?_)
  · with_reducible apply keeps_endArm
    exact h_s3
  · exact h_s3

theorem keeps_closeSegment {s : State} (d i tc : Nat) (trunc : Bool) (hk : Keeps st0 s) :
    Keeps st0 (closeSegment s d i tc trunc) := by
  unfold closeSegment
  extract_lets +onlyGivenNames x
  clear_value x
  extract_lets +onlyGivenNames envs
  clear_value envs
  extract_lets +onlyGivenNames k
  clear_value k
  extract_lets +onlyGivenNames g
  clear_value g
  extract_lets +onlyGivenNames g_1
  clear_value g_1
  extract_lets +onlyGivenNames s1
  have h_s1 : Keeps st0 s1 := by
    unfold s1
    with_reducible apply keeps_setStream
    exact hk
  clear_value s1
  refine keeps_ite (fun _ => ?_) (fun _ => ?_)
  · exact h_s1
  · with_reducible apply keeps_segComplete
    exact h_s1

theorem keeps_segTrigger {s : State} (d i : Nat) (x : Stream) (e : Entry) (hk : Keeps st0 s) :
    Keeps st0 (segTrigger s d i x e).2.2 := by
  unfold segTrigger
  extract_lets +onlyGivenNames c
  clear_value c
  extract_lets +onlyGivenNames g
  clear_value g
  extract_lets +onlyGivenNames busy
  have h_busy : Keeps st0 busy.2.2 := by
    unfold busy
    refine keeps_mk22 ?_
    refine keeps_mk2 ?_
    with_reducible apply keeps_incF
    exact hk
  clear_value busy
  split
  · rename_i x_1 e_1
    refine keeps_ite22 (fun _ => ?_) (fun _ => ?_)
    · exact h_busy
    · refine keeps_mk22 ?_
      refine keeps_mk2 ?_
      with_reducible apply keeps_incF
      exact hk
  · rename_i x_1 e_1
    refine keeps_ite22 (fun _ => ?_) (fun _ => ?_)
    · exact h_busy
    · exact hk
  · rename_i x_1 e_1
    exact h_busy
  · rename_i x_1 e_1
    refine keeps_ite22 (fun _ => ?_) (fun _ => ?_)
    · exact hk
    · refine keeps_ite22 (fun _ => ?_) (fun _ => ?_)
      · exact h_busy
      · refine keeps_mk22 ?_
        refine keeps_mk2 ?_
        with_reducible apply keeps_incF
        exact hk
  · rename_i x_1 e_1 e_2 e_3 e_4
    exact hk

theorem keeps_expoTake {s : State} (d i : Nat) (e : Entry) (hk : Keeps st0 s) :
    Keeps st0 (expoTake s d i e) := by
  unfold expoTake
  extract_lets +onlyGivenNames x
  clear_value x
  extract_lets +onlyGivenNames k
  clear_value k
  refine keeps_ite (fun _ => ?_) (fun _ => ?_)
  · exact hk
  · refine keeps_ite (fun _ => ?_) (fun _ => ?_)
    · extract_lets +onlyGivenNames trig
      clear_value trig
      extract_lets +onlyGivenNames r
      have h_r : Keeps st0 r.2.2 := by
        unfold r
        refine keeps_ite22 (fun _ => ?_) (fun _ => ?_)
        · with_reducible apply keeps_segTrigger
          exact hk
        · exact hk
      clear_value r
      extract_lets +onlyGivenNames y
      clear_value y
      extract_lets +onlyGivenNames w_src1 w
      clear_value w
      with_reducible apply keeps_setStream
      exact h_r
    · refine keeps_ite (fun _ => ?_) (fun _ => ?_)
      · extract_lets +onlyGivenNames code
        clear_value code
        with_reducible apply keeps_setStream
        exact hk
      · extract_lets +onlyGivenNames v
        clear_value v
        split
        · rename_i e_1 e_2 e_3 x_1 e_4
          refine keeps_ite (fun _ => ?_) (fun _ => ?_)
          · with_reducible apply keeps_setStream
            exact hk
          · extract_lets +onlyGivenNames y
            clear_value y
            extract_lets +onlyGivenNames h
            clear_value h
            with_reducible apply keeps_setStream
            exact hk
        · rename_i e_1 e_2 e_3 x_1 e_4
          refine keeps_ite (fun _ => ?_) (fun _ => ?_)
          · with_reducible apply keeps_setStream
            exact hk
          · refine keeps_ite (fun _ => ?_) (fun _ => ?_)
            · extract_lets +onlyGivenNames g
              clear_value g
              extract_lets +onlyGivenNames y
              clear_value y
              extract_lets +onlyGivenNames s1
              have h_s1 : Keeps st0 s1 := by
                unfold s1
                with_reducible apply keeps_setStream
                exact hk
              clear_value s1
              refine keeps_ite (fun _ => ?_) (fun _ => ?_)
              · with_reducible apply keeps_closeSegment
                exact h_s1
              · exact h_s1
            · with_reducible apply keeps_setStream
              exact hk
        · rename_i e_1 e_2 e_3 x_1 e_4
          extract_lets +onlyGivenNames y_src1 y
          clear_value y
          extract_lets +onlyGivenNames s1
          have h_s1 : Keeps st0 s1 := by
            unfold s1
            with_reducible apply keeps_setStream
            exact hk
          clear_value s1
          refine keeps_ite (fun _ => ?_) (fun _ => ?_)
          · with_reducible apply keeps_closeSegment
            exact h_s1
          · exact h_s1
        · rename_i e_1 e_2 e_3 x_1 e_4 e_5 e_6
          with_reducible apply keeps_setStream
          exact hk

theorem keeps_truncate {s : State} (d i tick : Nat) (hk : Keeps st0 s) :
    Keeps st0 (truncate s d i tick) := by
  unfold truncate
  extract_lets +onlyGivenNames x
  clear_value x
  with_reducible apply keeps_closeSegment
  with_reducible apply keeps_setStream
  exact hk

theorem keeps_sourceTake {s : State} (d i : Nat) (c : SegChange) (hk : Keeps st0 s) :
    Keeps st0 (sourceTake s d i c) := by
  unfold sourceTake
  extract_lets +onlyGivenNames x
  clear_value x
  refine keeps_ite (fun _ => ?_) (fun _ => ?_)
  · with_reducible apply keeps_truncate
    exact hk
  · refine keeps_ite (fun _ => ?_) (fun _ => ?_)
    · with_reducible apply keeps_setStream
      exact hk
    · exact hk

theorem keeps_disarmTake {s : State} (d i : Nat) (c : SegChange) (hk : Keeps st0 s) :
    Keeps st0 (disarmTake s d i c) := by
  unfold disarmTake
  extract_lets +onlyGivenNames x
  clear_value x
  extract_lets +onlyGivenNames x1_src1 x1
  clear_value x1
  extract_lets +onlyGivenNames s1
  have h_s1 : Keeps st0 s1 := by
    unfold s1
    with_reducible apply keeps_setStream
    exact hk
  clear_value s1
  refine keeps_ite (fun _ => ?_) (fun _ => ?_)
  · refine keeps_ite (fun _ => ?_) (fun _ => ?_)
    · with_reducible apply keeps_truncate
      exact h_s1
    · exact h_s1
  · split
    · rename_i e x_1 e_1
      with_reducible apply keeps_endArm
      exact h_s1
    · rename_i e x_1 k r e_1
      with_reducible apply keeps_setStream
      exact hk

theorem keeps_takeChange {s : State} (d i : Nat) (c : SegChange) (rest : List SegChange) (hk : Keeps st0 s) :
    Keeps st0 (takeChange s d i c rest) := by
  unfold takeChange
  extract_lets +onlyGivenNames x
  clear_value x
  extract_lets +onlyGivenNames s1_src1 s1
  have h_s1 : Keeps st0 s1 := by
    unfold s1
    with_reducible apply keeps_setStream
    exact hk
  clear_value s1
  refine keeps_ite (fun _ => ?_) (fun _ => ?_)
  · with_reducible apply keeps_sourceTake
    exact h_s1
  · with_reducible apply keeps_disarmTake
    exact h_s1

theorem keeps_takeChanges {s : State} (d i ph : Nat) (l : List SegChange) (hk : Keeps st0 s) :
    Keeps st0 (takeChanges s d i ph l) := by
  induction l generalizing s with
  | nil => exact hk
  | cons c r ih =>
    unfold takeChanges
    exact keeps_ite (fun _ => ih (keeps_takeChange _ _ _ _ hk)) (fun _ => hk)

theorem keeps_expoSettle {s : State} (d i : Nat) (hk : Keeps st0 s) :
    Keeps st0 (expoSettle s d i) := by
  unfold expoSettle
  extract_lets +onlyGivenNames x
  clear_value x
  split
  · rename_i x_1 e
    exact hk
  · rename_i x_1 c r e
    refine keeps_ite (fun _ => ?_) (fun _ => ?_)
    · with_reducible apply keeps_takeChanges
      exact hk
    · exact hk

theorem keeps_expoCommit {s : State} (d i : Nat) (e : Entry) (hk : Keeps st0 s) :
    Keeps st0 (expoCommit s d i e) := by
  unfold expoCommit
  extract_lets +onlyGivenNames s0
  have h_s0 : Keeps st0 s0 := by
    unfold s0
    with_reducible apply keeps_takeChanges
    exact hk
  clear_value s0
  extract_lets +onlyGivenNames x
  clear_value x
  extract_lets +onlyGivenNames stored
  clear_value stored
  extract_lets +onlyGivenNames y
  clear_value y
  extract_lets +onlyGivenNames s1
  have h_s1 : Keeps st0 s1 := by
    unfold s1
    with_reducible apply keeps_expoTake
    with_reducible apply keeps_setStream
    exact h_s0
  clear_value s1
  extract_lets +onlyGivenNames z
  clear_value z
  with_reducible apply keeps_setStream
  exact h_s1

theorem keeps_askChange {s : State} (d i kind : Nat) (fids : List Nat) (hk : Keeps st0 s) :
    Keeps st0 (askChange s d i kind fids) := by
  unfold askChange
  extract_lets +onlyGivenNames x
  clear_value x
  with_reducible apply keeps_setStream
  exact hk

theorem keeps_sourceChange {s : State} (d i : Nat) (hk : Keeps st0 s) :
    Keeps st0 (sourceChange s d i) := by
  unfold sourceChange
  with_reducible apply keeps_askChange
  exact hk

theorem keeps_disarm {s : State} (d i : Nat) (abandon : Bool) (fids : List Nat) (hk : Keeps st0 s) :
    Keeps st0 (disarm s d i abandon fids) := by
  unfold disarm
  with_reducible apply keeps_askChange
  exact hk

end Sys2Proof.Machine
end

