-- ==== Sys2Proof/Laws/KeepsShutter.lean ====
section
/-!
SUPPORT. What keeps the part, the time, the queue and the canonical form of memory (`Keeps`): Machine/Shutter.
-/

namespace Sys2Proof.Machine

variable {st0 : State}

theorem keeps_setSeq {s : State} (q : Nat) (x : Sequencer) (hk : Keeps st0 s) :
    Keeps st0 (setSeq s q x) := by
  unfold setSeq
  refine keeps_upd ?_ ..
  exact hk

theorem keeps_setTrigIn {s : State} (n : Nat) (x : TrigIn) (hk : Keeps st0 s) :
    Keeps st0 (setTrigIn s n x) := by
  unfold setTrigIn
  refine keeps_upd ?_ ..
  exact hk

theorem keeps_setTrigOut {s : State} (n : Nat) (x : TrigOut) (hk : Keeps st0 s) :
    Keeps st0 (setTrigOut s n x) := by
  unfold setTrigOut
  refine keeps_upd ?_ ..
  exact hk

theorem keeps_setNeg {s : State} (d : Nat) (x : NegStore) (hk : Keeps st0 s) :
    Keeps st0 (setNeg s d x) := by
  unfold setNeg
  refine keeps_upd ?_ ..
  exact hk

theorem keeps_setCmp {s : State} (d k : Nat) (x : Comparator) (hk : Keeps st0 s) :
    Keeps st0 (setCmp s d k x) := by
  unfold setCmp
  refine keeps_upd ?_ ..
  exact hk

theorem keeps_shtLost {s : State} (d p : Nat) (hk : Keeps st0 s) :
    Keeps st0 (shtLost s d p) := by
  unfold shtLost
  with_reducible apply keeps_incF
  exact hk

theorem keeps_candStops {s : State} (d : Nat) (hk : Keeps st0 s) :
    Keeps st0 (candStops s d) := by
  unfold candStops
  refine keeps_ite (fun _ => ?_) (fun _ => ?_)
  · exact hk
  · extract_lets +onlyGivenNames h
    clear_value h
    with_reducible apply keeps_shtLost
    exact hk

theorem keeps_giveCand {s : State} (d code detail : Nat) (stamp : Stamp) (srcTime : Stamp) (coarseOnly : Bool) (hk : Keeps st0 s) :
    Keeps st0 (giveCand s d code detail stamp srcTime coarseOnly) := by
  unfold giveCand
  refine keeps_ite (fun _ => ?_) (fun _ => ?_)
  · exact hk
  · extract_lets +onlyGivenNames ph
    clear_value ph
    extract_lets +onlyGivenNames chans
    clear_value chans
    refine keeps_ite (fun _ => ?_) (fun _ => ?_)
    · exact hk
    · refine keeps_ite (fun _ => ?_) (fun _ => ?_)
      · with_reducible apply keeps_candStops
        exact hk
      · refine keeps_ite (fun _ => ?_) (fun _ => ?_)
        · with_reducible apply keeps_incF
          exact hk
        · extract_lets +onlyGivenNames cs
          clear_value cs
          refine keeps_upd ?_ ..
          exact hk

theorem keeps_issueEvent {s : State} (e : ShEv) (hk : Keeps st0 s) :
    Keeps st0 (issueEvent s e) := by
  unfold issueEvent
  extract_lets +onlyGivenNames same
  clear_value same
  refine keeps_ite (fun _ => ?_) (fun _ => ?_)
  · with_reducible apply keeps_incF
    refine keeps_upd ?_ ..
    exact hk
  · refine keeps_upd ?_ ..
    exact hk

theorem keeps_evShutter {s : State} (e : ShEv) (hk : Keeps st0 s) :
    Keeps st0 (evShutter s e) := by
  unfold evShutter
  refine keeps_ite (fun _ => ?_) (fun _ => ?_)
  · with_reducible apply keeps_postStamp
    exact hk
  · exact hk

theorem keeps_tellEvents {s : State}  (hk : Keeps st0 s) :
    Keeps st0 (tellEvents s) := by
  unfold tellEvents
  extract_lets +onlyGivenNames due
  clear_value due
  refine keeps_foldl ?_ ?_
  · intro s_1
    intro x
    intro h
    with_reducible apply keeps_evShutter
    exact h
  · refine keeps_upd ?_ ..
    exact hk

theorem keeps_noteIssue {s : State} (n : Nat) (ph : Option Nat) (hk : Keeps st0 s) :
    Keeps st0 (noteIssue s n ph) := by
  unfold noteIssue
  split
  · rename_i x q
    refine keeps_ite (fun _ => ?_) (fun _ => ?_)
    · exact hk
    · with_reducible apply keeps_setSeq
      exact hk
  · rename_i x
    exact hk

theorem keeps_takeBranch {s : State} (n : Nat) (q : Sequencer) (b : Branch) (c : Option Cand) (t : Nat) (hk : Keeps st0 s) :
    Keeps st0 (takeBranch s n q b c t) := by
  unfold takeBranch
  extract_lets +onlyGivenNames tev
  clear_value tev
  extract_lets +onlyGivenNames ph
  clear_value ph
  extract_lets +onlyGivenNames emit
  clear_value emit
  extract_lets +onlyGivenNames held
  clear_value held
  extract_lets +onlyGivenNames done
  clear_value done
  extract_lets +onlyGivenNames q1
  clear_value q1
  extract_lets +onlyGivenNames s1
  have h_s1 : Keeps st0 s1 := by
    unfold s1
    with_reducible apply keeps_noteIssue
    with_reducible apply keeps_setSeq
    exact hk
  clear_value s1
  extract_lets +onlyGivenNames s2
  have h_s2 : Keeps st0 s2 := by
    unfold s2
    refine keeps_ite (fun _ => ?_) (fun _ => ?_)
    · exact h_s1
    · refine keeps_ite (fun _ => ?_) (fun _ => ?_)
      · with_reducible apply keeps_incF
        exact h_s1
      · with_reducible apply keeps_issueEvent
        exact h_s1
  clear_value s2
  refine keeps_ite (fun _ => ?_) (fun _ => ?_)
  · with_reducible apply keeps_post
    exact h_s2
  · exact h_s2

theorem keeps_evalSeq {s : State} (t n : Nat) (hk : Keeps st0 s) :
    Keeps st0 (evalSeq t n s) := by
  unfold evalSeq
  extract_lets +onlyGivenNames q0
  clear_value q0
  refine keeps_ite (fun _ => ?_) (fun _ => ?_)
  · exact hk
  · extract_lets +onlyGivenNames q
    clear_value q
    split
    · rename_i e x b c e_1
      with_reducible apply keeps_takeBranch
      exact hk
    · rename_i e x e_1
      refine keeps_ite (fun _ => ?_) (fun _ => ?_)
      · extract_lets +onlyGivenNames q1
        clear_value q1
        split
        · rename_i e_2 x_1 b c e_3
          with_reducible apply keeps_takeBranch
          exact hk
        · rename_i e_2 x_1 e_3
          with_reducible apply keeps_setSeq
          exact hk
      · with_reducible apply keeps_setSeq
        exact hk

theorem keeps_evalTick {s : State} (t : Nat) (hk : Keeps st0 s) :
    Keeps st0 (evalTick s t) := by
  unfold evalTick
  extract_lets +onlyGivenNames s1
  have h_s1 : Keeps st0 s1 := by
    unfold s1
    refine keeps_foldl ?_ ?_
    · intro s_1
      intro x
      intro h
      with_reducible apply keeps_evalSeq
      exact h
    · exact hk
  clear_value s1
  with_reducible apply keeps_tellEvents
  refine keeps_upd ?_ ..
  exact h_s1

theorem keeps_execSequencerEvaluate {s : State}  (hk : Keeps st0 s) :
    OutKeeps st0 (execSequencerEvaluate s) := by
  unfold execSequencerEvaluate
  refine outKeeps_next ?_
  split
  · rename_i x l e
    with_reducible apply keeps_whenB
    · exact hk
    · intro s_1
      intro h
      with_reducible apply keeps_evalTick
      exact h
  · rename_i x e
    exact hk

theorem keeps_execSequencerTimerExpiry {s : State} (q k : Nat) (hk : Keeps st0 s) :
    OutKeeps st0 (execSequencerTimerExpiry q k s) := by
  unfold execSequencerTimerExpiry
  refine outKeeps_next ?_
  split
  · exact keeps_evalTick _ hk
  · exact keeps_evalTick _ hk
  · exact hk

theorem keeps_matcherJudge {s : State} (d n : Nat) (t : Stamp) (hk : Keeps st0 s) :
    Keeps st0 (matcherJudge s d n t) := by
  unfold matcherJudge
  refine keeps_ite (fun _ => ?_) (fun _ => ?_)
  · exact hk
  · extract_lets +onlyGivenNames l
    clear_value l
    refine keeps_foldl ?_ ?_
    · intro s_1
      intro x_1
      intro h
      split
      · rename_i e x l_1 e_1
        with_reducible apply keeps_giveCand
        exact h
      · rename_i e x e_1
        exact h
    · exact hk

theorem keeps_negKick {s : State} (n : Nat) (g : NegStore) (b : Nat) (e : NegEntry) (hk : Keeps st0 s) :
    Keeps st0 (negKick n g b e s).2 := by
  induction n generalizing s g b e with
  | zero => exact hk
  | succ n ih =>
    unfold negKick
    split
    · exact hk
    · dsimp only
      split
      · exact keeps_drawFree hk
      · exact ih _ _ _ (keeps_drawFree hk)

theorem keeps_negInsert {s : State} (g : NegStore) (e : NegEntry) (hk : Keeps st0 s) :
    Keeps st0 (negInsert g e s).2 := by
  unfold negInsert
  split
  · exact hk
  · dsimp only
    split
    · exact hk
    · exact hk
    · exact keeps_negKick _ _ _ _ hk

theorem keeps_negLookup {s : State} (d n : Nat) (w : CWord) (prev : Option (BitVec 72)) (t : Stamp) (c : Nat) (hk : Keeps st0 s) :
    Keeps st0 (negLookup d n w prev t s c) := by
  unfold negLookup
  extract_lets +onlyGivenNames g
  clear_value g
  extract_lets +onlyGivenNames k
  clear_value k
  extract_lets +onlyGivenNames kind
  clear_value kind
  refine keeps_ite (fun _ => ?_) (fun _ => ?_)
  · exact hk
  · split
    · rename_i e x e_1
      exact hk
    · rename_i e x key9 e_1
      split
      · rename_i x_1 b w_1 e_2
        refine keeps_ite (fun _ => ?_) (fun _ => ?_)
        · exact hk
        · split
          · rename_i e_3 x_2 e_4 e_5
            with_reducible apply keeps_giveCand
            exact hk
          · rename_i e_3 x_2 e_4
            exact hk
      · rename_i x_1 e_2
        refine keeps_ite (fun _ => ?_) (fun _ => ?_)
        · with_reducible apply keeps_giveCand
          exact hk
        · exact hk

theorem keeps_negJudge {s : State} (d n : Nat) (w : CWord) (prev : Option (BitVec 72)) (t : Stamp) (hk : Keeps st0 s) :
    Keeps st0 (negJudge s d n w prev t) := by
  unfold negJudge
  refine keeps_ite (fun _ => ?_) (fun _ => ?_)
  · exact hk
  · refine keeps_foldl ?_ ?_
    · intro s_1
      intro x_1
      intro h
      with_reducible apply keeps_negLookup
      exact h
    · exact hk

theorem keeps_trigStamp {s : State} (n : Nat) (r : RawStamp) (hk : Keeps st0 s) :
    Keeps st0 (trigStamp s n r).2 := by
  unfold trigStamp
  extract_lets +onlyGivenNames t
  clear_value t
  refine keeps_ite2 (fun _ => ?_) (fun _ => ?_)
  · extract_lets +onlyGivenNames q
    have h_q : Keeps st0 q.2 := by
      unfold q
      with_reducible apply keeps_openDivInt
      exact hk
    clear_value q
    exact h_q
  · exact hk

theorem keeps_trigInGive {s : State} (n : Nat) (e : TrigEdge) (hk : Keeps st0 s) :
    Keeps st0 (trigInGive s n e) := by
  unfold trigInGive
  with_reducible apply keeps_giveCand
  exact hk

theorem keeps_execTrigInEdge {s : State} (n : Nat) (rising : Bool) (cap tap : Nat) (hk : Keeps st0 s) :
    OutKeeps st0 (execTrigInEdge n rising cap tap s) := by
  unfold execTrigInEdge
  refine outKeeps_next ?_
  refine keeps_ite (fun _ => ?_) (fun _ => ?_)
  · exact hk
  · extract_lets +onlyGivenNames x_1
    clear_value x_1
    extract_lets +onlyGivenNames q
    have h_q : Keeps st0 q.2 := by
      unfold q
      with_reducible apply keeps_trigStamp
      exact hk
    clear_value q
    extract_lets +onlyGivenNames e
    clear_value e
    extract_lets +onlyGivenNames ph
    clear_value ph
    extract_lets +onlyGivenNames close
    clear_value close
    extract_lets +onlyGivenNames x1
    clear_value x1
    extract_lets +onlyGivenNames s1
    have h_s1 : Keeps st0 s1 := by
      unfold s1
      with_reducible apply keeps_setTrigIn
      exact h_q
    clear_value s1
    refine keeps_ite (fun _ => ?_) (fun _ => ?_)
    · exact h_s1
    · refine keeps_ite (fun _ => ?_) (fun _ => ?_)
      · with_reducible apply keeps_trigInGive
        exact h_s1
      · with_reducible apply keeps_setTrigIn
        exact h_s1

theorem keeps_execTrigInFilterExpiry {s : State} (n : Nat) (hk : Keeps st0 s) :
    OutKeeps st0 (execTrigInFilterExpiry n s) := by
  unfold execTrigInFilterExpiry
  refine outKeeps_next ?_
  extract_lets +onlyGivenNames x
  clear_value x
  split
  · rename_i x_1 e e_1
    with_reducible apply keeps_whenB
    · exact hk
    · intro s_1
      intro h
      with_reducible apply keeps_trigInGive
      with_reducible apply keeps_setTrigIn
      exact h
  · rename_i x_1 e
    exact hk

theorem keeps_edgeOrDrop {s : State} (n : Nat) (x : TrigOut) (e : OutEdge) (active : Bool) (hk : Keeps st0 s) :
    Keeps st0 (edgeOrDrop s n x e active) := by
  unfold edgeOrDrop
  refine keeps_ite (fun _ => ?_) (fun _ => ?_)
  · with_reducible apply keeps_setTrigOut
    exact hk
  · refine keeps_ite (fun _ => ?_) (fun _ => ?_)
    · with_reducible apply keeps_incF
      with_reducible apply keeps_setTrigOut
      exact hk
    · with_reducible apply keeps_setTrigOut
      exact hk

theorem keeps_outAnswer {s : State} (n : Nat) (x : TrigOut) (e : OutEdge) (hk : Keeps st0 s) :
    Keeps st0 (outAnswer s n x e) := by
  unfold outAnswer
  split
  · rename_i x_1 e_1
    extract_lets +onlyGivenNames y
    clear_value y
    with_reducible apply keeps_setTrigOut
    exact hk
  · rename_i x_1 e_1
    with_reducible apply keeps_edgeOrDrop
    exact hk
  · rename_i x_1 e_1
    with_reducible apply keeps_edgeOrDrop
    exact hk
  · rename_i x_1 e_1 e_2 e_3
    with_reducible apply keeps_setTrigOut
    exact hk

theorem keeps_execTrigOutEdge {s : State} (n : Nat) (hk : Keeps st0 s) :
    OutKeeps st0 (execTrigOutEdge n s) := by
  unfold execTrigOutEdge
  refine outKeeps_next ?_
  extract_lets +onlyGivenNames x
  clear_value x
  extract_lets +onlyGivenNames edge
  have h_edge : ∀ v0 v1, Keeps st0 (edge v0 v1) := by
    unfold edge
    intro v0
    intro v1
    with_reducible apply keeps_whenB
    · exact hk
    · intro s_1
      intro h
      with_reducible apply keeps_outAnswer
      exact h
  clear_value edge
  split
  · rename_i x_1 x_2 t v q e r e_1 e_2
    refine keeps_ite (fun _ => ?_) (fun _ => ?_)
    · refine h_edge _ _
    · with_reducible apply keeps_whenB
      · exact hk
      · intro s_1
        intro h
        with_reducible apply keeps_setTrigOut
        exact h
  · rename_i x_1 x_2 t v q e e_1
    with_reducible apply keeps_whenB
    · exact hk
    · intro s_1
      intro h
      with_reducible apply keeps_setTrigOut
      exact h
  · rename_i x_1 x_2 e r e_1 e_2
    refine h_edge _ _
  · rename_i x_1 x_2 e e_1
    exact hk

theorem keeps_execTrigOutPulseEnd {s : State} (n : Nat) (hk : Keeps st0 s) :
    OutKeeps st0 (execTrigOutPulseEnd n s) := by
  unfold execTrigOutPulseEnd
  refine outKeeps_next ?_
  extract_lets +onlyGivenNames x
  clear_value x
  split
  · rename_i x_1 e
    exact hk
  · rename_i x_1 t e
    with_reducible apply keeps_whenB
    · exact hk
    · intro s_1
      intro h
      split
      · rename_i x_2 e_1 r e_2
        refine keeps_ite (fun _ => ?_) (fun _ => ?_)
        · with_reducible apply keeps_setTrigOut
          exact h
        · with_reducible apply keeps_setTrigOut
          exact h
      · rename_i x_2 e_1
        with_reducible apply keeps_setTrigOut
        exact h

end Sys2Proof.Machine
end

