-- ==== Sys2Proof/Laws/KeepsLane.lean ====
section
/-!
SUPPORT. What keeps the part, the time, the queue and the canonical form of memory (`Keeps`): Machine/Lane.
-/

namespace Sys2Proof.Machine

variable {st0 : State}

theorem keeps_laneEvent {s : State} (d n : Nat) (prev : LaneSt) (cause tick : Nat) (hk : Keeps st0 s) :
    Keeps st0 (laneEvent s d n prev cause tick) := by
  unfold laneEvent
  extract_lets +onlyGivenNames l
  clear_value l
  extract_lets +onlyGivenNames att
  with_reducible apply keeps_post
  exact hk

theorem keeps_setLaneState {s : State} (d n : Nat) (st : LaneSt) (cause tick : Nat) (hk : Keeps st0 s) :
    Keeps st0 (setLaneState s d n st cause tick) := by
  unfold setLaneState
  extract_lets +onlyGivenNames l
  clear_value l
  with_reducible apply keeps_laneEvent
  with_reducible apply keeps_setLane
  exact hk

theorem keeps_laneMark {s : State} (d n code data qual tick : Nat) (hk : Keeps st0 s) :
    Keeps st0 (laneMark s d n code data qual tick) := by
  unfold laneMark
  with_reducible apply keeps_addMark
  exact hk

theorem keeps_attachPartner {s : State} (d u kind flags tick : Nat) (detail : List Byte) (hk : Keeps st0 s) :
    Keeps st0 (attachPartner s d u kind flags tick detail) := by
  unfold attachPartner
  with_reducible apply keeps_post
  with_reducible apply keeps_setUnit
  exact hk

theorem keeps_detachPartner {s : State} (d u reason tick ticks : Nat) (hk : Keeps st0 s) :
    Keeps st0 (detachPartner s d u reason tick ticks) := by
  unfold detachPartner
  extract_lets +onlyGivenNames x
  clear_value x
  with_reducible apply keeps_post
  with_reducible apply keeps_setUnit
  exact hk

theorem keeps_linkAttach {s : State} (d n tick : Nat) (hk : Keeps st0 s) :
    Keeps st0 (linkAttach s d n tick) := by
  unfold linkAttach
  extract_lets +onlyGivenNames l
  clear_value l
  extract_lets +onlyGivenNames s1
  have h_s1 : Keeps st0 s1 := by
    unfold s1
    with_reducible apply keeps_attachPartner
    exact hk
  clear_value s1
  with_reducible apply keeps_laneMark
  exact h_s1

theorem keeps_linkDetach {s : State} (d n reason tick ticks : Nat) (hk : Keeps st0 s) :
    Keeps st0 (linkDetach s d n reason tick ticks) := by
  unfold linkDetach
  extract_lets +onlyGivenNames s1
  have h_s1 : Keeps st0 s1 := by
    unfold s1
    with_reducible apply keeps_detachPartner
    exact hk
  clear_value s1
  with_reducible apply keeps_laneMark
  exact h_s1

theorem keeps_laneWord {s : State} (d n : Nat) (w : CWord) (t : Stamp) (hk : Keeps st0 s) :
    Keeps st0 (laneWord s d n w t) := by
  unfold laneWord
  extract_lets +onlyGivenNames l0
  clear_value l0
  extract_lets +onlyGivenNames l
  clear_value l
  extract_lets +onlyGivenNames prev
  clear_value prev
  extract_lets +onlyGivenNames s1
  have h_s1 : Keeps st0 s1 := by
    unfold s1
    with_reducible apply keeps_setLane
    exact hk
  clear_value s1
  extract_lets +onlyGivenNames s2
  have h_s2 : Keeps st0 s2 := by
    unfold s2
    refine keeps_ite (fun _ => ?_) (fun _ => ?_)
    · with_reducible apply keeps_incF
      exact h_s1
    · exact h_s1
  clear_value s2
  with_reducible apply keeps_addWord
  with_reducible apply keeps_negJudge
  with_reducible apply keeps_matcherJudge
  exact h_s2

theorem keeps_setDelay {s : State} (d n v : Nat) (hk : Keeps st0 s) :
    Keeps st0 (setDelay s d n v) := by
  unfold setDelay
  extract_lets +onlyGivenNames l
  clear_value l
  extract_lets +onlyGivenNames step
  clear_value step
  extract_lets +onlyGivenNames s1
  have h_s1 : Keeps st0 s1 := by
    unfold s1
    with_reducible apply keeps_setLane
    exact hk
  clear_value s1
  refine keeps_ite (fun _ => ?_) (fun _ => ?_)
  · exact h_s1
  · with_reducible apply keeps_lookAdd
    exact h_s1

theorem keeps_takeDelay {s : State} (d n : Nat) (a : DelayAsk) (hk : Keeps st0 s) :
    Keeps st0 (takeDelay s d n a) := by
  unfold takeDelay
  extract_lets +onlyGivenNames s1
  have h_s1 : Keeps st0 s1 := by
    unfold s1
    with_reducible apply keeps_setDelay
    exact hk
  clear_value s1
  refine keeps_ite (fun _ => ?_) (fun _ => ?_)
  · exact h_s1
  · with_reducible apply keeps_unitDone
    exact h_s1

theorem keeps_delaysDue {s : State} (d n : Nat) (hk : Keeps st0 s) :
    Keeps st0 (delaysDue s d n) := by
  unfold delaysDue
  extract_lets +onlyGivenNames l
  clear_value l
  refine keeps_foldl ?_ ?_
  · intro s_1
    intro x
    intro h
    with_reducible apply keeps_takeDelay
    exact h
  · with_reducible apply keeps_setLane
    exact hk

theorem keeps_askDelay {s : State} (d n : Nat) (a : DelayAsk) (hk : Keeps st0 s) :
    Keeps st0 (askDelay s d n a) := by
  unfold askDelay
  extract_lets +onlyGivenNames l
  clear_value l
  extract_lets +onlyGivenNames s1
  have h_s1 : Keeps st0 s1 := by
    unfold s1
    with_reducible apply keeps_setLane
    exact hk
  clear_value s1
  refine keeps_ite (fun _ => ?_) (fun _ => ?_)
  · exact h_s1
  · with_reducible apply keeps_delaysDue
    exact h_s1

theorem keeps_leaveAttach {s : State} (d n cause tick : Nat) (hk : Keeps st0 s) :
    Keeps st0 (leaveAttach s d n cause tick) := by
  unfold leaveAttach
  extract_lets +onlyGivenNames l
  clear_value l
  refine keeps_ite (fun _ => ?_) (fun _ => ?_)
  · exact hk
  · extract_lets +onlyGivenNames s1
    have h_s1 : Keeps st0 s1 := by
      unfold s1
      split
      · rename_i e x w e_1
        with_reducible apply keeps_laneWord
        exact hk
      · rename_i e x e_1
        exact hk
    clear_value s1
    extract_lets +onlyGivenNames s2
    have h_s2 : Keeps st0 s2 := by
      unfold s2
      with_reducible apply keeps_laneMark
      with_reducible apply keeps_delaysDue
      exact h_s1
    clear_value s2
    extract_lets +onlyGivenNames l2
    clear_value l2
    extract_lets +onlyGivenNames att
    with_reducible apply keeps_setLane
    exact h_s2

theorem keeps_linkExpire {s : State} (d n ph : Nat) (hk : Keeps st0 s) :
    Keeps st0 (linkExpire s d n ph) := by
  unfold linkExpire
  extract_lets +onlyGivenNames l
  clear_value l
  split
  · rename_i x t e
    extract_lets +onlyGivenNames e_1
    clear_value e_1
    refine keeps_ite (fun _ => ?_) (fun _ => ?_)
    · with_reducible apply keeps_linkDetach
      with_reducible apply keeps_setLane
      exact hk
    · exact hk
  · rename_i x e
    exact hk

theorem keeps_enterAttach {s0 : State} (d n cause tick : Nat) (hk : Keeps st0 s0) :
    Keeps st0 (enterAttach s0 d n cause tick) := by
  unfold enterAttach
  extract_lets +onlyGivenNames s
  have h_s : Keeps st0 s := by
    unfold s
    with_reducible apply keeps_linkExpire
    exact hk
  clear_value s
  extract_lets +onlyGivenNames l
  clear_value l
  extract_lets +onlyGivenNames s1
  have h_s1 : Keeps st0 s1 := by
    unfold s1
    with_reducible apply keeps_setLane
    exact h_s
  clear_value s1
  extract_lets +onlyGivenNames s2
  have h_s2 : Keeps st0 s2 := by
    unfold s2
    refine keeps_ite (fun _ => ?_) (fun _ => ?_)
    · with_reducible apply keeps_linkAttach
      exact h_s1
    · exact h_s1
  clear_value s2
  with_reducible apply keeps_laneMark
  exact h_s2

theorem keeps_endSweep {s : State} (d n flags : Nat) (hk : Keeps st0 s) :
    Keeps st0 (endSweep s d n flags) := by
  unfold endSweep
  extract_lets +onlyGivenNames l
  clear_value l
  split
  · rename_i x e
    exact hk
  · rename_i x w e
    with_reducible apply keeps_post
    with_reducible apply keeps_setLane
    exact hk

theorem keeps_moveEq {s : State} (d n k : Nat) (c f e : Bool) (hk : Keeps st0 s) :
    Keeps st0 (moveEq s d n k c f e) := by
  unfold moveEq
  extract_lets +onlyGivenNames l
  clear_value l
  extract_lets +onlyGivenNames r
  have h_r : Keeps st0 r.2 := by
    unfold r
    with_reducible apply keeps_drawMany
    exact hk
  clear_value r
  extract_lets +onlyGivenNames at_
  clear_value at_
  with_reducible apply keeps_setLane
  exact h_r

theorem keeps_eqStamp {s : State} (d n : Nat) (hk : Keeps st0 s) :
    Keeps st0 (eqStamp s d n) := by
  unfold eqStamp
  extract_lets +onlyGivenNames l
  clear_value l
  with_reducible apply keeps_setLane
  exact hk

theorem keeps_driftEq {s : State} (d n : Nat) (hk : Keeps st0 s) :
    Keeps st0 (driftEq s d n) := by
  unfold driftEq
  extract_lets +onlyGivenNames l
  clear_value l
  extract_lets +onlyGivenNames k
  clear_value k
  refine keeps_ite (fun _ => ?_) (fun _ => ?_)
  · exact hk
  · with_reducible apply keeps_eqStamp
    with_reducible apply keeps_moveEq
    exact hk

theorem keeps_breakOnce {s : State} (d n : Nat) (hk : Keeps st0 s) :
    Keeps st0 (breakOnce s d n) := by
  unfold breakOnce
  extract_lets +onlyGivenNames l
  clear_value l
  refine keeps_ite (fun _ => ?_) (fun _ => ?_)
  · with_reducible apply keeps_moveEq
    exact hk
  · exact hk

theorem keeps_leaveLive {s : State} (d n : Nat) (hk : Keeps st0 s) :
    Keeps st0 (leaveLive s d n) := by
  unfold leaveLive
  extract_lets +onlyGivenNames s1
  have h_s1 : Keeps st0 s1 := by
    unfold s1
    with_reducible apply keeps_breakOnce
    with_reducible apply keeps_driftEq
    with_reducible apply keeps_endSweep
    exact hk
  clear_value s1
  extract_lets +onlyGivenNames l
  clear_value l
  extract_lets +onlyGivenNames s2
  have h_s2 : Keeps st0 s2 := by
    unfold s2
    with_reducible apply keeps_setLane
    exact h_s1
  clear_value s2
  split
  · rename_i x a e
    with_reducible apply keeps_unitDone
    exact h_s2
  · rename_i x e
    exact h_s2

theorem keeps_toAcquire {s : State} (d n cause tick : Nat) (hk : Keeps st0 s) :
    Keeps st0 (toAcquire s d n cause tick) := by
  unfold toAcquire
  extract_lets +onlyGivenNames l
  clear_value l
  extract_lets +onlyGivenNames s1
  have h_s1 : Keeps st0 s1 := by
    unfold s1
    with_reducible apply keeps_leaveLive
    with_reducible apply keeps_leaveAttach
    exact hk
  clear_value s1
  extract_lets +onlyGivenNames s2
  have h_s2 : Keeps st0 s2 := by
    unfold s2
    refine keeps_ite (fun _ => ?_) (fun _ => ?_)
    · with_reducible apply keeps_incF
      exact h_s1
    · exact h_s1
  clear_value s2
  extract_lets +onlyGivenNames s3_src1 s3
  have h_s3 : Keeps st0 s3 := by
    unfold s3
    with_reducible apply keeps_setLane
    exact h_s2
  clear_value s3
  refine keeps_ite (fun _ => ?_) (fun _ => ?_)
  · exact h_s3
  · with_reducible apply keeps_setLaneState
    exact h_s3

theorem keeps_laneStop {s : State} (d n cause tick : Nat) (hk : Keeps st0 s) :
    Keeps st0 (laneStop s d n cause tick) := by
  unfold laneStop
  extract_lets +onlyGivenNames s1
  have h_s1 : Keeps st0 s1 := by
    unfold s1
    with_reducible apply keeps_leaveLive
    with_reducible apply keeps_leaveAttach
    with_reducible apply keeps_linkExpire
    exact hk
  clear_value s1
  extract_lets +onlyGivenNames l
  clear_value l
  extract_lets +onlyGivenNames ticks
  clear_value ticks
  extract_lets +onlyGivenNames s2
  have h_s2 : Keeps st0 s2 := by
    unfold s2
    refine keeps_ite (fun _ => ?_) (fun _ => ?_)
    · exact h_s1
    · with_reducible apply keeps_linkDetach
      exact h_s1
  clear_value s2
  extract_lets +onlyGivenNames l2
  clear_value l2
  with_reducible apply keeps_setLaneState
  with_reducible apply keeps_setLane
  exact h_s2

theorem keeps_laneStart {s : State} (d n : Nat) (hk : Keeps st0 s) :
    Keeps st0 (laneStart s d n) := by
  unfold laneStart
  with_reducible apply keeps_setLane
  exact hk

theorem keeps_toLocked {s : State} (d n cause tick : Nat) (hk : Keeps st0 s) :
    Keeps st0 (toLocked s d n cause tick) := by
  unfold toLocked
  extract_lets +onlyGivenNames l
  clear_value l
  extract_lets +onlyGivenNames s1
  have h_s1 : Keeps st0 s1 := by
    unfold s1
    with_reducible apply keeps_setLane
    exact hk
  clear_value s1
  with_reducible apply keeps_laneEvent
  refine keeps_ite (fun _ => ?_) (fun _ => ?_)
  · with_reducible apply keeps_enterAttach
    exact h_s1
  · exact h_s1

theorem keeps_execSquelchChange {s : State} (d n : Nat) (on : Bool) (hk : Keeps st0 s) :
    OutKeeps st0 (execSquelchChange d n on s) := by
  unfold execSquelchChange
  with_reducible apply keeps_onDie
  · exact hk
  · intro s_1
    intro h
    extract_lets +onlyGivenNames l
    clear_value l
    with_reducible apply keeps_whenB
    · exact h
    · intro s_2
      intro h_1
      extract_lets +onlyGivenNames s1
      have h_s1 : Keeps st0 s1 := by
        unfold s1
        with_reducible apply keeps_setLane
        exact h_1
      clear_value s1
      split
      · rename_i x e
        with_reducible apply keeps_laneEvent
        exact h_s1
      · rename_i x e
        refine keeps_ite (fun _ => ?_) (fun _ => ?_)
        · exact h_s1
        · with_reducible apply keeps_toAcquire
          exact h_s1
      · rename_i x e
        refine keeps_ite (fun _ => ?_) (fun _ => ?_)
        · exact h_s1
        · with_reducible apply keeps_toAcquire
          exact h_s1
      · rename_i x e
        refine keeps_ite (fun _ => ?_) (fun _ => ?_)
        · exact h_s1
        · with_reducible apply keeps_toAcquire
          exact h_s1
      · rename_i x e e_1 e_2 e_3
        exact h_s1

theorem keeps_execCdrLock {s : State} (d n : Nat) (freqOfs : W32) (hk : Keeps st0 s) :
    OutKeeps st0 (execCdrLock d n freqOfs s) := by
  unfold execCdrLock
  with_reducible apply keeps_onDie
  · exact hk
  · intro s_1
    intro h
    extract_lets +onlyGivenNames l
    clear_value l
    with_reducible apply keeps_whenB
    · exact h
    · intro s_2
      intro h_1
      extract_lets +onlyGivenNames l1
      clear_value l1
      refine keeps_ite (fun _ => ?_) (fun _ => ?_)
      · with_reducible apply keeps_setLane
        exact h_1
      · with_reducible apply keeps_toLocked
        with_reducible apply keeps_setLane
        exact h_1

theorem keeps_execOnceAdaptEnd {s : State} (d n : Nat) (eq : EqVals) (hk : Keeps st0 s) :
    OutKeeps st0 (execOnceAdaptEnd d n eq s) := by
  unfold execOnceAdaptEnd
  with_reducible apply keeps_onDie
  · exact hk
  · intro s_1
    intro h
    extract_lets +onlyGivenNames l
    clear_value l
    split
    · rename_i x t e
      with_reducible apply keeps_whenB
      · exact h
      · intro s_2
        intro h_1
        extract_lets +onlyGivenNames l1
        clear_value l1
        extract_lets +onlyGivenNames s1
        have h_s1 : Keeps st0 s1 := by
          unfold s1
          with_reducible apply keeps_post
          with_reducible apply keeps_setLane
          exact h_1
        clear_value s1
        with_reducible apply keeps_toLocked
        exact h_s1
    · rename_i x e
      exact h

theorem keeps_execCdrLockLoss {s : State} (d n : Nat) (hk : Keeps st0 s) :
    OutKeeps st0 (execCdrLockLoss d n s) := by
  unfold execCdrLockLoss
  with_reducible apply keeps_onDie
  · exact hk
  · intro s_1
    intro h
    extract_lets +onlyGivenNames l
    clear_value l
    with_reducible apply keeps_whenB
    · exact h
    · intro s_2
      intro h_1
      with_reducible apply keeps_toAcquire
      exact h_1

theorem keeps_execFrameAlignFound {s : State} (d n : Nat) (ui : List Nat) (stamp : Stamp) (hk : Keeps st0 s) :
    OutKeeps st0 (execFrameAlignFound d n ui stamp s) := by
  unfold execFrameAlignFound
  with_reducible apply keeps_onDie
  · exact hk
  · intro s_1
    intro h
    extract_lets +onlyGivenNames l
    clear_value l
    split
    · rename_i x l1 e
      with_reducible apply keeps_whenB
      · exact h
      · intro s_2
        intro h_1
        extract_lets +onlyGivenNames stamp_1
        clear_value stamp_1
        extract_lets +onlyGivenNames s1
        have h_s1 : Keeps st0 s1 := by
          unfold s1
          with_reducible apply keeps_enterAttach
          with_reducible apply keeps_setLane
          exact h_1
        clear_value s1
        with_reducible apply keeps_laneEvent
        exact h_s1
    · rename_i x e
      exact h

theorem keeps_execFrameAlignLost {s : State} (d n : Nat) (stamp : Stamp) (hk : Keeps st0 s) :
    OutKeeps st0 (execFrameAlignLost d n stamp s) := by
  unfold execFrameAlignLost
  with_reducible apply keeps_onDie
  · exact hk
  · intro s_1
    intro h
    with_reducible apply keeps_whenB
    · exact h
    · intro s_2
      intro h_1
      extract_lets +onlyGivenNames t
      clear_value t
      extract_lets +onlyGivenNames s1
      have h_s1 : Keeps st0 s1 := by
        unfold s1
        with_reducible apply keeps_incF
        with_reducible apply keeps_leaveAttach
        exact h_1
      clear_value s1
      with_reducible apply keeps_setLaneState
      with_reducible apply keeps_setLane
      exact h_s1

theorem keeps_noteMarker {s : State} (d n : Nat) (w : CWord) (hk : Keeps st0 s) :
    Keeps st0 (noteMarker s d n w) := by
  unfold noteMarker
  split
  · rename_i x a e
    refine keeps_ite (fun _ => ?_) (fun _ => ?_)
    · with_reducible apply keeps_setDieClk
      exact hk
    · exact hk
  · rename_i x e
    exact hk

theorem keeps_laneWords {s : State} (d n : Nat) (t t2 : Stamp) (l : List (CWord × Bool)) (hk : Keeps st0 s) :
    Keeps st0 (laneWords s d n t t2 l) := by
  induction l generalizing s with
  | nil => exact hk
  | cons x r ih => exact ih (keeps_laneWord _ _ _ _ (keeps_noteMarker _ _ _ hk))

theorem keeps_execCaptureWord {s : State} (d n : Nat) (ui : List Nat) (stamp stamp2 : Stamp) (hk : Keeps st0 s) :
    OutKeeps st0 (execCaptureWord d n ui stamp stamp2 s) := by
  unfold execCaptureWord
  with_reducible apply keeps_onDie
  · exact hk
  · intro s_1
    intro h
    extract_lets +onlyGivenNames l
    clear_value l
    extract_lets +onlyGivenNames stamp_1
    clear_value stamp_1
    extract_lets +onlyGivenNames stamp2_1
    clear_value stamp2_1
    with_reducible apply keeps_whenB
    · exact h
    · intro s_2
      intro h_1
      extract_lets +onlyGivenNames bs
      clear_value bs
      split
      · rename_i x ws l1 k e
        extract_lets +onlyGivenNames s1
        have h_s1 : Keeps st0 s1 := by
          unfold s1
          with_reducible apply keeps_laneWords
          with_reducible apply keeps_setLane
          exact h_1
        clear_value s1
        refine keeps_ite (fun _ => ?_) (fun _ => ?_)
        · with_reducible apply keeps_delaysDue
          exact h_s1
        · exact h_s1
      · rename_i x e
        with_reducible apply keeps_setLane
        exact h_1

theorem keeps_execLinkDetachTimeout {s : State} (d n : Nat) (hk : Keeps st0 s) :
    OutKeeps st0 (execLinkDetachTimeout d n s) := by
  unfold execLinkDetachTimeout
  with_reducible apply keeps_onDie
  · exact hk
  · intro s_1
    intro h
    with_reducible apply keeps_whenB
    · exact h
    · intro s_2
      intro h_1
      with_reducible apply keeps_linkExpire
      exact h_1

theorem keeps_execLaneAdaptEnd {s : State} (d n : Nat) (eq : EqVals) (hk : Keeps st0 s) :
    OutKeeps st0 (execLaneAdaptEnd d n eq s) := by
  unfold execLaneAdaptEnd
  with_reducible apply keeps_onDie
  · exact hk
  · intro s_1
    intro h
    extract_lets +onlyGivenNames l
    clear_value l
    split
    · rename_i x a e
      with_reducible apply keeps_whenB
      · exact h
      · intro s_2
        intro h_1
        extract_lets +onlyGivenNames k
        clear_value k
        extract_lets +onlyGivenNames s1
        have h_s1 : Keeps st0 s1 := by
          unfold s1
          with_reducible apply keeps_driftEq
          exact h_1
        clear_value s1
        extract_lets +onlyGivenNames l0
        clear_value l0
        extract_lets +onlyGivenNames l1_src1 l1
        clear_value l1
        extract_lets +onlyGivenNames l2
        clear_value l2
        extract_lets +onlyGivenNames s2
        have h_s2 : Keeps st0 s2 := by
          unfold s2
          with_reducible apply keeps_setLane
          exact h_s1
        clear_value s2
        extract_lets +onlyGivenNames u
        clear_value u
        with_reducible apply keeps_unitDone
        with_reducible apply keeps_post
        exact h_s2
    · rename_i x e
      exact h

theorem keeps_execDeskewMarkersSeen {s : State} (d : Nat) (arrivals : List Nat) (hk : Keeps st0 s) :
    OutKeeps st0 (execDeskewMarkersSeen d arrivals s) := by
  unfold execDeskewMarkersSeen
  with_reducible apply keeps_onDie
  · exact hk
  · intro s_1
    intro h
    split
    · rename_i x e
      exact h
    · rename_i x a e
      with_reducible apply keeps_whenB
      · exact h
      · intro s_2
        intro h_1
        extract_lets +onlyGivenNames lanes
        clear_value lanes
        extract_lets +onlyGivenNames at_
        clear_value at_
        extract_lets +onlyGivenNames last
        clear_value last
        extract_lets +onlyGivenNames skew
        clear_value skew
        extract_lets +onlyGivenNames s1_src1 s1
        have h_s1 : Keeps st0 s1 := by
          unfold s1
          with_reducible apply keeps_setDieClk
          exact h_1
        clear_value s1
        extract_lets +onlyGivenNames u
        clear_value u
        refine keeps_ite (fun _ => ?_) (fun _ => ?_)
        · with_reducible apply keeps_unitDone
          exact h_s1
        · refine keeps_ite (fun _ => ?_) (fun _ => ?_)
          · with_reducible apply keeps_unitDone
            exact h_s1
          · extract_lets +onlyGivenNames s2
            have h_s2 : Keeps st0 s2 := by
              unfold s2
              refine keeps_foldl ?_ ?_
              · intro s_3
                intro x_1
                intro h_2
                with_reducible apply keeps_setLane
                exact h_2
              · exact h_s1
            clear_value s2
            refine keeps_foldl ?_ ?_
            · intro s_3
              intro x_1
              intro h_2
              refine keeps_ite (fun _ => ?_) (fun _ => ?_)
              · with_reducible apply keeps_delaysDue
                exact h_2
              · exact h_2
            · exact h_s2

theorem keeps_execDeskewWindowTimeout {s : State} (d : Nat) (hk : Keeps st0 s) :
    OutKeeps st0 (execDeskewWindowTimeout d s) := by
  unfold execDeskewWindowTimeout
  with_reducible apply keeps_onDie
  · exact hk
  · intro s_1
    intro h
    split
    · rename_i x e
      exact h
    · rename_i x a e
      with_reducible apply keeps_whenB
      · exact h
      · intro s_2
        intro h_1
        extract_lets +onlyGivenNames s1_src1 s1
        have h_s1 : Keeps st0 s1 := by
          unfold s1
          with_reducible apply keeps_setDieClk
          exact h_1
        clear_value s1
        with_reducible apply keeps_unitDone
        exact h_s1

theorem keeps_eff_laneConfigureDef {s : State} {c : Cmd} {fid u : Nat} (hk : Keeps st0 s) :
    Keeps st0 ((laneConfigureDef).eff c fid u s).1 := by
  dsimp -zeta only [laneConfigureDef]
  extract_lets +onlyGivenNames d
  clear_value d
  extract_lets +onlyGivenNames i
  clear_value i
  refine keeps_ite1 (fun _ => ?_) (fun _ => ?_)
  · extract_lets +onlyGivenNames b
    clear_value b
    refine keeps_ite1 (fun _ => ?_) (fun _ => ?_)
    · exact hk
    · refine keeps_ite1 (fun _ => ?_) (fun _ => ?_)
      · exact hk
      · refine keeps_ite1 (fun _ => ?_) (fun _ => ?_)
        · exact hk
        · refine keeps_mk1 ?_
          with_reducible apply keeps_setPll
          exact hk
  · extract_lets +onlyGivenNames l
    clear_value l
    refine keeps_ite1 (fun _ => ?_) (fun _ => ?_)
    · exact hk
    · refine keeps_ite1 (fun _ => ?_) (fun _ => ?_)
      · exact hk
      · refine keeps_ite1 (fun _ => ?_) (fun _ => ?_)
        · exact hk
        · extract_lets +onlyGivenNames s1
          have h_s1 : Keeps st0 s1 := by
            unfold s1
            with_reducible apply keeps_setLane
            exact hk
          clear_value s1
          extract_lets +onlyGivenNames s2
          have h_s2 : Keeps st0 s2 := by
            unfold s2
            refine keeps_ite (fun _ => ?_) (fun _ => ?_)
            · exact h_s1
            · with_reducible apply keeps_setLaneState
              exact h_s1
          clear_value s2
          exact h_s2

theorem keeps_execLaneConfigure {s : State} (c : Cmd) (hk : Keeps st0 s) :
    OutKeeps st0 (execLaneConfigure c s) := by
  unfold execLaneConfigure
  with_reducible apply keeps_startCmd
  · intro c_1
    intro fid
    intro u
    intro s_1
    intro h
    dsimp -zeta only [laneConfigureDef]
    extract_lets +onlyGivenNames d
    clear_value d
    extract_lets +onlyGivenNames i
    clear_value i
    refine keeps_ite1 (fun _ => ?_) (fun _ => ?_)
    · extract_lets +onlyGivenNames b
      clear_value b
      refine keeps_ite1 (fun _ => ?_) (fun _ => ?_)
      · exact h
      · refine keeps_ite1 (fun _ => ?_) (fun _ => ?_)
        · exact h
        · refine keeps_ite1 (fun _ => ?_) (fun _ => ?_)
          · exact h
          · refine keeps_mk1 ?_
            with_reducible apply keeps_setPll
            exact h
    · extract_lets +onlyGivenNames l
      clear_value l
      refine keeps_ite1 (fun _ => ?_) (fun _ => ?_)
      · exact h
      · refine keeps_ite1 (fun _ => ?_) (fun _ => ?_)
        · exact h
        · refine keeps_ite1 (fun _ => ?_) (fun _ => ?_)
          · exact h
          · extract_lets +onlyGivenNames s1
            have h_s1 : Keeps st0 s1 := by
              unfold s1
              with_reducible apply keeps_setLane
              exact h
            clear_value s1
            extract_lets +onlyGivenNames s2
            have h_s2 : Keeps st0 s2 := by
              unfold s2
              refine keeps_ite (fun _ => ?_) (fun _ => ?_)
              · exact h_s1
              · with_reducible apply keeps_setLaneState
                exact h_s1
            clear_value s2
            exact h_s2
  · exact hk

theorem keeps_eff_laneSetFramerDef {s : State} {c : Cmd} {fid u : Nat} (hk : Keeps st0 s) :
    Keeps st0 ((laneSetFramerDef).eff c fid u s).1 := by
  dsimp -zeta only [laneSetFramerDef]
  extract_lets +onlyGivenNames d
  clear_value d
  extract_lets +onlyGivenNames n
  clear_value n
  extract_lets +onlyGivenNames l
  clear_value l
  extract_lets +onlyGivenNames f
  clear_value f
  extract_lets +onlyGivenNames same
  clear_value same
  refine keeps_ite1 (fun _ => ?_) (fun _ => ?_)
  · exact hk
  · extract_lets +onlyGivenNames t
    clear_value t
    extract_lets +onlyGivenNames s1
    have h_s1 : Keeps st0 s1 := by
      unfold s1
      with_reducible apply keeps_leaveAttach
      exact hk
    clear_value s1
    extract_lets +onlyGivenNames l1_src1 l1
    clear_value l1
    extract_lets +onlyGivenNames s2
    have h_s2 : Keeps st0 s2 := by
      unfold s2
      with_reducible apply keeps_setLane
      exact h_s1
    clear_value s2
    refine keeps_ite1 (fun _ => ?_) (fun _ => ?_)
    · extract_lets +onlyGivenNames s3
      have h_s3 : Keeps st0 s3 := by
        unfold s3
        with_reducible apply keeps_setLane
        exact h_s2
      clear_value s3
      extract_lets +onlyGivenNames s4
      have h_s4 : Keeps st0 s4 := by
        unfold s4
        refine keeps_ite (fun _ => ?_) (fun _ => ?_)
        · with_reducible apply keeps_enterAttach
          exact h_s3
        · exact h_s3
      clear_value s4
      refine keeps_mk1 ?_
      refine keeps_ite (fun _ => ?_) (fun _ => ?_)
      · with_reducible apply keeps_laneEvent
        exact h_s4
      · exact h_s4
    · exact h_s2

theorem keeps_execLaneSetFramer {s : State} (c : Cmd) (hk : Keeps st0 s) :
    OutKeeps st0 (execLaneSetFramer c s) := by
  unfold execLaneSetFramer
  with_reducible apply keeps_startCmd
  · intro c_1
    intro fid
    intro u
    intro s_1
    intro h
    dsimp -zeta only [laneSetFramerDef]
    extract_lets +onlyGivenNames d
    clear_value d
    extract_lets +onlyGivenNames n
    clear_value n
    extract_lets +onlyGivenNames l
    clear_value l
    extract_lets +onlyGivenNames f
    clear_value f
    extract_lets +onlyGivenNames same
    clear_value same
    refine keeps_ite1 (fun _ => ?_) (fun _ => ?_)
    · exact h
    · extract_lets +onlyGivenNames t
      clear_value t
      extract_lets +onlyGivenNames s1
      have h_s1 : Keeps st0 s1 := by
        unfold s1
        with_reducible apply keeps_leaveAttach
        exact h
      clear_value s1
      extract_lets +onlyGivenNames l1_src1 l1
      clear_value l1
      extract_lets +onlyGivenNames s2
      have h_s2 : Keeps st0 s2 := by
        unfold s2
        with_reducible apply keeps_setLane
        exact h_s1
      clear_value s2
      refine keeps_ite1 (fun _ => ?_) (fun _ => ?_)
      · extract_lets +onlyGivenNames s3
        have h_s3 : Keeps st0 s3 := by
          unfold s3
          with_reducible apply keeps_setLane
          exact h_s2
        clear_value s3
        extract_lets +onlyGivenNames s4
        have h_s4 : Keeps st0 s4 := by
          unfold s4
          refine keeps_ite (fun _ => ?_) (fun _ => ?_)
          · with_reducible apply keeps_enterAttach
            exact h_s3
          · exact h_s3
        clear_value s4
        refine keeps_mk1 ?_
        refine keeps_ite (fun _ => ?_) (fun _ => ?_)
        · with_reducible apply keeps_laneEvent
          exact h_s4
        · exact h_s4
      · exact h_s2
  · exact hk

theorem keeps_eff_laneSetEqualiserDef {s : State} {c : Cmd} {fid u : Nat} (hk : Keeps st0 s) :
    Keeps st0 ((laneSetEqualiserDef).eff c fid u s).1 := by
  dsimp -zeta only [laneSetEqualiserDef]
  extract_lets +onlyGivenNames l
  clear_value l
  extract_lets +onlyGivenNames m
  clear_value m
  refine keeps_ite1 (fun _ => ?_) (fun _ => ?_)
  · exact hk
  · refine keeps_mk1 ?_
    with_reducible apply keeps_setLane
    exact hk

theorem keeps_execLaneSetEqualiser {s : State} (c : Cmd) (hk : Keeps st0 s) :
    OutKeeps st0 (execLaneSetEqualiser c s) := by
  unfold execLaneSetEqualiser
  with_reducible apply keeps_startCmd
  · intro c_1
    intro fid
    intro u
    intro s_1
    intro h
    dsimp -zeta only [laneSetEqualiserDef]
    extract_lets +onlyGivenNames l
    clear_value l
    extract_lets +onlyGivenNames m
    clear_value m
    refine keeps_ite1 (fun _ => ?_) (fun _ => ?_)
    · exact h
    · refine keeps_mk1 ?_
      with_reducible apply keeps_setLane
      exact h
  · exact hk

theorem keeps_eff_laneAdaptDef {s : State} {c : Cmd} {fid u : Nat} (hk : Keeps st0 s) :
    Keeps st0 ((laneAdaptDef).eff c fid u s).1 := by
  dsimp -zeta only [laneAdaptDef]
  extract_lets +onlyGivenNames d
  clear_value d
  extract_lets +onlyGivenNames n
  clear_value n
  extract_lets +onlyGivenNames l
  clear_value l
  refine keeps_ite1 (fun _ => ?_) (fun _ => ?_)
  · exact hk
  · refine keeps_ite1 (fun _ => ?_) (fun _ => ?_)
    · exact hk
    · extract_lets +onlyGivenNames s1
      have h_s1 : Keeps st0 s1 := by
        unfold s1
        with_reducible apply keeps_driftEq
        exact hk
      clear_value s1
      refine keeps_mk1 ?_
      with_reducible apply keeps_setLane
      exact h_s1

theorem keeps_execLaneAdapt {s : State} (c : Cmd) (hk : Keeps st0 s) :
    OutKeeps st0 (execLaneAdapt c s) := by
  unfold execLaneAdapt
  with_reducible apply keeps_startCmd
  · intro c_1
    intro fid
    intro u
    intro s_1
    intro h
    refine keeps_eff_laneAdaptDef ?_
    exact h
  · exact hk

theorem keeps_eff_laneDeskewDef {s : State} {c : Cmd} {fid u : Nat} (hk : Keeps st0 s) :
    Keeps st0 ((laneDeskewDef).eff c fid u s).1 := by
  dsimp -zeta only [laneDeskewDef]
  extract_lets +onlyGivenNames d
  clear_value d
  extract_lets +onlyGivenNames n
  clear_value n
  refine keeps_ite1 (fun _ => ?_) (fun _ => ?_)
  · refine keeps_ite1 (fun _ => ?_) (fun _ => ?_)
    · exact hk
    · refine keeps_mk1 ?_
      with_reducible apply keeps_askDelay
      exact hk
  · refine keeps_ite1 (fun _ => ?_) (fun _ => ?_)
    · exact hk
    · extract_lets +onlyGivenNames mask
      clear_value mask
      refine keeps_ite1 (fun _ => ?_) (fun _ => ?_)
      · exact hk
      · refine keeps_ite1 (fun _ => ?_) (fun _ => ?_)
        · exact hk
        · refine keeps_mk1 ?_
          with_reducible apply keeps_setDieClk
          exact hk

theorem keeps_execLaneDeskew {s : State} (c : Cmd) (hk : Keeps st0 s) :
    OutKeeps st0 (execLaneDeskew c s) := by
  unfold execLaneDeskew
  with_reducible apply keeps_startCmd
  · intro c_1
    intro fid
    intro u
    intro s_1
    intro h
    refine keeps_eff_laneDeskewDef ?_
    exact h
  · exact hk

theorem keeps_eff_laneReadStatusDef {s : State} {c : Cmd} {fid u : Nat} (hk : Keeps st0 s) :
    Keeps st0 ((laneReadStatusDef).eff c fid u s).1 := by
  dsimp -zeta only [laneReadStatusDef]
  extract_lets +onlyGivenNames d
  clear_value d
  extract_lets +onlyGivenNames n
  clear_value n
  extract_lets +onlyGivenNames s1
  have h_s1 : Keeps st0 s1 := by
    unfold s1
    with_reducible apply keeps_driftEq
    exact hk
  clear_value s1
  extract_lets +onlyGivenNames l
  clear_value l
  extract_lets +onlyGivenNames a
  have h_a : Keeps st0 a.2 := by
    unfold a
    with_reducible apply keeps_drawFree
    refine keeps_ite (fun _ => ?_) (fun _ => ?_)
    · with_reducible apply keeps_moveEq
      exact h_s1
    · exact h_s1
  clear_value a
  exact h_a

theorem keeps_execLaneReadStatus {s : State} (c : Cmd) (hk : Keeps st0 s) :
    OutKeeps st0 (execLaneReadStatus c s) := by
  unfold execLaneReadStatus
  with_reducible apply keeps_startCmd
  · intro c_1
    intro fid
    intro u
    intro s_1
    intro h
    refine keeps_eff_laneReadStatusDef ?_
    exact h
  · exact hk

end Sys2Proof.Machine
end

