-- ==== Sys2Proof/Laws/KeepsRings.lean ====
section
/-!
SUPPORT. What keeps the part, the time, the queue and the canonical form of memory (`Keeps`): Machine/Rings.
-/

namespace Sys2Proof.Machine

variable {st0 : State}

theorem keeps_reportBad {s : State} (d : Nat) (hk : Keeps st0 s) :
    Keeps st0 (reportBad s d) := by
  unfold reportBad
  extract_lets +onlyGivenNames c
  clear_value c
  extract_lets +onlyGivenNames due
  clear_value due
  split
  · rename_i x t data e
    refine keeps_ite (fun _ => ?_) (fun _ => ?_)
    · with_reducible apply keeps_post
      with_reducible apply keeps_setCfg
      exact hk
    · exact hk
  · rename_i x e
    exact hk

theorem keeps_reportLock {s : State} (d : Nat) (hk : Keeps st0 s) :
    Keeps st0 (reportLock s d) := by
  unfold reportLock
  extract_lets +onlyGivenNames c
  clear_value c
  extract_lets +onlyGivenNames due
  clear_value due
  split
  · rename_i x t data e
    refine keeps_ite (fun _ => ?_) (fun _ => ?_)
    · with_reducible apply keeps_post
      with_reducible apply keeps_setCfg
      exact hk
    · exact hk
  · rename_i x e
    exact hk

theorem keeps_badWrite {s : State} (d bar reason port be ofs : Nat) (v : W32) (hk : Keeps st0 s) :
    Keeps st0 (badWrite s d bar reason port be ofs v) := by
  unfold badWrite
  extract_lets +onlyGivenNames s0_src1 s0
  have h_s0 : Keeps st0 s0 := by
    unfold s0
    with_reducible apply keeps_setPort
    exact hk
  clear_value s0
  extract_lets +onlyGivenNames s1
  have h_s1 : Keeps st0 s1 := by
    unfold s1
    with_reducible apply keeps_setFlag
    with_reducible apply keeps_incF
    exact h_s0
  clear_value s1
  extract_lets +onlyGivenNames s2
  have h_s2 : Keeps st0 s2 := by
    unfold s2
    with_reducible apply keeps_setReg
    exact h_s1
  clear_value s2
  extract_lets +onlyGivenNames c
  clear_value c
  extract_lets +onlyGivenNames data
  clear_value data
  with_reducible apply keeps_reportBad
  with_reducible apply keeps_setCfg
  exact h_s2

theorem keeps_lockViol {s : State} (d kind bit ofs : Nat) (v : W32) (hk : Keeps st0 s) :
    Keeps st0 (lockViol s d kind bit ofs v) := by
  unfold lockViol
  extract_lets +onlyGivenNames s1
  have h_s1 : Keeps st0 s1 := by
    unfold s1
    with_reducible apply keeps_setFlag
    with_reducible apply keeps_incF
    exact hk
  clear_value s1
  extract_lets +onlyGivenNames s2
  have h_s2 : Keeps st0 s2 := by
    unfold s2
    with_reducible apply keeps_setReg
    exact h_s1
  clear_value s2
  extract_lets +onlyGivenNames c
  clear_value c
  extract_lets +onlyGivenNames data
  clear_value data
  with_reducible apply keeps_reportLock
  with_reducible apply keeps_setCfg
  exact h_s2

theorem keeps_suspendCheck {s : State} (d : Nat) (hk : Keeps st0 s) :
    Keeps st0 (suspendCheck s d) := by
  unfold suspendCheck
  with_reducible apply keeps_setCfg
  with_reducible apply keeps_setFlag
  exact hk

theorem keeps_onPort {s : State} (p : Nat) (f : State → State) (hk : Keeps st0 s)
    (h_f : ∀ v0, Keeps st0 v0 → Keeps st0 (f v0)) :
    OutKeeps st0 (onPort p s f) := by
  unfold onPort
  with_reducible apply keeps_onDie
  · exact hk
  · intro s_1
    intro h
    with_reducible apply keeps_whenB
    · exact h
    · intro s_2
      intro h_1
      refine h_f _ ?_
      exact h_1

theorem keeps_ringError {s : State} (regDie port kind n : Nat) (st er : Fld) (err : Nat) (hk : Keeps st0 s) :
    Keeps st0 (ringError s regDie port kind n st er err) := by
  unfold ringError
  extract_lets +onlyGivenNames s1
  have h_s1 : Keeps st0 s1 := by
    unfold s1
    with_reducible apply keeps_setF
    with_reducible apply keeps_setF
    exact hk
  clear_value s1
  with_reducible apply keeps_post
  with_reducible apply keeps_setFlag
  exact h_s1

theorem keeps_cmdRingError {s : State} (p kind n err : Nat) (hk : Keeps st0 s) :
    Keeps st0 (cmdRingError s p kind n err) := by
  unfold cmdRingError
  with_reducible apply keeps_ringError
  exact hk

theorem keeps_strRingError {s : State} (port r err : Nat) (hk : Keeps st0 s) :
    Keeps st0 (strRingError s port r err) := by
  unfold strRingError
  with_reducible apply keeps_ringError
  exact hk

theorem keeps_evWrite {s : State} (p : Nat) (e : Ev) (hk : Keeps st0 s) :
    Keeps st0 (evWrite s p e) := by
  unfold evWrite
  extract_lets +onlyGivenNames q
  clear_value q
  extract_lets +onlyGivenNames i
  clear_value i
  extract_lets +onlyGivenNames ctl
  clear_value ctl
  extract_lets +onlyGivenNames s1
  have h_s1 : Keeps st0 s1 := by
    unfold s1
    with_reducible apply keeps_hostWrite
    exact hk
  clear_value s1
  extract_lets +onlyGivenNames last
  extract_lets +onlyGivenNames m
  have h_m : Keeps st0 m.2 := by
    unfold m
    with_reducible apply keeps_moderate
    exact h_s1
  clear_value m
  extract_lets +onlyGivenNames s2
  have h_s2 : Keeps st0 s2 := by
    unfold s2
    with_reducible apply keeps_setEvRing
    exact h_m
  clear_value s2
  with_reducible apply keeps_setF
  exact h_s2

theorem keeps_evLose {s : State} (p : Nat) (e : Ev) (hk : Keeps st0 s) :
    Keeps st0 (evLose s p e) := by
  unfold evLose
  extract_lets +onlyGivenNames q
  clear_value q
  extract_lets +onlyGivenNames s1
  have h_s1 : Keeps st0 s1 := by
    unfold s1
    with_reducible apply keeps_setFlag
    with_reducible apply keeps_incF
    exact hk
  clear_value s1
  with_reducible apply keeps_setEvRing
  exact h_s1

theorem keeps_evDeliver {s : State} (p : Nat) (e : Ev) (hk : Keeps st0 s) :
    Keeps st0 (evDeliver s p e) := by
  unfold evDeliver
  extract_lets +onlyGivenNames q
  clear_value q
  refine keeps_ite (fun _ => ?_) (fun _ => ?_)
  · with_reducible apply keeps_evLose
    exact hk
  · refine keeps_ite (fun _ => ?_) (fun _ => ?_)
    · with_reducible apply keeps_evWrite
      exact hk
    · refine keeps_ite (fun _ => ?_) (fun _ => ?_)
      · with_reducible apply keeps_setEvRing
        exact hk
      · with_reducible apply keeps_evLose
        exact hk

theorem keeps_flushHeld {s : State} (p n : Nat) (hk : Keeps st0 s) : Keeps st0 (flushHeld p n s) := by
  induction n generalizing s with
  | zero => exact hk
  | succ n ih =>
    unfold flushHeld
    refine keeps_ite (fun _ => hk) (fun _ => keeps_ite (fun _ => ih ?_) (fun _ => ?_))
    · exact keeps_foldl (fun _ _ h => keeps_ite (fun _ => keeps_evDeliver _ _ h) (fun _ => h))
        (keeps_evWrite _ _ (keeps_setEvRing _ _ hk))
    · split
      · exact hk
      · exact ih (keeps_evWrite _ _ (keeps_setEvRing _ _ hk))

theorem keeps_evRoute {s : State} (e : Ev) (hk : Keeps st0 s) :
    Keeps st0 (evRoute s e) := by
  unfold evRoute
  refine keeps_foldl ?_ ?_
  · intro s_1
    intro x
    intro h
    refine keeps_ite (fun _ => ?_) (fun _ => ?_)
    · with_reducible apply keeps_evDeliver
      exact h
    · exact h
  · exact hk

theorem keeps_execEventRelease {s : State}  (hk : Keeps st0 s) :
    OutKeeps st0 (execEventRelease s) := by
  unfold execEventRelease
  refine outKeeps_next ?_
  split
  · rename_i x f t e
    with_reducible apply keeps_whenB
    · exact hk
    · intro s_1
      intro h
      with_reducible apply keeps_evRoute
      refine keeps_upd ?_ ..
      exact h
  · rename_i x e
    exact hk

theorem keeps_execEventLateArrival {s : State} (k : Nat) (hk : Keeps st0 s) :
    OutKeeps st0 (execEventLateArrival k s) := by
  unfold execEventLateArrival
  refine outKeeps_next ?_
  split
  · rename_i x x_1 e
    with_reducible apply keeps_whenB
    · exact hk
    · intro s_1
      intro h
      extract_lets +onlyGivenNames s1_src1 s1
      have h_s1 : Keeps st0 s1 := by
        unfold s1
        refine keeps_upd ?_ ..
        exact h
      clear_value s1
      refine keeps_ite (fun _ => ?_) (fun _ => ?_)
      · with_reducible apply keeps_evRoute
        exact h_s1
      · refine keeps_upd ?_ ..
        exact h_s1
  · rename_i x e
    exact hk

theorem keeps_badDoorbell {s : State} (p ofs be : Nat) (w : W32) (hk : Keeps st0 s) :
    Keeps st0 (badDoorbell s p ofs be w) := by
  unfold badDoorbell
  with_reducible apply keeps_badWrite
  exact hk

theorem keeps_cmdBell {s : State} (port n be : Nat) (w : W32) (v : Nat) (hk : Keeps st0 s) :
    Keeps st0 (cmdBell port n be w v s) := by
  unfold cmdBell
  extract_lets +onlyGivenNames dep
  clear_value dep
  extract_lets +onlyGivenNames q
  clear_value q
  extract_lets +onlyGivenNames cons
  clear_value cons
  refine keeps_ite (fun _ => ?_) (fun _ => ?_)
  · with_reducible apply keeps_badDoorbell
    exact hk
  · refine keeps_ite (fun _ => ?_) (fun _ => ?_)
    · with_reducible apply keeps_cmdRingError
      exact hk
    · with_reducible apply keeps_setCmdRing
      exact hk

theorem keeps_execCmdDoorbell {s : State} (port n v : Nat) (hk : Keeps st0 s) :
    OutKeeps st0 (execCmdDoorbell port n v s) := by
  unfold execCmdDoorbell
  with_reducible apply keeps_onPort
  · exact hk
  · intro v0
    intro h
    with_reducible apply keeps_whenB
    · exact h
    · intro s_1
      intro h_1
      with_reducible apply keeps_cmdBell
      exact h_1

theorem keeps_cqBell {s : State} (port n be : Nat) (w : W32) (v : Nat) (hk : Keeps st0 s) :
    Keeps st0 (cqBell port n be w v s) := by
  unfold cqBell
  extract_lets +onlyGivenNames dep
  clear_value dep
  extract_lets +onlyGivenNames q
  clear_value q
  refine keeps_ite (fun _ => ?_) (fun _ => ?_)
  · with_reducible apply keeps_badDoorbell
    exact hk
  · refine keeps_ite (fun _ => ?_) (fun _ => ?_)
    · with_reducible apply keeps_cmdRingError
      with_reducible apply keeps_setCplRing
      exact hk
    · with_reducible apply keeps_setCplRing
      exact hk

theorem keeps_execCqDoorbell {s : State} (port n v : Nat) (hk : Keeps st0 s) :
    OutKeeps st0 (execCqDoorbell port n v s) := by
  unfold execCqDoorbell
  with_reducible apply keeps_onPort
  · exact hk
  · intro v0
    intro h
    with_reducible apply keeps_whenB
    · exact h
    · intro s_1
      intro h_1
      with_reducible apply keeps_cqBell
      exact h_1

theorem keeps_evrBell {s : State} (port be : Nat) (w : W32) (v : Nat) (hk : Keeps st0 s) :
    Keeps st0 (evrBell port be w v s) := by
  unfold evrBell
  extract_lets +onlyGivenNames dep
  clear_value dep
  extract_lets +onlyGivenNames q
  clear_value q
  extract_lets +onlyGivenNames prod
  clear_value prod
  refine keeps_ite (fun _ => ?_) (fun _ => ?_)
  · with_reducible apply keeps_badDoorbell
    exact hk
  · refine keeps_ite (fun _ => ?_) (fun _ => ?_)
    · with_reducible apply keeps_ringError
      exact hk
    · with_reducible apply keeps_flushHeld
      with_reducible apply keeps_setEvRing
      exact hk

theorem keeps_execEvrDoorbell {s : State} (port v : Nat) (hk : Keeps st0 s) :
    OutKeeps st0 (execEvrDoorbell port v s) := by
  unfold execEvrDoorbell
  with_reducible apply keeps_onPort
  · exact hk
  · intro v0
    intro h
    with_reducible apply keeps_evrBell
    exact h

theorem keeps_srBell {s : State} (port r be : Nat) (w : W32) (v : Nat) (hk : Keeps st0 s) :
    Keeps st0 (srBell port r be w v s) := by
  unfold srBell
  extract_lets +onlyGivenNames dep
  clear_value dep
  extract_lets +onlyGivenNames q
  clear_value q
  extract_lets +onlyGivenNames cons
  clear_value cons
  refine keeps_ite (fun _ => ?_) (fun _ => ?_)
  · with_reducible apply keeps_badDoorbell
    exact hk
  · refine keeps_ite (fun _ => ?_) (fun _ => ?_)
    · with_reducible apply keeps_strRingError
      exact hk
    · with_reducible apply keeps_setStrRing
      exact hk

theorem keeps_execSrDoorbell {s : State} (port r v : Nat) (hk : Keeps st0 s) :
    OutKeeps st0 (execSrDoorbell port r v s) := by
  unfold execSrDoorbell
  with_reducible apply keeps_onPort
  · exact hk
  · intro v0
    intro h
    with_reducible apply keeps_whenB
    · exact h
    · intro s_1
      intro h_1
      with_reducible apply keeps_srBell
      exact h_1

theorem keeps_ringWrite {s : State} (d ofs rw lockMask : Nat) (locked : Bool) (v w : W32) (hk : Keeps st0 s) :
    Keeps st0 (ringWrite s d ofs rw lockMask locked v w) := by
  unfold ringWrite
  extract_lets +onlyGivenNames m
  clear_value m
  extract_lets +onlyGivenNames old
  clear_value old
  extract_lets +onlyGivenNames s1
  have h_s1 : Keeps st0 s1 := by
    unfold s1
    with_reducible apply keeps_setReg
    exact hk
  clear_value s1
  refine keeps_ite (fun _ => ?_) (fun _ => ?_)
  · with_reducible apply keeps_lockViol
    exact h_s1
  · exact h_s1

theorem keeps_hstLocked {s : State} (d ofs : Nat) (v : W32) (f : State → State) (hk : Keeps st0 s)
    (h_f : ∀ v0, Keeps st0 v0 → Keeps st0 (f v0)) :
    Keeps st0 (hstLocked s d ofs v f) := by
  unfold hstLocked
  refine keeps_ite (fun _ => ?_) (fun _ => ?_)
  · with_reducible apply keeps_lockViol
    exact hk
  · refine h_f _ ?_
    exact hk

theorem keeps_crEnable {s : State} (port n : Nat) (v w : W32) (hk : Keeps st0 s) :
    Keeps st0 (crEnable port n v w s) := by
  unfold crEnable
  with_reducible apply keeps_hstLocked
  · exact hk
  · intro v0
    intro h
    extract_lets +onlyGivenNames dis
    extract_lets +onlyGivenNames s1
    have h_s1 : Keeps st0 s1 := by
      unfold s1
      with_reducible apply keeps_ringWrite
      exact h
    clear_value s1
    refine keeps_ite (fun _ => ?_) (fun _ => ?_)
    · exact h_s1
    · extract_lets +onlyGivenNames s2
      have h_s2 : Keeps st0 s2 := by
        unfold s2
        with_reducible apply keeps_setCplRing
        with_reducible apply keeps_setCmdRing
        exact h_s1
      clear_value s2
      extract_lets +onlyGivenNames s3
      have h_s3 : Keeps st0 s3 := by
        unfold s3
        with_reducible apply keeps_setReg
        exact h_s2
      clear_value s3
      refine keeps_ite (fun _ => ?_) (fun _ => ?_)
      · with_reducible apply keeps_cmdRingError
        exact h_s3
      · refine keeps_ite (fun _ => ?_) (fun _ => ?_)
        · with_reducible apply keeps_cmdRingError
          exact h_s3
        · with_reducible apply keeps_setF
          exact h_s3

theorem keeps_execCmdRingEnable {s : State} (port n : Nat) (v : W32) (hk : Keeps st0 s) :
    OutKeeps st0 (execCmdRingEnable port n v s) := by
  unfold execCmdRingEnable
  with_reducible apply keeps_onPort
  · exact hk
  · intro v0
    intro h
    with_reducible apply keeps_whenB
    · exact h
    · intro s_1
      intro h_1
      with_reducible apply keeps_crEnable
      exact h_1

theorem keeps_crDisable {s : State} (port n : Nat) (v w : W32) (hk : Keeps st0 s) :
    Keeps st0 (crDisable port n v w s) := by
  unfold crDisable
  with_reducible apply keeps_hstLocked
  · exact hk
  · intro v0
    intro h
    extract_lets +onlyGivenNames st
    clear_value st
    extract_lets +onlyGivenNames s1
    have h_s1 : Keeps st0 s1 := by
      unfold s1
      with_reducible apply keeps_ringWrite
      exact h
    clear_value s1
    refine keeps_ite (fun _ => ?_) (fun _ => ?_)
    · with_reducible apply keeps_setF
      exact h_s1
    · exact h_s1

theorem keeps_execCmdRingDisable {s : State} (port n : Nat) (v : W32) (hk : Keeps st0 s) :
    OutKeeps st0 (execCmdRingDisable port n v s) := by
  unfold execCmdRingDisable
  with_reducible apply keeps_onPort
  · exact hk
  · intro v0
    intro h
    with_reducible apply keeps_whenB
    · exact h
    · intro s_1
      intro h_1
      with_reducible apply keeps_crDisable
      exact h_1

theorem keeps_evrEnable {s : State} (port : Nat) (v w : W32) (hk : Keeps st0 s) :
    Keeps st0 (evrEnable port v w s) := by
  unfold evrEnable
  with_reducible apply keeps_hstLocked
  · exact hk
  · intro v0
    intro h
    extract_lets +onlyGivenNames dis
    extract_lets +onlyGivenNames s1
    have h_s1 : Keeps st0 s1 := by
      unfold s1
      with_reducible apply keeps_ringWrite
      exact h
    clear_value s1
    refine keeps_ite (fun _ => ?_) (fun _ => ?_)
    · exact h_s1
    · extract_lets +onlyGivenNames q
      clear_value q
      extract_lets +onlyGivenNames s2
      have h_s2 : Keeps st0 s2 := by
        unfold s2
        with_reducible apply keeps_setReg
        with_reducible apply keeps_setEvRing
        exact h_s1
      clear_value s2
      refine keeps_ite (fun _ => ?_) (fun _ => ?_)
      · with_reducible apply keeps_ringError
        exact h_s2
      · with_reducible apply keeps_flushHeld
        with_reducible apply keeps_setF
        exact h_s2

theorem keeps_evrDisable {s : State} (port : Nat) (v w : W32) (hk : Keeps st0 s) :
    Keeps st0 (evrDisable port v w s) := by
  unfold evrDisable
  with_reducible apply keeps_hstLocked
  · exact hk
  · intro v0
    intro h
    extract_lets +onlyGivenNames s1
    have h_s1 : Keeps st0 s1 := by
      unfold s1
      with_reducible apply keeps_ringWrite
      exact h
    clear_value s1
    with_reducible apply keeps_setF
    exact h_s1

theorem keeps_execEventRingEnable {s : State} (port : Nat) (v : W32) (hk : Keeps st0 s) :
    OutKeeps st0 (execEventRingEnable port v s) := by
  unfold execEventRingEnable
  with_reducible apply keeps_onPort
  · exact hk
  · intro v0
    intro h
    with_reducible apply keeps_whenB
    · exact h
    · intro s_1
      intro h_1
      with_reducible apply keeps_evrEnable
      exact h_1

theorem keeps_execEventRingDisable {s : State} (port : Nat) (v : W32) (hk : Keeps st0 s) :
    OutKeeps st0 (execEventRingDisable port v s) := by
  unfold execEventRingDisable
  with_reducible apply keeps_onPort
  · exact hk
  · intro v0
    intro h
    with_reducible apply keeps_whenB
    · exact h
    · intro s_1
      intro h_1
      with_reducible apply keeps_evrDisable
      exact h_1

theorem keeps_srEnable {s : State} (r : Nat) (v w : W32) (hk : Keeps st0 s) :
    Keeps st0 (srEnable r v w s) := by
  unfold srEnable
  with_reducible apply keeps_hstLocked
  · exact hk
  · intro v0
    intro h
    extract_lets +onlyGivenNames dis
    extract_lets +onlyGivenNames s1
    have h_s1 : Keeps st0 s1 := by
      unfold s1
      with_reducible apply keeps_ringWrite
      exact h
    clear_value s1
    refine keeps_ite (fun _ => ?_) (fun _ => ?_)
    · exact h_s1
    · extract_lets +onlyGivenNames s2
      have h_s2 : Keeps st0 s2 := by
        unfold s2
        with_reducible apply keeps_setReg
        with_reducible apply keeps_setStrRing
        exact h_s1
      clear_value s2
      refine keeps_ite (fun _ => ?_) (fun _ => ?_)
      · with_reducible apply keeps_strRingError
        exact h_s2
      · refine keeps_ite (fun _ => ?_) (fun _ => ?_)
        · with_reducible apply keeps_strRingError
          exact h_s2
        · with_reducible apply keeps_setF
          exact h_s2

theorem keeps_srDisable {s : State} (r : Nat) (v w : W32) (hk : Keeps st0 s) :
    Keeps st0 (srDisable r v w s) := by
  unfold srDisable
  with_reducible apply keeps_hstLocked
  · exact hk
  · intro v0
    intro h
    extract_lets +onlyGivenNames st
    clear_value st
    extract_lets +onlyGivenNames s1
    have h_s1 : Keeps st0 s1 := by
      unfold s1
      with_reducible apply keeps_ringWrite
      exact h
    clear_value s1
    refine keeps_ite (fun _ => ?_) (fun _ => ?_)
    · with_reducible apply keeps_setF
      exact h_s1
    · exact h_s1

theorem keeps_execStreamRingEnable {s : State} (r : Nat) (v : W32) (hk : Keeps st0 s) :
    OutKeeps st0 (execStreamRingEnable r v s) := by
  unfold execStreamRingEnable
  refine outKeeps_next ?_
  with_reducible apply keeps_whenB
  · exact hk
  · intro s_1
    intro h
    with_reducible apply keeps_srEnable
    exact h

theorem keeps_execStreamRingDisable {s : State} (r : Nat) (v : W32) (hk : Keeps st0 s) :
    OutKeeps st0 (execStreamRingDisable r v s) := by
  unfold execStreamRingDisable
  refine outKeeps_next ?_
  with_reducible apply keeps_whenB
  · exact hk
  · intro s_1
    intro h
    with_reducible apply keeps_srDisable
    exact h

theorem keeps_closeBuf {s : State} (r : Nat) (flushed end_ : Bool) (hk : Keeps st0 s) :
    Keeps st0 (closeBuf s r flushed end_) := by
  unfold closeBuf
  extract_lets +onlyGivenNames q
  clear_value q
  extract_lets +onlyGivenNames p
  clear_value p
  extract_lets +onlyGivenNames i
  clear_value i
  extract_lets +onlyGivenNames base
  clear_value base
  extract_lets +onlyGivenNames firstW
  clear_value firstW
  extract_lets +onlyGivenNames s1
  have h_s1 : Keeps st0 s1 := by
    unfold s1
    with_reducible apply keeps_hostWrite
    exact hk
  clear_value s1
  extract_lets +onlyGivenNames last
  extract_lets +onlyGivenNames s2
  have h_s2 : Keeps st0 s2 := by
    unfold s2
    with_reducible apply keeps_setF
    exact h_s1
  clear_value s2
  extract_lets +onlyGivenNames s3_src1 s3
  have h_s3 : Keeps st0 s3 := by
    unfold s3
    with_reducible apply keeps_setStrRing
    exact h_s2
  clear_value s3
  extract_lets +onlyGivenNames s4
  have h_s4 : Keeps st0 s4 := by
    unfold s4
    refine keeps_ite (fun _ => ?_) (fun _ => ?_)
    · with_reducible apply keeps_raiseIrq
      exact h_s3
    · exact h_s3
  clear_value s4
  split
  · rename_i x l e
    refine keeps_ite (fun _ => ?_) (fun _ => ?_)
    · exact h_s4
    · with_reducible apply keeps_deliverEnvs
      exact h_s4
  · rename_i x e
    exact h_s4

theorem keeps_settleEnd {s : State} (d i : Nat) (hk : Keeps st0 s) :
    Keeps st0 (settleEnd s d i) := by
  unfold settleEnd
  extract_lets +onlyGivenNames x
  clear_value x
  split
  · rename_i x_1 l e
    extract_lets +onlyGivenNames q
    clear_value q
    refine keeps_ite (fun _ => ?_) (fun _ => ?_)
    · extract_lets +onlyGivenNames s1
      have h_s1 : Keeps st0 s1 := by
        unfold s1
        with_reducible apply keeps_setStream
        exact hk
      clear_value s1
      refine keeps_ite (fun _ => ?_) (fun _ => ?_)
      · refine keeps_ite (fun _ => ?_) (fun _ => ?_)
        · with_reducible apply keeps_closeBuf
          exact h_s1
        · exact h_s1
      · refine keeps_ite (fun _ => ?_) (fun _ => ?_)
        · exact hk
        · exact h_s1
    · exact hk
  · rename_i x_1 e
    exact hk

theorem keeps_putEnv {s : State} (d i r : Nat) (e : Env) (rs : Option Resend) (hk : Keeps st0 s) :
    Keeps st0 (putEnv s d i r e rs) := by
  unfold putEnv
  extract_lets +onlyGivenNames q
  clear_value q
  extract_lets +onlyGivenNames p
  clear_value p
  extract_lets +onlyGivenNames s1
  have h_s1 : Keeps st0 s1 := by
    unfold s1
    with_reducible apply keeps_hostWrite
    exact hk
  clear_value s1
  extract_lets +onlyGivenNames q1
  clear_value q1
  extract_lets +onlyGivenNames s2
  have h_s2 : Keeps st0 s2 := by
    unfold s2
    with_reducible apply keeps_setStrRing
    exact h_s1
  clear_value s2
  extract_lets +onlyGivenNames x
  clear_value x
  extract_lets +onlyGivenNames s3_src1 s3
  have h_s3 : Keeps st0 s3 := by
    unfold s3
    split
    · rename_i rs a
      refine keeps_ite (fun _ => ?_) (fun _ => ?_)
      · with_reducible apply keeps_unitDone
        unfold s3_src1
        with_reducible apply keeps_setStream
        exact h_s2
      · with_reducible apply keeps_actedOn
        unfold s3_src1
        with_reducible apply keeps_setStream
        exact h_s2
    · rename_i rs
      exact h_s2
  clear_value s3
  with_reducible apply keeps_settleEnd
  refine keeps_ite (fun _ => ?_) (fun _ => ?_)
  · with_reducible apply keeps_closeBuf
    exact h_s3
  · exact h_s3

theorem keeps_openBuf {s : State} (r : Nat) (readOk : Bool) (hk : Keeps st0 s) :
    Keeps st0 (openBuf s r readOk).1 := by
  unfold openBuf
  extract_lets +onlyGivenNames q
  clear_value q
  extract_lets +onlyGivenNames p
  clear_value p
  extract_lets +onlyGivenNames i
  clear_value i
  refine keeps_ite1 (fun _ => ?_) (fun _ => ?_)
  · exact hk
  · refine keeps_ite1 (fun _ => ?_) (fun _ => ?_)
    · exact hk
    · refine keeps_ite1 (fun _ => ?_) (fun _ => ?_)
      · refine keeps_mk1 ?_
        with_reducible apply keeps_strRingError
        exact hk
      · extract_lets +onlyGivenNames a
        clear_value a
        extract_lets +onlyGivenNames addr
        clear_value addr
        extract_lets +onlyGivenNames len
        clear_value len
        refine keeps_ite1 (fun _ => ?_) (fun _ => ?_)
        · refine keeps_mk1 ?_
          with_reducible apply keeps_strRingError
          exact hk
        · refine keeps_mk1 ?_
          with_reducible apply keeps_setStrRing
          exact hk

theorem keeps_execEnvelopeDeliver {s : State} (r : Nat) (readOk : Bool) (hk : Keeps st0 s) :
    OutKeeps st0 (execEnvelopeDeliver r readOk s) := by
  unfold execEnvelopeDeliver
  refine outKeeps_next ?_
  split
  · rename_i x l e
    with_reducible apply keeps_whenB
    · exact hk
    · intro s_1
      intro h
      split
      · rename_i x_1 e_1 rs e_2
        extract_lets +onlyGivenNames b
        have h_b : Keeps st0 b.1 := by
          unfold b
          with_reducible apply keeps_openBuf
          exact h
        clear_value b
        refine keeps_ite (fun _ => ?_) (fun _ => ?_)
        · with_reducible apply keeps_putEnv
          exact h_b
        · exact h_b
      · rename_i x_1 e_1
        exact h
  · rename_i x e
    exact hk

theorem keeps_execSrFlushTimeout {s : State} (r : Nat) (hk : Keeps st0 s) :
    OutKeeps st0 (execSrFlushTimeout r s) := by
  unfold execSrFlushTimeout
  refine outKeeps_next ?_
  extract_lets +onlyGivenNames q
  clear_value q
  extract_lets +onlyGivenNames n
  clear_value n
  with_reducible apply keeps_whenB
  · exact hk
  · intro s_1
    intro h
    with_reducible apply keeps_closeBuf
    exact h

theorem keeps_execRingDrainDone {s : State} (kind : RingKind) (port n : Nat) (hk : Keeps st0 s) :
    OutKeeps st0 (execRingDrainDone kind port n s) := by
  unfold execRingDrainDone
  refine outKeeps_next ?_
  split
  · rename_i kind
    with_reducible apply keeps_whenB
    · exact hk
    · intro s_1
      intro h
      with_reducible apply keeps_setF
      exact h
  · rename_i kind
    with_reducible apply keeps_whenB
    · exact hk
    · intro s_1
      intro h
      with_reducible apply keeps_setF
      exact h
  · rename_i kind
    with_reducible apply keeps_whenB
    · exact hk
    · intro s_1
      intro h
      extract_lets +onlyGivenNames s1
      have h_s1 : Keeps st0 s1 := by
        unfold s1
        refine keeps_ite (fun _ => ?_) (fun _ => ?_)
        · with_reducible apply keeps_closeBuf
          exact h
        · exact h
      clear_value s1
      with_reducible apply keeps_setF
      with_reducible apply keeps_setStrRing
      exact h_s1
  · rename_i kind
    exact hk

theorem keeps_execIrqTimerExpiry {s : State} (kind : RingKind) (port n : Nat) (hk : Keeps st0 s) :
    OutKeeps st0 (execIrqTimerExpiry kind port n s) := by
  unfold execIrqTimerExpiry
  refine outKeeps_next ?_
  split
  · rename_i kind
    extract_lets +onlyGivenNames q
    clear_value q
    extract_lets +onlyGivenNames code
    clear_value code
    split
    · rename_i x l e
      with_reducible apply keeps_whenB
      · exact hk
      · intro s_1
        intro h
        with_reducible apply keeps_setCplRing
        with_reducible apply keeps_raiseIrq
        exact h
    · rename_i x e
      exact hk
  · rename_i kind
    extract_lets +onlyGivenNames q
    clear_value q
    extract_lets +onlyGivenNames code
    clear_value code
    split
    · rename_i x l e
      with_reducible apply keeps_whenB
      · exact hk
      · intro s_1
        intro h
        with_reducible apply keeps_setEvRing
        with_reducible apply keeps_raiseIrq
        exact h
    · rename_i x e
      exact hk
  · rename_i kind_1 e e_1
    exact hk

end Sys2Proof.Machine
end

