-- ==== Sys2Proof/Laws/KeepsCapture.lean ====
section
/-!
SUPPORT. What keeps the part, the time, the queue and the canonical form of memory (`Keeps`): Machine/Capture.
-/

namespace Sys2Proof.Machine

variable {st0 : State}

theorem keeps_lookGap {s0 : State} (d i : Nat) (hk : Keeps st0 s0) :
    Keeps st0 (lookGap s0 d i) := by
  unfold lookGap
  extract_lets +onlyGivenNames s
  have h_s : Keeps st0 s := by
    unfold s
    with_reducible apply keeps_putGap
    exact hk
  clear_value s
  extract_lets +onlyGivenNames x
  clear_value x
  refine keeps_ite (fun _ => ?_) (fun _ => ?_)
  · exact h_s
  · with_reducible apply keeps_lookAdd
    with_reducible apply keeps_setStream
    exact h_s

theorem keeps_memDrop {s : State} (d i : Nat) (hk : Keeps st0 s) :
    Keeps st0 (memDrop s d i) := by
  unfold memDrop
  extract_lets +onlyGivenNames x
  clear_value x
  split
  · rename_i x_1 e
    exact hk
  · rename_i x_1 k e
    split
    · rename_i x_2 e_1
      exact hk
    · rename_i x_2 e_1 e_2
      refine keeps_ite (fun _ => ?_) (fun _ => ?_)
      · exact hk
      · extract_lets +onlyGivenNames x1
        clear_value x1
        with_reducible apply keeps_setStream
        exact hk

theorem keeps_execEntryCommit {s : State} (d i : Nat) (hk : Keeps st0 s) :
    OutKeeps st0 (execEntryCommit d i s) := by
  unfold execEntryCommit
  with_reducible apply keeps_onDie
  · exact hk
  · intro s_1
    intro h
    with_reducible apply keeps_whenB
    · exact h
    · intro s_2
      intro h_1
      extract_lets +onlyGivenNames x
      clear_value x
      refine keeps_ite (fun _ => ?_) (fun _ => ?_)
      · exact h_1
      · refine keeps_ite (fun _ => ?_) (fun _ => ?_)
        · refine keeps_ite (fun _ => ?_) (fun _ => ?_)
          · exact h_1
          · with_reducible apply keeps_memDrop
            exact h_1
        · extract_lets +onlyGivenNames s1
          have h_s1 : Keeps st0 s1 := by
            unfold s1
            split
            · rename_i e e_1 x_1 e_2 r e_3
              refine keeps_ite (fun _ => ?_) (fun _ => ?_)
              · extract_lets +onlyGivenNames s1_1
                have h_s1_1 : Keeps st0 s1_1 := by
                  unfold s1_1
                  with_reducible apply keeps_setStream
                  exact h_1
                clear_value s1_1
                with_reducible apply keeps_lookGap
                refine keeps_ite (fun _ => ?_) (fun _ => ?_)
                · with_reducible apply keeps_expoCommit
                  exact h_s1_1
                · with_reducible apply keeps_rollCommit
                  exact h_s1_1
              · exact h_1
            · rename_i e e_1 x_1 e_2
              with_reducible apply keeps_lookGap
              exact h_1
          clear_value s1
          with_reducible apply keeps_settleEnd
          with_reducible apply keeps_finishStop
          refine keeps_ite (fun _ => ?_) (fun _ => ?_)
          · with_reducible apply keeps_expoSettle
            exact h_s1
          · exact h_s1

theorem keeps_execEnvFlushTimeout {s : State} (d i : Nat) (hk : Keeps st0 s) :
    OutKeeps st0 (execEnvFlushTimeout d i s) := by
  unfold execEnvFlushTimeout
  with_reducible apply keeps_onDie
  · exact hk
  · intro s_1
    intro h
    extract_lets +onlyGivenNames x
    clear_value x
    extract_lets +onlyGivenNames filled
    clear_value filled
    with_reducible apply keeps_whenB
    · exact h
    · intro s_2
      intro h_1
      refine keeps_ite (fun _ => ?_) (fun _ => ?_)
      · with_reducible apply keeps_setStream
        exact h_1
      · with_reducible apply keeps_closeEnv
        exact h_1

theorem keeps_execRearmOpen {s : State} (d i : Nat) (hk : Keeps st0 s) :
    OutKeeps st0 (execRearmOpen d i s) := by
  unfold execRearmOpen
  with_reducible apply keeps_onDie
  · exact hk
  · intro s_1
    intro h
    extract_lets +onlyGivenNames x
    clear_value x
    extract_lets +onlyGivenNames m
    clear_value m
    split
    · rename_i x_1 t e
      with_reducible apply keeps_whenB
      · exact h
      · intro s_2
        intro h_1
        with_reducible apply keeps_setStream
        exact h_1
    · rename_i x_1 e
      exact h

theorem keeps_execSegmentComplete {s : State} (d i : Nat) (hk : Keeps st0 s) :
    OutKeeps st0 (execSegmentComplete d i s) := by
  unfold execSegmentComplete
  with_reducible apply keeps_onDie
  · exact hk
  · intro s_1
    intro h
    split
    · rename_i x k tail e
      with_reducible apply keeps_whenB
      · exact h
      · intro s_2
        intro h_1
        with_reducible apply keeps_segComplete
        exact h_1
    · rename_i x e
      exact h

theorem keeps_leaveRing {s : State} (d i : Nat) (hk : Keeps st0 s) :
    Keeps st0 (leaveRing s d i) := by
  unfold leaveRing
  split
  · rename_i x t e
    with_reducible apply keeps_setStrRing
    exact hk
  · rename_i x e
    exact hk

theorem keeps_emptySpool {s : State} (d i : Nat) (hk : Keeps st0 s) :
    Keeps st0 (emptySpool s d i) := by
  unfold emptySpool
  extract_lets +onlyGivenNames x
  clear_value x
  extract_lets +onlyGivenNames n
  clear_value n
  with_reducible apply keeps_levelEvents
  with_reducible apply keeps_setStream
  with_reducible apply keeps_leaveRing
  exact hk

theorem keeps_eff_captureConfigureDef {s : State} {c : Cmd} {fid u : Nat} (hk : Keeps st0 s) :
    Keeps st0 ((captureConfigureDef).eff c fid u s).1 := by
  dsimp -zeta only [captureConfigureDef]
  extract_lets +onlyGivenNames d
  clear_value d
  extract_lets +onlyGivenNames i
  clear_value i
  extract_lets +onlyGivenNames x
  clear_value x
  extract_lets +onlyGivenNames n
  clear_value n
  extract_lets +onlyGivenNames discard
  clear_value discard
  refine keeps_ite1 (fun _ => ?_) (fun _ => ?_)
  · exact hk
  · refine keeps_ite1 (fun _ => ?_) (fun _ => ?_)
    · exact hk
    · refine keeps_ite1 (fun _ => ?_) (fun _ => ?_)
      · exact hk
      · extract_lets +onlyGivenNames s1
        have h_s1 : Keeps st0 s1 := by
          unfold s1
          with_reducible apply keeps_emptySpool
          exact hk
        clear_value s1
        extract_lets +onlyGivenNames y
        clear_value y
        refine keeps_mk1 ?_
        with_reducible apply keeps_setStream
        exact h_s1

theorem keeps_execCaptureConfigure {s : State} (c : Cmd) (hk : Keeps st0 s) :
    OutKeeps st0 (execCaptureConfigure c s) := by
  unfold execCaptureConfigure
  with_reducible apply keeps_startCmd
  · intro c_1
    intro fid
    intro u
    intro s_1
    intro h
    dsimp -zeta only [captureConfigureDef]
    extract_lets +onlyGivenNames d
    clear_value d
    extract_lets +onlyGivenNames i
    clear_value i
    extract_lets +onlyGivenNames x
    clear_value x
    extract_lets +onlyGivenNames n
    clear_value n
    extract_lets +onlyGivenNames discard
    clear_value discard
    refine keeps_ite1 (fun _ => ?_) (fun _ => ?_)
    · exact h
    · refine keeps_ite1 (fun _ => ?_) (fun _ => ?_)
      · exact h
      · refine keeps_ite1 (fun _ => ?_) (fun _ => ?_)
        · exact h
        · extract_lets +onlyGivenNames s1
          have h_s1 : Keeps st0 s1 := by
            unfold s1
            with_reducible apply keeps_emptySpool
            exact h
          clear_value s1
          extract_lets +onlyGivenNames y
          clear_value y
          refine keeps_mk1 ?_
          with_reducible apply keeps_setStream
          exact h_s1
  · exact hk

theorem keeps_eff_captureArmDef {s : State} {c : Cmd} {fid u : Nat} (hk : Keeps st0 s) :
    Keeps st0 ((captureArmDef).eff c fid u s).1 := by
  dsimp -zeta only [captureArmDef]
  extract_lets +onlyGivenNames d
  clear_value d
  extract_lets +onlyGivenNames i
  clear_value i
  extract_lets +onlyGivenNames x
  clear_value x
  extract_lets +onlyGivenNames m
  clear_value m
  refine keeps_ite1 (fun _ => ?_) (fun _ => ?_)
  · exact hk
  · refine keeps_ite1 (fun _ => ?_) (fun _ => ?_)
    · exact hk
    · refine keeps_ite1 (fun _ => ?_) (fun _ => ?_)
      · exact hk
      · refine keeps_ite1 (fun _ => ?_) (fun _ => ?_)
        · exact hk
        · refine keeps_ite1 (fun _ => ?_) (fun _ => ?_)
          · exact hk
          · extract_lets +onlyGivenNames g_src1 g
            clear_value g
            extract_lets +onlyGivenNames y
            clear_value y
            extract_lets +onlyGivenNames c_1
            clear_value c_1
            extract_lets +onlyGivenNames s1_src1 s1
            have h_s1 : Keeps st0 s1 := by
              unfold s1
              with_reducible apply keeps_setChain
              exact hk
            clear_value s1
            refine keeps_ite1 (fun _ => ?_) (fun _ => ?_)
            · refine keeps_mk1 ?_
              with_reducible apply keeps_setStream
              exact h_s1
            · refine keeps_mk1 ?_
              with_reducible apply keeps_setStream
              exact h_s1

theorem keeps_execCaptureArm {s : State} (c : Cmd) (hk : Keeps st0 s) :
    OutKeeps st0 (execCaptureArm c s) := by
  unfold execCaptureArm
  with_reducible apply keeps_startCmd
  · intro c_1
    intro fid
    intro u
    intro s_1
    intro h
    refine keeps_eff_captureArmDef ?_
    exact h
  · exact hk

theorem keeps_eff_captureDisarmDef {s : State} {c : Cmd} {fid u : Nat} (hk : Keeps st0 s) :
    Keeps st0 ((captureDisarmDef).eff c fid u s).1 := by
  dsimp -zeta only [captureDisarmDef]
  extract_lets +onlyGivenNames d
  clear_value d
  extract_lets +onlyGivenNames i
  clear_value i
  refine keeps_ite1 (fun _ => ?_) (fun _ => ?_)
  · exact hk
  · refine keeps_mk1 ?_
    with_reducible apply keeps_disarm
    exact hk

theorem keeps_execCaptureDisarm {s : State} (c : Cmd) (hk : Keeps st0 s) :
    OutKeeps st0 (execCaptureDisarm c s) := by
  unfold execCaptureDisarm
  with_reducible apply keeps_startCmd
  · intro c_1
    intro fid
    intro u
    intro s_1
    intro h
    dsimp -zeta only [captureDisarmDef]
    extract_lets +onlyGivenNames d
    clear_value d
    extract_lets +onlyGivenNames i
    clear_value i
    refine keeps_ite1 (fun _ => ?_) (fun _ => ?_)
    · exact h
    · refine keeps_mk1 ?_
      with_reducible apply keeps_disarm
      exact h
  · exact hk

theorem keeps_eff_rollStartDef {s : State} {c : Cmd} {fid u : Nat} (hk : Keeps st0 s) :
    Keeps st0 ((rollStartDef).eff c fid u s).1 := by
  dsimp -zeta only [rollStartDef]
  extract_lets +onlyGivenNames d
  clear_value d
  extract_lets +onlyGivenNames i
  clear_value i
  extract_lets +onlyGivenNames x
  clear_value x
  refine keeps_ite1 (fun _ => ?_) (fun _ => ?_)
  · exact hk
  · refine keeps_ite1 (fun _ => ?_) (fun _ => ?_)
    · exact hk
    · refine keeps_mk1 ?_
      with_reducible apply keeps_setStream
      exact hk

theorem keeps_execRollStart {s : State} (c : Cmd) (hk : Keeps st0 s) :
    OutKeeps st0 (execRollStart c s) := by
  unfold execRollStart
  with_reducible apply keeps_startCmd
  · intro c_1
    intro fid
    intro u
    intro s_1
    intro h
    dsimp -zeta only [rollStartDef]
    extract_lets +onlyGivenNames d
    clear_value d
    extract_lets +onlyGivenNames i
    clear_value i
    extract_lets +onlyGivenNames x
    clear_value x
    refine keeps_ite1 (fun _ => ?_) (fun _ => ?_)
    · exact h
    · refine keeps_ite1 (fun _ => ?_) (fun _ => ?_)
      · exact h
      · refine keeps_mk1 ?_
        with_reducible apply keeps_setStream
        exact h
  · exact hk

theorem keeps_rollStop {s : State} (d i reason : Nat) (fids : List Nat) (hk : Keeps st0 s) :
    Keeps st0 (rollStop s d i reason fids) := by
  unfold rollStop
  extract_lets +onlyGivenNames x
  clear_value x
  split
  · rename_i x_1 t e
    with_reducible apply keeps_setStream
    exact hk
  · rename_i x_1 e
    with_reducible apply keeps_setStream
    exact hk

theorem keeps_eff_rollStopDef {s : State} {c : Cmd} {fid u : Nat} (hk : Keeps st0 s) :
    Keeps st0 ((rollStopDef).eff c fid u s).1 := by
  dsimp -zeta only [rollStopDef]
  extract_lets +onlyGivenNames d
  clear_value d
  extract_lets +onlyGivenNames i
  clear_value i
  refine keeps_ite1 (fun _ => ?_) (fun _ => ?_)
  · exact hk
  · refine keeps_mk1 ?_
    with_reducible apply keeps_rollStop
    exact hk

theorem keeps_execRollStop {s : State} (c : Cmd) (hk : Keeps st0 s) :
    OutKeeps st0 (execRollStop c s) := by
  unfold execRollStop
  with_reducible apply keeps_startCmd
  · intro c_1
    intro fid
    intro u
    intro s_1
    intro h
    dsimp -zeta only [rollStopDef]
    extract_lets +onlyGivenNames d
    clear_value d
    extract_lets +onlyGivenNames i
    clear_value i
    refine keeps_ite1 (fun _ => ?_) (fun _ => ?_)
    · exact h
    · refine keeps_mk1 ?_
      with_reducible apply keeps_rollStop
      exact h
  · exact hk

theorem keeps_eff_spoolAllocateDef {s : State} {c : Cmd} {fid u : Nat} (hk : Keeps st0 s) :
    Keeps st0 ((spoolAllocateDef).eff c fid u s).1 := by
  dsimp -zeta only [spoolAllocateDef]
  extract_lets +onlyGivenNames d
  clear_value d
  extract_lets +onlyGivenNames i
  clear_value i
  extract_lets +onlyGivenNames x
  clear_value x
  extract_lets +onlyGivenNames n
  clear_value n
  extract_lets +onlyGivenNames size
  clear_value size
  refine keeps_ite1 (fun _ => ?_) (fun _ => ?_)
  · exact hk
  · refine keeps_ite1 (fun _ => ?_) (fun _ => ?_)
    · exact hk
    · extract_lets +onlyGivenNames s1
      have h_s1 : Keeps st0 s1 := by
        unfold s1
        with_reducible apply keeps_emptySpool
        with_reducible apply keeps_setPoolFree
        exact hk
      clear_value s1
      extract_lets +onlyGivenNames y
      clear_value y
      refine keeps_mk1 ?_
      with_reducible apply keeps_setStream
      exact h_s1

theorem keeps_execSpoolAllocate {s : State} (c : Cmd) (hk : Keeps st0 s) :
    OutKeeps st0 (execSpoolAllocate c s) := by
  unfold execSpoolAllocate
  with_reducible apply keeps_startCmd
  · intro c_1
    intro fid
    intro u
    intro s_1
    intro h
    dsimp -zeta only [spoolAllocateDef]
    extract_lets +onlyGivenNames d
    clear_value d
    extract_lets +onlyGivenNames i
    clear_value i
    extract_lets +onlyGivenNames x
    clear_value x
    extract_lets +onlyGivenNames n
    clear_value n
    extract_lets +onlyGivenNames size
    clear_value size
    refine keeps_ite1 (fun _ => ?_) (fun _ => ?_)
    · exact h
    · refine keeps_ite1 (fun _ => ?_) (fun _ => ?_)
      · exact h
      · extract_lets +onlyGivenNames s1
        have h_s1 : Keeps st0 s1 := by
          unfold s1
          with_reducible apply keeps_emptySpool
          with_reducible apply keeps_setPoolFree
          exact h
        clear_value s1
        extract_lets +onlyGivenNames y
        clear_value y
        refine keeps_mk1 ?_
        with_reducible apply keeps_setStream
        exact h_s1
  · exact hk

theorem keeps_eff_streamBindDef {s : State} {c : Cmd} {fid u : Nat} (hk : Keeps st0 s) :
    Keeps st0 ((streamBindDef).eff c fid u s).1 := by
  dsimp -zeta only [streamBindDef]
  extract_lets +onlyGivenNames d
  clear_value d
  extract_lets +onlyGivenNames i
  clear_value i
  extract_lets +onlyGivenNames x
  clear_value x
  extract_lets +onlyGivenNames r
  clear_value r
  refine keeps_ite1 (fun _ => ?_) (fun _ => ?_)
  · exact hk
  · refine keeps_mk1 ?_
    with_reducible apply keeps_setStream
    exact hk

theorem keeps_execStreamBind {s : State} (c : Cmd) (hk : Keeps st0 s) :
    OutKeeps st0 (execStreamBind c s) := by
  unfold execStreamBind
  with_reducible apply keeps_startCmd
  · intro c_1
    intro fid
    intro u
    intro s_1
    intro h
    dsimp -zeta only [streamBindDef]
    extract_lets +onlyGivenNames d
    clear_value d
    extract_lets +onlyGivenNames i
    clear_value i
    extract_lets +onlyGivenNames x
    clear_value x
    extract_lets +onlyGivenNames r
    clear_value r
    refine keeps_ite1 (fun _ => ?_) (fun _ => ?_)
    · exact h
    · refine keeps_mk1 ?_
      with_reducible apply keeps_setStream
      exact h
  · exact hk

theorem keeps_eff_streamUnbindDef {s : State} {c : Cmd} {fid u : Nat} (hk : Keeps st0 s) :
    Keeps st0 ((streamUnbindDef).eff c fid u s).1 := by
  dsimp -zeta only [streamUnbindDef]
  extract_lets +onlyGivenNames d
  clear_value d
  extract_lets +onlyGivenNames i
  clear_value i
  split
  · rename_i x e
    exact hk
  · rename_i x k e
    extract_lets +onlyGivenNames s1
    have h_s1 : Keeps st0 s1 := by
      unfold s1
      refine keeps_ite (fun _ => ?_) (fun _ => ?_)
      · with_reducible apply keeps_closeBuf
        exact hk
      · with_reducible apply keeps_leaveRing
        exact hk
    clear_value s1
    refine keeps_mk1 ?_
    with_reducible apply keeps_setStream
    exact h_s1

theorem keeps_execStreamUnbind {s : State} (c : Cmd) (hk : Keeps st0 s) :
    OutKeeps st0 (execStreamUnbind c s) := by
  unfold execStreamUnbind
  with_reducible apply keeps_startCmd
  · intro c_1
    intro fid
    intro u
    intro s_1
    intro h
    refine keeps_eff_streamUnbindDef ?_
    exact h
  · exact hk

theorem keeps_eff_blockResendDef {s : State} {c : Cmd} {fid u : Nat} (hk : Keeps st0 s) :
    Keeps st0 ((blockResendDef).eff c fid u s).1 := by
  dsimp -zeta only [blockResendDef]
  extract_lets +onlyGivenNames d
  clear_value d
  extract_lets +onlyGivenNames i
  clear_value i
  extract_lets +onlyGivenNames x
  clear_value x
  refine keeps_ite1 (fun _ => ?_) (fun _ => ?_)
  · exact hk
  · refine keeps_ite1 (fun _ => ?_) (fun _ => ?_)
    · exact hk
    · split
      · rename_i e e_1 x_1 e_2
        exact hk
      · rename_i e e_1 x_1 l e_2
        extract_lets +onlyGivenNames s1
        have h_s1 : Keeps st0 s1 := by
          unfold s1
          with_reducible apply keeps_setStream
          exact hk
        clear_value s1
        refine keeps_mk1 ?_
        refine keeps_foldl ?_ ?_
        · intro s_1
          intro x_2
          intro h
          with_reducible apply keeps_addMark
          exact h
        · exact h_s1

theorem keeps_execBlockResend {s : State} (c : Cmd) (hk : Keeps st0 s) :
    OutKeeps st0 (execBlockResend c s) := by
  unfold execBlockResend
  with_reducible apply keeps_startCmd
  · intro c_1
    intro fid
    intro u
    intro s_1
    intro h
    dsimp -zeta only [blockResendDef]
    extract_lets +onlyGivenNames d
    clear_value d
    extract_lets +onlyGivenNames i
    clear_value i
    extract_lets +onlyGivenNames x
    clear_value x
    refine keeps_ite1 (fun _ => ?_) (fun _ => ?_)
    · exact h
    · refine keeps_ite1 (fun _ => ?_) (fun _ => ?_)
      · exact h
      · split
        · rename_i e e_1 x_1 e_2
          exact h
        · rename_i e e_1 x_1 l e_2
          extract_lets +onlyGivenNames s1
          have h_s1 : Keeps st0 s1 := by
            unfold s1
            with_reducible apply keeps_setStream
            exact h
          clear_value s1
          refine keeps_mk1 ?_
          refine keeps_foldl ?_ ?_
          · intro s_2
            intro x_2
            intro h_1
            with_reducible apply keeps_addMark
            exact h_1
          · exact h_s1
  · exact hk

theorem keeps_eff_markInsertDef {s : State} {c : Cmd} {fid u : Nat} (hk : Keeps st0 s) :
    Keeps st0 ((markInsertDef).eff c fid u s).1 := by
  dsimp -zeta only [markInsertDef]
  extract_lets +onlyGivenNames d
  clear_value d
  extract_lets +onlyGivenNames i
  clear_value i
  refine keeps_ite1 (fun _ => ?_) (fun _ => ?_)
  · exact hk
  · refine keeps_mk1 ?_
    with_reducible apply keeps_addMark
    exact hk

theorem keeps_execMarkInsert {s : State} (c : Cmd) (hk : Keeps st0 s) :
    OutKeeps st0 (execMarkInsert c s) := by
  unfold execMarkInsert
  with_reducible apply keeps_startCmd
  · intro c_1
    intro fid
    intro u
    intro s_1
    intro h
    dsimp -zeta only [markInsertDef]
    extract_lets +onlyGivenNames d
    clear_value d
    extract_lets +onlyGivenNames i
    clear_value i
    refine keeps_ite1 (fun _ => ?_) (fun _ => ?_)
    · exact h
    · refine keeps_mk1 ?_
      with_reducible apply keeps_addMark
      exact h
  · exact hk

theorem keeps_eff_rateLimitSetDef {s : State} {c : Cmd} {fid u : Nat} (hk : Keeps st0 s) :
    Keeps st0 ((rateLimitSetDef).eff c fid u s).1 := by
  dsimp -zeta only [rateLimitSetDef]
  extract_lets +onlyGivenNames x
  clear_value x
  extract_lets +onlyGivenNames burst
  clear_value burst
  refine keeps_mk1 ?_
  with_reducible apply keeps_setStream
  exact hk

theorem keeps_execRateLimitSet {s : State} (c : Cmd) (hk : Keeps st0 s) :
    OutKeeps st0 (execRateLimitSet c s) := by
  unfold execRateLimitSet
  with_reducible apply keeps_startCmd
  · intro c_1
    intro fid
    intro u
    intro s_1
    intro h
    dsimp -zeta only [rateLimitSetDef]
    extract_lets +onlyGivenNames x
    clear_value x
    extract_lets +onlyGivenNames burst
    clear_value burst
    refine keeps_mk1 ?_
    with_reducible apply keeps_setStream
    exact h
  · exact hk

theorem keeps_writeEnvs {s : State} (p a : Nat) (l : List Env) (hk : Keeps st0 s) : Keeps st0 (writeEnvs s p a l) := by
  induction l generalizing s a with
  | nil => exact hk
  | cons x r ih =>
    unfold writeEnvs
    exact ih _ (keeps_hostWrite _ _ _ hk)

theorem keeps_eff_recordReadDef {s : State} {c : Cmd} {fid u : Nat} (hk : Keeps st0 s) :
    Keeps st0 ((recordReadDef).eff c fid u s).1 := by
  dsimp -zeta only [recordReadDef]
  extract_lets +onlyGivenNames d
  clear_value d
  extract_lets +onlyGivenNames i
  clear_value i
  extract_lets +onlyGivenNames x
  clear_value x
  refine keeps_ite1 (fun _ => ?_) (fun _ => ?_)
  · exact hk
  · split
    · rename_i e x_1 e_1
      exact hk
    · rename_i e x_1 k e_1
      extract_lets +onlyGivenNames mine
      refine keeps_ite1 (fun _ => ?_) (fun _ => ?_)
      · exact hk
      · extract_lets +onlyGivenNames s1
        have h_s1 : Keeps st0 s1 := by
          unfold s1
          with_reducible apply keeps_writeEnvs
          exact hk
        clear_value s1
        extract_lets +onlyGivenNames y
        clear_value y
        extract_lets +onlyGivenNames s2
        have h_s2 : Keeps st0 s2 := by
          unfold s2
          refine keeps_ite (fun _ => ?_) (fun _ => ?_)
          · with_reducible apply keeps_levelEvents
            with_reducible apply keeps_setSpool
            exact h_s1
          · exact h_s1
        clear_value s2
        exact h_s2

theorem keeps_execRecordRead {s : State} (c : Cmd) (hk : Keeps st0 s) :
    OutKeeps st0 (execRecordRead c s) := by
  unfold execRecordRead
  with_reducible apply keeps_startCmd
  · intro c_1
    intro fid
    intro u
    intro s_1
    intro h
    refine keeps_eff_recordReadDef ?_
    exact h
  · exact hk

end Sys2Proof.Machine
end

