-- ==== Sys2Proof/Laws/KeepsEngPort.lean ====
section
/-!
SUPPORT. What keeps the part, the time, the queue and the canonical form of memory (`Keeps`): Machine/EngPort.
-/

namespace Sys2Proof.Machine

variable {st0 : State}

theorem keeps_setEng {s : State} (d e : Nat) (x : Engine) (hk : Keeps st0 s) :
    Keeps st0 (setEng s d e x) := by
  unfold setEng
  refine keeps_upd ?_ ..
  exact hk

theorem keeps_setXfer {s : State} (d c : Nat) (x : Xfer) (hk : Keeps st0 s) :
    Keeps st0 (setXfer s d c x) := by
  unfold setXfer
  refine keeps_upd ?_ ..
  exact hk

theorem keeps_resumeWork {s : State} (d n : Nat) (hk : Keeps st0 s) :
    Keeps st0 (resumeWork s d n) := by
  unfold resumeWork
  extract_lets +onlyGivenNames s1
  have h_s1 : Keeps st0 s1 := by
    unfold s1
    refine keeps_foldl ?_ ?_
    · intro s_1
      intro x
      intro h
      extract_lets +onlyGivenNames x_1
      clear_value x_1
      refine keeps_ite (fun _ => ?_) (fun _ => ?_)
      · with_reducible apply keeps_setEng
        exact h
      · exact h
    · exact hk
  clear_value s1
  refine keeps_foldl ?_ ?_
  · intro s_1
    intro x
    intro h
    extract_lets +onlyGivenNames x_1
    clear_value x_1
    refine keeps_ite (fun _ => ?_) (fun _ => ?_)
    · with_reducible apply keeps_setXfer
      exact h
    · refine keeps_ite (fun _ => ?_) (fun _ => ?_)
      · with_reducible apply keeps_setXfer
        exact h
      · exact h
  · exact h_s1

theorem keeps_offerSpectrum {s : State} (d c : Nat) (ws : List SpecWord) (hk : Keeps st0 s) :
    Keeps st0 (offerSpectrum s d c ws).2 := by
  unfold offerSpectrum
  split
  · rename_i x e
    exact hk
  · rename_i x e p e_1
    extract_lets +onlyGivenNames x_1
    clear_value x_1
    extract_lets +onlyGivenNames q
    clear_value q
    refine keeps_ite2 (fun _ => ?_) (fun _ => ?_)
    · exact hk
    · refine keeps_mk2 ?_
      with_reducible apply keeps_setEng
      exact hk

theorem keeps_evqPush {s : State} (d e id : Nat) (t : Stamp) (hk : Keeps st0 s) :
    Keeps st0 (evqPush s d e id t) := by
  unfold evqPush
  extract_lets +onlyGivenNames x
  clear_value x
  refine keeps_ite (fun _ => ?_) (fun _ => ?_)
  · exact hk
  · refine keeps_ite (fun _ => ?_) (fun _ => ?_)
    · with_reducible apply keeps_incF
      with_reducible apply keeps_setEng
      exact hk
    · with_reducible apply keeps_setEng
      exact hk

theorem keeps_evqPushAll {s : State} (d id : Nat) (t : Stamp) (hk : Keeps st0 s) :
    Keeps st0 (evqPushAll s d id t) := by
  unfold evqPushAll
  refine keeps_foldl ?_ ?_
  · intro s_1
    intro x
    intro h
    with_reducible apply keeps_evqPush
    exact h
  · exact hk

theorem keeps_chanSignal {s : State} (d c : Nat) (hk : Keeps st0 s) :
    Keeps st0 (chanSignal s d c) := by
  unfold chanSignal
  refine keeps_foldl ?_ ?_
  · intro s_1
    intro x
    intro h
    extract_lets +onlyGivenNames x_1
    clear_value x_1
    refine keeps_ite (fun _ => ?_) (fun _ => ?_)
    · with_reducible apply keeps_setEng
      exact h
    · exact h
  · exact hk

end Sys2Proof.Machine
end

