-- ==== Sys2Proof/Laws/KeepsClock.lean ====
section
/-!
SUPPORT. What keeps the part, the time, the queue and the canonical form of memory (`Keeps`): Machine/Clock.
-/

namespace Sys2Proof.Machine

variable {st0 : State}

theorem keeps_loadTime {s : State} (d t : Nat) (hk : Keeps st0 s) :
    Keeps st0 (loadTime s d t) := by
  unfold loadTime
  with_reducible apply keeps_setDieClk
  exact hk

theorem keeps_stepTdc {s : State} (d : Nat) (ticks : Int) (hk : Keeps st0 s) :
    Keeps st0 (stepTdc s d ticks) := by
  unfold stepTdc
  extract_lets +onlyGivenNames t
  clear_value t
  split
  · rename_i x e
    exact hk
  · rename_i x a e
    extract_lets +onlyGivenNames moved
    clear_value moved
    with_reducible apply keeps_setTdc
    exact hk

theorem keeps_stepDie {s : State} (d : Nat) (ticks fineStep : Int) (cause : Nat) (hk : Keeps st0 s) :
    Keeps st0 (stepDie s d ticks fineStep cause) := by
  unfold stepDie
  with_reducible apply keeps_stepMarks
  with_reducible apply keeps_stepTdc
  with_reducible apply keeps_loadTime
  exact hk

theorem keeps_stepCands {s : State} (ds : List Nat) (step : Nat → Int) (hk : Keeps st0 s) :
    Keeps st0 (stepCands s ds step) := by
  unfold stepCands
  extract_lets +onlyGivenNames add
  clear_value add
  refine keeps_upd ?_ ..
  exact hk

theorem keeps_stepAll {s : State} (ticks : Nat → Int) (rest : Int) (cause : Nat) (hk : Keeps st0 s) :
    Keeps st0 (stepAll s ticks rest cause) := by
  unfold stepAll
  extract_lets +onlyGivenNames step
  clear_value step
  extract_lets +onlyGivenNames ds
  clear_value ds
  extract_lets +onlyGivenNames s1
  have h_s1 : Keeps st0 s1 := by
    unfold s1
    with_reducible apply keeps_stepCands
    refine keeps_foldl ?_ ?_
    · intro s_1
      intro x
      intro h
      with_reducible apply keeps_stepDie
      exact h
    · exact hk
  clear_value s1
  extract_lets +onlyGivenNames add
  clear_value add
  refine keeps_upd ?_ ..
  exact h_s1

theorem keeps_tdcEnd {s : State} (d flags time : Nat) (hk : Keeps st0 s) :
    Keeps st0 (tdcEnd s d flags time) := by
  unfold tdcEnd
  extract_lets +onlyGivenNames t
  clear_value t
  split
  · rename_i x e
    exact hk
  · rename_i x a e
    extract_lets +onlyGivenNames hits
    clear_value hits
    with_reducible apply keeps_post
    with_reducible apply keeps_setTdc
    exact hk

theorem keeps_tdcHit {s : State} (d n : Nat) (r0 : RawStamp) (hk : Keeps st0 s) :
    Keeps st0 (tdcHit s d n r0) := by
  unfold tdcHit
  extract_lets +onlyGivenNames t
  clear_value t
  split
  · rename_i x e
    exact hk
  · rename_i x a e
    split
    · rename_i x_1 e_1
      refine keeps_ite (fun _ => ?_) (fun _ => ?_)
      · with_reducible apply keeps_setTdc
        exact hk
      · exact hk
    · rename_i x_1 st e_1
      extract_lets +onlyGivenNames r
      clear_value r
      refine keeps_ite (fun _ => ?_) (fun _ => ?_)
      · exact hk
      · refine keeps_ite (fun _ => ?_) (fun _ => ?_)
        · exact hk
        · extract_lets +onlyGivenNames a1
          clear_value a1
          extract_lets +onlyGivenNames s1
          have h_s1 : Keeps st0 s1 := by
            unfold s1
            with_reducible apply keeps_setTdc
            exact hk
          clear_value s1
          refine keeps_ite (fun _ => ?_) (fun _ => ?_)
          · with_reducible apply keeps_tdcEnd
            exact h_s1
          · exact h_s1

theorem keeps_tdcStart {s : State} (d : Nat) (r : RawStamp) (hk : Keeps st0 s) :
    Keeps st0 (tdcStart s d r) := by
  unfold tdcStart
  extract_lets +onlyGivenNames t
  clear_value t
  split
  · rename_i x a e
    refine keeps_ite (fun _ => ?_) (fun _ => ?_)
    · exact hk
    · extract_lets +onlyGivenNames s1
      have h_s1 : Keeps st0 s1 := by
        unfold s1
        with_reducible apply keeps_setTdc
        exact hk
      clear_value s1
      refine keeps_foldl ?_ ?_
      · intro s_1
        intro x_1
        intro h
        with_reducible apply keeps_tdcHit
        exact h
      · exact h_s1
  · rename_i x e
    exact hk

theorem keeps_tdcShutter {s : State} (d id : Nat) (t : Stamp) (hk : Keeps st0 s) :
    Keeps st0 (tdcShutter s d id t) := by
  unfold tdcShutter
  split
  · rename_i x e
    exact hk
  · rename_i x a e
    extract_lets +onlyGivenNames r
    clear_value r
    extract_lets +onlyGivenNames s1
    have h_s1 : Keeps st0 s1 := by
      unfold s1
      refine keeps_ite (fun _ => ?_) (fun _ => ?_)
      · with_reducible apply keeps_tdcStart
        exact hk
      · exact hk
    clear_value s1
    refine keeps_foldl ?_ ?_
    · intro s_1
      intro x_1
      intro h
      with_reducible apply keeps_tdcHit
      exact h
    · exact h_s1

theorem keeps_execTdcStartEdge {s : State} (d src arg cap tap : Nat) (hk : Keeps st0 s) :
    OutKeeps st0 (execTdcStartEdge d src arg cap tap s) := by
  unfold execTdcStartEdge
  with_reducible apply keeps_onDie
  · exact hk
  · intro s_1
    intro h
    split
    · rename_i x a e
      with_reducible apply keeps_whenB
      · exact h
      · intro s_2
        intro h_1
        with_reducible apply keeps_tdcStart
        exact h_1
    · rename_i x e
      exact h

theorem keeps_execTdcStopEdge {s : State} (d n cap tap : Nat) (hk : Keeps st0 s) :
    OutKeeps st0 (execTdcStopEdge d n cap tap s) := by
  unfold execTdcStopEdge
  with_reducible apply keeps_onDie
  · exact hk
  · intro s_1
    intro h
    split
    · rename_i x a e
      extract_lets +onlyGivenNames src
      clear_value src
      with_reducible apply keeps_whenB
      · exact h
      · intro s_2
        intro h_1
        with_reducible apply keeps_tdcHit
        exact h_1
    · rename_i x e
      exact h

theorem keeps_execTdcWindowClose {s : State} (d : Nat) (hk : Keeps st0 s) :
    OutKeeps st0 (execTdcWindowClose d s) := by
  unfold execTdcWindowClose
  with_reducible apply keeps_onDie
  · exact hk
  · intro s_1
    intro h
    extract_lets +onlyGivenNames t
    clear_value t
    split
    · rename_i x a e
      extract_lets +onlyGivenNames wait
      clear_value wait
      split
      · rename_i x_1 st e_1
        with_reducible apply keeps_whenB
        · exact h
        · intro s_2
          intro h_1
          with_reducible apply keeps_tdcEnd
          exact h_1
      · rename_i x_1 e_1
        exact h
    · rename_i x e
      exact h

theorem keeps_dllLoss {s : State} (d : Nat) (hk : Keeps st0 s) :
    Keeps st0 (dllLoss s d) := by
  unfold dllLoss
  with_reducible apply keeps_tdcEnd
  with_reducible apply keeps_setTdc
  exact hk

theorem keeps_execDllLock {s : State} (d : Nat) (inl : List Byte) (hk : Keeps st0 s) :
    OutKeeps st0 (execDllLock d inl s) := by
  unfold execDllLock
  with_reducible apply keeps_onDie
  · exact hk
  · intro s_1
    intro h
    with_reducible apply keeps_whenB
    · exact h
    · intro s_2
      intro h_1
      with_reducible apply keeps_setTdc
      exact h_1

theorem keeps_execDllLockLoss {s : State} (d : Nat) (hk : Keeps st0 s) :
    OutKeeps st0 (execDllLockLoss d s) := by
  unfold execDllLockLoss
  with_reducible apply keeps_onDie
  · exact hk
  · intro s_1
    intro h
    with_reducible apply keeps_whenB
    · exact h
    · intro s_2
      intro h_1
      with_reducible apply keeps_dllLoss
      exact h_1

theorem keeps_issueStrobe {s : State} (src : Nat) (groups : W32) (ph : Nat) (hk : Keeps st0 s) :
    Keeps st0 (issueStrobe s src groups ph) := by
  unfold issueStrobe
  extract_lets +onlyGivenNames hold
  clear_value hold
  refine keeps_ite (fun _ => ?_) (fun _ => ?_)
  · exact hk
  · refine keeps_upd ?_ ..
    exact hk

theorem keeps_releaseStrobes {s : State}  (hk : Keeps st0 s) :
    Keeps st0 (releaseStrobes s) := by
  unfold releaseStrobes
  refine keeps_upd ?_ ..
  exact hk

theorem keeps_dropFlight' {s : State} (d i : Nat) (hk : Keeps st0 s) :
    Keeps st0 (dropFlight' s d i) := by
  unfold dropFlight'
  extract_lets +onlyGivenNames x
  clear_value x
  extract_lets +onlyGivenNames ws
  clear_value ws
  extract_lets +onlyGivenNames mine
  clear_value mine
  extract_lets +onlyGivenNames x1
  clear_value x1
  split
  · rename_i mine
    with_reducible apply keeps_setStream
    exact hk
  · rename_i mine e tail
    with_reducible apply keeps_setStream
    exact hk

theorem keeps_chainLost {s : State} (d c : Nat) (missing : Stamp) (clock : Bool) (hk : Keeps st0 s) :
    Keeps st0 (chainLost s d c missing clock) := by
  unfold chainLost
  extract_lets +onlyGivenNames x
  clear_value x
  refine keeps_ite (fun _ => ?_) (fun _ => ?_)
  · with_reducible apply keeps_setChain
    exact hk
  · exact hk

theorem keeps_loseCands {s : State} (d : Nat) (hk : Keeps st0 s) :
    Keeps st0 (loseCands s d) := by
  unfold loseCands
  extract_lets +onlyGivenNames gone
  clear_value gone
  extract_lets +onlyGivenNames s1
  have h_s1 : Keeps st0 s1 := by
    unfold s1
    refine keeps_foldl ?_ ?_
    · intro s_1
      intro x
      intro h
      with_reducible apply keeps_candStops
      exact h
    · exact hk
  clear_value s1
  refine keeps_upd ?_ ..
  exact h_s1

theorem keeps_fpllLoss {s : State} (d : Nat) (hk : Keeps st0 s) :
    Keeps st0 (fpllLoss s d) := by
  unfold fpllLoss
  extract_lets +onlyGivenNames p
  clear_value p
  extract_lets +onlyGivenNames t
  clear_value t
  extract_lets +onlyGivenNames s1
  have h_s1 : Keeps st0 s1 := by
    unfold s1
    refine keeps_foldl ?_ ?_
    · intro s_1
      intro x
      intro h
      refine keeps_ite (fun _ => ?_) (fun _ => ?_)
      · with_reducible apply keeps_toAcquire
        exact h
      · exact h
    · exact hk
  clear_value s1
  extract_lets +onlyGivenNames s2
  have h_s2 : Keeps st0 s2 := by
    unfold s2
    with_reducible apply keeps_eachStream
    · intro i
      intro s_1
      intro h
      with_reducible apply keeps_dropFlight'
      exact h
    · exact h_s1
  clear_value s2
  extract_lets +onlyGivenNames s3
  have h_s3 : Keeps st0 s3 := by
    unfold s3
    with_reducible apply keeps_chainLost
    with_reducible apply keeps_chainLost
    exact h_s2
  clear_value s3
  extract_lets +onlyGivenNames s4
  have h_s4 : Keeps st0 s4 := by
    unfold s4
    with_reducible apply keeps_dllLoss
    with_reducible apply keeps_incF
    with_reducible apply keeps_setPll
    exact h_s3
  clear_value s4
  extract_lets +onlyGivenNames s5_src1 s5
  have h_s5 : Keeps st0 s5 := by
    unfold s5
    with_reducible apply keeps_setDieClk
    exact h_s4
  clear_value s5
  extract_lets +onlyGivenNames s6
  have h_s6 : Keeps st0 s6 := by
    unfold s6
    with_reducible apply keeps_loseCands
    exact h_s5
  clear_value s6
  refine keeps_ite (fun _ => ?_) (fun _ => ?_)
  · exact h_s6
  · extract_lets +onlyGivenNames r
    clear_value r
    refine keeps_upd ?_ ..
    exact h_s6

theorem keeps_heldTimers {s : State} (unaligned : Bool) (at_ : Nat) (hk : Keeps st0 s) :
    Keeps st0 (heldTimers s unaligned at_) := by
  unfold heldTimers
  refine keeps_upd ?_ ..
  exact hk

theorem keeps_wakeSeq {s : State} (n : Nat) (hk : Keeps st0 s) :
    Keeps st0 (wakeSeq s n) := by
  unfold wakeSeq
  refine keeps_upd ?_ ..
  exact hk

theorem keeps_lossEvent {s : State} (d : Nat) (unaligned : Bool) (step : Int) (hk : Keeps st0 s) :
    Keeps st0 (lossEvent s d unaligned step) := by
  unfold lossEvent
  with_reducible apply keeps_post
  exact hk

theorem keeps_recoverDie {s : State} (d : Nat) (hk : Keeps st0 s) :
    Keeps st0 (recoverDie s d) := by
  unfold recoverDie
  extract_lets +onlyGivenNames old
  clear_value old
  extract_lets +onlyGivenNames t
  clear_value t
  extract_lets +onlyGivenNames step
  clear_value step
  extract_lets +onlyGivenNames s1
  have h_s1 : Keeps st0 s1 := by
    unfold s1
    with_reducible apply keeps_resumeWork
    with_reducible apply keeps_eachStream
    · intro i
      intro s_1
      intro h
      with_reducible apply keeps_putGap
      exact h
    · exact hk
  clear_value s1
  extract_lets +onlyGivenNames s2_src1 s2
  have h_s2 : Keeps st0 s2 := by
    unfold s2
    with_reducible apply keeps_setDieClk
    with_reducible apply keeps_loadTime
    exact h_s1
  clear_value s2
  extract_lets +onlyGivenNames s3
  have h_s3 : Keeps st0 s3 := by
    unfold s3
    with_reducible apply keeps_stepMarks
    exact h_s2
  clear_value s3
  extract_lets +onlyGivenNames s4
  have h_s4 : Keeps st0 s4 := by
    unfold s4
    with_reducible apply keeps_lossEvent
    exact h_s3
  clear_value s4
  refine keeps_ite (fun _ => ?_) (fun _ => ?_)
  · exact h_s4
  · extract_lets +onlyGivenNames r
    clear_value r
    with_reducible apply keeps_releaseStrobes
    with_reducible apply keeps_heldTimers
    refine keeps_upd ?_ ..
    exact h_s4

theorem keeps_startTime {s : State} (d : Nat) (hk : Keeps st0 s) :
    Keeps st0 (startTime s d) := by
  unfold startTime
  extract_lets +onlyGivenNames c
  clear_value c
  refine keeps_ite (fun _ => ?_) (fun _ => ?_)
  · exact hk
  · extract_lets +onlyGivenNames s1
    have h_s1 : Keeps st0 s1 := by
      unfold s1
      with_reducible apply keeps_loadTime
      exact hk
    clear_value s1
    with_reducible apply keeps_setDieClk
    exact h_s1

theorem keeps_execPllLock {s : State} (d k band : Nat) (hk : Keeps st0 s) :
    OutKeeps st0 (execPllLock d k band s) := by
  unfold execPllLock
  with_reducible apply keeps_onDie
  · exact hk
  · intro s_1
    intro h
    extract_lets +onlyGivenNames p
    clear_value p
    extract_lets +onlyGivenNames st
    clear_value st
    with_reducible apply keeps_whenB
    · exact h
    · intro s_2
      intro h_1
      extract_lets +onlyGivenNames s1
      have h_s1 : Keeps st0 s1 := by
        unfold s1
        with_reducible apply keeps_setPll
        exact h_1
      clear_value s1
      extract_lets +onlyGivenNames s2_src1 s2_src2 s2
      have h_s2 : Keeps st0 s2 := by
        unfold s2
        refine keeps_ite (fun _ => ?_) (fun _ => ?_)
        · refine keeps_ite (fun _ => ?_) (fun _ => ?_)
          · with_reducible apply keeps_recoverDie
            exact h_s1
          · with_reducible apply keeps_startTime
            exact h_s1
        · refine keeps_ite (fun _ => ?_) (fun _ => ?_)
          · with_reducible apply keeps_setDieClk
            exact h_s1
          · refine keeps_ite (fun _ => ?_) (fun _ => ?_)
            · with_reducible apply keeps_setPort
              exact h_s1
            · exact h_s1
      clear_value s2
      refine keeps_ite (fun _ => ?_) (fun _ => ?_)
      · with_reducible apply keeps_post
        exact h_s2
      · exact h_s2

theorem keeps_execHbmRetrainingDone {s : State} (d : Nat) (hk : Keeps st0 s) :
    OutKeeps st0 (execHbmRetrainingDone d s) := by
  unfold execHbmRetrainingDone
  with_reducible apply keeps_onDie
  · exact hk
  · intro s_1
    intro h
    extract_lets +onlyGivenNames c
    clear_value c
    with_reducible apply keeps_whenB
    · exact h
    · intro s_2
      intro h_1
      with_reducible apply keeps_eachStream
      · intro i
        intro s_3
        intro h_2
        with_reducible apply keeps_putGap
        exact h_2
      · with_reducible apply keeps_setDieClk
        exact h_1

theorem keeps_execPllStepReached {s : State} (d k : Nat) (hk : Keeps st0 s) :
    OutKeeps st0 (execPllStepReached d k s) := by
  unfold execPllStepReached
  with_reducible apply keeps_onDie
  · exact hk
  · intro s_1
    intro h
    extract_lets +onlyGivenNames p
    clear_value p
    split
    · rename_i x r e
      with_reducible apply keeps_whenB
      · exact h
      · intro s_2
        intro h_1
        with_reducible apply keeps_unitDone
        with_reducible apply keeps_setPll
        exact h_1
    · rename_i x e
      exact h

theorem keeps_execAlignCheck {s : State} (d : Nat) (hk : Keeps st0 s) :
    OutKeeps st0 (execAlignCheck d s) := by
  unfold execAlignCheck
  with_reducible apply keeps_onDie
  · exact hk
  · intro s_1
    intro h
    extract_lets +onlyGivenNames old
    clear_value old
    extract_lets +onlyGivenNames t
    clear_value t
    with_reducible apply keeps_whenB
    · exact h
    · intro s_2
      intro h_1
      extract_lets +onlyGivenNames step
      clear_value step
      extract_lets +onlyGivenNames s1
      have h_s1 : Keeps st0 s1 := by
        unfold s1
        with_reducible apply keeps_stepCands
        with_reducible apply keeps_stepDie
        exact h_1
      clear_value s1
      with_reducible apply keeps_post
      exact h_s1

theorem keeps_execHkclkTrim {s : State} (d : Nat) (err : Int) (code : Nat) (hk : Keeps st0 s) :
    OutKeeps st0 (execHkclkTrim d err code s) := by
  unfold execHkclkTrim
  with_reducible apply keeps_onDie
  · exact hk
  · intro s_1
    intro h
    with_reducible apply keeps_whenB
    · exact h
    · intro s_2
      intro h_1
      with_reducible apply keeps_setDieClk
      exact h_1

theorem keeps_setRefOut {s : State} (r : RefOut) (hk : Keeps st0 s) :
    Keeps st0 (setRefOut s r) := by
  unfold setRefOut
  refine keeps_upd ?_ ..
  exact hk

theorem keeps_execRefoutFirstEdge {s : State}  (hk : Keeps st0 s) :
    OutKeeps st0 (execRefoutFirstEdge s) := by
  unfold execRefoutFirstEdge
  refine outKeeps_next ?_
  extract_lets +onlyGivenNames r
  clear_value r
  with_reducible apply keeps_whenB
  · exact hk
  · intro s_1
    intro h
    with_reducible apply keeps_unitsDone
    with_reducible apply keeps_setRefOut
    exact h

theorem keeps_execRefoutPeriodEnd {s : State}  (hk : Keeps st0 s) :
    OutKeeps st0 (execRefoutPeriodEnd s) := by
  unfold execRefoutPeriodEnd
  refine outKeeps_next ?_
  extract_lets +onlyGivenNames r
  clear_value r
  with_reducible apply keeps_whenB
  · exact hk
  · intro s_1
    intro h
    with_reducible apply keeps_unitsDone
    with_reducible apply keeps_setRefOut
    exact h

theorem keeps_eff_refoutStartDef {s : State} {c : Cmd} {fid u : Nat} (hk : Keeps st0 s) :
    Keeps st0 ((refoutStartDef).eff c fid u s).1 := by
  dsimp -zeta only [refoutStartDef]
  extract_lets +onlyGivenNames r
  clear_value r
  refine keeps_ite1 (fun _ => ?_) (fun _ => ?_)
  · exact hk
  · refine keeps_ite1 (fun _ => ?_) (fun _ => ?_)
    · exact hk
    · refine keeps_mk1 ?_
      with_reducible apply keeps_setRefOut
      exact hk

theorem keeps_execRefoutStart {s : State} (c : Cmd) (hk : Keeps st0 s) :
    OutKeeps st0 (execRefoutStart c s) := by
  unfold execRefoutStart
  with_reducible apply keeps_startCmd
  · intro c_1
    intro fid
    intro u
    intro s_1
    intro h
    dsimp -zeta only [refoutStartDef]
    extract_lets +onlyGivenNames r
    clear_value r
    refine keeps_ite1 (fun _ => ?_) (fun _ => ?_)
    · exact h
    · refine keeps_ite1 (fun _ => ?_) (fun _ => ?_)
      · exact h
      · refine keeps_mk1 ?_
        with_reducible apply keeps_setRefOut
        exact h
  · exact hk

theorem keeps_eff_refoutStopDef {s : State} {c : Cmd} {fid u : Nat} (hk : Keeps st0 s) :
    Keeps st0 ((refoutStopDef).eff c fid u s).1 := by
  dsimp -zeta only [refoutStopDef]
  extract_lets +onlyGivenNames r
  clear_value r
  refine keeps_ite1 (fun _ => ?_) (fun _ => ?_)
  · exact hk
  · refine keeps_mk1 ?_
    with_reducible apply keeps_setRefOut
    exact hk

theorem keeps_execRefoutStop {s : State} (c : Cmd) (hk : Keeps st0 s) :
    OutKeeps st0 (execRefoutStop c s) := by
  unfold execRefoutStop
  with_reducible apply keeps_startCmd
  · intro c_1
    intro fid
    intro u
    intro s_1
    intro h
    dsimp -zeta only [refoutStopDef]
    extract_lets +onlyGivenNames r
    clear_value r
    refine keeps_ite1 (fun _ => ?_) (fun _ => ?_)
    · exact h
    · refine keeps_mk1 ?_
      with_reducible apply keeps_setRefOut
      exact h
  · exact hk

theorem keeps_execRefclkLost {s : State} (why : Nat) (lastGood : Stamp) (hk : Keeps st0 s) :
    OutKeeps st0 (execRefclkLost why lastGood s) := by
  unfold execRefclkLost
  refine outKeeps_next ?_
  with_reducible apply keeps_whenB
  · exact hk
  · intro s_1
    intro h
    extract_lets +onlyGivenNames s1
    have h_s1 : Keeps st0 s1 := by
      unfold s1
      refine keeps_foldl ?_ ?_
      · intro s_2
        intro x
        intro h_1
        with_reducible apply keeps_incF
        exact h_1
      · exact h
    clear_value s1
    refine keeps_ite (fun _ => ?_) (fun _ => ?_)
    · refine keeps_upd ?_ ..
      exact h_s1
    · with_reducible apply keeps_post
      refine keeps_upd ?_ ..
      exact h_s1

theorem keeps_execRefclkReturned {s : State}  (hk : Keeps st0 s) :
    OutKeeps st0 (execRefclkReturned s) := by
  unfold execRefclkReturned
  refine outKeeps_next ?_
  with_reducible apply keeps_whenB
  · exact hk
  · intro s_1
    intro h
    refine keeps_upd ?_ ..
    exact h

theorem keeps_execRefReturnApply {s : State} (j : Int) (hk : Keeps st0 s) :
    OutKeeps st0 (execRefReturnApply j s) := by
  unfold execRefReturnApply
  refine outKeeps_next ?_
  with_reducible apply keeps_whenB
  · exact hk
  · intro s_1
    intro h
    extract_lets +onlyGivenNames s1_src1 s1_src2 s1_src3 s1
    have h_s1 : Keeps st0 s1 := by
      unfold s1
      refine keeps_ite (fun _ => ?_) (fun _ => ?_)
      · refine keeps_upd ?_ ..
        unfold s1_src2
        with_reducible apply keeps_stepAll
        exact h
      · refine keeps_foldl ?_ ?_
        · intro s_2
          intro x_1
          intro h_1
          with_reducible apply keeps_setDieClk
          exact h_1
        · exact h
    clear_value s1
    with_reducible apply keeps_post
    refine keeps_upd ?_ ..
    exact h_s1

theorem keeps_eff_refSetModeDef {s : State} {c : Cmd} {fid u : Nat} (hk : Keeps st0 s) :
    Keeps st0 ((refSetModeDef).eff c fid u s).1 := by
  dsimp -zeta only [refSetModeDef]
  refine keeps_upd ?_ ..
  exact hk

theorem keeps_execRefSetMode {s : State} (c : Cmd) (hk : Keeps st0 s) :
    OutKeeps st0 (execRefSetMode c s) := by
  unfold execRefSetMode
  with_reducible apply keeps_startCmd
  · intro c_1
    intro fid
    intro u
    intro s_1
    intro h
    dsimp -zeta only [refSetModeDef]
    refine keeps_upd ?_ ..
    exact h
  · exact hk

theorem keeps_execSyncInEdge {s : State} (arrival : Nat) (halfTick : Bool) (hk : Keeps st0 s) :
    OutKeeps st0 (execSyncInEdge arrival halfTick s) := by
  unfold execSyncInEdge
  refine outKeeps_next ?_
  with_reducible apply keeps_whenB
  · exact hk
  · intro s_1
    intro h
    extract_lets +onlyGivenNames hold
    clear_value hold
    extract_lets +onlyGivenNames s1_src1 s1
    have h_s1 : Keeps st0 s1 := by
      unfold s1
      refine keeps_ite (fun _ => ?_) (fun _ => ?_)
      · refine keeps_upd ?_ ..
        exact h
      · exact h
    clear_value s1
    split
    · rename_i x a e
      refine keeps_ite (fun _ => ?_) (fun _ => ?_)
      · with_reducible apply keeps_incF
        exact h_s1
      · extract_lets +onlyGivenNames s2_src1 s2
        have h_s2 : Keeps st0 s2 := by
          unfold s2
          refine keeps_upd ?_ ..
          exact h_s1
        clear_value s2
        refine keeps_ite (fun _ => ?_) (fun _ => ?_)
        · with_reducible apply keeps_issueStrobe
          exact h_s2
        · exact h_s2
    · rename_i x e
      with_reducible apply keeps_incF
      exact h_s1

theorem keeps_execSyncAlignApply {s : State}  (hk : Keeps st0 s) :
    OutKeeps st0 (execSyncAlignApply s) := by
  unfold execSyncAlignApply
  refine outKeeps_next ?_
  split
  · rename_i x e
    exact hk
  · rename_i x e e_1
    with_reducible apply keeps_whenB
    · exact hk
    · intro s_1
      intro h
      extract_lets +onlyGivenNames ticks
      clear_value ticks
      extract_lets +onlyGivenNames half
      clear_value half
      extract_lets +onlyGivenNames step
      clear_value step
      extract_lets +onlyGivenNames s1_src1 s1
      have h_s1 : Keeps st0 s1 := by
        unfold s1
        refine keeps_ite (fun _ => ?_) (fun _ => ?_)
        · refine keeps_foldl ?_ ?_
          · intro s_2
            intro x_1
            intro h_1
            with_reducible apply keeps_setDieClk
            exact h_1
          · unfold s1_src1
            with_reducible apply keeps_stepAll
            exact h
        · exact h
      clear_value s1
      extract_lets +onlyGivenNames s2
      have h_s2 : Keeps st0 s2 := by
        unfold s2
        with_reducible apply keeps_incF
        exact h_s1
      clear_value s2
      extract_lets +onlyGivenNames s3_src1 s3
      have h_s3 : Keeps st0 s3 := by
        unfold s3
        refine keeps_upd ?_ ..
        exact h_s2
      clear_value s3
      with_reducible apply keeps_post
      exact h_s3

theorem keeps_execSyncOutRepeat {s : State}  (hk : Keeps st0 s) :
    OutKeeps st0 (execSyncOutRepeat s) := by
  unfold execSyncOutRepeat
  refine outKeeps_next ?_
  split
  · rename_i x t r e
    with_reducible apply keeps_whenB
    · exact hk
    · intro s_1
      intro h
      refine keeps_upd ?_ ..
      exact h
  · rename_i x e
    exact hk

theorem keeps_eff_syncArmDef {s : State} {c : Cmd} {fid u : Nat} (hk : Keeps st0 s) :
    Keeps st0 ((syncArmDef).eff c fid u s).1 := by
  dsimp -zeta only [syncArmDef]
  extract_lets +onlyGivenNames f
  clear_value f
  extract_lets +onlyGivenNames k
  clear_value k
  extract_lets +onlyGivenNames act
  clear_value act
  extract_lets +onlyGivenNames sync
  clear_value sync
  refine keeps_mk1 ?_
  refine keeps_upd ?_ ..
  exact hk

theorem keeps_execSyncArm {s : State} (c : Cmd) (hk : Keeps st0 s) :
    OutKeeps st0 (execSyncArm c s) := by
  unfold execSyncArm
  with_reducible apply keeps_startCmd
  · intro c_1
    intro fid
    intro u
    intro s_1
    intro h
    dsimp -zeta only [syncArmDef]
    extract_lets +onlyGivenNames f
    clear_value f
    extract_lets +onlyGivenNames k
    clear_value k
    extract_lets +onlyGivenNames act
    clear_value act
    extract_lets +onlyGivenNames sync
    clear_value sync
    refine keeps_mk1 ?_
    refine keeps_upd ?_ ..
    exact h
  · exact hk

theorem keeps_syncAttach {s : State}  (hk : Keeps st0 s) :
    Keeps st0 (syncAttach s) := by
  unfold syncAttach
  extract_lets +onlyGivenNames e
  clear_value e
  refine keeps_ite (fun _ => ?_) (fun _ => ?_)
  · with_reducible apply keeps_attachPartner
    exact hk
  · exact hk

theorem keeps_syncDetach {s : State}  (hk : Keeps st0 s) :
    Keeps st0 (syncDetach s) := by
  unfold syncDetach
  extract_lets +onlyGivenNames e
  clear_value e
  refine keeps_ite (fun _ => ?_) (fun _ => ?_)
  · with_reducible apply keeps_detachPartner
    exact hk
  · exact hk

theorem keeps_execSyncInDriveChange {s : State} (driven : Bool) (hk : Keeps st0 s) :
    OutKeeps st0 (execSyncInDriveChange driven s) := by
  unfold execSyncInDriveChange
  refine outKeeps_next ?_
  with_reducible apply keeps_whenB
  · exact hk
  · intro s_1
    intro h
    extract_lets +onlyGivenNames s1
    have h_s1 : Keeps st0 s1 := by
      unfold s1
      with_reducible apply keeps_syncDetach
      with_reducible apply keeps_syncAttach
      exact h
    clear_value s1
    refine keeps_upd ?_ ..
    exact h_s1

theorem keeps_execSyncPeerAttach {s : State}  (hk : Keeps st0 s) :
    OutKeeps st0 (execSyncPeerAttach s) := by
  unfold execSyncPeerAttach
  refine outKeeps_next ?_
  with_reducible apply keeps_syncAttach
  exact hk

theorem keeps_execSyncPeerDetach {s : State}  (hk : Keeps st0 s) :
    OutKeeps st0 (execSyncPeerDetach s) := by
  unfold execSyncPeerDetach
  refine outKeeps_next ?_
  with_reducible apply keeps_syncDetach
  exact hk

theorem keeps_eff_pllConfigureDef {s : State} {c : Cmd} {fid u : Nat} (hk : Keeps st0 s) :
    Keeps st0 ((pllConfigureDef).eff c fid u s).1 := by
  dsimp -zeta only [pllConfigureDef]
  extract_lets +onlyGivenNames d
  clear_value d
  extract_lets +onlyGivenNames k
  clear_value k
  extract_lets +onlyGivenNames f
  clear_value f
  refine keeps_ite1 (fun _ => ?_) (fun _ => ?_)
  · exact hk
  · refine keeps_ite1 (fun _ => ?_) (fun _ => ?_)
    · exact hk
    · refine keeps_ite1 (fun _ => ?_) (fun _ => ?_)
      · exact hk
      · refine keeps_mk1 ?_
        with_reducible apply keeps_setPll
        exact hk

theorem keeps_execPllConfigure {s : State} (c : Cmd) (hk : Keeps st0 s) :
    OutKeeps st0 (execPllConfigure c s) := by
  unfold execPllConfigure
  with_reducible apply keeps_startCmd
  · intro c_1
    intro fid
    intro u
    intro s_1
    intro h
    dsimp -zeta only [pllConfigureDef]
    extract_lets +onlyGivenNames d
    clear_value d
    extract_lets +onlyGivenNames k
    clear_value k
    extract_lets +onlyGivenNames f
    clear_value f
    refine keeps_ite1 (fun _ => ?_) (fun _ => ?_)
    · exact h
    · refine keeps_ite1 (fun _ => ?_) (fun _ => ?_)
      · exact h
      · refine keeps_ite1 (fun _ => ?_) (fun _ => ?_)
        · exact h
        · refine keeps_mk1 ?_
          with_reducible apply keeps_setPll
          exact h
  · exact hk

theorem keeps_eff_pllStepDef {s : State} {c : Cmd} {fid u : Nat} (hk : Keeps st0 s) :
    Keeps st0 ((pllStepDef).eff c fid u s).1 := by
  dsimp -zeta only [pllStepDef]
  extract_lets +onlyGivenNames d
  clear_value d
  extract_lets +onlyGivenNames k
  clear_value k
  extract_lets +onlyGivenNames p
  clear_value p
  extract_lets +onlyGivenNames v
  clear_value v
  extract_lets +onlyGivenNames t
  clear_value t
  refine keeps_ite1 (fun _ => ?_) (fun _ => ?_)
  · exact hk
  · refine keeps_ite1 (fun _ => ?_) (fun _ => ?_)
    · exact hk
    · refine keeps_ite1 (fun _ => ?_) (fun _ => ?_)
      · exact hk
      · refine keeps_ite1 (fun _ => ?_) (fun _ => ?_)
        · exact hk
        · refine keeps_mk1 ?_
          with_reducible apply keeps_setPll
          exact hk

theorem keeps_execPllStep {s : State} (c : Cmd) (hk : Keeps st0 s) :
    OutKeeps st0 (execPllStep c s) := by
  unfold execPllStep
  with_reducible apply keeps_startCmd
  · intro c_1
    intro fid
    intro u
    intro s_1
    intro h
    dsimp -zeta only [pllStepDef]
    extract_lets +onlyGivenNames d
    clear_value d
    extract_lets +onlyGivenNames k
    clear_value k
    extract_lets +onlyGivenNames p
    clear_value p
    extract_lets +onlyGivenNames v
    clear_value v
    extract_lets +onlyGivenNames t
    clear_value t
    refine keeps_ite1 (fun _ => ?_) (fun _ => ?_)
    · exact h
    · refine keeps_ite1 (fun _ => ?_) (fun _ => ?_)
      · exact h
      · refine keeps_ite1 (fun _ => ?_) (fun _ => ?_)
        · exact h
        · refine keeps_ite1 (fun _ => ?_) (fun _ => ?_)
          · exact h
          · refine keeps_mk1 ?_
            with_reducible apply keeps_setPll
            exact h
  · exact hk

theorem keeps_eff_timeReadDef {s : State} {c : Cmd} {fid u : Nat} (hk : Keeps st0 s) :
    Keeps st0 ((timeReadDef).eff c fid u s).1 := by
  dsimp -zeta only [timeReadDef]
  exact hk

theorem keeps_execTimeRead {s : State} (c : Cmd) (hk : Keeps st0 s) :
    OutKeeps st0 (execTimeRead c s) := by
  unfold execTimeRead
  with_reducible apply keeps_startCmd
  · intro c_1
    intro fid
    intro u
    intro s_1
    intro h
    dsimp -zeta only [timeReadDef]
    exact h
  · exact hk

theorem keeps_eff_tdcArmDef {s : State} {c : Cmd} {fid u : Nat} (hk : Keeps st0 s) :
    Keeps st0 ((tdcArmDef).eff c fid u s).1 := by
  dsimp -zeta only [tdcArmDef]
  extract_lets +onlyGivenNames d
  clear_value d
  extract_lets +onlyGivenNames t
  clear_value t
  refine keeps_ite1 (fun _ => ?_) (fun _ => ?_)
  · exact hk
  · refine keeps_ite1 (fun _ => ?_) (fun _ => ?_)
    · refine keeps_mk1 ?_
      with_reducible apply keeps_tdcEnd
      exact hk
    · refine keeps_ite1 (fun _ => ?_) (fun _ => ?_)
      · exact hk
      · refine keeps_ite1 (fun _ => ?_) (fun _ => ?_)
        · exact hk
        · extract_lets +onlyGivenNames a
          clear_value a
          extract_lets +onlyGivenNames s1
          have h_s1 : Keeps st0 s1 := by
            unfold s1
            with_reducible apply keeps_setTdc
            exact hk
          clear_value s1
          refine keeps_mk1 ?_
          refine keeps_ite (fun _ => ?_) (fun _ => ?_)
          · with_reducible apply keeps_tdcStart
            exact h_s1
          · exact h_s1

theorem keeps_execTdcArm {s : State} (c : Cmd) (hk : Keeps st0 s) :
    OutKeeps st0 (execTdcArm c s) := by
  unfold execTdcArm
  with_reducible apply keeps_startCmd
  · intro c_1
    intro fid
    intro u
    intro s_1
    intro h
    refine keeps_eff_tdcArmDef ?_
    exact h
  · exact hk

theorem keeps_eff_tdcReadDef {s : State} {c : Cmd} {fid u : Nat} (hk : Keeps st0 s) :
    Keeps st0 ((tdcReadDef).eff c fid u s).1 := by
  dsimp -zeta only [tdcReadDef]
  split
  · rename_i x r e
    refine keeps_mk1 ?_
    with_reducible apply keeps_hostWrite
    exact hk
  · rename_i x e
    exact hk

theorem keeps_execTdcRead {s : State} (c : Cmd) (hk : Keeps st0 s) :
    OutKeeps st0 (execTdcRead c s) := by
  unfold execTdcRead
  with_reducible apply keeps_startCmd
  · intro c_1
    intro fid
    intro u
    intro s_1
    intro h
    dsimp -zeta only [tdcReadDef]
    split
    · rename_i x r e
      refine keeps_mk1 ?_
      with_reducible apply keeps_hostWrite
      exact h
    · rename_i x e
      exact h
  · exact hk

end Sys2Proof.Machine
end

