-- ==== Sys2Proof/Laws/KeepsShutterCmd.lean ====
section
/-!
SUPPORT. What keeps the part, the time, the queue and the canonical form of memory (`Keeps`): Machine/ShutterCmd.
-/

namespace Sys2Proof.Machine

variable {st0 : State}

theorem keeps_eff_matcherLoadDef {s : State} {c : Cmd} {fid u : Nat} (hk : Keeps st0 s) :
    Keeps st0 ((matcherLoadDef).eff c fid u s).1 := by
  dsimp -zeta only [matcherLoadDef]
  extract_lets +onlyGivenNames l
  clear_value l
  extract_lets +onlyGivenNames st
  clear_value st
  refine keeps_mk1 ?_
  with_reducible apply keeps_setLane
  exact hk

theorem keeps_execMatcherLoad {s : State} (c : Cmd) (hk : Keeps st0 s) :
    OutKeeps st0 (execMatcherLoad c s) := by
  unfold execMatcherLoad
  with_reducible apply keeps_startCmd
  · intro c_1
    intro fid
    intro u
    intro s_1
    intro h
    dsimp -zeta only [matcherLoadDef]
    extract_lets +onlyGivenNames l
    clear_value l
    extract_lets +onlyGivenNames st
    clear_value st
    refine keeps_mk1 ?_
    with_reducible apply keeps_setLane
    exact h
  · exact hk

theorem keeps_applyRecs {s : State} (n : Nat) (g : NegStore) (l : List (List Byte)) (hk : Keeps st0 s) :
    Keeps st0 (applyRecs n g l s).2 := by
  induction l generalizing s n g with
  | nil => exact hk
  | cons r rest ih =>
    unfold applyRecs
    dsimp only
    split
    · split
      · rename_i e
        exact ih _ _ (keeps_snd e (keeps_negInsert _ _ hk))
      · rename_i e
        exact keeps_snd e (keeps_negInsert _ _ hk)
    · exact ih _ _ hk
    · exact ih _ _ hk
    · exact ih _ _ hk

theorem keeps_negLoaded {s : State} (d applied left : Nat) (hk : Keeps st0 s) :
    Keeps st0 (negLoaded s d applied left) := by
  unfold negLoaded
  with_reducible apply keeps_post
  exact hk

theorem keeps_eff_negstoreLoadDef {s : State} {c : Cmd} {fid u : Nat} (hk : Keeps st0 s) :
    Keeps st0 ((negstoreLoadDef).eff c fid u s).1 := by
  dsimp -zeta only [negstoreLoadDef]
  extract_lets +onlyGivenNames d
  clear_value d
  extract_lets +onlyGivenNames g
  clear_value g
  extract_lets +onlyGivenNames rs
  clear_value rs
  refine keeps_ite1 (fun _ => ?_) (fun _ => ?_)
  · exact hk
  · refine keeps_ite1 (fun _ => ?_) (fun _ => ?_)
    · exact hk
    · extract_lets +onlyGivenNames r
      have h_r : Keeps st0 r.2 := by
        unfold r
        with_reducible apply keeps_applyRecs
        exact hk
      clear_value r
      extract_lets +onlyGivenNames s1
      have h_s1 : Keeps st0 s1 := by
        unfold s1
        with_reducible apply keeps_negLoaded
        with_reducible apply keeps_setNeg
        exact h_r
      clear_value s1
      exact h_s1

theorem keeps_execNegstoreLoad {s : State} (c : Cmd) (hk : Keeps st0 s) :
    OutKeeps st0 (execNegstoreLoad c s) := by
  unfold execNegstoreLoad
  with_reducible apply keeps_startCmd
  · intro c_1
    intro fid
    intro u
    intro s_1
    intro h
    dsimp -zeta only [negstoreLoadDef]
    extract_lets +onlyGivenNames d
    clear_value d
    extract_lets +onlyGivenNames g
    clear_value g
    extract_lets +onlyGivenNames rs
    clear_value rs
    refine keeps_ite1 (fun _ => ?_) (fun _ => ?_)
    · exact h
    · refine keeps_ite1 (fun _ => ?_) (fun _ => ?_)
      · exact h
      · extract_lets +onlyGivenNames r
        have h_r : Keeps st0 r.2 := by
          unfold r
          with_reducible apply keeps_applyRecs
          exact h
        clear_value r
        extract_lets +onlyGivenNames s1
        have h_s1 : Keeps st0 s1 := by
          unfold s1
          with_reducible apply keeps_negLoaded
          with_reducible apply keeps_setNeg
          exact h_r
        clear_value s1
        exact h_s1
  · exact hk

theorem keeps_eff_negstoreClearDef {s : State} {c : Cmd} {fid u : Nat} (hk : Keeps st0 s) :
    Keeps st0 ((negstoreClearDef).eff c fid u s).1 := by
  dsimp -zeta only [negstoreClearDef]
  extract_lets +onlyGivenNames d
  clear_value d
  extract_lets +onlyGivenNames g
  clear_value g
  extract_lets +onlyGivenNames m
  clear_value m
  extract_lets +onlyGivenNames g1
  clear_value g1
  extract_lets +onlyGivenNames g2
  clear_value g2
  refine keeps_mk1 ?_
  with_reducible apply keeps_negLoaded
  with_reducible apply keeps_setNeg
  exact hk

theorem keeps_execNegstoreClear {s : State} (c : Cmd) (hk : Keeps st0 s) :
    OutKeeps st0 (execNegstoreClear c s) := by
  unfold execNegstoreClear
  with_reducible apply keeps_startCmd
  · intro c_1
    intro fid
    intro u
    intro s_1
    intro h
    dsimp -zeta only [negstoreClearDef]
    extract_lets +onlyGivenNames d
    clear_value d
    extract_lets +onlyGivenNames g
    clear_value g
    extract_lets +onlyGivenNames m
    clear_value m
    extract_lets +onlyGivenNames g1
    clear_value g1
    extract_lets +onlyGivenNames g2
    clear_value g2
    refine keeps_mk1 ?_
    with_reducible apply keeps_negLoaded
    with_reducible apply keeps_setNeg
    exact h
  · exact hk

theorem keeps_eff_comparatorConfigureDef {s : State} {c : Cmd} {fid u : Nat} (hk : Keeps st0 s) :
    Keeps st0 ((comparatorConfigureDef).eff c fid u s).1 := by
  dsimp -zeta only [comparatorConfigureDef]
  extract_lets +onlyGivenNames d
  clear_value d
  extract_lets +onlyGivenNames x
  clear_value x
  refine keeps_mk1 ?_
  with_reducible apply keeps_setCmp
  exact hk

theorem keeps_execComparatorConfigure {s : State} (c : Cmd) (hk : Keeps st0 s) :
    OutKeeps st0 (execComparatorConfigure c s) := by
  unfold execComparatorConfigure
  with_reducible apply keeps_startCmd
  · intro c_1
    intro fid
    intro u
    intro s_1
    intro h
    dsimp -zeta only [comparatorConfigureDef]
    extract_lets +onlyGivenNames d
    clear_value d
    extract_lets +onlyGivenNames x
    clear_value x
    refine keeps_mk1 ?_
    with_reducible apply keeps_setCmp
    exact h
  · exact hk

theorem keeps_keepRun {s : State} (n : Nat) (hk : Keeps st0 s) :
    Keeps st0 (keepRun s n) := by
  unfold keepRun
  split
  · rename_i x u e
    refine keeps_ite (fun _ => ?_) (fun _ => ?_)
    · with_reducible apply keeps_setSeq
      exact hk
    · exact hk
  · rename_i x e
    exact hk

theorem keeps_eff_sequencerLoadDef {s : State} {c : Cmd} {fid u : Nat} (hk : Keeps st0 s) :
    Keeps st0 ((sequencerLoadDef).eff c fid u s).1 := by
  dsimp -zeta only [sequencerLoadDef]
  extract_lets +onlyGivenNames q
  clear_value q
  extract_lets +onlyGivenNames p
  clear_value p
  refine keeps_ite1 (fun _ => ?_) (fun _ => ?_)
  · exact hk
  · refine keeps_mk1 ?_
    with_reducible apply keeps_setSeq
    with_reducible apply keeps_keepRun
    exact hk

theorem keeps_execSequencerLoad {s : State} (c : Cmd) (hk : Keeps st0 s) :
    OutKeeps st0 (execSequencerLoad c s) := by
  unfold execSequencerLoad
  with_reducible apply keeps_startCmd
  · intro c_1
    intro fid
    intro u
    intro s_1
    intro h
    refine keeps_eff_sequencerLoadDef ?_
    exact h
  · exact hk

theorem keeps_eff_sequencerArmDef {s : State} {c : Cmd} {fid u : Nat} (hk : Keeps st0 s) :
    Keeps st0 ((sequencerArmDef).eff c fid u s).1 := by
  dsimp -zeta only [sequencerArmDef]
  extract_lets +onlyGivenNames q
  clear_value q
  refine keeps_ite1 (fun _ => ?_) (fun _ => ?_)
  · exact hk
  · refine keeps_mk1 ?_
    with_reducible apply keeps_setSeq
    with_reducible apply keeps_keepRun
    exact hk

theorem keeps_execSequencerArm {s : State} (c : Cmd) (hk : Keeps st0 s) :
    OutKeeps st0 (execSequencerArm c s) := by
  unfold execSequencerArm
  with_reducible apply keeps_startCmd
  · intro c_1
    intro fid
    intro u
    intro s_1
    intro h
    refine keeps_eff_sequencerArmDef ?_
    exact h
  · exact hk

theorem keeps_eff_sequencerDisarmDef {s : State} {c : Cmd} {fid u : Nat} (hk : Keeps st0 s) :
    Keeps st0 ((sequencerDisarmDef).eff c fid u s).1 := by
  dsimp -zeta only [sequencerDisarmDef]
  extract_lets +onlyGivenNames q
  clear_value q
  refine keeps_ite1 (fun _ => ?_) (fun _ => ?_)
  · exact hk
  · refine keeps_mk1 ?_
    with_reducible apply keeps_setSeq
    exact hk

theorem keeps_execSequencerDisarm {s : State} (c : Cmd) (hk : Keeps st0 s) :
    OutKeeps st0 (execSequencerDisarm c s) := by
  unfold execSequencerDisarm
  with_reducible apply keeps_startCmd
  · intro c_1
    intro fid
    intro u
    intro s_1
    intro h
    dsimp -zeta only [sequencerDisarmDef]
    extract_lets +onlyGivenNames q
    clear_value q
    refine keeps_ite1 (fun _ => ?_) (fun _ => ?_)
    · exact h
    · refine keeps_mk1 ?_
      with_reducible apply keeps_setSeq
      exact h
  · exact hk

theorem keeps_eff_shutterFireDef {s : State} {c : Cmd} {fid u : Nat} (hk : Keeps st0 s) :
    Keeps st0 ((shutterFireDef).eff c fid u s).1 := by
  dsimp -zeta only [shutterFireDef]
  extract_lets +onlyGivenNames d
  clear_value d
  extract_lets +onlyGivenNames t
  clear_value t
  refine keeps_ite1 (fun _ => ?_) (fun _ => ?_)
  · refine keeps_ite1 (fun _ => ?_) (fun _ => ?_)
    · exact hk
    · refine keeps_mk1 ?_
      with_reducible apply keeps_giveCand
      exact hk
  · refine keeps_ite1 (fun _ => ?_) (fun _ => ?_)
    · exact hk
    · refine keeps_mk1 ?_
      with_reducible apply keeps_issueEvent
      exact hk

theorem keeps_execShutterFire {s : State} (c : Cmd) (hk : Keeps st0 s) :
    OutKeeps st0 (execShutterFire c s) := by
  unfold execShutterFire
  with_reducible apply keeps_startCmd
  · intro c_1
    intro fid
    intro u
    intro s_1
    intro h
    dsimp -zeta only [shutterFireDef]
    extract_lets +onlyGivenNames d
    clear_value d
    extract_lets +onlyGivenNames t
    clear_value t
    refine keeps_ite1 (fun _ => ?_) (fun _ => ?_)
    · refine keeps_ite1 (fun _ => ?_) (fun _ => ?_)
      · exact h
      · refine keeps_mk1 ?_
        with_reducible apply keeps_giveCand
        exact h
    · refine keeps_ite1 (fun _ => ?_) (fun _ => ?_)
      · exact h
      · refine keeps_mk1 ?_
        with_reducible apply keeps_issueEvent
        exact h
  · exact hk

theorem keeps_eff_triginConfigureDef {s : State} {c : Cmd} {fid u : Nat} (hk : Keeps st0 s) :
    Keeps st0 ((triginConfigureDef).eff c fid u s).1 := by
  dsimp -zeta only [triginConfigureDef]
  with_reducible apply keeps_setTrigIn
  exact hk

theorem keeps_execTriginConfigure {s : State} (c : Cmd) (hk : Keeps st0 s) :
    OutKeeps st0 (execTriginConfigure c s) := by
  unfold execTriginConfigure
  with_reducible apply keeps_startCmd
  · intro c_1
    intro fid
    intro u
    intro s_1
    intro h
    dsimp -zeta only [triginConfigureDef]
    with_reducible apply keeps_setTrigIn
    exact h
  · exact hk

theorem keeps_eff_trigoutConfigureDef {s : State} {c : Cmd} {fid u : Nat} (hk : Keeps st0 s) :
    Keeps st0 ((trigoutConfigureDef).eff c fid u s).1 := by
  dsimp -zeta only [trigoutConfigureDef]
  extract_lets +onlyGivenNames p
  clear_value p
  extract_lets +onlyGivenNames x
  clear_value x
  refine keeps_mk1 ?_
  with_reducible apply keeps_setTrigOut
  exact hk

theorem keeps_execTrigoutConfigure {s : State} (c : Cmd) (hk : Keeps st0 s) :
    OutKeeps st0 (execTrigoutConfigure c s) := by
  unfold execTrigoutConfigure
  with_reducible apply keeps_startCmd
  · intro c_1
    intro fid
    intro u
    intro s_1
    intro h
    dsimp -zeta only [trigoutConfigureDef]
    extract_lets +onlyGivenNames p
    clear_value p
    extract_lets +onlyGivenNames x
    clear_value x
    refine keeps_mk1 ?_
    with_reducible apply keeps_setTrigOut
    exact h
  · exact hk

theorem keeps_eff_shutterReadCountersDef {s : State} {c : Cmd} {fid u : Nat} (hk : Keeps st0 s) :
    Keeps st0 ((shutterReadCountersDef).eff c fid u s).1 := by
  dsimp -zeta only [shutterReadCountersDef]
  extract_lets +onlyGivenNames d
  clear_value d
  extract_lets +onlyGivenNames clear
  have h_clear : ∀ v0, Keeps st0 (clear v0) := by
    unfold clear
    intro v0
    refine keeps_ite (fun _ => ?_) (fun _ => ?_)
    · refine keeps_foldl ?_ ?_
      · intro s_1
        intro x_1
        intro h
        with_reducible apply keeps_setReg
        exact h
      · exact hk
    · exact hk
  clear_value clear
  refine keeps_ite1 (fun _ => ?_) (fun _ => ?_)
  · extract_lets +onlyGivenNames k
    clear_value k
    refine keeps_mk1 ?_
    refine h_clear _
  · refine keeps_ite1 (fun _ => ?_) (fun _ => ?_)
    · exact hk
    · refine keeps_mk1 ?_
      refine keeps_ite (fun _ => ?_) (fun _ => ?_)
      · refine h_clear _
      · exact hk

theorem keeps_execShutterReadCounters {s : State} (c : Cmd) (hk : Keeps st0 s) :
    OutKeeps st0 (execShutterReadCounters c s) := by
  unfold execShutterReadCounters
  with_reducible apply keeps_startCmd
  · intro c_1
    intro fid
    intro u
    intro s_1
    intro h
    dsimp -zeta only [shutterReadCountersDef]
    extract_lets +onlyGivenNames d
    clear_value d
    extract_lets +onlyGivenNames clear
    have h_clear : ∀ v0, Keeps st0 (clear v0) := by
      unfold clear
      intro v0
      refine keeps_ite (fun _ => ?_) (fun _ => ?_)
      · refine keeps_foldl ?_ ?_
        · intro s_2
          intro x_1
          intro h_1
          with_reducible apply keeps_setReg
          exact h_1
        · exact h
      · exact h
    clear_value clear
    refine keeps_ite1 (fun _ => ?_) (fun _ => ?_)
    · extract_lets +onlyGivenNames k
      clear_value k
      refine keeps_mk1 ?_
      refine h_clear _
    · refine keeps_ite1 (fun _ => ?_) (fun _ => ?_)
      · exact h
      · refine keeps_mk1 ?_
        refine keeps_ite (fun _ => ?_) (fun _ => ?_)
        · refine h_clear _
        · exact h
  · exact hk

end Sys2Proof.Machine
end

