-- ==== Sys2Proof/Laws/KeepsChain.lean ====
section
/-!
SUPPORT. What keeps the part, the time, the queue and the canonical form of memory (`Keeps`): Machine/Chain.
-/

namespace Sys2Proof.Machine

variable {st0 : State}

theorem keeps_settle {s : State} (d c cause : Nat) (hk : Keeps st0 s) :
    Keeps st0 (settle s d c cause) := by
  unfold settle
  extract_lets +onlyGivenNames x
  clear_value x
  extract_lets +onlyGivenNames aband
  clear_value aband
  extract_lets +onlyGivenNames x1_src1 x1
  clear_value x1
  refine keeps_ite (fun _ => ?_) (fun _ => ?_)
  · exact hk
  · refine keeps_ite (fun _ => ?_) (fun _ => ?_)
    · with_reducible apply keeps_setChain
      exact hk
    · with_reducible apply keeps_setChain
      exact hk

theorem keeps_chainSource {s : State} (d c : Nat) (raw : Bool) (hk : Keeps st0 s) :
    Keeps st0 (chainSource s d c raw) := by
  unfold chainSource
  extract_lets +onlyGivenNames x
  clear_value x
  refine keeps_ite (fun _ => ?_) (fun _ => ?_)
  · with_reducible apply keeps_sourceChange
    with_reducible apply keeps_setChain
    exact hk
  · exact hk

theorem keeps_chainStop {s : State} (d c : Nat) (hk : Keeps st0 s) :
    Keeps st0 (chainStop s d c) := by
  unfold chainStop
  extract_lets +onlyGivenNames x
  clear_value x
  refine keeps_ite (fun _ => ?_) (fun _ => ?_)
  · exact hk
  · extract_lets +onlyGivenNames s1
    have h_s1 : Keeps st0 s1 := by
      unfold s1
      refine keeps_ite (fun _ => ?_) (fun _ => ?_)
      · with_reducible apply keeps_post
        exact hk
      · exact hk
    clear_value s1
    extract_lets +onlyGivenNames s2_src1 s2
    have h_s2 : Keeps st0 s2 := by
      unfold s2
      with_reducible apply keeps_setChain
      exact h_s1
    clear_value s2
    refine keeps_ite (fun _ => ?_) (fun _ => ?_)
    · with_reducible apply keeps_disarm
      exact h_s2
    · exact h_s2

theorem keeps_setCal {s : State} (d n : Nat) (x : Cal) (hk : Keeps st0 s) :
    Keeps st0 (setCal s d n x) := by
  unfold setCal
  refine keeps_upd ?_ ..
  exact hk

theorem keeps_cmpSample {s : State} (d n : Nat) (x : Int) (t : Stamp) (hk : Keeps st0 s) :
    Keeps st0 (cmpSample s d n x t) := by
  unfold cmpSample
  refine keeps_foldl ?_ ?_
  · intro s_1
    intro x_1
    intro h
    extract_lets +onlyGivenNames m
    clear_value m
    refine keeps_ite (fun _ => ?_) (fun _ => ?_)
    · exact h
    · with_reducible apply keeps_setCmp
      exact h
  · exact hk

theorem keeps_cmpForget {s : State} (d n : Nat) (hk : Keeps st0 s) :
    Keeps st0 (cmpForget s d n) := by
  unfold cmpForget
  refine keeps_foldl ?_ ?_
  · intro s_1
    intro x
    intro h
    extract_lets +onlyGivenNames m
    clear_value m
    refine keeps_ite (fun _ => ?_) (fun _ => ?_)
    · with_reducible apply keeps_setCmp
      exact h
    · exact h
  · exact hk

theorem keeps_calGive {s : State} (d n : Nat) (m : CalMark) (t : Stamp) (hk : Keeps st0 s) :
    Keeps st0 (calGive s d n m t) := by
  unfold calGive
  extract_lets +onlyGivenNames s1_src1 s1
  have h_s1 : Keeps st0 s1 := by
    unfold s1
    with_reducible apply keeps_addMark
    with_reducible apply keeps_setCal
    exact hk
  clear_value s1
  with_reducible apply keeps_postStamp
  exact h_s1

theorem keeps_calFirst {s : State} (d n ph : Nat) (t : Stamp) (hk : Keeps st0 s) :
    Keeps st0 (calFirst s d n ph t) := by
  unfold calFirst
  split
  · rename_i x m e
    refine keeps_ite (fun _ => ?_) (fun _ => ?_)
    · with_reducible apply keeps_calGive
      exact hk
    · exact hk
  · rename_i x e
    exact hk

theorem keeps_calFlush {s : State} (d n : Nat) (hk : Keeps st0 s) :
    Keeps st0 (calFlush s d n) := by
  unfold calFlush
  split
  · rename_i x m e
    refine keeps_ite (fun _ => ?_) (fun _ => ?_)
    · exact hk
    · with_reducible apply keeps_calGive
      exact hk
  · rename_i x e
    exact hk

theorem keeps_calApply {s : State} (d n : Nat) (v : CalVec) (how ta : Nat) (hk : Keeps st0 s) :
    Keeps st0 (calApply s d n v how ta) := by
  unfold calApply
  extract_lets +onlyGivenNames x
  clear_value x
  extract_lets +onlyGivenNames ch
  clear_value ch
  extract_lets +onlyGivenNames m
  clear_value m
  extract_lets +onlyGivenNames seq
  clear_value seq
  extract_lets +onlyGivenNames data
  clear_value data
  extract_lets +onlyGivenNames skew
  clear_value skew
  extract_lets +onlyGivenNames ev
  clear_value ev
  extract_lets +onlyGivenNames x1_src1 x1
  clear_value x1
  extract_lets +onlyGivenNames s1
  have h_s1 : Keeps st0 s1 := by
    unfold s1
    with_reducible apply keeps_setCal
    exact hk
  clear_value s1
  extract_lets +onlyGivenNames s2
  have h_s2 : Keeps st0 s2 := by
    unfold s2
    refine keeps_foldl ?_ ?_
    · intro s_1
      intro x_1
      intro h
      extract_lets +onlyGivenNames y
      clear_value y
      refine keeps_ite (fun _ => ?_) (fun _ => ?_)
      · with_reducible apply keeps_setChain
        exact h
      · exact h
    · exact h_s1
  clear_value s2
  with_reducible apply keeps_calFlush
  exact h_s2

theorem keeps_calSync {s : State} (d n : Nat) (hk : Keeps st0 s) :
    Keeps st0 (calSync s d n) := by
  unfold calSync
  extract_lets +onlyGivenNames s0
  have h_s0 : Keeps st0 s0 := by
    unfold s0
    with_reducible apply keeps_calFlush
    exact hk
  clear_value s0
  extract_lets +onlyGivenNames x
  clear_value x
  refine keeps_ite (fun _ => ?_) (fun _ => ?_)
  · exact h_s0
  · extract_lets +onlyGivenNames s1
    have h_s1 : Keeps st0 s1 := by
      unfold s1
      refine keeps_ite (fun _ => ?_) (fun _ => ?_)
      · with_reducible apply keeps_calApply
        exact h_s0
      · exact h_s0
    clear_value s1
    extract_lets +onlyGivenNames y
    clear_value y
    with_reducible apply keeps_setCal
    exact h_s1

theorem keeps_sampleMarks {s : State} (d c : Nat) (cal : Option Nat) (strip : Option Nat) (t : Stamp) (hk : Keeps st0 s) :
    Keeps st0 (sampleMarks s d c cal strip t) := by
  unfold sampleMarks
  extract_lets +onlyGivenNames i
  clear_value i
  extract_lets +onlyGivenNames s1
  have h_s1 : Keeps st0 s1 := by
    unfold s1
    split
    · rename_i x n
      with_reducible apply keeps_addMark
      exact hk
    · rename_i x
      exact hk
  clear_value s1
  extract_lets +onlyGivenNames x
  clear_value x
  refine keeps_ite (fun _ => ?_) (fun _ => ?_)
  · exact h_s1
  · extract_lets +onlyGivenNames s2
    have h_s2 : Keeps st0 s2 := by
      unfold s2
      split
      · rename_i e x_1 n e_1
        with_reducible apply keeps_addMark
        exact h_s1
      · rename_i e x_1 e_1
        exact h_s1
    clear_value s2
    extract_lets +onlyGivenNames s3
    have h_s3 : Keeps st0 s3 := by
      unfold s3
      split
      · rename_i x_1 n e
        with_reducible apply keeps_addMark
        exact h_s2
      · rename_i x_1 e
        exact h_s2
    clear_value s3
    with_reducible apply keeps_setChain
    exact h_s3

theorem keeps_recordSample {s : State} (d c : Nat) (o : OutSmp) (hk : Keeps st0 s) :
    Keeps st0 (recordSample s d c o) := by
  unfold recordSample
  extract_lets +onlyGivenNames x
  clear_value x
  refine keeps_ite (fun _ => ?_) (fun _ => ?_)
  · with_reducible apply keeps_setChain
    exact hk
  · extract_lets +onlyGivenNames r
    clear_value r
    extract_lets +onlyGivenNames y_src1 y
    clear_value y
    with_reducible apply keeps_addF
    with_reducible apply keeps_setChain
    exact hk

theorem keeps_closeGap {s : State} (d c format n : Nat) (t : Stamp) (hk : Keeps st0 s) :
    Keeps st0 (closeGap s d c format n t) := by
  unfold closeGap
  extract_lets +onlyGivenNames x
  clear_value x
  extract_lets +onlyGivenNames y
  clear_value y
  split
  · rename_i x_1 e
    exact hk
  · rename_i x_1 a e
    extract_lets +onlyGivenNames s1
    have h_s1 : Keeps st0 s1 := by
      unfold s1
      with_reducible apply keeps_setChain
      exact hk
    clear_value s1
    refine keeps_ite (fun _ => ?_) (fun _ => ?_)
    · exact h_s1
    · extract_lets +onlyGivenNames k
      clear_value k
      refine keeps_ite (fun _ => ?_) (fun _ => ?_)
      · exact h_s1
      · with_reducible apply keeps_addMark
        exact h_s1

theorem keeps_emitOut {s0 : State} (d c : Nat) (o : OutSmp) (hk : Keeps st0 s0) :
    Keeps st0 (emitOut d c s0 o) := by
  unfold emitOut
  extract_lets +onlyGivenNames y
  clear_value y
  extract_lets +onlyGivenNames s
  have h_s : Keeps st0 s := by
    unfold s
    refine keeps_ite (fun _ => ?_) (fun _ => ?_)
    · with_reducible apply keeps_closeGap
      exact hk
    · exact hk
  clear_value s
  extract_lets +onlyGivenNames s1
  have h_s1 : Keeps st0 s1 := by
    unfold s1
    refine keeps_ite (fun _ => ?_) (fun _ => ?_)
    · with_reducible apply keeps_addSample
      with_reducible apply keeps_sampleMarks
      exact h_s
    · exact h_s
  clear_value s1
  with_reducible apply keeps_recordSample
  with_reducible apply keeps_setChain
  exact h_s1

theorem keeps_noteOvr {s : State} (d c kind n : Nat) (t : Stamp) (hk : Keeps st0 s) :
    Keeps st0 (noteOvr s d c kind n t) := by
  unfold noteOvr
  refine keeps_ite (fun _ => ?_) (fun _ => ?_)
  · exact hk
  · extract_lets +onlyGivenNames x_1
    clear_value x_1
    with_reducible apply keeps_setChain
    with_reducible apply keeps_addF
    exact hk

theorem keeps_postOvr {s : State} (d c : Nat) (hk : Keeps st0 s) :
    Keeps st0 (postOvr s d c) := by
  unfold postOvr
  extract_lets +onlyGivenNames x
  clear_value x
  extract_lets +onlyGivenNames due
  clear_value due
  refine keeps_ite (fun _ => ?_) (fun _ => ?_)
  · with_reducible apply keeps_postStamp
    with_reducible apply keeps_setChain
    exact hk
  · exact hk

theorem keeps_giveOut {s : State} (d c : Nat) (o : Option OutSmp) (hk : Keeps st0 s) : Keeps st0 (giveOut d c s o) := by
  cases o with
  | none => exact hk
  | some o => exact keeps_ite (fun _ => keeps_emitOut _ _ _ hk) (fun _ => keeps_setChain _ _ _ hk)

theorem keeps_enterGrid {s : State} (d c n : Nat) (v : Int) (t : Stamp) (strip : Option Nat) (cal : Option Nat) (hk : Keeps st0 s) :
    Keeps st0 (enterGrid d c n v t strip cal s) := by
  unfold enterGrid
  extract_lets +onlyGivenNames ph
  clear_value ph
  extract_lets +onlyGivenNames r
  clear_value r
  extract_lets +onlyGivenNames s1
  have h_s1 : Keeps st0 s1 := by
    unfold s1
    with_reducible apply keeps_noteOvr
    with_reducible apply keeps_setChain
    exact hk
  clear_value s1
  with_reducible apply keeps_giveOut
  refine keeps_foldl ?_ ?_
  · intro s_1
    intro x
    intro h
    with_reducible apply keeps_noteOvr
    exact h
  · exact h_s1

theorem keeps_tapSample {s : State} (d c n : Nat) (v : Int × Stamp) (hk : Keeps st0 s) :
    Keeps st0 (tapSample d c n s v) := by
  unfold tapSample
  extract_lets +onlyGivenNames ph
  clear_value ph
  extract_lets +onlyGivenNames strip
  clear_value strip
  extract_lets +onlyGivenNames x
  clear_value x
  extract_lets +onlyGivenNames cal
  clear_value cal
  extract_lets +onlyGivenNames y
  clear_value y
  extract_lets +onlyGivenNames s0
  have h_s0 : Keeps st0 s0 := by
    unfold s0
    with_reducible apply keeps_cmpSample
    with_reducible apply keeps_calFirst
    exact hk
  clear_value s0
  extract_lets +onlyGivenNames s1
  have h_s1 : Keeps st0 s1 := by
    unfold s1
    refine keeps_ite (fun _ => ?_) (fun _ => ?_)
    · with_reducible apply keeps_closeGap
      exact h_s0
    · exact h_s0
  clear_value s1
  extract_lets +onlyGivenNames s2
  have h_s2 : Keeps st0 s2 := by
    unfold s2
    refine keeps_ite (fun _ => ?_) (fun _ => ?_)
    · with_reducible apply keeps_addSample
      with_reducible apply keeps_sampleMarks
      exact h_s1
    · exact h_s1
  clear_value s2
  extract_lets +onlyGivenNames x2
  clear_value x2
  extract_lets +onlyGivenNames s3
  have h_s3 : Keeps st0 s3 := by
    unfold s3
    with_reducible apply keeps_setChain
    exact h_s2
  clear_value s3
  refine keeps_ite (fun _ => ?_) (fun _ => ?_)
  · with_reducible apply keeps_enterGrid
    exact h_s3
  · exact h_s3

theorem keeps_tapRow {s : State} (d c n k : Nat) (xs : List Int) (stamps : List Stamp) (hk : Keeps st0 s) :
    Keeps st0 (tapRow d c n k xs stamps s) := by
  unfold tapRow
  extract_lets +onlyGivenNames l
  clear_value l
  extract_lets +onlyGivenNames s1
  have h_s1 : Keeps st0 s1 := by
    unfold s1
    refine keeps_foldl ?_ ?_
    · intro s_1
      intro x
      intro h
      with_reducible apply keeps_tapSample
      exact h
    · exact hk
  clear_value s1
  with_reducible apply keeps_postOvr
  with_reducible apply keeps_setChain
  exact h_s1

theorem keeps_execRawTapSamples {s : State} (d c k : Nat) (xs : List Int) (stamps : List Stamp) (hk : Keeps st0 s) :
    OutKeeps st0 (execRawTapSamples d c k xs stamps s) := by
  unfold execRawTapSamples
  with_reducible apply keeps_onDie
  · exact hk
  · intro s_1
    intro h
    extract_lets +onlyGivenNames ts
    clear_value ts
    split
    · rename_i x e
      exact h
    · rename_i x n e
      with_reducible apply keeps_whenB
      · exact h
      · intro s_2
        intro h_1
        with_reducible apply keeps_tapRow
        exact h_1

theorem keeps_execSettlingEnd {s : State} (d c : Nat) (hk : Keeps st0 s) :
    OutKeeps st0 (execSettlingEnd d c s) := by
  unfold execSettlingEnd
  with_reducible apply keeps_onDie
  · exact hk
  · intro s_1
    intro h
    extract_lets +onlyGivenNames x
    clear_value x
    split
    · rename_i x_1 e
      exact h
    · rename_i x_1 o tail e
      with_reducible apply keeps_whenB
      · exact h
      · intro s_2
        intro h_1
        extract_lets +onlyGivenNames ticks
        clear_value ticks
        extract_lets +onlyGivenNames s1
        have h_s1 : Keeps st0 s1 := by
          unfold s1
          with_reducible apply keeps_setChain
          exact h_1
        clear_value s1
        extract_lets +onlyGivenNames s2
        have h_s2 : Keeps st0 s2 := by
          unfold s2
          with_reducible apply keeps_postStamp
          exact h_s1
        clear_value s2
        refine keeps_foldl ?_ ?_
        · intro s_3
          intro x_2
          intro h_2
          with_reducible apply keeps_emitOut
          exact h_2
        · exact h_s2

theorem keeps_execChainInputLost {s : State} (d c : Nat) (firstMissing : Stamp) (hk : Keeps st0 s) :
    OutKeeps st0 (execChainInputLost d c firstMissing s) := by
  unfold execChainInputLost
  with_reducible apply keeps_onDie
  · exact hk
  · intro s_1
    intro h
    extract_lets +onlyGivenNames x
    clear_value x
    with_reducible apply keeps_whenB
    · exact h
    · intro s_2
      intro h_1
      extract_lets +onlyGivenNames s1
      have h_s1 : Keeps st0 s1 := by
        unfold s1
        with_reducible apply keeps_chainLost
        exact h_1
      clear_value s1
      extract_lets +onlyGivenNames y
      clear_value y
      with_reducible apply keeps_setChain
      with_reducible apply keeps_cmpForget
      exact h_s1

theorem keeps_execChainInputReturn {s : State} (d c : Nat) (hk : Keeps st0 s) :
    OutKeeps st0 (execChainInputReturn d c s) := by
  unfold execChainInputReturn
  with_reducible apply keeps_onDie
  · exact hk
  · intro s_1
    intro h
    extract_lets +onlyGivenNames x
    clear_value x
    split
    · rename_i x_1 e
      exact h
    · rename_i x_1 n e
      with_reducible apply keeps_whenB
      · exact h
      · intro s_2
        intro h_1
        refine keeps_ite (fun _ => ?_) (fun _ => ?_)
        · refine keeps_ite (fun _ => ?_) (fun _ => ?_)
          · with_reducible apply keeps_post
            exact h_1
          · exact h_1
        · extract_lets +onlyGivenNames s2
          have h_s2 : Keeps st0 s2 := by
            unfold s2
            with_reducible apply keeps_setChain
            exact h_1
          clear_value s2
          refine keeps_ite (fun _ => ?_) (fun _ => ?_)
          · exact h_s2
          · with_reducible apply keeps_settle
            with_reducible apply keeps_post
            exact h_s2

theorem keeps_openDiv {s : State} (a b : Nat) (hk : Keeps st0 s) :
    Keeps st0 (openDiv s a b).2 := by
  unfold openDiv
  refine keeps_ite2 (fun _ => ?_) (fun _ => ?_)
  · exact hk
  · refine keeps_ite2 (fun _ => ?_) (fun _ => ?_)
    · exact hk
    · extract_lets +onlyGivenNames v
      have h_v : Keeps st0 v.2 := by
        unfold v
        with_reducible apply keeps_drawFree
        exact hk
      clear_value v
      exact h_v

theorem keeps_spanResult {s : State} (b div : Nat) (k : Option Nat) (hk : Keeps st0 s) : Keeps st0 (spanResult s b div k).2 := by
  cases k with
  | none => exact keeps_drawFree hk
  | some k => exact keeps_openDiv _ _ hk

theorem keeps_chainResult {s : State} (d c : Nat) (hk : Keeps st0 s) : Keeps st0 (chainResult s d c).2 := by
  unfold chainResult
  extract_lets +onlyGivenNames g
  clear_value g
  split
  · exact hk
  · exact keeps_spanResult _ _ _ (keeps_openDiv _ _ hk)

theorem keeps_eff_chainConfigureDef {s : State} {c : Cmd} {fid u : Nat} (hk : Keeps st0 s) :
    Keeps st0 ((chainConfigureDef).eff c fid u s).1 := by
  dsimp -zeta only [chainConfigureDef]
  extract_lets +onlyGivenNames d
  clear_value d
  extract_lets +onlyGivenNames c_1
  clear_value c_1
  extract_lets +onlyGivenNames x
  clear_value x
  extract_lets +onlyGivenNames g
  clear_value g
  extract_lets +onlyGivenNames e
  clear_value e
  extract_lets +onlyGivenNames y
  clear_value y
  refine keeps_ite1 (fun _ => ?_) (fun _ => ?_)
  · exact hk
  · refine keeps_ite1 (fun _ => ?_) (fun _ => ?_)
    · exact hk
    · extract_lets +onlyGivenNames s1
      have h_s1 : Keeps st0 s1 := by
        unfold s1
        with_reducible apply keeps_setChain
        exact hk
      clear_value s1
      extract_lets +onlyGivenNames s2_src1 s2
      have h_s2 : Keeps st0 s2 := by
        unfold s2
        refine keeps_ite (fun _ => ?_) (fun _ => ?_)
        · exact h_s1
        · refine keeps_ite (fun _ => ?_) (fun _ => ?_)
          · with_reducible apply keeps_chainSource
            with_reducible apply keeps_settle
            exact h_s1
          · with_reducible apply keeps_setChain
            exact h_s1
      clear_value s2
      extract_lets +onlyGivenNames r
      have h_r : Keeps st0 r.2 := by
        unfold r
        with_reducible apply keeps_chainResult
        exact h_s2
      clear_value r
      exact h_r

theorem keeps_execChainConfigure {s : State} (c : Cmd) (hk : Keeps st0 s) :
    OutKeeps st0 (execChainConfigure c s) := by
  unfold execChainConfigure
  with_reducible apply keeps_startCmd
  · intro c_1
    intro fid
    intro u
    intro s_1
    intro h
    dsimp -zeta only [chainConfigureDef]
    extract_lets +onlyGivenNames d
    clear_value d
    extract_lets +onlyGivenNames c_2
    clear_value c_2
    extract_lets +onlyGivenNames x
    clear_value x
    extract_lets +onlyGivenNames g
    clear_value g
    extract_lets +onlyGivenNames e
    clear_value e
    extract_lets +onlyGivenNames y
    clear_value y
    refine keeps_ite1 (fun _ => ?_) (fun _ => ?_)
    · exact h
    · refine keeps_ite1 (fun _ => ?_) (fun _ => ?_)
      · exact h
      · extract_lets +onlyGivenNames s1
        have h_s1 : Keeps st0 s1 := by
          unfold s1
          with_reducible apply keeps_setChain
          exact h
        clear_value s1
        extract_lets +onlyGivenNames s2_src1 s2
        have h_s2 : Keeps st0 s2 := by
          unfold s2
          refine keeps_ite (fun _ => ?_) (fun _ => ?_)
          · exact h_s1
          · refine keeps_ite (fun _ => ?_) (fun _ => ?_)
            · with_reducible apply keeps_chainSource
              with_reducible apply keeps_settle
              exact h_s1
            · with_reducible apply keeps_setChain
              exact h_s1
        clear_value s2
        extract_lets +onlyGivenNames r
        have h_r : Keeps st0 r.2 := by
          unfold r
          with_reducible apply keeps_chainResult
          exact h_s2
        clear_value r
        exact h_r
  · exact hk

theorem keeps_eff_chainSelectLaneDef {s : State} {c : Cmd} {fid u : Nat} (hk : Keeps st0 s) :
    Keeps st0 ((chainSelectLaneDef).eff c fid u s).1 := by
  dsimp -zeta only [chainSelectLaneDef]
  extract_lets +onlyGivenNames d
  clear_value d
  extract_lets +onlyGivenNames c_1
  clear_value c_1
  extract_lets +onlyGivenNames n
  clear_value n
  extract_lets +onlyGivenNames x
  clear_value x
  refine keeps_ite1 (fun _ => ?_) (fun _ => ?_)
  · exact hk
  · extract_lets +onlyGivenNames s0
    have h_s0 : Keeps st0 s0 := by
      unfold s0
      refine keeps_ite (fun _ => ?_) (fun _ => ?_)
      · exact hk
      · with_reducible apply keeps_cmpForget
        exact hk
    clear_value s0
    extract_lets +onlyGivenNames s1
    have h_s1 : Keeps st0 s1 := by
      unfold s1
      with_reducible apply keeps_chainSource
      with_reducible apply keeps_settle
      with_reducible apply keeps_setChain
      exact h_s0
    clear_value s1
    refine keeps_mk1 ?_
    split
    · rename_i e x_1 n_1 e_1
      with_reducible apply keeps_calSync
      exact h_s1
    · rename_i e x_1 e_1
      exact h_s1

theorem keeps_execChainSelectLane {s : State} (c : Cmd) (hk : Keeps st0 s) :
    OutKeeps st0 (execChainSelectLane c s) := by
  unfold execChainSelectLane
  with_reducible apply keeps_startCmd
  · intro c_1
    intro fid
    intro u
    intro s_1
    intro h
    refine keeps_eff_chainSelectLaneDef ?_
    exact h
  · exact hk

theorem keeps_eff_chainStartDef {s : State} {c : Cmd} {fid u : Nat} (hk : Keeps st0 s) :
    Keeps st0 ((chainStartDef).eff c fid u s).1 := by
  dsimp -zeta only [chainStartDef]
  extract_lets +onlyGivenNames d
  clear_value d
  extract_lets +onlyGivenNames c_1
  clear_value c_1
  extract_lets +onlyGivenNames x
  clear_value x
  refine keeps_ite1 (fun _ => ?_) (fun _ => ?_)
  · exact hk
  · refine keeps_ite1 (fun _ => ?_) (fun _ => ?_)
    · exact hk
    · extract_lets +onlyGivenNames x1_src1 x1
      clear_value x1
      refine keeps_mk1 ?_
      with_reducible apply keeps_settle
      with_reducible apply keeps_setChain
      exact hk

theorem keeps_execChainStart {s : State} (c : Cmd) (hk : Keeps st0 s) :
    OutKeeps st0 (execChainStart c s) := by
  unfold execChainStart
  with_reducible apply keeps_startCmd
  · intro c_1
    intro fid
    intro u
    intro s_1
    intro h
    dsimp -zeta only [chainStartDef]
    extract_lets +onlyGivenNames d
    clear_value d
    extract_lets +onlyGivenNames c_2
    clear_value c_2
    extract_lets +onlyGivenNames x
    clear_value x
    refine keeps_ite1 (fun _ => ?_) (fun _ => ?_)
    · exact h
    · refine keeps_ite1 (fun _ => ?_) (fun _ => ?_)
      · exact h
      · extract_lets +onlyGivenNames x1_src1 x1
        clear_value x1
        refine keeps_mk1 ?_
        with_reducible apply keeps_settle
        with_reducible apply keeps_setChain
        exact h
  · exact hk

theorem keeps_eff_chainStopDef {s : State} {c : Cmd} {fid u : Nat} (hk : Keeps st0 s) :
    Keeps st0 ((chainStopDef).eff c fid u s).1 := by
  dsimp -zeta only [chainStopDef]
  refine keeps_ite1 (fun _ => ?_) (fun _ => ?_)
  · exact hk
  · refine keeps_mk1 ?_
    with_reducible apply keeps_chainStop
    exact hk

theorem keeps_execChainStop {s : State} (c : Cmd) (hk : Keeps st0 s) :
    OutKeeps st0 (execChainStop c s) := by
  unfold execChainStop
  with_reducible apply keeps_startCmd
  · intro c_1
    intro fid
    intro u
    intro s_1
    intro h
    dsimp -zeta only [chainStopDef]
    refine keeps_ite1 (fun _ => ?_) (fun _ => ?_)
    · exact h
    · refine keeps_mk1 ?_
      with_reducible apply keeps_chainStop
      exact h
  · exact hk

theorem keeps_eff_maskLoadDef {s : State} {c : Cmd} {fid u : Nat} (hk : Keeps st0 s) :
    Keeps st0 ((maskLoadDef).eff c fid u s).1 := by
  dsimp -zeta only [maskLoadDef]
  extract_lets +onlyGivenNames d
  clear_value d
  extract_lets +onlyGivenNames c_1
  clear_value c_1
  extract_lets +onlyGivenNames x
  clear_value x
  extract_lets +onlyGivenNames es
  clear_value es
  refine keeps_mk1 ?_
  with_reducible apply keeps_setChain
  exact hk

theorem keeps_execMaskLoad {s : State} (c : Cmd) (hk : Keeps st0 s) :
    OutKeeps st0 (execMaskLoad c s) := by
  unfold execMaskLoad
  with_reducible apply keeps_startCmd
  · intro c_1
    intro fid
    intro u
    intro s_1
    intro h
    dsimp -zeta only [maskLoadDef]
    extract_lets +onlyGivenNames d
    clear_value d
    extract_lets +onlyGivenNames c_2
    clear_value c_2
    extract_lets +onlyGivenNames x
    clear_value x
    extract_lets +onlyGivenNames es
    clear_value es
    refine keeps_mk1 ?_
    with_reducible apply keeps_setChain
    exact h
  · exact hk

theorem keeps_eff_dcblockFreezeDef {s : State} {c : Cmd} {fid u : Nat} (hk : Keeps st0 s) :
    Keeps st0 ((dcblockFreezeDef).eff c fid u s).1 := by
  dsimp -zeta only [dcblockFreezeDef]
  with_reducible apply keeps_setChain
  exact hk

theorem keeps_execDcblockFreeze {s : State} (c : Cmd) (hk : Keeps st0 s) :
    OutKeeps st0 (execDcblockFreeze c s) := by
  unfold execDcblockFreeze
  with_reducible apply keeps_startCmd
  · intro c_1
    intro fid
    intro u
    intro s_1
    intro h
    dsimp -zeta only [dcblockFreezeDef]
    with_reducible apply keeps_setChain
    exact h
  · exact hk

end Sys2Proof.Machine
end

