-- ==== Sys2Proof/Laws/KeepsSheet.lean ====
section
/-!
SUPPORT. What keeps the part, the time, the queue and the canonical form of memory (`Keeps`): Machine/Sheet.
-/

namespace Sys2Proof.Machine

variable {st0 : State}

theorem keeps_postSat {s : State} (d k col row clear : Nat) (t : Stamp) (hk : Keeps st0 s) :
    Keeps st0 (postSat s d k col row clear t) := by
  unfold postSat
  with_reducible apply keeps_postStamp
  exact hk

theorem keeps_sheetAdd {s : State} (d k : Nat) (col row : Int) (n ph : Nat) (t : Stamp) (hk : Keeps st0 s) :
    Keeps st0 (sheetAdd s d k col row n ph t) := by
  unfold sheetAdd
  extract_lets +onlyGivenNames a
  clear_value a
  extract_lets +onlyGivenNames inside
  clear_value inside
  extract_lets +onlyGivenNames i
  clear_value i
  extract_lets +onlyGivenNames a1
  clear_value a1
  refine keeps_ite (fun _ => ?_) (fun _ => ?_)
  · extract_lets +onlyGivenNames s1
    have h_s1 : Keeps st0 s1 := by
      unfold s1
      with_reducible apply keeps_setAcc
      exact hk
    clear_value s1
    split
    · rename_i e x x_1 e_1
      refine keeps_ite (fun _ => ?_) (fun _ => ?_)
      · with_reducible apply keeps_postSat
        exact h_s1
      · exact h_s1
    · rename_i e x e_1
      exact h_s1
  · refine keeps_ite (fun _ => ?_) (fun _ => ?_)
    · with_reducible apply keeps_setAcc
      exact hk
    · extract_lets +onlyGivenNames sat
      extract_lets +onlyGivenNames s1
      have h_s1 : Keeps st0 s1 := by
        unfold s1
        with_reducible apply keeps_setAcc
        exact hk
      clear_value s1
      refine keeps_ite (fun _ => ?_) (fun _ => ?_)
      · with_reducible apply keeps_postSat
        exact h_s1
      · exact h_s1

theorem keeps_sheetSpectrum {s : State} (d c : Nat) (bins : List Int) (stale : Bool) (t : Stamp) (hk : Keeps st0 s) :
    Keeps st0 (sheetSpectrum s d c bins stale t) := by
  unfold sheetSpectrum
  extract_lets +onlyGivenNames a
  clear_value a
  extract_lets +onlyGivenNames g
  clear_value g
  refine keeps_ite (fun _ => ?_) (fun _ => ?_)
  · exact hk
  · refine keeps_ite (fun _ => ?_) (fun _ => ?_)
    · with_reducible apply keeps_incF
      exact hk
    · extract_lets +onlyGivenNames b
      clear_value b
      extract_lets +onlyGivenNames x_1
      clear_value x_1
      extract_lets +onlyGivenNames ph
      clear_value ph
      refine keeps_foldl ?_ ?_
      · intro s_1
        intro x_2
        intro h
        extract_lets +onlyGivenNames lo
        clear_value lo
        extract_lets +onlyGivenNames hi
        clear_value hi
        with_reducible apply keeps_sheetAdd
        exact h
      · exact hk

theorem keeps_sheetSegment {s : State} (d c format : Nat) (smps : List Smp) (trig tc tcPhys : Nat) (hk : Keeps st0 s) :
    Keeps st0 (sheetSegment s d c format smps trig tc tcPhys) := by
  unfold sheetSegment
  extract_lets +onlyGivenNames g
  clear_value g
  refine keeps_ite (fun _ => ?_) (fun _ => ?_)
  · exact hk
  · extract_lets +onlyGivenNames idx
    clear_value idx
    extract_lets +onlyGivenNames mine
    clear_value mine
    refine keeps_ite (fun _ => ?_) (fun _ => ?_)
    · with_reducible apply keeps_incF
      exact hk
    · refine keeps_foldl ?_ ?_
      · intro s_1
        intro x_1
        intro h
        with_reducible apply keeps_sheetAdd
        exact h
      · exact hk

theorem keeps_writeExport {s : State} (d k : Nat) (x : SheetExport) (n m : Nat) (l : List Byte) (hk : Keeps st0 s) :
    Keeps st0 (writeExport d k x n m l s) := by
  induction m generalizing s l with
  | zero => exact hk
  | succ m ih => exact ih _ (keeps_hostWrite _ _ _ hk)

theorem keeps_execSheetExportDone {s : State} (d k : Nat) (hk : Keeps st0 s) :
    OutKeeps st0 (execSheetExportDone d k s) := by
  unfold execSheetExportDone
  with_reducible apply keeps_onDie
  · exact hk
  · intro s_1
    intro h
    extract_lets +onlyGivenNames a
    clear_value a
    split
    · rename_i x e
      exact h
    · rename_i x x_1 e
      with_reducible apply keeps_whenB
      · exact h
      · intro s_2
        intro h_1
        extract_lets +onlyGivenNames l
        clear_value l
        extract_lets +onlyGivenNames n
        clear_value n
        extract_lets +onlyGivenNames s1
        have h_s1 : Keeps st0 s1 := by
          unfold s1
          split
          · rename_i x_2 h_2 snd e_1
            with_reducible apply keeps_memWrite
            exact h_1
          · rename_i x_2 e_1
            exact h_1
        clear_value s1
        extract_lets +onlyGivenNames s2
        have h_s2 : Keeps st0 s2 := by
          unfold s2
          with_reducible apply keeps_writeExport
          exact h_s1
        clear_value s2
        extract_lets +onlyGivenNames s3_src1 s3
        have h_s3 : Keeps st0 s3 := by
          unfold s3
          with_reducible apply keeps_setAcc
          exact h_s2
        clear_value s3
        extract_lets +onlyGivenNames s4
        have h_s4 : Keeps st0 s4 := by
          unfold s4
          with_reducible apply keeps_post
          exact h_s3
        clear_value s4
        with_reducible apply keeps_unitDone
        exact h_s4

theorem keeps_allocAddr {s : State}  (hk : Keeps st0 s) :
    Keeps st0 (allocAddr s).2 := by
  unfold allocAddr
  extract_lets +onlyGivenNames v
  have h_v : Keeps st0 v.2 := by
    unfold v
    with_reducible apply keeps_drawFree
    exact hk
  clear_value v
  exact h_v

theorem keeps_eff_sheetConfigureDef {s : State} {c : Cmd} {fid u : Nat} (hk : Keeps st0 s) :
    Keeps st0 ((sheetConfigureDef).eff c fid u s).1 := by
  dsimp -zeta only [sheetConfigureDef]
  extract_lets +onlyGivenNames d
  clear_value d
  extract_lets +onlyGivenNames k
  clear_value k
  extract_lets +onlyGivenNames a
  clear_value a
  extract_lets +onlyGivenNames g
  clear_value g
  extract_lets +onlyGivenNames need
  clear_value need
  extract_lets +onlyGivenNames have_
  clear_value have_
  refine keeps_ite1 (fun _ => ?_) (fun _ => ?_)
  · exact hk
  · refine keeps_ite1 (fun _ => ?_) (fun _ => ?_)
    · exact hk
    · extract_lets +onlyGivenNames s1
      have h_s1 : Keeps st0 s1 := by
        unfold s1
        with_reducible apply keeps_setPoolFree
        exact hk
      clear_value s1
      extract_lets +onlyGivenNames r_src1 r
      have h_r : Keeps st0 r.2 := by
        unfold r
        refine keeps_ite2 (fun _ => ?_) (fun _ => ?_)
        · exact h_s1
        · refine keeps_ite2 (fun _ => ?_) (fun _ => ?_)
          · exact h_s1
          · refine keeps_mk2 ?_
            unfold r_src1
            with_reducible apply keeps_allocAddr
            exact h_s1
      clear_value r
      extract_lets +onlyGivenNames a1_src1 a1
      clear_value a1
      refine keeps_mk1 ?_
      with_reducible apply keeps_setAcc
      exact h_r

theorem keeps_execSheetConfigure {s : State} (c : Cmd) (hk : Keeps st0 s) :
    OutKeeps st0 (execSheetConfigure c s) := by
  unfold execSheetConfigure
  with_reducible apply keeps_startCmd
  · intro c_1
    intro fid
    intro u
    intro s_1
    intro h
    dsimp -zeta only [sheetConfigureDef]
    extract_lets +onlyGivenNames d
    clear_value d
    extract_lets +onlyGivenNames k
    clear_value k
    extract_lets +onlyGivenNames a
    clear_value a
    extract_lets +onlyGivenNames g
    clear_value g
    extract_lets +onlyGivenNames need
    clear_value need
    extract_lets +onlyGivenNames have_
    clear_value have_
    refine keeps_ite1 (fun _ => ?_) (fun _ => ?_)
    · exact h
    · refine keeps_ite1 (fun _ => ?_) (fun _ => ?_)
      · exact h
      · extract_lets +onlyGivenNames s1
        have h_s1 : Keeps st0 s1 := by
          unfold s1
          with_reducible apply keeps_setPoolFree
          exact h
        clear_value s1
        extract_lets +onlyGivenNames r_src1 r
        have h_r : Keeps st0 r.2 := by
          unfold r
          refine keeps_ite2 (fun _ => ?_) (fun _ => ?_)
          · exact h_s1
          · refine keeps_ite2 (fun _ => ?_) (fun _ => ?_)
            · exact h_s1
            · refine keeps_mk2 ?_
              unfold r_src1
              with_reducible apply keeps_allocAddr
              exact h_s1
        clear_value r
        extract_lets +onlyGivenNames a1_src1 a1
        clear_value a1
        refine keeps_mk1 ?_
        with_reducible apply keeps_setAcc
        exact h_r
  · exact hk

theorem keeps_eff_sheetClearDef {s : State} {c : Cmd} {fid u : Nat} (hk : Keeps st0 s) :
    Keeps st0 ((sheetClearDef).eff c fid u s).1 := by
  dsimp -zeta only [sheetClearDef]
  extract_lets +onlyGivenNames d
  clear_value d
  extract_lets +onlyGivenNames a
  clear_value a
  refine keeps_ite1 (fun _ => ?_) (fun _ => ?_)
  · exact hk
  · refine keeps_ite1 (fun _ => ?_) (fun _ => ?_)
    · exact hk
    · refine keeps_ite1 (fun _ => ?_) (fun _ => ?_)
      · exact hk
      · refine keeps_mk1 ?_
        with_reducible apply keeps_setAcc
        exact hk

theorem keeps_execSheetClear {s : State} (c : Cmd) (hk : Keeps st0 s) :
    OutKeeps st0 (execSheetClear c s) := by
  unfold execSheetClear
  with_reducible apply keeps_startCmd
  · intro c_1
    intro fid
    intro u
    intro s_1
    intro h
    dsimp -zeta only [sheetClearDef]
    extract_lets +onlyGivenNames d
    clear_value d
    extract_lets +onlyGivenNames a
    clear_value a
    refine keeps_ite1 (fun _ => ?_) (fun _ => ?_)
    · exact h
    · refine keeps_ite1 (fun _ => ?_) (fun _ => ?_)
      · exact h
      · refine keeps_ite1 (fun _ => ?_) (fun _ => ?_)
        · exact h
        · refine keeps_mk1 ?_
          with_reducible apply keeps_setAcc
          exact h
  · exact hk

theorem keeps_eff_sheetExportDef {s : State} {c : Cmd} {fid u : Nat} (hk : Keeps st0 s) :
    Keeps st0 ((sheetExportDef).eff c fid u s).1 := by
  dsimp -zeta only [sheetExportDef]
  extract_lets +onlyGivenNames d
  clear_value d
  extract_lets +onlyGivenNames k
  clear_value k
  extract_lets +onlyGivenNames a
  clear_value a
  extract_lets +onlyGivenNames buf
  clear_value buf
  refine keeps_ite1 (fun _ => ?_) (fun _ => ?_)
  · exact hk
  · refine keeps_ite1 (fun _ => ?_) (fun _ => ?_)
    · exact hk
    · refine keeps_ite1 (fun _ => ?_) (fun _ => ?_)
      · exact hk
      · refine keeps_ite1 (fun _ => ?_) (fun _ => ?_)
        · exact hk
        · extract_lets +onlyGivenNames clr
          extract_lets +onlyGivenNames x_1
          clear_value x_1
          extract_lets +onlyGivenNames a1
          clear_value a1
          refine keeps_mk1 ?_
          with_reducible apply keeps_setAcc
          exact hk

theorem keeps_execSheetExport {s : State} (c : Cmd) (hk : Keeps st0 s) :
    OutKeeps st0 (execSheetExport c s) := by
  unfold execSheetExport
  with_reducible apply keeps_startCmd
  · intro c_1
    intro fid
    intro u
    intro s_1
    intro h
    dsimp -zeta only [sheetExportDef]
    extract_lets +onlyGivenNames d
    clear_value d
    extract_lets +onlyGivenNames k
    clear_value k
    extract_lets +onlyGivenNames a
    clear_value a
    extract_lets +onlyGivenNames buf
    clear_value buf
    refine keeps_ite1 (fun _ => ?_) (fun _ => ?_)
    · exact h
    · refine keeps_ite1 (fun _ => ?_) (fun _ => ?_)
      · exact h
      · refine keeps_ite1 (fun _ => ?_) (fun _ => ?_)
        · exact h
        · refine keeps_ite1 (fun _ => ?_) (fun _ => ?_)
          · exact h
          · extract_lets +onlyGivenNames clr
            extract_lets +onlyGivenNames x_1
            clear_value x_1
            extract_lets +onlyGivenNames a1
            clear_value a1
            refine keeps_mk1 ?_
            with_reducible apply keeps_setAcc
            exact h
  · exact hk

end Sys2Proof.Machine
end

