-- ==== Sys2Proof/Laws/KeepsMeasure.lean ====
section
/-!
SUPPORT. What keeps the part, the time, the queue and the canonical form of memory (`Keeps`): Machine/Measure.
-/

namespace Sys2Proof.Machine

variable {st0 : State}

theorem keeps_measure {s : State} (m : MeasCfg) (l : List MSmp) (hk : Keeps st0 s) :
    Keeps st0 (measure m l s).2 := by
  unfold measure
  refine keeps_ite2 (fun _ => ?_) (fun _ => ?_)
  · exact hk
  · extract_lets +onlyGivenNames n
    clear_value n
    extract_lets +onlyGivenNames mn
    clear_value mn
    extract_lets +onlyGivenNames mx
    clear_value mx
    extract_lets +onlyGivenNames sx
    clear_value sx
    extract_lets +onlyGivenNames mid
    clear_value mid
    extract_lets +onlyGivenNames hi
    clear_value hi
    extract_lets +onlyGivenNames lows
    clear_value lows
    extract_lets +onlyGivenNames lo
    clear_value lo
    extract_lets +onlyGivenNames top
    have h_top : Keeps st0 top.2 := by
      unfold top
      with_reducible apply keeps_openDivInt
      exact hk
    clear_value top
    extract_lets +onlyGivenNames base
    have h_base : Keeps st0 base.2 := by
      unfold base
      refine keeps_ite2 (fun _ => ?_) (fun _ => ?_)
      · exact h_top
      · with_reducible apply keeps_openDivInt
        exact h_top
    clear_value base
    extract_lets +onlyGivenNames t
    clear_value t
    extract_lets +onlyGivenNames b
    clear_value b
    extract_lets +onlyGivenNames amp
    clear_value amp
    extract_lets +onlyGivenNames lev
    clear_value lev
    extract_lets +onlyGivenNames lMid
    clear_value lMid
    extract_lets +onlyGivenNames lLo
    clear_value lLo
    extract_lets +onlyGivenNames lHi
    clear_value lHi
    extract_lets +onlyGivenNames mc
    clear_value mc
    extract_lets +onlyGivenNames rises
    clear_value rises
    extract_lets +onlyGivenNames firstOf
    clear_value firstOf
    extract_lets +onlyGivenNames rise
    clear_value rise
    extract_lets +onlyGivenNames fall
    clear_value fall
    extract_lets +onlyGivenNames period
    clear_value period
    extract_lets +onlyGivenNames ps
    clear_value ps
    extract_lets +onlyGivenNames width_src1 width
    have h_width : Keeps st0 width.2 := by
      unfold width
      refine keeps_ite2 (fun _ => ?_) (fun _ => ?_)
      · exact h_base
      · refine keeps_mk2 ?_
        unfold width_src1
        with_reducible apply keeps_openDivInt
        exact h_base
    clear_value width
    extract_lets +onlyGivenNames duty
    have h_duty : Keeps st0 duty.2 := by
      unfold duty
      split
      · rename_i e x x_1 a b_1 e_1
        refine keeps_ite2 (fun _ => ?_) (fun _ => ?_)
        · exact h_width
        · extract_lets +onlyGivenNames q
          have h_q : Keeps st0 q.2 := by
            unfold q
            with_reducible apply keeps_openDivInt
            exact h_width
          clear_value q
          extract_lets +onlyGivenNames v
          have h_v : Keeps st0 v.2 := by
            unfold v
            with_reducible apply keeps_drawFree
            exact h_q
          clear_value v
          refine keeps_ite2 (fun _ => ?_) (fun _ => ?_)
          · exact h_v
          · exact h_q
      · rename_i e x x_1 x_2 e_1
        exact h_width
    clear_value duty
    exact h_duty

theorem keeps_measureEnv {s : State} (d i : Nat) (k : Closing) (asleep : Bool) (hk : Keeps st0 s) :
    Keeps st0 (measureEnv s d i k asleep).2 := by
  unfold measureEnv
  extract_lets +onlyGivenNames m
  clear_value m
  extract_lets +onlyGivenNames y
  clear_value y
  extract_lets +onlyGivenNames gate
  clear_value gate
  extract_lets +onlyGivenNames l
  clear_value l
  extract_lets +onlyGivenNames r
  have h_r : Keeps st0 r.2 := by
    unfold r
    refine keeps_ite2 (fun _ => ?_) (fun _ => ?_)
    · exact hk
    · with_reducible apply keeps_measure
      exact hk
  clear_value r
  extract_lets +onlyGivenNames stale
  clear_value stale
  extract_lets +onlyGivenNames gap
  clear_value gap
  extract_lets +onlyGivenNames first
  have h_first : Keeps st0 first.2 := by
    unfold first
    split
    · rename_i gate p tail
      exact h_r
    · rename_i gate
      with_reducible apply keeps_drawFree
      exact h_r
  clear_value first
  exact h_first

theorem keeps_execDensitometerReadbackDone {s : State} (d c : Nat) (hk : Keeps st0 s) :
    OutKeeps st0 (execDensitometerReadbackDone d c s) := by
  unfold execDensitometerReadbackDone
  with_reducible apply keeps_onDie
  · exact hk
  · intro s_1
    intro h
    extract_lets +onlyGivenNames i
    clear_value i
    extract_lets +onlyGivenNames x
    clear_value x
    split
    · rename_i x_1 e
      exact h
    · rename_i x_1 k e
      with_reducible apply keeps_whenB
      · exact h
      · intro s_2
        intro h_1
        extract_lets +onlyGivenNames up
        clear_value up
        extract_lets +onlyGivenNames s1
        have h_s1 : Keeps st0 s1 := by
          unfold s1
          refine keeps_ite (fun _ => ?_) (fun _ => ?_)
          · with_reducible apply keeps_sheetSegment
            exact h_1
          · exact h_1
        clear_value s1
        extract_lets +onlyGivenNames r_src1 r
        have h_r : Keeps st0 r.2 := by
          unfold r
          refine keeps_ite2 (fun _ => ?_) (fun _ => ?_)
          · refine keeps_mk2 ?_
            with_reducible apply keeps_wrapF
            unfold r_src1
            with_reducible apply keeps_measureEnv
            exact h_s1
          · exact h_s1
        clear_value r
        extract_lets +onlyGivenNames y
        clear_value y
        with_reducible apply keeps_setStream
        exact h_r

theorem keeps_eff_measureConfigureDef {s : State} {c : Cmd} {fid u : Nat} (hk : Keeps st0 s) :
    Keeps st0 ((measureConfigureDef).eff c fid u s).1 := by
  dsimp -zeta only [measureConfigureDef]
  extract_lets +onlyGivenNames d
  clear_value d
  extract_lets +onlyGivenNames k
  clear_value k
  refine keeps_ite1 (fun _ => ?_) (fun _ => ?_)
  · exact hk
  · refine keeps_ite1 (fun _ => ?_) (fun _ => ?_)
    · exact hk
    · extract_lets +onlyGivenNames x_1
      clear_value x_1
      refine keeps_mk1 ?_
      with_reducible apply keeps_setMeas
      with_reducible apply keeps_keepMeas
      exact hk

theorem keeps_execMeasureConfigure {s : State} (c : Cmd) (hk : Keeps st0 s) :
    OutKeeps st0 (execMeasureConfigure c s) := by
  unfold execMeasureConfigure
  with_reducible apply keeps_startCmd
  · intro c_1
    intro fid
    intro u
    intro s_1
    intro h
    refine keeps_eff_measureConfigureDef ?_
    exact h
  · exact hk

end Sys2Proof.Machine
end

