-- ==== Sys2Proof/Laws/KeepsSpectrum.lean ====
section
/-!
SUPPORT. What keeps the part, the time, the queue and the canonical form of memory (`Keeps`): Machine/Spectrum.
-/

namespace Sys2Proof.Machine

variable {st0 : State}

theorem keeps_maskJudge {s : State} (d c : Nat) (bins : List Int) (mask : Tab (Int × Int)) (t : Stamp) (tick : Nat) (hk : Keeps st0 s) :
    Keeps st0 (maskJudge s d c bins mask t tick) := by
  unfold maskJudge
  extract_lets +onlyGivenNames st
  clear_value st
  extract_lets +onlyGivenNames g
  clear_value g
  extract_lets +onlyGivenNames s1_src1 s1
  have h_s1 : Keeps st0 s1 := by
    unfold s1
    with_reducible apply keeps_setCmp
    exact hk
  clear_value s1
  refine keeps_ite (fun _ => ?_) (fun _ => ?_)
  · exact h_s1
  · extract_lets +onlyGivenNames hi
    clear_value hi
    extract_lets +onlyGivenNames bad
    clear_value bad
    extract_lets +onlyGivenNames fire
    refine keeps_ite (fun _ => ?_) (fun _ => ?_)
    · exact h_s1
    · extract_lets +onlyGivenNames first_src1 first
      have h_first : Keeps st0 first.2 := by
        unfold first
        split
        · rename_i e bad i tail e_1
          exact h_s1
        · rename_i e bad e_1
          refine keeps_mk2 ?_
          unfold first_src1
          with_reducible apply keeps_drawFree
          exact h_s1
      clear_value first
      with_reducible apply keeps_giveCand
      exact h_first

theorem keeps_exportSpectrum {s : State} (d c : Nat) (g : ChainCfg) (seq flags : Nat) (bins : List Int) (t : Stamp) (hk : Keeps st0 s) :
    Keeps st0 (exportSpectrum s d c g seq flags bins t) := by
  unfold exportSpectrum
  extract_lets +onlyGivenNames x
  clear_value x
  extract_lets +onlyGivenNames e
  clear_value e
  refine keeps_ite (fun _ => ?_) (fun _ => ?_)
  · exact hk
  · extract_lets +onlyGivenNames r
    have h_r : Keeps st0 r.2 := by
      unfold r
      with_reducible apply keeps_offerSpectrum
      exact hk
    clear_value r
    split
    · rename_i e_1 x_1 e_2
      exact hk
    · rename_i e_1 x_1 e_2
      with_reducible apply keeps_setChain
      exact h_r
    · rename_i e_1 x_1 e_2
      with_reducible apply keeps_incF
      with_reducible apply keeps_setChain
      exact hk

theorem keeps_execSpectrumDone {s : State} (d c : Nat) (hk : Keeps st0 s) :
    OutKeeps st0 (execSpectrumDone d c s) := by
  unfold execSpectrumDone
  with_reducible apply keeps_onDie
  · exact hk
  · intro s_1
    intro h
    extract_lets +onlyGivenNames x0
    clear_value x0
    split
    · rename_i x e
      exact h
    · rename_i x r rest e
      extract_lets +onlyGivenNames tick
      clear_value tick
      with_reducible apply keeps_whenB
      · exact h
      · intro s_2
        intro h_1
        extract_lets +onlyGivenNames ph
        clear_value ph
        extract_lets +onlyGivenNames e_1
        clear_value e_1
        extract_lets +onlyGivenNames m
        clear_value m
        extract_lets +onlyGivenNames s1
        have h_s1 : Keeps st0 s1 := by
          unfold s1
          with_reducible apply keeps_setChain
          exact h_1
        clear_value s1
        extract_lets +onlyGivenNames bins
        clear_value bins
        extract_lets +onlyGivenNames flags
        clear_value flags
        with_reducible apply keeps_exportSpectrum
        with_reducible apply keeps_sheetSpectrum
        with_reducible apply keeps_maskJudge
        exact h_s1

theorem keeps_crossGive {s : State} (d k : Nat) (g : CmpCfg) (x : Crossing) (hk : Keeps st0 s) :
    Keeps st0 (crossGive s d k g x) := by
  unfold crossGive
  extract_lets +onlyGivenNames rising
  clear_value rising
  refine keeps_ite (fun _ => ?_) (fun _ => ?_)
  · exact hk
  · extract_lets +onlyGivenNames t
    clear_value t
    extract_lets +onlyGivenNames stale
    clear_value stale
    with_reducible apply keeps_giveCand
    exact hk

theorem keeps_execLevelCrossing {s : State} (d k : Nat) (xa xb : Int) (ta tb : Stamp) (low high : Int) (hk : Keeps st0 s) :
    OutKeeps st0 (execLevelCrossing d k xa xb ta tb low high s) := by
  unfold execLevelCrossing
  with_reducible apply keeps_onDie
  · exact hk
  · intro s_1
    intro h
    extract_lets +onlyGivenNames m
    clear_value m
    extract_lets +onlyGivenNames g
    clear_value g
    extract_lets +onlyGivenNames x
    clear_value x
    with_reducible apply keeps_whenB
    · exact h
    · intro s_2
      intro h_1
      refine keeps_ite (fun _ => ?_) (fun _ => ?_)
      · split
        · rename_i e x_1 y rest e_1
          refine keeps_ite (fun _ => ?_) (fun _ => ?_)
          · with_reducible apply keeps_crossGive
            with_reducible apply keeps_setCmp
            exact h_1
          · exact h_1
        · rename_i e x_1 e_1
          exact h_1
      · extract_lets +onlyGivenNames m1
        clear_value m1
        extract_lets +onlyGivenNames up
        clear_value up
        extract_lets +onlyGivenNames down
        clear_value down
        extract_lets +onlyGivenNames s1
        have h_s1 : Keeps st0 s1 := by
          unfold s1
          with_reducible apply keeps_setCmp
          exact h_1
        clear_value s1
        refine keeps_ite (fun _ => ?_) (fun _ => ?_)
        · with_reducible apply keeps_crossGive
          exact h_s1
        · exact h_s1

end Sys2Proof.Machine
end

