-- ==== Sys2Proof/Laws/KeepsMonitor.lean ====
section
/-!
SUPPORT. What keeps the part, the time, the queue and the canonical form of memory (`Keeps`): Machine/Monitor.
-/

namespace Sys2Proof.Machine

variable {st0 : State}

theorem keeps_eff_monitorSweepDef {s : State} {c : Cmd} {fid u : Nat} (hk : Keeps st0 s) :
    Keeps st0 ((monitorSweepDef).eff c fid u s).1 := by
  dsimp -zeta only [monitorSweepDef]
  extract_lets +onlyGivenNames d
  clear_value d
  extract_lets +onlyGivenNames n
  clear_value n
  extract_lets +onlyGivenNames l
  clear_value l
  extract_lets +onlyGivenNames w
  clear_value w
  extract_lets +onlyGivenNames k
  clear_value k
  extract_lets +onlyGivenNames a
  clear_value a
  refine keeps_ite1 (fun _ => ?_) (fun _ => ?_)
  · split
    · rename_i e x x_1 e_1
      refine keeps_mk1 ?_
      with_reducible apply keeps_setLane
      exact hk
    · rename_i e x e_1
      refine keeps_ite1 (fun _ => ?_) (fun _ => ?_)
      · exact hk
      · exact hk
  · refine keeps_ite1 (fun _ => ?_) (fun _ => ?_)
    · exact hk
    · refine keeps_ite1 (fun _ => ?_) (fun _ => ?_)
      · exact hk
      · refine keeps_ite1 (fun _ => ?_) (fun _ => ?_)
        · exact hk
        · refine keeps_ite1 (fun _ => ?_) (fun _ => ?_)
          · exact hk
          · refine keeps_ite1 (fun _ => ?_) (fun _ => ?_)
            · exact hk
            · extract_lets +onlyGivenNames s1_src1 s1
              have h_s1 : Keeps st0 s1 := by
                unfold s1
                refine keeps_ite (fun _ => ?_) (fun _ => ?_)
                · refine keeps_upd ?_ ..
                  exact hk
                · exact hk
              clear_value s1
              refine keeps_mk1 ?_
              with_reducible apply keeps_setLane
              exact h_s1

theorem keeps_execMonitorSweep {s : State} (c : Cmd) (hk : Keeps st0 s) :
    OutKeeps st0 (execMonitorSweep c s) := by
  unfold execMonitorSweep
  with_reducible apply keeps_startCmd
  · intro c_1
    intro fid
    intro u
    intro s_1
    intro h
    dsimp -zeta only [monitorSweepDef]
    extract_lets +onlyGivenNames d
    clear_value d
    extract_lets +onlyGivenNames n
    clear_value n
    extract_lets +onlyGivenNames l
    clear_value l
    extract_lets +onlyGivenNames w
    clear_value w
    extract_lets +onlyGivenNames k
    clear_value k
    extract_lets +onlyGivenNames a
    clear_value a
    refine keeps_ite1 (fun _ => ?_) (fun _ => ?_)
    · split
      · rename_i e x x_1 e_1
        refine keeps_mk1 ?_
        with_reducible apply keeps_setLane
        exact h
      · rename_i e x e_1
        refine keeps_ite1 (fun _ => ?_) (fun _ => ?_)
        · exact h
        · exact h
    · refine keeps_ite1 (fun _ => ?_) (fun _ => ?_)
      · exact h
      · refine keeps_ite1 (fun _ => ?_) (fun _ => ?_)
        · exact h
        · refine keeps_ite1 (fun _ => ?_) (fun _ => ?_)
          · exact h
          · refine keeps_ite1 (fun _ => ?_) (fun _ => ?_)
            · exact h
            · refine keeps_ite1 (fun _ => ?_) (fun _ => ?_)
              · exact h
              · extract_lets +onlyGivenNames s1_src1 s1
                have h_s1 : Keeps st0 s1 := by
                  unfold s1
                  refine keeps_ite (fun _ => ?_) (fun _ => ?_)
                  · refine keeps_upd ?_ ..
                    exact h
                  · exact h
                clear_value s1
                refine keeps_mk1 ?_
                with_reducible apply keeps_setLane
                exact h_s1
  · exact hk

theorem keeps_eyePoint {s : State} (d k : Nat) (w : Sweep) (count : Nat) (hk : Keeps st0 s) :
    Keeps st0 (eyePoint s d k w count) := by
  unfold eyePoint
  extract_lets +onlyGivenNames np
  clear_value np
  extract_lets +onlyGivenNames nv
  clear_value nv
  extract_lets +onlyGivenNames p
  clear_value p
  extract_lets +onlyGivenNames i
  clear_value i
  extract_lets +onlyGivenNames prev
  clear_value prev
  extract_lets +onlyGivenNames t
  clear_value t
  extract_lets +onlyGivenNames add
  have h_add : ∀ v0 v1 v2, Keeps st0 v0 → Keeps st0 (add v0 v1 v2) := by
    unfold add
    intro v0
    intro v1
    intro v2
    intro h
    refine keeps_ite (fun _ => ?_) (fun _ => ?_)
    · exact h
    · with_reducible apply keeps_sheetAdd
      exact h
  clear_value add
  extract_lets +onlyGivenNames s1
  have h_s1 : Keeps st0 s1 := by
    unfold s1
    refine keeps_ite (fun _ => ?_) (fun _ => ?_)
    · refine h_add _ _ _ ?_
      exact hk
    · exact hk
  clear_value s1
  extract_lets +onlyGivenNames s2
  have h_s2 : Keeps st0 s2 := by
    unfold s2
    refine keeps_ite (fun _ => ?_) (fun _ => ?_)
    · refine h_add _ _ _ ?_
      exact h_s1
    · exact h_s1
  clear_value s2
  extract_lets +onlyGivenNames row
  clear_value row
  refine keeps_upd ?_ ..
  exact h_s2

theorem keeps_execMonitorPointDone {s : State} (d n count : Nat) (hk : Keeps st0 s) :
    OutKeeps st0 (execMonitorPointDone d n count s) := by
  unfold execMonitorPointDone
  with_reducible apply keeps_onDie
  · exact hk
  · intro s_1
    intro h
    extract_lets +onlyGivenNames l
    clear_value l
    split
    · rename_i x e
      exact h
    · rename_i x w e
      with_reducible apply keeps_whenB
      · exact h
      · intro s_2
        intro h_1
        extract_lets +onlyGivenNames v
        clear_value v
        extract_lets +onlyGivenNames s1
        have h_s1 : Keeps st0 s1 := by
          unfold s1
          refine keeps_ite (fun _ => ?_) (fun _ => ?_)
          · exact h_1
          · with_reducible apply keeps_hostWrite
            exact h_1
        clear_value s1
        extract_lets +onlyGivenNames s2
        have h_s2 : Keeps st0 s2 := by
          unfold s2
          refine keeps_ite (fun _ => ?_) (fun _ => ?_)
          · with_reducible apply keeps_eyePoint
            exact h_s1
          · exact h_s1
        clear_value s2
        extract_lets +onlyGivenNames last
        extract_lets +onlyGivenNames w1
        clear_value w1
        extract_lets +onlyGivenNames s3_src1 s3
        have h_s3 : Keeps st0 s3 := by
          unfold s3
          with_reducible apply keeps_setLane
          exact h_s2
        clear_value s3
        refine keeps_ite (fun _ => ?_) (fun _ => ?_)
        · with_reducible apply keeps_endSweep
          exact h_s3
        · exact h_s3

end Sys2Proof.Machine
end

