-- ==== Sys2Proof/Laws/KeepsCal.lean ====
section
/-!
SUPPORT. What keeps the part, the time, the queue and the canonical form of memory (`Keeps`): Machine/Cal.
-/

namespace Sys2Proof.Machine

variable {st0 : State}

theorem keeps_calFail {s : State} (d n result : Nat) (t : Stamp) (hk : Keeps st0 s) :
    Keeps st0 (calFail s d n result t) := by
  unfold calFail
  extract_lets +onlyGivenNames x
  clear_value x
  extract_lets +onlyGivenNames f
  clear_value f
  extract_lets +onlyGivenNames stuck
  clear_value stuck
  extract_lets +onlyGivenNames s1
  have h_s1 : Keeps st0 s1 := by
    unfold s1
    with_reducible apply keeps_incF
    with_reducible apply keeps_setCal
    exact hk
  clear_value s1
  refine keeps_ite (fun _ => ?_) (fun _ => ?_)
  · with_reducible apply keeps_postStamp
    exact h_s1
  · exact h_s1

theorem keeps_calSyncAll {s : State}  (hk : Keeps st0 s) :
    Keeps st0 (calSyncAll s) := by
  unfold calSyncAll
  refine keeps_foldl ?_ ?_
  · intro s_1
    intro x
    intro h
    with_reducible apply keeps_calSync
    exact h
  · exact hk

theorem keeps_execStripStart {s : State} (d n : Nat) (hk : Keeps st0 s) :
    OutKeeps st0 (execStripStart d n s) := by
  unfold execStripStart
  with_reducible apply keeps_onDie
  · exact hk
  · intro s_1
    intro h
    extract_lets +onlyGivenNames s_2
    have h_s_2 : Keeps st0 s_2 := by
      unfold s_2
      with_reducible apply keeps_calSync
      exact h
    clear_value s_2
    extract_lets +onlyGivenNames x
    clear_value x
    with_reducible apply keeps_whenB
    · exact h_s_2
    · intro s_3
      intro h_1
      with_reducible apply keeps_setCal
      exact h_1

theorem keeps_execStripWindowEnd {s : State} (d n k : Nat) (xs : List Int) (last : Stamp) (hk : Keeps st0 s) :
    OutKeeps st0 (execStripWindowEnd d n k xs last s) := by
  unfold execStripWindowEnd
  with_reducible apply keeps_onDie
  · exact hk
  · intro s_1
    intro h
    extract_lets +onlyGivenNames s_2
    have h_s_2 : Keeps st0 s_2 := by
      unfold s_2
      with_reducible apply keeps_calSync
      exact h
    clear_value s_2
    extract_lets +onlyGivenNames x
    clear_value x
    extract_lets +onlyGivenNames ph
    clear_value ph
    with_reducible apply keeps_whenB
    · exact h_s_2
    · intro s_3
      intro h_1
      extract_lets +onlyGivenNames w
      clear_value w
      extract_lets +onlyGivenNames x1
      clear_value x1
      split
      · rename_i x_1 r e
        with_reducible apply keeps_calFail
        with_reducible apply keeps_setCal
        exact h_1
      · rename_i x_1 e
        refine keeps_ite (fun _ => ?_) (fun _ => ?_)
        · with_reducible apply keeps_setCal
          exact h_1
        · with_reducible apply keeps_setCal
          exact h_1

theorem keeps_meanOf {s : State} (a b : Int × Int × Int) (hk : Keeps st0 s) :
    Keeps st0 (meanOf s a b).2 := by
  unfold meanOf
  extract_lets +onlyGivenNames x
  have h_x : Keeps st0 x.2 := by
    unfold x
    with_reducible apply keeps_openDivInt
    exact hk
  clear_value x
  extract_lets +onlyGivenNames y
  have h_y : Keeps st0 y.2 := by
    unfold y
    with_reducible apply keeps_openDivInt
    exact h_x
  clear_value y
  extract_lets +onlyGivenNames z
  have h_z : Keeps st0 z.2 := by
    unfold z
    with_reducible apply keeps_openDivInt
    exact h_y
  clear_value z
  exact h_z

theorem keeps_calMeans {s : State} (u v : CalVec) (hk : Keeps st0 s) : Keeps st0 (calMeans s u v).2 := by
  induction u generalizing s v with
  | nil => exact hk
  | cons a r ih =>
    cases v with
    | nil => exact hk
    | cons b t => exact ih _ (keeps_meanOf _ _ hk)

theorem keeps_execStripEvaluate {s : State} (d n : Nat) (hk : Keeps st0 s) :
    OutKeeps st0 (execStripEvaluate d n s) := by
  unfold execStripEvaluate
  with_reducible apply keeps_onDie
  · exact hk
  · intro s_1
    intro h
    extract_lets +onlyGivenNames s_2
    have h_s_2 : Keeps st0 s_2 := by
      unfold s_2
      with_reducible apply keeps_calSync
      exact h
    clear_value s_2
    extract_lets +onlyGivenNames x
    clear_value x
    split
    · rename_i x_1 t e
      with_reducible apply keeps_whenB
      · exact h_s_2
      · intro s_3
        intro h_1
        refine keeps_ite (fun _ => ?_) (fun _ => ?_)
        · with_reducible apply keeps_calFail
          exact h_1
        · extract_lets +onlyGivenNames r
          have h_r : Keeps st0 r.2 := by
            unfold r
            with_reducible apply keeps_calMeans
            exact h_1
          clear_value r
          extract_lets +onlyGivenNames m
          clear_value m
          extract_lets +onlyGivenNames x1
          clear_value x1
          extract_lets +onlyGivenNames v
          clear_value v
          refine keeps_ite (fun _ => ?_) (fun _ => ?_)
          · with_reducible apply keeps_setCal
            exact h_r
          · refine keeps_ite (fun _ => ?_) (fun _ => ?_)
            · with_reducible apply keeps_calApply
              with_reducible apply keeps_setCal
              exact h_r
            · refine keeps_ite (fun _ => ?_) (fun _ => ?_)
              · with_reducible apply keeps_calApply
                with_reducible apply keeps_setCal
                exact h_r
              · with_reducible apply keeps_setCal
                exact h_r
    · rename_i x_1 e
      exact h_s_2

theorem keeps_execGapIdleApply {s : State} (d n : Nat) (hk : Keeps st0 s) :
    OutKeeps st0 (execGapIdleApply d n s) := by
  unfold execGapIdleApply
  with_reducible apply keeps_onDie
  · exact hk
  · intro s_1
    intro h
    extract_lets +onlyGivenNames s_2
    have h_s_2 : Keeps st0 s_2 := by
      unfold s_2
      with_reducible apply keeps_calSync
      exact h
    clear_value s_2
    extract_lets +onlyGivenNames x
    clear_value x
    with_reducible apply keeps_whenB
    · exact h_s_2
    · intro s_3
      intro h_1
      with_reducible apply keeps_calApply
      exact h_1

theorem keeps_execGapWaitExpiry {s : State} (d n : Nat) (hk : Keeps st0 s) :
    OutKeeps st0 (execGapWaitExpiry d n s) := by
  unfold execGapWaitExpiry
  with_reducible apply keeps_onDie
  · exact hk
  · intro s_1
    intro h
    extract_lets +onlyGivenNames s_2
    have h_s_2 : Keeps st0 s_2 := by
      unfold s_2
      with_reducible apply keeps_calSync
      exact h
    clear_value s_2
    extract_lets +onlyGivenNames x
    clear_value x
    with_reducible apply keeps_whenB
    · exact h_s_2
    · intro s_3
      intro h_1
      refine keeps_ite (fun _ => ?_) (fun _ => ?_)
      · with_reducible apply keeps_calApply
        exact h_1
      · with_reducible apply keeps_calFail
        with_reducible apply keeps_setCal
        exact h_1

theorem keeps_execStaleIntervalEnd {s : State} (d n : Nat) (hk : Keeps st0 s) :
    OutKeeps st0 (execStaleIntervalEnd d n s) := by
  unfold execStaleIntervalEnd
  with_reducible apply keeps_onDie
  · exact hk
  · intro s_1
    intro h
    extract_lets +onlyGivenNames x
    clear_value x
    with_reducible apply keeps_whenB
    · exact h
    · intro s_2
      intro h_1
      with_reducible apply keeps_setCal
      exact h_1

theorem keeps_eff_calConfigureDef {s : State} {c : Cmd} {fid u : Nat} (hk : Keeps st0 s) :
    Keeps st0 ((calConfigureDef).eff c fid u s).1 := by
  dsimp -zeta only [calConfigureDef]
  extract_lets +onlyGivenNames d
  clear_value d
  extract_lets +onlyGivenNames n
  clear_value n
  extract_lets +onlyGivenNames s_1
  have h_s_1 : Keeps st0 s_1 := by
    unfold s_1
    with_reducible apply keeps_calSync
    exact hk
  clear_value s_1
  extract_lets +onlyGivenNames x
  clear_value x
  extract_lets +onlyGivenNames p
  clear_value p
  refine keeps_mk1 ?_
  with_reducible apply keeps_calSync
  with_reducible apply keeps_setCal
  exact h_s_1

theorem keeps_execCalConfigure {s : State} (c : Cmd) (hk : Keeps st0 s) :
    OutKeeps st0 (execCalConfigure c s) := by
  unfold execCalConfigure
  with_reducible apply keeps_startCmd
  · intro c_1
    intro fid
    intro u
    intro s_1
    intro h
    refine keeps_eff_calConfigureDef ?_
    exact h
  · exact hk

theorem keeps_eff_calLoadDef {s : State} {c : Cmd} {fid u : Nat} (hk : Keeps st0 s) :
    Keeps st0 ((calLoadDef).eff c fid u s).1 := by
  dsimp -zeta only [calLoadDef]
  extract_lets +onlyGivenNames d
  clear_value d
  extract_lets +onlyGivenNames ls
  clear_value ls
  refine keeps_ite1 (fun _ => ?_) (fun _ => ?_)
  · exact hk
  · refine keeps_ite1 (fun _ => ?_) (fun _ => ?_)
    · exact hk
    · refine keeps_mk1 ?_
      refine keeps_foldl ?_ ?_
      · intro s_1
        intro x_1
        intro h
        extract_lets +onlyGivenNames n
        clear_value n
        with_reducible apply keeps_setCal
        exact h
      · exact hk

theorem keeps_execCalLoad {s : State} (c : Cmd) (hk : Keeps st0 s) :
    OutKeeps st0 (execCalLoad c s) := by
  unfold execCalLoad
  with_reducible apply keeps_startCmd
  · intro c_1
    intro fid
    intro u
    intro s_1
    intro h
    refine keeps_eff_calLoadDef ?_
    exact h
  · exact hk

theorem keeps_eff_calSaveDef {s : State} {c : Cmd} {fid u : Nat} (hk : Keeps st0 s) :
    Keeps st0 ((calSaveDef).eff c fid u s).1 := by
  dsimp -zeta only [calSaveDef]
  extract_lets +onlyGivenNames ls
  clear_value ls
  refine keeps_ite1 (fun _ => ?_) (fun _ => ?_)
  · exact hk
  · refine keeps_mk1 ?_
    with_reducible apply keeps_hostWrite
    exact hk

theorem keeps_execCalSave {s : State} (c : Cmd) (hk : Keeps st0 s) :
    OutKeeps st0 (execCalSave c s) := by
  unfold execCalSave
  with_reducible apply keeps_startCmd
  · intro c_1
    intro fid
    intro u
    intro s_1
    intro h
    dsimp -zeta only [calSaveDef]
    extract_lets +onlyGivenNames ls
    clear_value ls
    refine keeps_ite1 (fun _ => ?_) (fun _ => ?_)
    · exact h
    · refine keeps_mk1 ?_
      with_reducible apply keeps_hostWrite
      exact h
  · exact hk

theorem keeps_eff_calHoldDef {s : State} {c : Cmd} {fid u : Nat} (hk : Keeps st0 s) :
    Keeps st0 ((calHoldDef).eff c fid u s).1 := by
  dsimp -zeta only [calHoldDef]
  extract_lets +onlyGivenNames d
  clear_value d
  extract_lets +onlyGivenNames n
  clear_value n
  extract_lets +onlyGivenNames s_1
  have h_s_1 : Keeps st0 s_1 := by
    unfold s_1
    with_reducible apply keeps_calSync
    exact hk
  clear_value s_1
  extract_lets +onlyGivenNames x
  clear_value x
  extract_lets +onlyGivenNames hold
  refine keeps_ite1 (fun _ => ?_) (fun _ => ?_)
  · exact h_s_1
  · refine keeps_ite1 (fun _ => ?_) (fun _ => ?_)
    · refine keeps_mk1 ?_
      with_reducible apply keeps_setCal
      exact h_s_1
    · refine keeps_mk1 ?_
      with_reducible apply keeps_setCal
      exact h_s_1

theorem keeps_execCalHold {s : State} (c : Cmd) (hk : Keeps st0 s) :
    OutKeeps st0 (execCalHold c s) := by
  unfold execCalHold
  with_reducible apply keeps_startCmd
  · intro c_1
    intro fid
    intro u
    intro s_1
    intro h
    dsimp -zeta only [calHoldDef]
    extract_lets +onlyGivenNames d
    clear_value d
    extract_lets +onlyGivenNames n
    clear_value n
    extract_lets +onlyGivenNames s_2
    have h_s_2 : Keeps st0 s_2 := by
      unfold s_2
      with_reducible apply keeps_calSync
      exact h
    clear_value s_2
    extract_lets +onlyGivenNames x
    clear_value x
    extract_lets +onlyGivenNames hold
    refine keeps_ite1 (fun _ => ?_) (fun _ => ?_)
    · exact h_s_2
    · refine keeps_ite1 (fun _ => ?_) (fun _ => ?_)
      · refine keeps_mk1 ?_
        with_reducible apply keeps_setCal
        exact h_s_2
      · refine keeps_mk1 ?_
        with_reducible apply keeps_setCal
        exact h_s_2
  · exact hk

end Sys2Proof.Machine
end

