-- ==== Sys2Proof/Laws/KeepsXfer.lean ====
section
/-!
SUPPORT. What keeps the part, the time, the queue and the canonical form of memory (`Keeps`): Machine/Xfer.
-/

namespace Sys2Proof.Machine

variable {st0 : State}

theorem keeps_writePlaces_wf (l : List (Nat × Byte)) :
    ∀ {m : List Host.Cell}, memWf m = true → memWf (writePlaces m l) = true := by
  induction l with
  | nil => intro m h; exact h
  | cons x r ih => intro m h; exact ih (writeByte_wf _ _ h)

theorem keeps_nextPc {s : State} (pc : Nat) (hk : Keeps st0 s) :
    Keeps st0 (nextPc s pc).2 := by
  unfold nextPc
  refine keeps_ite2 (fun _ => ?_) (fun _ => ?_)
  · exact hk
  · extract_lets +onlyGivenNames v
    have h_v : Keeps st0 v.2 := by
      unfold v
      with_reducible apply keeps_drawFree
      exact hk
    clear_value v
    exact h_v

theorem keeps_xNext {s : State} (d c : Nat) (x : Xfer) (hk : Keeps st0 s) :
    Keeps st0 (xNext s d c x) := by
  unfold xNext
  extract_lets +onlyGivenNames n
  have h_n : Keeps st0 n.2 := by
    unfold n
    with_reducible apply keeps_nextPc
    exact hk
  clear_value n
  with_reducible apply keeps_setXfer
  exact h_n

theorem keeps_xRaise {s : State} (x : Xfer) (v : Nat) (hk : Keeps st0 s) :
    Keeps st0 (xRaise s x v) := by
  unfold xRaise
  split
  · rename_i port p e
    refine keeps_ite (fun _ => ?_) (fun _ => ?_)
    · with_reducible apply keeps_raiseIrq
      exact hk
    · exact hk
  · rename_i port e
    exact hk

theorem keeps_xClear {s : State} (d c : Nat) (free : Bool) (hk : Keeps st0 s) :
    Keeps st0 (xClear s d c free) := by
  unfold xClear
  extract_lets +onlyGivenNames x
  clear_value x
  extract_lets +onlyGivenNames y_src1 y
  clear_value y
  extract_lets +onlyGivenNames s1
  have h_s1 : Keeps st0 s1 := by
    unfold s1
    split
    · rename_i x_1 b e
      refine keeps_ite (fun _ => ?_) (fun _ => ?_)
      · with_reducible apply keeps_setPoolFree
        exact hk
      · exact hk
    · rename_i x_1 e
      exact hk
  clear_value s1
  with_reducible apply keeps_setXfer
  exact h_s1

theorem keeps_xSettle {s : State} (d c st : Nat) (hk : Keeps st0 s) :
    Keeps st0 (xSettle s d c st) := by
  unfold xSettle
  extract_lets +onlyGivenNames x
  clear_value x
  extract_lets +onlyGivenNames u
  clear_value u
  extract_lets +onlyGivenNames s1
  have h_s1 : Keeps st0 s1 := by
    unfold s1
    with_reducible apply keeps_unitsDone
    with_reducible apply keeps_setXfer
    exact hk
  clear_value s1
  split
  · rename_i x_1 e
    exact h_s1
  · rename_i x_1 e
    with_reducible apply keeps_unitsDone
    with_reducible apply keeps_xClear
    exact h_s1

theorem keeps_xFail {s : State} (d c : Nat) (x : Xfer) (cause space addr : Nat) (hk : Keeps st0 s) :
    Keeps st0 (xFail s d c x cause space addr) := by
  unfold xFail
  extract_lets +onlyGivenNames y
  clear_value y
  extract_lets +onlyGivenNames s1
  have h_s1 : Keeps st0 s1 := by
    unfold s1
    with_reducible apply keeps_post
    with_reducible apply keeps_setXfer
    exact hk
  clear_value s1
  extract_lets +onlyGivenNames s2
  have h_s2 : Keeps st0 s2 := by
    unfold s2
    refine keeps_ite (fun _ => ?_) (fun _ => ?_)
    · with_reducible apply keeps_xRaise
      exact h_s1
    · exact h_s1
  clear_value s2
  with_reducible apply keeps_xSettle
  exact h_s2

theorem keeps_xFailOpen {s : State} (d c : Nat) (x : Xfer) (cause : Nat) (hk : Keeps st0 s) :
    Keeps st0 (xFailOpen s d c x cause) := by
  unfold xFailOpen
  extract_lets +onlyGivenNames a
  have h_a : Keeps st0 a.2 := by
    unfold a
    with_reducible apply keeps_drawFree
    exact hk
  clear_value a
  extract_lets +onlyGivenNames b
  have h_b : Keeps st0 b.2 := by
    unfold b
    with_reducible apply keeps_drawFree
    exact h_a
  clear_value b
  with_reducible apply keeps_xFail
  exact h_b

theorem keeps_xIllegal {s : State} (d c : Nat) (hk : Keeps st0 s) :
    Keeps st0 (xIllegal s d c) := by
  unfold xIllegal
  with_reducible apply keeps_xFailOpen
  exact hk

theorem keeps_runXfer {s : State} (d c op : Nat) (legal : Nat → Bool) (f : Nat → State → State) (hk : Keeps st0 s)
    (h_f : ∀ v0 v1, Keeps st0 v1 → Keeps st0 (f v0 v1)) :
    OutKeeps st0 (runXfer d c op legal f s) := by
  unfold runXfer
  with_reducible apply keeps_onDie
  · exact hk
  · intro s_1
    intro h
    with_reducible apply keeps_whenB
    · exact h
    · intro s_2
      intro h_1
      extract_lets +onlyGivenNames w
      clear_value w
      refine keeps_ite (fun _ => ?_) (fun _ => ?_)
      · refine h_f _ _ ?_
        exact h_1
      · with_reducible apply keeps_xIllegal
        exact h_1

theorem keeps_xDone {s : State} (d c kind : Nat) (x : Xfer) (pc : Nat) (hk : Keeps st0 s) :
    Keeps st0 (xDone s d c kind x pc) := by
  unfold xDone
  with_reducible apply keeps_post
  exact hk

theorem keeps_execXferEnd {s : State} (d c : Nat) (hk : Keeps st0 s) :
    OutKeeps st0 (execXferEnd d c s) := by
  unfold execXferEnd
  with_reducible apply keeps_runXfer
  · exact hk
  · intro v0
    intro v1
    intro h
    extract_lets +onlyGivenNames x_src1 x
    clear_value x
    with_reducible apply keeps_xDone
    with_reducible apply keeps_setXfer
    exact h

theorem keeps_execXferNop {s : State} (d c : Nat) (hk : Keeps st0 s) :
    OutKeeps st0 (execXferNop d c s) := by
  unfold execXferNop
  with_reducible apply keeps_runXfer
  · exact hk
  · intro v0
    intro v1
    intro h
    with_reducible apply keeps_xNext
    exact h

theorem keeps_execXferMove {s : State} (d c : Nat) (hk : Keeps st0 s) :
    OutKeeps st0 (execXferMove d c s) := by
  unfold execXferMove
  with_reducible apply keeps_onDie
  · exact hk
  · intro s_1
    intro h
    with_reducible apply keeps_whenB
    · exact h
    · intro s_2
      intro h_1
      extract_lets +onlyGivenNames x
      clear_value x
      extract_lets +onlyGivenNames w
      clear_value w
      extract_lets +onlyGivenNames m
      clear_value m
      refine keeps_ite (fun _ => ?_) (fun _ => ?_)
      · with_reducible apply keeps_xIllegal
        exact h_1
      · refine keeps_ite (fun _ => ?_) (fun _ => ?_)
        · with_reducible apply keeps_xFail
          exact h_1
        · refine keeps_ite (fun _ => ?_) (fun _ => ?_)
          · with_reducible apply keeps_xFail
            exact h_1
          · with_reducible apply keeps_setXfer
            exact h_1

theorem keeps_writePlaces {s : State} (l : List (Nat × Byte)) (hk : Keeps st0 s) :
    Keeps st0 { s with mem := writePlaces s.mem l } :=
  keeps_mem hk (keeps_writePlaces_wf l)

theorem keeps_copyPart {s : State} (d c n : Nat) (hk : Keeps st0 s) : Keeps st0 (copyPart s d c n) :=
  keeps_setXfer _ _ _ (keeps_writePlaces _ hk)

theorem keeps_moveDone {s : State} (d c : Nat) (hk : Keeps st0 s) :
    Keeps st0 (moveDone s d c) := by
  unfold moveDone
  extract_lets +onlyGivenNames x
  clear_value x
  extract_lets +onlyGivenNames m
  clear_value m
  extract_lets +onlyGivenNames x1
  clear_value x1
  extract_lets +onlyGivenNames x2
  clear_value x2
  with_reducible apply keeps_xNext
  exact hk

theorem keeps_crcFail {s : State} (d c : Nat) (hk : Keeps st0 s) :
    Keeps st0 (crcFail s d c) := by
  unfold crcFail
  extract_lets +onlyGivenNames x
  clear_value x
  with_reducible apply keeps_xFail
  with_reducible apply keeps_incF
  with_reducible apply keeps_addF
  exact hk

theorem keeps_freeFill {s : State} (d : Nat) (x : Xfer) (o n : Nat) (hk : Keeps st0 s) : Keeps st0 (freeFill d x o n s) := by
  induction n generalizing s with
  | zero => exact hk
  | succ n ih =>
    refine ih ?_
    have h := keeps_drawFree hk
    exact ⟨h.part, h.now, h.pending, fun w => writeByte_wf _ _ (h.mem w)⟩

theorem keeps_beatFail {s : State} (d c cause : Nat) (sides : Bool × Bool) (done : Nat) (last : Bool) (hk : Keeps st0 s) :
    Keeps st0 (beatFail s d c cause sides done last) := by
  unfold beatFail
  extract_lets +onlyGivenNames x
  clear_value x
  extract_lets +onlyGivenNames m
  clear_value m
  extract_lets +onlyGivenNames b
  clear_value b
  extract_lets +onlyGivenNames v
  have h_v : Keeps st0 v.2 := by
    unfold v
    with_reducible apply keeps_drawFree
    exact hk
  clear_value v
  extract_lets +onlyGivenNames pick
  have h_pick : Keeps st0 pick.2 := by
    unfold pick
    refine keeps_ite2 (fun _ => ?_) (fun _ => ?_)
    · exact h_v
    · exact hk
  clear_value pick
  extract_lets +onlyGivenNames whole
  clear_value whole
  with_reducible apply keeps_whenB
  · exact hk
  · intro s_1
    intro h
    extract_lets +onlyGivenNames s1
    have h_s1 : Keeps st0 s1 := by
      unfold s1
      with_reducible apply keeps_copyPart
      exact h_pick
    clear_value s1
    extract_lets +onlyGivenNames x1
    clear_value x1
    extract_lets +onlyGivenNames w
    have h_w : Keeps st0 w.2 := by
      unfold w
      with_reducible apply keeps_drawFree
      exact h_s1
    clear_value w
    extract_lets +onlyGivenNames n
    clear_value n
    extract_lets +onlyGivenNames s2
    have h_s2 : Keeps st0 s2 := by
      unfold s2
      refine keeps_ite (fun _ => ?_) (fun _ => ?_)
      · exact h_s1
      · refine keeps_ite (fun _ => ?_) (fun _ => ?_)
        · with_reducible apply keeps_freeFill
          exact h_s1
        · with_reducible apply keeps_freeFill
          exact h_w
    clear_value s2
    extract_lets +onlyGivenNames x2
    clear_value x2
    extract_lets +onlyGivenNames space
    clear_value space
    extract_lets +onlyGivenNames addr
    clear_value addr
    refine keeps_ite (fun _ => ?_) (fun _ => ?_)
    · extract_lets +onlyGivenNames s3_src1 s3
      have h_s3 : Keeps st0 s3 := by
        unfold s3
        with_reducible apply keeps_moveDone
        with_reducible apply keeps_setXfer
        exact h_s2
      clear_value s3
      with_reducible apply keeps_xFail
      exact h_s3
    · with_reducible apply keeps_xFail
      exact h_s2

theorem keeps_execXferMoveRetire {s : State} (d c rereads : Nat) (hk : Keeps st0 s) :
    OutKeeps st0 (execXferMoveRetire d c rereads s) := by
  unfold execXferMoveRetire
  with_reducible apply keeps_onDie
  · exact hk
  · intro s_1
    intro h
    extract_lets +onlyGivenNames x
    clear_value x
    extract_lets +onlyGivenNames m
    clear_value m
    extract_lets +onlyGivenNames n
    clear_value n
    with_reducible apply keeps_whenB
    · exact h
    · intro s_2
      intro h_1
      extract_lets +onlyGivenNames s0
      have h_s0 : Keeps st0 s0 := by
        unfold s0
        refine keeps_ite (fun _ => ?_) (fun _ => ?_)
        · with_reducible apply keeps_addF
          exact h_1
        · exact h_1
      clear_value s0
      extract_lets +onlyGivenNames ecc
      clear_value ecc
      split
      · rename_i port p
        with_reducible apply keeps_beatFail
        exact h_s0
      · rename_i port
        extract_lets +onlyGivenNames s1
        have h_s1 : Keeps st0 s1 := by
          unfold s1
          with_reducible apply keeps_copyPart
          exact h_s0
        clear_value s1
        refine keeps_ite (fun _ => ?_) (fun _ => ?_)
        · with_reducible apply keeps_moveDone
          exact h_s1
        · with_reducible apply keeps_crcFail
          exact h_s1

theorem keeps_execXferBeatError {s : State} (d c cause done : Nat) (last : Bool) (hk : Keeps st0 s) :
    OutKeeps st0 (execXferBeatError d c cause done last s) := by
  unfold execXferBeatError
  with_reducible apply keeps_onDie
  · exact hk
  · intro s_1
    intro h
    extract_lets +onlyGivenNames x
    clear_value x
    extract_lets +onlyGivenNames sides
    clear_value sides
    with_reducible apply keeps_whenB
    · exact h
    · intro s_2
      intro h_1
      with_reducible apply keeps_beatFail
      exact h_1

theorem keeps_loseSide {s : State} (cause : Nat) (sides : Xfer → Bool × Bool) (d : Nat) (c : Nat) (hk : Keeps st0 s) :
    Keeps st0 (loseSide cause sides d s c) := by
  unfold loseSide
  extract_lets +onlyGivenNames x
  clear_value x
  extract_lets +onlyGivenNames l
  clear_value l
  refine keeps_ite (fun _ => ?_) (fun _ => ?_)
  · extract_lets +onlyGivenNames v
    have h_v : Keeps st0 v.2 := by
      unfold v
      with_reducible apply keeps_drawFree
      exact hk
    clear_value v
    with_reducible apply keeps_beatFail
    exact h_v
  · exact hk

theorem keeps_movesLosePort {s : State} (p : Nat) (hk : Keeps st0 s) :
    Keeps st0 (movesLosePort s p) := by
  unfold movesLosePort
  refine keeps_foldl ?_ ?_
  · intro s_1
    intro x
    intro h
    refine keeps_foldl ?_ ?_
    · intro s_2
      intro x_1
      intro h_1
      with_reducible apply keeps_loseSide
      exact h_1
    · exact h
  · exact hk

theorem keeps_movesLoseDie {s : State} (e : Nat) (hk : Keeps st0 s) :
    Keeps st0 (movesLoseDie s e) := by
  unfold movesLoseDie
  refine keeps_foldl ?_ ?_
  · intro s_1
    intro x
    intro h
    refine keeps_foldl ?_ ?_
    · intro s_2
      intro x_1
      intro h_1
      with_reducible apply keeps_loseSide
      exact h_1
    · exact h
  · exact hk

theorem keeps_execXferLoop {s : State} (d c : Nat) (hk : Keeps st0 s) :
    OutKeeps st0 (execXferLoop d c s) := by
  unfold execXferLoop
  with_reducible apply keeps_runXfer
  · exact hk
  · intro v0
    intro v1
    intro h
    extract_lets +onlyGivenNames x
    clear_value x
    extract_lets +onlyGivenNames k
    clear_value k
    extract_lets +onlyGivenNames count
    clear_value count
    extract_lets +onlyGivenNames fresh
    clear_value fresh
    extract_lets +onlyGivenNames lc
    clear_value lc
    refine keeps_ite (fun _ => ?_) (fun _ => ?_)
    · with_reducible apply keeps_xNext
      exact h
    · with_reducible apply keeps_setXfer
      exact h

theorem keeps_waitReturns {s : State} (d c : Nat) (hk : Keeps st0 s) :
    Keeps st0 (waitReturns s d c) := by
  unfold waitReturns
  extract_lets +onlyGivenNames x
  clear_value x
  with_reducible apply keeps_xNext
  exact hk

theorem keeps_execXferWait {s : State} (d c : Nat) (hk : Keeps st0 s) :
    OutKeeps st0 (execXferWait d c s) := by
  unfold execXferWait
  with_reducible apply keeps_runXfer
  · exact hk
  · intro v0
    intro v1
    intro h
    extract_lets +onlyGivenNames tmo
    clear_value tmo
    extract_lets +onlyGivenNames x_src1 x
    clear_value x
    refine keeps_ite (fun _ => ?_) (fun _ => ?_)
    · with_reducible apply keeps_waitReturns
      with_reducible apply keeps_setXfer
      exact h
    · with_reducible apply keeps_setXfer
      exact h

theorem keeps_execXferWaitReturn {s : State} (d c : Nat) (hk : Keeps st0 s) :
    OutKeeps st0 (execXferWaitReturn d c s) := by
  unfold execXferWaitReturn
  with_reducible apply keeps_onDie
  · exact hk
  · intro s_1
    intro h
    extract_lets +onlyGivenNames x
    clear_value x
    with_reducible apply keeps_whenB
    · exact h
    · intro s_2
      intro h_1
      with_reducible apply keeps_waitReturns
      exact h_1

theorem keeps_execXferWaitTimeout {s : State} (d c : Nat) (hk : Keeps st0 s) :
    OutKeeps st0 (execXferWaitTimeout d c s) := by
  unfold execXferWaitTimeout
  with_reducible apply keeps_onDie
  · exact hk
  · intro s_1
    intro h
    extract_lets +onlyGivenNames x
    clear_value x
    split
    · rename_i port p e
      with_reducible apply keeps_whenB
      · exact h
      · intro s_2
        intro h_1
        extract_lets +onlyGivenNames y
        clear_value y
        refine keeps_ite (fun _ => ?_) (fun _ => ?_)
        · with_reducible apply keeps_xFailOpen
          exact h_1
        · extract_lets +onlyGivenNames n
          have h_n : Keeps st0 n.2 := by
            unfold n
            with_reducible apply keeps_nextPc
            exact h_1
          clear_value n
          with_reducible apply keeps_xNext
          exact h_n
    · rename_i port e
      exact h

theorem keeps_xferShutter {s : State} (d id ph : Nat) (hk : Keeps st0 s) :
    Keeps st0 (xferShutter s d id ph) := by
  unfold xferShutter
  refine keeps_foldl ?_ ?_
  · intro s_1
    intro x
    intro h
    extract_lets +onlyGivenNames x_1
    clear_value x_1
    extract_lets +onlyGivenNames inTime
    clear_value inTime
    refine keeps_ite (fun _ => ?_) (fun _ => ?_)
    · with_reducible apply keeps_setXfer
      exact h
    · exact h
  · exact hk

theorem keeps_xferKick {s : State} (d c : Nat) (hk : Keeps st0 s) :
    Keeps st0 (xferKick s d c) := by
  unfold xferKick
  extract_lets +onlyGivenNames x
  clear_value x
  refine keeps_ite (fun _ => ?_) (fun _ => ?_)
  · with_reducible apply keeps_setFlag
    exact hk
  · with_reducible apply keeps_setXfer
    exact hk

theorem keeps_execXfrChKick {s : State} (port d c be : Nat) (v : W32) (hk : Keeps st0 s) :
    OutKeeps st0 (execXfrChKick port d c be v s) := by
  unfold execXfrChKick
  with_reducible apply keeps_onPort
  · exact hk
  · intro v0
    intro h
    with_reducible apply keeps_whenB
    · exact h
    · intro s_1
      intro h_1
      with_reducible apply keeps_xferKick
      exact h_1

theorem keeps_signalActs {s : State} (d c w : Nat) (hk : Keeps st0 s) :
    Keeps st0 (signalActs s d c w) := by
  unfold signalActs
  extract_lets +onlyGivenNames i
  clear_value i
  extract_lets +onlyGivenNames s1
  have h_s1 : Keeps st0 s1 := by
    unfold s1
    refine keeps_ite (fun _ => ?_) (fun _ => ?_)
    · exact hk
    · refine keeps_ite (fun _ => ?_) (fun _ => ?_)
      · with_reducible apply keeps_addMark
        exact hk
      · with_reducible apply keeps_incF
        exact hk
  clear_value s1
  extract_lets +onlyGivenNames s2
  have h_s2 : Keeps st0 s2 := by
    unfold s2
    refine keeps_ite (fun _ => ?_) (fun _ => ?_)
    · with_reducible apply keeps_xferKick
      exact h_s1
    · exact h_s1
  clear_value s2
  extract_lets +onlyGivenNames s3
  have h_s3 : Keeps st0 s3 := by
    unfold s3
    refine keeps_ite (fun _ => ?_) (fun _ => ?_)
    · with_reducible apply keeps_chanSignal
      exact h_s2
    · exact h_s2
  clear_value s3
  extract_lets +onlyGivenNames x
  clear_value x
  extract_lets +onlyGivenNames ph
  clear_value ph
  extract_lets +onlyGivenNames y
  clear_value y
  extract_lets +onlyGivenNames s4
  have h_s4 : Keeps st0 s4 := by
    unfold s4
    with_reducible apply keeps_setXfer
    exact h_s3
  clear_value s4
  extract_lets +onlyGivenNames s5
  have h_s5 : Keeps st0 s5 := by
    unfold s5
    refine keeps_ite (fun _ => ?_) (fun _ => ?_)
    · with_reducible apply keeps_xDone
      exact h_s4
    · exact h_s4
  clear_value s5
  extract_lets +onlyGivenNames s6
  have h_s6 : Keeps st0 s6 := by
    unfold s6
    refine keeps_ite (fun _ => ?_) (fun _ => ?_)
    · with_reducible apply keeps_xRaise
      exact h_s5
    · exact h_s5
  clear_value s6
  with_reducible apply keeps_xNext
  exact h_s6

theorem keeps_execXferSignal {s : State} (d c : Nat) (hk : Keeps st0 s) :
    OutKeeps st0 (execXferSignal d c s) := by
  unfold execXferSignal
  with_reducible apply keeps_onDie
  · exact hk
  · intro s_1
    intro h
    extract_lets +onlyGivenNames x
    clear_value x
    extract_lets +onlyGivenNames w
    clear_value w
    extract_lets +onlyGivenNames sp
    clear_value sp
    extract_lets +onlyGivenNames a
    clear_value a
    with_reducible apply keeps_whenB
    · exact h
    · intro s_2
      intro h_1
      refine keeps_ite (fun _ => ?_) (fun _ => ?_)
      · with_reducible apply keeps_xIllegal
        exact h_1
      · refine keeps_ite (fun _ => ?_) (fun _ => ?_)
        · with_reducible apply keeps_xFail
          exact h_1
        · extract_lets +onlyGivenNames data
          clear_value data
          with_reducible apply keeps_signalActs
          refine keeps_ite (fun _ => ?_) (fun _ => ?_)
          · refine keeps_writePlaces _ ?_
            exact h_1
          · exact h_1

theorem keeps_execXferIllegalOpcode {s : State} (d c : Nat) (hk : Keeps st0 s) :
    OutKeeps st0 (execXferIllegalOpcode d c s) := by
  unfold execXferIllegalOpcode
  with_reducible apply keeps_onDie
  · exact hk
  · intro s_1
    intro h
    extract_lets +onlyGivenNames op
    clear_value op
    with_reducible apply keeps_whenB
    · exact h
    · intro s_2
      intro h_1
      with_reducible apply keeps_xIllegal
      exact h_1

theorem keeps_xferPause {s : State} (d c : Nat) (hk : Keeps st0 s) :
    Keeps st0 (xferPause s d c) := by
  unfold xferPause
  extract_lets +onlyGivenNames x
  clear_value x
  refine keeps_ite (fun _ => ?_) (fun _ => ?_)
  · with_reducible apply keeps_setFlag
    exact hk
  · exact hk

theorem keeps_execXferPaused {s : State} (d c moved : Nat) (hk : Keeps st0 s) :
    OutKeeps st0 (execXferPaused d c moved s) := by
  unfold execXferPaused
  with_reducible apply keeps_onDie
  · exact hk
  · intro s_1
    intro h
    extract_lets +onlyGivenNames x
    clear_value x
    extract_lets +onlyGivenNames n
    clear_value n
    with_reducible apply keeps_whenB
    · exact h
    · intro s_2
      intro h_1
      extract_lets +onlyGivenNames s1
      have h_s1 : Keeps st0 s1 := by
        unfold s1
        refine keeps_ite (fun _ => ?_) (fun _ => ?_)
        · exact h_1
        · with_reducible apply keeps_copyPart
          exact h_1
      clear_value s1
      with_reducible apply keeps_xSettle
      with_reducible apply keeps_setXfer
      exact h_s1

theorem keeps_xferContinue {s : State} (d c : Nat) (skip : Bool) (hk : Keeps st0 s) :
    Keeps st0 (xferContinue s d c skip) := by
  unfold xferContinue
  extract_lets +onlyGivenNames x
  clear_value x
  extract_lets +onlyGivenNames y
  clear_value y
  extract_lets +onlyGivenNames s1
  have h_s1 : Keeps st0 s1 := by
    unfold s1
    with_reducible apply keeps_setFlag
    exact hk
  clear_value s1
  refine keeps_ite (fun _ => ?_) (fun _ => ?_)
  · with_reducible apply keeps_xNext
    exact h_s1
  · with_reducible apply keeps_setXfer
    exact h_s1

theorem keeps_pauseClear {s : State} (d c : Nat) (hk : Keeps st0 s) :
    Keeps st0 (pauseClear d c s) := by
  unfold pauseClear
  extract_lets +onlyGivenNames x
  clear_value x
  extract_lets +onlyGivenNames s1
  have h_s1 : Keeps st0 s1 := by
    unfold s1
    with_reducible apply keeps_setFlag
    exact hk
  clear_value s1
  refine keeps_ite (fun _ => ?_) (fun _ => ?_)
  · with_reducible apply keeps_xferContinue
    exact h_s1
  · refine keeps_ite (fun _ => ?_) (fun _ => ?_)
    · with_reducible apply keeps_xSettle
      exact h_s1
    · exact h_s1

theorem keeps_execPauseSet {s : State} (port d c : Nat) (v : W32) (hk : Keeps st0 s) :
    OutKeeps st0 (execPauseSet port d c v s) := by
  unfold execPauseSet
  with_reducible apply keeps_onPort
  · exact hk
  · intro v0
    intro h
    with_reducible apply keeps_whenB
    · exact h
    · intro s_1
      intro h_1
      with_reducible apply keeps_setFlag
      exact h_1

theorem keeps_execPauseClear {s : State} (port d c : Nat) (v : W32) (hk : Keeps st0 s) :
    OutKeeps st0 (execPauseClear port d c v s) := by
  unfold execPauseClear
  with_reducible apply keeps_onPort
  · exact hk
  · intro v0
    intro h
    with_reducible apply keeps_whenB
    · exact h
    · intro s_1
      intro h_1
      with_reducible apply keeps_pauseClear
      exact h_1

theorem keeps_xferBuf {s t : State} {d : Nat} {old : Option (Nat × Nat)} {mib : Nat} {free : Bool} {o : Option (Nat × Nat)}
    (hk : Keeps st0 s) (e : xferBuf s d old mib free = some (o, t)) : Keeps st0 t := by
  unfold xferBuf at e
  dsimp only at e
  split at e
  · split at e
    · cases e
    · cases e
      exact keeps_allocAddr (keeps_setPoolFree _ _ hk)
  · split at e
    · cases e
      exact keeps_setPoolFree _ _ hk
    · cases e
      exact hk

theorem keeps_eff_xferLoadDef {s : State} {c : Cmd} {fid u : Nat} (hk : Keeps st0 s) :
    Keeps st0 ((xferLoadDef).eff c fid u s).1 := by
  dsimp -zeta only [xferLoadDef]
  extract_lets +onlyGivenNames d
  clear_value d
  extract_lets +onlyGivenNames n
  clear_value n
  extract_lets +onlyGivenNames x
  clear_value x
  extract_lets +onlyGivenNames p
  clear_value p
  extract_lets +onlyGivenNames only
  clear_value only
  extract_lets +onlyGivenNames s1
  have h_s1 : Keeps st0 s1 := by
    unfold s1
    with_reducible apply keeps_memWrite
    exact hk
  clear_value s1
  refine keeps_ite1 (fun _ => ?_) (fun _ => ?_)
  · exact hk
  · refine keeps_ite1 (fun _ => ?_) (fun _ => ?_)
    · exact h_s1
    · refine keeps_ite1 (fun _ => ?_) (fun _ => ?_)
      · exact hk
      · split
        · rename_i e e_1 e_2 x_1 e_3
          exact hk
        · rename_i e e_1 e_2 x_1 b s2 e_3
          extract_lets +onlyGivenNames bases
          clear_value bases
          extract_lets +onlyGivenNames port
          clear_value port
          refine keeps_mk1 ?_
          with_reducible apply keeps_setXfer
          refine keeps_xferBuf ?_ e_3
          exact h_s1

theorem keeps_execXferLoad {s : State} (c : Cmd) (hk : Keeps st0 s) :
    OutKeeps st0 (execXferLoad c s) := by
  unfold execXferLoad
  with_reducible apply keeps_startCmd
  · intro c_1
    intro fid
    intro u
    intro s_1
    intro h
    dsimp -zeta only [xferLoadDef]
    extract_lets +onlyGivenNames d
    clear_value d
    extract_lets +onlyGivenNames n
    clear_value n
    extract_lets +onlyGivenNames x
    clear_value x
    extract_lets +onlyGivenNames p
    clear_value p
    extract_lets +onlyGivenNames only
    clear_value only
    extract_lets +onlyGivenNames s1
    have h_s1 : Keeps st0 s1 := by
      unfold s1
      with_reducible apply keeps_memWrite
      exact h
    clear_value s1
    refine keeps_ite1 (fun _ => ?_) (fun _ => ?_)
    · exact h
    · refine keeps_ite1 (fun _ => ?_) (fun _ => ?_)
      · exact h_s1
      · refine keeps_ite1 (fun _ => ?_) (fun _ => ?_)
        · exact h
        · split
          · rename_i e e_1 e_2 x_1 e_3
            exact h
          · rename_i e e_1 e_2 x_1 b s2 e_3
            extract_lets +onlyGivenNames bases
            clear_value bases
            extract_lets +onlyGivenNames port
            clear_value port
            refine keeps_mk1 ?_
            with_reducible apply keeps_setXfer
            refine keeps_xferBuf ?_ e_3
            exact h_s1
  · exact hk

theorem keeps_eff_xferStartDef {s : State} {c : Cmd} {fid u : Nat} (hk : Keeps st0 s) :
    Keeps st0 ((xferStartDef).eff c fid u s).1 := by
  dsimp -zeta only [xferStartDef]
  extract_lets +onlyGivenNames d
  clear_value d
  extract_lets +onlyGivenNames n
  clear_value n
  extract_lets +onlyGivenNames x
  clear_value x
  refine keeps_ite1 (fun _ => ?_) (fun _ => ?_)
  · exact hk
  · refine keeps_ite1 (fun _ => ?_) (fun _ => ?_)
    · exact hk
    · refine keeps_ite1 (fun _ => ?_) (fun _ => ?_)
      · exact hk
      · refine keeps_mk1 ?_
        with_reducible apply keeps_setXfer
        exact hk

theorem keeps_execXferStart {s : State} (c : Cmd) (hk : Keeps st0 s) :
    OutKeeps st0 (execXferStart c s) := by
  unfold execXferStart
  with_reducible apply keeps_startCmd
  · intro c_1
    intro fid
    intro u
    intro s_1
    intro h
    dsimp -zeta only [xferStartDef]
    extract_lets +onlyGivenNames d
    clear_value d
    extract_lets +onlyGivenNames n
    clear_value n
    extract_lets +onlyGivenNames x
    clear_value x
    refine keeps_ite1 (fun _ => ?_) (fun _ => ?_)
    · exact h
    · refine keeps_ite1 (fun _ => ?_) (fun _ => ?_)
      · exact h
      · refine keeps_ite1 (fun _ => ?_) (fun _ => ?_)
        · exact h
        · refine keeps_mk1 ?_
          with_reducible apply keeps_setXfer
          exact h
  · exact hk

theorem keeps_eff_xferPauseDef {s : State} {c : Cmd} {fid u : Nat} (hk : Keeps st0 s) :
    Keeps st0 ((xferPauseDef).eff c fid u s).1 := by
  dsimp -zeta only [xferPauseDef]
  extract_lets +onlyGivenNames d
  clear_value d
  extract_lets +onlyGivenNames n
  clear_value n
  extract_lets +onlyGivenNames x
  clear_value x
  refine keeps_ite1 (fun _ => ?_) (fun _ => ?_)
  · exact hk
  · refine keeps_ite1 (fun _ => ?_) (fun _ => ?_)
    · exact hk
    · refine keeps_ite1 (fun _ => ?_) (fun _ => ?_)
      · exact hk
      · refine keeps_mk1 ?_
        with_reducible apply keeps_xferPause
        with_reducible apply keeps_setXfer
        exact hk

theorem keeps_execXferPause {s : State} (c : Cmd) (hk : Keeps st0 s) :
    OutKeeps st0 (execXferPause c s) := by
  unfold execXferPause
  with_reducible apply keeps_startCmd
  · intro c_1
    intro fid
    intro u
    intro s_1
    intro h
    dsimp -zeta only [xferPauseDef]
    extract_lets +onlyGivenNames d
    clear_value d
    extract_lets +onlyGivenNames n
    clear_value n
    extract_lets +onlyGivenNames x
    clear_value x
    refine keeps_ite1 (fun _ => ?_) (fun _ => ?_)
    · exact h
    · refine keeps_ite1 (fun _ => ?_) (fun _ => ?_)
      · exact h
      · refine keeps_ite1 (fun _ => ?_) (fun _ => ?_)
        · exact h
        · refine keeps_mk1 ?_
          with_reducible apply keeps_xferPause
          with_reducible apply keeps_setXfer
          exact h
  · exact hk

theorem keeps_eff_xferResumeDef {s : State} {c : Cmd} {fid u : Nat} (hk : Keeps st0 s) :
    Keeps st0 ((xferResumeDef).eff c fid u s).1 := by
  dsimp -zeta only [xferResumeDef]
  extract_lets +onlyGivenNames d
  clear_value d
  extract_lets +onlyGivenNames n
  clear_value n
  extract_lets +onlyGivenNames x
  clear_value x
  refine keeps_ite1 (fun _ => ?_) (fun _ => ?_)
  · exact hk
  · refine keeps_ite1 (fun _ => ?_) (fun _ => ?_)
    · exact hk
    · refine keeps_ite1 (fun _ => ?_) (fun _ => ?_)
      · exact hk
      · refine keeps_ite1 (fun _ => ?_) (fun _ => ?_)
        · exact hk
        · refine keeps_mk1 ?_
          with_reducible apply keeps_xferContinue
          exact hk

theorem keeps_execXferResume {s : State} (c : Cmd) (hk : Keeps st0 s) :
    OutKeeps st0 (execXferResume c s) := by
  unfold execXferResume
  with_reducible apply keeps_startCmd
  · intro c_1
    intro fid
    intro u
    intro s_1
    intro h
    dsimp -zeta only [xferResumeDef]
    extract_lets +onlyGivenNames d
    clear_value d
    extract_lets +onlyGivenNames n
    clear_value n
    extract_lets +onlyGivenNames x
    clear_value x
    refine keeps_ite1 (fun _ => ?_) (fun _ => ?_)
    · exact h
    · refine keeps_ite1 (fun _ => ?_) (fun _ => ?_)
      · exact h
      · refine keeps_ite1 (fun _ => ?_) (fun _ => ?_)
        · exact h
        · refine keeps_ite1 (fun _ => ?_) (fun _ => ?_)
          · exact h
          · refine keeps_mk1 ?_
            with_reducible apply keeps_xferContinue
            exact h
  · exact hk

theorem keeps_eff_xferResetDef {s : State} {c : Cmd} {fid u : Nat} (hk : Keeps st0 s) :
    Keeps st0 ((xferResetDef).eff c fid u s).1 := by
  dsimp -zeta only [xferResetDef]
  extract_lets +onlyGivenNames d
  clear_value d
  extract_lets +onlyGivenNames n
  clear_value n
  extract_lets +onlyGivenNames x
  clear_value x
  refine keeps_ite1 (fun _ => ?_) (fun _ => ?_)
  · exact hk
  · refine keeps_ite1 (fun _ => ?_) (fun _ => ?_)
    · refine keeps_mk1 ?_
      with_reducible apply keeps_setXfer
      exact hk
    · refine keeps_mk1 ?_
      with_reducible apply keeps_xClear
      exact hk

theorem keeps_execXferReset {s : State} (c : Cmd) (hk : Keeps st0 s) :
    OutKeeps st0 (execXferReset c s) := by
  unfold execXferReset
  with_reducible apply keeps_startCmd
  · intro c_1
    intro fid
    intro u
    intro s_1
    intro h
    dsimp -zeta only [xferResetDef]
    extract_lets +onlyGivenNames d
    clear_value d
    extract_lets +onlyGivenNames n
    clear_value n
    extract_lets +onlyGivenNames x
    clear_value x
    refine keeps_ite1 (fun _ => ?_) (fun _ => ?_)
    · exact h
    · refine keeps_ite1 (fun _ => ?_) (fun _ => ?_)
      · refine keeps_mk1 ?_
        with_reducible apply keeps_setXfer
        exact h
      · refine keeps_mk1 ?_
        with_reducible apply keeps_xClear
        exact h
  · exact hk

end Sys2Proof.Machine
end

