-- ==== Sys2Proof/Laws/KeepsTree.lean ====
section
/-!
SUPPORT. What keeps the part, the time, the queue and the canonical form of memory (`Keeps`): Machine/Tree.
-/

namespace Sys2Proof.Machine

variable {st0 : State}

theorem keeps_treeChange {s : State} (affected : Nat) (hk : Keeps st0 s) :
    Keeps st0 (treeChange s affected) := by
  unfold treeChange
  extract_lets +onlyGivenNames g
  clear_value g
  with_reducible apply keeps_post
  refine keeps_upd ?_ ..
  exact hk

theorem keeps_createStream {s : State} (d i : Nat) (hk : Keeps st0 s) :
    Keeps st0 (createStream s d i) := by
  unfold createStream
  with_reducible apply keeps_treeChange
  with_reducible apply keeps_setStream
  exact hk

theorem keeps_setGroup {s : State} (g : Nat) (x : Option Group) (hk : Keeps st0 s) :
    Keeps st0 (setGroup s g x) := by
  unfold setGroup
  refine keeps_upd ?_ ..
  exact hk

theorem keeps_leaveGroups {s : State} (u : Nat) (hk : Keeps st0 s) :
    Keeps st0 (leaveGroups s u) := by
  unfold leaveGroups
  refine keeps_foldl ?_ ?_
  · intro s_1
    intro x
    intro h
    split
    · rename_i x_1 x_2 e
      extract_lets +onlyGivenNames n
      clear_value n
      extract_lets +onlyGivenNames s1
      have h_s1 : Keeps st0 s1 := by
        unfold s1
        refine keeps_ite (fun _ => ?_) (fun _ => ?_)
        · exact h
        · with_reducible apply keeps_setGroup
          exact h
      clear_value s1
      refine keeps_foldl ?_ ?_
      · intro s_2
        intro x_3
        intro h_1
        with_reducible apply keeps_treeChange
        exact h_1
      · exact h_s1
    · rename_i x_1 e
      exact h
  · exact hk

theorem keeps_dropWaits {s : State} (d i : Nat) (hk : Keeps st0 s) :
    Keeps st0 (dropWaits s d i) := by
  unfold dropWaits
  extract_lets +onlyGivenNames x
  clear_value x
  extract_lets +onlyGivenNames u
  clear_value u
  extract_lets +onlyGivenNames s1
  have h_s1 : Keeps st0 s1 := by
    unfold s1
    with_reducible apply keeps_unitsDone
    exact hk
  clear_value s1
  extract_lets +onlyGivenNames s2
  have h_s2 : Keeps st0 s2 := by
    unfold s2
    with_reducible apply keeps_unitsDone
    exact h_s1
  clear_value s2
  split
  · rename_i x_1 h e
    split
    · rename_i x_2 f e_1
      with_reducible apply keeps_unitDone
      exact h_s2
    · rename_i x_2 e_1
      exact h_s2
  · rename_i x_1 e
    exact h_s2

theorem keeps_deleteStream {s : State} (d i : Nat) (hk : Keeps st0 s) :
    Keeps st0 (deleteStream s d i) := by
  unfold deleteStream
  extract_lets +onlyGivenNames x
  clear_value x
  extract_lets +onlyGivenNames s1
  have h_s1 : Keeps st0 s1 := by
    unfold s1
    split
    · rename_i x_1 f e
      refine keeps_ite (fun _ => ?_) (fun _ => ?_)
      · with_reducible apply keeps_closeBuf
        exact hk
      · with_reducible apply keeps_leaveRing
        exact hk
    · rename_i x_1 e
      exact hk
  clear_value s1
  extract_lets +onlyGivenNames s2
  have h_s2 : Keeps st0 s2 := by
    unfold s2
    with_reducible apply keeps_dropWaits
    with_reducible apply keeps_setPoolFree
    exact h_s1
  clear_value s2
  extract_lets +onlyGivenNames s3
  have h_s3 : Keeps st0 s3 := by
    unfold s3
    with_reducible apply keeps_setUnit
    with_reducible apply keeps_setStream
    exact h_s2
  clear_value s3
  with_reducible apply keeps_treeChange
  with_reducible apply keeps_leaveGroups
  exact h_s3

end Sys2Proof.Machine
end

