-- ==== Sys2Proof/Laws/KeepsImage.lean ====
section
/-!
SUPPORT. What keeps the part, the time, the queue and the canonical form of memory (`Keeps`): Machine/Image.
-/

namespace Sys2Proof.Machine

variable {st0 : State}

theorem keeps_addMeasure {s : State} (die eng : Nat) (p : List Byte) (time : Nat) (hk : Keeps st0 s) :
    Keeps st0 (addMeasure s die eng p time) := by
  unfold addMeasure
  extract_lets +onlyGivenNames e
  clear_value e
  extract_lets +onlyGivenNames x
  clear_value x
  refine keeps_upd ?_ ..
  exact hk

theorem keeps_memClear {s : State} (r : Region) (a n : Nat) (hk : Keeps st0 s) : Keeps st0 (memClear s r a n) :=
  keeps_mem hk (filter_wf _)

theorem keeps_freeHeap {s : State} (d e : Nat) (hk : Keeps st0 s) :
    Keeps st0 (freeHeap s d e) := by
  unfold freeHeap
  extract_lets +onlyGivenNames x
  clear_value x
  with_reducible apply keeps_setEng
  with_reducible apply keeps_setPoolFree
  exact hk

theorem keeps_placeImage {s : State} (d e : Nat) (g : Place) (hk : Keeps st0 s) :
    Keeps st0 (placeImage s d e g) := by
  unfold placeImage
  extract_lets +onlyGivenNames x
  clear_value x
  extract_lets +onlyGivenNames s1
  have h_s1 : Keeps st0 s1 := by
    unfold s1
    with_reducible apply keeps_memWrite
    with_reducible apply keeps_memClear
    exact hk
  clear_value s1
  extract_lets +onlyGivenNames s2
  have h_s2 : Keeps st0 s2 := by
    unfold s2
    with_reducible apply keeps_memClear
    with_reducible apply keeps_memClear
    exact h_s1
  clear_value s2
  extract_lets +onlyGivenNames s3
  have h_s3 : Keeps st0 s3 := by
    unfold s3
    with_reducible apply keeps_memWrite
    exact h_s2
  clear_value s3
  extract_lets +onlyGivenNames s4
  have h_s4 : Keeps st0 s4 := by
    unfold s4
    with_reducible apply keeps_freeHeap
    exact h_s3
  clear_value s4
  extract_lets +onlyGivenNames s5
  have h_s5 : Keeps st0 s5 := by
    unfold s5
    with_reducible apply keeps_setPoolFree
    exact h_s4
  clear_value s5
  extract_lets +onlyGivenNames a
  have h_a : Keeps st0 a.2 := by
    unfold a
    refine keeps_ite2 (fun _ => ?_) (fun _ => ?_)
    · exact h_s5
    · with_reducible apply keeps_allocAddr
      exact h_s5
  clear_value a
  extract_lets +onlyGivenNames s6
  have h_s6 : Keeps st0 s6 := by
    unfold s6
    with_reducible apply keeps_memClear
    exact h_a
  clear_value s6
  with_reducible apply keeps_setEng
  exact h_s6

end Sys2Proof.Machine
end

