-- ==== Sys2Proof/Laws/KeepsEngStop.lean ====
section
/-!
SUPPORT. What keeps the part, the time, the queue and the canonical form of memory (`Keeps`): Machine/EngStop.
-/

namespace Sys2Proof.Machine

variable {st0 : State}

theorem keeps_setSvc {s : State} (d k : Nat) (x : Svc) (hk : Keeps st0 s) :
    Keeps st0 (setSvc s d k x) := by
  unfold setSvc
  refine keeps_upd ?_ ..
  exact hk

theorem keeps_svcStateAt {s : State} (d k : Nat) (st : SvcSt) (cause eng trap t : Nat) (hk : Keeps st0 s) :
    Keeps st0 (svcStateAt s d k st cause eng trap t) := by
  unfold svcStateAt
  extract_lets +onlyGivenNames x
  clear_value x
  refine keeps_ite (fun _ => ?_) (fun _ => ?_)
  · exact hk
  · with_reducible apply keeps_post
    with_reducible apply keeps_setSvc
    exact hk

theorem keeps_svcState {s : State} (d k : Nat) (st : SvcSt) (cause eng trap : Nat) (hk : Keeps st0 s) :
    Keeps st0 (svcState s d k st cause eng trap) := by
  unfold svcState
  with_reducible apply keeps_svcStateAt
  exact hk

theorem keeps_releaseSource {s : State} (d src : Nat) (hk : Keeps st0 s) :
    Keeps st0 (releaseSource s d src) := by
  unfold releaseSource
  refine keeps_ite (fun _ => ?_) (fun _ => ?_)
  · with_reducible apply keeps_setStream
    exact hk
  · exact hk

theorem keeps_unloadEngine {s : State} (d e : Nat) (hk : Keeps st0 s) :
    Keeps st0 (unloadEngine s d e).1 := by
  unfold unloadEngine
  extract_lets +onlyGivenNames x
  clear_value x
  extract_lets +onlyGivenNames lost
  clear_value lost
  extract_lets +onlyGivenNames s1
  have h_s1 : Keeps st0 s1 := by
    unfold s1
    refine keeps_foldl ?_ ?_
    · intro s_1
      intro x_1
      intro h
      with_reducible apply keeps_releaseSource
      exact h
    · exact hk
  clear_value s1
  extract_lets +onlyGivenNames s2
  have h_s2 : Keeps st0 s2 := by
    unfold s2
    refine keeps_foldl ?_ ?_
    · intro s_1
      intro x_1
      intro h
      with_reducible apply keeps_deleteStream
      exact h
    · exact h_s1
  clear_value s2
  extract_lets +onlyGivenNames s3
  have h_s3 : Keeps st0 s3 := by
    unfold s3
    with_reducible apply keeps_setPoolFree
    exact h_s2
  clear_value s3
  refine keeps_mk1 ?_
  with_reducible apply keeps_setEng
  exact h_s3

theorem keeps_svcRelease {s : State} (d k : Nat) (hk : Keeps st0 s) :
    Keeps st0 (svcRelease s d k).1 := by
  unfold svcRelease
  extract_lets +onlyGivenNames x
  clear_value x
  extract_lets +onlyGivenNames r
  have h_r : Keeps st0 r.1 := by
    unfold r
    refine keeps_foldl1 ?_ ?_
    · intro p
      intro x_1
      intro h
      extract_lets +onlyGivenNames u
      have h_u : Keeps st0 u.1 := by
        unfold u
        with_reducible apply keeps_unloadEngine
        exact h
      clear_value u
      exact h_u
    · exact hk
  clear_value r
  extract_lets +onlyGivenNames s1
  have h_s1 : Keeps st0 s1 := by
    unfold s1
    refine keeps_foldl ?_ ?_
    · intro s_1
      intro x_1
      intro h
      with_reducible apply keeps_releaseSource
      exact h
    · exact h_r
  clear_value s1
  extract_lets +onlyGivenNames s2
  have h_s2 : Keeps st0 s2 := by
    unfold s2
    refine keeps_foldl ?_ ?_
    · intro s_1
      intro x_1
      intro h
      refine keeps_ite (fun _ => ?_) (fun _ => ?_)
      · with_reducible apply keeps_setXfer
        exact h
      · exact h
    · exact h_s1
  clear_value s2
  extract_lets +onlyGivenNames s3
  have h_s3 : Keeps st0 s3 := by
    unfold s3
    split
    · rename_i x_1 v e
      refine keeps_ite (fun _ => ?_) (fun _ => ?_)
      · with_reducible apply keeps_unitDone
        exact h_s2
      · exact h_s2
    · rename_i x_1 e
      exact h_s2
  clear_value s3
  extract_lets +onlyGivenNames s4
  have h_s4 : Keeps st0 s4 := by
    unfold s4
    with_reducible apply keeps_svcState
    exact h_s3
  clear_value s4
  refine keeps_mk1 ?_
  with_reducible apply keeps_setSvc
  exact h_s4

theorem keeps_svcCheck {s : State} (d k : Nat) (hk : Keeps st0 s) :
    Keeps st0 (svcCheck s d k) := by
  unfold svcCheck
  extract_lets +onlyGivenNames x
  clear_value x
  refine keeps_ite (fun _ => ?_) (fun _ => ?_)
  · exact hk
  · extract_lets +onlyGivenNames s1
    have h_s1 : Keeps st0 s1 := by
      unfold s1
      refine keeps_ite (fun _ => ?_) (fun _ => ?_)
      · with_reducible apply keeps_svcState
        exact hk
      · exact hk
    clear_value s1
    extract_lets +onlyGivenNames s2_src1 s2
    have h_s2 : Keeps st0 s2 := by
      unfold s2
      with_reducible apply keeps_setSvc
      exact h_s1
    clear_value s2
    extract_lets +onlyGivenNames rolls
    clear_value rolls
    extract_lets +onlyGivenNames r
    have h_r : Keeps st0 r.1 := by
      unfold r
      refine keeps_ite1 (fun _ => ?_) (fun _ => ?_)
      · with_reducible apply keeps_svcRelease
        exact h_s2
      · exact h_s2
    clear_value r
    extract_lets +onlyGivenNames res
    clear_value res
    refine keeps_foldl ?_ ?_
    · intro s_1
      intro x_1
      intro h
      with_reducible apply keeps_unitDone
      exact h
    · exact h_r

theorem keeps_leaveState {s : State} (d e : Nat) (st : EngSt) (hk : Keeps st0 s) :
    Keeps st0 (leaveState s d e st) := by
  unfold leaveState
  extract_lets +onlyGivenNames x
  clear_value x
  extract_lets +onlyGivenNames y
  clear_value y
  with_reducible apply keeps_unitsDone
  with_reducible apply keeps_setEng
  exact hk

theorem keeps_leaveRunning {s : State} (d e : Nat) (st : EngSt) (hk : Keeps st0 s) :
    Keeps st0 (leaveRunning s d e st) := by
  unfold leaveRunning
  extract_lets +onlyGivenNames s1
  have h_s1 : Keeps st0 s1 := by
    unfold s1
    with_reducible apply keeps_leaveState
    exact hk
  clear_value s1
  split
  · rename_i x k e_1
    with_reducible apply keeps_svcCheck
    exact h_s1
  · rename_i x e_1
    exact h_s1

theorem keeps_engStopNow {s : State} (d e : Nat) (fids : List Nat) (hk : Keeps st0 s) :
    Keeps st0 (engStopNow s d e fids) := by
  unfold engStopNow
  extract_lets +onlyGivenNames x
  clear_value x
  extract_lets +onlyGivenNames y
  clear_value y
  split
  · rename_i x_1 x_2 d_1 addr n e_1 e_2
    with_reducible apply keeps_setEng
    exact hk
  · rename_i x_1 x_2 inval e_1 e_2
    with_reducible apply keeps_setEng
    exact hk
  · rename_i x_1 x_2 e_1 e_2 e_3
    with_reducible apply keeps_leaveRunning
    with_reducible apply keeps_setEng
    exact hk
  · rename_i x_1 x_2 e_1
    with_reducible apply keeps_setEng
    exact hk
  · rename_i x_1 x_2 e_1 e_2 e_3 e_4
    with_reducible apply keeps_unitsDone
    exact hk

theorem keeps_engStopPoint {s : State} (d e : Nat) (fids : List Nat) (hk : Keeps st0 s) :
    Keeps st0 (engStopPoint s d e fids) := by
  unfold engStopPoint
  extract_lets +onlyGivenNames x
  clear_value x
  extract_lets +onlyGivenNames y
  clear_value y
  split
  · rename_i x_1 x_2 d_1 mask deadline e_1 e_2
    with_reducible apply keeps_leaveRunning
    with_reducible apply keeps_setEng
    exact hk
  · rename_i x_1 x_2 e_1 e_2
    with_reducible apply keeps_setEng
    exact hk
  · rename_i x_1 x_2 e_1
    with_reducible apply keeps_setEng
    exact hk
  · rename_i x_1 x_2 e_1 e_2 e_3
    with_reducible apply keeps_unitsDone
    exact hk

theorem keeps_svcFault {s : State} (d k cause e trap t : Nat) (hk : Keeps st0 s) :
    Keeps st0 (svcFault s d k cause e trap t) := by
  unfold svcFault
  extract_lets +onlyGivenNames x
  clear_value x
  refine keeps_ite (fun _ => ?_) (fun _ => ?_)
  · exact hk
  · extract_lets +onlyGivenNames s1
    have h_s1 : Keeps st0 s1 := by
      unfold s1
      with_reducible apply keeps_svcStateAt
      exact hk
    clear_value s1
    extract_lets +onlyGivenNames gone
    clear_value gone
    extract_lets +onlyGivenNames s2_src1 s2
    have h_s2 : Keeps st0 s2 := by
      unfold s2
      with_reducible apply keeps_unitsDone
      with_reducible apply keeps_setSvc
      exact h_s1
    clear_value s2
    extract_lets +onlyGivenNames s3
    have h_s3 : Keeps st0 s3 := by
      unfold s3
      refine keeps_foldl ?_ ?_
      · intro s_1
        intro x_1
        intro h
        with_reducible apply keeps_engStopPoint
        exact h
      · exact h_s2
    clear_value s3
    with_reducible apply keeps_svcCheck
    exact h_s3

theorem keeps_svcLearns {s : State} (d e cause trap t : Nat) (hk : Keeps st0 s) :
    Keeps st0 (svcLearns s d e cause trap t) := by
  unfold svcLearns
  split
  · rename_i x k e_1
    with_reducible apply keeps_svcFault
    exact hk
  · rename_i x e_1
    exact hk

theorem keeps_engTrapAt {s : State} (d e cause : Nat) (bad : W64) (t : Nat) (hk : Keeps st0 s) :
    Keeps st0 (engTrapAt s d e cause bad t) := by
  unfold engTrapAt
  extract_lets +onlyGivenNames x
  clear_value x
  extract_lets +onlyGivenNames s1
  have h_s1 : Keeps st0 s1 := by
    unfold s1
    with_reducible apply keeps_leaveState
    with_reducible apply keeps_setEng
    exact hk
  clear_value s1
  extract_lets +onlyGivenNames s2
  have h_s2 : Keeps st0 s2 := by
    unfold s2
    with_reducible apply keeps_post
    exact h_s1
  clear_value s2
  with_reducible apply keeps_svcLearns
  exact h_s2

theorem keeps_engTrap {s : State} (d e cause : Nat) (bad : W64) (hk : Keeps st0 s) :
    Keeps st0 (engTrap s d e cause bad) := by
  unfold engTrap
  with_reducible apply keeps_engTrapAt
  exact hk

theorem keeps_engSleep {s : State} (d e : Nat) (hk : Keeps st0 s) :
    Keeps st0 (engSleep s d e) := by
  unfold engSleep
  extract_lets +onlyGivenNames s1
  have h_s1 : Keeps st0 s1 := by
    unfold s1
    with_reducible apply keeps_svcLearns
    exact hk
  clear_value s1
  refine keeps_ite (fun _ => ?_) (fun _ => ?_)
  · with_reducible apply keeps_engStopNow
    exact h_s1
  · exact h_s1

theorem keeps_engSafelight {s : State} (d : Nat) (hk : Keeps st0 s) :
    Keeps st0 (engSafelight s d) := by
  unfold engSafelight
  extract_lets +onlyGivenNames s1
  have h_s1 : Keeps st0 s1 := by
    unfold s1
    refine keeps_foldl ?_ ?_
    · intro s_1
      intro x
      intro h
      extract_lets +onlyGivenNames x_1
      clear_value x_1
      refine keeps_ite (fun _ => ?_) (fun _ => ?_)
      · exact h
      · with_reducible apply keeps_svcState
        with_reducible apply keeps_setSvc
        exact h
    · exact hk
  clear_value s1
  extract_lets +onlyGivenNames s2
  have h_s2 : Keeps st0 s2 := by
    unfold s2
    refine keeps_foldl ?_ ?_
    · intro s_1
      intro x
      intro h
      refine keeps_ite (fun _ => ?_) (fun _ => ?_)
      · with_reducible apply keeps_engStopNow
        exact h
      · exact h
    · exact h_s1
  clear_value s2
  refine keeps_foldl ?_ ?_
  · intro s_1
    intro x
    intro h
    with_reducible apply keeps_svcCheck
    exact h
  · exact h_s2

end Sys2Proof.Machine
end

