-- ==== Sys2Proof/Laws/KeepsEngine.lean ====
section
/-!
SUPPORT. What keeps the part, the time, the queue and the canonical form of memory (`Keeps`): Machine/Engine.
-/

namespace Sys2Proof.Machine

variable {st0 : State}

theorem keeps_retireTo {s : State} (d e pc : Nat) (hk : Keeps st0 s) :
    Keeps st0 (retireTo s d e pc) := by
  unfold retireTo
  extract_lets +onlyGivenNames p_src1 p
  have h_p : Keeps st0 p.2 := by
    unfold p
    refine keeps_ite2 (fun _ => ?_) (fun _ => ?_)
    · exact hk
    · refine keeps_mk2 ?_
      unfold p_src1
      with_reducible apply keeps_drawFree
      exact hk
  clear_value p
  extract_lets +onlyGivenNames x
  clear_value x
  with_reducible apply keeps_setEng
  exact h_p

theorem keeps_retire {s : State} (d e : Nat) (hk : Keeps st0 s) :
    Keeps st0 (retire s d e) := by
  unfold retire
  with_reducible apply keeps_retireTo
  exact hk

theorem keeps_engHalt {s : State} (d e : Nat) (v : W64) (hk : Keeps st0 s) :
    Keeps st0 (engHalt s d e v) := by
  unfold engHalt
  extract_lets +onlyGivenNames pc
  clear_value pc
  extract_lets +onlyGivenNames s1
  have h_s1 : Keeps st0 s1 := by
    unfold s1
    with_reducible apply keeps_leaveState
    with_reducible apply keeps_retire
    exact hk
  clear_value s1
  with_reducible apply keeps_svcLearns
  with_reducible apply keeps_post
  exact h_s1

theorem keeps_engAct (d e : Nat) (a : EngAct) (h : ActKeeps st0 a) : Keeps st0 (engAct d e a) := by
  cases a with
  | done s => exact keeps_retire _ _ h
  | jump s pc => exact keeps_retireTo _ _ _ h
  | trap s c v => exact keeps_engTrap _ _ _ _ h
  | hold s w => exact keeps_setEng _ _ _ h
  | halt s v => exact keeps_engHalt _ _ _ h

theorem keeps_runEng {s : State} (e : Eng) (word : Option Nat) (f : State → Engine → EngAct) (hk : Keeps st0 s)
    (h_f : ∀ v0 v1, Keeps st0 v0 → ActKeeps st0 (f v0 v1)) :
    OutKeeps st0 (runEng e word f s) := by
  unfold runEng
  with_reducible apply keeps_onDie
  · exact hk
  · intro s_1
    intro h
    with_reducible apply keeps_whenB
    · exact h
    · intro s_2
      intro h_1
      extract_lets +onlyGivenNames x
      clear_value x
      refine keeps_ite (fun _ => ?_) (fun _ => ?_)
      · with_reducible apply keeps_engTrap
        exact h_1
      · with_reducible apply keeps_engAct
        refine h_f _ _ ?_
        exact h_1

theorem keeps_regOp {s : State} (e : Eng) (word : Option Nat) (d : Nat) (f : State → Engine → BitVec 72) (hk : Keeps st0 s) :
    OutKeeps st0 (regOp e word d f s) := by
  unfold regOp
  with_reducible apply keeps_runEng
  · exact hk
  · intro v0
    intro v1
    intro h
    refine actKeeps_done ?_
    with_reducible apply keeps_setEng
    exact h

theorem keeps_illegal {s : State} (e : Eng) (hk : Keeps st0 s) :
    ActKeeps st0 (illegal s e) := by
  unfold illegal
  assumption

theorem keeps_alu2 {s : State} (w : Option Nat) (op : W64 → W64 → W64) (e : Eng) (d a b : Nat) (hk : Keeps st0 s) :
    OutKeeps st0 (alu2 w op e d a b s) := by
  unfold alu2
  with_reducible apply keeps_regOp
  exact hk

theorem keeps_alu1 {s : State} (w : Option Nat) (op : W64 → W64) (e : Eng) (d a : Nat) (hk : Keeps st0 s) :
    OutKeeps st0 (alu1 w op e d a s) := by
  unfold alu1
  with_reducible apply keeps_regOp
  exact hk

theorem keeps_execEngAdd {s : State} (e : Eng) (d a b : Nat) (hk : Keeps st0 s) :
    OutKeeps st0 (execEngAdd e d a b s) := by
  unfold execEngAdd
  with_reducible apply keeps_alu2
  exact hk

theorem keeps_execEngSub {s : State} (e : Eng) (d a b : Nat) (hk : Keeps st0 s) :
    OutKeeps st0 (execEngSub e d a b s) := by
  unfold execEngSub
  with_reducible apply keeps_alu2
  exact hk

theorem keeps_execEngAnd {s : State} (e : Eng) (d a b : Nat) (hk : Keeps st0 s) :
    OutKeeps st0 (execEngAnd e d a b s) := by
  unfold execEngAnd
  with_reducible apply keeps_alu2
  exact hk

theorem keeps_execEngOr {s : State} (e : Eng) (d a b : Nat) (hk : Keeps st0 s) :
    OutKeeps st0 (execEngOr e d a b s) := by
  unfold execEngOr
  with_reducible apply keeps_alu2
  exact hk

theorem keeps_execEngXor {s : State} (e : Eng) (d a b : Nat) (hk : Keeps st0 s) :
    OutKeeps st0 (execEngXor e d a b s) := by
  unfold execEngXor
  with_reducible apply keeps_alu2
  exact hk

theorem keeps_execAndn {s : State} (e : Eng) (d a b : Nat) (hk : Keeps st0 s) :
    OutKeeps st0 (execAndn e d a b s) := by
  unfold execAndn
  with_reducible apply keeps_alu2
  exact hk

theorem keeps_execShl {s : State} (e : Eng) (d a b : Nat) (hk : Keeps st0 s) :
    OutKeeps st0 (execShl e d a b s) := by
  unfold execShl
  with_reducible apply keeps_alu2
  exact hk

theorem keeps_execShr {s : State} (e : Eng) (d a b : Nat) (hk : Keeps st0 s) :
    OutKeeps st0 (execShr e d a b s) := by
  unfold execShr
  with_reducible apply keeps_alu2
  exact hk

theorem keeps_execSar {s : State} (e : Eng) (d a b : Nat) (hk : Keeps st0 s) :
    OutKeeps st0 (execSar e d a b s) := by
  unfold execSar
  with_reducible apply keeps_alu2
  exact hk

theorem keeps_execRor {s : State} (e : Eng) (d a b : Nat) (hk : Keeps st0 s) :
    OutKeeps st0 (execRor e d a b s) := by
  unfold execRor
  with_reducible apply keeps_alu2
  exact hk

theorem keeps_execSlt {s : State} (e : Eng) (d a b : Nat) (hk : Keeps st0 s) :
    OutKeeps st0 (execSlt e d a b s) := by
  unfold execSlt
  with_reducible apply keeps_alu2
  exact hk

theorem keeps_execSltu {s : State} (e : Eng) (d a b : Nat) (hk : Keeps st0 s) :
    OutKeeps st0 (execSltu e d a b s) := by
  unfold execSltu
  with_reducible apply keeps_alu2
  exact hk

theorem keeps_execEngMin {s : State} (e : Eng) (d a b : Nat) (hk : Keeps st0 s) :
    OutKeeps st0 (execEngMin e d a b s) := by
  unfold execEngMin
  with_reducible apply keeps_alu2
  exact hk

theorem keeps_execEngMax {s : State} (e : Eng) (d a b : Nat) (hk : Keeps st0 s) :
    OutKeeps st0 (execEngMax e d a b s) := by
  unfold execEngMax
  with_reducible apply keeps_alu2
  exact hk

theorem keeps_execMinu {s : State} (e : Eng) (d a b : Nat) (hk : Keeps st0 s) :
    OutKeeps st0 (execMinu e d a b s) := by
  unfold execMinu
  with_reducible apply keeps_alu2
  exact hk

theorem keeps_execMaxu {s : State} (e : Eng) (d a b : Nat) (hk : Keeps st0 s) :
    OutKeeps st0 (execMaxu e d a b s) := by
  unfold execMaxu
  with_reducible apply keeps_alu2
  exact hk

theorem keeps_execEngMul {s : State} (e : Eng) (d a b : Nat) (hk : Keeps st0 s) :
    OutKeeps st0 (execEngMul e d a b s) := by
  unfold execEngMul
  with_reducible apply keeps_alu2
  exact hk

theorem keeps_execMulhu {s : State} (e : Eng) (d a b : Nat) (hk : Keeps st0 s) :
    OutKeeps st0 (execMulhu e d a b s) := by
  unfold execMulhu
  with_reducible apply keeps_alu2
  exact hk

theorem keeps_execMulh {s : State} (e : Eng) (d a b : Nat) (hk : Keeps st0 s) :
    OutKeeps st0 (execMulh e d a b s) := by
  unfold execMulh
  with_reducible apply keeps_alu2
  exact hk

theorem keeps_execClz {s : State} (e : Eng) (d a : Nat) (hk : Keeps st0 s) :
    OutKeeps st0 (execClz e d a s) := by
  unfold execClz
  with_reducible apply keeps_alu1
  exact hk

theorem keeps_execCtz {s : State} (e : Eng) (d a : Nat) (hk : Keeps st0 s) :
    OutKeeps st0 (execCtz e d a s) := by
  unfold execCtz
  with_reducible apply keeps_alu1
  exact hk

theorem keeps_execPopc {s : State} (e : Eng) (d a : Nat) (hk : Keeps st0 s) :
    OutKeeps st0 (execPopc e d a s) := by
  unfold execPopc
  with_reducible apply keeps_alu1
  exact hk

theorem keeps_execBswap {s : State} (e : Eng) (d a : Nat) (hk : Keeps st0 s) :
    OutKeeps st0 (execBswap e d a s) := by
  unfold execBswap
  with_reducible apply keeps_alu1
  exact hk

theorem keeps_execMovw {s : State} (e : Eng) (d a : Nat) (hk : Keeps st0 s) :
    OutKeeps st0 (execMovw e d a s) := by
  unfold execMovw
  with_reducible apply keeps_regOp
  exact hk

theorem keeps_execSetside {s : State} (e : Eng) (d a b : Nat) (hk : Keeps st0 s) :
    OutKeeps st0 (execSetside e d a b s) := by
  unfold execSetside
  with_reducible apply keeps_regOp
  exact hk

theorem keeps_execGetside {s : State} (e : Eng) (d a : Nat) (hk : Keeps st0 s) :
    OutKeeps st0 (execGetside e d a s) := by
  unfold execGetside
  with_reducible apply keeps_regOp
  exact hk

theorem keeps_immOp {s : State} (w : Option Nat) (f : W64 → W16 → W64) (e : Eng) (d a : Nat) (imm : W16) (hk : Keeps st0 s) :
    OutKeeps st0 (immOp w f e d a imm s) := by
  unfold immOp
  with_reducible apply keeps_regOp
  exact hk

theorem keeps_execAddi {s : State} (e : Eng) (d a : Nat) (imm : W16) (hk : Keeps st0 s) :
    OutKeeps st0 (execAddi e d a imm s) := by
  unfold execAddi
  with_reducible apply keeps_immOp
  exact hk

theorem keeps_execAndi {s : State} (e : Eng) (d a : Nat) (imm : W16) (hk : Keeps st0 s) :
    OutKeeps st0 (execAndi e d a imm s) := by
  unfold execAndi
  with_reducible apply keeps_immOp
  exact hk

theorem keeps_execOri {s : State} (e : Eng) (d a : Nat) (imm : W16) (hk : Keeps st0 s) :
    OutKeeps st0 (execOri e d a imm s) := by
  unfold execOri
  with_reducible apply keeps_immOp
  exact hk

theorem keeps_execXori {s : State} (e : Eng) (d a : Nat) (imm : W16) (hk : Keeps st0 s) :
    OutKeeps st0 (execXori e d a imm s) := by
  unfold execXori
  with_reducible apply keeps_immOp
  exact hk

theorem keeps_execSlti {s : State} (e : Eng) (d a : Nat) (imm : W16) (hk : Keeps st0 s) :
    OutKeeps st0 (execSlti e d a imm s) := by
  unfold execSlti
  with_reducible apply keeps_immOp
  exact hk

theorem keeps_execSltiu {s : State} (e : Eng) (d a : Nat) (imm : W16) (hk : Keeps st0 s) :
    OutKeeps st0 (execSltiu e d a imm s) := by
  unfold execSltiu
  with_reducible apply keeps_immOp
  exact hk

theorem keeps_execShifti {s : State} (e : Eng) (d a kind amt : Nat) (hk : Keeps st0 s) :
    OutKeeps st0 (execShifti e d a kind amt s) := by
  unfold execShifti
  with_reducible apply keeps_regOp
  exact hk

theorem keeps_execMovz {s : State} (e : Eng) (d k : Nat) (imm : W16) (hk : Keeps st0 s) :
    OutKeeps st0 (execMovz e d k imm s) := by
  unfold execMovz
  with_reducible apply keeps_regOp
  exact hk

theorem keeps_execMovk {s : State} (e : Eng) (d k : Nat) (imm : W16) (hk : Keeps st0 s) :
    OutKeeps st0 (execMovk e d k imm s) := by
  unfold execMovk
  with_reducible apply keeps_regOp
  exact hk

theorem keeps_execExtr {s : State} (e : Eng) (d a pos len : Nat) (hk : Keeps st0 s) :
    OutKeeps st0 (execExtr e d a pos len s) := by
  unfold execExtr
  with_reducible apply keeps_runEng
  · exact hk
  · intro v0
    intro v1
    intro h
    refine actKeeps_ite (fun _ => ?_) (fun _ => ?_)
    · with_reducible apply keeps_illegal
      exact h
    · refine actKeeps_done ?_
      with_reducible apply keeps_setEng
      exact h

theorem keeps_execInsr {s : State} (e : Eng) (d a pos len : Nat) (hk : Keeps st0 s) :
    OutKeeps st0 (execInsr e d a pos len s) := by
  unfold execInsr
  with_reducible apply keeps_runEng
  · exact hk
  · intro v0
    intro v1
    intro h
    refine actKeeps_ite (fun _ => ?_) (fun _ => ?_)
    · with_reducible apply keeps_illegal
      exact h
    · extract_lets +onlyGivenNames m
      clear_value m
      refine actKeeps_done ?_
      with_reducible apply keeps_setEng
      exact h

theorem keeps_accessCause {s : State} (g : Option Area) (a n : Nat) (store word : Bool) (hk : Keeps st0 s) :
    Keeps st0 (accessCause s g a n store word).2 := by
  unfold accessCause
  dsimp only
  split
  · exact keeps_drawFree hk
  · exact hk

theorem keeps_writeBack {s : State} (d e : Nat) (l : CacheLine) (hk : Keeps st0 s) :
    Keeps st0 (writeBack s d e l) := by
  unfold writeBack
  refine keeps_ite (fun _ => ?_) (fun _ => ?_)
  · with_reducible apply keeps_incF
    with_reducible apply keeps_memWrite
    exact hk
  · exact hk

theorem keeps_cacheFill {s : State} (d e line : Nat) (hk : Keeps st0 s) :
    Keeps st0 (cacheFill s d e line).2 := by
  unfold cacheFill
  extract_lets +onlyGivenNames x
  clear_value x
  extract_lets +onlyGivenNames pick_src1 pick
  have h_pick : Keeps st0 pick.2 := by
    unfold pick
    split
    · rename_i x_1 w e_1
      exact hk
    · rename_i x_1 e_1
      refine keeps_mk2 ?_
      unfold pick_src1
      with_reducible apply keeps_drawFree
      exact hk
  clear_value pick
  extract_lets +onlyGivenNames s1
  have h_s1 : Keeps st0 s1 := by
    unfold s1
    split
    · rename_i x_1 l e_1
      with_reducible apply keeps_writeBack
      exact h_pick
    · rename_i x_1 e_1
      exact h_pick
  clear_value s1
  extract_lets +onlyGivenNames l
  clear_value l
  extract_lets +onlyGivenNames y
  clear_value y
  refine keeps_mk2 ?_
  with_reducible apply keeps_setEng
  exact h_s1

theorem keeps_countMiss {s : State} (d e : Nat) (hk : Keeps st0 s) :
    Keeps st0 (countMiss s d e) := by
  unfold countMiss
  with_reducible apply keeps_incF
  exact hk

theorem keeps_cacheWrite {s : State} (d e a n v : Nat) (hk : Keeps st0 s) :
    Keeps st0 (cacheWrite s d e a n v) := by
  unfold cacheWrite
  extract_lets +onlyGivenNames line
  clear_value line
  extract_lets +onlyGivenNames r
  have h_r : Keeps st0 r.2 := by
    unfold r
    split
    · rename_i x w e_1
      exact hk
    · rename_i x e_1
      with_reducible apply keeps_cacheFill
      with_reducible apply keeps_countMiss
      exact hk
  clear_value r
  extract_lets +onlyGivenNames x
  clear_value x
  split
  · rename_i x_1 l e_1
    extract_lets +onlyGivenNames o
    clear_value o
    extract_lets +onlyGivenNames data
    clear_value data
    with_reducible apply keeps_setEng
    exact h_r
  · rename_i x_1 e_1
    exact h_r

theorem keeps_cacheFlush {s : State} (d e : Nat) (inval : Bool) (hk : Keeps st0 s) :
    Keeps st0 (cacheFlush s d e inval) := by
  unfold cacheFlush
  extract_lets +onlyGivenNames s1
  have h_s1 : Keeps st0 s1 := by
    unfold s1
    refine keeps_foldl ?_ ?_
    · intro s_1
      intro x
      intro h
      split
      · rename_i x_1 l e_1
        with_reducible apply keeps_writeBack
        exact h
      · rename_i x_1 e_1
        exact h
    · exact hk
  clear_value s1
  extract_lets +onlyGivenNames x
  clear_value x
  with_reducible apply keeps_setEng
  exact h_s1

theorem keeps_loadOp {s : State} (w : Option Nat) (n : Nat) (word : Bool) (e : Eng) (d a : Nat) (imm : W16) (hk : Keeps st0 s) :
    OutKeeps st0 (loadOp w n word e d a imm s) := by
  unfold loadOp
  with_reducible apply keeps_runEng
  · exact hk
  · intro v0
    intro v1
    intro h
    extract_lets +onlyGivenNames die
    clear_value die
    extract_lets +onlyGivenNames k
    clear_value k
    extract_lets +onlyGivenNames va
    clear_value va
    extract_lets +onlyGivenNames g
    clear_value g
    extract_lets +onlyGivenNames c
    have h_c : Keeps st0 c.2 := by
      unfold c
      with_reducible apply keeps_accessCause
      exact h
    clear_value c
    extract_lets +onlyGivenNames fin
    have h_fin : ∀ v0 v1, Keeps st0 v0 → ActKeeps st0 (fin v0 v1) := by
      unfold fin
      intro v0_1
      intro v1_1
      intro h_1
      refine actKeeps_done ?_
      with_reducible apply keeps_setEng
      exact h_1
    clear_value fin
    split
    · rename_i x w_1 e_1
      refine actKeeps_trap ?_
      exact h_c
    · rename_i x e_1
      split
      · rename_i g p
        refine actKeeps_ite (fun _ => ?_) (fun _ => ?_)
        · refine actKeeps_trap ?_
          exact h
        · extract_lets +onlyGivenNames side
          clear_value side
          refine h_fin _ _ ?_
          exact h
      · rename_i g p
        refine h_fin _ _ ?_
        exact h
      · rename_i g p
        refine h_fin _ _ ?_
        exact h
      · rename_i g p
        split
        · rename_i x_1 w_1 e_2
          refine h_fin _ _ ?_
          exact h
        · rename_i x_1 e_2
          refine actKeeps_hold ?_
          with_reducible apply keeps_countMiss
          exact h
      · rename_i g
        refine actKeeps_trap ?_
        exact h

theorem keeps_storeOp {s : State} (w : Option Nat) (n : Nat) (word : Bool) (e : Eng) (d a : Nat) (imm : W16) (hk : Keeps st0 s) :
    OutKeeps st0 (storeOp w n word e d a imm s) := by
  unfold storeOp
  with_reducible apply keeps_runEng
  · exact hk
  · intro v0
    intro v1
    intro h
    extract_lets +onlyGivenNames die
    clear_value die
    extract_lets +onlyGivenNames k
    clear_value k
    extract_lets +onlyGivenNames va
    clear_value va
    extract_lets +onlyGivenNames g
    clear_value g
    extract_lets +onlyGivenNames c
    have h_c : Keeps st0 c.2 := by
      unfold c
      with_reducible apply keeps_accessCause
      exact h
    clear_value c
    extract_lets +onlyGivenNames v
    clear_value v
    split
    · rename_i x w_1 e_1
      refine actKeeps_trap ?_
      exact h_c
    · rename_i x e_1
      split
      · rename_i g p
        extract_lets +onlyGivenNames s1
        have h_s1 : Keeps st0 s1 := by
          unfold s1
          with_reducible apply keeps_memWrite
          exact h
        clear_value s1
        refine actKeeps_ite (fun _ => ?_) (fun _ => ?_)
        · extract_lets +onlyGivenNames s2
          have h_s2 : Keeps st0 s2 := by
            unfold s2
            with_reducible apply keeps_memWrite
            exact h_s1
          clear_value s2
          refine actKeeps_done ?_
          with_reducible apply keeps_setEng
          exact h_s2
        · refine actKeeps_done ?_
          exact h_s1
      · rename_i g p
        refine actKeeps_done ?_
        with_reducible apply keeps_memWrite
        exact h
      · rename_i g p
        refine actKeeps_done ?_
        with_reducible apply keeps_memWrite
        exact h
      · rename_i g p
        refine actKeeps_done ?_
        with_reducible apply keeps_cacheWrite
        exact h
      · rename_i g
        refine actKeeps_trap ?_
        exact h

theorem keeps_execLdb {s : State} (e : Eng) (d a : Nat) (imm : W16) (hk : Keeps st0 s) :
    OutKeeps st0 (execLdb e d a imm s) := by
  unfold execLdb
  with_reducible apply keeps_loadOp
  exact hk

theorem keeps_execLdh {s : State} (e : Eng) (d a : Nat) (imm : W16) (hk : Keeps st0 s) :
    OutKeeps st0 (execLdh e d a imm s) := by
  unfold execLdh
  with_reducible apply keeps_loadOp
  exact hk

theorem keeps_execLdd {s : State} (e : Eng) (d a : Nat) (imm : W16) (hk : Keeps st0 s) :
    OutKeeps st0 (execLdd e d a imm s) := by
  unfold execLdd
  with_reducible apply keeps_loadOp
  exact hk

theorem keeps_execLdq {s : State} (e : Eng) (d a : Nat) (imm : W16) (hk : Keeps st0 s) :
    OutKeeps st0 (execLdq e d a imm s) := by
  unfold execLdq
  with_reducible apply keeps_loadOp
  exact hk

theorem keeps_execLdw {s : State} (e : Eng) (d a : Nat) (imm : W16) (hk : Keeps st0 s) :
    OutKeeps st0 (execLdw e d a imm s) := by
  unfold execLdw
  with_reducible apply keeps_loadOp
  exact hk

theorem keeps_execStb {s : State} (e : Eng) (d a : Nat) (imm : W16) (hk : Keeps st0 s) :
    OutKeeps st0 (execStb e d a imm s) := by
  unfold execStb
  with_reducible apply keeps_storeOp
  exact hk

theorem keeps_execSth {s : State} (e : Eng) (d a : Nat) (imm : W16) (hk : Keeps st0 s) :
    OutKeeps st0 (execSth e d a imm s) := by
  unfold execSth
  with_reducible apply keeps_storeOp
  exact hk

theorem keeps_execStd {s : State} (e : Eng) (d a : Nat) (imm : W16) (hk : Keeps st0 s) :
    OutKeeps st0 (execStd e d a imm s) := by
  unfold execStd
  with_reducible apply keeps_storeOp
  exact hk

theorem keeps_execStq {s : State} (e : Eng) (d a : Nat) (imm : W16) (hk : Keeps st0 s) :
    OutKeeps st0 (execStq e d a imm s) := by
  unfold execStq
  with_reducible apply keeps_storeOp
  exact hk

theorem keeps_execStw {s : State} (e : Eng) (d a : Nat) (imm : W16) (hk : Keeps st0 s) :
    OutKeeps st0 (execStw e d a imm s) := by
  unfold execStw
  with_reducible apply keeps_storeOp
  exact hk

theorem keeps_goTo {s : State} (t : W64) (hk : Keeps st0 s) : ActKeeps st0 (goTo s t) := by
  unfold goTo
  dsimp only
  refine actKeeps_ite (fun _ => actKeeps_trap (keeps_drawFree hk)) (fun _ => ?_)
  refine actKeeps_ite (fun _ => actKeeps_trap hk) (fun _ => ?_)
  exact actKeeps_ite (fun _ => actKeeps_trap hk) (fun _ => actKeeps_jump hk)

theorem keeps_branchOp {s : State} (w : Option Nat) (p : W64 → W64 → Bool) (e : Eng) (d a : Nat) (imm : W16) (hk : Keeps st0 s) :
    OutKeeps st0 (branchOp w p e d a imm s) := by
  unfold branchOp
  with_reducible apply keeps_runEng
  · exact hk
  · intro v0
    intro v1
    intro h
    refine actKeeps_ite (fun _ => ?_) (fun _ => ?_)
    · with_reducible apply keeps_goTo
      exact h
    · refine actKeeps_done ?_
      exact h

theorem keeps_execBeq {s : State} (e : Eng) (d a : Nat) (imm : W16) (hk : Keeps st0 s) :
    OutKeeps st0 (execBeq e d a imm s) := by
  unfold execBeq
  with_reducible apply keeps_branchOp
  exact hk

theorem keeps_execBne {s : State} (e : Eng) (d a : Nat) (imm : W16) (hk : Keeps st0 s) :
    OutKeeps st0 (execBne e d a imm s) := by
  unfold execBne
  with_reducible apply keeps_branchOp
  exact hk

theorem keeps_execBlt {s : State} (e : Eng) (d a : Nat) (imm : W16) (hk : Keeps st0 s) :
    OutKeeps st0 (execBlt e d a imm s) := by
  unfold execBlt
  with_reducible apply keeps_branchOp
  exact hk

theorem keeps_execBge {s : State} (e : Eng) (d a : Nat) (imm : W16) (hk : Keeps st0 s) :
    OutKeeps st0 (execBge e d a imm s) := by
  unfold execBge
  with_reducible apply keeps_branchOp
  exact hk

theorem keeps_execBltu {s : State} (e : Eng) (d a : Nat) (imm : W16) (hk : Keeps st0 s) :
    OutKeeps st0 (execBltu e d a imm s) := by
  unfold execBltu
  with_reducible apply keeps_branchOp
  exact hk

theorem keeps_execBgeu {s : State} (e : Eng) (d a : Nat) (imm : W16) (hk : Keeps st0 s) :
    OutKeeps st0 (execBgeu e d a imm s) := by
  unfold execBgeu
  with_reducible apply keeps_branchOp
  exact hk

theorem keeps_linkTo {s : State} (e : Eng) (x : Engine) (d : Nat) (t : W64) (hk : Keeps st0 s) :
    ActKeeps st0 (linkTo s e x d t) := by
  have h := keeps_goTo t hk
  unfold linkTo
  split
  · rename_i e1
    rw [e1] at h
    exact actKeeps_jump (keeps_setEng _ _ _ h)
  · exact h

theorem keeps_execJal {s : State} (e : Eng) (d : Nat) (imm : W21) (hk : Keeps st0 s) :
    OutKeeps st0 (execJal e d imm s) := by
  unfold execJal
  with_reducible apply keeps_runEng
  · exact hk
  · intro v0
    intro v1
    intro h
    with_reducible apply keeps_linkTo
    exact h

theorem keeps_execJalr {s : State} (e : Eng) (d a : Nat) (imm : W16) (hk : Keeps st0 s) :
    OutKeeps st0 (execJalr e d a imm s) := by
  unfold execJalr
  with_reducible apply keeps_runEng
  · exact hk
  · intro v0
    intro v1
    intro h
    with_reducible apply keeps_linkTo
    exact h

theorem keeps_execEngCrc {s : State} (e : Eng) (d a b n : Nat) (hk : Keeps st0 s) :
    OutKeeps st0 (execEngCrc e d a b n s) := by
  unfold execEngCrc
  with_reducible apply keeps_runEng
  · exact hk
  · intro v0
    intro v1
    intro h
    refine actKeeps_ite (fun _ => ?_) (fun _ => ?_)
    · extract_lets +onlyGivenNames c
      clear_value c
      refine actKeeps_done ?_
      with_reducible apply keeps_setEng
      exact h
    · with_reducible apply keeps_illegal
      exact h

theorem keeps_execEngHash {s : State} (e : Eng) (d a b : Nat) (cls : Option Nat) (hk : Keeps st0 s) :
    OutKeeps st0 (execEngHash e d a b cls s) := by
  unfold execEngHash
  with_reducible apply keeps_runEng
  · exact hk
  · intro v0
    intro v1
    intro h
    extract_lets +onlyGivenNames mid
    clear_value mid
    extract_lets +onlyGivenNames h_1
    clear_value h_1
    refine actKeeps_done ?_
    with_reducible apply keeps_setEng
    exact h

theorem keeps_execEngMark {s : State} (e : Eng) (d a b : Nat) (hk : Keeps st0 s) :
    OutKeeps st0 (execEngMark e d a b s) := by
  unfold execEngMark
  with_reducible apply keeps_runEng
  · exact hk
  · intro v0
    intro v1
    intro h
    extract_lets +onlyGivenNames die
    clear_value die
    refine actKeeps_ite (fun _ => ?_) (fun _ => ?_)
    · with_reducible apply keeps_illegal
      exact h
    · refine actKeeps_ite (fun _ => ?_) (fun _ => ?_)
      · refine actKeeps_done ?_
        with_reducible apply keeps_incF
        exact h
      · extract_lets +onlyGivenNames t
        clear_value t
        extract_lets +onlyGivenNames data
        clear_value data
        extract_lets +onlyGivenNames y
        clear_value y
        refine actKeeps_ite (fun _ => ?_) (fun _ => ?_)
        · refine actKeeps_done ?_
          with_reducible apply keeps_setStream
          exact h
        · refine actKeeps_done ?_
          with_reducible apply keeps_addMark
          exact h

theorem keeps_execTrig {s : State} (e : Eng) (a b : Nat) (hk : Keeps st0 s) :
    OutKeeps st0 (execTrig e a b s) := by
  unfold execTrig
  with_reducible apply keeps_runEng
  · exact hk
  · intro v0
    intro v1
    intro h
    refine actKeeps_done ?_
    with_reducible apply keeps_giveCand
    exact h

theorem keeps_streamTake {s t : State} {d i : Nat} {v : BitVec 72 × PortInfo} (hk : Keeps st0 s) (e : streamTake s d i = some (v, t)) :
    Keeps st0 t := by
  unfold streamTake at e
  dsimp only at e
  split at e
  · cases e
  · split at e
    · cases e
    · injection e with e
      injection e with _ e
      subst e
      split
      · exact keeps_takeWhole _ _ (keeps_setStream _ _ _ hk)
      · exact keeps_setStream _ _ _ hk

theorem keeps_portTake {s t : State} {d e p : Nat} {v : BitVec 72} (hk : Keeps st0 s) (h : portTake s d e p = some (v, t)) :
    Keeps st0 t := by
  unfold portTake at h
  dsimp only at h
  split at h
  · cases q : streamTake s d (inPort (engOf s d e) p).src with
    | none =>
      rw [q] at h
      cases h
    | some r =>
      rw [q] at h
      injection h with h
      injection h with _ h
      subst h
      exact keeps_setEng _ _ _ (keeps_streamTake hk q)
  · split at h
    · cases h
    · injection h with h
      injection h with _ h
      subst h
      exact keeps_setEng _ _ _ hk

theorem keeps_svcDrain {s : State} (d k : Nat) (hk : Keeps st0 s) :
    Keeps st0 (svcDrain s d k) := by
  unfold svcDrain
  extract_lets +onlyGivenNames x
  clear_value x
  refine keeps_ite (fun _ => ?_) (fun _ => ?_)
  · exact hk
  · extract_lets +onlyGivenNames left
    clear_value left
    extract_lets +onlyGivenNames s1
    have h_s1 : Keeps st0 s1 := by
      unfold s1
      with_reducible apply keeps_setSvc
      exact hk
    clear_value s1
    refine keeps_ite (fun _ => ?_) (fun _ => ?_)
    · with_reducible apply keeps_svcCheck
      refine keeps_foldl ?_ ?_
      · intro s_1
        intro x_1
        intro h
        with_reducible apply keeps_engStopPoint
        exact h
      · exact h_s1
    · exact h_s1

theorem keeps_engDrains {s : State} (d e : Nat) (hk : Keeps st0 s) :
    Keeps st0 (engDrains s d e) := by
  unfold engDrains
  split
  · rename_i x w e_1
    with_reducible apply keeps_svcDrain
    exact hk
  · rename_i x e_1
    exact hk

theorem keeps_takeOne {s t : State} {e : Eng} {d p : Nat} (hk : Keeps st0 s) (h : takeOne s e d p = some t) : Keeps st0 t := by
  unfold takeOne at h
  cases q : portTake s e.die e.idx p with
  | none =>
    rw [q] at h
    cases h
  | some r =>
    rw [q] at h
    injection h with h
    subst h
    exact keeps_setEng _ _ _ (keeps_portTake hk q)

theorem keeps_takeTwo {s t : State} {e : Eng} {d p : Nat} (hk : Keeps st0 s) (h : takeTwo s e d p = some t) : Keeps st0 t := by
  unfold takeTwo at h
  split at h
  · cases h
  · cases q : takeOne s e d p with
    | none =>
      rw [q] at h
      cases h
    | some u =>
      rw [q] at h
      exact keeps_takeOne (keeps_takeOne hk q) h

theorem keeps_portTrap {s : State} (p : Nat) (hk : Keeps st0 s) :
    ActKeeps st0 (portTrap s p) := by
  unfold portTrap
  assumption

theorem keeps_execSin {s : State} (e : Eng) (d p : Nat) (hk : Keeps st0 s) :
    OutKeeps st0 (execSin e d p s) := by
  unfold execSin
  with_reducible apply keeps_runEng
  · exact hk
  · intro v0
    intro v1
    intro h
    refine actKeeps_ite (fun _ => ?_) (fun _ => ?_)
    · with_reducible apply keeps_portTrap
      exact h
    · split
      · rename_i e_1 x s1 e_2
        refine actKeeps_done ?_
        with_reducible apply keeps_engDrains
        refine keeps_takeOne ?_ e_2
        exact h
      · rename_i e_1 x e_2
        refine actKeeps_hold ?_
        exact h

theorem keeps_execSin2 {s : State} (e : Eng) (d p : Nat) (hk : Keeps st0 s) :
    OutKeeps st0 (execSin2 e d p s) := by
  unfold execSin2
  with_reducible apply keeps_runEng
  · exact hk
  · intro v0
    intro v1
    intro h
    refine actKeeps_ite (fun _ => ?_) (fun _ => ?_)
    · with_reducible apply keeps_illegal
      exact h
    · refine actKeeps_ite (fun _ => ?_) (fun _ => ?_)
      · with_reducible apply keeps_portTrap
        exact h
      · split
        · rename_i e_1 e_2 x s1 e_3
          refine actKeeps_done ?_
          with_reducible apply keeps_engDrains
          refine keeps_takeTwo ?_ e_3
          exact h
        · rename_i e_1 e_2 x e_3
          refine actKeeps_hold ?_
          exact h

theorem keeps_execSinfo {s : State} (e : Eng) (d p sel : Nat) (hk : Keeps st0 s) :
    OutKeeps st0 (execSinfo e d p sel s) := by
  unfold execSinfo
  with_reducible apply keeps_runEng
  · exact hk
  · intro v0
    intro v1
    intro h
    extract_lets +onlyGivenNames q
    clear_value q
    refine actKeeps_ite (fun _ => ?_) (fun _ => ?_)
    · with_reducible apply keeps_portTrap
      exact h
    · extract_lets +onlyGivenNames v
      have h_v : Keeps st0 v.2 := by
        unfold v
        split
        · rename_i e_1 x i e_2
          exact h
        · rename_i e_1 x e_2
          with_reducible apply keeps_drawFree
          exact h
      clear_value v
      refine actKeeps_done ?_
      with_reducible apply keeps_setEng
      exact h_v

theorem keeps_execSavail {s : State} (e : Eng) (d p : Nat) (hk : Keeps st0 s) :
    OutKeeps st0 (execSavail e d p s) := by
  unfold execSavail
  with_reducible apply keeps_runEng
  · exact hk
  · intro v0
    intro v1
    intro h
    extract_lets +onlyGivenNames q
    clear_value q
    refine actKeeps_ite (fun _ => ?_) (fun _ => ?_)
    · with_reducible apply keeps_portTrap
      exact h
    · extract_lets +onlyGivenNames n
      clear_value n
      refine actKeeps_done ?_
      with_reducible apply keeps_setEng
      exact h

theorem keeps_outPut {s : State} (e : Eng) (q : Nat) (w : CWord) (t : Stamp) (hk : Keeps st0 s) :
    Keeps st0 (outPut s e q w t) := by
  unfold outPut
  extract_lets +onlyGivenNames d
  clear_value d
  extract_lets +onlyGivenNames x
  clear_value x
  extract_lets +onlyGivenNames o
  clear_value o
  extract_lets +onlyGivenNames i
  clear_value i
  extract_lets +onlyGivenNames s1
  have h_s1 : Keeps st0 s1 := by
    unfold s1
    with_reducible apply keeps_setEng
    exact hk
  clear_value s1
  extract_lets +onlyGivenNames y
  clear_value y
  extract_lets +onlyGivenNames en
  clear_value en
  refine keeps_ite (fun _ => ?_) (fun _ => ?_)
  · with_reducible apply keeps_setStream
    exact h_s1
  · with_reducible apply keeps_rollCommit
    exact h_s1

theorem keeps_soutAct {s : State} (e : Eng) (q a b : Nat) (hk : Keeps st0 s) :
    ActKeeps st0 (soutAct s e q a b) := by
  unfold soutAct
  extract_lets +onlyGivenNames x
  clear_value x
  extract_lets +onlyGivenNames o
  clear_value o
  extract_lets +onlyGivenNames t
  clear_value t
  extract_lets +onlyGivenNames w
  clear_value w
  extract_lets +onlyGivenNames code
  clear_value code
  extract_lets +onlyGivenNames early
  clear_value early
  refine actKeeps_ite (fun _ => ?_) (fun _ => ?_)
  · with_reducible apply keeps_portTrap
    exact hk
  · refine actKeeps_ite (fun _ => ?_) (fun _ => ?_)
    · refine actKeeps_trap ?_
      exact hk
    · refine actKeeps_ite (fun _ => ?_) (fun _ => ?_)
      · refine actKeeps_trap ?_
        exact hk
      · refine actKeeps_ite (fun _ => ?_) (fun _ => ?_)
        · refine actKeeps_hold ?_
          exact hk
        · refine actKeeps_done ?_
          with_reducible apply keeps_outPut
          exact hk

theorem keeps_execSout {s : State} (e : Eng) (q a b : Nat) (hk : Keeps st0 s) :
    OutKeeps st0 (execSout e q a b s) := by
  unfold execSout
  with_reducible apply keeps_runEng
  · exact hk
  · intro v0
    intro v1
    intro h
    with_reducible apply keeps_soutAct
    exact h

theorem keeps_execSspace {s : State} (e : Eng) (d q : Nat) (hk : Keeps st0 s) :
    OutKeeps st0 (execSspace e d q s) := by
  unfold execSspace
  with_reducible apply keeps_runEng
  · exact hk
  · intro v0
    intro v1
    intro h
    extract_lets +onlyGivenNames o
    clear_value o
    refine actKeeps_ite (fun _ => ?_) (fun _ => ?_)
    · with_reducible apply keeps_portTrap
      exact h
    · refine actKeeps_done ?_
      with_reducible apply keeps_setEng
      exact h

theorem keeps_execNop {s : State} (e : Eng) (hk : Keeps st0 s) :
    OutKeeps st0 (execNop e s) := by
  unfold execNop
  with_reducible apply keeps_runEng
  · exact hk
  · intro v0
    intro v1
    intro h
    refine actKeeps_done ?_
    exact h

theorem keeps_execEngWait {s : State} (e : Eng) (d a b : Nat) (hk : Keeps st0 s) :
    OutKeeps st0 (execEngWait e d a b s) := by
  unfold execEngWait
  with_reducible apply keeps_onDie
  · exact hk
  · intro s_1
    intro h
    extract_lets +onlyGivenNames x
    clear_value x
    refine keeps_ite (fun _ => ?_) (fun _ => ?_)
    · split
      · rename_i e_1 x_1 w e_2
        with_reducible apply keeps_setEng
        exact h
      · rename_i e_1 x_1 e_2
        with_reducible apply keeps_leaveRunning
        exact h
    · with_reducible apply keeps_whenB
      · exact h
      · intro s_2
        intro h_1
        refine keeps_ite (fun _ => ?_) (fun _ => ?_)
        · with_reducible apply keeps_engTrap
          exact h_1
        · extract_lets +onlyGivenNames mask
          clear_value mask
          extract_lets +onlyGivenNames dl
          clear_value dl
          extract_lets +onlyGivenNames y
          clear_value y
          extract_lets +onlyGivenNames v
          clear_value v
          with_reducible apply keeps_engAct
          refine actKeeps_ite (fun _ => ?_) (fun _ => ?_)
          · with_reducible apply keeps_illegal
            exact h_1
          · refine actKeeps_ite (fun _ => ?_) (fun _ => ?_)
            · refine actKeeps_done ?_
              with_reducible apply keeps_setEng
              exact h_1
            · refine actKeeps_ite (fun _ => ?_) (fun _ => ?_)
              · refine actKeeps_done ?_
                with_reducible apply keeps_setEng
                exact h_1
              · refine actKeeps_hold ?_
                with_reducible apply keeps_setEng
                exact h_1

theorem keeps_execCkpt {s : State} (e : Eng) (hk : Keeps st0 s) :
    OutKeeps st0 (execCkpt e s) := by
  unfold execCkpt
  with_reducible apply keeps_onDie
  · exact hk
  · intro s_1
    intro h
    with_reducible apply keeps_whenB
    · exact h
    · intro s_2
      intro h_1
      extract_lets +onlyGivenNames x
      clear_value x
      refine keeps_ite (fun _ => ?_) (fun _ => ?_)
      · with_reducible apply keeps_engTrap
        exact h_1
      · extract_lets +onlyGivenNames s1
        have h_s1 : Keeps st0 s1 := by
          unfold s1
          with_reducible apply keeps_retire
          with_reducible apply keeps_setEng
          exact h_1
        clear_value s1
        extract_lets +onlyGivenNames y
        clear_value y
        split
        · rename_i e_1 x_1 w e_2
          with_reducible apply keeps_setEng
          exact h_s1
        · rename_i e_1 x_1 e_2
          refine keeps_ite (fun _ => ?_) (fun _ => ?_)
          · with_reducible apply keeps_leaveRunning
            exact h_s1
          · exact h_s1

theorem keeps_execHalt {s : State} (e : Eng) (a : Nat) (hk : Keeps st0 s) :
    OutKeeps st0 (execHalt e a s) := by
  unfold execHalt
  with_reducible apply keeps_runEng
  · exact hk
  · intro v0
    intro v1
    intro h
    refine actKeeps_halt ?_
    exact h

theorem keeps_execEngTrap {s : State} (e : Eng) (code : Nat) (hk : Keeps st0 s) :
    OutKeeps st0 (execEngTrap e code s) := by
  unfold execEngTrap
  with_reducible apply keeps_runEng
  · exact hk
  · intro v0
    intro v1
    intro h
    refine actKeeps_trap ?_
    exact h

theorem keeps_execMfs {s : State} (e : Eng) (d sr : Nat) (hk : Keeps st0 s) :
    OutKeeps st0 (execMfs e d sr s) := by
  unfold execMfs
  with_reducible apply keeps_runEng
  · exact hk
  · intro v0
    intro v1
    intro h
    split
    · rename_i x v e_1
      refine actKeeps_done ?_
      with_reducible apply keeps_setEng
      exact h
    · rename_i x e_1
      with_reducible apply keeps_illegal
      exact h

theorem keeps_execSev {s : State} (e : Eng) (d : Nat) (hk : Keeps st0 s) :
    OutKeeps st0 (execSev e d s) := by
  unfold execSev
  with_reducible apply keeps_runEng
  · exact hk
  · intro v0
    intro v1
    intro h
    split
    · rename_i x e_1
      refine actKeeps_done ?_
      with_reducible apply keeps_setEng
      exact h
    · rename_i x v r e_1
      extract_lets +onlyGivenNames side
      clear_value side
      refine actKeeps_done ?_
      with_reducible apply keeps_setEng
      exact h

theorem keeps_execMbxack {s : State} (e : Eng) (hk : Keeps st0 s) :
    OutKeeps st0 (execMbxack e s) := by
  unfold execMbxack
  with_reducible apply keeps_runEng
  · exact hk
  · intro v0
    intro v1
    intro h
    refine actKeeps_done ?_
    with_reducible apply keeps_setEng
    exact h

theorem keeps_execMbxpost {s : State} (e : Eng) (a : Nat) (hk : Keeps st0 s) :
    OutKeeps st0 (execMbxpost e a s) := by
  unfold execMbxpost
  with_reducible apply keeps_runEng
  · exact hk
  · intro v0
    intro v1
    intro h
    extract_lets +onlyGivenNames n
    clear_value n
    refine actKeeps_ite (fun _ => ?_) (fun _ => ?_)
    · refine actKeeps_trap ?_
      exact h
    · extract_lets +onlyGivenNames s1
      have h_s1 : Keeps st0 s1 := by
        unfold s1
        with_reducible apply keeps_setEng
        exact h
      clear_value s1
      refine actKeeps_done ?_
      refine keeps_ite (fun _ => ?_) (fun _ => ?_)
      · with_reducible apply keeps_raiseIrq
        exact h_s1
      · exact h_s1

theorem keeps_execCache {s : State} (e : Eng) (op : Nat) (hk : Keeps st0 s) :
    OutKeeps st0 (execCache e op s) := by
  unfold execCache
  with_reducible apply keeps_runEng
  · exact hk
  · intro v0
    intro v1
    intro h
    refine actKeeps_hold ?_
    exact h

theorem keeps_execXkick {s : State} (e : Eng) (a : Nat) (hk : Keeps st0 s) :
    OutKeeps st0 (execXkick e a s) := by
  unfold execXkick
  with_reducible apply keeps_runEng
  · exact hk
  · intro v0
    intro v1
    intro h
    extract_lets +onlyGivenNames c
    clear_value c
    refine actKeeps_ite (fun _ => ?_) (fun _ => ?_)
    · refine actKeeps_done ?_
      with_reducible apply keeps_xferKick
      exact h
    · refine actKeeps_trap ?_
      exact h

theorem keeps_execIllegalInstruction {s : State} (e : Eng) (hk : Keeps st0 s) :
    OutKeeps st0 (execIllegalInstruction e s) := by
  unfold execIllegalInstruction
  with_reducible apply keeps_onDie
  · exact hk
  · intro s_1
    intro h
    extract_lets +onlyGivenNames x
    clear_value x
    extract_lets +onlyGivenNames w
    clear_value w
    with_reducible apply keeps_whenB
    · exact h
    · intro s_2
      intro h_1
      refine keeps_ite (fun _ => ?_) (fun _ => ?_)
      · with_reducible apply keeps_engTrap
        exact h_1
      · with_reducible apply keeps_engTrap
        exact h_1

theorem keeps_unstallAt {s : State} (d e t : Nat) (hk : Keeps st0 s) :
    Keeps st0 (unstallAt s d e t) := by
  unfold unstallAt
  extract_lets +onlyGivenNames x
  clear_value x
  with_reducible apply keeps_setEng
  exact hk

theorem keeps_unstall {s : State} (d e : Nat) (hk : Keeps st0 s) :
    Keeps st0 (unstall s d e) := by
  unfold unstall
  with_reducible apply keeps_unstallAt
  exact hk

theorem keeps_thenStop {s : State} (d e : Nat) (hk : Keeps st0 s) :
    Keeps st0 (thenStop s d e) := by
  unfold thenStop
  refine keeps_ite (fun _ => ?_) (fun _ => ?_)
  · with_reducible apply keeps_leaveRunning
    exact hk
  · exact hk

theorem keeps_execWaitReturn {s : State} (d e : Nat) (hk : Keeps st0 s) :
    OutKeeps st0 (execWaitReturn d e s) := by
  unfold execWaitReturn
  with_reducible apply keeps_onDie
  · exact hk
  · intro s_1
    intro h
    extract_lets +onlyGivenNames x
    clear_value x
    split
    · rename_i x_1 r mask dl e_1
      extract_lets +onlyGivenNames v
      clear_value v
      extract_lets +onlyGivenNames due
      clear_value due
      extract_lets +onlyGivenNames t
      clear_value t
      with_reducible apply keeps_whenB
      · exact h
      · intro s_2
        intro h_1
        extract_lets +onlyGivenNames s1
        have h_s1 : Keeps st0 s1 := by
          unfold s1
          with_reducible apply keeps_unstallAt
          exact h_1
        clear_value s1
        extract_lets +onlyGivenNames y_src1 y
        clear_value y
        with_reducible apply keeps_retire
        with_reducible apply keeps_setEng
        exact h_s1
    · rename_i x_1 e_1
      exact h

theorem keeps_execSinResume {s : State} (d e : Nat) (hk : Keeps st0 s) : OutKeeps st0 (execSinResume d e s) := by
  unfold execSinResume
  refine keeps_onDie hk (fun s hs => ?_)
  dsimp only
  split
  · rename_i s1 e1
    have h1 : Keeps st0 s1 := by
      split at e1
      · exact keeps_takeTwo hs e1
      · exact keeps_takeOne hs e1
    refine keeps_whenB hs (fun _ _ => ?_)
    exact keeps_engDrains _ _ (keeps_retire _ _ (keeps_unstall _ _ h1))
  · exact hs

theorem keeps_execSoutResume {s : State} (d e : Nat) (hk : Keeps st0 s) :
    OutKeeps st0 (execSoutResume d e s) := by
  unfold execSoutResume
  with_reducible apply keeps_onDie
  · exact hk
  · intro s_1
    intro h
    extract_lets +onlyGivenNames x
    clear_value x
    extract_lets +onlyGivenNames w
    clear_value w
    with_reducible apply keeps_whenB
    · exact h
    · intro s_2
      intro h_1
      split
      · rename_i x_1 s_3 w_1 e_1
        exact h_1
      · rename_i x_1 e_1
        with_reducible apply keeps_engAct
        with_reducible apply keeps_soutAct
        with_reducible apply keeps_unstall
        exact h_1

theorem keeps_execHeapLoadComplete {s : State} (d e : Nat) (hk : Keeps st0 s) :
    OutKeeps st0 (execHeapLoadComplete d e s) := by
  unfold execHeapLoadComplete
  with_reducible apply keeps_onDie
  · exact hk
  · intro s_1
    intro h
    split
    · rename_i x r a n e_1
      with_reducible apply keeps_whenB
      · exact h
      · intro s_2
        intro h_1
        extract_lets +onlyGivenNames s1
        have h_s1 : Keeps st0 s1 := by
          unfold s1
          with_reducible apply keeps_cacheFill
          with_reducible apply keeps_unstall
          exact h_1
        clear_value s1
        extract_lets +onlyGivenNames y
        clear_value y
        with_reducible apply keeps_thenStop
        with_reducible apply keeps_retire
        with_reducible apply keeps_setEng
        exact h_s1
    · rename_i x e_1
      exact h

theorem keeps_execCacheDone {s : State} (d e : Nat) (hk : Keeps st0 s) :
    OutKeeps st0 (execCacheDone d e s) := by
  unfold execCacheDone
  with_reducible apply keeps_onDie
  · exact hk
  · intro s_1
    intro h
    split
    · rename_i x inval e_1
      with_reducible apply keeps_whenB
      · exact h
      · intro s_2
        intro h_1
        with_reducible apply keeps_thenStop
        with_reducible apply keeps_retire
        with_reducible apply keeps_cacheFlush
        with_reducible apply keeps_unstall
        exact h_1
    · rename_i x e_1
      exact h

theorem keeps_execWatchdogExpiry {s : State} (d e : Nat) (hk : Keeps st0 s) :
    OutKeeps st0 (execWatchdogExpiry d e s) := by
  unfold execWatchdogExpiry
  with_reducible apply keeps_onDie
  · exact hk
  · intro s_1
    intro h
    extract_lets +onlyGivenNames x
    clear_value x
    extract_lets +onlyGivenNames waits
    clear_value waits
    with_reducible apply keeps_whenB
    · exact h
    · intro s_2
      intro h_1
      with_reducible apply keeps_engTrapAt
      exact h_1

end Sys2Proof.Machine
end

