-- ==== Sys2Proof/Laws/KeepsEngCmd.lean ====
section
/-!
SUPPORT. What keeps the part, the time, the queue and the canonical form of memory (`Keeps`): Machine/EngCmd.
-/

namespace Sys2Proof.Machine

variable {st0 : State}

theorem keeps_rejectImage {s : State} (d u eng via reason : Nat) (p : List Byte) (hk : Keeps st0 s) :
    Keeps st0 (rejectImage s d u eng via reason p) := by
  unfold rejectImage
  extract_lets +onlyGivenNames id
  clear_value id
  extract_lets +onlyGivenNames s1
  have h_s1 : Keeps st0 s1 := by
    unfold s1
    with_reducible apply keeps_post
    exact hk
  clear_value s1
  refine keeps_ite (fun _ => ?_) (fun _ => ?_)
  · exact h_s1
  · extract_lets +onlyGivenNames x_1
    clear_value x_1
    extract_lets +onlyGivenNames n
    clear_value n
    extract_lets +onlyGivenNames y
    clear_value y
    with_reducible apply keeps_post
    refine keeps_upd ?_ ..
    exact h_s1

theorem keeps_eff_imageLoadDef {s : State} {c : Cmd} {fid u : Nat} (hk : Keeps st0 s) :
    Keeps st0 ((imageLoadDef).eff c fid u s).1 := by
  dsimp -zeta only [imageLoadDef]
  extract_lets +onlyGivenNames d
  clear_value d
  extract_lets +onlyGivenNames e
  clear_value e
  extract_lets +onlyGivenNames x
  clear_value x
  refine keeps_ite1 (fun _ => ?_) (fun _ => ?_)
  · exact hk
  · refine keeps_ite1 (fun _ => ?_) (fun _ => ?_)
    · exact hk
    · refine keeps_ite1 (fun _ => ?_) (fun _ => ?_)
      · exact hk
      · extract_lets +onlyGivenNames p
        clear_value p
        split
        · rename_i e_1 e_2 e_3 x_1 r e_4
          refine keeps_mk1 ?_
          with_reducible apply keeps_rejectImage
          exact hk
        · rename_i e_1 e_2 e_3 x_1 e_4
          refine keeps_ite1 (fun _ => ?_) (fun _ => ?_)
          · exact hk
          · extract_lets +onlyGivenNames s1
            have h_s1 : Keeps st0 s1 := by
              unfold s1
              with_reducible apply keeps_addMeasure
              with_reducible apply keeps_placeImage
              exact hk
            clear_value s1
            exact h_s1

theorem keeps_execImageLoad {s : State} (c : Cmd) (hk : Keeps st0 s) :
    OutKeeps st0 (execImageLoad c s) := by
  unfold execImageLoad
  with_reducible apply keeps_startCmd
  · intro c_1
    intro fid
    intro u
    intro s_1
    intro h
    dsimp -zeta only [imageLoadDef]
    extract_lets +onlyGivenNames d
    clear_value d
    extract_lets +onlyGivenNames e
    clear_value e
    extract_lets +onlyGivenNames x
    clear_value x
    refine keeps_ite1 (fun _ => ?_) (fun _ => ?_)
    · exact h
    · refine keeps_ite1 (fun _ => ?_) (fun _ => ?_)
      · exact h
      · refine keeps_ite1 (fun _ => ?_) (fun _ => ?_)
        · exact h
        · extract_lets +onlyGivenNames p
          clear_value p
          split
          · rename_i e_1 e_2 e_3 x_1 r e_4
            refine keeps_mk1 ?_
            with_reducible apply keeps_rejectImage
            exact h
          · rename_i e_1 e_2 e_3 x_1 e_4
            refine keeps_ite1 (fun _ => ?_) (fun _ => ?_)
            · exact h
            · extract_lets +onlyGivenNames s1
              have h_s1 : Keeps st0 s1 := by
                unfold s1
                with_reducible apply keeps_addMeasure
                with_reducible apply keeps_placeImage
                exact h
              clear_value s1
              exact h_s1
  · exact hk

theorem keeps_eff_imageUnloadDef {s : State} {c : Cmd} {fid u : Nat} (hk : Keeps st0 s) :
    Keeps st0 ((imageUnloadDef).eff c fid u s).1 := by
  dsimp -zeta only [imageUnloadDef]
  extract_lets +onlyGivenNames d
  clear_value d
  extract_lets +onlyGivenNames x
  clear_value x
  refine keeps_ite1 (fun _ => ?_) (fun _ => ?_)
  · exact hk
  · refine keeps_ite1 (fun _ => ?_) (fun _ => ?_)
    · exact hk
    · extract_lets +onlyGivenNames r
      have h_r : Keeps st0 r.1 := by
        unfold r
        with_reducible apply keeps_unloadEngine
        exact hk
      clear_value r
      exact h_r

theorem keeps_execImageUnload {s : State} (c : Cmd) (hk : Keeps st0 s) :
    OutKeeps st0 (execImageUnload c s) := by
  unfold execImageUnload
  with_reducible apply keeps_startCmd
  · intro c_1
    intro fid
    intro u
    intro s_1
    intro h
    dsimp -zeta only [imageUnloadDef]
    extract_lets +onlyGivenNames d
    clear_value d
    extract_lets +onlyGivenNames x
    clear_value x
    refine keeps_ite1 (fun _ => ?_) (fun _ => ?_)
    · exact h
    · refine keeps_ite1 (fun _ => ?_) (fun _ => ?_)
      · exact h
      · extract_lets +onlyGivenNames r
        have h_r : Keeps st0 r.1 := by
          unfold r
          with_reducible apply keeps_unloadEngine
          exact h
        clear_value r
        exact h_r
  · exact hk

theorem keeps_bindIns {s : State} (d e : Nat) (ins : List Nat) (hk : Keeps st0 s) :
    Keeps st0 (bindIns s d e ins) := by
  unfold bindIns
  extract_lets +onlyGivenNames x
  clear_value x
  extract_lets +onlyGivenNames s1
  have h_s1 : Keeps st0 s1 := by
    unfold s1
    refine keeps_foldl ?_ ?_
    · intro s_1
      intro x_1
      intro h
      refine keeps_ite (fun _ => ?_) (fun _ => ?_)
      · exact h
      · with_reducible apply keeps_releaseSource
        exact h
    · exact hk
  clear_value s1
  extract_lets +onlyGivenNames s2
  have h_s2 : Keeps st0 s2 := by
    unfold s2
    refine keeps_foldl ?_ ?_
    · intro s_1
      intro x_1
      intro h
      refine keeps_ite (fun _ => ?_) (fun _ => ?_)
      · with_reducible apply keeps_setStream
        exact h
      · exact h
    · exact h_s1
  clear_value s2
  with_reducible apply keeps_setEng
  exact h_s2

theorem keeps_bindOuts {s : State} (d e : Nat) (outs : List Nat) (hk : Keeps st0 s) :
    Keeps st0 (bindOuts s d e outs) := by
  unfold bindOuts
  extract_lets +onlyGivenNames s1
  have h_s1 : Keeps st0 s1 := by
    unfold s1
    refine keeps_foldl ?_ ?_
    · intro s_1
      intro x
      intro h
      refine keeps_ite (fun _ => ?_) (fun _ => ?_)
      · exact h
      · extract_lets +onlyGivenNames s1_1
        have h_s1_1 : Keeps st0 s1_1 := by
          unfold s1_1
          refine keeps_ite (fun _ => ?_) (fun _ => ?_)
          · exact h
          · with_reducible apply keeps_createStream
            exact h
        clear_value s1_1
        extract_lets +onlyGivenNames x_1
        clear_value x_1
        refine keeps_ite (fun _ => ?_) (fun _ => ?_)
        · exact h_s1_1
        · with_reducible apply keeps_setEng
          exact h_s1_1
    · exact hk
  clear_value s1
  with_reducible apply keeps_setEng
  exact h_s1

theorem keeps_engStart {s : State} (d e : Nat) (g : EngSet) (hk : Keeps st0 s) :
    Keeps st0 (engStart s d e g) := by
  unfold engStart
  extract_lets +onlyGivenNames s1
  have h_s1 : Keeps st0 s1 := by
    unfold s1
    with_reducible apply keeps_bindOuts
    with_reducible apply keeps_bindIns
    exact hk
  clear_value s1
  extract_lets +onlyGivenNames x
  clear_value x
  with_reducible apply keeps_setEng
  exact h_s1

theorem keeps_engResume {s : State} (d e : Nat) (g : EngSet) (hk : Keeps st0 s) :
    Keeps st0 (engResume s d e g) := by
  unfold engResume
  extract_lets +onlyGivenNames x
  clear_value x
  extract_lets +onlyGivenNames brk
  clear_value brk
  extract_lets +onlyGivenNames s1
  have h_s1 : Keeps st0 s1 := by
    unfold s1
    with_reducible apply keeps_setEng
    exact hk
  clear_value s1
  refine keeps_ite (fun _ => ?_) (fun _ => ?_)
  · extract_lets +onlyGivenNames p_src1 p
    have h_p : Keeps st0 p.2 := by
      unfold p
      refine keeps_ite2 (fun _ => ?_) (fun _ => ?_)
      · exact h_s1
      · refine keeps_mk2 ?_
        unfold p_src1
        with_reducible apply keeps_drawFree
        exact h_s1
    clear_value p
    with_reducible apply keeps_setEng
    exact h_p
  · exact h_s1

theorem keeps_eff_engineStartDef {s : State} {c : Cmd} {fid u : Nat} (hk : Keeps st0 s) :
    Keeps st0 ((engineStartDef).eff c fid u s).1 := by
  dsimp -zeta only [engineStartDef]
  extract_lets +onlyGivenNames d
  clear_value d
  extract_lets +onlyGivenNames e
  clear_value e
  extract_lets +onlyGivenNames x
  clear_value x
  extract_lets +onlyGivenNames g
  clear_value g
  extract_lets +onlyGivenNames resume
  refine keeps_ite1 (fun _ => ?_) (fun _ => ?_)
  · exact hk
  · refine keeps_ite1 (fun _ => ?_) (fun _ => ?_)
    · exact hk
    · refine keeps_ite1 (fun _ => ?_) (fun _ => ?_)
      · exact hk
      · refine keeps_ite1 (fun _ => ?_) (fun _ => ?_)
        · exact hk
        · split
          · rename_i e_1 e_2 e_3 e_4 x_1 r e_5
            exact hk
          · rename_i e_1 e_2 e_3 e_4 x_1 e_5
            refine keeps_mk1 ?_
            refine keeps_ite (fun _ => ?_) (fun _ => ?_)
            · with_reducible apply keeps_engResume
              exact hk
            · with_reducible apply keeps_engStart
              exact hk

theorem keeps_execEngineStart {s : State} (c : Cmd) (hk : Keeps st0 s) :
    OutKeeps st0 (execEngineStart c s) := by
  unfold execEngineStart
  with_reducible apply keeps_startCmd
  · intro c_1
    intro fid
    intro u
    intro s_1
    intro h
    dsimp -zeta only [engineStartDef]
    extract_lets +onlyGivenNames d
    clear_value d
    extract_lets +onlyGivenNames e
    clear_value e
    extract_lets +onlyGivenNames x
    clear_value x
    extract_lets +onlyGivenNames g
    clear_value g
    extract_lets +onlyGivenNames resume
    refine keeps_ite1 (fun _ => ?_) (fun _ => ?_)
    · exact h
    · refine keeps_ite1 (fun _ => ?_) (fun _ => ?_)
      · exact h
      · refine keeps_ite1 (fun _ => ?_) (fun _ => ?_)
        · exact h
        · refine keeps_ite1 (fun _ => ?_) (fun _ => ?_)
          · exact h
          · split
            · rename_i e_1 e_2 e_3 e_4 x_1 r e_5
              exact h
            · rename_i e_1 e_2 e_3 e_4 x_1 e_5
              refine keeps_mk1 ?_
              refine keeps_ite (fun _ => ?_) (fun _ => ?_)
              · with_reducible apply keeps_engResume
                exact h
              · with_reducible apply keeps_engStart
                exact h
  · exact hk

theorem keeps_eff_engineStopDef {s : State} {c : Cmd} {fid u : Nat} (hk : Keeps st0 s) :
    Keeps st0 ((engineStopDef).eff c fid u s).1 := by
  dsimp -zeta only [engineStopDef]
  extract_lets +onlyGivenNames d
  clear_value d
  extract_lets +onlyGivenNames e
  clear_value e
  extract_lets +onlyGivenNames x
  clear_value x
  refine keeps_ite1 (fun _ => ?_) (fun _ => ?_)
  · exact hk
  · refine keeps_ite1 (fun _ => ?_) (fun _ => ?_)
    · exact hk
    · refine keeps_mk1 ?_
      refine keeps_ite (fun _ => ?_) (fun _ => ?_)
      · with_reducible apply keeps_engStopNow
        exact hk
      · with_reducible apply keeps_engStopPoint
        exact hk

theorem keeps_execEngineStop {s : State} (c : Cmd) (hk : Keeps st0 s) :
    OutKeeps st0 (execEngineStop c s) := by
  unfold execEngineStop
  with_reducible apply keeps_startCmd
  · intro c_1
    intro fid
    intro u
    intro s_1
    intro h
    dsimp -zeta only [engineStopDef]
    extract_lets +onlyGivenNames d
    clear_value d
    extract_lets +onlyGivenNames e
    clear_value e
    extract_lets +onlyGivenNames x
    clear_value x
    refine keeps_ite1 (fun _ => ?_) (fun _ => ?_)
    · exact h
    · refine keeps_ite1 (fun _ => ?_) (fun _ => ?_)
      · exact h
      · refine keeps_mk1 ?_
        refine keeps_ite (fun _ => ?_) (fun _ => ?_)
        · with_reducible apply keeps_engStopNow
          exact h
        · with_reducible apply keeps_engStopPoint
          exact h
  · exact hk

theorem keeps_eff_engineReadStateDef {s : State} {c : Cmd} {fid u : Nat} (hk : Keeps st0 s) :
    Keeps st0 ((engineReadStateDef).eff c fid u s).1 := by
  dsimp -zeta only [engineReadStateDef]
  extract_lets +onlyGivenNames x
  clear_value x
  extract_lets +onlyGivenNames b
  clear_value b
  refine keeps_ite1 (fun _ => ?_) (fun _ => ?_)
  · exact hk
  · refine keeps_mk1 ?_
    refine keeps_ite (fun _ => ?_) (fun _ => ?_)
    · exact hk
    · with_reducible apply keeps_hostWrite
      exact hk

theorem keeps_execEngineReadState {s : State} (c : Cmd) (hk : Keeps st0 s) :
    OutKeeps st0 (execEngineReadState c s) := by
  unfold execEngineReadState
  with_reducible apply keeps_startCmd
  · intro c_1
    intro fid
    intro u
    intro s_1
    intro h
    dsimp -zeta only [engineReadStateDef]
    extract_lets +onlyGivenNames x
    clear_value x
    extract_lets +onlyGivenNames b
    clear_value b
    refine keeps_ite1 (fun _ => ?_) (fun _ => ?_)
    · exact h
    · refine keeps_mk1 ?_
      refine keeps_ite (fun _ => ?_) (fun _ => ?_)
      · exact h
      · with_reducible apply keeps_hostWrite
        exact h
  · exact hk

theorem keeps_h2eBell {s : State} (port d e be : Nat) (w : W32) (hk : Keeps st0 s) :
    Keeps st0 (h2eBell port d e be w s) := by
  unfold h2eBell
  extract_lets +onlyGivenNames x
  clear_value x
  extract_lets +onlyGivenNames n
  clear_value n
  refine keeps_ite (fun _ => ?_) (fun _ => ?_)
  · with_reducible apply keeps_badWrite
    exact hk
  · with_reducible apply keeps_setEng
    exact hk

theorem keeps_execH2eBell {s : State} (port d e v : Nat) (hk : Keeps st0 s) :
    OutKeeps st0 (execH2eBell port d e v s) := by
  unfold execH2eBell
  with_reducible apply keeps_onPort
  · exact hk
  · intro v0
    intro h
    refine keeps_ite (fun _ => ?_) (fun _ => ?_)
    · with_reducible apply keeps_h2eBell
      exact h
    · with_reducible apply keeps_badWrite
      exact h

theorem keeps_e2hAck {s : State} (d e : Nat) (hk : Keeps st0 s) :
    Keeps st0 (e2hAck d e s) := by
  unfold e2hAck
  with_reducible apply keeps_setEng
  exact hk

theorem keeps_execE2hAck {s : State} (port d e : Nat) (hk : Keeps st0 s) :
    OutKeeps st0 (execE2hAck port d e s) := by
  unfold execE2hAck
  with_reducible apply keeps_onPort
  · exact hk
  · intro v0
    intro h
    refine keeps_ite (fun _ => ?_) (fun _ => ?_)
    · with_reducible apply keeps_e2hAck
      exact h
    · with_reducible apply keeps_badWrite
      exact h

theorem keeps_execSwapBegin {s : State} (d e : Nat) (hk : Keeps st0 s) :
    OutKeeps st0 (execSwapBegin d e s) := by
  unfold execSwapBegin
  with_reducible apply keeps_onDie
  · exact hk
  · intro s_1
    intro h
    extract_lets +onlyGivenNames x
    clear_value x
    split
    · rename_i x_1 w e_1
      with_reducible apply keeps_whenB
      · exact h
      · intro s_2
        intro h_1
        extract_lets +onlyGivenNames s1
        have h_s1 : Keeps st0 s1 := by
          unfold s1
          with_reducible apply keeps_cacheFlush
          exact h_1
        clear_value s1
        extract_lets +onlyGivenNames y
        clear_value y
        extract_lets +onlyGivenNames back
        clear_value back
        with_reducible apply keeps_setEng
        exact h_s1
    · rename_i x_1 e_1
      exact h

end Sys2Proof.Machine
end

