-- ==== Sys2Proof/Laws/KeepsService.lean ====
section
/-!
SUPPORT. What keeps the part, the time, the queue and the canonical form of memory (`Keeps`): Machine/Service.
-/

namespace Sys2Proof.Machine

variable {st0 : State}

theorem keeps_svcEngine {s : State} (d : Nat) (r : SvcReq) (e : Nat) (g : EngSet) (hk : Keeps st0 s) :
    Keeps st0 (svcEngine s d r e g) := by
  unfold svcEngine
  extract_lets +onlyGivenNames s1
  have h_s1 : Keeps st0 s1 := by
    unfold s1
    with_reducible apply keeps_placeImage
    exact hk
  clear_value s1
  extract_lets +onlyGivenNames s2
  have h_s2 : Keeps st0 s2 := by
    unfold s2
    with_reducible apply keeps_addMeasure
    exact h_s1
  clear_value s2
  extract_lets +onlyGivenNames s3
  have h_s3 : Keeps st0 s3 := by
    unfold s3
    split
    · rename_i x q e_1
      with_reducible apply keeps_addMeasure
      exact h_s2
    · rename_i x e_1
      exact h_s2
  clear_value s3
  extract_lets +onlyGivenNames x
  clear_value x
  extract_lets +onlyGivenNames s4
  have h_s4 : Keeps st0 s4 := by
    unfold s4
    with_reducible apply keeps_memWrite
    exact h_s3
  clear_value s4
  extract_lets +onlyGivenNames s5
  have h_s5 : Keeps st0 s5 := by
    unfold s5
    with_reducible apply keeps_setEng
    exact h_s4
  clear_value s5
  with_reducible apply keeps_engStart
  exact h_s5

theorem keeps_svcStart {s : State} (d : Nat) (r : SvcReq) (hk : Keeps st0 s) :
    Keeps st0 (svcStart s d r) := by
  unfold svcStart
  extract_lets +onlyGivenNames m
  clear_value m
  extract_lets +onlyGivenNames es
  clear_value es
  extract_lets +onlyGivenNames fixer
  extract_lets +onlyGivenNames k
  clear_value k
  extract_lets +onlyGivenNames keys
  clear_value keys
  extract_lets +onlyGivenNames inputs
  clear_value inputs
  extract_lets +onlyGivenNames s1_src1 s1
  have h_s1 : Keeps st0 s1 := by
    unfold s1
    with_reducible apply keeps_setSvc
    exact hk
  clear_value s1
  extract_lets +onlyGivenNames s2
  have h_s2 : Keeps st0 s2 := by
    unfold s2
    refine keeps_foldl ?_ ?_
    · intro s_1
      intro x
      intro h
      with_reducible apply keeps_freeHeap
      exact h
    · with_reducible apply keeps_svcState
      exact h_s1
  clear_value s2
  extract_lets +onlyGivenNames s3
  have h_s3 : Keeps st0 s3 := by
    unfold s3
    refine keeps_foldl ?_ ?_
    · intro s_1
      intro x
      intro h
      with_reducible apply keeps_svcEngine
      exact h
    · exact h_s2
  clear_value s3
  extract_lets +onlyGivenNames s4
  have h_s4 : Keeps st0 s4 := by
    unfold s4
    refine keeps_ite (fun _ => ?_) (fun _ => ?_)
    · refine keeps_foldl ?_ ?_
      · intro s_1
        intro x_1
        intro h
        with_reducible apply keeps_setStream
        exact h
      · exact h_s3
    · exact h_s3
  clear_value s4
  extract_lets +onlyGivenNames s5
  have h_s5 : Keeps st0 s5 := by
    unfold s5
    refine keeps_foldl ?_ ?_
    · intro s_1
      intro x
      intro h
      refine keeps_ite (fun _ => ?_) (fun _ => ?_)
      · with_reducible apply keeps_setXfer
        exact h
      · exact h
    · exact h_s4
  clear_value s5
  with_reducible apply keeps_svcState
  exact h_s5

theorem keeps_eff_serviceStartDef {s : State} {c : Cmd} {fid u : Nat} (hk : Keeps st0 s) :
    Keeps st0 ((serviceStartDef).eff c fid u s).1 := by
  dsimp -zeta only [serviceStartDef]
  extract_lets +onlyGivenNames d
  clear_value d
  extract_lets +onlyGivenNames k
  clear_value k
  refine keeps_ite1 (fun _ => ?_) (fun _ => ?_)
  · exact hk
  · refine keeps_ite1 (fun _ => ?_) (fun _ => ?_)
    · exact hk
    · refine keeps_ite1 (fun _ => ?_) (fun _ => ?_)
      · exact hk
      · extract_lets +onlyGivenNames r
        clear_value r
        split
        · rename_i e e_1 e_2 x r_1 e_3
          refine keeps_mk1 ?_
          with_reducible apply keeps_rejectImage
          exact hk
        · rename_i e e_1 e_2 x e_3
          split
          · rename_i x_1 q f e_4
            refine keeps_mk1 ?_
            with_reducible apply keeps_rejectImage
            exact hk
          · rename_i x_1 e_4
            split
            · rename_i x_2 r_1 e_5
              exact hk
            · rename_i x_2 e_5
              refine keeps_mk1 ?_
              with_reducible apply keeps_svcStart
              exact hk

theorem keeps_execServiceStart {s : State} (c : Cmd) (hk : Keeps st0 s) :
    OutKeeps st0 (execServiceStart c s) := by
  unfold execServiceStart
  with_reducible apply keeps_startCmd
  · intro c_1
    intro fid
    intro u
    intro s_1
    intro h
    dsimp -zeta only [serviceStartDef]
    extract_lets +onlyGivenNames d
    clear_value d
    extract_lets +onlyGivenNames k
    clear_value k
    refine keeps_ite1 (fun _ => ?_) (fun _ => ?_)
    · exact h
    · refine keeps_ite1 (fun _ => ?_) (fun _ => ?_)
      · exact h
      · refine keeps_ite1 (fun _ => ?_) (fun _ => ?_)
        · exact h
        · extract_lets +onlyGivenNames r
          clear_value r
          split
          · rename_i e e_1 e_2 x r_1 e_3
            refine keeps_mk1 ?_
            with_reducible apply keeps_rejectImage
            exact h
          · rename_i e e_1 e_2 x e_3
            split
            · rename_i x_1 q f e_4
              refine keeps_mk1 ?_
              with_reducible apply keeps_rejectImage
              exact h
            · rename_i x_1 e_4
              split
              · rename_i x_2 r_1 e_5
                exact h
              · rename_i x_2 e_5
                refine keeps_mk1 ?_
                with_reducible apply keeps_svcStart
                exact h
  · exact hk

theorem keeps_svcStopPoint {s : State} (d k : Nat) (hk : Keeps st0 s) :
    Keeps st0 (svcStopPoint s d k) := by
  unfold svcStopPoint
  with_reducible apply keeps_svcCheck
  refine keeps_foldl ?_ ?_
  · intro s_1
    intro x
    intro h
    with_reducible apply keeps_engStopPoint
    exact h
  · exact hk

theorem keeps_svcStop {s : State} (d k fid : Nat) (drain release : Bool) (hk : Keeps st0 s) :
    Keeps st0 (svcStop s d k fid drain release) := by
  unfold svcStop
  extract_lets +onlyGivenNames x
  clear_value x
  extract_lets +onlyGivenNames fresh
  clear_value fresh
  extract_lets +onlyGivenNames targets
  clear_value targets
  extract_lets +onlyGivenNames left
  clear_value left
  extract_lets +onlyGivenNames s1
  have h_s1 : Keeps st0 s1 := by
    unfold s1
    with_reducible apply keeps_svcState
    with_reducible apply keeps_setSvc
    exact hk
  clear_value s1
  refine keeps_ite (fun _ => ?_) (fun _ => ?_)
  · with_reducible apply keeps_svcStopPoint
    exact h_s1
  · with_reducible apply keeps_svcDrain
    exact h_s1

theorem keeps_eff_serviceStopDef {s : State} {c : Cmd} {fid u : Nat} (hk : Keeps st0 s) :
    Keeps st0 ((serviceStopDef).eff c fid u s).1 := by
  dsimp -zeta only [serviceStopDef]
  extract_lets +onlyGivenNames d
  clear_value d
  extract_lets +onlyGivenNames k
  clear_value k
  extract_lets +onlyGivenNames x
  clear_value x
  extract_lets +onlyGivenNames rel
  refine keeps_ite1 (fun _ => ?_) (fun _ => ?_)
  · exact hk
  · refine keeps_ite1 (fun _ => ?_) (fun _ => ?_)
    · refine keeps_ite1 (fun _ => ?_) (fun _ => ?_)
      · exact hk
      · refine keeps_ite1 (fun _ => ?_) (fun _ => ?_)
        · extract_lets +onlyGivenNames r
          have h_r : Keeps st0 r.1 := by
            unfold r
            with_reducible apply keeps_svcRelease
            exact hk
          clear_value r
          exact h_r
        · refine keeps_mk1 ?_
          with_reducible apply keeps_setSvc
          exact hk
    · refine keeps_mk1 ?_
      with_reducible apply keeps_svcStop
      exact hk

theorem keeps_execServiceStop {s : State} (c : Cmd) (hk : Keeps st0 s) :
    OutKeeps st0 (execServiceStop c s) := by
  unfold execServiceStop
  with_reducible apply keeps_startCmd
  · intro c_1
    intro fid
    intro u
    intro s_1
    intro h
    refine keeps_eff_serviceStopDef ?_
    exact h
  · exact hk

theorem keeps_eff_serviceQueryDef {s : State} {c : Cmd} {fid u : Nat} (hk : Keeps st0 s) :
    Keeps st0 ((serviceQueryDef).eff c fid u s).1 := by
  dsimp -zeta only [serviceQueryDef]
  exact hk

theorem keeps_execServiceQuery {s : State} (c : Cmd) (hk : Keeps st0 s) :
    OutKeeps st0 (execServiceQuery c s) := by
  unfold execServiceQuery
  with_reducible apply keeps_startCmd
  · intro c_1
    intro fid
    intro u
    intro s_1
    intro h
    dsimp -zeta only [serviceQueryDef]
    exact h
  · exact hk

end Sys2Proof.Machine
end

