-- ==== Sys2Proof/Laws/KeepsFixer.lean ====
section
/-!
SUPPORT. What keeps the part, the time, the queue and the canonical form of memory (`Keeps`): Machine/Fixer.
-/

namespace Sys2Proof.Machine

variable {st0 : State}

theorem keeps_setDrive {s : State} (d p : Nat) (x : Drive) (hk : Keeps st0 s) :
    Keeps st0 (setDrive s d p x) := by
  unfold setDrive
  refine keeps_upd ?_ ..
  exact hk

theorem keeps_driveError {s : State} (d p kind sct sc warn count lba t : Nat) (hk : Keeps st0 s) :
    Keeps st0 (driveError s d p kind sct sc warn count lba t) := by
  unfold driveError
  with_reducible apply keeps_post
  exact hk

theorem keeps_writeBlock {s : State} (d p lba : Nat) (b : List Byte) (hk : Keeps st0 s) :
    Keeps st0 (writeBlock s d p lba b) := by
  unfold writeBlock
  with_reducible apply keeps_memWrite
  exact hk

theorem keeps_setVol {s : State} (d k : Nat) (v : Volume) (hk : Keeps st0 s) :
    Keeps st0 (setVol s d k v) := by
  unfold setVol
  with_reducible apply keeps_setSvc
  exact hk

theorem keeps_writeRegion {s : State} (d m lba magic : Nat) (v : Volume) (es : List (List Byte)) (from_ upto : Nat) (hk : Keeps st0 s) :
    Keeps st0 (writeRegion s d m lba magic v es from_ upto) := by
  unfold writeRegion
  extract_lets +onlyGivenNames b0
  clear_value b0
  refine keeps_foldl ?_ ?_
  · intro s_1
    intro x
    intro h
    with_reducible apply keeps_writeBlock
    exact h
  · exact hk

theorem keeps_writeMeta {s : State} (d m : Nat) (v : Volume) (whole : Bool) (hk : Keeps st0 s) :
    Keeps st0 (writeMeta s d m v whole).1 := by
  unfold writeMeta
  extract_lets +onlyGivenNames x
  clear_value x
  extract_lets +onlyGivenNames upto
  clear_value upto
  extract_lets +onlyGivenNames lo
  clear_value lo
  extract_lets +onlyGivenNames ix
  clear_value ix
  extract_lets +onlyGivenNames s1
  have h_s1 : Keeps st0 s1 := by
    unfold s1
    refine keeps_ite (fun _ => ?_) (fun _ => ?_)
    · with_reducible apply keeps_writeRegion
      exact hk
    · exact hk
  clear_value s1
  extract_lets +onlyGivenNames s2
  have h_s2 : Keeps st0 s2 := by
    unfold s2
    refine keeps_ite (fun _ => ?_) (fun _ => ?_)
    · with_reducible apply keeps_writeRegion
      exact h_s1
    · exact h_s1
  clear_value s2
  exact h_s2

theorem keeps_askFlush {s : State} (d m : Nat) (v : Volume) (hk : Keeps st0 s) :
    Keeps st0 (askFlush s d m v) := by
  unfold askFlush
  extract_lets +onlyGivenNames g
  clear_value g
  extract_lets +onlyGivenNames x
  clear_value x
  extract_lets +onlyGivenNames op
  clear_value op
  extract_lets +onlyGivenNames waits
  clear_value waits
  extract_lets +onlyGivenNames later
  clear_value later
  with_reducible apply keeps_setDrive
  exact hk

theorem keeps_askFlushAll {s : State} (d : Nat) (v : Volume) (hk : Keeps st0 s) :
    Keeps st0 (askFlushAll s d v) := by
  unfold askFlushAll
  refine keeps_foldl ?_ ?_
  · intro s_1
    intro x
    intro h
    with_reducible apply keeps_askFlush
    exact h
  · exact hk

theorem keeps_fullCheckAt {s : State} (d k t : Nat) (hk : Keeps st0 s) :
    Keeps st0 (fullCheckAt s d k t) := by
  unfold fullCheckAt
  split
  · rename_i x e
    exact hk
  · rename_i x v e
    extract_lets +onlyGivenNames on
    clear_value on
    refine keeps_ite (fun _ => ?_) (fun _ => ?_)
    · exact hk
    · extract_lets +onlyGivenNames cause
      clear_value cause
      extract_lets +onlyGivenNames sum
      clear_value sum
      with_reducible apply keeps_post
      with_reducible apply keeps_setVol
      exact hk

theorem keeps_fullCheck {s : State} (d k : Nat) (hk : Keeps st0 s) :
    Keeps st0 (fullCheck s d k) := by
  unfold fullCheck
  with_reducible apply keeps_fullCheckAt
  exact hk

theorem keeps_volSettle {s : State} (d k : Nat) (hk : Keeps st0 s) :
    Keeps st0 (volSettle s d k) := by
  unfold volSettle
  split
  · rename_i x e
    exact hk
  · rename_i x v e
    refine keeps_ite (fun _ => ?_) (fun _ => ?_)
    · exact hk
    · refine keeps_ite (fun _ => ?_) (fun _ => ?_)
      · with_reducible apply keeps_fullCheck
        with_reducible apply keeps_unitDone
        with_reducible apply keeps_setVol
        exact hk
      · refine keeps_ite (fun _ => ?_) (fun _ => ?_)
        · with_reducible apply keeps_unitDone
          with_reducible apply keeps_setSvc
          exact hk
        · exact hk

theorem keeps_closeCheck {s : State} (d k : Nat) (hk : Keeps st0 s) :
    Keeps st0 (closeCheck s d k) := by
  unfold closeCheck
  split
  · rename_i x e
    exact hk
  · rename_i x v e
    refine keeps_ite (fun _ => ?_) (fun _ => ?_)
    · exact hk
    · extract_lets +onlyGivenNames v1
      clear_value v1
      extract_lets +onlyGivenNames a
      have h_a : Keeps st0 a.1 := by
        unfold a
        refine keeps_foldl1 ?_ ?_
        · intro p
          intro x_1
          intro h
          with_reducible apply keeps_writeMeta
          exact h
        · exact hk
      clear_value a
      extract_lets +onlyGivenNames s2
      have h_s2 : Keeps st0 s2 := by
        unfold s2
        refine keeps_foldl ?_ ?_
        · intro s_1
          intro x_1
          intro h
          extract_lets +onlyGivenNames s1
          have h_s1 : Keeps st0 s1 := by
            unfold s1
            with_reducible apply keeps_askFlush
            exact h
          clear_value s1
          extract_lets +onlyGivenNames g
          clear_value g
          with_reducible apply keeps_setDrive
          exact h_s1
        · exact h_a
      clear_value s2
      with_reducible apply keeps_volSettle
      with_reducible apply keeps_setVol
      exact h_s2

theorem keeps_failMember {s : State} (d k m kind sct sc lba t : Nat) (hk : Keeps st0 s) :
    Keeps st0 (failMember s d k m kind sct sc lba t) := by
  unfold failMember
  split
  · rename_i x e
    exact hk
  · rename_i x v e
    extract_lets +onlyGivenNames x_1
    clear_value x_1
    extract_lets +onlyGivenNames lost
    clear_value lost
    extract_lets +onlyGivenNames kept
    clear_value kept
    extract_lets +onlyGivenNames v1
    clear_value v1
    extract_lets +onlyGivenNames s1_src1 s1
    have h_s1 : Keeps st0 s1 := by
      unfold s1
      with_reducible apply keeps_setDrive
      exact hk
    clear_value s1
    extract_lets +onlyGivenNames count
    clear_value count
    extract_lets +onlyGivenNames s2
    have h_s2 : Keeps st0 s2 := by
      unfold s2
      with_reducible apply keeps_askFlushAll
      with_reducible apply keeps_driveError
      exact h_s1
    clear_value s2
    with_reducible apply keeps_volSettle
    with_reducible apply keeps_closeCheck
    with_reducible apply keeps_fullCheckAt
    with_reducible apply keeps_setVol
    exact h_s2

theorem keeps_execDriveIdentifyDone {s : State} (d p : Nat) (info : DriveInfo) (hk : Keeps st0 s) :
    OutKeeps st0 (execDriveIdentifyDone d p info s) := by
  unfold execDriveIdentifyDone
  with_reducible apply keeps_onDie
  · exact hk
  · intro s_1
    intro h
    with_reducible apply keeps_whenB
    · exact h
    · intro s_2
      intro h_1
      extract_lets +onlyGivenNames suits
      clear_value suits
      extract_lets +onlyGivenNames s1
      have h_s1 : Keeps st0 s1 := by
        unfold s1
        with_reducible apply keeps_attachPartner
        with_reducible apply keeps_setDrive
        exact h_1
      clear_value s1
      refine keeps_ite (fun _ => ?_) (fun _ => ?_)
      · exact h_s1
      · with_reducible apply keeps_driveError
        exact h_s1

theorem keeps_driveGone {s : State} (d p reason : Nat) (hk : Keeps st0 s) :
    Keeps st0 (driveGone s d p reason) := by
  unfold driveGone
  refine keeps_ite (fun _ => ?_) (fun _ => ?_)
  · exact hk
  · extract_lets +onlyGivenNames s1
    have h_s1 : Keeps st0 s1 := by
      unfold s1
      with_reducible apply keeps_detachPartner
      with_reducible apply keeps_setDrive
      exact hk
    clear_value s1
    split
    · rename_i e x q e_1
      with_reducible apply keeps_failMember
      exact h_s1
    · rename_i e x e_1
      exact h_s1

theorem keeps_execDriveLinkDown {s : State} (d p : Nat) (hk : Keeps st0 s) :
    OutKeeps st0 (execDriveLinkDown d p s) := by
  unfold execDriveLinkDown
  with_reducible apply keeps_onDie
  · exact hk
  · intro s_1
    intro h
    with_reducible apply keeps_whenB
    · exact h
    · intro s_2
      intro h_1
      with_reducible apply keeps_driveGone
      exact h_1

theorem keeps_execSmartPoll {s : State} (d p warn : Nat) (hk : Keeps st0 s) :
    OutKeeps st0 (execSmartPoll d p warn s) := by
  unfold execSmartPoll
  with_reducible apply keeps_onDie
  · exact hk
  · intro s_1
    intro h
    extract_lets +onlyGivenNames g
    clear_value g
    with_reducible apply keeps_whenB
    · exact h
    · intro s_2
      intro h_1
      extract_lets +onlyGivenNames s1
      have h_s1 : Keeps st0 s1 := by
        unfold s1
        with_reducible apply keeps_setDrive
        exact h_1
      clear_value s1
      refine keeps_ite (fun _ => ?_) (fun _ => ?_)
      · exact h_s1
      · with_reducible apply keeps_driveError
        exact h_s1

theorem keeps_driveOpDone {s : State} (d p k : Nat) (op : DrvOp) (hk : Keeps st0 s) :
    Keeps st0 (driveOpDone s d p k op) := by
  unfold driveOpDone
  split
  · rename_i x op v used log index e
    extract_lets +onlyGivenNames x_1_src1 x_1
    clear_value x_1
    extract_lets +onlyGivenNames v1
    clear_value v1
    extract_lets +onlyGivenNames put
    have h_put : ∀ v0 v1, Keeps st0 v0 → Keeps st0 (put v0 v1) := by
      unfold put
      intro v0
      intro v1_1
      intro h
      with_reducible apply keeps_writeBlock
      exact h
    clear_value put
    refine keeps_ite (fun _ => ?_) (fun _ => ?_)
    · with_reducible apply keeps_setVol
      refine h_put _ _ ?_
      refine h_put _ _ ?_
      exact hk
    · with_reducible apply keeps_setVol
      refine h_put _ _ ?_
      exact hk
  · rename_i op x op_1 e
    exact hk

theorem keeps_execNvmeCommandComplete {s : State} (d p : Nat) (what : NvmeWhat) (ok : Bool) (hk : Keeps st0 s) :
    OutKeeps st0 (execNvmeCommandComplete d p what ok s) := by
  unfold execNvmeCommandComplete
  with_reducible apply keeps_onDie
  · exact hk
  · intro s_1
    intro h
    extract_lets +onlyGivenNames g
    clear_value g
    split
    · rename_i x x_1 op r k e e_1
      with_reducible apply keeps_whenB
      · exact h
      · intro s_2
        intro h_1
        with_reducible apply keeps_volSettle
        with_reducible apply keeps_driveOpDone
        with_reducible apply keeps_setDrive
        exact h_1
    · rename_i x x_1 e
      exact h

theorem keeps_stageEnvs {s : State} (d k sid : Nat) (es : List Env) (hk : Keeps st0 s) :
    Keeps st0 (stageEnvs s d k sid es) := by
  unfold stageEnvs
  refine keeps_ite (fun _ => ?_) (fun _ => ?_)
  · exact hk
  · extract_lets +onlyGivenNames h
    clear_value h
    extract_lets +onlyGivenNames v
    have h_v : Keeps st0 v.2 := by
      unfold v
      with_reducible apply keeps_drawFree
      exact hk
    clear_value v
    with_reducible apply keeps_memWrite
    exact h_v

theorem keeps_issueWrite {s : State} (d k m unit : Nat) (v : Volume) (f : FixStream) (rw fresh : Bool) (es : List Env) (hk : Keeps st0 s) :
    Keeps st0 (issueWrite s d k m unit v f rw fresh es) := by
  unfold issueWrite
  split
  · rename_i es
    exact hk
  · rename_i es e0 tail
    extract_lets +onlyGivenNames n
    clear_value n
    extract_lets +onlyGivenNames x
    clear_value x
    extract_lets +onlyGivenNames old
    clear_value old
    extract_lets +onlyGivenNames w
    clear_value w
    extract_lets +onlyGivenNames f1
    clear_value f1
    extract_lets +onlyGivenNames v1
    clear_value v1
    with_reducible apply keeps_setVol
    with_reducible apply keeps_stageEnvs
    exact hk

theorem keeps_execFixerWriteIssue {s : State} (d slot sid n : Nat) (hk : Keeps st0 s) :
    OutKeeps st0 (execFixerWriteIssue d slot sid n s) := by
  unfold execFixerWriteIssue
  with_reducible apply keeps_onDie
  · exact hk
  · intro s_1
    intro h
    split
    · rename_i x e
      exact h
    · rename_i x v e
      split
      · rename_i x_1 e_1
        exact h
      · rename_i x_1 f e_1
        extract_lets +onlyGivenNames nx
        clear_value nx
        extract_lets +onlyGivenNames goes
        clear_value goes
        extract_lets +onlyGivenNames m
        clear_value m
        split
        · rename_i m
          exact h
        · rename_i m m_1
          extract_lets +onlyGivenNames unit
          clear_value unit
          with_reducible apply keeps_whenB
          · exact h
          · intro s_2
            intro h_1
            with_reducible apply keeps_fullCheck
            with_reducible apply keeps_issueWrite
            exact h_1

theorem keeps_deliverDone {s : State} (f : FixStream) (hk : Keeps st0 s) :
    Keeps st0 (deliverDone s f).1 := by
  unfold deliverDone
  extract_lets +onlyGivenNames ready
  clear_value ready
  extract_lets +onlyGivenNames s1
  have h_s1 : Keeps st0 s1 := by
    unfold s1
    refine keeps_ite (fun _ => ?_) (fun _ => ?_)
    · exact hk
    · with_reducible apply keeps_deliverEnvs
      exact hk
  clear_value s1
  exact h_s1

theorem keeps_writeLanded {s : State} (d k : Nat) (v : Volume) (w : NvWrite) (hk : Keeps st0 s) :
    Keeps st0 (writeLanded s d k v w) := by
  unfold writeLanded
  extract_lets +onlyGivenNames s1
  have h_s1 : Keeps st0 s1 := by
    unfold s1
    with_reducible apply keeps_memWrite
    exact hk
  clear_value s1
  extract_lets +onlyGivenNames x
  clear_value x
  extract_lets +onlyGivenNames n
  clear_value n
  extract_lets +onlyGivenNames new
  clear_value new
  extract_lets +onlyGivenNames es
  clear_value es
  extract_lets +onlyGivenNames room
  clear_value room
  extract_lets +onlyGivenNames x1
  clear_value x1
  extract_lets +onlyGivenNames v1
  clear_value v1
  extract_lets +onlyGivenNames r
  have h_r : Keeps st0 r.1 := by
    unfold r
    split
    · rename_i x_1 f e
      extract_lets +onlyGivenNames q_src1 q
      have h_q : Keeps st0 q.1 := by
        unfold q
        with_reducible apply keeps_deliverDone
        exact h_s1
      clear_value q
      exact h_q
    · rename_i x_1 e
      exact h_s1
  clear_value r
  extract_lets +onlyGivenNames a
  have h_a : Keeps st0 a.1 := by
    unfold a
    with_reducible apply keeps_writeMeta
    exact h_r
  clear_value a
  with_reducible apply keeps_closeCheck
  with_reducible apply keeps_fullCheck
  with_reducible apply keeps_svcDrain
  with_reducible apply keeps_setVol
  exact h_a

theorem keeps_execNvmeWriteComplete {s : State} (d slot id sct sc : Nat) (dnr : Bool) (hk : Keeps st0 s) :
    OutKeeps st0 (execNvmeWriteComplete d slot id sct sc dnr s) := by
  unfold execNvmeWriteComplete
  with_reducible apply keeps_onDie
  · exact hk
  · intro s_1
    intro h
    split
    · rename_i x e
      exact h
    · rename_i x v e
      split
      · rename_i x_1 e_1
        exact h
      · rename_i x_1 w e_1
        refine keeps_ite (fun _ => ?_) (fun _ => ?_)
        · with_reducible apply keeps_writeLanded
          exact h
        · refine keeps_ite (fun _ => ?_) (fun _ => ?_)
          · with_reducible apply keeps_failMember
            exact h
          · with_reducible apply keeps_setVol
            exact h

theorem keeps_execNvmeWriteTimeout {s : State} (d slot id : Nat) (hk : Keeps st0 s) :
    OutKeeps st0 (execNvmeWriteTimeout d slot id s) := by
  unfold execNvmeWriteTimeout
  with_reducible apply keeps_onDie
  · exact hk
  · intro s_1
    intro h
    split
    · rename_i x e
      exact h
    · rename_i x v e
      split
      · rename_i x_1 e_1
        exact h
      · rename_i x_1 w e_1
        with_reducible apply keeps_whenB
        · exact h
        · intro s_2
          intro h_1
          with_reducible apply keeps_failMember
          exact h_1

theorem keeps_execFixerFlushTimeout {s : State} (d slot : Nat) (hk : Keeps st0 s) :
    OutKeeps st0 (execFixerFlushTimeout d slot s) := by
  unfold execFixerFlushTimeout
  with_reducible apply keeps_onDie
  · exact hk
  · intro s_1
    intro h
    split
    · rename_i x e
      exact h
    · rename_i x v e
      extract_lets +onlyGivenNames dt
      clear_value dt
      with_reducible apply keeps_whenB
      · exact h
      · intro s_2
        intro h_1
        extract_lets +onlyGivenNames v1
        clear_value v1
        extract_lets +onlyGivenNames a
        have h_a : Keeps st0 a.1 := by
          unfold a
          refine keeps_foldl1 ?_ ?_
          · intro p
            intro x_1
            intro h_2
            with_reducible apply keeps_writeMeta
            exact h_2
          · exact h_1
        clear_value a
        with_reducible apply keeps_fullCheck
        with_reducible apply keeps_setVol
        exact h_a

theorem keeps_execSuperblockInterval {s : State} (d slot : Nat) (hk : Keeps st0 s) :
    OutKeeps st0 (execSuperblockInterval d slot s) := by
  unfold execSuperblockInterval
  with_reducible apply keeps_onDie
  · exact hk
  · intro s_1
    intro h
    split
    · rename_i x e
      exact h
    · rename_i x v e
      with_reducible apply keeps_whenB
      · exact h
      · intro s_2
        intro h_1
        with_reducible apply keeps_setVol
        with_reducible apply keeps_askFlushAll
        exact h_1

theorem keeps_eff_volumeCreateDef {s : State} {c : Cmd} {fid u : Nat} (hk : Keeps st0 s) :
    Keeps st0 ((volumeCreateDef).eff c fid u s).1 := by
  dsimp -zeta only [volumeCreateDef]
  extract_lets +onlyGivenNames d
  clear_value d
  extract_lets +onlyGivenNames k
  clear_value k
  extract_lets +onlyGivenNames x
  clear_value x
  extract_lets +onlyGivenNames ms
  clear_value ms
  extract_lets +onlyGivenNames p
  clear_value p
  extract_lets +onlyGivenNames force
  clear_value force
  refine keeps_ite1 (fun _ => ?_) (fun _ => ?_)
  · exact hk
  · refine keeps_ite1 (fun _ => ?_) (fun _ => ?_)
    · exact hk
    · refine keeps_ite1 (fun _ => ?_) (fun _ => ?_)
      · exact hk
      · refine keeps_ite1 (fun _ => ?_) (fun _ => ?_)
        · exact hk
        · extract_lets +onlyGivenNames v
          clear_value v
          extract_lets +onlyGivenNames ops
          clear_value ops
          extract_lets +onlyGivenNames s1
          have h_s1 : Keeps st0 s1 := by
            unfold s1
            refine keeps_foldl ?_ ?_
            · intro s_1
              intro x_1
              intro h
              with_reducible apply keeps_setDrive
              exact h
            · exact hk
          clear_value s1
          refine keeps_mk1 ?_
          with_reducible apply keeps_setVol
          exact h_s1

theorem keeps_execVolumeCreate {s : State} (c : Cmd) (hk : Keeps st0 s) :
    OutKeeps st0 (execVolumeCreate c s) := by
  unfold execVolumeCreate
  with_reducible apply keeps_startCmd
  · intro c_1
    intro fid
    intro u
    intro s_1
    intro h
    dsimp -zeta only [volumeCreateDef]
    extract_lets +onlyGivenNames d
    clear_value d
    extract_lets +onlyGivenNames k
    clear_value k
    extract_lets +onlyGivenNames x
    clear_value x
    extract_lets +onlyGivenNames ms
    clear_value ms
    extract_lets +onlyGivenNames p
    clear_value p
    extract_lets +onlyGivenNames force
    clear_value force
    refine keeps_ite1 (fun _ => ?_) (fun _ => ?_)
    · exact h
    · refine keeps_ite1 (fun _ => ?_) (fun _ => ?_)
      · exact h
      · refine keeps_ite1 (fun _ => ?_) (fun _ => ?_)
        · exact h
        · refine keeps_ite1 (fun _ => ?_) (fun _ => ?_)
          · exact h
          · extract_lets +onlyGivenNames v
            clear_value v
            extract_lets +onlyGivenNames ops
            clear_value ops
            extract_lets +onlyGivenNames s1
            have h_s1 : Keeps st0 s1 := by
              unfold s1
              refine keeps_foldl ?_ ?_
              · intro s_2
                intro x_1
                intro h_1
                with_reducible apply keeps_setDrive
                exact h_1
              · exact h
            clear_value s1
            refine keeps_mk1 ?_
            with_reducible apply keeps_setVol
            exact h_s1
  · exact hk

theorem keeps_eff_volumeCloseDef {s : State} {c : Cmd} {fid u : Nat} (hk : Keeps st0 s) :
    Keeps st0 ((volumeCloseDef).eff c fid u s).1 := by
  dsimp -zeta only [volumeCloseDef]
  extract_lets +onlyGivenNames d
  clear_value d
  extract_lets +onlyGivenNames k
  clear_value k
  split
  · rename_i x e
    exact hk
  · rename_i x v e
    refine keeps_ite1 (fun _ => ?_) (fun _ => ?_)
    · exact hk
    · extract_lets +onlyGivenNames v1
      clear_value v1
      refine keeps_mk1 ?_
      with_reducible apply keeps_closeCheck
      with_reducible apply keeps_setVol
      exact hk

theorem keeps_volumeCut {s : State} (d id : Nat) (hk : Keeps st0 s) :
    Keeps st0 (volumeCut s d id) := by
  unfold volumeCut
  refine keeps_foldl ?_ ?_
  · intro s_1
    intro x
    intro h
    split
    · rename_i x_1 e
      exact h
    · rename_i x_1 v e
      extract_lets +onlyGivenNames quiet
      have h_quiet : ∀ v0, Keeps st0 v0 → Keeps st0 (quiet v0) := by
        unfold quiet
        intro v0
        intro h_1
        refine keeps_foldl ?_ ?_
        · intro s_2
          intro x_2
          intro h_2
          with_reducible apply keeps_setDrive
          exact h_2
        · exact h_1
      clear_value quiet
      refine keeps_ite (fun _ => ?_) (fun _ => ?_)
      · exact h
      · refine keeps_ite (fun _ => ?_) (fun _ => ?_)
        · with_reducible apply keeps_setSvc
          refine h_quiet _ ?_
          exact h
        · refine keeps_ite (fun _ => ?_) (fun _ => ?_)
          · extract_lets +onlyGivenNames v1
            clear_value v1
            extract_lets +onlyGivenNames full
            clear_value full
            refine keeps_ite (fun _ => ?_) (fun _ => ?_)
            · with_reducible apply keeps_setVol
              refine h_quiet _ ?_
              exact h
            · with_reducible apply keeps_setVol
              exact h
          · exact h
  · exact hk

theorem keeps_execVolumeClose {s : State} (c : Cmd) (hk : Keeps st0 s) :
    OutKeeps st0 (execVolumeClose c s) := by
  unfold execVolumeClose
  with_reducible apply keeps_startCmd
  · intro c_1
    intro fid
    intro u
    intro s_1
    intro h
    dsimp -zeta only [volumeCloseDef]
    extract_lets +onlyGivenNames d
    clear_value d
    extract_lets +onlyGivenNames k
    clear_value k
    split
    · rename_i x e
      exact h
    · rename_i x v e
      refine keeps_ite1 (fun _ => ?_) (fun _ => ?_)
      · exact h
      · extract_lets +onlyGivenNames v1
        clear_value v1
        refine keeps_mk1 ?_
        with_reducible apply keeps_closeCheck
        with_reducible apply keeps_setVol
        exact h
  · exact hk

end Sys2Proof.Machine
end

