-- ==== Sys2Proof/Laws/KeepsProbe.lean ====
section
/-!
SUPPORT. What keeps the part, the time, the queue and the canonical form of memory (`Keeps`): Machine/Probe.
-/

namespace Sys2Proof.Machine

variable {st0 : State}

theorem keeps_setProbe {s : State} (d p : Nat) (x : Probe) (hk : Keeps st0 s) :
    Keeps st0 (setProbe s d p x) := by
  unfold setProbe
  refine keeps_upd ?_ ..
  exact hk

theorem keeps_setPwm {s : State} (d p : Nat) (x : Pwm) (hk : Keeps st0 s) :
    Keeps st0 (setPwm s d p x) := by
  unfold setPwm
  refine keeps_upd ?_ ..
  exact hk

theorem keeps_setBias {s : State} (d p : Nat) (x : Bias) (hk : Keeps st0 s) :
    Keeps st0 (setBias s d p x) := by
  unfold setBias
  refine keeps_upd ?_ ..
  exact hk

theorem keeps_setHka {s : State} (d : Nat) (x : Hka) (hk : Keeps st0 s) :
    Keeps st0 (setHka s d x) := by
  unfold setHka
  refine keeps_upd ?_ ..
  exact hk

theorem keeps_onProbe {s : State} (d p : Nat) (f : State → State) (hk : Keeps st0 s)
    (h_f : ∀ v0, Keeps st0 v0 → Keeps st0 (f v0)) :
    OutKeeps st0 (onProbe d p s f) := by
  unfold onProbe
  with_reducible apply keeps_onDie
  · exact hk
  · intro s_1
    intro h
    with_reducible apply keeps_whenB
    · exact h
    · intro s_2
      intro h_1
      refine h_f _ ?_
      exact h_1

theorem keeps_biasReplace {s : State} (d p : Nat) (hk : Keeps st0 s) :
    Keeps st0 (biasReplace s d p) := by
  unfold biasReplace
  extract_lets +onlyGivenNames b
  clear_value b
  with_reducible apply keeps_unitsDone
  with_reducible apply keeps_setBias
  exact hk

theorem keeps_rangeDone {s : State} (d p cause : Nat) (hk : Keeps st0 s) :
    Keeps st0 (rangeDone s d p cause) := by
  unfold rangeDone
  extract_lets +onlyGivenNames b
  clear_value b
  extract_lets +onlyGivenNames s1
  have h_s1 : Keeps st0 s1 := by
    unfold s1
    with_reducible apply keeps_post
    exact hk
  clear_value s1
  with_reducible apply keeps_unitDone
  exact h_s1

theorem keeps_biasReport {s : State} (d p kind : Nat) (on : Bool) (hk : Keeps st0 s) :
    Keeps st0 (biasReport s d p kind on) := by
  unfold biasReport
  extract_lets +onlyGivenNames b
  clear_value b
  with_reducible apply keeps_post
  exact hk

theorem keeps_condsEnd {s : State} (d p : Nat) (hk : Keeps st0 s) :
    Keeps st0 (condsEnd s d p) := by
  unfold condsEnd
  extract_lets +onlyGivenNames b
  clear_value b
  extract_lets +onlyGivenNames l
  clear_value l
  extract_lets +onlyGivenNames k
  clear_value k
  extract_lets +onlyGivenNames s1
  have h_s1 : Keeps st0 s1 := by
    unfold s1
    with_reducible apply keeps_setBias
    exact hk
  clear_value s1
  extract_lets +onlyGivenNames s2
  have h_s2 : Keeps st0 s2 := by
    unfold s2
    refine keeps_ite (fun _ => ?_) (fun _ => ?_)
    · with_reducible apply keeps_biasReport
      exact h_s1
    · exact h_s1
  clear_value s2
  refine keeps_ite (fun _ => ?_) (fun _ => ?_)
  · with_reducible apply keeps_biasReport
    exact h_s2
  · exact h_s2

theorem keeps_biasHighZ {s : State} (d p : Nat) (hk : Keeps st0 s) :
    Keeps st0 (biasHighZ s d p) := by
  unfold biasHighZ
  extract_lets +onlyGivenNames b
  clear_value b
  extract_lets +onlyGivenNames chg
  clear_value chg
  extract_lets +onlyGivenNames s1
  have h_s1 : Keeps st0 s1 := by
    unfold s1
    refine keeps_ite (fun _ => ?_) (fun _ => ?_)
    · with_reducible apply keeps_setF
      exact hk
    · exact hk
  clear_value s1
  extract_lets +onlyGivenNames s2
  have h_s2 : Keeps st0 s2 := by
    unfold s2
    with_reducible apply keeps_condsEnd
    with_reducible apply keeps_setBias
    exact h_s1
  clear_value s2
  refine keeps_ite (fun _ => ?_) (fun _ => ?_)
  · with_reducible apply keeps_rangeDone
    exact h_s2
  · exact h_s2

theorem keeps_biasArrive {s : State} (d p : Nat) (hk : Keeps st0 s) :
    Keeps st0 (biasArrive s d p) := by
  unfold biasArrive
  extract_lets +onlyGivenNames b
  clear_value b
  refine keeps_ite (fun _ => ?_) (fun _ => ?_)
  · exact hk
  · split
    · rename_i e x e_1
      refine keeps_ite (fun _ => ?_) (fun _ => ?_)
      · with_reducible apply keeps_biasHighZ
        exact hk
      · with_reducible apply keeps_condsEnd
        with_reducible apply keeps_setBias
        exact hk
    · rename_i e x e_1
      with_reducible apply keeps_biasHighZ
      exact hk
    · rename_i e x e_1
      with_reducible apply keeps_biasReplace
      with_reducible apply keeps_rangeDone
      with_reducible apply keeps_setBias
      exact hk
    · rename_i e x e_1
      with_reducible apply keeps_biasReplace
      exact hk
    · rename_i e x e_1
      exact hk

theorem keeps_biasRetarget {s : State} (d p : Nat) (b : Bias) (hk : Keeps st0 s) :
    Keeps st0 (biasRetarget s d p b) := by
  unfold biasRetarget
  extract_lets +onlyGivenNames still
  with_reducible apply keeps_biasArrive
  with_reducible apply keeps_setBias
  exact hk

theorem keeps_biasUpdate {s0 : State} (d p code : Nat) (hk : Keeps st0 s0) :
    Keeps st0 (biasUpdate s0 d p code) := by
  unfold biasUpdate
  extract_lets +onlyGivenNames s
  have h_s : Keeps st0 s := by
    unfold s
    with_reducible apply keeps_biasReplace
    exact hk
  clear_value s
  extract_lets +onlyGivenNames b
  clear_value b
  split
  · rename_i x e
    refine keeps_ite (fun _ => ?_) (fun _ => ?_)
    · with_reducible apply keeps_biasRetarget
      exact h_s
    · refine keeps_ite (fun _ => ?_) (fun _ => ?_)
      · with_reducible apply keeps_biasArrive
        with_reducible apply keeps_setBias
        exact h_s
      · with_reducible apply keeps_setBias
        exact h_s
  · rename_i x e
    with_reducible apply keeps_biasRetarget
    exact h_s
  · rename_i x e e_1
    with_reducible apply keeps_setBias
    exact h_s

theorem keeps_biasOff {s : State} (d p : Nat) (hk : Keeps st0 s) :
    Keeps st0 (biasOff s d p) := by
  unfold biasOff
  extract_lets +onlyGivenNames b
  clear_value b
  split
  · rename_i x e
    refine keeps_ite (fun _ => ?_) (fun _ => ?_)
    · with_reducible apply keeps_biasRetarget
      exact hk
    · exact hk
  · rename_i x e
    with_reducible apply keeps_setBias
    exact hk
  · rename_i x e
    with_reducible apply keeps_biasHighZ
    exact hk
  · rename_i x e
    with_reducible apply keeps_biasRetarget
    exact hk
  · rename_i x e
    exact hk

theorem keeps_execBiasSlewStep {s : State} (d p : Nat) (hk : Keeps st0 s) :
    OutKeeps st0 (execBiasSlewStep d p s) := by
  unfold execBiasSlewStep
  with_reducible apply keeps_onProbe
  · exact hk
  · intro v0
    intro h
    extract_lets +onlyGivenNames b
    clear_value b
    extract_lets +onlyGivenNames goal
    clear_value goal
    extract_lets +onlyGivenNames due
    clear_value due
    with_reducible apply keeps_whenB
    · exact h
    · intro s_1
      intro h_1
      extract_lets +onlyGivenNames step
      clear_value step
      extract_lets +onlyGivenNames code
      clear_value code
      with_reducible apply keeps_biasArrive
      with_reducible apply keeps_setBias
      exact h_1

theorem keeps_execDeglitchHoldEnd {s : State} (d p : Nat) (hk : Keeps st0 s) :
    OutKeeps st0 (execDeglitchHoldEnd d p s) := by
  unfold execDeglitchHoldEnd
  with_reducible apply keeps_onProbe
  · exact hk
  · intro v0
    intro h
    extract_lets +onlyGivenNames b
    clear_value b
    split
    · rename_i x t e
      with_reducible apply keeps_whenB
      · exact h
      · intro s_1
        intro h_1
        with_reducible apply keeps_biasArrive
        with_reducible apply keeps_setBias
        exact h_1
    · rename_i x e
      exact h

theorem keeps_execBiasRangeHighzEnd {s : State} (d p : Nat) (hk : Keeps st0 s) :
    OutKeeps st0 (execBiasRangeHighzEnd d p s) := by
  unfold execBiasRangeHighzEnd
  with_reducible apply keeps_onProbe
  · exact hk
  · intro v0
    intro h
    extract_lets +onlyGivenNames b
    clear_value b
    with_reducible apply keeps_whenB
    · exact h
    · intro s_1
      intro h_1
      with_reducible apply keeps_biasArrive
      with_reducible apply keeps_setBias
      with_reducible apply keeps_setF
      exact h_1

theorem keeps_execBiasLimitChange {s : State} (d p : Nat) (on : Bool) (hk : Keeps st0 s) :
    OutKeeps st0 (execBiasLimitChange d p on s) := by
  unfold execBiasLimitChange
  with_reducible apply keeps_onProbe
  · exact hk
  · intro v0
    intro h
    extract_lets +onlyGivenNames b
    clear_value b
    with_reducible apply keeps_whenB
    · exact h
    · intro s_1
      intro h_1
      extract_lets +onlyGivenNames r
      clear_value r
      extract_lets +onlyGivenNames s1
      have h_s1 : Keeps st0 s1 := by
        unfold s1
        with_reducible apply keeps_setBias
        exact h_1
      clear_value s1
      extract_lets +onlyGivenNames s2
      have h_s2 : Keeps st0 s2 := by
        unfold s2
        refine keeps_ite (fun _ => ?_) (fun _ => ?_)
        · with_reducible apply keeps_setFlag
          exact h_s1
        · exact h_s1
      clear_value s2
      refine keeps_ite (fun _ => ?_) (fun _ => ?_)
      · with_reducible apply keeps_biasReport
        exact h_s2
      · exact h_s2

theorem keeps_execBiasComplianceChange {s : State} (d p : Nat) (on : Bool) (hk : Keeps st0 s) :
    OutKeeps st0 (execBiasComplianceChange d p on s) := by
  unfold execBiasComplianceChange
  with_reducible apply keeps_onProbe
  · exact hk
  · intro v0
    intro h
    extract_lets +onlyGivenNames b
    clear_value b
    with_reducible apply keeps_whenB
    · exact h
    · intro s_1
      intro h_1
      extract_lets +onlyGivenNames r
      clear_value r
      extract_lets +onlyGivenNames s1
      have h_s1 : Keeps st0 s1 := by
        unfold s1
        with_reducible apply keeps_setBias
        exact h_1
      clear_value s1
      extract_lets +onlyGivenNames s2
      have h_s2 : Keeps st0 s2 := by
        unfold s2
        refine keeps_ite (fun _ => ?_) (fun _ => ?_)
        · with_reducible apply keeps_setFlag
          exact h_s1
        · exact h_s1
      clear_value s2
      refine keeps_ite (fun _ => ?_) (fun _ => ?_)
      · with_reducible apply keeps_biasReport
        exact h_s2
      · exact h_s2

theorem keeps_execBiasReportHoldoffEnd {s : State} (d p : Nat) (hk : Keeps st0 s) :
    OutKeeps st0 (execBiasReportHoldoffEnd d p s) := by
  unfold execBiasReportHoldoffEnd
  with_reducible apply keeps_onProbe
  · exact hk
  · intro v0
    intro h
    extract_lets +onlyGivenNames b
    clear_value b
    extract_lets +onlyGivenNames k
    clear_value k
    extract_lets +onlyGivenNames l
    clear_value l
    extract_lets +onlyGivenNames s1
    have h_s1 : Keeps st0 s1 := by
      unfold s1
      with_reducible apply keeps_setBias
      exact h
    clear_value s1
    extract_lets +onlyGivenNames s2
    have h_s2 : Keeps st0 s2 := by
      unfold s2
      refine keeps_ite (fun _ => ?_) (fun _ => ?_)
      · with_reducible apply keeps_biasReport
        exact h_s1
      · exact h_s1
    clear_value s2
    refine keeps_ite (fun _ => ?_) (fun _ => ?_)
    · with_reducible apply keeps_biasReport
      exact h_s2
    · exact h_s2

theorem keeps_execBiasLimitTrip {s : State} (d p : Nat) (hk : Keeps st0 s) :
    OutKeeps st0 (execBiasLimitTrip d p s) := by
  unfold execBiasLimitTrip
  with_reducible apply keeps_onProbe
  · exact hk
  · intro v0
    intro h
    extract_lets +onlyGivenNames b
    clear_value b
    extract_lets +onlyGivenNames ms
    clear_value ms
    with_reducible apply keeps_whenB
    · exact h
    · intro s_1
      intro h_1
      extract_lets +onlyGivenNames s1
      have h_s1 : Keeps st0 s1 := by
        unfold s1
        with_reducible apply keeps_biasReport
        exact h_1
      clear_value s1
      extract_lets +onlyGivenNames s2
      have h_s2 : Keeps st0 s2 := by
        unfold s2
        with_reducible apply keeps_biasHighZ
        exact h_s1
      clear_value s2
      with_reducible apply keeps_setBias
      exact h_s2

theorem keeps_biasCtlWrite {s : State} (d p : Nat) (old : Bool) (hk : Keeps st0 s) :
    Keeps st0 (biasCtlWrite s d p old) := by
  unfold biasCtlWrite
  refine keeps_ite (fun _ => ?_) (fun _ => ?_)
  · with_reducible apply keeps_biasOff
    exact hk
  · exact hk

theorem keeps_eff_biasConfigureDef {s : State} {c : Cmd} {fid u : Nat} (hk : Keeps st0 s) :
    Keeps st0 ((biasConfigureDef).eff c fid u s).1 := by
  dsimp -zeta only [biasConfigureDef]
  extract_lets +onlyGivenNames d
  clear_value d
  extract_lets +onlyGivenNames p
  clear_value p
  extract_lets +onlyGivenNames b
  clear_value b
  extract_lets +onlyGivenNames busy
  clear_value busy
  refine keeps_ite1 (fun _ => ?_) (fun _ => ?_)
  · exact hk
  · refine keeps_ite1 (fun _ => ?_) (fun _ => ?_)
    · exact hk
    · extract_lets +onlyGivenNames s1
      have h_s1 : Keeps st0 s1 := by
        unfold s1
        with_reducible apply keeps_setF
        with_reducible apply keeps_setF
        exact hk
      clear_value s1
      extract_lets +onlyGivenNames range
      clear_value range
      refine keeps_ite1 (fun _ => ?_) (fun _ => ?_)
      · exact h_s1
      · extract_lets +onlyGivenNames s2
        have h_s2 : Keeps st0 s2 := by
          unfold s2
          with_reducible apply keeps_biasReplace
          exact h_s1
        clear_value s2
        extract_lets +onlyGivenNames b2_src1 b2
        clear_value b2
        refine keeps_ite1 (fun _ => ?_) (fun _ => ?_)
        · refine keeps_mk1 ?_
          with_reducible apply keeps_biasRetarget
          exact h_s2
        · refine keeps_mk1 ?_
          with_reducible apply keeps_rangeDone
          with_reducible apply keeps_setBias
          with_reducible apply keeps_setF
          exact h_s2

theorem keeps_biasCut {s : State} (d p id : Nat) (hk : Keeps st0 s) :
    Keeps st0 (biasCut s d p id) := by
  unfold biasCut
  extract_lets +onlyGivenNames b
  clear_value b
  refine keeps_ite (fun _ => ?_) (fun _ => ?_)
  · exact hk
  · split
    · rename_i e x e_1
      with_reducible apply keeps_setBias
      exact hk
    · rename_i e x e_1
      with_reducible apply keeps_setBias
      exact hk
    · rename_i e x e_1 e_2
      exact hk

theorem keeps_execBiasConfigure {s : State} (c : Cmd) (hk : Keeps st0 s) :
    OutKeeps st0 (execBiasConfigure c s) := by
  unfold execBiasConfigure
  with_reducible apply keeps_startCmd
  · intro c_1
    intro fid
    intro u
    intro s_1
    intro h
    dsimp -zeta only [biasConfigureDef]
    extract_lets +onlyGivenNames d
    clear_value d
    extract_lets +onlyGivenNames p
    clear_value p
    extract_lets +onlyGivenNames b
    clear_value b
    extract_lets +onlyGivenNames busy
    clear_value busy
    refine keeps_ite1 (fun _ => ?_) (fun _ => ?_)
    · exact h
    · refine keeps_ite1 (fun _ => ?_) (fun _ => ?_)
      · exact h
      · extract_lets +onlyGivenNames s1
        have h_s1 : Keeps st0 s1 := by
          unfold s1
          with_reducible apply keeps_setF
          with_reducible apply keeps_setF
          exact h
        clear_value s1
        extract_lets +onlyGivenNames range
        clear_value range
        refine keeps_ite1 (fun _ => ?_) (fun _ => ?_)
        · exact h_s1
        · extract_lets +onlyGivenNames s2
          have h_s2 : Keeps st0 s2 := by
            unfold s2
            with_reducible apply keeps_biasReplace
            exact h_s1
          clear_value s2
          extract_lets +onlyGivenNames b2_src1 b2
          clear_value b2
          refine keeps_ite1 (fun _ => ?_) (fun _ => ?_)
          · refine keeps_mk1 ?_
            with_reducible apply keeps_biasRetarget
            exact h_s2
          · refine keeps_mk1 ?_
            with_reducible apply keeps_rangeDone
            with_reducible apply keeps_setBias
            with_reducible apply keeps_setF
            exact h_s2
  · exact hk

theorem keeps_eff_biasSetDef {s : State} {c : Cmd} {fid u : Nat} (hk : Keeps st0 s) :
    Keeps st0 ((biasSetDef).eff c fid u s).1 := by
  dsimp -zeta only [biasSetDef]
  extract_lets +onlyGivenNames d
  clear_value d
  extract_lets +onlyGivenNames p
  clear_value p
  extract_lets +onlyGivenNames code
  clear_value code
  refine keeps_ite1 (fun _ => ?_) (fun _ => ?_)
  · exact hk
  · extract_lets +onlyGivenNames v
    clear_value v
    extract_lets +onlyGivenNames s1
    have h_s1 : Keeps st0 s1 := by
      unfold s1
      with_reducible apply keeps_biasUpdate
      with_reducible apply keeps_setShadow
      with_reducible apply keeps_setReg
      exact hk
    clear_value s1
    refine keeps_ite1 (fun _ => ?_) (fun _ => ?_)
    · exact h_s1
    · refine keeps_mk1 ?_
      with_reducible apply keeps_setBias
      exact h_s1

theorem keeps_execBiasSet {s : State} (c : Cmd) (hk : Keeps st0 s) :
    OutKeeps st0 (execBiasSet c s) := by
  unfold execBiasSet
  with_reducible apply keeps_startCmd
  · intro c_1
    intro fid
    intro u
    intro s_1
    intro h
    dsimp -zeta only [biasSetDef]
    extract_lets +onlyGivenNames d
    clear_value d
    extract_lets +onlyGivenNames p
    clear_value p
    extract_lets +onlyGivenNames code
    clear_value code
    refine keeps_ite1 (fun _ => ?_) (fun _ => ?_)
    · exact h
    · extract_lets +onlyGivenNames v
      clear_value v
      extract_lets +onlyGivenNames s1
      have h_s1 : Keeps st0 s1 := by
        unfold s1
        with_reducible apply keeps_biasUpdate
        with_reducible apply keeps_setShadow
        with_reducible apply keeps_setReg
        exact h
      clear_value s1
      refine keeps_ite1 (fun _ => ?_) (fun _ => ?_)
      · exact h_s1
      · refine keeps_mk1 ?_
        with_reducible apply keeps_setBias
        exact h_s1
  · exact hk

theorem keeps_hkReport {s : State} (d : Nat) (hk : Keeps st0 s) :
    Keeps st0 (hkReport s d) := by
  unfold hkReport
  extract_lets +onlyGivenNames h
  clear_value h
  extract_lets +onlyGivenNames free
  clear_value free
  refine keeps_ite (fun _ => ?_) (fun _ => ?_)
  · exact hk
  · with_reducible apply keeps_post
    with_reducible apply keeps_setHka
    exact hk

theorem keeps_hkOverrun {s : State} (d src : Nat) (hk : Keeps st0 s) :
    Keeps st0 (hkOverrun s d src) := by
  unfold hkOverrun
  extract_lets +onlyGivenNames h
  clear_value h
  with_reducible apply keeps_hkReport
  with_reducible apply keeps_setHka
  with_reducible apply keeps_incF
  exact hk

theorem keeps_hkBegin {s : State} (d : Nat) (hk : Keeps st0 s) :
    Keeps st0 (hkBegin s d) := by
  unfold hkBegin
  extract_lets +onlyGivenNames h
  clear_value h
  split
  · rename_i x k e
    with_reducible apply keeps_setHka
    exact hk
  · rename_i x e
    extract_lets +onlyGivenNames ch
    clear_value ch
    extract_lets +onlyGivenNames scan
    clear_value scan
    extract_lets +onlyGivenNames s1
    have h_s1 : Keeps st0 s1 := by
      unfold s1
      refine keeps_ite (fun _ => ?_) (fun _ => ?_)
      · exact hk
      · with_reducible apply keeps_setF
        exact hk
    clear_value s1
    with_reducible apply keeps_setHka
    exact h_s1

theorem keeps_hkStart {s : State} (d : Nat) (hk : Keeps st0 s) :
    Keeps st0 (hkStart s d) := by
  unfold hkStart
  extract_lets +onlyGivenNames h
  clear_value h
  refine keeps_ite (fun _ => ?_) (fun _ => ?_)
  · with_reducible apply keeps_hkBegin
    exact hk
  · refine keeps_ite (fun _ => ?_) (fun _ => ?_)
    · with_reducible apply keeps_setHka
      exact hk
    · refine keeps_ite (fun _ => ?_) (fun _ => ?_)
      · with_reducible apply keeps_setHka
        exact hk
      · with_reducible apply keeps_hkOverrun
        exact hk

theorem keeps_hkTrigger {s : State} (d : Nat) (hk : Keeps st0 s) :
    Keeps st0 (hkTrigger s d) := by
  unfold hkTrigger
  extract_lets +onlyGivenNames h
  clear_value h
  extract_lets +onlyGivenNames delay
  clear_value delay
  refine keeps_ite (fun _ => ?_) (fun _ => ?_)
  · with_reducible apply keeps_hkOverrun
    exact hk
  · refine keeps_ite (fun _ => ?_) (fun _ => ?_)
    · with_reducible apply keeps_hkStart
      exact hk
    · with_reducible apply keeps_setHka
      exact hk

theorem keeps_execHkTimer {s : State} (d : Nat) (hk : Keeps st0 s) :
    OutKeeps st0 (execHkTimer d s) := by
  unfold execHkTimer
  with_reducible apply keeps_onDie
  · exact hk
  · intro s_1
    intro h
    extract_lets +onlyGivenNames h_1
    clear_value h_1
    extract_lets +onlyGivenNames t
    clear_value t
    with_reducible apply keeps_whenB
    · exact h
    · intro s_2
      intro h_2
      with_reducible apply keeps_hkTrigger
      with_reducible apply keeps_setHka
      exact h_2

theorem keeps_execHkDelayEnd {s : State} (d : Nat) (hk : Keeps st0 s) :
    OutKeeps st0 (execHkDelayEnd d s) := by
  unfold execHkDelayEnd
  with_reducible apply keeps_onDie
  · exact hk
  · intro s_1
    intro h
    extract_lets +onlyGivenNames h_1
    clear_value h_1
    split
    · rename_i x t e
      with_reducible apply keeps_whenB
      · exact h
      · intro s_2
        intro h_2
        with_reducible apply keeps_hkStart
        with_reducible apply keeps_setHka
        exact h_2
    · rename_i x e
      exact h

theorem keeps_hkLast {s : State} (d t : Nat) (hk : Keeps st0 s) :
    Keeps st0 (hkLast s d t) := by
  unfold hkLast
  with_reducible apply keeps_setF
  with_reducible apply keeps_setF
  exact hk

theorem keeps_hkResult {s : State} (d : Nat) (v : HkConv) (raw : Nat) (hk : Keeps st0 s) :
    Keeps st0 (hkResult s d v raw) := by
  unfold hkResult
  extract_lets +onlyGivenNames s1
  have h_s1 : Keeps st0 s1 := by
    unfold s1
    with_reducible apply keeps_setF
    exact hk
  clear_value s1
  with_reducible apply keeps_setFlag
  with_reducible apply keeps_wrapF
  exact h_s1

theorem keeps_calFit {s t : State} {sz zr sf fr : Nat} {g : Nat × Int} (hk : Keeps st0 s) (e : calFit s sz zr sf fr = some (g, t)) :
    Keeps st0 t := by
  unfold calFit at e
  generalize (sf : Int) - sz = dm at e
  generalize ((fr : Int) - zr) * 256 = dr at e
  by_cases hd : dm < 0
  all_goals
    simp only [hd, if_true, if_false] at e
    split at e
    · exact absurd e (by simp)
    · injection e with e
      injection e with _ e
      rw [← e]
      exact keeps_openDiv _ _ hk

theorem keeps_calEnd {s : State} (d : Nat) (k : HkCal) (hk : Keeps st0 s) :
    Keeps st0 (calEnd s d k) := by
  unfold calEnd
  extract_lets +onlyGivenNames h
  clear_value h
  extract_lets +onlyGivenNames m
  have h_m : Keeps st0 m.2 := by
    unfold m
    with_reducible apply keeps_openDiv
    with_reducible apply keeps_setHka
    exact hk
  clear_value m
  extract_lets +onlyGivenNames u
  clear_value u
  extract_lets +onlyGivenNames s1
  have h_s1 : Keeps st0 s1 := by
    unfold s1
    exact h_m
  clear_value s1
  extract_lets +onlyGivenNames h1
  clear_value h1
  refine keeps_ite (fun _ => ?_) (fun _ => ?_)
  · with_reducible apply keeps_unitDone
    with_reducible apply keeps_setHka
    exact h_s1
  · split
    · rename_i e x e_1
      with_reducible apply keeps_unitDone
      exact h_s1
    · rename_i e x z e_1
      split
      · rename_i x_1 e_2
        with_reducible apply keeps_unitDone
        exact h_s1
      · rename_i x_1 f e_2
        extract_lets +onlyGivenNames s2
        have h_s2 : Keeps st0 s2 := by
          unfold s2
          with_reducible apply keeps_setF
          with_reducible apply keeps_setF
          refine keeps_calFit ?_ e_2
          exact h_s1
        clear_value s2
        extract_lets +onlyGivenNames s3_src1 s3
        have h_s3 : Keeps st0 s3 := by
          unfold s3
          with_reducible apply keeps_setHka
          exact h_s2
        clear_value s3
        with_reducible apply keeps_unitDone
        exact h_s3

theorem keeps_hkNext {s : State} (d : Nat) (hk : Keeps st0 s) :
    Keeps st0 (hkNext s d) := by
  unfold hkNext
  extract_lets +onlyGivenNames h
  clear_value h
  refine keeps_ite (fun _ => ?_) (fun _ => ?_)
  · with_reducible apply keeps_hkBegin
    exact hk
  · refine keeps_ite (fun _ => ?_) (fun _ => ?_)
    · with_reducible apply keeps_hkBegin
      with_reducible apply keeps_setHka
      exact hk
    · exact hk

theorem keeps_execHkConversionEnd {s : State} (d raw : Nat) (hk : Keeps st0 s) :
    OutKeeps st0 (execHkConversionEnd d raw s) := by
  unfold execHkConversionEnd
  with_reducible apply keeps_onDie
  · exact hk
  · intro s_1
    intro h
    extract_lets +onlyGivenNames h_1
    clear_value h_1
    split
    · rename_i x e
      exact h
    · rename_i x v e
      with_reducible apply keeps_whenB
      · exact h
      · intro s_2
        intro h_2
        extract_lets +onlyGivenNames r
        clear_value r
        extract_lets +onlyGivenNames s1
        have h_s1 : Keeps st0 s1 := by
          unfold s1
          with_reducible apply keeps_hkLast
          with_reducible apply keeps_setHka
          exact h_2
        clear_value s1
        split
        · rename_i x_1 x_2 k e_1 e_2
          extract_lets +onlyGivenNames k1
          clear_value k1
          extract_lets +onlyGivenNames s2_src1 s2
          have h_s2 : Keeps st0 s2 := by
            unfold s2
            with_reducible apply keeps_setHka
            exact h_s1
          clear_value s2
          with_reducible apply keeps_hkNext
          refine keeps_ite (fun _ => ?_) (fun _ => ?_)
          · with_reducible apply keeps_calEnd
            exact h_s2
          · exact h_s2
        · rename_i x_1 x_2 e_1 e_2
          with_reducible apply keeps_hkNext
          exact h_s1
        · rename_i x_1 x_2 e_1
          with_reducible apply keeps_hkNext
          with_reducible apply keeps_hkResult
          exact h_s1

theorem keeps_eff_hkadcConfigureDef {s : State} {c : Cmd} {fid u : Nat} (hk : Keeps st0 s) :
    Keeps st0 ((hkadcConfigureDef).eff c fid u s).1 := by
  dsimp -zeta only [hkadcConfigureDef]
  extract_lets +onlyGivenNames d
  clear_value d
  refine keeps_ite1 (fun _ => ?_) (fun _ => ?_)
  · exact hk
  · extract_lets +onlyGivenNames s1
    have h_s1 : Keeps st0 s1 := by
      unfold s1
      with_reducible apply keeps_setF
      with_reducible apply keeps_setF
      with_reducible apply keeps_setF
      exact hk
    clear_value s1
    extract_lets +onlyGivenNames s2
    have h_s2 : Keeps st0 s2 := by
      unfold s2
      with_reducible apply keeps_setF
      with_reducible apply keeps_setF
      exact h_s1
    clear_value s2
    refine keeps_mk1 ?_
    with_reducible apply keeps_setHka
    exact h_s2

theorem keeps_execHkadcConfigure {s : State} (c : Cmd) (hk : Keeps st0 s) :
    OutKeeps st0 (execHkadcConfigure c s) := by
  unfold execHkadcConfigure
  with_reducible apply keeps_startCmd
  · intro c_1
    intro fid
    intro u
    intro s_1
    intro h
    dsimp -zeta only [hkadcConfigureDef]
    extract_lets +onlyGivenNames d
    clear_value d
    refine keeps_ite1 (fun _ => ?_) (fun _ => ?_)
    · exact h
    · extract_lets +onlyGivenNames s1
      have h_s1 : Keeps st0 s1 := by
        unfold s1
        with_reducible apply keeps_setF
        with_reducible apply keeps_setF
        with_reducible apply keeps_setF
        exact h
      clear_value s1
      extract_lets +onlyGivenNames s2
      have h_s2 : Keeps st0 s2 := by
        unfold s2
        with_reducible apply keeps_setF
        with_reducible apply keeps_setF
        exact h_s1
      clear_value s2
      refine keeps_mk1 ?_
      with_reducible apply keeps_setHka
      exact h_s2
  · exact hk

theorem keeps_calBegin {s : State} (d : Nat) (k : HkCal) (hk : Keeps st0 s) :
    Keeps st0 (calBegin s d k) := by
  unfold calBegin
  extract_lets +onlyGivenNames s1_src1 s1
  have h_s1 : Keeps st0 s1 := by
    unfold s1
    with_reducible apply keeps_setHka
    exact hk
  clear_value s1
  refine keeps_ite (fun _ => ?_) (fun _ => ?_)
  · with_reducible apply keeps_hkBegin
    exact h_s1
  · exact h_s1

theorem keeps_eff_calDef {s : State} (fs : Bool) {c : Cmd} {fid u : Nat} (hk : Keeps st0 s) :
    Keeps st0 ((calDef fs).eff c fid u s).1 := by
  dsimp -zeta only [calDef]
  extract_lets +onlyGivenNames d
  clear_value d
  extract_lets +onlyGivenNames h
  clear_value h
  refine keeps_ite1 (fun _ => ?_) (fun _ => ?_)
  · exact hk
  · refine keeps_ite1 (fun _ => ?_) (fun _ => ?_)
    · exact hk
    · refine keeps_ite1 (fun _ => ?_) (fun _ => ?_)
      · exact hk
      · refine keeps_mk1 ?_
        with_reducible apply keeps_calBegin
        exact hk

theorem keeps_hkCalCut {s : State} (d id : Nat) (hk : Keeps st0 s) :
    Keeps st0 (hkCalCut s d id) := by
  unfold hkCalCut
  split
  · rename_i x k e
    refine keeps_ite (fun _ => ?_) (fun _ => ?_)
    · with_reducible apply keeps_setHka
      exact hk
    · exact hk
  · rename_i x e
    exact hk

theorem keeps_execHkaCalZero {s : State} (c : Cmd) (hk : Keeps st0 s) :
    OutKeeps st0 (execHkaCalZero c s) := by
  unfold execHkaCalZero
  with_reducible apply keeps_startCmd
  · intro c_1
    intro fid
    intro u
    intro s_1
    intro h
    dsimp -zeta only [calDef]
    extract_lets +onlyGivenNames d
    clear_value d
    extract_lets +onlyGivenNames h_1
    clear_value h_1
    refine keeps_ite1 (fun _ => ?_) (fun _ => ?_)
    · exact h
    · refine keeps_ite1 (fun _ => ?_) (fun _ => ?_)
      · exact h
      · refine keeps_ite1 (fun _ => ?_) (fun _ => ?_)
        · exact h
        · refine keeps_mk1 ?_
          with_reducible apply keeps_calBegin
          exact h
  · exact hk

theorem keeps_execHkaCalFs {s : State} (c : Cmd) (hk : Keeps st0 s) :
    OutKeeps st0 (execHkaCalFs c s) := by
  unfold execHkaCalFs
  with_reducible apply keeps_startCmd
  · intro c_1
    intro fid
    intro u
    intro s_1
    intro h
    dsimp -zeta only [calDef]
    extract_lets +onlyGivenNames d
    clear_value d
    extract_lets +onlyGivenNames h_1
    clear_value h_1
    refine keeps_ite1 (fun _ => ?_) (fun _ => ?_)
    · exact h
    · refine keeps_ite1 (fun _ => ?_) (fun _ => ?_)
      · exact h
      · refine keeps_ite1 (fun _ => ?_) (fun _ => ?_)
        · exact h
        · refine keeps_mk1 ?_
          with_reducible apply keeps_calBegin
          exact h
  · exact hk

theorem keeps_hkaStop {s : State} (d : Nat) (hk : Keeps st0 s) :
    Keeps st0 (hkaStop s d) := by
  unfold hkaStop
  extract_lets +onlyGivenNames h
  clear_value h
  extract_lets +onlyGivenNames s1
  have h_s1 : Keeps st0 s1 := by
    unfold s1
    with_reducible apply keeps_setHka
    exact hk
  clear_value s1
  split
  · rename_i x k e
    with_reducible apply keeps_unitDone
    exact h_s1
  · rename_i x e
    exact h_s1

theorem keeps_pwmLevel {s : State} (d p : Nat) (level : Bool) (hk : Keeps st0 s) :
    Keeps st0 (pwmLevel s d p level) := by
  unfold pwmLevel
  extract_lets +onlyGivenNames w
  clear_value w
  refine keeps_ite (fun _ => ?_) (fun _ => ?_)
  · exact hk
  · extract_lets +onlyGivenNames s1
    have h_s1 : Keeps st0 s1 := by
      unfold s1
      with_reducible apply keeps_setPwm
      exact hk
    clear_value s1
    extract_lets +onlyGivenNames e
    clear_value e
    refine keeps_ite (fun _ => ?_) (fun _ => ?_)
    · with_reducible apply keeps_hkTrigger
      exact h_s1
    · exact h_s1

theorem keeps_pwmBoundary {s : State} (d p : Nat) (hk : Keeps st0 s) :
    Keeps st0 (pwmBoundary s d p) := by
  unfold pwmBoundary
  extract_lets +onlyGivenNames w
  clear_value w
  extract_lets +onlyGivenNames s1
  have h_s1 : Keeps st0 s1 := by
    unfold s1
    split
    · rename_i x c e
      with_reducible apply keeps_setF
      with_reducible apply keeps_setF
      with_reducible apply keeps_setFlag
      with_reducible apply keeps_setFlag
      exact hk
    · rename_i x e
      exact hk
  clear_value s1
  extract_lets +onlyGivenNames g
  clear_value g
  extract_lets +onlyGivenNames s2
  have h_s2 : Keeps st0 s2 := by
    unfold s2
    with_reducible apply keeps_setPwm
    exact h_s1
  clear_value s2
  extract_lets +onlyGivenNames s3
  have h_s3 : Keeps st0 s3 := by
    unfold s3
    with_reducible apply keeps_pwmLevel
    exact h_s2
  clear_value s3
  with_reducible apply keeps_unitsDone
  exact h_s3

theorem keeps_execPwmEdge {s : State} (d p : Nat) (hk : Keeps st0 s) :
    OutKeeps st0 (execPwmEdge d p s) := by
  unfold execPwmEdge
  with_reducible apply keeps_onProbe
  · exact hk
  · intro v0
    intro h
    extract_lets +onlyGivenNames w
    clear_value w
    extract_lets +onlyGivenNames g
    clear_value g
    refine keeps_ite (fun _ => ?_) (fun _ => ?_)
    · exact h
    · refine keeps_ite (fun _ => ?_) (fun _ => ?_)
      · with_reducible apply keeps_whenB
        · exact h
        · intro s_1
          intro h_1
          with_reducible apply keeps_pwmLevel
          with_reducible apply keeps_setPwm
          exact h_1
      · with_reducible apply keeps_whenB
        · exact h
        · intro s_1
          intro h_1
          with_reducible apply keeps_pwmBoundary
          exact h_1

theorem keeps_eff_pwmConfigureDef {s : State} {c : Cmd} {fid u : Nat} (hk : Keeps st0 s) :
    Keeps st0 ((pwmConfigureDef).eff c fid u s).1 := by
  dsimp -zeta only [pwmConfigureDef]
  extract_lets +onlyGivenNames d
  clear_value d
  extract_lets +onlyGivenNames p
  clear_value p
  extract_lets +onlyGivenNames w
  clear_value w
  refine keeps_ite1 (fun _ => ?_) (fun _ => ?_)
  · exact hk
  · extract_lets +onlyGivenNames s1
    have h_s1 : Keeps st0 s1 := by
      unfold s1
      with_reducible apply keeps_setPwm
      exact hk
    clear_value s1
    refine keeps_mk1 ?_
    refine keeps_ite (fun _ => ?_) (fun _ => ?_)
    · exact h_s1
    · with_reducible apply keeps_pwmBoundary
      exact h_s1

theorem keeps_execPwmConfigure {s : State} (c : Cmd) (hk : Keeps st0 s) :
    OutKeeps st0 (execPwmConfigure c s) := by
  unfold execPwmConfigure
  with_reducible apply keeps_startCmd
  · intro c_1
    intro fid
    intro u
    intro s_1
    intro h
    dsimp -zeta only [pwmConfigureDef]
    extract_lets +onlyGivenNames d
    clear_value d
    extract_lets +onlyGivenNames p
    clear_value p
    extract_lets +onlyGivenNames w
    clear_value w
    refine keeps_ite1 (fun _ => ?_) (fun _ => ?_)
    · exact h
    · extract_lets +onlyGivenNames s1
      have h_s1 : Keeps st0 s1 := by
        unfold s1
        with_reducible apply keeps_setPwm
        exact h
      clear_value s1
      refine keeps_mk1 ?_
      refine keeps_ite (fun _ => ?_) (fun _ => ?_)
      · exact h_s1
      · with_reducible apply keeps_pwmBoundary
        exact h_s1
  · exact hk

theorem keeps_pwmStart {s : State} (d p : Nat) (hk : Keeps st0 s) :
    Keeps st0 (pwmStart s d p) := by
  unfold pwmStart
  refine keeps_ite (fun _ => ?_) (fun _ => ?_)
  · with_reducible apply keeps_pwmBoundary
    exact hk
  · exact hk

theorem keeps_pwmStop {s : State} (d p : Nat) (hk : Keeps st0 s) :
    Keeps st0 (pwmStop s d p) := by
  unfold pwmStop
  extract_lets +onlyGivenNames w
  clear_value w
  extract_lets +onlyGivenNames s1
  have h_s1 : Keeps st0 s1 := by
    unfold s1
    with_reducible apply keeps_setPwm
    exact hk
  clear_value s1
  with_reducible apply keeps_unitsDone
  with_reducible apply keeps_pwmLevel
  exact h_s1

theorem keeps_readEnd {s : State} (d p st : Nat) (hk : Keeps st0 s) :
    Keeps st0 (readEnd s d p st) := by
  unfold readEnd
  extract_lets +onlyGivenNames x
  clear_value x
  split
  · rename_i x_1 r e
    with_reducible apply keeps_unitDone
    with_reducible apply keeps_setProbe
    exact hk
  · rename_i x_1 e
    exact hk

theorem keeps_probeRemove {s : State} (d p : Nat) (hk : Keeps st0 s) :
    Keeps st0 (probeRemove s d p) := by
  unfold probeRemove
  extract_lets +onlyGivenNames x
  clear_value x
  extract_lets +onlyGivenNames s1
  have h_s1 : Keeps st0 s1 := by
    unfold s1
    with_reducible apply keeps_readEnd
    exact hk
  clear_value s1
  extract_lets +onlyGivenNames s2_src1 s2
  have h_s2 : Keeps st0 s2 := by
    unfold s2
    with_reducible apply keeps_setProbe
    exact h_s1
  clear_value s2
  extract_lets +onlyGivenNames s3_src1 s3
  have h_s3 : Keeps st0 s3 := by
    unfold s3
    refine keeps_ite (fun _ => ?_) (fun _ => ?_)
    · with_reducible apply keeps_detachPartner
      exact h_s2
    · with_reducible apply keeps_setUnit
      exact h_s2
  clear_value s3
  refine keeps_ite (fun _ => ?_) (fun _ => ?_)
  · with_reducible apply keeps_biasOff
    exact h_s3
  · exact h_s3

theorem keeps_execProbePresChange {s : State} (d p : Nat) (high : Bool) (hk : Keeps st0 s) :
    OutKeeps st0 (execProbePresChange d p high s) := by
  unfold execProbePresChange
  with_reducible apply keeps_onProbe
  · exact hk
  · intro v0
    intro h
    extract_lets +onlyGivenNames x
    clear_value x
    with_reducible apply keeps_whenB
    · exact h
    · intro s_1
      intro h_1
      extract_lets +onlyGivenNames s1
      have h_s1 : Keeps st0 s1 := by
        unfold s1
        refine keeps_ite (fun _ => ?_) (fun _ => ?_)
        · with_reducible apply keeps_probeRemove
          exact h_1
        · exact h_1
      clear_value s1
      with_reducible apply keeps_setProbe
      exact h_s1

theorem keeps_execProbePresenceTimeout {s : State} (d p : Nat) (hk : Keeps st0 s) :
    OutKeeps st0 (execProbePresenceTimeout d p s) := by
  unfold execProbePresenceTimeout
  with_reducible apply keeps_onProbe
  · exact hk
  · intro v0
    intro h
    extract_lets +onlyGivenNames x
    clear_value x
    with_reducible apply keeps_whenB
    · exact h
    · intro s_1
      intro h_1
      with_reducible apply keeps_setProbe
      exact h_1

theorem keeps_execProbeDiscoveryDone {s : State} (d p pulses acks : Nat) (one two : Option (List Byte)) (hk : Keeps st0 s) :
    OutKeeps st0 (execProbeDiscoveryDone d p pulses acks one two s) := by
  unfold execProbeDiscoveryDone
  with_reducible apply keeps_onProbe
  · exact hk
  · intro v0
    intro h
    extract_lets +onlyGivenNames x
    clear_value x
    extract_lets +onlyGivenNames found
    clear_value found
    extract_lets +onlyGivenNames read
    clear_value read
    with_reducible apply keeps_whenB
    · exact h
    · intro s_1
      intro h_1
      extract_lets +onlyGivenNames a
      clear_value a
      extract_lets +onlyGivenNames s1
      have h_s1 : Keeps st0 s1 := by
        unfold s1
        with_reducible apply keeps_setProbe
        exact h_1
      clear_value s1
      extract_lets +onlyGivenNames detail
      clear_value detail
      refine keeps_ite (fun _ => ?_) (fun _ => ?_)
      · with_reducible apply keeps_attachPartner
        exact h_s1
      · extract_lets +onlyGivenNames s2_src1 s2
        have h_s2 : Keeps st0 s2 := by
          unfold s2
          with_reducible apply keeps_setProbe
          exact h_s1
        clear_value s2
        with_reducible apply keeps_setUnit
        exact h_s2

theorem keeps_execProbeRemovalTimeout {s : State} (d p : Nat) (hk : Keeps st0 s) :
    OutKeeps st0 (execProbeRemovalTimeout d p s) := by
  unfold execProbeRemovalTimeout
  with_reducible apply keeps_onProbe
  · exact hk
  · intro v0
    intro h
    extract_lets +onlyGivenNames x
    clear_value x
    with_reducible apply keeps_whenB
    · exact h
    · intro s_1
      intro h_1
      with_reducible apply keeps_probeRemove
      exact h_1

theorem keeps_execEepromReadDone {s : State} (d p : Nat) (ok : Bool) (bytes : List Byte) (hk : Keeps st0 s) :
    OutKeeps st0 (execEepromReadDone d p ok bytes s) := by
  unfold execEepromReadDone
  with_reducible apply keeps_onProbe
  · exact hk
  · intro v0
    intro h
    split
    · rename_i x e
      exact h
    · rename_i x r e
      refine keeps_ite (fun _ => ?_) (fun _ => ?_)
      · with_reducible apply keeps_readEnd
        with_reducible apply keeps_hostWrite
        exact h
      · with_reducible apply keeps_readEnd
        exact h

theorem keeps_eff_eepromReadDef {s : State} {c : Cmd} {fid u : Nat} (hk : Keeps st0 s) :
    Keeps st0 ((eepromReadDef).eff c fid u s).1 := by
  dsimp -zeta only [eepromReadDef]
  extract_lets +onlyGivenNames d
  clear_value d
  extract_lets +onlyGivenNames p
  clear_value p
  extract_lets +onlyGivenNames x
  clear_value x
  refine keeps_ite1 (fun _ => ?_) (fun _ => ?_)
  · exact hk
  · refine keeps_ite1 (fun _ => ?_) (fun _ => ?_)
    · exact hk
    · refine keeps_mk1 ?_
      with_reducible apply keeps_setProbe
      exact hk

theorem keeps_execEepromRead {s : State} (c : Cmd) (hk : Keeps st0 s) :
    OutKeeps st0 (execEepromRead c s) := by
  unfold execEepromRead
  with_reducible apply keeps_startCmd
  · intro c_1
    intro fid
    intro u
    intro s_1
    intro h
    dsimp -zeta only [eepromReadDef]
    extract_lets +onlyGivenNames d
    clear_value d
    extract_lets +onlyGivenNames p
    clear_value p
    extract_lets +onlyGivenNames x
    clear_value x
    refine keeps_ite1 (fun _ => ?_) (fun _ => ?_)
    · exact h
    · refine keeps_ite1 (fun _ => ?_) (fun _ => ?_)
      · exact h
      · refine keeps_mk1 ?_
        with_reducible apply keeps_setProbe
        exact h
  · exact hk

end Sys2Proof.Machine
end

