-- ==== Sys2Proof/Laws/KeepsProof.lean ====
section
/-!
SUPPORT. What keeps the part, the time, the queue and the canonical form of memory (`Keeps`): Machine/Proof.
-/

namespace Sys2Proof.Machine

variable {st0 : State}

theorem keeps_setPrf {s : State} (x : PrfSt) (hk : Keeps st0 s) :
    Keeps st0 (setPrf s x) := by
  unfold setPrf
  refine keeps_upd ?_ ..
  exact hk

theorem keeps_composeRegion {s : State} (src : State) (ls : List LayerCfg) (pal : Tab W32) (r : Region2) (hk : Keeps st0 s) :
    Keeps st0 (composeRegion src ls pal s r) :=
  keeps_foldl (fun _ _ h => keeps_memWrite _ _ _ h) hk

theorem keeps_initDone {s : State} (t : Nat) (hk : Keeps st0 s) :
    Keeps st0 (initDone s t) := by
  unfold initDone
  split
  · rename_i x fid e
    with_reducible apply keeps_unitDone
    with_reducible apply keeps_setPrf
    exact hk
  · rename_i x e
    exact hk

theorem keeps_sendInit {s : State} (l : List InitEl) (t : Nat) (hk : Keeps st0 s) :
    Keeps st0 (sendInit s l t) := by
  unfold sendInit
  extract_lets +onlyGivenNames x_src1 x
  clear_value x
  extract_lets +onlyGivenNames s1
  have h_s1 : Keeps st0 s1 := by
    unfold s1
    with_reducible apply keeps_setPrf
    exact hk
  clear_value s1
  refine keeps_ite (fun _ => ?_) (fun _ => ?_)
  · with_reducible apply keeps_initDone
    exact h_s1
  · exact h_s1

theorem keeps_proofApply {s : State}  (hk : Keeps st0 s) :
    Keeps st0 (proofApply s) := by
  unfold proofApply
  extract_lets +onlyGivenNames x
  clear_value x
  split
  · rename_i x_1 e
    exact hk
  · rename_i x_1 fid p r e
    refine keeps_ite (fun _ => ?_) (fun _ => ?_)
    · exact hk
    · extract_lets +onlyGivenNames fl
      clear_value fl
      extract_lets +onlyGivenNames s1
      have h_s1 : Keeps st0 s1 := by
        unfold s1
        with_reducible apply keeps_setF
        with_reducible apply keeps_setF
        exact hk
      clear_value s1
      extract_lets +onlyGivenNames s2
      have h_s2 : Keeps st0 s2 := by
        unfold s2
        with_reducible apply keeps_setF
        with_reducible apply keeps_setF
        exact h_s1
      clear_value s2
      extract_lets +onlyGivenNames s3
      have h_s3 : Keeps st0 s3 := by
        unfold s3
        with_reducible apply keeps_setFlag
        with_reducible apply keeps_setFlag
        exact h_s2
      clear_value s3
      extract_lets +onlyGivenNames s4
      have h_s4 : Keeps st0 s4 := by
        unfold s4
        with_reducible apply keeps_setFlag
        with_reducible apply keeps_setF
        exact h_s3
      clear_value s4
      extract_lets +onlyGivenNames s5
      have h_s5 : Keeps st0 s5 := by
        unfold s5
        with_reducible apply keeps_setPrf
        exact h_s4
      clear_value s5
      with_reducible apply keeps_sendInit
      with_reducible apply keeps_actedOn
      exact h_s5

theorem keeps_eff_proofConfigureDef {s : State} {c : Cmd} {fid u : Nat} (hk : Keeps st0 s) :
    Keeps st0 ((proofConfigureDef).eff c fid u s).1 := by
  dsimp -zeta only [proofConfigureDef]
  extract_lets +onlyGivenNames rate
  clear_value rate
  refine keeps_ite1 (fun _ => ?_) (fun _ => ?_)
  · exact hk
  · refine keeps_ite1 (fun _ => ?_) (fun _ => ?_)
    · exact hk
    · refine keeps_ite1 (fun _ => ?_) (fun _ => ?_)
      · exact hk
      · refine keeps_mk1 ?_
        with_reducible apply keeps_proofApply
        with_reducible apply keeps_setPrf
        exact hk

theorem keeps_execProofConfigure {s : State} (c : Cmd) (hk : Keeps st0 s) :
    OutKeeps st0 (execProofConfigure c s) := by
  unfold execProofConfigure
  with_reducible apply keeps_startCmd
  · intro c_1
    intro fid
    intro u
    intro s_1
    intro h
    dsimp -zeta only [proofConfigureDef]
    extract_lets +onlyGivenNames rate
    clear_value rate
    refine keeps_ite1 (fun _ => ?_) (fun _ => ?_)
    · exact h
    · refine keeps_ite1 (fun _ => ?_) (fun _ => ?_)
      · exact h
      · refine keeps_ite1 (fun _ => ?_) (fun _ => ?_)
        · exact h
        · refine keeps_mk1 ?_
          with_reducible apply keeps_proofApply
          with_reducible apply keeps_setPrf
          exact h
  · exact hk

theorem keeps_execInitDelayExpiry {s : State}  (hk : Keeps st0 s) :
    OutKeeps st0 (execInitDelayExpiry s) := by
  unfold execInitDelayExpiry
  extract_lets +onlyGivenNames x
  clear_value x
  split
  · rename_i x_1 x_2 t head r e e_1
    refine outKeeps_next ?_
    with_reducible apply keeps_whenB
    · exact hk
    · intro s_1
      intro h
      with_reducible apply keeps_proofApply
      with_reducible apply keeps_sendInit
      with_reducible apply keeps_setPrf
      exact h
  · rename_i x_1 x_2 e
    refine outKeeps_next ?_
    exact hk

theorem keeps_execInitListSent {s : State}  (hk : Keeps st0 s) :
    OutKeeps st0 (execInitListSent s) := by
  unfold execInitListSent
  refine outKeeps_next ?_
  with_reducible apply keeps_whenB
  · exact hk
  · intro s_1
    intro h
    with_reducible apply keeps_proofApply
    with_reducible apply keeps_initDone
    exact h

theorem keeps_eff_layerConfigureDef {s : State} {c : Cmd} {fid u : Nat} (hk : Keeps st0 s) :
    Keeps st0 ((layerConfigureDef).eff c fid u s).1 := by
  dsimp -zeta only [layerConfigureDef]
  with_reducible apply keeps_setPrf
  exact hk

theorem keeps_execLayerConfigure {s : State} (c : Cmd) (hk : Keeps st0 s) :
    OutKeeps st0 (execLayerConfigure c s) := by
  unfold execLayerConfigure
  with_reducible apply keeps_startCmd
  · intro c_1
    intro fid
    intro u
    intro s_1
    intro h
    dsimp -zeta only [layerConfigureDef]
    with_reducible apply keeps_setPrf
    exact h
  · exact hk

theorem keeps_eff_paletteLoadDef {s : State} {c : Cmd} {fid u : Nat} (hk : Keeps st0 s) :
    Keeps st0 ((paletteLoadDef).eff c fid u s).1 := by
  dsimp -zeta only [paletteLoadDef]
  extract_lets +onlyGivenNames p
  clear_value p
  extract_lets +onlyGivenNames t
  clear_value t
  refine keeps_mk1 ?_
  with_reducible apply keeps_setPrf
  exact hk

theorem keeps_execPaletteLoad {s : State} (c : Cmd) (hk : Keeps st0 s) :
    OutKeeps st0 (execPaletteLoad c s) := by
  unfold execPaletteLoad
  with_reducible apply keeps_startCmd
  · intro c_1
    intro fid
    intro u
    intro s_1
    intro h
    dsimp -zeta only [paletteLoadDef]
    extract_lets +onlyGivenNames p
    clear_value p
    extract_lets +onlyGivenNames t
    clear_value t
    refine keeps_mk1 ?_
    with_reducible apply keeps_setPrf
    exact h
  · exact hk

theorem keeps_eff_regionPushDef {s : State} {c : Cmd} {fid u : Nat} (hk : Keeps st0 s) :
    Keeps st0 ((regionPushDef).eff c fid u s).1 := by
  dsimp -zeta only [regionPushDef]
  extract_lets +onlyGivenNames l
  clear_value l
  refine keeps_ite1 (fun _ => ?_) (fun _ => ?_)
  · exact hk
  · refine keeps_ite1 (fun _ => ?_) (fun _ => ?_)
    · exact hk
    · refine keeps_mk1 ?_
      with_reducible apply keeps_setPrf
      exact hk

theorem keeps_execRegionPush {s : State} (c : Cmd) (hk : Keeps st0 s) :
    OutKeeps st0 (execRegionPush c s) := by
  unfold execRegionPush
  with_reducible apply keeps_startCmd
  · intro c_1
    intro fid
    intro u
    intro s_1
    intro h
    dsimp -zeta only [regionPushDef]
    extract_lets +onlyGivenNames l
    clear_value l
    refine keeps_ite1 (fun _ => ?_) (fun _ => ?_)
    · exact h
    · refine keeps_ite1 (fun _ => ?_) (fun _ => ?_)
      · exact h
      · refine keeps_mk1 ?_
        with_reducible apply keeps_setPrf
        exact h
  · exact hk

theorem keeps_prfRelease {s : State} (k : Compo) (t : Nat) (l fl : Nat) (hk : Keeps st0 s) :
    Keeps st0 (prfRelease k t s l fl) := by
  unfold prfRelease
  split
  · rename_i x e
    exact hk
  · rename_i x y e
    with_reducible apply keeps_post
    exact hk

theorem keeps_prfStart {s : State} (t : Nat) (hk : Keeps st0 s) :
    Keeps st0 (prfStart s t) := by
  unfold prfStart
  extract_lets +onlyGivenNames x
  clear_value x
  extract_lets +onlyGivenNames b
  clear_value b
  extract_lets +onlyGivenNames lay
  clear_value lay
  extract_lets +onlyGivenNames en
  clear_value en
  extract_lets +onlyGivenNames bad
  clear_value bad
  extract_lets +onlyGivenNames meets
  clear_value meets
  extract_lets +onlyGivenNames k
  clear_value k
  extract_lets +onlyGivenNames s1
  have h_s1 : Keeps st0 s1 := by
    unfold s1
    with_reducible apply keeps_setPrf
    with_reducible apply keeps_wrapF
    exact hk
  clear_value s1
  extract_lets +onlyGivenNames s2
  have h_s2 : Keeps st0 s2 := by
    unfold s2
    refine keeps_ite (fun _ => ?_) (fun _ => ?_)
    · exact h_s1
    · with_reducible apply keeps_setFlag
      exact h_s1
  clear_value s2
  extract_lets +onlyGivenNames s3
  have h_s3 : Keeps st0 s3 := by
    unfold s3
    refine keeps_foldl ?_ ?_
    · intro s_1
      intro x_1
      intro h
      with_reducible apply keeps_prfRelease
      exact h
    · exact h_s2
  clear_value s3
  refine keeps_foldl ?_ ?_
  · intro s_1
    intro x_1
    intro h
    with_reducible apply keeps_composeRegion
    exact h
  · exact h_s3

theorem keeps_prfEdge {s : State} (t : Nat) (hk : Keeps st0 s) :
    Keeps st0 (prfEdge s t) := by
  unfold prfEdge
  extract_lets +onlyGivenNames te
  clear_value te
  extract_lets +onlyGivenNames s1
  have h_s1 : Keeps st0 s1 := by
    unfold s1
    with_reducible apply keeps_setF
    with_reducible apply keeps_setF
    exact hk
  clear_value s1
  refine keeps_ite (fun _ => ?_) (fun _ => ?_)
  · with_reducible apply keeps_incF
    exact h_s1
  · refine keeps_ite (fun _ => ?_) (fun _ => ?_)
    · with_reducible apply keeps_prfStart
      exact h_s1
    · exact h_s1

theorem keeps_timerEdge {s : State}  (hk : Keeps st0 s) :
    Keeps st0 (timerEdge s) := by
  unfold timerEdge
  extract_lets +onlyGivenNames t
  clear_value t
  with_reducible apply keeps_prfEdge
  with_reducible apply keeps_setPrf
  exact hk

theorem keeps_timerEdges {s : State}  (hk : Keeps st0 s) :
    Keeps st0 (timerEdges s) := by
  unfold timerEdges
  refine keeps_ite (fun _ => ?_) (fun _ => ?_)
  · exact hk
  · refine keeps_foldl ?_ ?_
    · intro s_1
      intro x_1
      intro h
      with_reducible apply keeps_timerEdge
      exact h
    · exact hk

theorem keeps_execTeEdge {s : State}  (hk : Keeps st0 s) :
    OutKeeps st0 (execTeEdge s) := by
  unfold execTeEdge
  refine outKeeps_next ?_
  with_reducible apply keeps_whenB
  · exact hk
  · intro s_1
    intro h
    with_reducible apply keeps_prfEdge
    with_reducible apply keeps_setPrf
    exact h

theorem keeps_execTeTimerExpiry {s : State}  (hk : Keeps st0 s) :
    OutKeeps st0 (execTeTimerExpiry s) := by
  unfold execTeTimerExpiry
  refine outKeeps_next ?_
  with_reducible apply keeps_whenB
  · exact hk
  · intro s_1
    intro h
    with_reducible apply keeps_timerEdge
    exact h

theorem keeps_eff_prfCommitDef {s : State} {c : Cmd} {fid u : Nat} (hk : Keeps st0 s) :
    Keeps st0 ((prfCommitDef).eff c fid u s).1 := by
  dsimp -zeta only [prfCommitDef]
  refine keeps_ite1 (fun _ => ?_) (fun _ => ?_)
  · exact hk
  · extract_lets +onlyGivenNames s_1
    have h_s_1 : Keeps st0 s_1 := by
      unfold s_1
      with_reducible apply keeps_timerEdges
      exact hk
    clear_value s_1
    extract_lets +onlyGivenNames x_1
    clear_value x_1
    extract_lets +onlyGivenNames seq
    clear_value seq
    extract_lets +onlyGivenNames comps
    clear_value comps
    extract_lets +onlyGivenNames ended
    clear_value ended
    extract_lets +onlyGivenNames s1
    have h_s1 : Keeps st0 s1 := by
      unfold s1
      with_reducible apply keeps_setPrf
      with_reducible apply keeps_wrapF
      exact h_s_1
    clear_value s1
    exact h_s1

theorem keeps_execPrfCommit {s : State} (c : Cmd) (hk : Keeps st0 s) :
    OutKeeps st0 (execPrfCommit c s) := by
  unfold execPrfCommit
  with_reducible apply keeps_startCmd
  · intro c_1
    intro fid
    intro u
    intro s_1
    intro h
    refine keeps_eff_prfCommitDef ?_
    exact h
  · exact hk

theorem keeps_execLayerReadDone {s : State} (l : Nat) (hk : Keeps st0 s) :
    OutKeeps st0 (execLayerReadDone l s) := by
  unfold execLayerReadDone
  refine outKeeps_next ?_
  split
  · rename_i x k e
    with_reducible apply keeps_whenB
    · exact hk
    · intro s_1
      intro h
      with_reducible apply keeps_prfRelease
      with_reducible apply keeps_setPrf
      exact h
  · rename_i x e
    exact hk

theorem keeps_prfDone {s : State} (k : Compo) (result pushed t : Nat) (hk : Keeps st0 s) :
    Keeps st0 (prfDone s k result pushed t) := by
  unfold prfDone
  extract_lets +onlyGivenNames s1
  have h_s1 : Keeps st0 s1 := by
    unfold s1
    with_reducible apply keeps_post
    exact hk
  clear_value s1
  with_reducible apply keeps_proofApply
  with_reducible apply keeps_setPrf
  exact h_s1

theorem keeps_prfAbortAt {s : State} (result t : Nat) (hk : Keeps st0 s) :
    Keeps st0 (prfAbortAt s result t) := by
  unfold prfAbortAt
  split
  · rename_i x e
    exact hk
  · rename_i x k e
    extract_lets +onlyGivenNames cur
    clear_value cur
    extract_lets +onlyGivenNames back
    clear_value back
    extract_lets +onlyGivenNames s1_src1 s1
    have h_s1 : Keeps st0 s1 := by
      unfold s1
      with_reducible apply keeps_setPrf
      exact hk
    clear_value s1
    extract_lets +onlyGivenNames s2
    have h_s2 : Keeps st0 s2 := by
      unfold s2
      refine keeps_ite (fun _ => ?_) (fun _ => ?_)
      · with_reducible apply keeps_post
        with_reducible apply keeps_incF
        with_reducible apply keeps_setFlag
        exact h_s1
      · exact h_s1
    clear_value s2
    with_reducible apply keeps_prfDone
    refine keeps_foldl ?_ ?_
    · intro s_1
      intro x_1
      intro h
      with_reducible apply keeps_prfRelease
      exact h
    · exact h_s2

theorem keeps_prfAbort {s : State} (result : Nat) (hk : Keeps st0 s) :
    Keeps st0 (prfAbort s result) := by
  unfold prfAbort
  with_reducible apply keeps_prfAbortAt
  exact hk

theorem keeps_execPushBegin {s : State}  (hk : Keeps st0 s) :
    OutKeeps st0 (execPushBegin s) := by
  unfold execPushBegin
  refine outKeeps_next ?_
  split
  · rename_i x e
    exact hk
  · rename_i x k e
    extract_lets +onlyGivenNames nx
    clear_value nx
    split
    · rename_i x_1 e_1
      exact hk
    · rename_i x_1 r e_1
      with_reducible apply keeps_whenB
      · exact hk
      · intro s_1
        intro h
        with_reducible apply keeps_setPrf
        exact h

theorem keeps_lineWritten {s : State} (k : Compo) (r : Region2) (hk : Keeps st0 s) :
    Keeps st0 (lineWritten s k r).2 := by
  unfold lineWritten
  refine keeps_ite2 (fun _ => ?_) (fun _ => ?_)
  · exact hk
  · refine keeps_ite2 (fun _ => ?_) (fun _ => ?_)
    · exact hk
    · refine keeps_ite2 (fun _ => ?_) (fun _ => ?_)
      · exact hk
      · refine keeps_ite2 (fun _ => ?_) (fun _ => ?_)
        · exact hk
        · extract_lets +onlyGivenNames v
          have h_v : Keeps st0 v.2 := by
            unfold v
            with_reducible apply keeps_drawFree
            exact hk
          clear_value v
          exact h_v

theorem keeps_execPushLineReady {s : State}  (hk : Keeps st0 s) :
    OutKeeps st0 (execPushLineReady s) := by
  unfold execPushLineReady
  refine outKeeps_next ?_
  split
  · rename_i x e
    exact hk
  · rename_i x k e
    split
    · rename_i x_1 e_1
      exact hk
    · rename_i x_1 r e_1
      with_reducible apply keeps_whenB
      · exact hk
      · intro s_1
        intro h
        extract_lets +onlyGivenNames w
        have h_w : Keeps st0 w.2 := by
          unfold w
          with_reducible apply keeps_lineWritten
          exact h
        clear_value w
        refine keeps_ite (fun _ => ?_) (fun _ => ?_)
        · extract_lets +onlyGivenNames pix
          clear_value pix
          with_reducible apply keeps_setPrf
          exact h_w
        · with_reducible apply keeps_prfAbortAt
          exact h_w

theorem keeps_execPushEnd {s : State}  (hk : Keeps st0 s) :
    OutKeeps st0 (execPushEnd s) := by
  unfold execPushEnd
  refine outKeeps_next ?_
  split
  · rename_i x e
    exact hk
  · rename_i x k e
    with_reducible apply keeps_whenB
    · exact hk
    · intro s_1
      intro h
      with_reducible apply keeps_prfDone
      exact h

end Sys2Proof.Machine
end

