-- ==== Sys2Proof/Laws/KeepsUnits.lean ====
section
/-!
SUPPORT. What keeps the part, the time, the queue and the canonical form of memory (`Keeps`): Machine/Units.
-/

namespace Sys2Proof.Machine

variable {st0 : State}

theorem keeps_unitStateEv {s : State} (u : Nat) (now prev : Pw) (hk : Keeps st0 s) :
    Keeps st0 (unitStateEv s u now prev) := by
  unfold unitStateEv
  with_reducible apply keeps_post
  exact hk

theorem keeps_portDown {s : State} (p : Nat) (hk : Keeps st0 s) :
    Keeps st0 (portDown s p) := by
  unfold portDown
  refine keeps_ite (fun _ => ?_) (fun _ => ?_)
  · exact hk
  · extract_lets +onlyGivenNames s0
    have h_s0 : Keeps st0 s0 := by
      unfold s0
      with_reducible apply keeps_discardPort
      with_reducible apply keeps_movesLosePort
      exact hk
    clear_value s0
    extract_lets +onlyGivenNames s1
    have h_s1 : Keeps st0 s1 := by
      unfold s1
      with_reducible apply keeps_setF
      with_reducible apply keeps_setF
      exact h_s0
    clear_value s1
    with_reducible apply keeps_setPort
    exact h_s1

theorem keeps_drivesGone {s : State} (d reason : Nat) (hk : Keeps st0 s) :
    Keeps st0 (drivesGone s d reason) := by
  unfold drivesGone
  refine keeps_foldl ?_ ?_
  · intro s_1
    intro x
    intro h
    with_reducible apply keeps_driveGone
    exact h
  · exact hk

theorem keeps_onStarting {s : State} (u : Nat) (hk : Keeps st0 s) :
    Keeps st0 (onStarting s u) := by
  unfold onStarting
  extract_lets +onlyGivenNames d
  clear_value d
  extract_lets +onlyGivenNames i
  clear_value i
  split
  · rename_i x e
    with_reducible apply keeps_laneStart
    exact hk
  · rename_i x e
    with_reducible apply keeps_setPll
    exact hk
  · rename_i x e e_1
    exact hk

theorem keeps_onAwake {s : State} (u : Nat) (hk : Keeps st0 s) :
    Keeps st0 (onAwake s u) := by
  unfold onAwake
  extract_lets +onlyGivenNames d
  clear_value d
  extract_lets +onlyGivenNames i
  clear_value i
  split
  · rename_i x e
    with_reducible apply keeps_pwmStart
    exact hk
  · rename_i x e
    with_reducible apply keeps_setHka
    exact hk
  · rename_i x e
    refine keeps_upd ?_ ..
    exact hk
  · rename_i x e
    with_reducible apply keeps_wakeSeq
    exact hk
  · rename_i x e e_1 e_2 e_3
    exact hk

theorem keeps_streamSleep {s : State} (d i reason : Nat) (hk : Keeps st0 s) :
    Keeps st0 (streamSleep s d i reason) := by
  unfold streamSleep
  extract_lets +onlyGivenNames x
  clear_value x
  refine keeps_ite (fun _ => ?_) (fun _ => ?_)
  · with_reducible apply keeps_rollStop
    exact hk
  · refine keeps_ite (fun _ => ?_) (fun _ => ?_)
    · with_reducible apply keeps_disarm
      exact hk
    · exact hk

theorem keeps_onStopping {s : State} (u : Nat) (hk : Keeps st0 s) :
    Keeps st0 (onStopping s u) := by
  unfold onStopping
  extract_lets +onlyGivenNames d
  clear_value d
  extract_lets +onlyGivenNames i
  clear_value i
  split
  · rename_i x e
    with_reducible apply keeps_laneStop
    exact hk
  · rename_i x e
    with_reducible apply keeps_chainStop
    exact hk
  · rename_i x e
    with_reducible apply keeps_engSleep
    exact hk
  · rename_i x e
    with_reducible apply keeps_xferPause
    exact hk
  · rename_i x e
    with_reducible apply keeps_portDown
    exact hk
  · rename_i x e
    with_reducible apply keeps_driveGone
    exact hk
  · rename_i x e
    with_reducible apply keeps_pwmStop
    exact hk
  · rename_i x e
    with_reducible apply keeps_hkaStop
    exact hk
  · rename_i x e
    with_reducible apply keeps_biasOff
    exact hk
  · rename_i x e
    with_reducible apply keeps_streamSleep
    exact hk
  · rename_i x e e_1 e_2 e_3 e_4 e_5 e_6 e_7 e_8 e_9
    exact hk

theorem keeps_onAsleep {s : State} (u : Nat) (hk : Keeps st0 s) :
    Keeps st0 (onAsleep s u) := by
  unfold onAsleep
  refine keeps_ite (fun _ => ?_) (fun _ => ?_)
  · extract_lets +onlyGivenNames s1_src1 s1
    have h_s1 : Keeps st0 s1 := by
      unfold s1
      with_reducible apply keeps_setPll
      exact hk
    clear_value s1
    refine keeps_ite (fun _ => ?_) (fun _ => ?_)
    · with_reducible apply keeps_dllLoss
      exact h_s1
    · exact h_s1
  · exact hk

theorem keeps_waitDone1 {s : State} (u fid st fl : Nat) (hk : Keeps st0 s) :
    Keeps st0 (waitDone1 s u fid st fl) := by
  unfold waitDone1
  with_reducible apply keeps_unitDone
  exact hk

theorem keeps_waitersDone {s : State} (u : Nat) (wake : Bool) (st : Nat) (hk : Keeps st0 s) :
    Keeps st0 (waitersDone s u wake st) := by
  unfold waitersDone
  extract_lets +onlyGivenNames x
  clear_value x
  extract_lets +onlyGivenNames r
  clear_value r
  refine keeps_foldl ?_ ?_
  · intro s_1
    intro x_1
    intro h
    with_reducible apply keeps_waitDone1
    exact h
  · with_reducible apply keeps_setUnit
    exact hk

theorem keeps_addWait {s : State} (u : Nat) (wake : Bool) (fid : Option Nat) (flags : Nat) (ev : Bool) (hk : Keeps st0 s) :
    Keeps st0 (addWait s u wake fid flags ev) := by
  unfold addWait
  extract_lets +onlyGivenNames x
  clear_value x
  with_reducible apply keeps_setUnit
  exact hk

theorem keeps_stepTaken {s : State} (u : Nat) (wake : Bool) (hk : Keeps st0 s) :
    Keeps st0 (stepTaken s u wake) := by
  unfold stepTaken
  refine keeps_foldl ?_ ?_
  · intro s_1
    intro x
    intro h
    refine keeps_ite (fun _ => ?_) (fun _ => ?_)
    · with_reducible apply keeps_actedOn
      exact h
    · exact h
  · exact hk

theorem keeps_tryStop {s : State} (u : Nat) (hk : Keeps st0 s) :
    Keeps st0 (tryStop s u) := by
  unfold tryStop
  extract_lets +onlyGivenNames x
  clear_value x
  refine keeps_ite (fun _ => ?_) (fun _ => ?_)
  · with_reducible apply keeps_stepTaken
    with_reducible apply keeps_onStopping
    with_reducible apply keeps_setUnit
    exact hk
  · exact hk

theorem keeps_tryStart {s : State} (u : Nat) (hk : Keeps st0 s) :
    Keeps st0 (tryStart s u) := by
  unfold tryStart
  extract_lets +onlyGivenNames x
  clear_value x
  refine keeps_ite (fun _ => ?_) (fun _ => ?_)
  · with_reducible apply keeps_stepTaken
    with_reducible apply keeps_onStarting
    with_reducible apply keeps_setUnit
    exact hk
  · exact hk

theorem keeps_wokenBy {s : State} (u : Nat) (fid : Option Nat) (hk : Keeps st0 s) :
    Keeps st0 (wokenBy s u fid) := by
  unfold wokenBy
  refine keeps_ite (fun _ => ?_) (fun _ => ?_)
  · with_reducible apply keeps_setUnit
    exact hk
  · exact hk

theorem keeps_request {s : State} (n : Nat) (wake : Bool) (u : Nat) (fid : Option Nat) (ev : Bool) (hk : Keeps st0 s) :
    Keeps st0 (request n wake u fid ev s) := by
  induction n generalizing s wake u fid ev with
  | zero => exact hk
  | succ n ih =>
    have hfin : ∀ (t : State) (st fl : Nat), Keeps st0 t →
        Keeps st0 (match fid with | some f => waitDone1 t u f st fl | none => t) := by
      intro t st fl h
      split
      · exact keeps_waitDone1 _ _ _ _ h
      · exact h
    unfold request
    dsimp only
    refine keeps_ite (fun _ => hfin _ _ _ hk) (fun _ => ?_)
    split
    · refine keeps_tryStart _ ?_
      split
      · exact keeps_waitDone1 _ _ _ _ (keeps_setUnit _ _ hk)
      · exact keeps_setUnit _ _ hk
    · have h0 := keeps_wokenBy u fid hk
      refine keeps_ite (fun _ => ?_) (fun _ => ?_)
      · refine keeps_ite (fun _ => keeps_setUnit _ _ hk) (fun _ => ?_)
        refine keeps_ite (fun _ => hfin _ _ _ h0) (fun _ => ?_)
        refine keeps_ite (fun _ => keeps_addWait _ _ _ _ _ h0) (fun _ => ?_)
        refine keeps_ite (fun _ => hfin _ _ _ hk) (fun _ => ?_)
        exact keeps_tryStart _ (keeps_foldl (fun _ _ h => ih _ _ _ _ h) (keeps_setUnit _ _ (keeps_addWait _ _ _ _ _ h0)))
      · refine keeps_ite (fun _ => keeps_tryStart _ (keeps_setUnit _ _ hk)) (fun _ => ?_)
        refine keeps_ite (fun _ => hfin _ _ _ (keeps_setUnit _ _ hk)) (fun _ => ?_)
        refine keeps_ite (fun _ => keeps_addWait _ _ _ _ _ hk) (fun _ => ?_)
        exact keeps_tryStop _ (keeps_foldl (fun _ _ h => ih _ _ _ _ h) (keeps_setUnit _ _ (keeps_addWait _ _ _ _ _ hk)))

theorem keeps_sleepForDep {s : State} (u : Nat) (hk : Keeps st0 s) :
    Keeps st0 (sleepForDep s u) := by
  unfold sleepForDep
  with_reducible apply keeps_request
  exact hk

theorem keeps_runHeld {s0 : State} (u : Nat) (hk : Keeps st0 s0) :
    Keeps st0 (runHeld s0 u) := by
  unfold runHeld
  extract_lets +onlyGivenNames s_src1 s
  have h_s : Keeps st0 s := by
    unfold s
    with_reducible apply keeps_setUnit
    exact hk
  clear_value s
  extract_lets +onlyGivenNames x
  clear_value x
  split
  · rename_i x_1 e
    refine keeps_ite (fun _ => ?_) (fun _ => ?_)
    · with_reducible apply keeps_sleepForDep
      exact h_s
    · exact h_s
  · rename_i x_1 h e
    refine keeps_ite (fun _ => ?_) (fun _ => ?_)
    · extract_lets +onlyGivenNames s1
      have h_s1 : Keeps st0 s1 := by
        unfold s1
        with_reducible apply keeps_sleepForDep
        with_reducible apply keeps_setUnit
        exact h_s
      clear_value s1
      with_reducible apply keeps_setUnit
      exact h_s1
    · extract_lets +onlyGivenNames there
      clear_value there
      extract_lets +onlyGivenNames woken
      clear_value woken
      extract_lets +onlyGivenNames s1
      have h_s1 : Keeps st0 s1 := by
        unfold s1
        with_reducible apply keeps_setUnit
        exact h_s
      clear_value s1
      extract_lets +onlyGivenNames fin
      have h_fin : ∀ v0, Keeps st0 (fin v0) := by
        unfold fin
        intro v0
        split
        · rename_i e_1 x_2 e_2 e_3
          with_reducible apply keeps_waitDone1
          exact h_s1
        · rename_i e_1 x_2 e_2
          exact h_s1
      clear_value fin
      refine keeps_ite (fun _ => ?_) (fun _ => ?_)
      · refine h_fin _
      · extract_lets +onlyGivenNames s2
        have h_s2 : Keeps st0 s2 := by
          unfold s2
          with_reducible apply keeps_request
          exact h_s1
        clear_value s2
        extract_lets +onlyGivenNames y
        clear_value y
        with_reducible apply keeps_stepTaken
        with_reducible apply keeps_setUnit
        exact h_s2

theorem keeps_settleDeps {s : State} (u : Nat) (ev : Bool) (hk : Keeps st0 s) :
    Keeps st0 (settleDeps s u ev) := by
  unfold settleDeps
  refine keeps_foldl ?_ ?_
  · intro s_1
    intro x
    intro h
    extract_lets +onlyGivenNames s1
    have h_s1 : Keeps st0 s1 := by
      unfold s1
      with_reducible apply keeps_tryStop
      exact h
    clear_value s1
    extract_lets +onlyGivenNames x_1
    clear_value x_1
    refine keeps_ite (fun _ => ?_) (fun _ => ?_)
    · with_reducible apply keeps_request
      exact h_s1
    · exact h_s1
  · exact hk

theorem keeps_standbyCheck {s : State}  (hk : Keeps st0 s) :
    Keeps st0 (standbyCheck s) := by
  unfold standbyCheck
  extract_lets +onlyGivenNames x
  clear_value x
  refine keeps_ite (fun _ => ?_) (fun _ => ?_)
  · with_reducible apply keeps_waitersDone
    exact hk
  · exact hk

theorem keeps_reachAwake {s : State} (u : Nat) (hk : Keeps st0 s) :
    Keeps st0 (reachAwake s u) := by
  unfold reachAwake
  extract_lets +onlyGivenNames x
  clear_value x
  extract_lets +onlyGivenNames s1
  have h_s1 : Keeps st0 s1 := by
    unfold s1
    with_reducible apply keeps_setUnit
    exact hk
  clear_value s1
  extract_lets +onlyGivenNames s2
  have h_s2 : Keeps st0 s2 := by
    unfold s2
    refine keeps_ite (fun _ => ?_) (fun _ => ?_)
    · with_reducible apply keeps_unitStateEv
      exact h_s1
    · exact h_s1
  clear_value s2
  extract_lets +onlyGivenNames s3
  have h_s3 : Keeps st0 s3 := by
    unfold s3
    with_reducible apply keeps_waitersDone
    with_reducible apply keeps_onAwake
    exact h_s2
  clear_value s3
  extract_lets +onlyGivenNames s4
  have h_s4 : Keeps st0 s4 := by
    unfold s4
    refine keeps_foldl ?_ ?_
    · intro s_1
      intro x_1
      intro h
      with_reducible apply keeps_tryStart
      exact h
    · exact h_s3
  clear_value s4
  with_reducible apply keeps_runHeld
  exact h_s4

theorem keeps_wakeForDeps {s : State} (u : Nat) (hk : Keeps st0 s) :
    Keeps st0 (wakeForDeps s u) := by
  unfold wakeForDeps
  extract_lets +onlyGivenNames x
  clear_value x
  refine keeps_ite (fun _ => ?_) (fun _ => ?_)
  · split
    · rename_i e x_1 e_1 e_2
      with_reducible apply keeps_request
      exact hk
    · rename_i e x_1 e_1
      exact hk
  · exact hk

theorem keeps_reachAsleep {s : State} (u : Nat) (hk : Keeps st0 s) :
    Keeps st0 (reachAsleep s u) := by
  unfold reachAsleep
  extract_lets +onlyGivenNames x
  clear_value x
  extract_lets +onlyGivenNames s1
  have h_s1 : Keeps st0 s1 := by
    unfold s1
    with_reducible apply keeps_setUnit
    exact hk
  clear_value s1
  extract_lets +onlyGivenNames s2
  have h_s2 : Keeps st0 s2 := by
    unfold s2
    refine keeps_ite (fun _ => ?_) (fun _ => ?_)
    · with_reducible apply keeps_unitStateEv
      exact h_s1
    · exact h_s1
  clear_value s2
  extract_lets +onlyGivenNames s3
  have h_s3 : Keeps st0 s3 := by
    unfold s3
    with_reducible apply keeps_onAsleep
    exact h_s2
  clear_value s3
  extract_lets +onlyGivenNames s4
  have h_s4 : Keeps st0 s4 := by
    unfold s4
    refine keeps_ite (fun _ => ?_) (fun _ => ?_)
    · exact h_s3
    · with_reducible apply keeps_waitersDone
      exact h_s3
  clear_value s4
  with_reducible apply keeps_standbyCheck
  with_reducible apply keeps_wakeForDeps
  with_reducible apply keeps_runHeld
  with_reducible apply keeps_settleDeps
  exact h_s4

theorem keeps_abortStart {s : State} (n u : Nat) (hk : Keeps st0 s) : Keeps st0 (abortStart n u s) := by
  induction n generalizing s u with
  | zero => exact hk
  | succ n ih =>
    unfold abortStart
    dsimp only
    refine keeps_ite (fun _ => hk) (fun _ => ?_)
    refine keeps_runHeld _ (keeps_settleDeps _ _ (keeps_foldl (fun _ _ h => ih _ h) ?_))
    refine keeps_waitersDone _ _ _ (keeps_onAsleep _ (keeps_ite (fun _ => ?_) (fun _ => ?_)))
    · exact keeps_unitStateEv _ _ _ (keeps_setUnit _ _ hk)
    · exact keeps_setUnit _ _ hk

theorem keeps_faultUnitAt {s : State} (u cause t : Nat) (hk : Keeps st0 s) :
    Keeps st0 (faultUnitAt s u cause t) := by
  unfold faultUnitAt
  extract_lets +onlyGivenNames x
  clear_value x
  refine keeps_ite (fun _ => ?_) (fun _ => ?_)
  · exact hk
  · extract_lets +onlyGivenNames s1
    have h_s1 : Keeps st0 s1 := by
      unfold s1
      with_reducible apply keeps_setUnit
      exact hk
    clear_value s1
    extract_lets +onlyGivenNames s2
    have h_s2 : Keeps st0 s2 := by
      unfold s2
      with_reducible apply keeps_post
      exact h_s1
    clear_value s2
    extract_lets +onlyGivenNames s3
    have h_s3 : Keeps st0 s3 := by
      unfold s3
      with_reducible apply keeps_waitersDone
      with_reducible apply keeps_waitersDone
      exact h_s2
    clear_value s3
    extract_lets +onlyGivenNames s4
    have h_s4 : Keeps st0 s4 := by
      unfold s4
      split
      · rename_i e x_1 h e_1
        split
        · rename_i x_2 e_2 e_3
          with_reducible apply keeps_waitDone1
          exact h_s3
        · rename_i x_2 e_2
          exact h_s3
      · rename_i e x_1 e_1
        exact h_s3
    clear_value s4
    extract_lets +onlyGivenNames s5
    have h_s5 : Keeps st0 s5 := by
      unfold s5
      refine keeps_ite (fun _ => ?_) (fun _ => ?_)
      · with_reducible apply keeps_onStopping
        exact h_s4
      · exact h_s4
    clear_value s5
    extract_lets +onlyGivenNames s6
    have h_s6 : Keeps st0 s6 := by
      unfold s6
      refine keeps_foldl ?_ ?_
      · intro s_1
        intro x_1
        intro h
        with_reducible apply keeps_abortStart
        exact h
      · exact h_s5
    clear_value s6
    with_reducible apply keeps_standbyCheck
    with_reducible apply keeps_settleDeps
    exact h_s6

theorem keeps_faultUnit {s : State} (u cause : Nat) (hk : Keeps st0 s) :
    Keeps st0 (faultUnit s u cause) := by
  unfold faultUnit
  with_reducible apply keeps_faultUnitAt
  exact hk

theorem keeps_onUnit {s : State} (u : Nat) (b : Bool) (f : State → State) (hk : Keeps st0 s)
    (h_f : ∀ v0, Keeps st0 v0 → Keeps st0 (f v0)) :
    OutKeeps st0 (onUnit u s b f) := by
  unfold onUnit
  refine outKeeps_next ?_
  with_reducible apply keeps_whenB
  · exact hk
  · intro s_1
    intro h
    refine h_f _ ?_
    exact h

theorem keeps_execUnitStartComplete {s : State} (u : Nat) (hk : Keeps st0 s) :
    OutKeeps st0 (execUnitStartComplete u s) := by
  unfold execUnitStartComplete
  with_reducible apply keeps_onUnit
  · exact hk
  · intro v0
    intro h
    with_reducible apply keeps_reachAwake
    exact h

theorem keeps_execLaneAcquireEntry {s : State} (d n : Nat) (hk : Keeps st0 s) :
    OutKeeps st0 (execLaneAcquireEntry d n s) := by
  unfold execLaneAcquireEntry
  with_reducible apply keeps_onDie
  · exact hk
  · intro s_1
    intro h
    with_reducible apply keeps_whenB
    · exact h
    · intro s_2
      intro h_1
      with_reducible apply keeps_reachAwake
      with_reducible apply keeps_setLaneState
      exact h_1

theorem keeps_execStartLimitExpiry {s : State} (u : Nat) (hk : Keeps st0 s) :
    OutKeeps st0 (execStartLimitExpiry u s) := by
  unfold execStartLimitExpiry
  with_reducible apply keeps_onUnit
  · exact hk
  · intro v0
    intro h
    with_reducible apply keeps_faultUnitAt
    exact h

theorem keeps_execUnitStopComplete {s : State} (u : Nat) (hk : Keeps st0 s) :
    OutKeeps st0 (execUnitStopComplete u s) := by
  unfold execUnitStopComplete
  with_reducible apply keeps_onUnit
  · exact hk
  · intro v0
    intro h
    with_reducible apply keeps_reachAsleep
    exact h

theorem keeps_execPowerGateTimeout {s : State} (u : Nat) (hk : Keeps st0 s) :
    OutKeeps st0 (execPowerGateTimeout u s) := by
  unfold execPowerGateTimeout
  extract_lets +onlyGivenNames x
  clear_value x
  with_reducible apply keeps_onUnit
  · exact hk
  · intro v0
    intro h
    with_reducible apply keeps_setUnit
    exact h

theorem keeps_execDomainPowerUpDone {s : State} (u : Nat) (hk : Keeps st0 s) :
    OutKeeps st0 (execDomainPowerUpDone u s) := by
  unfold execDomainPowerUpDone
  with_reducible apply keeps_onUnit
  · exact hk
  · intro v0
    intro h
    with_reducible apply keeps_tryStart
    with_reducible apply keeps_setUnit
    exact h

theorem keeps_powerAsked {s0 s : State} (hk : Keeps st0 s) : Keeps st0 (powerAsked s0 s).1 := hk

theorem keeps_eff_unitWakeDef {s : State} {c : Cmd} {fid u : Nat} (hk : Keeps st0 s) :
    Keeps st0 ((unitWakeDef).eff c fid u s).1 := by
  dsimp -zeta only [unitWakeDef]
  refine keeps_ite1 (fun _ => ?_) (fun _ => ?_)
  · exact hk
  · refine keeps_mk1 ?_
    with_reducible apply keeps_request
    exact hk

theorem keeps_execUnitWake {s : State} (c : Cmd) (hk : Keeps st0 s) :
    OutKeeps st0 (execUnitWake c s) := by
  unfold execUnitWake
  with_reducible apply keeps_startCmd
  · intro c_1
    intro fid
    intro u
    intro s_1
    intro h
    refine keeps_eff_unitWakeDef ?_
    exact h
  · exact hk

theorem keeps_packageSleep {s : State} (fid : Nat) (ev : Bool) (hk : Keeps st0 s) :
    Keeps st0 (packageSleep s fid ev) := by
  unfold packageSleep
  extract_lets +onlyGivenNames keep
  clear_value keep
  extract_lets +onlyGivenNames us
  clear_value us
  extract_lets +onlyGivenNames s1
  have h_s1 : Keeps st0 s1 := by
    unfold s1
    refine keeps_foldl ?_ ?_
    · intro s_1
      intro x
      intro h
      refine keeps_ite (fun _ => ?_) (fun _ => ?_)
      · with_reducible apply keeps_request
        exact h
      · exact h
    · exact hk
  clear_value s1
  extract_lets +onlyGivenNames x
  clear_value x
  with_reducible apply keeps_standbyCheck
  with_reducible apply keeps_setUnit
  exact h_s1

theorem keeps_eff_unitSleepDef {s : State} {c : Cmd} {fid u : Nat} (hk : Keeps st0 s) :
    Keeps st0 ((unitSleepDef).eff c fid u s).1 := by
  dsimp -zeta only [unitSleepDef]
  refine keeps_ite1 (fun _ => ?_) (fun _ => ?_)
  · refine keeps_mk1 ?_
    with_reducible apply keeps_packageSleep
    exact hk
  · refine keeps_ite1 (fun _ => ?_) (fun _ => ?_)
    · exact hk
    · refine keeps_mk1 ?_
      with_reducible apply keeps_request
      exact hk

theorem keeps_execUnitSleep {s : State} (c : Cmd) (hk : Keeps st0 s) :
    OutKeeps st0 (execUnitSleep c s) := by
  unfold execUnitSleep
  with_reducible apply keeps_startCmd
  · intro c_1
    intro fid
    intro u
    intro s_1
    intro h
    refine keeps_eff_unitSleepDef ?_
    exact h
  · exact hk

theorem keeps_eff_unitClearFaultDef {s : State} {c : Cmd} {fid u : Nat} (hk : Keeps st0 s) :
    Keeps st0 ((unitClearFaultDef).eff c fid u s).1 := by
  dsimp -zeta only [unitClearFaultDef]
  refine keeps_ite1 (fun _ => ?_) (fun _ => ?_)
  · exact hk
  · refine keeps_ite1 (fun _ => ?_) (fun _ => ?_)
    · exact hk
    · refine keeps_mk1 ?_
      with_reducible apply keeps_unitStateEv
      with_reducible apply keeps_onAsleep
      with_reducible apply keeps_setUnit
      exact hk

theorem keeps_execUnitClearFault {s : State} (c : Cmd) (hk : Keeps st0 s) :
    OutKeeps st0 (execUnitClearFault c s) := by
  unfold execUnitClearFault
  with_reducible apply keeps_startCmd
  · intro c_1
    intro fid
    intro u
    intro s_1
    intro h
    dsimp -zeta only [unitClearFaultDef]
    refine keeps_ite1 (fun _ => ?_) (fun _ => ?_)
    · exact h
    · refine keeps_ite1 (fun _ => ?_) (fun _ => ?_)
      · exact h
      · refine keeps_mk1 ?_
        with_reducible apply keeps_unitStateEv
        with_reducible apply keeps_onAsleep
        with_reducible apply keeps_setUnit
        exact h
  · exact hk

theorem keeps_eff_unitEnumerateDef {s : State} {c : Cmd} {fid u : Nat} (hk : Keeps st0 s) :
    Keeps st0 ((unitEnumerateDef).eff c fid u s).1 := by
  dsimp -zeta only [unitEnumerateDef]
  extract_lets +onlyGivenNames ids
  clear_value ids
  extract_lets +onlyGivenNames n
  clear_value n
  extract_lets +onlyGivenNames es
  clear_value es
  extract_lets +onlyGivenNames next
  clear_value next
  refine keeps_mk1 ?_
  with_reducible apply keeps_hostWrite
  exact hk

theorem keeps_execUnitEnumerate {s : State} (c : Cmd) (hk : Keeps st0 s) :
    OutKeeps st0 (execUnitEnumerate c s) := by
  unfold execUnitEnumerate
  with_reducible apply keeps_startCmd
  · intro c_1
    intro fid
    intro u
    intro s_1
    intro h
    dsimp -zeta only [unitEnumerateDef]
    extract_lets +onlyGivenNames ids
    clear_value ids
    extract_lets +onlyGivenNames n
    clear_value n
    extract_lets +onlyGivenNames es
    clear_value es
    extract_lets +onlyGivenNames next
    clear_value next
    refine keeps_mk1 ?_
    with_reducible apply keeps_hostWrite
    exact h
  · exact hk

theorem keeps_eff_unitQueryDef {s : State} {c : Cmd} {fid u : Nat} (hk : Keeps st0 s) :
    Keeps st0 ((unitQueryDef).eff c fid u s).1 := by
  dsimp -zeta only [unitQueryDef]
  exact hk

theorem keeps_execUnitQuery {s : State} (c : Cmd) (hk : Keeps st0 s) :
    OutKeeps st0 (execUnitQuery c s) := by
  unfold execUnitQuery
  with_reducible apply keeps_startCmd
  · intro c_1
    intro fid
    intro u
    intro s_1
    intro h
    dsimp -zeta only [unitQueryDef]
    exact h
  · exact hk

theorem keeps_eff_groupCreateDef {s : State} {c : Cmd} {fid u : Nat} (hk : Keeps st0 s) :
    Keeps st0 ((groupCreateDef).eff c fid u s).1 := by
  dsimp -zeta only [groupCreateDef]
  extract_lets +onlyGivenNames g
  clear_value g
  refine keeps_ite1 (fun _ => ?_) (fun _ => ?_)
  · exact hk
  · refine keeps_ite1 (fun _ => ?_) (fun _ => ?_)
    · exact hk
    · refine keeps_mk1 ?_
      with_reducible apply keeps_treeChange
      with_reducible apply keeps_setGroup
      exact hk

theorem keeps_execGroupCreate {s : State} (c : Cmd) (hk : Keeps st0 s) :
    OutKeeps st0 (execGroupCreate c s) := by
  unfold execGroupCreate
  with_reducible apply keeps_startCmd
  · intro c_1
    intro fid
    intro u
    intro s_1
    intro h
    dsimp -zeta only [groupCreateDef]
    extract_lets +onlyGivenNames g
    clear_value g
    refine keeps_ite1 (fun _ => ?_) (fun _ => ?_)
    · exact h
    · refine keeps_ite1 (fun _ => ?_) (fun _ => ?_)
      · exact h
      · refine keeps_mk1 ?_
        with_reducible apply keeps_treeChange
        with_reducible apply keeps_setGroup
        exact h
  · exact hk

theorem keeps_eff_groupAddDef {s : State} {c : Cmd} {fid u : Nat} (hk : Keeps st0 s) :
    Keeps st0 ((groupAddDef).eff c fid u s).1 := by
  dsimp -zeta only [groupAddDef]
  extract_lets +onlyGivenNames m
  clear_value m
  split
  · rename_i x e
    exact hk
  · rename_i x g e
    refine keeps_ite1 (fun _ => ?_) (fun _ => ?_)
    · exact hk
    · refine keeps_ite1 (fun _ => ?_) (fun _ => ?_)
      · exact hk
      · refine keeps_ite1 (fun _ => ?_) (fun _ => ?_)
        · exact hk
        · refine keeps_ite1 (fun _ => ?_) (fun _ => ?_)
          · exact hk
          · extract_lets +onlyGivenNames k
            clear_value k
            refine keeps_mk1 ?_
            with_reducible apply keeps_treeChange
            with_reducible apply keeps_setGroup
            exact hk

theorem keeps_execGroupAdd {s : State} (c : Cmd) (hk : Keeps st0 s) :
    OutKeeps st0 (execGroupAdd c s) := by
  unfold execGroupAdd
  with_reducible apply keeps_startCmd
  · intro c_1
    intro fid
    intro u
    intro s_1
    intro h
    dsimp -zeta only [groupAddDef]
    extract_lets +onlyGivenNames m
    clear_value m
    split
    · rename_i x e
      exact h
    · rename_i x g e
      refine keeps_ite1 (fun _ => ?_) (fun _ => ?_)
      · exact h
      · refine keeps_ite1 (fun _ => ?_) (fun _ => ?_)
        · exact h
        · refine keeps_ite1 (fun _ => ?_) (fun _ => ?_)
          · exact h
          · refine keeps_ite1 (fun _ => ?_) (fun _ => ?_)
            · exact h
            · extract_lets +onlyGivenNames k
              clear_value k
              refine keeps_mk1 ?_
              with_reducible apply keeps_treeChange
              with_reducible apply keeps_setGroup
              exact h
  · exact hk

theorem keeps_eff_groupRemoveDef {s : State} {c : Cmd} {fid u : Nat} (hk : Keeps st0 s) :
    Keeps st0 ((groupRemoveDef).eff c fid u s).1 := by
  dsimp -zeta only [groupRemoveDef]
  extract_lets +onlyGivenNames m
  clear_value m
  split
  · rename_i x e
    exact hk
  · rename_i x g e
    refine keeps_ite1 (fun _ => ?_) (fun _ => ?_)
    · exact hk
    · refine keeps_mk1 ?_
      with_reducible apply keeps_treeChange
      with_reducible apply keeps_setGroup
      exact hk

theorem keeps_execGroupRemove {s : State} (c : Cmd) (hk : Keeps st0 s) :
    OutKeeps st0 (execGroupRemove c s) := by
  unfold execGroupRemove
  with_reducible apply keeps_startCmd
  · intro c_1
    intro fid
    intro u
    intro s_1
    intro h
    dsimp -zeta only [groupRemoveDef]
    extract_lets +onlyGivenNames m
    clear_value m
    split
    · rename_i x e
      exact h
    · rename_i x g e
      refine keeps_ite1 (fun _ => ?_) (fun _ => ?_)
      · exact h
      · refine keeps_mk1 ?_
        with_reducible apply keeps_treeChange
        with_reducible apply keeps_setGroup
        exact h
  · exact hk

theorem keeps_eff_groupDeleteDef {s : State} {c : Cmd} {fid u : Nat} (hk : Keeps st0 s) :
    Keeps st0 ((groupDeleteDef).eff c fid u s).1 := by
  dsimp -zeta only [groupDeleteDef]
  extract_lets +onlyGivenNames used
  clear_value used
  refine keeps_ite1 (fun _ => ?_) (fun _ => ?_)
  · exact hk
  · refine keeps_mk1 ?_
    with_reducible apply keeps_treeChange
    with_reducible apply keeps_setGroup
    with_reducible apply keeps_leaveGroups
    exact hk

theorem keeps_execGroupDelete {s : State} (c : Cmd) (hk : Keeps st0 s) :
    OutKeeps st0 (execGroupDelete c s) := by
  unfold execGroupDelete
  with_reducible apply keeps_startCmd
  · intro c_1
    intro fid
    intro u
    intro s_1
    intro h
    dsimp -zeta only [groupDeleteDef]
    extract_lets +onlyGivenNames used
    clear_value used
    refine keeps_ite1 (fun _ => ?_) (fun _ => ?_)
    · exact h
    · refine keeps_mk1 ?_
      with_reducible apply keeps_treeChange
      with_reducible apply keeps_setGroup
      with_reducible apply keeps_leaveGroups
      exact h
  · exact hk

theorem keeps_eff_groupListDef {s : State} {c : Cmd} {fid u : Nat} (hk : Keeps st0 s) :
    Keeps st0 ((groupListDef).eff c fid u s).1 := by
  dsimp -zeta only [groupListDef]
  extract_lets +onlyGivenNames l
  clear_value l
  extract_lets +onlyGivenNames w
  clear_value w
  refine keeps_mk1 ?_
  with_reducible apply keeps_hostWrite
  exact hk

theorem keeps_execGroupList {s : State} (c : Cmd) (hk : Keeps st0 s) :
    OutKeeps st0 (execGroupList c s) := by
  unfold execGroupList
  with_reducible apply keeps_startCmd
  · intro c_1
    intro fid
    intro u
    intro s_1
    intro h
    dsimp -zeta only [groupListDef]
    extract_lets +onlyGivenNames l
    clear_value l
    extract_lets +onlyGivenNames w
    clear_value w
    refine keeps_mk1 ?_
    with_reducible apply keeps_hostWrite
    exact h
  · exact hk

end Sys2Proof.Machine
end

