-- ==== Sys2Proof/Laws/KeepsPower.lean ====
section
/-!
SUPPORT. What keeps the part, the time, the queue and the canonical form of memory (`Keeps`): Machine/Power.
-/

namespace Sys2Proof.Machine

variable {st0 : State}

theorem keeps_dropHbm_wf {m : List Host.Cell} (d : Nat) (h : memWf m = true) : memWf (dropHbm m d) = true := by
  unfold dropHbm
  exact filter_wf _ h

theorem keeps_dropDie {s4 : State} (h : Keeps st0 s4) (d : Nat) : Keeps st0 { setTdc s4 d { tdcOf s4 d with arm := none } with
      mem := dropHbm s4.mem d, pwr := { s4.pwr with swaps := s4.pwr.swaps.filter fun w => w.die ≠ d } } :=
  ⟨h.part, h.now, h.pending, fun w => keeps_dropHbm_wf d (h.mem w)⟩

theorem keeps_setDiePwr {s : State} (d : Nat) (x : DiePwr) (hk : Keeps st0 s) :
    Keeps st0 (setDiePwr s d x) := by
  unfold setDiePwr
  refine keeps_upd ?_ ..
  exact hk

theorem keeps_setRail {s : State} (d r : Nat) (x : Rail) (hk : Keeps st0 s) :
    Keeps st0 (setRail s d r x) := by
  unfold setRail
  with_reducible apply keeps_setDiePwr
  exact hk

theorem keeps_safeEvent {s : State} (d kind ph : Nat) (hk : Keeps st0 s) :
    Keeps st0 (safeEvent s d kind ph) := by
  unfold safeEvent
  with_reducible apply keeps_post
  exact hk

theorem keeps_safeStops {s : State} (d : Nat) (hk : Keeps st0 s) :
    Keeps st0 (safeStops s d) := by
  unfold safeStops
  extract_lets +onlyGivenNames s1
  have h_s1 : Keeps st0 s1 := by
    unfold s1
    refine keeps_foldl ?_ ?_
    · intro s_1
      intro x
      intro h
      with_reducible apply keeps_chainStop
      exact h
    · exact hk
  clear_value s1
  extract_lets +onlyGivenNames s2
  have h_s2 : Keeps st0 s2 := by
    unfold s2
    refine keeps_foldl ?_ ?_
    · intro s_1
      intro x
      intro h
      refine keeps_ite (fun _ => ?_) (fun _ => ?_)
      · with_reducible apply keeps_disarm
        exact h
      · exact h
    · exact h_s1
  clear_value s2
  extract_lets +onlyGivenNames s3
  have h_s3 : Keeps st0 s3 := by
    unfold s3
    with_reducible apply keeps_engSafelight
    exact h_s2
  clear_value s3
  extract_lets +onlyGivenNames s4
  have h_s4 : Keeps st0 s4 := by
    unfold s4
    refine keeps_foldl ?_ ?_
    · intro s_1
      intro x
      intro h
      with_reducible apply keeps_xferPause
      exact h
    · exact h_s3
  clear_value s4
  refine keeps_ite (fun _ => ?_) (fun _ => ?_)
  · with_reducible apply keeps_prfAbort
    exact h_s4
  · exact h_s4

theorem keeps_enterSafeAt {s : State} (d bit ph : Nat) (hk : Keeps st0 s) :
    Keeps st0 (enterSafeAt s d bit ph) := by
  unfold enterSafeAt
  extract_lets +onlyGivenNames c
  clear_value c
  extract_lets +onlyGivenNames c1
  clear_value c1
  extract_lets +onlyGivenNames s1
  have h_s1 : Keeps st0 s1 := by
    unfold s1
    with_reducible apply keeps_setF
    exact hk
  clear_value s1
  extract_lets +onlyGivenNames s2
  have h_s2 : Keeps st0 s2 := by
    unfold s2
    with_reducible apply keeps_setFlag
    exact h_s1
  clear_value s2
  refine keeps_ite (fun _ => ?_) (fun _ => ?_)
  · exact h_s1
  · with_reducible apply keeps_safeStops
    with_reducible apply keeps_safeEvent
    with_reducible apply keeps_setDiePwr
    exact h_s2

theorem keeps_enterSafe {s : State} (d bit : Nat) (hk : Keeps st0 s) :
    Keeps st0 (enterSafe s d bit) := by
  unfold enterSafe
  with_reducible apply keeps_enterSafeAt
  exact hk

theorem keeps_clearCauseAt {s : State} (d bit ph : Nat) (hk : Keeps st0 s) :
    Keeps st0 (clearCauseAt s d bit ph) := by
  unfold clearCauseAt
  extract_lets +onlyGivenNames c
  clear_value c
  refine keeps_ite (fun _ => ?_) (fun _ => ?_)
  · exact hk
  · extract_lets +onlyGivenNames s1
    have h_s1 : Keeps st0 s1 := by
      unfold s1
      with_reducible apply keeps_setF
      exact hk
    clear_value s1
    refine keeps_ite (fun _ => ?_) (fun _ => ?_)
    · with_reducible apply keeps_safeEvent
      exact h_s1
    · exact h_s1

theorem keeps_clearCause {s : State} (d bit : Nat) (hk : Keeps st0 s) :
    Keeps st0 (clearCause s d bit) := by
  unfold clearCause
  with_reducible apply keeps_clearCauseAt
  exact hk

theorem keeps_exitSafe {s : State} (d : Nat) (hk : Keeps st0 s) :
    Keeps st0 (exitSafe s d) := by
  unfold exitSafe
  refine keeps_ite (fun _ => ?_) (fun _ => ?_)
  · exact hk
  · with_reducible apply keeps_safeEvent
    with_reducible apply keeps_setFlag
    with_reducible apply keeps_setF
    exact hk

theorem keeps_eff_safelightEnterDef {s : State} {c : Cmd} {fid u : Nat} (hk : Keeps st0 s) :
    Keeps st0 ((safelightEnterDef).eff c fid u s).1 := by
  dsimp -zeta only [safelightEnterDef]
  refine keeps_foldl ?_ ?_
  · intro s_1
    intro x
    intro h
    with_reducible apply keeps_enterSafe
    exact h
  · exact hk

theorem keeps_execSafelightEnter {s : State} (c : Cmd) (hk : Keeps st0 s) :
    OutKeeps st0 (execSafelightEnter c s) := by
  unfold execSafelightEnter
  with_reducible apply keeps_startCmd
  · intro c_1
    intro fid
    intro u
    intro s_1
    intro h
    dsimp -zeta only [safelightEnterDef]
    refine keeps_foldl ?_ ?_
    · intro s_2
      intro x
      intro h_1
      with_reducible apply keeps_enterSafe
      exact h_1
    · exact h
  · exact hk

theorem keeps_eff_safelightExitDef {s : State} {c : Cmd} {fid u : Nat} (hk : Keeps st0 s) :
    Keeps st0 ((safelightExitDef).eff c fid u s).1 := by
  dsimp -zeta only [safelightExitDef]
  extract_lets +onlyGivenNames ds
  clear_value ds
  refine keeps_ite1 (fun _ => ?_) (fun _ => ?_)
  · exact hk
  · refine keeps_mk1 ?_
    refine keeps_foldl ?_ ?_
    · intro s_1
      intro x_1
      intro h
      with_reducible apply keeps_exitSafe
      exact h
    · exact hk

theorem keeps_execSafelightExit {s : State} (c : Cmd) (hk : Keeps st0 s) :
    OutKeeps st0 (execSafelightExit c s) := by
  unfold execSafelightExit
  with_reducible apply keeps_startCmd
  · intro c_1
    intro fid
    intro u
    intro s_1
    intro h
    dsimp -zeta only [safelightExitDef]
    extract_lets +onlyGivenNames ds
    clear_value ds
    refine keeps_ite1 (fun _ => ?_) (fun _ => ?_)
    · exact h
    · refine keeps_mk1 ?_
      refine keeps_foldl ?_ ?_
      · intro s_2
        intro x_1
        intro h_1
        with_reducible apply keeps_exitSafe
        exact h_1
      · exact h
  · exact hk

theorem keeps_fenceStream {s : State} (d : Nat) (i : Nat) (hk : Keeps st0 s) :
    Keeps st0 (fenceStream d s i) := by
  unfold fenceStream
  extract_lets +onlyGivenNames x
  clear_value x
  refine keeps_ite (fun _ => ?_) (fun _ => ?_)
  · exact hk
  · extract_lets +onlyGivenNames s1
    have h_s1 : Keeps st0 s1 := by
      unfold s1
      refine keeps_ite (fun _ => ?_) (fun _ => ?_)
      · with_reducible apply keeps_post
        exact hk
      · exact hk
    clear_value s1
    with_reducible apply keeps_setStream
    exact h_s1

theorem keeps_abortDie {s : State} (d : Nat) (hk : Keeps st0 s) :
    Keeps st0 (abortDie s d) := by
  unfold abortDie
  refine keeps_foldl ?_ ?_
  · intro s_1
    intro x
    intro h
    refine keeps_foldl ?_ ?_
    · intro s_2
      intro x_1
      intro h_1
      with_reducible apply keeps_unitDone
      exact h_1
    · exact h
  · exact hk

theorem keeps_fencePort {s : State} (d : Nat) (hk : Keeps st0 s) :
    Keeps st0 (fencePort s d) := by
  unfold fencePort
  extract_lets +onlyGivenNames s1
  have h_s1 : Keeps st0 s1 := by
    unfold s1
    with_reducible apply keeps_drivesGone
    exact hk
  clear_value s1
  extract_lets +onlyGivenNames s2
  have h_s2 : Keeps st0 s2 := by
    unfold s2
    refine keeps_ite (fun _ => ?_) (fun _ => ?_)
    · with_reducible apply keeps_detachPartner
      exact h_s1
    · exact h_s1
  clear_value s2
  with_reducible apply keeps_portDown
  exact h_s2

theorem keeps_setBootState {s : State} (st err : Nat) (hk : Keeps st0 s) :
    Keeps st0 (setBootState s st err) := by
  unfold setBootState
  with_reducible apply keeps_setF
  with_reducible apply keeps_setF
  exact hk

theorem keeps_startFailed {s : State}  (hk : Keeps st0 s) :
    Keeps st0 (startFailed s) := by
  unfold startFailed
  with_reducible apply keeps_setUnit
  with_reducible apply keeps_setBootState
  exact hk

theorem keeps_toBootWindow {s : State} (p : Nat) (hk : Keeps st0 s) :
    Keeps st0 (toBootWindow s p) := by
  unfold toBootWindow
  refine keeps_ite (fun _ => ?_) (fun _ => ?_)
  · with_reducible apply keeps_setF
    with_reducible apply keeps_setFlag
    with_reducible apply keeps_setFlag
    with_reducible apply keeps_movesLosePort
    exact hk
  · exact hk

theorem keeps_packageFailed {s : State}  (hk : Keeps st0 s) :
    Keeps st0 (packageFailed s) := by
  unfold packageFailed
  extract_lets +onlyGivenNames s1
  have h_s1 : Keeps st0 s1 := by
    unfold s1
    refine keeps_foldl ?_ ?_
    · intro s_1
      intro x
      intro h
      with_reducible apply keeps_toBootWindow
      exact h
    · with_reducible apply keeps_startFailed
      exact hk
  clear_value s1
  refine keeps_upd ?_ ..
  exact h_s1

theorem keeps_thermalTaken {s : State} (d : Nat) (hk : Keeps st0 s) :
    Keeps st0 (thermalTaken s d) := by
  unfold thermalTaken
  extract_lets +onlyGivenNames x
  clear_value x
  extract_lets +onlyGivenNames last
  clear_value last
  refine keeps_foldl ?_ ?_
  · intro s_1
    intro x_1
    intro h
    refine keeps_ite (fun _ => ?_) (fun _ => ?_)
    · with_reducible apply keeps_unitDone
      exact h
    · exact h
  · with_reducible apply keeps_setDiePwr
    exact hk

theorem keeps_fence {s : State} (d : Nat) (hk : Keeps st0 s) : Keeps st0 (fence s d) := by
  unfold fence
  refine keeps_ite (fun _ => hk) (fun _ => ?_)
  extract_lets +onlyGivenNames s0 s1
  have h0 : Keeps st0 s0 := keeps_ite (fun _ => keeps_lossEvent _ _ _ hk) (fun _ => hk)
  clear_value s0
  have h1 : Keeps st0 s1 :=
    keeps_fencePort _ (keeps_foldl (fun _ _ h => keeps_fenceStream _ _ h) (keeps_movesLoseDie _ h0))
  clear_value s1
  extract_lets +onlyGivenNames s2
  have h2 : Keeps st0 s2 := keeps_foldl (fun _ _ h => keeps_setEng _ _ _ h) h1
  clear_value s2
  extract_lets +onlyGivenNames s3
  have h3 : Keeps st0 s3 := keeps_foldl (fun _ _ h => keeps_setSvc _ _ _ h) h2
  clear_value s3
  extract_lets +onlyGivenNames s4
  have h4 : Keeps st0 s4 := keeps_foldl (fun _ _ h => keeps_setXfer _ _ _ h) h3
  clear_value s4
  extract_lets +onlyGivenNames a b c s5
  have h5 : Keeps st0 s5 := keeps_dropDie h4 d
  clear_value s5
  extract_lets +onlyGivenNames us g s6
  have h6 : Keeps st0 s6 := keeps_loseCands _ (keeps_setDieClk _ _ h5)
  clear_value s6
  extract_lets +onlyGivenNames s7
  have h7 : Keeps st0 s7 := keeps_foldl (fun _ _ h => keeps_faultUnit _ _ h) h6
  clear_value s7
  extract_lets +onlyGivenNames s8
  have h8 : Keeps st0 s8 := keeps_thermalTaken _ (keeps_abortDie _ h7)
  clear_value s8
  exact keeps_ite (fun _ => keeps_packageFailed h8) (fun _ => keeps_foldl (fun _ _ h => keeps_enterSafe _ _ h) h8)

theorem keeps_thermalEvent {s : State} (d kind ph : Nat) (hk : Keeps st0 s) :
    Keeps st0 (thermalEvent s d kind ph) := by
  unfold thermalEvent
  with_reducible apply keeps_post
  exact hk

theorem keeps_setThrottle {s : State} (d level ph : Nat) (hk : Keeps st0 s) :
    Keeps st0 (setThrottle s d level ph) := by
  unfold setThrottle
  extract_lets +onlyGivenNames s1
  have h_s1 : Keeps st0 s1 := by
    unfold s1
    refine keeps_foldl ?_ ?_
    · intro s_1
      intro x
      intro h
      extract_lets +onlyGivenNames x_1
      clear_value x_1
      with_reducible apply keeps_setEng
      exact h
    · exact hk
  clear_value s1
  with_reducible apply keeps_thermalEvent
  with_reducible apply keeps_setF
  exact h_s1

theorem keeps_thermalApply {s : State} (d : Nat) (hk : Keeps st0 s) :
    Keeps st0 (thermalApply s d) := by
  unfold thermalApply
  split
  · rename_i x e
    exact hk
  · rename_i x w t e
    with_reducible apply keeps_thermalTaken
    with_reducible apply keeps_setF
    with_reducible apply keeps_setF
    exact hk

theorem keeps_tempStore {s : State} (d : Nat) (t : Int) (hk : Keeps st0 s) :
    Keeps st0 (tempStore s d t) := by
  unfold tempStore
  extract_lets +onlyGivenNames x
  clear_value x
  extract_lets +onlyGivenNames v
  clear_value v
  extract_lets +onlyGivenNames s1
  have h_s1 : Keeps st0 s1 := by
    unfold s1
    with_reducible apply keeps_setF
    exact hk
  clear_value s1
  extract_lets +onlyGivenNames s2
  have h_s2 : Keeps st0 s2 := by
    unfold s2
    refine keeps_ite (fun _ => ?_) (fun _ => ?_)
    · with_reducible apply keeps_setF
      exact h_s1
    · exact h_s1
  clear_value s2
  with_reducible apply keeps_setDiePwr
  exact h_s2

theorem keeps_tempWarn {s : State} (d : Nat) (t : Int) (hk : Keeps st0 s) :
    Keeps st0 (tempWarn s d t) := by
  unfold tempWarn
  extract_lets +onlyGivenNames x
  clear_value x
  extract_lets +onlyGivenNames w
  clear_value w
  refine keeps_ite (fun _ => ?_) (fun _ => ?_)
  · with_reducible apply keeps_thermalEvent
    with_reducible apply keeps_setDiePwr
    exact hk
  · refine keeps_ite (fun _ => ?_) (fun _ => ?_)
    · with_reducible apply keeps_thermalEvent
      with_reducible apply keeps_setDiePwr
      exact hk
    · exact hk

theorem keeps_tempThrottle {s : State} (d : Nat) (t : Int) (hk : Keeps st0 s) :
    Keeps st0 (tempThrottle s d t) := by
  unfold tempThrottle
  extract_lets +onlyGivenNames x
  clear_value x
  extract_lets +onlyGivenNames th
  clear_value th
  extract_lets +onlyGivenNames hot
  clear_value hot
  extract_lets +onlyGivenNames cool
  clear_value cool
  extract_lets +onlyGivenNames first
  clear_value first
  extract_lets +onlyGivenNames s1
  have h_s1 : Keeps st0 s1 := by
    unfold s1
    with_reducible apply keeps_setDiePwr
    exact hk
  clear_value s1
  refine keeps_ite (fun _ => ?_) (fun _ => ?_)
  · with_reducible apply keeps_setThrottle
    exact h_s1
  · exact h_s1

theorem keeps_tempSafe {s : State} (d : Nat) (t : Int) (hk : Keeps st0 s) :
    Keeps st0 (tempSafe s d t) := by
  unfold tempSafe
  refine keeps_ite (fun _ => ?_) (fun _ => ?_)
  · with_reducible apply keeps_enterSafe
    with_reducible apply keeps_thermalEvent
    exact hk
  · refine keeps_ite (fun _ => ?_) (fun _ => ?_)
    · with_reducible apply keeps_clearCause
      exact hk
    · exact hk

theorem keeps_execTempSample {s : State} (d : Nat) (t : Int) (hk : Keeps st0 s) :
    OutKeeps st0 (execTempSample d t s) := by
  unfold execTempSample
  with_reducible apply keeps_onDie
  · exact hk
  · intro s_1
    intro h
    extract_lets +onlyGivenNames x
    clear_value x
    with_reducible apply keeps_whenB
    · exact h
    · intro s_2
      intro h_1
      with_reducible apply keeps_tempSafe
      with_reducible apply keeps_tempThrottle
      with_reducible apply keeps_tempWarn
      with_reducible apply keeps_tempStore
      with_reducible apply keeps_thermalApply
      exact h_1

theorem keeps_execThrottleTimer {s : State} (d : Nat) (hk : Keeps st0 s) :
    OutKeeps st0 (execThrottleTimer d s) := by
  unfold execThrottleTimer
  with_reducible apply keeps_onDie
  · exact hk
  · intro s_1
    intro h
    extract_lets +onlyGivenNames x
    clear_value x
    extract_lets +onlyGivenNames l
    clear_value l
    split
    · rename_i x_1 x_2 h_1 e
      with_reducible apply keeps_whenB
      · exact h
      · intro s_2
        intro h_2
        with_reducible apply keeps_setThrottle
        with_reducible apply keeps_setDiePwr
        exact h_2
    · rename_i x_1 x_2 c e e_1
      with_reducible apply keeps_whenB
      · exact h
      · intro s_2
        intro h_1
        with_reducible apply keeps_setThrottle
        with_reducible apply keeps_setDiePwr
        exact h_1
    · rename_i x_1 x_2 e e_1
      exact h

theorem keeps_eff_thermalConfigureDef {s : State} {c : Cmd} {fid u : Nat} (hk : Keeps st0 s) :
    Keeps st0 ((thermalConfigureDef).eff c fid u s).1 := by
  dsimp -zeta only [thermalConfigureDef]
  extract_lets +onlyGivenNames ds
  clear_value ds
  refine keeps_mk1 ?_
  refine keeps_foldl ?_ ?_
  · intro s_1
    intro x
    intro h
    with_reducible apply keeps_setDiePwr
    exact h
  · exact hk

theorem keeps_execThermalConfigure {s : State} (c : Cmd) (hk : Keeps st0 s) :
    OutKeeps st0 (execThermalConfigure c s) := by
  unfold execThermalConfigure
  with_reducible apply keeps_startCmd
  · intro c_1
    intro fid
    intro u
    intro s_1
    intro h
    dsimp -zeta only [thermalConfigureDef]
    extract_lets +onlyGivenNames ds
    clear_value ds
    refine keeps_mk1 ?_
    refine keeps_foldl ?_ ?_
    · intro s_2
      intro x
      intro h_1
      with_reducible apply keeps_setDiePwr
      exact h_1
    · exact h
  · exact hk

theorem keeps_supplyEvent {s : State} (d r kind ph : Nat) (fencing : Bool) (hk : Keeps st0 s) :
    Keeps st0 (supplyEvent s d r kind ph fencing) := by
  unfold supplyEvent
  with_reducible apply keeps_post
  exact hk

theorem keeps_execRailLeavesWindow {s : State} (d rail mv : Nat) (above deep : Bool) (hk : Keeps st0 s) :
    OutKeeps st0 (execRailLeavesWindow d rail mv above deep s) := by
  unfold execRailLeavesWindow
  with_reducible apply keeps_onDie
  · exact hk
  · intro s_1
    intro h
    with_reducible apply keeps_whenB
    · exact h
    · intro s_2
      intro h_1
      extract_lets +onlyGivenNames x
      clear_value x
      extract_lets +onlyGivenNames s1
      have h_s1 : Keeps st0 s1 := by
        unfold s1
        with_reducible apply keeps_setRail
        exact h_1
      clear_value s1
      extract_lets +onlyGivenNames s2
      have h_s2 : Keeps st0 s2 := by
        unfold s2
        with_reducible apply keeps_setF
        exact h_s1
      clear_value s2
      with_reducible apply keeps_setDiePwr
      exact h_s2

theorem keeps_execRailReturnsToWindow {s : State} (d rail mv : Nat) (hk : Keeps st0 s) :
    OutKeeps st0 (execRailReturnsToWindow d rail mv s) := by
  unfold execRailReturnsToWindow
  with_reducible apply keeps_onDie
  · exact hk
  · intro s_1
    intro h
    with_reducible apply keeps_whenB
    · exact h
    · intro s_2
      intro h_1
      extract_lets +onlyGivenNames now
      clear_value now
      extract_lets +onlyGivenNames s1_src1 s1
      have h_s1 : Keeps st0 s1 := by
        unfold s1
        with_reducible apply keeps_setRail
        exact h_1
      clear_value s1
      extract_lets +onlyGivenNames s2
      have h_s2 : Keeps st0 s2 := by
        unfold s2
        with_reducible apply keeps_setF
        exact h_s1
      clear_value s2
      with_reducible apply keeps_setDiePwr
      exact h_s2

theorem keeps_execSupplyFaultDetect {s : State} (d rail : Nat) (hk : Keeps st0 s) :
    OutKeeps st0 (execSupplyFaultDetect d rail s) := by
  unfold execSupplyFaultDetect
  with_reducible apply keeps_onDie
  · exact hk
  · intro s_1
    intro h
    extract_lets +onlyGivenNames x
    clear_value x
    with_reducible apply keeps_whenB
    · exact h
    · intro s_2
      intro h_1
      extract_lets +onlyGivenNames ph
      clear_value ph
      extract_lets +onlyGivenNames s1
      have h_s1 : Keeps st0 s1 := by
        unfold s1
        with_reducible apply keeps_setRail
        exact h_1
      clear_value s1
      extract_lets +onlyGivenNames s2
      have h_s2 : Keeps st0 s2 := by
        unfold s2
        with_reducible apply keeps_setF
        exact h_s1
      clear_value s2
      extract_lets +onlyGivenNames s3
      have h_s3 : Keeps st0 s3 := by
        unfold s3
        with_reducible apply keeps_supplyEvent
        exact h_s2
      clear_value s3
      extract_lets +onlyGivenNames s4
      have h_s4 : Keeps st0 s4 := by
        unfold s4
        refine keeps_ite (fun _ => ?_) (fun _ => ?_)
        · with_reducible apply keeps_biasHighZ
          with_reducible apply keeps_biasHighZ
          exact h_s3
        · exact h_s3
      clear_value s4
      with_reducible apply keeps_enterSafeAt
      exact h_s4

theorem keeps_execSupplyReturnTimeout {s : State} (d : Nat) (hk : Keeps st0 s) :
    OutKeeps st0 (execSupplyReturnTimeout d s) := by
  unfold execSupplyReturnTimeout
  with_reducible apply keeps_onDie
  · exact hk
  · intro s_1
    intro h
    extract_lets +onlyGivenNames x
    clear_value x
    split
    · rename_i x_1 e
      exact h
    · rename_i x_1 t e
      with_reducible apply keeps_whenB
      · exact h
      · intro s_2
        intro h_1
        with_reducible apply keeps_clearCauseAt
        with_reducible apply keeps_supplyEvent
        with_reducible apply keeps_setDiePwr
        exact h_1

theorem keeps_execSupplyFenceTimeout {s : State} (d rail : Nat) (hk : Keeps st0 s) :
    OutKeeps st0 (execSupplyFenceTimeout d rail s) := by
  unfold execSupplyFenceTimeout
  with_reducible apply keeps_onDie
  · exact hk
  · intro s_1
    intro h
    extract_lets +onlyGivenNames x
    clear_value x
    with_reducible apply keeps_whenB
    · exact h
    · intro s_2
      intro h_1
      extract_lets +onlyGivenNames s1
      have h_s1 : Keeps st0 s1 := by
        unfold s1
        refine keeps_ite (fun _ => ?_) (fun _ => ?_)
        · with_reducible apply keeps_biasHighZ
          with_reducible apply keeps_biasHighZ
          exact h_1
        · exact h_1
      clear_value s1
      with_reducible apply keeps_fence
      with_reducible apply keeps_supplyEvent
      exact h_s1

theorem keeps_execVddCoreRequest {s : State} (d : Nat) (up : Bool) (hk : Keeps st0 s) :
    OutKeeps st0 (execVddCoreRequest d up s) := by
  unfold execVddCoreRequest
  with_reducible apply keeps_onDie
  · exact hk
  · intro s_1
    intro h
    extract_lets +onlyGivenNames x
    clear_value x
    extract_lets +onlyGivenNames mv
    clear_value mv
    extract_lets +onlyGivenNames v
    clear_value v
    with_reducible apply keeps_whenB
    · exact h
    · intro s_2
      intro h_1
      with_reducible apply keeps_setF
      with_reducible apply keeps_setDiePwr
      exact h_1

end Sys2Proof.Machine
end

