-- ==== Sys2Proof/Laws/KeepsRepair.lean ====
section
/-!
SUPPORT. What keeps the part, the time, the queue and the canonical form of memory (`Keeps`): Machine/Repair.
-/

namespace Sys2Proof.Machine

variable {st0 : State}

theorem keeps_retireTo_ {s : State} (e : RepEnt) (hk : Keeps st0 s) :
    Keeps st0 (retireTo_ s e) := by
  unfold retireTo_
  refine keeps_upd ?_ ..
  exact hk

theorem keeps_repairDone {s : State} (w : Swap) (old : Nat) (lost pending : Bool) (hk : Keeps st0 s) :
    Keeps st0 (repairDone s w old lost pending) := by
  unfold repairDone
  extract_lets +onlyGivenNames e
  clear_value e
  extract_lets +onlyGivenNames s1_src1 s1
  have h_s1 : Keeps st0 s1 := by
    unfold s1
    with_reducible apply keeps_retireTo_
    refine keeps_upd ?_ ..
    exact hk
  clear_value s1
  extract_lets +onlyGivenNames t
  clear_value t
  extract_lets +onlyGivenNames s2
  have h_s2 : Keeps st0 s2 := by
    unfold s2
    with_reducible apply keeps_post
    exact h_s1
  clear_value s2
  split
  · rename_i x f e_1
    with_reducible apply keeps_unitDone
    exact h_s2
  · rename_i x e_1
    exact h_s2

theorem keeps_swapBegin {s : State} (w : Swap) (hk : Keeps st0 s) :
    Keeps st0 (swapBegin s w) := by
  unfold swapBegin
  extract_lets +onlyGivenNames s1_src1 s1
  have h_s1 : Keeps st0 s1 := by
    unfold s1
    refine keeps_upd ?_ ..
    exact hk
  clear_value s1
  refine keeps_ite (fun _ => ?_) (fun _ => ?_)
  · with_reducible apply keeps_repairDone
    exact h_s1
  · exact h_s1

theorem keeps_tapDue {s : State} (w : Swap) (hk : Keeps st0 s) :
    Keeps st0 (tapDue s w) := by
  unfold tapDue
  refine keeps_ite (fun _ => ?_) (fun _ => ?_)
  · extract_lets +onlyGivenNames t
    clear_value t
    with_reducible apply keeps_repairDone
    with_reducible apply keeps_setTdc
    exact hk
  · exact hk

theorem keeps_tapsDue {s : State}  (hk : Keeps st0 s) :
    Keeps st0 (tapsDue s) := by
  unfold tapsDue
  refine keeps_foldl ?_ ?_
  · intro s_1
    intro x
    intro h
    with_reducible apply keeps_tapDue
    exact h
  · exact hk

theorem keeps_engSwapBegin {s : State} (d e spare fid : Nat) (hk : Keeps st0 s) :
    Keeps st0 (engSwapBegin s d e spare fid) := by
  unfold engSwapBegin
  extract_lets +onlyGivenNames x
  clear_value x
  extract_lets +onlyGivenNames point
  clear_value point
  with_reducible apply keeps_setEng
  exact hk

theorem keeps_eff_repairApplyDef {s : State} {c : Cmd} {fid u : Nat} (hk : Keeps st0 s) :
    Keeps st0 ((repairApplyDef).eff c fid u s).1 := by
  dsimp -zeta only [repairApplyDef]
  extract_lets +onlyGivenNames d
  clear_value d
  extract_lets +onlyGivenNames k
  clear_value k
  extract_lets +onlyGivenNames t
  clear_value t
  refine keeps_ite1 (fun _ => ?_) (fun _ => ?_)
  · exact hk
  · refine keeps_ite1 (fun _ => ?_) (fun _ => ?_)
    · exact hk
    · split
      · rename_i e e_1 x e_2
        exact hk
      · rename_i e e_1 x n e_2
        refine keeps_ite1 (fun _ => ?_) (fun _ => ?_)
        · exact hk
        · refine keeps_ite1 (fun _ => ?_) (fun _ => ?_)
          · refine keeps_mk1 ?_
            with_reducible apply keeps_engSwapBegin
            exact hk
          · refine keeps_mk1 ?_
            with_reducible apply keeps_tapsDue
            with_reducible apply keeps_swapBegin
            exact hk

theorem keeps_execRepairApply {s : State} (c : Cmd) (hk : Keeps st0 s) :
    OutKeeps st0 (execRepairApply c s) := by
  unfold execRepairApply
  with_reducible apply keeps_startCmd
  · intro c_1
    intro fid
    intro u
    intro s_1
    intro h
    dsimp -zeta only [repairApplyDef]
    extract_lets +onlyGivenNames d
    clear_value d
    extract_lets +onlyGivenNames k
    clear_value k
    extract_lets +onlyGivenNames t
    clear_value t
    refine keeps_ite1 (fun _ => ?_) (fun _ => ?_)
    · exact h
    · refine keeps_ite1 (fun _ => ?_) (fun _ => ?_)
      · exact h
      · split
        · rename_i e e_1 x e_2
          exact h
        · rename_i e e_1 x n e_2
          refine keeps_ite1 (fun _ => ?_) (fun _ => ?_)
          · exact h
          · refine keeps_ite1 (fun _ => ?_) (fun _ => ?_)
            · refine keeps_mk1 ?_
              with_reducible apply keeps_engSwapBegin
              exact h
            · refine keeps_mk1 ?_
              with_reducible apply keeps_tapsDue
              with_reducible apply keeps_swapBegin
              exact h
  · exact hk

theorem keeps_execSwapComplete {s : State} (d e : Nat) (ecc : Option Nat) (hk : Keeps st0 s) :
    OutKeeps st0 (execSwapComplete d e ecc s) := by
  unfold execSwapComplete
  with_reducible apply keeps_onDie
  · exact hk
  · intro s_1
    intro h
    extract_lets +onlyGivenNames x
    clear_value x
    split
    · rename_i x_1 e_1
      exact h
    · rename_i x_1 w e_1
      with_reducible apply keeps_whenB
      · exact h
      · intro s_2
        intro h_1
        extract_lets +onlyGivenNames t
        clear_value t
        extract_lets +onlyGivenNames bad
        clear_value bad
        extract_lets +onlyGivenNames s1
        have h_s1 : Keeps st0 s1 := by
          unfold s1
          with_reducible apply keeps_setEng
          exact h_1
        clear_value s1
        extract_lets +onlyGivenNames s2_src1 s2
        have h_s2 : Keeps st0 s2 := by
          unfold s2
          refine keeps_upd ?_ ..
          exact h_s1
        clear_value s2
        extract_lets +onlyGivenNames s3_src1 s3
        have h_s3 : Keeps st0 s3 := by
          unfold s3
          with_reducible apply keeps_setUnit
          exact h_s2
        clear_value s3
        extract_lets +onlyGivenNames s4
        have h_s4 : Keeps st0 s4 := by
          unfold s4
          with_reducible apply keeps_post
          exact h_s3
        clear_value s4
        extract_lets +onlyGivenNames r
        clear_value r
        extract_lets +onlyGivenNames ent
        clear_value ent
        extract_lets +onlyGivenNames s5
        have h_s5 : Keeps st0 s5 := by
          unfold s5
          with_reducible apply keeps_repairDone
          exact h_s4
        clear_value s5
        extract_lets +onlyGivenNames s6
        have h_s6 : Keeps st0 s6 := by
          unfold s6
          with_reducible apply keeps_unitDone
          with_reducible apply keeps_unitDone
          exact h_s5
        clear_value s6
        extract_lets +onlyGivenNames y
        clear_value y
        extract_lets +onlyGivenNames s7
        have h_s7 : Keeps st0 s7 := by
          unfold s7
          refine keeps_ite (fun _ => ?_) (fun _ => ?_)
          · exact h_s6
          · with_reducible apply keeps_unitsDone
            with_reducible apply keeps_setEng
            exact h_s6
        clear_value s7
        extract_lets +onlyGivenNames s8
        have h_s8 : Keeps st0 s8 := by
          unfold s8
          split
          · rename_i o b e_2
            with_reducible apply keeps_svcCheck
            exact h_s7
          · rename_i o e_2
            exact h_s7
        clear_value s8
        split
        · rename_i o b
          with_reducible apply keeps_engTrap
          exact h_s8
        · rename_i o
          exact h_s8

theorem keeps_execHbmCopyDone {s : State} (d : Nat) (lost : Bool) (hk : Keeps st0 s) :
    OutKeeps st0 (execHbmCopyDone d lost s) := by
  unfold execHbmCopyDone
  with_reducible apply keeps_onDie
  · exact hk
  · intro s_1
    intro h
    split
    · rename_i x w e
      with_reducible apply keeps_repairDone
      exact h
    · rename_i x e
      exact h

theorem keeps_execUflLaneRetrainDone {s : State} (d p : Nat) (hk : Keeps st0 s) :
    OutKeeps st0 (execUflLaneRetrainDone d p s) := by
  unfold execUflLaneRetrainDone
  with_reducible apply keeps_onDie
  · exact hk
  · intro s_1
    intro h
    split
    · rename_i x w e
      with_reducible apply keeps_repairDone
      exact h
    · rename_i x e
      exact h

theorem keeps_raiseHealth {s : State} (h : Health) (hk : Keeps st0 s) :
    Keeps st0 (raiseHealth s h) := by
  unfold raiseHealth
  extract_lets +onlyGivenNames prev
  clear_value prev
  refine keeps_ite (fun _ => ?_) (fun _ => ?_)
  · exact hk
  · extract_lets +onlyGivenNames l
    clear_value l
    with_reducible apply keeps_post
    refine keeps_upd ?_ ..
    exact hk

theorem keeps_outOfService {s : State} (d kind target : Nat) (hk : Keeps st0 s) :
    Keeps st0 (outOfService s d kind target) := by
  unfold outOfService
  split
  · rename_i kind
    extract_lets +onlyGivenNames s1_src1 s1
    have h_s1 : Keeps st0 s1 := by
      unfold s1
      refine keeps_upd ?_ ..
      exact hk
    clear_value s1
    with_reducible apply keeps_faultUnit
    exact h_s1
  · rename_i kind
    with_reducible apply keeps_faultUnit
    exact hk
  · rename_i kind_1 e e_1
    with_reducible apply keeps_fence
    exact hk

theorem keeps_uflLost {s : State} (d target : Nat) (hk : Keeps st0 s) :
    Keeps st0 (uflLost s d target) := by
  unfold uflLost
  refine keeps_ite (fun _ => ?_) (fun _ => ?_)
  · exact hk
  · split
    · rename_i e x k e_1
      with_reducible apply keeps_swapBegin
      exact hk
    · rename_i e x e_1
      with_reducible apply keeps_fence
      exact hk

theorem keeps_failed_ {s : State} (d kind target : Nat) (hk : Keeps st0 s) :
    Keeps st0 (failed_ s d kind target) := by
  unfold failed_
  refine keeps_ite (fun _ => ?_) (fun _ => ?_)
  · with_reducible apply keeps_uflLost
    exact hk
  · refine keeps_ite (fun _ => ?_) (fun _ => ?_)
    · with_reducible apply keeps_outOfService
      exact hk
    · exact hk

theorem keeps_healthSample {s : State} (d kind target monitor value : Nat) (failed : Bool) (hk : Keeps st0 s) :
    Keeps st0 (healthSample s d kind target monitor value failed) := by
  unfold healthSample
  extract_lets +onlyGivenNames th
  clear_value th
  extract_lets +onlyGivenNames fails
  clear_value fails
  extract_lets +onlyGivenNames level
  clear_value level
  extract_lets +onlyGivenNames s1
  have h_s1 : Keeps st0 s1 := by
    unfold s1
    with_reducible apply keeps_raiseHealth
    exact hk
  clear_value s1
  refine keeps_ite (fun _ => ?_) (fun _ => ?_)
  · with_reducible apply keeps_failed_
    exact h_s1
  · exact h_s1

theorem keeps_execHealthCheck {s : State} (d kind target monitor value : Nat) (failed : Bool) (hk : Keeps st0 s) :
    OutKeeps st0 (execHealthCheck d kind target monitor value failed s) := by
  unfold execHealthCheck
  with_reducible apply keeps_onDie
  · exact hk
  · intro s_1
    intro h
    with_reducible apply keeps_whenB
    · exact h
    · intro s_2
      intro h_1
      with_reducible apply keeps_healthSample
      exact h_1

theorem keeps_execHbmScrubPass {s : State} (d : Nat) (errs : List (Nat × Nat × Bool)) (hk : Keeps st0 s) :
    OutKeeps st0 (execHbmScrubPass d errs s) := by
  unfold execHbmScrubPass
  with_reducible apply keeps_onDie
  · exact hk
  · intro s_1
    intro h
    with_reducible apply keeps_whenB
    · exact h
    · intro s_2
      intro h_1
      refine keeps_foldl ?_ ?_
      · intro s_3
        intro x
        intro h_2
        with_reducible apply keeps_healthSample
        exact h_2
      · with_reducible apply keeps_setDiePwr
        exact h_1

theorem keeps_execUflLaneFail {s : State} (d p lane : Nat) (hk : Keeps st0 s) :
    OutKeeps st0 (execUflLaneFail d p lane s) := by
  unfold execUflLaneFail
  with_reducible apply keeps_onDie
  · exact hk
  · intro s_1
    intro h
    with_reducible apply keeps_whenB
    · exact h
    · intro s_2
      intro h_1
      extract_lets +onlyGivenNames t
      clear_value t
      with_reducible apply keeps_uflLost
      with_reducible apply keeps_raiseHealth
      exact h_1

theorem keeps_execFlitCrcError {s : State} (d p : Nat) (hk : Keeps st0 s) :
    OutKeeps st0 (execFlitCrcError d p s) := by
  unfold execFlitCrcError
  with_reducible apply keeps_onDie
  · exact hk
  · intro s_1
    intro h
    with_reducible apply keeps_whenB
    · exact h
    · intro s_2
      intro h_1
      with_reducible apply keeps_incF
      exact h_1

theorem keeps_execSramScrub {s : State} (d e corrected : Nat) (bad : List (Bool × Nat)) (hk : Keeps st0 s) :
    OutKeeps st0 (execSramScrub d e corrected bad s) := by
  unfold execSramScrub
  with_reducible apply keeps_onDie
  · exact hk
  · intro s_1
    intro h
    with_reducible apply keeps_whenB
    · exact h
    · intro s_2
      intro h_1
      extract_lets +onlyGivenNames s1
      have h_s1 : Keeps st0 s1 := by
        unfold s1
        with_reducible apply keeps_addF
        with_reducible apply keeps_addF
        exact h_1
      clear_value s1
      extract_lets +onlyGivenNames x
      clear_value x
      extract_lets +onlyGivenNames s2
      have h_s2 : Keeps st0 s2 := by
        unfold s2
        with_reducible apply keeps_setEng
        exact h_s1
      clear_value s2
      with_reducible apply keeps_healthSample
      exact h_s2

theorem keeps_readOut {s : State} (c : Cmd) (data : List Byte) (entries : Nat) (hk : Keeps st0 s) :
    Keeps st0 (readOut c data entries s).1 := by
  unfold readOut
  refine keeps_ite1 (fun _ => ?_) (fun _ => ?_)
  · exact hk
  · refine keeps_mk1 ?_
    with_reducible apply keeps_hostWrite
    exact hk

theorem keeps_eff_repairReadDef {s : State} {c : Cmd} {fid u : Nat} (hk : Keeps st0 s) :
    Keeps st0 ((repairReadDef).eff c fid u s).1 := by
  dsimp -zeta only [repairReadDef]
  with_reducible apply keeps_readOut
  exact hk

theorem keeps_execRepairRead {s : State} (c : Cmd) (hk : Keeps st0 s) :
    OutKeeps st0 (execRepairRead c s) := by
  unfold execRepairRead
  with_reducible apply keeps_startCmd
  · intro c_1
    intro fid
    intro u
    intro s_1
    intro h
    dsimp -zeta only [repairReadDef]
    with_reducible apply keeps_readOut
    exact h
  · exact hk

theorem keeps_healthList {s : State} (least : Nat) (l : List (Nat × Nat × Nat)) (hk : Keeps st0 s) :
    Keeps st0 (healthList s least l).2 := by
  induction l generalizing s with
  | nil => exact hk
  | cons x r ih =>
    obtain ⟨d, k, t⟩ := x
    unfold healthList
    dsimp only
    split
    · exact ih hk
    · split
      · exact ih (keeps_drawFree hk)
      · exact ih hk

theorem keeps_eff_healthReadDef {s : State} {c : Cmd} {fid u : Nat} (hk : Keeps st0 s) :
    Keeps st0 ((healthReadDef).eff c fid u s).1 := by
  dsimp -zeta only [healthReadDef]
  extract_lets +onlyGivenNames rs
  clear_value rs
  extract_lets +onlyGivenNames x
  have h_x : Keeps st0 x.2 := by
    unfold x
    with_reducible apply keeps_healthList
    exact hk
  clear_value x
  with_reducible apply keeps_readOut
  exact h_x

theorem keeps_execHealthRead {s : State} (c : Cmd) (hk : Keeps st0 s) :
    OutKeeps st0 (execHealthRead c s) := by
  unfold execHealthRead
  with_reducible apply keeps_startCmd
  · intro c_1
    intro fid
    intro u
    intro s_1
    intro h
    dsimp -zeta only [healthReadDef]
    extract_lets +onlyGivenNames rs
    clear_value rs
    extract_lets +onlyGivenNames x
    have h_x : Keeps st0 x.2 := by
      unfold x
      with_reducible apply keeps_healthList
      exact h
    clear_value x
    with_reducible apply keeps_readOut
    exact h_x
  · exact hk

end Sys2Proof.Machine
end

