-- ==== Sys2Proof/Laws/KeepsBoot.lean ====
section
/-!
SUPPORT. What keeps the part, the time, the queue and the canonical form of memory (`Keeps`): Machine/Boot.
-/

namespace Sys2Proof.Machine

variable {st0 : State}

theorem keeps_railsCheck {s : State}  (hk : Keeps st0 s) :
    Keeps st0 (railsCheck s) := by
  unfold railsCheck
  refine keeps_foldl ?_ ?_
  · intro s_1
    intro x
    intro h
    with_reducible apply keeps_setDiePwr
    exact h
  · exact hk

theorem keeps_keepRails {t : State} (s : State) (d : Nat) (hk : Keeps st0 t) : Keeps st0 (keepRails s t d) :=
  keeps_setF _ _ _ (keeps_setDiePwr _ _ hk)

theorem keeps_wipe {s : State} (hk : Keeps st0 s) : Keeps st0 (wipe s) := by
  unfold wipe
  dsimp only
  refine keeps_foldl (fun _ _ h => keeps_keepRails _ _ h) ?_
  refine keeps_foldl (fun _ _ h => keeps_foldl (fun _ _ h => keeps_setProbe _ _ _ h) h) ?_
  refine keeps_foldl (fun _ _ h => keeps_foldl (fun _ _ h => keeps_setLane _ _ _ h) h) ?_
  refine keeps_setReg _ _ _ ?_
  exact keeps_updMem hk (filter_wf _) ..

theorem keeps_execResetNAssert {s : State}  (hk : Keeps st0 s) :
    OutKeeps st0 (execResetNAssert s) := by
  unfold execResetNAssert
  extract_lets +onlyGivenNames s1
  have h_s1 : Keeps st0 s1 := by
    unfold s1
    with_reducible apply keeps_wipe
    exact hk
  clear_value s1
  refine outKeeps_next ?_
  refine keeps_upd ?_ ..
  exact h_s1

theorem keeps_execResetNRelease {s : State} (straps : Nat) (hot : Bool) (hk : Keeps st0 s) :
    OutKeeps st0 (execResetNRelease straps hot s) := by
  unfold execResetNRelease
  refine outKeeps_next ?_
  with_reducible apply keeps_whenB
  · exact hk
  · intro s_1
    intro h
    extract_lets +onlyGivenNames s1_src1 s1
    have h_s1 : Keeps st0 s1 := by
      unfold s1
      refine keeps_upd ?_ ..
      exact h
    clear_value s1
    refine keeps_foldl ?_ ?_
    · intro s_2
      intro x
      intro h_1
      with_reducible apply keeps_setPort
      exact h_1
    · with_reducible apply keeps_railsCheck
      exact h_s1

theorem keeps_execThermalShutdown {s : State} (d : Nat) (hk : Keeps st0 s) :
    OutKeeps st0 (execThermalShutdown d s) := by
  unfold execThermalShutdown
  with_reducible apply keeps_onDie
  · exact hk
  · intro s_1
    intro h
    with_reducible apply keeps_whenB
    · exact h
    · intro s_2
      intro h_1
      extract_lets +onlyGivenNames s1
      have h_s1 : Keeps st0 s1 := by
        unfold s1
        with_reducible apply keeps_wipe
        exact h_1
      clear_value s1
      extract_lets +onlyGivenNames s2
      have h_s2 : Keeps st0 s2 := by
        unfold s2
        with_reducible apply keeps_setFlag
        with_reducible apply keeps_setFlag
        with_reducible apply keeps_setF
        exact h_s1
      clear_value s2
      refine keeps_upd ?_ ..
      exact h_s2

theorem keeps_aonReset {s : State} (d : Nat) (hk : Keeps st0 s) :
    Keeps st0 (aonReset s d) := by
  unfold aonReset
  extract_lets +onlyGivenNames s1
  have h_s1 : Keeps st0 s1 := by
    unfold s1
    refine keeps_foldl ?_ ?_
    · intro s_1
      intro x
      intro h
      with_reducible apply keeps_setReg
      exact h
    · exact hk
  clear_value s1
  extract_lets +onlyGivenNames s2_src1 s2
  have h_s2 : Keeps st0 s2 := by
    unfold s2
    with_reducible apply keeps_setCfg
    exact h_s1
  clear_value s2
  with_reducible apply keeps_keepRails
  with_reducible apply keeps_setDieClk
  with_reducible apply keeps_setDiePwr
  exact h_s2

theorem keeps_execVddAonFault {s : State} (d : Nat) (hk : Keeps st0 s) :
    OutKeeps st0 (execVddAonFault d s) := by
  unfold execVddAonFault
  with_reducible apply keeps_onDie
  · exact hk
  · intro s_1
    intro h
    refine keeps_ite (fun _ => ?_) (fun _ => ?_)
    · extract_lets +onlyGivenNames s1
      have h_s1 : Keeps st0 s1 := by
        unfold s1
        with_reducible apply keeps_railsCheck
        with_reducible apply keeps_wipe
        exact h
      clear_value s1
      refine keeps_upd ?_ ..
      exact h_s1
    · with_reducible apply keeps_aonReset
      exact h

theorem keeps_execRailCheckTimeout {s : State} (d : Nat) (hk : Keeps st0 s) :
    OutKeeps st0 (execRailCheckTimeout d s) := by
  unfold execRailCheckTimeout
  with_reducible apply keeps_onDie
  · exact hk
  · intro s_1
    intro h
    with_reducible apply keeps_whenB
    · exact h
    · intro s_2
      intro h_1
      refine keeps_ite (fun _ => ?_) (fun _ => ?_)
      · with_reducible apply keeps_startFailed
        exact h_1
      · with_reducible apply keeps_setDieClk
        exact h_1

theorem keeps_execCrsEnd {s : State} (port : Nat) (hk : Keeps st0 s) :
    OutKeeps st0 (execCrsEnd port s) := by
  unfold execCrsEnd
  with_reducible apply keeps_onDie
  · exact hk
  · intro s_1
    intro h
    with_reducible apply keeps_whenB
    · exact h
    · intro s_2
      intro h_1
      with_reducible apply keeps_setPort
      exact h_1

theorem keeps_bootGo {s : State} (port : Nat) (hk : Keeps st0 s) :
    Keeps st0 (bootGo s port) := by
  unfold bootGo
  with_reducible apply keeps_whenB
  · exact hk
  · intro s_1
    intro h
    with_reducible apply keeps_setF
    with_reducible apply keeps_setBootState
    exact h

theorem keeps_goWrite {s : State} (port be : Nat) (v : W32) (hk : Keeps st0 s) :
    Keeps st0 (goWrite port be v s) := by
  unfold goWrite
  refine keeps_ite (fun _ => ?_) (fun _ => ?_)
  · exact hk
  · refine keeps_ite (fun _ => ?_) (fun _ => ?_)
    · with_reducible apply keeps_badWrite
      exact hk
    · refine keeps_ite (fun _ => ?_) (fun _ => ?_)
      · with_reducible apply keeps_bootGo
        exact hk
      · exact hk

theorem keeps_execGo {s : State} (port be : Nat) (v : W32) (hk : Keeps st0 s) :
    OutKeeps st0 (execGo port be v s) := by
  unfold execGo
  with_reducible apply keeps_onPort
  · exact hk
  · intro v0
    intro h
    with_reducible apply keeps_goWrite
    exact h

theorem keeps_bootFailed {s : State} (err : Nat) (hk : Keeps st0 s) :
    Keeps st0 (bootFailed s err) := by
  unfold bootFailed
  extract_lets +onlyGivenNames n
  clear_value n
  extract_lets +onlyGivenNames p
  clear_value p
  extract_lets +onlyGivenNames s1
  have h_s1 : Keeps st0 s1 := by
    unfold s1
    with_reducible apply keeps_setF
    with_reducible apply keeps_setBootState
    exact hk
  clear_value s1
  refine keeps_upd ?_ ..
  exact h_s1

theorem keeps_bootPassed {s : State}  (hk : Keeps st0 s) :
    Keeps st0 (bootPassed s) := by
  unfold bootPassed
  extract_lets +onlyGivenNames s1
  have h_s1 : Keeps st0 s1 := by
    unfold s1
    with_reducible apply keeps_addMeasure
    with_reducible apply keeps_setBootState
    exact hk
  clear_value s1
  extract_lets +onlyGivenNames s2
  have h_s2 : Keeps st0 s2 := by
    unfold s2
    with_reducible apply keeps_setF
    exact h_s1
  clear_value s2
  extract_lets +onlyGivenNames prim
  clear_value prim
  refine keeps_foldl ?_ ?_
  · intro s_1
    intro x
    intro h
    extract_lets +onlyGivenNames s1_1_src1 s1_1
    have h_s1_1 : Keeps st0 s1_1 := by
      unfold s1_1
      refine keeps_ite (fun _ => ?_) (fun _ => ?_)
      · with_reducible apply keeps_setPort
        exact h
      · with_reducible apply keeps_setF
        exact h
    clear_value s1_1
    extract_lets +onlyGivenNames u
    clear_value u
    with_reducible apply keeps_setPll
    with_reducible apply keeps_setUnit
    exact h_s1_1
  · exact h_s2

theorem keeps_execBootVerifyDone {s : State}  (hk : Keeps st0 s) :
    OutKeeps st0 (execBootVerifyDone s) := by
  unfold execBootVerifyDone
  refine outKeeps_next ?_
  with_reducible apply keeps_whenB
  · exact hk
  · intro s_1
    intro h
    split
    · rename_i x e e_1
      with_reducible apply keeps_bootFailed
      exact h
    · rename_i x e
      with_reducible apply keeps_bootPassed
      exact h

theorem keeps_ownerHashWrite {s : State} (port n be : Nat) (v : W32) (hk : Keeps st0 s) :
    Keeps st0 (ownerHashWrite s port n be v) := by
  unfold ownerHashWrite
  extract_lets +onlyGivenNames o
  clear_value o
  extract_lets +onlyGivenNames k
  clear_value k
  refine keeps_ite (fun _ => ?_) (fun _ => ?_)
  · exact hk
  · refine keeps_ite (fun _ => ?_) (fun _ => ?_)
    · with_reducible apply keeps_lockViol
      exact hk
    · extract_lets +onlyGivenNames old
      clear_value old
      extract_lets +onlyGivenNames s1
      have h_s1 : Keeps st0 s1 := by
        unfold s1
        with_reducible apply keeps_suspendCheck
        with_reducible apply keeps_setReg
        exact hk
      clear_value s1
      with_reducible apply keeps_setFlag
      refine keeps_upd ?_ ..
      exact h_s1

theorem keeps_execSecOwnerHashWrite {s : State} (port n be : Nat) (v : W32) (hk : Keeps st0 s) :
    OutKeeps st0 (execSecOwnerHashWrite port n be v s) := by
  unfold execSecOwnerHashWrite
  with_reducible apply keeps_onPort
  · exact hk
  · intro v0
    intro h
    with_reducible apply keeps_whenB
    · exact h
    · intro s_1
      intro h_1
      with_reducible apply keeps_ownerHashWrite
      exact h_1

theorem keeps_takeRecord {s : State}  (hk : Keeps st0 s) :
    Keeps st0 (takeRecord s) := by
  unfold takeRecord
  extract_lets +onlyGivenNames ofs
  clear_value ofs
  extract_lets +onlyGivenNames len
  clear_value len
  extract_lets +onlyGivenNames p
  clear_value p
  refine keeps_ite (fun _ => ?_) (fun _ => ?_)
  · exact hk
  · split
    · rename_i e x l e_1
      refine keeps_upd ?_ ..
      exact hk
    · rename_i e x e_1
      refine keeps_upd ?_ ..
      exact hk

theorem keeps_bootEntry {s : State} (e : RepEnt) (hk : Keeps st0 s) :
    Keeps st0 (bootEntry s e) := by
  unfold bootEntry
  refine keeps_upd ?_ ..
  exact hk

theorem keeps_badSpare {a : State × List (Nat × Nat × Nat)} (b : BistFail) (hk : Keeps st0 a.1) : Keeps st0 (badSpare a b).1 := by
  unfold badSpare
  dsimp only
  split
  · exact hk
  · exact keeps_bootEntry _ (keeps_upd hk ..)

theorem keeps_bootRepair {a : State × List (Nat × Nat × Nat)} (r : Nat × Nat × Nat) (hk : Keeps st0 a.1) :
    Keeps st0 (bootRepair a r).1 := by
  unfold bootRepair
  dsimp only
  split
  · exact hk
  · split
    · exact keeps_bootEntry _ hk
    · exact hk

theorem keeps_applyEntry {s : State} (e : RepEnt) (hk : Keeps st0 s) :
    Keeps st0 (applyEntry s e) := by
  unfold applyEntry
  refine keeps_ite (fun _ => ?_) (fun _ => ?_)
  · refine keeps_ite (fun _ => ?_) (fun _ => ?_)
    · refine keeps_upd ?_ ..
      exact hk
    · extract_lets +onlyGivenNames s1_src1 s1
      have h_s1 : Keeps st0 s1 := by
        unfold s1
        with_reducible apply keeps_setEng
        exact hk
      clear_value s1
      extract_lets +onlyGivenNames s2_src1 s2
      have h_s2 : Keeps st0 s2 := by
        unfold s2
        refine keeps_upd ?_ ..
        exact h_s1
      clear_value s2
      with_reducible apply keeps_setUnit
      exact h_s2
  · refine keeps_ite (fun _ => ?_) (fun _ => ?_)
    · with_reducible apply keeps_setTdc
      exact hk
    · exact hk

theorem keeps_repairAtBoot {s : State} (bist : List BistFail) (hk : Keeps st0 s) : Keeps st0 (repairAtBoot s bist).1 := by
  unfold repairAtBoot
  dsimp only
  refine keeps_foldl (fun _ _ h => keeps_applyEntry _ h) ?_
  refine keeps_foldl1 (fun _ _ h => keeps_bootRepair _ h) ?_
  exact keeps_foldl1 (fun _ _ h => keeps_badSpare _ h) (keeps_takeRecord hk)

theorem keeps_openAwake {s : State} (u : Nat) (hk : Keeps st0 s) :
    Keeps st0 (openAwake s u) := by
  unfold openAwake
  with_reducible apply keeps_setUnit
  exact hk

theorem keeps_openDie {s : State} (d : Nat) (hk : Keeps st0 s) :
    Keeps st0 (openDie s d) := by
  unfold openDie
  extract_lets +onlyGivenNames s0
  have h_s0 : Keeps st0 s0 := by
    unfold s0
    with_reducible apply keeps_setPoolFree
    with_reducible apply keeps_setF
    exact hk
  clear_value s0
  extract_lets +onlyGivenNames s1_src1 s1_src2 s1
  have h_s1 : Keeps st0 s1 := by
    unfold s1
    refine keeps_ite (fun _ => ?_) (fun _ => ?_)
    · with_reducible apply keeps_openAwake
      with_reducible apply keeps_openAwake
      exact h_s0
    · with_reducible apply keeps_dllLoss
      with_reducible apply keeps_setPll
      with_reducible apply keeps_setUnit
      exact h_s0
  clear_value s1
  refine keeps_ite (fun _ => ?_) (fun _ => ?_)
  · extract_lets +onlyGivenNames v
    have h_v : Keeps st0 v.2 := by
      unfold v
      with_reducible apply keeps_drawFree
      exact h_s1
    clear_value v
    extract_lets +onlyGivenNames s2
    have h_s2 : Keeps st0 s2 := by
      unfold s2
      with_reducible apply keeps_openAwake
      with_reducible apply keeps_openAwake
      exact h_v
    clear_value s2
    with_reducible apply keeps_setPll
    exact h_s2
  · exact h_s1

theorem keeps_openPort {s : State} (prim : Nat) (p : Nat) (hk : Keeps st0 s) :
    Keeps st0 (openPort prim s p) := by
  unfold openPort
  refine keeps_ite (fun _ => ?_) (fun _ => ?_)
  · exact hk
  · extract_lets +onlyGivenNames s1
    have h_s1 : Keeps st0 s1 := by
      unfold s1
      with_reducible apply keeps_setFlag
      with_reducible apply keeps_setFlag
      exact hk
    clear_value s1
    with_reducible apply keeps_setF
    with_reducible apply keeps_setF
    exact h_s1

theorem keeps_hostAttach {s : State} (p flags : Nat) (hk : Keeps st0 s) :
    Keeps st0 (hostAttach s p flags) := by
  unfold hostAttach
  with_reducible apply keeps_attachPartner
  exact hk

theorem keeps_initialPartners {s : State}  (hk : Keeps st0 s) :
    Keeps st0 (initialPartners s) := by
  unfold initialPartners
  extract_lets +onlyGivenNames t
  clear_value t
  extract_lets +onlyGivenNames s1
  have h_s1 : Keeps st0 s1 := by
    unfold s1
    refine keeps_ite (fun _ => ?_) (fun _ => ?_)
    · with_reducible apply keeps_attachPartner
      exact hk
    · exact hk
  clear_value s1
  extract_lets +onlyGivenNames s2
  have h_s2 : Keeps st0 s2 := by
    unfold s2
    refine keeps_foldl ?_ ?_
    · intro s_1
      intro x
      intro h
      refine keeps_ite (fun _ => ?_) (fun _ => ?_)
      · with_reducible apply keeps_hostAttach
        exact h
      · exact h
    · exact h_s1
  clear_value s2
  refine keeps_foldl ?_ ?_
  · intro s_1
    intro x
    intro h
    refine keeps_foldl ?_ ?_
    · intro s_2
      intro x_1
      intro h_1
      extract_lets +onlyGivenNames x_2
      clear_value x_2
      refine keeps_ite (fun _ => ?_) (fun _ => ?_)
      · with_reducible apply keeps_attachPartner
        exact h_1
      · exact h_1
    · exact h
  · exact h_s2

theorem keeps_openTree {s : State} (lost : List Nat) (dead : List (Nat × Nat × Nat)) (hk : Keeps st0 s) :
    Keeps st0 (openTree s lost dead) := by
  unfold openTree
  extract_lets +onlyGivenNames prim
  clear_value prim
  extract_lets +onlyGivenNames s1_src1 s1
  have h_s1 : Keeps st0 s1 := by
    unfold s1
    refine keeps_upd ?_ ..
    exact hk
  clear_value s1
  extract_lets +onlyGivenNames s2
  have h_s2 : Keeps st0 s2 := by
    unfold s2
    refine keeps_foldl ?_ ?_
    · intro s_1
      intro x
      intro h
      with_reducible apply keeps_openDie
      exact h
    · exact h_s1
  clear_value s2
  extract_lets +onlyGivenNames s3
  have h_s3 : Keeps st0 s3 := by
    unfold s3
    refine keeps_foldl ?_ ?_
    · intro s_1
      intro x
      intro h
      with_reducible apply keeps_openPort
      exact h
    · with_reducible apply keeps_setBootState
      exact h_s2
  clear_value s3
  extract_lets +onlyGivenNames s4
  have h_s4 : Keeps st0 s4 := by
    unfold s4
    refine keeps_foldl ?_ ?_
    · intro s_1
      intro x
      intro h
      with_reducible apply keeps_fence
      with_reducible apply keeps_setDieClk
      exact h
    · exact h_s3
  clear_value s4
  extract_lets +onlyGivenNames s5
  have h_s5 : Keeps st0 s5 := by
    unfold s5
    refine keeps_foldl ?_ ?_
    · intro s_1
      intro x
      intro h
      with_reducible apply keeps_outOfService
      exact h
    · exact h_s4
  clear_value s5
  extract_lets +onlyGivenNames s6
  have h_s6 : Keeps st0 s6 := by
    unfold s6
    with_reducible apply keeps_initialPartners
    with_reducible apply keeps_post
    exact h_s5
  clear_value s6
  refine keeps_foldl ?_ ?_
  · intro s_1
    intro x
    intro h
    with_reducible apply keeps_post
    exact h
  · exact h_s6

theorem keeps_execBootComplete {s : State} (failed : List Nat) (bist : List BistFail) (hk : Keeps st0 s) :
    OutKeeps st0 (execBootComplete failed bist s) := by
  unfold execBootComplete
  refine outKeeps_next ?_
  with_reducible apply keeps_whenB
  · exact hk
  · intro s_1
    intro h
    extract_lets +onlyGivenNames lost
    clear_value lost
    refine keeps_ite (fun _ => ?_) (fun _ => ?_)
    · with_reducible apply keeps_startFailed
      exact h
    · extract_lets +onlyGivenNames s1
      have h_s1 : Keeps st0 s1 := by
        unfold s1
        refine keeps_foldl ?_ ?_
        · intro s_2
          intro x_1
          intro h_1
          refine keeps_ite (fun _ => ?_) (fun _ => ?_)
          · exact h_1
          · with_reducible apply keeps_loadTime
            exact h_1
        · exact h
      clear_value s1
      extract_lets +onlyGivenNames r
      have h_r : Keeps st0 r.1 := by
        unfold r
        with_reducible apply keeps_repairAtBoot
        exact h_s1
      clear_value r
      extract_lets +onlyGivenNames out
      clear_value out
      refine keeps_ite (fun _ => ?_) (fun _ => ?_)
      · with_reducible apply keeps_startFailed
        exact h
      · with_reducible apply keeps_openTree
        exact h_r

theorem keeps_eff_attestDef {s : State} {c : Cmd} {fid u : Nat} (hk : Keeps st0 s) :
    Keeps st0 ((attestDef).eff c fid u s).1 := by
  dsimp -zeta only [attestDef]
  with_reducible apply keeps_readOut
  exact hk

theorem keeps_execAttest {s : State} (c : Cmd) (hk : Keeps st0 s) :
    OutKeeps st0 (execAttest c s) := by
  unfold execAttest
  with_reducible apply keeps_startCmd
  · intro c_1
    intro fid
    intro u
    intro s_1
    intro h
    dsimp -zeta only [attestDef]
    with_reducible apply keeps_readOut
    exact h
  · exact hk

theorem keeps_eff_certReadDef {s : State} {c : Cmd} {fid u : Nat} (hk : Keeps st0 s) :
    Keeps st0 ((certReadDef).eff c fid u s).1 := by
  dsimp -zeta only [certReadDef]
  with_reducible apply keeps_readOut
  exact hk

theorem keeps_execCertRead {s : State} (c : Cmd) (hk : Keeps st0 s) :
    OutKeeps st0 (execCertRead c s) := by
  unfold execCertRead
  with_reducible apply keeps_startCmd
  · intro c_1
    intro fid
    intro u
    intro s_1
    intro h
    dsimp -zeta only [certReadDef]
    with_reducible apply keeps_readOut
    exact h
  · exact hk

theorem keeps_eff_measurementReadDef {s : State} {c : Cmd} {fid u : Nat} (hk : Keeps st0 s) :
    Keeps st0 ((measurementReadDef).eff c fid u s).1 := by
  dsimp -zeta only [measurementReadDef]
  extract_lets +onlyGivenNames l
  clear_value l
  with_reducible apply keeps_readOut
  exact hk

theorem keeps_execMeasurementRead {s : State} (c : Cmd) (hk : Keeps st0 s) :
    OutKeeps st0 (execMeasurementRead c s) := by
  unfold execMeasurementRead
  with_reducible apply keeps_startCmd
  · intro c_1
    intro fid
    intro u
    intro s_1
    intro h
    dsimp -zeta only [measurementReadDef]
    extract_lets +onlyGivenNames l
    clear_value l
    with_reducible apply keeps_readOut
    exact h
  · exact hk

end Sys2Proof.Machine
end

