-- ==== Sys2Proof/Laws/KeepsLinks.lean ====
section
/-!
SUPPORT. What keeps the part, the time, the queue and the canonical form of memory (`Keeps`): Machine/Links.
-/

namespace Sys2Proof.Machine

variable {st0 : State}

theorem keeps_hostExpire {s : State} (port : Nat) (hk : Keeps st0 s) :
    Keeps st0 (hostExpire s port) := by
  unfold hostExpire
  split
  · rename_i x t e
    refine keeps_ite (fun _ => ?_) (fun _ => ?_)
    · with_reducible apply keeps_detachPartner
      exact hk
    · exact hk
  · rename_i x e
    exact hk

theorem keeps_execHostLinkUp {s : State} (port gt width : Nat) (hk : Keeps st0 s) :
    OutKeeps st0 (execHostLinkUp port gt width s) := by
  unfold execHostLinkUp
  with_reducible apply keeps_onDie
  · exact hk
  · intro s_1
    intro h
    extract_lets +onlyGivenNames up
    clear_value up
    with_reducible apply keeps_whenB
    · exact h
    · intro s_2
      intro h_1
      extract_lets +onlyGivenNames s1
      have h_s1 : Keeps st0 s1 := by
        unfold s1
        with_reducible apply keeps_setF
        with_reducible apply keeps_setF
        with_reducible apply keeps_hostExpire
        exact h_1
      clear_value s1
      extract_lets +onlyGivenNames s2_src1 s2
      have h_s2 : Keeps st0 s2 := by
        unfold s2
        with_reducible apply keeps_setPort
        exact h_s1
      clear_value s2
      extract_lets +onlyGivenNames s3
      have h_s3 : Keeps st0 s3 := by
        unfold s3
        refine keeps_ite (fun _ => ?_) (fun _ => ?_)
        · with_reducible apply keeps_hostAttach
          exact h_s2
        · exact h_s2
      clear_value s3
      with_reducible apply keeps_flushHeld
      exact h_s3

theorem keeps_execHostLinkDown {s : State} (port : Nat) (hk : Keeps st0 s) :
    OutKeeps st0 (execHostLinkDown port s) := by
  unfold execHostLinkDown
  with_reducible apply keeps_onDie
  · exact hk
  · intro s_1
    intro h
    with_reducible apply keeps_whenB
    · exact h
    · intro s_2
      intro h_1
      with_reducible apply keeps_portDown
      exact h_1

theorem keeps_execHostDetachTimeout {s : State} (port : Nat) (hk : Keeps st0 s) :
    OutKeeps st0 (execHostDetachTimeout port s) := by
  unfold execHostDetachTimeout
  with_reducible apply keeps_onDie
  · exact hk
  · intro s_1
    intro h
    with_reducible apply keeps_whenB
    · exact h
    · intro s_2
      intro h_1
      with_reducible apply keeps_hostExpire
      exact h_1

theorem keeps_execBusMasterEnableClear {s : State} (port : Nat) (hk : Keeps st0 s) :
    OutKeeps st0 (execBusMasterEnableClear port s) := by
  unfold execBusMasterEnableClear
  with_reducible apply keeps_onDie
  · exact hk
  · intro s_1
    intro h
    with_reducible apply keeps_whenB
    · exact h
    · intro s_2
      intro h_1
      with_reducible apply keeps_movesLosePort
      with_reducible apply keeps_setPort
      exact h_1

theorem keeps_portReset {s : State} (p : Nat) (hk : Keeps st0 s) :
    Keeps st0 (portReset s p) := by
  unfold portReset
  extract_lets +onlyGivenNames q
  clear_value q
  extract_lets +onlyGivenNames s1
  have h_s1 : Keeps st0 s1 := by
    unfold s1
    refine keeps_foldl ?_ ?_
    · intro s_1
      intro x
      intro h
      with_reducible apply keeps_setReg
      exact h
    · exact hk
  clear_value s1
  extract_lets +onlyGivenNames s2
  have h_s2 : Keeps st0 s2 := by
    unfold s2
    with_reducible apply keeps_setFlag
    with_reducible apply keeps_setFlag
    exact h_s1
  clear_value s2
  extract_lets +onlyGivenNames s3
  have h_s3 : Keeps st0 s3 := by
    unfold s3
    refine keeps_foldl ?_ ?_
    · intro s_1
      intro x
      intro h
      with_reducible apply keeps_setCplRing
      with_reducible apply keeps_setCmdRing
      exact h
    · exact h_s2
  clear_value s3
  extract_lets +onlyGivenNames s4_src1 s4
  have h_s4 : Keeps st0 s4 := by
    unfold s4
    with_reducible apply keeps_setEvRing
    exact h_s3
  clear_value s4
  extract_lets +onlyGivenNames s5
  have h_s5 : Keeps st0 s5 := by
    unfold s5
    refine keeps_foldl ?_ ?_
    · intro s_1
      intro x
      intro h
      with_reducible apply keeps_evLose
      exact h
    · exact h_s4
  clear_value s5
  with_reducible apply keeps_discardPort
  with_reducible apply keeps_setF
  exact h_s5

theorem keeps_execPerstAssert {s : State} (port : Nat) (hk : Keeps st0 s) :
    OutKeeps st0 (execPerstAssert port s) := by
  unfold execPerstAssert
  with_reducible apply keeps_onDie
  · exact hk
  · intro s_1
    intro h
    with_reducible apply keeps_whenB
    · exact h
    · intro s_2
      intro h_1
      extract_lets +onlyGivenNames s1
      have h_s1 : Keeps st0 s1 := by
        unfold s1
        with_reducible apply keeps_portReset
        with_reducible apply keeps_portDown
        with_reducible apply keeps_hostExpire
        exact h_1
      clear_value s1
      extract_lets +onlyGivenNames s2_src1 s2
      have h_s2 : Keeps st0 s2 := by
        unfold s2
        with_reducible apply keeps_setPort
        exact h_s1
      clear_value s2
      refine keeps_ite (fun _ => ?_) (fun _ => ?_)
      · with_reducible apply keeps_detachPartner
        exact h_s2
      · exact h_s2

theorem keeps_execPerstRelease {s : State} (port : Nat) (hk : Keeps st0 s) :
    OutKeeps st0 (execPerstRelease port s) := by
  unfold execPerstRelease
  with_reducible apply keeps_onDie
  · exact hk
  · intro s_1
    intro h
    with_reducible apply keeps_whenB
    · exact h
    · intro s_2
      intro h_1
      with_reducible apply keeps_setPort
      exact h_1

theorem keeps_execDrivePerstRelease {s : State} (d : Nat) (hk : Keeps st0 s) :
    OutKeeps st0 (execDrivePerstRelease d s) := by
  unfold execDrivePerstRelease
  with_reducible apply keeps_onDie
  · exact hk
  · intro s_1
    intro h
    extract_lets +onlyGivenNames p
    clear_value p
    split
    · rename_i x t e
      with_reducible apply keeps_whenB
      · exact h
      · intro s_2
        intro h_1
        with_reducible apply keeps_setPort
        exact h_1
    · rename_i x e
      exact h

theorem keeps_eff_portEchoDef {s : State} {c : Cmd} {fid u : Nat} (hk : Keeps st0 s) :
    Keeps st0 ((portEchoDef).eff c fid u s).1 := by
  dsimp -zeta only [portEchoDef]
  exact hk

theorem keeps_execPortEcho {s : State} (c : Cmd) (hk : Keeps st0 s) :
    OutKeeps st0 (execPortEcho c s) := by
  unfold execPortEcho
  with_reducible apply keeps_startCmd
  · intro c_1
    intro fid
    intro u
    intro s_1
    intro h
    dsimp -zeta only [portEchoDef]
    exact h
  · exact hk

theorem keeps_clockFault {s : State} (d k cause : Nat) (hk : Keeps st0 s) :
    Keeps st0 (clockFault s d k cause) := by
  unfold clockFault
  with_reducible apply keeps_post
  exact hk

theorem keeps_execFpllLockLoss {s : State} (d : Nat) (hk : Keeps st0 s) :
    OutKeeps st0 (execFpllLockLoss d s) := by
  unfold execFpllLockLoss
  with_reducible apply keeps_onDie
  · exact hk
  · intro s_1
    intro h
    with_reducible apply keeps_whenB
    · exact h
    · intro s_2
      intro h_1
      refine keeps_ite (fun _ => ?_) (fun _ => ?_)
      · with_reducible apply keeps_prfAbort
        with_reducible apply keeps_fpllLoss
        exact h_1
      · with_reducible apply keeps_fpllLoss
        exact h_1

theorem keeps_pllStops {s : State} (d k : Nat) (hk : Keeps st0 s) :
    Keeps st0 (pllStops s d k) := by
  unfold pllStops
  split
  · rename_i k
    with_reducible apply keeps_setDieClk
    exact hk
  · rename_i k
    refine keeps_ite (fun _ => ?_) (fun _ => ?_)
    · with_reducible apply keeps_drivesGone
      exact hk
    · with_reducible apply keeps_portReset
      with_reducible apply keeps_portDown
      exact hk
  · rename_i k
    with_reducible apply keeps_prfAbort
    exact hk
  · rename_i k_1 e e_1 e_2
    refine keeps_foldl ?_ ?_
    · intro s_1
      intro x
      intro h
      refine keeps_ite (fun _ => ?_) (fun _ => ?_)
      · with_reducible apply keeps_toAcquire
        exact h
      · exact h
    · exact hk

theorem keeps_execPllLockLoss {s : State} (d k : Nat) (hk : Keeps st0 s) :
    OutKeeps st0 (execPllLockLoss d k s) := by
  unfold execPllLockLoss
  with_reducible apply keeps_onDie
  · exact hk
  · intro s_1
    intro h
    extract_lets +onlyGivenNames p
    clear_value p
    with_reducible apply keeps_whenB
    · exact h
    · intro s_2
      intro h_1
      with_reducible apply keeps_clockFault
      with_reducible apply keeps_pllStops
      with_reducible apply keeps_setPll
      exact h_1

theorem keeps_stepFails {s : State} (d k : Nat) (hk : Keeps st0 s) :
    Keeps st0 (stepFails s d k) := by
  unfold stepFails
  extract_lets +onlyGivenNames p
  clear_value p
  split
  · rename_i x r e
    with_reducible apply keeps_unitDone
    with_reducible apply keeps_setPll
    exact hk
  · rename_i x e
    exact hk

theorem keeps_execPllRelockFail {s : State} (d k : Nat) (hk : Keeps st0 s) :
    OutKeeps st0 (execPllRelockFail d k s) := by
  unfold execPllRelockFail
  with_reducible apply keeps_onDie
  · exact hk
  · intro s_1
    intro h
    extract_lets +onlyGivenNames p
    clear_value p
    with_reducible apply keeps_whenB
    · exact h
    · intro s_2
      intro h_1
      extract_lets +onlyGivenNames n
      clear_value n
      extract_lets +onlyGivenNames s1
      have h_s1 : Keeps st0 s1 := by
        unfold s1
        with_reducible apply keeps_clockFault
        with_reducible apply keeps_setPll
        exact h_1
      clear_value s1
      refine keeps_ite (fun _ => ?_) (fun _ => ?_)
      · exact h_s1
      · extract_lets +onlyGivenNames s2
        have h_s2 : Keeps st0 s2 := by
          unfold s2
          with_reducible apply keeps_stepFails
          with_reducible apply keeps_faultUnit
          exact h_s1
        clear_value s2
        refine keeps_ite (fun _ => ?_) (fun _ => ?_)
        · with_reducible apply keeps_fence
          exact h_s2
        · exact h_s2

end Sys2Proof.Machine
end

