-- ==== Sys2Proof/Laws/KeepsArrival.lean ====
section
/-!
SUPPORT. What keeps the part, the time, the queue and the canonical form of memory (`Keeps`): Machine/Arrival.
-/

namespace Sys2Proof.Machine

variable {st0 : State}

theorem keeps_streamShutter {s : State} (d : Nat) (e : ShEv) (i : Nat) (hk : Keeps st0 s) :
    Keeps st0 (streamShutter s d e i) := by
  unfold streamShutter
  extract_lets +onlyGivenNames x
  clear_value x
  extract_lets +onlyGivenNames want
  clear_value want
  refine keeps_ite (fun _ => ?_) (fun _ => ?_)
  · with_reducible apply keeps_lookAdd
    exact hk
  · exact hk

theorem keeps_dieShutter {s : State} (e : ShEv) (d : Nat) (hk : Keeps st0 s) :
    Keeps st0 (dieShutter e s d) := by
  unfold dieShutter
  refine keeps_ite (fun _ => ?_) (fun _ => ?_)
  · refine keeps_ite (fun _ => ?_) (fun _ => ?_)
    · exact hk
    · with_reducible apply keeps_shtLost
      exact hk
  · extract_lets +onlyGivenNames s1
    have h_s1 : Keeps st0 s1 := by
      unfold s1
      with_reducible apply keeps_eachStream
      · intro i
        intro s_1
        intro h
        with_reducible apply keeps_streamShutter
        exact h
      · exact hk
    clear_value s1
    extract_lets +onlyGivenNames s2
    have h_s2 : Keeps st0 s2 := by
      unfold s2
      refine keeps_ite (fun _ => ?_) (fun _ => ?_)
      · with_reducible apply keeps_tdcShutter
        exact h_s1
      · exact h_s1
    clear_value s2
    extract_lets +onlyGivenNames s3
    have h_s3 : Keeps st0 s3 := by
      unfold s3
      with_reducible apply keeps_evqPushAll
      exact h_s2
    clear_value s3
    with_reducible apply keeps_xferShutter
    exact h_s3

theorem keeps_outShutter {s : State} (e : ShEv) (n : Nat) (hk : Keeps st0 s) :
    Keeps st0 (outShutter e s n) := by
  unfold outShutter
  extract_lets +onlyGivenNames x
  clear_value x
  split
  · rename_i x_1 o e_1
    with_reducible apply keeps_setTrigOut
    exact hk
  · rename_i x_1 e_1
    exact hk

theorem keeps_updShutter {s : State} (e : ShEv) (n : Nat) (hk : Keeps st0 s) :
    Keeps st0 (updShutter e s n) := by
  unfold updShutter
  refine keeps_ite (fun _ => ?_) (fun _ => ?_)
  · with_reducible apply keeps_issueStrobe
    exact hk
  · exact hk

theorem keeps_releaseEvent {s : State} (e : ShEv) (hk : Keeps st0 s) :
    Keeps st0 (releaseEvent s e) := by
  unfold releaseEvent
  extract_lets +onlyGivenNames s2
  have h_s2 : Keeps st0 s2 := by
    unfold s2
    refine keeps_foldl ?_ ?_
    · intro s_1
      intro x
      intro h
      with_reducible apply keeps_dieShutter
      exact h
    · exact hk
  clear_value s2
  extract_lets +onlyGivenNames s3
  have h_s3 : Keeps st0 s3 := by
    unfold s3
    refine keeps_foldl ?_ ?_
    · intro s_1
      intro x
      intro h
      with_reducible apply keeps_outShutter
      exact h
    · exact h_s2
  clear_value s3
  refine keeps_foldl ?_ ?_
  · intro s_1
    intro x
    intro h
    with_reducible apply keeps_updShutter
    exact h
  · exact h_s3

theorem keeps_execShutterEventArrival {s : State}  (hk : Keeps st0 s) :
    OutKeeps st0 (execShutterEventArrival s) := by
  unfold execShutterEventArrival
  refine outKeeps_next ?_
  split
  · rename_i x x_1 e
    with_reducible apply keeps_whenB
    · exact hk
    · intro s_1
      intro h
      extract_lets +onlyGivenNames s1
      have h_s1 : Keeps st0 s1 := by
        unfold s1
        with_reducible apply keeps_tellEvents
        exact h
      clear_value s1
      extract_lets +onlyGivenNames e1
      clear_value e1
      with_reducible apply keeps_releaseEvent
      refine keeps_upd ?_ ..
      exact h_s1
  · rename_i x e
    exact hk

end Sys2Proof.Machine
end

