-- ==== Sys2Proof/Laws/KeepsRegisters.lean ====
section
/-!
SUPPORT. What keeps the part, the time, the queue and the canonical form of memory (`Keeps`): Machine/Registers.
-/

namespace Sys2Proof.Machine

variable {st0 : State}

theorem keeps_setCovered {s : State} (d o cov : Nat) (v : W32) (hk : Keeps st0 s) :
    Keeps st0 (setCovered s d o cov v) := by
  unfold setCovered
  extract_lets +onlyGivenNames changed
  extract_lets +onlyGivenNames s1
  have h_s1 : Keeps st0 s1 := by
    unfold s1
    with_reducible apply keeps_setReg
    exact hk
  clear_value s1
  refine keeps_ite (fun _ => ?_) (fun _ => ?_)
  · with_reducible apply keeps_setCfg
    exact h_s1
  · exact h_s1

theorem keeps_refWritten {s : State} (d : Nat) (hk : Keeps st0 s) :
    Keeps st0 (refWritten s d) := by
  unfold refWritten
  with_reducible apply keeps_setCfg
  with_reducible apply keeps_setFlag
  exact hk

theorem keeps_captureRef {s : State} (d : Nat) (hk : Keeps st0 s) :
    Keeps st0 (captureRef s d) := by
  unfold captureRef
  with_reducible apply keeps_setCfg
  with_reducible apply keeps_setFlag
  exact hk

theorem keeps_cfgMismatch {s : State} (d : Nat) (result : W32) (hk : Keeps st0 s) :
    Keeps st0 (cfgMismatch s d result) := by
  unfold cfgMismatch
  extract_lets +onlyGivenNames c
  clear_value c
  extract_lets +onlyGivenNames s1
  have h_s1 : Keeps st0 s1 := by
    unfold s1
    with_reducible apply keeps_setFlag
    exact hk
  clear_value s1
  extract_lets +onlyGivenNames s2
  have h_s2 : Keeps st0 s2 := by
    unfold s2
    with_reducible apply keeps_setCfg
    exact h_s1
  clear_value s2
  extract_lets +onlyGivenNames s3
  have h_s3 : Keeps st0 s3 := by
    unfold s3
    refine keeps_ite (fun _ => ?_) (fun _ => ?_)
    · exact h_s2
    · with_reducible apply keeps_post
      exact h_s2
  clear_value s3
  refine keeps_ite (fun _ => ?_) (fun _ => ?_)
  · with_reducible apply keeps_enterSafe
    exact h_s3
  · exact h_s3

theorem keeps_cfgMatch {s : State} (d : Nat) (hk : Keeps st0 s) :
    Keeps st0 (cfgMatch s d) := by
  unfold cfgMatch
  extract_lets +onlyGivenNames c
  clear_value c
  extract_lets +onlyGivenNames s1
  have h_s1 : Keeps st0 s1 := by
    unfold s1
    with_reducible apply keeps_setCfg
    exact hk
  clear_value s1
  refine keeps_ite (fun _ => ?_) (fun _ => ?_)
  · with_reducible apply keeps_clearCause
    exact h_s1
  · exact h_s1

theorem keeps_cfgJudge {s : State} (d : Nat) (result : W32) (hk : Keeps st0 s) :
    Keeps st0 (cfgJudge s d result) := by
  unfold cfgJudge
  extract_lets +onlyGivenNames c
  clear_value c
  refine keeps_ite (fun _ => ?_) (fun _ => ?_)
  · exact hk
  · refine keeps_ite (fun _ => ?_) (fun _ => ?_)
    · with_reducible apply keeps_setCfg
      with_reducible apply keeps_setReg
      exact hk
    · refine keeps_ite (fun _ => ?_) (fun _ => ?_)
      · refine keeps_ite (fun _ => ?_) (fun _ => ?_)
        · with_reducible apply keeps_cfgMatch
          exact hk
        · with_reducible apply keeps_cfgMismatch
          exact hk
      · exact hk

theorem keeps_cfgNext {s : State} (d : Nat) (hk : Keeps st0 s) :
    Keeps st0 (cfgNext s d) := by
  unfold cfgNext
  extract_lets +onlyGivenNames c
  clear_value c
  with_reducible apply keeps_setCfg
  exact hk

theorem keeps_passResult {s : State} (d : Nat) (hk : Keeps st0 s) :
    Keeps st0 (passResult s d).2 := by
  unfold passResult
  refine keeps_ite2 (fun _ => ?_) (fun _ => ?_)
  · extract_lets +onlyGivenNames v
    have h_v : Keeps st0 v.2 := by
      unfold v
      with_reducible apply keeps_drawFree
      exact hk
    clear_value v
    exact h_v
  · exact hk

theorem keeps_execCfgCrcPassEnd {s : State} (d : Nat) (hk : Keeps st0 s) :
    OutKeeps st0 (execCfgCrcPassEnd d s) := by
  unfold execCfgCrcPassEnd
  with_reducible apply keeps_onDie
  · exact hk
  · intro s_1
    intro h
    with_reducible apply keeps_whenB
    · exact h
    · intro s_2
      intro h_1
      extract_lets +onlyGivenNames p
      have h_p : Keeps st0 p.2 := by
        unfold p
        with_reducible apply keeps_passResult
        exact h_1
      clear_value p
      extract_lets +onlyGivenNames result
      clear_value result
      extract_lets +onlyGivenNames s_3
      have h_s_3 : Keeps st0 s_3 := by
        unfold s_3
        exact h_p
      clear_value s_3
      extract_lets +onlyGivenNames s1
      have h_s1 : Keeps st0 s1 := by
        unfold s1
        with_reducible apply keeps_setFlag
        with_reducible apply keeps_wrapF
        with_reducible apply keeps_setReg
        exact h_s_3
      clear_value s1
      with_reducible apply keeps_cfgNext
      with_reducible apply keeps_cfgJudge
      exact h_s1

theorem keeps_shadowWrite {s : State} (d : Nat) (r : RegDef) (i o : Nat) (m v : W32) (hk : Keeps st0 s) :
    Keeps st0 (shadowWrite s d r i o m v) := by
  unfold shadowWrite
  extract_lets +onlyGivenNames g
  clear_value g
  extract_lets +onlyGivenNames s1
  have h_s1 : Keeps st0 s1 := by
    unfold s1
    with_reducible apply keeps_setShadow
    exact hk
  clear_value s1
  with_reducible apply keeps_setReg
  exact h_s1

theorem keeps_hstWrite {s : State} (d : Nat) (r : RegDef) (i o : Nat) (v w : W32) (hk : Keeps st0 s) :
    Keeps st0 (hstWrite s d r i o v w) := by
  unfold hstWrite
  refine keeps_ite (fun _ => ?_) (fun _ => ?_)
  · refine keeps_ite (fun _ => ?_) (fun _ => ?_)
    · with_reducible apply keeps_crEnable
      exact hk
    · with_reducible apply keeps_crDisable
      exact hk
  · refine keeps_ite (fun _ => ?_) (fun _ => ?_)
    · refine keeps_ite (fun _ => ?_) (fun _ => ?_)
      · with_reducible apply keeps_evrEnable
        exact hk
      · with_reducible apply keeps_evrDisable
        exact hk
    · refine keeps_ite (fun _ => ?_) (fun _ => ?_)
      · refine keeps_ite (fun _ => ?_) (fun _ => ?_)
        · with_reducible apply keeps_srEnable
          exact hk
        · with_reducible apply keeps_srDisable
          exact hk
      · split
        · rename_i e e_1 e_2 x i_1 snd e_3
          with_reducible apply keeps_ringWrite
          exact hk
        · rename_i e e_1 e_2 x e_3
          with_reducible apply keeps_setReg
          exact hk

theorem keeps_xfrWrite {s : State} (d : Nat) (r : RegDef) (c o : Nat) (m v : W32) (hk : Keeps st0 s) :
    Keeps st0 (xfrWrite s d r c o m v) := by
  unfold xfrWrite
  refine keeps_ite (fun _ => ?_) (fun _ => ?_)
  · exact hk
  · refine keeps_ite (fun _ => ?_) (fun _ => ?_)
    · refine keeps_ite (fun _ => ?_) (fun _ => ?_)
      · exact hk
      · refine keeps_ite (fun _ => ?_) (fun _ => ?_)
        · with_reducible apply keeps_setFlag
          exact hk
        · with_reducible apply keeps_pauseClear
          exact hk
    · refine keeps_ite (fun _ => ?_) (fun _ => ?_)
      · refine keeps_ite (fun _ => ?_) (fun _ => ?_)
        · with_reducible apply keeps_xferKick
          exact hk
        · exact hk
      · with_reducible apply keeps_setCovered
        exact hk

theorem keeps_plainWrite {s : State} (d : Nat) (r : RegDef) (i o : Nat) (m v : W32) (hk : Keeps st0 s) :
    Keeps st0 (plainWrite s d r i o m v) := by
  unfold plainWrite
  extract_lets +onlyGivenNames rw
  clear_value rw
  extract_lets +onlyGivenNames s1
  have h_s1 : Keeps st0 s1 := by
    unfold s1
    refine keeps_ite (fun _ => ?_) (fun _ => ?_)
    · exact hk
    · with_reducible apply keeps_setCovered
      exact hk
  clear_value s1
  refine keeps_ite (fun _ => ?_) (fun _ => ?_)
  · with_reducible apply keeps_refWritten
    exact h_s1
  · refine keeps_ite (fun _ => ?_) (fun _ => ?_)
    · refine keeps_ite (fun _ => ?_) (fun _ => ?_)
      · with_reducible apply keeps_captureRef
        exact h_s1
      · exact h_s1
    · refine keeps_ite (fun _ => ?_) (fun _ => ?_)
      · with_reducible apply keeps_setReg
        exact h_s1
      · refine keeps_ite (fun _ => ?_) (fun _ => ?_)
        · with_reducible apply keeps_issueStrobe
          exact h_s1
        · refine keeps_ite (fun _ => ?_) (fun _ => ?_)
          · with_reducible apply keeps_biasCtlWrite
            exact h_s1
          · exact h_s1

theorem keeps_dieWrite {s : State} (d : Nat) (r : RegDef) (i o be : Nat) (v : W32) (hk : Keeps st0 s) :
    Keeps st0 (dieWrite s d r i o be v) := by
  unfold dieWrite
  extract_lets +onlyGivenNames m
  clear_value m
  split
  · rename_i x b e
    extract_lets +onlyGivenNames s1
    have h_s1 : Keeps st0 s1 := by
      unfold s1
      with_reducible apply keeps_lockViol
      exact hk
    clear_value s1
    refine keeps_ite (fun _ => ?_) (fun _ => ?_)
    · with_reducible apply keeps_captureRef
      exact h_s1
    · exact h_s1
  · rename_i x e
    refine keeps_ite (fun _ => ?_) (fun _ => ?_)
    · exact hk
    · extract_lets +onlyGivenNames s1
      have h_s1 : Keeps st0 s1 := by
        unfold s1
        refine keeps_ite (fun _ => ?_) (fun _ => ?_)
        · exact hk
        · with_reducible apply keeps_suspendCheck
          exact hk
      clear_value s1
      refine keeps_ite (fun _ => ?_) (fun _ => ?_)
      · with_reducible apply keeps_shadowWrite
        exact h_s1
      · refine keeps_ite (fun _ => ?_) (fun _ => ?_)
        · with_reducible apply keeps_hstWrite
          exact h_s1
        · refine keeps_ite (fun _ => ?_) (fun _ => ?_)
          · with_reducible apply keeps_xfrWrite
            exact h_s1
          · with_reducible apply keeps_plainWrite
            exact h_s1

theorem keeps_bellWrite {s : State} (port : Nat) (kind : RingKind) (n be : Nat) (w : W32) (hk : Keeps st0 s) :
    Keeps st0 (bellWrite s port kind n be w) := by
  unfold bellWrite
  extract_lets +onlyGivenNames v
  clear_value v
  split
  · rename_i kind
    with_reducible apply keeps_cmdBell
    exact hk
  · rename_i kind
    with_reducible apply keeps_cqBell
    exact hk
  · rename_i kind
    with_reducible apply keeps_evrBell
    exact hk
  · rename_i kind
    with_reducible apply keeps_srBell
    exact hk

theorem keeps_memDword {s : State} (g : Region) (a be : Nat) (v : W32) (hk : Keeps st0 s) :
    Keeps st0 (memDword s g a be v) := by
  unfold memDword
  with_reducible apply keeps_memWrite
  exact hk

theorem keeps_controlWrite {s : State} (port : Nat) (r : RegDef) (i o be : Nat) (v : W32) (hk : Keeps st0 s) :
    Keeps st0 (controlWrite s port r i o be v) := by
  unfold controlWrite
  refine keeps_ite (fun _ => ?_) (fun _ => ?_)
  · with_reducible apply keeps_ownerHashWrite
    exact hk
  · refine keeps_ite (fun _ => ?_) (fun _ => ?_)
    · with_reducible apply keeps_goWrite
      exact hk
    · refine keeps_ite (fun _ => ?_) (fun _ => ?_)
      · with_reducible apply keeps_badWrite
        exact hk
      · with_reducible apply keeps_setReg
        exact hk

theorem keeps_hostDword {s : State} (port bar ofs be : Nat) (v : W32) (hk : Keeps st0 s) :
    Keeps st0 (hostDword s port bar ofs be v) := by
  unfold hostDword
  refine keeps_ite (fun _ => ?_) (fun _ => ?_)
  · exact hk
  · split
    · rename_i e x e_1
      exact hk
    · rename_i e x e_1
      exact hk
    · rename_i e x d r i j o e_1
      with_reducible apply keeps_dieWrite
      exact hk
    · rename_i e x k n e_1
      with_reducible apply keeps_bellWrite
      exact hk
    · rename_i e x d e_1 a e_2
      refine keeps_ite (fun _ => ?_) (fun _ => ?_)
      · with_reducible apply keeps_badWrite
        exact hk
      · with_reducible apply keeps_memDword
        exact hk
    · rename_i e x d e_1 e_2
      with_reducible apply keeps_h2eBell
      exact hk
    · rename_i e x d e_1 e_2
      with_reducible apply keeps_e2hAck
      exact hk
    · rename_i e x d e_1 a e_2
      exact hk
    · rename_i e x d e_1 e_2
      exact hk
    · rename_i e x r i o e_1
      with_reducible apply keeps_controlWrite
      exact hk
    · rename_i e x a e_1
      with_reducible apply keeps_memDword
      exact hk
    · rename_i e x d reason e_1
      with_reducible apply keeps_badWrite
      exact hk

theorem keeps_hostDwords {s : State} (port bar ofs : Nat) (l : List (Nat × W32)) (hk : Keeps st0 s) :
    Keeps st0 (hostDwords port bar ofs l s) := by
  induction l generalizing ofs s with
  | nil => exact hk
  | cons x r ih => exact ih _ (keeps_hostDword _ _ _ _ _ hk)

theorem keeps_writeRequest {s : State} (touches : Bool) (port bar ofs : Nat) (dws : List (Nat × W32)) (hk : Keeps st0 s) :
    Keeps st0 (writeRequest touches port bar ofs dws s) :=
  keeps_whenB hk fun _ h => keeps_hostDwords _ _ _ _ h

theorem keeps_execRegisterWrite {s : State} (port bar ofs : Nat) (dws : List (Nat × W32)) (hk : Keeps st0 s) :
    OutKeeps st0 (execRegisterWrite port bar ofs dws s) := by
  unfold execRegisterWrite
  with_reducible apply keeps_onDie
  · exact hk
  · intro s_1
    intro h
    with_reducible apply keeps_writeRequest
    exact h

theorem keeps_execReservedWrite {s : State} (port bar ofs : Nat) (dws : List (Nat × W32)) (hk : Keeps st0 s) :
    OutKeeps st0 (execReservedWrite port bar ofs dws s) := by
  unfold execReservedWrite
  with_reducible apply keeps_onDie
  · exact hk
  · intro s_1
    intro h
    with_reducible apply keeps_writeRequest
    exact h

theorem keeps_windowWrite {s : State} (port d o be : Nat) (v : W32) (hk : Keeps st0 s) :
    Keeps st0 (windowWrite port d o be v s) := by
  unfold windowWrite
  refine keeps_ite (fun _ => ?_) (fun _ => ?_)
  · with_reducible apply keeps_hostDword
    exact hk
  · exact hk

theorem keeps_execUpdStrobe {s : State} (port d be : Nat) (v : W32) (hk : Keeps st0 s) :
    OutKeeps st0 (execUpdStrobe port d be v s) := by
  unfold execUpdStrobe
  with_reducible apply keeps_onPort
  · exact hk
  · intro v0
    intro h
    with_reducible apply keeps_windowWrite
    exact h

theorem keeps_execCfgLockSet {s : State} (port d be : Nat) (v : W32) (hk : Keeps st0 s) :
    OutKeeps st0 (execCfgLockSet port d be v s) := by
  unfold execCfgLockSet
  with_reducible apply keeps_onPort
  · exact hk
  · intro v0
    intro h
    with_reducible apply keeps_windowWrite
    exact h

theorem keeps_execCaptureRef {s : State} (port d be : Nat) (v : W32) (hk : Keeps st0 s) :
    OutKeeps st0 (execCaptureRef port d be v s) := by
  unfold execCaptureRef
  with_reducible apply keeps_onPort
  · exact hk
  · intro v0
    intro h
    with_reducible apply keeps_whenB
    · exact h
    · intro s_1
      intro h_1
      with_reducible apply keeps_windowWrite
      exact h_1

theorem keeps_execCfgCrcRefWrite {s : State} (port d be : Nat) (v : W32) (hk : Keeps st0 s) :
    OutKeeps st0 (execCfgCrcRefWrite port d be v s) := by
  unfold execCfgCrcRefWrite
  with_reducible apply keeps_onPort
  · exact hk
  · intro v0
    intro h
    with_reducible apply keeps_windowWrite
    exact h

theorem keeps_execPbdCtlEnClear {s : State} (port d p be : Nat) (v : W32) (hk : Keeps st0 s) :
    OutKeeps st0 (execPbdCtlEnClear port d p be v s) := by
  unfold execPbdCtlEnClear
  with_reducible apply keeps_onPort
  · exact hk
  · intro v0
    intro h
    with_reducible apply keeps_whenB
    · exact h
    · intro s_1
      intro h_1
      with_reducible apply keeps_windowWrite
      exact h_1

theorem keeps_dieRead {s : State} (d : Nat) (r : RegDef) (i j o be : Nat) (hk : Keeps st0 s) :
    Keeps st0 (dieRead s d r i j o be).2 := by
  unfold dieRead
  extract_lets +onlyGivenNames f
  have h_f : Keeps st0 f.2 := by
    unfold f
    refine keeps_ite2 (fun _ => ?_) (fun _ => ?_)
    · with_reducible apply keeps_drawFree
      exact hk
    · exact hk
  clear_value f
  extract_lets +onlyGivenNames v
  clear_value v
  extract_lets +onlyGivenNames clear
  clear_value clear
  refine keeps_mk2 ?_
  refine keeps_ite (fun _ => ?_) (fun _ => ?_)
  · exact h_f
  · with_reducible apply keeps_setReg
    exact h_f

theorem keeps_hostRead {s : State} (port bar ofs be : Nat) (hk : Keeps st0 s) : Keeps st0 (hostRead s port bar ofs be).2 := by
  unfold hostRead
  split
  · exact hk
  · exact hk
  · exact keeps_dieRead _ _ _ _ _ _ hk
  · exact hk
  · exact hk
  · exact hk
  · exact hk
  · exact hk
  · exact keeps_drawFree hk
  · exact hk
  · exact hk
  · exact hk

theorem keeps_hostReads {s : State} (port bar ofs : Nat) (l : List Nat) (hk : Keeps st0 s) :
    Keeps st0 (hostReads port bar ofs l s).2 := by
  induction l generalizing ofs s with
  | nil => exact hk
  | cons x r ih => exact ih _ (keeps_hostRead _ _ _ _ hk)

theorem keeps_execRegisterReadClear {s : State} (port bar ofs : Nat) (bes : List Nat) (hk : Keeps st0 s) :
    OutKeeps st0 (execRegisterReadClear port bar ofs bes s) :=
  keeps_onDie hk fun _ h => keeps_whenB h fun _ h => keeps_upd (keeps_hostReads _ _ _ _ h) ..

theorem keeps_execReservedRead {s : State} (port bar ofs : Nat) (bes : List Nat) (hk : Keeps st0 s) :
    OutKeeps st0 (execReservedRead port bar ofs bes s) := by
  unfold execReservedRead
  with_reducible apply keeps_onDie
  · exact hk
  · intro s_1
    intro h
    extract_lets +onlyGivenNames l
    clear_value l
    with_reducible apply keeps_whenB
    · exact h
    · intro s_2
      intro h_1
      refine keeps_upd ?_ ..
      exact h_1

theorem keeps_applyShadow {s : State} (d o cov : Nat) (hk : Keeps st0 s) :
    Keeps st0 (applyShadow s d o cov) := by
  unfold applyShadow
  with_reducible apply keeps_setCovered
  exact hk

theorem keeps_applyGroups {s : State} (d : Nat) (m : W32) (hk : Keeps st0 s) :
    Keeps st0 (applyGroups s d m) := by
  unfold applyGroups
  extract_lets +onlyGivenNames s1
  have h_s1 : Keeps st0 s1 := by
    unfold s1
    refine keeps_ite (fun _ => ?_) (fun _ => ?_)
    · refine keeps_foldl ?_ ?_
      · intro s_1
        intro x_1
        intro h
        with_reducible apply keeps_applyShadow
        exact h
      · exact hk
    · exact hk
  clear_value s1
  refine keeps_foldl ?_ ?_
  · intro s_1
    intro x
    intro h
    refine keeps_ite (fun _ => ?_) (fun _ => ?_)
    · with_reducible apply keeps_biasUpdate
      with_reducible apply keeps_applyShadow
      exact h
    · exact h
  · exact h_s1

theorem keeps_dieStrobe {s : State} (t : Nat) (d : Nat) (hk : Keeps st0 s) :
    Keeps st0 (dieStrobe t s d) := by
  unfold dieStrobe
  extract_lets +onlyGivenNames due
  clear_value due
  refine keeps_ite (fun _ => ?_) (fun _ => ?_)
  · exact hk
  · refine keeps_ite (fun _ => ?_) (fun _ => ?_)
    · refine keeps_upd ?_ ..
      exact hk
    · extract_lets +onlyGivenNames s0
      have h_s0 : Keeps st0 s0 := by
        unfold s0
        refine keeps_upd ?_ ..
        exact hk
      clear_value s0
      extract_lets +onlyGivenNames m
      clear_value m
      refine keeps_ite (fun _ => ?_) (fun _ => ?_)
      · exact h_s0
      · extract_lets +onlyGivenNames late
        clear_value late
        extract_lets +onlyGivenNames src
        clear_value src
        extract_lets +onlyGivenNames at_
        clear_value at_
        extract_lets +onlyGivenNames s1
        have h_s1 : Keeps st0 s1 := by
          unfold s1
          refine keeps_ite (fun _ => ?_) (fun _ => ?_)
          · exact h_s0
          · with_reducible apply keeps_suspendCheck
            exact h_s0
        clear_value s1
        extract_lets +onlyGivenNames s2
        have h_s2 : Keeps st0 s2 := by
          unfold s2
          with_reducible apply keeps_applyGroups
          exact h_s1
        clear_value s2
        extract_lets +onlyGivenNames s3
        have h_s3 : Keeps st0 s3 := by
          unfold s3
          with_reducible apply keeps_setReg
          exact h_s2
        clear_value s3
        extract_lets +onlyGivenNames s4
        have h_s4 : Keeps st0 s4 := by
          unfold s4
          with_reducible apply keeps_setF
          with_reducible apply keeps_wrapF
          exact h_s3
        clear_value s4
        extract_lets +onlyGivenNames s5
        have h_s5 : Keeps st0 s5 := by
          unfold s5
          refine keeps_ite (fun _ => ?_) (fun _ => ?_)
          · with_reducible apply keeps_setFlag
            exact h_s4
          · exact h_s4
        clear_value s5
        extract_lets +onlyGivenNames s6
        have h_s6 : Keeps st0 s6 := by
          unfold s6
          with_reducible apply keeps_setReg
          with_reducible apply keeps_setReg
          exact h_s5
        clear_value s6
        with_reducible apply keeps_setReg
        exact h_s6

theorem keeps_execUpdateStrobeApply {s : State}  (hk : Keeps st0 s) :
    OutKeeps st0 (execUpdateStrobeApply s) := by
  unfold execUpdateStrobeApply
  refine outKeeps_next ?_
  split
  · rename_i x b e
    with_reducible apply keeps_whenB
    · exact hk
    · intro s_1
      intro h
      extract_lets +onlyGivenNames s1
      have h_s1 : Keeps st0 s1 := by
        unfold s1
        refine keeps_foldl ?_ ?_
        · intro s_2
          intro x_1
          intro h_1
          with_reducible apply keeps_dieStrobe
          exact h_1
        · exact h
      clear_value s1
      refine keeps_upd ?_ ..
      exact h_s1
  · rename_i x e
    exact hk

end Sys2Proof.Machine
end

