-- ==== Sys2Proof/Laws/KeepsFetch.lean ====
section
/-!
SUPPORT. What keeps the part, the time, the queue and the canonical form of memory (`Keeps`): Machine/Fetch.
-/

namespace Sys2Proof.Machine

variable {st0 : State}

theorem keeps_eff_nil : ∀ df ∈ ([] : List CmdDef), ∀ (c : Cmd) (fid u : Nat) (s : State), Keeps st0 s →
    Keeps st0 (df.eff c fid u s).1 := by
  intro df h
  cases h

theorem keeps_eff_cons {x : CmdDef} {l : List CmdDef}
    (hx : ∀ (c : Cmd) (fid u : Nat) (s : State), Keeps st0 s → Keeps st0 (x.eff c fid u s).1)
    (hl : ∀ df ∈ l, ∀ (c : Cmd) (fid u : Nat) (s : State), Keeps st0 s → Keeps st0 (df.eff c fid u s).1) :
    ∀ df ∈ x :: l, ∀ (c : Cmd) (fid u : Nat) (s : State), Keeps st0 s → Keeps st0 (df.eff c fid u s).1 := by
  intro df h
  rcases List.mem_cons.1 h with rfl | h
  · exact hx
  · exact hl df h

theorem keeps_eff_cmdTableA : ∀ df ∈ cmdTableA, ∀ (c : Cmd) (fid u : Nat) (s : State), Keeps st0 s →
    Keeps st0 (df.eff c fid u s).1 := by
  unfold cmdTableA
  refine keeps_eff_cons (fun _ _ _ _ h => keeps_eff_unitEnumerateDef h) ?_
  refine keeps_eff_cons (fun _ _ _ _ h => keeps_eff_unitQueryDef h) ?_
  refine keeps_eff_cons (fun _ _ _ _ h => keeps_eff_unitWakeDef h) ?_
  refine keeps_eff_cons (fun _ _ _ _ h => keeps_eff_unitSleepDef h) ?_
  refine keeps_eff_cons (fun _ _ _ _ h => keeps_eff_unitClearFaultDef h) ?_
  refine keeps_eff_cons (fun _ _ _ _ h => keeps_eff_groupCreateDef h) ?_
  refine keeps_eff_cons (fun _ _ _ _ h => keeps_eff_groupAddDef h) ?_
  refine keeps_eff_cons (fun _ _ _ _ h => keeps_eff_groupRemoveDef h) ?_
  refine keeps_eff_cons (fun _ _ _ _ h => keeps_eff_groupDeleteDef h) ?_
  refine keeps_eff_cons (fun _ _ _ _ h => keeps_eff_groupListDef h) ?_
  refine keeps_eff_cons (fun _ _ _ _ h => keeps_eff_laneConfigureDef h) ?_
  refine keeps_eff_cons (fun _ _ _ _ h => keeps_eff_laneSetFramerDef h) ?_
  refine keeps_eff_cons (fun _ _ _ _ h => keeps_eff_laneSetEqualiserDef h) ?_
  refine keeps_eff_cons (fun _ _ _ _ h => keeps_eff_laneAdaptDef h) ?_
  refine keeps_eff_cons (fun _ _ _ _ h => keeps_eff_laneDeskewDef h) ?_
  refine keeps_eff_cons (fun _ _ _ _ h => keeps_eff_monitorSweepDef h) ?_
  refine keeps_eff_cons (fun _ _ _ _ h => keeps_eff_laneReadStatusDef h) ?_
  exact keeps_eff_nil

theorem keeps_eff_cmdTableB : ∀ df ∈ cmdTableB, ∀ (c : Cmd) (fid u : Nat) (s : State), Keeps st0 s →
    Keeps st0 (df.eff c fid u s).1 := by
  unfold cmdTableB
  refine keeps_eff_cons (fun _ _ _ _ h => keeps_eff_pllConfigureDef h) ?_
  refine keeps_eff_cons (fun _ _ _ _ h => keeps_eff_pllStepDef h) ?_
  refine keeps_eff_cons (fun _ _ _ _ h => keeps_eff_refoutStartDef h) ?_
  refine keeps_eff_cons (fun _ _ _ _ h => keeps_eff_refoutStopDef h) ?_
  refine keeps_eff_cons (fun _ _ _ _ h => keeps_eff_timeReadDef h) ?_
  refine keeps_eff_cons (fun _ _ _ _ h => keeps_eff_syncArmDef h) ?_
  refine keeps_eff_cons (fun _ _ _ _ h => keeps_eff_refSetModeDef h) ?_
  refine keeps_eff_cons (fun _ _ _ _ h => keeps_eff_tdcArmDef h) ?_
  refine keeps_eff_cons (fun _ _ _ _ h => keeps_eff_tdcReadDef h) ?_
  refine keeps_eff_cons (fun _ _ _ _ h => keeps_eff_captureConfigureDef h) ?_
  refine keeps_eff_cons (fun _ _ _ _ h => keeps_eff_captureArmDef h) ?_
  refine keeps_eff_cons (fun _ _ _ _ h => keeps_eff_captureDisarmDef h) ?_
  refine keeps_eff_cons (fun _ _ _ _ h => keeps_eff_rollStartDef h) ?_
  refine keeps_eff_cons (fun _ _ _ _ h => keeps_eff_rollStopDef h) ?_
  refine keeps_eff_cons (fun _ _ _ _ h => keeps_eff_spoolAllocateDef h) ?_
  refine keeps_eff_cons (fun _ _ _ _ h => keeps_eff_streamBindDef h) ?_
  refine keeps_eff_cons (fun _ _ _ _ h => keeps_eff_streamUnbindDef h) ?_
  refine keeps_eff_cons (fun _ _ _ _ h => keeps_eff_blockResendDef h) ?_
  refine keeps_eff_cons (fun _ _ _ _ h => keeps_eff_markInsertDef h) ?_
  refine keeps_eff_cons (fun _ _ _ _ h => keeps_eff_rateLimitSetDef h) ?_
  refine keeps_eff_cons (fun _ _ _ _ h => keeps_eff_recordReadDef h) ?_
  exact keeps_eff_nil

theorem keeps_eff_cmdTableC : ∀ df ∈ cmdTableC, ∀ (c : Cmd) (fid u : Nat) (s : State), Keeps st0 s →
    Keeps st0 (df.eff c fid u s).1 := by
  unfold cmdTableC
  refine keeps_eff_cons (fun _ _ _ _ h => keeps_eff_matcherLoadDef h) ?_
  refine keeps_eff_cons (fun _ _ _ _ h => keeps_eff_negstoreLoadDef h) ?_
  refine keeps_eff_cons (fun _ _ _ _ h => keeps_eff_negstoreClearDef h) ?_
  refine keeps_eff_cons (fun _ _ _ _ h => keeps_eff_comparatorConfigureDef h) ?_
  refine keeps_eff_cons (fun _ _ _ _ h => keeps_eff_sequencerLoadDef h) ?_
  refine keeps_eff_cons (fun _ _ _ _ h => keeps_eff_sequencerArmDef h) ?_
  refine keeps_eff_cons (fun _ _ _ _ h => keeps_eff_sequencerDisarmDef h) ?_
  refine keeps_eff_cons (fun _ _ _ _ h => keeps_eff_shutterFireDef h) ?_
  refine keeps_eff_cons (fun _ _ _ _ h => keeps_eff_triginConfigureDef h) ?_
  refine keeps_eff_cons (fun _ _ _ _ h => keeps_eff_trigoutConfigureDef h) ?_
  refine keeps_eff_cons (fun _ _ _ _ h => keeps_eff_shutterReadCountersDef h) ?_
  refine keeps_eff_cons (fun _ _ _ _ h => keeps_eff_chainConfigureDef h) ?_
  refine keeps_eff_cons (fun _ _ _ _ h => keeps_eff_chainSelectLaneDef h) ?_
  refine keeps_eff_cons (fun _ _ _ _ h => keeps_eff_chainStartDef h) ?_
  refine keeps_eff_cons (fun _ _ _ _ h => keeps_eff_chainStopDef h) ?_
  refine keeps_eff_cons (fun _ _ _ _ h => keeps_eff_maskLoadDef h) ?_
  refine keeps_eff_cons (fun _ _ _ _ h => keeps_eff_dcblockFreezeDef h) ?_
  refine keeps_eff_cons (fun _ _ _ _ h => keeps_eff_measureConfigureDef h) ?_
  refine keeps_eff_cons (fun _ _ _ _ h => keeps_eff_sheetConfigureDef h) ?_
  refine keeps_eff_cons (fun _ _ _ _ h => keeps_eff_sheetClearDef h) ?_
  refine keeps_eff_cons (fun _ _ _ _ h => keeps_eff_sheetExportDef h) ?_
  refine keeps_eff_cons (fun _ _ _ _ h => keeps_eff_calConfigureDef h) ?_
  refine keeps_eff_cons (fun _ _ _ _ h => keeps_eff_calLoadDef h) ?_
  refine keeps_eff_cons (fun _ _ _ _ h => keeps_eff_calSaveDef h) ?_
  refine keeps_eff_cons (fun _ _ _ _ h => keeps_eff_calHoldDef h) ?_
  exact keeps_eff_nil

theorem keeps_eff_cmdTableD : ∀ df ∈ cmdTableD, ∀ (c : Cmd) (fid u : Nat) (s : State), Keeps st0 s →
    Keeps st0 (df.eff c fid u s).1 := by
  unfold cmdTableD
  refine keeps_eff_cons (fun _ _ _ _ h => keeps_eff_imageLoadDef h) ?_
  refine keeps_eff_cons (fun _ _ _ _ h => keeps_eff_imageUnloadDef h) ?_
  refine keeps_eff_cons (fun _ _ _ _ h => keeps_eff_engineStartDef h) ?_
  refine keeps_eff_cons (fun _ _ _ _ h => keeps_eff_engineStopDef h) ?_
  refine keeps_eff_cons (fun _ _ _ _ h => keeps_eff_engineReadStateDef h) ?_
  refine keeps_eff_cons (fun _ _ _ _ h => keeps_eff_serviceStartDef h) ?_
  refine keeps_eff_cons (fun _ _ _ _ h => keeps_eff_serviceStopDef h) ?_
  refine keeps_eff_cons (fun _ _ _ _ h => keeps_eff_serviceQueryDef h) ?_
  refine keeps_eff_cons (fun _ _ _ _ h => keeps_eff_volumeCreateDef h) ?_
  refine keeps_eff_cons (fun _ _ _ _ h => keeps_eff_volumeCloseDef h) ?_
  refine keeps_eff_cons (fun _ _ _ _ h => keeps_eff_xferLoadDef h) ?_
  refine keeps_eff_cons (fun _ _ _ _ h => keeps_eff_xferStartDef h) ?_
  refine keeps_eff_cons (fun _ _ _ _ h => keeps_eff_xferPauseDef h) ?_
  refine keeps_eff_cons (fun _ _ _ _ h => keeps_eff_xferResumeDef h) ?_
  refine keeps_eff_cons (fun _ _ _ _ h => keeps_eff_xferResetDef h) ?_
  exact keeps_eff_nil

theorem keeps_eff_cmdTableE : ∀ df ∈ cmdTableE, ∀ (c : Cmd) (fid u : Nat) (s : State), Keeps st0 s →
    Keeps st0 (df.eff c fid u s).1 := by
  unfold cmdTableE
  refine keeps_eff_cons (fun _ _ _ _ h => keeps_eff_eepromReadDef h) ?_
  refine keeps_eff_cons (fun _ _ _ _ h => keeps_eff_biasConfigureDef h) ?_
  refine keeps_eff_cons (fun _ _ _ _ h => keeps_eff_biasSetDef h) ?_
  refine keeps_eff_cons (fun _ _ _ _ h => keeps_eff_pwmConfigureDef h) ?_
  refine keeps_eff_cons (fun _ _ _ _ h => keeps_eff_hkadcConfigureDef h) ?_
  refine keeps_eff_cons (fun _ _ _ _ h => keeps_eff_calDef _ h) ?_
  refine keeps_eff_cons (fun _ _ _ _ h => keeps_eff_calDef _ h) ?_
  refine keeps_eff_cons (fun _ _ _ _ h => keeps_eff_proofConfigureDef h) ?_
  refine keeps_eff_cons (fun _ _ _ _ h => keeps_eff_layerConfigureDef h) ?_
  refine keeps_eff_cons (fun _ _ _ _ h => keeps_eff_paletteLoadDef h) ?_
  refine keeps_eff_cons (fun _ _ _ _ h => keeps_eff_regionPushDef h) ?_
  refine keeps_eff_cons (fun _ _ _ _ h => keeps_eff_prfCommitDef h) ?_
  refine keeps_eff_cons (fun _ _ _ _ h => keeps_eff_repairApplyDef h) ?_
  refine keeps_eff_cons (fun _ _ _ _ h => keeps_eff_repairReadDef h) ?_
  refine keeps_eff_cons (fun _ _ _ _ h => keeps_eff_healthReadDef h) ?_
  refine keeps_eff_cons (fun _ _ _ _ h => keeps_eff_safelightEnterDef h) ?_
  refine keeps_eff_cons (fun _ _ _ _ h => keeps_eff_safelightExitDef h) ?_
  refine keeps_eff_cons (fun _ _ _ _ h => keeps_eff_thermalConfigureDef h) ?_
  refine keeps_eff_cons (fun _ _ _ _ h => keeps_eff_attestDef h) ?_
  refine keeps_eff_cons (fun _ _ _ _ h => keeps_eff_certReadDef h) ?_
  refine keeps_eff_cons (fun _ _ _ _ h => keeps_eff_measurementReadDef h) ?_
  refine keeps_eff_cons (fun _ _ _ _ h => keeps_eff_portEchoDef h) ?_
  exact keeps_eff_nil

theorem keeps_eff_opDef {op : Nat} {df : CmdDef} (e : opDef op = some df) (c : Cmd) (fid u : Nat) (s : State) (h : Keeps st0 s) :
    Keeps st0 (df.eff c fid u s).1 := by
  have hm : df ∈ cmdTable := List.mem_of_find?_eq_some e
  unfold cmdTable at hm
  rcases List.mem_append.1 hm with hm | hm
  · rcases List.mem_append.1 hm with hm | hm
    · rcases List.mem_append.1 hm with hm | hm
      · rcases List.mem_append.1 hm with hm | hm
        · exact keeps_eff_cmdTableA df hm c fid u s h
        · exact keeps_eff_cmdTableB df hm c fid u s h
      · exact keeps_eff_cmdTableC df hm c fid u s h
    · exact keeps_eff_cmdTableD df hm c fid u s h
  · exact keeps_eff_cmdTableE df hm c fid u s h

theorem keeps_runFetched {s : State} (op : Nat) (c : Cmd) (extOk : Bool) (hk : Keeps st0 s) :
    Keeps st0 (runFetched op c extOk s) := by
  unfold runFetched
  split
  · rename_i x e
    with_reducible apply keeps_writeCpl
    exact hk
  · rename_i x df e
    refine keeps_ite (fun _ => ?_) (fun _ => ?_)
    · with_reducible apply keeps_beginCmd
      · intro c_1
        intro fid
        intro u
        intro s_1
        intro h
        refine keeps_eff_opDef e _ _ _ _ ?_
        exact h
      · exact hk
    · split
      · rename_i e_1 x_1 st e_2
        with_reducible apply keeps_failCmd
        exact hk
      · rename_i e_1 x_1 e_2
        refine keeps_ite (fun _ => ?_) (fun _ => ?_)
        · with_reducible apply keeps_failCmd
          exact hk
        · refine keeps_ite (fun _ => ?_) (fun _ => ?_)
          · with_reducible apply keeps_failCmd
            exact hk
          · with_reducible apply keeps_beginCmd
            · intro c_1
              intro fid
              intro u
              intro s_1
              intro h
              refine keeps_eff_opDef e _ _ _ _ ?_
              exact h
            · exact hk

theorem keeps_fetchFrom {s : State} (p n : Nat) (extOk : Bool) (hk : Keeps st0 s) :
    Keeps st0 (fetchFrom s p n extOk) := by
  unfold fetchFrom
  extract_lets +onlyGivenNames i
  clear_value i
  extract_lets +onlyGivenNames b
  clear_value b
  extract_lets +onlyGivenNames j
  clear_value j
  extract_lets +onlyGivenNames s1_src1 s1
  have h_s1 : Keeps st0 s1 := by
    unfold s1
    with_reducible apply keeps_setF
    refine keeps_upd ?_ ..
    exact hk
  clear_value s1
  extract_lets +onlyGivenNames a
  clear_value a
  extract_lets +onlyGivenNames s2
  have h_s2 : Keeps st0 s2 := by
    unfold s2
    refine keeps_ite (fun _ => ?_) (fun _ => ?_)
    · exact h_s1
    · with_reducible apply keeps_hostWrite
      exact h_s1
  clear_value s2
  with_reducible apply keeps_runFetched
  exact h_s2

theorem keeps_execCommandFetch {s : State} (port : Nat) (descOk extOk : Bool) (hk : Keeps st0 s) :
    OutKeeps st0 (execCommandFetch port descOk extOk s) := by
  unfold execCommandFetch
  with_reducible apply keeps_onDie
  · exact hk
  · intro s_1
    intro h
    with_reducible apply keeps_whenB
    · exact h
    · intro s_2
      intro h_1
      split
      · rename_i best e
        exact h_1
      · rename_i best b e
        refine keeps_ite (fun _ => ?_) (fun _ => ?_)
        · with_reducible apply keeps_fetchFrom
          exact h_1
        · with_reducible apply keeps_cmdRingError
          exact h_1

theorem keeps_execApplyAtReached {s : State}  (hk : Keeps st0 s) :
    OutKeeps st0 (execApplyAtReached s) := by
  unfold execApplyAtReached
  refine outKeeps_next ?_
  split
  · rename_i o e
    exact hk
  · rename_i o g e
    with_reducible apply keeps_whenB
    · exact hk
    · intro s_1
      intro h
      split
      · rename_i x df e_1
        with_reducible apply keeps_runFlight
        · intro c
          intro fid
          intro u
          intro s_2
          intro h_1
          refine keeps_eff_opDef e_1 _ _ _ _ ?_
          exact h_1
        · with_reducible apply keeps_setFlight
          exact h
      · rename_i x e_1
        with_reducible apply keeps_dropFlight
        exact h

theorem keeps_continueGroups {s : State}  (hk : Keeps st0 s) :
    Keeps st0 (continueGroups s) := by
  unfold continueGroups
  refine keeps_foldl ?_ ?_
  · intro s_1
    intro x
    intro h
    split
    · rename_i x_1 f e
      refine keeps_ite (fun _ => ?_) (fun _ => ?_)
      · split
        · rename_i e_1 x_2 df e_2
          with_reducible apply keeps_runFlight
          · intro c
            intro fid
            intro u
            intro s_2
            intro h_1
            refine keeps_eff_opDef e_2 _ _ _ _ ?_
            exact h_1
          · exact h
        · rename_i e_1 x_2 e_2
          exact h
      · exact h
    · rename_i x_1 e
      exact h
  · exact hk

theorem keeps_dropHeld {s : State} (wake : Bool) (u : Nat) (hk : Keeps st0 s) :
    Keeps st0 (dropHeld wake s u) := by
  unfold dropHeld
  extract_lets +onlyGivenNames x
  clear_value x
  split
  · rename_i x_1 h e
    refine keeps_ite (fun _ => ?_) (fun _ => ?_)
    · with_reducible apply keeps_setUnit
      exact hk
    · exact hk
  · rename_i x_1 e
    exact hk

theorem keeps_dropStart {s : State} (n u : Nat) (hk : Keeps st0 s) : Keeps st0 (dropStart n u s) := by
  induction n generalizing s u with
  | zero => exact hk
  | succ n ih =>
    unfold dropStart
    refine keeps_ite (fun _ => ?_) (fun _ => hk)
    refine keeps_foldl (fun _ _ h => keeps_tryStop _ h) (keeps_runHeld _ ?_)
    exact keeps_foldl (fun _ _ h => ih _ (keeps_dropHeld _ _ h)) (keeps_setUnit _ _ hk)

theorem keeps_dropStop {s : State} (n u : Nat) (hk : Keeps st0 s) : Keeps st0 (dropStop n u s) := by
  induction n generalizing s u with
  | zero => exact hk
  | succ n ih =>
    unfold dropStop
    refine keeps_ite (fun _ => ?_) (fun _ => hk)
    refine keeps_foldl (fun _ _ h => keeps_tryStart _ h) (keeps_runHeld _ ?_)
    exact keeps_foldl (fun _ _ h => ih _ (keeps_dropHeld _ _ h)) (keeps_setUnit _ _ hk)

theorem keeps_dropPower {s : State} (id u : Nat) (hk : Keeps st0 s) :
    Keeps st0 (dropPower s id u) := by
  unfold dropPower
  extract_lets +onlyGivenNames x
  clear_value x
  extract_lets +onlyGivenNames h
  clear_value h
  extract_lets +onlyGivenNames s1
  have h_s1 : Keeps st0 s1 := by
    unfold s1
    with_reducible apply keeps_setUnit
    exact hk
  clear_value s1
  extract_lets +onlyGivenNames us
  clear_value us
  refine keeps_foldl ?_ ?_
  · intro s_1
    intro x_1
    intro h_1
    with_reducible apply keeps_dropStop
    with_reducible apply keeps_dropStart
    refine keeps_ite (fun _ => ?_) (fun _ => ?_)
    · with_reducible apply keeps_dropHeld
      exact h_1
    · exact h_1
  · exact h_s1

theorem keeps_dropSteps {s : State} (op id u : Nat) (hk : Keeps st0 s) :
    Keeps st0 (dropSteps s op id u) := by
  unfold dropSteps
  extract_lets +onlyGivenNames d
  clear_value d
  extract_lets +onlyGivenNames i
  clear_value i
  split
  · rename_i op
    with_reducible apply keeps_dropPower
    exact hk
  · rename_i op
    with_reducible apply keeps_dropPower
    exact hk
  · rename_i op
    extract_lets +onlyGivenNames s1
    have h_s1 : Keeps st0 s1 := by
      unfold s1
      refine keeps_foldl ?_ ?_
      · intro s_1
        intro x
        intro h
        with_reducible apply keeps_setLane
        exact h
      · exact hk
    clear_value s1
    refine keeps_ite (fun _ => ?_) (fun _ => ?_)
    · with_reducible apply keeps_setDieClk
      exact h_s1
    · exact h_s1
  · rename_i op
    extract_lets +onlyGivenNames r
    clear_value r
    extract_lets +onlyGivenNames l
    clear_value l
    with_reducible apply keeps_setRefOut
    exact hk
  · rename_i op
    extract_lets +onlyGivenNames r
    clear_value r
    extract_lets +onlyGivenNames l
    clear_value l
    with_reducible apply keeps_setRefOut
    exact hk
  · rename_i op
    with_reducible apply keeps_setStream
    exact hk
  · rename_i op
    refine keeps_foldl ?_ ?_
    · intro s_1
      intro x
      intro h
      split
      · rename_i x_1 x_2 e
        refine keeps_ite (fun _ => ?_) (fun _ => ?_)
        · with_reducible apply keeps_setAcc
          exact h
        · exact h
      · rename_i x_1 e
        exact h
    · exact hk
  · rename_i op
    extract_lets +onlyGivenNames x
    clear_value x
    extract_lets +onlyGivenNames l
    clear_value l
    with_reducible apply keeps_setEng
    exact hk
  · rename_i op
    refine keeps_foldl ?_ ?_
    · intro s_1
      intro x
      intro h
      extract_lets +onlyGivenNames x_1
      clear_value x_1
      extract_lets +onlyGivenNames l
      clear_value l
      refine keeps_ite (fun _ => ?_) (fun _ => ?_)
      · exact h
      · with_reducible apply keeps_setSvc
        exact h
    · exact hk
  · rename_i op
    with_reducible apply keeps_volumeCut
    exact hk
  · rename_i op
    with_reducible apply keeps_volumeCut
    exact hk
  · rename_i op
    with_reducible apply keeps_setXfer
    exact hk
  · rename_i op
    with_reducible apply keeps_setXfer
    exact hk
  · rename_i op
    with_reducible apply keeps_setProbe
    exact hk
  · rename_i op
    with_reducible apply keeps_biasCut
    exact hk
  · rename_i op
    with_reducible apply keeps_hkCalCut
    exact hk
  · rename_i op
    with_reducible apply keeps_hkCalCut
    exact hk
  · rename_i op
    extract_lets +onlyGivenNames w
    clear_value w
    extract_lets +onlyGivenNames l
    clear_value l
    with_reducible apply keeps_setPwm
    exact hk
  · rename_i op
    extract_lets +onlyGivenNames x
    clear_value x
    extract_lets +onlyGivenNames s1
    have h_s1 : Keeps st0 s1 := by
      unfold s1
      with_reducible apply keeps_setPrf
      exact hk
    clear_value s1
    refine keeps_ite (fun _ => ?_) (fun _ => ?_)
    · with_reducible apply keeps_proofApply
      with_reducible apply keeps_setPrf
      exact h_s1
    · exact h_s1
  · rename_i op
    extract_lets +onlyGivenNames s1
    have h_s1 : Keeps st0 s1 := by
      unfold s1
      refine keeps_foldl ?_ ?_
      · intro s_1
        intro x
        intro h
        split
        · rename_i x_1 w e
          refine keeps_ite (fun _ => ?_) (fun _ => ?_)
          · with_reducible apply keeps_setEng
            exact h
          · exact h
        · rename_i x_1 e
          exact h
      · exact hk
    clear_value s1
    refine keeps_upd ?_ ..
    exact h_s1
  · rename_i op
    refine keeps_foldl ?_ ?_
    · intro s_1
      intro x
      intro h
      extract_lets +onlyGivenNames x_1
      clear_value x_1
      extract_lets +onlyGivenNames l
      clear_value l
      refine keeps_ite (fun _ => ?_) (fun _ => ?_)
      · exact h
      · with_reducible apply keeps_setDiePwr
        exact h
    · exact hk
  · rename_i op_1 e e_1 e_2 e_3 e_4 e_5 e_6 e_7 e_8 e_9 e_10 e_11 e_12 e_13 e_14 e_15 e_16 e_17 e_18 e_19 e_20
    exact hk

theorem keeps_execCommandTimeout {s : State} (id : Nat) (hk : Keeps st0 s) :
    OutKeeps st0 (execCommandTimeout id s) := by
  unfold execCommandTimeout
  refine outKeeps_next ?_
  split
  · rename_i o e
    exact hk
  · rename_i o g e
    split
    · rename_i best e_1
      exact hk
    · rename_i best b e_1
      with_reducible apply keeps_whenB
      · exact hk
      · intro s_1
        intro h
        extract_lets +onlyGivenNames s1
        have h_s1 : Keeps st0 s1 := by
          unfold s1
          refine keeps_foldl ?_ ?_
          · intro s_2
            intro x
            intro h_1
            with_reducible apply keeps_dropSteps
            exact h_1
          · exact h
        clear_value s1
        extract_lets +onlyGivenNames u
        clear_value u
        with_reducible apply keeps_finishFlight
        exact h_s1

end Sys2Proof.Machine
end

