-- ==== Sys2Proof/Laws/KeepsTap.lean ====
section
/-!
SUPPORT. What keeps the part, the time, the queue and the canonical form of memory (`Keeps`): Machine/Tap.
-/

namespace Sys2Proof.Machine

variable {st0 : State}

theorem keeps_freeBits {s : State} (n : Nat) (hk : Keeps st0 s) : Keeps st0 (freeBits n s).2 := by
  induction n generalizing s with
  | zero => exact hk
  | succ n ih => exact ih (keeps_drawFree hk)
--SKIP idleTick

theorem keeps_tapRise {s : State} (tms tdi : Bool) (hk : Keeps st0 s) :
    Keeps st0 (tapRise tms tdi s) := by
  unfold tapRise
  extract_lets +onlyGivenNames x
  clear_value x
  extract_lets +onlyGivenNames a_src1 a_src2 a
  have h_a : Keeps st0 a.2 := by
    unfold a
    split
    · rename_i x_1 e
      refine keeps_mk2 ?_
      unfold a_src1
      with_reducible apply keeps_drawFree
      exact hk
    · rename_i x_1 e
      exact hk
    · rename_i x_1 e
      refine keeps_ite2 (fun _ => ?_) (fun _ => ?_)
      · refine keeps_mk2 ?_
        unfold a_src2
        with_reducible apply keeps_freeBits
        exact hk
      · exact hk
    · rename_i x_1 e
      exact hk
    · rename_i x_1 e e_1 e_2 e_3
      exact hk
  clear_value a
  extract_lets +onlyGivenNames a_1
  have h_a_1 : Keeps st0 a_1 := by
    unfold a_1
    exact h_a
  clear_value a_1
  refine keeps_upd ?_ ..
  exact h_a_1

theorem keeps_tapFall {s : State}  (hk : Keeps st0 s) :
    Keeps st0 (tapFall s) := by
  unfold tapFall
  extract_lets +onlyGivenNames x
  clear_value x
  extract_lets +onlyGivenNames y
  clear_value y
  extract_lets +onlyGivenNames out
  clear_value out
  refine keeps_upd ?_ ..
  exact hk

theorem keeps_execTapTckEdge {s : State} (rising tms tdi : Bool) (hk : Keeps st0 s) :
    OutKeeps st0 (execTapTckEdge rising tms tdi s) := by
  unfold execTapTckEdge
  refine outKeeps_next ?_
  with_reducible apply keeps_whenB
  · exact hk
  · intro s_1
    intro h
    refine keeps_ite (fun _ => ?_) (fun _ => ?_)
    · with_reducible apply keeps_tapRise
      exact h
    · with_reducible apply keeps_tapFall
      exact h

theorem keeps_settleTick {s : State}  (hk : Keeps st0 s) :
    Keeps st0 (settleTick s) := by
  unfold settleTick
  extract_lets +onlyGivenNames s1
  have h_s1 : Keeps st0 s1 := by
    unfold s1
    refine keeps_foldl ?_ ?_
    · intro s_1
      intro x
      intro h
      with_reducible apply keeps_hkReport
      with_reducible apply keeps_reportLock
      with_reducible apply keeps_reportBad
      exact h
    · exact hk
  clear_value s1
  extract_lets +onlyGivenNames s2
  have h_s2 : Keeps st0 s2 := by
    unfold s2
    refine keeps_foldl ?_ ?_
    · intro s_1
      intro x
      intro h
      refine keeps_foldl ?_ ?_
      · intro s_2
        intro x_1
        intro h_1
        with_reducible apply keeps_svcDrain
        exact h_1
      · exact h
    · with_reducible apply keeps_calSyncAll
      exact h_s1
  clear_value s2
  with_reducible apply keeps_continueGroups
  with_reducible apply keeps_tapsDue
  with_reducible apply keeps_tellEvents
  exact h_s2

end Sys2Proof.Machine
end

