-- ==== Sys2Proof/Laws/Tables.lean ====
section
/-!
SUPPORT. What a read gives after a write: tables, registers, bytes of memory.
-/

namespace Sys2Proof.Machine

/-! ## Tables -/

theorem tabGet_put {α : Type} (dflt : Nat → α) (k : Nat) (v : α) (t : Tab α) : tabGet dflt (tabPut k v t) k = v := by
  induction t with
  | nil => simp [tabPut, tabGet]
  | cons x r ih =>
    obtain ⟨k', v'⟩ := x
    simp only [tabPut]
    split
    · simp [tabGet]
    · split
      · simp [tabGet]
      · rename_i h
        simp [tabGet, Ne.symm h, ih]

theorem tabGet_put_ne {α : Type} (dflt : Nat → α) {k j : Nat} (h : j ≠ k) (v : α) (t : Tab α) :
    tabGet dflt (tabPut k v t) j = tabGet dflt t j := by
  induction t with
  | nil => simp [tabPut, tabGet, Ne.symm h]
  | cons x r ih =>
    obtain ⟨k', v'⟩ := x
    simp only [tabPut]
    split
    · simp [tabGet, Ne.symm h]
    · split
      · rename_i he
        subst he
        simp [tabGet, Ne.symm h]
      · simp [tabGet, ih]

theorem tabGet_del {α : Type} (dflt : Nat → α) (k : Nat) (t : Tab α) : tabGet dflt (tabDel k t) k = dflt k := by
  induction t with
  | nil => rfl
  | cons x r ih =>
    obtain ⟨k', v'⟩ := x
    simp only [tabDel]
    split
    · exact ih
    · simp [tabGet, *]

theorem tabGet_del_ne {α : Type} (dflt : Nat → α) {k j : Nat} (h : j ≠ k) (t : Tab α) :
    tabGet dflt (tabDel k t) j = tabGet dflt t j := by
  induction t with
  | nil => rfl
  | cons x r ih =>
    obtain ⟨k', v'⟩ := x
    simp only [tabDel]
    split
    · rename_i he
      subst he
      simp [tabGet, Ne.symm h, ih]
    · simp [tabGet, ih]

/-- A table reads the value set at a key. -/
@[simp] theorem tabGet_set {α : Type} [DecidableEq α] (dflt : Nat → α) (t : Tab α) (k : Nat) (v : α) :
    tabGet dflt (tabSet dflt t k v) k = v := by
  simp only [tabSet]
  split
  · rw [tabGet_del]; exact Eq.symm (by assumption)
  · exact tabGet_put dflt k v t

/-- A table reads as before at every other key. -/
theorem tabGet_set_ne {α : Type} [DecidableEq α] (dflt : Nat → α) (t : Tab α) {k j : Nat} (h : j ≠ k) (v : α) :
    tabGet dflt (tabSet dflt t k v) j = tabGet dflt t j := by
  simp only [tabSet]
  split
  · exact tabGet_del_ne dflt h t
  · exact tabGet_put_ne dflt h v t

@[simp] theorem tget_tset {α : Type} [DecidableEq α] (z : α) (t : Tab α) (k : Nat) (v : α) : tget z (tset z t k v) k = v :=
  tabGet_set _ t k v

theorem tget_tset_ne {α : Type} [DecidableEq α] (z : α) (t : Tab α) {k j : Nat} (h : j ≠ k) (v : α) :
    tget z (tset z t k v) j = tget z t j :=
  tabGet_set_ne _ t h v

/-! ## Registers -/

@[simp] theorem reg_setReg (s : State) (d o : Nat) (v : W32) : reg (setReg s d o v) d o = v := by simp [reg, setReg]

theorem reg_setReg_ne (s : State) {d o d' o' : Nat} (h : regKey d' o' ≠ regKey d o) (v : W32) :
    reg (setReg s d o v) d' o' = reg s d' o' := by
  simp [reg, setReg, tabGet_set_ne _ _ h]

@[simp] theorem shadow_setShadow (s : State) (d o : Nat) (v : W32) : shadow (setShadow s d o v) d o = v := by
  simp [shadow, setShadow]

/-! ## Memory -/

theorem writeList_other (b : List Byte) : ∀ (m : List Host.Cell) {a x : Nat}, (x < a ∨ a + b.length ≤ x) →
    tabGet memDflt (writeList m a b) x = tabGet memDflt m x := by
  induction b with
  | nil => intros; rfl
  | cons y r ih =>
    intro m a x h
    simp only [List.length_cons] at h
    rw [writeList, ih _ (by omega), writeByte, tabGet_set_ne _ _ (by omega)]

/-- A byte outside the bytes written reads as before. -/
theorem readByte_memWrite_other (s : State) (r : Region) (a : Nat) (b : List Byte) {x : Nat}
    (h : x < regionBase r + a ∨ regionBase r + a + b.length ≤ x) : readByte (memWrite s r a b) x = readByte s x :=
  writeList_other b s.mem h

theorem writeList_read (b : List Byte) : ∀ (m : List Host.Cell) (a i : Nat) (v : Byte), b[i]? = some v →
    tabGet memDflt (writeList m a b) (a + i) = v := by
  induction b with
  | nil => intro m a i v h; simp at h
  | cons y r ih =>
    intro m a i v h
    cases i with
    | zero =>
      simp only [List.getElem?_cons_zero, Option.some.injEq] at h
      rw [writeList, Nat.add_zero, writeList_other r _ (Or.inl (by omega)), writeByte]; simp [h]
    | succ i =>
      simp only [List.getElem?_cons_succ] at h
      have := ih (writeByte m a y) (a + 1) i v h
      rw [writeList, show a + (i + 1) = a + 1 + i by omega]
      exact this

end Sys2Proof.Machine
end

