-- ==== Sys2Proof/Laws/State.lean ====
section
/-!
SUPPORT. What each update of the state leaves alone, one lemma per field per update, and what a record's reader gives
after its update: no later proof unfolds a record update.
-/

namespace Sys2Proof.Machine

/-! ## Readers after their own update -/

@[simp] theorem unitOf_setUnit (s : State) (u : Nat) (x : Unit) : unitOf (setUnit s u x) u = x := by
  simp [unitOf, setUnit, tget, tset]

theorem unitOf_setUnit_ne (s : State) {u u' : Nat} (h : u' ≠ u) (x : Unit) :
    unitOf (setUnit s u x) u' = unitOf s u' := by
  simp [unitOf, setUnit, tget, tset, tabGet_set_ne _ _ h]

@[simp] theorem groupOf_setGroup (s : State) (g : Nat) (x : Option Group) : groupOf (setGroup s g x) g = x := by
  simp [groupOf, setGroup, tget, tset]

theorem groupOf_setGroup_ne (s : State) {g g' : Nat} (h : g' ≠ g) (x : Option Group) :
    groupOf (setGroup s g x) g' = groupOf s g' := by
  simp [groupOf, setGroup, tget, tset, tabGet_set_ne _ _ h]

@[simp] theorem laneOf_setLane (s : State) (d n : Nat) (l : Lane) : laneOf (setLane s d n l) d n = l := by
  simp [laneOf, setLane, tget, tset]

theorem laneOf_setLane_ne (s : State) {d n d' n' : Nat} (h : key d' n' ≠ key d n) (l : Lane) :
    laneOf (setLane s d n l) d' n' = laneOf s d' n' := by
  simp [laneOf, setLane, tget, tset, tabGet_set_ne _ _ h]

@[simp] theorem dieClk_setDieClk (s : State) (d : Nat) (x : DieClk) : dieClk (setDieClk s d x) d = x := by
  simp [dieClk, setDieClk, tget, tset]

theorem dieClk_setDieClk_ne (s : State) {d d' : Nat} (h : d' ≠ d) (x : DieClk) :
    dieClk (setDieClk s d x) d' = dieClk s d' := by
  simp [dieClk, setDieClk, tget, tset, tabGet_set_ne _ _ h]

@[simp] theorem pllOf_setPll (s : State) (d k : Nat) (p : Pll) : pllOf (setPll s d k p) d k = p := by
  simp [pllOf, setPll, tget, tset]

theorem pllOf_setPll_ne (s : State) {d k d' k' : Nat} (h : key d' k' ≠ key d k) (p : Pll) :
    pllOf (setPll s d k p) d' k' = pllOf s d' k' := by
  simp [pllOf, setPll, tget, tset, tabGet_set_ne _ _ h]

@[simp] theorem tdcOf_setTdc (s : State) (d : Nat) (t : Tdc) : tdcOf (setTdc s d t) d = t := by
  simp [tdcOf, setTdc, tget, tset]

theorem tdcOf_setTdc_ne (s : State) {d d' : Nat} (h : d' ≠ d) (t : Tdc) :
    tdcOf (setTdc s d t) d' = tdcOf s d' := by
  simp [tdcOf, setTdc, tget, tset, tabGet_set_ne _ _ h]

@[simp] theorem streamOf_setStream (s : State) (d i : Nat) (x : Stream) : streamOf (setStream s d i x) d i = x := by
  simp [streamOf, setStream]

theorem streamOf_setStream_ne (s : State) {d i d' i' : Nat} (h : key d' i' ≠ key d i) (x : Stream) :
    streamOf (setStream s d i x) d' i' = streamOf s d' i' := by
  simp [streamOf, setStream, tabGet_set_ne _ _ h]

@[simp] theorem poolFree_setPoolFree (s : State) (d : Nat) (n : Nat) : poolFree (setPoolFree s d n) d = n := by
  simp [poolFree, setPoolFree, tget, tset]

theorem poolFree_setPoolFree_ne (s : State) {d d' : Nat} (h : d' ≠ d) (n : Nat) :
    poolFree (setPoolFree s d n) d' = poolFree s d' := by
  simp [poolFree, setPoolFree, tget, tset, tabGet_set_ne _ _ h]

@[simp] theorem chainOf_setChain (s : State) (d c : Nat) (x : Chain) : chainOf (setChain s d c x) d c = x := by
  simp [chainOf, setChain, tget, tset]

theorem chainOf_setChain_ne (s : State) {d c d' c' : Nat} (h : key d' c' ≠ key d c) (x : Chain) :
    chainOf (setChain s d c x) d' c' = chainOf s d' c' := by
  simp [chainOf, setChain, tget, tset, tabGet_set_ne _ _ h]

@[simp] theorem measOf_setMeas (s : State) (d c : Nat) (x : MeasCfg) : measOf (setMeas s d c x) d c = x := by
  simp [measOf, setMeas, tget, tset]

theorem measOf_setMeas_ne (s : State) {d c d' c' : Nat} (h : key d' c' ≠ key d c) (x : MeasCfg) :
    measOf (setMeas s d c x) d' c' = measOf s d' c' := by
  simp [measOf, setMeas, tget, tset, tabGet_set_ne _ _ h]

@[simp] theorem accOf_setAcc (s : State) (d k : Nat) (x : Acc) : accOf (setAcc s d k x) d k = x := by
  simp [accOf, setAcc, tget, tset]

theorem accOf_setAcc_ne (s : State) {d k d' k' : Nat} (h : key d' k' ≠ key d k) (x : Acc) :
    accOf (setAcc s d k x) d' k' = accOf s d' k' := by
  simp [accOf, setAcc, tget, tset, tabGet_set_ne _ _ h]

@[simp] theorem portOf_setPort (s : State) (p : Nat) (x : PortSt) : portOf (setPort s p x) p = x := by
  simp [portOf, setPort, tget, tset]

theorem portOf_setPort_ne (s : State) {p p' : Nat} (h : p' ≠ p) (x : PortSt) :
    portOf (setPort s p x) p' = portOf s p' := by
  simp [portOf, setPort, tget, tset, tabGet_set_ne _ _ h]

@[simp] theorem cmdRing_setCmdRing (s : State) (p n : Nat) (x : CmdRing) : cmdRing (setCmdRing s p n x) p n = x := by
  simp [cmdRing, setCmdRing, tget, tset]

theorem cmdRing_setCmdRing_ne (s : State) {p n p' n' : Nat} (h : 64 * p' + n' ≠ 64 * p + n) (x : CmdRing) :
    cmdRing (setCmdRing s p n x) p' n' = cmdRing s p' n' := by
  simp [cmdRing, setCmdRing, tget, tset, tabGet_set_ne _ _ h]

@[simp] theorem cplRing_setCplRing (s : State) (p n : Nat) (x : CplRing) : cplRing (setCplRing s p n x) p n = x := by
  simp [cplRing, setCplRing, tget, tset]

theorem cplRing_setCplRing_ne (s : State) {p n p' n' : Nat} (h : 64 * p' + n' ≠ 64 * p + n) (x : CplRing) :
    cplRing (setCplRing s p n x) p' n' = cplRing s p' n' := by
  simp [cplRing, setCplRing, tget, tset, tabGet_set_ne _ _ h]

@[simp] theorem evRing_setEvRing (s : State) (p : Nat) (x : EvRing) : evRing (setEvRing s p x) p = x := by
  simp [evRing, setEvRing, tget, tset]

theorem evRing_setEvRing_ne (s : State) {p p' : Nat} (h : p' ≠ p) (x : EvRing) :
    evRing (setEvRing s p x) p' = evRing s p' := by
  simp [evRing, setEvRing, tget, tset, tabGet_set_ne _ _ h]

@[simp] theorem strRing_setStrRing (s : State) (r : Nat) (x : StrRing) : strRing (setStrRing s r x) r = x := by
  simp [strRing, setStrRing, tget, tset]

theorem strRing_setStrRing_ne (s : State) {r r' : Nat} (h : r' ≠ r) (x : StrRing) :
    strRing (setStrRing s r x) r' = strRing s r' := by
  simp [strRing, setStrRing, tget, tset, tabGet_set_ne _ _ h]

@[simp] theorem cfgOf_setCfg (s : State) (d : Nat) (x : CfgSt) : cfgOf (setCfg s d x) d = x := by
  simp [cfgOf, setCfg, tget, tset]

theorem cfgOf_setCfg_ne (s : State) {d d' : Nat} (h : d' ≠ d) (x : CfgSt) :
    cfgOf (setCfg s d x) d' = cfgOf s d' := by
  simp [cfgOf, setCfg, tget, tset, tabGet_set_ne _ _ h]

@[simp] theorem calOf_setCal (s : State) (d n : Nat) (x : Cal) : calOf (setCal s d n x) d n = x := by
  simp [calOf, setCal, tget, tset]

theorem calOf_setCal_ne (s : State) {d n d' n' : Nat} (h : key d' n' ≠ key d n) (x : Cal) :
    calOf (setCal s d n x) d' n' = calOf s d' n' := by
  simp [calOf, setCal, tget, tset, tabGet_set_ne _ _ h]

@[simp] theorem engOf_setEng (s : State) (d e : Nat) (x : Engine) : engOf (setEng s d e x) d e = x := by
  simp [engOf, setEng]

theorem engOf_setEng_ne (s : State) {d e d' e' : Nat} (h : key d' e' ≠ key d e) (x : Engine) :
    engOf (setEng s d e x) d' e' = engOf s d' e' := by
  simp [engOf, setEng, tabGet_set_ne _ _ h]

@[simp] theorem xferOf_setXfer (s : State) (d c : Nat) (x : Xfer) : xferOf (setXfer s d c x) d c = x := by
  simp [xferOf, setXfer, tget, tset]

theorem xferOf_setXfer_ne (s : State) {d c d' c' : Nat} (h : key d' c' ≠ key d c) (x : Xfer) :
    xferOf (setXfer s d c x) d' c' = xferOf s d' c' := by
  simp [xferOf, setXfer, tget, tset, tabGet_set_ne _ _ h]

@[simp] theorem svcOf_setSvc (s : State) (d k : Nat) (x : Svc) : svcOf (setSvc s d k x) d k = x := by
  simp [svcOf, setSvc, tget, tset]

theorem svcOf_setSvc_ne (s : State) {d k d' k' : Nat} (h : key d' k' ≠ key d k) (x : Svc) :
    svcOf (setSvc s d k x) d' k' = svcOf s d' k' := by
  simp [svcOf, setSvc, tget, tset, tabGet_set_ne _ _ h]

@[simp] theorem driveOf_setDrive (s : State) (d p : Nat) (x : Drive) : driveOf (setDrive s d p x) d p = x := by
  simp [driveOf, setDrive, tget, tset]

theorem driveOf_setDrive_ne (s : State) {d p d' p' : Nat} (h : key d' p' ≠ key d p) (x : Drive) :
    driveOf (setDrive s d p x) d' p' = driveOf s d' p' := by
  simp [driveOf, setDrive, tget, tset, tabGet_set_ne _ _ h]

@[simp] theorem seqOf_setSeq (s : State) (q : Nat) (x : Sequencer) : seqOf (setSeq s q x) q = x := by
  simp [seqOf, setSeq, tget, tset]

theorem seqOf_setSeq_ne (s : State) {q q' : Nat} (h : q' ≠ q) (x : Sequencer) :
    seqOf (setSeq s q x) q' = seqOf s q' := by
  simp [seqOf, setSeq, tget, tset, tabGet_set_ne _ _ h]

@[simp] theorem trigInOf_setTrigIn (s : State) (n : Nat) (x : TrigIn) : trigInOf (setTrigIn s n x) n = x := by
  simp [trigInOf, setTrigIn, tget, tset]

theorem trigInOf_setTrigIn_ne (s : State) {n n' : Nat} (h : n' ≠ n) (x : TrigIn) :
    trigInOf (setTrigIn s n x) n' = trigInOf s n' := by
  simp [trigInOf, setTrigIn, tget, tset, tabGet_set_ne _ _ h]

@[simp] theorem trigOutOf_setTrigOut (s : State) (n : Nat) (x : TrigOut) : trigOutOf (setTrigOut s n x) n = x := by
  simp [trigOutOf, setTrigOut, tget, tset]

theorem trigOutOf_setTrigOut_ne (s : State) {n n' : Nat} (h : n' ≠ n) (x : TrigOut) :
    trigOutOf (setTrigOut s n x) n' = trigOutOf s n' := by
  simp [trigOutOf, setTrigOut, tget, tset, tabGet_set_ne _ _ h]

@[simp] theorem negOf_setNeg (s : State) (d : Nat) (x : NegStore) : negOf (setNeg s d x) d = x := by
  simp [negOf, setNeg, tget, tset]

theorem negOf_setNeg_ne (s : State) {d d' : Nat} (h : d' ≠ d) (x : NegStore) :
    negOf (setNeg s d x) d' = negOf s d' := by
  simp [negOf, setNeg, tget, tset, tabGet_set_ne _ _ h]

@[simp] theorem cmpOf_setCmp (s : State) (d k : Nat) (x : Comparator) : cmpOf (setCmp s d k x) d k = x := by
  simp [cmpOf, setCmp, tget, tset]

theorem cmpOf_setCmp_ne (s : State) {d k d' k' : Nat} (h : key d' k' ≠ key d k) (x : Comparator) :
    cmpOf (setCmp s d k x) d' k' = cmpOf s d' k' := by
  simp [cmpOf, setCmp, tget, tset, tabGet_set_ne _ _ h]

@[simp] theorem probeOf_setProbe (s : State) (d p : Nat) (x : Probe) : probeOf (setProbe s d p x) d p = x := by
  simp [probeOf, setProbe, tget, tset]

theorem probeOf_setProbe_ne (s : State) {d p d' p' : Nat} (h : key d' p' ≠ key d p) (x : Probe) :
    probeOf (setProbe s d p x) d' p' = probeOf s d' p' := by
  simp [probeOf, setProbe, tget, tset, tabGet_set_ne _ _ h]

@[simp] theorem pwmOf_setPwm (s : State) (d p : Nat) (x : Pwm) : pwmOf (setPwm s d p x) d p = x := by
  simp [pwmOf, setPwm, tget, tset]

theorem pwmOf_setPwm_ne (s : State) {d p d' p' : Nat} (h : key d' p' ≠ key d p) (x : Pwm) :
    pwmOf (setPwm s d p x) d' p' = pwmOf s d' p' := by
  simp [pwmOf, setPwm, tget, tset, tabGet_set_ne _ _ h]

@[simp] theorem biasOf_setBias (s : State) (d p : Nat) (x : Bias) : biasOf (setBias s d p x) d p = x := by
  simp [biasOf, setBias, tget, tset]

theorem biasOf_setBias_ne (s : State) {d p d' p' : Nat} (h : key d' p' ≠ key d p) (x : Bias) :
    biasOf (setBias s d p x) d' p' = biasOf s d' p' := by
  simp [biasOf, setBias, tget, tset, tabGet_set_ne _ _ h]

@[simp] theorem hkaOf_setHka (s : State) (d : Nat) (x : Hka) : hkaOf (setHka s d x) d = x := by
  simp [hkaOf, setHka, tget, tset]

theorem hkaOf_setHka_ne (s : State) {d d' : Nat} (h : d' ≠ d) (x : Hka) :
    hkaOf (setHka s d x) d' = hkaOf s d' := by
  simp [hkaOf, setHka, tget, tset, tabGet_set_ne _ _ h]

@[simp] theorem diePwr_setDiePwr (s : State) (d : Nat) (x : DiePwr) : diePwr (setDiePwr s d x) d = x := by
  simp [diePwr, setDiePwr, tget, tset]

theorem diePwr_setDiePwr_ne (s : State) {d d' : Nat} (h : d' ≠ d) (x : DiePwr) :
    diePwr (setDiePwr s d x) d' = diePwr s d' := by
  simp [diePwr, setDiePwr, tget, tset, tabGet_set_ne _ _ h]

/-! ## Every other field -/

@[simp] theorem setReg_part (s : State) (d o : Nat) (v : W32) : (setReg s d o v).part = s.part := rfl
@[simp] theorem setReg_now (s : State) (d o : Nat) (v : W32) : (setReg s d o v).now = s.now := rfl
@[simp] theorem setReg_freeCtr (s : State) (d o : Nat) (v : W32) : (setReg s d o v).freeCtr = s.freeCtr := rfl
@[simp] theorem setReg_ready (s : State) (d o : Nat) (v : W32) : (setReg s d o v).ready = s.ready := rfl
@[simp] theorem setReg_lastRead (s : State) (d o : Nat) (v : W32) : (setReg s d o v).lastRead = s.lastRead := rfl
@[simp] theorem setReg_shadows (s : State) (d o : Nat) (v : W32) : (setReg s d o v).shadows = s.shadows := rfl
@[simp] theorem setReg_wo1 (s : State) (d o : Nat) (v : W32) : (setReg s d o v).wo1 = s.wo1 := rfl
@[simp] theorem setReg_cfg (s : State) (d o : Nat) (v : W32) : (setReg s d o v).cfg = s.cfg := rfl
@[simp] theorem setReg_strobes (s : State) (d o : Nat) (v : W32) : (setReg s d o v).strobes = s.strobes := rfl
@[simp] theorem setReg_mem (s : State) (d o : Nat) (v : W32) : (setReg s d o v).mem = s.mem := rfl
@[simp] theorem setReg_host (s : State) (d o : Nat) (v : W32) : (setReg s d o v).host = s.host := rfl
@[simp] theorem setReg_tree (s : State) (d o : Nat) (v : W32) : (setReg s d o v).tree = s.tree := rfl
@[simp] theorem setReg_lanes (s : State) (d o : Nat) (v : W32) : (setReg s d o v).lanes = s.lanes := rfl
@[simp] theorem setReg_clk (s : State) (d o : Nat) (v : W32) : (setReg s d o v).clk = s.clk := rfl
@[simp] theorem setReg_cap (s : State) (d o : Nat) (v : W32) : (setReg s d o v).cap = s.cap := rfl
@[simp] theorem setReg_sht (s : State) (d o : Nat) (v : W32) : (setReg s d o v).sht = s.sht := rfl
@[simp] theorem setReg_spc (s : State) (d o : Nat) (v : W32) : (setReg s d o v).spc = s.spc := rfl
@[simp] theorem setReg_cal (s : State) (d o : Nat) (v : W32) : (setReg s d o v).cal = s.cal := rfl
@[simp] theorem setReg_eng (s : State) (d o : Nat) (v : W32) : (setReg s d o v).eng = s.eng := rfl
@[simp] theorem setReg_xfer (s : State) (d o : Nat) (v : W32) : (setReg s d o v).xfer = s.xfer := rfl
@[simp] theorem setReg_sec (s : State) (d o : Nat) (v : W32) : (setReg s d o v).sec = s.sec := rfl
@[simp] theorem setReg_svc (s : State) (d o : Nat) (v : W32) : (setReg s d o v).svc = s.svc := rfl
@[simp] theorem setReg_prb (s : State) (d o : Nat) (v : W32) : (setReg s d o v).prb = s.prb := rfl
@[simp] theorem setReg_prf (s : State) (d o : Nat) (v : W32) : (setReg s d o v).prf = s.prf := rfl
@[simp] theorem setReg_pwr (s : State) (d o : Nat) (v : W32) : (setReg s d o v).pwr = s.pwr := rfl
@[simp] theorem setReg_tap (s : State) (d o : Nat) (v : W32) : (setReg s d o v).tap = s.tap := rfl
@[simp] theorem setReg_pending (s : State) (d o : Nat) (v : W32) : (setReg s d o v).pending = s.pending := rfl

@[simp] theorem setShadow_part (s : State) (d o : Nat) (v : W32) : (setShadow s d o v).part = s.part := rfl
@[simp] theorem setShadow_now (s : State) (d o : Nat) (v : W32) : (setShadow s d o v).now = s.now := rfl
@[simp] theorem setShadow_freeCtr (s : State) (d o : Nat) (v : W32) : (setShadow s d o v).freeCtr = s.freeCtr := rfl
@[simp] theorem setShadow_ready (s : State) (d o : Nat) (v : W32) : (setShadow s d o v).ready = s.ready := rfl
@[simp] theorem setShadow_lastRead (s : State) (d o : Nat) (v : W32) : (setShadow s d o v).lastRead = s.lastRead := rfl
@[simp] theorem setShadow_regs (s : State) (d o : Nat) (v : W32) : (setShadow s d o v).regs = s.regs := rfl
@[simp] theorem setShadow_wo1 (s : State) (d o : Nat) (v : W32) : (setShadow s d o v).wo1 = s.wo1 := rfl
@[simp] theorem setShadow_cfg (s : State) (d o : Nat) (v : W32) : (setShadow s d o v).cfg = s.cfg := rfl
@[simp] theorem setShadow_strobes (s : State) (d o : Nat) (v : W32) : (setShadow s d o v).strobes = s.strobes := rfl
@[simp] theorem setShadow_mem (s : State) (d o : Nat) (v : W32) : (setShadow s d o v).mem = s.mem := rfl
@[simp] theorem setShadow_host (s : State) (d o : Nat) (v : W32) : (setShadow s d o v).host = s.host := rfl
@[simp] theorem setShadow_tree (s : State) (d o : Nat) (v : W32) : (setShadow s d o v).tree = s.tree := rfl
@[simp] theorem setShadow_lanes (s : State) (d o : Nat) (v : W32) : (setShadow s d o v).lanes = s.lanes := rfl
@[simp] theorem setShadow_clk (s : State) (d o : Nat) (v : W32) : (setShadow s d o v).clk = s.clk := rfl
@[simp] theorem setShadow_cap (s : State) (d o : Nat) (v : W32) : (setShadow s d o v).cap = s.cap := rfl
@[simp] theorem setShadow_sht (s : State) (d o : Nat) (v : W32) : (setShadow s d o v).sht = s.sht := rfl
@[simp] theorem setShadow_spc (s : State) (d o : Nat) (v : W32) : (setShadow s d o v).spc = s.spc := rfl
@[simp] theorem setShadow_cal (s : State) (d o : Nat) (v : W32) : (setShadow s d o v).cal = s.cal := rfl
@[simp] theorem setShadow_eng (s : State) (d o : Nat) (v : W32) : (setShadow s d o v).eng = s.eng := rfl
@[simp] theorem setShadow_xfer (s : State) (d o : Nat) (v : W32) : (setShadow s d o v).xfer = s.xfer := rfl
@[simp] theorem setShadow_sec (s : State) (d o : Nat) (v : W32) : (setShadow s d o v).sec = s.sec := rfl
@[simp] theorem setShadow_svc (s : State) (d o : Nat) (v : W32) : (setShadow s d o v).svc = s.svc := rfl
@[simp] theorem setShadow_prb (s : State) (d o : Nat) (v : W32) : (setShadow s d o v).prb = s.prb := rfl
@[simp] theorem setShadow_prf (s : State) (d o : Nat) (v : W32) : (setShadow s d o v).prf = s.prf := rfl
@[simp] theorem setShadow_pwr (s : State) (d o : Nat) (v : W32) : (setShadow s d o v).pwr = s.pwr := rfl
@[simp] theorem setShadow_tap (s : State) (d o : Nat) (v : W32) : (setShadow s d o v).tap = s.tap := rfl
@[simp] theorem setShadow_pending (s : State) (d o : Nat) (v : W32) : (setShadow s d o v).pending = s.pending := rfl

@[simp] theorem setF_part (s : State) (d : Nat) (f : Fld) (x : Nat) : (setF s d f x).part = s.part := rfl
@[simp] theorem setF_now (s : State) (d : Nat) (f : Fld) (x : Nat) : (setF s d f x).now = s.now := rfl
@[simp] theorem setF_freeCtr (s : State) (d : Nat) (f : Fld) (x : Nat) : (setF s d f x).freeCtr = s.freeCtr := rfl
@[simp] theorem setF_ready (s : State) (d : Nat) (f : Fld) (x : Nat) : (setF s d f x).ready = s.ready := rfl
@[simp] theorem setF_lastRead (s : State) (d : Nat) (f : Fld) (x : Nat) : (setF s d f x).lastRead = s.lastRead := rfl
@[simp] theorem setF_shadows (s : State) (d : Nat) (f : Fld) (x : Nat) : (setF s d f x).shadows = s.shadows := rfl
@[simp] theorem setF_wo1 (s : State) (d : Nat) (f : Fld) (x : Nat) : (setF s d f x).wo1 = s.wo1 := rfl
@[simp] theorem setF_cfg (s : State) (d : Nat) (f : Fld) (x : Nat) : (setF s d f x).cfg = s.cfg := rfl
@[simp] theorem setF_strobes (s : State) (d : Nat) (f : Fld) (x : Nat) : (setF s d f x).strobes = s.strobes := rfl
@[simp] theorem setF_mem (s : State) (d : Nat) (f : Fld) (x : Nat) : (setF s d f x).mem = s.mem := rfl
@[simp] theorem setF_host (s : State) (d : Nat) (f : Fld) (x : Nat) : (setF s d f x).host = s.host := rfl
@[simp] theorem setF_tree (s : State) (d : Nat) (f : Fld) (x : Nat) : (setF s d f x).tree = s.tree := rfl
@[simp] theorem setF_lanes (s : State) (d : Nat) (f : Fld) (x : Nat) : (setF s d f x).lanes = s.lanes := rfl
@[simp] theorem setF_clk (s : State) (d : Nat) (f : Fld) (x : Nat) : (setF s d f x).clk = s.clk := rfl
@[simp] theorem setF_cap (s : State) (d : Nat) (f : Fld) (x : Nat) : (setF s d f x).cap = s.cap := rfl
@[simp] theorem setF_sht (s : State) (d : Nat) (f : Fld) (x : Nat) : (setF s d f x).sht = s.sht := rfl
@[simp] theorem setF_spc (s : State) (d : Nat) (f : Fld) (x : Nat) : (setF s d f x).spc = s.spc := rfl
@[simp] theorem setF_cal (s : State) (d : Nat) (f : Fld) (x : Nat) : (setF s d f x).cal = s.cal := rfl
@[simp] theorem setF_eng (s : State) (d : Nat) (f : Fld) (x : Nat) : (setF s d f x).eng = s.eng := rfl
@[simp] theorem setF_xfer (s : State) (d : Nat) (f : Fld) (x : Nat) : (setF s d f x).xfer = s.xfer := rfl
@[simp] theorem setF_sec (s : State) (d : Nat) (f : Fld) (x : Nat) : (setF s d f x).sec = s.sec := rfl
@[simp] theorem setF_svc (s : State) (d : Nat) (f : Fld) (x : Nat) : (setF s d f x).svc = s.svc := rfl
@[simp] theorem setF_prb (s : State) (d : Nat) (f : Fld) (x : Nat) : (setF s d f x).prb = s.prb := rfl
@[simp] theorem setF_prf (s : State) (d : Nat) (f : Fld) (x : Nat) : (setF s d f x).prf = s.prf := rfl
@[simp] theorem setF_pwr (s : State) (d : Nat) (f : Fld) (x : Nat) : (setF s d f x).pwr = s.pwr := rfl
@[simp] theorem setF_tap (s : State) (d : Nat) (f : Fld) (x : Nat) : (setF s d f x).tap = s.tap := rfl
@[simp] theorem setF_pending (s : State) (d : Nat) (f : Fld) (x : Nat) : (setF s d f x).pending = s.pending := rfl

@[simp] theorem setFlag_part (s : State) (d : Nat) (f : Fld) (b : Bool) : (setFlag s d f b).part = s.part := rfl
@[simp] theorem setFlag_now (s : State) (d : Nat) (f : Fld) (b : Bool) : (setFlag s d f b).now = s.now := rfl
@[simp] theorem setFlag_freeCtr (s : State) (d : Nat) (f : Fld) (b : Bool) : (setFlag s d f b).freeCtr = s.freeCtr := rfl
@[simp] theorem setFlag_ready (s : State) (d : Nat) (f : Fld) (b : Bool) : (setFlag s d f b).ready = s.ready := rfl
@[simp] theorem setFlag_lastRead (s : State) (d : Nat) (f : Fld) (b : Bool) : (setFlag s d f b).lastRead = s.lastRead := rfl
@[simp] theorem setFlag_shadows (s : State) (d : Nat) (f : Fld) (b : Bool) : (setFlag s d f b).shadows = s.shadows := rfl
@[simp] theorem setFlag_wo1 (s : State) (d : Nat) (f : Fld) (b : Bool) : (setFlag s d f b).wo1 = s.wo1 := rfl
@[simp] theorem setFlag_cfg (s : State) (d : Nat) (f : Fld) (b : Bool) : (setFlag s d f b).cfg = s.cfg := rfl
@[simp] theorem setFlag_strobes (s : State) (d : Nat) (f : Fld) (b : Bool) : (setFlag s d f b).strobes = s.strobes := rfl
@[simp] theorem setFlag_mem (s : State) (d : Nat) (f : Fld) (b : Bool) : (setFlag s d f b).mem = s.mem := rfl
@[simp] theorem setFlag_host (s : State) (d : Nat) (f : Fld) (b : Bool) : (setFlag s d f b).host = s.host := rfl
@[simp] theorem setFlag_tree (s : State) (d : Nat) (f : Fld) (b : Bool) : (setFlag s d f b).tree = s.tree := rfl
@[simp] theorem setFlag_lanes (s : State) (d : Nat) (f : Fld) (b : Bool) : (setFlag s d f b).lanes = s.lanes := rfl
@[simp] theorem setFlag_clk (s : State) (d : Nat) (f : Fld) (b : Bool) : (setFlag s d f b).clk = s.clk := rfl
@[simp] theorem setFlag_cap (s : State) (d : Nat) (f : Fld) (b : Bool) : (setFlag s d f b).cap = s.cap := rfl
@[simp] theorem setFlag_sht (s : State) (d : Nat) (f : Fld) (b : Bool) : (setFlag s d f b).sht = s.sht := rfl
@[simp] theorem setFlag_spc (s : State) (d : Nat) (f : Fld) (b : Bool) : (setFlag s d f b).spc = s.spc := rfl
@[simp] theorem setFlag_cal (s : State) (d : Nat) (f : Fld) (b : Bool) : (setFlag s d f b).cal = s.cal := rfl
@[simp] theorem setFlag_eng (s : State) (d : Nat) (f : Fld) (b : Bool) : (setFlag s d f b).eng = s.eng := rfl
@[simp] theorem setFlag_xfer (s : State) (d : Nat) (f : Fld) (b : Bool) : (setFlag s d f b).xfer = s.xfer := rfl
@[simp] theorem setFlag_sec (s : State) (d : Nat) (f : Fld) (b : Bool) : (setFlag s d f b).sec = s.sec := rfl
@[simp] theorem setFlag_svc (s : State) (d : Nat) (f : Fld) (b : Bool) : (setFlag s d f b).svc = s.svc := rfl
@[simp] theorem setFlag_prb (s : State) (d : Nat) (f : Fld) (b : Bool) : (setFlag s d f b).prb = s.prb := rfl
@[simp] theorem setFlag_prf (s : State) (d : Nat) (f : Fld) (b : Bool) : (setFlag s d f b).prf = s.prf := rfl
@[simp] theorem setFlag_pwr (s : State) (d : Nat) (f : Fld) (b : Bool) : (setFlag s d f b).pwr = s.pwr := rfl
@[simp] theorem setFlag_tap (s : State) (d : Nat) (f : Fld) (b : Bool) : (setFlag s d f b).tap = s.tap := rfl
@[simp] theorem setFlag_pending (s : State) (d : Nat) (f : Fld) (b : Bool) : (setFlag s d f b).pending = s.pending := rfl

@[simp] theorem setUnit_part (s : State) (u : Nat) (x : Unit) : (setUnit s u x).part = s.part := rfl
@[simp] theorem setUnit_now (s : State) (u : Nat) (x : Unit) : (setUnit s u x).now = s.now := rfl
@[simp] theorem setUnit_freeCtr (s : State) (u : Nat) (x : Unit) : (setUnit s u x).freeCtr = s.freeCtr := rfl
@[simp] theorem setUnit_ready (s : State) (u : Nat) (x : Unit) : (setUnit s u x).ready = s.ready := rfl
@[simp] theorem setUnit_lastRead (s : State) (u : Nat) (x : Unit) : (setUnit s u x).lastRead = s.lastRead := rfl
@[simp] theorem setUnit_regs (s : State) (u : Nat) (x : Unit) : (setUnit s u x).regs = s.regs := rfl
@[simp] theorem setUnit_shadows (s : State) (u : Nat) (x : Unit) : (setUnit s u x).shadows = s.shadows := rfl
@[simp] theorem setUnit_wo1 (s : State) (u : Nat) (x : Unit) : (setUnit s u x).wo1 = s.wo1 := rfl
@[simp] theorem setUnit_cfg (s : State) (u : Nat) (x : Unit) : (setUnit s u x).cfg = s.cfg := rfl
@[simp] theorem setUnit_strobes (s : State) (u : Nat) (x : Unit) : (setUnit s u x).strobes = s.strobes := rfl
@[simp] theorem setUnit_mem (s : State) (u : Nat) (x : Unit) : (setUnit s u x).mem = s.mem := rfl
@[simp] theorem setUnit_host (s : State) (u : Nat) (x : Unit) : (setUnit s u x).host = s.host := rfl
@[simp] theorem setUnit_lanes (s : State) (u : Nat) (x : Unit) : (setUnit s u x).lanes = s.lanes := rfl
@[simp] theorem setUnit_clk (s : State) (u : Nat) (x : Unit) : (setUnit s u x).clk = s.clk := rfl
@[simp] theorem setUnit_cap (s : State) (u : Nat) (x : Unit) : (setUnit s u x).cap = s.cap := rfl
@[simp] theorem setUnit_sht (s : State) (u : Nat) (x : Unit) : (setUnit s u x).sht = s.sht := rfl
@[simp] theorem setUnit_spc (s : State) (u : Nat) (x : Unit) : (setUnit s u x).spc = s.spc := rfl
@[simp] theorem setUnit_cal (s : State) (u : Nat) (x : Unit) : (setUnit s u x).cal = s.cal := rfl
@[simp] theorem setUnit_eng (s : State) (u : Nat) (x : Unit) : (setUnit s u x).eng = s.eng := rfl
@[simp] theorem setUnit_xfer (s : State) (u : Nat) (x : Unit) : (setUnit s u x).xfer = s.xfer := rfl
@[simp] theorem setUnit_sec (s : State) (u : Nat) (x : Unit) : (setUnit s u x).sec = s.sec := rfl
@[simp] theorem setUnit_svc (s : State) (u : Nat) (x : Unit) : (setUnit s u x).svc = s.svc := rfl
@[simp] theorem setUnit_prb (s : State) (u : Nat) (x : Unit) : (setUnit s u x).prb = s.prb := rfl
@[simp] theorem setUnit_prf (s : State) (u : Nat) (x : Unit) : (setUnit s u x).prf = s.prf := rfl
@[simp] theorem setUnit_pwr (s : State) (u : Nat) (x : Unit) : (setUnit s u x).pwr = s.pwr := rfl
@[simp] theorem setUnit_tap (s : State) (u : Nat) (x : Unit) : (setUnit s u x).tap = s.tap := rfl
@[simp] theorem setUnit_pending (s : State) (u : Nat) (x : Unit) : (setUnit s u x).pending = s.pending := rfl

@[simp] theorem setGroup_part (s : State) (g : Nat) (x : Option Group) : (setGroup s g x).part = s.part := rfl
@[simp] theorem setGroup_now (s : State) (g : Nat) (x : Option Group) : (setGroup s g x).now = s.now := rfl
@[simp] theorem setGroup_freeCtr (s : State) (g : Nat) (x : Option Group) : (setGroup s g x).freeCtr = s.freeCtr := rfl
@[simp] theorem setGroup_ready (s : State) (g : Nat) (x : Option Group) : (setGroup s g x).ready = s.ready := rfl
@[simp] theorem setGroup_lastRead (s : State) (g : Nat) (x : Option Group) : (setGroup s g x).lastRead = s.lastRead := rfl
@[simp] theorem setGroup_regs (s : State) (g : Nat) (x : Option Group) : (setGroup s g x).regs = s.regs := rfl
@[simp] theorem setGroup_shadows (s : State) (g : Nat) (x : Option Group) : (setGroup s g x).shadows = s.shadows := rfl
@[simp] theorem setGroup_wo1 (s : State) (g : Nat) (x : Option Group) : (setGroup s g x).wo1 = s.wo1 := rfl
@[simp] theorem setGroup_cfg (s : State) (g : Nat) (x : Option Group) : (setGroup s g x).cfg = s.cfg := rfl
@[simp] theorem setGroup_strobes (s : State) (g : Nat) (x : Option Group) : (setGroup s g x).strobes = s.strobes := rfl
@[simp] theorem setGroup_mem (s : State) (g : Nat) (x : Option Group) : (setGroup s g x).mem = s.mem := rfl
@[simp] theorem setGroup_host (s : State) (g : Nat) (x : Option Group) : (setGroup s g x).host = s.host := rfl
@[simp] theorem setGroup_lanes (s : State) (g : Nat) (x : Option Group) : (setGroup s g x).lanes = s.lanes := rfl
@[simp] theorem setGroup_clk (s : State) (g : Nat) (x : Option Group) : (setGroup s g x).clk = s.clk := rfl
@[simp] theorem setGroup_cap (s : State) (g : Nat) (x : Option Group) : (setGroup s g x).cap = s.cap := rfl
@[simp] theorem setGroup_sht (s : State) (g : Nat) (x : Option Group) : (setGroup s g x).sht = s.sht := rfl
@[simp] theorem setGroup_spc (s : State) (g : Nat) (x : Option Group) : (setGroup s g x).spc = s.spc := rfl
@[simp] theorem setGroup_cal (s : State) (g : Nat) (x : Option Group) : (setGroup s g x).cal = s.cal := rfl
@[simp] theorem setGroup_eng (s : State) (g : Nat) (x : Option Group) : (setGroup s g x).eng = s.eng := rfl
@[simp] theorem setGroup_xfer (s : State) (g : Nat) (x : Option Group) : (setGroup s g x).xfer = s.xfer := rfl
@[simp] theorem setGroup_sec (s : State) (g : Nat) (x : Option Group) : (setGroup s g x).sec = s.sec := rfl
@[simp] theorem setGroup_svc (s : State) (g : Nat) (x : Option Group) : (setGroup s g x).svc = s.svc := rfl
@[simp] theorem setGroup_prb (s : State) (g : Nat) (x : Option Group) : (setGroup s g x).prb = s.prb := rfl
@[simp] theorem setGroup_prf (s : State) (g : Nat) (x : Option Group) : (setGroup s g x).prf = s.prf := rfl
@[simp] theorem setGroup_pwr (s : State) (g : Nat) (x : Option Group) : (setGroup s g x).pwr = s.pwr := rfl
@[simp] theorem setGroup_tap (s : State) (g : Nat) (x : Option Group) : (setGroup s g x).tap = s.tap := rfl
@[simp] theorem setGroup_pending (s : State) (g : Nat) (x : Option Group) : (setGroup s g x).pending = s.pending := rfl

@[simp] theorem setLane_part (s : State) (d n : Nat) (l : Lane) : (setLane s d n l).part = s.part := rfl
@[simp] theorem setLane_now (s : State) (d n : Nat) (l : Lane) : (setLane s d n l).now = s.now := rfl
@[simp] theorem setLane_freeCtr (s : State) (d n : Nat) (l : Lane) : (setLane s d n l).freeCtr = s.freeCtr := rfl
@[simp] theorem setLane_ready (s : State) (d n : Nat) (l : Lane) : (setLane s d n l).ready = s.ready := rfl
@[simp] theorem setLane_lastRead (s : State) (d n : Nat) (l : Lane) : (setLane s d n l).lastRead = s.lastRead := rfl
@[simp] theorem setLane_regs (s : State) (d n : Nat) (l : Lane) : (setLane s d n l).regs = s.regs := rfl
@[simp] theorem setLane_shadows (s : State) (d n : Nat) (l : Lane) : (setLane s d n l).shadows = s.shadows := rfl
@[simp] theorem setLane_wo1 (s : State) (d n : Nat) (l : Lane) : (setLane s d n l).wo1 = s.wo1 := rfl
@[simp] theorem setLane_cfg (s : State) (d n : Nat) (l : Lane) : (setLane s d n l).cfg = s.cfg := rfl
@[simp] theorem setLane_strobes (s : State) (d n : Nat) (l : Lane) : (setLane s d n l).strobes = s.strobes := rfl
@[simp] theorem setLane_mem (s : State) (d n : Nat) (l : Lane) : (setLane s d n l).mem = s.mem := rfl
@[simp] theorem setLane_host (s : State) (d n : Nat) (l : Lane) : (setLane s d n l).host = s.host := rfl
@[simp] theorem setLane_tree (s : State) (d n : Nat) (l : Lane) : (setLane s d n l).tree = s.tree := rfl
@[simp] theorem setLane_clk (s : State) (d n : Nat) (l : Lane) : (setLane s d n l).clk = s.clk := rfl
@[simp] theorem setLane_cap (s : State) (d n : Nat) (l : Lane) : (setLane s d n l).cap = s.cap := rfl
@[simp] theorem setLane_sht (s : State) (d n : Nat) (l : Lane) : (setLane s d n l).sht = s.sht := rfl
@[simp] theorem setLane_spc (s : State) (d n : Nat) (l : Lane) : (setLane s d n l).spc = s.spc := rfl
@[simp] theorem setLane_cal (s : State) (d n : Nat) (l : Lane) : (setLane s d n l).cal = s.cal := rfl
@[simp] theorem setLane_eng (s : State) (d n : Nat) (l : Lane) : (setLane s d n l).eng = s.eng := rfl
@[simp] theorem setLane_xfer (s : State) (d n : Nat) (l : Lane) : (setLane s d n l).xfer = s.xfer := rfl
@[simp] theorem setLane_sec (s : State) (d n : Nat) (l : Lane) : (setLane s d n l).sec = s.sec := rfl
@[simp] theorem setLane_svc (s : State) (d n : Nat) (l : Lane) : (setLane s d n l).svc = s.svc := rfl
@[simp] theorem setLane_prb (s : State) (d n : Nat) (l : Lane) : (setLane s d n l).prb = s.prb := rfl
@[simp] theorem setLane_prf (s : State) (d n : Nat) (l : Lane) : (setLane s d n l).prf = s.prf := rfl
@[simp] theorem setLane_pwr (s : State) (d n : Nat) (l : Lane) : (setLane s d n l).pwr = s.pwr := rfl
@[simp] theorem setLane_tap (s : State) (d n : Nat) (l : Lane) : (setLane s d n l).tap = s.tap := rfl
@[simp] theorem setLane_pending (s : State) (d n : Nat) (l : Lane) : (setLane s d n l).pending = s.pending := rfl

@[simp] theorem setDieClk_part (s : State) (d : Nat) (x : DieClk) : (setDieClk s d x).part = s.part := rfl
@[simp] theorem setDieClk_now (s : State) (d : Nat) (x : DieClk) : (setDieClk s d x).now = s.now := rfl
@[simp] theorem setDieClk_freeCtr (s : State) (d : Nat) (x : DieClk) : (setDieClk s d x).freeCtr = s.freeCtr := rfl
@[simp] theorem setDieClk_ready (s : State) (d : Nat) (x : DieClk) : (setDieClk s d x).ready = s.ready := rfl
@[simp] theorem setDieClk_lastRead (s : State) (d : Nat) (x : DieClk) : (setDieClk s d x).lastRead = s.lastRead := rfl
@[simp] theorem setDieClk_regs (s : State) (d : Nat) (x : DieClk) : (setDieClk s d x).regs = s.regs := rfl
@[simp] theorem setDieClk_shadows (s : State) (d : Nat) (x : DieClk) : (setDieClk s d x).shadows = s.shadows := rfl
@[simp] theorem setDieClk_wo1 (s : State) (d : Nat) (x : DieClk) : (setDieClk s d x).wo1 = s.wo1 := rfl
@[simp] theorem setDieClk_cfg (s : State) (d : Nat) (x : DieClk) : (setDieClk s d x).cfg = s.cfg := rfl
@[simp] theorem setDieClk_strobes (s : State) (d : Nat) (x : DieClk) : (setDieClk s d x).strobes = s.strobes := rfl
@[simp] theorem setDieClk_mem (s : State) (d : Nat) (x : DieClk) : (setDieClk s d x).mem = s.mem := rfl
@[simp] theorem setDieClk_host (s : State) (d : Nat) (x : DieClk) : (setDieClk s d x).host = s.host := rfl
@[simp] theorem setDieClk_tree (s : State) (d : Nat) (x : DieClk) : (setDieClk s d x).tree = s.tree := rfl
@[simp] theorem setDieClk_lanes (s : State) (d : Nat) (x : DieClk) : (setDieClk s d x).lanes = s.lanes := rfl
@[simp] theorem setDieClk_cap (s : State) (d : Nat) (x : DieClk) : (setDieClk s d x).cap = s.cap := rfl
@[simp] theorem setDieClk_sht (s : State) (d : Nat) (x : DieClk) : (setDieClk s d x).sht = s.sht := rfl
@[simp] theorem setDieClk_spc (s : State) (d : Nat) (x : DieClk) : (setDieClk s d x).spc = s.spc := rfl
@[simp] theorem setDieClk_cal (s : State) (d : Nat) (x : DieClk) : (setDieClk s d x).cal = s.cal := rfl
@[simp] theorem setDieClk_eng (s : State) (d : Nat) (x : DieClk) : (setDieClk s d x).eng = s.eng := rfl
@[simp] theorem setDieClk_xfer (s : State) (d : Nat) (x : DieClk) : (setDieClk s d x).xfer = s.xfer := rfl
@[simp] theorem setDieClk_sec (s : State) (d : Nat) (x : DieClk) : (setDieClk s d x).sec = s.sec := rfl
@[simp] theorem setDieClk_svc (s : State) (d : Nat) (x : DieClk) : (setDieClk s d x).svc = s.svc := rfl
@[simp] theorem setDieClk_prb (s : State) (d : Nat) (x : DieClk) : (setDieClk s d x).prb = s.prb := rfl
@[simp] theorem setDieClk_prf (s : State) (d : Nat) (x : DieClk) : (setDieClk s d x).prf = s.prf := rfl
@[simp] theorem setDieClk_pwr (s : State) (d : Nat) (x : DieClk) : (setDieClk s d x).pwr = s.pwr := rfl
@[simp] theorem setDieClk_tap (s : State) (d : Nat) (x : DieClk) : (setDieClk s d x).tap = s.tap := rfl
@[simp] theorem setDieClk_pending (s : State) (d : Nat) (x : DieClk) : (setDieClk s d x).pending = s.pending := rfl

@[simp] theorem setPll_part (s : State) (d k : Nat) (p : Pll) : (setPll s d k p).part = s.part := rfl
@[simp] theorem setPll_now (s : State) (d k : Nat) (p : Pll) : (setPll s d k p).now = s.now := rfl
@[simp] theorem setPll_freeCtr (s : State) (d k : Nat) (p : Pll) : (setPll s d k p).freeCtr = s.freeCtr := rfl
@[simp] theorem setPll_ready (s : State) (d k : Nat) (p : Pll) : (setPll s d k p).ready = s.ready := rfl
@[simp] theorem setPll_lastRead (s : State) (d k : Nat) (p : Pll) : (setPll s d k p).lastRead = s.lastRead := rfl
@[simp] theorem setPll_regs (s : State) (d k : Nat) (p : Pll) : (setPll s d k p).regs = s.regs := rfl
@[simp] theorem setPll_shadows (s : State) (d k : Nat) (p : Pll) : (setPll s d k p).shadows = s.shadows := rfl
@[simp] theorem setPll_wo1 (s : State) (d k : Nat) (p : Pll) : (setPll s d k p).wo1 = s.wo1 := rfl
@[simp] theorem setPll_cfg (s : State) (d k : Nat) (p : Pll) : (setPll s d k p).cfg = s.cfg := rfl
@[simp] theorem setPll_strobes (s : State) (d k : Nat) (p : Pll) : (setPll s d k p).strobes = s.strobes := rfl
@[simp] theorem setPll_mem (s : State) (d k : Nat) (p : Pll) : (setPll s d k p).mem = s.mem := rfl
@[simp] theorem setPll_host (s : State) (d k : Nat) (p : Pll) : (setPll s d k p).host = s.host := rfl
@[simp] theorem setPll_tree (s : State) (d k : Nat) (p : Pll) : (setPll s d k p).tree = s.tree := rfl
@[simp] theorem setPll_lanes (s : State) (d k : Nat) (p : Pll) : (setPll s d k p).lanes = s.lanes := rfl
@[simp] theorem setPll_cap (s : State) (d k : Nat) (p : Pll) : (setPll s d k p).cap = s.cap := rfl
@[simp] theorem setPll_sht (s : State) (d k : Nat) (p : Pll) : (setPll s d k p).sht = s.sht := rfl
@[simp] theorem setPll_spc (s : State) (d k : Nat) (p : Pll) : (setPll s d k p).spc = s.spc := rfl
@[simp] theorem setPll_cal (s : State) (d k : Nat) (p : Pll) : (setPll s d k p).cal = s.cal := rfl
@[simp] theorem setPll_eng (s : State) (d k : Nat) (p : Pll) : (setPll s d k p).eng = s.eng := rfl
@[simp] theorem setPll_xfer (s : State) (d k : Nat) (p : Pll) : (setPll s d k p).xfer = s.xfer := rfl
@[simp] theorem setPll_sec (s : State) (d k : Nat) (p : Pll) : (setPll s d k p).sec = s.sec := rfl
@[simp] theorem setPll_svc (s : State) (d k : Nat) (p : Pll) : (setPll s d k p).svc = s.svc := rfl
@[simp] theorem setPll_prb (s : State) (d k : Nat) (p : Pll) : (setPll s d k p).prb = s.prb := rfl
@[simp] theorem setPll_prf (s : State) (d k : Nat) (p : Pll) : (setPll s d k p).prf = s.prf := rfl
@[simp] theorem setPll_pwr (s : State) (d k : Nat) (p : Pll) : (setPll s d k p).pwr = s.pwr := rfl
@[simp] theorem setPll_tap (s : State) (d k : Nat) (p : Pll) : (setPll s d k p).tap = s.tap := rfl
@[simp] theorem setPll_pending (s : State) (d k : Nat) (p : Pll) : (setPll s d k p).pending = s.pending := rfl

@[simp] theorem setTdc_part (s : State) (d : Nat) (t : Tdc) : (setTdc s d t).part = s.part := rfl
@[simp] theorem setTdc_now (s : State) (d : Nat) (t : Tdc) : (setTdc s d t).now = s.now := rfl
@[simp] theorem setTdc_freeCtr (s : State) (d : Nat) (t : Tdc) : (setTdc s d t).freeCtr = s.freeCtr := rfl
@[simp] theorem setTdc_ready (s : State) (d : Nat) (t : Tdc) : (setTdc s d t).ready = s.ready := rfl
@[simp] theorem setTdc_lastRead (s : State) (d : Nat) (t : Tdc) : (setTdc s d t).lastRead = s.lastRead := rfl
@[simp] theorem setTdc_regs (s : State) (d : Nat) (t : Tdc) : (setTdc s d t).regs = s.regs := rfl
@[simp] theorem setTdc_shadows (s : State) (d : Nat) (t : Tdc) : (setTdc s d t).shadows = s.shadows := rfl
@[simp] theorem setTdc_wo1 (s : State) (d : Nat) (t : Tdc) : (setTdc s d t).wo1 = s.wo1 := rfl
@[simp] theorem setTdc_cfg (s : State) (d : Nat) (t : Tdc) : (setTdc s d t).cfg = s.cfg := rfl
@[simp] theorem setTdc_strobes (s : State) (d : Nat) (t : Tdc) : (setTdc s d t).strobes = s.strobes := rfl
@[simp] theorem setTdc_mem (s : State) (d : Nat) (t : Tdc) : (setTdc s d t).mem = s.mem := rfl
@[simp] theorem setTdc_host (s : State) (d : Nat) (t : Tdc) : (setTdc s d t).host = s.host := rfl
@[simp] theorem setTdc_tree (s : State) (d : Nat) (t : Tdc) : (setTdc s d t).tree = s.tree := rfl
@[simp] theorem setTdc_lanes (s : State) (d : Nat) (t : Tdc) : (setTdc s d t).lanes = s.lanes := rfl
@[simp] theorem setTdc_cap (s : State) (d : Nat) (t : Tdc) : (setTdc s d t).cap = s.cap := rfl
@[simp] theorem setTdc_sht (s : State) (d : Nat) (t : Tdc) : (setTdc s d t).sht = s.sht := rfl
@[simp] theorem setTdc_spc (s : State) (d : Nat) (t : Tdc) : (setTdc s d t).spc = s.spc := rfl
@[simp] theorem setTdc_cal (s : State) (d : Nat) (t : Tdc) : (setTdc s d t).cal = s.cal := rfl
@[simp] theorem setTdc_eng (s : State) (d : Nat) (t : Tdc) : (setTdc s d t).eng = s.eng := rfl
@[simp] theorem setTdc_xfer (s : State) (d : Nat) (t : Tdc) : (setTdc s d t).xfer = s.xfer := rfl
@[simp] theorem setTdc_sec (s : State) (d : Nat) (t : Tdc) : (setTdc s d t).sec = s.sec := rfl
@[simp] theorem setTdc_svc (s : State) (d : Nat) (t : Tdc) : (setTdc s d t).svc = s.svc := rfl
@[simp] theorem setTdc_prb (s : State) (d : Nat) (t : Tdc) : (setTdc s d t).prb = s.prb := rfl
@[simp] theorem setTdc_prf (s : State) (d : Nat) (t : Tdc) : (setTdc s d t).prf = s.prf := rfl
@[simp] theorem setTdc_pwr (s : State) (d : Nat) (t : Tdc) : (setTdc s d t).pwr = s.pwr := rfl
@[simp] theorem setTdc_tap (s : State) (d : Nat) (t : Tdc) : (setTdc s d t).tap = s.tap := rfl
@[simp] theorem setTdc_pending (s : State) (d : Nat) (t : Tdc) : (setTdc s d t).pending = s.pending := rfl

@[simp] theorem setRefOut_part (s : State) (r : RefOut) : (setRefOut s r).part = s.part := rfl
@[simp] theorem setRefOut_now (s : State) (r : RefOut) : (setRefOut s r).now = s.now := rfl
@[simp] theorem setRefOut_freeCtr (s : State) (r : RefOut) : (setRefOut s r).freeCtr = s.freeCtr := rfl
@[simp] theorem setRefOut_ready (s : State) (r : RefOut) : (setRefOut s r).ready = s.ready := rfl
@[simp] theorem setRefOut_lastRead (s : State) (r : RefOut) : (setRefOut s r).lastRead = s.lastRead := rfl
@[simp] theorem setRefOut_regs (s : State) (r : RefOut) : (setRefOut s r).regs = s.regs := rfl
@[simp] theorem setRefOut_shadows (s : State) (r : RefOut) : (setRefOut s r).shadows = s.shadows := rfl
@[simp] theorem setRefOut_wo1 (s : State) (r : RefOut) : (setRefOut s r).wo1 = s.wo1 := rfl
@[simp] theorem setRefOut_cfg (s : State) (r : RefOut) : (setRefOut s r).cfg = s.cfg := rfl
@[simp] theorem setRefOut_strobes (s : State) (r : RefOut) : (setRefOut s r).strobes = s.strobes := rfl
@[simp] theorem setRefOut_mem (s : State) (r : RefOut) : (setRefOut s r).mem = s.mem := rfl
@[simp] theorem setRefOut_host (s : State) (r : RefOut) : (setRefOut s r).host = s.host := rfl
@[simp] theorem setRefOut_tree (s : State) (r : RefOut) : (setRefOut s r).tree = s.tree := rfl
@[simp] theorem setRefOut_lanes (s : State) (r : RefOut) : (setRefOut s r).lanes = s.lanes := rfl
@[simp] theorem setRefOut_cap (s : State) (r : RefOut) : (setRefOut s r).cap = s.cap := rfl
@[simp] theorem setRefOut_sht (s : State) (r : RefOut) : (setRefOut s r).sht = s.sht := rfl
@[simp] theorem setRefOut_spc (s : State) (r : RefOut) : (setRefOut s r).spc = s.spc := rfl
@[simp] theorem setRefOut_cal (s : State) (r : RefOut) : (setRefOut s r).cal = s.cal := rfl
@[simp] theorem setRefOut_eng (s : State) (r : RefOut) : (setRefOut s r).eng = s.eng := rfl
@[simp] theorem setRefOut_xfer (s : State) (r : RefOut) : (setRefOut s r).xfer = s.xfer := rfl
@[simp] theorem setRefOut_sec (s : State) (r : RefOut) : (setRefOut s r).sec = s.sec := rfl
@[simp] theorem setRefOut_svc (s : State) (r : RefOut) : (setRefOut s r).svc = s.svc := rfl
@[simp] theorem setRefOut_prb (s : State) (r : RefOut) : (setRefOut s r).prb = s.prb := rfl
@[simp] theorem setRefOut_prf (s : State) (r : RefOut) : (setRefOut s r).prf = s.prf := rfl
@[simp] theorem setRefOut_pwr (s : State) (r : RefOut) : (setRefOut s r).pwr = s.pwr := rfl
@[simp] theorem setRefOut_tap (s : State) (r : RefOut) : (setRefOut s r).tap = s.tap := rfl
@[simp] theorem setRefOut_pending (s : State) (r : RefOut) : (setRefOut s r).pending = s.pending := rfl

@[simp] theorem setStream_part (s : State) (d i : Nat) (x : Stream) : (setStream s d i x).part = s.part := rfl
@[simp] theorem setStream_now (s : State) (d i : Nat) (x : Stream) : (setStream s d i x).now = s.now := rfl
@[simp] theorem setStream_freeCtr (s : State) (d i : Nat) (x : Stream) : (setStream s d i x).freeCtr = s.freeCtr := rfl
@[simp] theorem setStream_ready (s : State) (d i : Nat) (x : Stream) : (setStream s d i x).ready = s.ready := rfl
@[simp] theorem setStream_lastRead (s : State) (d i : Nat) (x : Stream) : (setStream s d i x).lastRead = s.lastRead := rfl
@[simp] theorem setStream_regs (s : State) (d i : Nat) (x : Stream) : (setStream s d i x).regs = s.regs := rfl
@[simp] theorem setStream_shadows (s : State) (d i : Nat) (x : Stream) : (setStream s d i x).shadows = s.shadows := rfl
@[simp] theorem setStream_wo1 (s : State) (d i : Nat) (x : Stream) : (setStream s d i x).wo1 = s.wo1 := rfl
@[simp] theorem setStream_cfg (s : State) (d i : Nat) (x : Stream) : (setStream s d i x).cfg = s.cfg := rfl
@[simp] theorem setStream_strobes (s : State) (d i : Nat) (x : Stream) : (setStream s d i x).strobes = s.strobes := rfl
@[simp] theorem setStream_mem (s : State) (d i : Nat) (x : Stream) : (setStream s d i x).mem = s.mem := rfl
@[simp] theorem setStream_host (s : State) (d i : Nat) (x : Stream) : (setStream s d i x).host = s.host := rfl
@[simp] theorem setStream_tree (s : State) (d i : Nat) (x : Stream) : (setStream s d i x).tree = s.tree := rfl
@[simp] theorem setStream_lanes (s : State) (d i : Nat) (x : Stream) : (setStream s d i x).lanes = s.lanes := rfl
@[simp] theorem setStream_clk (s : State) (d i : Nat) (x : Stream) : (setStream s d i x).clk = s.clk := rfl
@[simp] theorem setStream_sht (s : State) (d i : Nat) (x : Stream) : (setStream s d i x).sht = s.sht := rfl
@[simp] theorem setStream_spc (s : State) (d i : Nat) (x : Stream) : (setStream s d i x).spc = s.spc := rfl
@[simp] theorem setStream_cal (s : State) (d i : Nat) (x : Stream) : (setStream s d i x).cal = s.cal := rfl
@[simp] theorem setStream_eng (s : State) (d i : Nat) (x : Stream) : (setStream s d i x).eng = s.eng := rfl
@[simp] theorem setStream_xfer (s : State) (d i : Nat) (x : Stream) : (setStream s d i x).xfer = s.xfer := rfl
@[simp] theorem setStream_sec (s : State) (d i : Nat) (x : Stream) : (setStream s d i x).sec = s.sec := rfl
@[simp] theorem setStream_svc (s : State) (d i : Nat) (x : Stream) : (setStream s d i x).svc = s.svc := rfl
@[simp] theorem setStream_prb (s : State) (d i : Nat) (x : Stream) : (setStream s d i x).prb = s.prb := rfl
@[simp] theorem setStream_prf (s : State) (d i : Nat) (x : Stream) : (setStream s d i x).prf = s.prf := rfl
@[simp] theorem setStream_pwr (s : State) (d i : Nat) (x : Stream) : (setStream s d i x).pwr = s.pwr := rfl
@[simp] theorem setStream_tap (s : State) (d i : Nat) (x : Stream) : (setStream s d i x).tap = s.tap := rfl
@[simp] theorem setStream_pending (s : State) (d i : Nat) (x : Stream) : (setStream s d i x).pending = s.pending := rfl

@[simp] theorem setPoolFree_part (s : State) (d n : Nat) : (setPoolFree s d n).part = s.part := rfl
@[simp] theorem setPoolFree_now (s : State) (d n : Nat) : (setPoolFree s d n).now = s.now := rfl
@[simp] theorem setPoolFree_freeCtr (s : State) (d n : Nat) : (setPoolFree s d n).freeCtr = s.freeCtr := rfl
@[simp] theorem setPoolFree_ready (s : State) (d n : Nat) : (setPoolFree s d n).ready = s.ready := rfl
@[simp] theorem setPoolFree_lastRead (s : State) (d n : Nat) : (setPoolFree s d n).lastRead = s.lastRead := rfl
@[simp] theorem setPoolFree_regs (s : State) (d n : Nat) : (setPoolFree s d n).regs = s.regs := rfl
@[simp] theorem setPoolFree_shadows (s : State) (d n : Nat) : (setPoolFree s d n).shadows = s.shadows := rfl
@[simp] theorem setPoolFree_wo1 (s : State) (d n : Nat) : (setPoolFree s d n).wo1 = s.wo1 := rfl
@[simp] theorem setPoolFree_cfg (s : State) (d n : Nat) : (setPoolFree s d n).cfg = s.cfg := rfl
@[simp] theorem setPoolFree_strobes (s : State) (d n : Nat) : (setPoolFree s d n).strobes = s.strobes := rfl
@[simp] theorem setPoolFree_mem (s : State) (d n : Nat) : (setPoolFree s d n).mem = s.mem := rfl
@[simp] theorem setPoolFree_host (s : State) (d n : Nat) : (setPoolFree s d n).host = s.host := rfl
@[simp] theorem setPoolFree_tree (s : State) (d n : Nat) : (setPoolFree s d n).tree = s.tree := rfl
@[simp] theorem setPoolFree_lanes (s : State) (d n : Nat) : (setPoolFree s d n).lanes = s.lanes := rfl
@[simp] theorem setPoolFree_clk (s : State) (d n : Nat) : (setPoolFree s d n).clk = s.clk := rfl
@[simp] theorem setPoolFree_sht (s : State) (d n : Nat) : (setPoolFree s d n).sht = s.sht := rfl
@[simp] theorem setPoolFree_spc (s : State) (d n : Nat) : (setPoolFree s d n).spc = s.spc := rfl
@[simp] theorem setPoolFree_cal (s : State) (d n : Nat) : (setPoolFree s d n).cal = s.cal := rfl
@[simp] theorem setPoolFree_eng (s : State) (d n : Nat) : (setPoolFree s d n).eng = s.eng := rfl
@[simp] theorem setPoolFree_xfer (s : State) (d n : Nat) : (setPoolFree s d n).xfer = s.xfer := rfl
@[simp] theorem setPoolFree_sec (s : State) (d n : Nat) : (setPoolFree s d n).sec = s.sec := rfl
@[simp] theorem setPoolFree_svc (s : State) (d n : Nat) : (setPoolFree s d n).svc = s.svc := rfl
@[simp] theorem setPoolFree_prb (s : State) (d n : Nat) : (setPoolFree s d n).prb = s.prb := rfl
@[simp] theorem setPoolFree_prf (s : State) (d n : Nat) : (setPoolFree s d n).prf = s.prf := rfl
@[simp] theorem setPoolFree_pwr (s : State) (d n : Nat) : (setPoolFree s d n).pwr = s.pwr := rfl
@[simp] theorem setPoolFree_tap (s : State) (d n : Nat) : (setPoolFree s d n).tap = s.tap := rfl
@[simp] theorem setPoolFree_pending (s : State) (d n : Nat) : (setPoolFree s d n).pending = s.pending := rfl

@[simp] theorem setChain_part (s : State) (d c : Nat) (x : Chain) : (setChain s d c x).part = s.part := rfl
@[simp] theorem setChain_now (s : State) (d c : Nat) (x : Chain) : (setChain s d c x).now = s.now := rfl
@[simp] theorem setChain_freeCtr (s : State) (d c : Nat) (x : Chain) : (setChain s d c x).freeCtr = s.freeCtr := rfl
@[simp] theorem setChain_ready (s : State) (d c : Nat) (x : Chain) : (setChain s d c x).ready = s.ready := rfl
@[simp] theorem setChain_lastRead (s : State) (d c : Nat) (x : Chain) : (setChain s d c x).lastRead = s.lastRead := rfl
@[simp] theorem setChain_regs (s : State) (d c : Nat) (x : Chain) : (setChain s d c x).regs = s.regs := rfl
@[simp] theorem setChain_shadows (s : State) (d c : Nat) (x : Chain) : (setChain s d c x).shadows = s.shadows := rfl
@[simp] theorem setChain_wo1 (s : State) (d c : Nat) (x : Chain) : (setChain s d c x).wo1 = s.wo1 := rfl
@[simp] theorem setChain_cfg (s : State) (d c : Nat) (x : Chain) : (setChain s d c x).cfg = s.cfg := rfl
@[simp] theorem setChain_strobes (s : State) (d c : Nat) (x : Chain) : (setChain s d c x).strobes = s.strobes := rfl
@[simp] theorem setChain_mem (s : State) (d c : Nat) (x : Chain) : (setChain s d c x).mem = s.mem := rfl
@[simp] theorem setChain_host (s : State) (d c : Nat) (x : Chain) : (setChain s d c x).host = s.host := rfl
@[simp] theorem setChain_tree (s : State) (d c : Nat) (x : Chain) : (setChain s d c x).tree = s.tree := rfl
@[simp] theorem setChain_lanes (s : State) (d c : Nat) (x : Chain) : (setChain s d c x).lanes = s.lanes := rfl
@[simp] theorem setChain_clk (s : State) (d c : Nat) (x : Chain) : (setChain s d c x).clk = s.clk := rfl
@[simp] theorem setChain_cap (s : State) (d c : Nat) (x : Chain) : (setChain s d c x).cap = s.cap := rfl
@[simp] theorem setChain_sht (s : State) (d c : Nat) (x : Chain) : (setChain s d c x).sht = s.sht := rfl
@[simp] theorem setChain_cal (s : State) (d c : Nat) (x : Chain) : (setChain s d c x).cal = s.cal := rfl
@[simp] theorem setChain_eng (s : State) (d c : Nat) (x : Chain) : (setChain s d c x).eng = s.eng := rfl
@[simp] theorem setChain_xfer (s : State) (d c : Nat) (x : Chain) : (setChain s d c x).xfer = s.xfer := rfl
@[simp] theorem setChain_sec (s : State) (d c : Nat) (x : Chain) : (setChain s d c x).sec = s.sec := rfl
@[simp] theorem setChain_svc (s : State) (d c : Nat) (x : Chain) : (setChain s d c x).svc = s.svc := rfl
@[simp] theorem setChain_prb (s : State) (d c : Nat) (x : Chain) : (setChain s d c x).prb = s.prb := rfl
@[simp] theorem setChain_prf (s : State) (d c : Nat) (x : Chain) : (setChain s d c x).prf = s.prf := rfl
@[simp] theorem setChain_pwr (s : State) (d c : Nat) (x : Chain) : (setChain s d c x).pwr = s.pwr := rfl
@[simp] theorem setChain_tap (s : State) (d c : Nat) (x : Chain) : (setChain s d c x).tap = s.tap := rfl
@[simp] theorem setChain_pending (s : State) (d c : Nat) (x : Chain) : (setChain s d c x).pending = s.pending := rfl

@[simp] theorem setMeas_part (s : State) (d c : Nat) (x : MeasCfg) : (setMeas s d c x).part = s.part := rfl
@[simp] theorem setMeas_now (s : State) (d c : Nat) (x : MeasCfg) : (setMeas s d c x).now = s.now := rfl
@[simp] theorem setMeas_freeCtr (s : State) (d c : Nat) (x : MeasCfg) : (setMeas s d c x).freeCtr = s.freeCtr := rfl
@[simp] theorem setMeas_ready (s : State) (d c : Nat) (x : MeasCfg) : (setMeas s d c x).ready = s.ready := rfl
@[simp] theorem setMeas_lastRead (s : State) (d c : Nat) (x : MeasCfg) : (setMeas s d c x).lastRead = s.lastRead := rfl
@[simp] theorem setMeas_regs (s : State) (d c : Nat) (x : MeasCfg) : (setMeas s d c x).regs = s.regs := rfl
@[simp] theorem setMeas_shadows (s : State) (d c : Nat) (x : MeasCfg) : (setMeas s d c x).shadows = s.shadows := rfl
@[simp] theorem setMeas_wo1 (s : State) (d c : Nat) (x : MeasCfg) : (setMeas s d c x).wo1 = s.wo1 := rfl
@[simp] theorem setMeas_cfg (s : State) (d c : Nat) (x : MeasCfg) : (setMeas s d c x).cfg = s.cfg := rfl
@[simp] theorem setMeas_strobes (s : State) (d c : Nat) (x : MeasCfg) : (setMeas s d c x).strobes = s.strobes := rfl
@[simp] theorem setMeas_mem (s : State) (d c : Nat) (x : MeasCfg) : (setMeas s d c x).mem = s.mem := rfl
@[simp] theorem setMeas_host (s : State) (d c : Nat) (x : MeasCfg) : (setMeas s d c x).host = s.host := rfl
@[simp] theorem setMeas_tree (s : State) (d c : Nat) (x : MeasCfg) : (setMeas s d c x).tree = s.tree := rfl
@[simp] theorem setMeas_lanes (s : State) (d c : Nat) (x : MeasCfg) : (setMeas s d c x).lanes = s.lanes := rfl
@[simp] theorem setMeas_clk (s : State) (d c : Nat) (x : MeasCfg) : (setMeas s d c x).clk = s.clk := rfl
@[simp] theorem setMeas_cap (s : State) (d c : Nat) (x : MeasCfg) : (setMeas s d c x).cap = s.cap := rfl
@[simp] theorem setMeas_sht (s : State) (d c : Nat) (x : MeasCfg) : (setMeas s d c x).sht = s.sht := rfl
@[simp] theorem setMeas_cal (s : State) (d c : Nat) (x : MeasCfg) : (setMeas s d c x).cal = s.cal := rfl
@[simp] theorem setMeas_eng (s : State) (d c : Nat) (x : MeasCfg) : (setMeas s d c x).eng = s.eng := rfl
@[simp] theorem setMeas_xfer (s : State) (d c : Nat) (x : MeasCfg) : (setMeas s d c x).xfer = s.xfer := rfl
@[simp] theorem setMeas_sec (s : State) (d c : Nat) (x : MeasCfg) : (setMeas s d c x).sec = s.sec := rfl
@[simp] theorem setMeas_svc (s : State) (d c : Nat) (x : MeasCfg) : (setMeas s d c x).svc = s.svc := rfl
@[simp] theorem setMeas_prb (s : State) (d c : Nat) (x : MeasCfg) : (setMeas s d c x).prb = s.prb := rfl
@[simp] theorem setMeas_prf (s : State) (d c : Nat) (x : MeasCfg) : (setMeas s d c x).prf = s.prf := rfl
@[simp] theorem setMeas_pwr (s : State) (d c : Nat) (x : MeasCfg) : (setMeas s d c x).pwr = s.pwr := rfl
@[simp] theorem setMeas_tap (s : State) (d c : Nat) (x : MeasCfg) : (setMeas s d c x).tap = s.tap := rfl
@[simp] theorem setMeas_pending (s : State) (d c : Nat) (x : MeasCfg) : (setMeas s d c x).pending = s.pending := rfl

@[simp] theorem setAcc_part (s : State) (d k : Nat) (x : Acc) : (setAcc s d k x).part = s.part := rfl
@[simp] theorem setAcc_now (s : State) (d k : Nat) (x : Acc) : (setAcc s d k x).now = s.now := rfl
@[simp] theorem setAcc_freeCtr (s : State) (d k : Nat) (x : Acc) : (setAcc s d k x).freeCtr = s.freeCtr := rfl
@[simp] theorem setAcc_ready (s : State) (d k : Nat) (x : Acc) : (setAcc s d k x).ready = s.ready := rfl
@[simp] theorem setAcc_lastRead (s : State) (d k : Nat) (x : Acc) : (setAcc s d k x).lastRead = s.lastRead := rfl
@[simp] theorem setAcc_regs (s : State) (d k : Nat) (x : Acc) : (setAcc s d k x).regs = s.regs := rfl
@[simp] theorem setAcc_shadows (s : State) (d k : Nat) (x : Acc) : (setAcc s d k x).shadows = s.shadows := rfl
@[simp] theorem setAcc_wo1 (s : State) (d k : Nat) (x : Acc) : (setAcc s d k x).wo1 = s.wo1 := rfl
@[simp] theorem setAcc_cfg (s : State) (d k : Nat) (x : Acc) : (setAcc s d k x).cfg = s.cfg := rfl
@[simp] theorem setAcc_strobes (s : State) (d k : Nat) (x : Acc) : (setAcc s d k x).strobes = s.strobes := rfl
@[simp] theorem setAcc_mem (s : State) (d k : Nat) (x : Acc) : (setAcc s d k x).mem = s.mem := rfl
@[simp] theorem setAcc_host (s : State) (d k : Nat) (x : Acc) : (setAcc s d k x).host = s.host := rfl
@[simp] theorem setAcc_tree (s : State) (d k : Nat) (x : Acc) : (setAcc s d k x).tree = s.tree := rfl
@[simp] theorem setAcc_lanes (s : State) (d k : Nat) (x : Acc) : (setAcc s d k x).lanes = s.lanes := rfl
@[simp] theorem setAcc_clk (s : State) (d k : Nat) (x : Acc) : (setAcc s d k x).clk = s.clk := rfl
@[simp] theorem setAcc_cap (s : State) (d k : Nat) (x : Acc) : (setAcc s d k x).cap = s.cap := rfl
@[simp] theorem setAcc_sht (s : State) (d k : Nat) (x : Acc) : (setAcc s d k x).sht = s.sht := rfl
@[simp] theorem setAcc_cal (s : State) (d k : Nat) (x : Acc) : (setAcc s d k x).cal = s.cal := rfl
@[simp] theorem setAcc_eng (s : State) (d k : Nat) (x : Acc) : (setAcc s d k x).eng = s.eng := rfl
@[simp] theorem setAcc_xfer (s : State) (d k : Nat) (x : Acc) : (setAcc s d k x).xfer = s.xfer := rfl
@[simp] theorem setAcc_sec (s : State) (d k : Nat) (x : Acc) : (setAcc s d k x).sec = s.sec := rfl
@[simp] theorem setAcc_svc (s : State) (d k : Nat) (x : Acc) : (setAcc s d k x).svc = s.svc := rfl
@[simp] theorem setAcc_prb (s : State) (d k : Nat) (x : Acc) : (setAcc s d k x).prb = s.prb := rfl
@[simp] theorem setAcc_prf (s : State) (d k : Nat) (x : Acc) : (setAcc s d k x).prf = s.prf := rfl
@[simp] theorem setAcc_pwr (s : State) (d k : Nat) (x : Acc) : (setAcc s d k x).pwr = s.pwr := rfl
@[simp] theorem setAcc_tap (s : State) (d k : Nat) (x : Acc) : (setAcc s d k x).tap = s.tap := rfl
@[simp] theorem setAcc_pending (s : State) (d k : Nat) (x : Acc) : (setAcc s d k x).pending = s.pending := rfl

@[simp] theorem setPort_part (s : State) (p : Nat) (x : PortSt) : (setPort s p x).part = s.part := rfl
@[simp] theorem setPort_now (s : State) (p : Nat) (x : PortSt) : (setPort s p x).now = s.now := rfl
@[simp] theorem setPort_freeCtr (s : State) (p : Nat) (x : PortSt) : (setPort s p x).freeCtr = s.freeCtr := rfl
@[simp] theorem setPort_ready (s : State) (p : Nat) (x : PortSt) : (setPort s p x).ready = s.ready := rfl
@[simp] theorem setPort_lastRead (s : State) (p : Nat) (x : PortSt) : (setPort s p x).lastRead = s.lastRead := rfl
@[simp] theorem setPort_regs (s : State) (p : Nat) (x : PortSt) : (setPort s p x).regs = s.regs := rfl
@[simp] theorem setPort_shadows (s : State) (p : Nat) (x : PortSt) : (setPort s p x).shadows = s.shadows := rfl
@[simp] theorem setPort_wo1 (s : State) (p : Nat) (x : PortSt) : (setPort s p x).wo1 = s.wo1 := rfl
@[simp] theorem setPort_cfg (s : State) (p : Nat) (x : PortSt) : (setPort s p x).cfg = s.cfg := rfl
@[simp] theorem setPort_strobes (s : State) (p : Nat) (x : PortSt) : (setPort s p x).strobes = s.strobes := rfl
@[simp] theorem setPort_mem (s : State) (p : Nat) (x : PortSt) : (setPort s p x).mem = s.mem := rfl
@[simp] theorem setPort_tree (s : State) (p : Nat) (x : PortSt) : (setPort s p x).tree = s.tree := rfl
@[simp] theorem setPort_lanes (s : State) (p : Nat) (x : PortSt) : (setPort s p x).lanes = s.lanes := rfl
@[simp] theorem setPort_clk (s : State) (p : Nat) (x : PortSt) : (setPort s p x).clk = s.clk := rfl
@[simp] theorem setPort_cap (s : State) (p : Nat) (x : PortSt) : (setPort s p x).cap = s.cap := rfl
@[simp] theorem setPort_sht (s : State) (p : Nat) (x : PortSt) : (setPort s p x).sht = s.sht := rfl
@[simp] theorem setPort_spc (s : State) (p : Nat) (x : PortSt) : (setPort s p x).spc = s.spc := rfl
@[simp] theorem setPort_cal (s : State) (p : Nat) (x : PortSt) : (setPort s p x).cal = s.cal := rfl
@[simp] theorem setPort_eng (s : State) (p : Nat) (x : PortSt) : (setPort s p x).eng = s.eng := rfl
@[simp] theorem setPort_xfer (s : State) (p : Nat) (x : PortSt) : (setPort s p x).xfer = s.xfer := rfl
@[simp] theorem setPort_sec (s : State) (p : Nat) (x : PortSt) : (setPort s p x).sec = s.sec := rfl
@[simp] theorem setPort_svc (s : State) (p : Nat) (x : PortSt) : (setPort s p x).svc = s.svc := rfl
@[simp] theorem setPort_prb (s : State) (p : Nat) (x : PortSt) : (setPort s p x).prb = s.prb := rfl
@[simp] theorem setPort_prf (s : State) (p : Nat) (x : PortSt) : (setPort s p x).prf = s.prf := rfl
@[simp] theorem setPort_pwr (s : State) (p : Nat) (x : PortSt) : (setPort s p x).pwr = s.pwr := rfl
@[simp] theorem setPort_tap (s : State) (p : Nat) (x : PortSt) : (setPort s p x).tap = s.tap := rfl
@[simp] theorem setPort_pending (s : State) (p : Nat) (x : PortSt) : (setPort s p x).pending = s.pending := rfl

@[simp] theorem setCmdRing_part (s : State) (p n : Nat) (x : CmdRing) : (setCmdRing s p n x).part = s.part := rfl
@[simp] theorem setCmdRing_now (s : State) (p n : Nat) (x : CmdRing) : (setCmdRing s p n x).now = s.now := rfl
@[simp] theorem setCmdRing_freeCtr (s : State) (p n : Nat) (x : CmdRing) : (setCmdRing s p n x).freeCtr = s.freeCtr := rfl
@[simp] theorem setCmdRing_ready (s : State) (p n : Nat) (x : CmdRing) : (setCmdRing s p n x).ready = s.ready := rfl
@[simp] theorem setCmdRing_lastRead (s : State) (p n : Nat) (x : CmdRing) : (setCmdRing s p n x).lastRead = s.lastRead := rfl
@[simp] theorem setCmdRing_regs (s : State) (p n : Nat) (x : CmdRing) : (setCmdRing s p n x).regs = s.regs := rfl
@[simp] theorem setCmdRing_shadows (s : State) (p n : Nat) (x : CmdRing) : (setCmdRing s p n x).shadows = s.shadows := rfl
@[simp] theorem setCmdRing_wo1 (s : State) (p n : Nat) (x : CmdRing) : (setCmdRing s p n x).wo1 = s.wo1 := rfl
@[simp] theorem setCmdRing_cfg (s : State) (p n : Nat) (x : CmdRing) : (setCmdRing s p n x).cfg = s.cfg := rfl
@[simp] theorem setCmdRing_strobes (s : State) (p n : Nat) (x : CmdRing) : (setCmdRing s p n x).strobes = s.strobes := rfl
@[simp] theorem setCmdRing_mem (s : State) (p n : Nat) (x : CmdRing) : (setCmdRing s p n x).mem = s.mem := rfl
@[simp] theorem setCmdRing_tree (s : State) (p n : Nat) (x : CmdRing) : (setCmdRing s p n x).tree = s.tree := rfl
@[simp] theorem setCmdRing_lanes (s : State) (p n : Nat) (x : CmdRing) : (setCmdRing s p n x).lanes = s.lanes := rfl
@[simp] theorem setCmdRing_clk (s : State) (p n : Nat) (x : CmdRing) : (setCmdRing s p n x).clk = s.clk := rfl
@[simp] theorem setCmdRing_cap (s : State) (p n : Nat) (x : CmdRing) : (setCmdRing s p n x).cap = s.cap := rfl
@[simp] theorem setCmdRing_sht (s : State) (p n : Nat) (x : CmdRing) : (setCmdRing s p n x).sht = s.sht := rfl
@[simp] theorem setCmdRing_spc (s : State) (p n : Nat) (x : CmdRing) : (setCmdRing s p n x).spc = s.spc := rfl
@[simp] theorem setCmdRing_cal (s : State) (p n : Nat) (x : CmdRing) : (setCmdRing s p n x).cal = s.cal := rfl
@[simp] theorem setCmdRing_eng (s : State) (p n : Nat) (x : CmdRing) : (setCmdRing s p n x).eng = s.eng := rfl
@[simp] theorem setCmdRing_xfer (s : State) (p n : Nat) (x : CmdRing) : (setCmdRing s p n x).xfer = s.xfer := rfl
@[simp] theorem setCmdRing_sec (s : State) (p n : Nat) (x : CmdRing) : (setCmdRing s p n x).sec = s.sec := rfl
@[simp] theorem setCmdRing_svc (s : State) (p n : Nat) (x : CmdRing) : (setCmdRing s p n x).svc = s.svc := rfl
@[simp] theorem setCmdRing_prb (s : State) (p n : Nat) (x : CmdRing) : (setCmdRing s p n x).prb = s.prb := rfl
@[simp] theorem setCmdRing_prf (s : State) (p n : Nat) (x : CmdRing) : (setCmdRing s p n x).prf = s.prf := rfl
@[simp] theorem setCmdRing_pwr (s : State) (p n : Nat) (x : CmdRing) : (setCmdRing s p n x).pwr = s.pwr := rfl
@[simp] theorem setCmdRing_tap (s : State) (p n : Nat) (x : CmdRing) : (setCmdRing s p n x).tap = s.tap := rfl
@[simp] theorem setCmdRing_pending (s : State) (p n : Nat) (x : CmdRing) : (setCmdRing s p n x).pending = s.pending := rfl

@[simp] theorem setCplRing_part (s : State) (p n : Nat) (x : CplRing) : (setCplRing s p n x).part = s.part := rfl
@[simp] theorem setCplRing_now (s : State) (p n : Nat) (x : CplRing) : (setCplRing s p n x).now = s.now := rfl
@[simp] theorem setCplRing_freeCtr (s : State) (p n : Nat) (x : CplRing) : (setCplRing s p n x).freeCtr = s.freeCtr := rfl
@[simp] theorem setCplRing_ready (s : State) (p n : Nat) (x : CplRing) : (setCplRing s p n x).ready = s.ready := rfl
@[simp] theorem setCplRing_lastRead (s : State) (p n : Nat) (x : CplRing) : (setCplRing s p n x).lastRead = s.lastRead := rfl
@[simp] theorem setCplRing_regs (s : State) (p n : Nat) (x : CplRing) : (setCplRing s p n x).regs = s.regs := rfl
@[simp] theorem setCplRing_shadows (s : State) (p n : Nat) (x : CplRing) : (setCplRing s p n x).shadows = s.shadows := rfl
@[simp] theorem setCplRing_wo1 (s : State) (p n : Nat) (x : CplRing) : (setCplRing s p n x).wo1 = s.wo1 := rfl
@[simp] theorem setCplRing_cfg (s : State) (p n : Nat) (x : CplRing) : (setCplRing s p n x).cfg = s.cfg := rfl
@[simp] theorem setCplRing_strobes (s : State) (p n : Nat) (x : CplRing) : (setCplRing s p n x).strobes = s.strobes := rfl
@[simp] theorem setCplRing_mem (s : State) (p n : Nat) (x : CplRing) : (setCplRing s p n x).mem = s.mem := rfl
@[simp] theorem setCplRing_tree (s : State) (p n : Nat) (x : CplRing) : (setCplRing s p n x).tree = s.tree := rfl
@[simp] theorem setCplRing_lanes (s : State) (p n : Nat) (x : CplRing) : (setCplRing s p n x).lanes = s.lanes := rfl
@[simp] theorem setCplRing_clk (s : State) (p n : Nat) (x : CplRing) : (setCplRing s p n x).clk = s.clk := rfl
@[simp] theorem setCplRing_cap (s : State) (p n : Nat) (x : CplRing) : (setCplRing s p n x).cap = s.cap := rfl
@[simp] theorem setCplRing_sht (s : State) (p n : Nat) (x : CplRing) : (setCplRing s p n x).sht = s.sht := rfl
@[simp] theorem setCplRing_spc (s : State) (p n : Nat) (x : CplRing) : (setCplRing s p n x).spc = s.spc := rfl
@[simp] theorem setCplRing_cal (s : State) (p n : Nat) (x : CplRing) : (setCplRing s p n x).cal = s.cal := rfl
@[simp] theorem setCplRing_eng (s : State) (p n : Nat) (x : CplRing) : (setCplRing s p n x).eng = s.eng := rfl
@[simp] theorem setCplRing_xfer (s : State) (p n : Nat) (x : CplRing) : (setCplRing s p n x).xfer = s.xfer := rfl
@[simp] theorem setCplRing_sec (s : State) (p n : Nat) (x : CplRing) : (setCplRing s p n x).sec = s.sec := rfl
@[simp] theorem setCplRing_svc (s : State) (p n : Nat) (x : CplRing) : (setCplRing s p n x).svc = s.svc := rfl
@[simp] theorem setCplRing_prb (s : State) (p n : Nat) (x : CplRing) : (setCplRing s p n x).prb = s.prb := rfl
@[simp] theorem setCplRing_prf (s : State) (p n : Nat) (x : CplRing) : (setCplRing s p n x).prf = s.prf := rfl
@[simp] theorem setCplRing_pwr (s : State) (p n : Nat) (x : CplRing) : (setCplRing s p n x).pwr = s.pwr := rfl
@[simp] theorem setCplRing_tap (s : State) (p n : Nat) (x : CplRing) : (setCplRing s p n x).tap = s.tap := rfl
@[simp] theorem setCplRing_pending (s : State) (p n : Nat) (x : CplRing) : (setCplRing s p n x).pending = s.pending := rfl

@[simp] theorem setEvRing_part (s : State) (p : Nat) (x : EvRing) : (setEvRing s p x).part = s.part := rfl
@[simp] theorem setEvRing_now (s : State) (p : Nat) (x : EvRing) : (setEvRing s p x).now = s.now := rfl
@[simp] theorem setEvRing_freeCtr (s : State) (p : Nat) (x : EvRing) : (setEvRing s p x).freeCtr = s.freeCtr := rfl
@[simp] theorem setEvRing_ready (s : State) (p : Nat) (x : EvRing) : (setEvRing s p x).ready = s.ready := rfl
@[simp] theorem setEvRing_lastRead (s : State) (p : Nat) (x : EvRing) : (setEvRing s p x).lastRead = s.lastRead := rfl
@[simp] theorem setEvRing_regs (s : State) (p : Nat) (x : EvRing) : (setEvRing s p x).regs = s.regs := rfl
@[simp] theorem setEvRing_shadows (s : State) (p : Nat) (x : EvRing) : (setEvRing s p x).shadows = s.shadows := rfl
@[simp] theorem setEvRing_wo1 (s : State) (p : Nat) (x : EvRing) : (setEvRing s p x).wo1 = s.wo1 := rfl
@[simp] theorem setEvRing_cfg (s : State) (p : Nat) (x : EvRing) : (setEvRing s p x).cfg = s.cfg := rfl
@[simp] theorem setEvRing_strobes (s : State) (p : Nat) (x : EvRing) : (setEvRing s p x).strobes = s.strobes := rfl
@[simp] theorem setEvRing_mem (s : State) (p : Nat) (x : EvRing) : (setEvRing s p x).mem = s.mem := rfl
@[simp] theorem setEvRing_tree (s : State) (p : Nat) (x : EvRing) : (setEvRing s p x).tree = s.tree := rfl
@[simp] theorem setEvRing_lanes (s : State) (p : Nat) (x : EvRing) : (setEvRing s p x).lanes = s.lanes := rfl
@[simp] theorem setEvRing_clk (s : State) (p : Nat) (x : EvRing) : (setEvRing s p x).clk = s.clk := rfl
@[simp] theorem setEvRing_cap (s : State) (p : Nat) (x : EvRing) : (setEvRing s p x).cap = s.cap := rfl
@[simp] theorem setEvRing_sht (s : State) (p : Nat) (x : EvRing) : (setEvRing s p x).sht = s.sht := rfl
@[simp] theorem setEvRing_spc (s : State) (p : Nat) (x : EvRing) : (setEvRing s p x).spc = s.spc := rfl
@[simp] theorem setEvRing_cal (s : State) (p : Nat) (x : EvRing) : (setEvRing s p x).cal = s.cal := rfl
@[simp] theorem setEvRing_eng (s : State) (p : Nat) (x : EvRing) : (setEvRing s p x).eng = s.eng := rfl
@[simp] theorem setEvRing_xfer (s : State) (p : Nat) (x : EvRing) : (setEvRing s p x).xfer = s.xfer := rfl
@[simp] theorem setEvRing_sec (s : State) (p : Nat) (x : EvRing) : (setEvRing s p x).sec = s.sec := rfl
@[simp] theorem setEvRing_svc (s : State) (p : Nat) (x : EvRing) : (setEvRing s p x).svc = s.svc := rfl
@[simp] theorem setEvRing_prb (s : State) (p : Nat) (x : EvRing) : (setEvRing s p x).prb = s.prb := rfl
@[simp] theorem setEvRing_prf (s : State) (p : Nat) (x : EvRing) : (setEvRing s p x).prf = s.prf := rfl
@[simp] theorem setEvRing_pwr (s : State) (p : Nat) (x : EvRing) : (setEvRing s p x).pwr = s.pwr := rfl
@[simp] theorem setEvRing_tap (s : State) (p : Nat) (x : EvRing) : (setEvRing s p x).tap = s.tap := rfl
@[simp] theorem setEvRing_pending (s : State) (p : Nat) (x : EvRing) : (setEvRing s p x).pending = s.pending := rfl

@[simp] theorem setStrRing_part (s : State) (r : Nat) (x : StrRing) : (setStrRing s r x).part = s.part := rfl
@[simp] theorem setStrRing_now (s : State) (r : Nat) (x : StrRing) : (setStrRing s r x).now = s.now := rfl
@[simp] theorem setStrRing_freeCtr (s : State) (r : Nat) (x : StrRing) : (setStrRing s r x).freeCtr = s.freeCtr := rfl
@[simp] theorem setStrRing_ready (s : State) (r : Nat) (x : StrRing) : (setStrRing s r x).ready = s.ready := rfl
@[simp] theorem setStrRing_lastRead (s : State) (r : Nat) (x : StrRing) : (setStrRing s r x).lastRead = s.lastRead := rfl
@[simp] theorem setStrRing_regs (s : State) (r : Nat) (x : StrRing) : (setStrRing s r x).regs = s.regs := rfl
@[simp] theorem setStrRing_shadows (s : State) (r : Nat) (x : StrRing) : (setStrRing s r x).shadows = s.shadows := rfl
@[simp] theorem setStrRing_wo1 (s : State) (r : Nat) (x : StrRing) : (setStrRing s r x).wo1 = s.wo1 := rfl
@[simp] theorem setStrRing_cfg (s : State) (r : Nat) (x : StrRing) : (setStrRing s r x).cfg = s.cfg := rfl
@[simp] theorem setStrRing_strobes (s : State) (r : Nat) (x : StrRing) : (setStrRing s r x).strobes = s.strobes := rfl
@[simp] theorem setStrRing_mem (s : State) (r : Nat) (x : StrRing) : (setStrRing s r x).mem = s.mem := rfl
@[simp] theorem setStrRing_tree (s : State) (r : Nat) (x : StrRing) : (setStrRing s r x).tree = s.tree := rfl
@[simp] theorem setStrRing_lanes (s : State) (r : Nat) (x : StrRing) : (setStrRing s r x).lanes = s.lanes := rfl
@[simp] theorem setStrRing_clk (s : State) (r : Nat) (x : StrRing) : (setStrRing s r x).clk = s.clk := rfl
@[simp] theorem setStrRing_cap (s : State) (r : Nat) (x : StrRing) : (setStrRing s r x).cap = s.cap := rfl
@[simp] theorem setStrRing_sht (s : State) (r : Nat) (x : StrRing) : (setStrRing s r x).sht = s.sht := rfl
@[simp] theorem setStrRing_spc (s : State) (r : Nat) (x : StrRing) : (setStrRing s r x).spc = s.spc := rfl
@[simp] theorem setStrRing_cal (s : State) (r : Nat) (x : StrRing) : (setStrRing s r x).cal = s.cal := rfl
@[simp] theorem setStrRing_eng (s : State) (r : Nat) (x : StrRing) : (setStrRing s r x).eng = s.eng := rfl
@[simp] theorem setStrRing_xfer (s : State) (r : Nat) (x : StrRing) : (setStrRing s r x).xfer = s.xfer := rfl
@[simp] theorem setStrRing_sec (s : State) (r : Nat) (x : StrRing) : (setStrRing s r x).sec = s.sec := rfl
@[simp] theorem setStrRing_svc (s : State) (r : Nat) (x : StrRing) : (setStrRing s r x).svc = s.svc := rfl
@[simp] theorem setStrRing_prb (s : State) (r : Nat) (x : StrRing) : (setStrRing s r x).prb = s.prb := rfl
@[simp] theorem setStrRing_prf (s : State) (r : Nat) (x : StrRing) : (setStrRing s r x).prf = s.prf := rfl
@[simp] theorem setStrRing_pwr (s : State) (r : Nat) (x : StrRing) : (setStrRing s r x).pwr = s.pwr := rfl
@[simp] theorem setStrRing_tap (s : State) (r : Nat) (x : StrRing) : (setStrRing s r x).tap = s.tap := rfl
@[simp] theorem setStrRing_pending (s : State) (r : Nat) (x : StrRing) : (setStrRing s r x).pending = s.pending := rfl

@[simp] theorem setFlight_part (s : State) (f : Flight) : (setFlight s f).part = s.part := rfl
@[simp] theorem setFlight_now (s : State) (f : Flight) : (setFlight s f).now = s.now := rfl
@[simp] theorem setFlight_freeCtr (s : State) (f : Flight) : (setFlight s f).freeCtr = s.freeCtr := rfl
@[simp] theorem setFlight_ready (s : State) (f : Flight) : (setFlight s f).ready = s.ready := rfl
@[simp] theorem setFlight_lastRead (s : State) (f : Flight) : (setFlight s f).lastRead = s.lastRead := rfl
@[simp] theorem setFlight_regs (s : State) (f : Flight) : (setFlight s f).regs = s.regs := rfl
@[simp] theorem setFlight_shadows (s : State) (f : Flight) : (setFlight s f).shadows = s.shadows := rfl
@[simp] theorem setFlight_wo1 (s : State) (f : Flight) : (setFlight s f).wo1 = s.wo1 := rfl
@[simp] theorem setFlight_cfg (s : State) (f : Flight) : (setFlight s f).cfg = s.cfg := rfl
@[simp] theorem setFlight_strobes (s : State) (f : Flight) : (setFlight s f).strobes = s.strobes := rfl
@[simp] theorem setFlight_mem (s : State) (f : Flight) : (setFlight s f).mem = s.mem := rfl
@[simp] theorem setFlight_tree (s : State) (f : Flight) : (setFlight s f).tree = s.tree := rfl
@[simp] theorem setFlight_lanes (s : State) (f : Flight) : (setFlight s f).lanes = s.lanes := rfl
@[simp] theorem setFlight_clk (s : State) (f : Flight) : (setFlight s f).clk = s.clk := rfl
@[simp] theorem setFlight_cap (s : State) (f : Flight) : (setFlight s f).cap = s.cap := rfl
@[simp] theorem setFlight_sht (s : State) (f : Flight) : (setFlight s f).sht = s.sht := rfl
@[simp] theorem setFlight_spc (s : State) (f : Flight) : (setFlight s f).spc = s.spc := rfl
@[simp] theorem setFlight_cal (s : State) (f : Flight) : (setFlight s f).cal = s.cal := rfl
@[simp] theorem setFlight_eng (s : State) (f : Flight) : (setFlight s f).eng = s.eng := rfl
@[simp] theorem setFlight_xfer (s : State) (f : Flight) : (setFlight s f).xfer = s.xfer := rfl
@[simp] theorem setFlight_sec (s : State) (f : Flight) : (setFlight s f).sec = s.sec := rfl
@[simp] theorem setFlight_svc (s : State) (f : Flight) : (setFlight s f).svc = s.svc := rfl
@[simp] theorem setFlight_prb (s : State) (f : Flight) : (setFlight s f).prb = s.prb := rfl
@[simp] theorem setFlight_prf (s : State) (f : Flight) : (setFlight s f).prf = s.prf := rfl
@[simp] theorem setFlight_pwr (s : State) (f : Flight) : (setFlight s f).pwr = s.pwr := rfl
@[simp] theorem setFlight_tap (s : State) (f : Flight) : (setFlight s f).tap = s.tap := rfl
@[simp] theorem setFlight_pending (s : State) (f : Flight) : (setFlight s f).pending = s.pending := rfl

@[simp] theorem dropFlight_part (s : State) (id : Nat) : (dropFlight s id).part = s.part := rfl
@[simp] theorem dropFlight_now (s : State) (id : Nat) : (dropFlight s id).now = s.now := rfl
@[simp] theorem dropFlight_freeCtr (s : State) (id : Nat) : (dropFlight s id).freeCtr = s.freeCtr := rfl
@[simp] theorem dropFlight_ready (s : State) (id : Nat) : (dropFlight s id).ready = s.ready := rfl
@[simp] theorem dropFlight_lastRead (s : State) (id : Nat) : (dropFlight s id).lastRead = s.lastRead := rfl
@[simp] theorem dropFlight_regs (s : State) (id : Nat) : (dropFlight s id).regs = s.regs := rfl
@[simp] theorem dropFlight_shadows (s : State) (id : Nat) : (dropFlight s id).shadows = s.shadows := rfl
@[simp] theorem dropFlight_wo1 (s : State) (id : Nat) : (dropFlight s id).wo1 = s.wo1 := rfl
@[simp] theorem dropFlight_cfg (s : State) (id : Nat) : (dropFlight s id).cfg = s.cfg := rfl
@[simp] theorem dropFlight_strobes (s : State) (id : Nat) : (dropFlight s id).strobes = s.strobes := rfl
@[simp] theorem dropFlight_mem (s : State) (id : Nat) : (dropFlight s id).mem = s.mem := rfl
@[simp] theorem dropFlight_tree (s : State) (id : Nat) : (dropFlight s id).tree = s.tree := rfl
@[simp] theorem dropFlight_lanes (s : State) (id : Nat) : (dropFlight s id).lanes = s.lanes := rfl
@[simp] theorem dropFlight_clk (s : State) (id : Nat) : (dropFlight s id).clk = s.clk := rfl
@[simp] theorem dropFlight_cap (s : State) (id : Nat) : (dropFlight s id).cap = s.cap := rfl
@[simp] theorem dropFlight_sht (s : State) (id : Nat) : (dropFlight s id).sht = s.sht := rfl
@[simp] theorem dropFlight_spc (s : State) (id : Nat) : (dropFlight s id).spc = s.spc := rfl
@[simp] theorem dropFlight_cal (s : State) (id : Nat) : (dropFlight s id).cal = s.cal := rfl
@[simp] theorem dropFlight_eng (s : State) (id : Nat) : (dropFlight s id).eng = s.eng := rfl
@[simp] theorem dropFlight_xfer (s : State) (id : Nat) : (dropFlight s id).xfer = s.xfer := rfl
@[simp] theorem dropFlight_sec (s : State) (id : Nat) : (dropFlight s id).sec = s.sec := rfl
@[simp] theorem dropFlight_svc (s : State) (id : Nat) : (dropFlight s id).svc = s.svc := rfl
@[simp] theorem dropFlight_prb (s : State) (id : Nat) : (dropFlight s id).prb = s.prb := rfl
@[simp] theorem dropFlight_prf (s : State) (id : Nat) : (dropFlight s id).prf = s.prf := rfl
@[simp] theorem dropFlight_pwr (s : State) (id : Nat) : (dropFlight s id).pwr = s.pwr := rfl
@[simp] theorem dropFlight_tap (s : State) (id : Nat) : (dropFlight s id).tap = s.tap := rfl
@[simp] theorem dropFlight_pending (s : State) (id : Nat) : (dropFlight s id).pending = s.pending := rfl

@[simp] theorem setCfg_part (s : State) (d : Nat) (x : CfgSt) : (setCfg s d x).part = s.part := rfl
@[simp] theorem setCfg_now (s : State) (d : Nat) (x : CfgSt) : (setCfg s d x).now = s.now := rfl
@[simp] theorem setCfg_freeCtr (s : State) (d : Nat) (x : CfgSt) : (setCfg s d x).freeCtr = s.freeCtr := rfl
@[simp] theorem setCfg_ready (s : State) (d : Nat) (x : CfgSt) : (setCfg s d x).ready = s.ready := rfl
@[simp] theorem setCfg_lastRead (s : State) (d : Nat) (x : CfgSt) : (setCfg s d x).lastRead = s.lastRead := rfl
@[simp] theorem setCfg_regs (s : State) (d : Nat) (x : CfgSt) : (setCfg s d x).regs = s.regs := rfl
@[simp] theorem setCfg_shadows (s : State) (d : Nat) (x : CfgSt) : (setCfg s d x).shadows = s.shadows := rfl
@[simp] theorem setCfg_wo1 (s : State) (d : Nat) (x : CfgSt) : (setCfg s d x).wo1 = s.wo1 := rfl
@[simp] theorem setCfg_strobes (s : State) (d : Nat) (x : CfgSt) : (setCfg s d x).strobes = s.strobes := rfl
@[simp] theorem setCfg_mem (s : State) (d : Nat) (x : CfgSt) : (setCfg s d x).mem = s.mem := rfl
@[simp] theorem setCfg_host (s : State) (d : Nat) (x : CfgSt) : (setCfg s d x).host = s.host := rfl
@[simp] theorem setCfg_tree (s : State) (d : Nat) (x : CfgSt) : (setCfg s d x).tree = s.tree := rfl
@[simp] theorem setCfg_lanes (s : State) (d : Nat) (x : CfgSt) : (setCfg s d x).lanes = s.lanes := rfl
@[simp] theorem setCfg_clk (s : State) (d : Nat) (x : CfgSt) : (setCfg s d x).clk = s.clk := rfl
@[simp] theorem setCfg_cap (s : State) (d : Nat) (x : CfgSt) : (setCfg s d x).cap = s.cap := rfl
@[simp] theorem setCfg_sht (s : State) (d : Nat) (x : CfgSt) : (setCfg s d x).sht = s.sht := rfl
@[simp] theorem setCfg_spc (s : State) (d : Nat) (x : CfgSt) : (setCfg s d x).spc = s.spc := rfl
@[simp] theorem setCfg_cal (s : State) (d : Nat) (x : CfgSt) : (setCfg s d x).cal = s.cal := rfl
@[simp] theorem setCfg_eng (s : State) (d : Nat) (x : CfgSt) : (setCfg s d x).eng = s.eng := rfl
@[simp] theorem setCfg_xfer (s : State) (d : Nat) (x : CfgSt) : (setCfg s d x).xfer = s.xfer := rfl
@[simp] theorem setCfg_sec (s : State) (d : Nat) (x : CfgSt) : (setCfg s d x).sec = s.sec := rfl
@[simp] theorem setCfg_svc (s : State) (d : Nat) (x : CfgSt) : (setCfg s d x).svc = s.svc := rfl
@[simp] theorem setCfg_prb (s : State) (d : Nat) (x : CfgSt) : (setCfg s d x).prb = s.prb := rfl
@[simp] theorem setCfg_prf (s : State) (d : Nat) (x : CfgSt) : (setCfg s d x).prf = s.prf := rfl
@[simp] theorem setCfg_pwr (s : State) (d : Nat) (x : CfgSt) : (setCfg s d x).pwr = s.pwr := rfl
@[simp] theorem setCfg_tap (s : State) (d : Nat) (x : CfgSt) : (setCfg s d x).tap = s.tap := rfl
@[simp] theorem setCfg_pending (s : State) (d : Nat) (x : CfgSt) : (setCfg s d x).pending = s.pending := rfl

@[simp] theorem setCal_part (s : State) (d n : Nat) (x : Cal) : (setCal s d n x).part = s.part := rfl
@[simp] theorem setCal_now (s : State) (d n : Nat) (x : Cal) : (setCal s d n x).now = s.now := rfl
@[simp] theorem setCal_freeCtr (s : State) (d n : Nat) (x : Cal) : (setCal s d n x).freeCtr = s.freeCtr := rfl
@[simp] theorem setCal_ready (s : State) (d n : Nat) (x : Cal) : (setCal s d n x).ready = s.ready := rfl
@[simp] theorem setCal_lastRead (s : State) (d n : Nat) (x : Cal) : (setCal s d n x).lastRead = s.lastRead := rfl
@[simp] theorem setCal_regs (s : State) (d n : Nat) (x : Cal) : (setCal s d n x).regs = s.regs := rfl
@[simp] theorem setCal_shadows (s : State) (d n : Nat) (x : Cal) : (setCal s d n x).shadows = s.shadows := rfl
@[simp] theorem setCal_wo1 (s : State) (d n : Nat) (x : Cal) : (setCal s d n x).wo1 = s.wo1 := rfl
@[simp] theorem setCal_cfg (s : State) (d n : Nat) (x : Cal) : (setCal s d n x).cfg = s.cfg := rfl
@[simp] theorem setCal_strobes (s : State) (d n : Nat) (x : Cal) : (setCal s d n x).strobes = s.strobes := rfl
@[simp] theorem setCal_mem (s : State) (d n : Nat) (x : Cal) : (setCal s d n x).mem = s.mem := rfl
@[simp] theorem setCal_host (s : State) (d n : Nat) (x : Cal) : (setCal s d n x).host = s.host := rfl
@[simp] theorem setCal_tree (s : State) (d n : Nat) (x : Cal) : (setCal s d n x).tree = s.tree := rfl
@[simp] theorem setCal_lanes (s : State) (d n : Nat) (x : Cal) : (setCal s d n x).lanes = s.lanes := rfl
@[simp] theorem setCal_clk (s : State) (d n : Nat) (x : Cal) : (setCal s d n x).clk = s.clk := rfl
@[simp] theorem setCal_cap (s : State) (d n : Nat) (x : Cal) : (setCal s d n x).cap = s.cap := rfl
@[simp] theorem setCal_sht (s : State) (d n : Nat) (x : Cal) : (setCal s d n x).sht = s.sht := rfl
@[simp] theorem setCal_spc (s : State) (d n : Nat) (x : Cal) : (setCal s d n x).spc = s.spc := rfl
@[simp] theorem setCal_eng (s : State) (d n : Nat) (x : Cal) : (setCal s d n x).eng = s.eng := rfl
@[simp] theorem setCal_xfer (s : State) (d n : Nat) (x : Cal) : (setCal s d n x).xfer = s.xfer := rfl
@[simp] theorem setCal_sec (s : State) (d n : Nat) (x : Cal) : (setCal s d n x).sec = s.sec := rfl
@[simp] theorem setCal_svc (s : State) (d n : Nat) (x : Cal) : (setCal s d n x).svc = s.svc := rfl
@[simp] theorem setCal_prb (s : State) (d n : Nat) (x : Cal) : (setCal s d n x).prb = s.prb := rfl
@[simp] theorem setCal_prf (s : State) (d n : Nat) (x : Cal) : (setCal s d n x).prf = s.prf := rfl
@[simp] theorem setCal_pwr (s : State) (d n : Nat) (x : Cal) : (setCal s d n x).pwr = s.pwr := rfl
@[simp] theorem setCal_tap (s : State) (d n : Nat) (x : Cal) : (setCal s d n x).tap = s.tap := rfl
@[simp] theorem setCal_pending (s : State) (d n : Nat) (x : Cal) : (setCal s d n x).pending = s.pending := rfl

@[simp] theorem setEng_part (s : State) (d e : Nat) (x : Engine) : (setEng s d e x).part = s.part := rfl
@[simp] theorem setEng_now (s : State) (d e : Nat) (x : Engine) : (setEng s d e x).now = s.now := rfl
@[simp] theorem setEng_freeCtr (s : State) (d e : Nat) (x : Engine) : (setEng s d e x).freeCtr = s.freeCtr := rfl
@[simp] theorem setEng_ready (s : State) (d e : Nat) (x : Engine) : (setEng s d e x).ready = s.ready := rfl
@[simp] theorem setEng_lastRead (s : State) (d e : Nat) (x : Engine) : (setEng s d e x).lastRead = s.lastRead := rfl
@[simp] theorem setEng_regs (s : State) (d e : Nat) (x : Engine) : (setEng s d e x).regs = s.regs := rfl
@[simp] theorem setEng_shadows (s : State) (d e : Nat) (x : Engine) : (setEng s d e x).shadows = s.shadows := rfl
@[simp] theorem setEng_wo1 (s : State) (d e : Nat) (x : Engine) : (setEng s d e x).wo1 = s.wo1 := rfl
@[simp] theorem setEng_cfg (s : State) (d e : Nat) (x : Engine) : (setEng s d e x).cfg = s.cfg := rfl
@[simp] theorem setEng_strobes (s : State) (d e : Nat) (x : Engine) : (setEng s d e x).strobes = s.strobes := rfl
@[simp] theorem setEng_mem (s : State) (d e : Nat) (x : Engine) : (setEng s d e x).mem = s.mem := rfl
@[simp] theorem setEng_host (s : State) (d e : Nat) (x : Engine) : (setEng s d e x).host = s.host := rfl
@[simp] theorem setEng_tree (s : State) (d e : Nat) (x : Engine) : (setEng s d e x).tree = s.tree := rfl
@[simp] theorem setEng_lanes (s : State) (d e : Nat) (x : Engine) : (setEng s d e x).lanes = s.lanes := rfl
@[simp] theorem setEng_clk (s : State) (d e : Nat) (x : Engine) : (setEng s d e x).clk = s.clk := rfl
@[simp] theorem setEng_cap (s : State) (d e : Nat) (x : Engine) : (setEng s d e x).cap = s.cap := rfl
@[simp] theorem setEng_sht (s : State) (d e : Nat) (x : Engine) : (setEng s d e x).sht = s.sht := rfl
@[simp] theorem setEng_spc (s : State) (d e : Nat) (x : Engine) : (setEng s d e x).spc = s.spc := rfl
@[simp] theorem setEng_cal (s : State) (d e : Nat) (x : Engine) : (setEng s d e x).cal = s.cal := rfl
@[simp] theorem setEng_xfer (s : State) (d e : Nat) (x : Engine) : (setEng s d e x).xfer = s.xfer := rfl
@[simp] theorem setEng_sec (s : State) (d e : Nat) (x : Engine) : (setEng s d e x).sec = s.sec := rfl
@[simp] theorem setEng_svc (s : State) (d e : Nat) (x : Engine) : (setEng s d e x).svc = s.svc := rfl
@[simp] theorem setEng_prb (s : State) (d e : Nat) (x : Engine) : (setEng s d e x).prb = s.prb := rfl
@[simp] theorem setEng_prf (s : State) (d e : Nat) (x : Engine) : (setEng s d e x).prf = s.prf := rfl
@[simp] theorem setEng_pwr (s : State) (d e : Nat) (x : Engine) : (setEng s d e x).pwr = s.pwr := rfl
@[simp] theorem setEng_tap (s : State) (d e : Nat) (x : Engine) : (setEng s d e x).tap = s.tap := rfl
@[simp] theorem setEng_pending (s : State) (d e : Nat) (x : Engine) : (setEng s d e x).pending = s.pending := rfl

@[simp] theorem setXfer_part (s : State) (d c : Nat) (x : Xfer) : (setXfer s d c x).part = s.part := rfl
@[simp] theorem setXfer_now (s : State) (d c : Nat) (x : Xfer) : (setXfer s d c x).now = s.now := rfl
@[simp] theorem setXfer_freeCtr (s : State) (d c : Nat) (x : Xfer) : (setXfer s d c x).freeCtr = s.freeCtr := rfl
@[simp] theorem setXfer_ready (s : State) (d c : Nat) (x : Xfer) : (setXfer s d c x).ready = s.ready := rfl
@[simp] theorem setXfer_lastRead (s : State) (d c : Nat) (x : Xfer) : (setXfer s d c x).lastRead = s.lastRead := rfl
@[simp] theorem setXfer_regs (s : State) (d c : Nat) (x : Xfer) : (setXfer s d c x).regs = s.regs := rfl
@[simp] theorem setXfer_shadows (s : State) (d c : Nat) (x : Xfer) : (setXfer s d c x).shadows = s.shadows := rfl
@[simp] theorem setXfer_wo1 (s : State) (d c : Nat) (x : Xfer) : (setXfer s d c x).wo1 = s.wo1 := rfl
@[simp] theorem setXfer_cfg (s : State) (d c : Nat) (x : Xfer) : (setXfer s d c x).cfg = s.cfg := rfl
@[simp] theorem setXfer_strobes (s : State) (d c : Nat) (x : Xfer) : (setXfer s d c x).strobes = s.strobes := rfl
@[simp] theorem setXfer_mem (s : State) (d c : Nat) (x : Xfer) : (setXfer s d c x).mem = s.mem := rfl
@[simp] theorem setXfer_host (s : State) (d c : Nat) (x : Xfer) : (setXfer s d c x).host = s.host := rfl
@[simp] theorem setXfer_tree (s : State) (d c : Nat) (x : Xfer) : (setXfer s d c x).tree = s.tree := rfl
@[simp] theorem setXfer_lanes (s : State) (d c : Nat) (x : Xfer) : (setXfer s d c x).lanes = s.lanes := rfl
@[simp] theorem setXfer_clk (s : State) (d c : Nat) (x : Xfer) : (setXfer s d c x).clk = s.clk := rfl
@[simp] theorem setXfer_cap (s : State) (d c : Nat) (x : Xfer) : (setXfer s d c x).cap = s.cap := rfl
@[simp] theorem setXfer_sht (s : State) (d c : Nat) (x : Xfer) : (setXfer s d c x).sht = s.sht := rfl
@[simp] theorem setXfer_spc (s : State) (d c : Nat) (x : Xfer) : (setXfer s d c x).spc = s.spc := rfl
@[simp] theorem setXfer_cal (s : State) (d c : Nat) (x : Xfer) : (setXfer s d c x).cal = s.cal := rfl
@[simp] theorem setXfer_eng (s : State) (d c : Nat) (x : Xfer) : (setXfer s d c x).eng = s.eng := rfl
@[simp] theorem setXfer_sec (s : State) (d c : Nat) (x : Xfer) : (setXfer s d c x).sec = s.sec := rfl
@[simp] theorem setXfer_svc (s : State) (d c : Nat) (x : Xfer) : (setXfer s d c x).svc = s.svc := rfl
@[simp] theorem setXfer_prb (s : State) (d c : Nat) (x : Xfer) : (setXfer s d c x).prb = s.prb := rfl
@[simp] theorem setXfer_prf (s : State) (d c : Nat) (x : Xfer) : (setXfer s d c x).prf = s.prf := rfl
@[simp] theorem setXfer_pwr (s : State) (d c : Nat) (x : Xfer) : (setXfer s d c x).pwr = s.pwr := rfl
@[simp] theorem setXfer_tap (s : State) (d c : Nat) (x : Xfer) : (setXfer s d c x).tap = s.tap := rfl
@[simp] theorem setXfer_pending (s : State) (d c : Nat) (x : Xfer) : (setXfer s d c x).pending = s.pending := rfl

@[simp] theorem setSvc_part (s : State) (d k : Nat) (x : Svc) : (setSvc s d k x).part = s.part := rfl
@[simp] theorem setSvc_now (s : State) (d k : Nat) (x : Svc) : (setSvc s d k x).now = s.now := rfl
@[simp] theorem setSvc_freeCtr (s : State) (d k : Nat) (x : Svc) : (setSvc s d k x).freeCtr = s.freeCtr := rfl
@[simp] theorem setSvc_ready (s : State) (d k : Nat) (x : Svc) : (setSvc s d k x).ready = s.ready := rfl
@[simp] theorem setSvc_lastRead (s : State) (d k : Nat) (x : Svc) : (setSvc s d k x).lastRead = s.lastRead := rfl
@[simp] theorem setSvc_regs (s : State) (d k : Nat) (x : Svc) : (setSvc s d k x).regs = s.regs := rfl
@[simp] theorem setSvc_shadows (s : State) (d k : Nat) (x : Svc) : (setSvc s d k x).shadows = s.shadows := rfl
@[simp] theorem setSvc_wo1 (s : State) (d k : Nat) (x : Svc) : (setSvc s d k x).wo1 = s.wo1 := rfl
@[simp] theorem setSvc_cfg (s : State) (d k : Nat) (x : Svc) : (setSvc s d k x).cfg = s.cfg := rfl
@[simp] theorem setSvc_strobes (s : State) (d k : Nat) (x : Svc) : (setSvc s d k x).strobes = s.strobes := rfl
@[simp] theorem setSvc_mem (s : State) (d k : Nat) (x : Svc) : (setSvc s d k x).mem = s.mem := rfl
@[simp] theorem setSvc_host (s : State) (d k : Nat) (x : Svc) : (setSvc s d k x).host = s.host := rfl
@[simp] theorem setSvc_tree (s : State) (d k : Nat) (x : Svc) : (setSvc s d k x).tree = s.tree := rfl
@[simp] theorem setSvc_lanes (s : State) (d k : Nat) (x : Svc) : (setSvc s d k x).lanes = s.lanes := rfl
@[simp] theorem setSvc_clk (s : State) (d k : Nat) (x : Svc) : (setSvc s d k x).clk = s.clk := rfl
@[simp] theorem setSvc_cap (s : State) (d k : Nat) (x : Svc) : (setSvc s d k x).cap = s.cap := rfl
@[simp] theorem setSvc_sht (s : State) (d k : Nat) (x : Svc) : (setSvc s d k x).sht = s.sht := rfl
@[simp] theorem setSvc_spc (s : State) (d k : Nat) (x : Svc) : (setSvc s d k x).spc = s.spc := rfl
@[simp] theorem setSvc_cal (s : State) (d k : Nat) (x : Svc) : (setSvc s d k x).cal = s.cal := rfl
@[simp] theorem setSvc_eng (s : State) (d k : Nat) (x : Svc) : (setSvc s d k x).eng = s.eng := rfl
@[simp] theorem setSvc_xfer (s : State) (d k : Nat) (x : Svc) : (setSvc s d k x).xfer = s.xfer := rfl
@[simp] theorem setSvc_sec (s : State) (d k : Nat) (x : Svc) : (setSvc s d k x).sec = s.sec := rfl
@[simp] theorem setSvc_prb (s : State) (d k : Nat) (x : Svc) : (setSvc s d k x).prb = s.prb := rfl
@[simp] theorem setSvc_prf (s : State) (d k : Nat) (x : Svc) : (setSvc s d k x).prf = s.prf := rfl
@[simp] theorem setSvc_pwr (s : State) (d k : Nat) (x : Svc) : (setSvc s d k x).pwr = s.pwr := rfl
@[simp] theorem setSvc_tap (s : State) (d k : Nat) (x : Svc) : (setSvc s d k x).tap = s.tap := rfl
@[simp] theorem setSvc_pending (s : State) (d k : Nat) (x : Svc) : (setSvc s d k x).pending = s.pending := rfl

@[simp] theorem setDrive_part (s : State) (d p : Nat) (x : Drive) : (setDrive s d p x).part = s.part := rfl
@[simp] theorem setDrive_now (s : State) (d p : Nat) (x : Drive) : (setDrive s d p x).now = s.now := rfl
@[simp] theorem setDrive_freeCtr (s : State) (d p : Nat) (x : Drive) : (setDrive s d p x).freeCtr = s.freeCtr := rfl
@[simp] theorem setDrive_ready (s : State) (d p : Nat) (x : Drive) : (setDrive s d p x).ready = s.ready := rfl
@[simp] theorem setDrive_lastRead (s : State) (d p : Nat) (x : Drive) : (setDrive s d p x).lastRead = s.lastRead := rfl
@[simp] theorem setDrive_regs (s : State) (d p : Nat) (x : Drive) : (setDrive s d p x).regs = s.regs := rfl
@[simp] theorem setDrive_shadows (s : State) (d p : Nat) (x : Drive) : (setDrive s d p x).shadows = s.shadows := rfl
@[simp] theorem setDrive_wo1 (s : State) (d p : Nat) (x : Drive) : (setDrive s d p x).wo1 = s.wo1 := rfl
@[simp] theorem setDrive_cfg (s : State) (d p : Nat) (x : Drive) : (setDrive s d p x).cfg = s.cfg := rfl
@[simp] theorem setDrive_strobes (s : State) (d p : Nat) (x : Drive) : (setDrive s d p x).strobes = s.strobes := rfl
@[simp] theorem setDrive_mem (s : State) (d p : Nat) (x : Drive) : (setDrive s d p x).mem = s.mem := rfl
@[simp] theorem setDrive_host (s : State) (d p : Nat) (x : Drive) : (setDrive s d p x).host = s.host := rfl
@[simp] theorem setDrive_tree (s : State) (d p : Nat) (x : Drive) : (setDrive s d p x).tree = s.tree := rfl
@[simp] theorem setDrive_lanes (s : State) (d p : Nat) (x : Drive) : (setDrive s d p x).lanes = s.lanes := rfl
@[simp] theorem setDrive_clk (s : State) (d p : Nat) (x : Drive) : (setDrive s d p x).clk = s.clk := rfl
@[simp] theorem setDrive_cap (s : State) (d p : Nat) (x : Drive) : (setDrive s d p x).cap = s.cap := rfl
@[simp] theorem setDrive_sht (s : State) (d p : Nat) (x : Drive) : (setDrive s d p x).sht = s.sht := rfl
@[simp] theorem setDrive_spc (s : State) (d p : Nat) (x : Drive) : (setDrive s d p x).spc = s.spc := rfl
@[simp] theorem setDrive_cal (s : State) (d p : Nat) (x : Drive) : (setDrive s d p x).cal = s.cal := rfl
@[simp] theorem setDrive_eng (s : State) (d p : Nat) (x : Drive) : (setDrive s d p x).eng = s.eng := rfl
@[simp] theorem setDrive_xfer (s : State) (d p : Nat) (x : Drive) : (setDrive s d p x).xfer = s.xfer := rfl
@[simp] theorem setDrive_sec (s : State) (d p : Nat) (x : Drive) : (setDrive s d p x).sec = s.sec := rfl
@[simp] theorem setDrive_prb (s : State) (d p : Nat) (x : Drive) : (setDrive s d p x).prb = s.prb := rfl
@[simp] theorem setDrive_prf (s : State) (d p : Nat) (x : Drive) : (setDrive s d p x).prf = s.prf := rfl
@[simp] theorem setDrive_pwr (s : State) (d p : Nat) (x : Drive) : (setDrive s d p x).pwr = s.pwr := rfl
@[simp] theorem setDrive_tap (s : State) (d p : Nat) (x : Drive) : (setDrive s d p x).tap = s.tap := rfl
@[simp] theorem setDrive_pending (s : State) (d p : Nat) (x : Drive) : (setDrive s d p x).pending = s.pending := rfl

@[simp] theorem setSeq_part (s : State) (q : Nat) (x : Sequencer) : (setSeq s q x).part = s.part := rfl
@[simp] theorem setSeq_now (s : State) (q : Nat) (x : Sequencer) : (setSeq s q x).now = s.now := rfl
@[simp] theorem setSeq_freeCtr (s : State) (q : Nat) (x : Sequencer) : (setSeq s q x).freeCtr = s.freeCtr := rfl
@[simp] theorem setSeq_ready (s : State) (q : Nat) (x : Sequencer) : (setSeq s q x).ready = s.ready := rfl
@[simp] theorem setSeq_lastRead (s : State) (q : Nat) (x : Sequencer) : (setSeq s q x).lastRead = s.lastRead := rfl
@[simp] theorem setSeq_regs (s : State) (q : Nat) (x : Sequencer) : (setSeq s q x).regs = s.regs := rfl
@[simp] theorem setSeq_shadows (s : State) (q : Nat) (x : Sequencer) : (setSeq s q x).shadows = s.shadows := rfl
@[simp] theorem setSeq_wo1 (s : State) (q : Nat) (x : Sequencer) : (setSeq s q x).wo1 = s.wo1 := rfl
@[simp] theorem setSeq_cfg (s : State) (q : Nat) (x : Sequencer) : (setSeq s q x).cfg = s.cfg := rfl
@[simp] theorem setSeq_strobes (s : State) (q : Nat) (x : Sequencer) : (setSeq s q x).strobes = s.strobes := rfl
@[simp] theorem setSeq_mem (s : State) (q : Nat) (x : Sequencer) : (setSeq s q x).mem = s.mem := rfl
@[simp] theorem setSeq_host (s : State) (q : Nat) (x : Sequencer) : (setSeq s q x).host = s.host := rfl
@[simp] theorem setSeq_tree (s : State) (q : Nat) (x : Sequencer) : (setSeq s q x).tree = s.tree := rfl
@[simp] theorem setSeq_lanes (s : State) (q : Nat) (x : Sequencer) : (setSeq s q x).lanes = s.lanes := rfl
@[simp] theorem setSeq_clk (s : State) (q : Nat) (x : Sequencer) : (setSeq s q x).clk = s.clk := rfl
@[simp] theorem setSeq_cap (s : State) (q : Nat) (x : Sequencer) : (setSeq s q x).cap = s.cap := rfl
@[simp] theorem setSeq_spc (s : State) (q : Nat) (x : Sequencer) : (setSeq s q x).spc = s.spc := rfl
@[simp] theorem setSeq_cal (s : State) (q : Nat) (x : Sequencer) : (setSeq s q x).cal = s.cal := rfl
@[simp] theorem setSeq_eng (s : State) (q : Nat) (x : Sequencer) : (setSeq s q x).eng = s.eng := rfl
@[simp] theorem setSeq_xfer (s : State) (q : Nat) (x : Sequencer) : (setSeq s q x).xfer = s.xfer := rfl
@[simp] theorem setSeq_sec (s : State) (q : Nat) (x : Sequencer) : (setSeq s q x).sec = s.sec := rfl
@[simp] theorem setSeq_svc (s : State) (q : Nat) (x : Sequencer) : (setSeq s q x).svc = s.svc := rfl
@[simp] theorem setSeq_prb (s : State) (q : Nat) (x : Sequencer) : (setSeq s q x).prb = s.prb := rfl
@[simp] theorem setSeq_prf (s : State) (q : Nat) (x : Sequencer) : (setSeq s q x).prf = s.prf := rfl
@[simp] theorem setSeq_pwr (s : State) (q : Nat) (x : Sequencer) : (setSeq s q x).pwr = s.pwr := rfl
@[simp] theorem setSeq_tap (s : State) (q : Nat) (x : Sequencer) : (setSeq s q x).tap = s.tap := rfl
@[simp] theorem setSeq_pending (s : State) (q : Nat) (x : Sequencer) : (setSeq s q x).pending = s.pending := rfl

@[simp] theorem setTrigIn_part (s : State) (n : Nat) (x : TrigIn) : (setTrigIn s n x).part = s.part := rfl
@[simp] theorem setTrigIn_now (s : State) (n : Nat) (x : TrigIn) : (setTrigIn s n x).now = s.now := rfl
@[simp] theorem setTrigIn_freeCtr (s : State) (n : Nat) (x : TrigIn) : (setTrigIn s n x).freeCtr = s.freeCtr := rfl
@[simp] theorem setTrigIn_ready (s : State) (n : Nat) (x : TrigIn) : (setTrigIn s n x).ready = s.ready := rfl
@[simp] theorem setTrigIn_lastRead (s : State) (n : Nat) (x : TrigIn) : (setTrigIn s n x).lastRead = s.lastRead := rfl
@[simp] theorem setTrigIn_regs (s : State) (n : Nat) (x : TrigIn) : (setTrigIn s n x).regs = s.regs := rfl
@[simp] theorem setTrigIn_shadows (s : State) (n : Nat) (x : TrigIn) : (setTrigIn s n x).shadows = s.shadows := rfl
@[simp] theorem setTrigIn_wo1 (s : State) (n : Nat) (x : TrigIn) : (setTrigIn s n x).wo1 = s.wo1 := rfl
@[simp] theorem setTrigIn_cfg (s : State) (n : Nat) (x : TrigIn) : (setTrigIn s n x).cfg = s.cfg := rfl
@[simp] theorem setTrigIn_strobes (s : State) (n : Nat) (x : TrigIn) : (setTrigIn s n x).strobes = s.strobes := rfl
@[simp] theorem setTrigIn_mem (s : State) (n : Nat) (x : TrigIn) : (setTrigIn s n x).mem = s.mem := rfl
@[simp] theorem setTrigIn_host (s : State) (n : Nat) (x : TrigIn) : (setTrigIn s n x).host = s.host := rfl
@[simp] theorem setTrigIn_tree (s : State) (n : Nat) (x : TrigIn) : (setTrigIn s n x).tree = s.tree := rfl
@[simp] theorem setTrigIn_lanes (s : State) (n : Nat) (x : TrigIn) : (setTrigIn s n x).lanes = s.lanes := rfl
@[simp] theorem setTrigIn_clk (s : State) (n : Nat) (x : TrigIn) : (setTrigIn s n x).clk = s.clk := rfl
@[simp] theorem setTrigIn_cap (s : State) (n : Nat) (x : TrigIn) : (setTrigIn s n x).cap = s.cap := rfl
@[simp] theorem setTrigIn_spc (s : State) (n : Nat) (x : TrigIn) : (setTrigIn s n x).spc = s.spc := rfl
@[simp] theorem setTrigIn_cal (s : State) (n : Nat) (x : TrigIn) : (setTrigIn s n x).cal = s.cal := rfl
@[simp] theorem setTrigIn_eng (s : State) (n : Nat) (x : TrigIn) : (setTrigIn s n x).eng = s.eng := rfl
@[simp] theorem setTrigIn_xfer (s : State) (n : Nat) (x : TrigIn) : (setTrigIn s n x).xfer = s.xfer := rfl
@[simp] theorem setTrigIn_sec (s : State) (n : Nat) (x : TrigIn) : (setTrigIn s n x).sec = s.sec := rfl
@[simp] theorem setTrigIn_svc (s : State) (n : Nat) (x : TrigIn) : (setTrigIn s n x).svc = s.svc := rfl
@[simp] theorem setTrigIn_prb (s : State) (n : Nat) (x : TrigIn) : (setTrigIn s n x).prb = s.prb := rfl
@[simp] theorem setTrigIn_prf (s : State) (n : Nat) (x : TrigIn) : (setTrigIn s n x).prf = s.prf := rfl
@[simp] theorem setTrigIn_pwr (s : State) (n : Nat) (x : TrigIn) : (setTrigIn s n x).pwr = s.pwr := rfl
@[simp] theorem setTrigIn_tap (s : State) (n : Nat) (x : TrigIn) : (setTrigIn s n x).tap = s.tap := rfl
@[simp] theorem setTrigIn_pending (s : State) (n : Nat) (x : TrigIn) : (setTrigIn s n x).pending = s.pending := rfl

@[simp] theorem setTrigOut_part (s : State) (n : Nat) (x : TrigOut) : (setTrigOut s n x).part = s.part := rfl
@[simp] theorem setTrigOut_now (s : State) (n : Nat) (x : TrigOut) : (setTrigOut s n x).now = s.now := rfl
@[simp] theorem setTrigOut_freeCtr (s : State) (n : Nat) (x : TrigOut) : (setTrigOut s n x).freeCtr = s.freeCtr := rfl
@[simp] theorem setTrigOut_ready (s : State) (n : Nat) (x : TrigOut) : (setTrigOut s n x).ready = s.ready := rfl
@[simp] theorem setTrigOut_lastRead (s : State) (n : Nat) (x : TrigOut) : (setTrigOut s n x).lastRead = s.lastRead := rfl
@[simp] theorem setTrigOut_regs (s : State) (n : Nat) (x : TrigOut) : (setTrigOut s n x).regs = s.regs := rfl
@[simp] theorem setTrigOut_shadows (s : State) (n : Nat) (x : TrigOut) : (setTrigOut s n x).shadows = s.shadows := rfl
@[simp] theorem setTrigOut_wo1 (s : State) (n : Nat) (x : TrigOut) : (setTrigOut s n x).wo1 = s.wo1 := rfl
@[simp] theorem setTrigOut_cfg (s : State) (n : Nat) (x : TrigOut) : (setTrigOut s n x).cfg = s.cfg := rfl
@[simp] theorem setTrigOut_strobes (s : State) (n : Nat) (x : TrigOut) : (setTrigOut s n x).strobes = s.strobes := rfl
@[simp] theorem setTrigOut_mem (s : State) (n : Nat) (x : TrigOut) : (setTrigOut s n x).mem = s.mem := rfl
@[simp] theorem setTrigOut_host (s : State) (n : Nat) (x : TrigOut) : (setTrigOut s n x).host = s.host := rfl
@[simp] theorem setTrigOut_tree (s : State) (n : Nat) (x : TrigOut) : (setTrigOut s n x).tree = s.tree := rfl
@[simp] theorem setTrigOut_lanes (s : State) (n : Nat) (x : TrigOut) : (setTrigOut s n x).lanes = s.lanes := rfl
@[simp] theorem setTrigOut_clk (s : State) (n : Nat) (x : TrigOut) : (setTrigOut s n x).clk = s.clk := rfl
@[simp] theorem setTrigOut_cap (s : State) (n : Nat) (x : TrigOut) : (setTrigOut s n x).cap = s.cap := rfl
@[simp] theorem setTrigOut_spc (s : State) (n : Nat) (x : TrigOut) : (setTrigOut s n x).spc = s.spc := rfl
@[simp] theorem setTrigOut_cal (s : State) (n : Nat) (x : TrigOut) : (setTrigOut s n x).cal = s.cal := rfl
@[simp] theorem setTrigOut_eng (s : State) (n : Nat) (x : TrigOut) : (setTrigOut s n x).eng = s.eng := rfl
@[simp] theorem setTrigOut_xfer (s : State) (n : Nat) (x : TrigOut) : (setTrigOut s n x).xfer = s.xfer := rfl
@[simp] theorem setTrigOut_sec (s : State) (n : Nat) (x : TrigOut) : (setTrigOut s n x).sec = s.sec := rfl
@[simp] theorem setTrigOut_svc (s : State) (n : Nat) (x : TrigOut) : (setTrigOut s n x).svc = s.svc := rfl
@[simp] theorem setTrigOut_prb (s : State) (n : Nat) (x : TrigOut) : (setTrigOut s n x).prb = s.prb := rfl
@[simp] theorem setTrigOut_prf (s : State) (n : Nat) (x : TrigOut) : (setTrigOut s n x).prf = s.prf := rfl
@[simp] theorem setTrigOut_pwr (s : State) (n : Nat) (x : TrigOut) : (setTrigOut s n x).pwr = s.pwr := rfl
@[simp] theorem setTrigOut_tap (s : State) (n : Nat) (x : TrigOut) : (setTrigOut s n x).tap = s.tap := rfl
@[simp] theorem setTrigOut_pending (s : State) (n : Nat) (x : TrigOut) : (setTrigOut s n x).pending = s.pending := rfl

@[simp] theorem setNeg_part (s : State) (d : Nat) (x : NegStore) : (setNeg s d x).part = s.part := rfl
@[simp] theorem setNeg_now (s : State) (d : Nat) (x : NegStore) : (setNeg s d x).now = s.now := rfl
@[simp] theorem setNeg_freeCtr (s : State) (d : Nat) (x : NegStore) : (setNeg s d x).freeCtr = s.freeCtr := rfl
@[simp] theorem setNeg_ready (s : State) (d : Nat) (x : NegStore) : (setNeg s d x).ready = s.ready := rfl
@[simp] theorem setNeg_lastRead (s : State) (d : Nat) (x : NegStore) : (setNeg s d x).lastRead = s.lastRead := rfl
@[simp] theorem setNeg_regs (s : State) (d : Nat) (x : NegStore) : (setNeg s d x).regs = s.regs := rfl
@[simp] theorem setNeg_shadows (s : State) (d : Nat) (x : NegStore) : (setNeg s d x).shadows = s.shadows := rfl
@[simp] theorem setNeg_wo1 (s : State) (d : Nat) (x : NegStore) : (setNeg s d x).wo1 = s.wo1 := rfl
@[simp] theorem setNeg_cfg (s : State) (d : Nat) (x : NegStore) : (setNeg s d x).cfg = s.cfg := rfl
@[simp] theorem setNeg_strobes (s : State) (d : Nat) (x : NegStore) : (setNeg s d x).strobes = s.strobes := rfl
@[simp] theorem setNeg_mem (s : State) (d : Nat) (x : NegStore) : (setNeg s d x).mem = s.mem := rfl
@[simp] theorem setNeg_host (s : State) (d : Nat) (x : NegStore) : (setNeg s d x).host = s.host := rfl
@[simp] theorem setNeg_tree (s : State) (d : Nat) (x : NegStore) : (setNeg s d x).tree = s.tree := rfl
@[simp] theorem setNeg_lanes (s : State) (d : Nat) (x : NegStore) : (setNeg s d x).lanes = s.lanes := rfl
@[simp] theorem setNeg_clk (s : State) (d : Nat) (x : NegStore) : (setNeg s d x).clk = s.clk := rfl
@[simp] theorem setNeg_cap (s : State) (d : Nat) (x : NegStore) : (setNeg s d x).cap = s.cap := rfl
@[simp] theorem setNeg_spc (s : State) (d : Nat) (x : NegStore) : (setNeg s d x).spc = s.spc := rfl
@[simp] theorem setNeg_cal (s : State) (d : Nat) (x : NegStore) : (setNeg s d x).cal = s.cal := rfl
@[simp] theorem setNeg_eng (s : State) (d : Nat) (x : NegStore) : (setNeg s d x).eng = s.eng := rfl
@[simp] theorem setNeg_xfer (s : State) (d : Nat) (x : NegStore) : (setNeg s d x).xfer = s.xfer := rfl
@[simp] theorem setNeg_sec (s : State) (d : Nat) (x : NegStore) : (setNeg s d x).sec = s.sec := rfl
@[simp] theorem setNeg_svc (s : State) (d : Nat) (x : NegStore) : (setNeg s d x).svc = s.svc := rfl
@[simp] theorem setNeg_prb (s : State) (d : Nat) (x : NegStore) : (setNeg s d x).prb = s.prb := rfl
@[simp] theorem setNeg_prf (s : State) (d : Nat) (x : NegStore) : (setNeg s d x).prf = s.prf := rfl
@[simp] theorem setNeg_pwr (s : State) (d : Nat) (x : NegStore) : (setNeg s d x).pwr = s.pwr := rfl
@[simp] theorem setNeg_tap (s : State) (d : Nat) (x : NegStore) : (setNeg s d x).tap = s.tap := rfl
@[simp] theorem setNeg_pending (s : State) (d : Nat) (x : NegStore) : (setNeg s d x).pending = s.pending := rfl

@[simp] theorem setCmp_part (s : State) (d k : Nat) (x : Comparator) : (setCmp s d k x).part = s.part := rfl
@[simp] theorem setCmp_now (s : State) (d k : Nat) (x : Comparator) : (setCmp s d k x).now = s.now := rfl
@[simp] theorem setCmp_freeCtr (s : State) (d k : Nat) (x : Comparator) : (setCmp s d k x).freeCtr = s.freeCtr := rfl
@[simp] theorem setCmp_ready (s : State) (d k : Nat) (x : Comparator) : (setCmp s d k x).ready = s.ready := rfl
@[simp] theorem setCmp_lastRead (s : State) (d k : Nat) (x : Comparator) : (setCmp s d k x).lastRead = s.lastRead := rfl
@[simp] theorem setCmp_regs (s : State) (d k : Nat) (x : Comparator) : (setCmp s d k x).regs = s.regs := rfl
@[simp] theorem setCmp_shadows (s : State) (d k : Nat) (x : Comparator) : (setCmp s d k x).shadows = s.shadows := rfl
@[simp] theorem setCmp_wo1 (s : State) (d k : Nat) (x : Comparator) : (setCmp s d k x).wo1 = s.wo1 := rfl
@[simp] theorem setCmp_cfg (s : State) (d k : Nat) (x : Comparator) : (setCmp s d k x).cfg = s.cfg := rfl
@[simp] theorem setCmp_strobes (s : State) (d k : Nat) (x : Comparator) : (setCmp s d k x).strobes = s.strobes := rfl
@[simp] theorem setCmp_mem (s : State) (d k : Nat) (x : Comparator) : (setCmp s d k x).mem = s.mem := rfl
@[simp] theorem setCmp_host (s : State) (d k : Nat) (x : Comparator) : (setCmp s d k x).host = s.host := rfl
@[simp] theorem setCmp_tree (s : State) (d k : Nat) (x : Comparator) : (setCmp s d k x).tree = s.tree := rfl
@[simp] theorem setCmp_lanes (s : State) (d k : Nat) (x : Comparator) : (setCmp s d k x).lanes = s.lanes := rfl
@[simp] theorem setCmp_clk (s : State) (d k : Nat) (x : Comparator) : (setCmp s d k x).clk = s.clk := rfl
@[simp] theorem setCmp_cap (s : State) (d k : Nat) (x : Comparator) : (setCmp s d k x).cap = s.cap := rfl
@[simp] theorem setCmp_spc (s : State) (d k : Nat) (x : Comparator) : (setCmp s d k x).spc = s.spc := rfl
@[simp] theorem setCmp_cal (s : State) (d k : Nat) (x : Comparator) : (setCmp s d k x).cal = s.cal := rfl
@[simp] theorem setCmp_eng (s : State) (d k : Nat) (x : Comparator) : (setCmp s d k x).eng = s.eng := rfl
@[simp] theorem setCmp_xfer (s : State) (d k : Nat) (x : Comparator) : (setCmp s d k x).xfer = s.xfer := rfl
@[simp] theorem setCmp_sec (s : State) (d k : Nat) (x : Comparator) : (setCmp s d k x).sec = s.sec := rfl
@[simp] theorem setCmp_svc (s : State) (d k : Nat) (x : Comparator) : (setCmp s d k x).svc = s.svc := rfl
@[simp] theorem setCmp_prb (s : State) (d k : Nat) (x : Comparator) : (setCmp s d k x).prb = s.prb := rfl
@[simp] theorem setCmp_prf (s : State) (d k : Nat) (x : Comparator) : (setCmp s d k x).prf = s.prf := rfl
@[simp] theorem setCmp_pwr (s : State) (d k : Nat) (x : Comparator) : (setCmp s d k x).pwr = s.pwr := rfl
@[simp] theorem setCmp_tap (s : State) (d k : Nat) (x : Comparator) : (setCmp s d k x).tap = s.tap := rfl
@[simp] theorem setCmp_pending (s : State) (d k : Nat) (x : Comparator) : (setCmp s d k x).pending = s.pending := rfl

@[simp] theorem setProbe_part (s : State) (d p : Nat) (x : Probe) : (setProbe s d p x).part = s.part := rfl
@[simp] theorem setProbe_now (s : State) (d p : Nat) (x : Probe) : (setProbe s d p x).now = s.now := rfl
@[simp] theorem setProbe_freeCtr (s : State) (d p : Nat) (x : Probe) : (setProbe s d p x).freeCtr = s.freeCtr := rfl
@[simp] theorem setProbe_ready (s : State) (d p : Nat) (x : Probe) : (setProbe s d p x).ready = s.ready := rfl
@[simp] theorem setProbe_lastRead (s : State) (d p : Nat) (x : Probe) : (setProbe s d p x).lastRead = s.lastRead := rfl
@[simp] theorem setProbe_regs (s : State) (d p : Nat) (x : Probe) : (setProbe s d p x).regs = s.regs := rfl
@[simp] theorem setProbe_shadows (s : State) (d p : Nat) (x : Probe) : (setProbe s d p x).shadows = s.shadows := rfl
@[simp] theorem setProbe_wo1 (s : State) (d p : Nat) (x : Probe) : (setProbe s d p x).wo1 = s.wo1 := rfl
@[simp] theorem setProbe_cfg (s : State) (d p : Nat) (x : Probe) : (setProbe s d p x).cfg = s.cfg := rfl
@[simp] theorem setProbe_strobes (s : State) (d p : Nat) (x : Probe) : (setProbe s d p x).strobes = s.strobes := rfl
@[simp] theorem setProbe_mem (s : State) (d p : Nat) (x : Probe) : (setProbe s d p x).mem = s.mem := rfl
@[simp] theorem setProbe_host (s : State) (d p : Nat) (x : Probe) : (setProbe s d p x).host = s.host := rfl
@[simp] theorem setProbe_tree (s : State) (d p : Nat) (x : Probe) : (setProbe s d p x).tree = s.tree := rfl
@[simp] theorem setProbe_lanes (s : State) (d p : Nat) (x : Probe) : (setProbe s d p x).lanes = s.lanes := rfl
@[simp] theorem setProbe_clk (s : State) (d p : Nat) (x : Probe) : (setProbe s d p x).clk = s.clk := rfl
@[simp] theorem setProbe_cap (s : State) (d p : Nat) (x : Probe) : (setProbe s d p x).cap = s.cap := rfl
@[simp] theorem setProbe_sht (s : State) (d p : Nat) (x : Probe) : (setProbe s d p x).sht = s.sht := rfl
@[simp] theorem setProbe_spc (s : State) (d p : Nat) (x : Probe) : (setProbe s d p x).spc = s.spc := rfl
@[simp] theorem setProbe_cal (s : State) (d p : Nat) (x : Probe) : (setProbe s d p x).cal = s.cal := rfl
@[simp] theorem setProbe_eng (s : State) (d p : Nat) (x : Probe) : (setProbe s d p x).eng = s.eng := rfl
@[simp] theorem setProbe_xfer (s : State) (d p : Nat) (x : Probe) : (setProbe s d p x).xfer = s.xfer := rfl
@[simp] theorem setProbe_sec (s : State) (d p : Nat) (x : Probe) : (setProbe s d p x).sec = s.sec := rfl
@[simp] theorem setProbe_svc (s : State) (d p : Nat) (x : Probe) : (setProbe s d p x).svc = s.svc := rfl
@[simp] theorem setProbe_prf (s : State) (d p : Nat) (x : Probe) : (setProbe s d p x).prf = s.prf := rfl
@[simp] theorem setProbe_pwr (s : State) (d p : Nat) (x : Probe) : (setProbe s d p x).pwr = s.pwr := rfl
@[simp] theorem setProbe_tap (s : State) (d p : Nat) (x : Probe) : (setProbe s d p x).tap = s.tap := rfl
@[simp] theorem setProbe_pending (s : State) (d p : Nat) (x : Probe) : (setProbe s d p x).pending = s.pending := rfl

@[simp] theorem setPwm_part (s : State) (d p : Nat) (x : Pwm) : (setPwm s d p x).part = s.part := rfl
@[simp] theorem setPwm_now (s : State) (d p : Nat) (x : Pwm) : (setPwm s d p x).now = s.now := rfl
@[simp] theorem setPwm_freeCtr (s : State) (d p : Nat) (x : Pwm) : (setPwm s d p x).freeCtr = s.freeCtr := rfl
@[simp] theorem setPwm_ready (s : State) (d p : Nat) (x : Pwm) : (setPwm s d p x).ready = s.ready := rfl
@[simp] theorem setPwm_lastRead (s : State) (d p : Nat) (x : Pwm) : (setPwm s d p x).lastRead = s.lastRead := rfl
@[simp] theorem setPwm_regs (s : State) (d p : Nat) (x : Pwm) : (setPwm s d p x).regs = s.regs := rfl
@[simp] theorem setPwm_shadows (s : State) (d p : Nat) (x : Pwm) : (setPwm s d p x).shadows = s.shadows := rfl
@[simp] theorem setPwm_wo1 (s : State) (d p : Nat) (x : Pwm) : (setPwm s d p x).wo1 = s.wo1 := rfl
@[simp] theorem setPwm_cfg (s : State) (d p : Nat) (x : Pwm) : (setPwm s d p x).cfg = s.cfg := rfl
@[simp] theorem setPwm_strobes (s : State) (d p : Nat) (x : Pwm) : (setPwm s d p x).strobes = s.strobes := rfl
@[simp] theorem setPwm_mem (s : State) (d p : Nat) (x : Pwm) : (setPwm s d p x).mem = s.mem := rfl
@[simp] theorem setPwm_host (s : State) (d p : Nat) (x : Pwm) : (setPwm s d p x).host = s.host := rfl
@[simp] theorem setPwm_tree (s : State) (d p : Nat) (x : Pwm) : (setPwm s d p x).tree = s.tree := rfl
@[simp] theorem setPwm_lanes (s : State) (d p : Nat) (x : Pwm) : (setPwm s d p x).lanes = s.lanes := rfl
@[simp] theorem setPwm_clk (s : State) (d p : Nat) (x : Pwm) : (setPwm s d p x).clk = s.clk := rfl
@[simp] theorem setPwm_cap (s : State) (d p : Nat) (x : Pwm) : (setPwm s d p x).cap = s.cap := rfl
@[simp] theorem setPwm_sht (s : State) (d p : Nat) (x : Pwm) : (setPwm s d p x).sht = s.sht := rfl
@[simp] theorem setPwm_spc (s : State) (d p : Nat) (x : Pwm) : (setPwm s d p x).spc = s.spc := rfl
@[simp] theorem setPwm_cal (s : State) (d p : Nat) (x : Pwm) : (setPwm s d p x).cal = s.cal := rfl
@[simp] theorem setPwm_eng (s : State) (d p : Nat) (x : Pwm) : (setPwm s d p x).eng = s.eng := rfl
@[simp] theorem setPwm_xfer (s : State) (d p : Nat) (x : Pwm) : (setPwm s d p x).xfer = s.xfer := rfl
@[simp] theorem setPwm_sec (s : State) (d p : Nat) (x : Pwm) : (setPwm s d p x).sec = s.sec := rfl
@[simp] theorem setPwm_svc (s : State) (d p : Nat) (x : Pwm) : (setPwm s d p x).svc = s.svc := rfl
@[simp] theorem setPwm_prf (s : State) (d p : Nat) (x : Pwm) : (setPwm s d p x).prf = s.prf := rfl
@[simp] theorem setPwm_pwr (s : State) (d p : Nat) (x : Pwm) : (setPwm s d p x).pwr = s.pwr := rfl
@[simp] theorem setPwm_tap (s : State) (d p : Nat) (x : Pwm) : (setPwm s d p x).tap = s.tap := rfl
@[simp] theorem setPwm_pending (s : State) (d p : Nat) (x : Pwm) : (setPwm s d p x).pending = s.pending := rfl

@[simp] theorem setBias_part (s : State) (d p : Nat) (x : Bias) : (setBias s d p x).part = s.part := rfl
@[simp] theorem setBias_now (s : State) (d p : Nat) (x : Bias) : (setBias s d p x).now = s.now := rfl
@[simp] theorem setBias_freeCtr (s : State) (d p : Nat) (x : Bias) : (setBias s d p x).freeCtr = s.freeCtr := rfl
@[simp] theorem setBias_ready (s : State) (d p : Nat) (x : Bias) : (setBias s d p x).ready = s.ready := rfl
@[simp] theorem setBias_lastRead (s : State) (d p : Nat) (x : Bias) : (setBias s d p x).lastRead = s.lastRead := rfl
@[simp] theorem setBias_regs (s : State) (d p : Nat) (x : Bias) : (setBias s d p x).regs = s.regs := rfl
@[simp] theorem setBias_shadows (s : State) (d p : Nat) (x : Bias) : (setBias s d p x).shadows = s.shadows := rfl
@[simp] theorem setBias_wo1 (s : State) (d p : Nat) (x : Bias) : (setBias s d p x).wo1 = s.wo1 := rfl
@[simp] theorem setBias_cfg (s : State) (d p : Nat) (x : Bias) : (setBias s d p x).cfg = s.cfg := rfl
@[simp] theorem setBias_strobes (s : State) (d p : Nat) (x : Bias) : (setBias s d p x).strobes = s.strobes := rfl
@[simp] theorem setBias_mem (s : State) (d p : Nat) (x : Bias) : (setBias s d p x).mem = s.mem := rfl
@[simp] theorem setBias_host (s : State) (d p : Nat) (x : Bias) : (setBias s d p x).host = s.host := rfl
@[simp] theorem setBias_tree (s : State) (d p : Nat) (x : Bias) : (setBias s d p x).tree = s.tree := rfl
@[simp] theorem setBias_lanes (s : State) (d p : Nat) (x : Bias) : (setBias s d p x).lanes = s.lanes := rfl
@[simp] theorem setBias_clk (s : State) (d p : Nat) (x : Bias) : (setBias s d p x).clk = s.clk := rfl
@[simp] theorem setBias_cap (s : State) (d p : Nat) (x : Bias) : (setBias s d p x).cap = s.cap := rfl
@[simp] theorem setBias_sht (s : State) (d p : Nat) (x : Bias) : (setBias s d p x).sht = s.sht := rfl
@[simp] theorem setBias_spc (s : State) (d p : Nat) (x : Bias) : (setBias s d p x).spc = s.spc := rfl
@[simp] theorem setBias_cal (s : State) (d p : Nat) (x : Bias) : (setBias s d p x).cal = s.cal := rfl
@[simp] theorem setBias_eng (s : State) (d p : Nat) (x : Bias) : (setBias s d p x).eng = s.eng := rfl
@[simp] theorem setBias_xfer (s : State) (d p : Nat) (x : Bias) : (setBias s d p x).xfer = s.xfer := rfl
@[simp] theorem setBias_sec (s : State) (d p : Nat) (x : Bias) : (setBias s d p x).sec = s.sec := rfl
@[simp] theorem setBias_svc (s : State) (d p : Nat) (x : Bias) : (setBias s d p x).svc = s.svc := rfl
@[simp] theorem setBias_prf (s : State) (d p : Nat) (x : Bias) : (setBias s d p x).prf = s.prf := rfl
@[simp] theorem setBias_pwr (s : State) (d p : Nat) (x : Bias) : (setBias s d p x).pwr = s.pwr := rfl
@[simp] theorem setBias_tap (s : State) (d p : Nat) (x : Bias) : (setBias s d p x).tap = s.tap := rfl
@[simp] theorem setBias_pending (s : State) (d p : Nat) (x : Bias) : (setBias s d p x).pending = s.pending := rfl

@[simp] theorem setHka_part (s : State) (d : Nat) (x : Hka) : (setHka s d x).part = s.part := rfl
@[simp] theorem setHka_now (s : State) (d : Nat) (x : Hka) : (setHka s d x).now = s.now := rfl
@[simp] theorem setHka_freeCtr (s : State) (d : Nat) (x : Hka) : (setHka s d x).freeCtr = s.freeCtr := rfl
@[simp] theorem setHka_ready (s : State) (d : Nat) (x : Hka) : (setHka s d x).ready = s.ready := rfl
@[simp] theorem setHka_lastRead (s : State) (d : Nat) (x : Hka) : (setHka s d x).lastRead = s.lastRead := rfl
@[simp] theorem setHka_regs (s : State) (d : Nat) (x : Hka) : (setHka s d x).regs = s.regs := rfl
@[simp] theorem setHka_shadows (s : State) (d : Nat) (x : Hka) : (setHka s d x).shadows = s.shadows := rfl
@[simp] theorem setHka_wo1 (s : State) (d : Nat) (x : Hka) : (setHka s d x).wo1 = s.wo1 := rfl
@[simp] theorem setHka_cfg (s : State) (d : Nat) (x : Hka) : (setHka s d x).cfg = s.cfg := rfl
@[simp] theorem setHka_strobes (s : State) (d : Nat) (x : Hka) : (setHka s d x).strobes = s.strobes := rfl
@[simp] theorem setHka_mem (s : State) (d : Nat) (x : Hka) : (setHka s d x).mem = s.mem := rfl
@[simp] theorem setHka_host (s : State) (d : Nat) (x : Hka) : (setHka s d x).host = s.host := rfl
@[simp] theorem setHka_tree (s : State) (d : Nat) (x : Hka) : (setHka s d x).tree = s.tree := rfl
@[simp] theorem setHka_lanes (s : State) (d : Nat) (x : Hka) : (setHka s d x).lanes = s.lanes := rfl
@[simp] theorem setHka_clk (s : State) (d : Nat) (x : Hka) : (setHka s d x).clk = s.clk := rfl
@[simp] theorem setHka_cap (s : State) (d : Nat) (x : Hka) : (setHka s d x).cap = s.cap := rfl
@[simp] theorem setHka_sht (s : State) (d : Nat) (x : Hka) : (setHka s d x).sht = s.sht := rfl
@[simp] theorem setHka_spc (s : State) (d : Nat) (x : Hka) : (setHka s d x).spc = s.spc := rfl
@[simp] theorem setHka_cal (s : State) (d : Nat) (x : Hka) : (setHka s d x).cal = s.cal := rfl
@[simp] theorem setHka_eng (s : State) (d : Nat) (x : Hka) : (setHka s d x).eng = s.eng := rfl
@[simp] theorem setHka_xfer (s : State) (d : Nat) (x : Hka) : (setHka s d x).xfer = s.xfer := rfl
@[simp] theorem setHka_sec (s : State) (d : Nat) (x : Hka) : (setHka s d x).sec = s.sec := rfl
@[simp] theorem setHka_svc (s : State) (d : Nat) (x : Hka) : (setHka s d x).svc = s.svc := rfl
@[simp] theorem setHka_prf (s : State) (d : Nat) (x : Hka) : (setHka s d x).prf = s.prf := rfl
@[simp] theorem setHka_pwr (s : State) (d : Nat) (x : Hka) : (setHka s d x).pwr = s.pwr := rfl
@[simp] theorem setHka_tap (s : State) (d : Nat) (x : Hka) : (setHka s d x).tap = s.tap := rfl
@[simp] theorem setHka_pending (s : State) (d : Nat) (x : Hka) : (setHka s d x).pending = s.pending := rfl

@[simp] theorem setPrf_part (s : State) (x : PrfSt) : (setPrf s x).part = s.part := rfl
@[simp] theorem setPrf_now (s : State) (x : PrfSt) : (setPrf s x).now = s.now := rfl
@[simp] theorem setPrf_freeCtr (s : State) (x : PrfSt) : (setPrf s x).freeCtr = s.freeCtr := rfl
@[simp] theorem setPrf_ready (s : State) (x : PrfSt) : (setPrf s x).ready = s.ready := rfl
@[simp] theorem setPrf_lastRead (s : State) (x : PrfSt) : (setPrf s x).lastRead = s.lastRead := rfl
@[simp] theorem setPrf_regs (s : State) (x : PrfSt) : (setPrf s x).regs = s.regs := rfl
@[simp] theorem setPrf_shadows (s : State) (x : PrfSt) : (setPrf s x).shadows = s.shadows := rfl
@[simp] theorem setPrf_wo1 (s : State) (x : PrfSt) : (setPrf s x).wo1 = s.wo1 := rfl
@[simp] theorem setPrf_cfg (s : State) (x : PrfSt) : (setPrf s x).cfg = s.cfg := rfl
@[simp] theorem setPrf_strobes (s : State) (x : PrfSt) : (setPrf s x).strobes = s.strobes := rfl
@[simp] theorem setPrf_mem (s : State) (x : PrfSt) : (setPrf s x).mem = s.mem := rfl
@[simp] theorem setPrf_host (s : State) (x : PrfSt) : (setPrf s x).host = s.host := rfl
@[simp] theorem setPrf_tree (s : State) (x : PrfSt) : (setPrf s x).tree = s.tree := rfl
@[simp] theorem setPrf_lanes (s : State) (x : PrfSt) : (setPrf s x).lanes = s.lanes := rfl
@[simp] theorem setPrf_clk (s : State) (x : PrfSt) : (setPrf s x).clk = s.clk := rfl
@[simp] theorem setPrf_cap (s : State) (x : PrfSt) : (setPrf s x).cap = s.cap := rfl
@[simp] theorem setPrf_sht (s : State) (x : PrfSt) : (setPrf s x).sht = s.sht := rfl
@[simp] theorem setPrf_spc (s : State) (x : PrfSt) : (setPrf s x).spc = s.spc := rfl
@[simp] theorem setPrf_cal (s : State) (x : PrfSt) : (setPrf s x).cal = s.cal := rfl
@[simp] theorem setPrf_eng (s : State) (x : PrfSt) : (setPrf s x).eng = s.eng := rfl
@[simp] theorem setPrf_xfer (s : State) (x : PrfSt) : (setPrf s x).xfer = s.xfer := rfl
@[simp] theorem setPrf_sec (s : State) (x : PrfSt) : (setPrf s x).sec = s.sec := rfl
@[simp] theorem setPrf_svc (s : State) (x : PrfSt) : (setPrf s x).svc = s.svc := rfl
@[simp] theorem setPrf_prb (s : State) (x : PrfSt) : (setPrf s x).prb = s.prb := rfl
@[simp] theorem setPrf_pwr (s : State) (x : PrfSt) : (setPrf s x).pwr = s.pwr := rfl
@[simp] theorem setPrf_tap (s : State) (x : PrfSt) : (setPrf s x).tap = s.tap := rfl
@[simp] theorem setPrf_pending (s : State) (x : PrfSt) : (setPrf s x).pending = s.pending := rfl

@[simp] theorem setDiePwr_part (s : State) (d : Nat) (x : DiePwr) : (setDiePwr s d x).part = s.part := rfl
@[simp] theorem setDiePwr_now (s : State) (d : Nat) (x : DiePwr) : (setDiePwr s d x).now = s.now := rfl
@[simp] theorem setDiePwr_freeCtr (s : State) (d : Nat) (x : DiePwr) : (setDiePwr s d x).freeCtr = s.freeCtr := rfl
@[simp] theorem setDiePwr_ready (s : State) (d : Nat) (x : DiePwr) : (setDiePwr s d x).ready = s.ready := rfl
@[simp] theorem setDiePwr_lastRead (s : State) (d : Nat) (x : DiePwr) : (setDiePwr s d x).lastRead = s.lastRead := rfl
@[simp] theorem setDiePwr_regs (s : State) (d : Nat) (x : DiePwr) : (setDiePwr s d x).regs = s.regs := rfl
@[simp] theorem setDiePwr_shadows (s : State) (d : Nat) (x : DiePwr) : (setDiePwr s d x).shadows = s.shadows := rfl
@[simp] theorem setDiePwr_wo1 (s : State) (d : Nat) (x : DiePwr) : (setDiePwr s d x).wo1 = s.wo1 := rfl
@[simp] theorem setDiePwr_cfg (s : State) (d : Nat) (x : DiePwr) : (setDiePwr s d x).cfg = s.cfg := rfl
@[simp] theorem setDiePwr_strobes (s : State) (d : Nat) (x : DiePwr) : (setDiePwr s d x).strobes = s.strobes := rfl
@[simp] theorem setDiePwr_mem (s : State) (d : Nat) (x : DiePwr) : (setDiePwr s d x).mem = s.mem := rfl
@[simp] theorem setDiePwr_host (s : State) (d : Nat) (x : DiePwr) : (setDiePwr s d x).host = s.host := rfl
@[simp] theorem setDiePwr_tree (s : State) (d : Nat) (x : DiePwr) : (setDiePwr s d x).tree = s.tree := rfl
@[simp] theorem setDiePwr_lanes (s : State) (d : Nat) (x : DiePwr) : (setDiePwr s d x).lanes = s.lanes := rfl
@[simp] theorem setDiePwr_clk (s : State) (d : Nat) (x : DiePwr) : (setDiePwr s d x).clk = s.clk := rfl
@[simp] theorem setDiePwr_cap (s : State) (d : Nat) (x : DiePwr) : (setDiePwr s d x).cap = s.cap := rfl
@[simp] theorem setDiePwr_sht (s : State) (d : Nat) (x : DiePwr) : (setDiePwr s d x).sht = s.sht := rfl
@[simp] theorem setDiePwr_spc (s : State) (d : Nat) (x : DiePwr) : (setDiePwr s d x).spc = s.spc := rfl
@[simp] theorem setDiePwr_cal (s : State) (d : Nat) (x : DiePwr) : (setDiePwr s d x).cal = s.cal := rfl
@[simp] theorem setDiePwr_eng (s : State) (d : Nat) (x : DiePwr) : (setDiePwr s d x).eng = s.eng := rfl
@[simp] theorem setDiePwr_xfer (s : State) (d : Nat) (x : DiePwr) : (setDiePwr s d x).xfer = s.xfer := rfl
@[simp] theorem setDiePwr_sec (s : State) (d : Nat) (x : DiePwr) : (setDiePwr s d x).sec = s.sec := rfl
@[simp] theorem setDiePwr_svc (s : State) (d : Nat) (x : DiePwr) : (setDiePwr s d x).svc = s.svc := rfl
@[simp] theorem setDiePwr_prb (s : State) (d : Nat) (x : DiePwr) : (setDiePwr s d x).prb = s.prb := rfl
@[simp] theorem setDiePwr_prf (s : State) (d : Nat) (x : DiePwr) : (setDiePwr s d x).prf = s.prf := rfl
@[simp] theorem setDiePwr_tap (s : State) (d : Nat) (x : DiePwr) : (setDiePwr s d x).tap = s.tap := rfl
@[simp] theorem setDiePwr_pending (s : State) (d : Nat) (x : DiePwr) : (setDiePwr s d x).pending = s.pending := rfl

@[simp] theorem memWrite_part (s : State) (r : Region) (a : Nat) (b : List Byte) : (memWrite s r a b).part = s.part := rfl
@[simp] theorem memWrite_now (s : State) (r : Region) (a : Nat) (b : List Byte) : (memWrite s r a b).now = s.now := rfl
@[simp] theorem memWrite_freeCtr (s : State) (r : Region) (a : Nat) (b : List Byte) : (memWrite s r a b).freeCtr = s.freeCtr := rfl
@[simp] theorem memWrite_ready (s : State) (r : Region) (a : Nat) (b : List Byte) : (memWrite s r a b).ready = s.ready := rfl
@[simp] theorem memWrite_lastRead (s : State) (r : Region) (a : Nat) (b : List Byte) : (memWrite s r a b).lastRead = s.lastRead := rfl
@[simp] theorem memWrite_regs (s : State) (r : Region) (a : Nat) (b : List Byte) : (memWrite s r a b).regs = s.regs := rfl
@[simp] theorem memWrite_shadows (s : State) (r : Region) (a : Nat) (b : List Byte) : (memWrite s r a b).shadows = s.shadows := rfl
@[simp] theorem memWrite_wo1 (s : State) (r : Region) (a : Nat) (b : List Byte) : (memWrite s r a b).wo1 = s.wo1 := rfl
@[simp] theorem memWrite_cfg (s : State) (r : Region) (a : Nat) (b : List Byte) : (memWrite s r a b).cfg = s.cfg := rfl
@[simp] theorem memWrite_strobes (s : State) (r : Region) (a : Nat) (b : List Byte) : (memWrite s r a b).strobes = s.strobes := rfl
@[simp] theorem memWrite_host (s : State) (r : Region) (a : Nat) (b : List Byte) : (memWrite s r a b).host = s.host := rfl
@[simp] theorem memWrite_tree (s : State) (r : Region) (a : Nat) (b : List Byte) : (memWrite s r a b).tree = s.tree := rfl
@[simp] theorem memWrite_lanes (s : State) (r : Region) (a : Nat) (b : List Byte) : (memWrite s r a b).lanes = s.lanes := rfl
@[simp] theorem memWrite_clk (s : State) (r : Region) (a : Nat) (b : List Byte) : (memWrite s r a b).clk = s.clk := rfl
@[simp] theorem memWrite_cap (s : State) (r : Region) (a : Nat) (b : List Byte) : (memWrite s r a b).cap = s.cap := rfl
@[simp] theorem memWrite_sht (s : State) (r : Region) (a : Nat) (b : List Byte) : (memWrite s r a b).sht = s.sht := rfl
@[simp] theorem memWrite_spc (s : State) (r : Region) (a : Nat) (b : List Byte) : (memWrite s r a b).spc = s.spc := rfl
@[simp] theorem memWrite_cal (s : State) (r : Region) (a : Nat) (b : List Byte) : (memWrite s r a b).cal = s.cal := rfl
@[simp] theorem memWrite_eng (s : State) (r : Region) (a : Nat) (b : List Byte) : (memWrite s r a b).eng = s.eng := rfl
@[simp] theorem memWrite_xfer (s : State) (r : Region) (a : Nat) (b : List Byte) : (memWrite s r a b).xfer = s.xfer := rfl
@[simp] theorem memWrite_sec (s : State) (r : Region) (a : Nat) (b : List Byte) : (memWrite s r a b).sec = s.sec := rfl
@[simp] theorem memWrite_svc (s : State) (r : Region) (a : Nat) (b : List Byte) : (memWrite s r a b).svc = s.svc := rfl
@[simp] theorem memWrite_prb (s : State) (r : Region) (a : Nat) (b : List Byte) : (memWrite s r a b).prb = s.prb := rfl
@[simp] theorem memWrite_prf (s : State) (r : Region) (a : Nat) (b : List Byte) : (memWrite s r a b).prf = s.prf := rfl
@[simp] theorem memWrite_pwr (s : State) (r : Region) (a : Nat) (b : List Byte) : (memWrite s r a b).pwr = s.pwr := rfl
@[simp] theorem memWrite_tap (s : State) (r : Region) (a : Nat) (b : List Byte) : (memWrite s r a b).tap = s.tap := rfl
@[simp] theorem memWrite_pending (s : State) (r : Region) (a : Nat) (b : List Byte) : (memWrite s r a b).pending = s.pending := rfl

@[simp] theorem drawFree_part (s : State) : (drawFree s).2.part = s.part := rfl
@[simp] theorem drawFree_now (s : State) : (drawFree s).2.now = s.now := rfl
@[simp] theorem drawFree_ready (s : State) : (drawFree s).2.ready = s.ready := rfl
@[simp] theorem drawFree_lastRead (s : State) : (drawFree s).2.lastRead = s.lastRead := rfl
@[simp] theorem drawFree_regs (s : State) : (drawFree s).2.regs = s.regs := rfl
@[simp] theorem drawFree_shadows (s : State) : (drawFree s).2.shadows = s.shadows := rfl
@[simp] theorem drawFree_wo1 (s : State) : (drawFree s).2.wo1 = s.wo1 := rfl
@[simp] theorem drawFree_cfg (s : State) : (drawFree s).2.cfg = s.cfg := rfl
@[simp] theorem drawFree_strobes (s : State) : (drawFree s).2.strobes = s.strobes := rfl
@[simp] theorem drawFree_mem (s : State) : (drawFree s).2.mem = s.mem := rfl
@[simp] theorem drawFree_host (s : State) : (drawFree s).2.host = s.host := rfl
@[simp] theorem drawFree_tree (s : State) : (drawFree s).2.tree = s.tree := rfl
@[simp] theorem drawFree_lanes (s : State) : (drawFree s).2.lanes = s.lanes := rfl
@[simp] theorem drawFree_clk (s : State) : (drawFree s).2.clk = s.clk := rfl
@[simp] theorem drawFree_cap (s : State) : (drawFree s).2.cap = s.cap := rfl
@[simp] theorem drawFree_sht (s : State) : (drawFree s).2.sht = s.sht := rfl
@[simp] theorem drawFree_spc (s : State) : (drawFree s).2.spc = s.spc := rfl
@[simp] theorem drawFree_cal (s : State) : (drawFree s).2.cal = s.cal := rfl
@[simp] theorem drawFree_eng (s : State) : (drawFree s).2.eng = s.eng := rfl
@[simp] theorem drawFree_xfer (s : State) : (drawFree s).2.xfer = s.xfer := rfl
@[simp] theorem drawFree_sec (s : State) : (drawFree s).2.sec = s.sec := rfl
@[simp] theorem drawFree_svc (s : State) : (drawFree s).2.svc = s.svc := rfl
@[simp] theorem drawFree_prb (s : State) : (drawFree s).2.prb = s.prb := rfl
@[simp] theorem drawFree_prf (s : State) : (drawFree s).2.prf = s.prf := rfl
@[simp] theorem drawFree_pwr (s : State) : (drawFree s).2.pwr = s.pwr := rfl
@[simp] theorem drawFree_tap (s : State) : (drawFree s).2.tap = s.tap := rfl
@[simp] theorem drawFree_pending (s : State) : (drawFree s).2.pending = s.pending := rfl

end Sys2Proof.Machine
end

