-- ==== Sys2Proof/Tests/Slice0.lean ====
section
/-!
SUPPORT. Tests: ill-formed commands refused, words decoded, and for every statement of the obligations that has hypotheses
one or more theorems that show states and operands which meet them.
-/

open Sys2Proof Sys2Proof.Machine

namespace Sys2Proof.Tests

section

set_option Elab.async false

/-! ## States and commands of the tests -/

def T : Nat := 10 ^ 12
def sR : State := { State.reset with ready := true, now := T }
def sB : State := { State.reset with now := T }
def aw (u : Nat) (s : State := sR) : State := setUnit s u { unitOf s u with pw := .awake }
def clkOn : State := setDieClk sR 0 { DieClk.reset with running := true }
def sP : State := setF (setPort sR 0 { PortSt.reset with busMaster := true, perst := false, crs := false }) 0 fHstPortIdLinkGt 32
def le (n v : Nat) : List Byte := leBytes n v
def cmd (u : Nat) (p : List Byte) : Cmd := ⟨0, 0, 0, 0, u, 0, 0, padTo 40 p⟩
def cmdX (u : Nat) (p : List Byte) : Cmd := ⟨0, 0, 0, 1, u, 0, 0, p⟩
def env0 : Env := ⟨0, 0, 0, 0, [], [], 0, false, false, none, false, false, 0, false⟩
def flight0 : Flight := ⟨7, 0x0205, cmd 0 [], false, false, none, none, [0], [], [0], 1, 0, 0, 0, 0, [], false, 0, false, false⟩
def drv0 : DriveInfo := ⟨0, 0, 4, 4, 1, 1023, 16777216, 4096, 0, [], true, 0⟩
def mem0 : Member := ⟨1, [], 1000, 1, 1, 0, 0, [], [], [], 0, 0, 0, 0, 0, []⟩
def fix0 : FixStream := ⟨0, 0, 0, [], none, 0, none⟩
def volS : Volume := ⟨1, false, 0, 0, 16, 1, 10, 10, 0, 0, 0, 0, 0, [mem0], 0, [fix0], [], 0, [], 0, 0, 0⟩
def vol1 : Volume := volS
def eq0 : EqVals := ⟨0, [], 0, 0⟩
def seqPay : List Byte := List.replicate 16 0 ++ (List.replicate 4 [1, 0, 0, 0]).flatten ++ List.replicate 544 0
/-- The register at an offset of a die's window. -/
def rowOf (o : Nat) : RegDef := (findReg o).getD ⟨0, 0, 0, 0, 0, 0, 0, 0, 0, 0, 0, 0, 0, 0⟩
def code (w : Nat) : State := memWrite sR (.engCode 0 0) 0 (leBytes 4 w)
def engAt (w : Option Nat) : State :=
  memWrite (setEng (aw (engUid 0 0)) 0 0 { Engine.reset with st := .running }) (.engCode 0 0) 0 (leBytes 4 (w.getD 0))
def sV : State := setF sR 0 fPwrStatCoreMv 700
def pwm0 : State := setPwm (setF (setF sR 0 (fPbdPwmPeriod 0) 2) 0 (fPbdPwmHigh 0) 1) 0 0 { Pwm.reset with running := true, past := false }
def compo0 : Compo := ⟨0, 0, 0, [⟨0, 0, 1, 1⟩], 0, false, 0, 0, 0, 0, 0, [], [], []⟩
def strip0 : StripStats := ⟨0, 0, 0, 0, [], [], []⟩
/-- The cells that hold a byte string at an address of port 0's host memory. -/
def cellsAt (a : Nat) : List Byte → List Host.Cell
  | [] => []
  | b :: r => if b = 0 then cellsAt (a + 1) r else (a, b) :: cellsAt (a + 1) r

theorem cellsAt_below (d : Nat → Byte) (bs : List Byte) : ∀ a x, x < a → tabGet d (cellsAt a bs) x = d x := by
  induction bs with
  | nil => intro a x _; rfl
  | cons b r ih =>
    intro a x h
    unfold cellsAt
    split
    · exact ih (a + 1) x (by omega)
    · have : a ≠ x := by omega
      simp [tabGet, this, ih (a + 1) x (by omega)]

theorem cellsAt_get (bs : List Byte) : ∀ a i (h : i < bs.length), a + bs.length ≤ 2 ^ 64 →
    tabGet memDflt (cellsAt a bs) (a + i) = bs[i] := by
  induction bs with
  | nil => intro a i h; simp at h
  | cons b r ih =>
    intro a i h hb
    simp only [List.length_cons] at h hb
    have hz : memDflt a = 0 := by
      unfold memDflt; rw [if_neg]; simp; omega
    cases i with
    | zero =>
      unfold cellsAt
      split
      · rename_i hb0
        rw [cellsAt_below _ _ _ _ (by omega), Nat.add_zero, hz]; exact hb0.symm
      · simp [tabGet]
    | succ i =>
      have e : a + (i + 1) = (a + 1) + i := by omega
      have hi := ih (a + 1) i (by omega) (by omega)
      unfold cellsAt
      split
      · rw [e, hi]; rfl
      · have hn : a ≠ a + 1 + i := by omega
        rw [e]; simp only [tabGet, if_neg hn, hi]; rfl

theorem readList_of_get (s : State) (bs : List Byte) : ∀ a, (∀ i (h : i < bs.length), readByte s (a + i) = bs[i]) →
    readList s a bs.length = bs := by
  induction bs with
  | nil => intro a _; rfl
  | cons b r ih =>
    intro a h
    have h0 := h 0 (by simp)
    have hr := ih (a + 1) (fun i hi => by
      have := h (i + 1) (by simpa using hi)
      rw [show a + 1 + i = a + (i + 1) by omega, this]; rfl)
    simp only [List.length_cons, readList, hr]
    rw [Nat.add_zero] at h0; rw [h0]; rfl

/-- Reading back a string that host memory of port 0 holds. -/
theorem readImage_cells (s : State) (a : Nat) (bs : List Byte) (hm : s.mem = cellsAt a bs)
    (hb : a + bs.length ≤ 2 ^ 64) : readImage s 0 a bs.length = bs := by
  have := readList_of_get s bs a (fun i h => by
    unfold readByte; rw [hm]; exact cellsAt_get bs a i h hb)
  simpa [readImage, memRead, regionBase] using this

/-- An image of KIND 3 with a one-word code section and a manifest (R409, R426), signed (R410) with the public exponent 1,
whose signature is the encoded message itself. -/
def imgMsg : List Byte :=
  beBytes 16 0x4d4c524d010003026c03000064000000 ++
  beBytes 16 0x04000000000000000000000020000000 ++
  beBytes 16 0x00000000000000000100000000000000 ++
  beBytes 16 0x00000000010000000000000000000000 ++ List.replicate 4 0 ++
  beBytes 16 0x4d435653800001100000000000000000 ++
  beBytes 16 0x01000000000000000000000000000000
def imgSig : List Byte :=
  beBytes 16 0x7cfbf408d13eb8f125a684dd877e9bfa ++
  beBytes 16 0xfa8535b9fa0d3b0e4bf60983a12fa701 ++
  beBytes 16 0xf07eb72fb76431e233635d666472b8d2 ++
  beBytes 16 0xf470ce27a435c50d6bca6f1050e9cd81 ++
  beBytes 16 0x25f5f077766aa8746da0c4054e9e4bd4 ++
  beBytes 16 0x673f6dc7ad30d29d465e8014719d1c6b ++
  beBytes 16 0x27e6fd97d46c19d404873a626f2dc265 ++
  beBytes 16 0x3e4349c3e3d7c53dd8ad60523c683423 ++
  beBytes 16 0x13a1606ce31e0475aa91ce8b519d46bd ++
  beBytes 16 0x7952448d8cd5f224a2931734d401fb48 ++
  beBytes 16 0x69719eb7f5ef7f00d6de15c016b869f7 ++
  beBytes 16 0x141aaf64ad1e319bbab46fa6f6115e3b ++
  beBytes 16 0xbedd8e945837cd70548a48da5ce45332 ++
  beBytes 16 0x350006e0dd0c6ea15dbd22513fb29b7c ++
  beBytes 16 0x7cd743af96c4c6ae06ed117cbe300cf2 ++
  beBytes 16 0xc607a89eacd9ef4ef88398f8acf67d54 ++
  beBytes 16 0x18b102c545eb18fdd47f6248756c48c3 ++
  beBytes 16 0xb66a97c40e75ced7f9f3be6a6e331d2a ++
  beBytes 16 0x32c6e6932dc619edb31eaad930795b02 ++
  beBytes 16 0x529bf25fa779dc6a5ab9c65c0997a458 ++
  beBytes 16 0x6a49b6c2f6918f736ff60007664f105c ++
  beBytes 16 0x742c983eb2d6b77dcfe2760746d2aa06 ++
  beBytes 16 0x08882cdaf745404381b7038655659e93 ++
  beBytes 16 0x23ea591f4c3108ecac53e43e83936cbc
def imgBytes : List Byte := imgMsg ++ le 4 2 ++ beBytes 4 1 ++ [0x80] ++ List.replicate 383 0 ++ imgSig
/-- The words of the hash of its key. -/
def keyWords : List Nat := [0xe14b8335, 0x63e64e8a, 0xac7f5447, 0x0d3e40a5, 0x0843f250, 0x7a5180d4, 0x6b81fb9f, 0xa5f13842]
def sI : State :=
  let s1 := aw (engUid 0 0) (setFlag sP 0 fSecStatOwnerSet true)
  let s2 := { s1 with mem := cellsAt 0 imgBytes }
  (List.range 8).foldl (fun s n =>
    setReg s ctlPage (rSecOwnerHash n - 0x4000000) (BitVec.ofNat 32 ((keyWords[n]?).getD 0))) s2

/-! ## Engine instructions -/

/-- Engine 0 of die 0 runs with the word `w` at its PC, and its record changed by `f`. -/
def engIs (w : Option Nat) (f : Engine → Engine) : State := let s := engAt w; setEng s 0 0 (f (engOf s 0 0))

/-- The engine executes the instruction's word in a state. -/
def runsIn (o : EngOp) (s : State) : Bool := executes s ⟨0, 0⟩ (engEncode o)

theorem witness_EngineAluWritesResult :
    ([EngOp.engAdd 31 31 31, .engSub 1 2 3, .engAnd 1 2 3, .engOr 1 2 3, .engXor 1 2 3, .andn 1 2 3, .shl 1 2 3, .shr 1 2 3,
      .sar 1 2 3, .ror 1 2 3, .slt 1 2 3, .sltu 1 2 3, .engMin 1 2 3, .engMax 1 2 3, .minu 1 2 3, .maxu 1 2 3,
      .engMul 1 2 3, .mulhu 1 2 3, .mulh 1 2 3, .clz 0 2, .ctz 1 0, .popc 1 2, .bswap 1 2, .movw 1 2, .setside 1 2 3,
      .getside 1 31].all fun o => runsIn o (engAt (engEncode o))) = true := by decide +kernel

theorem witness_EngineImmediateWritesResult :
    ([EngOp.addi 31 31 (-1), .andi 1 2 (-1), .ori 1 2 0, .xori 1 2 1, .slti 1 2 (-1), .sltiu 1 2 (-1), .shifti 1 2 0 63,
      .shifti 1 2 1 1, .shifti 1 2 2 63, .shifti 1 2 3 0, .movz 1 3 (-1), .movk 1 3 (-1), .extr 1 2 8 64, .extr 1 2 71 1,
      .insr 1 2 8 64, .insr 1 2 0 1].all fun o => runsIn o (engAt (engEncode o))) = true := by decide +kernel

/-- Register 2 holds an address; the heap is 1 MiB, and its first line is cached. -/
def engMem (w : Option Nat) (a : Nat) : State :=
  engIs w fun x => { putReg x 2 (BitVec.ofNat 72 a) with
    heapMib := 1, cache := tset none x.cache (wayKey 0 0) (some ⟨0, false, List.replicate 64 0⟩) }

def isArea (g : Option Area) (h : Area) : Bool :=
  match g, h with
  | some (.sram a), .sram b | some (.h2e a), .h2e b | some (.e2h a), .e2h b | some (.heap a), .heap b => a = b
  | _, _ => false

/-- Every load at the last aligned address of SRAM, of both messages, and at a cached and an uncached heap address. -/
theorem witness_EngineMemoryAccess :
    ([(EngOp.ldb 1 2 0, 1), (.ldh 1 2 0, 2), (.ldd 1 2 0, 4), (.ldq 1 2 0, 8)].all fun q =>
      [(0x80000 - q.2, Area.sram (0x80000 - q.2)), (0x101000 - q.2, .h2e (0x101000 - q.2)),
        (0x102000 - q.2, .e2h (0x102000 - q.2)), (2 ^ 32, .heap 0), (2 ^ 32 + 64, .heap 64)].all fun g =>
        let s := engMem (engEncode q.1) g.1
        let x := engOf s 0 0
        runsIn q.1 s && decide ((memAddr x 2 0).toNat = g.1) && isArea (areaOf x g.1) g.2 &&
          decide (g.1 % q.2 = 0) && decide (g.1 < 2 ^ 40) && x.eccData.isEmpty && (cacheRead x 0 q.2).isSome &&
          (cacheRead x 64 q.2).isNone) = true ∧
    ([(EngOp.stb 1 2 0, 1), (.sth 1 2 0, 2), (.std 1 2 0, 4), (.stq 1 2 0, 8)].all fun q =>
      [(0x80000 - q.2, Area.sram (0x80000 - q.2)), (0x101000, .e2h 0x101000), (2 ^ 32 + 64, .heap 64)].all fun g =>
        let s := engMem (engEncode q.1) g.1
        let x := engOf s 0 0
        runsIn q.1 s && decide ((memAddr x 2 0).toNat = g.1) && isArea (areaOf x g.1) g.2 &&
          decide (g.1 % q.2 = 0) && decide (g.1 < 2 ^ 40)) = true ∧
    ([EngOp.ldw 1 2 0, .stw 1 2 0].all fun o =>
      let s := engMem (engEncode o) 0x7FFF8
      let x := engOf s 0 0
      runsIn o s && decide ((memAddr x 2 0).toNat = 0x7FFF8) && isArea (areaOf x 0x7FFF8) (.sram 0x7FFF8) &&
        x.eccData.isEmpty) = true := by decide +kernel

/-- Registers 1 and 2 hold -1 and 1; each branch is taken once and not taken once, and the jumps go to the last word. -/
theorem witness_EngineBranchTargets :
    let st := fun (o : EngOp) => engIs (engEncode o) fun x => putReg (putReg x 1 (plain (-1))) 2 (plain 1)
    let jt := fun (o : EngOp) => engIs (engEncode o) fun x => putReg x 2 0x1FFFC
    let x := engOf (st (.beq 1 2 2)) 0 0
    let t := BitVec.ofNat 64 x.pc + 4 * (0x7FFF : W16).signExtend 64
    ([EngOp.beq 1 2 0x7FFF, .beq 1 1 0x7FFF, .bne 1 1 0x7FFF, .bne 1 2 0x7FFF, .blt 2 1 0x7FFF, .blt 1 2 0x7FFF,
      .bge 1 2 0x7FFF, .bge 2 1 0x7FFF, .bltu 1 2 0x7FFF, .bltu 2 1 0x7FFF, .bgeu 2 1 0x7FFF, .bgeu 1 2 0x7FFF].all
        fun o => runsIn o (st o)) = true ∧
      payOf x 1 ≠ payOf x 2 ∧ (payOf x 1).toInt < (payOf x 2).toInt ∧ (payOf x 2).toNat < (payOf x 1).toNat ∧
      t.toNat % 4 = 0 ∧ t.toNat < 0x20000 ∧
      runsIn (.jal 1 0x7FFF) (st (.jal 1 0x7FFF)) = true ∧ runsIn (.jalr 1 2 0) (jt (.jalr 1 2 0)) = true ∧
      (4 * (0x7FFF : W21).signExtend 64).toNat = 0x1FFFC ∧
      (payOf (engOf (jt (.jalr 1 2 0)) 0 0) 2).toNat = 0x1FFFC := by decide +kernel

/-- Ports of the engine bound: input 0 to a spectrum source with two words, output 0 to a derived stream that rolls. -/
def engPorts (w : Option Nat) : State :=
  let s := engIs w fun x => { x with
    ins := [⟨0xF0, [⟨7, 9, true⟩, ⟨8, 9, false⟩], some ⟨1, 2, 3, 4⟩⟩], outs := [⟨32, none⟩] }
  aw (streamUid 0 32) (setStream (setStream s 0 32 { streamDflt 32 with present := true, state := .rolling }) 0 17
    { streamDflt 17 with state := .rolling })

theorem witness_EnginePortsAndHashes :
    ([EngOp.engCrc 1 2 3 9, .engCrc 1 2 3 1, .engHash 1 2 3 none, .engHash 1 2 3 (some 15), .engMark 17 1 2, .trig 1 2,
      .sin 1 0, .sin2 30 0, .sinfo 1 0 0, .sinfo 1 0 3, .savail 1 0, .sout 0 1 2, .sspace 1 0].all fun o =>
        let s := engPorts (engEncode o)
        let x := engOf s 0 0
        runsIn o s && takesMarks s 0 17 && portBound (inPort x 0) && (takeOne s ⟨0, 0⟩ 1 0).isSome &&
          (takeTwo s ⟨0, 0⟩ 30 0).isSome && (inPort x 0).last.isSome && decide ((outPort x 0).stream ≠ 0xFF) &&
          (outPort x 0).lastTime.isNone && !(outWord (regOf x 1)).mark && decide (outSpace s 0 (outPort x 0) ≠ 0)) = true := by
  decide +kernel

theorem witness_EngineSystemInstructions :
    ([EngOp.nop, .engWait 1 2 3, .ckpt, .halt 1, .engTrap 0x3FF, .mfs 1 0, .mfs 1 9, .sev 1, .mbxack, .mbxpost 4, .cache 0,
      .cache 1, .xkick 5].all fun o =>
        let s := engIs (engEncode o) fun x => { putReg (putReg (putReg x 2 0x3FF) 4 0x1000) 5 31 with grants := 2 ^ 31 }
        let x := engOf s 0 0
        runsIn o s && decide ((payOf x 2).toNat < 1024) && x.swap.isNone && !x.stopPoint && (special s 0 0 x 9).isSome &&
          x.evq.isEmpty && decide (x.e2h = 0) && decide (bits (payOf x 4).toNat 0 13 = 4096) &&
          bitAt x.grants (bits (payOf x 5).toNat 0 5)) = true ∧
    (let s := engIs (engEncode (.sev 1)) fun x => { x with evq := [⟨63, 5, true⟩] }
     runsIn (.sev 1) s && !(engOf s 0 0).evq.isEmpty) = true := by decide +kernel

/-! ## Ill-formed commands are refused -/

theorem test_wf_refuses_short_payload : (Instr.unitQuery ⟨0, 0, 0, 0, 0, 0, 0, []⟩).wf = false := by decide
theorem test_wf_refuses_odd_extended_payload :
    (Instr.unitQuery ⟨0, 0, 0, 1, 0, 0, 0, List.replicate 12 0⟩).wf = false := by decide
theorem test_wf_refuses_port_of_no_part : (Instr.crsEnd 8).wf = false := by decide
theorem test_wf_refuses_ring_of_no_port : (Instr.unitQuery { cmd 0 [] with ring := 64 }).wf = false := by decide
theorem test_wf_refuses_wide_unit : (Instr.unitQuery (cmd (2 ^ 32) [])).wf = false := by decide
theorem test_wf_refuses_die_of_no_part : (Instr.cfgCrcPassEnd 8).wf = false := by decide +kernel
theorem test_wf_refuses_byte_enable : (Instr.go 0 16 0).wf = false := by decide +kernel
theorem test_wf_refuses_engine : (Instr.nop ⟨0, 16⟩).wf = false := by decide +kernel
theorem test_wf_refuses_register_number : (Instr.engAdd ⟨0, 0⟩ 32 0 0).wf = false := by decide +kernel
theorem test_wf_refuses_shift_amount : (Instr.shifti ⟨0, 0⟩ 1 1 0 64).wf = false := by decide +kernel
theorem test_wf_refuses_short_serial : (Instr.driveIdentifyDone 0 0 drv0).wf = false := by decide +kernel
theorem test_wf_refuses_few_samples : (Instr.rawTapSamples 0 0 0 (List.replicate 15 0) (List.replicate 16 0)).wf = false := by
  decide +kernel
theorem test_wf_refuses_wide_sample : (Instr.rawTapSamples 0 0 0 (List.replicate 16 64) (List.replicate 16 0)).wf = false := by
  decide +kernel
theorem test_wf_refuses_short_window : (Instr.stripWindowEnd 0 0 0 [0] 0).wf = false := by decide +kernel
theorem test_wf_refuses_wide_tap : (Instr.trigInEdge 0 true 0 256).wf = false := by decide +kernel
theorem test_wf_refuses_pin : (Instr.trigInEdge 4 true 0 0).wf = false := by decide +kernel
theorem test_wf_refuses_wide_signal : (Instr.levelCrossing 0 0 131072 0 0 0 0 0).wf = false := by decide +kernel
theorem test_wf_takes_a_command : (Instr.unitQuery (cmd 0 [])).wf = true := by decide

/-! ## Words -/

/-- The table gives no row any bits. -/
theorem test_no_table_word : decodeTableWord 32 0x00611000 = none := by decide

/-- ADD g3, g1, g2: OP 0x00 in [31:26], RD 3 in [25:21], RA 1 in [20:16], RB 2 in [15:11], FUNC 0 (R387, R389). -/
theorem test_word_add : engDecode (0 * 2 ^ 26 + 3 * 2 ^ 21 + 1 * 2 ^ 16 + 2 * 2 ^ 11 + 0) = some (.engAdd 3 1 2) := by decide

/-- FUNC 0x7FF is no instruction of REG form (R389). -/
theorem test_word_reserved_func : engDecode 0x000007FF = none := by decide

/-- The check value of CRC-32C over the nine ASCII digits 1 to 9, with the polynomial of R196. -/
theorem test_crc32c : crc32c [0x31, 0x32, 0x33, 0x34, 0x35, 0x36, 0x37, 0x38, 0x39] = 0xE3069283 := by decide +kernel

/-- ADD wraps at 2^64 and leaves the side byte 0 (R380, R389). -/
theorem test_add_wraps :
    (let o : EngOp := .engAdd 1 1 1
     match exec (.engAdd ⟨0, 0⟩ 1 1 1) (engIs (engEncode o) fun x => putReg x 1 ((0xAB : BitVec 8) ++ (2 ^ 63 + 1 : W64))) with
     | .next t => decide (regOf (engOf t 0 0) 1 = 2) && decide ((engOf t 0 0).pc = 4)
     | _ => false) = true := by decide +kernel

/-- Writes to g0 are discarded (R380). -/
theorem test_g0_stays :
    (match exec (.addi ⟨0, 0⟩ 0 0 5) (engAt (engEncode (.addi 0 0 5))) with
     | .next t => decide (regOf (engOf t 0 0) 0 = 0) && decide ((engOf t 0 0).pc = 4)
     | _ => false) = true := by decide +kernel

/-- A command of a row that names an unfitted die stops by name (R3). -/
theorem test_absent_die :
    (match exec (.alignCheck 7) { State.reset with part := .kn2032 } with
     | .fault .absentUnit => true
     | _ => false) = true := by decide +kernel

/-! ## Witnesses of the hypotheses of the other statements -/

/-- A ring pair of host port 0 that runs, 16 entries deep, with index `c` taken and the completion ring at entry `q`. -/
def sD (q : Nat) : State :=
  setCplRing (setF (setF (setF sP 0 (fHstCrCtlLog2Depth 0) 4) 0 (fHstCqCtlLog2Depth 0) 4) 0 (fHstCrStatState 0) rsRunning)
    0 0 ⟨q, q, true, 0, none, false⟩

/-- Die 0 in Safelight mode. -/
def sS : State := setFlag sR 0 fPwrStatSafelight true

/-- A state with every unit of die 0 named by the group 5, its two members in the power states given. -/
def sG (p q : Pw) : State :=
  let u := uid 0 clTdc 0
  let v := uid 0 clLane 0
  setUnit (setUnit (setGroup sR 5 (some ⟨false, [u, v]⟩)) u { unitOf sR u with pw := p }) v { unitOf sR v with pw := q }

theorem witness_StepRunsFrontCommand :
    ({ State.reset with pending := [.crsEnd 0] } : State).pending = .crsEnd 0 :: [] := by decide

theorem witness_EmptyQueuePassesOneTick : State.reset.pending = [] ∧ memWf State.reset.mem = true := by decide

theorem witness_StepKeepsMachineForm :
    (match step State.reset with | .next _ => true | _ => false) = true ∧ memWf State.reset.mem = true := by decide +kernel

theorem witness_OnlyAbsentDieStops :
    (Instr.crsEnd 7).wf = true ∧ ({ State.reset with part := .kn8128 } : State).part = .kn8128 := by decide +kernel

theorem witness_HostRowsRunTheirCommand : State.reset.ready = false := by decide

/-- Each check fails on some command that passes those before it, and one passes all. -/
theorem witness_FirstFailedCheckEnds :
    let ok := fun (c : Cmd) => sR.ready && cplFree sR c.port c.ring && orderOk sR c && !dueFirst sR c && !strobeFirst sR
    let flags := fun (c : Cmd) => decide (c.flags < 32) && decide (c.applyAt % 256 = 0)
    let c1 : Cmd := ⟨0, 0, 0, 32, uid 0 clTdc 0, 0, 0, padTo 40 []⟩
    let c2 := cmd 0xFFFFFFFF []
    let c3 := cmd (uid 0 clTdc 9) []
    let c4 := cmd (uid 0 clTdc 0) []
    let c5 := cmd (uid 0 clLane 0) [4]
    let c6 := cmd (uid 0 clLane 0) [0, 2]
    let cls := fun (df : CmdDef) (c : Cmd) => (expansion sR c.unit).all fun u => classOk df u
    ([c1, c2, c3, c4, c5, c6].all ok && !flags c1 && flags c2 && !idFormOk c2.unit && flags c3 && idFormOk c3.unit &&
      !unitPresent sR c3.unit && flags c4 && idFormOk c4.unit && unitPresent sR c4.unit && !cls laneSetFramerDef c4 &&
      flags c5 && idFormOk c5.unit && unitPresent sR c5.unit && cls laneSetFramerDef c5 && !laneSetFramerDef.payOk sR c5 &&
      flags c6 && idFormOk c6.unit && unitPresent sR c6.unit && cls laneSetFramerDef c6 &&
      laneSetFramerDef.payOk sR c6) = true := by decide +kernel

theorem witness_FailedCommandHasNoEffect :
    let s := sD 15
    let c := cmd (uid 0 clLane 0) [4]
    s.ready = true ∧ cplFree s c.port c.ring = true ∧ orderOk s c = true ∧ dueFirst s c = false ∧ strobeFirst s = false ∧
      checkCmd laneSetFramerDef c s = some stBadPayload ∧
      cplGone s c.port c.ring = false ∧ linkUp s c.port = true := by decide +kernel

/-- TIME_READ on a running die at once, far ahead, ahead with room and without, past, past under STRICT, and now. -/
theorem witness_ApplyAtDecidesTheStart :
    let c := fun (flags t : Nat) => (⟨0, 0, 0, flags, uid 0 clDie 0, 0, t * 256, padTo 40 []⟩ : Cmd)
    let pass := fun (s : State) (c : Cmd) =>
      s.ready && cplFree s c.port c.ring && orderOk s c && !dueFirst s c && !strobeFirst s && checkCmd timeReadDef c s == none &&
        !targetLocked timeReadDef c s
    let full : State :=
      { clkOn with host := { clkOn.host with flights := List.replicate 1024 { flight0 with sched := some (T + 1) } } }
    let ahead := fun (s : State) (c : Cmd) => tickDiff (c.applyAt / 256) (unitTime s ((cmdUnits timeReadDef c s).headD c.unit))
    let far := fun (s : State) (c : Cmd) => decide (2 ^ 31 < tickDiff (c.applyAt / 256) (dieTime s 0))
    (pass clkOn (c 0 0) &&
      pass clkOn (c 0 (T + 2 ^ 31 + 1)) && far clkOn (c 0 (T + 2 ^ 31 + 1)) &&
      pass full (c 0 (T + 1)) && !far full (c 0 (T + 1)) && decide (0 < ahead full (c 0 (T + 1))) &&
      decide (1024 ≤ schedCount full) &&
      pass clkOn (c 0 (T + 2 ^ 31)) && !far clkOn (c 0 (T + 2 ^ 31)) && decide (0 < ahead clkOn (c 0 (T + 2 ^ 31))) &&
      decide (schedCount clkOn < 1024) &&
      pass clkOn (c 8 (T - 1)) && !far clkOn (c 8 (T - 1)) && decide (ahead clkOn (c 8 (T - 1)) < 0) &&
      bitAt (c 8 (T - 1)).flags 3 &&
      pass clkOn (c 0 (T - 1)) && !far clkOn (c 0 (T - 1)) && decide (ahead clkOn (c 0 (T - 1)) < 0) &&
      pass clkOn (c 0 T) && !far clkOn (c 0 T) && decide (ahead clkOn (c 0 T) = 0)) = true := by decide +kernel

theorem witness_LockedOrFaultedUnitEndsCommand :
    let l := uid 0 clLane 0
    let g := 0x80000001
    let c := cmd l [0, 2]
    let cg := cmd g [0, 2]
    let pass := fun (c : Cmd) (s : State) =>
      s.ready && cplFree s c.port c.ring && orderOk s c && !dueFirst s c && !strobeFirst s && checkCmd laneSetFramerDef c s == none
    let one := fun (c : Cmd) (s : State) =>
      decide (c.applyAt = 0 ∧ cmdUnits laneSetFramerDef c s = [l]) && (findFlight s s.host.nextId).isNone
    let s1 := setReg sR 0 rCfgLock 0xFFFFFFFF
    let s2 := setUnit sR l { unitOf sR l with pw := .fault }
    let s3 := setGroup s1 1 (some ⟨false, [l]⟩)
    (pass c s1 && targetLocked laneSetFramerDef c s1 && pass cg s3 && one cg s3 && isGroup cg.unit &&
      cmdLocked s3 laneSetFramerDef.op l && pass c s2 && one c s2 && !cmdLocked s2 laneSetFramerDef.op l && !isGroup l &&
      decide (pwOf s2 l = .fault)) = true := by decide +kernel

theorem witness_SafelightRefusesStarts :
    ([(captureArmDef, uid 0 (clStream) 0, padTo 40 []), (chainStartDef, uid 0 clChain 0, padTo 40 []),
      (measureConfigureDef, uid 0 clDens 0, padTo 40 ([0, 0, 0, 0, 0, 0, 0, 0] ++ le 4 0 ++ le 4 1 ++ le 4 1)),
      (sheetClearDef, uid 0 clDens 0, padTo 40 []), (sheetExportDef, uid 0 clDens 0, padTo 40 []),
      (engineStartDef, uid 0 clEngine 0, padTo 40 [0, 0, 0, 0, 255, 255, 255, 255, 255, 255]),
      (xferStartDef, uid 0 clXfer 0, padTo 40 []), (xferResumeDef, uid 0 clXfer 0, padTo 40 [])].all fun p =>
        takenUp p.1 (cmd p.2.1 p.2.2) sS p.2.1 && safelight (taken p.1 (cmd p.2.1 p.2.2) sS p.2.1) (uDie p.2.1)) = true ∧
    (let c := cmdX (uid 0 clProof 0) (le 2 1 ++ le 2 1 ++ [0, 1, 0, 0] ++ List.replicate 16 0)
     takenUp proofConfigureDef c sS (uid 0 clProof 0) && safelight (taken proofConfigureDef c sS (uid 0 clProof 0)) 0) = true ∧
    (let c := cmdX (uid 0 clDie 0) ([0, 0, 1, 0] ++ List.replicate 36 0)
     takenUp serviceStartDef c sS (uid 0 clDie 0) && safelight (taken serviceStartDef c sS (uid 0 clDie 0)) 0) = true ∧
    (engOf sS 0 0).slot = none ∧ xferOwned sS 0 0 = false := by decide +kernel

theorem witness_QueryCommandsChangeNothing :
    takenUp unitQueryDef (cmd pkgUid []) sR pkgUid = true ∧
      takenUp timeReadDef (cmd (uid 0 clDie 0) []) sR (uid 0 clDie 0) = true ∧
      takenUp serviceQueryDef (cmd (uid 0 clDie 0) []) sR (uid 0 clDie 0) = true ∧
      takenUp portEchoDef (cmd (uid 0 clHostPort 0) []) sR (uid 0 clHostPort 0) = true := by decide +kernel

/-- At the last entry of the ring, with and without NO_COMPLETION_ON_SUCCESS, and before it. -/
theorem witness_CompletionEntryHasItsLayout :
    let c := cmd pkgUid []
    let c2 : Cmd := { c with flags := 4 }
    cplGone (sD 15) c.port c.ring = false ∧ linkUp (sD 15) c.port = true ∧
      linkUp (sD 0) c.port = true ∧ cplGone (sD 0) c.port c.ring = false ∧
      ¬(bitAt c.flags 2 = true ∧ 0 = 0) ∧ ¬(bitAt c2.flags 2 = true ∧ 65535 = 0) ∧
      (cplRing (sD 15) 0 0).prod + 1 = ringDepth (getF (sD 15) 0 (fHstCqCtlLog2Depth 0)) ∧
      (cplRing (sD 0) 0 0).prod + 1 ≠ ringDepth (getF (sD 0) 0 (fHstCqCtlLog2Depth 0)) := by decide +kernel

/-- A UNIT_WAKE of two units of which one is awaited, with a worst status of 0 and of 5 so far. -/
theorem witness_GroupCompletesWithWorstStatus :
    let f : Flight := { flight0 with op := 0x0003, attempted := 2, succeeded := 1 }
    let g : Flight := { f with worst := 5 }
    let s := fun (f : Flight) => ({ sR with host := { sR.host with flights := [f] } } : State)
    findFlight (s f) 7 = some f ∧ findFlight (s g) 7 = some g ∧ f.waits = [0] ∧ f.todo = [] ∧ f.worst < 5 ∧ 0 < g.worst ∧
      r50Op f.op = true := by decide +kernel

theorem witness_GroupExpansionIsDepthFirst :
    let s := sG .asleep .asleep
    isGroup (groupId 5) = true ∧ groupOf s (bits (groupId 5) 0 16) = some ⟨false, [uid 0 clTdc 0, uid 0 clLane 0]⟩ ∧
      isGroup (uid 0 clTdc 0) = false ∧ uid 0 clTdc 0 ∈ expansion s (groupId 5) ∧
      uid 0 clLane 0 ∈ expansion s (groupId 5) := by decide +kernel

theorem witness_GroupPowerStateRows :
    let ex := fun (s : State) (p : Pw) => (expansion s (groupId 5)).any fun v => pwOf s v == p
    (ex (sG .stopping .fault) .fault &&
      !ex (sG .starting .stopping) .fault && ex (sG .starting .stopping) .stopping &&
      !ex (sG .awake .starting) .fault && !ex (sG .awake .starting) .stopping && ex (sG .awake .starting) .starting &&
      !ex (sG .asleep .awake) .fault && !ex (sG .asleep .awake) .stopping && !ex (sG .asleep .awake) .starting &&
      ex (sG .asleep .awake) .awake &&
      !ex (sG .asleep .asleep) .awake && !ex (sG .asleep .asleep) .starting &&
      decide (expansion (setGroup sR 5 (some ⟨false, []⟩)) (groupId 5) = [])) = true := by decide +kernel

theorem witness_RawWordCarriesLineBits :
    ({ Lane.reset with framer := .raw } : Lane).framer = .raw ∧ (List.replicate 64 true).length = 64 ∧
      (List.replicate 64 true)[63]? = some true := by decide

theorem witness_Pam4BitsInTimeOrder :
    let l : Lane := { Lane.reset with pam4 := true }
    let m : Lane := { l with gray := false }
    let i : Lane := { l with invert := true }
    l.pam4 = true ∧ l.invert = false ∧ l.gray = true ∧ m.pam4 = true ∧ m.invert = false ∧ m.gray = false ∧ i.pam4 = true ∧
      i.invert = true ∧ ∀ v ∈ [0, 3], v ≤ 3 := by decide

/-- Also at the last count before it wraps. -/
theorem witness_TimeWrapsAndComparesSigned :
    let s : State := setDieClk { sR with now := 0 } 0 { DieClk.reset with running := true, base := 2 ^ 56 - 1 }
    (dieClk s 0).running = true ∧ (dieClk s 0).holding = false ∧ (dieClk s 0).atTick ≤ s.now ∧ dieTime s 0 = 2 ^ 56 - 1 ∧
      (dieClk clkOn 0).running = true ∧ (dieClk clkOn 0).holding = false ∧ (dieClk clkOn 0).atTick ≤ clkOn.now ∧
      dieTime clkOn 0 ≠ 2 ^ 56 - 1 ∧ 0 < 2 ^ 63 - 1 ∧ 2 ^ 63 - 1 < 2 ^ 63 := by decide +kernel

theorem witness_MemoryReadsBackLittleEndian : 7 < 8 ∧ memWf sI.mem = true := by decide +kernel

/-- A producer index beyond the ring and one that passes the consumer; a completion index beyond the producer. -/
theorem witness_InconsistentDoorbellStopsRing :
    let s := setCmdRing (setF (sD 3) 0 (fHstCrStatIndex 0) 4) 0 0 ⟨2⟩
    let dep := ringDepth (getF s 0 (fHstCrCtlLog2Depth 0))
    live s 0 = true ∧ portShown s 0 = true ∧ takesBell (getF s 0 (fHstCrStatState 0)) = true ∧ dep ≤ 16 ∧
      dep ≤ ringDist dep (getF s 0 (fHstCrStatIndex 0)) (cmdRing s 0 0).prod + ringDist dep (cmdRing s 0 0).prod 5 ∧
      ringDist 16 (cplRing s 0 0).cons (cplRing s 0 0).prod < ringDist 16 (cplRing s 0 0).cons 5 := by decide +kernel

/-- The entry before the one that would fill the command ring, the last completion there is to take, the last event written,
and the last buffer a stream ring has room for. -/
theorem witness_RingAccessesComplete_doorbells :
    let s := setStrRing (setF (setF (setF (setF (setF (setF (setCmdRing (sD 3) 0 0 ⟨2⟩) 0 (fHstCrStatIndex 0) 4)
      0 fHstEvrCtlLog2Depth 4) 0 fHstEvrStatState rsRunning) 0 fHstEvrStatIndex 15) 0 (fHstSrCtlLog2Depth 3) 4)
      0 (fHstSrStatState 3) rsRunning) 3 { StrRing.reset with prod := 9 }
    live s 0 = true ∧ portShown s 0 = true ∧ takesBell (getF s 0 (fHstCrStatState 0)) = true ∧
      takesBell (getF s 0 fHstEvrStatState) = true ∧ takesBell (getF s 0 (fHstSrStatState 3)) = true ∧
      ringDepth (getF s 0 (fHstCrCtlLog2Depth 0)) = 16 ∧ ringDepth (getF s 0 (fHstCqCtlLog2Depth 0)) = 16 ∧
      ringDepth (getF s 0 fHstEvrCtlLog2Depth) = 16 ∧ ringDepth (getF s 0 (fHstSrCtlLog2Depth 3)) = 16 ∧
      ringDist 16 (getF s 0 (fHstCrStatIndex 0)) (cmdRing s 0 0).prod + ringDist 16 (cmdRing s 0 0).prod 3 < 16 ∧
      ringDist 16 (cplRing s 0 0).cons 3 ≤ ringDist 16 (cplRing s 0 0).cons (cplRing s 0 0).prod ∧
      ringDist 16 (evRing s 0).cons 15 ≤ ringDist 16 (evRing s 0).cons (getF s 0 fHstEvrStatIndex) ∧
      (evRing s 0).held = [] ∧ (evRing s 0).lost = 0 ∧ getF s 0 (fHstSrCtlPort 3) = 0 ∧
      ringDist 16 (getF s 0 (fHstSrStatIndex 3)) (strRing s 3).prod + ringDist 16 (strRing s 3).prod 15 < 16 := by
  decide +kernel

/-- Rings that are DISABLED, at the smallest and the largest depth; they start. -/
theorem witness_RingAccessesComplete_enables :
    let s := setF (setF { sP with ready := true } 0 (fHstCqCtlLog2Depth 63) 16) 0 fHstPortIdRole 1
    let runs := fun (i : Instr) (st : Fld) => match exec i s with | .next t => decide (getF t 0 st = 1) | _ => false
    (live s 0 && portShown s 0 && mainShown s && !lockSet s 0 5 && decide (getF s 0 (fHstCrStatState 63) = 0) &&
      depthOk (getFld (fHstCrCtlLog2Depth 63) 0x80000004) && depthOk (getF s 0 (fHstCqCtlLog2Depth 63)) &&
      decide (getF s 0 fHstEvrStatState = 0) && depthOk (getFld fHstEvrCtlLog2Depth 0x90) &&
      decide (getF s 0 (fHstSrStatState 511) = 0) && depthOk (getFld (fHstSrCtlLog2Depth 511) 0x110) &&
      portServes s (getFld (fHstSrCtlPort 511) 0x110) && runs (.cmdRingEnable 0 63 0x80000004) (fHstCrStatState 63) &&
      runs (.eventRingEnable 0 0x90) fHstEvrStatState && runs (.streamRingEnable 511 0x110) (fHstSrStatState 511)) = true := by
  decide +kernel

/-- Rings that run or are in ERROR, and a write that clears EN alone; they drain, or stop. -/
theorem witness_RingAccessesComplete_disables :
    let s := setF (setF (setF (setF { sD 3 with ready := true } 0 (fHstCrStatState 1) rsError) 0 fHstEvrStatState rsRunning)
      0 (fHstSrStatState 511) rsRunning) 0 fHstPortIdRole 1
    let st : Instr → Fld → Nat := fun i f => match exec i s with | .next t => getF t 0 f | _ => 9
    (live s 0 && portShown s 0 && mainShown s && !lockSet s 0 5 && decide (getF s 0 (fHstCrStatState 0) = 1) &&
      decide (getF s 0 (fHstCrStatState 1) = 3) &&
      decide (getFld (fHstCrCtlLog2Depth 0) 4 = getF s 0 (fHstCrCtlLog2Depth 0)) &&
      decide (getFld (fHstCrCtlLog2Depth 1) 0 = getF s 0 (fHstCrCtlLog2Depth 1)) &&
      decide (getFld fHstEvrCtlLog2Depth 0 = getF s 0 fHstEvrCtlLog2Depth) &&
      decide (getFld (fHstSrCtlLog2Depth 511) 0 = getF s 0 (fHstSrCtlLog2Depth 511)) &&
      decide (getFld (fHstSrCtlPort 511) 0 = getF s 0 (fHstSrCtlPort 511)) &&
      decide (getF s 0 (fHstSrStatState 511) = 1) && decide (st (.cmdRingDisable 0 0 4) (fHstCrStatState 0) = 2) &&
      decide (st (.eventRingDisable 0 0) fHstEvrStatState = 0) &&
      decide (st (.streamRingDisable 511 0) (fHstSrStatState 511) = 2)) = true := by
  decide +kernel

theorem witness_EngineWordRoundTrip :
    engEncode (.engAdd 31 31 31) = some 0x03FFF800 ∧ (0x03FFF800 : Nat) < 2 ^ 32 ∧
      engDecode 0x03FFF800 = some (.engAdd 31 31 31) := by decide +kernel

/-- A row whose word is not at the PC; one whose word is there with an uncorrectable error; SIN2 to an odd register. -/
theorem witness_EngineRowFollowsTheWordAtPc :
    let e : Eng := ⟨0, 0⟩
    let o : EngOp := .engAdd 1 2 3
    let s1 := engAt (engEncode .nop)
    let s2 := engIs (engEncode o) fun x => { x with eccCode := [0] }
    let o3 : EngOp := .sin2 1 0
    let s3 := engAt (engEncode o3)
    (engOpOf (.engAdd e 1 2 3) == some (e, o) && live s1 0 && engEncode o != some (engWord s1 0 0) &&
      !engReady sR 0 0 && live s2 0 && engReady s2 0 0 && engEncode o == some (engWord s2 0 0) &&
      (engOf s2 0 0).eccCode.contains (engOf s2 0 0).pc && executes s3 e (engEncode o3) && !operandsOk o3) = true := by
  decide +kernel

/-- An engine of die 1 whose event waits at its source while die 0 runs on its holding clock, and one whose does not. -/
theorem witness_TrapIsPrecise :
    let s := setDieClk clkOn 0 { DieClk.reset with running := true, holding := true }
    (engOf s 1 0).slot = none ∧ (engOf s 1 0).stopFids = [] ∧
      evTransits s 1 ⟨0x0801, engUid 1 0, 0, [], 0, false⟩ = true ∧ evTransits sR 0 ⟨0x0801, engUid 0 0, 0, [], 0, false⟩ = false := by decide +kernel

theorem witness_EngineRegisterFrame :
    let o : EngOp := .engAdd 31 31 31
    let s := engAt (engEncode o)
    engOpOf (.engAdd ⟨0, 0⟩ 31 31 31) = some (⟨0, 0⟩, o) ∧ regDest o = some 31 ∧ executes s ⟨0, 0⟩ (engEncode o) = true ∧
      (match exec (.engAdd ⟨0, 0⟩ 31 31 31) s with
        | .next t => (engOf t 0 0).st == .running && (engOf t 0 0).waiting.isNone
        | _ => false) = true := by decide +kernel

/-- Stores to the last bytes of SRAM, of the engine's message and of the heap. -/
theorem witness_EngineStoreFrame :
    let at_ := fun (o : EngOp) (v : Nat) =>
      engIs (engEncode o) fun x => { putReg x 2 (BitVec.ofNat 72 v) with heapMib := 1 }
    let ok := fun (o : EngOp) (a : Nat) => executes (at_ o a) ⟨0, 0⟩ (engEncode o) && (storeOf o).isSome
    let va := fun (o : EngOp) (a : Nat) => (memAddr (engOf (at_ o a) 0 0) 2 0).toNat
    let x := engOf (at_ (.stb 1 2 0) 0) 0 0
    (ok (.stb 1 2 0) 0x7FFFF && ok (.sth 1 2 0) 0x101FFE && ok (.std 1 2 0) (2 ^ 32 + 0xFFFFC) && ok (.stq 1 2 0) 8 &&
      ok (.stw 1 2 0) 0x7FFF8 && decide (va (.stb 1 2 0) 0x7FFFF = 0x7FFFF) &&
      isArea (areaOf x 0x7FFFF) (.sram 0x7FFFF) && isArea (areaOf x 0x101FFE) (.e2h 0x101FFE) &&
      isArea (areaOf x (2 ^ 32 + 0xFFFFC)) (.heap 0xFFFFC) && isArea (areaOf x 0x7FFF8) (.sram 0x7FFF8) &&
      isArea (areaOf x 8) (.sram 8) && decide (0x7FFF8 % 8 = 0)) = true := by decide +kernel

/-- A misaligned address, one beyond SRAM, both, an address above 2^40, and an uncorrectable error; jumps likewise. -/
theorem witness_EngineAccessTraps :
    let e : Eng := ⟨0, 0⟩
    let o : EngOp := .ldq 1 2 0
    let at_ := fun (v : Nat) => engIs (engEncode o) fun x => { putReg x 2 (BitVec.ofNat 72 v) with eccData := [8] }
    let g := fun (v : Nat) => if v < 2 ^ 40 then areaOf (engOf (at_ v) 0 0) v else none
    let va := fun (v : Nat) => (memAddr (engOf (at_ v) 0 0) 2 0).toNat
    let j : EngOp := .jalr 1 2 0
    let jt := fun (v : Nat) => engIs (engEncode j) fun x => putReg x 2 (BitVec.ofNat 72 v)
    (engOpOf (.ldq e 1 2 0) == some (e, o) && loadOf o == some (8, false, 2, 0) &&
      storeOf (.stw 1 2 0) == some (8, true, 1, 2, 0) && [4, 0x80000, 0x80004, 2 ^ 40, 8].all (fun v =>
        executes (at_ v) e (engEncode o) && decide (va v = v)) && allows (g 4) false false && !allows (g 0x80000) false false &&
      !allows (g 0x80004) false false && !allows (g (2 ^ 40)) false false && isArea (g 8) (.sram 8) &&
      (engOf (at_ 8) 0 0).eccData.contains 8 && executes (jt 2) e (engEncode j) && executes (jt 0x20000) e (engEncode j) &&
      decide ((payOf (engOf (jt 0x20000) 0 0) 2 + (0 : W16).signExtend 64).toNat = 0x20000)) = true := by decide +kernel

/-! ## Witnesses of the completion statements, one for each clause -/

theorem witness_UnitCommandsComplete_1 :
    ([
    -- UNIT_ENUMERATE
    (
    let c := cmd pkgUid (le 4 0 ++ le 4 1)
    let u := pkgUid
    let s₀ : State := sR
    takenUp unitEnumerateDef c s₀ u &&
    true),
    -- UNIT_QUERY
    (
    let c := cmd pkgUid ([])
    let u := pkgUid
    let s₀ : State := sR
    takenUp unitQueryDef c s₀ u &&
    true),
    -- UNIT_WAKE
    (
    let c := cmd (uid 0 clTdc 0) ([])
    let u := (uid 0 clTdc 0)
    let s₀ : State := sR
    takenUp unitWakeDef c s₀ u &&
    let s := taken unitWakeDef c s₀ u
    decide (¬(uCls u = clLane && (laneOf s (uDie u) (uIdx u)).state == .off))),
    -- UNIT_SLEEP
    (
    let c := cmd pkgUid ([])
    let u := pkgUid
    let s₀ : State := sR
    takenUp unitSleepDef c s₀ u &&
    decide (u = pkgUid)),
    -- UNIT_SLEEP
    (
    let c := cmd (uid 0 clTdc 0) ([])
    let u := (uid 0 clTdc 0)
    let s₀ : State := sR
    takenUp unitSleepDef c s₀ u &&
    let s := taken unitSleepDef c s₀ u
    decide (u ≠ pkgUid) && decide (!(holdsPort s c.port u))),
    -- UNIT_CLEAR_FAULT
    (
    let c := cmd (uid 0 clTdc 0) ([])
    let u := (uid 0 clTdc 0)
    let s₀ : State := sR
    takenUp unitClearFaultDef c s₀ u &&
    let s := taken unitClearFaultDef c s₀ u
    decide (pwOf s u != .fault)),
    -- UNIT_CLEAR_FAULT
    (
    let c := cmd (uid 0 clTdc 0) ([])
    let u := (uid 0 clTdc 0)
    let s₀ : State := setUnit sR (uid 0 clTdc 0) { Unit.reset with pw := .fault }
    takenUp unitClearFaultDef c s₀ u &&
    let s := taken unitClearFaultDef c s₀ u
    decide (pwOf s u == .fault) && decide (faultCleared s u)),
    -- GROUP_CREATE
    (
    let c := cmd pkgUid (le 2 5)
    let u := pkgUid
    let s₀ : State := sR
    takenUp groupCreateDef c s₀ u &&
    let s := taken groupCreateDef c s₀ u
    let g := fld c.payload 0 2
    decide (!((groupOf s g).isSome)) && decide (s.tree.groups.length < 1024))].all id) = true := by decide +kernel

theorem witness_UnitCommandsComplete_2 :
    ([
    -- GROUP_ADD
    (
    let c := cmd (groupId 5) (le 4 (uid 0 clTdc 0))
    let u := (groupId 5)
    let s₀ : State := setGroup sR 5 (some ⟨false, []⟩)
    takenUp groupAddDef c s₀ u &&
    let s := taken groupAddDef c s₀ u
    let m := fld c.payload 0 4
    (match groupOf s (bits u 0 16) with
    | some g => decide (idFormOk m) && decide (unitPresent s m) && decide (!(reaches s u 1026 m)) &&
      decide (entriesUsed s < 4096)
    | _ => false)),
    -- GROUP_REMOVE
    (
    let c := cmd (groupId 5) (le 4 (uid 0 clTdc 0))
    let u := (groupId 5)
    let s₀ : State := setGroup sR 5 (some ⟨false, [(uid 0 clTdc 0)]⟩)
    takenUp groupRemoveDef c s₀ u &&
    let s := taken groupRemoveDef c s₀ u
    let m := fld c.payload 0 4
    (match groupOf s (bits u 0 16) with
    | some g => decide (g.members.contains m)
    | _ => false)),
    -- GROUP_DELETE
    (
    let c := cmd (groupId 5) ([])
    let u := (groupId 5)
    let s₀ : State := setGroup sR 5 (some ⟨false, []⟩)
    takenUp groupDeleteDef c s₀ u &&
    let s := taken groupDeleteDef c s₀ u
    let used := s.tree.groups.any fun g => match g.2 with | some x => x.members.contains u | none => false
    decide (¬(used && pb c 0 = 0))),
    -- GROUP_LIST
    (
    let c := cmd (groupId 5) ([])
    let u := (groupId 5)
    let s₀ : State := setGroup sR 5 (some ⟨false, []⟩)
    takenUp groupListDef c s₀ u &&
    true)].all id) = true := by decide +kernel

theorem witness_LaneCommandsComplete_1 :
    ([
    -- LANE_CONFIGURE
    (
    let c := cmd (uid 0 clLaneGroup 0) (le 4 10000000)
    let u := (uid 0 clLaneGroup 0)
    let s₀ : State := sR
    takenUp laneConfigureDef c s₀ u &&
    let s := taken laneConfigureDef c s₀ u
    let d := uDie u
    let i := uIdx u
    decide (uCls u = clLaneGroup) && let b := fld c.payload 0 4
    decide (restOk c 4) && decide (¬((groupLanes i).any fun n => pwOf s (laneUid d n) != .asleep)) &&
      decide (10000000 ≤ b) && decide (b ≤ 32000000) &&
      decide (¬(((groupLanes i).any fun n => (laneOf s d n).enable && !rateOk b (laneOf s d n))))),
    -- LANE_CONFIGURE
    (
    let c := cmd (uid 0 clLane 0) ([])
    let u := (uid 0 clLane 0)
    let s₀ : State := sR
    takenUp laneConfigureDef c s₀ u &&
    let s := taken laneConfigureDef c s₀ u
    let d := uDie u
    let i := uIdx u
    decide (uCls u ≠ clLaneGroup) && let l := laneCfg (laneOf s d i) c
    decide (pb c 0 < 16) && decide (pb c 1 < 4) && decide (pb c 2 < 16) && decide (restOk c 3) &&
      decide (pwOf s u == .asleep) && decide (¬(l.enable && !rateOk (laneBase s d i) l))),
    -- LANE_SET_FRAMER
    (
    let c := cmd (uid 0 clLane 0) ([0, 2])
    let u := (uid 0 clLane 0)
    let s₀ : State := sR
    takenUp laneSetFramerDef c s₀ u &&
    let s := taken laneSetFramerDef c s₀ u
    let d := uDie u
    let n := uIdx u
    let l := laneOf s d n
    let f := framerOf (pb c 0)
    let same := l.framer == f && l.descramble == bitAt (pb c 1) 0 && l.gray == bitAt (pb c 1) 1 &&
          l.anyComma == bitAt (pb c 1) 2
    decide (same)),
    -- LANE_SET_FRAMER
    (
    let c := cmd (uid 0 clLane 0) ([1, 2])
    let u := (uid 0 clLane 0)
    let s₀ : State := setLane (sR) 0 0 { Lane.reset with state := .locked }
    takenUp laneSetFramerDef c s₀ u &&
    let s := taken laneSetFramerDef c s₀ u
    let d := uDie u
    let n := uIdx u
    let l := laneOf s d n
    let f := framerOf (pb c 0)
    let same := l.framer == f && l.descramble == bitAt (pb c 1) 0 && l.gray == bitAt (pb c 1) 1 &&
          l.anyComma == bitAt (pb c 1) 2
    decide (!same) && let t := dieTime s d
    decide (laneLive l)),
    -- LANE_SET_FRAMER
    (
    let c := cmd (uid 0 clLane 0) ([1, 2])
    let u := (uid 0 clLane 0)
    let s₀ : State := sR
    takenUp laneSetFramerDef c s₀ u &&
    let s := taken laneSetFramerDef c s₀ u
    let d := uDie u
    let n := uIdx u
    let l := laneOf s d n
    let f := framerOf (pb c 0)
    let same := l.framer == f && l.descramble == bitAt (pb c 1) 0 && l.gray == bitAt (pb c 1) 1 &&
          l.anyComma == bitAt (pb c 1) 2
    decide (!same) && let t := dieTime s d
    decide (!(laneLive l))),
    -- LANE_SET_EQUALISER
    (
    let c := cmd (uid 0 clLane 0) ([0, 0, 2])
    let u := (uid 0 clLane 0)
    let s₀ : State := sR
    takenUp laneSetEqualiserDef c s₀ u &&
    let s := taken laneSetEqualiserDef c s₀ u
    let l := laneOf s (uDie u) (uIdx u)
    decide (!l.adapt.isSome)),
    -- LANE_ADAPT
    (
    let c := cmd (uid 0 clLane 0) ([0, 16])
    let u := (uid 0 clLane 0)
    let s₀ : State := setLane (sR) 0 0 { Lane.reset with state := .locked }
    takenUp laneAdaptDef c s₀ u &&
    let s := taken laneAdaptDef c s₀ u
    let d := uDie u
    let n := uIdx u
    let l := laneOf s d n
    decide (laneLive l) && decide (!l.adapt.isSome)),
    -- LANE_DESKEW
    (
    let c := cmd (uid 0 clLane 0) ([])
    let u := (uid 0 clLane 0)
    let s₀ : State := sR
    takenUp laneDeskewDef c s₀ u &&
    decide (pb c 0 = 0) && decide (uCls u = clLane))].all id) = true := by decide +kernel

theorem witness_LaneCommandsComplete_2 :
    ([
    -- LANE_DESKEW
    (
    let c := cmd (uid 0 clDie 0) ([1, 0, 0, 0, 0, 0, 0, 0] ++ le 4 10)
    let u := (uid 0 clDie 0)
    let s₀ : State := sR
    takenUp laneDeskewDef c s₀ u &&
    let s := taken laneDeskewDef c s₀ u
    let d := uDie u
    decide (pb c 0 ≠ 0) && decide (uCls u = clDie) && let mask := fld c.payload 2 2
    decide (¬((List.range 16).any fun i => bitAt mask i && (laneOf s d i).state != .framed)) &&
      decide (!((dieClk s d).autoDeskew.isSome))),
    -- LANE_READ_STATUS
    (
    let c := cmd (uid 0 clLane 0) ([])
    let u := (uid 0 clLane 0)
    let s₀ : State := sR
    takenUp laneReadStatusDef c s₀ u &&
    true),
    -- MONITOR_SWEEP
    (
    let c := cmd (uid 0 clLane 0) ([0, 0, 1, 2, 0, 0, 1, 10])
    let u := (uid 0 clLane 0)
    let s₀ : State := setLane (sR) 0 0 { Lane.reset with sweep := some ⟨0, 0, 1, 0, 0, 1, 10, false, false, false, false, 0, 0, 0, 0, 0⟩ }
    takenUp monitorSweepDef c s₀ u &&
    let s := taken monitorSweepDef c s₀ u
    let d := uDie u
    let n := uIdx u
    let l := laneOf s d n
    decide (bitAt (pb c 3) 1) && (match l.sweep with
    | some x => true
    | _ => false)),
    -- MONITOR_SWEEP
    (
    let c := cmd (uid 0 clLane 0) ([0, 0, 1, 2, 0, 0, 1, 10])
    let u := (uid 0 clLane 0)
    let s₀ : State := setLane (sR) 0 0 { Lane.reset with state := .locked }
    takenUp monitorSweepDef c s₀ u &&
    let s := taken monitorSweepDef c s₀ u
    let d := uDie u
    let n := uIdx u
    let l := laneOf s d n
    decide (bitAt (pb c 3) 1) && decide (l.sweep = none) && decide (laneLive l)),
    -- MONITOR_SWEEP
    (
    let c := cmd (uid 0 clLane 0) ([0, 0, 1, 0, 0, 0, 1, 10])
    let u := (uid 0 clLane 0)
    let s₀ : State := setLane (sR) 0 0 { Lane.reset with state := .locked }
    takenUp monitorSweepDef c s₀ u &&
    let s := taken monitorSweepDef c s₀ u
    let d := uDie u
    let n := uIdx u
    let l := laneOf s d n
    let w := sweepPay c (dieTime s d)
    let k := b2n w.sheetB
    let a := accOf s d k
    decide (!(bitAt (pb c 3) 1)) && decide (laneLive l) && decide (!l.sweep.isSome) && decide (¬(w.toSheet &&
      a.cfg.kind ≠ 2)) && decide (¬(w.toSheet && sweepFeeds s d k (some n))) && decide (¬(w.toSheet &&
      (colsOf a.cfg < (sweepDims w).1 || rowsOf a.cfg < (sweepDims w).2))))].all id) = true := by decide +kernel

theorem witness_ClockCommandsComplete_1 :
    ([
    -- PLL_CONFIGURE
    (
    let c := cmd (uid 0 clPll 1) ([])
    let u := (uid 0 clPll 1)
    let s₀ : State := sR
    takenUp pllConfigureDef c s₀ u &&
    let s := taken pllConfigureDef c s₀ u
    let k := uIdx u
    let f := fld c.payload 4 4
    decide (¬(k ≠ 7 && f ≠ 0)) && decide (pwOf s u == .asleep) && decide (¬(k = 7 && !(80000 ≤ f && f ≤ 1250000)))),
    -- PLL_STEP
    (
    let c := cmd (uid 0 clPll 1) ([])
    let u := (uid 0 clPll 1)
    let s₀ : State := aw (uid 0 clPll 1)
    takenUp pllStepDef c s₀ u &&
    let s := taken pllStepDef c s₀ u
    let d := uDie u
    let k := uIdx u
    let p := pllOf s d k
    let v := sgn 32 (fld c.payload 0 4)
    let t := p.offset + v
    decide (1 ≤ k) && decide (k ≤ 4) && decide (¬(v.natAbs > 20000)) && decide (¬(t.natAbs > 100000)) &&
      decide (!p.step.isSome) && decide (awake s u)),
    -- REFOUT_START
    (
    let c := cmd pkgUid ([])
    let u := pkgUid
    let s₀ : State := { sR with clk := { sR.clk with refOut := { ClkSt.reset.refOut with on := true } } }
    takenUp refoutStartDef c s₀ u &&
    let s := taken refoutStartDef c s₀ u
    let r := s.clk.refOut
    decide (!((dieClk s 0).holding)) && decide (r.on)),
    -- REFOUT_START
    (
    let c := cmd pkgUid ([])
    let u := pkgUid
    let s₀ : State := sR
    takenUp refoutStartDef c s₀ u &&
    let s := taken refoutStartDef c s₀ u
    let r := s.clk.refOut
    decide (!((dieClk s 0).holding)) && decide (!r.on)),
    -- REFOUT_STOP
    (
    let c := cmd pkgUid ([])
    let u := pkgUid
    let s₀ : State := sR
    takenUp refoutStopDef c s₀ u &&
    let s := taken refoutStopDef c s₀ u
    let r := s.clk.refOut
    decide (!r.on) && decide (!r.startDue)),
    -- REFOUT_STOP
    (
    let c := cmd pkgUid ([])
    let u := pkgUid
    let s₀ : State := { sR with clk := { sR.clk with refOut := { ClkSt.reset.refOut with on := true } } }
    takenUp refoutStopDef c s₀ u &&
    let s := taken refoutStopDef c s₀ u
    let r := s.clk.refOut
    decide (¬(!r.on && !r.startDue))),
    -- TIME_READ
    (
    let c := cmd (uid 0 clDie 0) ([])
    let u := (uid 0 clDie 0)
    let s₀ : State := sR
    takenUp timeReadDef c s₀ u &&
    true),
    -- SYNC_ARM
    (
    let c := cmd pkgUid ([3])
    let u := pkgUid
    let s₀ : State := sR
    takenUp syncArmDef c s₀ u &&
    true)].all id) = true := by decide +kernel

theorem witness_ClockCommandsComplete_2 :
    ([
    -- REF_SET_MODE
    (
    let c := cmd pkgUid ([1])
    let u := pkgUid
    let s₀ : State := sR
    takenUp refSetModeDef c s₀ u &&
    true),
    -- TDC_ARM
    (
    let c := cmd (uid 0 clTdc 0) ([0, 0, 1])
    let u := (uid 0 clTdc 0)
    let s₀ : State := setTdc (aw (uid 0 clTdc 0)) 0 { Tdc.reset with dll := true }
    takenUp tdcArmDef c s₀ u &&
    let s := taken tdcArmDef c s₀ u
    let d := uDie u
    let t := tdcOf s d
    decide (awake s u) && decide (t.dll) && decide (bitAt (pb c 2) 0)),
    -- TDC_ARM
    (
    let c := cmd (uid 0 clTdc 0) ([8, 0, 0, 0] ++ le 4 100)
    let u := (uid 0 clTdc 0)
    let s₀ : State := setTdc (aw (uid 0 clTdc 0)) 0 { Tdc.reset with dll := true }
    takenUp tdcArmDef c s₀ u &&
    let s := taken tdcArmDef c s₀ u
    let d := uDie u
    let t := tdcOf s d
    decide (awake s u) && decide (t.dll) && decide (!(bitAt (pb c 2) 0)) && decide (tdcSrcOn d (pb c 0, pb c 1)) &&
      decide ((tdcStops c).all (tdcSrcOn d)) && decide (!t.arm.isSome)),
    -- TDC_READ
    (
    let c := cmd (uid 0 clTdc 0) ([])
    let u := (uid 0 clTdc 0)
    let s₀ : State := setTdc sR 0 { Tdc.reset with result := some ⟨none, [], 0⟩ }
    takenUp tdcReadDef c s₀ u &&
    let s := taken tdcReadDef c s₀ u
    (match (tdcOf s (uDie u)).result with
    | some r => true
    | _ => false))].all id) = true := by decide +kernel

theorem witness_StreamCommandsComplete_1 :
    ([
    -- CAPTURE_CONFIGURE
    (
    let c := cmd (uid 0 clStream 0) ([])
    let u := (uid 0 clStream 0)
    let s₀ : State := sR
    takenUp captureConfigureDef c s₀ u &&
    let s := taken captureConfigureDef c s₀ u
    let d := uDie u
    let i := uIdx u
    let x := streamOf s d i
    let n := pendingEnvs x
    let discard := bitAt (pb c 2) 1
    decide (capModeOk c i) && decide ((x.state == .unconfigured || (x.state == .idle && (n.1 = 0 || discard)))) &&
      decide (cplxOk s d i (pb c 1))),
    -- CAPTURE_ARM
    (
    let cm := cmd (uid 0 clStream 16) ([])
    let u := (uid 0 clStream 16)
    let s₀ : State := setStream (aw (uid 0 clStream 16)) 0 16 { streamDflt 16 with state := .idle, slots := 1000, pre := 0, post := 1, segments := 1 }
    takenUp captureArmDef cm s₀ u &&
    let s := taken captureArmDef cm s₀ u
    let d := uDie u
    let i := uIdx u
    let x := streamOf s d i
    let m := measOf s d (expoIdx i)
    decide (!(safelight s d)) && decide (isExpo i) && decide (x.state == .idle) && decide (awake s u) &&
      decide (¬(m.enable && !awake s (densUid d))) && decide (cplxOk s d i x.format) &&
      decide (reservation x m ≤ x.slots) && let g := { x.seg with
          left := x.segments, done := 0, early := 0, rearm := 0, busy := 0, disarming := false
          armedAt := s.now, changes := [], disarmedAt := none, waitFids := [] }
    let y := { x with seg := g, look := [] }
    decide (reservation y m ≤ roomFor y)),
    -- CAPTURE_ARM
    (
    let cm := cmd (uid 0 clStream 16) ([])
    let u := (uid 0 clStream 16)
    let s₀ : State := setStream (aw (uid 0 clStream 16)) 0 16 { streamDflt 16 with state := .idle, slots := 4, pre := 0, post := 1, segments := 1, spool := List.replicate 3 env0 }
    takenUp captureArmDef cm s₀ u &&
    let s := taken captureArmDef cm s₀ u
    let d := uDie u
    let i := uIdx u
    let x := streamOf s d i
    let m := measOf s d (expoIdx i)
    decide (!(safelight s d)) && decide (isExpo i) && decide (x.state == .idle) && decide (awake s u) &&
      decide (¬(m.enable && !awake s (densUid d))) && decide (cplxOk s d i x.format) &&
      decide (reservation x m ≤ x.slots) && let g := { x.seg with
          left := x.segments, done := 0, early := 0, rearm := 0, busy := 0, disarming := false
          armedAt := s.now, changes := [], disarmedAt := none, waitFids := [] }
    let y := { x with seg := g, look := [] }
    decide (roomFor y < reservation y m)),
    -- CAPTURE_DISARM
    (
    let c := cmd (uid 0 clStream 16) ([])
    let u := (uid 0 clStream 16)
    let s₀ : State := setStream (sR) 0 16 { streamDflt 16 with state := .filling }
    takenUp captureDisarmDef c s₀ u &&
    let s := taken captureDisarmDef c s₀ u
    let d := uDie u
    let i := uIdx u
    decide (armed (streamOf s d i))),
    -- ROLL_START
    (
    let c := cmd (uid 0 clStream 0) ([])
    let u := (uid 0 clStream 0)
    let s₀ : State := setStream (aw (uid 0 clStream 0)) 0 0 { streamDflt 0 with state := .idle, mode := 1, slots := 4 }
    takenUp rollStartDef c s₀ u &&
    let s := taken rollStartDef c s₀ u
    let d := uDie u
    let i := uIdx u
    let x := streamOf s d i
    decide (x.state == .idle) && decide (awake s u) && decide (x.mode = 1) && decide (x.slots ≠ 0)),
    -- ROLL_STOP
    (
    let c := cmd (uid 0 clStream 0) ([])
    let u := (uid 0 clStream 0)
    let s₀ : State := setStream (sR) 0 0 { streamDflt 0 with state := .rolling }
    takenUp rollStopDef c s₀ u &&
    let s := taken rollStopDef c s₀ u
    let d := uDie u
    let i := uIdx u
    decide (¬((streamOf s d i).state != .rolling))),
    -- SPOOL_ALLOCATE
    (
    let c := cmd (uid 0 clStream 0) ([])
    let u := (uid 0 clStream 0)
    let s₀ : State := setStream (sR) 0 0 { streamDflt 0 with state := .idle }
    takenUp spoolAllocateDef c s₀ u &&
    let s := taken spoolAllocateDef c s₀ u
    let d := uDie u
    let i := uIdx u
    let x := streamOf s d i
    let n := pendingEnvs x
    let size := fld c.payload 0 4
    decide (x.state == .idle) && decide ((n.1 = 0 || bitAt (pb c 10) 0)) && decide (size ≤ poolFree s d + x.mib)),
    -- STREAM_BIND
    (
    let c := cmd (uid 0 clStream 0) (le 2 3)
    let u := (uid 0 clStream 0)
    let s₀ : State := sR
    takenUp streamBindDef c s₀ u &&
    let s := taken streamBindDef c s₀ u
    let d := uDie u
    let i := uIdx u
    let x := streamOf s d i
    let r := fld c.payload 0 2
    decide (!x.ring.isSome) && decide (!x.service.isSome) &&
      decide (!((boundStream s r).isSome)))].all id) = true := by decide +kernel

theorem witness_StreamCommandsComplete_2 :
    ([
    -- STREAM_UNBIND
    (
    let c := cmd (uid 0 clStream 0) ([])
    let u := (uid 0 clStream 0)
    let s₀ : State := setStream (sR) 0 0 { streamDflt 0 with ring := some 3 }
    takenUp streamUnbindDef c s₀ u &&
    let s := taken streamUnbindDef c s₀ u
    let d := uDie u
    let i := uIdx u
    (match (streamOf s d i).ring with
    | some r => true
    | _ => false)),
    -- BLOCK_RESEND
    (
    let c := cmd (uid 0 clStream 0) (le 6 0 ++ le 2 1)
    let u := (uid 0 clStream 0)
    let s₀ : State := setStream (sR) 0 0 { streamDflt 0 with ring := some 3, ndeliv := 1, spool := [env0] }
    takenUp blockResendDef c s₀ u &&
    let s := taken blockResendDef c s₀ u
    let d := uDie u
    let i := uIdx u
    let x := streamOf s d i
    decide (!x.ring.isNone) && decide (x.resends.length < 256) &&
      (match resendList x s₀.host.nextId (fld c.payload 0 6) (fld c.payload 6 2) with
    | some l => true
    | _ => false)),
    -- MARK_INSERT
    (
    let c := cmd (uid 0 clStream 0) ([])
    let u := (uid 0 clStream 0)
    let s₀ : State := setStream (sR) 0 0 { streamDflt 0 with state := .idle }
    takenUp markInsertDef c s₀ u &&
    let s := taken markInsertDef c s₀ u
    let d := uDie u
    let i := uIdx u
    decide (¬((streamOf s d i).state == .unconfigured))),
    -- RATE_LIMIT_SET
    (
    let c := cmd (uid 0 clStream 0) ([])
    let u := (uid 0 clStream 0)
    let s₀ : State := sR
    takenUp rateLimitSetDef c s₀ u &&
    true),
    -- RECORD_READ
    (
    let c := cmd (uid 0 clStream 16) (le 4 0 ++ le 4 0 ++ le 8 0 ++ le 4 4096)
    let u := (uid 0 clStream 16)
    let s₀ : State := setStream (sR) 0 16 { streamDflt 16 with keep := true, spool := [env0], kept := [⟨0, 0, 1, 0⟩] }
    takenUp recordReadDef c s₀ u &&
    let s := taken recordReadDef c s₀ u
    let d := uDie u
    let i := uIdx u
    let x := streamOf s d i
    decide (x.keep) && (match (x.kept.find? fun k => k.num = fld c.payload 0 4) with
    | some k => let mine := fun (e : Env) => (e.seq + 2 ^ 48 - k.firstSeq) % 2 ^ 48 < k.count
    decide (4096 * k.count ≤ fld c.payload 16 4)
    | _ => false))].all id) = true := by decide +kernel

theorem witness_ShutterCommandsComplete_1 :
    ([
    -- MATCHER_LOAD
    (
    let c := cmdX (uid 0 clLane 0) (List.replicate 320 0)
    let u := (uid 0 clLane 0)
    let s₀ : State := sR
    takenUp matcherLoadDef c s₀ u &&
    true),
    -- NEGSTORE_LOAD
    (
    let c := cmdX (uid 0 clNeg 0) (List.replicate 16 0)
    let u := (uid 0 clNeg 0)
    let s₀ : State := aw (uid 0 clNeg 0)
    takenUp negstoreLoadDef c s₀ u &&
    let s := taken negstoreLoadDef c s₀ u
    let d := uDie u
    let g := negOf s d
    let rs := records c.payload
    decide (awake s u) &&
      decide (checkRecs g (fun k => g.ways.any fun w => match w.2 with | some e => e.cls = k | none => false) rs)),
    -- NEGSTORE_CLEAR
    (
    let c := cmd (uid 0 clNeg 0) ([])
    let u := (uid 0 clNeg 0)
    let s₀ : State := sR
    takenUp negstoreClearDef c s₀ u &&
    true),
    -- COMPARATOR_CONFIGURE
    (
    let c := cmd (uid 0 clDie 0) ([0, 0, 0, 0, 0, 0, 0, 0, 1])
    let u := (uid 0 clDie 0)
    let s₀ : State := sR
    takenUp comparatorConfigureDef c s₀ u &&
    true),
    -- SEQUENCER_LOAD
    (
    let c := cmdX (uid 0 clSeq 0) (seqPay)
    let u := (uid 0 clSeq 0)
    let s₀ : State := sR
    takenUp sequencerLoadDef c s₀ u &&
    let s := taken sequencerLoadDef c s₀ u
    let q := seqOf s (uIdx u)
    decide (!q.armed)),
    -- SEQUENCER_ARM
    (
    let c := cmd (uid 0 clSeq 0) ([])
    let u := (uid 0 clSeq 0)
    let s₀ : State := setSeq sR 0 { Sequencer.reset with loaded := true }
    takenUp sequencerArmDef c s₀ u &&
    let s := taken sequencerArmDef c s₀ u
    let q := seqOf s (uIdx u)
    decide (!q.armed) && decide (q.loaded)),
    -- SEQUENCER_DISARM
    (
    let c := cmd (uid 0 clSeq 0) ([])
    let u := (uid 0 clSeq 0)
    let s₀ : State := setSeq sR 0 { Sequencer.reset with armed := true }
    takenUp sequencerDisarmDef c s₀ u &&
    let s := taken sequencerDisarmDef c s₀ u
    let q := seqOf s (uIdx u)
    decide (q.armed)),
    -- SHUTTER_FIRE
    (
    let c := cmd (uid 0 clDie 0) ([])
    let u := (uid 0 clDie 0)
    let s₀ : State := sR
    takenUp shutterFireDef c s₀ u &&
    decide (uCls u = clDie) && decide (pb c 0 < 4))].all id) = true := by decide +kernel

theorem witness_ShutterCommandsComplete_2 :
    ([
    -- SHUTTER_FIRE
    (
    let c := cmd pkgUid ([])
    let u := pkgUid
    let s₀ : State := sR
    takenUp shutterFireDef c s₀ u &&
    decide (uCls u ≠ clDie) && decide (fld c.payload 4 3 = 0)),
    -- TRIGIN_CONFIGURE
    (
    let c := cmd pkgUid ([])
    let u := pkgUid
    let s₀ : State := sR
    takenUp triginConfigureDef c s₀ u &&
    true),
    -- TRIGOUT_CONFIGURE
    (
    let c := cmd pkgUid ([])
    let u := pkgUid
    let s₀ : State := sR
    takenUp trigoutConfigureDef c s₀ u &&
    true),
    -- SHUTTER_READ_COUNTERS
    (
    let c := cmd (uid 0 clStream 16) ([])
    let u := (uid 0 clStream 16)
    let s₀ : State := sR
    takenUp shutterReadCountersDef c s₀ u &&
    decide (uCls u = clStream)),
    -- SHUTTER_READ_COUNTERS
    (
    let c := cmd (uid 0 clSeq 0) ([])
    let u := (uid 0 clSeq 0)
    let s₀ : State := sR
    takenUp shutterReadCountersDef c s₀ u &&
    decide (uCls u ≠ clStream) && decide (uCls u = clSeq)),
    -- SHUTTER_READ_COUNTERS
    (
    let c := cmd (uid 0 clDie 0) ([])
    let u := (uid 0 clDie 0)
    let s₀ : State := sR
    takenUp shutterReadCountersDef c s₀ u &&
    decide (uCls u ≠ clStream) && decide (uCls u ≠ clSeq))].all id) = true := by decide +kernel

theorem witness_ChainCommandsComplete_1 :
    ([
    -- CHAIN_CONFIGURE
    (
    let cm := cmd (uid 0 clChain 0) ([0, 3, 0, 0] ++ le 4 0 ++ le 8 0 ++ [8, 0, 0, 0] ++ le 4 1)
    let u := (uid 0 clChain 0)
    let s₀ : State := sR
    takenUp chainConfigureDef cm s₀ u &&
    let s := taken chainConfigureDef cm s₀ u
    let d := uDie u
    let c := uIdx u
    let g := (chainPay cm).1
    let e := (chainPay cm).2
    let y := streamOf s d (expoOf c)
    decide (finalOk g) && decide (fftOk g e.allowSkip) && decide (¬(g.decLog2 < 2 && armed y && y.format = 2))),
    -- CHAIN_SELECT_LANE
    (
    let cm := cmd (uid 0 clChain 0) ([])
    let u := (uid 0 clChain 0)
    let s₀ : State := sR
    takenUp chainSelectLaneDef cm s₀ u &&
    let s := taken chainSelectLaneDef cm s₀ u
    let d := uDie u
    let n := pb cm 0
    decide (!(baudOver s d n))),
    -- CHAIN_START
    (
    let cm := cmd (uid 0 clChain 0) ([])
    let u := (uid 0 clChain 0)
    let s₀ : State := setChain (aw (uid 0 clChain 0)) 0 0 { Chain.reset with configured := true, lane := some 0 }
    takenUp chainStartDef cm s₀ u &&
    let s := taken chainStartDef cm s₀ u
    let d := uDie u
    let c := uIdx u
    let x := chainOf s d c
    decide (!(safelight s d)) && decide (awake s u) && decide (x.st == .stopped) && decide (x.configured) &&
      decide (x.lane.isSome)),
    -- CHAIN_STOP
    (
    let c := cmd (uid 0 clChain 0) ([])
    let u := (uid 0 clChain 0)
    let s₀ : State := setChain (sR) 0 0 { Chain.reset with st := .running }
    takenUp chainStopDef c s₀ u &&
    let s := taken chainStopDef c s₀ u
    decide (¬((chainOf s (uDie u) (uIdx u)).st == .stopped))),
    -- MASK_LOAD
    (
    let cm := cmdX (uid 0 clChain 0) (le 4 0 ++ le 4 2 ++ List.replicate 8 0)
    let u := (uid 0 clChain 0)
    let s₀ : State := sR
    takenUp maskLoadDef cm s₀ u &&
    true),
    -- DCBLOCK_FREEZE
    (
    let cm := cmd (uid 0 clChain 0) ([])
    let u := (uid 0 clChain 0)
    let s₀ : State := sR
    takenUp dcblockFreezeDef cm s₀ u &&
    true),
    -- MEASURE_CONFIGURE
    (
    let c := cmd (uid 0 clDens 0) ([0, 0, 0, 0, 0, 0, 0, 0] ++ le 4 0 ++ le 4 1 ++ le 4 1 ++ le 4 0)
    let u := (uid 0 clDens 0)
    let s₀ : State := sR
    takenUp measureConfigureDef c s₀ u &&
    let s := taken measureConfigureDef c s₀ u
    let d := uDie u
    let k := pb c 0
    decide (!(safelight s d)) && decide (¬((measPay c).enable != (measOf s d k).enable &&
      armed (streamOf s d (expoOf k))))),
    -- SHEET_CONFIGURE
    (
    let c := cmd (uid 0 clDens 0) ([])
    let u := (uid 0 clDens 0)
    let s₀ : State := sR
    takenUp sheetConfigureDef c s₀ u &&
    let s := taken sheetConfigureDef c s₀ u
    let d := uDie u
    let k := pb c 0
    let a := accOf s d k
    let g := sheetPay c
    let need := regionMib g
    let have_ := match a.region with | some (_, m) => m | none => 0
    decide (!a.exporting.isSome) && decide (!(sweepFeeds s d k none)) &&
      decide (need ≤ poolFree s d + have_))].all id) = true := by decide +kernel

theorem witness_ChainCommandsComplete_2 :
    ([
    -- SHEET_CLEAR
    (
    let c := cmd (uid 0 clDens 0) ([])
    let u := (uid 0 clDens 0)
    let s₀ : State := setAcc sR 0 0 { Acc.reset with cfg := { SheetCfg.reset with kind := 1 } }
    takenUp sheetClearDef c s₀ u &&
    let s := taken sheetClearDef c s₀ u
    let d := uDie u
    let a := accOf s d (pb c 0)
    decide (!(safelight s d)) && decide (a.cfg.kind ≠ 0) && decide (!a.exporting.isSome)),
    -- SHEET_EXPORT
    (
    let c := cmd (uid 0 clDens 0) ([])
    let u := (uid 0 clDens 0)
    let s₀ : State := setAcc sR 0 0 { Acc.reset with cfg := { SheetCfg.reset with kind := 2 } }
    takenUp sheetExportDef c s₀ u &&
    let s := taken sheetExportDef c s₀ u
    let d := uDie u
    let k := pb c 0
    let a := accOf s d k
    let buf := fld c.payload 8 8
    decide (!(safelight s d)) && decide (a.cfg.kind ≠ 0) && decide (!a.exporting.isSome) && decide (¬(buf ≠ 0 &&
      fld c.payload 16 4 < 4096 * worstEnvs a.cfg (pb c 1)))),
    -- CAL_CONFIGURE
    (
    let c := cmd (uid 0 clLane 0) ([])
    let u := (uid 0 clLane 0)
    let s₀ : State := sR
    takenUp calConfigureDef c s₀ u &&
    true),
    -- CAL_SAVE
    (
    let c := cmd (uid 0 clLane 0) (le 8 0 ++ le 4 256)
    let u := (uid 0 clLane 0)
    let s₀ : State := sR
    takenUp calSaveDef c s₀ u &&
    let ls := calLanes u
    decide (256 * ls.length ≤ fld c.payload 8 4)),
    -- CAL_HOLD
    (
    let c := cmd (uid 0 clLane 0) ([0])
    let u := (uid 0 clLane 0)
    let s₀ : State := sR
    takenUp calHoldDef c s₀ u &&
    let s0 := taken calHoldDef c s₀ u
    let d := uDie u
    let n := uIdx u
    let s := calSync s0 d n
    let x := calOf s d n
    let hold := pb c 0 = 1
    decide (x.suspended = decide hold)),
    -- CAL_HOLD
    (
    let c := cmd (uid 0 clLane 0) ([1])
    let u := (uid 0 clLane 0)
    let s₀ : State := sR
    takenUp calHoldDef c s₀ u &&
    let s0 := taken calHoldDef c s₀ u
    let d := uDie u
    let n := uIdx u
    let s := calSync s0 d n
    let x := calOf s d n
    let hold := pb c 0 = 1
    decide (x.suspended ≠ decide hold) && decide (hold)),
    -- CAL_HOLD
    (
    let c := cmd (uid 0 clLane 0) ([0])
    let u := (uid 0 clLane 0)
    let s₀ : State := setCal sR 0 0 { Cal.reset with suspended := true }
    takenUp calHoldDef c s₀ u &&
    let s0 := taken calHoldDef c s₀ u
    let d := uDie u
    let n := uIdx u
    let s := calSync s0 d n
    let x := calOf s d n
    let hold := pb c 0 = 1
    decide (x.suspended ≠ decide hold) && decide (!hold))].all id) = true := by decide +kernel

theorem witness_EngineCommandsComplete_1 :
    ([
    -- IMAGE_UNLOAD
    (
    let c := cmd (uid 0 clEngine 0) ([])
    let u := (uid 0 clEngine 0)
    let s₀ : State := sR
    takenUp imageUnloadDef c s₀ u &&
    let s := taken imageUnloadDef c s₀ u
    let d := uDie u
    let x := engOf s d (uIdx u)
    decide (!x.slot.isSome) && decide (x.st != .running) && decide (x.st != .swapping) &&
      decide (¬(x.derived.any (fun i => (streamOf s d i).state == .rolling)))),
    -- ENGINE_START
    (
    let c := cmd (uid 0 clEngine 0) ([0, 0, 0, 0, 255, 255, 255, 255, 255, 255])
    let u := (uid 0 clEngine 0)
    let s₀ : State := setEng (aw (uid 0 clEngine 0)) 0 0 { Engine.reset with st := .loaded }
    takenUp engineStartDef c s₀ u &&
    let s := taken engineStartDef c s₀ u
    let d := uDie u
    let e := uIdx u
    let x := engOf s d e
    let g := engPay c
    let resume := pb c 0 = 1
    decide (!x.slot.isSome) && decide (!(safelight s d)) && decide (awake s u) && decide (startable x resume) &&
      decide (¬(resume && !(g.ins = x.ins.map (·.src) && g.outs = x.outs.map (·.stream)))) &&
      decide (setFail s d e x.inUse x.outUse g = none)),
    -- ENGINE_STOP
    (
    let c := cmd (uid 0 clEngine 0) ([])
    let u := (uid 0 clEngine 0)
    let s₀ : State := sR
    takenUp engineStopDef c s₀ u &&
    let s := taken engineStopDef c s₀ u
    let d := uDie u
    let e := uIdx u
    let x := engOf s d e
    decide (!x.slot.isSome) && decide (!(x.st == .running || x.st == .swapping))),
    -- ENGINE_STOP
    (
    let c := cmd (uid 0 clEngine 0) ([])
    let u := (uid 0 clEngine 0)
    let s₀ : State := setEng (sR) 0 0 { Engine.reset with st := .running }
    takenUp engineStopDef c s₀ u &&
    let s := taken engineStopDef c s₀ u
    let d := uDie u
    let e := uIdx u
    let x := engOf s d e
    decide (!x.slot.isSome) && decide ((x.st == .running || x.st == .swapping))),
    -- ENGINE_READ_STATE
    (
    let c := cmd (uid 0 clEngine 0) ([])
    let u := (uid 0 clEngine 0)
    let s₀ : State := sR
    takenUp engineReadStateDef c s₀ u &&
    let s := taken engineReadStateDef c s₀ u
    let x := engOf s (uDie u) (uIdx u)
    let b := fld c.payload 0 8
    decide (¬(b ≠ 0 && (x.st == .running || x.st == .swapping || !awake s u)))),
    -- SERVICE_STOP
    (
    let c := cmd (uid 0 clDie 0) ([0, 0, 0])
    let u := (uid 0 clDie 0)
    let s₀ : State := setSvc (sR) 0 0 { Svc.reset with st := .stopped }
    takenUp serviceStopDef c s₀ u &&
    let s := taken serviceStopDef c s₀ u
    let d := uDie u
    let k := pb c 0
    let x := svcOf s d k
    let rel := pb c 2 = 1
    decide (x.st != .none) && decide (¬((rel && svcRolls s d k))) && decide (x.st == .stopped) && decide (!rel)),
    -- SERVICE_STOP
    (
    let c := cmd (uid 0 clDie 0) ([0, 0, 1])
    let u := (uid 0 clDie 0)
    let s₀ : State := setSvc (sR) 0 0 { Svc.reset with st := .stopped }
    takenUp serviceStopDef c s₀ u &&
    let s := taken serviceStopDef c s₀ u
    let d := uDie u
    let k := pb c 0
    let x := svcOf s d k
    let rel := pb c 2 = 1
    decide (x.st != .none) && decide (¬((rel && svcRolls s d k))) && decide (x.st == .stopped) && decide (rel) &&
      decide (svcQuiet s d k)),
    -- SERVICE_STOP
    (
    let c := cmd (uid 0 clDie 0) ([0, 0, 1])
    let u := (uid 0 clDie 0)
    let s₀ : State := setSvc (setEng (sR) 0 0 { Engine.reset with st := .running }) 0 0 { Svc.reset with st := .stopped, mask := 1 }
    takenUp serviceStopDef c s₀ u &&
    let s := taken serviceStopDef c s₀ u
    let d := uDie u
    let k := pb c 0
    let x := svcOf s d k
    let rel := pb c 2 = 1
    decide (x.st != .none) && decide (¬((rel && svcRolls s d k))) && decide (x.st == .stopped) && decide (rel) &&
      decide (!(svcQuiet s d k)))].all id) = true := by decide +kernel

theorem witness_EngineCommandsComplete_2 :
    ([
    -- SERVICE_STOP
    (
    let c := cmd (uid 0 clDie 0) ([0, 0, 0])
    let u := (uid 0 clDie 0)
    let s₀ : State := setSvc (sR) 0 0 { Svc.reset with st := .running }
    takenUp serviceStopDef c s₀ u &&
    let s := taken serviceStopDef c s₀ u
    let d := uDie u
    let k := pb c 0
    let x := svcOf s d k
    let rel := pb c 2 = 1
    decide (x.st != .none) && decide (¬((rel && svcRolls s d k))) && decide (x.st != .stopped)),
    -- SERVICE_QUERY
    (
    let c := cmd (uid 0 clDie 0) ([])
    let u := (uid 0 clDie 0)
    let s₀ : State := sR
    takenUp serviceQueryDef c s₀ u &&
    true),
    -- VOLUME_CREATE
    (
    let c := cmd (uid 0 clDie 0) ([0, 1, 1, 0, 0, 0] ++ le 2 0 ++ le 8 0 ++ le 2 16 ++ le 2 1 ++ le 4 0 ++ le 4 0 ++ le 2 10 ++ le 2 10)
    let u := (uid 0 clDie 0)
    let s₀ : State := setDrive (setSvc (sR) 0 0 { Svc.reset with st := .running, service := 1 }) 0 0 { Drive.reset with suitable := true, info := some drv0 }
    takenUp volumeCreateDef c s₀ u &&
    let s := taken volumeCreateDef c s₀ u
    let d := uDie u
    let k := pb c 0
    let x := svcOf s d k
    let ms := createPorts c
    decide (x.service = 1) && decide (x.st == .running) && decide (x.vol = none) &&
      decide ((ms.all fun m => (driveOf s d m).suitable && (volOfDrive s d m).isNone)) &&
      decide ((bitAt (pb c 2) 0 || !(ms.any fun m => sbValid (driveBlock s d m 0) || sbValid (driveBlock s d m 1)))) && decide ((ms.all fun m => let b := driveBlocks (driveOf s d m); let r := regionSizes c b; 2 + r.1 + r.2 < b))),
    -- VOLUME_CLOSE
    (
    let c := cmd (uid 0 clDie 0) ([])
    let u := (uid 0 clDie 0)
    let s₀ : State := setSvc (sR) 0 0 { Svc.reset with vol := some vol1 }
    takenUp volumeCloseDef c s₀ u &&
    let s := taken volumeCloseDef c s₀ u
    let d := uDie u
    let k := pb c 0
    (match (svcOf s d k).vol with
    | some v => decide ((v.st = 1 || v.st = 3)) && decide (!v.closing)
    | _ => false)),
    -- XFER_LOAD
    (
    let c := cmdX (uid 0 clXfer 0) (le 8 0 ++ le 4 0 ++ [1] ++ List.replicate 67 0)
    let u := (uid 0 clXfer 0)
    let s₀ : State := sR
    takenUp xferLoadDef c s₀ u &&
    let s := taken xferLoadDef c s₀ u
    let d := uDie u
    let n := uIdx u
    let p := c.payload
    let only := bitAt (fld p 12 1) 0
    decide (!(xferOwned s d n)) && decide (only)),
    -- XFER_LOAD
    (
    let c := cmdX (uid 0 clXfer 0) (le 6 0 ++ [0, 1] ++ List.replicate 72 0)
    let u := (uid 0 clXfer 0)
    let s₀ : State := sR
    takenUp xferLoadDef c s₀ u &&
    let s := taken xferLoadDef c s₀ u
    let d := uDie u
    let n := uIdx u
    let x := xferOf s d n
    let p := c.payload
    let only := bitAt (fld p 12 1) 0
    let s1 := memWrite s (.prog d) (16 * fld p 0 2) ((p.drop 80).take (16 * fld p 2 2))
    decide (!(xferOwned s d n)) && decide (!only) && decide ((stopped x.st || x.st == .idle)) &&
      (match xferBuf s1 d x.buf (fld p 8 4) (bitAt (fld p 12 1) 1) with
    | some (b, s2) => true
    | _ => false)),
    -- XFER_START
    (
    let c := cmd (uid 0 clXfer 0) ([])
    let u := (uid 0 clXfer 0)
    let s₀ : State := setXfer (sR) 0 0 { Xfer.reset with st := .loaded }
    takenUp xferStartDef c s₀ u &&
    let s := taken xferStartDef c s₀ u
    let d := uDie u
    let n := uIdx u
    let x := xferOf s d n
    decide (!(xferOwned s d n)) && decide (!(safelight s d)) && decide (stopped x.st)),
    -- XFER_PAUSE
    (
    let c := cmd (uid 0 clXfer 0) ([])
    let u := (uid 0 clXfer 0)
    let s₀ : State := setXfer (sR) 0 0 { Xfer.reset with st := .paused }
    takenUp xferPauseDef c s₀ u &&
    let s := taken xferPauseDef c s₀ u
    let d := uDie u
    let n := uIdx u
    let x := xferOf s d n
    decide (!(xferOwned s d n)) && decide (x.st == .paused))].all id) = true := by decide +kernel

theorem witness_EngineCommandsComplete_3 :
    ([
    -- XFER_PAUSE
    (
    let c := cmd (uid 0 clXfer 0) ([])
    let u := (uid 0 clXfer 0)
    let s₀ : State := setXfer (sR) 0 0 { Xfer.reset with st := .running }
    takenUp xferPauseDef c s₀ u &&
    let s := taken xferPauseDef c s₀ u
    let d := uDie u
    let n := uIdx u
    let x := xferOf s d n
    decide (!(xferOwned s d n)) && decide (x.st != .paused) && decide ((x.st == .running || x.st == .waiting))),
    -- XFER_RESUME
    (
    let c := cmd (uid 0 clXfer 0) ([])
    let u := (uid 0 clXfer 0)
    let s₀ : State := setXfer (sR) 0 0 { Xfer.reset with st := .paused }
    takenUp xferResumeDef c s₀ u &&
    let s := taken xferResumeDef c s₀ u
    let d := uDie u
    let n := uIdx u
    let x := xferOf s d n
    decide (!(xferOwned s d n)) && decide (!(safelight s d)) && decide ((x.st == .paused || x.st == .error)) &&
      decide (¬(x.st == .paused && pb c 0 = 1))),
    -- XFER_RESET
    (
    let c := cmd (uid 0 clXfer 0) ([])
    let u := (uid 0 clXfer 0)
    let s₀ : State := setXfer (sR) 0 0 { Xfer.reset with st := .running }
    takenUp xferResetDef c s₀ u &&
    let s := taken xferResetDef c s₀ u
    let d := uDie u
    let n := uIdx u
    let x := xferOf s d n
    decide (!(xferOwned s d n)) && decide ((x.st == .running || x.st == .waiting))),
    -- XFER_RESET
    (
    let c := cmd (uid 0 clXfer 0) ([])
    let u := (uid 0 clXfer 0)
    let s₀ : State := sR
    takenUp xferResetDef c s₀ u &&
    let s := taken xferResetDef c s₀ u
    let d := uDie u
    let n := uIdx u
    let x := xferOf s d n
    decide (!(xferOwned s d n)) && decide (x.st != .running) &&
      decide (x.st != .waiting))].all id) = true := by decide +kernel

theorem witness_ProbeAndProofCommandsComplete_1 :
    ([
    -- EEPROM_READ
    (
    let c := cmd (uid 0 clProbe 0) (le 10 0 ++ le 2 1)
    let u := (uid 0 clProbe 0)
    let s₀ : State := setProbe (setUnit sR (uid 0 clProbe 0) { Unit.reset with partner := 2 }) 0 0 { Probe.reset with eepromOk := true }
    takenUp eepromReadDef c s₀ u &&
    let s := taken eepromReadDef c s₀ u
    let d := uDie u
    let p := uIdx u
    let x := probeOf s d p
    decide (!x.discovering) && decide (!x.read.isSome) && decide (probeHere s d p) && decide (x.eepromOk)),
    -- BIAS_CONFIGURE
    (
    let c := cmd (uid 0 clBias 0) (le 2 0 ++ le 2 1 ++ le 4 1)
    let u := (uid 0 clBias 0)
    let s₀ : State := aw (uid 0 clBias 0)
    takenUp biasConfigureDef c s₀ u &&
    let s := taken biasConfigureDef c s₀ u
    let d := uDie u
    let p := uIdx u
    let b := biasOf s d p
    let busy := b.phase == .toZ || b.phase == .gap || b.phase == .toTarget || b.offDue
    decide (awake s u) && decide (!busy) &&
      let s1 := setF (setF s d (fPbdCfgStepM1 p) (fld c.payload 2 2 - 1)) d (fPbdCfgIntervalM1 p) (fld c.payload 4 4 -
          1)
    let range := pb c 0
    decide (range = biasRange s d p)),
    -- BIAS_CONFIGURE
    (
    let c := cmd (uid 0 clBias 0) (le 2 1 ++ le 2 1 ++ le 4 1)
    let u := (uid 0 clBias 0)
    let s₀ : State := setBias (aw (uid 0 clBias 0)) 0 0 { Bias.reset with driving := true }
    takenUp biasConfigureDef c s₀ u &&
    let s := taken biasConfigureDef c s₀ u
    let d := uDie u
    let p := uIdx u
    let b := biasOf s d p
    let busy := b.phase == .toZ || b.phase == .gap || b.phase == .toTarget || b.offDue
    decide (awake s u) && decide (!busy) &&
      let s1 := setF (setF s d (fPbdCfgStepM1 p) (fld c.payload 2 2 - 1)) d (fPbdCfgIntervalM1 p) (fld c.payload 4 4 -
          1)
    let range := pb c 0
    decide (range ≠ biasRange s d p) && let s2 := biasReplace s1 d p
    decide (b.driving)),
    -- BIAS_CONFIGURE
    (
    let c := cmd (uid 0 clBias 0) (le 2 1 ++ le 2 1 ++ le 4 1)
    let u := (uid 0 clBias 0)
    let s₀ : State := aw (uid 0 clBias 0)
    takenUp biasConfigureDef c s₀ u &&
    let s := taken biasConfigureDef c s₀ u
    let d := uDie u
    let p := uIdx u
    let b := biasOf s d p
    let busy := b.phase == .toZ || b.phase == .gap || b.phase == .toTarget || b.offDue
    decide (awake s u) && decide (!busy) &&
      let s1 := setF (setF s d (fPbdCfgStepM1 p) (fld c.payload 2 2 - 1)) d (fPbdCfgIntervalM1 p) (fld c.payload 4 4 -
          1)
    let range := pb c 0
    decide (range ≠ biasRange s d p) && let s2 := biasReplace s1 d p
    decide (!b.driving)),
    -- BIAS_SET
    (
    let c := cmd (uid 0 clBias 0) ([])
    let u := (uid 0 clBias 0)
    let s₀ : State := aw (uid 0 clBias 0)
    takenUp biasSetDef c s₀ u &&
    let s := taken biasSetDef c s₀ u
    let d := uDie u
    let p := uIdx u
    let code := fld c.payload 0 2
    decide (awake s u) && let v := putFld (fPbdTargetCode p) 0 code
    let s1 := biasUpdate (setShadow (setReg s d (rPbdTarget p) v) d (rPbdTarget p) v) d p code
    decide ((pb c 2 = 0 || (biasSettled s1 d p && (biasOf s1 d p).phase == .plain)))),
    -- BIAS_SET
    (
    let c := cmd (uid 0 clBias 0) ([0, 0, 1])
    let u := (uid 0 clBias 0)
    let s₀ : State := aw (uid 0 clBias 0)
    takenUp biasSetDef c s₀ u &&
    let s := taken biasSetDef c s₀ u
    let d := uDie u
    let p := uIdx u
    let code := fld c.payload 0 2
    decide (awake s u) && let v := putFld (fPbdTargetCode p) 0 code
    let s1 := biasUpdate (setShadow (setReg s d (rPbdTarget p) v) d (rPbdTarget p) v) d p code
    decide (pb c 2 ≠ 0) && decide (¬((biasSettled s1 d p && (biasOf s1 d p).phase == .plain)))),
    -- PWM_CONFIGURE
    (
    let c := cmd (uid 0 clProbe 0) (le 4 0 ++ le 4 2)
    let u := (uid 0 clProbe 0)
    let s₀ : State := aw (uid 0 clProbe 0)
    takenUp pwmConfigureDef c s₀ u &&
    let s := taken pwmConfigureDef c s₀ u
    decide (awake s u)),
    -- HKADC_CONFIGURE
    (
    let c := cmd (uid 0 clHkAdc 0) (le 4 0 ++ le 4 13)
    let u := (uid 0 clHkAdc 0)
    let s₀ : State := aw (uid 0 clHkAdc 0)
    takenUp hkadcConfigureDef c s₀ u &&
    let s := taken hkadcConfigureDef c s₀ u
    decide (awake s u))].all id) = true := by decide +kernel

theorem witness_ProbeAndProofCommandsComplete_2 :
    ([
    -- HKA_CAL_ZERO
    (
    let c := cmd (uid 0 clHkAdc 0) ([])
    let u := (uid 0 clHkAdc 0)
    let s₀ : State := aw (uid 0 clHkAdc 0)
    takenUp (calDef false) c s₀ u &&
    let s := taken (calDef false) c s₀ u
    let d := uDie u
    let h := hkaOf s d
    decide (awake s u) && decide (h.cal = none)),
    -- HKA_CAL_FS
    (
    let c := cmd (uid 0 clHkAdc 0) ([])
    let u := (uid 0 clHkAdc 0)
    let s₀ : State := setHka (aw (uid 0 clHkAdc 0)) 0 { Hka.reset with zero := [(0, some (1, 2))] }
    takenUp (calDef true) c s₀ u &&
    let s := taken (calDef true) c s₀ u
    let d := uDie u
    let h := hkaOf s d
    decide (awake s u) && decide (h.cal = none) && decide ((tget none h.zero (pb c 0)).isSome)),
    -- PROOF_CONFIGURE
    (
    let c := cmdX (uid 0 clProof 0) (le 2 1 ++ le 2 1 ++ [0, 1, 0, 0] ++ List.replicate 16 0)
    let u := (uid 0 clProof 0)
    let s₀ : State := setPll (aw (uid 0 clProof 0)) 0 7 { Pll.reset with khz := 80000 }
    takenUp proofConfigureDef c s₀ u &&
    let s := taken proofConfigureDef c s₀ u
    let rate := 2 * dpllKhz s
    decide (!(safelight s 0)) && decide (awake s u) && decide (160000 ≤ rate) && decide (rate ≤ 2500000)),
    -- LAYER_CONFIGURE
    (
    let c := cmd (uid 0 clProof 0) ([0, 0, 0, 0, 0, 0, 1, 1] ++ le 8 0 ++ le 4 64 ++ [1, 0, 1, 0])
    let u := (uid 0 clProof 0)
    let s₀ : State := sR
    takenUp layerConfigureDef c s₀ u &&
    true),
    -- PALETTE_LOAD
    (
    let c := cmd (uid 0 clProof 0) ([0, 0, 1, 0])
    let u := (uid 0 clProof 0)
    let s₀ : State := sR
    takenUp paletteLoadDef c s₀ u &&
    true),
    -- REGION_PUSH
    (
    let c := cmd (uid 0 clProof 0) ([])
    let u := (uid 0 clProof 0)
    let s₀ : State := setFlag sR 0 fPrfStatConfigured true
    takenUp regionPushDef c s₀ u &&
    let s := taken regionPushDef c s₀ u
    let l := pushRegions s c.payload
    decide (flagF s 0 fPrfStatConfigured) && decide (¬(l.any (·.isNone)))),
    -- PRF_COMMIT
    (
    let c := cmd (uid 0 clProof 0) ([])
    let u := (uid 0 clProof 0)
    let s₀ : State := setFlag sR 0 fPrfStatConfigured true
    takenUp prfCommitDef c s₀ u &&
    let s0 := taken prfCommitDef c s₀ u
    decide (flagF s0 0 fPrfStatConfigured))].all id) = true := by decide +kernel

theorem witness_PackageCommandsComplete_1 :
    ([
    -- REPAIR_APPLY
    (
    let c := cmd (uid 0 clDie 0) ([1, 0, 0, 0] ++ le 4 0 ++ le 2 0xFFFF)
    let u := (uid 0 clDie 0)
    let s₀ : State := sR
    takenUp repairApplyDef c s₀ u &&
    let s := taken repairApplyDef c s₀ u
    let d := uDie u
    let k := pb c 0
    let t := fld c.payload 4 4
    decide (targetOk s d k t) && decide ((uCls u = clDie || (k = 1 && t = uIdx u))) &&
      decide (!(swapBusy s d k t)) && (match pickSpare s d k (placeOf_ k t) (fld c.payload 8 2) with
    | some n => decide (s.pwr.record.length < 1022) && decide (k = 1)
    | _ => false)),
    -- REPAIR_APPLY
    (
    let c := cmd (uid 0 clDie 0) ([2, 0, 0, 0] ++ le 4 0 ++ le 2 0xFFFF)
    let u := (uid 0 clDie 0)
    let s₀ : State := sR
    takenUp repairApplyDef c s₀ u &&
    let s := taken repairApplyDef c s₀ u
    let d := uDie u
    let k := pb c 0
    let t := fld c.payload 4 4
    decide (targetOk s d k t) && decide ((uCls u = clDie || (k = 1 && t = uIdx u))) &&
      decide (!(swapBusy s d k t)) && (match pickSpare s d k (placeOf_ k t) (fld c.payload 8 2) with
    | some n => decide (s.pwr.record.length < 1022) && decide (k ≠ 1)
    | _ => false)),
    -- REPAIR_READ
    (
    let c := cmd pkgUid (le 8 0 ++ le 4 4096)
    let u := pkgUid
    let s₀ : State := sR
    takenUp repairReadDef c s₀ u &&
    let s := taken repairReadDef c s₀ u
    decide ((recordBytes s).length ≤ fld c.payload 8 4)),
    -- HEALTH_READ
    (
    let c := cmd (uid 0 clDie 0) (le 8 0 ++ le 4 65536 ++ [1])
    let u := (uid 0 clDie 0)
    let s₀ : State := sR
    takenUp healthReadDef c s₀ u &&
    let s := taken healthReadDef c s₀ u
    let rs := (namedDies s u).flatMap fun d => (resources s d).map fun r => (d, r.1, r.2)
    let x := healthList s (pb c 12) rs
    decide (x.1.length ≤ fld c.payload 8 4)),
    -- SAFELIGHT_ENTER
    (
    let c := cmd (uid 0 clDie 0) ([])
    let u := (uid 0 clDie 0)
    let s₀ : State := sR
    takenUp safelightEnterDef c s₀ u &&
    true),
    -- SAFELIGHT_EXIT
    (
    let c := cmd (uid 0 clDie 0) ([])
    let u := (uid 0 clDie 0)
    let s₀ : State := sR
    takenUp safelightExitDef c s₀ u &&
    let s := taken safelightExitDef c s₀ u
    let ds := namedDies s u
    decide (¬(ds.any fun d => causes s d % 8 ≠ 0))),
    -- THERMAL_CONFIGURE
    (
    let c := cmd (uid 0 clDie 0) (le 2 600 ++ le 2 850)
    let u := (uid 0 clDie 0)
    let s₀ : State := sR
    takenUp thermalConfigureDef c s₀ u &&
    true),
    -- ATTEST
    (
    let c := cmdX pkgUid (List.replicate 48 0)
    let u := pkgUid
    let s₀ : State := sR
    takenUp attestDef c s₀ u &&
    true)].all id) = true := by decide +kernel

theorem witness_PackageCommandsComplete_2 :
    ([
    -- CERT_READ
    (
    let c := cmd pkgUid ([])
    let u := pkgUid
    let s₀ : State := sR
    takenUp certReadDef c s₀ u &&
    true),
    -- MEASUREMENT_READ
    (
    let c := cmd pkgUid ([])
    let u := pkgUid
    let s₀ : State := sR
    takenUp measurementReadDef c s₀ u &&
    let s := taken measurementReadDef c s₀ u
    let l := s.sec.log.drop (fld c.payload 12 4)
    decide (l.flatten.length ≤ fld c.payload 8 4)),
    -- PORT_ECHO
    (
    let c := cmd (uid 0 clHostPort 0) ([])
    let u := (uid 0 clHostPort 0)
    let s₀ : State := sR
    takenUp portEchoDef c s₀ u &&
    true)].all id) = true := by decide +kernel

theorem witness_RingAccessesTakeEffect_1 :
    ([
    -- CMD_DOORBELL
    (
    let port : Nat := 0
    let n : Nat := 0
    let s : State := sP
    decide (live s port) && decide (portShown s port) && decide (n < 64)),
    -- CQ_DOORBELL
    (
    let port : Nat := 0
    let n : Nat := 0
    let s : State := sP
    decide (live s port) && decide (portShown s port) && decide (n < 64)),
    -- EVR_DOORBELL
    (
    let port : Nat := 0
    let s : State := sP
    decide (live s port) && decide (portShown s port)),
    -- SR_DOORBELL
    (
    let port : Nat := 0
    let r : Nat := 0
    let s : State := sP
    decide (live s port) && decide (portShown s port) && decide (r < 512)),
    -- CMD_RING_ENABLE
    (
    let port : Nat := 0
    let n : Nat := 0
    let v : W32 := 0x80000000
    let s : State := sP
    decide (live s port) && decide (portShown s port) && decide (n < 64) && decide (v.getLsbD 31)),
    -- CMD_RING_DISABLE
    (
    let port : Nat := 0
    let n : Nat := 0
    let v : W32 := 0
    let s : State := sP
    decide (live s port) && decide (portShown s port) && decide (n < 64) && decide (!v.getLsbD 31)),
    -- EVENT_RING_ENABLE
    (
    let port : Nat := 0
    let v : W32 := 0x80
    let s : State := sP
    decide (live s port) && decide (portShown s port) && decide (v.getLsbD 7)),
    -- EVENT_RING_DISABLE
    (
    let port : Nat := 0
    let v : W32 := 0
    let s : State := sP
    decide (live s port) && decide (portShown s port) && decide (!v.getLsbD 7))].all id) = true := by decide +kernel

theorem witness_RingAccessesTakeEffect_2 :
    ([
    -- STREAM_RING_ENABLE
    (
    let r : Nat := 0
    let v : W32 := 0x100
    let s : State := sP
    decide (mainShown s) && decide (r < 512) && decide (v.getLsbD 8)),
    -- STREAM_RING_DISABLE
    (
    let r : Nat := 0
    let v : W32 := 0
    let s : State := sP
    decide (mainShown s) && decide (r < 512) && decide (!v.getLsbD 8))].all id) = true := by decide +kernel

theorem witness_RingEventsTakeEffect_1 :
    ([
    -- COMMAND_FETCH
    (
    let port : Nat := 0
    let s : State := setCmdRing (setF (setF (setF (aw (portUid 0) sP) 0 (fHstCrCtlLog2Depth 0) 4) 0 (fHstCqCtlLog2Depth 0) 4) 0 (fHstCrStatState 0) rsRunning) 0 0 ⟨1⟩
    decide (live s port) && decide (s.ready) && decide (isPort s port) && decide (hostReadable s port) &&
      decide (awake s (portUid port)) && (match pickRing s port with
    | some n => true
    | _ => false)),
    -- APPLY_AT_REACHED
    (
    let s : State := { sR with host := { sR.host with flights := [{ flight0 with sched := some 5 }] } }
    (match nextSched s with
    | some f => decide (f.sched.getD 0 ≤ s.now) && decide (!strobeFirst s)
    | _ => false)),
    -- COMMAND_TIMEOUT
    (
    let id : Nat := 7
    let s : State := { sR with host := { sR.host with flights := [{ flight0 with deadline := some 5 }] } }
    (match findFlight s id with
    | some f => (match f.deadline with
    | some t => decide (f.sched.isNone) && decide (t < s.now)
    | _ => false)
    | _ => false)),
    -- RING_DRAIN_DONE
    (
    let kind : RingKind := .command
    let port : Nat := 0
    let n : Nat := 0
    let s : State := setF sP 0 (fHstCrStatState 0) rsDraining
    decide (kind = .command) && decide (isPort s port) && decide (n < 64) &&
      decide (getF s port (fHstCrStatState n) = rsDraining) &&
      decide (!(s.host.flights.any fun f => f.cmd.port = port && f.cmd.ring = n))),
    -- RING_DRAIN_DONE
    (
    let kind : RingKind := .completion
    let port : Nat := 0
    let n : Nat := 0
    let s : State := setF sP 0 (fHstCrStatState 0) rsDraining
    decide (kind = .completion) && decide (isPort s port) && decide (n < 64) &&
      decide (getF s port (fHstCrStatState n) = rsDraining) &&
      decide (!(s.host.flights.any fun f => f.cmd.port = port && f.cmd.ring = n))),
    -- RING_DRAIN_DONE
    (
    let kind : RingKind := .stream
    let n : Nat := 0
    let s : State := setF sP 0 (fHstSrStatState 0) rsDraining
    decide (kind = .stream) && decide (n < 512) && decide (getF s 0 (fHstSrStatState n) = rsDraining)),
    -- EVENT_RELEASE
    (
    let s : State := { clkOn with host := { clkOn.host with merge := [⟨0x0101, 0, 0, [], 0, false⟩] } }
    (match evFirst s.host.merge with
    | some (e, r) => decide (!(dieClk s 0).holding) && decide (!fenced s 0) && decide (released s e)
    | _ => false)),
    -- EVENT_LATE_ARRIVAL
    (
    let k : Nat := 0
    let s : State := { sR with host := { sR.host with transit := [⟨1, ⟨0x0101, 0, 0, [], 0, false⟩⟩] } }
    (match s.host.transit[k]? with
    | some x => decide (!evWaits s x.die) && decide (!fenced s 0)
    | _ => false))].all id) = true := by decide +kernel

theorem witness_RingEventsTakeEffect_2 :
    ([
    -- IRQ_TIMER_EXPIRY
    (
    let kind : RingKind := .completion
    let port : Nat := 0
    let n : Nat := 0
    let s : State := setF (setFlag (setCplRing sP 0 0 ⟨0, 0, true, 1, some 0, false⟩) 0 (fHstCqCtlIrqEn 0) true) 0 (fHstCqCtlIrqTime 0) 1
    decide (kind = .completion) && let q := cplRing s port n
    let code := getF s port (fHstCqCtlIrqTime n)
    (match q.irqAt with
    | some t => decide (isPort s port) && decide (n < 64) && decide (code ≠ 0) &&
      decide (flagF s port (fHstCqCtlIrqEn n)) && decide (t + codeTicks code < s.now)
    | _ => false)),
    -- IRQ_TIMER_EXPIRY
    (
    let kind : RingKind := .event
    let port : Nat := 0
    let s : State := setF (setFlag (setEvRing sP 0 { EvRing.reset with irqAt := some 0 }) 0 fHstEvrCtlIrqEn true) 0 fHstEvrCtlIrqTime 1
    decide (kind = .event) && let q := evRing s port
    let code := getF s port fHstEvrCtlIrqTime
    (match q.irqAt with
    | some t => decide (isPort s port) && decide (code ≠ 0) && decide (flagF s port fHstEvrCtlIrqEn) &&
      decide (t + codeTicks code < s.now)
    | _ => false)),
    -- ENVELOPE_DELIVER
    (
    let r : Nat := 3
    let s : State := setF (setStream (sP) 0 0 { streamDflt 0 with ring := some 3, spool := [env0] }) 0 (fHstSrStatState 3) rsRunning
    (match boundStream s r with
    | some k => decide (r < 512) && decide (ringServes s r) &&
      (match nextEnv (streamOf s (k / 128) (k % 128)) (strRing s r).live with
    | some (e, rs) => true
    | _ => false)
    | _ => false)),
    -- SR_FLUSH_TIMEOUT
    (
    let r : Nat := 0
    let s : State := setF (setF (setStrRing sP 0 { StrRing.reset with openBuf := true, filled := 4096 }) 0 (fHstSrStatState 0) rsRunning) 0 (fHstSrCtlFlush 0) 1
    let q := strRing s r
    let n := getF s 0 (fHstSrCtlFlush r)
    decide (r < 512) && decide (ringServes s r) && decide (q.openBuf) && decide (q.filled ≠ 0) && decide (n ≠ 0) &&
      decide (q.openedAt + codeTicks n < s.now))].all id) = true := by decide +kernel

theorem witness_RegisterAccessesTakeEffect_1 :
    ([
    -- REGISTER_WRITE
    (
    let port : Nat := 0
    let bar : Nat := 0
    let ofs : Nat := 0x8
    let dws : List (Nat × W32) := [(15, 1), (15, 2)]
    let s : State := sP
    decide (live s port) && decide (!strobeFirst s) && let l := spotsOf s port bar ofs dws.length
    decide (!l.contains .nowhere) && decide (!l.any isReserved)),
    -- REGISTER_WRITE
    (
    let port : Nat := 0
    let d : Nat := 0
    let o : Nat := 0x7104
    let be : Nat := 1
    let i : Nat := 1
    let j : Nat := 0
    let r : RegDef := rowOf 0x7104
    let s : State := sP
    decide (primaryAt s port d) && decide (o < 0x800000) && decide (o % 4 = 0) && decide (be % 16 ≠ 0) &&
      decide (windowSpot s d o = .register d r i j o) && decide (lockedBy s d r o (byteMask be).toNat = none) &&
      decide (r.rws = 0) && decide ((o < 0x30000 ∨ 0x38000 ≤ o)) && decide (o < 0x60000) &&
      decide (o ∉ [rCfgCtl, rCfgCrcRef, rCfgLockSet, rUpdStrobe]) && decide (r.ofs ≠ rPbdCtl 0) &&
      decide (byteMask be &&& BitVec.ofNat 32 r.rw ≠ 0)),
    -- REGISTER_WRITE
    (
    let port : Nat := 0
    let d : Nat := 0
    let o : Nat := 0xE004
    let be : Nat := 2
    let i : Nat := 1
    let j : Nat := 0
    let r : RegDef := rowOf 0xE004
    let s : State := sP
    decide (primaryAt s port d) && decide (o < 0x800000) && decide (o % 4 = 0) && decide (be % 16 ≠ 0) &&
      decide (windowSpot s d o = .register d r i j o) && decide (lockedBy s d r o (byteMask be).toNat = none) &&
      decide (r.rws ≠ 0) && decide (byteMask be &&& BitVec.ofNat 32 (r.rw ||| r.rws ||| r.wo1 ||| r.w1t) ≠ 0)),
    -- REGISTER_WRITE
    (
    let port : Nat := 0
    let d : Nat := 0
    let o : Nat := 0x6000
    let be : Nat := 15
    let i : Nat := 0
    let j : Nat := 0
    let b : Nat := 0
    let r : RegDef := rowOf 0x6000
    let s : State := setF sP 0 fCfgLockClasses 1
    decide (primaryAt s port d) && decide (o < 0x800000) && decide (o % 4 = 0) && decide (be % 16 ≠ 0) &&
      decide (windowSpot s d o = .register d r i j o) && decide (lockedBy s d r o (byteMask be).toNat = some b) &&
      decide (o ≠ rCfgCtl)),
    -- REGISTER_READ_CLEAR
    (
    let port : Nat := 0
    let bar : Nat := 0
    let ofs : Nat := 0x4
    let bes : List Nat := [15, 1]
    let s : State := sP
    decide (live s port) && let l := spotsOf s port bar ofs bes.length
    decide (!l.contains .nowhere) && decide (!l.any isReserved) && decide (!bes.isEmpty)),
    -- REGISTER_READ_CLEAR
    (
    let port : Nat := 0
    let d : Nat := 0
    let o : Nat := 8
    let i : Nat := 0
    let j : Nat := 0
    let r : RegDef := rowOf 8
    let s : State := sP
    decide (primaryAt s port d) && decide (o < 0x800000) && decide (o % 4 = 0) &&
      decide (windowSpot s d o = .register d r i j o) && decide (!readsFree r)),
    -- RESERVED_READ
    (
    let port : Nat := 0
    let bar : Nat := 2
    let ofs : Nat := 0xFFFC
    let bes : List Nat := [15, 15]
    let s : State := sP
    decide (live s port) && let l := spotsOf s port bar ofs bes.length
    decide (!l.contains .nowhere) && decide (l.any isReserved)),
    -- RESERVED_WRITE
    (
    let port : Nat := 0
    let bar : Nat := 0
    let ofs : Nat := 0x2C
    let dws : List (Nat × W32) := [(15, 1), (15, 1)]
    let s : State := sP
    decide (live s port) && decide (!strobeFirst s) && let l := spotsOf s port bar ofs dws.length
    decide (!l.contains .nowhere) && decide (l.any isReserved))].all id) = true := by decide +kernel

theorem witness_RegisterAccessesTakeEffect_2 :
    ([
    -- RESERVED_WRITE
    (
    let port : Nat := 0
    let bar : Nat := 2
    let ofs : Nat := 0x10000
    let d : Nat := 0
    let reason : Nat := 1
    let be : Nat := 15
    let s : State := sP
    decide (live s port) && decide (!strobeFirst s) && decide (spotOf s port bar ofs = .reserved d reason) &&
      decide (be % 16 ≠ 0)),
    -- UPD_STROBE
    (
    let port : Nat := 0
    let d : Nat := 0
    let be : Nat := 15
    let v : W32 := 1
    let s : State := sP
    decide (primaryAt s port d) && decide (byteMask be &&& v ≠ 0)),
    -- UPDATE_STROBE_APPLY
    (
    let s : State := { clkOn with strobes := [⟨0, 1, 5, [0], [], false, false⟩] }
    (match strobeTick s with
    | some t => decide (!off s) && decide (t ≤ s.now)
    | _ => false)),
    -- CFG_LOCK_SET
    (
    let port : Nat := 0
    let d : Nat := 0
    let be : Nat := 15
    let s : State := sP
    decide (primaryAt s port d) && decide (bitAt be 0)),
    -- CAPTURE_REF
    (
    let port : Nat := 0
    let d : Nat := 0
    let be : Nat := 15
    let v : W32 := 8
    let s : State := sP
    decide (primaryAt s port d) && decide (bitAt be 0) && decide (v.getLsbD 3)),
    -- CFG_CRC_REF_WRITE
    (
    let port : Nat := 0
    let d : Nat := 0
    let be : Nat := 15
    let s : State := sP
    decide (primaryAt s port d) && decide (be % 16 ≠ 0)),
    -- CFG_CRC_PASS_END
    (
    let d : Nat := 0
    let s : State := clkOn
    decide (live s d) && decide (counts s d) && decide ((cfgOf s d).passStart < s.now)),
    -- PBD_CTL_EN_CLEAR
    (
    let port : Nat := 0
    let d : Nat := 0
    let p : Nat := 0
    let be : Nat := 15
    let v : W32 := 0
    let s : State := sP
    decide (primaryAt s port d) && decide (p < 2) && decide (bitAt be 0) &&
      decide (!v.getLsbD 0))].all id) = true := by decide +kernel

theorem witness_BootEventsTakeEffect_1 :
    ([
    -- SEC_OWNER_HASH_WRITE
    (
    let port : Nat := 0
    let n : Nat := 0
    let s : State := sP
    decide (live s port) && decide (portShown s port) && decide (n < 8)),
    -- GO
    (
    let port : Nat := 0
    let s : State := sP
    decide (live s port) && decide (portShown s port)),
    -- RESET_N_ASSERT
    (
    true),
    -- RESET_N_RELEASE
    (
    let hot : Bool := false
    let s : State := { sR with pwr := { sR.pwr with held := true } }
    decide (s.pwr.held) && decide (!hot)),
    -- RAIL_CHECK_TIMEOUT
    (
    let d : Nat := 0
    let s : State := setDiePwr sB 0 { DiePwr.reset with railsWait := true }
    decide (live s d) && decide (!s.ready) && decide (!fenced s d) &&
      decide (getF s ctlPage (cfld fSecBootStatErr) ≠ 7) && decide ((diePwr s d).railsWait) &&
      decide (s.pwr.relAt + 10 * msTicks < s.now)),
    -- CRS_END
    (
    let port : Nat := 0
    let s : State := setPort sR 0 { PortSt.reset with crs := true }
    decide (live s port) && decide (isPort s port) && decide ((portOf s port).crs) && decide (!(portOf s port).perst)),
    -- BOOT_VERIFY_DONE
    (
    let s : State := setBootState sB 1 0
    decide (!off s) && decide (!s.ready) && decide (bootState s = 1)),
    -- BOOT_COMPLETE
    (
    let failed : List Nat := []
    let bist : List BistFail := []
    let s : State := setBootState (setDieClk sB 0 { DieClk.reset with running := true }) 2 0
    decide (!off s) && decide (!s.ready) && decide (bootState s = 2) &&
      decide (((dieClk s 0).running || failed.contains 0)))].all id) = true := by decide +kernel

theorem witness_BootEventsTakeEffect_2 :
    ([
    -- THERMAL_SHUTDOWN
    (
    let d : Nat := 0
    let s : State := sR
    decide (live s d) && decide (!s.pwr.down)),
    -- VDD_AON_FAULT
    (
    let d : Nat := 0
    let s : State := sR
    decide (live s d)),
    -- TAP_TCK_EDGE
    (
    let s : State := sR
    decide (!(railOf s 0 10).out))].all id) = true := by decide +kernel

theorem witness_EngineEventsTakeEffect_1 :
    ([
    -- H2E_BELL
    (
    let port : Nat := 0
    let s : State := sP
    decide (live s port) && decide (portShown s port)),
    -- E2H_ACK
    (
    let port : Nat := 0
    let s : State := sP
    decide (live s port) && decide (portShown s port)),
    -- SWAP_BEGIN
    (
    let d : Nat := 0
    let e : Nat := 0
    let s : State := setEng (sR) 0 0 { Engine.reset with swap := some ⟨16, 0, 0, 0, 1, .loaded⟩ }
    decide (live s d) && let x := engOf s d e
    (match x.swap with
    | some w => decide (e < 16) && decide (w.point ≠ 3) && decide (x.st != .swapping)
    | _ => false)),
    -- WAIT_RETURN
    (
    let d : Nat := 0
    let e : Nat := 0
    let s : State := setEng (sR) 0 0 { Engine.reset with st := .running, waiting := some (.wait 1 0 (some 5)) }
    decide (live s d) && let x := engOf s d e
    (match x.waiting with
    | some (.wait r mask dl) => let v := waitBits s d x mask
    let due := match dl with | some t => decide (t < s.now) | none => false
    decide (engClocked s d e) && decide ((v ≠ 0 || due))
    | _ => false)),
    -- SIN_RESUME
    (
    let d : Nat := 0
    let e : Nat := 0
    let s : State := setEng (code 0xC0200000) 0 0 { Engine.reset with st := .running, waiting := some .sin, ins := [{ EngIn.reset with src := 0xF0, fifo := [⟨7, 9, true⟩, ⟨8, 9, false⟩], last := some ⟨1, 2, 3, 4⟩ }] }
    decide (live s d) && decide (engClocked s d e) && decide ((engOf s d e).waiting = some .sin) &&
      let w := engWord s d e
    let r := if bits w 0 11 = 3 then takeTwo s ⟨d, e⟩ (bits w 21 5) (bits w 11 2)
          else takeOne s ⟨d, e⟩ (bits w 21 5) (bits w 11 2)
    decide (r.isSome)),
    -- SOUT_RESUME
    (
    let d : Nat := 0
    let e : Nat := 0
    let s : State := setStream (aw (streamUid 0 32) (setEng (code 0xC0000004) 0 0 { Engine.reset with st := .running, waiting := some .sout, outs := [⟨32, none⟩] })) 0 32 { streamDflt 32 with present := true, state := .rolling }
    decide (live s d) && decide (engClocked s d e) && decide ((engOf s d e).waiting = some .sout) &&
      let w := engWord s d e
    let r := soutAct (unstall s d e) ⟨d, e⟩ (bits w 21 1) (bits w 16 5) (bits w 11 5)
    (match r with | .hold _ _ => false | _ => true)),
    -- HEAP_LOAD_COMPLETE
    (
    let d : Nat := 0
    let e : Nat := 0
    let s : State := setEng (sR) 0 0 { Engine.reset with st := .running, waiting := some (.load 1 64 4) }
    decide (live s d) && (match (engOf s d e).waiting with
    | some (.load r a n) => decide (engClocked s d e)
    | _ => false)),
    -- CACHE_DONE
    (
    let d : Nat := 0
    let e : Nat := 0
    let s : State := setEng (sR) 0 0 { Engine.reset with st := .running, waiting := some (.cache true) }
    decide (live s d) && (match (engOf s d e).waiting with
    | some (.cache inval) => decide (engClocked s d e)
    | _ => false))].all id) = true := by decide +kernel

theorem witness_EngineEventsTakeEffect_2 :
    ([
    -- WATCHDOG_EXPIRY
    (
    let d : Nat := 0
    let e : Nat := 0
    let s : State := setEng (sR) 0 0 { Engine.reset with st := .running, wdog := 10 }
    decide (live s d) && let x := engOf s d e
    let waits : Bool := match x.waiting with | some (.wait _ _ _) => true | _ => false
    decide (engClocked s d e) && decide (x.wdog ≠ 0) && decide (!waits) && decide (wdogTick s d x < s.now)),
    -- ILLEGAL_INSTRUCTION
    (
    let e : Eng := ⟨0, 0⟩
    let s : State := engAt (some 0xFC000000)
    decide (live s e.die) && let x := engOf s e.die e.idx
    let w := engWord s e.die e.idx
    decide (engReady s e.die e.idx) && decide (!engLegal w))].all id) = true := by decide +kernel

theorem witness_TransferRowsTakeEffect_1 :
    ([
    -- XFER_END
    (
    let d : Nat := 0
    let c : Nat := 0
    let s : State := memWrite (setXfer (aw (xferUid 0 0)) 0 0 { Xfer.reset with st := .running }) (.prog 0) 0 (le 16 (0))
    decide (live s d) && decide (xReady s d c 0) && let w := xInstr s d (xferOf s d c).pc
    decide (restClear w)),
    -- XFER_MOVE
    (
    let d : Nat := 0
    let c : Nat := 0
    let s : State := memWrite (setXfer (aw (xferUid 0 0)) 0 0 { Xfer.reset with st := .running }) (.prog 0) 0 (le 16 (1 + 64 * 2 ^ 102 + 1 * 2 ^ 12 + 1 * 2 ^ 57))
    decide (live s d) && decide (xReady s d c 1) && let x := xferOf s d c
    let w := xInstr s d x.pc
    let m := moveOf x d w
    decide (moveLegal x d w) && decide (rangeOk s d x.port m.sspace m.src m.len) &&
      decide (rangeOk s d x.port m.dspace m.dst m.len)),
    -- XFER_LOOP
    (
    let d : Nat := 0
    let c : Nat := 0
    let s : State := memWrite (setXfer (aw (xferUid 0 0)) 0 0 { Xfer.reset with st := .running }) (.prog 0) 0 (le 16 (2))
    decide (live s d) && decide (xReady s d c 2) && let w := xInstr s d (xferOf s d c).pc
    decide (loopLegal w)),
    -- XFER_WAIT
    (
    let d : Nat := 0
    let c : Nat := 0
    let s : State := memWrite (setXfer (aw (xferUid 0 0)) 0 0 { Xfer.reset with st := .running }) (.prog 0) 0 (le 16 (3))
    decide (live s d) && decide (xReady s d c 3) && let w := xInstr s d (xferOf s d c).pc
    decide (waitLegal w)),
    -- XFER_SIGNAL
    (
    let d : Nat := 0
    let c : Nat := 0
    let s : State := memWrite (setXfer (aw (xferUid 0 0)) 0 0 { Xfer.reset with st := .running }) (.prog 0) 0 (le 16 (4))
    decide (live s d) && decide (xReady s d c 4) && let x := xferOf s d c
    let w := xInstr s d x.pc
    let sp := bits w 14 3
    let a := baseAddr x (bits w 17 2) (bits w 19 40)
    decide (!(bitAt w 7 && swapTouch s d sp a 4)) && decide (signalLegal x w) &&
      decide ((bitAt w 7 → rangeOk s d x.port sp a 4))),
    -- XFER_NOP
    (
    let d : Nat := 0
    let c : Nat := 0
    let s : State := memWrite (setXfer (aw (xferUid 0 0)) 0 0 { Xfer.reset with st := .running }) (.prog 0) 0 (le 16 (5))
    decide (live s d) && decide (xReady s d c 5) && let w := xInstr s d (xferOf s d c).pc
    decide (restClear w)),
    -- XFER_ILLEGAL_OPCODE
    (
    let d : Nat := 0
    let c : Nat := 0
    let s : State := memWrite (setXfer (aw (xferUid 0 0)) 0 0 { Xfer.reset with st := .running }) (.prog 0) 0 (le 16 (6))
    decide (live s d) && let op := xInstr s d (xferOf s d c).pc % 16
    decide (6 ≤ op) && decide (xReady s d c op)),
    -- XFR_CH_KICK
    (
    let port : Nat := 0
    let d : Nat := 0
    let c : Nat := 0
    let be : Nat := 15
    let v : W32 := 1
    let s : State := sP
    decide (live s port) && decide (portShown s port) && decide (dieShown s port d) && decide (c < 32) &&
      decide (bitAt be 0) && decide (v.getLsbD 0) && decide (!xferOwned s d c))].all id) = true := by decide +kernel

theorem witness_TransferRowsTakeEffect_2 :
    ([
    -- PAUSE_SET
    (
    let port : Nat := 0
    let d : Nat := 0
    let c : Nat := 0
    let v : W32 := 0x80000000
    let s : State := sP
    decide (live s port) && decide (portShown s port) && decide (dieShown s port d) && decide (c < 32) &&
      decide (v.getLsbD 31) && decide (!xferOwned s d c)),
    -- PAUSE_CLEAR
    (
    let port : Nat := 0
    let d : Nat := 0
    let c : Nat := 0
    let v : W32 := 0
    let s : State := sP
    decide (live s port) && decide (portShown s port) && decide (dieShown s port d) && decide (c < 32) &&
      decide (!v.getLsbD 31) && decide (!xferOwned s d c)),
    -- XFER_MOVE_RETIRE
    (
    let d : Nat := 0
    let c : Nat := 0
    let rereads : Nat := 0
    let s : State := setXfer (aw (xferUid 0 0)) 0 0 { Xfer.reset with st := .running, moving := true, move := { Xfer.reset.move with sspace := 1, dspace := 1, rem := 64, len := 64 } }
    decide (live s d) && let x := xferOf s d c
    let m := x.move
    let n := movable s d x
    decide (moveUp s d c) && decide (n ≤ movePace s x) && decide ((!m.check || rereads ≤ 2 * ceilDiv n 4096))),
    -- XFER_BEAT_ERROR
    (
    let d : Nat := 0
    let c : Nat := 0
    let cause : Nat := 5
    let done : Nat := 0
    let s : State := setXfer (aw (xferUid 0 0)) 0 0 { Xfer.reset with st := .running, moving := true, move := { Xfer.reset.move with sspace := 1, dspace := 1, rem := 64, len := 64 } }
    decide (live s d) && let x := xferOf s d c
    let sides := errSides d x.move cause
    decide (xClocked s d c) && decide (x.st == .running) && decide (x.moving) && decide (done < x.move.rem) &&
      decide ((if sides.1 then wholeBlocks x.move done else done) ≤ movable s d x) &&
      decide (done ≤ movePace s x) && decide (swapClear s d x (done + (nextBeat x.move done).2)) &&
      decide ((sides.1 || sides.2))),
    -- XFER_WAIT_RETURN
    (
    let d : Nat := 0
    let c : Nat := 0
    let s : State := setXfer (aw (xferUid 0 0)) 0 0 { Xfer.reset with st := .waiting, wait := { Xfer.reset.wait with hit := true } }
    decide (live s d) && let x := xferOf s d c
    decide (xClocked s d c) && decide (x.st == .waiting) && decide (!pausing s d c) && decide (waitHolds s x)),
    -- XFER_WAIT_TIMEOUT
    (
    let d : Nat := 0
    let c : Nat := 0
    let s : State := setXfer (aw (xferUid 0 0)) 0 0 { Xfer.reset with st := .waiting, wait := { Xfer.reset.wait with expiry := some 5 } }
    decide (live s d) && let x := xferOf s d c
    (match x.wait.expiry with
    | some t => decide (xClocked s d c) && decide (x.st == .waiting) && decide (!pausing s d c) &&
      decide (!waitHolds s x) && decide (t + (if x.wait.sel = 1 then 112 else 0) < s.now)
    | _ => false)),
    -- XFER_PAUSED
    (
    let d : Nat := 0
    let c : Nat := 0
    let moved : Nat := 0
    let s : State := setFlag (setXfer (aw (xferUid 0 0)) 0 0 { Xfer.reset with st := .running }) 0 (fXfrChCtlPause 0) true
    decide (live s d) && let x := xferOf s d c
    let n := if x.moving then moved else 0
    decide (c < 32) && decide (!(dieClk s d).holding) && decide ((n = 0 || xClocked s d c)) &&
      decide (pausing s d c) && decide ((x.st == .running || x.st == .waiting)) &&
      decide ((!x.moving || (n < x.move.rem && n ≤ movable s d x && n ≤ movePace s x &&
      (n = 0 || wholeBlocks x.move n = n) && swapClear s d x n))))].all id) = true := by decide +kernel

theorem witness_LinkEventsTakeEffect_1 :
    ([
    -- PERST_ASSERT
    (
    let port : Nat := 0
    let s : State := sP
    decide (live s port) && decide (isPort s port) && decide (!(portOf s port).perst)),
    -- PERST_RELEASE
    (
    let port : Nat := 0
    let s : State := setPort sR 0 { PortSt.reset with perst := true }
    decide (live s port) && decide (isPort s port) && decide ((portOf s port).perst)),
    -- HOST_LINK_UP
    (
    let port : Nat := 0
    let gt : Nat := 32
    let width : Nat := 16
    let s : State := setPll (aw (portUid 0) (setPort sR 0 { PortSt.reset with perst := false })) 0 6 { Pll.reset with locked := true }
    decide (live s port) &&
      let up : Bool := !s.ready || pwOf s (portUid port) == .awake || pwOf s (portUid port) == .starting
    decide (isPort s port) && decide (!(portOf s port).perst) && decide (up) &&
      decide ((!s.ready || (pllOf s port 6).locked)) && decide ((gt ∈ [8, 16, 32, 64])) &&
      decide ((width ∈ [1, 2, 4, 8, 16])) && decide ((!linkUp s port || !(portOf s port).busMaster))),
    -- HOST_LINK_DOWN
    (
    let port : Nat := 0
    let s : State := sP
    decide (live s port) && decide (isPort s port)),
    -- HOST_DETACH_TIMEOUT
    (
    let port : Nat := 0
    let s : State := setUnit (setPort sR 0 { PortSt.reset with downAt := some 0 }) (portUid 0) { Unit.reset with partner := 5 }
    decide (live s port) && decide (isPort s port)),
    -- DRIVE_PERST_RELEASE
    (
    let d : Nat := 0
    let s : State := setPll (setPort sR 0 { PortSt.reset with drive := true, perst := true, perstAt := some 0 }) 0 6 { Pll.reset with locked := true }
    decide (live s d) && let p := portOf s d
    (match p.perstAt with
    | some t => decide (p.drive) && decide (p.perst) && decide ((pllOf s d 6).locked) && decide (!fenced s d) &&
      decide (t + 100 * msTicks ≤ s.now)
    | _ => false)),
    -- PLL_RELOCK_FAIL
    (
    let d : Nat := 0
    let k : Nat := 1
    let s : State := setPll (aw (uid 0 clPll 1)) 0 1 { Pll.reset with relock := true }
    decide (live s d) && let p := pllOf s d k
    decide (k < 8) && decide ((k ≠ 7 || d = 0)) && decide (p.relock) && decide (!p.locked) &&
      decide (awake s (pllUid d k))),
    -- FPLL_LOCK_LOSS
    (
    let d : Nat := 0
    let s : State := setPll clkOn 0 0 { Pll.reset with locked := true }
    decide (live s d) && decide ((pllOf s d 0).locked) && decide ((dieClk s d).running) &&
      decide (!fenced s d))].all id) = true := by decide +kernel

theorem witness_LinkEventsTakeEffect_2 :
    ([
    -- PLL_LOCK_LOSS
    (
    let d : Nat := 0
    let k : Nat := 1
    let s : State := setPll (aw (uid 0 clPll 1)) 0 1 { Pll.reset with locked := true }
    decide (live s d) && let p := pllOf s d k
    decide (1 ≤ k) && decide (k < 8) && decide ((k ≠ 7 || d = 0)) && decide (p.locked) &&
      decide (awake s (pllUid d k))),
    -- BUS_MASTER_ENABLE_CLEAR
    (
    let port : Nat := 0
    let s : State := sP
    decide (live s port) && decide (isPort s port) && decide (linkUp s port) &&
      decide ((portOf s port).busMaster))].all id) = true := by decide +kernel

theorem witness_DriveEventsTakeEffect_1 :
    ([
    -- DRIVE_IDENTIFY_DONE
    (
    let d : Nat := 0
    let p : Nat := 0
    let s : State := aw (driveUid 0 0) (setPort sR 0 { PortSt.reset with drive := true, perst := false })
    decide (live s d) && decide (isDrive s d p) && decide (awake s (driveUid d p)) &&
      decide (!(portOf s d).perst) && decide ((driveOf s d p).info.isNone)),
    -- DRIVE_LINK_DOWN
    (
    let d : Nat := 0
    let p : Nat := 0
    let s : State := setPort sR 0 { PortSt.reset with drive := true, perst := false }
    decide (live s d) && decide (isDrive s d p)),
    -- FIXER_WRITE_ISSUE
    (
    let d : Nat := 0
    let slot : Nat := 0
    let sid : Nat := 0
    let n : Nat := 1
    let m : Nat := 0
    let v : Volume := volS
    let f : FixStream := fix0
    let s : State := setDrive (setStream (setSvc (sR) 0 0 { Svc.reset with st := .running, service := 1, vol := some volS }) 0 0 { streamDflt 0 with spool := [env0] }) 0 0 { Drive.reset with info := some drv0, enabled := true }
    decide (live s d) && decide ((svcOf s d slot).vol = some v) &&
      decide ((v.streams.find? fun f => f.sid = sid) = some f) && let nx := nextEnvs s v f
    let goes := !nx.1 && f.unitLeft ≠ 0 && hasRoom v f.unitMember 1
    decide ((if goes then some f.unitMember else nextMember v n) = some m) &&
      let unit := if goes then f.unitLeft else v.stripe
    decide (fixerRuns s d slot) && decide (v.st = 1) && decide (0 < n) && decide (n ≤ nx.2.length) &&
      decide (n ≤ unit) && decide (hasRoom v m n) && decide (fitsTransfer s d m n) && decide (queueRoom s d m v) &&
      decide (envsReach s d slot sid n)),
    -- NVME_WRITE_COMPLETE
    (
    let d : Nat := 0
    let slot : Nat := 0
    let id : Nat := 3
    let s : State := setSvc (sR) 0 0 { Svc.reset with st := .running, service := 1, vol := some { volS with writes := [⟨3, 0, 0, 0, [env0], [], false, false, 0⟩] } }
    decide (live s d) && (match (svcOf s d slot).vol with
    | some v => (match writeOf v id with
    | some w => true
    | _ => false)
    | _ => false)),
    -- NVME_WRITE_TIMEOUT
    (
    let d : Nat := 0
    let slot : Nat := 0
    let id : Nat := 3
    let s : State := setSvc (sR) 0 0 { Svc.reset with st := .running, service := 1, vol := some { volS with writes := [⟨3, 0, 0, 0, [env0], [], false, false, 0⟩] } }
    decide (live s d) && (match (svcOf s d slot).vol with
    | some v => (match writeOf v id with
    | some w => decide (w.at_ + v.timeoutMs * msTicks < s.now)
    | _ => false)
    | _ => false)),
    -- FIXER_FLUSH_TIMEOUT
    (
    let d : Nat := 0
    let slot : Nat := 0
    let s : State := setSvc (sR) 0 0 { Svc.reset with st := .running, service := 1, vol := some volS }
    decide (live s d) && (match (svcOf s d slot).vol with
    | some v => let dt := v.flushMs * msTicks
    decide (fixerRuns s d slot) && decide ((v.st = 1 || v.st = 3)) && decide (v.flushAt + dt < s.now)
    | _ => false)),
    -- SUPERBLOCK_INTERVAL
    (
    let d : Nat := 0
    let slot : Nat := 0
    let s : State := setSvc (sR) 0 0 { Svc.reset with st := .running, service := 1, vol := some volS }
    decide (live s d) && (match (svcOf s d slot).vol with
    | some v => decide (fixerRuns s d slot) && decide ((v.st = 1 || v.st = 3)) &&
      decide (v.sbAt + v.sbMs * msTicks ≤ s.now)
    | _ => false)),
    -- SMART_POLL
    (
    let d : Nat := 0
    let p : Nat := 0
    let s : State := setDrive sR 0 0 { Drive.reset with info := some drv0, smartAt := 0 }
    decide (live s d) && let g := driveOf s d p
    decide (g.info.isSome) && decide (g.smartAt + smartTicks ≤ s.now))].all id) = true := by decide +kernel

theorem witness_DriveEventsTakeEffect_2 :
    ([
    -- NVME_COMMAND_COMPLETE
    (
    let d : Nat := 0
    let p : Nat := 0
    let what : NvmeWhat := .flush
    let ok : Bool := true
    let s : State := setDrive (setSvc (sR) 0 0 { Svc.reset with st := .running, service := 1, vol := some volS }) 0 0 { Drive.reset with ops := [.flushSb 0 0 0] }
    decide (live s d) && let g := driveOf s d p
    (match g.ops with
    | op :: r => (match volOfDrive s d p with
    | some k => decide (ok) && decide (opWhat op == what)
    | _ => false)
    | _ => false))].all id) = true := by decide +kernel

theorem witness_UnitEventsTakeEffect :
    ([
    -- UNIT_START_COMPLETE
    (
    let u : Nat := (uid 0 clTdc 0)
    let s : State := setPll (setUnit sR (uid 0 clTdc 0) { Unit.reset with pw := .starting }) 0 0 { Pll.reset with locked := true }
    decide (!isGroup u) && decide (unitPresent s u) && decide (pwOf s u == .starting) && decide (uCls u ≠ clLane) &&
      decide (clockReady s u)),
    -- START_LIMIT_EXPIRY
    (
    let u : Nat := (uid 0 clTdc 0)
    let s : State := setUnit sR (uid 0 clTdc 0) { Unit.reset with pw := .starting }
    decide (!isGroup u) && decide (unitPresent s u) && decide (pwOf s u == .starting) &&
      decide ((unitOf s u).since + startLimit u < s.now)),
    -- UNIT_STOP_COMPLETE
    (
    let u : Nat := (uid 0 clTdc 0)
    let s : State := setUnit sR (uid 0 clTdc 0) { Unit.reset with pw := .stopping }
    decide (!isGroup u) && decide (unitPresent s u) && decide (pwOf s u == .stopping) && decide (drainedUnit s u)),
    -- POWER_GATE_TIMEOUT
    (
    let u : Nat := (uid 0 clEngine 0)
    let s : State := sR
    let x := unitOf s u
    decide (!isGroup u) && decide (unitPresent s u) && decide (gates u) && decide (x.pw == .asleep) &&
      decide (!x.wantStart) && decide (!x.gated) && decide (x.since + msTicks < s.now)),
    -- DOMAIN_POWER_UP_DONE
    (
    let u : Nat := (uid 0 clEngine 0)
    let s : State := setUnit sR (uid 0 clEngine 0) { Unit.reset with powering := true }
    decide (!isGroup u) && decide (unitPresent s u) && decide ((unitOf s u).powering)),
    -- LANE_ACQUIRE_ENTRY
    (
    let d : Nat := 0
    let n : Nat := 0
    let s : State := setPll (setUnit sR (uid 0 clLane 0) { Unit.reset with pw := .starting }) 0 1 { Pll.reset with locked := true }
    decide (live s d) && decide (n < 16) && decide (!faulted s d) && decide (pwOf s (laneUid d n) == .starting) &&
      decide ((pllOf s d (1 + n / 4)).locked))].all id) = true := by decide +kernel

theorem witness_LaneEventsTakeEffect_1 :
    ([
    -- SQUELCH_CHANGE
    (
    let d : Nat := 0
    let n : Nat := 0
    let on : Bool := true
    let s : State := sR
    decide (live s d) && let l := laneOf s d n
    decide (n < 16) && decide (l.signal != on)),
    -- CDR_LOCK
    (
    let d : Nat := 0
    let n : Nat := 0
    let freqOfs : W32 := 0
    let s : State := setLane (setPll (sR) 0 1 { Pll.reset with locked := true }) 0 0 { Lane.reset with state := .acquire, signal := true }
    decide (live s d) && let l := laneOf s d n
    decide (n < 16) && decide (!faulted s d) && decide (l.state == .acquire) && decide (!l.cdrLock) &&
      decide (l.signal) && decide (cdrTracks freqOfs.toInt) && decide ((pllOf s d (1 + n / 4)).locked)),
    -- ONCE_ADAPT_END
    (
    let d : Nat := 0
    let n : Nat := 0
    let s : State := setLane (sR) 0 0 { Lane.reset with state := .acquire, onceEnd := some 5 }
    decide (live s d) && let l := laneOf s d n
    (match l.onceEnd with
    | some t => decide (n < 16) && decide (!faulted s d) && decide (t ≤ s.now) && decide (l.state == .acquire)
    | _ => false)),
    -- CDR_LOCK_LOSS
    (
    let d : Nat := 0
    let n : Nat := 0
    let s : State := setLane (sR) 0 0 { Lane.reset with cdrLock := true }
    decide (live s d) && let l := laneOf s d n
    decide (n < 16) && decide (l.cdrLock)),
    -- FRAME_ALIGN_FOUND
    (
    let d : Nat := 0
    let n : Nat := 0
    let ui : List Nat := [0, 0, 1, 1, 1, 1, 1, 0, 1, 0, 1, 1, 0, 0, 0, 0, 0, 1, 0, 1, 0, 0, 1, 1, 1, 1, 1, 0, 1, 0]
    let s : State := setLane (sR) 0 0 { Lane.reset with state := .locked, framer := .b8b10 }
    decide (live s d) && let l := laneOf s d n
    (match alignFound l ui with
    | some l1 => decide (n < 16) && decide (!faulted s d) && decide (l.state == .locked)
    | _ => false)),
    -- FRAME_ALIGN_LOST
    (
    let d : Nat := 0
    let n : Nat := 0
    let s : State := setLane (sR) 0 0 { Lane.reset with state := .framed, framer := .b64b66, heads := List.replicate 16 true }
    decide (live s d) && decide (n < 16) && decide ((laneOf s d n).state == .framed) &&
      decide (alignLost (laneOf s d n))),
    -- CAPTURE_WORD
    (
    let d : Nat := 0
    let n : Nat := 0
    let ui : List Nat := []
    let s : State := setLane (sR) 0 0 { Lane.reset with state := .framed }
    decide (live s d) && let l := laneOf s d n
    decide (n < 16) && decide (!faulted s d) && decide (inAttach l) && decide (!alignLost l)),
    -- LINK_DETACH_TIMEOUT
    (
    let d : Nat := 0
    let n : Nat := 0
    let s : State := setLane (sR) 0 0 { Lane.reset with lossAt := some 0 }
    decide (live s d) && decide (n < 16))].all id) = true := by decide +kernel

theorem witness_LaneEventsTakeEffect_2 :
    ([
    -- LANE_ADAPT_END
    (
    let d : Nat := 0
    let n : Nat := 0
    let s : State := setLane (sR) 0 0 { Lane.reset with adapt := some ⟨0, 0, 5⟩ }
    decide (live s d) && let l := laneOf s d n
    (match l.adapt with
    | some a => decide (n < 16) && decide (a.endAt ≤ s.now)
    | _ => false)),
    -- DESKEW_MARKERS_SEEN
    (
    let d : Nat := 0
    let arrivals : List Nat := [0]
    let s : State := setDieClk sR 0 { DieClk.reset with autoDeskew := some ⟨0, 1, 0, 0, T + 1, 1⟩ }
    decide (live s d) && (match (dieClk s d).autoDeskew with
    | some a => decide (s.now ≤ a.endAt) && decide ((a.seen &&& a.mask) = a.mask)
    | _ => false)),
    -- DESKEW_WINDOW_TIMEOUT
    (
    let d : Nat := 0
    let s : State := setDieClk sR 0 { DieClk.reset with autoDeskew := some ⟨0, 1, 0, 0, 5, 0⟩ }
    decide (live s d) && (match (dieClk s d).autoDeskew with
    | some a => decide (a.endAt < s.now)
    | _ => false)),
    -- MONITOR_POINT_DONE
    (
    let d : Nat := 0
    let n : Nat := 0
    let s : State := setLane (sR) 0 0 { Lane.reset with state := .locked, sweep := some ⟨0, 0, 1, 0, 0, 1, 10, false, false, false, false, 0, 0, 0, 0, 0⟩ }
    decide (live s d) && let l := laneOf s d n
    (match l.sweep with
    | some w => decide (n < 16) && decide (laneLive l)
    | _ => false))].all id) = true := by decide +kernel

theorem witness_ClockEventsTakeEffect_1 :
    ([
    -- PLL_LOCK
    (
    let d : Nat := 0
    let k : Nat := 1
    let band : Nat := 0
    let s : State := setUnit sR (uid 0 clPll 1) { Unit.reset with pw := .starting }
    decide (live s d) && let p := pllOf s d k
    let st := pwOf s (pllUid d k)
    decide (k < 8) && decide ((k ≠ 7 || d = 0)) && decide (band < 32) && decide (!p.locked) &&
      decide ((st == .starting || (st == .awake && p.relock)))),
    -- PLL_STEP_REACHED
    (
    let d : Nat := 0
    let k : Nat := 1
    let s : State := setPll sR 0 1 { Pll.reset with step := some ⟨0, 0, 5⟩ }
    decide (live s d) && let p := pllOf s d k
    (match p.step with
    | some r => decide (k < 8) && decide (r.endAt ≤ s.now)
    | _ => false)),
    -- ALIGN_CHECK
    (
    let d : Nat := 1
    let s : State := setDieClk clkOn 1 { DieClk.reset with running := true, base := 1 }
    decide (live s d) && let old := dieTime s d
    let t := dieTime s 0
    decide (d ≠ 0) && decide (counts s 0) && decide (counts s d) && decide (old ≠ t)),
    -- HKCLK_TRIM
    (
    let d : Nat := 0
    let s : State := setPll sR 0 0 { Pll.reset with locked := true }
    decide (live s d) && decide ((pllOf s 0 0).locked) && decide (s.clk.ref == .present)),
    -- REFOUT_FIRST_EDGE
    (
    let s : State := { sR with clk := { sR.clk with refOut := { ClkSt.reset.refOut with startDue := true } } }
    let r := s.clk.refOut
    decide (r.startDue) && decide (!r.on) && decide (!(dieClk s 0).holding)),
    -- REFOUT_PERIOD_END
    (
    let s : State := { sR with clk := { sR.clk with refOut := { ClkSt.reset.refOut with on := true, stopDue := true } } }
    let r := s.clk.refOut
    decide (r.on) && decide (r.stopDue)),
    -- REFCLK_LOST
    (
    let s : State := clkOn
    decide (s.clk.ref != .lost) && decide ((dieClk s 0).running)),
    -- REFCLK_RETURNED
    (
    let s : State := { sR with clk := { sR.clk with ref := .lost } }
    decide (s.clk.ref == .lost))].all id) = true := by decide +kernel

theorem witness_ClockEventsTakeEffect_2 :
    ([
    -- REF_RETURN_APPLY
    (
    let j : Int := 5
    let s : State := { sR with clk := { sR.clk with ref := .returning } }
    decide (s.clk.ref == .returning) && decide (-4480 ≤ j) && decide (j ≤ 4479)),
    -- SYNC_IN_EDGE
    (
    let s : State := clkOn
    decide ((dieClk s 0).running)),
    -- SYNC_ALIGN_APPLY
    (
    let s : State := { sR with clk := { sR.clk with edge := some ⟨⟨true, false, false, 0, 0⟩, 0, false, 0, 5⟩ } }
    (match s.clk.edge with
    | some e => decide (e.applyAt ≤ s.now)
    | _ => false)),
    -- SYNC_OUT_REPEAT
    (
    let s : State := { sR with clk := { sR.clk with outs := [5] } }
    (match s.clk.outs with
    | t :: r => decide (t ≤ s.now)
    | _ => false)),
    -- SYNC_PEER_ATTACH
    (
    true),
    -- SYNC_PEER_DETACH
    (
    true),
    -- SYNC_IN_DRIVE_CHANGE
    (
    let driven : Bool := true
    let s : State := { sR with clk := { sR.clk with syncDriven := false } }
    decide (s.clk.syncDriven != driven)),
    -- DLL_LOCK
    (
    let d : Nat := 0
    let inl : List Byte := []
    let s : State := setPll sR 0 0 { Pll.reset with locked := true }
    decide (live s d) && decide ((pllOf s d 0).locked))].all id) = true := by decide +kernel

theorem witness_ClockEventsTakeEffect_3 :
    ([
    -- DLL_LOCK_LOSS
    (
    let d : Nat := 0
    let s : State := setTdc sR 0 { Tdc.reset with dll := true }
    decide (live s d) && decide ((tdcOf s d).dll)),
    -- TDC_START_EDGE
    (
    let d : Nat := 0
    let src : Nat := 1
    let arg : Nat := 0
    let s : State := setTdc sR 0 { Tdc.reset with arm := some ⟨1, 2, 100, [(1, 2)], none, [none], [], 0⟩ }
    decide (live s d) && (match (tdcOf s d).arm with
    | some a => decide (a.startSrc = src) && decide (src < 7) && decide (argOk a.startArg arg)
    | _ => false)),
    -- TDC_STOP_EDGE
    (
    let d : Nat := 0
    let n : Nat := 0
    let s : State := setTdc sR 0 { Tdc.reset with arm := some ⟨1, 2, 100, [(1, 2)], none, [none], [], 0⟩ }
    decide (live s d) && (match (tdcOf s d).arm with
    | some a => let src := ((a.stops[n]?).getD (0, 0)).1
    decide (n < 8) && decide (1 ≤ src) && decide (src < 7)
    | _ => false)),
    -- TDC_WINDOW_CLOSE
    (
    let d : Nat := 0
    let s : State := setTdc sR 0 { Tdc.reset with arm := some ⟨1, 2, 100, [(1, 2)], some ⟨1, 0, false⟩, [none], [], 0⟩ }
    decide (live s d) && let t := tdcOf s d
    (match t.arm with
    | some a => let wait := if a.stops.any (fun x => x.1 = 7) then 112 else 0
    (match a.start with
    | some st => decide (t.openAt + a.window + wait ≤ s.now)
    | _ => false)
    | _ => false)),
    -- HBM_RETRAINING_DONE
    (
    let d : Nat := 0
    let s : State := setDieClk sR 0 { DieClk.reset with hbmTrain := true }
    decide (live s d) && let c := dieClk s d
    decide (c.hbmTrain))].all id) = true := by decide +kernel

theorem witness_ShutterEventsTakeEffect_1 :
    ([
    -- TRIG_IN_EDGE
    (
    let n : Nat := 0
    decide (n < 4)),
    -- TRIG_IN_FILTER_EXPIRY
    (
    let n : Nat := 0
    let s : State := setTrigIn sR 0 { TrigIn.reset with pendEdge := some ⟨true, 0, false⟩, pendAt := 5 }
    let x := trigInOf s n
    (match x.pendEdge with
    | some e => decide (x.pendAt < s.now)
    | _ => false)),
    -- SEQUENCER_EVALUATE
    (
    let s : State := { sR with sht := { sR.sht with cands := [⟨0, 0, 0, 0, 0, false, 256⟩] } }
    (match nextCandTick s with
    | some t => decide (!(dieClk s 0).holding) && decide (t + 48 ≤ s.now) && decide (noExpiryBefore s t)
    | _ => false)),
    -- SEQUENCER_TIMER_EXPIRY
    (
    let q : Nat := 0
    let k : Nat := 0
    let e : Nat := 5
    let s : State := setSeq (aw (uid 0 clSeq 0) clkOn) 0 { Sequencer.reset with armed := true, timers := [.running 5] }
    decide ((timerDue s q k = some e ∨ (timerDue s q k = none ∧ timerDue s (16 + q) k = some e)))),
    -- TRIG_OUT_EDGE
    (
    let n : Nat := 0
    let s : State := setTrigOut sR 0 { TrigOut.reset with pend := [⟨5, true, false, ⟨1, false, 1, 0, 0, 0⟩⟩] }
    let x := trigOutOf s n
    (match x.pend with
    | e :: r => decide ((x.idles.head?.all fun p => e.at_ < p.1 * 256)) && decide (e.at_ ≤ s.now * 256 + 255)
    | _ => false)),
    -- TRIG_OUT_EDGE
    (
    let n : Nat := 0
    let s : State := setTrigOut sR 0 { TrigOut.reset with idles := [(5, false)] }
    let x := trigOutOf s n
    (match x.idles with
    | (t, v) :: q => decide ((x.pend.head?.all fun e => t * 256 ≤ e.at_)) && decide (t ≤ s.now)
    | _ => false)),
    -- TRIG_OUT_PULSE_END
    (
    let n : Nat := 0
    let s : State := setTrigOut sR 0 { TrigOut.reset with pulseEnd := some 5 }
    let x := trigOutOf s n
    (match x.pulseEnd with
    | some t => decide (t ≤ s.now * 256 + 255)
    | _ => false)),
    -- SHUTTER_EVENT_ARRIVAL
    (
    let s : State := { sR with sht := { sR.sht with events := [⟨0, 0, none, false, false, 0, 0, 0, 0, 0, false⟩] } }
    (match firstEvent s.sht.events with
    | some e => decide (!off s) && decide (e.phys / 256 + 112 ≤ s.now)
    | _ => false))].all id) = true := by decide +kernel

theorem witness_ShutterEventsTakeEffect_2 :
    ([
    -- LEVEL_CROSSING
    (
    let d : Nat := 0
    let k : Nat := 0
    let xa : Int := 0
    let xb : Int := 10
    let ta : Stamp := 0
    let tb : Stamp := 256
    let s : State := setCmp sR 0 2 { Comparator.reset with cfg := ⟨true, 0, 0, 0, 0, 0, 5, 0⟩, found := [⟨0, 10, 0, 256⟩] }
    decide (live s d) && let m := cmpOf s d (2 + k)
    let g := m.cfg
    let x : Crossing := ⟨xa, xb, ta, tb⟩
    decide (k < 2) && decide (g.enable) && decide (g.mode = 0) && (match m.found with
    | y :: rest => decide (x = y)
    | _ => false)),
    -- LEVEL_CROSSING
    (
    let d : Nat := 0
    let k : Nat := 0
    let xa : Int := 0
    let xb : Int := 10
    let low : Int := 0
    let high : Int := 10
    let s : State := setCmp (setLane sR 0 0 { Lane.reset with state := .locked }) 0 2 { Comparator.reset with cfg := ⟨true, 1, 0, 0, 0, 0, 5, 0⟩, wasBelow := true }
    decide (live s d) && let m := cmpOf s d (2 + k)
    let g := m.cfg
    let m1 := passBounds m low high
    let up := risesAt g xa xb && m1.wasBelow
    let down := fallsAt g xa xb && m1.wasAbove
    decide (k < 2) && decide (g.enable) && decide (g.mode ≠ 0) && decide (cmpInput s d g) &&
      decide ((up || down)))].all id) = true := by decide +kernel

theorem witness_CaptureEventsTakeEffect_1 :
    ([
    -- ENTRY_COMMIT
    (
    let d : Nat := 0
    let i : Nat := 0
    let s : State := sR
    decide (live s d) && decide (i < 96) && let x := streamOf s d i
    decide (!((dieClk s d).holding))),
    -- ENV_FLUSH_TIMEOUT
    (
    let d : Nat := 0
    let i : Nat := 0
    let s : State := setStream (sR) 0 0 { streamDflt 0 with envFlush := 1, openEnv := some { env0 with words := [⟨0, 0, false⟩] } }
    decide (live s d) && let x := streamOf s d i
    (match x.openEnv with
    | some o => decide (i < 96) && decide (x.envFlush ≠ 0) && decide (!o.words.isEmpty) &&
      decide (x.openedAt + codeTicks x.envFlush ≤ s.now) && decide (!(x.look.any (headDue s i)))
    | _ => false)),
    -- REARM_OPEN
    (
    let d : Nat := 0
    let i : Nat := 16
    let s : State := setStream (sR) 0 16 { streamDflt 16 with state := .rearm, slots := 1000, pre := 0, post := 1, seg := { (streamDflt 16).seg with left := 1 } }
    decide (live s d) && let x := streamOf s d i
    let m := measOf s d (expoIdx i)
    (match tOpen x m with
    | some t => decide (isExpo i) && decide (t + 256 ≤ s.now) && decide (!(x.look.any fun e => e.phys / 256 < t))
    | _ => false)),
    -- SEGMENT_COMPLETE
    (
    let d : Nat := 0
    let i : Nat := 16
    let k : Closing := ⟨0, [], [], 0, 0, 0, 0, false, false, MeasCfg.reset, false, false, none, 0⟩
    let r : List Closing := []
    let s : State := setStream (sR) 0 16 { streamDflt 16 with closing := [⟨0, [], [], 0, 0, 0, 0, false, false, MeasCfg.reset, false, false, none, 0⟩] }
    decide (live s d) && decide ((streamOf s d i).closing = k :: r) && decide (isExpo i) && decide (k.need = false)),
    -- DENSITOMETER_READBACK_DONE
    (
    let d : Nat := 0
    let c : Nat := 0
    let s : State := setStream (sR) 0 16 { streamDflt 16 with closing := [⟨0, [], [], 0, 0, 0, 0, false, false, MeasCfg.reset, true, false, none, 0⟩] }
    decide (live s d) && let i := expoOf c
    let x := streamOf s d i
    (match x.closing.find? (·.need) with
    | some k => decide (c < 2) && decide (measureDue s d c k)
    | _ => false)),
    -- RAW_TAP_SAMPLES
    (
    let d : Nat := 0
    let c : Nat := 0
    let k : Nat := 0
    let xs : List Int := List.replicate 16 0
    let stamps : List Stamp := List.replicate 16 0
    let s : State := setChain (setPll (setDieClk (aw (uid 0 clLane 0)) 0 { DieClk.reset with running := true }) 0 1 { Pll.reset with locked := true, baseRate := 10000000 }) 0 0 { Chain.reset with lane := some 0 }
    decide (live s d) && let ts := stamps.map (fineStamp s)
    (match rowLane s d c ts with
    | some n => decide (tapRowOk s d c n k ts)
    | _ => false)),
    -- SETTLING_END
    (
    let d : Nat := 0
    let c : Nat := 0
    let s : State := setChain (clkOn) 0 0 { Chain.reset with st := .settling, held := [⟨0, 0, 0, 0, 0, none, none, none, none⟩] }
    decide (live s d) && let x := chainOf s d c
    (match x.held with
    | o :: r => decide (c < 2) && decide (x.st == .settling)
    | _ => false)),
    -- CHAIN_INPUT_LOST
    (
    let d : Nat := 0
    let c : Nat := 0
    let s : State := setChain (sR) 0 0 { Chain.reset with lane := some 0 }
    decide (live s d) && let x := chainOf s d c
    decide (c < 2) && decide (x.lane.isSome) && decide (!x.lost) &&
      decide (!inputOk s d c))].all id) = true := by decide +kernel

theorem witness_CaptureEventsTakeEffect_2 :
    ([
    -- CHAIN_INPUT_RETURN
    (
    let d : Nat := 0
    let c : Nat := 0
    let s : State := setChain (setPll (setDieClk (aw (uid 0 clLane 0)) 0 { DieClk.reset with running := true }) 0 1 { Pll.reset with locked := true, baseRate := 10000000 }) 0 0 { Chain.reset with lane := some 0, lost := true }
    decide (live s d) && let x := chainOf s d c
    (match x.lane with
    | some n => decide (c < 2) && decide (tapOk s d n) && decide ((x.lost || x.st == .noInput))
    | _ => false)),
    -- SPECTRUM_DONE
    (
    let d : Nat := 0
    let c : Nat := 0
    let s : State := setChain (clkOn) 0 0 { Chain.reset with done := [⟨Chain.reset.cfg, 0, List.replicate 256 (0, 0), nowStamp clkOn 0, 0, 0, false, false, true, false⟩] }
    decide (live s d) && let x0 := chainOf s d c
    (match x0.done with
    | r :: rest => let tick := binPlace s d r (lastCompared (cmpSetting s d c r.mid).1 r.smps.length) / 256
    decide (c < 2) && decide (tick ≤ s.now)
    | _ => false)),
    -- SHEET_EXPORT_DONE
    (
    let d : Nat := 0
    let k : Nat := 0
    let s : State := setAcc sR 0 0 { Acc.reset with exporting := some ⟨0, 0, false, 0, 0, [], 0, 0, false, 0, 0, 0, 0, 0⟩ }
    decide (live s d) && let a := accOf s d k
    (match a.exporting with
    | some x => decide (k < 2) && decide (!incComing s d k x.snapPhys)
    | _ => false)),
    -- STRIP_START
    (
    let d : Nat := 0
    let n : Nat := 0
    let s0 : State := setCal (setPll (setDieClk (aw (uid 0 clLane 0)) 0 { DieClk.reset with running := true }) 0 1 { Pll.reset with locked := true, baseRate := 10000000 }) 0 0 { Cal.reset with mode := 2, phase := .inactive }
    decide (live s0 d) && let s := calSync s0 d n
    let x := calOf s d n
    decide (n < 16) && decide (calActive s d n) && decide (stripDue s x)),
    -- STRIP_WINDOW_END
    (
    let d : Nat := 0
    let n : Nat := 0
    let k : Nat := 0
    let xs : List Int := []
    let last : Stamp := nowStamp clkOn 0
    let s0 : State := setCal (setLane (setPll (setDieClk (aw (uid 0 clLane 0)) 0 { DieClk.reset with running := true }) 0 1 { Pll.reset with locked := true, baseRate := 10000000 }) 0 0 { Lane.reset with state := .locked, signal := true }) 0 0 { Cal.reset with mode := 2, phase := .estimate, winFrom := 255999953023796 }
    decide (live s0 d) && let s := calSync s0 d n
    let x := calOf s d n
    let ph := physFine s d (fineStamp s last)
    decide (n < 16) && decide ((x.phase == .estimate || x.phase == .confirm)) && decide (windowFull s d n k ph)),
    -- STRIP_EVALUATE
    (
    let d : Nat := 0
    let n : Nat := 0
    let s0 : State := setCal (setPll (setDieClk (aw (uid 0 clLane 0)) 0 { DieClk.reset with running := true }) 0 1 { Pll.reset with locked := true, baseRate := 10000000 }) 0 0 { Cal.reset with mode := 2, phase := .judging 5 }
    decide (live s0 d) && let s := calSync s0 d n
    let x := calOf s d n
    (match x.phase with
    | .judging t => decide (n < 16) && decide (t ≤ s.now) && decide (!schedDue s d t)
    | _ => false)),
    -- GAP_IDLE_APPLY
    (
    let d : Nat := 0
    let n : Nat := 0
    let s0 : State := setCal (setPll (setDieClk (aw (uid 0 clLane 0)) 0 { DieClk.reset with running := true }) 0 1 { Pll.reset with locked := true, baseRate := 10000000 }) 0 0 { Cal.reset with mode := 2, phase := .pending, waitEnd := T }
    decide (live s0 d) && let s := calSync s0 d n
    let x := calOf s d n
    decide (n < 16) && decide (x.phase == .pending) && decide (calIdle s d n) && decide (s.now ≤ x.waitEnd)),
    -- GAP_WAIT_EXPIRY
    (
    let d : Nat := 0
    let n : Nat := 0
    let s0 : State := setLane (setChain (setCal (setPll (setDieClk (aw (uid 0 clLane 0)) 0 { DieClk.reset with running := true }) 0 1 { Pll.reset with locked := true, baseRate := 10000000 }) 0 0 { Cal.reset with mode := 2, phase := .pending, waitEnd := 5 }) 0 0 { Chain.reset with lane := some 0, st := .running }) 0 0 { Lane.reset with state := .locked, signal := true }
    decide (live s0 d) && let s := calSync s0 d n
    let x := calOf s d n
    decide (n < 16) && decide (x.phase == .pending) && decide (x.waitEnd ≤ s.now) &&
      decide ((x.waitEnd < s.now || !calIdle s d n)))].all id) = true := by decide +kernel

theorem witness_CaptureEventsTakeEffect_3 :
    ([
    -- STALE_INTERVAL_END
    (
    let d : Nat := 0
    let n : Nat := 0
    let s : State := setCal sR 0 0 { Cal.reset with staleOn := true, staleAt := 5 }
    decide (live s d) && let x := calOf s d n
    decide (n < 16) && decide (x.staleOn) && decide (x.staleAt + 256 ≤ s.now))].all id) = true := by decide +kernel

theorem witness_RepairEventsTakeEffect :
    ([
    -- SRAM_SCRUB
    (
    let d : Nat := 0
    let e : Nat := 0
    let bad : List (Bool × Nat) := []
    let s : State := sR
    decide (live s d) && decide (e < 16) && decide (!fenced s d)),
    -- SWAP_COMPLETE
    (
    let d : Nat := 0
    let e : Nat := 0
    let ecc : Option Nat := none
    let s : State := setEng (sR) 0 0 { Engine.reset with st := .swapping, swap := some ⟨16, 0, 0, 0, 1, .loaded⟩ }
    decide (live s d) && let x := engOf s d e
    (match x.swap with
    | some w => decide (e < 16) && decide (x.st == .swapping)
    | _ => false)),
    -- HBM_SCRUB_PASS
    (
    let d : Nat := 0
    let errs : List (Nat × Nat × Bool) := []
    let s : State := sR
    decide (live s d) && decide (s.ready) && decide (!fenced s d) && decide ((diePwr s d).scrubAt + 2 ^ 36 ≤ s.now)),
    -- HEALTH_CHECK
    (
    let d : Nat := 0
    let kind : Nat := 1
    let target : Nat := 0
    let monitor : Nat := 1
    let value : Nat := 0
    let s : State := sR
    decide (live s d) && decide (s.ready) && decide (!fenced s d) && decide (monitors monitor kind) &&
      decide (resourceOk s d kind target) && decide (value < 2 ^ 32)),
    -- HBM_COPY_DONE
    (
    let d : Nat := 0
    let s : State := { sR with pwr := { sR.pwr with swaps := [⟨2, 0, 0, 0, none, 0, 0⟩] } }
    decide (live s d) && (match (s.pwr.swaps.find? fun w => w.kind = 2 && w.die = d) with
    | some w => true
    | _ => false)),
    -- UFL_LANE_RETRAIN_DONE
    (
    let d : Nat := 0
    let p : Nat := 0
    let s : State := { sR with pwr := { sR.pwr with swaps := [⟨3, 0, 0, 0, none, 0, 0⟩] } }
    decide (live s d) && (match (s.pwr.swaps.find? fun w => w.kind = 3 && w.die = d && w.target / 256 = p) with
    | some w => true
    | _ => false)),
    -- UFL_LANE_FAIL
    (
    let d : Nat := 0
    let p : Nat := 0
    let lane : Nat := 0
    let s : State := sR
    decide (live s d) && decide (s.ready) && decide (!fenced s d) && decide (targetOk s d 3 (256 * p + lane)) &&
      decide (lane < 32)),
    -- FLIT_CRC_ERROR
    (
    let d : Nat := 0
    let p : Nat := 0
    let s : State := sR
    decide (live s d) && decide (!fenced s d) && decide (p < 4) &&
      decide ((uflPartner (nDies s) d p).isSome))].all id) = true := by decide +kernel

theorem witness_ProbeAndProofEventsTakeEffect_1 :
    ([
    -- PROBE_PRES_CHANGE
    (
    let d : Nat := 0
    let p : Nat := 0
    let high : Bool := false
    let s : State := setProbe (sR) 0 0 { Probe.reset with pin := true }
    decide (live s d) && decide (p < 2) && let x := probeOf s d p
    decide (x.pin != high)),
    -- PROBE_PRESENCE_TIMEOUT
    (
    let d : Nat := 0
    let p : Nat := 0
    let s : State := setProbe (sR) 0 0 { Probe.reset with pin := false, since := 0 }
    decide (live s d) && decide (p < 2) && let x := probeOf s d p
    decide (!x.pin) && decide (!x.discovering) && decide (!probeHere s d p) &&
      decide (x.since + presTicks s d ≤ s.now)),
    -- PROBE_DISCOVERY_DONE
    (
    let d : Nat := 0
    let p : Nat := 0
    let one : Option (List Byte) := none
    let two : Option (List Byte) := none
    let s : State := setProbe (sR) 0 0 { Probe.reset with discovering := true }
    decide (live s d) && decide (p < 2) && let x := probeOf s d p
    decide (x.discovering)),
    -- PROBE_REMOVAL_TIMEOUT
    (
    let d : Nat := 0
    let p : Nat := 0
    let s : State := setProbe (setUnit sR (uid 0 clProbe 0) { Unit.reset with partner := 2 }) 0 0 { Probe.reset with pin := true, since := 0 }
    decide (live s d) && decide (p < 2) && let x := probeOf s d p
    decide (x.pin) && decide (probeHere s d p) && decide (x.since + presTicks s d < s.now)),
    -- EEPROM_READ_DONE
    (
    let d : Nat := 0
    let p : Nat := 0
    let bytes : List Byte := []
    let s : State := setProbe (sR) 0 0 { Probe.reset with read := some (0, 0, 0, 0) }
    decide (live s d) && decide (p < 2) && (match (probeOf s d p).read with
    | some r => true
    | _ => false)),
    -- BIAS_SLEW_STEP
    (
    let d : Nat := 0
    let p : Nat := 0
    let s : State := setBias (aw (uid 0 clBias 0)) 0 0 { Bias.reset with driving := true, code := 0, target := 9 }
    decide (live s d) && decide (p < 2) && let b := biasOf s d p
    let goal := biasGoal s d p
    let due := b.stepAt + hkMin s d (getF s d (fPbdCfgIntervalM1 p) + 1)
    decide (b.driving) && decide (b.code ≠ goal) && decide (b.hold.isNone) && decide (due ≤ s.now)),
    -- DEGLITCH_HOLD_END
    (
    let d : Nat := 0
    let p : Nat := 0
    let s : State := setBias (aw (uid 0 clBias 0)) 0 0 { Bias.reset with hold := some (0, 0) }
    decide (live s d) && decide (p < 2) && let b := biasOf s d p
    (match b.hold with
    | some h => decide (h.1 + hkMin s d 25 ≤ s.now)
    | _ => false)),
    -- BIAS_RANGE_HIGHZ_END
    (
    let d : Nat := 0
    let p : Nat := 0
    let s : State := setBias (aw (uid 0 clBias 0)) 0 0 { Bias.reset with phase := .gap }
    decide (live s d) && decide (p < 2) && let b := biasOf s d p
    decide (b.phase == .gap) && decide (b.gapAt + hkMin s d 125 ≤ s.now))].all id) = true := by decide +kernel

theorem witness_ProbeAndProofEventsTakeEffect_2 :
    ([
    -- BIAS_LIMIT_CHANGE
    (
    let d : Nat := 0
    let p : Nat := 0
    let on : Bool := true
    let s : State := setBias (aw (uid 0 clBias 0)) 0 0 { Bias.reset with driving := true }
    decide (live s d) && decide (p < 2) && let b := biasOf s d p
    decide (b.driving) && decide (biasRange s d p < 2) && decide (b.limit.on != on)),
    -- BIAS_LIMIT_TRIP
    (
    let d : Nat := 0
    let p : Nat := 0
    let s : State := setF (setBias (aw (uid 0 clBias 0)) 0 0 { Bias.reset with driving := true, limit := ⟨true, none, false⟩ }) 0 (fPbdCtlTripMs 0) 1
    decide (live s d) && decide (p < 2) && let b := biasOf s d p
    let ms := getF s d (fPbdCtlTripMs p)
    decide (b.driving) && decide (b.limit.on) && decide (ms ≠ 0) &&
      decide (b.limitAt + hkMin s d (ms * 12500) < s.now)),
    -- BIAS_COMPLIANCE_CHANGE
    (
    let d : Nat := 0
    let p : Nat := 0
    let on : Bool := true
    let s : State := setF (setBias (aw (uid 0 clBias 0)) 0 0 { Bias.reset with driving := true }) 0 (fPbdCfgRange 0) 2
    decide (live s d) && decide (p < 2) && let b := biasOf s d p
    decide (b.driving) && decide (2 ≤ biasRange s d p) && decide (b.compl.on != on)),
    -- BIAS_REPORT_HOLDOFF_END
    (
    let d : Nat := 0
    let p : Nat := 0
    let s : State := sR
    decide (live s d) && decide (p < 2)),
    -- PWM_EDGE
    (
    let d : Nat := 0
    let p : Nat := 0
    let s : State := pwm0
    decide (live s d) && decide (p < 2) && let w := pwmOf s d p
    let g := pwmCfg s d p
    decide (w.running) && decide (w.past = false) && decide (g.2.2.2 < g.2.2.1) &&
      decide (w.start + hkMin s d g.2.2.2 ≤ s.now)),
    -- HK_TIMER
    (
    let d : Nat := 0
    let s : State := setF (setHka (aw (uid 0 clHkAdc 0)) 0 { Hka.reset with timerAt := 0 }) 0 fHkaCfgSource 1
    decide (live s d) && let h := hkaOf s d
    let t := h.timerAt + hkMin s d (getF s d fHkaPeriodPeriod)
    decide (awake s (hkaUid d)) && decide (getF s d fHkaCfgSource = 1) && decide (t ≤ s.now)),
    -- HK_DELAY_END
    (
    let d : Nat := 0
    let s : State := setHka (aw (uid 0 clHkAdc 0)) 0 { Hka.reset with delayEnd := some 5 }
    decide (live s d) && let h := hkaOf s d
    (match h.delayEnd with
    | some t => decide (t ≤ s.now)
    | _ => false)),
    -- HK_CONVERSION_END
    (
    let d : Nat := 0
    let s : State := setHka (aw (uid 0 clHkAdc 0)) 0 { Hka.reset with conv := some ⟨0, 0, 0, false⟩ }
    decide (live s d) && let h := hkaOf s d
    (match h.conv with
    | some v => decide (v.at_ + usTicks * (1000 - hkTol s d) / 1000 ≤ s.now)
    | _ => false))].all id) = true := by decide +kernel

theorem witness_ProbeAndProofEventsTakeEffect_3 :
    ([
    -- TE_EDGE
    (
    let s : State := sR
    decide (flagF s 0 fPrfLinkTeTimer = false)),
    -- TE_TIMER_EXPIRY
    (
    let s : State := setFlag sR 0 fPrfLinkTeTimer true
    decide (flagF s 0 fPrfLinkTeTimer) && decide (nextTimerEdge s ≤ s.now)),
    -- INIT_DELAY_EXPIRY
    (
    let s : State := { sR with prf := { PrfSt.reset with waitAt := some 5, init := [.delay 0] } }
    let t : Nat := 5
    let k := .delay 0
    let r := []
    decide (s.prf.waitAt = some t) && decide (s.prf.init = k :: r) && decide (t ≤ s.now)),
    -- PUSH_BEGIN
    (
    let s : State := { sR with prf := { PrfSt.reset with comp := some { compo0 with cur := 0 } } }
    (match s.prf.comp with
    | some k => let nx := if k.pushing then k.cur + 1 else k.cur
    (match k.regions[nx]? with
    | some r => let safe := flagF s 0 fPrfStatMode
    decide ((!k.pushing || regionSent s k)) && decide ((if safe then k.left.isEmpty &&
      composeTime s k k.regions.length 0 else composeTime s k nx 8))
    | _ => false)
    | _ => false)),
    -- PUSH_LINE_READY
    (
    let s : State := { sR with prf := { PrfSt.reset with comp := some { compo0 with pushing := true, line := 0 } } }
    (match s.prf.comp with
    | some k => (match k.regions[k.cur]? with
    | some r => decide (k.pushing) && decide (k.line < r.h) && decide (burstEnd s k ≤ s.now)
    | _ => false)
    | _ => false)),
    -- PUSH_END
    (
    let s : State := { sR with prf := { PrfSt.reset with comp := some { compo0 with pushing := true, line := 1 } } }
    (match s.prf.comp with
    | some k => decide (regionSent s k) && decide (k.cur + 1 = k.regions.length) && decide (k.left.isEmpty)
    | _ => false)),
    -- LAYER_READ_DONE
    (
    let l : Nat := 2
    let s : State := { sR with prf := { PrfSt.reset with comp := some { compo0 with left := [2] } } }
    (match s.prf.comp with
    | some k => decide (k.left.contains l)
    | _ => false)),
    -- INIT_LIST_SENT
    (
    let s : State := { sR with prf := { PrfSt.reset with running := some 3 } }
    decide (s.prf.running.isSome) && decide (s.prf.waitAt.isNone))].all id) = true := by decide +kernel

theorem witness_PowerEventsTakeEffect_1 :
    ([
    -- TEMP_SAMPLE
    (
    let d : Nat := 0
    let t : Int := 0
    let s : State := sR
    decide (live s d) && let x := diePwr s d
    decide (!fenced s d) && decide (!s.pwr.down) && decide (!s.pwr.held) &&
      decide ((!x.sampled || x.sampleAt + hkMin s d 1250 ≤ s.now)) && decide (-32768 ≤ t) && decide (t ≤ 32767)),
    -- THROTTLE_TIMER
    (
    let d : Nat := 0
    let s : State := setF (setDiePwr sR 0 { DiePwr.reset with hotAt := some 0 }) 0 fPwrStatThrottle 1
    decide (live s d) && let x := diePwr s d
    let l := throttle s d
    (match x.hotAt with
    | some h => decide (l < 3) && decide (0 < l) && decide (h + msTicks < s.now)
    | _ => false)),
    -- THROTTLE_TIMER
    (
    let d : Nat := 0
    let s : State := setF (setDiePwr sR 0 { DiePwr.reset with coolAt := some 0 }) 0 fPwrStatThrottle 1
    decide (live s d) && let x := diePwr s d
    let l := throttle s d
    decide (x.hotAt = none) && (match x.coolAt with
    | some c => decide (0 < l) && decide (c + 10 * msTicks < s.now)
    | _ => false)),
    -- RAIL_LEAVES_WINDOW
    (
    let d : Nat := 0
    let rail : Nat := 1
    let mv : Nat := 0
    let above : Bool := false
    let deep : Bool := false
    let s : State := sR
    decide (live s d) && let r := railReads s d rail mv above deep
    decide (railOk rail) && decide (r.1)),
    -- SUPPLY_FAULT_DETECT
    (
    let d : Nat := 0
    let rail : Nat := 1
    let s : State := setRail sR 0 1 { Rail.reset with out := true, since := 0 }
    decide (live s d) && let x := railOf s d rail
    decide (railOk rail) && decide (!fenced s d) && decide (x.out) && decide (!x.faulted) &&
      decide (x.since + 10 * usTicks < s.now)),
    -- SUPPLY_RETURN_TIMEOUT
    (
    let d : Nat := 0
    let s : State := setF (setDiePwr sR 0 { DiePwr.reset with backAt := some 0 }) 0 fPwrStatCauses 2
    decide (live s d) && let x := diePwr s d
    (match x.backAt with
    | some t => decide (!fenced s d) && decide (railsIn s d) && decide (bitAt (causes s d) 1) &&
      decide (t + 10 * msTicks < s.now)
    | _ => false)),
    -- SUPPLY_FENCE_TIMEOUT
    (
    let d : Nat := 0
    let rail : Nat := 1
    let s : State := setRail sR 0 1 { Rail.reset with out := true, deep := true }
    decide (live s d) && let x := railOf s d rail
    decide (railOk rail) && decide (!fenced s d) && decide (x.out) && decide ((x.deep || (x.faulted &&
      x.since + 100 * msTicks < s.now)))),
    -- RAIL_RETURNS_TO_WINDOW
    (
    let d : Nat := 0
    let rail : Nat := 1
    let mv : Nat := 750
    let s : State := setRail sR 0 1 { Rail.reset with out := true }
    decide (live s d) && decide (railOk rail) && decide ((railOf s d rail).out) &&
      decide ((rail ≠ 1 || !(railReads s d 1 mv false false).1)))].all id) = true := by decide +kernel

theorem witness_PowerEventsTakeEffect_2 :
    ([
    -- VDD_CORE_REQUEST
    (
    let d : Nat := 0
    let up : Bool := true
    let s : State := sV
    decide (live s d) && let x := diePwr s d
    let mv := getF s d fPwrStatCoreMv
    let v := if up then mv + 5 else mv - 5
    decide (!fenced s d) && decide (650 ≤ v) && decide (v ≤ 850) &&
      decide (x.coreAt + 100 * usTicks ≤ s.now))].all id) = true := by decide +kernel

def imgCmd : Cmd := cmd (engUid 0 0) (le 8 0 ++ le 4 876)
def imgTaken : State := taken imageLoadDef imgCmd sI (engUid 0 0)
theorem imgTaken_read :
    readImage imgTaken imgCmd.port (fld imgCmd.payload 0 8) (fld imgCmd.payload 8 4) = imgBytes := by
  have hp : imgCmd.port = 0 := by decide +kernel
  have ha : fld imgCmd.payload 0 8 = 0 := by decide +kernel
  have hn : fld imgCmd.payload 8 4 = imgBytes.length := by decide +kernel
  rw [hp, ha, hn]
  exact readImage_cells imgTaken 0 imgBytes (by decide +kernel) (by decide +kernel)

def svcCmd : Cmd :=
  cmdX (uid 0 clDie 0) ([0, 0, 1, 0] ++ le 4 0 ++ le 8 0 ++ le 4 876 ++ le 12 0 ++ [1, 0, 0, 0, 0, 0, 0, 0] ++ [255, 255, 255, 255, 255, 255, 0, 0])
def svcTaken : State := taken serviceStartDef svcCmd sI (uid 0 clDie 0)
theorem svcTaken_req :
    svcReq svcTaken svcCmd = ⟨0, 1, 0, [[255, 255, 255, 255, 255, 255, 0, 0]], [], imgBytes, none⟩ := by
  have hp : svcCmd.port = 0 := by decide +kernel
  have ha : fld svcCmd.payload 8 8 = 0 := by decide +kernel
  have hn : fld svcCmd.payload 16 4 = imgBytes.length := by decide +kernel
  have hi : readImage svcTaken 0 0 imgBytes.length = imgBytes :=
    readImage_cells svcTaken 0 imgBytes (by decide +kernel) (by decide +kernel)
  unfold svcReq
  simp only [hp, ha, hn, hi, SvcReq.mk.injEq]
  decide +kernel

/-- IMAGE_LOAD of the signed image. -/
theorem witness_EngineCommandsComplete_image :
    let s := imgTaken
    let p := readImage s imgCmd.port (fld imgCmd.payload 0 8) (fld imgCmd.payload 8 4)
    takenUp imageLoadDef imgCmd sI (engUid 0 0) = true ∧ (engOf s 0 0).slot = none ∧ (engOf s 0 0).st = .empty ∧
      awake s (engUid 0 0) = true ∧ hostReadable s imgCmd.port = true ∧ imgFault s [2, 3, 4] p = none ∧
      heapFits s 0 0 (imgHeap p) = true := by
  intro s p
  have hp : p = imgBytes := imgTaken_read
  rw [hp]
  decide +kernel
/-- SERVICE_START of an instance of one engine from the same image. -/
theorem witness_EngineCommandsComplete_service :
    let s := svcTaken
    let r := svcReq s svcCmd
    takenUp serviceStartDef svcCmd sI (uid 0 clDie 0) = true ∧ safelight s 0 = false ∧ (svcOf s 0 0).st = .none ∧
      hostReadable s svcCmd.port = true ∧ svcFaultReason s 3 r.img = none ∧
      r.dec.bind (fun q => (svcFaultReason s 4 q).map fun f => (q, f)) = none ∧ svcStartFail s 0 r = none := by
  intro s r
  have hr : r = _ := svcTaken_req
  rw [hr]
  decide +kernel

/-- A command passes the checks of R78. -/
theorem checkCmd_pass {df : CmdDef} {c : Cmd} {s : State} (h2 : flagsOk c = true) (h3 : idFormOk c.unit = true)
    (h3' : unitPresent s c.unit = true)
    (h4 : (if df.onGroup && isGroup c.unit then classOk df c.unit
      else (expansion s c.unit).all fun u => classOk df u) = true) (h5 : df.payOk s c = true) : checkCmd df c s = none := by
  simp only [checkCmd, h2, h3, h3', h4, h5, Bool.not_true, Bool.false_eq_true, if_false]

/-- The payload of CAL_LOAD passes check 5 where it suits its one unit. -/
theorem calLoad_pay {c : Cmd} {s : State} {u : Nat}
    (hn : (decide (c.payload.length = 256) || decide (c.payload.length = 4096)) = true)
    (he : expansion s c.unit = [u]) (hok : calLoadOk c u = true) : calLoadDef.payOk s c = true := by
  show ((decide (c.payload.length = 256) || decide (c.payload.length = 4096)) && fitsSome s c (calLoadOk c)) = true
  simp only [hn, fitsSome, he, List.any_cons, hok, Bool.true_or, Bool.or_true, Bool.and_self]

/-- A CAL record of lane 0 with every coefficient 0 (R339). -/
def calHead : List Byte := le 2 0x4354 ++ [1, 0]
def calZero : List Byte := List.replicate 31 0
def calBody : List Byte :=
  calHead ++ calZero ++ calZero ++ calZero ++ calZero ++ calZero ++ calZero ++ calZero ++ calZero
def calRec : List Byte := calBody ++ le 4 0x786E4F98

theorem crcUpdate_append (c : W32) (p q : List Byte) : crcUpdate c (p ++ q) = crcUpdate (crcUpdate c p) q := by
  induction p generalizing c with
  | nil => rfl
  | cons b r ih => simp [crcUpdate, ih]

theorem calBody_crc : crc32c calBody = 0x786E4F98 := by
  have h0 : crcUpdate 0xFFFFFFFF calHead = 0xB091B3CC := by decide +kernel
  have h1 : crcUpdate 0xB091B3CC calZero = 0x09CEB370 := by decide +kernel
  have h2 : crcUpdate 0x09CEB370 calZero = 0x95E24261 := by decide +kernel
  have h3 : crcUpdate 0x95E24261 calZero = 0x47440165 := by decide +kernel
  have h4 : crcUpdate 0x47440165 calZero = 0x627FA53D := by decide +kernel
  have h5 : crcUpdate 0x627FA53D calZero = 0x20B9CC91 := by decide +kernel
  have h6 : crcUpdate 0x20B9CC91 calZero = 0xCA7D8480 := by decide +kernel
  have h7 : crcUpdate 0xCA7D8480 calZero = 0x28CBF047 := by decide +kernel
  have h8 : crcUpdate 0x28CBF047 calZero = 0x8791B067 := by decide +kernel
  simp only [crc32c, calBody, crcUpdate_append, h0, h1, h2, h3, h4, h5, h6, h7, h8]
  decide

theorem calRec_ok : recordOk 0 calRec = true := by
  have h : calRec.take 252 = calBody := by decide +kernel
  unfold recordOk
  rw [h, calBody_crc]
  decide +kernel

/-- CAL_LOAD of that record to a lane that sleeps. -/
theorem witness_MeasurementCommandsComplete_calLoad :
    let c := cmdX (uid 0 clLane 0) calRec
    let u := uid 0 clLane 0
    let s := taken calLoadDef c sR u
    takenUp calLoadDef c sR u = true ∧ calLoadOk c u = true ∧
      ((calLanes u).any fun n => pwOf s (laneUid 0 n) != .asleep) = false := by
  intro c u s
  have hl : calLanes u = [0] := by decide +kernel
  have hp : recordPart c 0 = calRec := by decide +kernel
  have hr : ((List.range (calLanes u).length).all fun j => recordOk (((calLanes u)[j]?).getD 0) (recordPart c j)) = true := by
    rw [hl]
    show (recordOk 0 (recordPart c 0) && true) = true
    rw [hp, calRec_ok]
    rfl
  have hok : calLoadOk c u = true := by
    have hn : (decide (c.payload.length = 256 * (calLanes u).length)) = true := by decide +kernel
    have hd : ∀ n, 16 * uDie u + n = n := fun n => by rw [show uDie u = 0 by decide +kernel, Nat.mul_zero, Nat.zero_add]
    simp only [calLoadOk, hn, hd, Bool.true_and]
    exact hr
  have he : expansion sR c.unit = [u] := by decide +kernel
  have hpay : calLoadDef.payOk sR c = true := calLoad_pay (u := u) (by decide +kernel) he hok
  have hc : checkCmd calLoadDef c sR = none :=
    checkCmd_pass (by decide +kernel) (by decide +kernel) (by decide +kernel) (by decide +kernel) hpay
  refine ⟨?_, hok, by decide +kernel⟩
  unfold takenUp
  rw [hc]
  decide +kernel

end

end Sys2Proof.Tests
end

namespace Sys2Proof.Machine

/-! ## Memory: what a read gives after a write (R4) -/

@[simp] theorem readList_length (s : State) (a n : Nat) : (readList s a n).length = n := by
  induction n generalizing a with
  | zero => rfl
  | succ n ih => simp [readList, ih]

theorem readList_getElem (s : State) (a n i : Nat) (h : i < (readList s a n).length) :
    (readList s a n)[i] = readByte s (a + i) := by
  induction n generalizing a i with
  | zero => simp [readList] at h
  | succ n ih =>
    cases i with
    | zero => rfl
    | succ i =>
      have hi : i < (readList s (a + 1) n).length := Nat.lt_of_succ_lt_succ h
      rw [← Nat.add_assoc, Nat.add_right_comm]
      exact ih (a + 1) i hi

/-- The bytes written to a region are read back. -/
theorem memRead_memWrite (s : State) (r : Region) (a : Nat) (bs : List Byte) :
    memRead (memWrite s r a bs) r a bs.length = bs := by
  refine List.ext_getElem (readList_length ..) fun i _ hi => ?_
  calc (memRead (memWrite s r a bs) r a bs.length)[i]
      = readByte (memWrite s r a bs) (regionBase r + a + i) := readList_getElem ..
    _ = bs[i] := writeList_read bs s.mem _ i _ (List.getElem?_eq_getElem hi)

@[simp] theorem leBytes_length (n v : Nat) : (leBytes n v).length = n := by
  induction n generalizing v with
  | zero => rfl
  | succ n ih => simp [leBytes, ih]

/-- Byte `i` of a number has the weight `256 ^ i` (R4). -/
theorem leBytes_getElem? {n i : Nat} (v : Nat) (h : i < n) : (leBytes n v)[i]? = some (BitVec.ofNat 8 (v / 256 ^ i)) := by
  induction n generalizing v i with
  | zero => omega
  | succ n ih =>
    cases i with
    | zero => simp [leBytes]
    | succ i => simp [leBytes, ih _ (Nat.lt_of_succ_lt_succ h), Nat.div_div_eq_div_mul, Nat.pow_succ']

/-- `leNat` is the inverse of `leBytes` on the numbers that fit. -/
theorem leNat_leBytes (n v : Nat) : leNat (leBytes n v) = v % 256 ^ n := by
  induction n generalizing v with
  | zero => simp [leBytes, leNat, Nat.mod_one]
  | succ n ih => simp [leBytes, leNat, ih, Nat.pow_succ', Nat.mod_mul]

theorem memNat_memWrite (s : State) (r : Region) (a n v : Nat) :
    memNat (memWrite s r a (leBytes n v)) r a n = v % 256 ^ n := by
  have h := memRead_memWrite s r a (leBytes n v)
  rw [leBytes_length] at h
  rw [memNat, h, leNat_leBytes]

/-- Settles O51: each byte written is found at its address, and the little-endian bytes of a number spell it again. -/
theorem memoryReadsBackLittleEndian : Obligations.MemoryReadsBackLittleEndian :=
  ⟨fun s r a bs => ⟨memRead_memWrite s r a bs, fun _ h => readByte_memWrite_other s r a bs h⟩,
    fun _ v _ h => leBytes_getElem? v h, memNat_memWrite, fun _ _ _ bs h => writeList_wf bs _ h⟩

/-! ## Reset (R9) -/

/-- Settles O36: at reset every table is unlisted, so each reader gives its unlisted value. -/
theorem resetValues : Obligations.ResetValues :=
  ⟨fun _ _ => rfl, fun _ _ => rfl, fun _ => rfl, rfl, rfl, rfl, fun _ => rfl, fun _ => ite_self _, rfl, rfl⟩

/-! ## What a step keeps (R3, R4, log entry 5) -/

/-- No row changes the part, the time or the queue, and each keeps the memory canonical. -/
theorem exec_keeps (i : Instr) (s : State) : OutKeeps s (exec i s) :=
  match i with
  | .unitEnumerate c => keeps_execUnitEnumerate c (keeps_refl s)
  | .unitQuery c => keeps_execUnitQuery c (keeps_refl s)
  | .unitWake c => keeps_execUnitWake c (keeps_refl s)
  | .unitSleep c => keeps_execUnitSleep c (keeps_refl s)
  | .unitClearFault c => keeps_execUnitClearFault c (keeps_refl s)
  | .groupCreate c => keeps_execGroupCreate c (keeps_refl s)
  | .groupAdd c => keeps_execGroupAdd c (keeps_refl s)
  | .groupRemove c => keeps_execGroupRemove c (keeps_refl s)
  | .groupDelete c => keeps_execGroupDelete c (keeps_refl s)
  | .groupList c => keeps_execGroupList c (keeps_refl s)
  | .laneConfigure c => keeps_execLaneConfigure c (keeps_refl s)
  | .laneSetFramer c => keeps_execLaneSetFramer c (keeps_refl s)
  | .laneSetEqualiser c => keeps_execLaneSetEqualiser c (keeps_refl s)
  | .laneAdapt c => keeps_execLaneAdapt c (keeps_refl s)
  | .laneDeskew c => keeps_execLaneDeskew c (keeps_refl s)
  | .monitorSweep c => keeps_execMonitorSweep c (keeps_refl s)
  | .laneReadStatus c => keeps_execLaneReadStatus c (keeps_refl s)
  | .pllConfigure c => keeps_execPllConfigure c (keeps_refl s)
  | .pllStep c => keeps_execPllStep c (keeps_refl s)
  | .refoutStart c => keeps_execRefoutStart c (keeps_refl s)
  | .refoutStop c => keeps_execRefoutStop c (keeps_refl s)
  | .timeRead c => keeps_execTimeRead c (keeps_refl s)
  | .syncArm c => keeps_execSyncArm c (keeps_refl s)
  | .refSetMode c => keeps_execRefSetMode c (keeps_refl s)
  | .tdcArm c => keeps_execTdcArm c (keeps_refl s)
  | .tdcRead c => keeps_execTdcRead c (keeps_refl s)
  | .captureConfigure c => keeps_execCaptureConfigure c (keeps_refl s)
  | .captureArm c => keeps_execCaptureArm c (keeps_refl s)
  | .captureDisarm c => keeps_execCaptureDisarm c (keeps_refl s)
  | .rollStart c => keeps_execRollStart c (keeps_refl s)
  | .rollStop c => keeps_execRollStop c (keeps_refl s)
  | .spoolAllocate c => keeps_execSpoolAllocate c (keeps_refl s)
  | .streamBind c => keeps_execStreamBind c (keeps_refl s)
  | .streamUnbind c => keeps_execStreamUnbind c (keeps_refl s)
  | .blockResend c => keeps_execBlockResend c (keeps_refl s)
  | .markInsert c => keeps_execMarkInsert c (keeps_refl s)
  | .rateLimitSet c => keeps_execRateLimitSet c (keeps_refl s)
  | .recordRead c => keeps_execRecordRead c (keeps_refl s)
  | .matcherLoad c => keeps_execMatcherLoad c (keeps_refl s)
  | .negstoreLoad c => keeps_execNegstoreLoad c (keeps_refl s)
  | .negstoreClear c => keeps_execNegstoreClear c (keeps_refl s)
  | .comparatorConfigure c => keeps_execComparatorConfigure c (keeps_refl s)
  | .sequencerLoad c => keeps_execSequencerLoad c (keeps_refl s)
  | .sequencerArm c => keeps_execSequencerArm c (keeps_refl s)
  | .sequencerDisarm c => keeps_execSequencerDisarm c (keeps_refl s)
  | .shutterFire c => keeps_execShutterFire c (keeps_refl s)
  | .triginConfigure c => keeps_execTriginConfigure c (keeps_refl s)
  | .trigoutConfigure c => keeps_execTrigoutConfigure c (keeps_refl s)
  | .shutterReadCounters c => keeps_execShutterReadCounters c (keeps_refl s)
  | .chainConfigure c => keeps_execChainConfigure c (keeps_refl s)
  | .chainSelectLane c => keeps_execChainSelectLane c (keeps_refl s)
  | .chainStart c => keeps_execChainStart c (keeps_refl s)
  | .chainStop c => keeps_execChainStop c (keeps_refl s)
  | .maskLoad c => keeps_execMaskLoad c (keeps_refl s)
  | .dcblockFreeze c => keeps_execDcblockFreeze c (keeps_refl s)
  | .measureConfigure c => keeps_execMeasureConfigure c (keeps_refl s)
  | .sheetConfigure c => keeps_execSheetConfigure c (keeps_refl s)
  | .sheetClear c => keeps_execSheetClear c (keeps_refl s)
  | .sheetExport c => keeps_execSheetExport c (keeps_refl s)
  | .calConfigure c => keeps_execCalConfigure c (keeps_refl s)
  | .calLoad c => keeps_execCalLoad c (keeps_refl s)
  | .calSave c => keeps_execCalSave c (keeps_refl s)
  | .calHold c => keeps_execCalHold c (keeps_refl s)
  | .imageLoad c => keeps_execImageLoad c (keeps_refl s)
  | .imageUnload c => keeps_execImageUnload c (keeps_refl s)
  | .engineStart c => keeps_execEngineStart c (keeps_refl s)
  | .engineStop c => keeps_execEngineStop c (keeps_refl s)
  | .engineReadState c => keeps_execEngineReadState c (keeps_refl s)
  | .serviceStart c => keeps_execServiceStart c (keeps_refl s)
  | .serviceStop c => keeps_execServiceStop c (keeps_refl s)
  | .serviceQuery c => keeps_execServiceQuery c (keeps_refl s)
  | .volumeCreate c => keeps_execVolumeCreate c (keeps_refl s)
  | .volumeClose c => keeps_execVolumeClose c (keeps_refl s)
  | .xferLoad c => keeps_execXferLoad c (keeps_refl s)
  | .xferStart c => keeps_execXferStart c (keeps_refl s)
  | .xferPause c => keeps_execXferPause c (keeps_refl s)
  | .xferResume c => keeps_execXferResume c (keeps_refl s)
  | .xferReset c => keeps_execXferReset c (keeps_refl s)
  | .eepromRead c => keeps_execEepromRead c (keeps_refl s)
  | .biasConfigure c => keeps_execBiasConfigure c (keeps_refl s)
  | .biasSet c => keeps_execBiasSet c (keeps_refl s)
  | .pwmConfigure c => keeps_execPwmConfigure c (keeps_refl s)
  | .hkadcConfigure c => keeps_execHkadcConfigure c (keeps_refl s)
  | .hkaCalZero c => keeps_execHkaCalZero c (keeps_refl s)
  | .hkaCalFs c => keeps_execHkaCalFs c (keeps_refl s)
  | .proofConfigure c => keeps_execProofConfigure c (keeps_refl s)
  | .layerConfigure c => keeps_execLayerConfigure c (keeps_refl s)
  | .paletteLoad c => keeps_execPaletteLoad c (keeps_refl s)
  | .regionPush c => keeps_execRegionPush c (keeps_refl s)
  | .prfCommit c => keeps_execPrfCommit c (keeps_refl s)
  | .repairApply c => keeps_execRepairApply c (keeps_refl s)
  | .repairRead c => keeps_execRepairRead c (keeps_refl s)
  | .healthRead c => keeps_execHealthRead c (keeps_refl s)
  | .safelightEnter c => keeps_execSafelightEnter c (keeps_refl s)
  | .safelightExit c => keeps_execSafelightExit c (keeps_refl s)
  | .thermalConfigure c => keeps_execThermalConfigure c (keeps_refl s)
  | .attest c => keeps_execAttest c (keeps_refl s)
  | .certRead c => keeps_execCertRead c (keeps_refl s)
  | .measurementRead c => keeps_execMeasurementRead c (keeps_refl s)
  | .portEcho c => keeps_execPortEcho c (keeps_refl s)
  | .commandFetch port descOk extOk => keeps_execCommandFetch port descOk extOk (keeps_refl s)
  | .applyAtReached => keeps_execApplyAtReached (keeps_refl s)
  | .commandTimeout id => keeps_execCommandTimeout id (keeps_refl s)
  | .cmdDoorbell port n v => keeps_execCmdDoorbell port n v (keeps_refl s)
  | .cqDoorbell port n v => keeps_execCqDoorbell port n v (keeps_refl s)
  | .evrDoorbell port v => keeps_execEvrDoorbell port v (keeps_refl s)
  | .srDoorbell port r v => keeps_execSrDoorbell port r v (keeps_refl s)
  | .cmdRingEnable port n v => keeps_execCmdRingEnable port n v (keeps_refl s)
  | .cmdRingDisable port n v => keeps_execCmdRingDisable port n v (keeps_refl s)
  | .eventRingEnable port v => keeps_execEventRingEnable port v (keeps_refl s)
  | .eventRingDisable port v => keeps_execEventRingDisable port v (keeps_refl s)
  | .streamRingEnable r v => keeps_execStreamRingEnable r v (keeps_refl s)
  | .streamRingDisable r v => keeps_execStreamRingDisable r v (keeps_refl s)
  | .ringDrainDone kind port n => keeps_execRingDrainDone kind port n (keeps_refl s)
  | .eventRelease => keeps_execEventRelease (keeps_refl s)
  | .eventLateArrival k => keeps_execEventLateArrival k (keeps_refl s)
  | .irqTimerExpiry kind port n => keeps_execIrqTimerExpiry kind port n (keeps_refl s)
  | .envelopeDeliver r readOk => keeps_execEnvelopeDeliver r readOk (keeps_refl s)
  | .srFlushTimeout r => keeps_execSrFlushTimeout r (keeps_refl s)
  | .registerWrite port bar ofs dws => keeps_execRegisterWrite port bar ofs dws (keeps_refl s)
  | .registerReadClear port bar ofs bes => keeps_execRegisterReadClear port bar ofs bes (keeps_refl s)
  | .reservedRead port bar ofs bes => keeps_execReservedRead port bar ofs bes (keeps_refl s)
  | .reservedWrite port bar ofs dws => keeps_execReservedWrite port bar ofs dws (keeps_refl s)
  | .updStrobe port d be v => keeps_execUpdStrobe port d be v (keeps_refl s)
  | .updateStrobeApply => keeps_execUpdateStrobeApply (keeps_refl s)
  | .cfgLockSet port d be v => keeps_execCfgLockSet port d be v (keeps_refl s)
  | .captureRef port d be v => keeps_execCaptureRef port d be v (keeps_refl s)
  | .cfgCrcRefWrite port d be v => keeps_execCfgCrcRefWrite port d be v (keeps_refl s)
  | .cfgCrcPassEnd d => keeps_execCfgCrcPassEnd d (keeps_refl s)
  | .secOwnerHashWrite port n be v => keeps_execSecOwnerHashWrite port n be v (keeps_refl s)
  | .go port be v => keeps_execGo port be v (keeps_refl s)
  | .h2eBell port d e v => keeps_execH2eBell port d e v (keeps_refl s)
  | .e2hAck port d e => keeps_execE2hAck port d e (keeps_refl s)
  | .xfrChKick port d c be v => keeps_execXfrChKick port d c be v (keeps_refl s)
  | .pauseSet port d c v => keeps_execPauseSet port d c v (keeps_refl s)
  | .pauseClear port d c v => keeps_execPauseClear port d c v (keeps_refl s)
  | .pbdCtlEnClear port d p be v => keeps_execPbdCtlEnClear port d p be v (keeps_refl s)
  | .resetNAssert => keeps_execResetNAssert (keeps_refl s)
  | .resetNRelease straps hot => keeps_execResetNRelease straps hot (keeps_refl s)
  | .railCheckTimeout d => keeps_execRailCheckTimeout d (keeps_refl s)
  | .crsEnd port => keeps_execCrsEnd port (keeps_refl s)
  | .bootVerifyDone => keeps_execBootVerifyDone (keeps_refl s)
  | .bootComplete failed bist => keeps_execBootComplete failed bist (keeps_refl s)
  | .perstAssert port => keeps_execPerstAssert port (keeps_refl s)
  | .perstRelease port => keeps_execPerstRelease port (keeps_refl s)
  | .hostLinkUp port gt width => keeps_execHostLinkUp port gt width (keeps_refl s)
  | .hostLinkDown port => keeps_execHostLinkDown port (keeps_refl s)
  | .hostDetachTimeout port => keeps_execHostDetachTimeout port (keeps_refl s)
  | .drivePerstRelease d => keeps_execDrivePerstRelease d (keeps_refl s)
  | .driveIdentifyDone d p info => keeps_execDriveIdentifyDone d p info (keeps_refl s)
  | .driveLinkDown d p => keeps_execDriveLinkDown d p (keeps_refl s)
  | .unitStartComplete u => keeps_execUnitStartComplete u (keeps_refl s)
  | .startLimitExpiry u => keeps_execStartLimitExpiry u (keeps_refl s)
  | .unitStopComplete u => keeps_execUnitStopComplete u (keeps_refl s)
  | .powerGateTimeout u => keeps_execPowerGateTimeout u (keeps_refl s)
  | .domainPowerUpDone u => keeps_execDomainPowerUpDone u (keeps_refl s)
  | .squelchChange d n on => keeps_execSquelchChange d n on (keeps_refl s)
  | .laneAcquireEntry d n => keeps_execLaneAcquireEntry d n (keeps_refl s)
  | .cdrLock d n freqOfs => keeps_execCdrLock d n freqOfs (keeps_refl s)
  | .onceAdaptEnd d n eq => keeps_execOnceAdaptEnd d n eq (keeps_refl s)
  | .cdrLockLoss d n => keeps_execCdrLockLoss d n (keeps_refl s)
  | .frameAlignFound d n ui stamp => keeps_execFrameAlignFound d n ui stamp (keeps_refl s)
  | .frameAlignLost d n stamp => keeps_execFrameAlignLost d n stamp (keeps_refl s)
  | .captureWord d n ui stamp stamp2 => keeps_execCaptureWord d n ui stamp stamp2 (keeps_refl s)
  | .linkDetachTimeout d n => keeps_execLinkDetachTimeout d n (keeps_refl s)
  | .laneAdaptEnd d n eq => keeps_execLaneAdaptEnd d n eq (keeps_refl s)
  | .monitorPointDone d n count => keeps_execMonitorPointDone d n count (keeps_refl s)
  | .deskewMarkersSeen d arrivals => keeps_execDeskewMarkersSeen d arrivals (keeps_refl s)
  | .deskewWindowTimeout d => keeps_execDeskewWindowTimeout d (keeps_refl s)
  | .pllLock d k band => keeps_execPllLock d k band (keeps_refl s)
  | .pllRelockFail d k => keeps_execPllRelockFail d k (keeps_refl s)
  | .fpllLockLoss d => keeps_execFpllLockLoss d (keeps_refl s)
  | .pllLockLoss d k => keeps_execPllLockLoss d k (keeps_refl s)
  | .pllStepReached d k => keeps_execPllStepReached d k (keeps_refl s)
  | .alignCheck d => keeps_execAlignCheck d (keeps_refl s)
  | .hkclkTrim d err code => keeps_execHkclkTrim d err code (keeps_refl s)
  | .refoutFirstEdge => keeps_execRefoutFirstEdge (keeps_refl s)
  | .refoutPeriodEnd => keeps_execRefoutPeriodEnd (keeps_refl s)
  | .refclkLost why lastGood => keeps_execRefclkLost why lastGood (keeps_refl s)
  | .refclkReturned => keeps_execRefclkReturned (keeps_refl s)
  | .refReturnApply j => keeps_execRefReturnApply j (keeps_refl s)
  | .syncInEdge arrival halfTick => keeps_execSyncInEdge arrival halfTick (keeps_refl s)
  | .syncAlignApply => keeps_execSyncAlignApply (keeps_refl s)
  | .syncOutRepeat => keeps_execSyncOutRepeat (keeps_refl s)
  | .syncPeerAttach => keeps_execSyncPeerAttach (keeps_refl s)
  | .syncPeerDetach => keeps_execSyncPeerDetach (keeps_refl s)
  | .dllLock d inl => keeps_execDllLock d inl (keeps_refl s)
  | .dllLockLoss d => keeps_execDllLockLoss d (keeps_refl s)
  | .tdcStartEdge d src arg cap tap => keeps_execTdcStartEdge d src arg cap tap (keeps_refl s)
  | .tdcStopEdge d n cap tap => keeps_execTdcStopEdge d n cap tap (keeps_refl s)
  | .tdcWindowClose d => keeps_execTdcWindowClose d (keeps_refl s)
  | .trigInEdge n rising cap tap => keeps_execTrigInEdge n rising cap tap (keeps_refl s)
  | .trigInFilterExpiry n => keeps_execTrigInFilterExpiry n (keeps_refl s)
  | .levelCrossing d k xa xb ta tb low high => keeps_execLevelCrossing d k xa xb ta tb low high (keeps_refl s)
  | .sequencerEvaluate => keeps_execSequencerEvaluate (keeps_refl s)
  | .sequencerTimerExpiry q k => keeps_execSequencerTimerExpiry q k (keeps_refl s)
  | .shutterEventArrival => keeps_execShutterEventArrival (keeps_refl s)
  | .trigOutEdge n => keeps_execTrigOutEdge n (keeps_refl s)
  | .trigOutPulseEnd n => keeps_execTrigOutPulseEnd n (keeps_refl s)
  | .entryCommit d n => keeps_execEntryCommit d n (keeps_refl s)
  | .envFlushTimeout d n => keeps_execEnvFlushTimeout d n (keeps_refl s)
  | .rearmOpen d n => keeps_execRearmOpen d n (keeps_refl s)
  | .segmentComplete d n => keeps_execSegmentComplete d n (keeps_refl s)
  | .densitometerReadbackDone d c => keeps_execDensitometerReadbackDone d c (keeps_refl s)
  | .rawTapSamples d c k xs stamps => keeps_execRawTapSamples d c k xs stamps (keeps_refl s)
  | .settlingEnd d c => keeps_execSettlingEnd d c (keeps_refl s)
  | .spectrumDone d c => keeps_execSpectrumDone d c (keeps_refl s)
  | .chainInputLost d c firstMissing => keeps_execChainInputLost d c firstMissing (keeps_refl s)
  | .chainInputReturn d c => keeps_execChainInputReturn d c (keeps_refl s)
  | .sheetExportDone d k => keeps_execSheetExportDone d k (keeps_refl s)
  | .stripStart d n => keeps_execStripStart d n (keeps_refl s)
  | .stripWindowEnd d n k xs last => keeps_execStripWindowEnd d n k xs last (keeps_refl s)
  | .stripEvaluate d n => keeps_execStripEvaluate d n (keeps_refl s)
  | .gapIdleApply d n => keeps_execGapIdleApply d n (keeps_refl s)
  | .gapWaitExpiry d n => keeps_execGapWaitExpiry d n (keeps_refl s)
  | .staleIntervalEnd d n => keeps_execStaleIntervalEnd d n (keeps_refl s)
  | .waitReturn d e => keeps_execWaitReturn d e (keeps_refl s)
  | .sinResume d e => keeps_execSinResume d e (keeps_refl s)
  | .soutResume d e => keeps_execSoutResume d e (keeps_refl s)
  | .heapLoadComplete d e => keeps_execHeapLoadComplete d e (keeps_refl s)
  | .cacheDone d e => keeps_execCacheDone d e (keeps_refl s)
  | .watchdogExpiry d e => keeps_execWatchdogExpiry d e (keeps_refl s)
  | .sramScrub d e corrected bad => keeps_execSramScrub d e corrected bad (keeps_refl s)
  | .swapBegin d e => keeps_execSwapBegin d e (keeps_refl s)
  | .swapComplete d e ecc => keeps_execSwapComplete d e ecc (keeps_refl s)
  | .engAdd e d a b => keeps_execEngAdd e d a b (keeps_refl s)
  | .engSub e d a b => keeps_execEngSub e d a b (keeps_refl s)
  | .engAnd e d a b => keeps_execEngAnd e d a b (keeps_refl s)
  | .engOr e d a b => keeps_execEngOr e d a b (keeps_refl s)
  | .engXor e d a b => keeps_execEngXor e d a b (keeps_refl s)
  | .andn e d a b => keeps_execAndn e d a b (keeps_refl s)
  | .shl e d a b => keeps_execShl e d a b (keeps_refl s)
  | .shr e d a b => keeps_execShr e d a b (keeps_refl s)
  | .sar e d a b => keeps_execSar e d a b (keeps_refl s)
  | .ror e d a b => keeps_execRor e d a b (keeps_refl s)
  | .slt e d a b => keeps_execSlt e d a b (keeps_refl s)
  | .sltu e d a b => keeps_execSltu e d a b (keeps_refl s)
  | .engMin e d a b => keeps_execEngMin e d a b (keeps_refl s)
  | .engMax e d a b => keeps_execEngMax e d a b (keeps_refl s)
  | .minu e d a b => keeps_execMinu e d a b (keeps_refl s)
  | .maxu e d a b => keeps_execMaxu e d a b (keeps_refl s)
  | .engMul e d a b => keeps_execEngMul e d a b (keeps_refl s)
  | .mulhu e d a b => keeps_execMulhu e d a b (keeps_refl s)
  | .mulh e d a b => keeps_execMulh e d a b (keeps_refl s)
  | .clz e d a => keeps_execClz e d a (keeps_refl s)
  | .ctz e d a => keeps_execCtz e d a (keeps_refl s)
  | .popc e d a => keeps_execPopc e d a (keeps_refl s)
  | .bswap e d a => keeps_execBswap e d a (keeps_refl s)
  | .movw e d a => keeps_execMovw e d a (keeps_refl s)
  | .setside e d a b => keeps_execSetside e d a b (keeps_refl s)
  | .getside e d a => keeps_execGetside e d a (keeps_refl s)
  | .addi e d a imm => keeps_execAddi e d a imm (keeps_refl s)
  | .andi e d a imm => keeps_execAndi e d a imm (keeps_refl s)
  | .ori e d a imm => keeps_execOri e d a imm (keeps_refl s)
  | .xori e d a imm => keeps_execXori e d a imm (keeps_refl s)
  | .shifti e d a kind amt => keeps_execShifti e d a kind amt (keeps_refl s)
  | .slti e d a imm => keeps_execSlti e d a imm (keeps_refl s)
  | .sltiu e d a imm => keeps_execSltiu e d a imm (keeps_refl s)
  | .movz e d k imm => keeps_execMovz e d k imm (keeps_refl s)
  | .movk e d k imm => keeps_execMovk e d k imm (keeps_refl s)
  | .extr e d a pos len => keeps_execExtr e d a pos len (keeps_refl s)
  | .insr e d a pos len => keeps_execInsr e d a pos len (keeps_refl s)
  | .ldb e d a imm => keeps_execLdb e d a imm (keeps_refl s)
  | .ldh e d a imm => keeps_execLdh e d a imm (keeps_refl s)
  | .ldd e d a imm => keeps_execLdd e d a imm (keeps_refl s)
  | .ldq e d a imm => keeps_execLdq e d a imm (keeps_refl s)
  | .ldw e d a imm => keeps_execLdw e d a imm (keeps_refl s)
  | .stb e d a imm => keeps_execStb e d a imm (keeps_refl s)
  | .sth e d a imm => keeps_execSth e d a imm (keeps_refl s)
  | .std e d a imm => keeps_execStd e d a imm (keeps_refl s)
  | .stq e d a imm => keeps_execStq e d a imm (keeps_refl s)
  | .stw e d a imm => keeps_execStw e d a imm (keeps_refl s)
  | .beq e d a imm => keeps_execBeq e d a imm (keeps_refl s)
  | .bne e d a imm => keeps_execBne e d a imm (keeps_refl s)
  | .blt e d a imm => keeps_execBlt e d a imm (keeps_refl s)
  | .bge e d a imm => keeps_execBge e d a imm (keeps_refl s)
  | .bltu e d a imm => keeps_execBltu e d a imm (keeps_refl s)
  | .bgeu e d a imm => keeps_execBgeu e d a imm (keeps_refl s)
  | .jal e d imm => keeps_execJal e d imm (keeps_refl s)
  | .jalr e d a imm => keeps_execJalr e d a imm (keeps_refl s)
  | .engCrc e d a b n => keeps_execEngCrc e d a b n (keeps_refl s)
  | .engHash e d a b cls => keeps_execEngHash e d a b cls (keeps_refl s)
  | .engMark e d a b => keeps_execEngMark e d a b (keeps_refl s)
  | .trig e a b => keeps_execTrig e a b (keeps_refl s)
  | .sin e d p => keeps_execSin e d p (keeps_refl s)
  | .sinfo e d p sel => keeps_execSinfo e d p sel (keeps_refl s)
  | .savail e d p => keeps_execSavail e d p (keeps_refl s)
  | .sin2 e d p => keeps_execSin2 e d p (keeps_refl s)
  | .sout e q a b => keeps_execSout e q a b (keeps_refl s)
  | .sspace e d q => keeps_execSspace e d q (keeps_refl s)
  | .nop e => keeps_execNop e (keeps_refl s)
  | .engWait e d a b => keeps_execEngWait e d a b (keeps_refl s)
  | .ckpt e => keeps_execCkpt e (keeps_refl s)
  | .halt e a => keeps_execHalt e a (keeps_refl s)
  | .engTrap e code => keeps_execEngTrap e code (keeps_refl s)
  | .mfs e d sr => keeps_execMfs e d sr (keeps_refl s)
  | .sev e d => keeps_execSev e d (keeps_refl s)
  | .mbxack e => keeps_execMbxack e (keeps_refl s)
  | .mbxpost e a => keeps_execMbxpost e a (keeps_refl s)
  | .cache e op => keeps_execCache e op (keeps_refl s)
  | .xkick e a => keeps_execXkick e a (keeps_refl s)
  | .fixerWriteIssue d slot sid n => keeps_execFixerWriteIssue d slot sid n (keeps_refl s)
  | .nvmeWriteComplete d slot id sct sc dnr => keeps_execNvmeWriteComplete d slot id sct sc dnr (keeps_refl s)
  | .nvmeWriteTimeout d slot id => keeps_execNvmeWriteTimeout d slot id (keeps_refl s)
  | .fixerFlushTimeout d slot => keeps_execFixerFlushTimeout d slot (keeps_refl s)
  | .superblockInterval d slot => keeps_execSuperblockInterval d slot (keeps_refl s)
  | .smartPoll d p warn => keeps_execSmartPoll d p warn (keeps_refl s)
  | .xferEnd d c => keeps_execXferEnd d c (keeps_refl s)
  | .xferMove d c => keeps_execXferMove d c (keeps_refl s)
  | .xferMoveRetire d c rereads => keeps_execXferMoveRetire d c rereads (keeps_refl s)
  | .xferBeatError d c cause done last => keeps_execXferBeatError d c cause done last (keeps_refl s)
  | .xferLoop d c => keeps_execXferLoop d c (keeps_refl s)
  | .xferWait d c => keeps_execXferWait d c (keeps_refl s)
  | .xferWaitReturn d c => keeps_execXferWaitReturn d c (keeps_refl s)
  | .xferWaitTimeout d c => keeps_execXferWaitTimeout d c (keeps_refl s)
  | .xferSignal d c => keeps_execXferSignal d c (keeps_refl s)
  | .xferNop d c => keeps_execXferNop d c (keeps_refl s)
  | .xferPaused d c moved => keeps_execXferPaused d c moved (keeps_refl s)
  | .probePresChange d p high => keeps_execProbePresChange d p high (keeps_refl s)
  | .probePresenceTimeout d p => keeps_execProbePresenceTimeout d p (keeps_refl s)
  | .probeDiscoveryDone d p pulses acks one two => keeps_execProbeDiscoveryDone d p pulses acks one two (keeps_refl s)
  | .probeRemovalTimeout d p => keeps_execProbeRemovalTimeout d p (keeps_refl s)
  | .eepromReadDone d p ok bytes => keeps_execEepromReadDone d p ok bytes (keeps_refl s)
  | .biasSlewStep d p => keeps_execBiasSlewStep d p (keeps_refl s)
  | .deglitchHoldEnd d p => keeps_execDeglitchHoldEnd d p (keeps_refl s)
  | .biasRangeHighzEnd d p => keeps_execBiasRangeHighzEnd d p (keeps_refl s)
  | .biasLimitChange d p on => keeps_execBiasLimitChange d p on (keeps_refl s)
  | .biasLimitTrip d p => keeps_execBiasLimitTrip d p (keeps_refl s)
  | .biasComplianceChange d p on => keeps_execBiasComplianceChange d p on (keeps_refl s)
  | .biasReportHoldoffEnd d p => keeps_execBiasReportHoldoffEnd d p (keeps_refl s)
  | .pwmEdge d p => keeps_execPwmEdge d p (keeps_refl s)
  | .hkTimer d => keeps_execHkTimer d (keeps_refl s)
  | .hkDelayEnd d => keeps_execHkDelayEnd d (keeps_refl s)
  | .hkConversionEnd d raw => keeps_execHkConversionEnd d raw (keeps_refl s)
  | .teEdge => keeps_execTeEdge (keeps_refl s)
  | .teTimerExpiry => keeps_execTeTimerExpiry (keeps_refl s)
  | .initDelayExpiry => keeps_execInitDelayExpiry (keeps_refl s)
  | .pushBegin => keeps_execPushBegin (keeps_refl s)
  | .pushLineReady => keeps_execPushLineReady (keeps_refl s)
  | .pushEnd => keeps_execPushEnd (keeps_refl s)
  | .layerReadDone l => keeps_execLayerReadDone l (keeps_refl s)
  | .tempSample d t => keeps_execTempSample d t (keeps_refl s)
  | .throttleTimer d => keeps_execThrottleTimer d (keeps_refl s)
  | .thermalShutdown d => keeps_execThermalShutdown d (keeps_refl s)
  | .railLeavesWindow d rail mv above deep => keeps_execRailLeavesWindow d rail mv above deep (keeps_refl s)
  | .supplyFaultDetect d rail => keeps_execSupplyFaultDetect d rail (keeps_refl s)
  | .supplyReturnTimeout d => keeps_execSupplyReturnTimeout d (keeps_refl s)
  | .supplyFenceTimeout d rail => keeps_execSupplyFenceTimeout d rail (keeps_refl s)
  | .vddAonFault d => keeps_execVddAonFault d (keeps_refl s)
  | .hbmScrubPass d errs => keeps_execHbmScrubPass d errs (keeps_refl s)
  | .healthCheck d kind target monitor value failed => keeps_execHealthCheck d kind target monitor value failed (keeps_refl s)
  | .hbmCopyDone d lost => keeps_execHbmCopyDone d lost (keeps_refl s)
  | .uflLaneRetrainDone d p => keeps_execUflLaneRetrainDone d p (keeps_refl s)
  | .uflLaneFail d p lane => keeps_execUflLaneFail d p lane (keeps_refl s)
  | .flitCrcError d p => keeps_execFlitCrcError d p (keeps_refl s)
  | .illegalInstruction e => keeps_execIllegalInstruction e (keeps_refl s)
  | .xferIllegalOpcode d c => keeps_execXferIllegalOpcode d c (keeps_refl s)
  | .hbmRetrainingDone d => keeps_execHbmRetrainingDone d (keeps_refl s)
  | .nvmeCommandComplete d p what ok => keeps_execNvmeCommandComplete d p what ok (keeps_refl s)
  | .railReturnsToWindow d rail mv => keeps_execRailReturnsToWindow d rail mv (keeps_refl s)
  | .syncInDriveChange driven => keeps_execSyncInDriveChange driven (keeps_refl s)
  | .busMasterEnableClear port => keeps_execBusMasterEnableClear port (keeps_refl s)
  | .initListSent => keeps_execInitListSent (keeps_refl s)
  | .tapTckEdge rising tms tdi => keeps_execTapTckEdge rising tms tdi (keeps_refl s)
  | .vddCoreRequest d up => keeps_execVddCoreRequest d up (keeps_refl s)

/-- A tick on an empty queue advances the time by one; beyond that it keeps what a row keeps. -/
theorem idleTick_keeps (s : State) : Keeps { s with now := s.now + 1 } (idleTick s) := by
  unfold idleTick
  split
  · exact keeps_refl _
  · exact keeps_settleTick (keeps_refl _)

/-- What one step can do to the form of the machine: a tick passes on an empty queue, or the front command runs. -/
theorem step_cases {s t : State} (h : step s = .next t) :
    (s.pending = [] ∧ Keeps { s with now := s.now + 1 } t) ∨
      ∃ c rest, s.pending = c :: rest ∧ Keeps { s with pending := rest } t := by
  unfold step at h
  split at h
  next hq =>
    cases h
    exact .inl ⟨hq, idleTick_keeps s⟩
  next c rest hq => exact .inr ⟨c, rest, hq, exec_keeps c _ t h⟩

/-- Settles O34: a tick moves only the time and a command moves only the queue, each by one. -/
theorem stepKeepsMachineForm : Obligations.StepKeepsMachineForm := by
  intro s t h
  obtain ⟨hq, k⟩ | ⟨c, rest, hq, k⟩ := step_cases h
  · exact ⟨k.mem, k.part, by simp [k.pending, hq], by simp [k.now], by simp [k.now]⟩
  · exact ⟨k.mem, k.part, by simp [k.pending, hq], by simp [k.now], by simp [k.now]⟩

/-! ## When a row stops (R1, R3, log entry 11) -/

/-- The outcome is a next state, or the fault that a die is named which the part lacks; where `wf` holds, that die is one of the
eight that a full part has. -/
def AnswersOrAbsent (wf : Bool) (s : State) (o : Out) : Prop :=
  (∃ t, o = .next t) ∨ ∃ d, nDies s ≤ d ∧ (wf = true → d < 8) ∧ o = .fault .absentUnit

section
variable {wf : Bool} {s : State}

theorem next_answers {o : Out} {t : State} (h : o = .next t) : AnswersOrAbsent wf s o := .inl ⟨t, h⟩

/-- A row on a die answers exactly where the part has that die. -/
theorem onDie_answers {d : Nat} {f : State → State} (h : wf = true → d < 8) : AnswersOrAbsent wf s (onDie d s f) := by
  by_cases hd : d < nDies s
  · exact .inl ⟨_, if_pos hd⟩
  · exact .inr ⟨d, Nat.le_of_not_lt hd, h, onDie_unfitted (Nat.le_of_not_lt hd)⟩

theorem initDelayExpiry_answers : AnswersOrAbsent wf s (execInitDelayExpiry s) := by
  unfold execInitDelayExpiry
  dsimp only
  split
  · exact next_answers rfl
  · exact next_answers rfl

end

/-- The first of two checks that both hold. -/
theorem fst_check {a b : Bool} (h : (a && b) = true) : a = true := (Bool.and_eq_true_iff.1 h).1

theorem engOk_die {e : Eng} (h : engOk e = true) : e.die < 8 := of_decide_eq_true (fst_check h)

/-- Every row answers, or names a die that the part lacks; a well-formed row names one of the first eight. -/
theorem exec_answers (i : Instr) (s : State) : AnswersOrAbsent i.wf s (exec i s) := by
  cases i with
  | initDelayExpiry => exact initDelayExpiry_answers
  -- host commands, and rows about the whole package or about one unit of the tree
  | unitEnumerate | unitQuery | unitWake | unitSleep | unitClearFault | groupCreate | groupAdd | groupRemove
  | groupDelete | groupList | laneConfigure | laneSetFramer | laneSetEqualiser | laneAdapt | laneDeskew | monitorSweep
  | laneReadStatus | pllConfigure | pllStep | refoutStart | refoutStop | timeRead | syncArm | refSetMode | tdcArm
  | tdcRead | captureConfigure | captureArm | captureDisarm | rollStart | rollStop | spoolAllocate | streamBind
  | streamUnbind | blockResend | markInsert | rateLimitSet | recordRead | matcherLoad | negstoreLoad | negstoreClear
  | comparatorConfigure | sequencerLoad | sequencerArm | sequencerDisarm | shutterFire | triginConfigure
  | trigoutConfigure | shutterReadCounters | chainConfigure | chainSelectLane | chainStart | chainStop | maskLoad
  | dcblockFreeze | measureConfigure | sheetConfigure | sheetClear | sheetExport | calConfigure | calLoad | calSave
  | calHold | imageLoad | imageUnload | engineStart | engineStop | engineReadState | serviceStart | serviceStop
  | serviceQuery | volumeCreate | volumeClose | xferLoad | xferStart | xferPause | xferResume | xferReset | eepromRead
  | biasConfigure | biasSet | pwmConfigure | hkadcConfigure | hkaCalZero | hkaCalFs | proofConfigure | layerConfigure
  | paletteLoad | regionPush | prfCommit | repairApply | repairRead | healthRead | safelightEnter | safelightExit
  | thermalConfigure | attest | certRead | measurementRead | portEcho | applyAtReached | commandTimeout
  | streamRingEnable | streamRingDisable | ringDrainDone | eventRelease | eventLateArrival | irqTimerExpiry
  | envelopeDeliver | srFlushTimeout | updateStrobeApply | resetNAssert | resetNRelease | bootVerifyDone | bootComplete
  | unitStartComplete | startLimitExpiry | unitStopComplete | powerGateTimeout | domainPowerUpDone | refoutFirstEdge
  | refoutPeriodEnd | refclkLost | refclkReturned | refReturnApply | syncInEdge | syncAlignApply | syncOutRepeat
  | syncPeerAttach | syncPeerDetach | trigInEdge | trigInFilterExpiry | sequencerEvaluate | sequencerTimerExpiry
  | shutterEventArrival | trigOutEdge | trigOutPulseEnd | teEdge | teTimerExpiry | pushBegin | pushLineReady | pushEnd
  | layerReadDone | syncInDriveChange | initListSent | tapTckEdge => exact next_answers rfl
  -- rows about one die, or about the port that stands on it
  | commandFetch d | cmdDoorbell d | cqDoorbell d | evrDoorbell d | srDoorbell d | cmdRingEnable d | cmdRingDisable d
  | eventRingEnable d | eventRingDisable d | cfgCrcPassEnd d | railCheckTimeout d | crsEnd d | perstAssert d
  | perstRelease d | hostLinkUp d | hostLinkDown d | hostDetachTimeout d | drivePerstRelease d | driveLinkDown d
  | squelchChange d | laneAcquireEntry d | cdrLock d | cdrLockLoss d | frameAlignFound d | frameAlignLost d
  | captureWord d | linkDetachTimeout d | monitorPointDone d | deskewMarkersSeen d | deskewWindowTimeout d | pllLock d
  | pllRelockFail d | fpllLockLoss d | pllLockLoss d | pllStepReached d | alignCheck d | hkclkTrim d | dllLock d
  | dllLockLoss d | tdcStartEdge d | tdcStopEdge d | tdcWindowClose d | entryCommit d | envFlushTimeout d | rearmOpen d
  | segmentComplete d | densitometerReadbackDone d | settlingEnd d | spectrumDone d | chainInputLost d
  | chainInputReturn d | sheetExportDone d | stripStart d | stripEvaluate d | gapIdleApply d | gapWaitExpiry d
  | staleIntervalEnd d | waitReturn d | sinResume d | soutResume d | heapLoadComplete d | cacheDone d
  | watchdogExpiry d | sramScrub d | swapBegin d | swapComplete d | fixerWriteIssue d | nvmeWriteComplete d
  | nvmeWriteTimeout d | fixerFlushTimeout d | superblockInterval d | smartPoll d | xferEnd d | xferMove d
  | xferMoveRetire d | xferBeatError d | xferLoop d | xferWait d | xferWaitReturn d | xferWaitTimeout d | xferSignal d
  | xferNop d | xferPaused d | probePresChange d | probePresenceTimeout d | probeDiscoveryDone d
  | probeRemovalTimeout d | eepromReadDone d | biasSlewStep d | deglitchHoldEnd d | biasRangeHighzEnd d
  | biasLimitChange d | biasLimitTrip d | biasComplianceChange d | biasReportHoldoffEnd d | pwmEdge d | hkTimer d
  | hkDelayEnd d | hkConversionEnd d | tempSample d | throttleTimer d | thermalShutdown d | railLeavesWindow d
  | supplyFaultDetect d | supplyReturnTimeout d | supplyFenceTimeout d | vddAonFault d | hbmScrubPass d | healthCheck d
  | hbmCopyDone d | uflLaneRetrainDone d | uflLaneFail d | flitCrcError d | xferIllegalOpcode d | hbmRetrainingDone d
  | nvmeCommandComplete d | railReturnsToWindow d | busMasterEnableClear d | vddCoreRequest d =>
    apply onDie_answers (d := d)
    exact of_decide_eq_true
  | registerWrite d | registerReadClear d | reservedRead d | reservedWrite d | secOwnerHashWrite d | go d | h2eBell d
  | e2hAck d | pauseSet d | pauseClear d | driveIdentifyDone d | onceAdaptEnd d | laneAdaptEnd d | levelCrossing d =>
    apply onDie_answers (d := d)
    exact fun h => of_decide_eq_true (fst_check h)
  | updStrobe d | cfgLockSet d | captureRef d | cfgCrcRefWrite d | xfrChKick d | pbdCtlEnClear d =>
    apply onDie_answers (d := d)
    exact fun h => of_decide_eq_true (fst_check (fst_check h))
  | stripWindowEnd d =>
    apply onDie_answers (d := d)
    exact fun h => of_decide_eq_true (fst_check (fst_check (fst_check h)))
  | rawTapSamples d =>
    apply onDie_answers (d := d)
    exact fun h => of_decide_eq_true (fst_check (fst_check (fst_check (fst_check h))))
  -- rows of an engine
  | illegalInstruction e =>
    apply onDie_answers (d := e.die)
    exact engOk_die
  | engAdd e | engSub e | engAnd e | engOr e | engXor e | andn e | shl e | shr e | sar e | ror e | slt e | sltu e
  | engMin e | engMax e | minu e | maxu e | engMul e | mulhu e | mulh e | clz e | ctz e | popc e | bswap e | movw e
  | setside e | getside e | addi e | andi e | ori e | xori e | shifti e | slti e | sltiu e | movz e | movk e | extr e
  | insr e | ldb e | ldh e | ldd e | ldq e | ldw e | stb e | sth e | std e | stq e | stw e | beq e | bne e | blt e
  | bge e | bltu e | bgeu e | jal e | jalr e | engCrc e | engHash e | engMark e | trig e | sin e | sinfo e | savail e
  | sin2 e | sout e | sspace e | nop e | engWait e | ckpt e | halt e | engTrap e | mfs e | sev e | mbxack e | mbxpost e
  | cache e | xkick e =>
    apply onDie_answers (d := e.die)
    exact fun h => engOk_die (fst_check h)

/-- Settles O35: only `onDie` stops a row, and the part with every die fitted has the die of every well-formed row. -/
theorem onlyAbsentDieStops : Obligations.OnlyAbsentDieStops := by
  refine ⟨fun i s => ?_, fun i s hwf hpart => ?_⟩
  · obtain hnext | ⟨_, _, _, hstop⟩ := exec_answers i s
    · exact .inl hnext
    · exact .inr hstop
  · obtain hnext | ⟨d, hlack, hlow, _⟩ := exec_answers i s
    · exact hnext
    · have hfit : nDies s = 8 := by rw [nDies, hpart]; rfl
      exact absurd (hlow hwf) (by omega)

end Sys2Proof.Machine

namespace Sys2Proof.Machine

/-! ## Groups: the expansion and its power state (R48, R51) -/

theorem mem_dedup {seen l : List Nat} {v : Nat} : v ∈ dedup seen l ↔ v ∈ l ∧ v ∉ seen := by
  induction l generalizing seen with
  | nil => simp [dedup]
  | cons x r ih =>
    by_cases hx : x ∈ seen
    · have hv : v ∉ seen → v ≠ x := fun hs he => hs (he ▸ hx)
      simp only [dedup, List.contains_iff_mem, hx, if_true, ih, List.mem_cons]
      exact ⟨fun ⟨hr, hs⟩ => ⟨.inr hr, hs⟩, fun ⟨h, hs⟩ => ⟨h.resolve_left (hv hs), hs⟩⟩
    · simp only [dedup, List.contains_iff_mem, hx, if_false, ih, List.mem_cons]
      by_cases hvx : v = x
      · simp only [hvx, hx, true_or, not_false_eq_true, and_self]
      · simp only [hvx, false_or]

theorem dedup_sublist (seen l : List Nat) : (dedup seen l).Sublist l := by
  induction l generalizing seen with
  | nil => exact .slnil
  | cons x r ih =>
    unfold dedup
    split
    · exact (ih seen).cons x
    · exact (ih (x :: seen)).cons_cons x

theorem dedup_nodup (seen l : List Nat) : (dedup seen l).Nodup := by
  induction l generalizing seen with
  | nil => exact List.nodup_nil
  | cons x r ih =>
    unfold dedup
    split
    · exact ih seen
    · exact List.nodup_cons.2 ⟨fun h => (mem_dedup.1 h).2 List.mem_cons_self, ih (x :: seen)⟩

theorem idxOf_cons_of_ne {x v : Nat} (h : x ≠ v) (l : List Nat) : (x :: l).idxOf v = l.idxOf v + 1 := by
  rw [List.idxOf_cons, beq_false_of_ne h, cond_false]

/-- Elements that are kept stand in the order of their first positions. -/
theorem dedup_idxOf_lt_iff {seen l : List Nat} {v w : Nat} (hv : v ∈ l) (hvs : v ∉ seen) (hws : w ∉ seen) :
    (dedup seen l).idxOf v < (dedup seen l).idxOf w ↔ l.idxOf v < l.idxOf w := by
  induction l generalizing seen with
  | nil => cases hv
  | cons x r ih =>
    have hv' : x ≠ v → v ∈ r := fun h => (List.mem_cons.1 hv).resolve_left (Ne.symm h)
    unfold dedup
    split
    next hx =>
      have hx' : x ∈ seen := List.contains_iff_mem.1 hx
      have hxv : x ≠ v := fun h => hvs (h ▸ hx')
      have hxw : x ≠ w := fun h => hws (h ▸ hx')
      rw [idxOf_cons_of_ne hxv, idxOf_cons_of_ne hxw, ih (hv' hxv) hvs hws, Nat.add_lt_add_iff_right]
    next =>
      by_cases hxv : x = v
      · by_cases hxw : x = w
        · simp only [← hxv, ← hxw, Nat.lt_irrefl]
        · simp only [← hxv, List.idxOf_cons_self, idxOf_cons_of_ne hxw, Nat.succ_pos]
      · by_cases hxw : x = w
        · simp only [← hxw, List.idxOf_cons_self, Nat.not_lt_zero]
        · have hvs' : v ∉ x :: seen := by simp [hvs, Ne.symm hxv]
          have hws' : w ∉ x :: seen := by simp [hws, Ne.symm hxw]
          simp only [idxOf_cons_of_ne hxv, idxOf_cons_of_ne hxw, Nat.add_lt_add_iff_right, ih (hv' hxv) hvs' hws']

/-- A group's members stand in its place. -/
theorem expandAll_group {s : State} {n u : Nat} {g : Group} (hu : isGroup u = true)
    (hg : groupOf s (bits u 0 16) = some g) : expandAll s (n + 1) u = g.members.flatMap (expandAll s n) := by
  simp only [expandAll, hu, if_true, hg]

theorem expandAll_single {s : State} {n u v : Nat} (h : v ∈ expandAll s n u) : isGroup v = false := by
  induction n generalizing u with
  | zero => cases h
  | succ n ih =>
    unfold expandAll at h
    split at h
    next =>
      split at h
      next =>
        obtain ⟨m, _, hm⟩ := List.mem_flatMap.1 h
        exact ih hm
      next => cases h
    next hu => simpa [List.mem_singleton.1 h] using hu

theorem mem_expansion {s : State} {u v : Nat} : v ∈ expansion s u ↔ v ∈ expandAll s 1026 u := by
  simp [expansion, mem_dedup]

theorem expansion_unit {s : State} {u : Nat} (h : isGroup u = false) : expansion s u = [u] := by
  rw [expansion, expandAll_unit h]
  rfl

/-- Settles O46: `dedup` keeps first positions and their order, and `expandAll` reaches single units only. -/
theorem groupExpansionIsDepthFirst : Obligations.GroupExpansionIsDepthFirst := by
  intro s u
  refine ⟨dedup_nodup .., dedup_sublist .., fun _ => mem_expansion, fun _ hv => expandAll_single (mem_expansion.1 hv),
    expansion_unit, fun _ _ => expandAll_group, fun v w hv _ => ?_⟩
  exact dedup_idxOf_lt_iff (mem_expansion.1 hv) List.not_mem_nil List.not_mem_nil

/-- Some unit of an expansion is in a power state. -/
theorem contains_pwOf_iff {s : State} {l : List Nat} {p : Pw} :
    (l.map (pwOf s)).contains p = true ↔ ∃ v ∈ l, pwOf s v = p := by
  rw [List.contains_iff_mem, List.mem_map]

/-- Settles O47: the rows of R51 are the branches of `groupPw`, each asking whether some unit is in its state. -/
theorem groupPowerStateRows : Obligations.GroupPowerStateRows := by
  intro s u any
  have hrow : ∀ p, ((expansion s u).map (pwOf s)).contains p = true ↔ any p := fun _ => contains_pwOf_iff
  simp only [groupPw, hrow]
  refine ⟨fun hf => if_pos hf, fun hf hs => ?_, fun hf hs hst => ?_, fun hf hs hst ha => ?_, fun hf hs hst ha => ?_,
    fun he => ?_⟩
  · rw [if_neg hf, if_pos hs]
  · rw [if_neg hf, if_neg hs, if_pos hst]
  · rw [if_neg hf, if_neg hs, if_neg hst, if_pos ha]
  · rw [if_neg hf, if_neg hs, if_neg hst, if_neg ha]
  · have hnone : ∀ p, ¬any p := fun p ⟨v, hv, _⟩ => by simp [he] at hv
    simp only [hnone, if_false]

/-! ## The outcome of a unit (R50) -/

/-- The unit's outcome is more severe than the worst of its command so far, or as severe and of an earlier unit. -/
def outcomeWorse (f : Flight) (u st : Nat) : Bool :=
  f.worst < st || (st = f.worst && st ≠ 0 &&
    (firstIdx (· == u) f.units).getD 0 < (firstIdx (· == f.worstUnit) f.units).getD 0)

/-- The flight in which `unitDone` has counted a unit's outcome. -/
def withOutcome (f : Flight) (u st fl : Nat) (res : List Byte) (time : Nat) : Flight :=
  { f with
    waits := f.waits.erase u
    todo := if f.stop && 0x100 ≤ st then [] else f.todo
    succeeded := f.succeeded + b2n (st = 0)
    worst := if outcomeWorse f u st then st else f.worst
    worstUnit := if outcomeWorse f u st then u else f.worstUnit
    rflags := f.rflags ||| fl
    result := res
    time := time
    acted := f.acted || st = 0 }

section
variable {s : State} {f : Flight} {fid u st fl time : Nat} {res : List Byte}

/-- The last awaited unit completes its command. -/
theorem unitDone_last (hf : findFlight s fid = some f) (hw : f.waits = [u]) (ht : f.todo = []) :
    unitDone s fid u st fl res time =
      finishFlight s (withOutcome f u st fl res time) (withOutcome f u st fl res time).worst := by
  simp [unitDone, hf, hw, ht, withOutcome, outcomeWorse]

/-- A less severe status is no worse outcome. -/
theorem outcomeWorse_of_lt (h : st < f.worst) : outcomeWorse f u st = false := by
  simp [outcomeWorse, Nat.le_of_lt h, Nat.ne_of_lt h]

theorem withOutcome_worst : (withOutcome f u st fl res time).worst = max f.worst st := by
  obtain hlt | heq | hgt := Nat.lt_trichotomy f.worst st
  · simp [withOutcome, outcomeWorse, hlt, Nat.max_eq_right (Nat.le_of_lt hlt)]
  · simp [withOutcome, heq]
  · simp [withOutcome, outcomeWorse_of_lt hgt, Nat.max_eq_left (Nat.le_of_lt hgt)]

theorem withOutcome_worstUnit_of_gt (h : f.worst < st) : (withOutcome f u st fl res time).worstUnit = u := by
  simp [withOutcome, outcomeWorse, h]

theorem withOutcome_worstUnit_of_lt (h : st < f.worst) :
    (withOutcome f u st fl res time).worstUnit = f.worstUnit := by
  simp [withOutcome, outcomeWorse_of_lt h]

theorem withOutcome_succeeded :
    (withOutcome f u st fl res time).succeeded = f.succeeded + if st = 0 then 1 else 0 := by
  simp [withOutcome, b2n]

end

/-- An opcode that always reports by R50 does so. -/
theorem flightResult_r50 {s : State} {g : Flight} (h : r50Op g.op = true) :
    flightResult s g =
      (r50Result g.succeeded g.attempted (if g.worst = 0 then 0xFFFFFFFF else g.worstUnit) g.rflags, s) := by
  simp only [flightResult, h, Bool.true_or, if_true]

/-- Settles O45: the flight that completes is the one with the last unit's outcome counted. -/
theorem groupCompletesWithWorstStatus : Obligations.GroupCompletesWithWorstStatus := by
  intro s fid u st fl res time f hf hw ht
  refine ⟨withOutcome f u st fl res time, unitDone_last hf hw ht, withOutcome_worst, withOutcome_succeeded, rfl, rfl,
    withOutcome_worstUnit_of_gt, withOutcome_worstUnit_of_lt, fun hop => ?_⟩
  exact congrArg Prod.fst (flightResult_r50 (g := withOutcome f u st fl res time) hop)

/-! ## Commands issued to one unit (R38, R78, R498) -/

/-- The flight that `newFlight` enters for a command of one unit that starts now. -/
def openFlight (df : CmdDef) (c : Cmd) (s : State) (u : Nat) : Flight :=
  { id := s.host.nextId, op := df.op, cmd := c, group := isGroup c.unit && !df.onGroup, stop := policyStop s c.unit
    sched := none, deadline := deadlineFrom c s.now, units := [u], todo := [u], waits := []
    attempted := 0, succeeded := 0, worst := 0, worstUnit := 0xFFFFFFFF, rflags := 0, result := [], late := false
    time := unitTime s u, acted := false, discard := false }

/-- The same flight once the command has been issued to the unit and waits for it. -/
def takenFlight (df : CmdDef) (c : Cmd) (s : State) (u : Nat) : Flight :=
  { openFlight df c s u with todo := [], waits := [u], attempted := 1 }

/-- The machine after a command of one unit is gone again: its number is used up and its effect noted (R79). -/
def afterFlight (c : Cmd) (s : State) (u : Nat) : State :=
  let t := noteEffect s c u
  { t with host := { t.host with nextId := s.host.nextId + 1 } }

section
variable {df : CmdDef} {c : Cmd} {s : State} {u : Nat}

theorem startCmd_checks (hr : s.ready = true) (hc : cplFree s c.port c.ring = true) (ho : orderOk s c = true)
    (hd : dueFirst s c = false) (hs : strobeFirst s = false) (hk : checkCmd df c s = none) :
    startCmd df c s = .next (startChecked df c s) := by
  simp only [startCmd, hr, hc, ho, hd, hs, Bool.not_false, Bool.and_self, if_true, beginCmd, hk]

theorem startChecked_locked (h : targetLocked df c s = true) : startChecked df c s = failCmd df c stLocked s := by
  simp only [startChecked, h, if_true]

theorem id_ne_of_findFlight_none {n : Nat} (h : findFlight s n = none) {f : Flight} (hf : f ∈ s.host.flights) :
    f.id ≠ n := by
  simpa using List.find?_eq_none.1 h f hf

theorem findFlight_newFlight_unit (hn : findFlight s s.host.nextId = none) :
    findFlight (newFlight df c [u] none false s) s.host.nextId = some (openFlight df c s u) := by
  have hfind : s.host.flights.find? (fun f => f.id == s.host.nextId) = none := hn
  simp [findFlight, newFlight, hfind, openFlight]

/-- `taken` is the state in which `issueUnits` issues the command to its unit. -/
theorem taken_eq_setFlight (hn : findFlight s s.host.nextId = none) :
    taken df c s u = setFlight (noteEffect (newFlight df c [u] none false s) c u) (takenFlight df c s u) := by
  have hopen : findFlight (noteEffect (newFlight df c [u] none false s) c u) s.host.nextId =
      some (openFlight df c s u) := findFlight_newFlight_unit hn
  simp only [taken, hopen, takenFlight]

/-- In the state of a command taken up, its flight is the one open command more. -/
theorem taken_eq (hn : findFlight s s.host.nextId = none) :
    taken df c s u = { afterFlight c s u with host := { (afterFlight c s u).host with
      flights := s.host.flights ++ [takenFlight df c s u] } } := by
  have hkeep : s.host.flights.map (fun g => if g.id = (takenFlight df c s u).id then takenFlight df c s u else g) =
      s.host.flights :=
    (List.map_congr_left fun _ hg => if_neg (id_ne_of_findFlight_none hn hg)).trans (List.map_id' _)
  have hid : (openFlight df c s u).id = (takenFlight df c s u).id := rfl
  have hflights : (s.host.flights ++ [openFlight df c s u]).map
      (fun g => if g.id = (takenFlight df c s u).id then takenFlight df c s u else g) =
      s.host.flights ++ [takenFlight df c s u] := by
    rw [List.map_append, hkeep, List.map_singleton, if_pos hid]
  rw [taken_eq_setFlight hn]
  exact congrArg (fun l : List Flight => { afterFlight c s u with host := { (afterFlight c s u).host with
    flights := l } }) hflights

theorem findFlight_taken (hn : findFlight s s.host.nextId = none) :
    findFlight (taken df c s u) s.host.nextId = some (takenFlight df c s u) := by
  have hfind : s.host.flights.find? (fun f => f.id == s.host.nextId) = none := hn
  simp [taken_eq hn, findFlight, hfind, takenFlight, openFlight]

theorem dropFlight_taken (hn : findFlight s s.host.nextId = none) :
    dropFlight (taken df c s u) s.host.nextId = afterFlight c s u := by
  have hkeep : s.host.flights.filter (fun g => g.id != s.host.nextId) = s.host.flights :=
    List.filter_eq_self.2 fun _ hg => bne_iff_ne.2 (id_ne_of_findFlight_none hn hg)
  rw [taken_eq hn]
  simp [dropFlight, hkeep, takenFlight, openFlight, afterFlight, noteEffect]

/-- The next unit of a flight that no outcome holds up finishes at once (R49). -/
theorem issueUnits_cons_done {x t : State} {fid st fl : Nat} {r : List Nat} {res : List Byte} {f : Flight}
    (hf : findFlight x fid = some f) (htodo : f.todo = u :: r) (hgo : (f.stop && !f.waits.isEmpty) = false)
    (hi : issueOne df f.cmd fid u (setFlight (noteEffect x f.cmd u)
      { f with todo := r, waits := f.waits ++ [u], attempted := f.attempted + 1 }) = (t, .done st res fl)) :
    issueUnits df fid (u :: r) x =
      issueUnits df fid r (unitDone t fid u st fl res (if f.acted && st ≠ 0 then f.time else unitTime t u)) := by
  simp only [issueUnits, hf, htodo, hgo, List.isEmpty_cons, Bool.or_false, Bool.false_eq_true, if_false, hi]

/-- A command that starts now and acts on one unit ends as the unit does, in the state in which it waits for it. -/
theorem startChecked_ends {t : State} {st : Nat} {res : List Byte} (hl : targetLocked df c s = false)
    (ha : c.applyAt = 0) (hu : cmdUnits df c s = [u]) (hn : findFlight s s.host.nextId = none)
    (hi : issueOne df c s.host.nextId u (taken df c s u) = (t, .done st res 0)) :
    startChecked df c s = endIn df s u t st res := by
  have hopen := findFlight_newFlight_unit (df := df) (c := c) (u := u) hn
  have hrun : startChecked df c s = issueUnits df s.host.nextId [u] (newFlight df c [u] none false s) := by
    simp only [startChecked, hl, ha, hu, runFlight, hopen, Bool.false_eq_true, if_false, if_true]
    rfl
  rw [taken_eq_setFlight hn] at hi
  rw [hrun, issueUnits_cons_done hopen rfl (Bool.and_false _) hi]
  rfl

theorem issueOne_locked {fid : Nat} {x : State} (hl : cmdLocked x df.op u = true) :
    issueOne df c fid u x = (x, err stLocked) := by
  simp only [issueOne, hl, if_true]

theorem issueOne_faulted {fid : Nat} {x : State} (hl : cmdLocked x df.op u = false) (hg : isGroup u = false)
    (hp : pwOf x u = .fault) (hq : df.op ≠ 0x0002) (hc : df.op ≠ 0x0005) :
    issueOne df c fid u x = (x, err stUnitFaulted) := by
  simp [issueOne, hl, hg, hp, hq, hc]

/-- Taking a command up touches no lock and no power state. -/
theorem cmdLocked_taken (hn : findFlight s s.host.nextId = none) (op v : Nat) :
    cmdLocked (taken df c s u) op v = cmdLocked s op v :=
  locked_hostOnly s _ op v (by rw [taken_eq hn]; rfl)

theorem pwOf_taken (hn : findFlight s s.host.nextId = none) (v : Nat) : pwOf (taken df c s u) v = pwOf s v :=
  pwOf_hostOnly s _ v (by rw [taken_eq hn]; rfl)

end

/-- Settles O41: the lock of a command's own unit comes before APPLY_AT, that of a group's unit and a fault when the unit
is issued to, and the state then is the one before any effect. -/
theorem lockedOrFaultedUnitEndsCommand : Obligations.LockedOrFaultedUnitEndsCommand := by
  intro df c u s hr hc ho hd hs hk
  rw [startCmd_checks hr hc ho hd hs hk]
  refine ⟨fun hl => congrArg _ (startChecked_locked hl), fun ha hu hn => ⟨fun hg hl => congrArg _ ?_,
    fun hl hg hp hq hq' => congrArg _ ?_⟩⟩
  · have htarget : targetLocked df c s = false := by simp [targetLocked, hg]
    exact startChecked_ends htarget ha hu hn (issueOne_locked ((cmdLocked_taken hn ..).trans hl))
  · exact startChecked_ends (targetLocked_of_unit hu hl) ha hu hn
      (issueOne_faulted ((cmdLocked_taken hn ..).trans hl) hg ((pwOf_taken hn u).trans hp) hq hq')

/-! ## What a completion changes (R85) -/

@[simp] theorem padTo_take_length (n : Nat) (p : List Byte) : (padTo n (p.take n)).length = n := by
  simp only [padTo, List.length_append, List.length_take, List.length_replicate]
  omega

theorem cplBytes_length (tag : W32) (st : Nat) (phase late : Bool) (res : List Byte) (time : Nat) :
    (cplBytes tag st phase late res time).length = 32 := by
  simp [cplBytes]

/-- Counting an entry of a ring sends at most an interrupt. -/
theorem moderate_changes {s : State} {p n : Nat} {ctl : W32} {t : Option Nat} {m : (Nat × Option Nat) × State}
    (h : moderate s p ctl n t = m) : ∃ irqs, m.2 = { s with host := { s.host with irqs := irqs } } := by
  subst h
  simp only [moderate, raiseIrq]
  split
  · split
    · exact ⟨_, rfl⟩
    · exact ⟨_, rfl⟩
  · exact ⟨_, rfl⟩

/-- Beside the 32 bytes of a ring pair's next completion entry, memory reads as before the entry is written. -/
theorem readByte_entry_other (s : State) (p n : Nat) {b : List Byte} (hb : b.length = 32) {a : Nat}
    (ha : a < cplSlot s p n ∨ cplSlot s p n + 32 ≤ a) :
    readByte (hostWrite s p (pairAddr s p (rHstCqBaseLo n) (rHstCqBaseHi n) + 32 * (cplRing s p n).prod) b) a =
      readByte s a :=
  readByte_memWrite_other _ _ _ _ (by rw [hb, ← Nat.add_assoc]; exact ha)

/-- A completion changes its ring, the interrupts, and the 32 bytes of its entry. -/
theorem writeCpl_changes (s : State) (c : Cmd) (st : Nat) (late : Bool) (res : List Byte) (time : Nat) :
    ∃ mem cqs irqs, writeCpl s c st late res time =
        { s with mem := mem, host := { s.host with cqs := cqs, irqs := irqs } } ∧
      ∀ a, (a < cplSlot s c.port c.ring ∨ cplSlot s c.port c.ring + 32 ≤ a) → tabGet memDflt mem a = readByte s a := by
  unfold writeCpl
  dsimp only
  split
  · exact ⟨_, _, _, rfl, fun _ _ => rfl⟩
  split
  · exact ⟨_, _, _, rfl, fun _ _ => rfl⟩
  split
  · exact ⟨_, _, _, rfl, fun _ ha => readByte_entry_other s c.port c.ring (cplBytes_length ..) ha⟩
  · generalize hm : moderate _ _ _ _ _ = m
    obtain ⟨irqs, hstate⟩ := moderate_changes hm
    rw [hstate]
    exact ⟨(hostWrite s c.port _ _).mem, _, _, rfl,
      fun _ ha => readByte_entry_other s c.port c.ring (cplBytes_length ..) ha⟩

/-- The result of a finished command may draw free values (log entry 2) and changes nothing else. -/
theorem flightResult_changes (s : State) (f : Flight) : ∃ k, (flightResult s f).2 = { s with freeCtr := k } := by
  unfold flightResult
  split
  · exact ⟨_, rfl⟩
  split
  · exact ⟨_, rfl⟩
  · exact ⟨_, rfl⟩

theorem finishFlight_kept {s : State} {f : Flight} {st : Nat} (h : f.discard = false) :
    finishFlight s f st = writeCpl (dropFlight (flightResult s f).2 f.id) f.cmd st f.late (flightResult s f).1 f.time := by
  simp only [finishFlight, h, Bool.false_eq_true, if_false]

/-- A flight that is gone has nothing more to issue. -/
theorem goesOn_gone {df : CmdDef} {s t : State} (h : findFlight t s.host.nextId = none) : goesOn df s t = t := by
  simp only [goesOn, issueUnits, h]

theorem findFlight_writeCpl (s : State) (c : Cmd) (st : Nat) (late : Bool) (res : List Byte) (time id : Nat) :
    findFlight (writeCpl s c st late res time) id = findFlight s id := by
  obtain ⟨_, _, _, h, -⟩ := writeCpl_changes s c st late res time
  rw [h]
  rfl

section
variable {df : CmdDef} {c : Cmd} {s : State} {u : Nat}

/-- A command that ends at its one unit without an effect there has its completion written, and its flight is gone. -/
theorem unitDone_taken (hn : findFlight s s.host.nextId = none) (st fl : Nat) (res : List Byte) (time : Nat) :
    ∃ k r, unitDone (taken df c s u) s.host.nextId u st fl res time =
      writeCpl { afterFlight c s u with freeCtr := k } c st false r time := by
  have hworst : (withOutcome (takenFlight df c s u) u st fl res time).worst = st :=
    withOutcome_worst.trans (Nat.zero_max st)
  obtain ⟨k, hk⟩ := flightResult_changes (taken df c s u) (withOutcome (takenFlight df c s u) u st fl res time)
  rw [unitDone_last (findFlight_taken hn) rfl rfl, hworst, finishFlight_kept rfl, hk]
  refine ⟨k, _, congrArg (fun x => writeCpl x c st false _ time) ?_⟩
  exact congrArg (fun x : State => { x with freeCtr := k }) (dropFlight_taken hn)

/-- Nothing of the machine but the command queue's bookkeeping and the bytes of the completion has changed then (R85). -/
theorem goesOn_taken_changes (hn : findFlight s s.host.nextId = none) (st fl : Nat) (res : List Byte) (time : Nat) :
    ∃ mem cqs irqs k, goesOn df s (unitDone (taken df c s u) s.host.nextId u st fl res time) =
        { afterFlight c s u with
          freeCtr := k, mem := mem, host := { (afterFlight c s u).host with cqs := cqs, irqs := irqs } } ∧
      ∀ a, (a < cplSlot s c.port c.ring ∨ cplSlot s c.port c.ring + 32 ≤ a) → tabGet memDflt mem a = readByte s a := by
  obtain ⟨k, r, hdone⟩ := unitDone_taken (df := df) (c := c) (u := u) hn st fl res time
  obtain ⟨mem, cqs, irqs, hcpl, hmem⟩ := writeCpl_changes { afterFlight c s u with freeCtr := k } c st false r time
  have hgone : findFlight (unitDone (taken df c s u) s.host.nextId u st fl res time) s.host.nextId = none := by
    rw [hdone, findFlight_writeCpl]
    exact hn
  exact ⟨mem, cqs, irqs, k, by rw [goesOn_gone hgone, hdone, hcpl], hmem⟩

theorem findFlight_takenUp (h : takenUp df c s u = true) : findFlight s s.host.nextId = none := by
  simp only [takenUp, Bool.and_eq_true, Option.isNone_iff_eq_none] at h
  exact h.2

end

/-! ## Commands that only read (R62, R97, R173, R450) -/

/-- The four commands finish at their unit and leave the state that they are given as it is. -/
theorem query_eff {df : CmdDef} (hdf : df = unitQueryDef ∨ df = timeReadDef ∨ df = serviceQueryDef ∨ df = portEchoDef)
    (c : Cmd) (fid u : Nat) (s : State) : ∃ res, df.eff c fid u s = (s, .done 0 res 0) := by
  obtain rfl | rfl | rfl | rfl := hdf
  · exact ⟨_, rfl⟩
  · exact ⟨_, rfl⟩
  · exact ⟨_, rfl⟩
  · exact ⟨_, rfl⟩

/-- Settles O43: the command's effect leaves the state in which it waits for its unit, and from there only its completion
follows. -/
theorem queryCommandsChangeNothing : Obligations.QueryCommandsChangeNothing := by
  intro df c u s hdf h
  obtain ⟨res, heff⟩ := query_eff hdf c s.host.nextId u (taken df c s u)
  obtain ⟨mem, cqs, irqs, k, ht, hmem⟩ := goesOn_taken_changes (df := df) (c := c) (u := u) (findFlight_takenUp h) 0 0 res
    (unitTime (taken df c s u) u)
  exact ⟨_, (startCmd_done h heff).trans (congrArg _ ht), rfl, rfl, rfl, hmem⟩

/-! ## The commands of the unit tree (R43 to R62) -/

/-- A command that asks a unit to wake or sleep waits with its effect begun once some unit has changed (R85). -/
theorem startCmd_powerAsked {df : CmdDef} {c : Cmd} {s t : State} {u : Nat} (h : takenUp df c s u = true)
    (he : df.eff c s.host.nextId u (taken df c s u) = powerAsked (taken df c s u) t) :
    startCmd df c s = .next (
      if (allUnits (taken df c s u)).any fun r => pwOf (taken df c s u) r != pwOf t r ||
          (unitOf (taken df c s u) r).powering != (unitOf t r).powering then
        waitsIn df s u t
      else pendsIn df s t) := by
  unfold powerAsked at he
  split at he
  next hc => rw [if_pos hc, startCmd_waits h he]
  next hc => rw [if_neg hc, startCmd_pends h he]

/-- A member that exists and closes no cycle enters the group at its place, where there is room (R47). -/
theorem groupAdd_eff {c : Cmd} {fid u : Nat} {s : State} {g : Group} (hg : groupOf s (bits u 0 16) = some g)
    (hform : idFormOk (fld c.payload 0 4) = true) (hpres : unitPresent s (fld c.payload 0 4) = true)
    (hreach : reaches s u 1026 (fld c.payload 0 4) = false) (hused : entriesUsed s < 4096) :
    groupAddDef.eff c fid u s =
      (treeChange (setGroup s (bits u 0 16) (some { g with
        members := g.members.take (min (fld c.payload 4 2) g.members.length) ++
          fld c.payload 0 4 :: g.members.drop (min (fld c.payload 4 2) g.members.length) })) u, ok) := by
  simp only [groupAddDef, hg, hform, hpres, hreach, Nat.not_le.2 hused, Bool.not_true, Bool.false_eq_true, if_false]

/-- A member leaves the group (R619). -/
theorem groupRemove_eff {c : Cmd} {fid u : Nat} {s : State} {g : Group} (hg : groupOf s (bits u 0 16) = some g)
    (hm : g.members.contains (fld c.payload 0 4) = true) :
    groupRemoveDef.eff c fid u s =
      (treeChange (setGroup s (bits u 0 16) (some { g with members := g.members.erase (fld c.payload 0 4) })) u, ok) := by
  simp only [groupRemoveDef, hg, hm, Bool.not_true, Bool.false_eq_true, if_false]

/-- Settles O1: each command's effect gives the branch that its conditions select, and the outcome follows as for every
command taken up for one unit. -/
theorem unitCommandsComplete : Obligations.UnitCommandsComplete := by
  refine ⟨?enumerate, ?query, ?wake, ?sleepPackage, ?sleepUnit, ?clearNoFault, ?clearFault, ?create, ?add, ?remove,
    ?delete, ?list⟩
  case enumerate =>
    rintro c u s₀ _ h rfl
    exact startCmd_done h rfl
  case query =>
    rintro c u s₀ _ h rfl
    exact startCmd_done h rfl
  case wake =>
    rintro c u s₀ _ h rfl hon
    exact startCmd_powerAsked h (if_neg hon)
  case sleepPackage =>
    rintro c u s₀ _ h rfl hu
    exact startCmd_waits h (if_pos hu)
  case sleepUnit =>
    rintro c u s₀ _ h rfl hu hport
    exact startCmd_powerAsked h ((if_neg hu).trans (if_neg (by simpa using hport)))
  case clearNoFault =>
    rintro c u s₀ _ h rfl hf
    exact startCmd_done h (if_pos hf)
  case clearFault =>
    rintro c u s₀ _ h rfl hf hc
    exact startCmd_done h ((if_neg (by simpa using hf)).trans (if_neg (by simpa using hc)))
  case create =>
    rintro c u s₀ _ h rfl g hg hfull
    exact startCmd_done h ((if_neg (by simpa using hg)).trans (if_neg (Nat.not_le.2 hfull)))
  case add =>
    rintro c u s₀ _ h rfl m g hg hform hpres hreach hused k
    exact startCmd_done h (groupAdd_eff hg hform hpres (by simpa using hreach) hused)
  case remove =>
    rintro c u s₀ _ h rfl m g hg hm
    exact startCmd_done h (groupRemove_eff hg hm)
  case delete =>
    rintro c u s₀ _ h rfl used hfree
    exact startCmd_done h (if_neg hfree)
  case list =>
    rintro c u s₀ _ h rfl l w
    exact startCmd_done h rfl

/-! ## Rows of units (R39, R41, R123, R561) -/

/-- A row about a single unit of the tree takes effect under its condition. -/
theorem onUnit_holds {u : Nat} {s : State} {b : Bool} {f : State → State} (hg : (!isGroup u) = true)
    (hp : unitPresent s u = true) (hb : b = true) : onUnit u s b f = .next (f s) := by
  rw [onUnit, whenB_holds (by simp [hg, hp, hb])]

/-- Settles O18: each row's condition is the conjunction of the hypotheses. -/
theorem unitEventsTakeEffect : Obligations.UnitEventsTakeEffect := by
  refine ⟨?startComplete, ?startLimit, ?stopComplete, ?powerGate, ?powerUp, ?acquire⟩
  case startComplete =>
    intro u s hg hp hpw hcls hclk
    exact onUnit_holds hg hp (by simp [hpw, hcls, hclk])
  case startLimit =>
    intro u s hg hp hpw hdue
    exact onUnit_holds hg hp (by simp [hpw, hdue])
  case stopComplete =>
    intro u s hg hp hpw hdrained
    exact onUnit_holds hg hp (by simp [hpw, hdrained])
  case powerGate =>
    intro u s x hg hp hgates hpw hwant hgated hdue
    exact onUnit_holds (b := gates u && x.pw == .asleep && !x.wantStart && !x.gated && x.since + msTicks < s.now) hg hp
      (by simp only [hgates, hpw, hwant, hgated, hdue, decide_true, Bool.and_self])
  case powerUp =>
    intro u s hg hp hpow
    exact onUnit_holds hg hp hpow
  case acquire =>
    intro d n s hl hn hf hpw hlock
    have hdue : (n < 16 && !faulted s d && pwOf s (laneUid d n) == .starting && (pllOf s d (1 + n / 4)).locked) =
        true := by
      simp only [hn, hf, hpw, hlock, decide_true, Bool.and_self]
    change execLaneAcquireEntry d n s = _
    rw [execLaneAcquireEntry, onDie_live hl, whenB_holds hdue]

end Sys2Proof.Machine

namespace Sys2Proof.Machine

/-! ## Line bits and RAW words (R104, R109, R111) -/

theorem b2n_lt_two (b : Bool) : b2n b < 2 := by
  cases b <;> decide

theorem bitsNat_cons_mod_two (b : Bool) (r : List Bool) : bitsNat (b :: r) % 2 = b2n b := by
  have hlt := b2n_lt_two b
  simp only [bitsNat]
  omega

theorem bitsNat_cons_div_two (b : Bool) (r : List Bool) : bitsNat (b :: r) / 2 = bitsNat r := by
  have hlt := b2n_lt_two b
  simp only [bitsNat]
  omega

theorem decide_b2n_eq_one (b : Bool) : decide (b2n b = 1) = b := by
  cases b <;> rfl

/-- Bit `j` of the number that line bits spell is the `j`-th of them. -/
theorem testBit_bitsNat (bs : List Bool) (j : Nat) : (bitsNat bs).testBit j = bs[j]?.getD false := by
  induction bs generalizing j with
  | nil => rw [bitsNat, Nat.zero_testBit, List.getElem?_nil, Option.getD_none]
  | cons b r ih =>
    cases j with
    | zero =>
      rw [Nat.testBit_zero, bitsNat_cons_mod_two, decide_b2n_eq_one, List.getElem?_cons_zero, Option.getD_some]
    | succ j => rw [Nat.testBit_succ, bitsNat_cons_div_two, ih, List.getElem?_cons_succ]

/-- A lane gives at least one line bit for each symbol. -/
theorem bitsPer_pos (l : Lane) : 0 < bitsPer l := by
  unfold bitsPer
  split
  · exact Nat.two_pos
  · exact Nat.one_pos

/-- As many line bits as a word takes are that word, whole and with no symbol to spare. -/
theorem wholeOf_length (l : Lane) (bs : List Bool) : wholeOf l bs.length bs = true := by
  simp [wholeOf, bitsPer_pos]

/-- The word of 64 line bits in RAW mode. -/
theorem frameWord_raw {l : Lane} {bs : List Bool} (hraw : l.framer = .raw) (hlen : bs.length = 64) :
    frameWord l bs = some ([(dataWord 0 0 false 7 (BitVec.ofNat 64 (bitsNat bs)), false)], l, 64) := by
  have hwhole : wholeOf l 64 bs = true := hlen ▸ wholeOf_length l bs
  simp only [frameWord, hraw, hwhole, if_true, List.take_of_length_le (Nat.le_of_eq hlen)]

/-- KIND DATA, SYNC 0b00, ERR 0 and LAST 7 make up the side byte of a RAW word. -/
theorem dataWord_raw_side (pay : W64) : (dataWord 0 0 false 7 pay).side.toNat = 7 := rfl

/-- Settles O48: the payload is the number that the line bits spell. -/
theorem rawWordCarriesLineBits : Obligations.RawWordCarriesLineBits := by
  intro l bs hraw hlen
  refine ⟨_, frameWord_raw hraw hlen, rfl, ?_⟩
  simp only [dataWord_raw_side]
  refine ⟨rfl, rfl, rfl, rfl, fun j b hb => ?_⟩
  obtain ⟨hj, -⟩ := List.getElem?_eq_some_iff.1 hb
  have hj64 : j < 64 := hlen ▸ hj
  change (BitVec.ofNat 64 (bitsNat bs)).getLsbD j = b
  rw [BitVec.getLsbD_ofNat, testBit_bitsNat, hb, decide_eq_true hj64, Option.getD_some, Bool.true_and]

/-- INVERT mirrors a PAM4 level ahead of the slicer (R104). -/
theorem invSymbol_inverted {l : Lane} (hpam : l.pam4 = true) (hinv : l.invert = true) {v : Nat} (hv : v ≤ 3) :
    invSymbol l v = 3 - v := by
  simp [invSymbol, hpam, hinv, Nat.min_eq_right hv]

theorem invSymbol_straight {l : Lane} (hinv : l.invert = false) (v : Nat) : invSymbol l v = v := by
  simp [invSymbol, hinv]

theorem lineBits_pam4 {l : Lane} (hpam : l.pam4 = true) (ui : List Nat) :
    lineBits l ui = ui.flatMap fun v => pamBits l.gray (invSymbol l v) := if_pos hpam

/-- An NRZ lane without INVERT gives back the bits that its symbols stand for. -/
theorem lineBits_nrz_map_b2n {l : Lane} (hpam : l.pam4 = false) (hinv : l.invert = false) (bs : List Bool) :
    lineBits l (bs.map b2n) = bs := by
  have hbit : ∀ b, decide (b2n b % 2 = 1) = b := by decide
  simp [lineBits, hpam, invSymbol_straight hinv, Function.comp_def, hbit]

/-- Settles O49: the bits of a symbol are those of its level, which INVERT mirrors; an NRZ lane takes the same bits one at
a time. -/
theorem pam4BitsInTimeOrder : Obligations.Pam4BitsInTimeOrder := by
  refine ⟨rfl, fun l hpam hinv hgray => ?_, fun l hpam hinv hgray => ?_, fun l ui hpam hinv hle => ?_,
    fun l ui hpam => ?_⟩
  · simp only [lineBits_pam4 hpam, invSymbol_straight hinv, hgray]
    rfl
  · simp only [lineBits_pam4 hpam, invSymbol_straight hinv, hgray]
    rfl
  · rw [lineBits_pam4 hpam, lineBits_pam4 (l := { l with invert := false }) hpam, List.flatMap_map]
    refine congrArg List.flatten (List.map_congr_left fun v hv => ?_)
    rw [invSymbol_inverted hpam hinv (hle v hv), invSymbol_straight rfl]
  · have hsingle : ∀ v, lineBits l [v] = pamBits l.gray (invSymbol l v) := fun v =>
      (lineBits_pam4 hpam [v]).trans (List.append_nil _)
    rw [← List.map_flatMap, lineBits_nrz_map_b2n rfl rfl, lineBits_pam4 hpam]
    simp only [hsingle]

/-! ## Checks of a command that pass -/

section
variable {α : Type} {b : Bool} {x y : α}

/-- A test that is known to fail takes the other branch. -/
theorem ite_of_bnot (h : (!b) = true) : (if b then x else y) = y := if_neg (by simpa using h)

/-- A check that is known to pass refuses nothing. -/
theorem ite_bnot_of (h : b = true) : (if !b then x else y) = y := if_neg (by simpa using h)

end

/-! ## The commands of lanes (R128 to R141) -/

/-- STOP notes the stop request in the sweep under way (R132). -/
theorem monitorSweep_stop {c : Cmd} {fid u : Nat} {s : State} {x : Sweep} (hstop : bitAt (pb c 3) 1 = true)
    (hx : (laneOf s (uDie u) (uIdx u)).sweep = some x) :
    monitorSweepDef.eff c fid u s =
      (setLane s (uDie u) (uIdx u) { laneOf s (uDie u) (uIdx u) with sweep := some { x with stopReq := true } }, ok) := by
  simp only [monitorSweepDef, hstop, hx, if_true]

/-- STOP without a sweep changes nothing (log entry 100). -/
theorem monitorSweep_stop_none {c : Cmd} {fid u : Nat} {s : State} (hstop : bitAt (pb c 3) 1 = true)
    (hx : (laneOf s (uDie u) (uIdx u)).sweep = none) (hlive : laneLive (laneOf s (uDie u) (uIdx u)) = true) :
    monitorSweepDef.eff c fid u s = (s, ok) := by
  simp only [monitorSweepDef, hstop, hx, hlive, if_true]

/-- Settles O2: each command's effect gives the branch that its conditions select. -/
theorem laneCommandsComplete : Obligations.LaneCommandsComplete := by
  refine ⟨?configureGroup, ?configureLane, ?framerSame, ?framerLive, ?framerDown, ?equaliser, ?adapt, ?deskewLane,
    ?deskewDie, ?readStatus, ?sweepStop, ?sweepNone, ?sweepStart⟩
  case configureGroup =>
    rintro c u s₀ _ h rfl d i hcls b hrest hasleep hlo hhi hrate p
    have hfits : ¬(b < 10000000 || 32000000 < b || (groupLanes i).any fun n =>
        (laneOf (taken laneConfigureDef c s₀ u) d n).enable && !rateOk b (laneOf (taken laneConfigureDef c s₀ u) d n)) =
        true := by
      simp only [Bool.or_eq_true, decide_eq_true_eq, Nat.not_lt.2 hlo, Nat.not_lt.2 hhi, false_or]
      exact hrate
    exact startCmd_done h ((if_pos hcls).trans ((ite_bnot_of hrest).trans ((if_neg hasleep).trans
      (if_neg hfits))))
  case configureLane =>
    rintro c u s₀ _ h rfl d i hcls l hctl hdiv hsq hrest hasleep hrate s1 s2
    refine startCmd_done h ((if_neg hcls).trans ((if_neg ?_).trans ((if_neg ?_).trans (if_neg hrate))))
    · simp [hctl, hdiv, hsq, hrest]
    · simpa using hasleep
  case framerSame =>
    rintro c u s₀ _ h rfl d n l f same hsame
    exact startCmd_done h (if_pos hsame)
  case framerLive =>
    rintro c u s₀ _ h rfl d n l f same hsame t s1 l1 s2 hlive s3 s4
    exact startCmd_done h ((ite_of_bnot hsame).trans (if_pos hlive))
  case framerDown =>
    rintro c u s₀ _ h rfl d n l f same hsame t s1 l1 s2 hlive
    exact startCmd_done h ((ite_of_bnot hsame).trans (ite_of_bnot hlive))
  case equaliser =>
    rintro c u s₀ _ h rfl l m hadapt ffe
    exact startCmd_done h (ite_of_bnot hadapt)
  case adapt =>
    rintro c u s₀ _ h rfl d n l hlive hadapt s1
    exact startCmd_waits h ((ite_bnot_of hlive).trans (ite_of_bnot hadapt))
  case deskewLane =>
    rintro c u s₀ _ h rfl d n hway hcls
    exact startCmd_pends h ((if_pos hway).trans (if_neg (not_not_intro hcls)))
  case deskewDie =>
    rintro c u s₀ _ h rfl d hway hcls mask hframed hfree
    exact startCmd_pends h ((if_neg hway).trans ((if_neg (not_not_intro hcls)).trans ((if_neg hframed).trans
      (ite_of_bnot hfree))))
  case readStatus =>
    rintro c u s₀ _ h rfl d n s1 l a l1
    exact startCmd_done h rfl
  case sweepStop =>
    rintro c u s₀ _ h rfl d n l hstop x hx
    exact startCmd_done h (monitorSweep_stop hstop hx)
  case sweepNone =>
    rintro c u s₀ _ h rfl d n l hstop hx hlive
    exact startCmd_done h (monitorSweep_stop_none hstop hx hlive)
  case sweepStart =>
    rintro c u s₀ _ h rfl d n l w k a hstop hlive hfree hkind hfeeds hdims s1
    exact startCmd_done h ((ite_of_bnot hstop).trans ((ite_bnot_of hlive).trans ((ite_of_bnot hfree).trans
      ((if_neg (by simpa using hkind)).trans ((if_neg (by simpa using hfeeds)).trans (if_neg (by simpa using hdims)))))))

/-! ## Rows of lanes (R103 to R131) -/

/-- On a live die a row's effect leads where its meaning says. -/
theorem onDie_effect {s t : State} {d : Nat} {f : State → State} (hl : live s d = true) (he : f s = t) :
    onDie d s f = .next t := by
  rw [onDie_live hl, he]

/-- Settles O19: each row's condition is the conjunction of the hypotheses. -/
theorem laneEventsTakeEffect : Obligations.LaneEventsTakeEffect := by
  refine ⟨?squelch, ?cdrLock, ?onceEnd, ?cdrLoss, ?alignFound, ?alignLost, ?word, ?detach, ?adaptEnd, ?markers, ?window,
    ?point⟩
  case squelch =>
    intro d n on s hl l hn hsig s1
    exact onDie_effect hl (if_pos (Bool.and_eq_true_iff.2 ⟨decide_eq_true hn, hsig⟩))
  case cdrLock =>
    intro d n freqOfs s hl l hn hf hst hcdr hsig htrack hlock l1
    have hdue : (n < 16 && !faulted s d && l.state == .acquire && !l.cdrLock && l.signal && cdrTracks freqOfs.toInt &&
        (pllOf s d (1 + n / 4)).locked) = true := by
      simp only [hn, hf, hst, hcdr, hsig, htrack, hlock, decide_true, Bool.and_self]
    exact onDie_effect hl (if_pos hdue)
  case onceEnd =>
    intro d n eq s hl l t ht hn hf hdue hst l1 s1
    have hend : (n < 16 && !faulted s d && t ≤ s.now && l.state == .acquire) = true := by
      simp only [hn, hf, hdue, hst, decide_true, Bool.and_self]
    change execOnceAdaptEnd d n eq s = _
    refine onDie_effect hl ?_
    simp only [show (laneOf s d n).onceEnd = some t from ht]
    exact if_pos hend
  case cdrLoss =>
    intro d n s hl l hn hcdr
    exact onDie_effect hl (if_pos (Bool.and_eq_true_iff.2 ⟨decide_eq_true hn, hcdr⟩))
  case alignFound =>
    intro d n ui stamp s hl l l1 hfound hn hf hst t s1
    have hdue : (n < 16 && !faulted s d && l.state == .locked) = true := by
      simp only [hn, hf, hst, decide_true, Bool.and_self]
    change execFrameAlignFound d n ui stamp s = _
    refine onDie_effect hl ?_
    simp only [show alignFound (laneOf s d n) ui = some l1 from hfound]
    exact if_pos hdue
  case alignLost =>
    intro d n stamp s hl hn hst hlost t s1
    exact onDie_effect hl (if_pos (by simp only [hn, hst, hlost, decide_true, Bool.and_self]))
  case word =>
    intro d n ui stamp stamp2 s hl l hn hf hin hlost bs
    have hdue : (n < 16 && !faulted s d && inAttach l && !alignLost l) = true := by
      simp only [hn, hf, hin, hlost, decide_true, Bool.and_self]
    exact onDie_effect hl (if_pos hdue)
  case detach =>
    intro d n s hl hn
    exact onDie_effect hl (if_pos (decide_eq_true hn))
  case adaptEnd =>
    intro d n eq s hl l a ha hn hdue k s1 l0 l1 l2 s2 u
    change execLaneAdaptEnd d n eq s = _
    refine onDie_effect hl ?_
    simp only [show (laneOf s d n).adapt = some a from ha]
    exact if_pos (Bool.and_eq_true_iff.2 ⟨decide_eq_true hn, decide_eq_true hdue⟩)
  case markers =>
    intro d arrivals s hl a ha hdue hseen lanes at_ last skew s1 u
    change execDeskewMarkersSeen d arrivals s = _
    refine onDie_effect hl ?_
    simp only [ha]
    exact if_pos (Bool.and_eq_true_iff.2 ⟨decide_eq_true hdue, decide_eq_true hseen⟩)
  case window =>
    intro d s hl a ha hdue s1
    change execDeskewWindowTimeout d s = _
    refine onDie_effect hl ?_
    simp only [ha]
    exact if_pos (decide_eq_true hdue)
  case point =>
    intro d n count s hl l w hw hn hlive v s1 s2 last w1 s3
    change execMonitorPointDone d n count s = _
    refine onDie_effect hl ?_
    simp only [show (laneOf s d n).sweep = some w from hw]
    exact if_pos (Bool.and_eq_true_iff.2 ⟨decide_eq_true hn, hlive⟩)

end Sys2Proof.Machine

namespace Sys2Proof.Machine

/-! ## Coarse time and timestamps (R152, R153) -/

/-- The coarse count has 56 bits (R153). -/
theorem dieTime_lt (s : State) (d : Nat) : dieTime s d < 2 ^ 56 := by
  simp only [dieTime]
  split
  · exact Nat.two_pow_pos 56
  split
  · exact Nat.mod_lt _ (Nat.two_pow_pos 56)
  · exact Nat.mod_lt _ (Nat.two_pow_pos 56)

/-- A count that runs on the FPLL has its base value and the ticks since then. -/
theorem dieTime_counting {s : State} {d : Nat} (hr : (dieClk s d).running = true) (hh : (dieClk s d).holding = false) :
    dieTime s d = ((dieClk s d).base + (s.now - (dieClk s d).atTick)) % 2 ^ 56 := by
  simp [dieTime, hr, hh]

/-- A stamp that lies `x` after another differs from it by `x`, taken as a signed number (R153). -/
theorem stampDiff_add_self (a x : Stamp) : stampDiff (a + x) a = x.toInt := by
  rw [stampDiff, BitVec.add_comm, BitVec.add_sub_cancel]

theorem stampDiff_self_add (a x : Stamp) : stampDiff a (a + x) = (-x).toInt := by
  rw [stampDiff, BitVec.sub_eq_add_neg, BitVec.neg_add, BitVec.sub_eq_add_neg, ← BitVec.add_assoc,
    BitVec.add_right_neg, BitVec.zero_add]

/-- A number below half the range keeps its value when it is taken as a signed one. -/
theorem toInt_ofNat_lt_half {n : Nat} (h : n < 2 ^ 63) : (BitVec.ofNat 64 n).toInt = n := by
  rw [BitVec.toInt_ofNat', Int.bmod_eq_of_le] <;> omega

theorem toInt_neg_ofNat_lt_half {n : Nat} (h : n < 2 ^ 63) : (-BitVec.ofNat 64 n).toInt = -(n : Int) := by
  rw [BitVec.toInt_neg, toInt_ofNat_lt_half h, Int.bmod_eq_of_le] <;> omega

/-- Settles O50: a tick adds one to the count modulo 2^56; the signed difference of two stamps is their true distance
below 2^63 units of the fine part, which are 2^55 ticks. -/
theorem timeWrapsAndComparesSigned : Obligations.TimeWrapsAndComparesSigned := by
  refine ⟨dieTime_lt, fun s d hr hh hat => ?tick, fun a n hpos hlt => ⟨?later, ?earlier⟩, fun a => ?same⟩
  case tick =>
    have hnext : dieTime { s with now := s.now + 1 } d =
        ((dieClk s d).base + (s.now + 1 - (dieClk s d).atTick)) % 2 ^ 56 :=
      dieTime_counting (s := { s with now := s.now + 1 }) hr hh
    rw [hnext, dieTime_counting hr hh]
    split
    · omega
    · omega
  case later =>
    rw [stampLt, stampDiff_self_add, toInt_neg_ofNat_lt_half hlt]
    exact decide_eq_true (by omega)
  case earlier =>
    rw [stampLt, stampDiff_add_self, toInt_ofNat_lt_half hlt]
    exact decide_eq_false (by omega)
  case same =>
    simp [stampLt, stampDiff]

/-! ## The commands of clocks, SYNC and TDC (R149 to R174) -/

/-- TDC_READ writes the result of the last measurement to host memory (R174). -/
theorem tdcRead_eff {c : Cmd} {fid u : Nat} {s : State} {r : TdcRec} (hr : (tdcOf s (uDie u)).result = some r) :
    tdcReadDef.eff c fid u s = (hostWrite s c.port (fld c.payload 0 8) (tdcBytes r), ok) := by
  simp only [tdcReadDef, hr]

/-- Settles O3: each command's effect gives the branch that its conditions select. -/
theorem clockCommandsComplete : Obligations.ClockCommandsComplete := by
  refine ⟨?pllConfigure, ?pllStep, ?refoutRuns, ?refoutStart, ?refoutIdle, ?refoutStop, ?timeRead, ?syncArm, ?refSetMode,
    ?tdcCancel, ?tdcArm, ?tdcRead⟩
  case pllConfigure =>
    rintro c u s₀ _ h rfl d k f hfield hasleep hrate
    exact startCmd_done h ((if_neg hfield).trans ((if_neg (by simpa using hasleep)).trans (if_neg (by simpa using hrate))))
  case pllStep =>
    rintro c u s₀ _ h rfl d k p v t hlo hhi hstep hofs hfree hawake
    have hrange : ¬(v.natAbs > 20000 || t.natAbs > 100000) = true := by
      simpa only [Bool.or_eq_true, decide_eq_true_eq, not_or] using ⟨hstep, hofs⟩
    exact startCmd_waits h ((ite_bnot_of (Bool.and_eq_true_iff.2 ⟨decide_eq_true hlo, decide_eq_true hhi⟩)).trans
      ((if_neg hrange).trans ((ite_of_bnot hfree).trans (ite_bnot_of hawake))))
  case refoutRuns =>
    rintro c u s₀ _ h rfl r hhold hon
    exact startCmd_done h ((ite_of_bnot hhold).trans (if_pos hon))
  case refoutStart =>
    rintro c u s₀ _ h rfl r hhold hoff
    exact startCmd_pends h ((ite_of_bnot hhold).trans (ite_of_bnot hoff))
  case refoutIdle =>
    rintro c u s₀ _ h rfl r hoff hdue
    exact startCmd_done h (if_pos (Bool.and_eq_true_iff.2 ⟨hoff, hdue⟩))
  case refoutStop =>
    rintro c u s₀ _ h rfl r hbusy
    exact startCmd_pends h (if_neg hbusy)
  case timeRead =>
    rintro c u s₀ _ h rfl
    exact startCmd_done h rfl
  case syncArm =>
    rintro c u s₀ _ h rfl f k act sync
    exact startCmd_done h rfl
  case refSetMode =>
    rintro c u s₀ _ h rfl
    exact startCmd_done h rfl
  case tdcCancel =>
    rintro c u s₀ _ h rfl d t hawake hdll hcancel
    exact startCmd_done h ((ite_bnot_of (Bool.and_eq_true_iff.2 ⟨hawake, hdll⟩)).trans (if_pos hcancel))
  case tdcArm =>
    rintro c u s₀ _ h rfl d t hawake hdll hcancel hstart hstops hfree a s1
    have hsources : ¬(!tdcSrcOn d (pb c 0, pb c 1) || !(tdcStops c).all (tdcSrcOn d)) = true := by
      rw [hstart, hstops]
      exact Bool.false_ne_true
    exact startCmd_done h ((ite_bnot_of (Bool.and_eq_true_iff.2 ⟨hawake, hdll⟩)).trans ((ite_of_bnot hcancel).trans
      ((if_neg hsources).trans (ite_of_bnot hfree))))
  case tdcRead =>
    rintro c u s₀ _ h rfl r hr
    exact startCmd_done h (tdcRead_eff hr)

end Sys2Proof.Machine

namespace Sys2Proof.Machine

/-! ## The commands of capture streams (R200 to R225) -/

/-- The five checks of CAPTURE_ARM, in their order, refuse nothing that passes them (R212, R216, R342). -/
theorem captureArm_checks_pass {α : Type} {safe idle asleep fits : Bool} {slots need : Nat} {e₁ e₂ e₃ e₄ e₅ r : α}
    (hsafe : (!safe) = true) (hidle : idle = true) (hawake : ¬asleep = true) (hfits : fits = true) (hneed : need ≤ slots) :
    (if safe then e₁ else if !idle then e₂ else if asleep then e₃ else if !fits then e₄ else if slots < need then e₅
      else r) = r :=
  (ite_of_bnot hsafe).trans ((ite_bnot_of hidle).trans ((if_neg hawake).trans ((ite_bnot_of hfits).trans
    (if_neg (Nat.not_lt.2 hneed)))))

/-- STREAM_UNBIND takes the binding away once the ring's open buffer has ended, or no longer delivers (R621). -/
theorem streamUnbind_eff {c : Cmd} {fid u r : Nat} {s t : State} (hr : (streamOf s (uDie u) (uIdx u)).ring = some r)
    (ht : (if ringServes s r && endBuf s r then closeBuf s r false true else leaveRing s (uDie u) (uIdx u)) = t) :
    streamUnbindDef.eff c fid u s =
      (setStream t (uDie u) (uIdx u) { streamOf t (uDie u) (uIdx u) with ring := none, endDue := false }, ok) := by
  simp only [streamUnbindDef, hr, ht]

/-- Settles O4: each command's effect gives the branch that its conditions select. -/
theorem streamCommandsComplete : Obligations.StreamCommandsComplete := by
  refine ⟨?configure, ?armOpens, ?armHeld, ?disarm, ?rollStart, ?rollStop, ?allocate, ?bind, ?unbind, ?resend, ?mark,
    ?rate, ?record⟩
  case configure =>
    rintro c u s₀ _ h rfl d i x n discard hmode hstate hcplx s1 y
    exact startCmd_done h ((ite_bnot_of hmode).trans ((ite_bnot_of hstate).trans (ite_bnot_of hcplx)))
  case armOpens =>
    rintro cm u s₀ _ h rfl d i x m hsafe hexpo hidle hawake hdens hcplx hslots g y c s1 hroom
    have hready : (isExpo i && x.state == .idle && awake (taken captureArmDef cm s₀ u) u) = true := by
      simp only [hexpo, hidle, hawake, Bool.and_self]
    exact startCmd_done h ((captureArm_checks_pass hsafe hready hdens hcplx hslots).trans (if_pos hroom))
  case armHeld =>
    rintro cm u s₀ _ h rfl d i x m hsafe hexpo hidle hawake hdens hcplx hslots g y c s1 hfull
    have hready : (isExpo i && x.state == .idle && awake (taken captureArmDef cm s₀ u) u) = true := by
      simp only [hexpo, hidle, hawake, Bool.and_self]
    exact startCmd_done h ((captureArm_checks_pass hsafe hready hdens hcplx hslots).trans (if_neg (Nat.not_le.2 hfull)))
  case disarm =>
    rintro c u s₀ _ h rfl d i harmed
    exact startCmd_waits h (ite_bnot_of harmed)
  case rollStart =>
    rintro c u s₀ _ h rfl d i x hidle hawake hmode hslots
    have hready : (x.state == .idle && awake (taken rollStartDef c s₀ u) u && x.mode = 1) = true := by
      simp only [hidle, hawake, hmode, decide_true, Bool.and_self]
    exact startCmd_done h ((ite_bnot_of hready).trans (if_neg hslots))
  case rollStop =>
    rintro c u s₀ _ h rfl d i hrolling
    exact startCmd_waits h (if_neg hrolling)
  case allocate =>
    rintro c u s₀ _ h rfl d i x n size hidle hempty hsize s1 y
    exact startCmd_done h ((ite_bnot_of (Bool.and_eq_true_iff.2 ⟨hidle, hempty⟩)).trans (if_neg (Nat.not_lt.2 hsize)))
  case bind =>
    rintro c u s₀ _ h rfl d i x r hring hservice hfree
    have hunbound : ¬(x.ring.isSome || x.service.isSome || (boundStream (taken streamBindDef c s₀ u) r).isSome) = true := by
      simp only [Bool.not_eq_true'] at hring hservice hfree
      simp only [hring, hservice, hfree, Bool.or_self, Bool.false_eq_true, not_false_eq_true]
    exact startCmd_done h (if_neg hunbound)
  case unbind =>
    rintro c u s₀ _ h rfl d i r hr s1
    exact startCmd_done h (streamUnbind_eff hr rfl)
  case resend =>
    rintro c u s₀ _ h rfl d i x hring hqueue l hl s1
    refine startCmd_waits h ((ite_of_bnot hring).trans ((if_neg (Nat.not_le.2 hqueue)).trans ?_))
    dsimp only [x, d, i] at hl
    simp only [hl]
    rfl
  case mark =>
    rintro c u s₀ _ h rfl d i hconfigured
    exact startCmd_done h (if_neg hconfigured)
  case rate =>
    rintro c u s₀ _ h rfl x burst
    exact startCmd_done h rfl
  case record =>
    rintro c u s₀ _ h rfl d i x hkeep k hk mine hlen s1 y s2
    refine startCmd_done h ((ite_bnot_of hkeep).trans ?_)
    dsimp only [x, d, i] at hk
    simp only [hk]
    exact if_neg (Nat.not_lt.2 hlen)

end Sys2Proof.Machine

namespace Sys2Proof.Machine

/-! ## The commands of Shutter (R239 to R272) -/

/-- Settles O5: each command's effect gives the branch that its conditions select. -/
theorem shutterCommandsComplete : Obligations.ShutterCommandsComplete := by
  refine ⟨?matcherLoad, ?negstoreLoad, ?negstoreClear, ?comparator, ?seqLoad, ?seqArm, ?seqDisarm, ?fireDie, ?firePackage,
    ?trigIn, ?trigOut, ?countersStream, ?countersSeq, ?countersDie⟩
  case matcherLoad =>
    rintro c u s₀ _ h rfl l st
    exact startCmd_done h rfl
  case negstoreLoad =>
    rintro c u s₀ _ h rfl d g rs hawake hrecs r s1
    exact startCmd_end h ((ite_bnot_of hawake).trans (ite_bnot_of hrecs))
  case negstoreClear =>
    rintro c u s₀ _ h rfl d g m g1 g2
    exact startCmd_done h rfl
  case comparator =>
    rintro c u s₀ _ h rfl d x
    exact startCmd_done h rfl
  case seqLoad =>
    rintro c u s₀ _ h rfl q p hidle
    exact startCmd_done h (ite_of_bnot hidle)
  case seqArm =>
    rintro c u s₀ _ h rfl q hidle hloaded
    have hready : ¬(q.armed || !q.loaded) = true := by
      simpa using And.intro hidle hloaded
    exact startCmd_done h (if_neg hready)
  case seqDisarm =>
    rintro c u s₀ _ h rfl q harmed
    exact startCmd_done h (ite_bnot_of harmed)
  case fireDie =>
    rintro c u s₀ _ h rfl d t hdie hsource
    exact startCmd_done h ((if_pos hdie).trans (if_neg (Nat.not_le.2 hsource)))
  case firePackage =>
    rintro c u s₀ _ h rfl d t hdie hvalue
    exact startCmd_done h ((if_neg hdie).trans (if_neg (not_not_intro hvalue)))
  case trigIn =>
    rintro c u s₀ _ h rfl
    exact startCmd_done h rfl
  case trigOut =>
    rintro c u s₀ _ h rfl p x g
    exact startCmd_done h rfl
  case countersStream =>
    rintro c u s₀ _ h rfl d clear hstream k
    exact startCmd_done h (if_pos hstream)
  case countersSeq =>
    rintro c u s₀ _ h rfl hstream hseq
    exact startCmd_done h ((if_neg hstream).trans (if_pos hseq))
  case countersDie =>
    rintro c u s₀ _ h rfl d clear hstream hseq
    exact startCmd_done h ((if_neg hstream).trans (if_neg hseq))

/-! ## Rows of Shutter (R21, R251 to R267) -/

/-- An event owed to a pin is answered from its place on, where no new idle level comes at or before it (R265). -/
theorem execTrigOutEdge_answers {n : Nat} {s : State} {e : OutEdge} {r : List OutEdge}
    (hpend : (trigOutOf s n).pend = e :: r)
    (hidle : ((trigOutOf s n).idles.head?.all fun p => decide (e.at_ < p.1 * 256)) = true)
    (hdue : e.at_ ≤ s.now * 256 + 255) :
    execTrigOutEdge n s = .next (outAnswer s n (endPulse { trigOutOf s n with pend := r } e.at_) e) := by
  unfold execTrigOutEdge
  cases hi : (trigOutOf s n).idles with
  | nil => simp only [hi, hpend, whenB_holds (decide_eq_true hdue)]
  | cons p q =>
    have hlt : e.at_ < p.1 * 256 := by simpa [hi] using hidle
    simp only [hi, hpend, if_pos hlt, whenB_holds (decide_eq_true hdue)]

/-- A pin's new idle level comes at its tick, and before an event owed at the same place or later (R267). -/
theorem execTrigOutEdge_takesIdle {n t : Nat} {v : Bool} {q : List (Nat × Bool)} {s : State}
    (hidles : (trigOutOf s n).idles = (t, v) :: q)
    (hpend : ((trigOutOf s n).pend.head?.all fun e => decide (t * 256 ≤ e.at_)) = true) (hdue : t ≤ s.now) :
    execTrigOutEdge n s = .next (setTrigOut s n (takeIdle (trigOutOf s n) (t * 256) v q)) := by
  unfold execTrigOutEdge
  cases hp : (trigOutOf s n).pend with
  | nil => simp only [hp, hidles, whenB_holds (decide_eq_true hdue)]
  | cons e r =>
    have hle : t * 256 ≤ e.at_ := by simpa [hp] using hpend
    simp only [hp, hidles, if_neg (Nat.not_lt.2 hle), whenB_holds (decide_eq_true hdue)]

/-- A due expiry of the sequencer, or else of what it still evaluates from before its disarming, is evaluated (R258, R261). -/
theorem execSequencerTimerExpiry_due {q k e : Nat} {s : State}
    (hdue : timerDue s q k = some e ∨ (timerDue s q k = none ∧ timerDue s (16 + q) k = some e)) :
    execSequencerTimerExpiry q k s = .next (evalTick s e) := by
  rcases hdue with hrun | ⟨hnone, hold⟩
  · simp only [execSequencerTimerExpiry, hrun]
  · simp only [execSequencerTimerExpiry, hnone, hold]

/-- Settles O21: each row's condition is the conjunction of the hypotheses. -/
theorem shutterEventsTakeEffect : Obligations.ShutterEventsTakeEffect := by
  refine ⟨?inEdge, ?filter, ?evaluate, ?timer, ?outEdge, ?idle, ?pulseEnd, ?arrival, ?sampled, ?analogue⟩
  case inEdge =>
    intro n rising cap tap s hn x q e ph close x1 s1
    exact congrArg _ (if_neg (Nat.not_le.2 hn))
  case filter =>
    intro n s x e he hdue
    change execTrigInFilterExpiry n s = _
    simp only [execTrigInFilterExpiry, show (trigInOf s n).pendEdge = some e from he]
    exact congrArg _ (whenB_holds (decide_eq_true hdue))
  case evaluate =>
    intro s t ht hclock hdue hfirst
    have hcond : (!(dieClk s 0).holding && t + 48 ≤ s.now && noExpiryBefore s t) = true := by
      simp only [hclock, hdue, hfirst, decide_true, Bool.and_self]
    change execSequencerEvaluate s = _
    simp only [execSequencerEvaluate, ht, whenB_holds hcond]
  case timer =>
    intro q k e s hdue
    exact execSequencerTimerExpiry_due hdue
  case outEdge =>
    intro n s x e r hpend hidle hdue
    exact execTrigOutEdge_answers hpend hidle hdue
  case idle =>
    intro n s x t v q hidles hpend hdue
    exact execTrigOutEdge_takesIdle hidles hpend hdue
  case pulseEnd =>
    intro n s x t ht hdue
    change execTrigOutPulseEnd n s = _
    simp only [execTrigOutPulseEnd, show (trigOutOf s n).pulseEnd = some t from ht]
    exact congrArg _ (whenB_holds (decide_eq_true hdue))
  case arrival =>
    intro s e he hon hdue s1 e1
    change execShutterEventArrival s = _
    simp only [execShutterEventArrival, he]
    exact congrArg _ (whenB_holds (Bool.and_eq_true_iff.2 ⟨hon, decide_eq_true hdue⟩))
  case sampled =>
    intro d k xa xb ta tb low high s hl m g x y rest hk hg hmode hfound hx
    change execLevelCrossing d k xa xb ta tb low high s = _
    refine onDie_effect hl ((whenB_holds (Bool.and_eq_true_iff.2 ⟨decide_eq_true hk, hg⟩)).trans ((if_pos hmode).trans ?_))
    simp only [show (cmpOf s d (2 + k)).found = y :: rest from hfound]
    exact if_pos hx
  case analogue =>
    intro d k xa xb ta tb low high s hl m g m1 up down hk hg hmode hinput hcrossed
    change execLevelCrossing d k xa xb ta tb low high s = _
    exact onDie_effect hl ((whenB_holds (Bool.and_eq_true_iff.2 ⟨decide_eq_true hk, hg⟩)).trans ((if_neg hmode).trans
      (if_pos (Bool.and_eq_true_iff.2 ⟨hinput, hcrossed⟩))))

end Sys2Proof.Machine

namespace Sys2Proof.Machine

/-! ## The fields of an instruction word (R387) -/

theorem bits_lt (v lo w : Nat) : bits v lo w < 2 ^ w := Nat.mod_lt _ (Nat.two_pow_pos w)

section
variable {w op d a b f imm pos len : Nat} {o : EngOp}

/-- A REG word holds its fields. -/
theorem encReg_eq_some (h : encReg op d a b f = some w) (hop : op < 64) :
    w < 2 ^ 32 ∧ bits w 26 6 = op ∧ bits w 21 5 = d ∧ bits w 16 5 = a ∧ bits w 11 5 = b ∧ bits w 0 11 = f := by
  simp only [encReg, Option.ite_none_right_eq_some, Bool.and_eq_true, decide_eq_true_eq, Option.some.injEq] at h
  simp only [bits]
  omega

/-- An IMM word holds its fields. -/
theorem encImm_eq_some (h : encImm op d a imm = some w) (hop : op < 64) :
    w < 2 ^ 32 ∧ bits w 26 6 = op ∧ bits w 21 5 = d ∧ bits w 16 5 = a ∧ w % 2 ^ 16 = imm := by
  simp only [encImm, Option.ite_none_right_eq_some, Bool.and_eq_true, decide_eq_true_eq, Option.some.injEq] at h
  simp only [bits]
  omega

/-- An IMM word holds its 16-bit immediate. -/
theorem encImm_toNat_eq_some {v : W16} (h : encImm op d a v.toNat = some w) (hop : op < 64) :
    w < 2 ^ 32 ∧ bits w 26 6 = op ∧ bits w 21 5 = d ∧ bits w 16 5 = a ∧ BitVec.ofNat 16 w = v := by
  obtain ⟨hw, hop', hd, ha, hlow⟩ := encImm_eq_some h hop
  exact ⟨hw, hop', hd, ha, BitVec.eq_of_toNat_eq ((BitVec.toNat_ofNat ..).trans hlow)⟩

/-- A JMP word holds its fields. -/
theorem encJmp_eq_some {v : W21} (h : encJmp op d v = some w) (hop : op < 64) :
    w < 2 ^ 32 ∧ bits w 26 6 = op ∧ bits w 21 5 = d ∧ BitVec.ofNat 21 w = v := by
  have hv := v.isLt
  simp only [encJmp, Option.ite_none_right_eq_some, Option.some.injEq] at h
  have hfields : w < 2 ^ 32 ∧ bits w 26 6 = op ∧ bits w 21 5 = d ∧ w % 2 ^ 21 = v.toNat := by
    simp only [bits]
    omega
  obtain ⟨hw, hop', hd, hlow⟩ := hfields
  exact ⟨hw, hop', hd, BitVec.eq_of_toNat_eq ((BitVec.toNat_ofNat ..).trans hlow)⟩

/-- The word of EXTR or INSR holds its fields. -/
theorem encField_eq_some (h : encField op d a pos len = some w) (hop : op < 64) :
    w < 2 ^ 32 ∧ bits w 26 6 = op ∧ bits w 21 5 = d ∧ bits w 16 5 = a ∧ bits w 0 3 = 0 ∧ bits w 9 7 = pos ∧
      bits w 3 6 + 1 = len := by
  simp only [encField, Option.ite_none_right_eq_some, Bool.and_eq_true, decide_eq_true_eq] at h
  obtain ⟨⟨⟨hpos, hlen⟩, hlen'⟩, himm⟩ := h
  obtain ⟨hw, hop', hd, ha, hlow⟩ := encImm_eq_some himm hop
  refine ⟨hw, hop', hd, ha, ?_⟩
  simp only [bits]
  omega

/-- The fields of a word, put together in the REG form, give the word back. -/
theorem encReg_bits (h : w < 2 ^ 32) (hop : bits w 26 6 = op) :
    encReg op (bits w 21 5) (bits w 16 5) (bits w 11 5) (bits w 0 11) = some w := by
  have hd := bits_lt w 21 5
  have ha := bits_lt w 16 5
  have hb := bits_lt w 11 5
  have hf := bits_lt w 0 11
  rw [encReg, if_pos (by simp only [Bool.and_eq_true, decide_eq_true_eq]; omega), ← hop]
  simp only [bits, Option.some.injEq]
  omega

/-- So do those of the IMM form, the immediate as a number. -/
theorem encImm_bits (h : w < 2 ^ 32) (hop : bits w 26 6 = op) :
    encImm op (bits w 21 5) (bits w 16 5) (w % 2 ^ 16) = some w := by
  have hd := bits_lt w 21 5
  have ha := bits_lt w 16 5
  rw [encImm, if_pos (by simp only [Bool.and_eq_true, decide_eq_true_eq]; omega), ← hop]
  simp only [bits, Option.some.injEq]
  omega

/-- So do those of the IMM form, the immediate as a bit vector. -/
theorem encImm_ofNat (h : w < 2 ^ 32) (hop : bits w 26 6 = op) :
    encImm op (bits w 21 5) (bits w 16 5) (BitVec.ofNat 16 w).toNat = some w :=
  BitVec.toNat_ofNat w 16 ▸ encImm_bits h hop

/-- So do those of the JMP form. -/
theorem encJmp_bits (h : w < 2 ^ 32) (hop : bits w 26 6 = op) :
    encJmp op (bits w 21 5) (BitVec.ofNat 21 w) = some w := by
  simp only [bits] at hop
  simp only [encJmp, Option.ite_none_right_eq_some, BitVec.toNat_ofNat, Option.some.injEq, bits]
  omega

/-- So do those of EXTR and INSR, whose low bits are 0. -/
theorem encField_bits (h : w < 2 ^ 32) (hop : bits w 26 6 = op) (hlow : bits w 0 3 = 0) :
    encField op (bits w 21 5) (bits w 16 5) (bits w 9 7) (bits w 3 6 + 1) = some w := by
  have himm : bits w 9 7 * 512 + (bits w 3 6 + 1 - 1) * 8 = w % 2 ^ 16 := by
    simp only [bits] at hlow ⊢
    omega
  have hpos := bits_lt w 9 7
  have hlen := bits_lt w 3 6
  rw [encField, if_pos (by simp only [Bool.and_eq_true, decide_eq_true_eq]; omega), himm, encImm_bits h hop]

/-! ## The words of each operation code (R388 to R390) -/

theorem engDecode_alu (h : encReg 0x00 d a b f = some w) : w < 2 ^ 32 ∧ engDecode w = aluDecode d a b f := by
  obtain ⟨hw, hop, hd, ha, hb, hf⟩ := encReg_eq_some h (by decide)
  exact ⟨hw, by simp only [engDecode, hop, hd, ha, hb, hf]⟩

theorem engDecode_stream (h : encReg 0x30 d a b f = some w) : w < 2 ^ 32 ∧ engDecode w = streamDecode d a b f := by
  obtain ⟨hw, hop, hd, ha, hb, hf⟩ := encReg_eq_some h (by decide)
  exact ⟨hw, by simp only [engDecode, hop, hd, ha, hb, hf]⟩

theorem engDecode_sys (h : encReg 0x38 d a b f = some w) : w < 2 ^ 32 ∧ engDecode w = sysDecode d a b f := by
  obtain ⟨hw, hop, hd, ha, hb, hf⟩ := encReg_eq_some h (by decide)
  exact ⟨hw, by simp only [engDecode, hop, hd, ha, hb, hf]⟩

/-- An ALU instruction has the word of its function. -/
theorem engEncode_alu (h : aluDecode d a b f = some o) : engEncode o = encReg 0x00 d a b f := by
  unfold aluDecode at h
  split at h <;> grind [engEncode]

/-- A stream instruction has the word of its function. -/
theorem engEncode_stream (h : streamDecode d a b f = some o) : engEncode o = encReg 0x30 d a b f := by
  unfold streamDecode at h
  split at h <;> grind [engEncode]

/-- A system instruction has the word of its function. -/
theorem engEncode_sys (ha : a < 32) (hb : b < 32) (h : sysDecode d a b f = some o) :
    engEncode o = encReg 0x38 d a b f := by
  unfold sysDecode at h
  split at h <;> grind [engEncode]

/-- An instruction's word decodes to the instruction. -/
theorem engDecode_engEncode (h : engEncode o = some w) : w < 2 ^ 32 ∧ engDecode w = some o := by
  cases o
  case engAdd d a b | engSub d a b | engAnd d a b | engOr d a b | engXor d a b | andn d a b | shl d a b | shr d a b
      | sar d a b | ror d a b | slt d a b | sltu d a b | engMin d a b | engMax d a b | minu d a b | maxu d a b
      | engMul d a b | mulhu d a b | mulh d a b | clz d a | ctz d a | popc d a | bswap d a | movw d a | setside d a b
      | getside d a =>
    exact engDecode_alu h
  case addi d a v | andi d a v | ori d a v | xori d a v | slti d a v | sltiu d a v | ldb d a v | ldh d a v | ldd d a v
      | ldq d a v | ldw d a v | stb d a v | sth d a v | std d a v | stq d a v | stw d a v | beq d a v | bne d a v
      | blt d a v | bge d a v | bltu d a v | bgeu d a v | jalr d a v =>
    obtain ⟨hw, hop, hd, ha, hv⟩ := encImm_toNat_eq_some h (by decide)
    exact ⟨hw, by simp only [engDecode, hop, hd, ha, hv]⟩
  case movz d k v | movk d k v =>
    obtain ⟨hk, h⟩ := Option.ite_none_right_eq_some.1 h
    obtain ⟨hw, hop, hd, ha, hv⟩ := encImm_toNat_eq_some h (by decide)
    exact ⟨hw, by simp only [engDecode, hop, hd, ha, hv, hk, if_true]⟩
  case shifti d a kind amt =>
    simp only [engEncode, Option.ite_none_right_eq_some, Bool.and_eq_true, decide_eq_true_eq] at h
    obtain ⟨⟨hkind, hamt⟩, h⟩ := h
    obtain ⟨hw, hop, hd, ha, hlow⟩ := encImm_eq_some h (by decide)
    have hfields : bits w 8 8 = 0 ∧ bits w 6 2 = kind ∧ bits w 0 6 = amt := by
      simp only [bits]
      omega
    obtain ⟨hrest, hk, hm⟩ := hfields
    exact ⟨hw, by simp only [engDecode, hop, hd, ha, hrest, hk, hm, if_true]⟩
  case extr d a pos len | insr d a pos len =>
    obtain ⟨hw, hop, hd, ha, hlow, hpos, hlen⟩ := encField_eq_some h (by decide)
    exact ⟨hw, by simp only [engDecode, hop, hd, ha, hlow, hpos, hlen, if_true]⟩
  case jal d v =>
    obtain ⟨hw, hop, hd, hv⟩ := encJmp_eq_some h (by decide)
    exact ⟨hw, by simp only [engDecode, hop, hd, hv]⟩
  case sin d p | savail d p | sin2 d p =>
    obtain ⟨hp, h⟩ := Option.ite_none_right_eq_some.1 h
    obtain ⟨hw, hdec⟩ := engDecode_stream h
    exact ⟨hw, hdec.trans (if_pos (by simpa using hp))⟩
  case sinfo d p sel =>
    obtain ⟨hp, h⟩ := Option.ite_none_right_eq_some.1 h
    obtain ⟨hw, hdec⟩ := engDecode_stream h
    exact ⟨hw, hdec.trans (if_pos (by simpa [and_comm] using hp))⟩
  case sout q a b | sspace d q =>
    obtain ⟨hq, h⟩ := Option.ite_none_right_eq_some.1 h
    obtain ⟨hw, hdec⟩ := engDecode_stream h
    exact ⟨hw, hdec.trans (if_pos (by simpa using hq))⟩
  case engCrc d a b n =>
    obtain ⟨hn, h⟩ := Option.ite_none_right_eq_some.1 h
    obtain ⟨hw, hop, hd, ha, hb, hf⟩ := encReg_eq_some h (by decide)
    exact ⟨hw, by simp only [engDecode, hop, hd, ha, hb, hf, hn, if_true]⟩
  case engHash d a b cls =>
    cases cls with
    | none =>
      obtain ⟨hw, hop, hd, ha, hb, hf⟩ := encReg_eq_some h (by decide)
      exact ⟨hw, by simp only [engDecode, hop, hd, ha, hb, hf, if_true]⟩
    | some c =>
      obtain ⟨hc, h⟩ := Option.ite_none_right_eq_some.1 h
      obtain ⟨hw, hop, hd, ha, hb, hf⟩ := encReg_eq_some h (by decide)
      have hrange : (decide (0x100 ≤ 0x100 + c) && decide (0x100 + c < 0x110)) = true := by
        simp only [Bool.and_eq_true, decide_eq_true_eq]
        omega
      exact ⟨hw, by simp only [engDecode, hop, hd, ha, hb, hf, hrange, if_neg (show ¬0x100 + c = 0 by omega), if_true,
        Nat.add_sub_cancel_left]⟩
  case engMark d a b | trig a b =>
    obtain ⟨hw, hop, hd, ha, hb, hf⟩ := encReg_eq_some h (by decide)
    exact ⟨hw, by simp [engDecode, hop, hd, ha, hb, hf]⟩
  case nop | ckpt | mbxack | engWait d a b | halt a | mfs d sr | sev d | mbxpost a | xkick a =>
    exact engDecode_sys h
  case engTrap code =>
    obtain ⟨hcode, h⟩ := Option.ite_none_right_eq_some.1 h
    obtain ⟨hw, hdec⟩ := engDecode_sys h
    exact ⟨hw, hdec.trans (congrArg (fun n => some (EngOp.engTrap n)) (Nat.div_add_mod' code 32))⟩
  case cache op =>
    obtain ⟨hop, h⟩ := Option.ite_none_right_eq_some.1 h
    obtain ⟨hw, hdec⟩ := engDecode_sys h
    exact ⟨hw, hdec.trans (if_pos (by simpa using hop))⟩

/-- A word that decodes to an instruction is the instruction's word. -/
theorem engEncode_engDecode (hw : w < 2 ^ 32) (h : engDecode w = some o) : engEncode o = some w := by
  unfold engDecode at h
  extract_lets d a b f imm at h
  split at h
  case h_1 hop => exact (engEncode_alu h).trans (encReg_bits hw hop)
  case h_31 hop => exact (engEncode_stream h).trans (encReg_bits hw hop)
  case h_36 hop => exact (engEncode_sys (bits_lt w 16 5) (bits_lt w 11 5) h).trans (encReg_bits hw hop)
  case h_2 hop | h_3 hop | h_4 hop | h_5 hop | h_7 hop | h_8 hop | h_13 hop | h_14 hop | h_15 hop | h_16 hop | h_17 hop
      | h_18 hop | h_19 hop | h_20 hop | h_21 hop | h_22 hop | h_23 hop | h_24 hop | h_25 hop | h_26 hop | h_27 hop
      | h_28 hop | h_30 hop =>
    obtain rfl := Option.some.inj h
    exact encImm_ofNat hw hop
  case h_6 hop =>
    obtain ⟨hrest, h⟩ := Option.ite_none_right_eq_some.1 h
    obtain rfl := Option.some.inj h
    have hkind := bits_lt w 6 2
    have hamt := bits_lt w 0 6
    have himm : bits w 6 2 * 64 + bits w 0 6 = w % 2 ^ 16 := by
      simp only [bits] at hrest ⊢
      omega
    rw [engEncode, if_pos (by simp only [Bool.and_eq_true, decide_eq_true_eq]; omega), himm, encImm_bits hw hop]
  case h_9 hop | h_10 hop =>
    obtain ⟨hk, h⟩ := Option.ite_none_right_eq_some.1 h
    obtain rfl := Option.some.inj h
    exact (if_pos hk).trans (encImm_ofNat hw hop)
  case h_11 hop | h_12 hop =>
    obtain ⟨hlow, h⟩ := Option.ite_none_right_eq_some.1 h
    obtain rfl := Option.some.inj h
    exact encField_bits hw hop hlow
  case h_29 hop =>
    obtain rfl := Option.some.inj h
    exact encJmp_bits hw hop
  case h_32 hop =>
    obtain ⟨hn, h⟩ := Option.ite_none_right_eq_some.1 h
    obtain rfl := Option.some.inj h
    exact (if_pos hn).trans (encReg_bits hw hop)
  case h_33 hop =>
    have hword := encReg_bits hw hop
    split at h
    · rename_i hf
      obtain rfl := Option.some.inj h
      rw [show bits w 0 11 = 0 from hf] at hword
      exact hword
    · obtain ⟨hrange, h⟩ := Option.ite_none_right_eq_some.1 h
      obtain rfl := Option.some.inj h
      simp only [Bool.and_eq_true, decide_eq_true_eq] at hrange
      rw [engEncode, if_pos (by omega), Nat.add_sub_cancel' hrange.1, hword]
  case h_34 hop =>
    obtain ⟨hf, h⟩ := Option.ite_none_right_eq_some.1 h
    obtain rfl := Option.some.inj h
    have hword := encReg_bits hw hop
    rw [show bits w 0 11 = 0 from hf] at hword
    exact hword
  case h_35 hop =>
    obtain ⟨hdf, h⟩ := Option.ite_none_right_eq_some.1 h
    obtain rfl := Option.some.inj h
    obtain ⟨hd0, hf0⟩ := Bool.and_eq_true_iff.1 hdf
    have hword := encReg_bits hw hop
    rw [show bits w 21 5 = 0 from of_decide_eq_true hd0, show bits w 0 11 = 0 from of_decide_eq_true hf0] at hword
    exact hword
  case h_37 => cases h

end

/-- Settles O55: the word of an instruction holds the fields from which it is decoded, and the fields of a word that is
decoded are all that it holds. -/
theorem engineWordRoundTrip : Obligations.EngineWordRoundTrip :=
  ⟨fun _ _ h => engDecode_engEncode h, fun _ _ hw h => engEncode_engDecode hw h⟩

/-- Settles O54: the six words are decoded. -/
theorem engineWordsDecodeAsWritten : Obligations.EngineWordsDecodeAsWritten := by
  unfold Obligations.EngineWordsDecodeAsWritten
  decide

end Sys2Proof.Machine

namespace Sys2Proof.Machine

/-! ## The row of an instruction (R392) -/

/-- What an engine does with an instruction: the meaning of the row that names both. -/
def runOp (e : Eng) (o : EngOp) (s : State) : Out :=
  match o with
  | .engAdd d a b => execEngAdd e d a b s
  | .engSub d a b => execEngSub e d a b s
  | .engAnd d a b => execEngAnd e d a b s
  | .engOr d a b => execEngOr e d a b s
  | .engXor d a b => execEngXor e d a b s
  | .andn d a b => execAndn e d a b s
  | .shl d a b => execShl e d a b s
  | .shr d a b => execShr e d a b s
  | .sar d a b => execSar e d a b s
  | .ror d a b => execRor e d a b s
  | .slt d a b => execSlt e d a b s
  | .sltu d a b => execSltu e d a b s
  | .engMin d a b => execEngMin e d a b s
  | .engMax d a b => execEngMax e d a b s
  | .minu d a b => execMinu e d a b s
  | .maxu d a b => execMaxu e d a b s
  | .engMul d a b => execEngMul e d a b s
  | .mulhu d a b => execMulhu e d a b s
  | .mulh d a b => execMulh e d a b s
  | .clz d a => execClz e d a s
  | .ctz d a => execCtz e d a s
  | .popc d a => execPopc e d a s
  | .bswap d a => execBswap e d a s
  | .movw d a => execMovw e d a s
  | .setside d a b => execSetside e d a b s
  | .getside d a => execGetside e d a s
  | .addi d a imm => execAddi e d a imm s
  | .andi d a imm => execAndi e d a imm s
  | .ori d a imm => execOri e d a imm s
  | .xori d a imm => execXori e d a imm s
  | .shifti d a kind amt => execShifti e d a kind amt s
  | .slti d a imm => execSlti e d a imm s
  | .sltiu d a imm => execSltiu e d a imm s
  | .movz d k imm => execMovz e d k imm s
  | .movk d k imm => execMovk e d k imm s
  | .extr d a pos len => execExtr e d a pos len s
  | .insr d a pos len => execInsr e d a pos len s
  | .ldb d a imm => execLdb e d a imm s
  | .ldh d a imm => execLdh e d a imm s
  | .ldd d a imm => execLdd e d a imm s
  | .ldq d a imm => execLdq e d a imm s
  | .ldw d a imm => execLdw e d a imm s
  | .stb d a imm => execStb e d a imm s
  | .sth d a imm => execSth e d a imm s
  | .std d a imm => execStd e d a imm s
  | .stq d a imm => execStq e d a imm s
  | .stw d a imm => execStw e d a imm s
  | .beq d a imm => execBeq e d a imm s
  | .bne d a imm => execBne e d a imm s
  | .blt d a imm => execBlt e d a imm s
  | .bge d a imm => execBge e d a imm s
  | .bltu d a imm => execBltu e d a imm s
  | .bgeu d a imm => execBgeu e d a imm s
  | .jal d imm => execJal e d imm s
  | .jalr d a imm => execJalr e d a imm s
  | .engCrc d a b n => execEngCrc e d a b n s
  | .engHash d a b cls => execEngHash e d a b cls s
  | .engMark d a b => execEngMark e d a b s
  | .trig a b => execTrig e a b s
  | .sin d p => execSin e d p s
  | .sinfo d p sel => execSinfo e d p sel s
  | .savail d p => execSavail e d p s
  | .sin2 d p => execSin2 e d p s
  | .sout q a b => execSout e q a b s
  | .sspace d q => execSspace e d q s
  | .nop => execNop e s
  | .engWait d a b => execEngWait e d a b s
  | .ckpt => execCkpt e s
  | .halt a => execHalt e a s
  | .engTrap code => execEngTrap e code s
  | .mfs d sr => execMfs e d sr s
  | .sev d => execSev e d s
  | .mbxack => execMbxack e s
  | .mbxpost a => execMbxpost e a s
  | .cache op => execCache e op s
  | .xkick a => execXkick e a s

/-- A row that names an engine and an instruction has the meaning of that instruction. -/
theorem exec_eq_runOp {i : Instr} {e : Eng} {o : EngOp} {s : State} (h : engOpOf i = some (e, o)) :
    exec i s = runOp e o s := by
  unfold engOpOf at h
  split at h
  case h_77 => cases h
  all_goals
    cases h
    rfl

section
variable {e : Eng} {w : Option Nat} {s : State}

/-- What every engine row does before its instruction: nothing where its word is not at the PC of an engine that
executes, and the ECC trap where that word has an uncorrectable error (R386, R392). -/
structure RunsAtPc (e : Eng) (w : Option Nat) (s : State) (o : Out) : Prop where
  stays : engReady s e.die e.idx = false ∨ w ≠ some (engWord s e.die e.idx) → o = .next s
  traps : engReady s e.die e.idx = true → w = some (engWord s e.die e.idx) →
    (engOf s e.die e.idx).pc ∈ (engOf s e.die e.idx).eccCode →
      o = .next (engTrap s e.die e.idx 8 (BitVec.ofNat 64 (engOf s e.die e.idx).pc))

theorem notAtPc_iff {b : Bool} {v : Nat} : (b && w == some v) = false ↔ b = false ∨ w ≠ some v := by
  simp only [Bool.and_eq_false_iff, beq_eq_false_iff_ne]

theorem atPc_iff {b : Bool} {v : Nat} : (b && w == some v) = true ↔ b = true ∧ w = some v := by
  simp only [Bool.and_eq_true, beq_iff_eq]

theorem runEng_runsAtPc (hl : live s e.die = true) (f : State → Engine → EngAct) : RunsAtPc e w s (runEng e w f s) where
  stays h := onDie_effect hl (whenB_fails (notAtPc_iff.2 h))
  traps hr hw hp := onDie_effect hl ((whenB_holds (atPc_iff.2 ⟨hr, hw⟩)).trans (if_pos (List.contains_iff_mem.2 hp)))

theorem execCkpt_runsAtPc (hl : live s e.die = true) : RunsAtPc e (engEncode .ckpt) s (execCkpt e s) where
  stays h := onDie_effect hl (whenB_fails (notAtPc_iff.2 h))
  traps hr hw hp := onDie_effect hl ((whenB_holds (atPc_iff.2 ⟨hr, hw⟩)).trans (if_pos (List.contains_iff_mem.2 hp)))

/-- WAIT takes a pending swap or stop only where its word is at the PC, free of uncorrectable errors. -/
theorem execEngWait_runsAtPc {d a b : Nat} (hl : live s e.die = true) :
    RunsAtPc e (engEncode (.engWait d a b)) s (execEngWait e d a b s) where
  stays h := by
    have hno := notAtPc_iff.2 h
    exact onDie_effect hl ((if_neg (by simp only [hno, Bool.false_and, Bool.false_eq_true, not_false_eq_true])).trans
      (whenB_fails hno))
  traps hr hw hp := by
    have hecc := List.contains_iff_mem.2 hp
    refine onDie_effect hl ((if_neg ?_).trans ((whenB_holds (atPc_iff.2 ⟨hr, hw⟩)).trans (if_pos hecc)))
    simp only [hecc, Bool.not_true, Bool.and_false, Bool.false_and, Bool.false_eq_true, not_false_eq_true]

theorem regOp_runsAtPc (hl : live s e.die = true) (d : Nat) (f : State → Engine → BitVec 72) :
    RunsAtPc e w s (regOp e w d f s) := runEng_runsAtPc hl _

theorem alu2_runsAtPc (hl : live s e.die = true) (op : W64 → W64 → W64) (d a b : Nat) :
    RunsAtPc e w s (alu2 w op e d a b s) := regOp_runsAtPc hl d _

theorem alu1_runsAtPc (hl : live s e.die = true) (op : W64 → W64) (d a : Nat) : RunsAtPc e w s (alu1 w op e d a s) :=
  regOp_runsAtPc hl d _

theorem immOp_runsAtPc (hl : live s e.die = true) (f : W64 → W16 → W64) (d a : Nat) (imm : W16) :
    RunsAtPc e w s (immOp w f e d a imm s) := regOp_runsAtPc hl d _

theorem loadOp_runsAtPc (hl : live s e.die = true) (n : Nat) (word : Bool) (d a : Nat) (imm : W16) :
    RunsAtPc e w s (loadOp w n word e d a imm s) := runEng_runsAtPc hl _

theorem storeOp_runsAtPc (hl : live s e.die = true) (n : Nat) (word : Bool) (d a : Nat) (imm : W16) :
    RunsAtPc e w s (storeOp w n word e d a imm s) := runEng_runsAtPc hl _

theorem branchOp_runsAtPc (hl : live s e.die = true) (p : W64 → W64 → Bool) (d a : Nat) (imm : W16) :
    RunsAtPc e w s (branchOp w p e d a imm s) := runEng_runsAtPc hl _

/-- Every engine row does that before its instruction. -/
theorem runOp_runsAtPc (hl : live s e.die = true) (o : EngOp) : RunsAtPc e (engEncode o) s (runOp e o s) := by
  cases o
  all_goals dsimp only [runOp]
  case engAdd | engSub | engAnd | engOr | engXor | andn | shl | shr | sar | ror | slt | sltu | engMin | engMax | minu
      | maxu | engMul | mulhu | mulh =>
    exact alu2_runsAtPc hl ..
  case clz | ctz | popc | bswap => exact alu1_runsAtPc hl ..
  case addi | andi | ori | xori | slti | sltiu => exact immOp_runsAtPc hl ..
  case movw | setside | getside | shifti | movz | movk => exact regOp_runsAtPc hl ..
  case ldb | ldh | ldd | ldq | ldw => exact loadOp_runsAtPc hl ..
  case stb | sth | std | stq | stw => exact storeOp_runsAtPc hl ..
  case beq | bne | blt | bge | bltu | bgeu => exact branchOp_runsAtPc hl ..
  case engWait => exact execEngWait_runsAtPc hl
  case ckpt => exact execCkpt_runsAtPc hl
  all_goals exact runEng_runsAtPc hl _

section
variable {f : State → Engine → EngAct} {t : State}

/-- An instruction that retires. -/
theorem runEng_done (h : executes s e w = true) (ha : f s (engOf s e.die e.idx) = .done t) :
    runEng e w f s = .next (retire t e.die e.idx) := by
  rw [runEng_executes h, ha, engAct]

/-- An instruction that retires with a new PC. -/
theorem runEng_jump {pc : Nat} (h : executes s e w = true) (ha : f s (engOf s e.die e.idx) = .jump t pc) :
    runEng e w f s = .next (retireTo t e.die e.idx pc) := by
  rw [runEng_executes h, ha, engAct]

/-- An instruction that traps. -/
theorem runEng_trap {c : Nat} {v : W64} (h : executes s e w = true) (ha : f s (engOf s e.die e.idx) = .trap t c v) :
    runEng e w f s = .next (engTrap t e.die e.idx c v) := by
  rw [runEng_executes h, ha, engAct]

end

theorem special_none {d k n : Nat} {x : Engine} (h : 9 < n) : special s d k x n = none := by
  obtain ⟨m, rfl⟩ := Nat.exists_eq_add_of_le' h
  rfl

/-- An instruction whose operand values are invalid traps ILLEGAL (R388, R390, R391, R399, R402). -/
theorem runOp_illegal {o : EngOp} (h : executes s e (engEncode o) = true) (hbad : operandsOk o = false) :
    runOp e o s = .next (engTrap s e.die e.idx 1 (BitVec.ofNat 64 (engWord s e.die e.idx))) := by
  cases o with
  | extr d a pos len =>
    change execExtr e d a pos len s = _
    exact runEng_trap h (if_pos (by simpa [operandsOk] using hbad))
  | insr d a pos len =>
    change execInsr e d a pos len s = _
    exact runEng_trap h (if_pos (by simpa [operandsOk] using hbad))
  | sin2 d p =>
    change execSin2 e d p s = _
    refine runEng_trap h (if_pos ?_)
    simp only [operandsOk, Bool.and_eq_false_iff, decide_eq_false_iff_not, Bool.or_eq_true, decide_eq_true_eq] at hbad ⊢
    omega
  | engCrc d a b n =>
    change execEngCrc e d a b n s = _
    refine runEng_trap h (if_neg ?_)
    simp only [operandsOk, Bool.and_eq_false_iff, Bool.and_eq_true, decide_eq_false_iff_not, decide_eq_true_eq] at hbad ⊢
    omega
  | engMark d a b =>
    change execEngMark e d a b s = _
    exact runEng_trap h (if_pos (by simpa [operandsOk] using hbad))
  | mfs d sr =>
    change execMfs e d sr s = _
    have hnone : special s e.die e.idx (engOf s e.die e.idx) sr = none := special_none (by simpa [operandsOk] using hbad)
    refine runEng_trap h ?_
    simp only [hnone]
    rfl
  | _ => cases hbad

end

/-- Settles O56: every row stands under the guard of its word at the PC, and the rows with invalid operand values end in
ILLEGAL. -/
theorem engineRowFollowsTheWordAtPc : Obligations.EngineRowFollowsTheWordAtPc := by
  intro i e o s hi hl
  obtain ⟨hstays, htraps⟩ := runOp_runsAtPc hl o
  rw [exec_eq_runOp hi]
  exact ⟨hstays, htraps, runOp_illegal⟩

end Sys2Proof.Machine

namespace Sys2Proof.Machine

/-! ## Instructions that write a register (R388, R389) -/

section
variable {e : Eng} {w : Option Nat} {s : State} {d a b : Nat}

theorem alu2_executes {op : W64 → W64 → W64} (h : executes s e w = true) :
    alu2 w op e d a b s =
      .next (wrote s e d (plain (op (payOf (engOf s e.die e.idx) a) (payOf (engOf s e.die e.idx) b)))) := regOp_executes h

theorem alu1_executes {op : W64 → W64} (h : executes s e w = true) :
    alu1 w op e d a s = .next (wrote s e d (plain (op (payOf (engOf s e.die e.idx) a)))) := regOp_executes h

theorem immOp_executes {f : W64 → W16 → W64} {imm : W16} (h : executes s e w = true) :
    immOp w f e d a imm s = .next (wrote s e d (plain (f (payOf (engOf s e.die e.idx) a) imm))) := regOp_executes h

end

theorem slt_iff {x y : W64} : x.slt y = true ↔ x.toInt < y.toInt := decide_eq_true_iff

theorem ult_iff {x y : W64} : x.ult y = true ↔ x.toNat < y.toNat := decide_eq_true_iff

/-- Settles O26: each instruction writes what its function gives. -/
theorem engineAluWritesResult : Obligations.EngineAluWritesResult := by
  refine ⟨?add, ?sub, ?and, ?or, ?xor, ?andn, ?shl, ?shr, ?sar, ?ror, ?slt, ?sltu, ?min, ?max, ?minu, ?maxu, ?mul, ?mulhu, ?mulh, ?clz, ?ctz, ?popc, ?bswap, ?movw, ?setside, ?getside⟩
  case add | sub | and | or | xor | andn | shl | shr | sar | ror | mul | mulhu | mulh =>
    intro e d a b s h
    refine (exec_eq_runOp rfl).trans ?_
    dsimp only [runOp]
    exact alu2_executes h
  case slt | sltu | min | max | minu | maxu =>
    intro e d a b s h
    refine (exec_eq_runOp rfl).trans ?_
    simp only [runOp, execSlt, execSltu, execEngMin, execEngMax, execMinu, execMaxu, alu2_executes h, ofB, slt_iff, ult_iff]
  case clz | ctz | popc | bswap =>
    intro e d a s h
    refine (exec_eq_runOp rfl).trans ?_
    dsimp only [runOp]
    exact alu1_executes h
  case movw | getside =>
    intro e d a s h
    refine (exec_eq_runOp rfl).trans ?_
    dsimp only [runOp]
    exact regOp_executes h
  case setside =>
    intro e d a b s h
    change execSetside e d a b s = _
    exact regOp_executes h

/-- Settles O27: each instruction writes what its function of the register and the immediate gives. -/
theorem engineImmediateWritesResult : Obligations.EngineImmediateWritesResult := by
  refine ⟨?addi, ?andi, ?ori, ?xori, ?slti, ?sltiu, ?shifti, ?movz, ?movk, ?extr, ?insr⟩
  case addi | andi | ori | xori =>
    intro e d a imm s h
    refine (exec_eq_runOp rfl).trans ?_
    dsimp only [runOp]
    exact immOp_executes h
  case slti | sltiu =>
    intro e d a imm s h
    refine (exec_eq_runOp rfl).trans ?_
    simp only [runOp, execSlti, execSltiu, immOp_executes h, ofB, slt_iff, ult_iff, sext]
  case shifti =>
    intro e d a kind amt s h
    change execShifti e d a kind amt s = _
    refine (regOp_executes h).trans ?_
    match kind with
    | 0 | 1 | 2 => rfl
    | k + 3 => rfl
  case movz =>
    intro e d k imm s h
    change execMovz e d k imm s = _
    exact regOp_executes h
  case movk =>
    intro e d k imm s h
    change execMovk e d k imm s = _
    exact regOp_executes h
  case extr =>
    intro e d a pos len s h x hfit
    change execExtr e d a pos len s = _
    exact runEng_done h (if_neg (Nat.not_lt.2 hfit))
  case insr =>
    intro e d a pos len s h x hfit
    change execInsr e d a pos len s = _
    exact runEng_done h (if_neg (Nat.not_lt.2 hfit))

end Sys2Proof.Machine

namespace Sys2Proof.Machine

/-! ## Which accesses trap (R383) -/

section
variable {s : State} {g : Option Area} {a n : Nat} {store word : Bool}

theorem accessCause_allowed (ha : a % n = 0) (hg : allows g store word = true) :
    accessCause s g a n store word = (none, s) := by
  simp only [accessCause, ha, hg, ne_eq, not_true_eq_false, decide_false, Bool.not_true, Bool.and_self,
    Bool.false_eq_true, if_false]

theorem accessCause_misaligned (ha : a % n ≠ 0) (hg : allows g store word = true) :
    accessCause s g a n store word = (some 2, s) := by
  simp only [accessCause, ha, hg, ne_eq, not_false_eq_true, decide_true, Bool.not_true, Bool.and_false,
    Bool.false_eq_true, if_false, if_true]

theorem accessCause_denied (ha : a % n = 0) (hg : allows g store word = false) :
    accessCause s g a n store word = (some 3, s) := by
  simp only [accessCause, ha, hg, ne_eq, not_true_eq_false, decide_false, Bool.not_false, Bool.false_and,
    Bool.false_eq_true, if_false, if_true]

/-- Which of the two causes comes is a free value (log entry 2). -/
theorem accessCause_both (ha : a % n ≠ 0) (hg : allows g store word = false) :
    ∃ c, (c = 2 ∨ c = 3) ∧ accessCause s g a n store word = (some c, { s with freeCtr := s.freeCtr + 1 }) := by
  refine ⟨if (drawFree s).1.getLsbD 0 then 2 else 3, ?_, ?_⟩
  · split
    · exact .inl rfl
    · exact .inr rfl
  · simp only [accessCause, ha, hg, ne_eq, not_false_eq_true, decide_true, Bool.not_false, Bool.and_self, if_true]
    rfl

end

/-! ## Loads and stores (R384) -/

/-- The range that holds the address of a load or store, where a range does (R383). -/
def accessArea (x : Engine) (va : W64) : Option Area := if va.toNat < 2 ^ 40 then areaOf x va.toNat else none

theorem accessArea_of_lt {x : Engine} {va : W64} (h : va.toNat < 2 ^ 40) : accessArea x va = areaOf x va.toNat := if_pos h

theorem allows_sram {p : Nat} {store word : Bool} : allows (some (.sram p)) store word = true := rfl

theorem allows_h2e {p : Nat} : allows (some (.h2e p)) false false = true := rfl

theorem allows_e2h {p : Nat} {store : Bool} : allows (some (.e2h p)) store false = true := rfl

theorem allows_heap {p : Nat} {store : Bool} : allows (some (.heap p)) store false = true := rfl

@[simp] theorem engOf_memWrite (s : State) (r : Region) (a : Nat) (b : List Byte) (d e : Nat) :
    engOf (memWrite s r a b) d e = engOf s d e := by
  rw [engOf, memWrite_eng, engOf]

/-- The state in which STW leaves memory: the word, and its side byte. -/
def storedWord (s : State) (e : Eng) (p : Nat) (v : BitVec 72) : State :=
  memWrite (memWrite s (.engData e.die e.idx) p (leBytes 8 (v.setWidth 64).toNat)) (.engSide e.die e.idx) (p / 8)
    (leBytes 1 (bits v.toNat 64 8))

section
variable {e : Eng} {w : Option Nat} {n d a p : Nat} {word : Bool} {imm : W16} {s t : State} {x : Engine} {va : W64}
variable (h : executes s e w = true) (hx : engOf s e.die e.idx = x) (hva : memAddr x a imm = va)
include h hx hva

theorem loadOp_trap {c : Nat} (hc : accessCause s (accessArea x va) va.toNat n false word = (some c, t)) :
    loadOp w n word e d a imm s = .next (engTrap t e.die e.idx c va) := by
  subst hx hva
  unfold accessArea at hc
  refine runEng_trap h ?_
  simp only [hc]

theorem storeOp_trap {c : Nat} (hc : accessCause s (accessArea x va) va.toNat n true word = (some c, t)) :
    storeOp w n word e d a imm s = .next (engTrap t e.die e.idx c va) := by
  subst hx hva
  unfold accessArea at hc
  refine runEng_trap h ?_
  simp only [hc]

variable (halign : va.toNat % n = 0)
include halign

/-- A load of an SRAM word with an uncorrectable error (R386). -/
theorem loadOp_ecc (harea : accessArea x va = some (.sram p)) (hecc : x.eccData.contains (p / 8 * 8) = true) :
    loadOp w n word e d a imm s = .next (engTrap s e.die e.idx 8 va) := by
  subst hx hva
  unfold accessArea at harea
  refine runEng_trap h ?_
  simp only [harea, accessCause_allowed halign allows_sram, hecc, if_true]

theorem loadOp_sram (harea : accessArea x va = some (.sram p)) (hecc : x.eccData.contains (p / 8 * 8) = false) :
    loadOp w n word e d a imm s = .next (wrote s e d (BitVec.ofNat 72
      ((if word then memNat s (.engSide e.die e.idx) (p / 8) 1 else 0) * 2 ^ 64 + memNat s (.engData e.die e.idx) p n))) := by
  subst hx hva
  unfold accessArea at harea
  refine runEng_done h ?_
  simp only [harea, accessCause_allowed halign allows_sram, hecc, Bool.false_eq_true, if_false]

theorem loadOp_mailbox (harea : accessArea x va = some (.h2e p) ∨ accessArea x va = some (.e2h p)) :
    loadOp w n false e d a imm s = .next (wrote s e d (BitVec.ofNat 72 (memNat s (.engData e.die e.idx) p n))) := by
  subst hx hva
  unfold accessArea at harea
  refine runEng_done h ?_
  rcases harea with harea | harea
  · simp only [harea, accessCause_allowed halign allows_h2e]
  · simp only [harea, accessCause_allowed halign allows_e2h]

theorem loadOp_hit {v : Nat} (harea : accessArea x va = some (.heap p)) (hv : cacheRead x p n = some v) :
    loadOp w n false e d a imm s = .next (wrote s e d (BitVec.ofNat 72 v)) := by
  subst hx hva
  unfold accessArea at harea
  refine runEng_done h ?_
  simp only [harea, accessCause_allowed halign allows_heap, hv]

theorem loadOp_miss (harea : accessArea x va = some (.heap p)) (hv : cacheRead x p n = none) :
    loadOp w n false e d a imm s = .next (engAct e.die e.idx (.hold (countMiss s e.die e.idx) (.load d p n))) := by
  subst hx hva
  unfold accessArea at harea
  rw [loadOp, runEng_executes h]
  simp only [harea, accessCause_allowed halign allows_heap, hv]

/-- A store of SRAM bytes, or of the engine's message. -/
theorem storeOp_data (harea : accessArea x va = some (.sram p) ∨ accessArea x va = some (.e2h p)) :
    storeOp w n false e d a imm s =
      .next (retire (memWrite s (.engData e.die e.idx) p (leBytes n (payOf x d).toNat)) e.die e.idx) := by
  subst hx hva
  unfold accessArea at harea
  refine runEng_done h ?_
  rcases harea with harea | harea
  · simp only [harea, accessCause_allowed halign allows_sram, Bool.false_eq_true, if_false]
  · simp only [harea, accessCause_allowed halign allows_e2h]

theorem storeOp_heap (harea : accessArea x va = some (.heap p)) :
    storeOp w n false e d a imm s = .next (retire (cacheWrite s e.die e.idx p n (payOf x d).toNat) e.die e.idx) := by
  subst hx hva
  unfold accessArea at harea
  refine runEng_done h ?_
  simp only [harea, accessCause_allowed halign allows_heap]

theorem storeOp_word (hn : n = 8) (harea : accessArea x va = some (.sram p)) :
    storeOp w n true e d a imm s =
      .next (became (storedWord s e p (regOf x d)) e { x with eccData := x.eccData.filter (· ≠ p) }) := by
  subst hx hva hn
  unfold accessArea at harea
  refine runEng_done h ?_
  simp only [harea, accessCause_allowed halign allows_sram, if_true, engOf_memWrite, storedWord, payOf]

end

/-- A row that `loadOf` knows is a load. -/
theorem runOp_of_loadOf {o : EngOp} {n a : Nat} {word : Bool} {imm : W16} (ho : loadOf o = some (n, word, a, imm))
    {e : Eng} {s : State} : ∃ d, runOp e o s = loadOp (engEncode o) n word e d a imm s := by
  unfold loadOf at ho
  split at ho
  case h_6 => cases ho
  all_goals
    cases ho
    exact ⟨_, rfl⟩

/-- A row that `storeOf` knows is a store. -/
theorem runOp_of_storeOf {o : EngOp} {n d a : Nat} {word : Bool} {imm : W16}
    (ho : storeOf o = some (n, word, d, a, imm)) {e : Eng} {s : State} :
    runOp e o s = storeOp (engEncode o) n word e d a imm s := by
  unfold storeOf at ho
  split at ho
  case h_6 => cases ho
  all_goals
    cases ho
    rfl

/-- Settles O28: an aligned access that its range allows does what the range gives. -/
theorem engineMemoryAccess : Obligations.EngineMemoryAccess := by
  refine ⟨?ldb, ?ldh, ?ldd, ?ldq, ?ldw, ?stb, ?sth, ?std, ?stq, ?stw⟩
  case ldb | ldh | ldd | ldq =>
    intro e d a imm s h x va halign hlt
    have hg := accessArea_of_lt (x := x) hlt
    refine ⟨fun p harea hecc => ?_, fun p harea => ?_, fun p v harea hv => ?_, fun p harea hv => ?_⟩
    all_goals
      refine (exec_eq_runOp rfl).trans ?_
      dsimp only [runOp]
    · refine (loadOp_sram h rfl rfl halign (hg.trans harea) hecc).trans ?_
      simp only [Bool.false_eq_true, if_false, Nat.zero_mul, Nat.zero_add]
    · exact loadOp_mailbox h rfl rfl halign (harea.imp hg.trans hg.trans)
    · exact loadOp_hit h rfl rfl halign (hg.trans harea) hv
    · exact loadOp_miss h rfl rfl halign (hg.trans harea) hv
  case ldw =>
    intro e d a imm s h x va p halign hlt harea hecc
    change execLdw e d a imm s = _
    exact loadOp_sram h rfl rfl halign ((accessArea_of_lt hlt).trans harea) hecc
  case stb | sth | std | stq =>
    intro e d a imm s h x va halign hlt
    have hg := accessArea_of_lt (x := x) hlt
    refine ⟨fun p harea => ?_, fun p harea => ?_⟩
    all_goals
      refine (exec_eq_runOp rfl).trans ?_
      dsimp only [runOp]
    · exact storeOp_data h rfl rfl halign (harea.imp hg.trans hg.trans)
    · exact storeOp_heap h rfl rfl halign (hg.trans harea)
  case stw =>
    intro e d a imm s h x va p halign hlt harea s1 s2
    change execStw e d a imm s = _
    exact storeOp_word h rfl rfl halign rfl ((accessArea_of_lt hlt).trans harea)

/-! ## Branches and jumps (R388) -/

section
variable {e : Eng} {w : Option Nat} {d a : Nat} {imm : W16} {s : State} {t : W64}

theorem goTo_allowed (hm : t.toNat % 4 = 0) (hb : t.toNat < 0x20000) : goTo s t = .jump s t.toNat := by
  simp only [goTo, hm, Nat.not_le.2 hb, ne_eq, not_true_eq_false, decide_false, Bool.and_self, Bool.false_eq_true, if_false]

theorem goTo_misaligned (hm : t.toNat % 4 ≠ 0) (hb : t.toNat < 0x20000) : goTo s t = .trap s 2 t := by
  simp only [goTo, hm, Nat.not_le.2 hb, ne_eq, not_false_eq_true, decide_true, decide_false, Bool.and_false,
    Bool.false_eq_true, if_false, if_true]

theorem goTo_beyond (hm : t.toNat % 4 = 0) (hb : 0x20000 ≤ t.toNat) : goTo s t = .trap s 3 t := by
  simp only [goTo, hm, hb, ne_eq, not_true_eq_false, decide_false, Bool.false_and, decide_true,
    Bool.false_eq_true, if_false, if_true]

theorem branchOp_untaken {p : W64 → W64 → Bool} (h : executes s e w = true)
    (hp : p (payOf (engOf s e.die e.idx) d) (payOf (engOf s e.die e.idx) a) = false) :
    branchOp w p e d a imm s = .next (retire s e.die e.idx) :=
  runEng_done h (if_neg (by simp only [hp, Bool.false_eq_true, not_false_eq_true]))

theorem branchOp_taken {p : W64 → W64 → Bool} (h : executes s e w = true)
    (hp : p (payOf (engOf s e.die e.idx) d) (payOf (engOf s e.die e.idx) a) = true)
    (ht : BitVec.ofNat 64 (engOf s e.die e.idx).pc + 4 * sext imm = t) (hm : t.toNat % 4 = 0) (hb : t.toNat < 0x20000) :
    branchOp w p e d a imm s = .next (retireTo s e.die e.idx t.toNat) := by
  subst ht
  exact runEng_jump h ((if_pos hp).trans (goTo_allowed hm hb))

theorem linkTo_allowed {x : Engine} (hm : t.toNat % 4 = 0) (hb : t.toNat < 0x20000) :
    linkTo s e x d t = .jump (setEng s e.die e.idx (putReg x d (plain (BitVec.ofNat 64 (x.pc + 4))))) t.toNat := by
  simp only [linkTo, goTo_allowed hm hb]

theorem linkTo_misaligned {x : Engine} (hm : t.toNat % 4 ≠ 0) (hb : t.toNat < 0x20000) :
    linkTo s e x d t = .trap s 2 t := by
  simp only [linkTo, goTo_misaligned hm hb]

theorem linkTo_beyond {x : Engine} (hm : t.toNat % 4 = 0) (hb : 0x20000 ≤ t.toNat) : linkTo s e x d t = .trap s 3 t := by
  simp only [linkTo, goTo_beyond hm hb]

end

/-- Settles O29: the condition decides whether a branch is taken, and a target that is allowed is where PC goes. -/
theorem engineBranchTargets : Obligations.EngineBranchTargets := by
  refine ⟨?beq, ?bne, ?blt, ?bge, ?bltu, ?bgeu, ?jal, ?jalr⟩
  case beq | bne | blt | bge | bltu | bgeu =>
    intro e d a imm s h x t
    refine ⟨fun hp => ?_, fun hp hm hb => ?_⟩
    all_goals
      refine (exec_eq_runOp rfl).trans ?_
      dsimp only [runOp]
    · refine branchOp_untaken h ?_
      simpa [slt_iff, ult_iff, ← Bool.not_eq_true] using hp
    · refine branchOp_taken h ?_ rfl hm hb
      simpa [slt_iff, ult_iff, ← Bool.not_eq_true] using hp
  case jal =>
    intro e d imm s h x t hm hb
    change execJal e d imm s = _
    exact runEng_jump h (linkTo_allowed hm hb)
  case jalr =>
    intro e d a imm s h x t hm hb
    change execJalr e d a imm s = _
    exact runEng_jump h (linkTo_allowed hm hb)

/-- Settles O60: the range and the alignment of the address, or of the target, decide the cause. -/
theorem engineAccessTraps : Obligations.EngineAccessTraps := by
  refine ⟨?access, ?jalr⟩
  case access =>
    intro i e o n a word store imm s hi ho h x va g
    rw [exec_eq_runOp hi]
    rcases ho with ⟨rfl, ho⟩ | ⟨rfl, d, ho⟩
    · obtain ⟨d, hrow⟩ := runOp_of_loadOf ho (e := e) (s := s)
      rw [hrow]
      refine ⟨fun hm hg => loadOp_trap h rfl rfl (accessCause_misaligned hm hg),
        fun hm hg => loadOp_trap h rfl rfl (accessCause_denied hm hg), fun hm hg => ?_,
        fun p _ hm harea hecc => loadOp_ecc h rfl rfl hm harea hecc⟩
      obtain ⟨c, hc, hcause⟩ := accessCause_both (s := s) hm hg
      exact ⟨c, hc, loadOp_trap h rfl rfl hcause⟩
    · rw [runOp_of_storeOf ho]
      refine ⟨fun hm hg => storeOp_trap h rfl rfl (accessCause_misaligned hm hg),
        fun hm hg => storeOp_trap h rfl rfl (accessCause_denied hm hg), fun hm hg => ?_, fun p hload => nomatch hload⟩
      obtain ⟨c, hc, hcause⟩ := accessCause_both (s := s) hm hg
      exact ⟨c, hc, storeOp_trap h rfl rfl hcause⟩
  case jalr =>
    intro e d a imm s h t
    refine ⟨fun hm hb => ?_, fun hm hb => ?_⟩
    all_goals change execJalr e d a imm s = _
    · exact runEng_trap h (linkTo_misaligned hm hb)
    · exact runEng_trap h (linkTo_beyond hm hb)

end Sys2Proof.Machine

namespace Sys2Proof.Machine

/-! ## Ports, hashes and marks (R393 to R402) -/

/-- The four values that SINFO selects (R395). -/
theorem sinfo_select {α : Type} (sel : Nat) (t a b c : α) :
    (match sel with | 0 => t | 1 => a | 2 => b | _ => c) =
      if sel = 0 then t else if sel = 1 then a else if sel = 2 then b else c := by
  match sel with
  | 0 | 1 | 2 => rfl
  | n + 3 => rfl

/-- SOUT to a bound port with room, in order, with a mark code of R185. -/
theorem soutAct_writes {s : State} {e : Eng} {q a b : Nat} {o : EngOut} {w : CWord} {t : W64}
    (ho : outPort (engOf s e.die e.idx) q = o) (hw : outWord (regOf (engOf s e.die e.idx) a) = w)
    (ht : payOf (engOf s e.die e.idx) b = t) (hbound : o.stream ≠ 0xFF)
    (horder : (match o.lastTime with | some l => stampLt t l | none => false) = false)
    (hmark : w.mark → markCodes.contains (bits w.pay.toNat 56 8)) (hroom : outSpace s e.die o ≠ 0) :
    soutAct s e q a b = .done (outPut s e q w t) := by
  subst ho hw ht
  have hcode : ¬((outWord (regOf (engOf s e.die e.idx) a)).mark &&
      !markCodes.contains (bits (outWord (regOf (engOf s e.die e.idx) a)).pay.toNat 56 8)) = true := by
    simpa using hmark
  exact (if_neg hbound).trans ((if_neg (Bool.eq_false_iff.1 horder)).trans ((if_neg hcode).trans (if_neg hroom)))

/-- Settles O30: with the hypotheses the row's checks pass, and what is left is its effect. -/
theorem enginePortsAndHashes : Obligations.EnginePortsAndHashes := by
  refine ⟨?crc, ?hash, ?mark, ?trig, ?sin, ?sin2, ?sinfo, ?savail, ?sout, ?sspace⟩
  case crc =>
    intro e d a b n s h x hlo hhi
    change execEngCrc e d a b n s = _
    exact runEng_done h (if_pos (Bool.and_eq_true_iff.2 ⟨decide_eq_true hlo, decide_eq_true hhi⟩))
  case hash =>
    intro e d a b cls s h x mid hsh
    change execEngHash e d a b cls s = _
    exact runEng_done h rfl
  case mark =>
    intro e d a b s h x t data y hd htakes
    change execEngMark e d a b s = _
    exact runEng_done h ((if_neg (Nat.not_lt.2 hd)).trans ((ite_bnot_of htakes).trans (apply_ite EngAct.done _ _ _).symm))
  case trig =>
    intro e a b s h x
    change execTrig e a b s = _
    exact runEng_done h rfl
  case sin =>
    intro e d p s s1 h hbound htake
    change execSin e d p s = _
    refine runEng_done h ((ite_bnot_of hbound).trans ?_)
    simp only [htake]
  case sin2 =>
    intro e d p s s1 h heven hlast hbound htake
    change execSin2 e d p s = _
    have hpair : ¬(decide (d % 2 ≠ 0) || decide (31 ≤ d)) = true := by
      simp only [Bool.or_eq_true, decide_eq_true_eq]
      omega
    refine runEng_done h ((if_neg hpair).trans ((ite_bnot_of hbound).trans ?_))
    simp only [htake]
  case sinfo =>
    intro e d p sel i s h q hbound hlast
    change execSinfo e d p sel s = _
    refine runEng_done h ((ite_bnot_of hbound).trans ?_)
    simp only [show (inPort (engOf s e.die e.idx) p).last = some i from hlast, ← sinfo_select] <;> rfl
  case savail =>
    intro e d p s h x q n hbound
    change execSavail e d p s = _
    exact runEng_done h (ite_bnot_of hbound)
  case sout =>
    intro e q a b s h x o t w hbound horder hmark hroom
    change execSout e q a b s = _
    exact runEng_done h (soutAct_writes rfl rfl rfl hbound horder hmark hroom)
  case sspace =>
    intro e d q s h x hbound
    change execSspace e d q s = _
    exact runEng_done h (if_neg hbound)

/-! ## System instructions (R382, R390, R401, R403 to R407) -/

section
variable {e : Eng} {w : Option Nat} {s : State}

/-- An instruction that stalls or waits. -/
theorem runEng_hold {f : State → Engine → EngAct} {t : State} {v : EngWait} (h : executes s e w = true)
    (ha : f s (engOf s e.die e.idx) = .hold t v) : runEng e w f s = .next (engAct e.die e.idx (.hold t v)) := by
  rw [runEng_executes h, ha]

/-- What `executes` says. -/
theorem executes_iff : executes s e w = true ↔ live s e.die = true ∧
    (engReady s e.die e.idx && w == some (engWord s e.die e.idx)) = true ∧
      ¬(engOf s e.die e.idx).eccCode.contains (engOf s e.die e.idx).pc = true := by
  simp only [executes, Bool.and_eq_true, Bool.not_eq_true', Bool.not_eq_true, and_assoc]

/-- WAIT of an engine without a pending swap or stop (R403). -/
theorem execEngWait_executes {d a b : Nat} (h : executes s e (engEncode (.engWait d a b)) = true)
    (hswap : (engOf s e.die e.idx).swap = none) (hstop : (engOf s e.die e.idx).stopPoint = false)
    {y : Engine} (hy : { engOf s e.die e.idx with wdogCnt := 0, wdogAt := s.now } = y)
    {dl : W64} (hdl : payOf (engOf s e.die e.idx) b = dl) {v : Nat}
    (hv : waitBits s e.die (engOf s e.die e.idx) (payOf (engOf s e.die e.idx) a).toNat = v)
    (hmask : (payOf (engOf s e.die e.idx) a).toNat < 1024) :
    execEngWait e d a b s = .next (engAct e.die e.idx (
      if v ≠ 0 then .done (setEng s e.die e.idx (waitDone y d v))
      else if dl ≠ 0 && stampLt dl (nowStamp s e.die) then .done (setEng s e.die e.idx (waitDone y d 0x8000))
      else .hold (setEng s e.die e.idx y) (.wait d (payOf (engOf s e.die e.idx) a).toNat
        (if dl = 0 then none else some (s.now + ticksUntil s e.die dl))))) := by
  obtain ⟨hl, hword, hecc⟩ := executes_iff.1 h
  have hbits : bits (payOf (engOf s e.die e.idx) a).toNat 10 54 = 0 := by
    simp only [bits]
    omega
  subst hy hdl hv
  refine onDie_effect hl ((if_neg ?_).trans ((whenB_holds hword).trans ((if_neg hecc).trans
    (congrArg (engAct e.die e.idx) (if_neg (not_not_intro hbits))))))
  simp only [hswap, hstop, Option.isSome_none, Bool.or_self, Bool.and_false, Bool.false_eq_true, not_false_eq_true]

end

/-- Settles O31: with the hypotheses the row's checks pass, and what is left is its effect. -/
theorem engineSystemInstructions : Obligations.EngineSystemInstructions := by
  refine ⟨?nop, ?wait, ?ckpt, ?halt, ?trap, ?mfs, ?sev, ?mbxack, ?mbxpost, ?cache, ?xkick⟩
  case nop =>
    intro e s h
    change execNop e s = _
    exact runEng_done h rfl
  case wait =>
    intro e d a b s h x mask dl y v hmask hswap hstop
    change execEngWait e d a b s = _
    rw [execEngWait_executes h hswap hstop rfl rfl rfl hmask, apply_ite (engAct e.die e.idx), apply_ite (engAct e.die e.idx)]
    rfl
  case ckpt =>
    intro e s h x s1 y
    obtain ⟨hl, hword, hecc⟩ := executes_iff.1 h
    change execCkpt e s = _
    exact onDie_effect hl ((whenB_holds hword).trans (if_neg hecc))
  case halt =>
    intro e a s h x
    change execHalt e a s = _
    exact runEng_executes h
  case trap =>
    intro e code s h
    change execEngTrap e code s = _
    exact runEng_trap h rfl
  case mfs =>
    intro e d sr v s h hv
    change execMfs e d sr s = _
    refine runEng_done h ?_
    simp only [hv]
  case sev =>
    intro e d s h x
    refine ⟨fun hq => ?_, fun v r hq => ?_⟩
    all_goals
      change execSev e d s = _
      refine runEng_done h ?_
    · simp only [show (engOf s e.die e.idx).evq = [] from hq]
    · simp only [show (engOf s e.die e.idx).evq = v :: r from hq]
      rfl
  case mbxack =>
    intro e s h x
    change execMbxack e s = _
    exact runEng_done h rfl
  case mbxpost =>
    intro e a s h x n hfree hn hlen s1
    change execMbxpost e a s = _
    refine runEng_done h (if_neg ?_)
    simp only [ne_eq, decide_not, Bool.or_eq_true, Bool.not_eq_true', decide_eq_false_iff_not, decide_eq_true_eq, not_or,
      Classical.not_not]
    exact ⟨⟨hfree, hn⟩, Nat.not_lt.2 hlen⟩
  case cache =>
    intro e op s h
    change execCache e op s = _
    exact runEng_hold h rfl
  case xkick =>
    intro e a s h x c hgrant
    change execXkick e a s = _
    exact runEng_done h (if_pos hgrant)

end Sys2Proof.Machine

namespace Sys2Proof.Machine

/-! ## Rows of engines that are no instruction (R385 to R418) -/

section
variable {d e : Nat} {s : State}

/-- SOUT_RESUME where the stalled SOUT no longer stalls (R398). -/
theorem execSoutResume_resumes {r : EngAct} (hl : live s d = true) (hc : engClocked s d e = true)
    (hw : (engOf s d e).waiting = some .sout)
    (hr : soutAct (unstall s d e) ⟨d, e⟩ (bits (engWord s d e) 21 1) (bits (engWord s d e) 16 5)
      (bits (engWord s d e) 11 5) = r) (hgo : ∀ t y, r ≠ .hold t y) :
    execSoutResume d e s = .next (engAct d e r) := by
  have hdue : (engClocked s d e && (engOf s d e).waiting == some .sout) = true := by
    rw [hc, hw]
    rfl
  refine onDie_effect hl ((whenB_holds hdue).trans ?_)
  rw [hr]
  split
  · rename_i t y
    exact absurd rfl (hgo t y)
  · rfl

end

/-- Settles O14: each row's condition is the conjunction of the hypotheses. -/
theorem engineEventsTakeEffect : Obligations.EngineEventsTakeEffect := by
  refine ⟨?bell, ?ack, ?swap, ?wait, ?sin, ?sout, ?load, ?cache, ?watchdog, ?illegal⟩
  case bell =>
    intro port d e v s hl hp
    exact onPort_shown hl hp
  case ack =>
    intro port d e s hl hp
    exact onPort_shown hl hp
  case swap =>
    intro d e s hl x w hw he hpoint hst s1 y back
    change execSwapBegin d e s = _
    have hdue : (e < 16 && w.point ≠ 3 && x.st != .swapping) = true := by
      simp only [he, hpoint, hst, ne_eq, not_false_eq_true, decide_true, Bool.and_self]
    refine onDie_effect hl ?_
    simp only [show (engOf s d e).swap = some w from hw]
    exact whenB_holds hdue
  case wait =>
    intro d e s hl x r mask dl hw v due t hc hdue s1 y
    change execWaitReturn d e s = _
    have hend : (engClocked s d e && (v ≠ 0 || due)) = true := by
      simpa only [hc, Bool.true_and, Bool.or_eq_true, decide_eq_true_eq] using hdue
    refine onDie_effect hl ?_
    simp only [show (engOf s d e).waiting = some (.wait r mask dl) from hw]
    exact whenB_holds hend
  case sin =>
    intro d e s s1 hl hc hw w r hr
    change execSinResume d e s = _
    have hdue : (engClocked s d e && (engOf s d e).waiting == some .sin) = true := by
      rw [hc, hw]
      rfl
    refine onDie_effect hl ?_
    simp only [show (if bits (engWord s d e) 0 11 = 3 then
        takeTwo s ⟨d, e⟩ (bits (engWord s d e) 21 5) (bits (engWord s d e) 11 2)
      else takeOne s ⟨d, e⟩ (bits (engWord s d e) 21 5) (bits (engWord s d e) 11 2)) = some s1 from hr]
    exact whenB_holds hdue
  case sout =>
    intro d e s hl hc hw w r hgo
    change execSoutResume d e s = _
    exact execSoutResume_resumes hl hc hw rfl hgo
  case load =>
    intro d e s hl r a n hw hc s1 y
    change execHeapLoadComplete d e s = _
    refine onDie_effect hl ?_
    simp only [hw]
    exact whenB_holds hc
  case cache =>
    intro d e s hl inval hw hc
    change execCacheDone d e s = _
    refine onDie_effect hl ?_
    simp only [hw]
    exact whenB_holds hc
  case watchdog =>
    intro d e s hl x waits hc hon hrun hdue
    change execWatchdogExpiry d e s = _
    refine onDie_effect hl (whenB_holds ?_)
    simp only [Bool.and_eq_true, decide_eq_true_eq]
    exact ⟨⟨⟨hc, hon⟩, hrun⟩, hdue⟩
  case illegal =>
    intro e s hl x w hr hbad
    change execIllegalInstruction e s = _
    exact onDie_effect hl (whenB_holds (Bool.and_eq_true_iff.2 ⟨hr, hbad⟩))

/-! ## Scrubs, health, swaps and repairs (R386, R418, R576 to R580) -/

/-- Settles O23: each row's condition is the conjunction of the hypotheses. -/
theorem repairEventsTakeEffect : Obligations.RepairEventsTakeEffect := by
  refine ⟨?scrub, ?swap, ?hbmScrub, ?health, ?copy, ?retrain, ?laneFail, ?crc⟩
  case scrub =>
    intro d e corrected bad s hl he hf s1 x s2
    change execSramScrub d e corrected bad s = _
    exact onDie_effect hl (whenB_holds (Bool.and_eq_true_iff.2 ⟨decide_eq_true he, hf⟩))
  case swap =>
    intro d e ecc s hl x w hw he hst
    change execSwapComplete d e ecc s = _
    refine onDie_effect hl ?_
    simp only [show (engOf s d e).swap = some w from hw]
    exact whenB_holds (Bool.and_eq_true_iff.2 ⟨decide_eq_true he, hst⟩)
  case hbmScrub =>
    intro d errs s hl hr hf hdue
    change execHbmScrubPass d errs s = _
    refine onDie_effect hl (whenB_holds ?_)
    simp only [hr, hf, hdue, decide_true, Bool.and_self]
  case health =>
    intro d kind target monitor value failed s hl hr hf hm hres hv
    change execHealthCheck d kind target monitor value failed s = _
    refine onDie_effect hl (whenB_holds ?_)
    simp only [hr, hf, hm, hres, hv, decide_true, Bool.and_self]
  case copy =>
    intro d lost s hl w hw
    change execHbmCopyDone d lost s = _
    refine onDie_effect hl ?_
    simp only [hw]
  case retrain =>
    intro d p s hl w hw
    change execUflLaneRetrainDone d p s = _
    refine onDie_effect hl ?_
    simp only [hw]
  case laneFail =>
    intro d p lane s hl hr hf hok hlane t
    change execUflLaneFail d p lane s = _
    refine onDie_effect hl (whenB_holds ?_)
    simp only [hr, hf, hok, hlane, decide_true, Bool.and_self]
  case crc =>
    intro d p s hl hf hp hport
    change execFlitCrcError d p s = _
    refine onDie_effect hl (whenB_holds ?_)
    simp only [hf, hp, hport, decide_true, Bool.and_self]

end Sys2Proof.Machine

namespace Sys2Proof.Machine

/-! ## A trap is precise (R408) -/

@[simp] theorem post_eng (s : State) (d code unit time : Nat) (data : List Byte) :
    (post s d code unit time data).eng = s.eng := by
  simp only [post, postStamp, apply_ite State.eng, ite_self]

/-- An engine's record is read from the engines alone. -/
theorem engOf_congr {s t : State} (h : t.eng = s.eng) (d e : Nat) : engOf t d e = engOf s d e := by
  simp only [engOf, h]

/-- Posting changes the events under way and nothing else. -/
theorem post_host (s : State) (d code unit time : Nat) (data : List Byte) :
    { post s d code unit time data with host := s.host } = s := by
  simp only [post, postStamp]
  split <;> rfl

/-- An event that is not merged when it is raised is among those in transit (R89, R164). -/
theorem post_transits {s : State} {d code unit time : Nat} {data : List Byte} {ev : Ev}
    (hev : ⟨code, unit, (stampOf time).toNat, padTo 16 data, 0, false⟩ = ev) (h : evTransits s d ev = true) :
    (post s d code unit time data).host = { s.host with transit := s.host.transit ++ [⟨d, ev⟩] } := by
  subst hev
  exact congrArg State.host (if_pos h)

theorem post_merges {s : State} {d code unit time : Nat} {data : List Byte} {ev : Ev}
    (hev : ⟨code, unit, (stampOf time).toNat, padTo 16 data, 0, false⟩ = ev) (h : evTransits s d ev = false) :
    (post s d code unit time data).host = { s.host with merge := s.host.merge ++ [ev] } := by
  subst hev
  exact congrArg State.host (if_neg (Bool.eq_false_iff.1 h))

/-- The record of an engine that has left RUNNING. -/
def leftRunning (now : Nat) (x : Engine) (st : EngSt) : Engine :=
  { x with
    st := st, waiting := none, stopPoint := false, stopNow := false, stopFids := []
    waited := x.waited + (if x.waiting.isSome then now - x.waitAt else 0)
    swap := x.swap.map fun w => if w.point = 3 then { w with point := 0 } else w }

/-- The record of an engine with the cause and detail of a trap. -/
def withCause (x : Engine) (cause : Nat) (bad : W64) : Engine := { x with cause := cause, badAddr := bad }

/-- The state in which an engine has trapped, before anyone learns of it. -/
def trapState (s : State) (d e cause : Nat) (bad : W64) : State :=
  let y := withCause (engOf s d e) cause bad
  setEng (setEng s d e y) d e (leftRunning s.now y .trapped)

theorem evTransits_setEng (s : State) (d e : Nat) (x : Engine) (d' : Nat) (ev : Ev) :
    evTransits (setEng s d e x) d' ev = evTransits s d' ev := rfl

theorem evTransits_trapState (s : State) (d e cause : Nat) (bad : W64) (d' : Nat) (ev : Ev) :
    evTransits (trapState s d e cause bad) d' ev = evTransits s d' ev := by
  rw [trapState, evTransits_setEng, evTransits_setEng]

theorem setEng_eng (s : State) (d e : Nat) (x : Engine) (en : EngAll) :
    { setEng s d e x with eng := en } = { s with eng := en } := rfl

/-- A trap changes nothing but the engines. -/
theorem trapState_restored (s : State) (d e cause : Nat) (bad : W64) : { trapState s d e cause bad with eng := s.eng } = s :=
  (setEng_eng ..).trans (setEng_eng ..)

/-- No command completes with an engine for whose stop none waits. -/
theorem leaveState_quiet {s : State} {d e : Nat} {st : EngSt} (hf : (engOf s d e).stopFids = []) :
    leaveState s d e st = setEng s d e (leftRunning s.now (engOf s d e) st) := by
  simp only [leaveState, hf, unitsDone, leftRunning]

theorem svcLearns_alone {s : State} {d e cause trap t : Nat} (h : (engOf s d e).slot = none) :
    svcLearns s d e cause trap t = s := by
  simp only [svcLearns, h]

/-- A trap: the engine leaves RUNNING, its event is posted, and its service learns of it. -/
theorem engTrap_eq (s : State) (d e cause : Nat) (bad : W64) : engTrap s d e cause bad =
    svcLearns (post (leaveState (setEng s d e (withCause (engOf s d e) cause bad)) d e .trapped) d 0x0801 (engUid d e)
      (dieTime s d) (leBytes 1 cause ++ leBytes 3 0 ++ leBytes 4 (engOf s d e).pc ++ leBytes 8 bad.toNat)) d e 1 cause
      (dieTime s d) := rfl

/-- An engine of no service, for whose stop no command waits, traps. -/
theorem engTrap_quiet {s : State} {d e cause : Nat} {bad : W64} (hslot : (engOf s d e).slot = none)
    (hf : (engOf s d e).stopFids = []) :
    engTrap s d e cause bad =
      post (trapState s d e cause bad) d 0x0801 (engUid d e) (dieTime s d)
        (leBytes 1 cause ++ leBytes 3 0 ++ leBytes 4 (engOf s d e).pc ++ leBytes 8 bad.toNat) := by
  have hleft : leaveState (setEng s d e (withCause (engOf s d e) cause bad)) d e .trapped = trapState s d e cause bad := by
    rw [leaveState_quiet (by rw [engOf_setEng]; exact hf), engOf_setEng]
    rfl
  rw [engTrap_eq, hleft]
  refine svcLearns_alone ?_
  rw [engOf_congr (post_eng ..), trapState, engOf_setEng]
  exact hslot

/-- What an engine keeps when it traps. -/
theorem leftRunning_restored {now : Nat} {x : Engine} {st : EngSt} {cause : Nat} {bad : W64} (hf : x.stopFids = []) :
    { leftRunning now (withCause x cause bad) st with
      st := x.st, cause := x.cause, badAddr := x.badAddr, waiting := x.waiting, stopPoint := x.stopPoint
      stopNow := x.stopNow, waited := x.waited, swap := x.swap } = x := by
  obtain ⟨⟩ := x
  subst hf
  rfl

/-- Settles O57: the trap sets the engine's record and posts its event. -/
theorem trapIsPrecise : Obligations.TrapIsPrecise := by
  intro s d e cause bad hslot hf x t y ev
  have ht : t = post (trapState s d e cause bad) d 0x0801 (engUid d e) (dieTime s d) _ := engTrap_quiet hslot hf
  have hy : y = leftRunning s.now (withCause x cause bad) .trapped := by
    rw [show y = engOf t d e from rfl, ht, engOf_congr (post_eng ..), trapState, engOf_setEng]
  have hev : evTransits (trapState s d e cause bad) d ev = evTransits s d ev := evTransits_trapState ..
  clear_value t y
  subst hy
  refine ⟨rfl, rfl, rfl, rfl, leftRunning_restored hf, fun d' e' hne => ?_, ?_, fun h => ?_, fun h => ?_⟩
  · rw [ht, engOf_congr (post_eng ..), trapState, engOf_setEng_ne _ hne, engOf_setEng_ne _ hne]
  · rw [ht]
    exact (congrArg (fun r : State => { r with eng := s.eng }) (post_host ..)).trans (trapState_restored ..)
  · rw [ht]
    exact post_transits rfl (hev.trans h)
  · rw [ht]
    exact post_merges rfl (hev.trans h)

end Sys2Proof.Machine

namespace Sys2Proof.Machine

/-! ## What leaves the engines alone

The operations a stopping service carries out on commands, streams and the unit tree. -/

@[simp] theorem postStamp_eng (s : State) (d code unit : Nat) (time : Stamp) (sub : Nat) (data : List Byte) :
    (postStamp s d code unit time sub data).eng = s.eng := by
  simp only [postStamp, apply_ite State.eng, ite_self]

@[simp] theorem hostWrite_eng (s : State) (p a : Nat) (b : List Byte) : (hostWrite s p a b).eng = s.eng := rfl

@[simp] theorem raiseIrq_eng (s : State) (p v : Nat) : (raiseIrq s p v).eng = s.eng := by
  simp only [raiseIrq, apply_ite State.eng, ite_self]

@[simp] theorem moderate_eng (s : State) (p : Nat) (ctl : W32) (n : Nat) (t : Option Nat) :
    (moderate s p ctl n t).2.eng = s.eng := by
  unfold moderate
  dsimp only
  split
  · exact raiseIrq_eng ..
  · rfl

@[simp] theorem writeCpl_eng (s : State) (c : Cmd) (st : Nat) (late : Bool) (res : List Byte) (time : Nat) :
    (writeCpl s c st late res time).eng = s.eng := by
  simp only [writeCpl, apply_ite State.eng, apply_ite Prod.snd, setCplRing_eng, moderate_eng, hostWrite_eng, ite_self]

@[simp] theorem flightResult_eng (s : State) (f : Flight) : (flightResult s f).2.eng = s.eng := by
  obtain ⟨k, hk⟩ := flightResult_changes s f
  rw [hk]

@[simp] theorem finishFlight_eng (s : State) (f : Flight) (st : Nat) : (finishFlight s f st).eng = s.eng := by
  simp only [finishFlight, apply_ite State.eng, dropFlight_eng, writeCpl_eng, flightResult_eng, ite_self]

@[simp] theorem unitDone_eng (s : State) (fid u st fl : Nat) (res : List Byte) (time : Nat) :
    (unitDone s fid u st fl res time).eng = s.eng := by
  unfold unitDone
  split
  · rfl
  · simp only [apply_ite State.eng, finishFlight_eng, setFlight_eng, ite_self]

@[simp] theorem unitsDone_eng (s : State) (u st time : Nat) (l : List Nat) : (unitsDone s u st time l).eng = s.eng := by
  induction l generalizing s with
  | nil => rfl
  | cons fid r ih => exact (ih _).trans (unitDone_eng ..)

/-! ### Streams -/

@[simp] theorem setSpool_eng (s : State) (d i : Nat) (y : Stream) : (setSpool s d i y).eng = s.eng := setStream_eng ..

@[simp] theorem levelEvents_eng (s : State) (d i before after : Nat) : (levelEvents s d i before after).eng = s.eng := by
  simp only [levelEvents, apply_ite State.eng, post_eng, ite_self]

@[simp] theorem countDelivered_eng (s : State) (d i n : Nat) : (countDelivered s d i n).eng = s.eng := by
  simp only [countDelivered, levelEvents_eng, setSpool_eng]

@[simp] theorem formEnv_eng (s : State) (d i : Nat) (e : Env) : (formEnv s d i e).eng = s.eng := by
  simp only [formEnv, apply_ite State.eng, countDelivered_eng, levelEvents_eng, setStream_eng, ite_self]

@[simp] theorem closeEnv_eng (s : State) (d i : Nat) (flushed : Bool) : (closeEnv s d i flushed).eng = s.eng := by
  unfold closeEnv
  dsimp only
  split
  · rfl
  · rw [formEnv_eng, setStream_eng]

theorem putRaw_eng {s t : State} {d i : Nat} {w : CWord} {tm : Stamp} (h : putRaw s d i w tm = some t) : t.eng = s.eng := by
  unfold putRaw at h
  extract_lets x x1 at h
  clear_value x1
  split at h
  · cases h
  · split at h
    · cases h
    · split at h
      · cases h
        exact setStream_eng ..
      · cases h
        simp only [apply_ite State.eng, closeEnv_eng, setStream_eng, ite_self]

@[simp] theorem dropAdd_eng (s : State) (d i : Nat) (e : Entry) : (dropAdd s d i e).eng = s.eng := by
  unfold dropAdd
  dsimp only
  rw [setStream_eng]
  split
  · rfl
  · exact postStamp_eng ..

@[simp] theorem putOne_eng (s : State) (d i : Nat) (e : Entry) : (putOne s d i e).eng = s.eng := by
  unfold putOne
  split
  · exact dropAdd_eng ..
  · split
    next h => exact putRaw_eng h
    next => exact dropAdd_eng ..

@[simp] theorem putAll_eng (s : State) (d i : Nat) (l : List Entry) : (putAll s d i l).eng = s.eng := by
  induction l generalizing s with
  | nil => rfl
  | cons e r ih => exact (ih _).trans (putOne_eng ..)

@[simp] theorem deliverEnvs_eng (s : State) (d i n : Nat) : (deliverEnvs s d i n).eng = s.eng := by
  unfold deliverEnvs resumeDrop
  dsimp only
  split
  · exact countDelivered_eng ..
  · simp only [apply_ite State.eng, postStamp_eng, putAll_eng, putOne_eng, setStream_eng, countDelivered_eng, ite_self]

@[simp] theorem closeBuf_eng (s : State) (r : Nat) (flushed end_ : Bool) : (closeBuf s r flushed end_).eng = s.eng := by
  unfold closeBuf
  extract_lets q p i base firstW s1 last s2 src s3 s4
  have h3 : s3.eng = s.eng := (setStrRing_eng ..).trans ((setF_eng ..).trans (hostWrite_eng ..))
  clear_value s3
  have h4 : s4.eng = s.eng := by
    simp only [s4, apply_ite State.eng, raiseIrq_eng, h3, ite_self]
  clear_value s4
  split
  · rw [apply_ite State.eng, deliverEnvs_eng, ite_self, h4]
  · exact h4

@[simp] theorem leaveRing_eng (s : State) (d i : Nat) : (leaveRing s d i).eng = s.eng := by
  unfold leaveRing
  split
  · exact setStrRing_eng ..
  · rfl

/-! ### The unit tree -/

@[simp] theorem treeChange_eng (s : State) (u : Nat) : (treeChange s u).eng = s.eng := post_eng ..

theorem treeChanges_eng (s : State) (u : Nat) (l : List Nat) : (l.foldl (fun s _ => treeChange s u) s).eng = s.eng := by
  induction l generalizing s with
  | nil => rfl
  | cons x r ih => rw [List.foldl_cons, ih, treeChange_eng]

/-- A fold of steps that leave the engines alone leaves them alone. -/
theorem foldl_eng {α : Type} {f : State → α → State} (hf : ∀ s x, (f s x).eng = s.eng) (l : List α) (s : State) :
    (l.foldl f s).eng = s.eng := by
  induction l generalizing s with
  | nil => rfl
  | cons x r ih => exact (ih _).trans (hf s x)

@[simp] theorem leaveGroups_eng (s : State) (u : Nat) : (leaveGroups s u).eng = s.eng := by
  unfold leaveGroups
  refine foldl_eng (fun s g => ?_) _ _
  split
  · extract_lets n s1
    have h1 : s1.eng = s.eng := by
      simp only [s1, apply_ite State.eng, setGroup_eng, ite_self]
    clear_value s1
    rw [treeChanges_eng, h1]
  · rfl

@[simp] theorem dropWaits_eng (s : State) (d i : Nat) : (dropWaits s d i).eng = s.eng := by
  unfold dropWaits
  dsimp only
  split
  · split
    all_goals simp only [unitDone_eng, unitsDone_eng]
  · simp only [unitsDone_eng]

@[simp] theorem deleteStream_eng (s : State) (d i : Nat) : (deleteStream s d i).eng = s.eng := by
  unfold deleteStream
  extract_lets x s1 s2 s3
  have h1 : s1.eng = s.eng := by
    unfold s1
    split
    · rw [apply_ite State.eng, closeBuf_eng, leaveRing_eng, ite_self]
    · rfl
  clear_value s1
  have h2 : s2.eng = s.eng := (dropWaits_eng ..).trans ((setPoolFree_eng ..).trans h1)
  clear_value s2
  have h3 : s3.eng = s.eng := (setUnit_eng ..).trans ((setStream_eng ..).trans h2)
  clear_value s3
  rw [treeChange_eng, leaveGroups_eng, h3]

/-! ### Services -/

@[simp] theorem releaseSource_eng (s : State) (d src : Nat) : (releaseSource s d src).eng = s.eng := by
  simp only [releaseSource, apply_ite State.eng, setStream_eng, ite_self]

@[simp] theorem svcStateAt_eng (s : State) (d k : Nat) (st : SvcSt) (cause eng trap t : Nat) :
    (svcStateAt s d k st cause eng trap t).eng = s.eng := by
  simp only [svcStateAt, apply_ite State.eng, post_eng, setSvc_eng, ite_self]

@[simp] theorem svcState_eng (s : State) (d k : Nat) (st : SvcSt) (cause eng trap : Nat) :
    (svcState s d k st cause eng trap).eng = s.eng := svcStateAt_eng ..

end Sys2Proof.Machine

namespace Sys2Proof.Machine

/-! ## No engine starts to run while a service stops (R429 to R431) -/

/-- Every engine that runs in `t` runs in `s`. -/
def NoneStarts (s t : State) : Prop := ∀ d e, (engOf t d e).st = .running → (engOf s d e).st = .running

theorem noneStarts_of_eng {s t : State} (h : t.eng = s.eng) : NoneStarts s t := fun d e hr => by
  rwa [engOf_congr h] at hr

theorem NoneStarts.trans {s t u : State} (h : NoneStarts s t) (g : NoneStarts t u) : NoneStarts s u :=
  fun d e hr => h d e (g d e hr)

/-- An engine's record is replaced by one that runs only where the engine ran. -/
theorem noneStarts_setEng {s : State} {d e : Nat} {y : Engine} (h : y.st = .running → (engOf s d e).st = .running) :
    NoneStarts s (setEng s d e y) := by
  intro d' e' hr
  by_cases hk : key d' e' = key d e
  · have hsame : ∀ t : State, engOf t d' e' = engOf t d e := fun t => by simp only [engOf, hk]
    rw [hsame] at hr ⊢
    rw [engOf_setEng] at hr
    exact h hr
  · rwa [engOf_setEng_ne _ hk] at hr

theorem noneStarts_foldl {α : Type} {f : State → α → State} (hf : ∀ s x, NoneStarts s (f s x)) (l : List α)
    (s : State) :
    NoneStarts s (l.foldl f s) := by
  induction l generalizing s with
  | nil => exact noneStarts_of_eng rfl
  | cons x r ih => exact (hf s x).trans (ih _)

theorem noneStarts_foldl_fst {α β : Type} {f : State × β → α → State × β} (hf : ∀ p x, NoneStarts p.1 (f p x).1)
    {l : List α} {p : State × β} : NoneStarts p.1 (l.foldl f p).1 := by
  induction l generalizing p with
  | nil => exact noneStarts_of_eng rfl
  | cons x r ih => exact (hf p x).trans ih

theorem noneStarts_unloadEngine (s : State) (d e : Nat) : NoneStarts s (unloadEngine s d e).1 := by
  unfold unloadEngine
  extract_lets x lost s1 s2 s3
  have h1 : NoneStarts s s1 := noneStarts_foldl (fun s (p : EngIn) => noneStarts_of_eng (releaseSource_eng s d p.src)) _ _
  have h2 : NoneStarts s1 s2 := noneStarts_foldl (fun s i => noneStarts_of_eng (deleteStream_eng s d i)) _ _
  clear_value s1 s2
  have h3 : NoneStarts s2 s3 := noneStarts_of_eng (setPoolFree_eng ..)
  clear_value s3
  exact h1.trans (h2.trans (h3.trans (noneStarts_setEng fun h => nomatch h)))

theorem noneStarts_svcRelease (s : State) (d k : Nat) : NoneStarts s (svcRelease s d k).1 := by
  unfold svcRelease
  extract_lets x r s1 s2 s3 s4
  have hr : NoneStarts s r.1 := noneStarts_foldl_fst (p := (s, (0, 0))) (fun p e => by exact noneStarts_unloadEngine p.1 d e)
  clear_value r
  have h1 : NoneStarts r.1 s1 := noneStarts_foldl (fun s _ => noneStarts_of_eng (releaseSource_eng s _ _)) _ _
  clear_value s1
  have h2 : NoneStarts s1 s2 := noneStarts_foldl (fun s c => noneStarts_of_eng (by
    rw [apply_ite State.eng, setXfer_eng, ite_self])) _ _
  clear_value s2
  have h3 : NoneStarts s2 s3 := by
    refine noneStarts_of_eng ?_
    unfold s3
    split
    · rw [apply_ite State.eng, unitDone_eng, ite_self]
    · rfl
  clear_value s3
  have h4 : NoneStarts s3 (setSvc s4 d k Svc.reset) := noneStarts_of_eng ((setSvc_eng ..).trans (svcState_eng ..))
  exact hr.trans (h1.trans (h2.trans (h3.trans h4)))

theorem noneStarts_svcCheck (s : State) (d k : Nat) : NoneStarts s (svcCheck s d k) := by
  unfold svcCheck
  extract_lets x s1 src s2 rolls r res
  split
  · exact noneStarts_of_eng rfl
  · have h1 : s1.eng = s.eng := by
      simp only [s1, apply_ite State.eng, svcState_eng, ite_self]
    clear_value s1
    have h2 : s2.eng = s.eng := (setSvc_eng ..).trans h1
    clear_value s2
    have hr : NoneStarts s2 r.1 := by
      unfold r
      split
      · exact noneStarts_svcRelease _ _ _
      · exact noneStarts_of_eng rfl
    clear_value r
    exact (noneStarts_of_eng h2).trans (hr.trans (noneStarts_foldl (fun s f => noneStarts_of_eng (unitDone_eng ..)) _ _))

/-- The state of an engine that leaves RUNNING. -/
theorem leaveState_eng (s : State) (d e : Nat) (st : EngSt) :
    (leaveState s d e st).eng = (setEng s d e (leftRunning s.now (engOf s d e) st)).eng := unitsDone_eng ..

theorem noneStarts_leaveState {s : State} {d e : Nat} {st : EngSt} (h : st ≠ .running) :
    NoneStarts s (leaveState s d e st) :=
  (noneStarts_setEng fun hr => absurd hr h).trans (noneStarts_of_eng (leaveState_eng ..))

theorem noneStarts_leaveRunning {s : State} {d e : Nat} {st : EngSt} (h : st ≠ .running) :
    NoneStarts s (leaveRunning s d e st) := by
  unfold leaveRunning
  dsimp only
  split
  · exact (noneStarts_leaveState h).trans (noneStarts_svcCheck _ _ _)
  · exact noneStarts_leaveState h

theorem noneStarts_engStopPoint (s : State) (d e : Nat) (fids : List Nat) : NoneStarts s (engStopPoint s d e fids) := by
  unfold engStopPoint
  extract_lets x y
  split
  · exact (noneStarts_setEng (y := y) id).trans (noneStarts_leaveRunning nofun)
  · exact noneStarts_setEng id
  · exact noneStarts_setEng id
  · exact noneStarts_of_eng (unitsDone_eng ..)

theorem noneStarts_svcFault (s : State) (d k cause e trap t : Nat) : NoneStarts s (svcFault s d k cause e trap t) := by
  unfold svcFault
  extract_lets x s1 gone src s2 s3
  split
  · exact noneStarts_of_eng rfl
  · have h1 : s1.eng = s.eng := svcStateAt_eng ..
    clear_value s1
    have h2 : s2.eng = s.eng := (unitsDone_eng ..).trans ((setSvc_eng ..).trans h1)
    clear_value s2
    have h3 : NoneStarts s2 s3 := noneStarts_foldl (fun s e => noneStarts_engStopPoint s d e []) _ _
    exact (noneStarts_of_eng h2).trans (h3.trans (noneStarts_svcCheck _ _ _))

theorem noneStarts_svcLearns (s : State) (d e cause trap t : Nat) : NoneStarts s (svcLearns s d e cause trap t) := by
  unfold svcLearns
  split
  · exact noneStarts_svcFault _ _ _ _ _ _ _
  · exact noneStarts_of_eng rfl

/-- An engine that traps does not run any more (R408). -/
theorem engTrap_stops (s : State) (d e cause : Nat) (bad : W64) : (engOf (engTrap s d e cause bad) d e).st ≠ .running := by
  intro h
  rw [engTrap_eq] at h
  have hleft := noneStarts_svcLearns _ d e 1 cause _ d e h
  rw [engOf_congr (post_eng ..), engOf_congr (leaveState_eng ..), engOf_setEng] at hleft
  cases hleft

end Sys2Proof.Machine

namespace Sys2Proof.Machine

/-! ## The frame of an instruction that writes one register (R380, R388 to R390) -/

section
variable {s t u : State} {e : Eng} {d : Nat}

/-- `t` differs from `s` in one register of an engine, and in the free values drawn. -/
structure RegFrame (s t : State) (e : Eng) (d : Nat) : Prop where
  regs : ∀ r, r ≠ d → regOf (engOf t e.die e.idx) r = regOf (engOf s e.die e.idx) r
  record : { engOf t e.die e.idx with regs := (engOf s e.die e.idx).regs } = engOf s e.die e.idx
  others : ∀ d' e', key d' e' ≠ key e.die e.idx → engOf t d' e' = engOf s d' e'
  machine : { t with eng := s.eng, freeCtr := s.freeCtr } = s
  failed : t.eng.failed = s.eng.failed

theorem regFrame_refl (s : State) (e : Eng) (d : Nat) : RegFrame s s e d where
  regs _ _ := rfl
  record := rfl
  others _ _ _ := rfl
  machine := rfl
  failed := rfl

theorem regOf_putReg_ne {x : Engine} {v : BitVec 72} {r : Nat} (h : r ≠ d) : regOf (putReg x d v) r = regOf x r := by
  unfold putReg
  split
  · rfl
  · simp only [regOf, tget_tset_ne _ _ h]

theorem putReg_record (x : Engine) (d : Nat) (v : BitVec 72) : { putReg x d v with regs := x.regs } = x := by
  unfold putReg
  split <;> rfl

theorem setEng_machine (s : State) (d e : Nat) (y : Engine) :
    { setEng s d e y with eng := s.eng, freeCtr := s.freeCtr } = s := rfl

theorem regFrame_putReg (v : BitVec 72) : RegFrame s (setEng s e.die e.idx (putReg (engOf s e.die e.idx) d v)) e d where
  regs r h := by rw [engOf_setEng, regOf_putReg_ne h]
  record := by rw [engOf_setEng, putReg_record]
  others d' e' h := engOf_setEng_ne _ h _
  machine := setEng_machine ..
  failed := rfl

theorem regFrame_putReg_drawFree (v : BitVec 72) :
    RegFrame s (setEng (drawFree s).2 e.die e.idx (putReg (engOf (drawFree s).2 e.die e.idx) d v)) e d where
  regs r h := by rw [engOf_setEng, regOf_putReg_ne h]; rfl
  record := by rw [engOf_setEng]; exact putReg_record ..
  others d' e' h := engOf_setEng_ne _ h _
  machine := rfl
  failed := rfl

/-- An instruction whose work, where the engine goes on, writes register `d` alone. -/
def ActFrame (s : State) (e : Eng) (d : Nat) : EngAct → Prop
  | .done t => RegFrame s t e d
  | .jump t _ => RegFrame s t e d
  | .trap _ _ _ => True
  | .hold _ _ => True
  | .halt _ _ => False

/-! ### Retiring -/

/-- `t` follows `s` by an instruction that retires and writes register `d` alone. -/
structure InstrFrame (s t : State) (e : Eng) (d : Nat) : Prop where
  regs : ∀ r, r ≠ d → regOf (engOf t e.die e.idx) r = regOf (engOf s e.die e.idx) r
  record : { engOf t e.die e.idx with
    regs := (engOf s e.die e.idx).regs, pc := (engOf s e.die e.idx).pc, retired := (engOf s e.die e.idx).retired } =
      engOf s e.die e.idx
  retired : (engOf t e.die e.idx).retired = ((engOf s e.die e.idx).retired + 1) % 2 ^ 64
  others : ∀ d' e', key d' e' ≠ key e.die e.idx → engOf t d' e' = engOf s d' e'
  machine : { t with eng := s.eng, freeCtr := s.freeCtr } = s
  failed : t.eng.failed = s.eng.failed

/-- The record of an engine whose instruction retires. -/
def retiredTo (x : Engine) (pc : Nat) : Engine := { x with pc := pc, retired := (x.retired + 1) % 2 ^ 64 }

/-- Retiring sets the PC and the count of one engine; a PC beyond instruction SRAM draws a free value. -/
theorem retireTo_eq (s : State) (d e pc : Nat) :
    ∃ k pc', retireTo s d e pc = setEng { s with freeCtr := k } d e (retiredTo (engOf s d e) pc') := by
  unfold retireTo
  split
  · exact ⟨s.freeCtr, pc, rfl⟩
  · exact ⟨s.freeCtr + 1, (drawFree s).1.toNat % 32768 * 4, rfl⟩

theorem RegFrame.retireTo (h : RegFrame s t e d) (pc : Nat) : InstrFrame s (retireTo t e.die e.idx pc) e d := by
  have hcount : (engOf t e.die e.idx).retired = (engOf s e.die e.idx).retired := (congrArg Engine.retired h.record :)
  obtain ⟨k, pc', heq⟩ := retireTo_eq t e.die e.idx pc
  rw [heq]
  exact {
    regs := fun r hr => by rw [engOf_setEng]; exact h.regs r hr
    record := by
      rw [engOf_setEng]
      exact congrArg (fun y : Engine =>
        { y with pc := (engOf s e.die e.idx).pc, retired := (engOf s e.die e.idx).retired }) h.record
    retired := by
      rw [engOf_setEng, ← hcount]
      rfl
    others := fun d' e' hne => (engOf_setEng_ne _ hne _).trans (h.others d' e' hne)
    machine := h.machine
    failed := h.failed }

/-- Where the engine goes on, the instruction has retired. -/
theorem engAct_frame {a : EngAct} (ha : ActFrame s e d a) (ht : engAct e.die e.idx a = t)
    (hrun : (engOf t e.die e.idx).st = .running) (hwait : (engOf t e.die e.idx).waiting = none) : InstrFrame s t e d := by
  subst ht
  cases a with
  | done u => exact ha.retireTo _
  | jump u pc => exact ha.retireTo pc
  | trap u c v => exact absurd hrun (engTrap_stops _ _ _ _ _)
  | hold u w =>
    rw [engAct, engOf_setEng] at hwait
    cases hwait
  | halt u v => exact ha.elim

end

/-! ### The instructions -/

section
variable {s : State} {e : Eng} {w : Option Nat} {d a : Nat} {out : Out}

/-- The row runs an instruction that writes register `d` alone. -/
def FramedRow (s : State) (e : Eng) (w : Option Nat) (d : Nat) (out : Out) : Prop :=
  ∃ f, out = runEng e w f s ∧ ActFrame s e d (f s (engOf s e.die e.idx))

theorem framedRow_of {f : State → Engine → EngAct} (h : ActFrame s e d (f s (engOf s e.die e.idx))) :
    FramedRow s e w d (runEng e w f s) := ⟨f, rfl, h⟩

theorem actFrame_ite {c : Prop} [Decidable c] {x y : EngAct} (hx : ActFrame s e d x) (hy : ActFrame s e d y) :
    ActFrame s e d (if c then x else y) := by
  split
  · exact hx
  · exact hy

theorem regOp_framed (f : State → Engine → BitVec 72) : FramedRow s e w d (regOp e w d f s) :=
  framedRow_of (regFrame_putReg _)

theorem alu2_framed (op : W64 → W64 → W64) (b : Nat) : FramedRow s e w d (alu2 w op e d a b s) := regOp_framed _

theorem alu1_framed (op : W64 → W64) : FramedRow s e w d (alu1 w op e d a s) := regOp_framed _

theorem immOp_framed (f : W64 → W16 → W64) (imm : W16) : FramedRow s e w d (immOp w f e d a imm s) := regOp_framed _

theorem loadOp_framed (n : Nat) (word : Bool) (imm : W16) : FramedRow s e w d (loadOp w n word e d a imm s) := by
  refine framedRow_of ?_
  dsimp only
  split
  · trivial
  · split
    · exact actFrame_ite trivial (regFrame_putReg _)
    · exact regFrame_putReg _
    · exact regFrame_putReg _
    · split
      · exact regFrame_putReg _
      · trivial
    · trivial

/-- A jump goes to its target with nothing else done, or traps. -/
theorem goTo_cases (s : State) (t : W64) : goTo s t = .jump s t.toNat ∨ ∃ u c, goTo s t = .trap u c t := by
  unfold goTo
  dsimp only
  split
  · exact .inr ⟨_, _, rfl⟩
  · split
    · exact .inr ⟨_, _, rfl⟩
    · split
      · exact .inr ⟨_, _, rfl⟩
      · exact .inl rfl

theorem branchOp_framed (p : W64 → W64 → Bool) (r : Nat) (imm : W16) : FramedRow s e w 0 (branchOp w p e r a imm s) := by
  refine framedRow_of (actFrame_ite ?_ (regFrame_refl ..))
  obtain h | ⟨u, c, h⟩ := goTo_cases s (BitVec.ofNat 64 (engOf s e.die e.idx).pc + 4 * sext imm)
  · rw [h]
    exact regFrame_refl ..
  · rw [h]
    trivial

theorem linkTo_frame (t : W64) : ActFrame s e d (linkTo s e (engOf s e.die e.idx) d t) := by
  unfold linkTo
  obtain h | ⟨u, c, h⟩ := goTo_cases s t
  · rw [h]
    exact regFrame_putReg _
  · rw [h]
    trivial

theorem execSinfo_framed (p sel : Nat) : FramedRow s e (engEncode (.sinfo d p sel)) d (execSinfo e d p sel s) := by
  refine framedRow_of (actFrame_ite trivial ?_)
  split
  · exact regFrame_putReg _
  · exact regFrame_putReg_drawFree _

theorem execMfs_framed (sr : Nat) : FramedRow s e (engEncode (.mfs d sr)) d (execMfs e d sr s) := by
  refine framedRow_of ?_
  split
  · exact regFrame_putReg _
  · trivial

/-- Every instruction with one destination writes that register alone. -/
theorem runOp_framed {o : EngOp} (ho : regDest o = some d) : FramedRow s e (engEncode o) d (runOp e o s) := by
  cases o
  all_goals
    cases ho
  all_goals dsimp only [runOp]
  case engAdd | engSub | engAnd | engOr | engXor | andn | shl | shr | sar | ror | slt | sltu | engMin | engMax | minu
      | maxu | engMul | mulhu | mulh =>
    exact alu2_framed ..
  case clz | ctz | popc | bswap => exact alu1_framed _
  case addi | andi | ori | xori | slti | sltiu => exact immOp_framed ..
  case movw | setside | getside | shifti | movz | movk => exact regOp_framed _
  case ldb | ldh | ldd | ldq | ldw => exact loadOp_framed ..
  case beq | bne | blt | bge | bltu | bgeu => exact branchOp_framed ..
  case jal | jalr => exact framedRow_of (linkTo_frame _)
  case extr | insr | savail | sspace => exact framedRow_of (actFrame_ite trivial (regFrame_putReg _))
  case engCrc => exact framedRow_of (actFrame_ite (regFrame_putReg _) trivial)
  case engHash => exact framedRow_of (regFrame_putReg _)
  case sinfo => exact execSinfo_framed ..
  case mfs => exact execMfs_framed _
  case nop => exact framedRow_of (regFrame_refl ..)

end

theorem readByte_congr {s t : State} (h : t.mem = s.mem) (a : Nat) : readByte t a = readByte s a := by
  simp only [readByte, h]

/-- Settles O58: the instruction's row writes one register and retires, or leaves the engine stopped or waiting. -/
theorem engineRegisterFrame : Obligations.EngineRegisterFrame := by
  intro i e o d s t hi ho hx hnext hrun hwait
  obtain ⟨f, hrow, hact⟩ := runOp_framed (e := e) (s := s) ho
  rw [exec_eq_runOp hi, hrow, runEng_executes hx] at hnext
  obtain ⟨hregs, hrecord, hretired, hothers, hmachine, hfailed⟩ :=
    engAct_frame hact (Host.Outcome.next.inj hnext) hrun hwait
  have hmem : t.mem = s.mem := (congrArg State.mem hmachine :)
  exact ⟨hregs, hrecord, hretired, hothers, hmachine, hfailed, readByte_congr hmem⟩

end Sys2Proof.Machine

namespace Sys2Proof.Machine

/-! ## The frame of a store (R383 to R385) -/

section
variable {s t : State}

theorem readList_congr {a n : Nat} (h : ∀ i, i < n → readByte t (a + i) = readByte s (a + i)) :
    readList t a n = readList s a n := by
  refine List.ext_getElem (by rw [readList_length, readList_length]) fun i hi _ => ?_
  rw [readList_getElem, readList_getElem, h i (by simpa using hi)]

/-- Retiring leaves the memory and the registers alone. -/
theorem retire_mem (s : State) (d e : Nat) : (retire s d e).mem = s.mem := by
  obtain ⟨k, pc, h⟩ := retireTo_eq s d e ((engOf s d e).pc + 4)
  rw [retire, h, setEng_mem]

theorem retire_regs (s : State) (d e : Nat) : (engOf (retire s d e) d e).regs = (engOf s d e).regs := by
  obtain ⟨k, pc, h⟩ := retireTo_eq s d e ((engOf s d e).pc + 4)
  rw [retire, h, engOf_setEng]
  rfl

/-- `t` differs from `s` in the engines, the memory, and the free values drawn. -/
def SameRest (s t : State) : Prop := { t with eng := s.eng, mem := s.mem, freeCtr := s.freeCtr } = s

theorem sameRest_refl (s : State) : SameRest s s := rfl

theorem SameRest.setEng (h : SameRest s t) (d e : Nat) (y : Engine) : SameRest s (setEng t d e y) := h

theorem SameRest.memWrite (h : SameRest s t) (r : Region) (a : Nat) (b : List Byte) : SameRest s (memWrite t r a b) := h

theorem SameRest.draw (h : SameRest s t) (k : Nat) : SameRest s { t with freeCtr := k } := h

theorem SameRest.retire (h : SameRest s t) (d e : Nat) : SameRest s (retire t d e) := by
  obtain ⟨k, pc, heq⟩ := retireTo_eq t d e ((engOf t d e).pc + 4)
  rw [Machine.retire, heq]
  exact (h.draw k).setEng ..

end

/-! ### SRAM and messages -/

section
variable {s : State} {e : Eng} {n p : Nat} {v : Nat}

/-- What a store of `n` bytes leaves: the bytes at its address, and every other byte, register and field as it was. -/
theorem dataStore_frame (r : Region) :
    let t := retire (memWrite s r p (leBytes n v)) e.die e.idx
    memRead t r p n = leBytes n v ∧
      (∀ b, (b < regionBase r + p ∨ regionBase r + p + n ≤ b) → readByte t b = readByte s b) ∧
      (engOf t e.die e.idx).regs = (engOf s e.die e.idx).regs ∧
      SameRest s t := by
  intro t
  have hbytes : ∀ b, readByte t b = readByte (memWrite s r p (leBytes n v)) b := readByte_congr (retire_mem ..)
  have hread := memRead_memWrite s r p (leBytes n v)
  rw [leBytes_length] at hread
  refine ⟨(readList_congr fun i _ => hbytes _).trans hread, fun b hb => ?_, ?_, ?_⟩
  · rw [hbytes, readByte_memWrite_other _ _ _ _ (by rwa [leBytes_length])]
  · rw [retire_regs, engOf_memWrite]
  · exact ((sameRest_refl s).memWrite ..).retire ..

theorem readByte_memWrite_byte (s : State) (r : Region) (a v : Nat) :
    readByte (memWrite s r a (leBytes 1 v)) (regionBase r + a) = BitVec.ofNat 8 v :=
  List.head_eq_of_cons_eq (memRead_memWrite s r a (leBytes 1 v))

/-- The side bytes of an engine lie above the data of every engine. -/
theorem dataEnd_le_side (d i : Nat) (h : p < 0x80000) :
    regionBase (.engData d i) + p + 8 ≤ regionBase (.engSide d i) + p / 8 := by
  simp only [regionBase]
  omega

theorem sideByte_eq (v : BitVec 72) : BitVec.ofNat 8 (bits v.toNat 64 8) = (v >>> 64).setWidth 8 := by
  refine BitVec.eq_of_toNat_eq ?_
  simp only [bits, BitVec.toNat_ofNat, BitVec.toNat_setWidth, BitVec.toNat_ushiftRight, Nat.shiftRight_eq_div_pow]
  omega

/-- What STW leaves: the word and its side byte, and every other byte, register and field as it was. -/
theorem wordStore_frame (hp : p < 0x80000) (v : BitVec 72) (ecc : List Nat) :
    let at_ := regionBase (.engData e.die e.idx) + p
    let side := regionBase (.engSide e.die e.idx) + p / 8
    let t := became (storedWord s e p v) e { engOf s e.die e.idx with eccData := ecc }
    memRead t (.engData e.die e.idx) p 8 = leBytes 8 (v.setWidth 64).toNat ∧
      (∀ b, (b < at_ ∨ at_ + 8 ≤ b) → b ≠ side → readByte t b = readByte s b) ∧
      readByte t side = (v >>> 64).setWidth 8 ∧ (engOf t e.die e.idx).regs = (engOf s e.die e.idx).regs ∧
      SameRest s t := by
  intro at_ side t
  have hside : at_ + 8 ≤ side := dataEnd_le_side _ _ hp
  have hbytes : ∀ b, readByte t b = readByte (storedWord s e p v) b :=
    readByte_congr ((retire_mem ..).trans (setEng_mem ..))
  have hother : ∀ b, b ≠ side → readByte t b =
      readByte (memWrite s (.engData e.die e.idx) p (leBytes 8 (v.setWidth 64).toNat)) b := fun b hb => by
    rw [hbytes, storedWord, readByte_memWrite_other _ _ _ _ (by rw [leBytes_length]; omega)]
  have hread := memRead_memWrite s (.engData e.die e.idx) p (leBytes 8 (v.setWidth 64).toNat)
  rw [leBytes_length] at hread
  refine ⟨(readList_congr fun i hi => hother _ (by omega)).trans hread, fun b hb hne => ?_, ?_, ?_, ?_⟩
  · rw [hother b hne, readByte_memWrite_other _ _ _ _ (by rwa [leBytes_length])]
  · rw [hbytes, ← sideByte_eq]
    exact readByte_memWrite_byte ..
  · exact (retire_regs ..).trans (by rw [engOf_setEng])
  · exact ((((sameRest_refl s).memWrite ..).memWrite ..).setEng ..).retire ..

end

end Sys2Proof.Machine

namespace Sys2Proof.Machine

/-! ## The frame of a heap store (R385) -/

section
variable {s t : State} {d e : Nat}

@[simp] theorem incF_eng (s : State) (d : Nat) (f : Fld) : (incF s d f).eng = s.eng := setF_eng ..

@[simp] theorem incF_mem (s : State) (d : Nat) (f : Fld) : (incF s d f).mem = s.mem := setF_mem ..

/-- The address lies in no dirty line of the set in which an engine caches a line. -/
def OutsideDirty (s : State) (d e line b : Nat) : Prop :=
  ∀ w l, w < 4 → wayOf (engOf s d e) line w = some l → l.dirty = true →
    b < regionBase (.hbm d) + 64 * l.line ∨ regionBase (.hbm d) + 64 * l.line + l.data.length ≤ b

theorem outsideDirty_congr {line b : Nat} (h : t.eng = s.eng) : OutsideDirty t d e line b ↔ OutsideDirty s d e line b := by
  simp only [OutsideDirty, engOf_congr h]

/-- The engines are as they were, and so is every byte outside the lines of a set that were dirty. -/
structure WritesBack (s t : State) (d e line : Nat) : Prop where
  eng : t.eng = s.eng
  bytes : ∀ b, OutsideDirty s d e line b → readByte t b = readByte s b

theorem writesBack_of_same {line : Nat} (he : t.eng = s.eng) (hm : t.mem = s.mem) : WritesBack s t d e line :=
  ⟨he, fun b _ => readByte_congr hm b⟩

theorem writesBack_writeBack {line w : Nat} {l : CacheLine} (hw : w < 4) (hl : wayOf (engOf s d e) line w = some l)
    (he : t.eng = s.eng) (hm : t.mem = s.mem) : WritesBack s (writeBack t d e l) d e line := by
  unfold writeBack
  split
  next hdirty =>
    refine ⟨by rw [incF_eng, memWrite_eng, he], fun b hb => ?_⟩
    rw [readByte_congr (incF_mem ..), readByte_memWrite_other _ _ _ _ (hb w l hw hl hdirty), readByte_congr hm]
  next => exact writesBack_of_same he hm

/-- The way a line is fetched into: an empty one, or one that is not stated. -/
def pickWay (s : State) (x : Engine) (line : Nat) : Nat × State :=
  match (List.range 4).find? fun w => (wayOf x line w).isNone with
  | some w => (w, s)
  | none => ((drawFree s).1.toNat % 4, (drawFree s).2)

theorem pickWay_lt (s : State) (x : Engine) (line : Nat) : (pickWay s x line).1 < 4 := by
  unfold pickWay
  split
  next w h => exact List.mem_range.1 (List.mem_of_find?_eq_some h)
  next => exact Nat.mod_lt _ (by decide)

theorem pickWay_eng (s : State) (x : Engine) (line : Nat) : (pickWay s x line).2.eng = s.eng := by
  unfold pickWay
  split <;> rfl

theorem pickWay_mem (s : State) (x : Engine) (line : Nat) : (pickWay s x line).2.mem = s.mem := by
  unfold pickWay
  split <;> rfl

/-- The state once the line that stood in the way picked has been written back. -/
def evicted (s : State) (d e line : Nat) : State :=
  let pick := pickWay s (engOf s d e) line
  match wayOf (engOf s d e) line pick.1 with
  | some l => writeBack pick.2 d e l
  | none => pick.2

theorem evicted_writesBack (s : State) (d e line : Nat) : WritesBack s (evicted s d e line) d e line := by
  unfold evicted
  dsimp only
  split
  next l h => exact writesBack_writeBack (pickWay_lt ..) h (pickWay_eng ..) (pickWay_mem ..)
  next => exact writesBack_of_same (pickWay_eng ..) (pickWay_mem ..)

theorem cacheFill_eq (s : State) (d e line : Nat) : ∃ way cache, cacheFill s d e line =
    (way, setEng (evicted s d e line) d e { engOf (evicted s d e line) d e with cache := cache }) := ⟨_, _, rfl⟩

/-- A heap store leaves the registers, and every byte outside the dirty lines of the set it goes to. -/
structure HeapFrame (s t : State) (d e line : Nat) : Prop where
  regs : (engOf t d e).regs = (engOf s d e).regs
  bytes : ∀ b, OutsideDirty s d e line b → readByte t b = readByte s b

theorem HeapFrame.setCache {line : Nat} (h : HeapFrame s t d e line) (c : Tab (Option CacheLine)) :
    HeapFrame s (setEng t d e { engOf t d e with cache := c }) d e line where
  regs := by rw [engOf_setEng]; exact h.regs
  bytes b hb := (readByte_congr (setEng_mem ..) b).trans (h.bytes b hb)

theorem heapFrame_cacheFill (s : State) (d e line : Nat) : HeapFrame s (cacheFill s d e line).2 d e line := by
  obtain ⟨way, cache, heq⟩ := cacheFill_eq s d e line
  obtain ⟨heng, hbytes⟩ := evicted_writesBack s d e line
  rw [heq]
  have h : HeapFrame s (evicted s d e line) d e line := ⟨by rw [engOf_congr heng], hbytes⟩
  exact h.setCache cache

theorem heapFrame_miss (s : State) (d e line : Nat) : HeapFrame s (cacheFill (countMiss s d e) d e line).2 d e line := by
  have heng : (countMiss s d e).eng = s.eng := incF_eng ..
  obtain ⟨hregs, hbytes⟩ := heapFrame_cacheFill (countMiss s d e) d e line
  rw [engOf_congr heng] at hregs
  exact ⟨hregs, fun b hb =>
    (hbytes b ((outsideDirty_congr heng).2 hb)).trans (readByte_congr (incF_mem ..) b)⟩

theorem heapFrame_cacheWrite (s : State) (d e a n v : Nat) : HeapFrame s (cacheWrite s d e a n v) d e (a / 64) := by
  unfold cacheWrite
  extract_lets line r x
  have hr : HeapFrame s r.2 d e line := by
    unfold r
    split
    · exact ⟨rfl, fun _ _ => rfl⟩
    · exact heapFrame_miss ..
  split
  · exact hr.setCache _
  · exact hr

theorem HeapFrame.retire {line : Nat} (h : HeapFrame s t d e line) : HeapFrame s (retire t d e) d e line where
  regs := (retire_regs ..).trans h.regs
  bytes b hb := (readByte_congr (retire_mem ..) b).trans (h.bytes b hb)

end

/-! ## Stores -/

theorem areaOf_sram {x : Engine} {va p : Nat} (h : areaOf x va = some (.sram p)) : p < 0x80000 := by
  unfold areaOf at h
  split at h
  next hlt =>
    cases h
    exact hlt
  next =>
    split at h
    · cases h
    · split at h
      · cases h
      · split at h <;> cases h

theorem storeOf_word {o : EngOp} {n d a : Nat} {imm : W16} (h : storeOf o = some (n, true, d, a, imm)) : n = 8 := by
  unfold storeOf at h
  split at h
  case h_5 => cases h; rfl
  all_goals cases h

/-- Settles O59: a store of bytes, of a word with its side byte, and to the heap. -/
theorem engineStoreFrame : Obligations.EngineStoreFrame := by
  intro i e o n word d a imm s hi ho hx x va halign hva
  rw [exec_eq_runOp hi, runOp_of_storeOf ho]
  refine ⟨fun p harea => ?_, fun p hw harea => ?_⟩
  · intro at_ side
    cases word with
    | false =>
      have hdata : areaOf x va = some (.sram p) ∨ areaOf x va = some (.e2h p) := harea.imp_right And.right
      refine ⟨_, storeOp_data hx rfl rfl halign (by rwa [accessArea_of_lt hva]), ?_⟩
      obtain ⟨hread, hother, hregs, hrest⟩ := dataStore_frame (s := s) (e := e) (n := n) (p := p)
        (v := (payOf x d).toNat) (.engData e.die e.idx)
      exact ⟨hread, fun b hb _ => hother b hb, nofun, hregs, hrest⟩
    | true =>
      have hsram : areaOf x va = some (.sram p) := harea.resolve_right nofun
      obtain rfl := storeOf_word ho
      refine ⟨_, storeOp_word hx rfl rfl halign rfl ((accessArea_of_lt hva).trans hsram), ?_⟩
      obtain ⟨hread, hother, hside, hregs, hrest⟩ := wordStore_frame (s := s) (e := e) (areaOf_sram hsram) (regOf x d)
        (x.eccData.filter (· ≠ p))
      exact ⟨hread, fun b hb hne => hother b hb (hne.resolve_left nofun), fun _ => hside, hregs, hrest⟩
  · subst hw
    obtain ⟨hregs, hbytes⟩ := (heapFrame_cacheWrite s e.die e.idx p n (payOf x d).toNat).retire
    exact ⟨_, storeOp_heap hx rfl rfl halign ((accessArea_of_lt hva).trans harea), hregs, hbytes⟩

end Sys2Proof.Machine

namespace Sys2Proof.Machine

/-! ## Rows of drives and volumes (R438 to R447) -/

section
variable {d slot : Nat} {s : State} {v : Volume}

/-- Fixer writes the next envelopes of a stream on the member that takes them: the one of the stream's stripe unit while
that has room, else the next in rotation (R440). -/
theorem execFixerWriteIssue_issues {sid n m : Nat} {f : FixStream} {goes : Bool} {unit : Nat} (hl : live s d = true)
    (hvol : (svcOf s d slot).vol = some v) (hf : (v.streams.find? fun f => f.sid = sid) = some f)
    (hgoes : (!(nextEnvs s v f).1 && f.unitLeft ≠ 0 && hasRoom v f.unitMember 1) = goes)
    (hm : (if goes then some f.unitMember else nextMember v n) = some m)
    (hunit : (if goes then f.unitLeft else v.stripe) = unit)
    (hdue : (fixerRuns s d slot && v.st = 1 && 0 < n && n ≤ (nextEnvs s v f).2.length && n ≤ unit && hasRoom v m n &&
      fitsTransfer s d m n && queueRoom s d m v && envsReach s d slot sid n) = true) :
    execFixerWriteIssue d slot sid n s =
      .next (fullCheck (issueWrite s d slot m unit v f (nextEnvs s v f).1 (!goes) ((nextEnvs s v f).2.take n)) d slot) := by
  subst hgoes hunit
  refine onDie_effect hl ?_
  simp only [hvol, hf, hm]
  exact whenB_holds hdue

/-- A timer of a volume acts while Fixer runs it, with the volume open or FULL, once its time has come (R447, R448). -/
theorem volumeTimer_due {p : Prop} [Decidable p] (hr : fixerRuns s d slot = true) (hst : (v.st = 1 || v.st = 3) = true)
    (hp : p) : (fixerRuns s d slot && (v.st = 1 || v.st = 3) && decide p) = true := by
  rw [hr, hst, decide_eq_true hp]
  rfl

end

/-- Settles O17: each row's condition is the conjunction of the hypotheses. -/
theorem driveEventsTakeEffect : Obligations.DriveEventsTakeEffect := by
  refine ⟨?identify, ?linkDown, ?writeIssue, ?writeComplete, ?writeTimeout, ?flush, ?superblock, ?smart, ?command⟩
  case identify =>
    intro d p info s hl hdrive hawake hperst hnone suits s1
    change execDriveIdentifyDone d p info s = _
    refine onDie_effect hl (whenB_holds ?_)
    simp only [hdrive, hawake, hperst, hnone, Bool.and_self]
  case linkDown =>
    intro d p s hl hdrive
    change execDriveLinkDown d p s = _
    exact onDie_effect hl (whenB_holds hdrive)
  case writeIssue =>
    intro d slot sid n m v f s hl hvol hf nx goes hm unit hruns hst hpos hready hunit hroom hfits hqueue hreach
    change execFixerWriteIssue d slot sid n s = _
    refine execFixerWriteIssue_issues hl hvol hf rfl hm rfl ?_
    simp only [Bool.and_eq_true, decide_eq_true_eq]
    exact ⟨⟨⟨⟨⟨⟨⟨⟨hruns, hst⟩, hpos⟩, hready⟩, hunit⟩, hroom⟩, hfits⟩, hqueue⟩, hreach⟩
  case writeComplete =>
    intro d slot id sct sc dnr s hl v hvol w hw
    change execNvmeWriteComplete d slot id sct sc dnr s = _
    refine onDie_effect hl ?_
    simp only [hvol, hw]
  case writeTimeout =>
    intro d slot id s hl v hvol w hw hdue
    change execNvmeWriteTimeout d slot id s = _
    refine onDie_effect hl ?_
    simp only [hvol, hw]
    exact whenB_holds (decide_eq_true hdue)
  case flush =>
    intro d slot s hl v hvol dt hruns hst hdue v1 a
    change execFixerFlushTimeout d slot s = _
    refine onDie_effect hl ?_
    simp only [hvol]
    exact whenB_holds (volumeTimer_due hruns hst hdue)
  case superblock =>
    intro d slot s hl v hvol hruns hst hdue
    change execSuperblockInterval d slot s = _
    refine onDie_effect hl ?_
    simp only [hvol]
    exact whenB_holds (volumeTimer_due hruns hst hdue)
  case smart =>
    intro d p warn s hl g hinfo hdue s1
    change execSmartPoll d p warn s = _
    exact onDie_effect hl (whenB_holds (Bool.and_eq_true_iff.2 ⟨hinfo, decide_eq_true hdue⟩))
  case command =>
    intro d p what ok s hl g op r k hops hvol hok hwhat
    change execNvmeCommandComplete d p what ok s = _
    refine onDie_effect hl ?_
    simp only [show (driveOf s d p).ops = op :: r from hops, hvol]
    exact whenB_holds (Bool.and_eq_true_iff.2 ⟨hok, hwhat⟩)

end Sys2Proof.Machine

namespace Sys2Proof.Machine

/-! ## Rows of transfer channels (R457 to R477) -/

section
variable {d c : Nat} {s : State}

/-- The instruction at a ready channel's PC has its effect where its fields are allowed (R457, R463). -/
theorem runXfer_legal {op : Nat} {legal : Nat → Bool} {f : Nat → State → State} (hl : live s d = true)
    (hr : xReady s d c op = true) (hw : legal (xInstr s d (xferOf s d c).pc) = true) :
    runXfer d c op legal f s = .next (f (xInstr s d (xferOf s d c).pc) s) :=
  onDie_effect hl ((whenB_holds hr).trans (if_pos hw))

/-- A condition checked only under a flag is not found violated where the flag's condition holds. -/
theorem flagged_check_passes {flag ok : Bool} (h : flag = true → ok = true) : ¬(flag && !ok) = true := by
  cases flag
  · exact nofun
  · simp only [h rfl, Bool.not_true, Bool.and_false, Bool.false_eq_true, not_false_eq_true]

/-- A host access through a port has its effect where the row's own condition holds (R65). -/
theorem onPort_effect {port : Nat} {due : State → Bool} {f : State → State} (hl : live s port = true)
    (hp : portShown s port = true) (hd : due s = true) :
    onPort port s (fun s' => whenB (due s') s' f) = .next (f s) :=
  (onPort_shown hl hp).trans (congrArg _ (whenB_holds hd))

end

/-- Settles O15: each row's condition is the conjunction of the hypotheses, and an instruction's checks of its fields
and ranges pass. -/
theorem transferRowsTakeEffect : Obligations.TransferRowsTakeEffect := by
  refine ⟨?done, ?move, ?loop, ?wait, ?signal, ?nop, ?badOpcode, ?kick, ?pauseSet, ?pauseClear, ?retire, ?beatError,
    ?waitReturn, ?waitTimeout, ?paused⟩
  case done =>
    intro d c s hl hr w hw x
    change execXferEnd d c s = _
    exact runXfer_legal hl hr hw
  case move =>
    intro d c s hl hr x w m hlegal hsrc hdst
    change execXferMove d c s = _
    exact onDie_effect hl ((whenB_holds hr).trans ((ite_bnot_of hlegal).trans ((ite_bnot_of hsrc).trans
      (ite_bnot_of hdst))))
  case loop =>
    intro d c s hl hr w hw x k count fresh lc
    change execXferLoop d c s = _
    exact runXfer_legal hl hr hw
  case wait =>
    intro d c s hl hr w hw tmo y x
    change execXferWait d c s = _
    exact runXfer_legal hl hr hw
  case signal =>
    intro d c s hl hr x w sp a hswap hlegal hrange data
    change execXferSignal d c s = _
    exact onDie_effect hl ((whenB_holds (Bool.and_eq_true_iff.2 ⟨hr, hswap⟩)).trans ((ite_bnot_of hlegal).trans
      (if_neg (flagged_check_passes hrange))))
  case nop =>
    intro d c s hl hr w hw
    change execXferNop d c s = _
    exact runXfer_legal hl hr hw
  case badOpcode =>
    intro d c s hl op hop hr
    change execXferIllegalOpcode d c s = _
    exact onDie_effect hl (whenB_holds (Bool.and_eq_true_iff.2 ⟨decide_eq_true hop, hr⟩))
  case kick =>
    intro port d c be v s hl hp hd hc hbe hv ho
    change execXfrChKick port d c be v s = _
    refine onPort_effect hl hp ?_
    simp only [hd, hc, hbe, hv, ho, decide_true, Bool.and_self]
  case pauseSet =>
    intro port d c v s hl hp hd hc hv ho
    change execPauseSet port d c v s = _
    refine onPort_effect hl hp ?_
    simp only [hd, hc, hv, ho, decide_true, Bool.and_self]
  case pauseClear =>
    intro port d c v s hl hp hd hc hv ho
    change execPauseClear port d c v s = _
    refine onPort_effect hl hp ?_
    simp only [hd, hc, hv, ho, decide_true, Bool.and_self]
  case retire =>
    intro d c rereads s hl x m n hup hpace hre s0 ecc
    change execXferMoveRetire d c rereads s = _
    refine onDie_effect hl (whenB_holds ?_)
    simp only [Bool.and_eq_true, decide_eq_true_eq]
    exact ⟨⟨hup, hpace⟩, hre⟩
  case beatError =>
    intro d c cause done last s hl x sides hc hst hmoving hdone hmovable hpace hswap hside
    change execXferBeatError d c cause done last s = _
    refine onDie_effect hl (whenB_holds ?_)
    simp only [Bool.and_eq_true, decide_eq_true_eq]
    exact ⟨⟨⟨⟨⟨⟨⟨hc, hst⟩, hmoving⟩, hdone⟩, hmovable⟩, hpace⟩, hswap⟩, hside⟩
  case waitReturn =>
    intro d c s hl x hc hst hpause hholds
    change execXferWaitReturn d c s = _
    refine onDie_effect hl (whenB_holds ?_)
    simp only [Bool.and_eq_true]
    exact ⟨⟨⟨hc, hst⟩, hpause⟩, hholds⟩
  case waitTimeout =>
    intro d c s hl x t ht hc hst hpause hholds hdue y
    change execXferWaitTimeout d c s = _
    refine onDie_effect hl ?_
    simp only [show (xferOf s d c).wait.expiry = some t from ht]
    refine whenB_holds ?_
    simp only [Bool.and_eq_true, decide_eq_true_eq]
    exact ⟨⟨⟨⟨hc, hst⟩, hpause⟩, hholds⟩, hdue⟩
  case paused =>
    intro d c moved s hl x n hc hclk hn hpause hst hmove s1
    change execXferPaused d c moved s = _
    refine onDie_effect hl (whenB_holds ?_)
    simp only [Bool.and_eq_true, decide_eq_true_eq]
    exact ⟨⟨⟨⟨⟨hc, hclk⟩, hn⟩, hpause⟩, hst⟩, hmove⟩

end Sys2Proof.Machine

namespace Sys2Proof.Machine

/-! ## Byte enables and fields of dwords (R502) -/

section
variable {be k : Nat} {m old v a b : W32} {s : State} {d : Nat} {f : Fld}

theorem bitAt_eq_testBit (n i : Nat) : bitAt n i = n.testBit i := by
  simp only [bitAt, bits, Nat.pow_one, Nat.testBit_eq_decide_div_mod_eq]

/-- A dword access has four byte enables; no higher bit of their number counts. -/
theorem byteMask_mod (be : Nat) : byteMask (be % 16) = byteMask be := by
  have hbit : ∀ i < 4, bitAt (be % 16) i = bitAt be i := fun i hi => by
    simp only [bitAt_eq_testBit, show 16 = 2 ^ 4 from rfl, Nat.testBit_mod_two_pow, hi, decide_true, Bool.true_and]
  simp only [byteMask, show List.range 4 = [0, 1, 2, 3] from rfl, List.foldl_cons, List.foldl_nil, hbit, Nat.reduceLT]

theorem byteMask_eq_zero_iff : byteMask be = 0 ↔ be % 16 = 0 := by
  have hall : ∀ n < 16, byteMask n = 0 ↔ n = 0 := by decide
  rw [← byteMask_mod]
  exact hall _ (Nat.mod_lt _ (by decide))

/-- The first byte enable lets the bits of the first byte through. -/
theorem byteMask_getLsbD_low (h : bitAt be 0 = true) (hk : k < 8) : (byteMask be).getLsbD k = true := by
  have hall : ∀ n < 16, n.testBit 0 = true → ∀ k < 8, (byteMask n).getLsbD k = true := by decide
  rw [← byteMask_mod]
  refine hall _ (Nat.mod_lt _ (by decide)) ?_ k hk
  rwa [show 16 = 2 ^ 4 from rfl, Nat.testBit_mod_two_pow, ← bitAt_eq_testBit]

theorem and_ne_zero_of_getLsbD (ha : a.getLsbD k = true) (hb : b.getLsbD k = true) : a &&& b ≠ 0 := fun h => by
  have hbit : (a &&& b).getLsbD k = false := h ▸ BitVec.getLsbD_zero
  rw [BitVec.getLsbD_and, ha, hb] at hbit
  exact Bool.noConfusion hbit

theorem left_ne_zero_of_and (h : a &&& b ≠ 0) : a ≠ 0 := fun h0 => h (by rw [h0]; exact BitVec.zero_and)

theorem mergeBits_getLsbD_of_mask (hm : m.getLsbD k = true) : (mergeBits m old v).getLsbD k = v.getLsbD k := by
  simp only [mergeBits, BitVec.getLsbD_or, BitVec.getLsbD_and, BitVec.getLsbD_not, hm, Bool.not_true, Bool.and_false,
    Bool.false_or, Bool.and_true]

/-- A flag is a bit of its register. -/
theorem flagF_eq_getLsbD (hw : f.w = 1) : flagF s d f = (reg s d f.ofs).getLsbD f.lo := by
  rw [BitVec.getLsbD, ← bitAt_eq_testBit]
  simp only [flagF, getF, getFld, bitAt, hw]

theorem flagF_setFlag_false (hw : f.w = 1) (hlo : f.lo < 32) : flagF (setFlag s d f false) d f = false := by
  have hm : (BitVec.ofNat 32 (2 ^ f.lo)).getLsbD f.lo = true := by
    rw [BitVec.getLsbD_ofNat, Nat.testBit_two_pow_self, decide_eq_true hlo, Bool.true_and]
  simp only [flagF_eq_getLsbD hw, setFlag, setF, reg_setReg, putFld, hw, b2n, Nat.pow_one, Nat.reduceSub, Nat.one_mul,
    BitVec.getLsbD_or, BitVec.getLsbD_and, BitVec.getLsbD_not, hm, Bool.not_true, Bool.and_false, Bool.false_or,
    Bool.false_eq_true, if_false, Nat.zero_mod, Nat.zero_mul, BitVec.getLsbD_zero]

end

/-! ## Where an access through the primary function lands (R65, R487, R508) -/

section
variable {port d o be i j : Nat} {v : W32} {s : State} {r : RegDef}

theorem nDies_le (s : State) : nDies s ≤ 8 := by
  unfold nDies
  cases s.part <;> decide

theorem primaryAt_iff : primaryAt s port d = true ↔ live s port = true ∧ portShown s port = true ∧ s.ready = true ∧
    port = primaryPort s ∧ d < nDies s ∧ fenced s d = false ∧ strobeFirst s = false := by
  simp only [primaryAt, Bool.and_eq_true, decide_eq_true_eq, Bool.not_eq_true', and_assoc]

/-- BAR0 of the primary function shows the window of every die that is fitted and not fenced (R487). -/
theorem spotOf_primary (h : primaryAt s port d = true) (ho : o < 0x800000) (h4 : o % 4 = 0) :
    spotOf s port 0 (0x800000 * d + o) = windowSpot s d o := by
  obtain ⟨-, hp, hr, hport, hd, hf, -⟩ := primaryAt_iff.1 h
  have h8 := nDies_le s
  have hdie : (0x800000 * d + o) / 0x800000 = d := by omega
  have hofs : (0x800000 * d + o) % 0x800000 = o := by omega
  have halign : (0x800000 * d + o) % 4 = 0 := by omega
  have hreach : ¬0x4000000 ≤ 0x800000 * d + o := by omega
  have hprimary : (s.ready && decide (port = primaryPort s)) = true := by rw [hr, decide_eq_true hport]; rfl
  have hthere : ¬(decide (nDies s ≤ d) || fenced s d) = true := by
    rw [decide_eq_false (Nat.not_le.2 hd), hf]; exact Bool.false_ne_true
  have hseen : ¬(!portShown s port || decide ((0x800000 * d + o) % 4 ≠ 0)) = true := by
    rw [hp, decide_eq_false (not_not_intro halign)]; exact Bool.false_ne_true
  rw [spotOf, if_neg hseen, if_pos rfl, bar0Spot, if_pos hprimary, if_neg hreach, hdie, hofs, if_neg hthere]

/-- A die has every register of a row that stands on every die. -/
theorem windowSpot_everywhere (hr : findReg o = some r) (hat : rowAt r o = some (i, j)) (hp : r.pres = 0) :
    windowSpot s d o = .register d r i j o := by
  have hother : decide (r.pres = 2) = false := by rw [hp]; rfl
  have hevery : decide (r.pres = 0) = true := decide_eq_true hp
  simp only [windowSpot, hr, hat, hother, hevery, Bool.and_false, Bool.true_or, Bool.false_eq_true, if_false, if_true]

/-- A dword written to a register's place in the primary function is written to the register. -/
theorem hostDword_register (hbe : be % 16 ≠ 0) (h : primaryAt s port d = true) (ho : o < 0x800000) (h4 : o % 4 = 0)
    (hs : windowSpot s d o = .register d r i j o) :
    hostDword s port 0 (0x800000 * d + o) be v = dieWrite s d r i o be v := by
  simp only [hostDword, if_neg hbe, spotOf_primary h ho h4, hs]

/-- A request of one dword lands where the dword does. -/
theorem spotsOf_one (s : State) (port bar ofs : Nat) : spotsOf s port bar ofs 1 = [spotOf s port bar ofs] := rfl

theorem spotsOf_one_register {bar ofs : Nat} (hs : spotOf s port bar ofs = .register d r i j o) :
    (spotsOf s port bar ofs 1).contains .nowhere = false ∧ (spotsOf s port bar ofs 1).any isReserved = false := by
  rw [spotsOf_one, hs]
  exact ⟨rfl, rfl⟩

theorem spotsOf_one_reserved {bar ofs reason : Nat} (hs : spotOf s port bar ofs = .reserved d reason) :
    (spotsOf s port bar ofs 1).contains .nowhere = false ∧ (spotsOf s port bar ofs 1).any isReserved = true := by
  rw [spotsOf_one, hs]
  exact ⟨rfl, rfl⟩

/-- A write request goes through where it reaches the BAR, no strobe comes first, and it touches a reserved location or
not as its row says. -/
theorem writeRequest_accepted {touches : Bool} {bar ofs : Nat} {dws : List (Nat × W32)} (hf : strobeFirst s = false)
    (hin : (spotsOf s port bar ofs dws.length).contains .nowhere = false)
    (hres : (spotsOf s port bar ofs dws.length).any isReserved = touches) :
    writeRequest touches port bar ofs dws s = hostDwords port bar ofs dws s :=
  whenB_holds (by simp only [hin, hres, hf, beq_self_eq_true, Bool.not_false, Bool.and_self])

theorem execRegisterWrite_register (hbe : be % 16 ≠ 0) (h : primaryAt s port d = true) (ho : o < 0x800000)
    (h4 : o % 4 = 0) (hs : windowSpot s d o = .register d r i j o) :
    execRegisterWrite port 0 (0x800000 * d + o) [(be, v)] s = .next (dieWrite s d r i o be v) := by
  obtain ⟨hl, -, -, -, -, -, hf⟩ := primaryAt_iff.1 h
  obtain ⟨hin, hres⟩ := spotsOf_one_register ((spotOf_primary h ho h4).trans hs)
  exact onDie_effect hl ((writeRequest_accepted hf hin hres).trans (hostDword_register hbe h ho h4 hs))

/-- A read of a register whose value is not free gives its view, and the enabled RC bits clear. -/
theorem dieRead_settled (hfree : readsFree r = false) : dieRead s d r i j o be = (viewRow s 0 d r i j o,
    if byteMask be &&& BitVec.ofNat 32 r.rc = 0 then s
    else setReg s d o (reg s d o &&& ~~~(byteMask be &&& BitVec.ofNat 32 r.rc))) := by
  simp only [dieRead, hfree, Bool.false_eq_true, if_false]
  rfl

/-- A read request goes through where it enables something, reaches the BAR and touches no reserved location (R502). -/
theorem execRegisterReadClear_accepted {bar ofs : Nat} {bes : List Nat} (hl : live s port = true)
    (hin : (spotsOf s port bar ofs bes.length).contains .nowhere = false)
    (hres : (spotsOf s port bar ofs bes.length).any isReserved = false) (hne : bes.isEmpty = false) :
    execRegisterReadClear port bar ofs bes s = .next
      { (hostReads port bar ofs bes s).2 with lastRead := some (.dwords (hostReads port bar ofs bes s).1) } :=
  onDie_effect hl (whenB_holds (by simp only [hin, hres, hne, Bool.not_false, Bool.and_self]))

theorem execRegisterReadClear_register (h : primaryAt s port d = true) (ho : o < 0x800000) (h4 : o % 4 = 0)
    (hs : windowSpot s d o = .register d r i j o) :
    execRegisterReadClear port 0 (0x800000 * d + o) [be] s =
      .next { (dieRead s d r i j o be).2 with lastRead := some (.dwords [(dieRead s d r i j o be).1]) } := by
  obtain ⟨hl, -⟩ := primaryAt_iff.1 h
  have hspot := (spotOf_primary h ho h4).trans hs
  have hread : hostReads port 0 (0x800000 * d + o) [be] s =
      ([(dieRead s d r i j o be).1], (dieRead s d r i j o be).2) := by
    simp only [hostReads, hostRead, hspot]
  obtain ⟨hin, hres⟩ := spotsOf_one_register hspot
  rw [execRegisterReadClear_accepted hl hin hres rfl, hread]

theorem windowWrite_register (hbe : be % 16 ≠ 0) (h : primaryAt s port d = true) (ho : o < 0x800000) (h4 : o % 4 = 0)
    (hs : windowSpot s d o = .register d r i j o) : windowWrite port d o be v s = dieWrite s d r i o be v := by
  obtain ⟨-, -, hr, hport, -, -, hf⟩ := primaryAt_iff.1 h
  rw [← hostDword_register hbe h ho h4 hs]
  exact if_pos (by simp only [hr, hf, decide_eq_true hport, Bool.not_false, Bool.and_self])

end

/-! ## What a write to a register of a die does (R488, R496, R498) -/

section
variable {d o be i b : Nat} {v m : W32} {s : State} {r : RegDef}

/-- The bits of a register that a write may change, or that act when they are written. -/
abbrev writableBits (r : RegDef) : W32 := BitVec.ofNat 32 (r.rw ||| r.rws ||| r.wo1 ||| r.w1t)

/-- An accepted write that enables covered bits first suspends the configuration check (R496). -/
abbrev suspendIfCovered (s : State) (d : Nat) (r : RegDef) (be : Nat) : State :=
  if byteMask be &&& BitVec.ofNat 32 r.cov = 0 then s else suspendCheck s d

theorem suspendIfCovered_uncovered (h : r.cov = 0) : suspendIfCovered s d r be = s :=
  if_pos (by rw [h]; exact BitVec.and_zero)

theorem lockedBy_unlockable {n : Nat} (h : blockLock o = none) : lockedBy s d r o n = none := by
  simp only [lockedBy, h]

/-- A lock discards the write and reports it (R498, R500). -/
theorem dieWrite_locked (hl : lockedBy s d r o (byteMask be).toNat = some b) (ho : o ≠ rCfgCtl) :
    dieWrite s d r i o be v = lockViol s d 1 b o v := by
  simp only [dieWrite, hl, decide_eq_false ho, Bool.false_and, Bool.false_eq_true, if_false]

/-- An accepted write to an RWS register goes to its shadow. -/
theorem dieWrite_shadow (hl : lockedBy s d r o (byteMask be).toNat = none) (hrws : r.rws ≠ 0)
    (hm : byteMask be &&& writableBits r ≠ 0) :
    dieWrite s d r i o be v = shadowWrite (suspendIfCovered s d r be) d r i o (byteMask be) v := by
  simp only [dieWrite, hl, if_neg hm, if_pos hrws]

/-- An accepted write to a register with no shadow, ring or channel behind it. -/
theorem dieWrite_plain (hl : lockedBy s d r o (byteMask be).toNat = none) (hrws : r.rws = 0)
    (hhst : o < 0x30000 ∨ 0x38000 ≤ o) (hxfr : o < 0x60000) (hm : byteMask be &&& writableBits r ≠ 0) :
    dieWrite s d r i o be v = plainWrite (suspendIfCovered s d r be) d r i o (byteMask be) v := by
  have hring : ¬(decide (0x30000 ≤ o) && decide (o < 0x38000)) = true := by
    simp only [Bool.and_eq_true, decide_eq_true_eq]; omega
  simp only [dieWrite, hl, if_neg hm]
  simp only [hrws, ne_eq, not_true_eq_false, if_false, if_neg hring, if_neg (Nat.not_le.2 hxfr)]

/-- A register without an effect of its own takes the enabled RW bits. -/
theorem plainWrite_rw (hrw : m &&& BitVec.ofNat 32 r.rw ≠ 0) (ho : o ∉ [rCfgCtl, rCfgCrcRef, rCfgLockSet, rUpdStrobe])
    (hp : r.ofs ≠ rPbdCtl 0) :
    plainWrite s d r i o m v =
      setCovered s d o r.cov (clampWrite r i (mergeBits (m &&& BitVec.ofNat 32 r.rw) (reg s d o) v)) := by
  simp only [List.mem_cons, not_or] at ho
  obtain ⟨hctl, href, hlock, hstrobe, -⟩ := ho
  simp only [plainWrite, if_neg hrw, if_neg hctl, if_neg href, if_neg hlock, if_neg hstrobe, if_neg hp]

/-- An enabled RW bit is an enabled bit that a write may change. -/
theorem writable_of_rw (h : m &&& BitVec.ofNat 32 r.rw ≠ 0) : m &&& writableBits r ≠ 0 := by
  intro h0
  simp only [BitVec.ofNat_or, BitVec.and_or_distrib_left, BitVec.or_eq_zero_iff, BitVec.ofNat_eq_ofNat] at h0
  obtain ⟨⟨⟨hrw, -⟩, -⟩, -⟩ := h0
  exact h hrw

end

/-! ## The registers with an effect of their own (R490, R496, R498, R518) -/

/-- CFG_CTL's row of the map. -/
def cfgCtlRow : RegDef := ⟨rCfgCtl, 1, 0, 1, 0, 0, 0x4, 0x7, 0, 0, 0, 0x8, 0x7, 32⟩

/-- CFG_CRC_REF's row of the map. -/
def cfgCrcRefRow : RegDef := ⟨rCfgCrcRef, 1, 0, 1, 0, 0, 0, 0xFFFFFFFF, 0, 0, 0, 0, 0, 32⟩

/-- CFG_LOCK_SET's row of the map. -/
def cfgLockSetRow : RegDef := ⟨rCfgLockSet, 1, 0, 1, 0, 0, 0, 0, 0, 0, 0, 0x3F, 0, 32⟩

/-- UPD_STROBE's row of the map. -/
def updStrobeRow : RegDef := ⟨rUpdStrobe, 1, 0, 1, 0, 0, 0, 0, 0, 0, 0, 0xFFFFFFFF, 0, 32⟩

/-- PBD_CTL's row of the map, one register for each of two ports. -/
def pbdCtlRow : RegDef := ⟨rPbdCtl 0, 2, 0x1000, 1, 0, 0, 0x2, 0xFF03, 0, 0, 0, 0, 0xFF03, 32⟩

section
variable {port d p be i : Nat} {v : W32} {s : State}

theorem windowSpot_cfgCtl : windowSpot s d rCfgCtl = .register d cfgCtlRow 0 0 rCfgCtl :=
  windowSpot_everywhere (by decide) (by decide) rfl

theorem windowSpot_cfgCrcRef : windowSpot s d rCfgCrcRef = .register d cfgCrcRefRow 0 0 rCfgCrcRef :=
  windowSpot_everywhere (by decide) (by decide) rfl

theorem windowSpot_cfgLockSet : windowSpot s d rCfgLockSet = .register d cfgLockSetRow 0 0 rCfgLockSet :=
  windowSpot_everywhere (by decide) (by decide) rfl

theorem windowSpot_updStrobe : windowSpot s d rUpdStrobe = .register d updStrobeRow 0 0 rUpdStrobe :=
  windowSpot_everywhere (by decide) (by decide) rfl

theorem windowSpot_pbdCtl (hp : p < 2) : windowSpot s d (rPbdCtl p) = .register d pbdCtlRow p 0 (rPbdCtl p) := by
  have hall : ∀ p < 2, findReg (rPbdCtl p) = some pbdCtlRow ∧ rowAt pbdCtlRow (rPbdCtl p) = some (p, 0) := by decide
  obtain ⟨hr, hat⟩ := hall p hp
  exact windowSpot_everywhere hr hat rfl

/-- A write to one of these registers through the primary function. -/
theorem windowWrite_plain {o j : Nat} {r : RegDef} (h : primaryAt s port d = true) (h4 : o % 4 = 0) (ho : o < 0x30000)
    (hs : windowSpot s d o = .register d r i j o) (hl : lockedBy s d r o (byteMask be).toNat = none) (hrws : r.rws = 0)
    (hm : byteMask be &&& writableBits r ≠ 0) :
    windowWrite port d o be v s = plainWrite (suspendIfCovered s d r be) d r i o (byteMask be) v := by
  have hbe : be % 16 ≠ 0 := fun h0 => left_ne_zero_of_and hm (byteMask_eq_zero_iff.2 h0)
  rw [windowWrite_register hbe h (by omega) h4 hs, dieWrite_plain hl hrws (.inl ho) (by omega) hm]

/-- Bits outside the configuration check are set without a note for the pass (R495). -/
theorem setCovered_uncovered (s : State) (d o : Nat) (v : W32) : setCovered s d o 0 v = setReg s d o v :=
  if_neg (not_not_intro BitVec.and_zero)

@[simp] theorem reg_setCovered (s : State) (d o cov : Nat) (v : W32) : reg (setCovered s d o cov v) d o = v := by
  by_cases hc : (reg s d o ^^^ v) &&& BitVec.ofNat 32 cov ≠ 0
  · exact (congrArg (reg · d o) (if_pos hc)).trans (reg_setReg s d o v)
  · exact (congrArg (reg · d o) (if_neg hc)).trans (reg_setReg s d o v)

/-- UPD_STROBE has no RW bits: a write only issues its strobe. -/
theorem plainWrite_updStrobe {m : W32} :
    plainWrite s d updStrobeRow i rUpdStrobe m v = issueStrobe s 0 (m &&& v) (s.now * 256) := by
  have hrw : m &&& BitVec.ofNat 32 updStrobeRow.rw = 0 := BitVec.and_zero
  have hne : rUpdStrobe ≠ rCfgCrcRef ∧ rUpdStrobe ≠ rCfgCtl ∧ rUpdStrobe ≠ rCfgLockSet := by decide
  obtain ⟨href, hctl, hlock⟩ := hne
  simp only [plainWrite, if_pos hrw, if_neg href, if_neg hctl, if_neg hlock, if_true]

/-- CFG_LOCK_SET has no RW bits: a write only sets lock bits. -/
theorem plainWrite_cfgLockSet {m : W32} :
    plainWrite s d cfgLockSetRow i rCfgLockSet m v = setReg s d rCfgLock (reg s d rCfgLock ||| (m &&& v &&& 0x3F)) := by
  have hrw : m &&& BitVec.ofNat 32 cfgLockSetRow.rw = 0 := BitVec.and_zero
  have hne : rCfgLockSet ≠ rCfgCrcRef ∧ rCfgLockSet ≠ rCfgCtl := by decide
  obtain ⟨href, hctl⟩ := hne
  simp only [plainWrite, if_pos hrw, if_neg href, if_neg hctl, if_true]

theorem windowWrite_updStrobe (h : primaryAt s port d = true) (hm : byteMask be &&& v ≠ 0) :
    windowWrite port d rUpdStrobe be v s = issueStrobe s 0 (byteMask be &&& v) (s.now * 256) := by
  have hw : byteMask be &&& writableBits updStrobeRow = byteMask be := BitVec.and_allOnes
  rw [windowWrite_plain h rfl (by decide) windowSpot_updStrobe (lockedBy_unlockable rfl) rfl
    (by rw [hw]; exact left_ne_zero_of_and hm), suspendIfCovered_uncovered rfl, plainWrite_updStrobe]

/-- A strobe of the host is issued even while die 0 holds its clock, to apply 112 ticks after its tick (R490, R493). -/
theorem issueStrobe_host {m : W32} (hm : m ≠ 0) : issueStrobe s 0 m (s.now * 256) = { s with strobes := s.strobes ++
    [⟨0, m, s.now + 112, dies s, [], (dieClk s 0).holding, false⟩] } := by
  have htick : (s.now * 256 + 112 * 256 + 255) / 256 = s.now + 112 := by omega
  simp only [issueStrobe, htick, decide_eq_false hm, Nat.zero_ne_one, decide_false, Bool.and_false, Bool.or_false,
    Bool.false_eq_true, if_false]

theorem windowWrite_cfgLockSet (h : primaryAt s port d = true) (hb : bitAt be 0 = true) :
    windowWrite port d rCfgLockSet be v s =
      setReg s d rCfgLock (reg s d rCfgLock ||| (byteMask be &&& v &&& 0x3F)) := by
  rw [windowWrite_plain h rfl (by decide) windowSpot_cfgLockSet (lockedBy_unlockable rfl) rfl
    (and_ne_zero_of_getLsbD (byteMask_getLsbD_low hb (k := 0) (by decide)) (by decide)), suspendIfCovered_uncovered rfl,
    plainWrite_cfgLockSet]

theorem windowWrite_cfgCrcRef (h : primaryAt s port d = true) (hbe : be % 16 ≠ 0) :
    windowWrite port d rCfgCrcRef be v s =
      refWritten (setReg s d rCfgCrcRef (mergeBits (byteMask be) (reg s d rCfgCrcRef) v)) d := by
  have hrw : byteMask be &&& BitVec.ofNat 32 cfgCrcRefRow.rw = byteMask be := BitVec.and_allOnes
  have hm : byteMask be ≠ 0 := fun h0 => hbe (byteMask_eq_zero_iff.1 h0)
  rw [windowWrite_plain h rfl (by decide) windowSpot_cfgCrcRef (lockedBy_unlockable rfl) rfl
    (writable_of_rw (hrw.symm ▸ hm)), suspendIfCovered_uncovered rfl]
  have hclamp : ∀ x, clampWrite cfgCrcRefRow 0 x = x := fun _ => rfl
  simp only [plainWrite, hrw, if_neg hm, hclamp, if_true]
  exact congrArg (refWritten · d) (setCovered_uncovered ..)

/-- CAPTURE_REF acts whether or not a lock discards the other fields of CFG_CTL (R498, log entry 41). -/
theorem windowWrite_captureRef (h : primaryAt s port d = true) (hb : bitAt be 0 = true) (hv : v.getLsbD 3 = true) :
    ∃ t, windowWrite port d rCfgCtl be v s = captureRef t d := by
  have hmask : (byteMask be).getLsbD 3 = true := byteMask_getLsbD_low hb (by decide)
  have hcap : (byteMask be &&& v).getLsbD 3 = true := by rw [BitVec.getLsbD_and, hmask, hv]; rfl
  have hbe : be % 16 ≠ 0 := fun h0 => by
    rw [byteMask_eq_zero_iff.2 h0] at hmask
    exact absurd hmask (by decide)
  have hm : byteMask be &&& writableBits cfgCtlRow ≠ 0 := and_ne_zero_of_getLsbD hmask (by decide)
  rw [windowWrite_register hbe h (by decide) rfl windowSpot_cfgCtl]
  cases hl : lockedBy s d cfgCtlRow rCfgCtl (byteMask be).toNat with
  | some b => exact ⟨lockViol s d 1 b rCfgCtl v, by simp only [dieWrite, hl, hcap, decide_true, Bool.and_self, if_true]⟩
  | none =>
    rw [dieWrite_plain hl rfl (.inl (by decide)) (by decide) hm]
    simp only [plainWrite, hcap, if_true]
    exact ⟨_, if_neg (by decide)⟩

theorem cfgOf_captureRef (s : State) (d : Nat) :
    cfgOf (captureRef s d) d = { cfgOf s d with capture := some false, resume := false } := cfgOf_setCfg ..

theorem flagF_captureRef (s : State) (d : Nat) : flagF (captureRef s d) d fCfgStatCrcSuspended = false :=
  flagF_setFlag_false (s := s) rfl (by decide)

/-- A write that leaves PBD_CTL.EN clear turns the output off if EN was set (R518). -/
theorem biasCtlWrite_clear {old : Bool} (h : flagF s d (fPbdCtlEn p) = false) :
    biasCtlWrite s d p old = if old then biasOff s d p else s := by
  simp only [biasCtlWrite, h, Bool.not_false, Bool.and_true]

/-- PBD_CTL takes the enabled bits, and then its output follows EN. -/
theorem plainWrite_pbdCtl {m : W32} (hp : p < 2) (hm : m &&& 0xFF03 ≠ 0) :
    plainWrite s d pbdCtlRow p (rPbdCtl p) m v = biasCtlWrite
      (setCovered s d (rPbdCtl p) 0xFF03 (mergeBits (m &&& 0xFF03) (reg s d (rPbdCtl p)) v)) d p
      (flagF s d (fPbdCtlEn p)) := by
  have hall : ∀ p < 2,
      rPbdCtl p ≠ rCfgCrcRef ∧ rPbdCtl p ≠ rCfgCtl ∧ rPbdCtl p ≠ rCfgLockSet ∧ rPbdCtl p ≠ rUpdStrobe := by decide
  obtain ⟨href, hctl, hlock, hstrobe⟩ := hall p hp
  have hclamp : ∀ x, clampWrite pbdCtlRow p x = x := fun _ => rfl
  have hrw : m &&& BitVec.ofNat 32 pbdCtlRow.rw = m &&& 0xFF03 := rfl
  simp only [plainWrite, hrw, if_neg hm, hclamp, if_neg href, if_neg hctl, if_neg hlock, if_neg hstrobe]
  rfl

/-- A write that clears PBD_CTL.EN suspends the configuration check, as it covers the register (R496, R518). -/
theorem windowWrite_pbdCtl_clearsEn (h : primaryAt s port d = true) (hp : p < 2) (hb : bitAt be 0 = true)
    (hv : v.getLsbD 0 = false) :
    let s0 := suspendCheck s d
    let s1 := setCovered s0 d (rPbdCtl p) 0xFF03 (mergeBits (byteMask be &&& 0xFF03) (reg s0 d (rPbdCtl p)) v)
    windowWrite port d (rPbdCtl p) be v s = if flagF s0 d (fPbdCtlEn p) then biasOff s1 d p else s1 := by
  intro s0 s1
  have hall : ∀ p < 2, rPbdCtl p % 4 = 0 ∧ rPbdCtl p < 0x30000 ∧ blockLock (rPbdCtl p) = none := by decide
  obtain ⟨h4, ho, hlock⟩ := hall p hp
  have hmask : (byteMask be).getLsbD 0 = true := byteMask_getLsbD_low hb (by decide)
  have hm : byteMask be &&& 0xFF03 ≠ 0 := and_ne_zero_of_getLsbD hmask (by decide)
  have hsuspend : suspendIfCovered s d pbdCtlRow be = s0 := if_neg hm
  have hclear : flagF s1 d (fPbdCtlEn p) = false := calc
    flagF s1 d (fPbdCtlEn p) = (reg s1 d (rPbdCtl p)).getLsbD 0 := flagF_eq_getLsbD rfl
    _ = (mergeBits (byteMask be &&& 0xFF03) (reg s0 d (rPbdCtl p)) v).getLsbD 0 :=
      congrArg (·.getLsbD 0) (reg_setCovered ..)
    _ = v.getLsbD 0 := mergeBits_getLsbD_of_mask (by rw [BitVec.getLsbD_and, hmask]; rfl)
    _ = false := hv
  rw [windowWrite_plain h h4 ho (windowSpot_pbdCtl hp) (lockedBy_unlockable hlock) rfl (writable_of_rw hm), hsuspend,
    plainWrite_pbdCtl hp hm]
  exact biasCtlWrite_clear hclear

end

/-- Settles O12: each row's condition is the conjunction of the hypotheses, and an accepted write does what the register
at its offset does. -/
theorem registerAccessesTakeEffect : Obligations.RegisterAccessesTakeEffect := by
  refine ⟨?write, ?writeRw, ?writeRws, ?writeLocked, ?read, ?readDie, ?reservedRead, ?reservedWrite, ?reservedDword,
    ?strobe, ?strobeApply, ?lockSet, ?captureRef, ?crcRef, ?passEnd, ?pbdCtl⟩
  case write =>
    intro port bar ofs dws s hl hf l hin hres
    change execRegisterWrite port bar ofs dws s = _
    simp only [Bool.not_eq_true'] at hf hin hres
    exact onDie_effect hl (writeRequest_accepted hf hin hres)
  case writeRw =>
    intro port d o be i j r v s h ho h4 hbe hs hl hrws hhst hxfr hspecial hpbd hrw s0
    change execRegisterWrite port 0 (0x800000 * d + o) [(be, v)] s = _
    rw [execRegisterWrite_register hbe h ho h4 hs, dieWrite_plain hl hrws hhst hxfr (writable_of_rw hrw),
      plainWrite_rw hrw hspecial hpbd]
  case writeRws =>
    intro port d o be i j r v s h ho h4 hbe hs hl hrws hm s0 s1 g
    change execRegisterWrite port 0 (0x800000 * d + o) [(be, v)] s = _
    rw [execRegisterWrite_register hbe h ho h4 hs, dieWrite_shadow hl hrws hm]
    rfl
  case writeLocked =>
    intro port d o be i j b r v s h ho h4 hbe hs hl hctl
    change execRegisterWrite port 0 (0x800000 * d + o) [(be, v)] s = _
    rw [execRegisterWrite_register hbe h ho h4 hs, dieWrite_locked hl hctl]
  case read =>
    intro port bar ofs bes s hl l hin hres hne a
    change execRegisterReadClear port bar ofs bes s = _
    simp only [Bool.not_eq_true'] at hin hres hne
    exact execRegisterReadClear_accepted hl hin hres hne
  case readDie =>
    intro port d o be i j r s h ho h4 hs hfree m t
    change execRegisterReadClear port 0 (0x800000 * d + o) [be] s = _
    rw [execRegisterReadClear_register h ho h4 hs, dieRead_settled (by rwa [Bool.not_eq_true'] at hfree)]
  case reservedRead =>
    intro port bar ofs bes s hl l hin hres
    change execReservedRead port bar ofs bes s = _
    exact onDie_effect hl (whenB_holds (Bool.and_eq_true_iff.2 ⟨hin, hres⟩))
  case reservedWrite =>
    intro port bar ofs dws s hl hf l hin hres
    change execReservedWrite port bar ofs dws s = _
    simp only [Bool.not_eq_true'] at hf hin
    exact onDie_effect hl (writeRequest_accepted hf hin hres)
  case reservedDword =>
    intro port bar ofs d reason be v s hl hf hs hbe
    change execReservedWrite port bar ofs [(be, v)] s = _
    simp only [Bool.not_eq_true'] at hf
    obtain ⟨hin, hres⟩ := spotsOf_one_reserved hs
    refine onDie_effect hl ((writeRequest_accepted hf hin hres).trans ?_)
    simp only [hostDwords, hostDword, if_neg hbe, hs]
  case strobe =>
    intro port d be v s h hm
    change execUpdStrobe port d be v s = _
    obtain ⟨hl, hp, -⟩ := primaryAt_iff.1 h
    exact (onPort_shown hl hp).trans (congrArg _ ((windowWrite_updStrobe h hm).trans (issueStrobe_host hm)))
  case strobeApply =>
    intro s t ht hoff hdue s1
    change execUpdateStrobeApply s = _
    simp only [execUpdateStrobeApply, ht]
    exact congrArg _ (whenB_holds (Bool.and_eq_true_iff.2 ⟨hoff, decide_eq_true hdue⟩))
  case lockSet =>
    intro port d be v s h hb
    change execCfgLockSet port d be v s = _
    obtain ⟨hl, hp, -⟩ := primaryAt_iff.1 h
    exact (onPort_shown hl hp).trans (congrArg _ (windowWrite_cfgLockSet h hb))
  case captureRef =>
    intro port d be v s h hb hv
    change ∃ t, execCaptureRef port d be v s = .next t ∧ _
    obtain ⟨hl, hp, -⟩ := primaryAt_iff.1 h
    obtain ⟨t, ht⟩ := windowWrite_captureRef h hb hv
    refine ⟨captureRef t d, ?_, ?_, ?_, flagF_captureRef t d⟩
    · rw [← ht]
      exact onPort_effect (due := fun _ => bitAt be 0 && v.getLsbD 3) hl hp (Bool.and_eq_true_iff.2 ⟨hb, hv⟩)
    · rw [cfgOf_captureRef]
    · rw [cfgOf_captureRef]
  case crcRef =>
    intro port d be v s h hbe
    change execCfgCrcRefWrite port d be v s = _
    obtain ⟨hl, hp, -⟩ := primaryAt_iff.1 h
    exact (onPort_shown hl hp).trans (congrArg _ (windowWrite_cfgCrcRef h hbe))
  case passEnd =>
    intro d s hl hcounts hafter p s1
    change execCfgCrcPassEnd d s = _
    exact onDie_effect hl (whenB_holds (Bool.and_eq_true_iff.2 ⟨hcounts, decide_eq_true hafter⟩))
  case pbdCtl =>
    intro port d p be v s h hp2 hb hv m s0 s1
    change execPbdCtlEnClear port d p be v s = _
    obtain ⟨hl, hp, -⟩ := primaryAt_iff.1 h
    have hdue : (decide (p < 2) && bitAt be 0 && !v.getLsbD 0) = true := by
      simp only [hp2, hb, hv, decide_true, Bool.and_self]
    exact (onPort_effect (due := fun _ => decide (p < 2) && bitAt be 0 && !v.getLsbD 0) hl hp hdue).trans
      (congrArg _ (windowWrite_pbdCtl_clearsEn h hp2 hb (by rwa [Bool.not_eq_true'] at hv)))

end Sys2Proof.Machine

namespace Sys2Proof.Machine

/-! ## Checks of a command that pass together -/

section
variable {a b : Bool}

theorem bnot_of_not (h : ¬a = true) : (!a) = true := by
  rwa [Bool.not_eq_true', ← Bool.not_eq_true]

/-- Of two obstacles that are absent neither stands in the way. -/
theorem not_either (ha : (!a) = true) (hb : (!b) = true) : (!(a || b)) = true := by
  rw [Bool.not_or, ha, hb, Bool.and_self]

theorem neither_holds (ha : (!a) = true) (hb : (!b) = true) : ¬(a || b) = true := by
  rw [Bool.not_eq_true, ← Bool.not_eq_true']
  exact not_either ha hb

/-- Of two conditions that hold neither fails. -/
theorem neither_fails (ha : a = true) (hb : b = true) : ¬(!a || !b) = true :=
  neither_holds ((Bool.not_not a).trans ha) ((Bool.not_not b).trans hb)

end

/-! ## The commands of chains, measurement, the Densitometer and calibration (R282 to R377) -/

/-- Settles O6: each command's effect gives the branch that its conditions select. -/
theorem chainCommandsComplete : Obligations.ChainCommandsComplete := by
  refine ⟨?configure, ?selectLane, ?start, ?stop, ?maskLoad, ?freeze, ?measure, ?sheet, ?sheetClear, ?sheetExport,
    ?calConfigure, ?calLoad, ?calSave, ?holdSame, ?holdOn, ?holdOff⟩
  case configure =>
    rintro cm u s₀ _ h rfl d c x g e y hfinal hfft hcplx s1 s2 r
    exact startCmd_done h ((if_neg (neither_fails hfinal hfft)).trans (if_neg hcplx))
  case selectLane =>
    rintro cm u s₀ _ h rfl d c n x hbaud s0 s1 s2
    exact startCmd_done h (ite_of_bnot hbaud)
  case start =>
    rintro cm u s₀ _ h rfl d c x hsafe hawake hst hconf hlane x1
    have hready : (awake (taken chainStartDef cm s₀ u) u && x.st == .stopped && x.configured && x.lane.isSome) = true := by
      simp only [hawake, hst, hconf, hlane, Bool.and_self]
    exact startCmd_done h ((ite_of_bnot hsafe).trans (ite_bnot_of hready))
  case stop =>
    rintro c u s₀ _ h rfl hst
    exact startCmd_done h (if_neg hst)
  case maskLoad =>
    rintro cm u s₀ _ h rfl d c x es
    exact startCmd_done h rfl
  case freeze =>
    rintro cm u s₀ _ h rfl x
    exact startCmd_done h rfl
  case measure =>
    rintro c u s₀ _ h rfl d k hsafe hrun x
    exact startCmd_done h ((ite_of_bnot hsafe).trans (if_neg hrun))
  case sheet =>
    rintro c u s₀ _ h rfl d k a g need have_ hexport hsweep hroom s1 r a1 res
    exact startCmd_done h ((if_neg (neither_holds hexport hsweep)).trans (if_neg (Nat.not_lt.2 hroom)))
  case sheetClear =>
    rintro c u s₀ _ h rfl d a hsafe hkind hexport
    exact startCmd_done h ((ite_of_bnot hsafe).trans ((if_neg hkind).trans (ite_of_bnot hexport)))
  case sheetExport =>
    rintro c u s₀ _ h rfl d k a buf hsafe hkind hexport hbuf clr x a1
    exact startCmd_waits h ((ite_of_bnot hsafe).trans ((if_neg hkind).trans ((ite_of_bnot hexport).trans (if_neg hbuf))))
  case calConfigure =>
    rintro c u s₀ _ h rfl d n s x p
    exact startCmd_done h rfl
  case calLoad =>
    rintro c u s₀ _ h rfl d ls hok hasleep
    exact startCmd_done h ((ite_bnot_of hok).trans (if_neg hasleep))
  case calSave =>
    rintro c u s₀ _ h rfl ls hfits
    exact startCmd_done h (if_neg (Nat.not_lt.2 hfits))
  case holdSame =>
    rintro c u s₀ _ h rfl d n s x hold hsame
    exact startCmd_done h (if_pos hsame)
  case holdOn =>
    rintro c u s₀ _ h rfl d n s x hold hchange hon
    exact startCmd_done h ((if_neg hchange).trans (if_pos hon))
  case holdOff =>
    rintro c u s₀ _ h rfl d n s x hold hchange hoff
    exact startCmd_done h ((if_neg hchange).trans (if_neg (by simpa using hoff)))

/-! ## The commands of engines, services, volumes and transfer channels (R411 to R482) -/

/-- VOLUME_CLOSE of a volume that is open or FULL and not closing yet ends its streams where they stand (R450). -/
theorem volumeClose_eff {c : Cmd} {fid u : Nat} {s : State} {v : Volume} (hvol : (svcOf s (uDie u) (pb c 0)).vol = some v)
    (hst : (v.st = 1 || v.st = 3) = true) (hclosing : (!v.closing) = true) :
    volumeCloseDef.eff c fid u s = (closeCheck (setVol s (uDie u) (pb c 0) { v with
      closing := true, fid := fid, closed := dieTime s (uDie u)
      streams := v.streams.map fun f => { f with limit := some (fixSpool s f.sid) } }) (uDie u) (pb c 0), .wait) := by
  simp only [volumeCloseDef, hvol]
  exact if_neg (neither_holds ((Bool.not_not _).trans hst) hclosing)

/-- Settles O7: each command's effect gives the branch that its conditions select. -/
theorem engineCommandsComplete : Obligations.EngineCommandsComplete := by
  refine ⟨?imageLoad, ?imageUnload, ?engineStart, ?stopIdle, ?stopRunning, ?readState, ?serviceStart, ?serviceKeep,
    ?serviceRelease, ?serviceDrain, ?serviceStop, ?serviceQuery, ?volumeCreate, ?volumeClose, ?xferProgram, ?xferLoad,
    ?xferStart, ?pausePaused, ?pauseRunning, ?xferResume, ?resetRunning, ?resetIdle⟩
  case imageLoad =>
    rintro c u s₀ _ h rfl d e x hslot hrun hswap hawake hread p hfault hfits s1 y
    have hready : ¬(x.st == .running || x.st == .swapping || !awake (taken imageLoadDef c s₀ u) u) = true := by
      rw [hawake]
      exact neither_holds (not_either hrun hswap) rfl
    refine startCmd_done h ((ite_of_bnot hslot).trans ((if_neg hready).trans ((ite_bnot_of hread).trans ?_)))
    dsimp only [p] at hfault
    simp only [hfault]
    exact ite_bnot_of hfits
  case imageUnload =>
    rintro c u s₀ _ h rfl d x hslot hrun hswap hderived r
    exact startCmd_done h ((ite_of_bnot hslot).trans
      (if_neg (neither_holds (not_either hrun hswap) (bnot_of_not hderived))))
  case engineStart =>
    rintro c u s₀ _ h rfl d e x g resume hslot hsafe hawake hstart hsame hset
    have hready : (awake (taken engineStartDef c s₀ u) u && startable x resume) = true := by
      rw [hawake, hstart, Bool.and_self]
    refine startCmd_done h ((ite_of_bnot hslot).trans ((ite_of_bnot hsafe).trans ((ite_bnot_of hready).trans
      ((if_neg hsame).trans ?_))))
    dsimp only [d, e, x, g] at hset
    simp only [hset]
    rfl
  case stopIdle =>
    rintro c u s₀ _ h rfl d e x hslot hidle
    exact startCmd_done h ((ite_of_bnot hslot).trans (if_pos hidle))
  case stopRunning =>
    rintro c u s₀ _ h rfl d e x hslot hrun
    exact startCmd_pends h ((ite_of_bnot hslot).trans (ite_bnot_of hrun))
  case readState =>
    rintro c u s₀ _ h rfl x b hready
    exact startCmd_done h (if_neg hready)
  case serviceStart =>
    rintro c u s₀ _ h rfl d k hsafe hnone hread r himg hdec hstart
    refine startCmd_done h ((ite_of_bnot hsafe).trans ((if_neg hnone).trans ((ite_bnot_of hread).trans ?_)))
    dsimp only [d, r] at himg hdec hstart
    simp only [himg, hdec, hstart]
    rfl
  case serviceKeep =>
    rintro c u s₀ _ h rfl d k x rel hst hrolls hstopped hkeep
    exact startCmd_done h ((if_neg (neither_holds hst (bnot_of_not hrolls))).trans
      ((if_pos hstopped).trans (if_pos hkeep)))
  case serviceRelease =>
    rintro c u s₀ _ h rfl d k x rel hst hrolls hstopped hrel hquiet r
    exact startCmd_done h ((if_neg (neither_holds hst (bnot_of_not hrolls))).trans
      ((if_pos hstopped).trans ((if_neg (by simpa using hrel)).trans (if_pos hquiet))))
  case serviceDrain =>
    rintro c u s₀ _ h rfl d k x rel hst hrolls hstopped hrel hbusy
    exact startCmd_waits h ((if_neg (neither_holds hst (bnot_of_not hrolls))).trans
      ((if_pos hstopped).trans ((if_neg (by simpa using hrel)).trans (ite_of_bnot hbusy))))
  case serviceStop =>
    rintro c u s₀ _ h rfl d k x rel hst hrolls hrun
    exact startCmd_waits h ((if_neg (neither_holds hst (bnot_of_not hrolls))).trans (ite_of_bnot hrun))
  case serviceQuery =>
    rintro c u s₀ _ h rfl d x n v
    exact startCmd_done h rfl
  case volumeCreate =>
    rintro c u s₀ _ h rfl d k x ms p hservice hrun hvol hdrives hfree hsizes v ops s1
    have hready : (x.service = 1 && x.st == .running && x.vol.isNone) = true := by
      simp only [hservice, hrun, hvol, decide_true, Option.isNone_none, Bool.and_self]
    have hforce : ¬(!bitAt (pb c 2) 0 && (ms.any fun m => sbValid (driveBlock (taken volumeCreateDef c s₀ u) d m 0) ||
        sbValid (driveBlock (taken volumeCreateDef c s₀ u) d m 1))) = true := by
      rwa [Bool.not_eq_true, ← Bool.not_eq_true', Bool.not_and, Bool.not_not]
    exact startCmd_waits h ((ite_bnot_of hready).trans ((ite_bnot_of hdrives).trans ((if_neg hforce).trans
      (ite_bnot_of hsizes))))
  case volumeClose =>
    rintro c u s₀ _ h rfl d k v hvol hst hclosing v1
    exact startCmd_waits h (volumeClose_eff hvol hst hclosing)
  case xferProgram =>
    rintro c u s₀ _ h rfl d n x p only s1 hfree honly
    exact startCmd_done h ((ite_of_bnot hfree).trans (if_pos honly))
  case xferLoad =>
    rintro c u s₀ _ h rfl d n x p only s1 hfree honly hst b s2 hbuf bases port
    refine startCmd_done h ((ite_of_bnot hfree).trans ((ite_of_bnot honly).trans ((ite_bnot_of hst).trans ?_)))
    dsimp only [d, n, x, p, s1] at hbuf
    simp only [hbuf]
    rfl
  case xferStart =>
    rintro c u s₀ _ h rfl d n x hfree hsafe hst
    exact startCmd_done h ((ite_of_bnot hfree).trans ((ite_of_bnot hsafe).trans (ite_bnot_of hst)))
  case pausePaused =>
    rintro c u s₀ _ h rfl d n x hfree hst
    exact startCmd_done h ((ite_of_bnot hfree).trans (if_pos hst))
  case pauseRunning =>
    rintro c u s₀ _ h rfl d n x hfree hst hrun
    exact startCmd_waits h ((ite_of_bnot hfree).trans ((ite_of_bnot hst).trans (ite_bnot_of hrun)))
  case xferResume =>
    rintro c u s₀ _ h rfl d n x hfree hsafe hst hpaused
    exact startCmd_done h ((ite_of_bnot hfree).trans ((ite_of_bnot hsafe).trans ((ite_bnot_of hst).trans
      (if_neg hpaused))))
  case resetRunning =>
    rintro c u s₀ _ h rfl d n x hfree hrun
    exact startCmd_pends h ((ite_of_bnot hfree).trans (if_pos hrun))
  case resetIdle =>
    rintro c u s₀ _ h rfl d n x hfree hrun hwait
    exact startCmd_done h ((ite_of_bnot hfree).trans (if_neg (neither_holds hrun hwait)))

/-! ## The commands of probes, bias, housekeeping and Proof (R519 to R557) -/

/-- Settles O8: each command's effect gives the branch that its conditions select. -/
theorem probeAndProofCommandsComplete : Obligations.ProbeAndProofCommandsComplete := by
  refine ⟨?eeprom, ?biasSame, ?biasDriving, ?biasFloating, ?setSettled, ?setWaits, ?pwm, ?hkadc, ?zero, ?fullScale, ?proof,
    ?layer, ?palette, ?push, ?commit⟩
  case eeprom =>
    rintro c u s₀ _ h rfl d p x hidle hfree hhere hok
    exact startCmd_pends h ((if_neg (neither_holds hidle hfree)).trans
      (ite_bnot_of (Bool.and_eq_true_iff.2 ⟨hhere, hok⟩)))
  case biasSame =>
    rintro c u s₀ _ h rfl d p b busy hawake hfree s1 range hrange
    exact startCmd_done h ((ite_bnot_of hawake).trans ((ite_of_bnot hfree).trans (if_pos hrange)))
  case biasDriving =>
    rintro c u s₀ _ h rfl d p b busy hawake hfree s1 range hrange s2 b2 hdriving
    exact startCmd_waits h ((ite_bnot_of hawake).trans ((ite_of_bnot hfree).trans ((if_neg hrange).trans
      (if_pos hdriving))))
  case biasFloating =>
    rintro c u s₀ _ h rfl d p b busy hawake hfree s1 range hrange s2 b2 hfloating
    exact startCmd_waits h ((ite_bnot_of hawake).trans ((ite_of_bnot hfree).trans ((if_neg hrange).trans
      (ite_of_bnot hfloating))))
  case setSettled =>
    rintro c u s₀ _ h rfl d p code hawake v s1 hsettled
    refine startCmd_done h ((ite_bnot_of hawake).trans (if_pos ?_))
    simpa only [Bool.or_eq_true, decide_eq_true_eq] using hsettled
  case setWaits =>
    rintro c u s₀ _ h rfl d p code hawake v s1 hwait hmoving
    refine startCmd_waits h ((ite_bnot_of hawake).trans (if_neg ?_))
    simp only [Bool.or_eq_true, decide_eq_true_eq, not_or]
    exact ⟨hwait, hmoving⟩
  case pwm =>
    rintro c u s₀ _ h rfl d p w hawake s1
    split
    next hrun => exact startCmd_pends h ((ite_bnot_of hawake).trans (Prod.ext (if_pos hrun) (if_pos hrun)))
    next hrun => exact startCmd_waits h ((ite_bnot_of hawake).trans (Prod.ext (if_neg hrun) (if_neg hrun)))
  case hkadc =>
    rintro c u s₀ _ h rfl d hawake s1 s2
    exact startCmd_done h (ite_bnot_of hawake)
  case zero =>
    rintro c u s₀ _ h rfl d hk hawake hcal
    exact startCmd_waits h ((ite_bnot_of hawake).trans ((if_neg (Option.not_isSome_iff_eq_none.2 hcal)).trans
      (if_neg Bool.false_ne_true)))
  case fullScale =>
    rintro c u s₀ _ h rfl d hk hawake hcal hzero
    exact startCmd_waits h ((ite_bnot_of hawake).trans ((if_neg (Option.not_isSome_iff_eq_none.2 hcal)).trans
      (if_neg (Option.isSome_iff_ne_none.1 hzero ∘ Option.isNone_iff_eq_none.1))))
  case proof =>
    rintro c u s₀ _ h rfl rate hsafe hawake hlo hhi
    have hrate : (decide (160000 ≤ rate) && decide (rate ≤ 2500000)) = true := by
      simp only [hlo, hhi, decide_true, Bool.and_self]
    exact startCmd_pends h ((ite_of_bnot hsafe).trans ((ite_bnot_of hawake).trans (ite_bnot_of hrate)))
  case layer =>
    rintro c u s₀ _ h rfl
    exact startCmd_done h rfl
  case palette =>
    rintro c u s₀ _ h rfl p t
    exact startCmd_done h rfl
  case push =>
    rintro c u s₀ _ h rfl l hconf hinside
    exact startCmd_done h ((ite_bnot_of hconf).trans (if_neg hinside))
  case commit =>
    rintro c u s₀ _ h rfl hconf s x seq comps ended s1
    exact startCmd_done h (ite_bnot_of hconf)

/-! ## The commands of repair, power, attestation and ports (R97, R565 to R585) -/

section
variable {c : Cmd} {s : State} {data : List Byte} {entries : Nat}

/-- Data that fits the buffer is written there, and the result tells its size (R578, R584). -/
theorem readOut_fits (h : data.length ≤ fld c.payload 8 4) :
    readOut c data entries s = (hostWrite s c.port (fld c.payload 0 8) data,
      .done 0 (leBytes 4 data.length ++ leBytes 4 entries) 0) :=
  if_neg (Nat.not_lt.2 h)

/-- Data too large for the buffer ends the command with the size that it needs. -/
theorem readOut_tooLarge (h : ¬data.length ≤ fld c.payload 8 4) :
    readOut c data entries s = (s, .done stBadPayload (leBytes 4 data.length) 0) :=
  if_pos (Nat.not_le.1 h)

/-- A command that reads data out into the host's buffer, in either case. -/
theorem startCmd_readOut {df : CmdDef} {u : Nat} (h : takenUp df c s u = true)
    (he : df.eff c s.host.nextId u (taken df c s u) = readOut c data entries (taken df c s u)) :
    startCmd df c s = .next (
      if data.length ≤ fld c.payload 8 4 then
        doneIn df s u (hostWrite (taken df c s u) c.port (fld c.payload 0 8) data)
          (leBytes 4 data.length ++ leBytes 4 entries) 0
      else endIn df s u (taken df c s u) stBadPayload (leBytes 4 data.length)) := by
  split
  next hfits => exact startCmd_done h (he.trans (readOut_fits hfits))
  next hlarge => exact startCmd_end h (he.trans (readOut_tooLarge hlarge))

end

section
variable {c : Cmd} {u : Nat} {s : State} {n : Nat}

/-- A repair of a target that is whole and free, with a spare for it and room in the record (R579). -/
theorem repairApply_eff {fid : Nat} (hok : targetOk s (uDie u) (pb c 0) (fld c.payload 4 4) = true)
    (hunit : (uCls u = clDie || (pb c 0 = 1 && fld c.payload 4 4 = uIdx u)) = true)
    (hfree : (!swapBusy s (uDie u) (pb c 0) (fld c.payload 4 4)) = true)
    (hspare : pickSpare s (uDie u) (pb c 0) (placeOf_ (pb c 0) (fld c.payload 4 4)) (fld c.payload 8 2) = some n)
    (hroom : s.pwr.record.length < 1022) :
    repairApplyDef.eff c fid u s =
      if pb c 0 = 1 then (engSwapBegin s (uDie u) (fld c.payload 4 4) n fid, .pend)
      else (tapsDue (swapBegin s ⟨pb c 0, uDie u, fld c.payload 4 4, n, some (fid, u),
        hostReason s (uDie u) (pb c 0) (fld c.payload 4 4), s.now⟩), .wait) := by
  refine (ite_bnot_of (Bool.and_eq_true_iff.2 ⟨hok, hunit⟩)).trans ((ite_of_bnot hfree).trans ?_)
  simp only [hspare]
  exact if_neg (Nat.not_le.2 hroom)

end

/-- ATTEST reads out the report over the host's nonce (R584). -/
theorem attest_eff (c : Cmd) (fid u : Nat) (s : State) :
    attestDef.eff c fid u s = readOut c (report s ((c.payload.drop 16).take 32)) s.sec.log.length s := by
  simp only [attestDef]

/-- CERT_READ reads out the certificate chain (R585). -/
theorem certRead_eff (c : Cmd) (fid u : Nat) (s : State) :
    certReadDef.eff c fid u s = readOut c Config.certificateChain (fld Config.certificateChain 0 4) s := by
  simp only [certReadDef]

/-- Settles O9: each command's effect gives the branch that its conditions select. -/
theorem packageCommandsComplete : Obligations.PackageCommandsComplete := by
  refine ⟨?repairEngine, ?repairOther, ?repairRead, ?health, ?enter, ?exit, ?thermal, ?attest, ?cert, ?measurement, ?echo⟩
  case repairEngine =>
    rintro c u s₀ _ h rfl d k t hok hunit hfree n hspare hroom hk
    exact startCmd_pends h ((repairApply_eff hok hunit hfree hspare hroom).trans (if_pos hk))
  case repairOther =>
    rintro c u s₀ _ h rfl d k t hok hunit hfree n hspare hroom hk
    exact startCmd_waits h ((repairApply_eff hok hunit hfree hspare hroom).trans (if_neg hk))
  case repairRead =>
    rintro c u s₀ _ h rfl hfits
    exact startCmd_done h (readOut_fits hfits)
  case health =>
    rintro c u s₀ _ h rfl rs x hfits
    exact startCmd_done h (readOut_fits hfits)
  case enter =>
    rintro c u s₀ _ h rfl
    exact startCmd_done h rfl
  case exit =>
    rintro c u s₀ _ h rfl ds hclear
    exact startCmd_done h (if_neg hclear)
  case thermal =>
    rintro c u s₀ _ h rfl ds
    exact startCmd_pends h rfl
  case attest =>
    rintro c u s₀ _ h rfl r
    exact startCmd_readOut h (attest_eff ..)
  case cert =>
    rintro c u s₀ _ h rfl r
    exact startCmd_readOut h (certRead_eff ..)
  case measurement =>
    rintro c u s₀ _ h rfl l hfits
    exact startCmd_done h (readOut_fits hfits)
  case echo =>
    rintro c u s₀ _ h rfl
    exact startCmd_done h rfl

/-! ## Safelight mode and the commands that start something (R220, R315, R351, R416, R431, R475, R552, R569) -/

/-- Settles O42: the check for Safelight mode comes first at each command's unit, but for the check that an engine or a
channel is the host's own. -/
theorem safelightRefusesStarts : Obligations.SafelightRefusesStarts := by
  refine ⟨?arm, ?chain, ?measure, ?proof, ?service, ?sheetClear, ?sheetExport, ?engine, ?xferStart, ?xferResume⟩
  case engine =>
    rintro c u s₀ _ h rfl hsafe hslot
    exact startCmd_end h ((if_neg (Option.not_isSome_iff_eq_none.2 hslot)).trans (if_pos hsafe))
  case xferStart | xferResume =>
    rintro c u s₀ _ h rfl hsafe hfree
    exact startCmd_end h ((if_neg (ne_true_of_eq_false hfree)).trans (if_pos hsafe))
  all_goals
    rintro c u s₀ _ h rfl hsafe
    exact startCmd_end h (if_pos hsafe)

end Sys2Proof.Machine

namespace Sys2Proof.Machine

/-! ## Reset, boot and shutdown (R66, R564 to R607) -/

/-- Settles O13: each row's condition is the conjunction of the hypotheses. -/
theorem bootEventsTakeEffect : Obligations.BootEventsTakeEffect := by
  refine ⟨?ownerHash, ?go, ?resetAssert, ?resetRelease, ?railCheck, ?crsEnd, ?verifyDone, ?complete, ?shutdown, ?aonFault,
    ?tapEdge⟩
  case ownerHash =>
    intro port n be v s hl hp hn
    exact onPort_effect (due := fun _ => decide (n < 8)) hl hp (decide_eq_true hn)
  case go =>
    intro port be v s hl hp
    exact onPort_shown hl hp
  case resetAssert =>
    intro s s1
    rfl
  case resetRelease =>
    intro straps hot s hheld hcold s1
    exact congrArg _ (whenB_holds (Bool.and_eq_true_iff.2 ⟨hheld, hcold⟩))
  case railCheck =>
    intro d s hl hready hfence herr hwait hlate
    have hdue : (!s.ready && !fenced s d && getF s ctlPage (cfld fSecBootStatErr) ≠ 7 && (diePwr s d).railsWait &&
        s.pwr.relAt + 10 * msTicks < s.now) = true := by
      simp only [hready, hfence, herr, hwait, hlate, ne_eq, not_false_eq_true, decide_true, Bool.and_self]
    change execRailCheckTimeout d s = _
    exact onDie_effect hl (whenB_holds hdue)
  case crsEnd =>
    intro port s hl hport hcrs hperst
    have hdue : (isPort s port && (portOf s port).crs && !(portOf s port).perst) = true := by
      simp only [hport, hcrs, hperst, Bool.and_self]
    change execCrsEnd port s = _
    exact onDie_effect hl (whenB_holds hdue)
  case verifyDone =>
    intro s hon hready hboot
    have hdue : (!off s && !s.ready && bootState s = 1) = true := by
      simp only [hon, hready, hboot, decide_true, Bool.and_self]
    exact congrArg _ (whenB_holds hdue)
  case complete =>
    intro failed bist s hon hready hboot hdie lost
    have hdue : (!off s && !s.ready && bootState s = 2 && ((dieClk s 0).running || failed.contains 0)) = true := by
      simp only [hon, hready, hboot, hdie, decide_true, Bool.and_self]
    exact congrArg _ (whenB_holds hdue)
  case shutdown =>
    intro d s hl hup s1 s2
    change execThermalShutdown d s = _
    exact onDie_effect hl (whenB_holds hup)
  case aonFault =>
    intro d s hl
    change execVddAonFault d s = _
    exact onDie_live hl
  case tapEdge =>
    intro rising tms tdi s hrail
    exact congrArg _ (whenB_holds hrail)

/-! ## Rows of PLLs, the reference, REFOUT, SYNC, the TDC and HBM (R56, R146 to R170) -/

section
variable {d : Nat} {s : State}

/-- The TDC's window closes once all that it waits for can have arrived (R170). -/
theorem execTdcWindowClose_closes {a : TdcArm} {st : RawStamp} (hl : live s d = true) (harm : (tdcOf s d).arm = some a)
    (hstart : a.start = some st)
    (hdue : (tdcOf s d).openAt + a.window + (if a.stops.any (fun x => x.1 = 7) then 112 else 0) ≤ s.now) :
    execTdcWindowClose d s = .next (tdcEnd s d 0 (afterStart a st a.window)) := by
  refine onDie_effect hl ?_
  simp only [harm, hstart]
  exact whenB_holds (decide_eq_true hdue)

end

/-- Settles O20: each row's condition is the conjunction of the hypotheses. -/
theorem clockEventsTakeEffect : Obligations.ClockEventsTakeEffect := by
  refine ⟨?pllLock, ?pllStep, ?align, ?trim, ?refoutEdge, ?refoutEnd, ?refLost, ?refReturned, ?refApply, ?syncEdge,
    ?syncApply, ?syncRepeat, ?attach, ?detach, ?drive, ?dllLock, ?dllLoss, ?tdcStart, ?tdcStop, ?tdcClose, ?retrained⟩
  case pllLock =>
    intro d k band s hl p st hk hdie hband hlock hst s1 s2
    have hdue : (k < 8 && (k ≠ 7 || d = 0) && band < 32 && !p.locked &&
        (st == .starting || (st == .awake && p.relock))) = true := by
      simp only [hk, hdie, hband, hlock, hst, decide_true, Bool.and_self]
    change execPllLock d k band s = _
    exact onDie_effect hl (whenB_holds hdue)
  case pllStep =>
    intro d k s hl p r hr hk hend
    change execPllStepReached d k s = _
    refine onDie_effect hl ?_
    simp only [show (pllOf s d k).step = some r from hr]
    exact whenB_holds (Bool.and_eq_true_iff.2 ⟨decide_eq_true hk, decide_eq_true hend⟩)
  case align =>
    intro d s hl old t hd hprimary hcounts hold step s1
    have hdue : (d ≠ 0 && counts s 0 && counts s d && old ≠ t) = true := by
      simp only [hd, hprimary, hcounts, hold, ne_eq, not_false_eq_true, decide_true, Bool.and_self]
    change execAlignCheck d s = _
    exact onDie_effect hl (whenB_holds hdue)
  case trim =>
    intro d err code s hl hlock href
    change execHkclkTrim d err code s = _
    exact onDie_effect hl (whenB_holds (Bool.and_eq_true_iff.2 ⟨hlock, href⟩))
  case refoutEdge =>
    intro s r hdue hoff hclock
    have hcond : (r.startDue && !r.on && !(dieClk s 0).holding) = true := by
      simp only [hdue, hoff, hclock, Bool.and_self]
    change execRefoutFirstEdge s = _
    exact congrArg _ (whenB_holds hcond)
  case refoutEnd =>
    intro s r hon hdue
    change execRefoutPeriodEnd s = _
    exact congrArg _ (whenB_holds (Bool.and_eq_true_iff.2 ⟨hon, hdue⟩))
  case refLost =>
    intro why lastGood s href hrun s1
    change execRefclkLost why lastGood s = _
    exact congrArg _ (whenB_holds (Bool.and_eq_true_iff.2 ⟨href, hrun⟩))
  case refReturned =>
    intro s href
    change execRefclkReturned s = _
    exact congrArg _ (whenB_holds href)
  case refApply =>
    intro j s href hlo hhi s1
    have hdue : (s.clk.ref == .returning && -4480 ≤ j && j ≤ 4479) = true := by
      simp only [href, hlo, hhi, decide_true, Bool.and_self]
    change execRefReturnApply j s = _
    unfold execRefReturnApply
    rw [whenB_holds hdue]
  case syncEdge =>
    intro arrival halfTick s hrun hold s1
    change execSyncInEdge arrival halfTick s = _
    exact congrArg _ (whenB_holds hrun)
  case syncApply =>
    intro s e he hdue ticks half step s1 s2 s3
    change execSyncAlignApply s = _
    simp only [execSyncAlignApply, he]
    exact congrArg _ (whenB_holds (decide_eq_true hdue))
  case syncRepeat =>
    intro s t r hout hdue
    change execSyncOutRepeat s = _
    simp only [execSyncOutRepeat, hout]
    exact congrArg _ (whenB_holds (decide_eq_true hdue))
  case attach =>
    intro s
    rfl
  case detach =>
    intro s
    rfl
  case drive =>
    intro driven s hchange s1
    change execSyncInDriveChange driven s = _
    exact congrArg _ (whenB_holds hchange)
  case dllLock =>
    intro d inl s hl hlock
    change execDllLock d inl s = _
    exact onDie_effect hl (whenB_holds hlock)
  case dllLoss =>
    intro d s hl hdll
    change execDllLockLoss d s = _
    exact onDie_effect hl (whenB_holds hdll)
  case tdcStart =>
    intro d src arg cap tap s hl a harm hsrc hexternal harg
    have hdue : (a.startSrc = src && src < 7 && argOk a.startArg arg) = true := by
      simp only [hsrc, hexternal, harg, decide_true, Bool.and_self]
    change execTdcStartEdge d src arg cap tap s = _
    refine onDie_effect hl ?_
    simp only [harm]
    exact whenB_holds hdue
  case tdcStop =>
    intro d n cap tap s hl a harm src hn hused hexternal
    have hdue : (n < 8 && 1 ≤ src && src < 7) = true := by
      simp only [hn, hused, hexternal, decide_true, Bool.and_self]
    change execTdcStopEdge d n cap tap s = _
    refine onDie_effect hl ?_
    simp only [harm]
    exact whenB_holds hdue
  case tdcClose =>
    intro d s hl t a harm wait st hstart hdue
    exact execTdcWindowClose_closes hl harm hstart hdue
  case retrained =>
    intro d s hl c htrain
    change execHbmRetrainingDone d s = _
    exact onDie_effect hl (whenB_holds htrain)

/-! ## Rows of capture streams, chains, the Densitometer and calibration (R192 to R369) -/

section
variable {d i : Nat} {s : State}

/-- The open envelope of a stream is closed, or flushed, once it has waited for the stream's flush time (R199). -/
theorem execEnvFlushTimeout_flushes {o : Env} (hl : live s d = true) (ho : (streamOf s d i).openEnv = some o)
    (hi : i < 96) (hflush : (streamOf s d i).envFlush ≠ 0) (hwords : (!o.words.isEmpty) = true)
    (hdue : (streamOf s d i).openedAt + codeTicks (streamOf s d i).envFlush ≤ s.now)
    (hhead : (!((streamOf s d i).look.any (headDue s i))) = true) :
    execEnvFlushTimeout d i s = .next (
      if isExpo i then setStream s d i (flushSeg (streamOf s d i) (key d i)) else closeEnv s d i true) := by
  refine onDie_effect hl ?_
  simp only [ho]
  refine whenB_holds ?_
  simp only [hi, hflush, hwords, hdue, hhead, ne_eq, not_false_eq_true, decide_true, Bool.and_self]

end

/-- Settles O22: each row's condition is the conjunction of the hypotheses. -/
theorem captureEventsTakeEffect : Obligations.CaptureEventsTakeEffect := by
  refine ⟨?commit, ?flush, ?rearm, ?segment, ?readback, ?tap, ?settled, ?inputLost, ?inputReturn, ?spectrum, ?sheetExport,
    ?stripStart, ?stripWindow, ?stripEvaluate, ?gapIdle, ?gapExpiry, ?stale⟩
  case commit =>
    intro d i s hl hi x hclock
    change execEntryCommit d i s = _
    exact onDie_effect hl ((whenB_holds (decide_eq_true hi)).trans (ite_of_bnot hclock))
  case flush =>
    intro d i s hl x o ho hi hflush hwords hdue hhead
    exact execEnvFlushTimeout_flushes hl ho hi hflush hwords hdue hhead
  case rearm =>
    intro d i s hl x m t ht hexpo hdue hlook
    have hcond : (isExpo i && t + 256 ≤ s.now && !(x.look.any fun e => e.phys / 256 < t)) = true := by
      simp only [hexpo, hdue, hlook, decide_true, Bool.and_self]
    change execRearmOpen d i s = _
    refine onDie_effect hl ?_
    simp only [show tOpen (streamOf s d i) (measOf s d (expoIdx i)) = some t from ht]
    exact whenB_holds hcond
  case segment =>
    intro d i k r s hl hclosing hexpo hread
    change execSegmentComplete d i s = _
    refine onDie_effect hl ?_
    simp only [hclosing]
    exact whenB_holds (Bool.and_eq_true_iff.2 ⟨hexpo, by rw [hread]; rfl⟩)
  case readback =>
    intro d c s hl i x k hk hc hdue up s1 r y
    change execDensitometerReadbackDone d c s = _
    refine onDie_effect hl ?_
    simp only [show (streamOf s d (expoOf c)).closing.find? (·.need) = some k from hk]
    exact whenB_holds (Bool.and_eq_true_iff.2 ⟨decide_eq_true hc, hdue⟩)
  case tap =>
    intro d c k xs stamps s hl ts n hn hrow
    change execRawTapSamples d c k xs stamps s = _
    refine onDie_effect hl ?_
    simp only [show rowLane s d c (stamps.map (fineStamp s)) = some n from hn]
    exact whenB_holds hrow
  case settled =>
    intro d c s hl x o r hheld hc hst ticks s1 s2
    change execSettlingEnd d c s = _
    refine onDie_effect hl ?_
    dsimp only
    split
    next hnil => exact absurd (hheld.symm.trans hnil) (List.cons_ne_nil o r)
    next o' r' hcons =>
      obtain ⟨rfl, -⟩ := List.cons.inj (hheld.symm.trans hcons)
      exact whenB_holds (Bool.and_eq_true_iff.2 ⟨decide_eq_true hc, hst⟩)
  case inputLost =>
    intro d c firstMissing s hl x hc hlane hnew hmissing s1 y
    have hdue : (c < 2 && x.lane.isSome && !x.lost && !inputOk s d c) = true := by
      simp only [hc, hlane, hnew, hmissing, decide_true, Bool.and_self]
    change execChainInputLost d c firstMissing s = _
    exact onDie_effect hl (whenB_holds hdue)
  case inputReturn =>
    intro d c s hl x n hlane hc htap hlost
    have hdue : (c < 2 && tapOk s d n && (x.lost || x.st == .noInput)) = true := by
      simp only [hc, htap, hlost, decide_true, Bool.and_self]
    change execChainInputReturn d c s = _
    refine onDie_effect hl ?_
    dsimp only
    split
    next hnone => exact absurd (hlane.symm.trans hnone) (Option.some_ne_none n)
    next m hsome =>
      obtain rfl := Option.some.inj (hlane.symm.trans hsome)
      exact whenB_holds hdue
  case spectrum =>
    intro d c s hl x0 r rest hdone tick hc hdue ph e m s1 bins flags
    change execSpectrumDone d c s = _
    refine onDie_effect hl ?_
    simp only [show (chainOf s d c).done = r :: rest from hdone]
    exact whenB_holds (Bool.and_eq_true_iff.2 ⟨decide_eq_true hc, decide_eq_true hdue⟩)
  case sheetExport =>
    intro d k s hl a x hx hk hquiet l n s1 s2 s3 s4
    change execSheetExportDone d k s = _
    refine onDie_effect hl ?_
    simp only [show (accOf s d k).exporting = some x from hx]
    exact whenB_holds (Bool.and_eq_true_iff.2 ⟨decide_eq_true hk, hquiet⟩)
  case stripStart =>
    intro d n s0 hl s x hn hactive hstrip
    have hdue : (n < 16 && calActive s d n && stripDue s x) = true := by
      simp only [hn, hactive, hstrip, decide_true, Bool.and_self]
    change execStripStart d n s0 = _
    exact onDie_effect hl (whenB_holds hdue)
  case stripWindow =>
    intro d n k xs last s0 hl s x ph hn hphase hfull w x1
    have hdue : (n < 16 && (x.phase == .estimate || x.phase == .confirm) && windowFull s d n k ph) = true := by
      simp only [hn, hphase, hfull, decide_true, Bool.and_self]
    change execStripWindowEnd d n k xs last s0 = _
    exact onDie_effect hl (whenB_holds hdue)
  case stripEvaluate =>
    intro d n s0 hl s x t hphase hn hdue hsched
    have hcond : (n < 16 && t ≤ s.now && !schedDue s d t) = true := by
      simp only [hn, hdue, hsched, decide_true, Bool.and_self]
    change execStripEvaluate d n s0 = _
    refine onDie_effect hl ?_
    dsimp only
    split
    next t' ht =>
      obtain rfl := CalPh.judging.inj (hphase.symm.trans ht)
      rw [whenB_holds hcond]
    next hother => exact absurd hphase (hother t)
  case gapIdle =>
    intro d n s0 hl s x hn hphase hidle hdue
    have hcond : (n < 16 && x.phase == .pending && calIdle s d n && s.now ≤ x.waitEnd) = true := by
      simp only [hn, hphase, hidle, hdue, decide_true, Bool.and_self]
    change execGapIdleApply d n s0 = _
    exact onDie_effect hl (whenB_holds hcond)
  case gapExpiry =>
    intro d n s0 hl s x hn hphase hdue hidle
    have hcond : (n < 16 && x.phase == .pending && x.waitEnd ≤ s.now && (x.waitEnd < s.now || !calIdle s d n)) =
        true := by
      simp only [hn, hphase, hdue, hidle, decide_true, Bool.and_self]
    change execGapWaitExpiry d n s0 = _
    exact onDie_effect hl (whenB_holds hcond)
  case stale =>
    intro d n s hl x hn hon hdue
    have hcond : (n < 16 && x.staleOn && x.staleAt + 256 ≤ s.now) = true := by
      simp only [hn, hon, hdue, decide_true, Bool.and_self]
    change execStaleIntervalEnd d n s = _
    exact onDie_effect hl (whenB_holds hcond)

/-! ## Rows of probes, bias, housekeeping and the Proof display (R56, R512 to R556) -/

section
variable {d p : Nat} {s t : State}

/-- On a live die a row about one of its two probe ports leads where its meaning says. -/
theorem onProbe_effect {f : State → State} (hl : live s d = true) (hp : p < 2) (he : f s = t) :
    onProbe d p s f = .next t :=
  onDie_effect hl ((whenB_holds (decide_eq_true hp)).trans he)

/-- The PWM output turns at its high time within the period (R526). -/
theorem execPwmEdge_turns (hl : live s d = true) (hp : p < 2) (hrun : (pwmOf s d p).running = true)
    (hpast : (pwmOf s d p).past = false) (hduty : (pwmCfg s d p).2.2.2 < (pwmCfg s d p).2.2.1)
    (hdue : (pwmOf s d p).start + hkMin s d (pwmCfg s d p).2.2.2 ≤ s.now) :
    execPwmEdge d p s =
      .next (pwmLevel (setPwm s d p { pwmOf s d p with past := true }) d p (pwmCfg s d p).2.1) := by
  have hturn : (!(pwmOf s d p).past && (pwmCfg s d p).2.2.2 < (pwmCfg s d p).2.2.1) = true := by
    simp only [hpast, hduty, Bool.not_false, decide_true, Bool.and_self]
  exact onProbe_effect hl hp ((ite_bnot_of hrun).trans ((if_pos hturn).trans (whenB_holds (decide_eq_true hdue))))

/-- The PWM period ends, its turn being past or at the period's end (R526). -/
theorem execPwmEdge_ends (hl : live s d = true) (hp : p < 2) (hrun : (pwmOf s d p).running = true)
    (hpast : (pwmOf s d p).past = true ∨ (pwmCfg s d p).2.2.1 ≤ (pwmCfg s d p).2.2.2)
    (hdue : (pwmOf s d p).start + hkMin s d (pwmCfg s d p).2.2.1 ≤ s.now) :
    execPwmEdge d p s = .next (pwmBoundary s d p) := by
  have hturned : ¬(!(pwmOf s d p).past && (pwmCfg s d p).2.2.2 < (pwmCfg s d p).2.2.1) = true := by
    simp only [Bool.and_eq_true, Bool.not_eq_true', decide_eq_true_eq, not_and, Nat.not_lt]
    exact fun hfalse => hpast.resolve_left (by simp [hfalse])
  exact onProbe_effect hl hp ((ite_bnot_of hrun).trans ((if_neg hturned).trans (whenB_holds (decide_eq_true hdue))))

end

section
variable {s : State} {k : Compo} {r : Region2}

/-- The composer begins the next region's burst once what it composes there is far enough ahead (R549). -/
theorem execPushBegin_begins {nx : Nat} (hcomp : s.prf.comp = some k) (hnx : (if k.pushing then k.cur + 1 else k.cur) = nx)
    (hr : k.regions[nx]? = some r) (hsent : (!k.pushing || regionSent s k) = true)
    (htime : if flagF s 0 fPrfStatMode then (k.left.isEmpty && composeTime s k k.regions.length 0) = true
      else composeTime s k nx 8 = true) :
    execPushBegin s = .next (
      setPrf s { s.prf with
        burst := [.page r.y (r.y + r.h - 1), .column r.x (r.x + r.w - 1)]
        comp := some { k with cur := nx, pushing := true, line := 0, burstAt := s.now, bytes := 22, pushed := nx } }) := by
  subst hnx
  simp only [execPushBegin, hcomp, hr]
  exact congrArg _ (whenB_holds (Bool.and_eq_true_iff.2 ⟨hsent, (apply_ite (· = true) _ _ _).mpr htime⟩))

/-- A line of the region under way is pushed, or the update aborts where the line was not written in time (R551). -/
theorem execPushLineReady_pushes (hcomp : s.prf.comp = some k) (hr : k.regions[k.cur]? = some r)
    (hdue : (k.pushing && k.line < r.h && burstEnd s k ≤ s.now) = true) :
    execPushLineReady s = .next (
      if (lineWritten s k r).1 then
        setPrf (lineWritten s k r).2 { (lineWritten s k r).2.prf with
          burst := .line (k.line = 0) (memRead (lineWritten s k r).2 .print (printOfs (lineWritten s k r).2 r.x (r.y + k.line))
            (r.w * linkBpp (lineWritten s k r).2)) :: (lineWritten s k r).2.prf.burst
          comp := some { k with line := k.line + 1, bytes := k.bytes + 7 + r.w * linkBpp (lineWritten s k r).2 } }
      else prfAbortAt (lineWritten s k r).2 1 (burstEnd s k)) := by
  simp only [execPushLineReady, hcomp, hr]
  exact congrArg _ (whenB_holds hdue)

end

/-- Settles O24: each row's condition is the conjunction of the hypotheses. -/
theorem probeAndProofEventsTakeEffect : Obligations.ProbeAndProofEventsTakeEffect := by
  refine ⟨?presChange, ?presTimeout, ?discovered, ?removed, ?eeprom, ?slew, ?deglitch, ?highz, ?limit, ?trip, ?compliance,
    ?holdoff, ?pwmTurn, ?pwmEnd, ?hkTimer, ?hkDelay, ?conversion, ?teEdge, ?teTimer, ?initDelay, ?pushBegin, ?pushLine,
    ?pushEnd, ?layer, ?initSent⟩
  case presChange =>
    intro d p high s hl hp x hpin s1
    change execProbePresChange d p high s = _
    exact onProbe_effect hl hp (whenB_holds hpin)
  case presTimeout =>
    intro d p s hl hp x hpin hnew hgone hdue
    have hcond : (!x.pin && !x.discovering && !probeHere s d p && x.since + presTicks s d ≤ s.now) = true := by
      simp only [hpin, hnew, hgone, hdue, decide_true, Bool.and_self]
    change execProbePresenceTimeout d p s = _
    exact onProbe_effect hl hp (whenB_holds hcond)
  case discovered =>
    intro d p pulses acks one two s hl hp x found read hdisc a s1 detail
    change execProbeDiscoveryDone d p pulses acks one two s = _
    exact onProbe_effect hl hp (whenB_holds hdisc)
  case removed =>
    intro d p s hl hp x hpin hhere hdue
    have hcond : (x.pin && probeHere s d p && x.since + presTicks s d < s.now) = true := by
      simp only [hpin, hhere, hdue, decide_true, Bool.and_self]
    change execProbeRemovalTimeout d p s = _
    exact onProbe_effect hl hp (whenB_holds hcond)
  case eeprom =>
    intro d p ok bytes s hl hp r hr
    change execEepromReadDone d p ok bytes s = _
    refine onProbe_effect hl hp ?_
    simp only [hr]
  case slew =>
    intro d p s hl hp b goal due hdriving hcode hhold hdue step code
    have hcond : (b.driving && b.code ≠ goal && b.hold.isNone && due ≤ s.now) = true := by
      simp only [hdriving, hcode, hhold, hdue, ne_eq, not_false_eq_true, decide_true, Bool.and_self]
    change execBiasSlewStep d p s = _
    exact onProbe_effect hl hp (whenB_holds hcond)
  case deglitch =>
    intro d p s hl hp b t hhold hdue
    change execDeglitchHoldEnd d p s = _
    refine onProbe_effect hl hp ?_
    simp only [show (biasOf s d p).hold = some t from hhold]
    exact whenB_holds (decide_eq_true hdue)
  case highz =>
    intro d p s hl hp b hphase hdue
    change execBiasRangeHighzEnd d p s = _
    exact onProbe_effect hl hp (whenB_holds (Bool.and_eq_true_iff.2 ⟨hphase, decide_eq_true hdue⟩))
  case limit =>
    intro d p on s hl hp b hdriving hrange hchange r s1 s2
    have hcond : (b.driving && biasRange s d p < 2 && b.limit.on != on) = true := by
      simp only [hdriving, hrange, hchange, decide_true, Bool.and_self]
    change execBiasLimitChange d p on s = _
    exact onProbe_effect hl hp (whenB_holds hcond)
  case trip =>
    intro d p s hl hp b ms hdriving hlimit hms hlate s1 s2
    have hcond : (b.driving && b.limit.on && ms ≠ 0 && b.limitAt + hkMin s d (ms * 12500) < s.now) = true := by
      simp only [hdriving, hlimit, hms, hlate, ne_eq, not_false_eq_true, decide_true, Bool.and_self]
    change execBiasLimitTrip d p s = _
    exact onProbe_effect hl hp (whenB_holds hcond)
  case compliance =>
    intro d p on s hl hp b hdriving hrange hchange r s1 s2
    have hcond : (b.driving && 2 ≤ biasRange s d p && b.compl.on != on) = true := by
      simp only [hdriving, hrange, hchange, decide_true, Bool.and_self]
    change execBiasComplianceChange d p on s = _
    exact onProbe_effect hl hp (whenB_holds hcond)
  case holdoff =>
    intro d p s hl hp b k l s1 s2
    change execBiasReportHoldoffEnd d p s = _
    exact onProbe_effect hl hp rfl
  case pwmTurn =>
    intro d p s hl hp w g hrun hpast hduty hdue
    exact execPwmEdge_turns hl hp hrun hpast hduty hdue
  case pwmEnd =>
    intro d p s hl hp w g hrun hpast hdue
    exact execPwmEdge_ends hl hp hrun hpast hdue
  case hkTimer =>
    intro d s hl hk t hawake hsource hdue
    have hcond : (awake s (hkaUid d) && getF s d fHkaCfgSource = 1 && t ≤ s.now) = true := by
      simp only [hawake, hsource, hdue, decide_true, Bool.and_self]
    change execHkTimer d s = _
    exact onDie_effect hl (whenB_holds hcond)
  case hkDelay =>
    intro d s hl hk t hdelay hdue
    change execHkDelayEnd d s = _
    refine onDie_effect hl ?_
    simp only [show (hkaOf s d).delayEnd = some t from hdelay]
    exact whenB_holds (decide_eq_true hdue)
  case conversion =>
    intro d raw s hl hk v hconv hdue r s1
    change execHkConversionEnd d raw s = _
    refine onDie_effect hl ?_
    simp only [show (hkaOf s d).conv = some v from hconv]
    exact whenB_holds (decide_eq_true hdue)
  case teEdge =>
    intro s htimer
    exact congrArg _ (whenB_holds (by rw [htimer]; rfl))
  case teTimer =>
    intro s htimer hdue
    exact congrArg _ (whenB_holds (Bool.and_eq_true_iff.2 ⟨htimer, decide_eq_true hdue⟩))
  case initDelay =>
    intro s t k r hwait hinit hdue
    change execInitDelayExpiry s = _
    simp only [execInitDelayExpiry, hwait, hinit]
    exact congrArg _ (whenB_holds (decide_eq_true hdue))
  case pushBegin =>
    intro s k hcomp nx r hr safe hsent htime
    exact execPushBegin_begins hcomp rfl hr hsent htime
  case pushLine =>
    intro s k hcomp r hr hpushing hline hdue w
    have hcond : (k.pushing && k.line < r.h && burstEnd s k ≤ s.now) = true := by
      simp only [hpushing, hline, hdue, decide_true, Bool.and_self]
    exact execPushLineReady_pushes hcomp hr hcond
  case pushEnd =>
    intro s k hcomp hsent hlast hleft
    have hcond : (regionSent s k && k.cur + 1 = k.regions.length && k.left.isEmpty) = true := by
      simp only [hsent, hlast, hleft, decide_true, Bool.and_self]
    change execPushEnd s = _
    simp only [execPushEnd, hcomp]
    exact congrArg _ (whenB_holds hcond)
  case layer =>
    intro l s k hcomp hleft
    change execLayerReadDone l s = _
    simp only [execLayerReadDone, hcomp]
    exact congrArg _ (whenB_holds hleft)
  case initSent =>
    intro s hrun hwait
    exact congrArg _ (whenB_holds (Bool.and_eq_true_iff.2 ⟨hrun, hwait⟩))

/-! ## Temperature samples, throttling and supply rails (R562 to R566, R594) -/

section
variable {d : Nat} {s : State}

/-- A die that stays hot throttles one level further at the end of its interval (R563). -/
theorem execThrottleTimer_hot {t : Nat} (hl : live s d = true) (hhot : (diePwr s d).hotAt = some t)
    (hmore : throttle s d < 3) (hsome : 0 < throttle s d) (hdue : t + msTicks < s.now) :
    execThrottleTimer d s = .next (
      setThrottle (setDiePwr s d { diePwr s d with hotAt := some (t + msTicks) }) d (throttle s d + 1) (t + msTicks)) := by
  have hcond : (throttle s d < 3 && 0 < throttle s d && t + msTicks < s.now) = true := by
    simp only [hmore, hsome, hdue, decide_true, Bool.and_self]
  refine onDie_effect hl ?_
  simp only [hhot]
  exact whenB_holds hcond

/-- A die that stays cool throttles one level less at the end of its interval (R563). -/
theorem execThrottleTimer_cool {t : Nat} (hl : live s d = true) (hhot : (diePwr s d).hotAt = none)
    (hcool : (diePwr s d).coolAt = some t) (hsome : 0 < throttle s d) (hdue : t + 10 * msTicks < s.now) :
    execThrottleTimer d s = .next (
      setThrottle (setDiePwr s d { diePwr s d with coolAt := some (t + 10 * msTicks) }) d (throttle s d - 1)
        (t + 10 * msTicks)) := by
  have hcond : (0 < throttle s d && t + 10 * msTicks < s.now) = true := by
    simp only [hsome, hdue, decide_true, Bool.and_self]
  refine onDie_effect hl ?_
  simp only [hhot, hcool]
  exact whenB_holds hcond

end

/-- Settles O25: each row's condition is the conjunction of the hypotheses. -/
theorem powerEventsTakeEffect : Obligations.PowerEventsTakeEffect := by
  refine ⟨?sample, ?hot, ?cool, ?railLeaves, ?fault, ?back, ?fence, ?railReturns, ?core⟩
  case sample =>
    intro d t s hl x hfence hup hrun hperiod hlo hhi
    have hdue : (!fenced s d && !s.pwr.down && !s.pwr.held && (!x.sampled || x.sampleAt + hkMin s d 1250 ≤ s.now) &&
        -32768 ≤ t && t ≤ 32767) = true := by
      simp only [hfence, hup, hrun, hperiod, hlo, hhi, decide_true, Bool.and_self]
    change execTempSample d t s = _
    exact onDie_effect hl (whenB_holds hdue)
  case hot =>
    intro d s hl x l t hhot hmore hsome hdue
    exact execThrottleTimer_hot hl hhot hmore hsome hdue
  case cool =>
    intro d s hl x l t hhot hcool hsome hdue
    exact execThrottleTimer_cool hl hhot hcool hsome hdue
  case railLeaves =>
    intro d rail mv above deep s hl r hrail hout x s1 s2
    change execRailLeavesWindow d rail mv above deep s = _
    exact onDie_effect hl (whenB_holds (Bool.and_eq_true_iff.2 ⟨hrail, hout⟩))
  case fault =>
    intro d rail s hl x hrail hfence hout hnew hlate ph s1 s2 s3 s4
    have hdue : (railOk rail && !fenced s d && x.out && !x.faulted && x.since + 10 * usTicks < s.now) = true := by
      simp only [hrail, hfence, hout, hnew, hlate, decide_true, Bool.and_self]
    change execSupplyFaultDetect d rail s = _
    exact onDie_effect hl (whenB_holds hdue)
  case back =>
    intro d s hl x t hback hfence hrails hcause hlate
    change execSupplyReturnTimeout d s = _
    have hdue : (!fenced s d && railsIn s d && bitAt (causes s d) 1 && t + 10 * msTicks < s.now) = true := by
      simp only [hfence, hrails, hcause, hlate, decide_true, Bool.and_self]
    refine onDie_effect hl ?_
    simp only [show (diePwr s d).backAt = some t from hback]
    exact whenB_holds hdue
  case fence =>
    intro d rail s hl x hrail hfence hout hdeep s1
    have hdue : (railOk rail && !fenced s d && x.out && (x.deep || (x.faulted && x.since + 100 * msTicks < s.now))) =
        true := by
      simp only [hrail, hfence, hout, hdeep, Bool.and_self]
    change execSupplyFenceTimeout d rail s = _
    exact onDie_effect hl (whenB_holds hdue)
  case railReturns =>
    intro d rail mv s hl hrail hout hwindow now s1 s2 x
    have hdue : (railOk rail && (railOf s d rail).out && (rail ≠ 1 || !(railReads s d 1 mv false false).1)) = true := by
      simp only [hrail, hout, hwindow, Bool.and_self]
    change execRailReturnsToWindow d rail mv s = _
    exact onDie_effect hl (whenB_holds hdue)
  case core =>
    intro d up s hl x mv v hfence hlo hhi hperiod
    have hdue : (!fenced s d && 650 ≤ v && v ≤ 850 && x.coreAt + 100 * usTicks ≤ s.now) = true := by
      simp only [hfence, hlo, hhi, hperiod, decide_true, Bool.and_self]
    change execVddCoreRequest d up s = _
    exact onDie_effect hl (whenB_holds hdue)

/-! ## The queue and the tick (log entry 5) -/

/-- With a command at the front of the queue a step is that command's run on the state with the rest of the queue. -/
theorem step_front {s : State} {c : Instr} {rest : List Instr} (hq : s.pending = c :: rest) :
    step s = exec c { s with pending := rest } := by
  simp only [step, hq]

/-- With an empty queue a step is a tick. -/
theorem step_empty {s : State} (hq : s.pending = []) : step s = .next (idleTick s) := by
  simp only [step, hq]

/-- Settles O32: the queue is not empty. -/
theorem stepRunsFrontCommand : Obligations.StepRunsFrontCommand := by
  intro c rest s hq
  exact step_front hq

/-- Settles O33: beyond the tick itself, what becomes due with it keeps what every row keeps. -/
theorem emptyQueuePassesOneTick : Obligations.EmptyQueuePassesOneTick := by
  intro s hq
  obtain ⟨hpart, hnow, hpending, hmem⟩ := idleTick_keeps s
  exact ⟨idleTick s, step_empty hq, hnow, hpart, hpending.trans hq, hmem⟩

end Sys2Proof.Machine

namespace Sys2Proof.Machine

/-! ## How a host command starts (R66, R78, R81, R82) -/

/-- Before EV_READY a command's row does nothing (R66). -/
theorem startCmd_notReady {df : CmdDef} {c : Cmd} {s : State} (h : s.ready = false) : startCmd df c s = .next s := by
  simp only [startCmd, h, Bool.false_and, Bool.false_eq_true, if_false]

/-- Settles O37: each row is `startCmd` of its command. -/
theorem hostRowsRunTheirCommand : Obligations.HostRowsRunTheirCommand := by
  refine ⟨fun _ _ _ => startCmd_notReady, fun c s => ?_⟩
  and_intros <;> rfl

section
variable {df : CmdDef} {c : Cmd} {s : State} {st : Nat}

/-- A command whose turn it is goes through the checks of R78. -/
theorem startCmd_begins (hr : s.ready = true) (hc : cplFree s c.port c.ring = true) (ho : orderOk s c = true)
    (hd : dueFirst s c = false) (hs : strobeFirst s = false) : startCmd df c s = .next (beginCmd df c s) := by
  simp only [startCmd, hr, hc, ho, hd, hs, Bool.not_false, Bool.and_self, if_true]

theorem beginCmd_failed (h : checkCmd df c s = some st) : beginCmd df c s = failCmd df c st s := by
  simp only [beginCmd, h]

theorem beginCmd_passed (h : checkCmd df c s = none) : beginCmd df c s = startChecked df c s := by
  simp only [beginCmd, h]

theorem flagsOk_iff : flagsOk c = true ↔ c.flags < 32 ∧ c.applyAt % 256 = 0 := by
  simp only [flagsOk, Bool.and_eq_true, decide_eq_true_eq]

/-- Check 4 of R78: the target's classes are among those that the command is defined for. -/
def classesOk (df : CmdDef) (c : Cmd) (s : State) : Bool :=
  if df.onGroup && isGroup c.unit then classOk df c.unit else (expansion s c.unit).all fun u => classOk df u

/-- A group counts as class 0x40 for a command that acts on it as such; else each unit counts. -/
theorem classesOk_iff : classesOk df c s = true ↔
    if df.onGroup = true ∧ isGroup c.unit = true then df.cls 0x40 0 = true
      else ∀ u ∈ expansion s c.unit, classOk df u = true := by
  by_cases h : df.onGroup = true ∧ isGroup c.unit = true
  · simp [classesOk, classOk, h]
  · rw [if_neg h, classesOk, if_neg (by simpa using h), List.all_eq_true]

/-- The checks of R78 in their order. -/
theorem checkCmd_eq (df : CmdDef) (c : Cmd) (s : State) : checkCmd df c s =
    if !flagsOk c then some stBadPayload
    else if !idFormOk c.unit then some stBadUnitId
    else if !unitPresent s c.unit then some stUnitAbsent
    else if !classesOk df c s then some stBadClass
    else if !df.payOk s c then some stBadPayload
    else none := rfl

end

/-- Settles O38: each hypothesis decides one check, and the checks before it have passed. -/
theorem firstFailedCheckEnds : Obligations.FirstFailedCheckEnds := by
  intro df c s hr hc ho hd hs flags form here cls
  have hflags : flagsOk c = true ↔ flags := flagsOk_iff
  have hcls : classesOk df c s = true ↔ cls := classesOk_iff
  have hstart : startCmd df c s = .next (beginCmd df c s) := startCmd_begins hr hc ho hd hs
  have hfails : ∀ {st}, checkCmd df c s = some st → startCmd df c s = .next (failCmd df c st s) := fun h =>
    hstart.trans (congrArg _ (beginCmd_failed h))
  have hpass : ∀ {b : Bool}, b = true → ¬(!b) = true := fun h => by simp [h]
  have hfail : ∀ {b : Bool}, ¬b = true → (!b) = true := fun h => by simpa using h
  refine ⟨fun h1 => hfails ?_, fun h1 h2 => hfails ?_, fun h1 h2 h3 => hfails ?_, fun h1 h2 h3 h4 => hfails ?_,
    fun h1 h2 h3 h4 h5 => hfails ?_, fun h1 h2 h3 h4 h5 => hstart.trans (congrArg _ (beginCmd_passed ?_))⟩
  · rw [checkCmd_eq, if_pos (hfail (mt hflags.1 h1))]
  · rw [checkCmd_eq, if_neg (hpass (hflags.2 h1)), if_pos (hfail h2)]
  · rw [checkCmd_eq, if_neg (hpass (hflags.2 h1)), if_neg (hpass h2), if_pos (hfail h3)]
  · rw [checkCmd_eq, if_neg (hpass (hflags.2 h1)), if_neg (hpass h2), if_neg (hpass h3), if_pos (hfail (mt hcls.1 h4))]
  · rw [checkCmd_eq, if_neg (hpass (hflags.2 h1)), if_neg (hpass h2), if_neg (hpass h3), if_neg (hpass (hcls.2 h4)),
      if_pos (hfail (by simp [h5]))]
  · rw [checkCmd_eq, if_neg (hpass (hflags.2 h1)), if_neg (hpass h2), if_neg (hpass h3), if_neg (hpass (hcls.2 h4)),
      if_neg (hpass h5)]

/-- What follows the checks for a command with APPLY_AT whose target is not locked (R81, R82). -/
theorem startChecked_applyAt {df : CmdDef} {c : Cmd} {s : State} (hl : targetLocked df c s = false)
    (ha : c.applyAt ≠ 0) : startChecked df c s =
      let us := cmdUnits df c s
      let ahead := tickDiff (c.applyAt / 256) (unitTime s (us.headD c.unit))
      if 2 ^ 31 < tickDiff (c.applyAt / 256) (dieTime s 0) then failCmd df c stApplyTooFar s
      else if 0 < ahead then
        if 1024 ≤ schedCount s then failCmd df c stBusy s
        else newFlight df c us (some (s.now + ahead.toNat)) false s
      else if ahead < 0 && bitAt c.flags 3 then failCmd df c stTooLate s
      else runFlight df s.host.nextId (newFlight df c us none (ahead < 0) s) := by
  simp only [startChecked, hl, Bool.false_eq_true, if_false, if_neg ha, gt_iff_lt]

/-- Settles O40: each hypothesis selects a branch of what follows the checks. -/
theorem applyAtDecidesTheStart : Obligations.ApplyAtDecidesTheStart := by
  intro df c s hr hc ho hd hs hk hl us t ahead far
  rw [startCmd_checks hr hc ho hd hs hk]
  refine ⟨fun ha => congrArg _ ?now, fun ha hfar => congrArg _ ?far, fun ha hfar hpos hfull => congrArg _ ?busy,
    fun ha hfar hpos hroom => congrArg _ ?later, fun ha hfar hneg hstrict => congrArg _ ?tooLate,
    fun ha hfar hneg hlax => congrArg _ ?late, fun ha hfar hzero => congrArg _ ?onTime⟩
  case now => simp only [startChecked, hl, ha, Bool.false_eq_true, if_false, if_true, us]
  all_goals rw [startChecked_applyAt hl ha]
  case far => exact if_pos hfar
  case busy => exact (if_neg hfar).trans ((if_pos hpos).trans (if_pos hfull))
  case later => exact (if_neg hfar).trans ((if_pos hpos).trans (if_neg (Nat.not_le.2 hroom)))
  case tooLate =>
    refine (if_neg hfar).trans ((if_neg (not_lt.2 hneg.le)).trans (if_pos ?_))
    rw [decide_eq_true hneg, hstrict]
    rfl
  case late =>
    refine (if_neg hfar).trans ((if_neg (not_lt.2 hneg.le)).trans ((if_neg ?_).trans ?_))
    · rw [hlax, Bool.and_false]
      exact Bool.false_ne_true
    · rw [decide_eq_true hneg]
  case onTime =>
    have hnot : decide (ahead < 0) = false := decide_eq_false (not_lt.2 hzero.ge)
    refine (if_neg hfar).trans ((if_neg (not_lt.2 hzero.le)).trans ((if_neg ?_).trans ?_))
    · rw [hnot]
      exact Bool.false_ne_true
    · rw [hnot]

end Sys2Proof.Machine

namespace Sys2Proof.Machine

/-! ## The completion entry (R72, R85) -/

theorem memRead_congr {s t : State} (h : t.mem = s.mem) (r : Region) (a n : Nat) : memRead t r a n = memRead s r a n :=
  readList_congr fun _ _ => readByte_congr h _

/-- A read inside the bytes written gives its part of them. -/
theorem memRead_memWrite_part (s : State) (r : Region) (a : Nat) {bs : List Byte} {k n : Nat}
    (h : k + n ≤ bs.length) : memRead (memWrite s r a bs) r (a + k) n = (bs.drop k).take n := by
  refine List.ext_getElem (by simp only [memRead, readList_length, List.length_take, List.length_drop]; omega)
    fun i hi _ => ?_
  have hin : i < n := by simpa only [memRead, readList_length] using hi
  calc (memRead (memWrite s r a bs) r (a + k) n)[i]
      = readByte (memWrite s r a bs) (regionBase r + (a + k) + i) := readList_getElem ..
    _ = readByte (memWrite s r a bs) (regionBase r + a + (k + i)) := congrArg _ (by omega)
    _ = bs[k + i] := writeList_read bs s.mem _ (k + i) _ (List.getElem?_eq_getElem (by omega))
    _ = ((bs.drop k).take n)[i] := by rw [List.getElem_take, List.getElem_drop]

section
variable (tag : W32) (st : Nat) (phase late : Bool) (res : List Byte) (time : Nat)

theorem cplBytes_tag : ((cplBytes tag st phase late res time).drop 0).take 4 = leBytes 4 tag.toNat := by
  simp [cplBytes]

theorem cplBytes_status : ((cplBytes tag st phase late res time).drop 4).take 2 = leBytes 2 st := by
  simp [cplBytes]

theorem cplBytes_flags :
    ((cplBytes tag st phase late res time).drop 6).take 2 = leBytes 2 (b2n phase + 2 * b2n late) := by
  simp [cplBytes, List.drop_append, List.drop_eq_nil_of_le]

theorem cplBytes_result : ((cplBytes tag st phase late res time).drop 8).take 16 = padTo 16 (res.take 16) := by
  simp [cplBytes, List.drop_append, List.drop_eq_nil_of_le]

theorem cplBytes_time :
    ((cplBytes tag st phase late res time).drop 24).take 8 = leBytes 8 (time % 2 ^ 56 * 256) := by
  simp [cplBytes, List.drop_append, List.drop_eq_nil_of_le]

end

/-- A result of at most 16 bytes is padded to 16. -/
theorem padTo_take {res : List Byte} (h : res.length ≤ 16) :
    padTo 16 (res.take 16) = res ++ List.replicate (16 - res.length) 0 := by
  rw [List.take_of_length_le h, padTo]

section
variable (s : State) (c : Cmd) (st : Nat) (late : Bool) (res : List Byte) (time : Nat)

/-- The place of a ring pair's next completion entry in its port's host memory. -/
def cplOfs (s : State) (p n : Nat) : Nat :=
  pairAddr s p (rHstCqBaseLo n) (rHstCqBaseHi n) + 32 * (cplRing s p n).prod

theorem cplSlot_sub_base (p n : Nat) : cplSlot s p n - regionBase (.host p) = cplOfs s p n := by
  rw [cplSlot, Nat.add_assoc, Nat.add_sub_cancel_left, cplOfs]

/-- The memory with the completion entry of a command in its place. -/
def withEntry (s : State) (c : Cmd) (st : Nat) (late : Bool) (res : List Byte) (time : Nat) : State :=
  hostWrite s c.port (cplOfs s c.port c.ring) (cplBytes c.tag st (cplRing s c.port c.ring).phase late res time)

variable {s c st late res time}

/-- A completion that a ring takes is written at the producer's place, and the producer moves on (R72, R85). -/
theorem writeCpl_written (hg : cplGone s c.port c.ring = false) (hl : linkUp s c.port = true)
    (hq : ¬(bitAt c.flags 2 = true ∧ st = 0)) :
    let q := cplRing s c.port c.ring
    let last := q.prod + 1 = ringDepth (getF s c.port (fHstCqCtlLog2Depth c.ring))
    ∃ (irqs : List (Nat × Nat)) (k : Nat) (a : Option Nat), writeCpl s c st late res time =
      setCplRing { withEntry s c st late res time with host := { s.host with irqs := irqs } } c.port c.ring
        ⟨if last then 0 else q.prod + 1, q.cons, if last then !q.phase else q.phase, k, a, q.err⟩ := by
  have hquiet : ¬(bitAt c.flags 2 && st = 0) = true := by simpa using hq
  intro q last
  simp only [writeCpl, hg, hl, Bool.not_true, Bool.or_self, Bool.false_eq_true, if_false, if_neg hquiet]
  by_cases hirq : bitAt c.flags 4 = true
  · simp only [if_pos hirq]
    exact ⟨_, _, _, rfl⟩
  · simp only [if_neg hirq]
    generalize hm : moderate _ _ _ _ _ = m
    obtain ⟨irqs, hstate⟩ := moderate_changes hm
    rw [hstate]
    exact ⟨irqs, _, _, rfl⟩

/-- A field of the entry is read at its place. -/
theorem memRead_writeCpl (hg : cplGone s c.port c.ring = false) (hl : linkUp s c.port = true)
    (hq : ¬(bitAt c.flags 2 = true ∧ st = 0)) {k n : Nat} (hk : k + n ≤ 32) :
    memRead (writeCpl s c st late res time) (.host c.port) (cplSlot s c.port c.ring - regionBase (.host c.port) + k) n =
      ((cplBytes c.tag st (cplRing s c.port c.ring).phase late res time).drop k).take n := by
  obtain ⟨irqs, _, _, h⟩ := writeCpl_written (late := late) (res := res) (time := time) hg hl hq
  have hmem : (writeCpl s c st late res time).mem = (withEntry s c st late res time).mem := by
    rw [h, setCplRing_mem]
  rw [memRead_congr hmem, cplSlot_sub_base, withEntry, hostWrite,
    memRead_memWrite_part _ _ _ (by rwa [cplBytes_length])]

theorem readByte_writeCpl_other {a : Nat} (ha : a < cplSlot s c.port c.ring ∨ cplSlot s c.port c.ring + 32 ≤ a) :
    readByte (writeCpl s c st late res time) a = readByte s a := by
  obtain ⟨mem, _, _, h, hmem⟩ := writeCpl_changes s c st late res time
  rw [h]
  exact hmem a ha

/-- The status of the entry (R85). -/
theorem memNat_writeCpl_status (hg : cplGone s c.port c.ring = false) (hl : linkUp s c.port = true)
    (hq : ¬(bitAt c.flags 2 = true ∧ st = 0)) (hst : st < 2 ^ 16) :
    memNat (writeCpl s c st late res time) (.host c.port)
      (cplSlot s c.port c.ring - regionBase (.host c.port) + 4) 2 = st := by
  rw [memNat, memRead_writeCpl hg hl hq (by decide), cplBytes_status, leNat_leBytes]
  exact Nat.mod_eq_of_lt hst

end

/-- Settles O44: each field is read back from the bytes of the entry, and the ring's record is the one written. -/
theorem completionEntryHasItsLayout : Obligations.CompletionEntryHasItsLayout := by
  intro s c st late res time hg hl hq hst hres t q a last
  have hread : ∀ {k n}, k + n ≤ 32 → memRead t (.host c.port) (a + k) n =
      ((cplBytes c.tag st q.phase late res time).drop k).take n := fun hk => memRead_writeCpl hg hl hq hk
  obtain ⟨irqs, k, at_, hring⟩ := writeCpl_written (late := late) (res := res) (time := time) hg hl hq
  refine ⟨?tag, memNat_writeCpl_status hg hl hq hst, ?flags, ?result, ?time, ?prod, ?phase,
    fun _ hx => readByte_writeCpl_other hx⟩
  case tag =>
    rw [memNat, ← Nat.add_zero a, hread (by decide), cplBytes_tag, leNat_leBytes]
    exact Nat.mod_eq_of_lt c.tag.isLt
  case flags =>
    have hphase := b2n_lt_two q.phase
    have hlate := b2n_lt_two late
    rw [memNat, hread (by decide), cplBytes_flags, leNat_leBytes]
    omega
  case result => rw [hread (by decide), cplBytes_result, padTo_take hres]
  case time =>
    rw [memNat, hread (by decide), cplBytes_time, leNat_leBytes]
    omega
  case prod =>
    change (cplRing (writeCpl s c st late res time) c.port c.ring).prod = _
    rw [hring, cplRing_setCplRing]
  case phase =>
    change (cplRing (writeCpl s c st late res time) c.port c.ring).phase = _
    rw [hring, cplRing_setCplRing]

/-- A completion that is not written changes nothing (R75, R77, R86). -/
theorem writeCpl_dropped {s : State} {c : Cmd} {st : Nat} (late : Bool) (res : List Byte) (time : Nat)
    (h : ¬(cplGone s c.port c.ring = false ∧ linkUp s c.port = true ∧ ¬(bitAt c.flags 2 = true ∧ st = 0))) :
    writeCpl s c st late res time = s := by
  by_cases hgone : (cplGone s c.port c.ring || !linkUp s c.port) = true
  · exact if_pos hgone
  · have hquiet : (bitAt c.flags 2 && decide (st = 0)) = true := by
      simp only [Bool.or_eq_true, Bool.not_eq_true', not_or, Bool.not_eq_true, Bool.not_eq_false] at hgone
      obtain ⟨hg, hl⟩ := hgone
      simpa [hg, hl] using h
    exact (if_neg hgone).trans (if_pos hquiet)

/-- A completion leaves the completion ring of every other pair alone. -/
theorem cplRing_writeCpl_ne (s : State) (c : Cmd) (st : Nat) (late : Bool) (res : List Byte) (time : Nat) {p n : Nat}
    (h : 64 * p + n ≠ 64 * c.port + c.ring) : cplRing (writeCpl s c st late res time) p n = cplRing s p n := by
  by_cases hw : cplGone s c.port c.ring = false ∧ linkUp s c.port = true ∧ ¬(bitAt c.flags 2 = true ∧ st = 0)
  · obtain ⟨hg, hl, hq⟩ := hw
    obtain ⟨_, _, _, hwritten⟩ := writeCpl_written (late := late) (res := res) (time := time) hg hl hq
    rw [hwritten, cplRing_setCplRing_ne _ h]
    rfl
  · rw [writeCpl_dropped late res time hw]

/-! ## A command that fails a check (R78) -/

/-- A failed check gives one of four statuses, none of them SUCCESS. -/
theorem checkCmd_status {df : CmdDef} {c : Cmd} {s : State} {st : Nat} (h : checkCmd df c s = some st) :
    st = stBadPayload ∨ st = stBadUnitId ∨ st = stUnitAbsent ∨ st = stBadClass := by
  rw [checkCmd_eq] at h
  grind

theorem checkCmd_status_fits {df : CmdDef} {c : Cmd} {s : State} {st : Nat} (h : checkCmd df c s = some st) :
    st ≠ 0 ∧ st < 2 ^ 16 := by
  obtain rfl | rfl | rfl | rfl := checkCmd_status h <;> decide

/-- Settles O39: the command comes to its completion and nothing else. -/
theorem failedCommandHasNoEffect : Obligations.FailedCommandHasNoEffect := by
  intro df c s st hr hc ho hd hs hk
  obtain ⟨hne, hlt⟩ := checkCmd_status_fits hk
  refine ⟨failCmd df c st s, (startCmd_begins hr hc ho hd hs).trans (congrArg _ (beginCmd_failed hk)), ?_⟩
  rw [failCmd]
  generalize (if r50Op df.op || _ then _ else _) = res
  obtain ⟨mem, cqs, irqs, hcpl, -⟩ := writeCpl_changes s c st false res (unitTime s c.unit)
  refine ⟨?machine, ?host, fun _ _ => cplRing_writeCpl_ne s c st false res _, fun _ => readByte_writeCpl_other,
    fun hg hl => memNat_writeCpl_status hg hl (fun h => hne h.2) hlt⟩
  case machine => rw [hcpl]
  case host => rw [hcpl]

end Sys2Proof.Machine

namespace Sys2Proof.Machine

/-! ## Rows of host and drive links, PERST# and PLL losses (R56, R67, R91, R163 to R166, R476, R599, R620) -/

/-- Settles O16: each row's condition is the conjunction of the hypotheses. -/
theorem linkEventsTakeEffect : Obligations.LinkEventsTakeEffect := by
  refine ⟨?assert, ?release, ?up, ?down, ?detach, ?drive, ?relock, ?fpll, ?pll, ?busMaster⟩
  case assert =>
    intro port s hl hport hperst s1 s2
    change execPerstAssert port s = _
    exact onDie_effect hl (whenB_holds (Bool.and_eq_true_iff.2 ⟨hport, hperst⟩))
  case release =>
    intro port s hl hport hperst
    change execPerstRelease port s = _
    exact onDie_effect hl (whenB_holds (Bool.and_eq_true_iff.2 ⟨hport, hperst⟩))
  case up =>
    intro port gt width s hl up hport hperst hup hlock hgt hwidth hnew s1 s2 s3
    change execHostLinkUp port gt width s = _
    refine onDie_effect hl (whenB_holds ?_)
    simp only [hport, hperst, show (_ || _) = true from hup, hlock, hgt, hwidth, hnew, decide_true, Bool.and_self]
  case down =>
    intro port s hl hport
    change execHostLinkDown port s = _
    exact onDie_effect hl (whenB_holds hport)
  case detach =>
    intro port s hl hport
    change execHostDetachTimeout port s = _
    exact onDie_effect hl (whenB_holds hport)
  case drive =>
    intro d s hl p t ht hdrive hperst hlock hfence hdue
    change execDrivePerstRelease d s = _
    refine onDie_effect hl ?_
    simp only [show (portOf s d).perstAt = some t from ht]
    refine (whenB_holds ?_).trans (by rw [ht])
    simp only [Bool.and_eq_true, decide_eq_true_eq]
    exact ⟨⟨⟨⟨hdrive, hperst⟩, hlock⟩, hfence⟩, hdue⟩
  case relock =>
    intro d k s hl p hk hdie hrelock hlock hawake n s1
    have hdue : (k < 8 && (k ≠ 7 || d = 0) && p.relock && !p.locked && awake s (pllUid d k)) = true := by
      simp only [hk, hdie, hrelock, hlock, hawake, decide_true, Bool.and_self]
    change execPllRelockFail d k s = _
    exact onDie_effect hl (whenB_holds hdue)
  case fpll =>
    intro d s hl hlock hrun hfence
    change execFpllLockLoss d s = _
    refine onDie_effect hl (whenB_holds ?_)
    simp only [hlock, hrun, hfence, Bool.and_self]
  case pll =>
    intro d k s hl p hone hk hdie hlock hawake
    have hdue : (1 ≤ k && k < 8 && (k ≠ 7 || d = 0) && p.locked && awake s (pllUid d k)) = true := by
      simp only [hone, hk, hdie, hlock, hawake, decide_true, Bool.and_self]
    change execPllLockLoss d k s = _
    exact onDie_effect hl (whenB_holds hdue)
  case busMaster =>
    intro port s hl hport hlink hmaster
    change execBusMasterEnableClear port s = _
    refine onDie_effect hl (whenB_holds ?_)
    simp only [hport, hlink, hmaster, Bool.and_self]

/-! ## Rows of rings (R74, R79 to R95) -/

/-- A DRAINING pair none of whose commands is open is DISABLED, whichever of its two rings the row names (R74). -/
theorem execRingDrainDone_pair {kind : RingKind} {port n : Nat} {s : State} (hkind : kind = .command ∨ kind = .completion)
    (hport : isPort s port = true) (hn : n < 64) (hst : getF s port (fHstCrStatState n) = rsDraining)
    (hopen : (!(s.host.flights.any fun f => f.cmd.port = port && f.cmd.ring = n)) = true) :
    execRingDrainDone kind port n s = .next (setF s port (fHstCrStatState n) rsDisabled) := by
  have hdue : (isPort s port && n < 64 && getF s port (fHstCrStatState n) = rsDraining &&
      !(s.host.flights.any fun f => f.cmd.port = port && f.cmd.ring = n)) = true := by
    simp only [hport, hn, hst, hopen, decide_true, Bool.and_self]
  obtain rfl | rfl := hkind
  · exact congrArg _ (whenB_holds hdue)
  · exact congrArg _ (whenB_holds hdue)

/-- Settles O11: each row's condition is the conjunction of the hypotheses. -/
theorem ringEventsTakeEffect : Obligations.RingEventsTakeEffect := by
  refine ⟨?fetch, ?applyAt, ?timeout, ?drainCommand, ?drainCompletion, ?drainStream, ?release, ?late, ?irqCompletion,
    ?irqEvent, ?deliver, ?flush⟩
  case fetch =>
    intro port descOk extOk s hl hr hport hread hawake n hpick
    change execCommandFetch port descOk extOk s = _
    refine onDie_effect hl ((whenB_holds ?_).trans ?_)
    · simp only [hr, hport, hread, hawake, Bool.and_self]
    · simp only [hpick]
  case applyAt =>
    intro s f hf hdue hstrobe
    change execApplyAtReached s = _
    simp only [execApplyAtReached, hf]
    exact congrArg _ (whenB_holds (Bool.and_eq_true_iff.2 ⟨decide_eq_true hdue, hstrobe⟩))
  case timeout =>
    intro id s f hf t ht hsched hdue s1 u at_
    change execCommandTimeout id s = _
    simp only [execCommandTimeout, hf, ht]
    exact congrArg _ (whenB_holds (Bool.and_eq_true_iff.2 ⟨hsched, decide_eq_true hdue⟩))
  case drainCommand =>
    intro kind port n s hkind
    exact execRingDrainDone_pair (.inl hkind)
  case drainCompletion =>
    intro kind port n s hkind
    exact execRingDrainDone_pair (.inr hkind)
  case drainStream =>
    rintro _ port n s rfl hn hst s1
    exact congrArg _ (whenB_holds (Bool.and_eq_true_iff.2 ⟨decide_eq_true hn, decide_eq_true hst⟩))
  case release =>
    intro s e r hfirst hhold hfence hrel
    change execEventRelease s = _
    simp only [execEventRelease, hfirst]
    exact congrArg _ (whenB_holds (by simp only [hhold, hfence, hrel, Bool.and_self]))
  case late =>
    intro k s x hx hwait hfence s1
    change execEventLateArrival k s = _
    simp only [execEventLateArrival, hx]
    exact congrArg _ (whenB_holds (Bool.and_eq_true_iff.2 ⟨hwait, hfence⟩))
  case irqCompletion =>
    rintro _ port n s rfl q code t ht hport hn hcode hen hdue
    change execIrqTimerExpiry .completion port n s = _
    simp only [execIrqTimerExpiry, show (cplRing s port n).irqAt = some t from ht]
    refine congrArg _ (whenB_holds ?_)
    simp only [Bool.and_eq_true, decide_eq_true_eq]
    exact ⟨⟨⟨⟨hport, hn⟩, hcode⟩, hen⟩, hdue⟩
  case irqEvent =>
    rintro _ port n s rfl q code t ht hport hcode hen hdue
    change execIrqTimerExpiry .event port n s = _
    simp only [execIrqTimerExpiry, show (evRing s port).irqAt = some t from ht]
    refine congrArg _ (whenB_holds ?_)
    simp only [Bool.and_eq_true, decide_eq_true_eq]
    exact ⟨⟨⟨hport, hcode⟩, hen⟩, hdue⟩
  case deliver =>
    intro r readOk s k hk hr hserves e rs hnext b
    change execEnvelopeDeliver r readOk s = _
    simp only [execEnvelopeDeliver, hk]
    refine congrArg _ ((whenB_holds (Bool.and_eq_true_iff.2 ⟨decide_eq_true hr, hserves⟩)).trans ?_)
    simp only [hnext, b]
  case flush =>
    intro r s q n hr hserves hopen hfilled hn hdue
    change execSrFlushTimeout r s = _
    refine congrArg _ (whenB_holds ?_)
    simp only [Bool.and_eq_true, decide_eq_true_eq]
    exact ⟨⟨⟨⟨⟨hr, hserves⟩, hopen⟩, hfilled⟩, hn⟩, hdue⟩

end Sys2Proof.Machine

namespace Sys2Proof.Machine

/-! ## Fields of registers, and registers beside each other (R485) -/

section
variable {f g : Fld} {v w m : W32} {s : State} {d o o' x : Nat}

/-- Bit `i` of a field is bit `lo + i` of its dword. -/
theorem testBit_getFld (f : Fld) (v : W32) (i : Nat) :
    (getFld f v).testBit i = (decide (i < f.w) && v.getLsbD (f.lo + i)) := by
  rw [getFld, bits, Nat.testBit_mod_two_pow, Nat.testBit_div_two_pow, BitVec.getLsbD, Nat.add_comm]

theorem getFld_congr (h : ∀ i < f.w, v.getLsbD (f.lo + i) = w.getLsbD (f.lo + i)) : getFld f v = getFld f w := by
  refine Nat.eq_of_testBit_eq fun i => ?_
  rw [testBit_getFld, testBit_getFld]
  by_cases hi : i < f.w
  · rw [h i hi]
  · rw [decide_eq_false hi, Bool.false_and, Bool.false_and]

theorem getLsbD_of_getFld_eq (h : getFld f v = getFld f w) {i : Nat} (hi : i < f.w) :
    v.getLsbD (f.lo + i) = w.getLsbD (f.lo + i) := by
  have hbit := congrArg (Nat.testBit · i) h
  simpa only [testBit_getFld, decide_eq_true hi, Bool.true_and] using hbit

/-- Replacing a field sets its bits to the number's and leaves the other bits alone. -/
theorem getLsbD_putFld (f : Fld) (v : W32) (x : Nat) {i : Nat} (hi : i < 32) : (putFld f v x).getLsbD i =
    if f.lo ≤ i ∧ i < f.lo + f.w then x.testBit (i - f.lo) else v.getLsbD i := by
  have hmask : ((2 ^ f.w - 1) * 2 ^ f.lo).testBit i = decide (f.lo ≤ i ∧ i < f.lo + f.w) := by
    rw [Nat.testBit_mul_two_pow, Nat.testBit_two_pow_sub_one, ← Bool.decide_and]
    exact decide_eq_decide.2 (by omega)
  have hval : (x % 2 ^ f.w * 2 ^ f.lo).testBit i = (decide (f.lo ≤ i ∧ i < f.lo + f.w) && x.testBit (i - f.lo)) := by
    rw [Nat.testBit_mul_two_pow, Nat.testBit_mod_two_pow, ← Bool.and_assoc, ← Bool.decide_and]
    exact congrArg (· && _) (decide_eq_decide.2 (by omega))
  simp only [putFld, BitVec.getLsbD_or, BitVec.getLsbD_and, BitVec.getLsbD_not, BitVec.getLsbD_ofNat, hi, hmask, hval,
    decide_true, Bool.true_and]
  split
  · next hin => simp [hin]
  · next hout => simp [hout]

theorem getFld_putFld (h : f.lo + f.w ≤ 32) (v : W32) (x : Nat) : getFld f (putFld f v x) = x % 2 ^ f.w := by
  refine Nat.eq_of_testBit_eq fun i => ?_
  rw [testBit_getFld, Nat.testBit_mod_two_pow]
  by_cases hi : i < f.w
  · rw [getLsbD_putFld f v x (by omega), if_pos (by omega), Nat.add_sub_cancel_left]
  · rw [decide_eq_false hi, Bool.false_and, Bool.false_and]

/-- Replacing a field leaves a field beside it alone. -/
theorem getFld_putFld_ne (hg : g.lo + g.w ≤ 32) (h : g.lo + g.w ≤ f.lo ∨ f.lo + f.w ≤ g.lo) (v : W32) (x : Nat) :
    getFld g (putFld f v x) = getFld g v :=
  getFld_congr fun i hi => by rw [getLsbD_putFld f v x (by omega), if_neg (by omega)]

theorem mergeBits_getLsbD_of_not_mask {old : W32} {k : Nat} (hk : k < 32) (hm : m.getLsbD k = false) :
    (mergeBits m old v).getLsbD k = old.getLsbD k := by
  simp only [mergeBits, BitVec.getLsbD_or, BitVec.getLsbD_and, BitVec.getLsbD_not, hm, hk, decide_true, Bool.not_false,
    Bool.and_true, Bool.and_false, Bool.or_false]

theorem regKey_ne (d : Nat) (h : o ≠ o') : regKey d o ≠ regKey d o' := fun he => h (Nat.add_left_cancel he)

theorem reg_congr {t : State} (h : t.regs = s.regs) (d o : Nat) : reg t d o = reg s d o := by
  rw [reg, h, reg]

theorem getF_congr {t : State} (h : reg t d f.ofs = reg s d f.ofs) : getF t d f = getF s d f := by
  rw [getF, h, getF]

theorem reg_setF (s : State) (d : Nat) (f : Fld) (x : Nat) :
    reg (setF s d f x) d f.ofs = putFld f (reg s d f.ofs) x := reg_setReg ..

theorem reg_setF_ne (s : State) {d' : Nat} (h : regKey d' o ≠ regKey d f.ofs) (x : Nat) :
    reg (setF s d f x) d' o = reg s d' o := reg_setReg_ne s h _

end

/-! ## A ring in ERROR (R75, R99) -/

section
variable {s : State} {p n : Nat}

/-- Posting enters one event among those under way. -/
theorem post_queues (s : State) (d code unit time : Nat) (data : List Byte) : ∃ merge transit,
    post s d code unit time data = { s with host := { s.host with merge := merge, transit := transit } } ∧
      merge.length + transit.length = s.host.merge.length + s.host.transit.length + 1 := by
  simp only [post, postStamp]
  split
  · exact ⟨_, _, rfl, by rw [List.length_append, List.length_singleton, Nat.add_assoc]⟩
  · exact ⟨_, _, rfl, by rw [List.length_append, List.length_singleton]; omega⟩

/-- The registers of a port when one of its ring pairs has entered ERROR, before the event is posted. -/
def pairErrorRegs (s : State) (p n err : Nat) : State :=
  setFlag (setF (setF s p (fHstCrStatState n) rsError) p (fHstCrStatErr n) err) p fHstPortStatRingErr true

theorem pairErrorRegs_mem (s : State) (p n err : Nat) : (pairErrorRegs s p n err).mem = s.mem :=
  (setFlag_mem ..).trans ((setF_mem ..).trans (setF_mem ..))

theorem pairErrorRegs_host (s : State) (p n err : Nat) : (pairErrorRegs s p n err).host = s.host :=
  (setFlag_host ..).trans ((setF_host ..).trans (setF_host ..))

/-- A ring pair that enters ERROR changes its STAT register and RING_ERR, and posts one event. -/
theorem cmdRingError_eq (s : State) (p kind n err : Nat) : ∃ merge transit,
    cmdRingError s p kind n err =
      { pairErrorRegs s p n err with host := { s.host with merge := merge, transit := transit } } ∧
      merge.length + transit.length = s.host.merge.length + s.host.transit.length + 1 := by
  obtain ⟨merge, transit, ht, hlen⟩ := post_queues (pairErrorRegs s p n err) p 0x0F02 (portUid p) (dieTime s p)
    (leBytes 1 kind ++ leBytes 1 0 ++ leBytes 2 n ++ leBytes 1 err)
  rw [pairErrorRegs_host] at ht hlen
  exact ⟨merge, transit, ht, hlen⟩

theorem reg_pairErrorRegs_stat (s : State) (p n err : Nat) : reg (pairErrorRegs s p n err) p (rHstCrStat n) =
    putFld (fHstCrStatErr n) (putFld (fHstCrStatState n) (reg s p (rHstCrStat n)) rsError) err := by
  have hport : rHstCrStat n ≠ rHstPortStat := by simp only [rHstCrStat, rHstPortStat]; omega
  calc reg (pairErrorRegs s p n err) p (rHstCrStat n)
      = reg (setF (setF s p (fHstCrStatState n) rsError) p (fHstCrStatErr n) err) p (rHstCrStat n) :=
        reg_setF_ne _ (regKey_ne p hport) _
    _ = putFld (fHstCrStatErr n) (reg (setF s p (fHstCrStatState n) rsError) p (rHstCrStat n)) err := reg_setF ..
    _ = _ := congrArg (putFld (fHstCrStatErr n) · err) (reg_setF s p (fHstCrStatState n) rsError)

theorem getF_pairErrorRegs_state (s : State) (p n err : Nat) :
    getF (pairErrorRegs s p n err) p (fHstCrStatState n) = 3 := by
  change getFld (fHstCrStatState n) (reg (pairErrorRegs s p n err) p (rHstCrStat n)) = 3
  have hhigh : (fHstCrStatErr n).lo + (fHstCrStatErr n).w ≤ (fHstCrStatState n).lo := by
    simp [fHstCrStatState, fHstCrStatErr]
  have hfits : (fHstCrStatState n).lo + (fHstCrStatState n).w ≤ 32 := by simp [fHstCrStatState]
  rw [reg_pairErrorRegs_stat, getFld_putFld_ne hfits (.inr hhigh), getFld_putFld hfits]
  rfl

theorem getF_pairErrorRegs_err (s : State) (p n : Nat) {err : Nat} (h : err < 64) :
    getF (pairErrorRegs s p n err) p (fHstCrStatErr n) = err := by
  change getFld (fHstCrStatErr n) (reg (pairErrorRegs s p n err) p (rHstCrStat n)) = err
  rw [reg_pairErrorRegs_stat, getFld_putFld (by simp [fHstCrStatErr])]
  exact Nat.mod_eq_of_lt h

theorem getF_pairErrorRegs_index (s : State) (p n err : Nat) :
    getF (pairErrorRegs s p n err) p (fHstCrStatIndex n) = getF s p (fHstCrStatIndex n) := by
  have hlow : (fHstCrStatIndex n).lo + (fHstCrStatIndex n).w ≤ 32 := by simp [fHstCrStatIndex]
  change getFld (fHstCrStatIndex n) (reg (pairErrorRegs s p n err) p (rHstCrStat n)) = _
  rw [reg_pairErrorRegs_stat, getFld_putFld_ne hlow (.inl (by simp [fHstCrStatIndex, fHstCrStatErr])),
    getFld_putFld_ne hlow (.inl (by simp [fHstCrStatIndex, fHstCrStatState]))]
  rfl

theorem flagF_pairErrorRegs (s : State) (p n err : Nat) :
    flagF (pairErrorRegs s p n err) p fHstPortStatRingErr = true := by
  rw [flagF, getF, pairErrorRegs, setFlag, reg_setF, getFld_putFld (by decide)]
  rfl

/-- What a ring pair's ERROR with a code leaves to be seen (R75, R99). -/
theorem cmdRingError_changes (s : State) (p kind n : Nat) {err : Nat} (h : err < 64) :
    let t := cmdRingError s p kind n err
    getF t p (fHstCrStatState n) = 3 ∧ getF t p (fHstCrStatErr n) = err ∧
      getF t p (fHstCrStatIndex n) = getF s p (fHstCrStatIndex n) ∧ flagF t p fHstPortStatRingErr = true ∧
      t.host.crs = s.host.crs ∧ t.host.cqs = s.host.cqs ∧ t.mem = s.mem ∧
      t.host.merge.length + t.host.transit.length = s.host.merge.length + s.host.transit.length + 1 := by
  obtain ⟨merge, transit, ht, hlen⟩ := cmdRingError_eq s p kind n err
  have hregs : (cmdRingError s p kind n err).regs = (pairErrorRegs s p n err).regs := by rw [ht]
  have hfld : ∀ f, getF (cmdRingError s p kind n err) p f = getF (pairErrorRegs s p n err) p f := fun f =>
    getF_congr (reg_congr hregs p f.ofs)
  refine ⟨(hfld _).trans (getF_pairErrorRegs_state s p n err), (hfld _).trans (getF_pairErrorRegs_err s p n h),
    (hfld _).trans (getF_pairErrorRegs_index s p n err), ?_, ?_⟩
  · rw [flagF, hfld]
    exact flagF_pairErrorRegs s p n err
  · simp only [ht, pairErrorRegs_mem, true_and]
    exact hlen

/-! ## Doorbells (R70, R71, R75, R90) -/

variable {v : Nat}

/-- A doorbell of 16 bits to a ring that takes doorbells is no write to a reserved location (R71). -/
theorem bell_taken {st : Nat} (ht : takesBell st = true) (hv : v < 2 ^ 16) :
    ¬(!takesBell st || decide (2 ^ 16 ≤ v)) = true := by
  rw [ht, decide_eq_false (Nat.not_le.2 hv)]
  exact Bool.false_ne_true

theorem cmdBell_inconsistent {be : Nat} {w : W32} (ht : takesBell (getF s p (fHstCrStatState n)) = true) (hv : v < 2 ^ 16)
    (h : let dep := ringDepth (getF s p (fHstCrCtlLog2Depth n))
      dep ≤ v ∨ dep ≤ ringDist dep (getF s p (fHstCrStatIndex n)) (cmdRing s p n).prod +
        ringDist dep (cmdRing s p n).prod v) : cmdBell p n be w v s = cmdRingError s p 1 n 1 :=
  (if_neg (bell_taken ht hv)).trans (if_pos (by simpa using h))

theorem cqBell_inconsistent {be : Nat} {w : W32} (ht : takesBell (getF s p (fHstCrStatState n)) = true) (hv : v < 2 ^ 16)
    (h : let dep := ringDepth (getF s p (fHstCqCtlLog2Depth n))
      dep ≤ v ∨ ringDist dep (cplRing s p n).cons (cplRing s p n).prod < ringDist dep (cplRing s p n).cons v) :
    cqBell p n be w v s = cmdRingError (setCplRing s p n { cplRing s p n with err := true }) p 2 n 1 :=
  (if_neg (bell_taken ht hv)).trans (if_pos (by simpa using h))

end

theorem cmdRing_congr {s t : State} (h : t.host.crs = s.host.crs) (p n : Nat) : cmdRing t p n = cmdRing s p n := by
  rw [cmdRing, h, cmdRing]

theorem cplRing_congr {s t : State} (h : t.host.cqs = s.host.cqs) (p n : Nat) : cplRing t p n = cplRing s p n := by
  rw [cplRing, h, cplRing]

/-- Settles O52: the doorbell is taken, and its index selects the branch in which the ring pair enters ERROR. -/
theorem inconsistentDoorbellStopsRing : Obligations.InconsistentDoorbellStopsRing := by
  refine ⟨?command, ?completion⟩
  case command =>
    intro s p n v hl hp hn hv ht dep q hbad
    obtain ⟨hstate, herr, hindex, hflag, hcrs, -, hmem, hevent⟩ := cmdRingError_changes s p 1 n (err := 1) (by decide)
    refine ⟨cmdRingError s p 1 n 1, ?_, hstate, herr, hindex, cmdRing_congr hcrs p n, hflag, readByte_congr hmem,
      hevent⟩
    change execCmdDoorbell p n v s = _
    rw [execCmdDoorbell, onPort_effect (due := fun _ => decide (n < 64)) hl hp (decide_eq_true hn),
      cmdBell_inconsistent ht hv hbad]
  case completion =>
    intro s p n v hl hp hn hv ht dep q hbad
    obtain ⟨hstate, herr, -, hflag, -, hcqs, hmem, hevent⟩ :=
      cmdRingError_changes (setCplRing s p n { q with err := true }) p 2 n (err := 1) (by decide)
    refine ⟨_, ?_, hstate, herr, (cplRing_congr hcqs p n).trans (cplRing_setCplRing ..), hflag,
      readByte_congr hmem, hevent⟩
    change execCqDoorbell p n v s = _
    rw [execCqDoorbell, onPort_effect (due := fun _ => decide (n < 64)) hl hp (decide_eq_true hn),
      cqBell_inconsistent ht hv hbad]

end Sys2Proof.Machine

namespace Sys2Proof.Machine

/-! ## Registers of rings that start or stop (R74, R91, R622) -/

section
variable {s u : State} {d oc os : Nat} {f : Fld} {old v w m : W32}

theorem getFld_mergeBits_of_mask (h : ∀ i < f.w, m.getLsbD (f.lo + i) = true) :
    getFld f (mergeBits m old v) = getFld f v :=
  getFld_congr fun i hi => mergeBits_getLsbD_of_mask (h i hi)

/-- A field that the written dword repeats keeps its value, whichever bits are taken. -/
theorem getFld_mergeBits_of_eq (hf : f.lo + f.w ≤ 32) (h : getFld f v = getFld f old) :
    getFld f (mergeBits m old v) = getFld f old := by
  refine getFld_congr fun i hi => ?_
  cases hm : m.getLsbD (f.lo + i)
  · exact mergeBits_getLsbD_of_not_mask (by omega) hm
  · exact (mergeBits_getLsbD_of_mask hm).trans (getLsbD_of_getFld_eq h hi)

/-- Where old and new agree on the masked bits, the mask finds no change. -/
theorem xor_and_eq_zero (h : ∀ i < 32, m.getLsbD i = true → old.getLsbD i = v.getLsbD i) : (old ^^^ v) &&& m = 0 := by
  refine BitVec.eq_of_getLsbD_eq fun i hi => ?_
  rw [BitVec.getLsbD_and, BitVec.getLsbD_xor, show (0 : W32).getLsbD i = false from BitVec.getLsbD_zero]
  cases hm : m.getLsbD i
  · exact Bool.and_false _
  · rw [h i hi hm, Bool.xor_self, Bool.false_and]

/-- A ring that is DISABLED takes every bit of its control register that software writes. -/
theorem ringWrite_disabled (s : State) (d o rw_ lockMask : Nat) (v w : W32) :
    ringWrite s d o rw_ lockMask false v w = setReg s d o (mergeBits (BitVec.ofNat 32 rw_) (reg s d o) v) := rfl

/-- A control register after a write that keeps the fields locked. -/
def ctlKept (s : State) (d oc rw_ lockMask : Nat) (locked : Bool) (v : W32) : W32 :=
  mergeBits (BitVec.ofNat 32 (if locked then rw_ - (rw_ &&& lockMask) else rw_)) (reg s d oc) v

/-- A write that keeps the locked fields is no ring-lock violation, and takes the other bits (R622). -/
theorem ringWrite_kept {rw_ lockMask : Nat} {locked : Bool} (h : (reg s d oc ^^^ v) &&& BitVec.ofNat 32 lockMask = 0) :
    ringWrite s d oc rw_ lockMask locked v w = setReg s d oc (ctlKept s d oc rw_ lockMask locked v) :=
  if_neg (by simp only [h, ne_eq, not_true_eq_false, decide_false, Bool.and_false, Bool.false_eq_true, not_false_eq_true])

theorem hstLocked_open {o : Nat} {g : State → State} (h : lockSet s d 5 = false) : hstLocked s d o w g = g s :=
  if_neg (by rw [h]; exact Bool.false_ne_true)

/-- A ring whose STAT register is at `os` starts: RUNNING, no error, index 0 (R74). -/
def statStarted (u : State) (d os : Nat) : State := setF (setReg u d os 0) d ⟨os, 30, 2⟩ rsRunning

theorem putFld_running (os : Nat) : putFld ⟨os, 30, 2⟩ 0 rsRunning = 0x40000000 := by
  change ((0 : W32) &&& ~~~BitVec.ofNat 32 ((2 ^ 2 - 1) * 2 ^ 30)) ||| BitVec.ofNat 32 (1 % 2 ^ 2 * 2 ^ 30) = _
  decide

theorem reg_statStarted (u : State) (d os : Nat) : reg (statStarted u d os) d os = 0x40000000 :=
  (reg_setF (setReg u d os 0) d ⟨os, 30, 2⟩ rsRunning).trans
    ((congrArg (putFld _ · _) (reg_setReg u d os 0)).trans (putFld_running os))

theorem reg_statStarted_ne {d' o : Nat} (h : regKey d' o ≠ regKey d os) : reg (statStarted u d os) d' o = reg u d' o :=
  (reg_setF_ne (f := ⟨os, 30, 2⟩) _ h _).trans (reg_setReg_ne _ h _)

theorem getF_statStarted (u : State) (d os lo w : Nat) :
    getF (statStarted u d os) d ⟨os, lo, w⟩ = bits 0x40000000 lo w := by
  rw [getF, reg_statStarted]
  rfl

/-- A field of a control register that has taken a value, as the ring is about to start. -/
theorem getF_beforeStart {x : W32} (hu : u.regs = (setReg s d oc x).regs) (hf : f.ofs = oc) (hne : oc ≠ os) :
    getF (setReg u d os 0) d f = getFld f x := by
  rw [getF, hf, reg_setReg_ne _ (regKey_ne d hne), reg_congr hu, reg_setReg]

theorem getF_beforeStart_ne {d' : Nat} {x : W32} (hu : u.regs = (setReg s d oc x).regs)
    (hc : regKey d' f.ofs ≠ regKey d oc) (hs : regKey d' f.ofs ≠ regKey d os) :
    getF (setReg u d os 0) d' f = getF s d' f :=
  getF_congr ((reg_setReg_ne _ hs _).trans ((reg_congr hu ..).trans (reg_setReg_ne _ hc _)))

theorem statStarted_eq (u : State) (d os : Nat) :
    statStarted u d os = { u with regs := (statStarted u d os).regs } := rfl

/-- The registers after a control register has taken a value and its ring has started. -/
theorem started_registers {x : W32} (hu : u.regs = (setReg s d oc x).regs) (hne : oc ≠ os) :
    reg (statStarted u d os) d oc = x ∧ ∀ d' o, regKey d' o ≠ regKey d oc → regKey d' o ≠ regKey d os →
      reg (statStarted u d os) d' o = reg s d' o := by
  refine ⟨?_, fun d' o hc hs => ?_⟩
  · rw [reg_statStarted_ne (regKey_ne d hne), reg_congr hu, reg_setReg]
  · rw [reg_statStarted_ne hs, reg_congr hu, reg_setReg_ne s hc]

/-- The state after a control register at `oc` has taken a value and the STATE field at `os` another (R74). -/
def stateMoved (s : State) (d oc os : Nat) (x : W32) (st : Nat) : State := setF (setReg s d oc x) d ⟨os, 30, 2⟩ st

theorem stateMoved_eq (s : State) (d oc os : Nat) (x : W32) (st : Nat) :
    stateMoved s d oc os x st = { s with regs := (stateMoved s d oc os x st).regs } := rfl

theorem stateMoved_registers (s : State) (d : Nat) (x : W32) (st : Nat) (hne : oc ≠ os) :
    reg (stateMoved s d oc os x st) d oc = x ∧
      reg (stateMoved s d oc os x st) d os = putFld ⟨os, 30, 2⟩ (reg s d os) st ∧
      ∀ d' o, regKey d' o ≠ regKey d oc → regKey d' o ≠ regKey d os →
        reg (stateMoved s d oc os x st) d' o = reg s d' o := by
  refine ⟨?_, ?_, fun d' o hc hs => ?_⟩
  · exact (reg_setF_ne (f := ⟨os, 30, 2⟩) _ (regKey_ne d hne) _).trans (reg_setReg ..)
  · exact (reg_setF (setReg s d oc x) d ⟨os, 30, 2⟩ st).trans
      (congrArg (putFld _ · _) (reg_setReg_ne s (regKey_ne d hne.symm) x))
  · exact (reg_setF_ne (f := ⟨os, 30, 2⟩) _ hs _).trans (reg_setReg_ne s hc x)

end

/-! ## Doorbells within the ring (R70, R71, R75, R90) -/

section
variable {s : State} {p n r v be : Nat} {w : W32}

theorem cmdBell_moves (ht : takesBell (getF s p (fHstCrStatState n)) = true) (hv : v < 2 ^ 16)
    (hin : v < ringDepth (getF s p (fHstCrCtlLog2Depth n)))
    (hroom : let dep := ringDepth (getF s p (fHstCrCtlLog2Depth n))
      ringDist dep (getF s p (fHstCrStatIndex n)) (cmdRing s p n).prod + ringDist dep (cmdRing s p n).prod v < dep) :
    cmdBell p n be w v s = setCmdRing s p n { cmdRing s p n with prod := v } :=
  (if_neg (bell_taken ht hv)).trans (if_neg (by simpa using ⟨hin, hroom⟩))

theorem cqBell_moves (ht : takesBell (getF s p (fHstCrStatState n)) = true) (hv : v < 2 ^ 16)
    (hin : v < ringDepth (getF s p (fHstCqCtlLog2Depth n)))
    (hroom : let dep := ringDepth (getF s p (fHstCqCtlLog2Depth n))
      ringDist dep (cplRing s p n).cons v ≤ ringDist dep (cplRing s p n).cons (cplRing s p n).prod) :
    cqBell p n be w v s = setCplRing s p n { cplRing s p n with cons := v } :=
  (if_neg (bell_taken ht hv)).trans (if_neg (by simpa using ⟨hin, hroom⟩))

theorem evrBell_moves (ht : takesBell (getF s p fHstEvrStatState) = true) (hv : v < 2 ^ 16)
    (hin : v < ringDepth (getF s p fHstEvrCtlLog2Depth))
    (hroom : let dep := ringDepth (getF s p fHstEvrCtlLog2Depth)
      ringDist dep (evRing s p).cons v ≤ ringDist dep (evRing s p).cons (getF s p fHstEvrStatIndex)) :
    evrBell p be w v s = flushHeld p 258 (setEvRing s p { evRing s p with cons := v }) :=
  (if_neg (bell_taken ht hv)).trans (if_neg (by simpa using ⟨hin, hroom⟩))

theorem srBell_moves (ht : takesBell (getF s 0 (fHstSrStatState r)) = true) (hv : v < 2 ^ 16)
    (hin : v < ringDepth (getF s 0 (fHstSrCtlLog2Depth r)))
    (hroom : let dep := ringDepth (getF s 0 (fHstSrCtlLog2Depth r))
      ringDist dep (getF s 0 (fHstSrStatIndex r)) (strRing s r).prod + ringDist dep (strRing s r).prod v < dep) :
    srBell (getF s 0 (fHstSrCtlPort r)) r be w v s = setStrRing s r { strRing s r with prod := v } := by
  have htaken : ¬(decide (getF s 0 (fHstSrCtlPort r) ≠ getF s 0 (fHstSrCtlPort r)) ||
      !takesBell (getF s 0 (fHstSrStatState r)) || decide (2 ^ 16 ≤ v)) = true := by
    rw [decide_eq_false (not_not_intro rfl), Bool.false_or]
    exact bell_taken ht hv
  exact (if_neg htaken).trans (if_neg (by simpa using ⟨hin, hroom⟩))

/-- With no event held or lost nothing follows into the slots (R90). -/
theorem flushHeld_nothing (k : Nat) (hheld : (evRing s p).held = []) (hlost : (evRing s p).lost = 0) :
    flushHeld p k s = s := by
  cases k with
  | zero => rfl
  | succ k => simp only [flushHeld, hheld, hlost, ne_eq, not_true_eq_false, if_false, ite_self]

end

/-! ## Rings that start (R74, R91) -/

section
variable {s : State} {p n r : Nat} {v w : W32}

theorem rHstCr_distinct (n : Nat) :
    rHstCrCtl n ≠ rHstCrStat n ∧ rHstCqCtl n ≠ rHstCrCtl n ∧ rHstCqCtl n ≠ rHstCrStat n := by
  simp only [rHstCrCtl, rHstCrStat, rHstCqCtl]
  omega

theorem rHstSr_distinct (r : Nat) : rHstSrCtl r ≠ rHstSrStat r := by
  simp only [rHstSrCtl, rHstSrStat]
  omega

/-- HST_PORT_ID of a port is no register of a stream ring of die 0. -/
theorem portId_ne_sr (p : Nat) (_ : r < 512) :
    regKey p rHstPortId ≠ regKey 0 (rHstSrCtl r) ∧ regKey p rHstPortId ≠ regKey 0 (rHstSrStat r) := by
  simp only [regKey, rHstPortId, rHstSrCtl, rHstSrStat]
  omega

/-- HST_CR_CTL as a DISABLED pair takes it. -/
def crCtlOpen (s : State) (p n : Nat) (v : W32) : W32 :=
  mergeBits (BitVec.ofNat 32 0x8003001F) (reg s p (rHstCrCtl n)) v

/-- The pair with its control register written and its indices at their start. -/
def pairReset (s : State) (p n : Nat) (v : W32) : State :=
  setCplRing (setCmdRing (setReg s p (rHstCrCtl n) (crCtlOpen s p n v)) p n CmdRing.reset) p n CplRing.reset

theorem pairReset_regs (s : State) (p n : Nat) (v : W32) :
    (pairReset s p n v).regs = (setReg s p (rHstCrCtl n) (crCtlOpen s p n v)).regs :=
  (setCplRing_regs ..).trans (setCmdRing_regs ..)

/-- Writing a control register changes the registers alone, beside the rings' records. -/
theorem setRings_setReg (s : State) (p n d o : Nat) (x : W32) (a : CmdRing) (b : CplRing) (l : Tab W32) :
    { setCplRing (setCmdRing (setReg s d o x) p n a) p n b with regs := l } =
      { setCplRing (setCmdRing s p n a) p n b with regs := l } := rfl

theorem setEvRing_setReg (s : State) (p d o : Nat) (x : W32) (q : EvRing) (l : Tab W32) :
    { setEvRing (setReg s d o x) p q with regs := l } = { setEvRing s p q with regs := l } := rfl

theorem setStrRing_setReg (s : State) (r d o : Nat) (x : W32) (q : StrRing) (l : Tab W32) :
    { setStrRing (setReg s d o x) r q with regs := l } = { setStrRing s r q with regs := l } := rfl

theorem getFld_crCtlOpen_depth (s : State) (p n : Nat) (v : W32) :
    getFld (fHstCrCtlLog2Depth n) (crCtlOpen s p n v) = getFld (fHstCrCtlLog2Depth n) v :=
  getFld_mergeBits_of_mask (show ∀ i < 5, (BitVec.ofNat 32 0x8003001F).getLsbD (0 + i) = true by decide)

theorem crEnable_starts (hlock : lockSet s p 5 = false) (hst : getF s p (fHstCrStatState n) = rsDisabled)
    (hcr : depthOk (getFld (fHstCrCtlLog2Depth n) v) = true) (hcq : depthOk (getF s p (fHstCqCtlLog2Depth n)) = true) :
    crEnable p n v w s = statStarted (pairReset s p n v) p (rHstCrStat n) := by
  obtain ⟨hctl, hcqCtl, hcqStat⟩ := rHstCr_distinct n
  have hdepth : getF (setReg (pairReset s p n v) p (rHstCrStat n) 0) p (fHstCrCtlLog2Depth n) =
      getFld (fHstCrCtlLog2Depth n) v :=
    (getF_beforeStart (pairReset_regs s p n v) rfl hctl).trans (getFld_crCtlOpen_depth s p n v)
  have hkept : getF (setReg (pairReset s p n v) p (rHstCrStat n) 0) p (fHstCqCtlLog2Depth n) =
      getF s p (fHstCqCtlLog2Depth n) :=
    getF_beforeStart_ne (pairReset_regs s p n v) (regKey_ne p hcqCtl) (regKey_ne p hcqStat)
  rw [crEnable, hstLocked_open hlock]
  simp only [hst, decide_true, Bool.not_true, Bool.false_eq_true, if_false, ringWrite_disabled]
  exact (if_neg (by rw [← crCtlOpen, ← pairReset, hdepth, hcr]; exact Bool.false_ne_true)).trans
    (if_neg (by rw [← crCtlOpen, ← pairReset, hkept, hcq]; exact Bool.false_ne_true))

/-- HST_EVR_CTL as a DISABLED event ring takes it. -/
def evrCtlOpen (s : State) (p : Nat) (v : W32) : W32 := mergeBits (BitVec.ofNat 32 0xFFFFFF9F) (reg s p rHstEvrCtl) v

/-- The event ring with its control register written and its indices at their start; the events held stay. -/
def evrReset (s : State) (p : Nat) (v : W32) : State :=
  setEvRing (setReg s p rHstEvrCtl (evrCtlOpen s p v)) p
    { evRing s p with cons := 0, phase := true, irqN := 0, irqAt := none, dropAll := false }

theorem evRing_setReg (s : State) (d o : Nat) (x : W32) (p : Nat) : evRing (setReg s d o x) p = evRing s p := rfl

theorem evrReset_regs (s : State) (p : Nat) (v : W32) :
    (evrReset s p v).regs = (setReg s p rHstEvrCtl (evrCtlOpen s p v)).regs := setEvRing_regs ..

theorem getFld_evrCtlOpen_depth (s : State) (p : Nat) (v : W32) :
    getFld fHstEvrCtlLog2Depth (evrCtlOpen s p v) = getFld fHstEvrCtlLog2Depth v :=
  getFld_mergeBits_of_mask (show ∀ i < 5, (BitVec.ofNat 32 0xFFFFFF9F).getLsbD (0 + i) = true by decide)

theorem evrEnable_starts (hlock : lockSet s p 5 = false) (hst : getF s p fHstEvrStatState = rsDisabled)
    (hd : depthOk (getFld fHstEvrCtlLog2Depth v) = true) :
    evrEnable p v w s = flushHeld p 258 (statStarted (evrReset s p v) p rHstEvrStat) := by
  have hdepth : getF (setReg (evrReset s p v) p rHstEvrStat 0) p fHstEvrCtlLog2Depth = getFld fHstEvrCtlLog2Depth v :=
    (getF_beforeStart (evrReset_regs s p v) rfl (by decide)).trans (getFld_evrCtlOpen_depth s p v)
  rw [evrEnable, hstLocked_open hlock]
  simp only [hst, decide_true, Bool.not_true, Bool.false_eq_true, if_false, ringWrite_disabled]
  rw [evRing_setReg, ← evrCtlOpen, ← evrReset, hdepth, hd, Bool.not_true, if_neg Bool.false_ne_true]
  exact congrArg (flushHeld p 258) rfl

/-- HST_SR_CTL as a DISABLED stream ring takes it. -/
def srCtlOpen (s : State) (r : Nat) (v : W32) : W32 := mergeBits (BitVec.ofNat 32 0xFFFF1D1F) (reg s 0 (rHstSrCtl r)) v

/-- The stream ring with its control register written and its indices at their start. -/
def srReset (s : State) (r : Nat) (v : W32) : State :=
  setStrRing (setReg s 0 (rHstSrCtl r) (srCtlOpen s r v)) r StrRing.reset

theorem srReset_regs (s : State) (r : Nat) (v : W32) :
    (srReset s r v).regs = (setReg s 0 (rHstSrCtl r) (srCtlOpen s r v)).regs := setStrRing_regs ..

theorem getFld_srCtlOpen_depth (s : State) (r : Nat) (v : W32) :
    getFld (fHstSrCtlLog2Depth r) (srCtlOpen s r v) = getFld (fHstSrCtlLog2Depth r) v :=
  getFld_mergeBits_of_mask (show ∀ i < 5, (BitVec.ofNat 32 0xFFFF1D1F).getLsbD (0 + i) = true by decide)

theorem getFld_srCtlOpen_port (s : State) (r : Nat) (v : W32) :
    getFld (fHstSrCtlPort r) (srCtlOpen s r v) = getFld (fHstSrCtlPort r) v :=
  getFld_mergeBits_of_mask (show ∀ i < 3, (BitVec.ofNat 32 0xFFFF1D1F).getLsbD (10 + i) = true by decide)

theorem srEnable_starts (hr : r < 512) (hlock : lockSet s 0 5 = false)
    (hst : getF s 0 (fHstSrStatState r) = rsDisabled) (hd : depthOk (getFld (fHstSrCtlLog2Depth r) v) = true)
    (hp : portServes s (getFld (fHstSrCtlPort r) v) = true) :
    srEnable r v w s = statStarted (srReset s r v) 0 (rHstSrStat r) := by
  have hdepth : getF (setReg (srReset s r v) 0 (rHstSrStat r) 0) 0 (fHstSrCtlLog2Depth r) =
      getFld (fHstSrCtlLog2Depth r) v :=
    (getF_beforeStart (srReset_regs s r v) rfl (rHstSr_distinct r)).trans (getFld_srCtlOpen_depth s r v)
  have hport : getF (setReg (srReset s r v) 0 (rHstSrStat r) 0) 0 (fHstSrCtlPort r) = getFld (fHstSrCtlPort r) v :=
    (getF_beforeStart (srReset_regs s r v) rfl (rHstSr_distinct r)).trans (getFld_srCtlOpen_port s r v)
  have hserves : ∀ q, portServes (setReg (srReset s r v) 0 (rHstSrStat r) 0) q = portServes s q := fun q => by
    obtain ⟨hctl, hstat⟩ := portId_ne_sr q hr
    have hlink := getF_beforeStart_ne (f := fHstPortIdLinkGt) (srReset_regs s r v) hctl hstat
    rw [portServes, linkUp, hlink]
    rfl
  rw [srEnable, hstLocked_open hlock]
  simp only [hst, decide_true, Bool.not_true, Bool.false_eq_true, if_false, ringWrite_disabled]
  exact (if_neg (by rw [← srCtlOpen, ← srReset, hdepth, hd]; exact Bool.false_ne_true)).trans
    (if_neg (by rw [← srCtlOpen, ← srReset, hport, hserves, hp]; exact Bool.false_ne_true))

end

/-! ## Rings that drain or stop (R74, R91) -/

section
variable {s : State} {p n r : Nat} {v w : W32}

/-- A dword that repeats LOG2_DEPTH changes no locked bit of HST_CR_CTL and HST_EVR_CTL. -/
theorem depthBits_kept {o : Nat} {old : W32} (h : getFld ⟨o, 0, 5⟩ v = getFld ⟨o, 0, 5⟩ old) :
    (old ^^^ v) &&& BitVec.ofNat 32 0x1F = 0 := by
  have hmask : ∀ i < 32, (BitVec.ofNat 32 0x1F).getLsbD i = true → i < 5 := by decide
  refine xor_and_eq_zero fun i hi hm => ?_
  have hbit := getLsbD_of_getFld_eq h (show i < 5 from hmask i hi hm)
  rw [Nat.zero_add] at hbit
  exact hbit.symm

/-- A dword that repeats LOG2_DEPTH and PORT changes no locked bit of HST_SR_CTL. -/
theorem srBits_kept {o : Nat} {old : W32} (hd : getFld ⟨o, 0, 5⟩ v = getFld ⟨o, 0, 5⟩ old)
    (hp : getFld ⟨o, 10, 3⟩ v = getFld ⟨o, 10, 3⟩ old) : (old ^^^ v) &&& BitVec.ofNat 32 0x1C1F = 0 := by
  have hmask : ∀ i < 32, (BitVec.ofNat 32 0x1C1F).getLsbD i = true → i < 5 ∨ ∃ j < 3, i = 10 + j := by decide
  refine xor_and_eq_zero fun i hi hm => ?_
  obtain hlow | ⟨j, hj, rfl⟩ := hmask i hi hm
  · have hbit := getLsbD_of_getFld_eq hd (show i < 5 from hlow)
    rw [Nat.zero_add] at hbit
    exact hbit.symm
  · exact (getLsbD_of_getFld_eq hp (show j < 3 from hj)).symm

/-- A ring that is RUNNING or in ERROR is not DISABLED, and drains when EN is cleared. -/
theorem runningOrError {st : Nat} (h : st = 1 ∨ st = 3) :
    decide (st ≠ rsDisabled) = true ∧ (decide (st = rsRunning) || decide (st = rsError)) = true := by
  obtain rfl | rfl := h <;> decide

theorem crDisable_drains (hlock : lockSet s p 5 = false)
    (hst : getF s p (fHstCrStatState n) = 1 ∨ getF s p (fHstCrStatState n) = 3)
    (hd : getFld (fHstCrCtlLog2Depth n) v = getF s p (fHstCrCtlLog2Depth n)) :
    crDisable p n v w s = stateMoved s p (rHstCrCtl n) (rHstCrStat n)
      (ctlKept s p (rHstCrCtl n) 0x8003001F 0x1F true v) rsDraining := by
  obtain ⟨hon, hdrains⟩ := runningOrError hst
  rw [crDisable, hstLocked_open hlock]
  simp only [hon, hdrains, if_true, ringWrite_kept (oc := rHstCrCtl n) (depthBits_kept hd)]
  rfl

theorem evrDisable_stops (hlock : lockSet s p 5 = false)
    (hd : getFld fHstEvrCtlLog2Depth v = getF s p fHstEvrCtlLog2Depth) :
    evrDisable p v w s = stateMoved s p rHstEvrCtl rHstEvrStat
      (ctlKept s p rHstEvrCtl 0xFFFFFF9F 0x1F (getF s p fHstEvrStatState ≠ rsDisabled) v) rsDisabled := by
  rw [evrDisable, hstLocked_open hlock]
  simp only [ringWrite_kept (oc := rHstEvrCtl) (depthBits_kept hd)]
  rfl

theorem srDisable_drains (hlock : lockSet s 0 5 = false)
    (hst : getF s 0 (fHstSrStatState r) = 1 ∨ getF s 0 (fHstSrStatState r) = 3)
    (hd : getFld (fHstSrCtlLog2Depth r) v = getF s 0 (fHstSrCtlLog2Depth r))
    (hp : getFld (fHstSrCtlPort r) v = getF s 0 (fHstSrCtlPort r)) :
    srDisable r v w s = stateMoved s 0 (rHstSrCtl r) (rHstSrStat r)
      (ctlKept s 0 (rHstSrCtl r) 0xFFFF1D1F 0x1C1F true v) rsDraining := by
  obtain ⟨hon, hdrains⟩ := runningOrError hst
  rw [srDisable, hstLocked_open hlock]
  simp only [hon, hdrains, if_true, ringWrite_kept (oc := rHstSrCtl r) (srBits_kept hd hp)]
  rfl

end

/-- Settles O53: an index ahead within the ring selects the doorbell's last branch, and a control register written with
its locked fields kept selects the branch in which the ring starts, drains or stops. -/
theorem ringAccessesComplete : Obligations.RingAccessesComplete := by
  refine ⟨?cmdBell, ?cqBell, ?evrBell, ?srBell, ?cmdEnable, ?cmdDisable, ?evrEnable, ?evrDisable, ?srEnable, ?srDisable⟩
  case cmdBell =>
    intro s p n v hl hp hn hv ht dep q hin hroom
    exact (onPort_effect (due := fun _ => decide (n < 64)) hl hp (decide_eq_true hn)).trans
      (congrArg _ (cmdBell_moves ht hv hin hroom))
  case cqBell =>
    intro s p n v hl hp hn hv ht dep q hin hroom
    exact (onPort_effect (due := fun _ => decide (n < 64)) hl hp (decide_eq_true hn)).trans
      (congrArg _ (cqBell_moves ht hv hin hroom))
  case evrBell =>
    intro s p v hl hp hv ht dep q hin hroom
    have hbell : exec (.evrDoorbell p v) s = .next (flushHeld p 258 (setEvRing s p { q with cons := v })) :=
      (onPort_shown hl hp).trans (congrArg _ (evrBell_moves ht hv hin hroom))
    refine ⟨hbell, fun hheld hlost => hbell.trans (congrArg _ (flushHeld_nothing 258 ?_ ?_))⟩
    · rw [evRing_setEvRing]
      exact hheld
    · rw [evRing_setEvRing]
      exact hlost
  case srBell =>
    intro s r v hl hp hr hv ht dep q hin hroom
    exact (onPort_effect (due := fun _ => decide (r < 512)) hl hp (decide_eq_true hr)).trans
      (congrArg _ (srBell_moves ht hv hin hroom))
  case cmdEnable =>
    intro s p n v hl hp hn hen hlock hst hcr hcq
    obtain ⟨hne, -, -⟩ := rHstCr_distinct n
    obtain ⟨hctl, hothers⟩ := started_registers (pairReset_regs s p n v) hne
    refine ⟨statStarted (pairReset s p n v) p (rHstCrStat n), ?_, (statStarted_eq ..).trans (setRings_setReg ..), ?_, ?_,
      getF_statStarted .., getF_statStarted .., getF_statStarted .., hothers⟩
    · exact (onPort_effect (due := fun _ => n < 64 && v.getLsbD 31) hl hp
        (Bool.and_eq_true_iff.2 ⟨decide_eq_true hn, hen⟩)).trans (congrArg _ (crEnable_starts hlock hst hcr hcq))
    · exact (congrArg (getFld _) hctl).trans (getFld_crCtlOpen_depth s p n v)
    · rw [hctl, crCtlOpen, mergeBits_getLsbD_of_mask (by decide), hen]
  case cmdDisable =>
    intro s p n v hl hp hn hen hlock hst hd
    obtain ⟨hne, -, -⟩ := rHstCr_distinct n
    obtain ⟨hctl, hstat, hothers⟩ := stateMoved_registers s p
      (ctlKept s p (rHstCrCtl n) 0x8003001F 0x1F true v) rsDraining hne
    refine ⟨stateMoved s p (rHstCrCtl n) (rHstCrStat n) (ctlKept s p (rHstCrCtl n) 0x8003001F 0x1F true v) rsDraining, ?_,
      stateMoved_eq .., ?_, ?_, hstat, hothers⟩
    · exact (onPort_effect (due := fun _ => n < 64 && !v.getLsbD 31) hl hp
        (Bool.and_eq_true_iff.2 ⟨decide_eq_true hn, by rw [hen]; rfl⟩)).trans
        (congrArg _ (crDisable_drains hlock hst hd))
    · rw [hctl, ctlKept, mergeBits_getLsbD_of_mask (by decide), hen]
    · exact (congrArg (getFld _) hctl).trans (getFld_mergeBits_of_eq (show 0 + 5 ≤ 32 by decide) hd)
  case evrEnable =>
    intro s p v hl hp hen hlock hst hd
    obtain ⟨hctl, hothers⟩ := started_registers (evrReset_regs s p v) (os := rHstEvrStat) (by decide)
    refine ⟨statStarted (evrReset s p v) p rHstEvrStat, ?_, (statStarted_eq ..).trans (setEvRing_setReg ..), ?_, ?_,
      getF_statStarted .., getF_statStarted .., getF_statStarted .., hothers⟩
    · exact (onPort_effect (due := fun _ => v.getLsbD 7) hl hp hen).trans (congrArg _ (evrEnable_starts hlock hst hd))
    · exact (congrArg (getFld _) hctl).trans (getFld_evrCtlOpen_depth s p v)
    · rw [hctl, evrCtlOpen, mergeBits_getLsbD_of_mask (by decide), hen]
  case evrDisable =>
    intro s p v hl hp hen hlock hd
    have hmask : ∀ locked : Bool,
        (BitVec.ofNat 32 (if locked then 0xFFFFFF9F - (0xFFFFFF9F &&& 0x1F) else 0xFFFFFF9F)).getLsbD 7 = true := by decide
    generalize hx : ctlKept s p rHstEvrCtl 0xFFFFFF9F 0x1F (getF s p fHstEvrStatState ≠ rsDisabled) v = x
    obtain ⟨hctl, hstat, hothers⟩ := stateMoved_registers s p x rsDisabled (show rHstEvrCtl ≠ rHstEvrStat by decide)
    refine ⟨stateMoved s p rHstEvrCtl rHstEvrStat x rsDisabled, ?_, stateMoved_eq .., ?_, ?_, hstat, hothers⟩
    · exact (onPort_effect (due := fun _ => !v.getLsbD 7) hl hp (by rw [hen]; rfl)).trans
        (congrArg _ ((evrDisable_stops hlock hd).trans (by rw [hx])))
    · rw [hctl, ← hx, ctlKept, mergeBits_getLsbD_of_mask (hmask _), hen]
    · refine (congrArg (getFld _) hctl).trans ?_
      rw [← hx]
      exact getFld_mergeBits_of_eq (show 0 + 5 ≤ 32 by decide) hd
  case srEnable =>
    intro s r v hm hr hen hlock hst hd hport
    obtain ⟨hctl, hothers⟩ := started_registers (srReset_regs s r v) (rHstSr_distinct r)
    refine ⟨statStarted (srReset s r v) 0 (rHstSrStat r), ?_, (statStarted_eq ..).trans (setStrRing_setReg ..), ?_, ?_,
      ?_, getF_statStarted .., getF_statStarted .., getF_statStarted .., hothers⟩
    · exact congrArg _ ((whenB_holds (by simp only [hm, hr, hen, decide_true, Bool.and_self])).trans
        (srEnable_starts hr hlock hst hd hport))
    · exact (congrArg (getFld _) hctl).trans (getFld_srCtlOpen_depth s r v)
    · exact (congrArg (getFld _) hctl).trans (getFld_srCtlOpen_port s r v)
    · rw [hctl, srCtlOpen, mergeBits_getLsbD_of_mask (by decide), hen]
  case srDisable =>
    intro s r v hm hr hen hlock hst hd hport
    obtain ⟨hctl, hstat, hothers⟩ := stateMoved_registers s 0 (ctlKept s 0 (rHstSrCtl r) 0xFFFF1D1F 0x1C1F true v)
      rsDraining (rHstSr_distinct r)
    refine ⟨stateMoved s 0 (rHstSrCtl r) (rHstSrStat r) (ctlKept s 0 (rHstSrCtl r) 0xFFFF1D1F 0x1C1F true v) rsDraining,
      ?_, stateMoved_eq .., ?_, ?_, hstat, hothers⟩
    · exact congrArg _ ((whenB_holds (by simp only [hm, hr, hen, decide_true, Bool.not_false, Bool.and_self])).trans
        (srDisable_drains hlock hst hd hport))
    · rw [hctl, ctlKept, mergeBits_getLsbD_of_mask (by decide), hen]
    · exact (congrArg (getFld _) hctl).trans (getFld_mergeBits_of_eq (show 0 + 5 ≤ 32 by decide) hd)

end Sys2Proof.Machine
